-- ==== Sys2Proof/Word.lean ====
section
/-!
DEFINITION. Sys2Proof/Word.lean: the word types of the machine (R2, R3, R28) and nothing else.
A register half is 32 bits, a queue entry, an address and a code word are 64 bits, memory is bytes.
-/

namespace Sys2Proof

/-- A byte of memory (R3). -/
abbrev Byte := BitVec 8
/-- A 32-bit register half (R131). -/
abbrev W32 := BitVec 32
/-- A 64-bit word: a code word, a queue entry or an address (R28, R33, R55). -/
abbrev W64 := BitVec 64

/-- A sparse map: keys strictly rising, no key twice (plain data, in place of a function). -/
abbrev SMap (α : Type) := List (Nat × α)

end Sys2Proof
end

