-- ==== Sys2Proof/Syntax.lean ====
section
/-!
DEFINITION. Sys2Proof/Syntax.lean: the syntax of the machine's steps. Operand selectors (R32), operand types (R30), the
fields of an instruction word (R28) with its literal (R34), the operands of the steps that are no instruction words
(mapping records R425, management commands R412, fabric packets R274, host and supply events), and `Instr` with one
constructor per row of the opcode table.
-/

namespace Sys2Proof

/-- An operand selector (R32). `int` holds the place in 0xC0 to 0xD7: 0 to 15, then -1 to -8. -/
inductive Sel where
  | t (i : Fin 16)
  | v (i : Fin 64)
  | s (i : Fin 96)
  | ch (i : Fin 8)
  | k (i : Fin 8)
  | int (i : Fin 24)
  | flt (i : Fin 8)
  | special (i : Fin 14)
  | reserved (i : Fin 16)
  | lit
  | none
  deriving DecidableEq, Repr, Inhabited

/-- Operand types (R30), in the order of TY; `rsv` is TY 15. -/
inductive Ty where
  | b32 | i32 | n32 | f32 | b64 | i64 | n64 | f16x2 | bf16x2 | f16 | bf16 | e4m3x4 | e5m2x4 | i16x2 | i8x4 | rsv
  deriving DecidableEq, Repr, Inhabited

/-- A source operand: selector, last-use bit and keep bit (R28, R35). -/
structure Src where
  sel : Sel
  l : Bool
  k : Bool
  deriving DecidableEq, Repr, Inhabited

/-- The fields of an instruction word other than OP (R28), and the literal its 0xFE selectors read (R34; zero when
no selector is 0xFE). -/
structure Fields where
  ty : Ty
  pn : Bool
  pk : Fin 8
  dstT : Bool
  rsv44 : Bool
  dst : Sel
  a : Src
  b : Src
  c : Src
  mod : BitVec 6
  lit : W64
  deriving DecidableEq, Repr, Inhabited

/-- The kinds of resource that report a ready bit (R16). -/
inductive Res where
  | svc | rtr | sl | ch | cl | hp | fp | ks
  deriving DecidableEq, Repr, Inhabited

/-- The fields of a mapping record other than CMD (R425). -/
structure MapCmd where
  space : BitVec 6
  size : BitVec 2
  fl : BitVec 4
  cause : BitVec 7
  stamp : W32
  va : W64
  frame : BitVec 21
  count : W32
  cookie : W64
  deriving DecidableEq, Repr, Inhabited

/-- A set of resources of the six kinds of R398 (slices, channels, clusters, host ports, fabric ports, key-service
shares), each a list of numbers. -/
structure ResSet where
  slices : List Nat
  channels : List Nat
  clusters : List Nat
  hostPorts : List Nat
  fabricPorts : List Nat
  shares : List Nat
  deriving DecidableEq, Repr, Inhabited

/-- The operands of CREATE (R412): tag, bitmaps, shape, map, `%pmode`, the tenant's salt (R428), the bounce buffer's
size in 256 MiB steps (R78), and the host port that carries the virtual function (R399). -/
structure CreateCmd where
  tag : Nat
  res : ResSet
  w : Nat
  h : Nat
  map : List W32
  pmode : W64
  salt : List Byte
  bounce : Nat
  vfPort : Nat
  deriving DecidableEq, Repr, Inhabited

/-- The operands of GROW and SHRINK (R412): the resources, the map entries of new positions, the new shape. -/
structure ShapeCmd where
  res : ResSet
  w : Nat
  h : Nat
  map : List (Nat × W32)
  deriving DecidableEq, Repr, Inhabited

/-- The header of a fabric packet (R274) with its byte mask, its payload, and the poison of each payload byte (R53, R286). -/
structure FabPkt where
  dmod : BitVec 11
  smod : BitVec 11
  dtag : BitVec 10
  stag : BitVec 10
  dspace : BitVec 6
  dinc : BitVec 12
  cls : BitVec 3
  det : Bool
  hops : BitVec 2
  seq : BitVec 16
  opc : BitVec 8
  ngr : BitVec 4
  txn : BitVec 12
  ssite : BitVec 12
  va : BitVec 57
  mask : List Bool
  data : List Byte
  pz : List Bool
  /-- A write to a mirrored peer, whose page must have MI = 1 at each copy (R297); the header has no place for it (log 46). -/
  mir : Bool
  deriving DecidableEq, Repr, Inhabited

/-- What a reply or an acknowledgement carries back (R275, R279): ended with a cause, or performed with data bytes, each
64-bit word's poison bit beside them. -/
structure FabAck where
  ended : Bool
  cause : BitVec 7
  data : List Byte
  pz : List Bool
  deriving DecidableEq, Repr, Inhabited

/-- A congestion mark for a source cluster (R406): from a router, a slice, a host port or a fabric port, naming the slice, port or
module it speaks of; or one for a cluster of another module, by module, partition tag there, and site (R275, R283). -/
inductive Mark where
  | router (p : Nat)
  | slice (p sl : Nat)
  | host (p port : Nat)
  | fabric (p mod : Nat)
  | away (mod tag site : Nat)
  deriving DecidableEq, Repr, Inhabited

/-- Messages that move a TDISP interface (R420). -/
inductive Tdisp where
  | lock | start | stop
  deriving DecidableEq, Repr, Inhabited


/-- The 172 operations of the opcode map (R40), one name each. -/
inductive Op where
  | nop
  | br
  | jmp
  | call
  | callr
  | ret
  | rjnEnrol
  | rjnWait
  | rjnLeave
  | exit
  | yield
  | tileSet
  | fwait
  | rgnOpen
  | rgnClose
  | launch
  | cwait
  | dbnz
  | trap
  | trapret
  | brkpt
  | add
  | sub
  | mul
  | mad
  | min
  | max
  | addc
  | subb
  | mulh
  | bfx
  | cmp
  | abs
  | neg
  | sar
  | and
  | or
  | xor
  | andn
  | orn
  | not
  | shl
  | shr
  | rol
  | ror
  | fsh
  | bfi
  | popc
  | clz
  | ctz
  | brev
  | sel
  | movk
  | lea
  | mov
  | fadd
  | fsub
  | fmul
  | ffma
  | fmin
  | fmax
  | fabs
  | fneg
  | fcsgn
  | fcmp
  | fclass
  | frnd
  | fscale
  | fexpo
  | fdot2
  | fdot4
  | cvt
  | cvtPk
  | cvtSr
  | mxq
  | mxdq
  | pack
  | unpack
  | shflIdx
  | shflUp
  | shflDn
  | shflXor
  | voteAny
  | voteAll
  | voteBal
  | voteEq
  | redx
  | scanx
  | xpose
  | perm
  | rdlane
  | wrlane
  | frcp
  | frsq
  | fsqrt
  | fdiv
  | fex2
  | flg2
  | fsin
  | fcos
  | ftanh
  | fsig
  | ferf
  | ld
  | st
  | ldu
  | lds
  | sts
  | pref
  | bind
  | unbind
  | fence
  | stashMap
  | stashUnmap
  | stashWb
  | stashInv
  | atom
  | red
  | cas
  | atoms
  | cass
  | redFlush
  | cp
  | cp2d
  | cpGth
  | cpSct
  | cpMc
  | cpSp
  | cpRt
  | cpFill
  | cpStat
  | cpCancel
  | mxPost
  | mxTeam
  | mxDrain
  | mxZero
  | mxStat
  | mxCancel
  | barInit
  | barArr
  | barExp
  | barWait
  | barTest
  | gbar
  | chnBind
  | chnPop
  | chnTry
  | chnCnt
  | alwBind
  | alwTest
  | alwRd
  | ldf
  | stf
  | atomf
  | casf
  | fcp
  | wcbFlush
  | fpeer
  | sealOpen
  | sealAbs
  | sealFin
  | sealAbt
  | sysrd
  | syswr
  | icinv
  | rtDef
  | fuseRd
  | keyWipe
  | measExt
  | sigVfy
  | dbgOpen
  | halt
  deriving DecidableEq, Repr, Inhabited

/-- One constructor per row of the opcode table: the 172 instructions of R40, each with the fields of R28 and
its literal, then the 101 steps of the other agents, each with what the step is given from outside it. -/
inductive Instr where
  /-- `NOP` (R317): Does nothing and pushes nothing. -/
  | nop (f : Fields)
  /-- `BR` (R308): Relative branch by a clause-count displacement in each executing thread. -/
  | br (f : Fields)
  /-- `JMP` (R308): Absolute transfer to a 64-bit target address. -/
  | jmp (f : Fields)
  /-- `CALL` (R309): Delivers the fall-through address and branches by displacement. -/
  | call (f : Fields)
  /-- `CALLR` (R309): Delivers the fall-through address and transfers to a register target. -/
  | callr (f : Fields)
  /-- `RET` (R308): Transfers to a target address exactly as jmp, feeding the return predictor. -/
  | ret (f : Fields)
  /-- `RJN_ENROL` (R311): Sets the thread's bit in ENR of a rejoin register. -/
  | rjnEnrol (f : Fields)
  /-- `RJN_WAIT` (R311): Marks an enrolled thread arrived and holds it until the join completes. -/
  | rjnWait (f : Fields)
  /-- `RJN_LEAVE` (R311): Clears the thread's enrolment and applies the join check. -/
  | rjnLeave (f : Fields)
  /-- `EXIT` (R314): Closes the region, replays the contrail and ends each executing thread. -/
  | exit (f : Fields)
  /-- `YIELD` (R317): Makes the bundle give up its issue slot after the clause. -/
  | yield (f : Fields)
  /-- `TILE_SET` (R191): Cohort rendezvous that sets the lane tile width. -/
  | tileSet (f : Fields)
  /-- `FWAIT` (R318): Holds each executing thread until all, or any, named flags are clear. -/
  | fwait (f : Fields)
  /-- `RGN_OPEN` (R319): Closes any open region of the cohort and opens a new one. -/
  | rgnOpen (f : Fields)
  /-- `RGN_CLOSE` (R319): Closes the cohort's open region. -/
  | rgnClose (f : Fields)
  /-- `LAUNCH` (R323): Crew leader judges a launch record and queues a child grid or refuses it. -/
  | launch (f : Fields)
  /-- `CWAIT` (R325): Holds the crew's threads until its children retire, suspending the crew if any are outstanding. -/
  | cwait (f : Fields)
  /-- `DBNZ` (R310): Decrements a count, delivers it and branches when it is not zero. -/
  | dbnz (f : Fields)
  /-- `TRAP` (R320): Takes the recoverable trap TRAP_INSTR with the code in %taddr. -/
  | trap (f : Fields)
  /-- `TRAPRET` (R322): Restores the set-aside queue and resumes at the resume point or a given target. -/
  | trapret (f : Fields)
  /-- `BRKPT` (R320): Takes the recoverable trap BREAKPOINT with the code in %taddr. -/
  | brkpt (f : Fields)
  /-- `ADD` (R170): Integer add, wrapping or saturating. -/
  | add (f : Fields)
  /-- `SUB` (R170): Integer subtract, wrapping or saturating. -/
  | sub (f : Fields)
  /-- `MUL` (R170): Integer multiply, low part, wrapping or saturating. -/
  | mul (f : Fields)
  /-- `MAD` (R170): Integer multiply-add as one exact value. -/
  | mad (f : Fields)
  /-- `MIN` (R170): Integer minimum, signed or unsigned by type. -/
  | min (f : Fields)
  /-- `MAX` (R170): Integer maximum, signed or unsigned by type. -/
  | max (f : Fields)
  /-- `ADDC` (R171): Add with carry-in, optionally writing the carry or overflow to a predicate. -/
  | addc (f : Fields)
  /-- `SUBB` (R171): Subtract with borrow-in, optionally writing the borrow or overflow to a predicate. -/
  | subb (f : Fields)
  /-- `MULH` (R170): Upper half of the full integer product. -/
  | mulh (f : Fields)
  /-- `BFX` (R175): Extracts a bit field, sign- or zero-extended. -/
  | bfx (f : Fields)
  /-- `CMP` (R172): Integer comparison returning 0 or 1. -/
  | cmp (f : Fields)
  /-- `ABS` (R170): Integer absolute value. -/
  | abs (f : Fields)
  /-- `NEG` (R170): Integer negation. -/
  | neg (f : Fields)
  /-- `SAR` (R174): Arithmetic shift right. -/
  | sar (f : Fields)
  /-- `AND` (R173): Bitwise AND. -/
  | and (f : Fields)
  /-- `OR` (R173): Bitwise OR. -/
  | or (f : Fields)
  /-- `XOR` (R173): Bitwise XOR. -/
  | xor (f : Fields)
  /-- `ANDN` (R173): A AND NOT B. -/
  | andn (f : Fields)
  /-- `ORN` (R173): A OR NOT B. -/
  | orn (f : Fields)
  /-- `NOT` (R173): Bitwise complement. -/
  | not (f : Fields)
  /-- `SHL` (R174): Logical shift left. -/
  | shl (f : Fields)
  /-- `SHR` (R174): Logical shift right. -/
  | shr (f : Fields)
  /-- `ROL` (R174): Rotate left. -/
  | rol (f : Fields)
  /-- `ROR` (R174): Rotate right. -/
  | ror (f : Fields)
  /-- `FSH` (R174): Funnel shift of two words. -/
  | fsh (f : Fields)
  /-- `BFI` (R175): Inserts a bit field. -/
  | bfi (f : Fields)
  /-- `POPC` (R173): Counts 1 bits. -/
  | popc (f : Fields)
  /-- `CLZ` (R173): Counts leading zeros. -/
  | clz (f : Fields)
  /-- `CTZ` (R173): Counts trailing zeros. -/
  | ctz (f : Fields)
  /-- `BREV` (R173): Reverses the bit order. -/
  | brev (f : Fields)
  /-- `SEL` (R176): Selects A or B by bit 0 of C. -/
  | sel (f : Fields)
  /-- `MOVK` (R176): Replaces one halfword of A with B. -/
  | movk (f : Fields)
  /-- `LEA` (R177): Computes base plus scaled index plus offset, optionally checking the address. -/
  | lea (f : Fields)
  /-- `MOV` (R176): Moves bits with their poison tag, popping or pushing channels. -/
  | mov (f : Fields)
  /-- `FADD` (R178): Floating add rounded once. -/
  | fadd (f : Fields)
  /-- `FSUB` (R178): Floating subtract rounded once. -/
  | fsub (f : Fields)
  /-- `FMUL` (R178): Floating multiply rounded once. -/
  | fmul (f : Fields)
  /-- `FFMA` (R178): Fused multiply-add rounded once. -/
  | ffma (f : Fields)
  /-- `FMIN` (R179): Floating minimum, optionally NaN-propagating. -/
  | fmin (f : Fields)
  /-- `FMAX` (R179): Floating maximum, optionally NaN-propagating. -/
  | fmax (f : Fields)
  /-- `FABS` (R180): Clears the sign bit. -/
  | fabs (f : Fields)
  /-- `FNEG` (R180): Inverts the sign bit. -/
  | fneg (f : Fields)
  /-- `FCSGN` (R180): Magnitude of A with a sign derived from B. -/
  | fcsgn (f : Fields)
  /-- `FCMP` (R181): Floating comparison returning 0 or 1. -/
  | fcmp (f : Fields)
  /-- `FCLASS` (R181): Class mask of A, or a test against a mask. -/
  | fclass (f : Fields)
  /-- `FRND` (R182): Rounds to an integral value in the same format. -/
  | frnd (f : Fields)
  /-- `FSCALE` (R182): Multiplies by a power of two and rounds. -/
  | fscale (f : Fields)
  /-- `FEXPO` (R182): Returns floor(log2|a|) as an integer. -/
  | fexpo (f : Fields)
  /-- `FDOT2` (R183): Two-element dot product plus accumulator, rounded once. -/
  | fdot2 (f : Fields)
  /-- `FDOT4` (R183): Four-element dot product plus accumulator, rounded once. -/
  | fdot4 (f : Fields)
  /-- `CVT` (R184): Converts one value between integer and floating types. -/
  | cvt (f : Fields)
  /-- `CVT_PK` (R185): Converts two FP32 values into packed elements. -/
  | cvtPk (f : Fields)
  /-- `CVT_SR` (R186): Converts with stochastic rounding from a seed. -/
  | cvtSr (f : Fields)
  /-- `MXQ` (R187): Quantises one MX block across the bundle's lanes. -/
  | mxq (f : Fields)
  /-- `MXDQ` (R188): Dequantises one MX element to FP32. -/
  | mxdq (f : Fields)
  /-- `PACK` (R189): Narrows two words into one packed word. -/
  | pack (f : Fields)
  /-- `UNPACK` (R189): Widens one packed element to 32 bits. -/
  | unpack (f : Fields)
  /-- `SHFL_IDX` (R195): Reads A from the tile position given by index. -/
  | shflIdx (f : Fields)
  /-- `SHFL_UP` (R195): Reads A from a lower tile position. -/
  | shflUp (f : Fields)
  /-- `SHFL_DN` (R195): Reads A from a higher tile position. -/
  | shflDn (f : Fields)
  /-- `SHFL_XOR` (R195): Reads A from the position XOR n. -/
  | shflXor (f : Fields)
  /-- `VOTE_ANY` (R196): 1 when some contributor's A is non-zero. -/
  | voteAny (f : Fields)
  /-- `VOTE_ALL` (R196): 1 when every contributor's A is non-zero. -/
  | voteAll (f : Fields)
  /-- `VOTE_BAL` (R196): Ballot mask of contributors with A non-zero. -/
  | voteBal (f : Fields)
  /-- `VOTE_EQ` (R196): 1 when all contributors' A are equal. -/
  | voteEq (f : Fields)
  /-- `REDX` (R197): Fixed-tree reduction over the tile's contributors. -/
  | redx (f : Fields)
  /-- `SCANX` (R197): Ascending prefix fold over the tile's contributors. -/
  | scanx (f : Fields)
  /-- `XPOSE` (R198): Transposes a square of elements across the tile. -/
  | xpose (f : Fields)
  /-- `PERM` (R199): Byte permutation of two words within the thread. -/
  | perm (f : Fields)
  /-- `RDLANE` (R199): Cohort rendezvous reading A of a given lane. -/
  | rdlane (f : Fields)
  /-- `WRLANE` (R199): A in the named lane, C elsewhere. -/
  | wrlane (f : Fields)
  /-- `FRCP` (R201): Reciprocal on the special-function unit. -/
  | frcp (f : Fields)
  /-- `FRSQ` (R201): Reciprocal square root. -/
  | frsq (f : Fields)
  /-- `FSQRT` (R201): Square root, correctly rounded. -/
  | fsqrt (f : Fields)
  /-- `FDIV` (R201): Division, correctly rounded. -/
  | fdiv (f : Fields)
  /-- `FEX2` (R201): Power of two. -/
  | fex2 (f : Fields)
  /-- `FLG2` (R201): Base-2 logarithm. -/
  | flg2 (f : Fields)
  /-- `FSIN` (R201): Sine in radians. -/
  | fsin (f : Fields)
  /-- `FCOS` (R201): Cosine in radians. -/
  | fcos (f : Fields)
  /-- `FTANH` (R201): Hyperbolic tangent. -/
  | ftanh (f : Fields)
  /-- `FSIG` (R201): Logistic sigmoid. -/
  | fsig (f : Fields)
  /-- `FERF` (R201): Error function. -/
  | ferf (f : Fields)
  /-- `LD` (R232): Global load through the L0 to the home slice. -/
  | ld (f : Fields)
  /-- `ST` (R234): Global store, buffered in a region or written through to the home slice. -/
  | st (f : Fields)
  /-- `LDU` (R233): Uniform load executed once for the bundle. -/
  | ldu (f : Fields)
  /-- `LDS` (R232): Stash load. -/
  | lds (f : Fields)
  /-- `STS` (R234): Stash store. -/
  | sts (f : Fields)
  /-- `PREF` (R239): Prefetches, pins or unpins a line. -/
  | pref (f : Fields)
  /-- `BIND` (R240): Binds a range to a barrier object or global sync word. -/
  | bind (f : Fields)
  /-- `UNBIND` (R241): Removes a bind table entry. -/
  | unbind (f : Fields)
  /-- `FENCE` (R243): Performs release and acquire actions of its kind and scope. -/
  | fence (f : Fields)
  /-- `STASH_MAP` (R109): Maps stash lines to VAs. -/
  | stashMap (f : Fields)
  /-- `STASH_UNMAP` (R109): Writes back and unmaps stash lines. -/
  | stashUnmap (f : Fields)
  /-- `STASH_WB` (R109): Writes back dirty mapped lines. -/
  | stashWb (f : Fields)
  /-- `STASH_INV` (R109): Empties mapped lines. -/
  | stashInv (f : Fields)
  /-- `ATOM` (R246): Global atomic read-modify-write with return at the home slice. -/
  | atom (f : Fields)
  /-- `RED` (R248): Places a reduction contribution in the atomic buffer. -/
  | red (f : Fields)
  /-- `CAS` (R246): Global compare-and-swap with return. -/
  | cas (f : Fields)
  /-- `ATOMS` (R247): Stash atomic with return at the bank. -/
  | atoms (f : Fields)
  /-- `CASS` (R247): Stash compare-and-swap at the bank. -/
  | cass (f : Fields)
  /-- `RED_FLUSH` (R252): Closes the region and drains the crew's committed reduction parts. -/
  | redFlush (f : Fields)
  /-- `CP` (R118): Posts a linear copy job. -/
  | cp (f : Fields)
  /-- `CP_2D` (R118): Posts a strided 2-D copy job. -/
  | cp2d (f : Fields)
  /-- `CP_GTH` (R118): Posts a gather copy job. -/
  | cpGth (f : Fields)
  /-- `CP_SCT` (R118): Posts a scatter copy job. -/
  | cpSct (f : Fields)
  /-- `CP_MC` (R118): Posts a multicast copy to team members. -/
  | cpMc (f : Fields)
  /-- `CP_SP` (R118): Posts a 2:4 sparse expansion copy. -/
  | cpSp (f : Fields)
  /-- `CP_RT` (R130): Posts a copy along a static route. -/
  | cpRt (f : Fields)
  /-- `CP_FILL` (R118): Posts a fill job. -/
  | cpFill (f : Fields)
  /-- `CP_STAT` (R125): Returns the state or landed bytes of a copy job. -/
  | cpStat (f : Fields)
  /-- `CP_CANCEL` (R126): Cancels a copy job at a granule boundary. -/
  | cpCancel (f : Fields)
  /-- `MX_POST` (R215): Posts a matrix job card to the mandrel. -/
  | mxPost (f : Fields)
  /-- `MX_TEAM` (R218): Posts a team card split into member sub-jobs. -/
  | mxTeam (f : Fields)
  /-- `MX_DRAIN` (R220): Posts a drain of a held bank. -/
  | mxDrain (f : Fields)
  /-- `MX_ZERO` (R221): Posts zeroing of accumulator banks. -/
  | mxZero (f : Fields)
  /-- `MX_STAT` (R222): Returns status of a card or the banks. -/
  | mxStat (f : Fields)
  /-- `MX_CANCEL` (R223): Cancels a card at a step boundary. -/
  | mxCancel (f : Fields)
  /-- `BAR_INIT` (R349): Sets the expected arrivals of an idle barrier object. -/
  | barInit (f : Fields)
  /-- `BAR_ARR` (R350): Releases bound ranges and makes a plain, drop or join arrival. -/
  | barArr (f : Fields)
  /-- `BAR_EXP` (R350): Raises expected bytes, optionally with an arrival. -/
  | barExp (f : Fields)
  /-- `BAR_WAIT` (R351): Holds the thread until the phase moves on, then acquires. -/
  | barWait (f : Fields)
  /-- `BAR_TEST` (R351): Tests whether the phase has moved on, acquiring when it has. -/
  | barTest (f : Fields)
  /-- `GBAR` (R352): Arrives at the grid barrier's current generation. -/
  | gbar (f : Fields)
  /-- `CHN_BIND` (R357): Binds or unbinds a channel selector. -/
  | chnBind (f : Fields)
  /-- `CHN_POP` (R358): Pops the head word of a channel. -/
  | chnPop (f : Fields)
  /-- `CHN_TRY` (R358): Pops a word when present without waiting. -/
  | chnTry (f : Fields)
  /-- `CHN_CNT` (R358): Returns words held or room in a channel. -/
  | chnCnt (f : Fields)
  /-- `ALW_BIND` (R360): Binds an allowance handle to a destination. -/
  | alwBind (f : Fields)
  /-- `ALW_TEST` (R362): Tests an allowance value against a byte count. -/
  | alwTest (f : Fields)
  /-- `ALW_RD` (R362): Reads an allowance value. -/
  | alwRd (f : Fields)
  /-- `LDF` (R286): Remote load from a peer module. -/
  | ldf (f : Fields)
  /-- `STF` (R287): Remote store into the write-combining buffer. -/
  | stf (f : Fields)
  /-- `ATOMF` (R289): Remote atomic performed at the peer's home slice. -/
  | atomf (f : Fields)
  /-- `CASF` (R289): Remote compare-and-swap at the peer. -/
  | casf (f : Fields)
  /-- `FCP` (R290): Posts a fabric push or pull copy job. -/
  | fcp (f : Fields)
  /-- `WCB_FLUSH` (R292): Drains write-combining lines. -/
  | wcbFlush (f : Fields)
  /-- `FPEER` (R293): Reports a peer entry or the last fabric trap. -/
  | fpeer (f : Fields)
  /-- `SEAL_OPEN` (R434): Opens a seal context. -/
  | sealOpen (f : Fields)
  /-- `SEAL_ABS` (R434): Appends a byte range to a seal context. -/
  | sealAbs (f : Fields)
  /-- `SEAL_FIN` (R434): Finishes a seal context and requests a signature. -/
  | sealFin (f : Fields)
  /-- `SEAL_ABT` (R434): Aborts a seal context. -/
  | sealAbt (f : Fields)
  /-- `SYSRD` (R438): Reads a special register. -/
  | sysrd (f : Fields)
  /-- `SYSWR` (R438): Firmware write of a special register of a holder. -/
  | syswr (f : Fields)
  /-- `ICINV` (R439): Performs stores to a code range and invalidates clause caches. -/
  | icinv (f : Fields)
  /-- `RT_DEF` (R129): Installs a static route in every cluster of the partition. -/
  | rtDef (f : Fields)
  /-- `FUSE_RD` (R440): Reads a fuse word. -/
  | fuseRd (f : Fields)
  /-- `KEY_WIPE` (R441): Destroys a partition or all tenants and wipes their keys. -/
  | keyWipe (f : Fields)
  /-- `MEAS_EXT` (R441): Extends a measurement register. -/
  | measExt (f : Fields)
  /-- `SIG_VFY` (R441): Verifies an unlock token signature. -/
  | sigVfy (f : Fields)
  /-- `DBG_OPEN` (R441): Moves the lifecycle to DEBUG_UNLOCKED when all latches are set. -/
  | dbgOpen (f : Fields)
  /-- `HALT` (R442): Stops the issuing service cluster until cold start. -/
  | halt (f : Fields)
  /-- `BUNDLE_SELECT` (R339): The issue slice chooses a candidate and forms a bundle. -/
  | bundleSelect (k : Nat)
  /-- `DEBUG_RESUME` (R386): Firmware resumes a crew stopped by a debug match. -/
  | debugResume (cid : Nat)
  /-- `RESULT_DELIVERY` (R23): A long-latency result is delivered and its flags lowered. -/
  | resultDelivery (id : Nat)
  /-- `CLUSTER_FAILING` (R373): A second silent error within 1 ms moves the cluster's crews to a replacement. -/
  | clusterFailing (p : Nat)
  /-- `REGION_CLOSE` (R366): A region close made once results are checked and windows shut. -/
  | regionClose (cid co : Nat)
  /-- `COLD_START` (R16): Fabric-rail power good starts every self-test. -/
  | coldStart
  /-- `SELF_TEST_PASS` (R16): A resource passes self-test and sets its ready bit. -/
  | selfTestPass (r : Res) (i : Nat)
  /-- `RESOURCE_FAIL` (R16): A resource fails and its ready bit clears. -/
  | resourceFail (r : Res) (i : Nat)
  /-- `ACQUIRE` (R72): Makes stripe frames owned by the partition. -/
  | acquire (part : Nat) (m : MapCmd)
  /-- `RELEASE` (R72): Sends unmapped cells to Scrubbing. -/
  | release (part : Nat) (m : MapCmd)
  /-- `MAP` (R72): Applies bounce records and writes a leaf, releasing waiters. -/
  | map (part : Nat) (m : MapCmd)
  /-- `UNMAP` (R82): Clears a leaf and invalidates its cached copies. -/
  | unmap (part : Nat) (m : MapCmd)
  /-- `PROTECT` (R72): Changes a leaf's permissions. -/
  | protect (part : Nat) (m : MapCmd)
  /-- `MIGRATE` (R83): Copies a page to new frames and recommits its leaf. -/
  | migrate (part : Nat) (m : MapCmd)
  /-- `REFUSE` (R72): Ends pending faults on a page with a cause. -/
  | refuse (part : Nat) (m : MapCmd)
  /-- `ROW_CLEAR_DONE` (R63): A scrubbed cell's row clear completes and it becomes Free. -/
  | rowClearDone (ch frame : Nat)
  /-- `PAGE_WALK_END` (R66): A page walk completes with a translation or a fault. -/
  | pageWalkEnd (sl walk : Nat)
  /-- `HOME_SLICE_REQUEST` (R87): A request finishes reassembly at its home slice and is performed or misses. -/
  | homeSliceRequest (sl id : Nat)
  /-- `LINE_FILL_DONE` (R87): DRAM data arrives and the waiting requests are performed. -/
  | lineFillDone (sl key : Nat)
  /-- `PATROL_SCRUB` (R53): Patrol scrub rewrites a line. -/
  | patrolScrub (ch line : Nat) (bad : List Nat) (corrected : Nat)
  /-- `DRAM_REFRESH` (R341): Refresh holds a bank group. -/
  | dramRefresh (ch group : Nat)
  /-- `ROUTE_FLITS` (R96): A router forwards every arriving flit and may inject. -/
  | routeFlits (plane site : Nat) (bad : List Nat)
  /-- `INJECTION_STARVATION` (R97): After 256 cycles waiting, neighbours free a link for injection. -/
  | injectionStarvation (plane site : Nat)
  /-- `SINK_EJECT` (R99): A flit ejected at a sink is tag-checked and reassembled. -/
  | sinkEject (plane site : Nat)
  /-- `COPY_JOB_START` (R117): A copy job starts once conflicting earlier jobs have ended. -/
  | copyJobStart (p slot : Nat)
  /-- `COPY_GRANULE_LAND` (R118): A copy granule is written at its destination. -/
  | copyGranuleLand (p slot g : Nat)
  /-- `COPY_JOB_END` (R119): A copy job ends, releasing chuck entries and counting bytes. -/
  | copyJobEnd (p slot : Nat)
  /-- `ROUTE_STATION_FORWARD` (R127): A pass station's copy engine forwards route data. -/
  | routeStationForward (p slot station g : Nat)
  /-- `MAPPED_LINE_FILL` (R106): Fill data arrives for a mapped stash line. -/
  | mappedLineFill (p line : Nat)
  /-- `WRITE_BACK_STEP` (R107): The cluster writes back dirty mapped granules by its own choice. -/
  | writeBackStep (p line g : Nat)
  /-- `DEADLINE` (R145): A deadline comparator fires and traps the crew leader. -/
  | deadline (cid i : Nat)
  /-- `MANDREL_CYCLE` (R217): The mandrel starts ready entries on engines. -/
  | mandrelCycle (p : Nat)
  /-- `MX_STEP` (R209): The array completes one step of a card's walk. -/
  | mxStep (p slot : Nat)
  /-- `MX_WRITE_OUT` (R213): The down-converter writes out the output rectangle. -/
  | mxWriteOut (p slot g : Nat)
  /-- `MX_CHANNEL_PUSH` (R213): The engine pushes an output word once the channel has room. -/
  | mxChannelPush (p slot : Nat)
  /-- `MX_CARD_END` (R214): A card ends, releasing entries, counting bytes and setting banks. -/
  | mxCardEnd (p slot : Nat)
  /-- `FABRIC_EGRESS_ROUTE` (R276): A fabric packet takes a productive or detour port at a module. -/
  | fabricEgressRoute (id port : Nat)
  /-- `FABRIC_INGRESS` (R278): A packet is admitted and performed, or dropped. -/
  | fabricIngress (port : Nat) (pkt : FabPkt)
  /-- `FABRIC_ACK` (R288): A reply or acknowledgement arrives at the source. -/
  | fabricAck (id : Nat) (ack : FabAck)
  /-- `LINK_TRAIN` (R273): A fabric link trains and agrees its key. -/
  | linkTrain (port : Nat) (ok : Bool) (partner : Nat)
  /-- `LINK_FLIT_RETRY` (R273): A flit failing CRC is replayed. -/
  | linkFlitRetry (port : Nat) (ok : Bool)
  /-- `FABRIC_TIMEOUT` (R294): A request unanswered after %fabtmo ends with FABRIC_TIMEOUT. -/
  | fabricTimeout (id : Nat)
  /-- `RESET_NOTICE` (R296): A peer reset notice marks entries RESET and ends requests. -/
  | resetNotice (part mod rtag inc : Nat)
  /-- `PEER_INCARNATION` (R296): A service packet with a new incarnation rewrites peer entries. -/
  | peerIncarnation (mod rtag inc : Nat)
  /-- `PEER_JOIN` (R277): The operator joins partitions and the service blocks exchange incarnations. -/
  | peerJoin (part pid : Nat) (entry : W64) (entry2 : W64)
  /-- `WCB_AGE_DRAIN` (R288): A write-combining line drains when its ageing time passes. -/
  | wcbAgeDrain (p key : Nat)
  /-- `ALLOWANCE_REFILL` (R283): Every 64 ns bound handles are refilled. -/
  | allowanceRefill (p : Nat)
  /-- `CONGESTION_MARK` (R407): A received mark halves an injection or allowance fraction. -/
  | congestionMark (mark : Mark)
  /-- `RATE_RECOVERY` (R407): Each mark-free microsecond raises the fractions by 1/64. -/
  | rateRecovery (p : Nat)
  /-- `CONGESTION_WINDOW` (R406): At a 1 µs window end a marking point sends marks. -/
  | congestionWindow (point : Nat)
  /-- `HOST_LAUNCH_FETCH` (R329): A host launch record is fetched and judged. -/
  | hostLaunchFetch (part space : Nat)
  /-- `STAMP_TIMEOUT` (R424): After 2 µs of stamp mismatch the queue enters STAMP_WAIT. -/
  | stampTimeout (part queue : Nat)
  /-- `DISPATCH` (R332): The grid dispatcher places units on clusters or crew queues. -/
  | dispatch (part : Nat)
  /-- `RESERVATION_TIMEOUT` (R332): A head unit waiting 100 µs reserves freed resources. -/
  | reservationTimeout (part : Nat)
  /-- `CREW_QUEUE_START` (R335): A queued crew at the head starts once it fits. -/
  | crewQueueStart (p : Nat)
  /-- `STEAL_REQUEST` (R336): An idle cluster sends a steal request. -/
  | stealRequest (p : Nat)
  /-- `STEAL_VICTIM` (R337): The victim ships fitting crews from its queue tail. -/
  | stealVictim (p : Nat)
  /-- `STEAL_REPLY` (R337): The thief starts stolen crews and releases its reservation. -/
  | stealReply (p : Nat)
  /-- `CREW_RETIRE` (R315): A crew whose threads, jobs and children are done retires. -/
  | crewRetire (cid : Nat)
  /-- `CWAIT_RESUME` (R325): A suspended crew is re-placed and released after its children retire. -/
  | cwaitResume (cid : Nat)
  /-- `GBAR_RELEASE` (R353): A release group of crews is released at its staggered time. -/
  | gbarRelease (grid group : Nat)
  /-- `ZONE_CHECKPOINT` (R394): Protected crews write checkpoints that become current together. -/
  | zoneCheckpoint (grid : Nat)
  /-- `GBAR_STALL` (R354): A generation waiting 1 ms with no crew starting faults CYCLIC_WAIT. -/
  | gbarStall (grid : Nat)
  /-- `CHANNEL_GROW` (R356): A pusher waiting 4,096 cycles grows the channel or faults. -/
  | channelGrow (cid ch : Nat)
  /-- `CYCLIC_WAIT_DETECT` (R359): The wait detector faults a crew blocked for 65,536 cycles. -/
  | cyclicWaitDetect (cid : Nat)
  /-- `SQUALL_TRIP` (R390): A supply droop stretches the cluster clock. -/
  | squallTrip (p : Nat) (hard : Bool)
  /-- `SQUALL_STRETCH_END` (R390): The stretch ends once the supply recovers. -/
  | squallStretchEnd (p : Nat)
  /-- `SUSPECT_WINDOW_END` (R391): The suspect window closes 16 cycles after the stretch. -/
  | suspectWindowEnd (p : Nat)
  /-- `ZONE_OVERCURRENT` (R389): Zone current over 187.5 A halves matrix duty. -/
  | zoneOvercurrent (z current : Nat)
  /-- `DUTY_RESTORE` (R389): Each quiet 10 µs restores one duty step. -/
  | dutyRestore (z : Nat)
  /-- `PACKAGE_POWER_LIMIT` (R389): Package power over 6,000 W makes firmware lower ratios and duties. -/
  | packagePowerLimit (watts : Nat)
  /-- `ZONE_LOST` (R395): A zone regulator fails and protected crews are restored elsewhere. -/
  | zoneLost (z : Nat)
  /-- `CREATE` (R412): Creates a partition with zeroed resources and new keys. -/
  | create (c : CreateCmd)
  /-- `GROW` (R412): Adds resources through the quiesce protocol. -/
  | grow (part : Nat) (c : ShapeCmd)
  /-- `SHRINK` (R412): Removes resources through the quiesce protocol. -/
  | shrink (part : Nat) (c : ShapeCmd)
  /-- `COMPACT` (R412): Moves logical positions to new sites. -/
  | compact (part : Nat) (moves : List (Nat × Nat))
  /-- `QUIESCE` (R412): Quiesces the partition and pauses its function. -/
  | quiesce (part : Nat)
  /-- `RESUME` (R412): Moves a quiesced partition back to RUNNING. -/
  | resume (part : Nat)
  /-- `SETQOS` (R412): Sets service priority and congestion thresholds. -/
  | setqos (part : Nat) (qp : BitVec 2) (cmthr : W32)
  /-- `RESET` (R410): Retires the tag, stops all crews and begins the reset. -/
  | reset (part : Nat)
  /-- `RESET_MESH_DRAINED` (R410): After 2,048 cycles the reset zeroes, rekeys and returns to RUNNING. -/
  | resetMeshDrained (part : Nat)
  /-- `DESTROY` (R411): Resets the partition, clears its bitmaps and frees the tag. -/
  | destroy (part : Nat)
  /-- `INCARNATION_HOLD_EXPIRY` (R400): A CREATE or RESET held for incarnation reuse proceeds after 1 s. -/
  | incarnationHoldExpiry (part : Nat)
  /-- `QUIESCE_DONE` (R413): Every cluster has saved; the partition becomes QUIESCED and the command is applied. -/
  | quiesceDone (part : Nat)
  /-- `RESUME_DONE` (R413): Every crew is restored and the partition is RUNNING. -/
  | resumeDone (part : Nat)
  /-- `SLICE_END` (R404): A time-slice ends and contexts are switched. -/
  | sliceEnd (part : Nat)
  /-- `QUEUE_ENABLE` (R423): Writing EN enables or disables a queue. -/
  | queueEnable (part queue : Nat) (en : Bool)
  /-- `QUEUE_RESET` (R423): Writing RST resets an overrun or stamp-waiting queue. -/
  | queueReset (part queue : Nat)
  /-- `QUEUE_WP_WRITE` (R423): A producer's WP write lets the device fetch records. -/
  | queueWpWrite (part queue : Nat) (wp : W32)
  /-- `QUEUE_RP_WRITE` (R422): The host consumer advances RP of a device-produced queue. -/
  | queueRpWrite (part queue : Nat) (rp : W32)
  /-- `REGISTER_WRITE` (R422): A write to a BAR0 field with no row of its own. -/
  | registerWrite (part queue word : Nat) (v : W64)
  /-- `BAR0_UNLISTED_ACCESS` (R419): Access to an unlisted BAR0 offset reads zero or is dropped. -/
  | bar0UnlistedAccess (part off : Nat) (wr : Bool) (v : W64)
  /-- `MSIX_UNMASK` (R427): Unmasking or resuming sends a pending message. -/
  | msixUnmask (part vec : Nat)
  /-- `TDISP_MESSAGE` (R420): A TDISP message moves the interface between its states. -/
  | tdispMessage (part : Nat) (m : Tdisp)
  /-- `SPDM_GET_MEASUREMENTS` (R429): Returns signed measurement digests. -/
  | spdmGetMeasurements (part index : Nat) (nonce : List Byte)
  /-- `HOST_WRITE` (R268): A host write is performed at its home slice. -/
  | hostWrite (part space : Nat) (va : W64) (data : List Byte)
  /-- `SEAL_ABSORB_END` (R434): The hash engine finishes an absorb and delivers the count. -/
  | sealAbsorbEnd (p ctx : Nat)
  /-- `SEAL_SIGN` (R434): The key service signs a finished context and posts the seal log. -/
  | sealSign (p ctx : Nat)
  /-- `FABRIC_RAIL_DOWN` (R11): The fabric rail loses power and nothing on the wafer runs until the next cold start. -/
  | fabricRailDown
  /-- `HOST_COMPLETION` (R421): A PCI Express completion for a host-window read or zero-length read arrives at a host port, and returns data, poison or a job failure. -/
  | hostCompletion (id : Nat) (ok : Bool) (data : List Byte)
  /-- `ZEROING_DONE` (R402): A cluster's zeroing for a change of owner ends and it reports ready again. -/
  | zeroingDone (p : Nat)
  deriving DecidableEq, Repr, Inhabited

/-- The instruction with operation `o` and fields `f`. -/
def Instr.ofOp : Op → Fields → Instr
  | .nop, f => .nop f
  | .br, f => .br f
  | .jmp, f => .jmp f
  | .call, f => .call f
  | .callr, f => .callr f
  | .ret, f => .ret f
  | .rjnEnrol, f => .rjnEnrol f
  | .rjnWait, f => .rjnWait f
  | .rjnLeave, f => .rjnLeave f
  | .exit, f => .exit f
  | .yield, f => .yield f
  | .tileSet, f => .tileSet f
  | .fwait, f => .fwait f
  | .rgnOpen, f => .rgnOpen f
  | .rgnClose, f => .rgnClose f
  | .launch, f => .launch f
  | .cwait, f => .cwait f
  | .dbnz, f => .dbnz f
  | .trap, f => .trap f
  | .trapret, f => .trapret f
  | .brkpt, f => .brkpt f
  | .add, f => .add f
  | .sub, f => .sub f
  | .mul, f => .mul f
  | .mad, f => .mad f
  | .min, f => .min f
  | .max, f => .max f
  | .addc, f => .addc f
  | .subb, f => .subb f
  | .mulh, f => .mulh f
  | .bfx, f => .bfx f
  | .cmp, f => .cmp f
  | .abs, f => .abs f
  | .neg, f => .neg f
  | .sar, f => .sar f
  | .and, f => .and f
  | .or, f => .or f
  | .xor, f => .xor f
  | .andn, f => .andn f
  | .orn, f => .orn f
  | .not, f => .not f
  | .shl, f => .shl f
  | .shr, f => .shr f
  | .rol, f => .rol f
  | .ror, f => .ror f
  | .fsh, f => .fsh f
  | .bfi, f => .bfi f
  | .popc, f => .popc f
  | .clz, f => .clz f
  | .ctz, f => .ctz f
  | .brev, f => .brev f
  | .sel, f => .sel f
  | .movk, f => .movk f
  | .lea, f => .lea f
  | .mov, f => .mov f
  | .fadd, f => .fadd f
  | .fsub, f => .fsub f
  | .fmul, f => .fmul f
  | .ffma, f => .ffma f
  | .fmin, f => .fmin f
  | .fmax, f => .fmax f
  | .fabs, f => .fabs f
  | .fneg, f => .fneg f
  | .fcsgn, f => .fcsgn f
  | .fcmp, f => .fcmp f
  | .fclass, f => .fclass f
  | .frnd, f => .frnd f
  | .fscale, f => .fscale f
  | .fexpo, f => .fexpo f
  | .fdot2, f => .fdot2 f
  | .fdot4, f => .fdot4 f
  | .cvt, f => .cvt f
  | .cvtPk, f => .cvtPk f
  | .cvtSr, f => .cvtSr f
  | .mxq, f => .mxq f
  | .mxdq, f => .mxdq f
  | .pack, f => .pack f
  | .unpack, f => .unpack f
  | .shflIdx, f => .shflIdx f
  | .shflUp, f => .shflUp f
  | .shflDn, f => .shflDn f
  | .shflXor, f => .shflXor f
  | .voteAny, f => .voteAny f
  | .voteAll, f => .voteAll f
  | .voteBal, f => .voteBal f
  | .voteEq, f => .voteEq f
  | .redx, f => .redx f
  | .scanx, f => .scanx f
  | .xpose, f => .xpose f
  | .perm, f => .perm f
  | .rdlane, f => .rdlane f
  | .wrlane, f => .wrlane f
  | .frcp, f => .frcp f
  | .frsq, f => .frsq f
  | .fsqrt, f => .fsqrt f
  | .fdiv, f => .fdiv f
  | .fex2, f => .fex2 f
  | .flg2, f => .flg2 f
  | .fsin, f => .fsin f
  | .fcos, f => .fcos f
  | .ftanh, f => .ftanh f
  | .fsig, f => .fsig f
  | .ferf, f => .ferf f
  | .ld, f => .ld f
  | .st, f => .st f
  | .ldu, f => .ldu f
  | .lds, f => .lds f
  | .sts, f => .sts f
  | .pref, f => .pref f
  | .bind, f => .bind f
  | .unbind, f => .unbind f
  | .fence, f => .fence f
  | .stashMap, f => .stashMap f
  | .stashUnmap, f => .stashUnmap f
  | .stashWb, f => .stashWb f
  | .stashInv, f => .stashInv f
  | .atom, f => .atom f
  | .red, f => .red f
  | .cas, f => .cas f
  | .atoms, f => .atoms f
  | .cass, f => .cass f
  | .redFlush, f => .redFlush f
  | .cp, f => .cp f
  | .cp2d, f => .cp2d f
  | .cpGth, f => .cpGth f
  | .cpSct, f => .cpSct f
  | .cpMc, f => .cpMc f
  | .cpSp, f => .cpSp f
  | .cpRt, f => .cpRt f
  | .cpFill, f => .cpFill f
  | .cpStat, f => .cpStat f
  | .cpCancel, f => .cpCancel f
  | .mxPost, f => .mxPost f
  | .mxTeam, f => .mxTeam f
  | .mxDrain, f => .mxDrain f
  | .mxZero, f => .mxZero f
  | .mxStat, f => .mxStat f
  | .mxCancel, f => .mxCancel f
  | .barInit, f => .barInit f
  | .barArr, f => .barArr f
  | .barExp, f => .barExp f
  | .barWait, f => .barWait f
  | .barTest, f => .barTest f
  | .gbar, f => .gbar f
  | .chnBind, f => .chnBind f
  | .chnPop, f => .chnPop f
  | .chnTry, f => .chnTry f
  | .chnCnt, f => .chnCnt f
  | .alwBind, f => .alwBind f
  | .alwTest, f => .alwTest f
  | .alwRd, f => .alwRd f
  | .ldf, f => .ldf f
  | .stf, f => .stf f
  | .atomf, f => .atomf f
  | .casf, f => .casf f
  | .fcp, f => .fcp f
  | .wcbFlush, f => .wcbFlush f
  | .fpeer, f => .fpeer f
  | .sealOpen, f => .sealOpen f
  | .sealAbs, f => .sealAbs f
  | .sealFin, f => .sealFin f
  | .sealAbt, f => .sealAbt f
  | .sysrd, f => .sysrd f
  | .syswr, f => .syswr f
  | .icinv, f => .icinv f
  | .rtDef, f => .rtDef f
  | .fuseRd, f => .fuseRd f
  | .keyWipe, f => .keyWipe f
  | .measExt, f => .measExt f
  | .sigVfy, f => .sigVfy f
  | .dbgOpen, f => .dbgOpen f
  | .halt, f => .halt f

/-- The operation and fields of an instruction of R40; none for the steps of other agents. -/
def Instr.opFields? : Instr → Option (Op × Fields)
  | .nop f => some (.nop, f)
  | .br f => some (.br, f)
  | .jmp f => some (.jmp, f)
  | .call f => some (.call, f)
  | .callr f => some (.callr, f)
  | .ret f => some (.ret, f)
  | .rjnEnrol f => some (.rjnEnrol, f)
  | .rjnWait f => some (.rjnWait, f)
  | .rjnLeave f => some (.rjnLeave, f)
  | .exit f => some (.exit, f)
  | .yield f => some (.yield, f)
  | .tileSet f => some (.tileSet, f)
  | .fwait f => some (.fwait, f)
  | .rgnOpen f => some (.rgnOpen, f)
  | .rgnClose f => some (.rgnClose, f)
  | .launch f => some (.launch, f)
  | .cwait f => some (.cwait, f)
  | .dbnz f => some (.dbnz, f)
  | .trap f => some (.trap, f)
  | .trapret f => some (.trapret, f)
  | .brkpt f => some (.brkpt, f)
  | .add f => some (.add, f)
  | .sub f => some (.sub, f)
  | .mul f => some (.mul, f)
  | .mad f => some (.mad, f)
  | .min f => some (.min, f)
  | .max f => some (.max, f)
  | .addc f => some (.addc, f)
  | .subb f => some (.subb, f)
  | .mulh f => some (.mulh, f)
  | .bfx f => some (.bfx, f)
  | .cmp f => some (.cmp, f)
  | .abs f => some (.abs, f)
  | .neg f => some (.neg, f)
  | .sar f => some (.sar, f)
  | .and f => some (.and, f)
  | .or f => some (.or, f)
  | .xor f => some (.xor, f)
  | .andn f => some (.andn, f)
  | .orn f => some (.orn, f)
  | .not f => some (.not, f)
  | .shl f => some (.shl, f)
  | .shr f => some (.shr, f)
  | .rol f => some (.rol, f)
  | .ror f => some (.ror, f)
  | .fsh f => some (.fsh, f)
  | .bfi f => some (.bfi, f)
  | .popc f => some (.popc, f)
  | .clz f => some (.clz, f)
  | .ctz f => some (.ctz, f)
  | .brev f => some (.brev, f)
  | .sel f => some (.sel, f)
  | .movk f => some (.movk, f)
  | .lea f => some (.lea, f)
  | .mov f => some (.mov, f)
  | .fadd f => some (.fadd, f)
  | .fsub f => some (.fsub, f)
  | .fmul f => some (.fmul, f)
  | .ffma f => some (.ffma, f)
  | .fmin f => some (.fmin, f)
  | .fmax f => some (.fmax, f)
  | .fabs f => some (.fabs, f)
  | .fneg f => some (.fneg, f)
  | .fcsgn f => some (.fcsgn, f)
  | .fcmp f => some (.fcmp, f)
  | .fclass f => some (.fclass, f)
  | .frnd f => some (.frnd, f)
  | .fscale f => some (.fscale, f)
  | .fexpo f => some (.fexpo, f)
  | .fdot2 f => some (.fdot2, f)
  | .fdot4 f => some (.fdot4, f)
  | .cvt f => some (.cvt, f)
  | .cvtPk f => some (.cvtPk, f)
  | .cvtSr f => some (.cvtSr, f)
  | .mxq f => some (.mxq, f)
  | .mxdq f => some (.mxdq, f)
  | .pack f => some (.pack, f)
  | .unpack f => some (.unpack, f)
  | .shflIdx f => some (.shflIdx, f)
  | .shflUp f => some (.shflUp, f)
  | .shflDn f => some (.shflDn, f)
  | .shflXor f => some (.shflXor, f)
  | .voteAny f => some (.voteAny, f)
  | .voteAll f => some (.voteAll, f)
  | .voteBal f => some (.voteBal, f)
  | .voteEq f => some (.voteEq, f)
  | .redx f => some (.redx, f)
  | .scanx f => some (.scanx, f)
  | .xpose f => some (.xpose, f)
  | .perm f => some (.perm, f)
  | .rdlane f => some (.rdlane, f)
  | .wrlane f => some (.wrlane, f)
  | .frcp f => some (.frcp, f)
  | .frsq f => some (.frsq, f)
  | .fsqrt f => some (.fsqrt, f)
  | .fdiv f => some (.fdiv, f)
  | .fex2 f => some (.fex2, f)
  | .flg2 f => some (.flg2, f)
  | .fsin f => some (.fsin, f)
  | .fcos f => some (.fcos, f)
  | .ftanh f => some (.ftanh, f)
  | .fsig f => some (.fsig, f)
  | .ferf f => some (.ferf, f)
  | .ld f => some (.ld, f)
  | .st f => some (.st, f)
  | .ldu f => some (.ldu, f)
  | .lds f => some (.lds, f)
  | .sts f => some (.sts, f)
  | .pref f => some (.pref, f)
  | .bind f => some (.bind, f)
  | .unbind f => some (.unbind, f)
  | .fence f => some (.fence, f)
  | .stashMap f => some (.stashMap, f)
  | .stashUnmap f => some (.stashUnmap, f)
  | .stashWb f => some (.stashWb, f)
  | .stashInv f => some (.stashInv, f)
  | .atom f => some (.atom, f)
  | .red f => some (.red, f)
  | .cas f => some (.cas, f)
  | .atoms f => some (.atoms, f)
  | .cass f => some (.cass, f)
  | .redFlush f => some (.redFlush, f)
  | .cp f => some (.cp, f)
  | .cp2d f => some (.cp2d, f)
  | .cpGth f => some (.cpGth, f)
  | .cpSct f => some (.cpSct, f)
  | .cpMc f => some (.cpMc, f)
  | .cpSp f => some (.cpSp, f)
  | .cpRt f => some (.cpRt, f)
  | .cpFill f => some (.cpFill, f)
  | .cpStat f => some (.cpStat, f)
  | .cpCancel f => some (.cpCancel, f)
  | .mxPost f => some (.mxPost, f)
  | .mxTeam f => some (.mxTeam, f)
  | .mxDrain f => some (.mxDrain, f)
  | .mxZero f => some (.mxZero, f)
  | .mxStat f => some (.mxStat, f)
  | .mxCancel f => some (.mxCancel, f)
  | .barInit f => some (.barInit, f)
  | .barArr f => some (.barArr, f)
  | .barExp f => some (.barExp, f)
  | .barWait f => some (.barWait, f)
  | .barTest f => some (.barTest, f)
  | .gbar f => some (.gbar, f)
  | .chnBind f => some (.chnBind, f)
  | .chnPop f => some (.chnPop, f)
  | .chnTry f => some (.chnTry, f)
  | .chnCnt f => some (.chnCnt, f)
  | .alwBind f => some (.alwBind, f)
  | .alwTest f => some (.alwTest, f)
  | .alwRd f => some (.alwRd, f)
  | .ldf f => some (.ldf, f)
  | .stf f => some (.stf, f)
  | .atomf f => some (.atomf, f)
  | .casf f => some (.casf, f)
  | .fcp f => some (.fcp, f)
  | .wcbFlush f => some (.wcbFlush, f)
  | .fpeer f => some (.fpeer, f)
  | .sealOpen f => some (.sealOpen, f)
  | .sealAbs f => some (.sealAbs, f)
  | .sealFin f => some (.sealFin, f)
  | .sealAbt f => some (.sealAbt, f)
  | .sysrd f => some (.sysrd, f)
  | .syswr f => some (.syswr, f)
  | .icinv f => some (.icinv, f)
  | .rtDef f => some (.rtDef, f)
  | .fuseRd f => some (.fuseRd, f)
  | .keyWipe f => some (.keyWipe, f)
  | .measExt f => some (.measExt, f)
  | .sigVfy f => some (.sigVfy, f)
  | .dbgOpen f => some (.dbgOpen, f)
  | .halt f => some (.halt, f)
  | .bundleSelect _ => none
  | .debugResume _ => none
  | .resultDelivery _ => none
  | .clusterFailing _ => none
  | .regionClose _ _ => none
  | .coldStart => none
  | .selfTestPass _ _ => none
  | .resourceFail _ _ => none
  | .acquire _ _ => none
  | .release _ _ => none
  | .map _ _ => none
  | .unmap _ _ => none
  | .protect _ _ => none
  | .migrate _ _ => none
  | .refuse _ _ => none
  | .rowClearDone _ _ => none
  | .pageWalkEnd _ _ => none
  | .homeSliceRequest _ _ => none
  | .lineFillDone _ _ => none
  | .patrolScrub _ _ _ _ => none
  | .dramRefresh _ _ => none
  | .routeFlits _ _ _ => none
  | .injectionStarvation _ _ => none
  | .sinkEject _ _ => none
  | .copyJobStart _ _ => none
  | .copyGranuleLand _ _ _ => none
  | .copyJobEnd _ _ => none
  | .routeStationForward _ _ _ _ => none
  | .mappedLineFill _ _ => none
  | .writeBackStep _ _ _ => none
  | .deadline _ _ => none
  | .mandrelCycle _ => none
  | .mxStep _ _ => none
  | .mxWriteOut _ _ _ => none
  | .mxChannelPush _ _ => none
  | .mxCardEnd _ _ => none
  | .fabricEgressRoute _ _ => none
  | .fabricIngress _ _ => none
  | .fabricAck _ _ => none
  | .linkTrain _ _ _ => none
  | .linkFlitRetry _ _ => none
  | .fabricTimeout _ => none
  | .resetNotice _ _ _ _ => none
  | .peerIncarnation _ _ _ => none
  | .peerJoin _ _ _ _ => none
  | .wcbAgeDrain _ _ => none
  | .allowanceRefill _ => none
  | .congestionMark _ => none
  | .rateRecovery _ => none
  | .congestionWindow _ => none
  | .hostLaunchFetch _ _ => none
  | .stampTimeout _ _ => none
  | .dispatch _ => none
  | .reservationTimeout _ => none
  | .crewQueueStart _ => none
  | .stealRequest _ => none
  | .stealVictim _ => none
  | .stealReply _ => none
  | .crewRetire _ => none
  | .cwaitResume _ => none
  | .gbarRelease _ _ => none
  | .zoneCheckpoint _ => none
  | .gbarStall _ => none
  | .channelGrow _ _ => none
  | .cyclicWaitDetect _ => none
  | .squallTrip _ _ => none
  | .squallStretchEnd _ => none
  | .suspectWindowEnd _ => none
  | .zoneOvercurrent _ _ => none
  | .dutyRestore _ => none
  | .packagePowerLimit _ => none
  | .zoneLost _ => none
  | .create _ => none
  | .grow _ _ => none
  | .shrink _ _ => none
  | .compact _ _ => none
  | .quiesce _ => none
  | .resume _ => none
  | .setqos _ _ _ => none
  | .reset _ => none
  | .resetMeshDrained _ => none
  | .destroy _ => none
  | .incarnationHoldExpiry _ => none
  | .quiesceDone _ => none
  | .resumeDone _ => none
  | .sliceEnd _ => none
  | .queueEnable _ _ _ => none
  | .queueReset _ _ => none
  | .queueWpWrite _ _ _ => none
  | .queueRpWrite _ _ _ => none
  | .registerWrite _ _ _ _ => none
  | .bar0UnlistedAccess _ _ _ _ => none
  | .msixUnmask _ _ => none
  | .tdispMessage _ _ => none
  | .spdmGetMeasurements _ _ _ => none
  | .hostWrite _ _ _ _ => none
  | .sealAbsorbEnd _ _ => none
  | .sealSign _ _ => none
  | .fabricRailDown => none
  | .hostCompletion _ _ _ => none
  | .zeroingDone _ => none

/-- Who moves next: issue slice `k` executes the next slot of its bundle (R304), the service block takes the next
mapping record of partition `part` (R425), or another step is made. -/
inductive Turn where
  | issue (k : Nat)
  | mapRecord (part : Nat)
  | ev (i : Instr)
  deriving DecidableEq, Repr, Inhabited

end Sys2Proof
end

