-- ==== Sys2Proof/Decode.lean ====
section
/-!
DEFINITION. Sys2Proof/Decode.lean: code words and mapping records to instructions and back. Fields of the instruction
word by R28, selectors by R32, types by R30, operations by R40, literals by R34, mapping records by R425. Decoding a
slot never judges operands: every word whose OP is listed decodes, and R42 gives the others their trap at issue.
-/

namespace Sys2Proof

/-- Why bytes are no instruction: too few bytes, an OP outside the map of R40, or a mapping record that R425 calls
malformed. -/
inductive Reject where
  | truncated
  | unlistedOpcode (op : Nat)
  | malformedRecord
  deriving DecidableEq, Repr

/-- The OP value of an operation (R40). -/
def Op.code : Op → Nat
  | .nop => 0x000
  | .br => 0x001
  | .jmp => 0x002
  | .call => 0x003
  | .callr => 0x004
  | .ret => 0x005
  | .rjnEnrol => 0x006
  | .rjnWait => 0x007
  | .rjnLeave => 0x008
  | .exit => 0x009
  | .yield => 0x00A
  | .tileSet => 0x00B
  | .fwait => 0x00C
  | .rgnOpen => 0x00D
  | .rgnClose => 0x00E
  | .launch => 0x00F
  | .cwait => 0x010
  | .dbnz => 0x011
  | .trap => 0x012
  | .trapret => 0x013
  | .brkpt => 0x014
  | .add => 0x040
  | .sub => 0x042
  | .mul => 0x044
  | .mad => 0x046
  | .min => 0x047
  | .max => 0x048
  | .addc => 0x041
  | .subb => 0x043
  | .mulh => 0x045
  | .bfx => 0x057
  | .cmp => 0x05D
  | .abs => 0x049
  | .neg => 0x04A
  | .sar => 0x053
  | .and => 0x04B
  | .or => 0x04C
  | .xor => 0x04D
  | .andn => 0x04E
  | .orn => 0x04F
  | .not => 0x050
  | .shl => 0x051
  | .shr => 0x052
  | .rol => 0x054
  | .ror => 0x055
  | .fsh => 0x056
  | .bfi => 0x058
  | .popc => 0x059
  | .clz => 0x05A
  | .ctz => 0x05B
  | .brev => 0x05C
  | .sel => 0x05E
  | .movk => 0x061
  | .lea => 0x05F
  | .mov => 0x060
  | .fadd => 0x080
  | .fsub => 0x081
  | .fmul => 0x082
  | .ffma => 0x083
  | .fmin => 0x084
  | .fmax => 0x085
  | .fabs => 0x086
  | .fneg => 0x087
  | .fcsgn => 0x08D
  | .fcmp => 0x088
  | .fclass => 0x089
  | .frnd => 0x08A
  | .fscale => 0x08B
  | .fexpo => 0x08C
  | .fdot2 => 0x08E
  | .fdot4 => 0x08F
  | .cvt => 0x0C0
  | .cvtPk => 0x0C1
  | .cvtSr => 0x0C2
  | .mxq => 0x0C3
  | .mxdq => 0x0C4
  | .pack => 0x0C5
  | .unpack => 0x0C6
  | .shflIdx => 0x100
  | .shflUp => 0x101
  | .shflDn => 0x102
  | .shflXor => 0x103
  | .voteAny => 0x104
  | .voteAll => 0x105
  | .voteBal => 0x106
  | .voteEq => 0x107
  | .redx => 0x108
  | .scanx => 0x109
  | .xpose => 0x10A
  | .perm => 0x10B
  | .rdlane => 0x10C
  | .wrlane => 0x10D
  | .frcp => 0x140
  | .frsq => 0x141
  | .fsqrt => 0x142
  | .fdiv => 0x143
  | .fex2 => 0x144
  | .flg2 => 0x145
  | .fsin => 0x146
  | .fcos => 0x147
  | .ftanh => 0x148
  | .fsig => 0x149
  | .ferf => 0x14A
  | .ld => 0x180
  | .st => 0x181
  | .ldu => 0x182
  | .lds => 0x183
  | .sts => 0x184
  | .pref => 0x185
  | .bind => 0x18A
  | .unbind => 0x18B
  | .fence => 0x18C
  | .stashMap => 0x186
  | .stashUnmap => 0x187
  | .stashWb => 0x188
  | .stashInv => 0x189
  | .atom => 0x1C0
  | .red => 0x1C4
  | .cas => 0x1C1
  | .atoms => 0x1C2
  | .cass => 0x1C3
  | .redFlush => 0x1C5
  | .cp => 0x200
  | .cp2d => 0x201
  | .cpGth => 0x202
  | .cpSct => 0x203
  | .cpMc => 0x204
  | .cpSp => 0x205
  | .cpRt => 0x206
  | .cpFill => 0x207
  | .cpStat => 0x208
  | .cpCancel => 0x209
  | .mxPost => 0x240
  | .mxTeam => 0x241
  | .mxDrain => 0x242
  | .mxZero => 0x243
  | .mxStat => 0x244
  | .mxCancel => 0x245
  | .barInit => 0x280
  | .barArr => 0x281
  | .barExp => 0x282
  | .barWait => 0x283
  | .barTest => 0x284
  | .gbar => 0x285
  | .chnBind => 0x286
  | .chnPop => 0x287
  | .chnTry => 0x288
  | .chnCnt => 0x289
  | .alwBind => 0x28A
  | .alwTest => 0x28B
  | .alwRd => 0x28C
  | .ldf => 0x2C0
  | .stf => 0x2C1
  | .atomf => 0x2C2
  | .casf => 0x2C3
  | .fcp => 0x2C4
  | .wcbFlush => 0x2C5
  | .fpeer => 0x2C6
  | .sealOpen => 0x300
  | .sealAbs => 0x301
  | .sealFin => 0x302
  | .sealAbt => 0x303
  | .sysrd => 0x304
  | .syswr => 0x305
  | .icinv => 0x306
  | .rtDef => 0x307
  | .fuseRd => 0x308
  | .keyWipe => 0x309
  | .measExt => 0x30A
  | .sigVfy => 0x30B
  | .dbgOpen => 0x30C
  | .halt => 0x30D

/-- The operation of an OP value (R40), by its group OP[9:6] (R28). -/
def Op.ofCode (n : Nat) : Option Op :=
  match n / 64 with
  | 0 => grp0 (n % 64)
  | 1 => grp1 (n % 64)
  | 2 => grp2 (n % 64)
  | 3 => grp3 (n % 64)
  | 4 => grp4 (n % 64)
  | 5 => grp5 (n % 64)
  | 6 => grp6 (n % 64)
  | 7 => grp7 (n % 64)
  | 8 => grp8 (n % 64)
  | 9 => grp9 (n % 64)
  | 10 => grp10 (n % 64)
  | 11 => grp11 (n % 64)
  | 12 => grp12 (n % 64)
  | _ => none
where
  /-- Operations of group 0 (R40). -/
  grp0 : Nat → Option Op
    | 0 => some .nop
    | 1 => some .br
    | 2 => some .jmp
    | 3 => some .call
    | 4 => some .callr
    | 5 => some .ret
    | 6 => some .rjnEnrol
    | 7 => some .rjnWait
    | 8 => some .rjnLeave
    | 9 => some .exit
    | 10 => some .yield
    | 11 => some .tileSet
    | 12 => some .fwait
    | 13 => some .rgnOpen
    | 14 => some .rgnClose
    | 15 => some .launch
    | 16 => some .cwait
    | 17 => some .dbnz
    | 18 => some .trap
    | 19 => some .trapret
    | 20 => some .brkpt
    | _ => none
  /-- Operations of group 1 (R40). -/
  grp1 : Nat → Option Op
    | 0 => some .add
    | 2 => some .sub
    | 4 => some .mul
    | 6 => some .mad
    | 7 => some .min
    | 8 => some .max
    | 1 => some .addc
    | 3 => some .subb
    | 5 => some .mulh
    | 23 => some .bfx
    | 29 => some .cmp
    | 9 => some .abs
    | 10 => some .neg
    | 19 => some .sar
    | 11 => some .and
    | 12 => some .or
    | 13 => some .xor
    | 14 => some .andn
    | 15 => some .orn
    | 16 => some .not
    | 17 => some .shl
    | 18 => some .shr
    | 20 => some .rol
    | 21 => some .ror
    | 22 => some .fsh
    | 24 => some .bfi
    | 25 => some .popc
    | 26 => some .clz
    | 27 => some .ctz
    | 28 => some .brev
    | 30 => some .sel
    | 33 => some .movk
    | 31 => some .lea
    | 32 => some .mov
    | _ => none
  /-- Operations of group 2 (R40). -/
  grp2 : Nat → Option Op
    | 0 => some .fadd
    | 1 => some .fsub
    | 2 => some .fmul
    | 3 => some .ffma
    | 4 => some .fmin
    | 5 => some .fmax
    | 6 => some .fabs
    | 7 => some .fneg
    | 13 => some .fcsgn
    | 8 => some .fcmp
    | 9 => some .fclass
    | 10 => some .frnd
    | 11 => some .fscale
    | 12 => some .fexpo
    | 14 => some .fdot2
    | 15 => some .fdot4
    | _ => none
  /-- Operations of group 3 (R40). -/
  grp3 : Nat → Option Op
    | 0 => some .cvt
    | 1 => some .cvtPk
    | 2 => some .cvtSr
    | 3 => some .mxq
    | 4 => some .mxdq
    | 5 => some .pack
    | 6 => some .unpack
    | _ => none
  /-- Operations of group 4 (R40). -/
  grp4 : Nat → Option Op
    | 0 => some .shflIdx
    | 1 => some .shflUp
    | 2 => some .shflDn
    | 3 => some .shflXor
    | 4 => some .voteAny
    | 5 => some .voteAll
    | 6 => some .voteBal
    | 7 => some .voteEq
    | 8 => some .redx
    | 9 => some .scanx
    | 10 => some .xpose
    | 11 => some .perm
    | 12 => some .rdlane
    | 13 => some .wrlane
    | _ => none
  /-- Operations of group 5 (R40). -/
  grp5 : Nat → Option Op
    | 0 => some .frcp
    | 1 => some .frsq
    | 2 => some .fsqrt
    | 3 => some .fdiv
    | 4 => some .fex2
    | 5 => some .flg2
    | 6 => some .fsin
    | 7 => some .fcos
    | 8 => some .ftanh
    | 9 => some .fsig
    | 10 => some .ferf
    | _ => none
  /-- Operations of group 6 (R40). -/
  grp6 : Nat → Option Op
    | 0 => some .ld
    | 1 => some .st
    | 2 => some .ldu
    | 3 => some .lds
    | 4 => some .sts
    | 5 => some .pref
    | 10 => some .bind
    | 11 => some .unbind
    | 12 => some .fence
    | 6 => some .stashMap
    | 7 => some .stashUnmap
    | 8 => some .stashWb
    | 9 => some .stashInv
    | _ => none
  /-- Operations of group 7 (R40). -/
  grp7 : Nat → Option Op
    | 0 => some .atom
    | 4 => some .red
    | 1 => some .cas
    | 2 => some .atoms
    | 3 => some .cass
    | 5 => some .redFlush
    | _ => none
  /-- Operations of group 8 (R40). -/
  grp8 : Nat → Option Op
    | 0 => some .cp
    | 1 => some .cp2d
    | 2 => some .cpGth
    | 3 => some .cpSct
    | 4 => some .cpMc
    | 5 => some .cpSp
    | 6 => some .cpRt
    | 7 => some .cpFill
    | 8 => some .cpStat
    | 9 => some .cpCancel
    | _ => none
  /-- Operations of group 9 (R40). -/
  grp9 : Nat → Option Op
    | 0 => some .mxPost
    | 1 => some .mxTeam
    | 2 => some .mxDrain
    | 3 => some .mxZero
    | 4 => some .mxStat
    | 5 => some .mxCancel
    | _ => none
  /-- Operations of group 10 (R40). -/
  grp10 : Nat → Option Op
    | 0 => some .barInit
    | 1 => some .barArr
    | 2 => some .barExp
    | 3 => some .barWait
    | 4 => some .barTest
    | 5 => some .gbar
    | 6 => some .chnBind
    | 7 => some .chnPop
    | 8 => some .chnTry
    | 9 => some .chnCnt
    | 10 => some .alwBind
    | 11 => some .alwTest
    | 12 => some .alwRd
    | _ => none
  /-- Operations of group 11 (R40). -/
  grp11 : Nat → Option Op
    | 0 => some .ldf
    | 1 => some .stf
    | 2 => some .atomf
    | 3 => some .casf
    | 4 => some .fcp
    | 5 => some .wcbFlush
    | 6 => some .fpeer
    | _ => none
  /-- Operations of group 12 (R40). -/
  grp12 : Nat → Option Op
    | 0 => some .sealOpen
    | 1 => some .sealAbs
    | 2 => some .sealFin
    | 3 => some .sealAbt
    | 4 => some .sysrd
    | 5 => some .syswr
    | 6 => some .icinv
    | 7 => some .rtDef
    | 8 => some .fuseRd
    | 9 => some .keyWipe
    | 10 => some .measExt
    | 11 => some .sigVfy
    | 12 => some .dbgOpen
    | 13 => some .halt
    | _ => none

/-- The operand type of a TY value (R30). -/
def Ty.ofCode (n : BitVec 4) : Ty :=
  match n.toNat with
  | 0 => .b32 | 1 => .i32 | 2 => .n32 | 3 => .f32 | 4 => .b64 | 5 => .i64 | 6 => .n64 | 7 => .f16x2
  | 8 => .bf16x2 | 9 => .f16 | 10 => .bf16 | 11 => .e4m3x4 | 12 => .e5m2x4 | 13 => .i16x2 | 14 => .i8x4 | _ => .rsv

/-- The TY value of an operand type (R30). -/
def Ty.code : Ty → BitVec 4
  | .b32 => 0 | .i32 => 1 | .n32 => 2 | .f32 => 3 | .b64 => 4 | .i64 => 5 | .n64 => 6 | .f16x2 => 7
  | .bf16x2 => 8 | .f16 => 9 | .bf16 => 10 | .e4m3x4 => 11 | .e5m2x4 => 12 | .i16x2 => 13 | .i8x4 => 14 | .rsv => 15

/-- The operand that an 8-bit selector names (R32). -/
def Sel.ofByte (x : BitVec 8) : Sel :=
  let n := x.toNat
  if h : n < 16 then .t ⟨n, h⟩
  else if _h : n < 80 then .v ⟨n - 16, by omega⟩
  else if _h : n < 176 then .s ⟨n - 80, by omega⟩
  else if _h : n < 184 then .ch ⟨n - 176, by omega⟩
  else if _h : n < 192 then .k ⟨n - 184, by omega⟩
  else if _h : n < 216 then .int ⟨n - 192, by omega⟩
  else if _h : n < 224 then .flt ⟨n - 216, by omega⟩
  else if _h : n < 238 then .special ⟨n - 224, by omega⟩
  else if _h : n < 254 then .reserved ⟨n - 238, by omega⟩
  else if n = 254 then .lit
  else .none

/-- The 8-bit selector of an operand (R32). -/
def Sel.byte : Sel → BitVec 8
  | .t i => BitVec.ofNat 8 i.val
  | .v i => BitVec.ofNat 8 (16 + i.val)
  | .s i => BitVec.ofNat 8 (80 + i.val)
  | .ch i => BitVec.ofNat 8 (176 + i.val)
  | .k i => BitVec.ofNat 8 (184 + i.val)
  | .int i => BitVec.ofNat 8 (192 + i.val)
  | .flt i => BitVec.ofNat 8 (216 + i.val)
  | .special i => BitVec.ofNat 8 (224 + i.val)
  | .reserved i => BitVec.ofNat 8 (238 + i.val)
  | .lit => 254
  | .none => 255

/-- A source operand field: [9] L, [8] K, [7:0] selector (R28). -/
def Src.ofBits (x : BitVec 10) : Src :=
  { sel := Sel.ofByte (x.extractLsb' 0 8), k := x.getLsbD 8, l := x.getLsbD 9 }

/-- The ten bits of a source operand field (R28). -/
def Src.bits (x : Src) : BitVec 10 := BitVec.ofBool x.l ++ (BitVec.ofBool x.k ++ x.sel.byte)

/-- Whether any operand of the fields selects the literal (R34). -/
def Fields.usesLit (f : Fields) : Bool := f.a.sel = .lit || f.b.sel = .lit || f.c.sel = .lit

/-- The fields of an instruction word (R28), its 0xFE selectors reading the literal `lit` (R34). -/
def Fields.ofWord (w : W64) (lit : W64) : Fields :=
  let f : Fields :=
    { ty := Ty.ofCode (w.extractLsb' 50 4), pn := w.getLsbD 49,
      pk := ⟨(w.extractLsb' 46 3).toNat, (w.extractLsb' 46 3).isLt⟩,
      dstT := w.getLsbD 45, rsv44 := w.getLsbD 44, dst := Sel.ofByte (w.extractLsb' 36 8),
      a := Src.ofBits (w.extractLsb' 26 10), b := Src.ofBits (w.extractLsb' 16 10),
      c := Src.ofBits (w.extractLsb' 6 10), mod := w.extractLsb' 0 6, lit := 0 }
  if f.usesLit then { f with lit := lit } else f

/-- The instruction word of an operation with its fields (R28). -/
def Fields.word (o : Op) (f : Fields) : W64 :=
  BitVec.ofNat 10 o.code ++ (f.ty.code ++ (BitVec.ofBool f.pn ++ (BitVec.ofNat 3 f.pk.val ++
    (BitVec.ofBool f.dstT ++ (BitVec.ofBool f.rsv44 ++ (f.dst.byte ++ (f.a.bits ++ (f.b.bits ++ (f.c.bits ++ f.mod)))))))))

/-- OP, TY and so on of an instruction slot, the following slot being its literal when it selects one (R28, R34). -/
def decodeSlot (w lit : W64) : Except Reject Instr :=
  match Op.ofCode (w.extractLsb' 54 10).toNat with
  | some o => .ok (Instr.ofOp o (Fields.ofWord w lit))
  | none => .error (.unlistedOpcode (w.extractLsb' 54 10).toNat)

/-- The 64-bit little-endian word of eight bytes (R3). -/
def wordOfBytes (b : List Byte) : W64 := BitVec.ofNat 64 (natOfBytes b)
where
  /-- The number whose least significant byte stands first (R3). -/
  natOfBytes : List Byte → Nat
    | [] => 0
    | x :: r => x.toNat + 256 * natOfBytes r

/-- The `n` low bytes of a number, least significant first (R3). -/
def bytesOfNat : Nat → Nat → List Byte
  | 0, _ => []
  | n + 1, x => BitVec.ofNat 8 x :: bytesOfNat n (x / 256)

/-- The instruction that code bytes hold, and its length in bytes: one slot, or two with a literal (R18). -/
def decode (b : List Byte) : Except Reject (Instr × Nat) :=
  if b.length < 8 then .error .truncated
  else
    match decodeSlot (wordOfBytes (b.take 8)) (wordOfBytes ((b.drop 8).take 8)) with
    | .error e => .error e
    | .ok i =>
      if (i.opFields?.map (fun x => x.2.usesLit)) = some true then
        if b.length < 16 then .error .truncated else .ok (i, 16)
      else .ok (i, 8)

/-- The fields of a mapping record (R425). -/
def MapCmd.ofWords (w0 w1 w2 w3 w4 : W64) : MapCmd :=
  { space := w0.extractLsb' 50 6, size := w0.extractLsb' 48 2, fl := w0.extractLsb' 44 4,
    cause := w0.extractLsb' 37 7, stamp := w0.extractLsb' 0 32, va := w1, frame := w2.extractLsb' 0 21,
    count := w3.extractLsb' 0 32, cookie := w4 }

/-- The command of a mapping record by its CMD (R425). -/
def mapInstr (part : Nat) (m : MapCmd) : Nat → Option Instr
  | 1 => some (.acquire part m)
  | 2 => some (.release part m)
  | 3 => some (.map part m)
  | 4 => some (.unmap part m)
  | 5 => some (.protect part m)
  | 6 => some (.migrate part m)
  | 7 => some (.refuse part m)
  | _ => none

/-- The command of the eight words of a mapping record of partition `part` (R425): the remaining bits are zero and CMD
is 1 to 7. -/
def decodeRecord (part : Nat) : List W64 → Except Reject Instr
  | [w0, w1, w2, w3, w4, w5, w6, w7] =>
    if w0.extractLsb' 32 5 = 0 ∧ w2.extractLsb' 21 43 = 0 ∧ w3.extractLsb' 32 32 = 0 ∧ w5 = 0 ∧ w6 = 0 ∧ w7 = 0 then
      match mapInstr part (MapCmd.ofWords w0 w1 w2 w3 w4) (w0.extractLsb' 56 8).toNat with
      | some i => .ok i
      | none => .error .malformedRecord
    else .error .malformedRecord
  | _ => .error .truncated

/-- The eight words of a mapping record with command `cmd` (R425). -/
def MapCmd.words (cmd : Nat) (m : MapCmd) : List W64 :=
  [BitVec.ofNat 8 cmd ++ (m.space ++ (m.size ++ (m.fl ++ (m.cause ++ (0#5 ++ m.stamp))))), m.va,
   0#43 ++ m.frame, 0#32 ++ m.count, m.cookie, 0, 0, 0]

/-- The mapping command of an instruction and its CMD (R425). -/
def Instr.mapFields? : Instr → Option (Nat × Nat × MapCmd)
  | .acquire p m => some (1, p, m)
  | .release p m => some (2, p, m)
  | .map p m => some (3, p, m)
  | .unmap p m => some (4, p, m)
  | .protect p m => some (5, p, m)
  | .migrate p m => some (6, p, m)
  | .refuse p m => some (7, p, m)
  | _ => none

/-- The words of an instruction: its slot and, when it selects one, its literal slot (R28, R34), or the eight words of a
mapping record (R425). The other steps have no encoding. -/
def encode (i : Instr) : List W64 :=
  match i.opFields? with
  | some (o, f) => if f.usesLit then [f.word o, f.lit] else [f.word o]
  | none =>
    match i.mapFields? with
    | some (cmd, _, m) => m.words cmd
    | none => []

/-- The bytes of a list of words (R3). -/
def bytesOfWords : List W64 → List Byte
  | [] => []
  | w :: r => bytesOfNat 8 w.toNat ++ bytesOfWords r

/-- What the decoder reads from the instruction whose bits are `w`, bit 0 the least significant of the first word; the
bits above `nbits` are zero. Sixty-four bits, or one hundred and twenty-eight with a literal, are a slot (R28); a wider
number is a mapping record of partition 0 (R425). -/
def decodeTableWord (nbits w : Nat) : Option Instr :=
  let x := w % 2 ^ nbits
  if nbits ≤ 128 then
    match decode (bytesOfNat 16 x) with
    | .ok (i, _) => some i
    | .error _ => none
  else
    match decodeRecord 0 ((List.range 8).map fun j => BitVec.ofNat 64 (x / 2 ^ (64 * j))) with
    | .ok i => some i
    | .error _ => none

end Sys2Proof
end

