-- ==== Sys2Proof/Machine/SMap.lean ====
section
/-!
DEFINITION. Sys2Proof/Machine/SMap.lean: sparse maps with keys strictly rising, in one canonical form, so that equal maps
are equal lists; and the small list helpers the machine uses.
-/

namespace Sys2Proof.Machine

/-- The entry of key `k`. -/
def smGet {α : Type} (m : SMap α) (k : Nat) : Option α :=
  match m with
  | [] => none
  | (j, x) :: r => if j = k then some x else smGet r k

/-- The entry of key `k`, or `d`. -/
def smGetD {α : Type} (m : SMap α) (k : Nat) (d : α) : α := (smGet m k).getD d

/-- Key `k` now holds `x`. -/
def smSet {α : Type} (m : SMap α) (k : Nat) (x : α) : SMap α :=
  match m with
  | [] => [(k, x)]
  | (j, y) :: r => if k < j then (k, x) :: (j, y) :: r else if k = j then (k, x) :: r else (j, y) :: smSet r k x

/-- Key `k` has no entry. -/
def smDel {α : Type} (m : SMap α) (k : Nat) : SMap α :=
  match m with
  | [] => []
  | (j, y) :: r => if j = k then r else (j, y) :: smDel r k

/-- Key `k` holds `x`, and no entry when `x` is the default `d`. -/
def smSetD {α : Type} [DecidableEq α] (d : α) (m : SMap α) (k : Nat) (x : α) : SMap α :=
  if x = d then smDel m k else smSet m k x

/-- The entry of key `k` changed by `f`, when there is one. -/
def smMod {α : Type} (m : SMap α) (k : Nat) (f : α → α) : SMap α :=
  match m with
  | [] => []
  | (j, y) :: r => if j = k then (j, f y) :: r else (j, y) :: smMod r k f

/-- The entries that satisfy a test. -/
def smFilter {α : Type} (p : Nat → α → Bool) (m : SMap α) : SMap α :=
  m.filter fun x => p x.1 x.2

/-- Every entry changed by `f`. -/
def smMap {α : Type} (f : Nat → α → α) (m : SMap α) : SMap α :=
  m.map fun x => (x.1, f x.1 x.2)

/-- Keys strictly rising: the canonical form of a sparse map. -/
def smWf {α : Type} : SMap α → Bool
  | [] => true
  | [_] => true
  | a :: b :: r => decide (a.1 < b.1) && smWf (b :: r)

/-- A set of numbers as a strictly rising list: insertion. -/
def nsAdd (n : Nat) (l : List Nat) : List Nat :=
  match l with
  | [] => [n]
  | x :: r => if n < x then n :: x :: r else if n = x then x :: r else x :: nsAdd n r

/-- A set of numbers as a strictly rising list: removal. -/
def nsDel (n : Nat) (l : List Nat) : List Nat := l.filter (· != n)

/-- The first number below `n` that satisfies a test. -/
def firstBelow (n : Nat) (p : Nat → Bool) : Option Nat := (List.range n).find? p

/-- A fold over the numbers 0 to `n` - 1. -/
def forN {α : Type} (n : Nat) (x : α) (f : Nat → α → α) : α :=
  (List.range n).foldl (fun y i => f i y) x

/-- A fold over a list, in order. -/
def forL {α β : Type} (l : List β) (x : α) (f : β → α → α) : α :=
  l.foldl (fun y i => f i y) x

/-- Entry `i` of a list replaced by `f` of it. -/
def lmod {α : Type} (l : List α) (i : Nat) (f : α → α) : List α :=
  match l, i with
  | [], _ => []
  | x :: r, 0 => f x :: r
  | x :: r, i + 1 => x :: lmod r i f

end Sys2Proof.Machine
end

