-- ==== Sys2Proof/Machine/Bits.lean ====
section
/-!
DEFINITION. Sys2Proof/Machine/Bits.lean: bit fields, sign extension, byte order and bit counts (R2, R3, R6).
-/

namespace Sys2Proof.Machine

/-- Bits [hi:lo] of a number (R2). -/
def bits (x : Nat) (hi lo : Nat) : Nat := (x >>> lo) % 2 ^ (hi + 1 - lo)

/-- Bit [n] of a number (R2). -/
def bit (x : Nat) (n : Nat) : Bool := x.testBit n

/-- Bits [hi:lo] of a 64-bit word as a number. -/
def fld (w : W64) (hi lo : Nat) : Nat := bits w.toNat hi lo

/-- The signed value of the low `w` bits of a number. -/
def sext (w x : Nat) : Int :=
  let y := x % 2 ^ w
  if 2 * y < 2 ^ w then (y : Int) else (y : Int) - 2 ^ w

/-- A whole number modulo 2^64. -/
def toW64 (x : Int) : W64 := BitVec.ofInt 64 x

/-- The number of bytes, least significant first (R3). -/
def natOfBytes (b : List Byte) : Nat := wordOfBytes.natOfBytes b

/-- The number of bytes, most significant first. -/
def natOfBytesBE (b : List Byte) : Nat := b.foldl (fun n x => 256 * n + x.toNat) 0

/-- The `n` low bytes of a number, most significant first. -/
def bytesBE (n x : Nat) : List Byte := (bytesOfNat n x).reverse

/-- The lanes of a mask, ascending. -/
def lanesOf (m : BitVec 32) : List (Fin 32) := (List.finRange 32).filter fun i => m.getLsbD i

/-- A mask of one lane. -/
def laneBit (l : Nat) : BitVec 32 := BitVec.ofNat 32 (2 ^ l)

/-- Population count of the low `w` bits. -/
def popcount (w x : Nat) : Nat := ((List.range w).filter fun i => x.testBit i).length

/-- Leading zeros of the low `w` bits; `w` for zero (R173). -/
def clzN : Nat → Nat → Nat
  | 0, _ => 0
  | w + 1, x => if x.testBit w then 0 else clzN w x + 1

/-- Trailing zeros of the low `w` bits; `w` for zero (R173). -/
def ctzN (w x : Nat) : Nat := ((List.range w).find? fun i => x.testBit i).getD w

/-- The low `w` bits in reverse order (R173). -/
def brevN (w x : Nat) : Nat := (List.range w).foldl (fun y i => if x.testBit i then y + 2 ^ (w - 1 - i) else y) 0

/-- Ceiling of a quotient. -/
def ceilDiv (a b : Nat) : Nat := (a + b - 1) / b

/-- The first error of a list of checks. -/
def firstErr {ε : Type} : List (Option ε) → Option ε
  | [] => none
  | some e :: _ => some e
  | none :: r => firstErr r

/-- A check: the cause when the condition of failure holds. -/
def failIf {ε : Type} (c : Bool) (e : ε) : Option ε := if c then some e else none

/-- Whether two ranges lo to hi (hi not included) share a byte. -/
def overlaps (a b c d : Nat) : Bool := decide (a < d) && decide (c < b)

/-- The best of a list under an order. -/
def bestOf {α : Type} (better : α → α → Bool) : List α → Option α
  | [] => none
  | x :: r =>
    match bestOf better r with
    | none => some x
    | some y => some (if better y x then y else x)

end Sys2Proof.Machine
end

