-- ==== Sys2Proof/Machine/Causes.lean ====
section
/-!
DEFINITION. Sys2Proof/Machine/Causes.lean: the cause codes of R384.
-/

namespace Sys2Proof.Machine

/-- A cause code (R384). -/
abbrev Cause := BitVec 7

/-- ILLEGAL_OPCODE (R30, R42). -/
def cIllegalOpcode : Cause := 0x01
/-- ILLEGAL_HEADER (R26, R27, R42). -/
def cIllegalHeader : Cause := 0x02
/-- ILLEGAL_CLAUSE (R24, R25, R34). -/
def cIllegalClause : Cause := 0x03
/-- ILLEGAL_OPERAND (R31 to R38). -/
def cIllegalOperand : Cause := 0x04
/-- CLAUSE_PARITY (R20). -/
def cClauseParity : Cause := 0x05
/-- PRIV (R41). -/
def cPriv : Cause := 0x06
/-- BREAKPOINT (R26, R320). -/
def cBreakpoint : Cause := 0x07
/-- TRAP_INSTR (R320). -/
def cTrapInstr : Cause := 0x08
/-- DEBUG_MATCH (R386). -/
def cDebugMatch : Cause := 0x09
/-- TRAP_IN_HANDLER (R378). -/
def cTrapInHandler : Cause := 0x0A
/-- POISON_USE (R39). -/
def cPoisonUse : Cause := 0x10
/-- POISON_STORE (R39, R234). -/
def cPoisonStore : Cause := 0x11
/-- NONCANON (R56). -/
def cNoncanon : Cause := 0x20
/-- ADDR_WRAP (R56). -/
def cAddrWrap : Cause := 0x21
/-- PAGE_NOT_PRESENT (R74, R76). -/
def cPageNotPresent : Cause := 0x22
/-- PAGE_PERM (R67, R77, R234). -/
def cPagePerm : Cause := 0x23
/-- MISALIGNED (R27, R230). -/
def cMisaligned : Cause := 0x24
/-- RANGE_LOCKED (R121). -/
def cRangeLocked : Cause := 0x25
/-- STASH_BOUNDS (R105, R118). -/
def cStashBounds : Cause := 0x26
/-- STASH_ORPHAN (R82, R106). -/
def cStashOrphan : Cause := 0x27
/-- FRAME_NOT_OWNED (R52, R66, R77). -/
def cFrameNotOwned : Cause := 0x28
/-- BOUNCE_FULL (R79). -/
def cBounceFull : Cause := 0x29
/-- ALIAS_WRITE (R61, R77). -/
def cAliasWrite : Cause := 0x2A
/-- TAG_DROP (R99, R278). -/
def cTagDrop : Cause := 0x2B
/-- STASH_MAP_CONFLICT (R109). -/
def cStashMapConflict : Cause := 0x2C
/-- SYNC_OBJ_OVERWRITE (R105). -/
def cSyncObjOverwrite : Cause := 0x30
/-- BARRIER_UNDERFLOW (R344). -/
def cBarrierUnderflow : Cause := 0x31
/-- BARRIER_BYTES_EARLY (R346). -/
def cBarrierBytesEarly : Cause := 0x32
/-- CYCLIC_WAIT (R354, R356, R359). -/
def cCyclicWait : Cause := 0x33
/-- LAUNCH_DEPTH (R323). -/
def cLaunchDepth : Cause := 0x34
/-- ROUTE_OWNER (R14, R41, R129, R130). -/
def cRouteOwner : Cause := 0x35
/-- LAUNCH_INVALID (R323, R329). -/
def cLaunchInvalid : Cause := 0x36
/-- BARRIER_OVERFLOW (R344). -/
def cBarrierOverflow : Cause := 0x37
/-- SYNC_INVALID (R348, R357, R360). -/
def cSyncInvalid : Cause := 0x38
/-- JOB_CANCELLED (R376). -/
def cJobCancelled : Cause := 0x39
/-- LAUNCH_RESOURCE (R329). -/
def cLaunchResource : Cause := 0x3A
/-- MX_CARD_INVALID (R207, R215). -/
def cMxCardInvalid : Cause := 0x40
/-- FABRIC_TIMEOUT (R291, R294, R295). -/
def cFabricTimeout : Cause := 0x41
/-- FABRIC_PEER_RESET (R281, R296). -/
def cFabricPeerReset : Cause := 0x42
/-- MIRROR_FAILOVER (R298). -/
def cMirrorFailover : Cause := 0x43
/-- SEAL_ABORTED (R437). -/
def cSealAborted : Cause := 0x44
/-- QUEUE_OVERRUN (R423). -/
def cQueueOverrun : Cause := 0x45
/-- RECORD_STAMP (R424). -/
def cRecordStamp : Cause := 0x46
/-- COPY_INVALID (R105, R112, R129). -/
def cCopyInvalid : Cause := 0x47
/-- COPY_TARGET_ABSENT (R128, R214). -/
def cCopyTargetAbsent : Cause := 0x48
/-- MX_PRED_FAILED (R217). -/
def cMxPredFailed : Cause := 0x49
/-- MX_BANK_HELD (R204). -/
def cMxBankHeld : Cause := 0x4A
/-- SEAL_INVALID (R432, R434). -/
def cSealInvalid : Cause := 0x4B
/-- SILENT_ERROR (R372, R374). -/
def cSilentError : Cause := 0x50
/-- CLUSTER_FAILING (R373). -/
def cClusterFailing : Cause := 0x51
/-- ZONE_LOST (R375). -/
def cZoneLost : Cause := 0x52
/-- SUSPECT_REPLAY_LIMIT (R224, R371). -/
def cSuspectReplayLimit : Cause := 0x53
/-- MEMORY_UNCORRECTED (R53). -/
def cMemoryUncorrected : Cause := 0x54
/-- DEADLINE (R145). -/
def cDeadline : Cause := 0x55
/-- MESH_REPLY_LOST (R374). -/
def cMeshReplyLost : Cause := 0x56
/-- CHANNELS_LOST (R58). -/
def cChannelsLost : Cause := 0x57

end Sys2Proof.Machine
end

