-- ==== Sys2Proof/Machine/Check.lean ====
section
/-!
DEFINITION. Sys2Proof/Machine/Check.lean: the encoding checks of an instruction slot (R42, R43): legal types and modifiers
(R30, R40), privilege (R41), operand fields, selectors, L, K and T (R31 to R38), operation by operation.
-/

namespace Sys2Proof.Machine

/-- The format in which an instruction reads an operand (R33). -/
inductive Fmt where
  | i32 | i64 | p16 | p8 | f32 | f16 | bf16 | f16x2 | bf16x2 | e4m3x4 | e5m2x4
  deriving DecidableEq, Repr, Inhabited

/-- A 64-bit operand (R33). -/
def Fmt.wide : Fmt → Bool
  | .i64 => true
  | _ => false

/-- A floating operand: the inline constants 0xD8 to 0xDF are legal (R33). -/
def Fmt.flt : Fmt → Bool
  | .i32 | .i64 | .p16 | .p8 => false
  | _ => true

/-- The format of a data operand of a type (R33). -/
def Ty.fmt : Ty → Fmt
  | .b32 | .i32 | .n32 | .rsv => .i32
  | .f32 => .f32
  | .b64 | .i64 | .n64 => .i64
  | .f16x2 => .f16x2
  | .bf16x2 => .bf16x2
  | .f16 => .f16
  | .bf16 => .bf16
  | .e4m3x4 => .e4m3x4
  | .e5m2x4 => .e5m2x4
  | .i16x2 => .p16
  | .i8x4 => .p8

/-- A type of 64 bits (R30). -/
def Ty.wide (t : Ty) : Bool := (Ty.fmt t).wide

/-- A floating type (R30). -/
def Ty.flt (t : Ty) : Bool := (Ty.fmt t).flt

/-- What an operand field may hold: nothing, an operand in a format, an operand or nothing, a uniform operand, or a group
of four v registers (R31, R230, R233, R348). -/
inductive SrcSpec where
  | no
  | src (f : Fmt)
  | opt (f : Fmt)
  | uni (f : Fmt)
  | quad
  deriving DecidableEq, Repr, Inhabited

/-- What the destination field may hold: nothing; a per-thread result of 32 or 64 bits, with or without an s register
allowed (R36, R38); a return address (R309); four v registers (R230). -/
inductive DstSpec where
  | no
  | res (wide : Bool) (s : Bool)
  | link
  | quad
  deriving DecidableEq, Repr, Inhabited

/-- The operand fields of an operation (R31), whether it must be unconditional, and any further check its description
makes an ILLEGAL_OPERAND of its fields. -/
structure OpSpec where
  a : SrcSpec := .no
  b : SrcSpec := .no
  c : SrcSpec := .no
  dst : DstSpec := .no
  uncond : Bool := false
  bad : Bool := false
  deriving DecidableEq, Repr, Inhabited

/-- A memory access's size field: bytes of SZ with the type (R230). -/
def szBytes (ty : Ty) (sz : Nat) : Nat :=
  match sz with
  | 0 => if Ty.wide ty then 8 else 4
  | 1 => 1
  | 2 => 2
  | _ => 16

/-- Source of stored data (R230, R234). -/
def dataSpec (ty : Ty) (sz : Nat) : SrcSpec := if sz = 3 then .quad else .src (Ty.fmt ty)

/-- Destination of loaded data (R230, R231). -/
def loadDst (ty : Ty) (sz : Nat) (s : Bool) : DstSpec := if sz = 3 then .quad else .res (Ty.wide ty) s

/-- Whether a destination names predicate `lk` when `lk` is not 0 (R323, R358). -/
def dstIsK (f : Fields) (lk : Nat) : Bool :=
  match f.dst with
  | .k i => decide (lk ≠ 0) && decide (i.val = lk)
  | _ => false

/-- Two or three data operands of the type, one result. -/
def aluSpec (f : Fields) (n : Nat) : OpSpec :=
  { a := .src (Ty.fmt f.ty), b := if n ≥ 2 then .src (Ty.fmt f.ty) else .no,
    c := if n ≥ 3 then .src (Ty.fmt f.ty) else .no, dst := .res (Ty.wide f.ty) true }

/-- The TY values that the opcode map lists for an operation (R40). -/
def legalTys (o : Op) : List Ty :=
  match o with
  | .nop | .br | .jmp | .call | .callr | .ret | .rjnEnrol | .rjnWait | .rjnLeave | .exit | .yield
  | .tileSet | .fwait | .rgnOpen | .rgnClose | .launch | .cwait | .dbnz | .trap | .trapret | .brkpt
  | .voteAny | .voteAll | .voteBal | .xpose | .perm | .pref | .bind | .unbind | .fence | .stashMap
  | .stashUnmap | .stashWb | .stashInv | .redFlush | .cp | .cp2d | .cpGth | .cpSct | .cpMc | .cpSp | .cpRt
  | .cpFill | .cpStat | .cpCancel | .mxPost | .mxTeam | .mxDrain | .mxZero | .mxStat | .mxCancel
  | .barInit | .barArr | .barExp | .barWait | .barTest | .gbar | .chnBind | .chnPop | .chnTry | .chnCnt
  | .alwBind | .alwTest | .alwRd | .fcp | .wcbFlush | .fpeer | .sealOpen | .sealAbs | .sealFin | .sealAbt
  | .icinv | .rtDef | .fuseRd | .keyWipe | .measExt | .sigVfy | .dbgOpen | .halt => [.b32]
  | .add | .sub | .mul | .mad | .min | .max => [.i32, .n32, .i64, .n64, .i16x2, .i8x4]
  | .addc | .subb | .mulh | .bfx | .cmp => [.i32, .n32, .i64, .n64]
  | .abs | .neg => [.i32, .i64, .i16x2, .i8x4]
  | .sar => [.i32, .i64]
  | .and | .or | .xor | .andn | .orn | .not | .shl | .shr | .rol | .ror | .fsh | .bfi | .popc | .clz
  | .ctz | .brev | .sel | .movk | .mov | .shflIdx | .shflUp | .shflDn | .shflXor | .voteEq | .rdlane
  | .wrlane | .ld | .st | .ldu | .lds | .sts | .cas | .cass | .ldf | .stf | .casf => [.b32, .b64]
  | .lea => [.n64]
  | .fadd | .fsub | .fmul | .ffma | .fmin | .fmax | .fabs | .fneg | .fcsgn => [.f32, .f16x2, .bf16x2, .f16, .bf16]
  | .fcmp | .fclass | .frnd | .fscale | .fexpo => [.f32, .f16, .bf16]
  | .fdot2 => [.f16x2, .bf16x2]
  | .fdot4 => [.e4m3x4, .e5m2x4, .i8x4]
  | .cvt => [.i32, .n32, .f32, .i64, .n64, .f16, .bf16]
  | .cvtPk => [.f16x2, .bf16x2, .e4m3x4, .e5m2x4, .i16x2, .i8x4]
  | .cvtSr => [.f16x2, .bf16x2, .f16, .bf16, .e4m3x4, .e5m2x4]
  | .mxq | .mxdq => [.b32, .e4m3x4, .e5m2x4]
  | .pack | .unpack => [.i16x2, .i8x4]
  | .redx | .scanx => [.i32, .n32, .f32, .i64, .n64]
  | .frcp | .frsq | .fsqrt | .fdiv | .fex2 | .flg2 | .fsin | .fcos | .ftanh | .fsig | .ferf => [.f32, .f16]
  | .atom | .red | .atoms | .atomf => [.i32, .n32, .f32, .i64, .n64, .f16x2, .bf16x2]
  | .sysrd | .syswr => [.b64]

/-- The type is listed for the operation; TY 15 never is (R30). -/
def tyOk (o : Op) (t : Ty) : Bool := (legalTys o).contains t
/-- The source type that MOD [5:3] of `cvt` names (R184). -/
def cvtSource (n : Nat) : Fmt :=
  match n with
  | 0 | 1 => .i32
  | 2 => .f32
  | 3 | 4 => .i64
  | 5 => .f16
  | _ => .bf16

/-- `cvt`: SAT is 0 from float to integer, RM is 0 from integer to integer (R184). -/
def cvtModOk (ty : Ty) (src rm : Nat) (sat : Bool) : Bool :=
  let sf := (cvtSource src).flt
  !(sf && !Ty.flt ty && sat) && !(!sf && !Ty.flt ty && decide (rm ≠ 0))

/-- Packed results of four elements (R185, R186). -/
def pk4 (ty : Ty) : Bool := decide (ty = .e4m3x4) || decide (ty = .e5m2x4) || decide (ty = .i8x4)

/-- OPX and PRO of `redx` and `scanx` are a legal combination (R197). -/
def redxOk (ty : Ty) (opx : Nat) (pro : Bool) : Bool :=
  decide (opx < 6) && !(decide (3 ≤ opx) && decide (ty = .f32)) && !(pro && decide (ty ≠ .f32))

/-- An s register selector. -/
def Sel.isS : Sel → Bool
  | .s _ => true
  | _ => false

/-- A v register selector. -/
def Sel.isV : Sel → Bool
  | .v _ => true
  | _ => false

/-- The operand fields of every operation (R31), from the description of each. -/
def opSpec (o : Op) (f : Fields) : OpSpec :=
  let m := f.mod.toNat
  match o with
  | .nop => {}
  | .br => { a := .src .i32 }
  | .jmp => { a := .src .i64 }
  | .call => { a := .src .i32, dst := .link }
  | .callr => { a := .src .i64, dst := .link }
  | .ret => { a := .src .i64 }
  | .rjnEnrol | .rjnWait | .rjnLeave => {}
  | .exit => {}
  | .yield => {}
  | .tileSet => { a := .uni .i32, uncond := true }
  | .fwait => { a := .src .i32 }
  | .rgnOpen | .rgnClose => { uncond := true }
  | .launch => { a := .src .i32, dst := .res false false, bad := dstIsK f (m % 8) }
  | .cwait => { uncond := true }
  | .dbnz => { a := .src .i32, b := .src .i32, dst := .res false false }
  | .trap => { a := .src .i32 }
  | .trapret => { a := .opt .i64 }
  | .brkpt => { a := .src .i32 }
  | .add | .sub | .mul | .min | .max | .mulh => aluSpec f 2
  | .mad => aluSpec f 3
  | .addc | .subb =>
    { a := .src (Ty.fmt f.ty), b := .src (Ty.fmt f.ty), c := .src .i32, dst := .res (Ty.wide f.ty) true,
      bad := dstIsK f (m % 8) || (decide (m % 8 ≠ 0) && Sel.isS f.dst) }
  | .bfx => { a := .src (Ty.fmt f.ty), b := .src .i32, c := .src .i32, dst := .res (Ty.wide f.ty) true }
  | .cmp => { a := .src (Ty.fmt f.ty), b := .src (Ty.fmt f.ty), dst := .res false true }
  | .abs | .neg | .not | .brev => aluSpec f 1
  | .sar | .shl | .shr | .rol | .ror => { a := .src (Ty.fmt f.ty), b := .src .i32, dst := .res (Ty.wide f.ty) true }
  | .and | .or | .xor | .andn | .orn => aluSpec f 2
  | .fsh => { a := .src (Ty.fmt f.ty), b := .src (Ty.fmt f.ty), c := .src .i32, dst := .res (Ty.wide f.ty) true }
  | .bfi => { a := .src (Ty.fmt f.ty), b := .src (Ty.fmt f.ty), c := .src .i32, dst := .res (Ty.wide f.ty) true }
  | .popc | .clz | .ctz => { a := .src (Ty.fmt f.ty), dst := .res false true }
  | .sel => { a := .src (Ty.fmt f.ty), b := .src (Ty.fmt f.ty), c := .src .i32, dst := .res (Ty.wide f.ty) true }
  | .movk => { a := .src (Ty.fmt f.ty), b := .src .i32, dst := .res (Ty.wide f.ty) true }
  | .lea => { a := .src .i64, b := .src (if bit m 3 then .i32 else .i64), c := .src .i64, dst := .res true true }
  | .mov => aluSpec f 1
  | .fadd | .fsub | .fmul | .fmin | .fmax | .fcsgn => aluSpec f 2
  | .ffma => aluSpec f 3
  | .fabs | .fneg | .frnd => aluSpec f 1
  | .fcmp => { a := .src (Ty.fmt f.ty), b := .src (Ty.fmt f.ty), dst := .res false true }
  | .fclass => { a := .src (Ty.fmt f.ty), b := if m = 1 then .src .i32 else .no, dst := .res false true }
  | .fscale => { a := .src (Ty.fmt f.ty), b := .src .i32, dst := .res false true }
  | .fexpo => { a := .src (Ty.fmt f.ty), dst := .res false true }
  | .fdot2 => { a := .src (Ty.fmt f.ty), b := .src (Ty.fmt f.ty), c := .src .f32, dst := .res false true }
  | .fdot4 =>
    { a := .src (Ty.fmt f.ty), b := .src (Ty.fmt f.ty), c := .src (if f.ty = .i8x4 then .i32 else .f32),
      dst := .res false true }
  | .cvt => { a := .src (cvtSource (m / 8)), dst := .res (Ty.wide f.ty) true }
  | .cvtPk => { a := .src .f32, b := .src .f32, c := if pk4 f.ty then .src (Ty.fmt f.ty) else .no, dst := .res false true }
  | .cvtSr =>
    { a := .src .f32, b := if f.ty = .f16 ∨ f.ty = .bf16 then .no else .src .f32, c := .src .i32, dst := .res false true }
  | .mxq => { a := .src .f32, dst := .res false false }
  | .mxdq => { a := .src (Ty.fmt f.ty), b := .src .i32, dst := .res false true }
  | .pack =>
    { a := .src (if f.ty = .i16x2 then .i32 else .p16), b := .src (if f.ty = .i16x2 then .i32 else .p16),
      dst := .res false true }
  | .unpack => { a := .src (Ty.fmt f.ty), dst := .res false true }
  | .shflIdx | .shflUp | .shflDn | .shflXor | .rdlane =>
    { a := .src (Ty.fmt f.ty), b := .src .i32, dst := .res (Ty.wide f.ty) false }
  | .voteAny | .voteAll | .voteBal | .voteEq => { a := .src (Ty.fmt f.ty), dst := .res false false }
  | .redx | .scanx => { a := .src (Ty.fmt f.ty), dst := .res (Ty.wide f.ty) false }
  | .xpose => { a := .src .i32, b := .src .i32, dst := .res false false, bad := !Sel.isV f.a.sel || f.a.l || f.a.k }
  | .perm => { a := .src .i32, b := .src .i32, c := .src .i32, dst := .res false false }
  | .wrlane => { a := .src (Ty.fmt f.ty), b := .src .i32, c := .src (Ty.fmt f.ty), dst := .res (Ty.wide f.ty) false }
  | .frcp | .frsq | .fsqrt | .fex2 | .flg2 | .fsin | .fcos | .ftanh | .fsig | .ferf => aluSpec f 1
  | .fdiv => aluSpec f 2
  | .ld => { a := .src .i64, b := .src .i32, dst := loadDst f.ty (m % 4) false }
  | .st => { a := .src .i64, b := .src .i32, c := dataSpec f.ty (m % 4) }
  | .ldu => { a := .uni .i64, b := .uni .i32, dst := loadDst f.ty (m % 4) true }
  | .lds => { a := .src .i32, b := .src .i32, dst := loadDst f.ty (m % 4) false }
  | .sts => { a := .src .i32, b := .src .i32, c := dataSpec f.ty (m % 4) }
  | .pref => { a := .src .i64, b := .src .i32 }
  | .bind => { a := .src .i64, b := .src .i32, c := .src (if m % 2 = 1 then .i64 else .i32), dst := .res false false }
  | .unbind => { a := .src .i32, dst := .res false false }
  | .fence => {}
  | .stashMap => { a := .src .i32, b := .src .i64, c := .src .i32 }
  | .stashUnmap | .stashWb | .stashInv => { a := .src .i32, b := .src .i32 }
  | .atom => { a := .src .i64, b := .src .i32, c := .src (Ty.fmt f.ty), dst := .res (Ty.wide f.ty) false }
  | .red => { a := .src .i64, b := .src .i32, c := .src (Ty.fmt f.ty) }
  | .cas => { a := .src .i64, b := .src (Ty.fmt f.ty), c := .src (Ty.fmt f.ty), dst := .res (Ty.wide f.ty) false }
  | .atoms => { a := .src .i32, b := .src .i32, c := .src (Ty.fmt f.ty), dst := .res (Ty.wide f.ty) false }
  | .cass => { a := .src .i32, b := .src (Ty.fmt f.ty), c := .src (Ty.fmt f.ty), dst := .res (Ty.wide f.ty) false }
  | .redFlush => {}
  | .cp | .cp2d | .cpGth | .cpSct | .cpMc | .cpSp | .cpRt | .cpFill | .cpStat | .cpCancel =>
    { a := .src .i32, dst := .res false false }
  | .mxPost | .mxTeam | .mxDrain | .mxZero | .mxStat | .mxCancel => { a := .src .i32, dst := .res false false }
  | .barInit => { a := .src .i32, b := .src .i32, dst := .res false false }
  | .barArr => { a := .src .i32, dst := .res false false }
  | .barExp => { a := .src .i32, b := .src .i32, dst := .res false false }
  | .barWait => { a := .src .i32, b := .src .i32 }
  | .barTest => { a := .src .i32, b := .src .i32, dst := .res false false }
  | .gbar => { uncond := true }
  | .chnBind => { a := .uni .i32, uncond := true }
  | .chnPop => if m / 8 % 2 = 1 then { dst := .no } else { dst := .res false false }
  | .chnTry => { dst := .res false false, bad := dstIsK f (m / 8) }
  | .chnCnt => { dst := .res false true }
  | .alwBind => { a := .uni .i32, uncond := true }
  | .alwTest => { b := .src .i32, dst := .res false true }
  | .alwRd => { dst := .res false true }
  | .ldf => { a := .src .i64, b := .src .i32, dst := loadDst f.ty (m / 4 % 4) false }
  | .stf => { a := .src .i64, b := .src .i32, c := dataSpec f.ty (m / 4 % 4) }
  | .atomf => { a := .src .i64, b := .src .i32, c := .src (Ty.fmt f.ty), dst := .res (Ty.wide f.ty) false }
  | .casf => { a := .src .i64, b := .src (Ty.fmt f.ty), c := .src (Ty.fmt f.ty), dst := .res (Ty.wide f.ty) false }
  | .fcp => { a := .src .i32, dst := .res false false }
  | .wcbFlush => {}
  | .fpeer => { dst := .res false false }
  | .sealOpen => { a := .src .i32, b := .src .i64, dst := .res false false }
  | .sealAbs => { a := .src .i32, b := .src (if m = 1 then .i32 else .i64), c := .src .i32, dst := .res false false }
  | .sealFin => { a := .src .i32, b := .src (if m = 1 then .i32 else .i64), dst := .res false false }
  | .sealAbt => { a := .src .i32, dst := .res false false }
  | .sysrd => { a := .src .i32, c := .opt .i32, dst := .res true true }
  | .syswr => { a := .src .i32, b := .src .i64, c := .src .i32 }
  | .icinv => { a := .src .i64, b := .src .i32 }
  | .rtDef => { a := .src .i32, b := .src .i32, dst := .res false false }
  | .fuseRd => { a := .src .i32, dst := .res false false }
  | .keyWipe => { a := .src .i32, dst := .res false false }
  | .measExt => { a := .src .i32, b := .src .i32, dst := .res false false }
  | .sigVfy => { a := .src .i32, b := .src .i32, dst := .res false false }
  | .dbgOpen => { dst := .res false false }
  | .halt => { a := .src .i32 }

/-- A load's or store's SZ, SX and HINT are a combination that R230 allows. -/
def szOk (ty : Ty) (sz : Nat) (sx : Bool) : Bool :=
  !(decide (sz = 3) && !Ty.wide ty) && !(sx && (decide (sz = 0) || decide (sz = 3)))

/-- OPX and PRO of an atomic are a combination that R245 allows. -/
def opxOk (ty : Ty) (opx : Nat) (pro : Bool) : Bool :=
  decide (opx ≤ 6) && !(decide (3 ≤ opx) && decide (opx ≤ 5) && Ty.flt ty) && !(pro && !Ty.flt ty)

/-- The MOD values that an operation's description defines (R30). -/
def modOk (o : Op) (ty : Ty) (mod : BitVec 6) : Bool :=
  let m := mod.toNat
  match o with
  | .rjnEnrol | .rjnWait | .rjnLeave => decide (m < 4)
  | .fwait => decide (m < 2)
  | .launch => decide (m < 8)
  | .add | .sub | .mul | .mad | .abs | .neg => decide (m < 2)
  | .addc | .subb => decide (m < 8)
  | .cmp => decide (m < 6)
  | .fsh => decide (m < 2)
  | .movk => decide (m < 4) && (Ty.wide ty || decide (m < 2))
  | .lea => decide (m < 32)
  | .fadd | .fsub | .fmul | .ffma => decide (m < 32)
  | .fmin | .fmax => decide (m < 2)
  | .fcsgn => decide (m < 3)
  | .fcmp => decide (m < 8)
  | .fclass => decide (m < 2)
  | .frnd => decide (m < 4)
  | .fscale => decide (m < 8)
  | .fdot2 => decide (m < 8)
  | .fdot4 => if ty = .i8x4 then decide (m = 0) || decide (m = 4) else decide (m < 8)
  | .cvt => decide (m / 8 < 7) && cvtModOk ty (m / 8) (m % 4) (bit m 2)
  | .cvtPk =>
    decide (m < 16) && (!bit m 3 || pk4 ty) && !(bit m 2 && (decide (ty = .i16x2) || decide (ty = .i8x4)))
  | .cvtSr => decide (m < 16) && decide (m % 4 = 0) && (!bit m 3 || pk4 ty)
  | .mxq => decide (m < 2)
  | .mxdq => if ty = .b32 then decide (m < 8) else decide (m < 4)
  | .pack => decide (m < 3)
  | .unpack => decide (m < 8) && (decide (ty = .i8x4) || decide (m % 4 < 2))
  | .shflUp | .shflDn => decide (m < 2)
  | .redx => decide (m < 16) && redxOk ty (m % 8) (bit m 3)
  | .scanx => decide (m < 32) && redxOk ty (m % 8) (bit m 3)
  | .xpose => decide (m < 3)
  | .ld | .ldu => decide (m < 32) && szOk ty (m % 4) (bit m 2)
  | .st => decide (m < 32) && szOk ty (m % 4) (bit m 2) && !bit m 2
  | .lds => decide (m < 8) && szOk ty (m % 4) (bit m 2)
  | .sts => decide (m < 4) && szOk ty (m % 4) false
  | .pref => decide (m < 4)
  | .bind => decide (m < 2)
  | .fence => decide (m < 24)
  | .atom | .atoms => decide (m < 16) && opxOk ty (m % 8) (bit m 3)
  | .red => decide (m < 16) && opxOk ty (m % 8) (bit m 3) && decide (m % 8 ≠ 6)
  | .cpStat => decide (m < 2)
  | .mxStat => decide (m < 4)
  | .barArr => decide (m < 3)
  | .barExp => decide (m < 2)
  | .chnBind => decide (m < 8)
  | .chnPop => decide (m < 16)
  | .chnTry => true
  | .chnCnt => decide (m < 16)
  | .alwBind | .alwTest | .alwRd => decide (m < 4)
  | .ldf => decide (m < 32) && szOk ty (m / 4 % 4) (bit m 4)
  | .stf => decide (m < 16) && szOk ty (m / 4 % 4) false
  | .atomf => opxOk ty (m / 4 % 8) (bit m 5)
  | .casf | .fcp => decide (m < 4)
  | .wcbFlush => decide (m = 0) || (decide (4 ≤ m) && decide (m < 8))
  | .fpeer => decide (m < 4) || decide (m = 4)
  | .sealAbs | .sealFin => decide (m < 2)
  | _ => decide (m = 0)

/-- The privileged operations (R41, R433). -/
def privileged (o : Op) : Bool :=
  match o with
  | .syswr | .fuseRd | .keyWipe | .measExt | .sigVfy | .dbgOpen | .halt => true
  | _ => false

/-- The engine class of an operation, none for the neutral `nop` and `mov` (R25, R40). -/
def opClass (o : Op) : Option Nat :=
  match o with
  | .nop | .mov => none
  | _ =>
    match o.code / 64 with
    | 0 => some 0
    | 1 | 2 | 3 | 4 => some 1
    | 5 => some 2
    | 6 =>
      match o with
      | .lds | .sts | .stashMap | .stashUnmap | .stashWb | .stashInv => some 4
      | _ => some 3
    | 7 =>
      match o with
      | .atoms | .cass => some 4
      | _ => some 3
    | 8 => some 4
    | 9 => some 5
    | 10 => some 7
    | 11 => some 6
    | _ => some 8

/-- A group 0 operation (R25). -/
def isCtl (o : Op) : Bool := decide (o.code < 64)

/-- The control transfers (R25). -/
def isTransfer (o : Op) : Bool :=
  match o with
  | .br | .jmp | .call | .callr | .ret | .dbnz | .exit | .trap | .trapret => true
  | _ => false

/-- A short-latency operation: class 0 or 1, `nop` and `mov` (R23). -/
def isShort (o : Op) : Bool :=
  match opClass o with
  | none => true
  | some c => decide (c ≤ 1)

/-- The operations that close the region before they execute (R365), channel operands apart. -/
def closesRegion (o : Op) (mod : BitVec 6) : Bool :=
  match o with
  | .atom | .cas | .atoms | .cass | .redFlush => true
  | .ldf | .stf | .atomf | .casf | .fcp | .wcbFlush | .fpeer => true
  | .cp | .cp2d | .cpGth | .cpSct | .cpMc | .cpSp | .cpRt | .cpFill | .cpCancel => true
  | .mxPost | .mxTeam | .mxDrain | .mxZero | .mxCancel => true
  | .stashMap | .stashUnmap | .stashWb | .stashInv => true
  | .barInit | .barArr | .barExp | .gbar | .chnBind | .chnPop | .chnTry | .alwBind => true
  | .fence => decide (mod.toNat % 4 ≠ 0)
  | .sealOpen | .sealAbs | .sealFin | .sealAbt | .syswr | .icinv | .rtDef | .keyWipe | .measExt | .sigVfy
  | .dbgOpen | .halt => true
  | .launch | .cwait | .exit | .trapret => true
  | _ => false

/-- Whether a selector names a channel. -/
def Sel.isCh : Sel → Bool
  | .ch _ => true
  | _ => false

/-- The instruction closes the region before it (R365). -/
def needsClose (o : Op) (f : Fields) : Bool :=
  closesRegion o f.mod || Sel.isCh f.dst || Sel.isCh f.a.sel || Sel.isCh f.b.sel || Sel.isCh f.c.sel

/-- A uniform source: s register, inline constant, literal or uniform special (R38). -/
def Sel.uniform : Sel → Bool
  | .s _ | .int _ | .flt _ | .lit => true
  | .special i => decide (4 ≤ i.val)
  | _ => false

/-- What of the crew and its cohort the operand checks read: declared registers (R33) and bound channel selectors (R140). -/
structure Env where
  regs : Nat
  bound : Fin 8 → Bool

/-- A v register number `n`, `k` registers wide, exists (R33, R36). -/
def vOk (e : Env) (n k : Nat) : Bool := decide (n % k = 0) && decide (n + k ≤ e.regs)

/-- A source selector is legal for an operand read in format `f` (R32, R33). -/
def selOk (e : Env) (f : Fmt) : Sel → Bool
  | .t _ => true
  | .v i => vOk e i.val (if f.wide then 2 else 1)
  | .s i => !f.wide || decide (i.val % 2 = 0)
  | .ch i => e.bound i
  | .k _ => true
  | .int _ => true
  | .flt _ => f.flt
  | .special _ => true
  | .reserved _ => false
  | .lit => true
  | .none => false

/-- L and K are legal: only on a v register, and not both (R35). -/
def lkOk (x : Src) : Bool :=
  match x.sel with
  | .v _ => !(x.l && x.k)
  | _ => !x.l && !x.k

/-- A source field is legal (R31 to R35). -/
def srcOk (e : Env) (sp : SrcSpec) (x : Src) : Bool :=
  lkOk x &&
  match sp with
  | .no => decide (x.sel = .none)
  | .src f => selOk e f x.sel
  | .opt f => decide (x.sel = .none) || selOk e f x.sel
  | .uni f => selOk e f x.sel && Sel.uniform x.sel
  | .quad =>
    match x.sel with
    | .v i => vOk e i.val 4
    | _ => false

/-- No channel is named by two sources (R33). -/
def chanOnce (f : Fields) : Bool :=
  !((Sel.isCh f.a.sel && (decide (f.a.sel = f.b.sel) || decide (f.a.sel = f.c.sel))) ||
    (Sel.isCh f.b.sel && decide (f.b.sel = f.c.sel)))

/-- Every source that is present is uniform (R38). -/
def allUniform (f : Fields) : Bool :=
  [f.a.sel, f.b.sel, f.c.sel].all fun x => decide (x = .none) || Sel.uniform x

/-- An unconditional instruction (R29). -/
def isUncond (f : Fields) : Bool := decide (f.pk = 0) && !f.pn

/-- The destination field is legal (R32, R36, R37, R38). -/
def dstOk (e : Env) (sp : DstSpec) (f : Fields) : Bool :=
  (!f.dstT || decide (f.dst = .none)) &&
  match sp with
  | .no => decide (f.dst = .none) && !f.dstT
  | .res wide sOk =>
    match f.dst with
    | .v i => vOk e i.val (if wide then 2 else 1)
    | .s i => sOk && (!wide || decide (i.val % 2 = 0)) && isUncond f && allUniform f
    | .ch i => e.bound i
    | .k i => decide (i.val ≠ 0)
    | .none => true
    | _ => false
  | .link =>
    match f.dst with
    | .v i => vOk e i.val 2
    | .none => true
    | _ => false
  | .quad =>
    match f.dst with
    | .v i => vOk e i.val 4
    | _ => false

/-- The word breaks no rule whose breach is ILLEGAL_OPERAND (R29, R31 to R38, R319, R325, R348). -/
def operandOk (e : Env) (o : Op) (f : Fields) : Bool :=
  let sp := opSpec o f
  !f.rsv44 && !(decide (f.pk = 0) && f.pn) && srcOk e sp.a f.a && srcOk e sp.b f.b && srcOk e sp.c f.c &&
    dstOk e sp.dst f && chanOnce f && (!sp.uncond || isUncond f) && !sp.bad

/-- The TY and MOD values are legal for the operation (R30). -/
def opcodeOk (o : Op) (f : Fields) : Bool := tyOk o f.ty && modOk o f.ty f.mod

/-- The channel selector that MOD names is bound (R140, R358). -/
def namedOk (e : Env) (o : Op) (f : Fields) : Bool :=
  match o with
  | .chnPop | .chnTry | .chnCnt => e.bound (Fin.ofNat 8 f.mod.toNat)
  | _ => true

/-- The first encoding check that fails, in the order of R43; in tenant code the C field of `sysrd` is 0xFF (R438). -/
def encFault (e : Env) (firmware : Bool) (o : Op) (f : Fields) : Option Cause :=
  if !opcodeOk o f then some cIllegalOpcode
  else if privileged o && !firmware then some cPriv
  else if !operandOk e o f || (decide (o = .sysrd) && !firmware && decide (f.c.sel ≠ .none)) || !namedOk e o f then
    some cIllegalOperand
  else none


end Sys2Proof.Machine
end

