-- ==== Sys2Proof/Machine/Float.lean ====
section
/-!
DEFINITION. Sys2Proof/Machine/Float.lean: number formats and the rules of arithmetic (R146 to R161). A floating value is
exact: a NaN, an infinity, or a signed whole number times a power of two; RoundFloat is the one rounding.
-/

namespace Sys2Proof.Machine

/-- An exact floating value: `fin neg m e` is (-1)^neg × m × 2^e, a zero of either sign when m is 0. -/
inductive FV where
  | nan
  | inf (neg : Bool)
  | fin (neg : Bool) (m : Nat) (e : Int)
  deriving DecidableEq, Repr, Inhabited

/-- A floating format (R147): exponent and fraction widths, bias, whether it has infinities, the bits of its largest
finite magnitude, its canonical NaN (R155). -/
structure FF where
  ebits : Nat
  mbits : Nat
  bias : Nat
  hasInf : Bool
  maxFin : Nat
  canon : Nat
  deriving DecidableEq, Repr, Inhabited

/-- FP32 (R147). -/
def ffF32 : FF := { ebits := 8, mbits := 23, bias := 127, hasInf := true, maxFin := 0x7F7FFFFF, canon := 0x7FC00000 }
/-- FP16 (R147). -/
def ffF16 : FF := { ebits := 5, mbits := 10, bias := 15, hasInf := true, maxFin := 0x7BFF, canon := 0x7E00 }
/-- BF16 (R147). -/
def ffBf16 : FF := { ebits := 8, mbits := 7, bias := 127, hasInf := true, maxFin := 0x7F7F, canon := 0x7FC0 }
/-- FP8 E4M3 (R147). -/
def ffE4m3 : FF := { ebits := 4, mbits := 3, bias := 7, hasInf := false, maxFin := 0x7E, canon := 0x7F }
/-- FP8 E5M2 (R147). -/
def ffE5m2 : FF := { ebits := 5, mbits := 2, bias := 15, hasInf := true, maxFin := 0x7B, canon := 0x7E }
/-- FP4 E2M1 (R147); it has no NaN, and `canon` is never reached (R152). -/
def ffE2m1 : FF := { ebits := 2, mbits := 1, bias := 1, hasInf := false, maxFin := 0x7, canon := 0x7 }

/-- Exponent of the least normal value (R147). -/
def FF.emin (f : FF) : Int := 1 - (f.bias : Int)

/-- Sign bit of a format as a number. -/
def FF.signBit (f : FF) : Nat := 2 ^ (f.ebits + f.mbits)

/-- The bits of infinity (R147). -/
def FF.infBits (f : FF) : Nat := (2 ^ f.ebits - 1) * 2 ^ f.mbits

/-- The exact value of a pattern (R147). -/
def fvOf (f : FF) (x : Nat) : FV :=
  let neg := x / f.signBit % 2 == 1
  let e := x / 2 ^ f.mbits % 2 ^ f.ebits
  let m := x % 2 ^ f.mbits
  if f.hasInf && e == 2 ^ f.ebits - 1 then
    if m = 0 then .inf neg else .nan
  else if !f.hasInf && decide (f.maxFin < x % f.signBit) then .nan
  else if e = 0 then .fin neg m (f.emin - f.mbits)
  else .fin neg (2 ^ f.mbits + m) ((e : Int) - f.bias - f.mbits)

/-- Sets the sign of a magnitude's bits. -/
def withSign (f : FF) (neg : Bool) (x : Nat) : Nat := if neg then f.signBit + x else x

/-- Whether a mode moves a value of this sign towards zero (R152). -/
def towardsZero (rm : Nat) (neg : Bool) : Bool := rm == 1 || (rm == 2 && neg) || (rm == 3 && !neg)

/-- `m` × 2^e as a count of 2^q, rounded by a mode applied to the signed value (R152). -/
def roundCount (rm : Nat) (neg : Bool) (m : Nat) (e q : Int) : Nat :=
  if q ≤ e then m * 2 ^ (e - q).toNat
  else
    let d := (q - e).toNat
    let far := decide (Nat.log2 m + 2 < d)
    let c := if far then 0 else m / 2 ^ d
    let rem := if far then m else m % 2 ^ d
    let twice := if far then 0 else 2 * rem
    let half := if far then 1 else 2 ^ d
    let up :=
      match rm with
      | 0 => decide (half < twice) || (decide (half = twice) && decide (c % 2 = 1))
      | 1 => false
      | 2 => !neg && decide (rem ≠ 0)
      | _ => neg && decide (rem ≠ 0)
    if up then c + 1 else c

/-- What the overflow step of R152 gives, without its sign. -/
def overflowBits (f : FF) (rm : Nat) (neg sat : Bool) : Nat :=
  if sat || towardsZero rm neg then withSign f neg f.maxFin
  else if f.hasInf then withSign f neg f.infBits
  else f.canon

/-- RoundFloat (R152): the bits of the exact value rounded into a format. -/
def roundFloat (x : FV) (f : FF) (rm : Nat) (sat : Bool) : Nat :=
  match x with
  | .nan => f.canon
  | .inf neg =>
    if sat then withSign f neg f.maxFin
    else if f.hasInf then withSign f neg f.infBits
    else f.canon
  | .fin neg m e =>
    if m = 0 then withSign f neg 0
    else
      let ex := max ((Nat.log2 m : Int) + e) f.emin
      let ovf := ex - f.emin
      if (2 : Int) ^ f.ebits < ovf then overflowBits f rm neg sat
      else
        let c := roundCount rm neg m e (ex - f.mbits)
        let b := ovf.toNat * 2 ^ f.mbits + c
        if f.maxFin < b then overflowBits f rm neg sat else withSign f neg b

/-- The value negated (R178). -/
def fvNeg : FV → FV
  | .nan => .nan
  | .inf n => .inf !n
  | .fin n m e => .fin (!n) m e

/-- A whole number as a value (R153). -/
def fvOfInt (n : Int) : FV := .fin (decide (n < 0)) n.natAbs 0

/-- The signed mantissa of a finite value at a lower exponent. -/
def fvAt (neg : Bool) (m : Nat) (e q : Int) : Int :=
  let x : Int := m * 2 ^ (e - q).toNat
  if neg then -x else x

/-- Exact product (R154): infinity times zero is NaN. -/
def fvMul : FV → FV → FV
  | .nan, _ => .nan
  | _, .nan => .nan
  | .inf a, .inf b => .inf (a != b)
  | .inf a, .fin b m _ => if m = 0 then .nan else .inf (a != b)
  | .fin a m _, .inf b => if m = 0 then .nan else .inf (a != b)
  | .fin a m e, .fin b n g => .fin (a != b) (m * n) (e + g)

/-- Exact sum; an exact zero sum of operands of opposite sign is +0, and -0 in RDN (R154). -/
def fvAdd (rm : Nat) : FV → FV → FV
  | .nan, _ => .nan
  | _, .nan => .nan
  | .inf a, .inf b => if a = b then .inf a else .nan
  | .inf a, .fin _ _ _ => .inf a
  | .fin _ _ _, .inf b => .inf b
  | .fin a m e, .fin b n g =>
    if m = 0 ∧ n = 0 then .fin (if a = b then a else decide (rm = 3)) 0 0
    else if m = 0 then .fin b n g
    else if n = 0 then .fin a m e
    else
      let q := min e g
      let x := fvAt a m e q + fvAt b n g q
      if x = 0 then .fin (decide (rm = 3)) 0 0 else .fin (decide (x < 0)) x.natAbs q

/-- Exact sum of several terms (R183). -/
def fvSum (rm : Nat) : List FV → FV
  | [] => .fin false 0 0
  | [x] => x
  | x :: r => fvAdd rm x (fvSum rm r)

/-- A value times a power of two (R182, R212). -/
def fvScale (x : FV) (n : Int) : FV :=
  match x with
  | .fin s m e => if m = 0 then x else .fin s m (e + n)
  | _ => x

/-- Exact comparison; none with a NaN (R181). -/
def fvCmp : FV → FV → Option Ordering
  | .nan, _ => none
  | _, .nan => none
  | .inf a, .inf b => some (if a = b then .eq else if a then .lt else .gt)
  | .inf a, .fin _ _ _ => some (if a then .lt else .gt)
  | .fin _ _ _, .inf b => some (if b then .gt else .lt)
  | .fin a m e, .fin b n g =>
    if m = 0 ∧ n = 0 then some .eq
    else if m = 0 then some (if b then .gt else .lt)
    else if n = 0 then some (if a then .lt else .gt)
    else if a ≠ b then some (if a then .lt else .gt)
    else
      let x := (Nat.log2 m : Int) + e
      let y := (Nat.log2 n : Int) + g
      if x ≠ y then some (if (decide (x < y)) != a then .lt else .gt)
      else
        let q := min e g
        let u := fvAt a m e q
        let v := fvAt b n g q
        some (if u < v then .lt else if v < u then .gt else .eq)

/-- A value rounded to a whole number by a mode (R153), for finite values. -/
def fvToInt (rm : Nat) (neg : Bool) (m : Nat) (e : Int) : Int :=
  let c : Int := roundCount rm neg m e 0
  if neg then -c else c

/-- Conversion to an integer range (R153). -/
def fvClampInt (x : FV) (rm : Nat) (lo hi : Int) : Int :=
  match x with
  | .nan => 0
  | .inf neg => if neg then lo else hi
  | .fin neg m e =>
    if (Nat.log2 m : Int) + e > 80 then (if neg then lo else hi)
    else max lo (min hi (fvToInt rm neg m e))

/-- SrHash (R156). -/
def srHash (seed : W32) (lane e : Nat) : W32 :=
  let z := seed + 0x9E3779B9#32 * BitVec.ofNat 32 (32 * e + lane + 1)
  let z := (z ^^^ (z >>> 16)) * 0x85EBCA6B#32
  let z := (z ^^^ (z >>> 13)) * 0xC2B2AE35#32
  z ^^^ (z >>> 16)

/-- RoundSR (R157). -/
def roundSR (x : FV) (f : FF) (seed : W32) (lane e : Nat) (sat : Bool) : Nat :=
  match x with
  | .fin neg m ex =>
    if m = 0 then roundFloat x f 0 sat
    else
      let lg := max ((Nat.log2 m : Int) + ex) f.emin
      let q := lg - f.mbits
      let lo := roundCount 1 neg m ex q
      let fr := roundCount 1 neg m ex (q - 32) - lo * 2 ^ 32
      let c := if (srHash seed lane e).toNat < fr then lo + 1 else lo
      let b := (lg - f.emin).toNat * 2 ^ f.mbits + c
      if f.maxFin < b then overflowBits f 0 neg sat else withSign f neg b
  | _ => roundFloat x f 0 sat

/-- floor(log2 |x|) of a nonzero finite value. -/
def fvLog2 : FV → Option Int
  | .fin _ m e => if m = 0 then none else some ((Nat.log2 m : Int) + e)
  | _ => none

/-- The largest of a list of exponents. -/
def maxExp (l : List (Option Int)) : Option Int :=
  l.foldl (fun a x =>
    match a, x with
    | none, y => y
    | y, none => y
    | some u, some v => some (max u v)) none

/-- MxQuant (R150): the scale byte and the element bits of a block. -/
def mxQuant (v : List FV) (f : FF) : Nat × List Nat :=
  if v.any fun x => (match x with | .fin _ _ _ => false | _ => true) then (0xFF, v.map fun _ => 0)
  else
    match maxExp (v.map fvLog2) with
    | none => (0x7F, v.map fun _ => 0)
    | some lg =>
      let emax : Int := if f.mbits = 3 then 8 else if f.mbits = 2 then 15 else 2
      let x := min (max (lg - emax) (-127)) 127
      ((x + 127).toNat, v.map fun y => roundFloat (fvScale y (-x)) f 0 true)

/-- A term of an aligned sum cut at 2^(E-60) (R158), as a signed count of 2^(E-60). -/
def alignedTerm (ex : Int) : FV → Int
  | .fin neg m e =>
    let c : Int := roundCount 1 neg m e (ex - 60)
    if neg then -c else c
  | _ => 0

/-- AlignedSum (R158), as an exact FP32 value. -/
def alignedSum (p : List FV) : FV :=
  let infs := p.filterMap fun x => (match x with | .inf n => some n | _ => none)
  if p.any (fun x => x = .nan) || (infs.contains true && infs.contains false) then .nan
  else
    match infs with
    | n :: _ => .inf n
    | [] =>
      match maxExp (p.map fvLog2) with
      | none => .fin (p.all fun x => (match x with | .fin n _ _ => n | _ => false)) 0 0
      | some ex =>
        let s := p.foldl (fun a x => a + alignedTerm ex x) 0
        if s = 0 then .fin false 0 0
        else fvOf ffF32 (roundFloat (.fin (decide (s < 0)) s.natAbs (ex - 60)) ffF32 0 false)

/-- The accumulator update of a floating job (R160). -/
def accUpdate (c : W32) (blk : FV) : W32 :=
  BitVec.ofNat 32 (roundFloat (fvAdd 0 (fvOf ffF32 c.toNat) blk) ffF32 0 false)

/-- The format of a floating operand or element. -/
def fmtFF : Nat → FF
  | 0 => ffF32
  | 1 => ffBf16
  | 2 => ffF16
  | 3 => ffE4m3
  | 4 => ffE5m2
  | 5 => ffE4m3
  | 6 => ffE5m2
  | _ => ffE2m1

end Sys2Proof.Machine
end

