-- ==== Sys2Proof/Machine/Arith.lean ====
section
/-!
DEFINITION. Sys2Proof/Machine/Arith.lean: arithmetic on the elements of a type, shared by the integer and floating
instructions, the reductions over lanes and the atomics (R148, R170, R179, R197, R246).
-/

namespace Sys2Proof.Machine

/-- Element width and element count of a type (R30, R148). -/
def Ty.shape : Ty → Nat × Nat
  | .b64 | .i64 | .n64 => (64, 1)
  | .f16x2 | .bf16x2 | .i16x2 => (16, 2)
  | .f16 | .bf16 => (16, 1)
  | .e4m3x4 | .e5m2x4 | .i8x4 => (8, 4)
  | _ => (32, 1)

/-- The type's elements are read as signed integers (R170). -/
def Ty.signed : Ty → Bool
  | .i32 | .i64 | .i16x2 | .i8x4 => true
  | _ => false

/-- The floating format of a type's elements (R147). -/
def Ty.ff : Ty → FF
  | .f16x2 | .f16 => ffF16
  | .bf16x2 | .bf16 => ffBf16
  | .e4m3x4 => ffE4m3
  | .e5m2x4 => ffE5m2
  | _ => ffF32

/-- Element `i` of width `w` (R148). -/
def elem (w i x : Nat) : Nat := x / 2 ^ (w * i) % 2 ^ w

/-- A word of `n` elements (R148). -/
def ofElems (w n : Nat) (g : Nat → Nat) : Nat := (List.range n).foldl (fun y i => y + g i % 2 ^ w * 2 ^ (w * i)) 0

/-- A function of the elements of three operands (R148). -/
def perElem (t : Ty) (g : Nat → Nat → Nat → Nat) (a b c : W64) : W64 :=
  let (w, n) := Ty.shape t
  BitVec.ofNat 64 (ofElems w n fun i => g (elem w i a.toNat) (elem w i b.toNat) (elem w i c.toNat))

/-- The integer an element holds (R170). -/
def intVal (signed : Bool) (w x : Nat) : Int := if signed then sext w x else (x % 2 ^ w : Nat)

/-- Least and greatest integers of a type (R146). -/
def intRange (signed : Bool) (w : Nat) : Int × Int :=
  if signed then (-(2 ^ (w - 1) : Int), (2 ^ (w - 1) : Int) - 1) else (0, (2 ^ w : Int) - 1)

/-- IntResult (R170): clamped when SAT is 1, then the two's complement bits. -/
def intResult (signed : Bool) (w : Nat) (sat : Bool) (x : Int) : Nat :=
  let r := intRange signed w
  let x := if sat then max r.1 (min r.2 x) else x
  (x % (2 ^ w : Int)).toNat

/-- An integer operation on every element (R170). -/
def intOp (t : Ty) (sat : Bool) (g : Int → Int → Int → Int) (a b c : W64) : W64 :=
  let w := (Ty.shape t).1
  let sg := Ty.signed t
  perElem t (fun x y z => intResult sg w sat (g (intVal sg w x) (intVal sg w y) (intVal sg w z))) a b c

/-- A floating operation on every element, by its bits (R178, R179). -/
def fltOp (t : Ty) (g : FF → Nat → Nat → Nat → Nat) (a b c : W64) : W64 := perElem t (g (Ty.ff t)) a b c

/-- Whether a NaN (R147). -/
def isNan (f : FF) (x : Nat) : Bool := decide (fvOf f x = .nan)

/-- a ≤ b for numbers, -0 counting as less than +0 (R179). -/
def fle (f : FF) (a b : Nat) : Bool :=
  match fvCmp (fvOf f a) (fvOf f b) with
  | some .lt => true
  | some .eq => decide (f.signBit ≤ a) || decide (b < f.signBit)
  | _ => false

/-- `fmin` and `fmax` of bits (R179). -/
def fMinMax (isMax pro : Bool) (f : FF) (a b : Nat) : Nat :=
  let na := isNan f a
  let nb := isNan f b
  if (na && nb) || (pro && (na || nb)) then f.canon
  else if na then b
  else if nb then a
  else if fle f a b then (if isMax then b else a)
  else if isMax then a else b

/-- Rounded sum of bits, RNE (R246). -/
def fAddBits (f : FF) (a b : Nat) : Nat := roundFloat (fvAdd 0 (fvOf f a) (fvOf f b)) f 0 false

/-- old op x of an atomic, a reduction or a combining tree: add, min, max, and, or, xor, and exchange (R197, R246). -/
def opxApply (opx : Nat) (pro : Bool) (t : Ty) (a b : W64) : W64 :=
  match opx with
  | 0 => if Ty.flt t then fltOp t (fun f x y _ => fAddBits f x y) a b 0 else intOp t false (fun x y _ => x + y) a b 0
  | 1 => if Ty.flt t then fltOp t (fun f x y _ => fMinMax false pro f x y) a b 0 else intOp t false (fun x y _ => min x y) a b 0
  | 2 => if Ty.flt t then fltOp t (fun f x y _ => fMinMax true pro f x y) a b 0 else intOp t false (fun x y _ => max x y) a b 0
  | 3 => a &&& b
  | 4 => a ||| b
  | 5 => a ^^^ b
  | _ => b

/-- Every NaN among a result's elements made canonical (R155). -/
def canonNans (t : Ty) (a : W64) : W64 :=
  if Ty.flt t then fltOp t (fun f x _ _ => if isNan f x then f.canon else x) a 0 0 else a

/-- Combine with a missing side (R197). -/
def combine (opx : Nat) (pro : Bool) (t : Ty) : Option W64 → Option W64 → Option W64
  | none, b => b
  | a, none => a
  | some a, some b => some (opxApply opx pro t a b)

/-- The identity of a reduction over lanes (R197). -/
def opxIdentity (opx : Nat) (t : Ty) : W64 :=
  let w := (Ty.shape t).1
  let r := intRange (Ty.signed t) w
  match opx with
  | 1 => if t = .f32 then 0x7F800000 else BitVec.ofNat 64 (intResult (Ty.signed t) w false r.2)
  | 2 => if t = .f32 then 0xFF800000 else BitVec.ofNat 64 (intResult (Ty.signed t) w false r.1)
  | 3 => BitVec.ofNat 64 (2 ^ w - 1)
  | _ => 0

end Sys2Proof.Machine
end

