-- ==== Sys2Proof/Config.lean ====
section
/-!
DEFINITION. Sys2Proof/Config.lean: what one wafer fixes (R15) and the free values, the values the spec leaves open.
A free value is an `opaque` constant: no body, so no proof can know what it is. Most are applied to the counter
`tick` of the state, which every step advances, so each use is a fresh value (notes/assumptions/2.md).
-/

namespace Sys2Proof.Config

/-- Physical clusters (R15). -/
def clusters : Nat := 3072
/-- Service clusters of the service block; the model numbers them after the physical ones (R11). -/
def svcClusters : Nat := 4
/-- Cache slices, and memory channels (R15). -/
def slices : Nat := 1024
/-- Bytes of one memory channel (R51). -/
def channelBytes : Nat := 6442450944
/-- Cells of one memory channel (R51). -/
def cells : Nat := 1572864
/-- Bytes of one stash (R101). -/
def stashBytes : Nat := 4194304
/-- Fabric ports (R271) and host ports (R15). -/
def fabricPorts : Nat := 96
/-- See `fabricPorts`. -/
def hostPorts : Nat := 4
/-- Key-service shares (R428). -/
def shares : Nat := 16
/-- The service block's own partition tag (R400). -/
def svcTag : Nat := 0
/-- The largest tag of a tenant partition (R400). -/
def maxTag : Nat := 1020

/-- FREE VALUE: which step comes next where the spec orders none (log 3). -/
opaque turnAt : Nat → Turn
/-- FREE VALUE: time-base nanoseconds that pass in a step (R4, R100; log 4). -/
opaque elapsed : Nat → Nat
/-- FREE VALUE: slice cycles that pass unused before a bundle is formed (R304; log 4). -/
opaque idleCycles : Nat → Nat
/-- FREE VALUE: which of the threads standing at an address share a bundle where R305 does not say (log 10). -/
opaque bundleMask : Nat → BitVec 32
/-- FREE VALUE: which L0 line a fill replaces where all of the choice is open (R227; log 9). -/
opaque l0Way : Nat → Nat
/-- FREE VALUE: whether a clause fetch of a line held stale sees the old or the new words (R27; log 9). -/
opaque fetchOld : Nat → Nat → Bool
/-- FREE VALUE: which cells the service block takes for page tables, bounce space and save areas (R63, R65; log 11). -/
opaque cellFor : Nat → Nat
/-- FREE VALUE: which of several free slots of an engine an accepted job takes (R116, R216; log 11). -/
opaque slotFor : Nat → Nat
/-- FREE VALUE: a word of random bits (R428, R441; log 2). -/
opaque random : Nat → W64
/-- FREE VALUE: the result of a special function where the spec gives a bound and no value (R162; log 7): operation
code, type code and operands. -/
opaque sfu : Nat → Nat → W64 → W64 → W64
/-- FREE VALUE: an arithmetic result that the spec does not state, by a tag naming the rule (log 2). -/
opaque unstated : Nat → W64 → W64 → W64
/-- FREE VALUE: a byte of host memory that the device reads, by step and host address (R421; log 13). -/
opaque hostByte : Nat → Nat → Byte
/-- AES-256-XTS of a line under a key, with its tweak (R52), and the keys that the root of trust has generated, by number
(log 6). -/
opaque aesXts : BitVec 512 → BitVec 128 → List Byte → List Byte
/-- See `aesXts`. -/
opaque memoryKey : Nat → BitVec 512
/-- Whether the router of a cluster site that fails has failed with it (R14, R16; log 2). -/
opaque routerFailed : Nat → Bool
/-- What the fuses hold (R16, R431, R440): which three clusters of each zone are its spares, fused lifecycle, fuse words,
device secret (R428). -/
opaque spareFuses : Nat → Nat → Nat
/-- The fused lifecycle word (R431). -/
opaque lifecycleFuse : BitVec 4
/-- Fuse words 0 to 16 (R440). -/
opaque fuseWord : Nat → W32
/-- The device unique secret, 256 bits (R428). -/
opaque deviceSecret : BitVec 256
/-- Module number from the tray's position straps (R283). -/
opaque fabmod : BitVec 11
/-- The debug authority's P-384 public key held in ROM: x then y (R440, R441). -/
opaque debugKey : Nat × Nat
/-- SHA-384 digests of the boot ROM (1) and the service firmware (2) (R429). -/
opaque firmwareDigest : Nat → List Byte
/-- The ML-DSA-65 public key of a seed, and the deterministic signature of a message under a seed (R435, R462; log 8). -/
opaque mldsaPublic : List Byte → List Byte
/-- See `mldsaPublic`. -/
opaque mldsaSign : List Byte → List Byte → List Byte
/-- The SPDM responder's signature with the device identity key (R429; log 8). -/
opaque identitySign : List Byte → List Byte
/-- Packets of one class that wait at every productive port before a packet takes a detour (R276). -/
opaque detourQueue : Nat
/-- FREE VALUE: whether the check of a result produced at a step fails (R224, R372; log 2). -/
opaque checkFails : Nat → Bool

/-- The unit whose check fails: 0 vector ALU, 1 uniform unit, 2 special function (R372, R383; log 2). -/
opaque failedUnit : Nat → Nat
/-- FREE VALUE: a double-bit error of a cluster's register, queue or stash storage that a step finds, and the word it hits (R372; log 2). -/
opaque storageError : Nat → Option (Nat × Nat)

/-- The ratio and duty to which firmware's power policy lowers a cluster at a step, each modulo its range (R389; log 2). -/
opaque powerPolicy : Nat → Nat → Nat
/-- The context of a time-shared partition that owns a space, modulo the number of contexts (R403; log 27). -/
opaque contextOf : Nat → Nat
/-- The module at the far end of a fabric port where the operator cabled it, spare ports 94 and 95 (R271). -/
opaque sparePartner : Nat → BitVec 11

end Sys2Proof.Config
end

