-- ==== Sys2Proof/Machine/State.lean ====
section
/-!
DEFINITION. Sys2Proof/Machine/State.lean: every piece of state the spec gives the machine, as plain data, the reasons a
step can stop, and the state after reset. A comment names the rule that gives each field; MODEL marks the model's own
bookkeeping (notes/assumptions/3.md).
-/

namespace Sys2Proof.Machine

/-- Why the machine stops. -/
inductive Fault where
  /-- Raised by `step` while the fabric rail is down: nothing on the wafer runs (R11). Safe: nothing can be observed. -/
  | railDown
  deriving DecidableEq, Repr, Inhabited

/-- Why a step has no meaning. -/
inductive Refusal where
  /-- Raised by the arm of an instruction that is not modelled, by name. Safe. -/
  | notModelled (mnemonic : String)
  deriving DecidableEq, Repr, Inhabited

/-- A 32-bit register with its poison tag (R131, R139). -/
structure R32 where
  v : W32
  p : Bool
  deriving DecidableEq, Repr, Inhabited

/-- A predicate register with its poison tag (R131). -/
structure R1 where
  v : Bool
  p : Bool
  deriving DecidableEq, Repr, Inhabited

/-- A result queue entry: value, poison, transient (R37, R134), and the result it waits for (placeholder, R133). -/
structure QEnt where
  val : W64
  p : Bool
  tr : Bool
  pend : Option Nat
  deriving DecidableEq, Repr, Inhabited

/-- A poisoned queue entry (R39). -/
def QEnt.poison : QEnt := { val := 0x7FF0DEAD7FF0DEAD#64, p := true, tr := false, pend := none }

/-- What holds a thread at its clause boundary, beside the conditions of R22 step 2 (R304). -/
inductive Hold where
  /-- `fwait` (R318). -/
  | flags (mask : BitVec 12) (any : Bool)
  /-- A join (R312). -/
  | join (j : Nat)
  /-- `cwait` (R325). -/
  | cwait
  /-- A barrier wait: index of the object and the phase waited for (R351). -/
  | bar (idx : Nat) (phase : Nat)
  /-- `gbar`: the generation waited for (R352). -/
  | gbar (gen : Nat)
  deriving DecidableEq, Repr, Inhabited

/-- A trap waiting to be taken: cause, `%taddr`, `%trpc` and, for a precise one, the resume point (R321, R378, R380). -/
structure TrapRec where
  cause : BitVec 7
  addr : W64
  trpc : W64
  rpc : W64
  rslot : Nat
  /-- A precise trap: RGN is not applied again at the resume point and its breakpoint bit is ignored once (R321, R322). -/
  skip : Bool
  /-- The place of a boundary trap in the order of R380. -/
  rank : Nat
  /-- The order of its instruction (R380). -/
  ord : Nat
  /-- 4,096 × module + peer of a fabric trap (R293, R383). -/
  peer : Option Nat
  /-- It arose within the open region (R368). -/
  inRgn : Bool
  deriving DecidableEq, Repr, Inhabited

/-- One thread (R131, R144). -/
structure Thread where
  live : Bool
  pc : W64
  /-- Slot at which the thread resumes its clause; 0 at a header (R321, R322, R368). -/
  slot : Nat
  /-- The thread resumes inside its clause: RGN 01 and 11 are not applied (R322, R368). -/
  resumed : Bool
  /-- The breakpoint of the slot resumed at is ignored once (R321); so is a debug match (R386). -/
  bpSkip : Bool
  holds : List Hold
  v : Vector R32 64
  /-- Result queue, newest first; sixteen entries (R133). -/
  q : List QEnt
  k : Vector R1 8
  f : Vector Nat 12
  /-- The time latch of `%time.hi` (R33). -/
  latch : W64
  tcause : BitVec 7
  taddr : W64
  trpc : W64
  inHandler : Bool
  /-- Resume point, and the queue set aside, while in the handler (R321). -/
  rpc : W64
  rslot : Nat
  rskip : Bool
  aside : List QEnt
  /-- Precise trap to be entered at the clause's end (R378). -/
  trap : Option TrapRec
  /-- Boundary traps due (R380). -/
  due : List TrapRec
  /-- The contrail: requests in order (R74). The first eight are the entries that the thread holds; accesses of slots that had issued
  by then and come behind them wait for a place (log 37). -/
  contrail : List Nat
  /-- Peer and cause of the last fabric trap (R293). -/
  lastFab : Option (Nat × BitVec 7)
  /-- The thread's last clause set YLD (R339). -/
  yld : Bool
  /-- Slice cycle since which the thread is issuable where it stands (R339). -/
  since : Option Nat
  /-- The clause whose flags a mid-clause restart keeps: its number, SETA and SETB (R369). -/
  tok : Option (Nat × Nat × Nat)
  /-- MODEL: threads released together, which form one bundle (R305); 0 for none. -/
  grp : Nat
  deriving DecidableEq, Repr, Inhabited

/-- An allowance handle's binding: destination, class, value in bytes (R142, R281, R360). -/
structure Alw where
  cls : Nat
  dst : Nat
  val : Int
  /-- Time of the last refill, or of the binding (R283). -/
  since : Nat
  deriving DecidableEq, Repr, Inhabited

/-- A store waiting in a region store buffer (R237): lane, whether it goes to the stash (physical offset) or to a global
address, bytes, the hints of the store, and its clause and slot. -/
structure RStore where
  lane : Nat
  stash : Bool
  addr : W64
  data : List Byte
  hint : BitVec 6
  trpc : W64
  deriving DecidableEq, Repr, Inhabited

/-- What a thread goes back to at a region restart (R364, R368). -/
structure Start where
  pc : W64
  slot : Nat
  resumed : Bool
  holds : List Hold
  v : Vector R32 64
  k : Vector R1 8
  f : Vector Nat 12
  tok : Option (Nat × Nat × Nat)
  grp : Nat
  deriving DecidableEq, Repr, Inhabited

/-- A cohort's region (R363, R364, R371): the shadow is a whole copy taken at the opening. -/
structure Region where
  opened : Bool
  explicit : Bool
  /-- An explicit region reopens at the next clause boundary (R363). -/
  reopen : Bool
  starts : List Start
  s : Vector R32 96
  j : Vector W64 4
  tile : Nat
  stores : List RStore
  /-- Number of the first result issued within the region (R368). -/
  first : Nat
  suspect : Bool
  restarts : Nat
  /-- Lanes of the bundle whose header opened it, and, after a restart, those whose header has still to be executed again
  (R363, R368). -/
  openers : BitVec 32
  again : BitVec 32
  deriving DecidableEq, Repr, Inhabited

/-- A cohort without an open region. -/
def Region.closed : Region :=
  { opened := false, explicit := false, reopen := false, starts := [], s := Vector.replicate 96 { v := 0, p := false },
    j := Vector.replicate 4 0, tile := 32, stores := [], first := 0, suspect := false, restarts := 0, openers := 0,
    again := 0 }

/-- A clause in progress on an issue slice (R22, R304). -/
structure Run where
  cid : Nat
  co : Nat
  /-- Threads of the bundle that are still in the clause. -/
  lanes : BitVec 32
  /-- Header address H, header word and slots, as fetched (R27). -/
  hpc : W64
  hdr : W64
  words : List W64
  slot : Nat
  /-- Lanes that ignore the breakpoint and the debug match of the slot they enter the clause at (R321, R386). -/
  skips : BitVec 32
  /-- Threads of the bundle that enter the clause at a later slot, where they resume it (R193, R321). -/
  late : List (Nat × Nat)
  /-- Number under which the clause's long-latency results stand (R23). -/
  tok : Nat
  /-- Issue cycles used so far (R138, R168, R200). -/
  cost : Nat
  /-- `yield` was executed (R317). -/
  yld : Bool
  /-- `%tile` at the start of the clause, which its slots read (R191). -/
  tile : Nat
  deriving DecidableEq, Repr, Inhabited

/-- One cohort (R131, R132). -/
structure Cohort where
  threads : Vector Thread 32
  s : Vector R32 96
  j : Vector W64 4
  /-- Channel bindings: the crew's channel number (R140). -/
  ch : Vector (Option Nat) 8
  w : Vector (Option Alw) 4
  tile : Nat
  rgn : Region
  rgnCount : W32
  /-- The operand cache, most recent first (R137). -/
  opc : List Nat
  /-- Issue slice of the cluster, and slot in it (R335). -/
  slice : Nat
  place : Nat
  /-- A close waits (R366), the clause whose own results it does not wait for, and the clause it interrupted. -/
  closing : Bool
  closeOwn : Option Nat
  parked : Option Run
  /-- The clause parked may go on (R366). -/
  ready : Bool
  deriving DecidableEq, Repr, Inhabited

/-- An entry of a crew's bind table (R240): whole lines from `base`, and the object: `w0` 0 and a barrier-object index, or
1 and the address of a global sync word. -/
structure Bind where
  base : Nat
  len : Nat
  w0 : W64
  w1 : W64
  deriving DecidableEq, Repr, Inhabited

/-- What a request asks of its home slice (R87, R227, R239, R245, R251). -/
inductive ReqOp where
  /-- A load of `n` bytes; whether the line fills the issuing slice's L0. -/
  | read (n : Nat) (l0 : Bool)
  | write (data : List Byte)
  | atomic (opx : Nat) (pro : Bool) (ty : Ty) (x : W64)
  | cas (wide : Bool) (cmp new : W64)
  /-- A drained reduction group: the values of its parts folded (R251). -/
  | group (opx : Nat) (pro : Bool) (ty : Ty) (x : W64)
  /-- A prefetch by LVL (R239). -/
  | pref (lvl : Nat)
  deriving DecidableEq, Repr, Inhabited

/-- Where a request stands on its road (R71, R74, R87, R92, R98). -/
inductive Stage where
  | inject
  | mesh
  | atSlice
  | filling
  | walking
  | contrail
  /-- A contrail entry whose page is mapped, or a stalled drain, to be sent again (R76, R251). -/
  | replay
  /-- Behind a release that goes before it, or before an earlier request of its instruction or thread (R235, R260). -/
  | held
  | replied
  deriving DecidableEq, Repr, Inhabited

/-- A thread's or a drain's request to a home slice, or to the host port (R421). -/
structure Req where
  /-- Issuing cluster and issue slice of the cluster (R94). -/
  p : Nat
  sl : Nat
  cid : Nat
  co : Nat
  lane : Nat
  /-- Result that the request serves (R23). -/
  pend : Option Nat
  asid : BitVec 16
  va : W64
  op : ReqOp
  hint : Nat
  home : Nat
  stage : Stage
  /-- Clause and slot of the instruction, and its order, for a late fault (R77). -/
  trpc : W64
  ord : Nat
  /-- Bytes read and their words' poison (R53). -/
  data : List Byte
  pz : Bool
  /-- Transaction number, once injected (R98). -/
  txn : Option Nat
  /-- Flits of the packet now travelling that have ejected (R98). -/
  got : List Nat
  /-- The reply is on its way (R98). -/
  reply : Bool
  /-- Times the request was lost (R374). -/
  lost : Nat
  /-- It goes to the host window (R421). -/
  host : Bool
  /-- It arose within the open region (R368). -/
  inRgn : Bool
  /-- MODEL: its place in the order in which its source injects (R92). -/
  inj : Nat
  /-- The fault found at the home slice, on its way back (R77). -/
  err : Option (BitVec 7)
  /-- Its access is to a mapped stash line whose page is absent: the physical stash byte (R106). -/
  line : Option Nat
  deriving DecidableEq, Repr, Inhabited

/-- A lane's part of a long-latency result (R23). -/
structure LaneRes where
  val : List W64
  p : Bool
  deriving DecidableEq, Repr, Inhabited

/-- What follows the release part of an operation (R260): nothing, its requests, the arrival at a grid barrier, or the
invalidation of clause caches in a range of bytes (R439). -/
inductive FenceNext where
  | done
  | send (r : List Nat)
  | arrive
  | icache (lo hi : Nat)
  deriving DecidableEq, Repr, Inhabited

/-- A release or an acquire in progress (R243, R260): whether it holds the thread's later clauses (R244), its parts still
to do, scope, byte ranges (all when none), how many steps of the present part are made, and the requests whose performance
it waits for. -/
structure FenceSt where
  hold : Bool
  rel : Bool
  acq : Bool
  scope : Nat
  ranges : Option (List (Nat × Nat))
  step : Nat
  waits : List Nat
  next : FenceNext
  deriving DecidableEq, Repr, Inhabited

/-- A long-latency instruction that is not yet delivered and performed (R23, R133). -/
structure Pend where
  cid : Nat
  co : Nat
  tok : Nat
  /-- Executing lanes (R29). -/
  lanes : BitVec 32
  dst : Sel
  /-- 1 for a 32-bit, 2 for a 64-bit, 4 for a 128-bit result; 0 without a result. -/
  width : Nat
  pushed : Bool
  /-- An s destination (R38). -/
  uni : Bool
  /-- Values by lane, once known. -/
  vals : SMap LaneRes
  /-- Lanes whose result is still to come. -/
  waitRes : BitVec 32
  /-- Lanes whose effect is still to be performed. -/
  waitPerf : BitVec 32
  delivered : Bool
  /-- Discarded on arrival: issued within a region that restarted (R368). -/
  dead : Bool
  /-- Order of issue, clause and slot (R77). -/
  trpc : W64
  /-- A predicate register that receives success (R323, R358). -/
  kdst : Option Nat
  kvals : BitVec 32
  /-- The instruction is checked under R372 when delivered (special functions). -/
  checked : Bool
  /-- SETB follows the delivery of the result (R202, R238, R246). -/
  joint : Bool
  /-- A load of fewer bytes than its type sign-extends (R230). -/
  sx : Bool
  /-- One access for the bundle: the first lane's value serves every lane (R233). -/
  bundle : Bool
  /-- Registers of its destination, numbered as `regNos` numbers them, that a later slot of the clause has written, with
  the lanes (R135). -/
  stale : List (Nat × BitVec 32)
  /-- Bytes that a load takes from the region store buffer, by lane (R232). -/
  kept : SMap (List (Option Byte))
  /-- It holds the thread's later clauses of class mem, copy, mxp, fab and sync (R244, R260). -/
  fence : Option FenceSt
  deriving DecidableEq, Repr, Inhabited

/-- The flags of a clause whose long-latency results are outstanding (R21, R23). -/
structure Tok where
  cid : Nat
  co : Nat
  seta : Nat
  setb : Nat
  /-- Lanes in which SETA, and SETB, are still raised. -/
  la : BitVec 32
  lb : BitVec 32
  /-- The clause has issued all its slots. -/
  ended : Bool
  deriving DecidableEq, Repr, Inhabited

/-- A line of a slice: the tag of R85, 128 bytes with a poison bit per 64-bit word, and the requests that joined its fill
(R87). -/
structure Line where
  st : Nat
  pin : Bool
  w : Bool
  x : Bool
  asid : BitVec 16
  vpn : BitVec 45
  frame : Nat
  lru : Nat
  data : List Byte
  pz : BitVec 16
  waiters : List Nat
  deriving DecidableEq, Repr, Inhabited

/-- An occupancy entry (R89). -/
structure Occ where
  en : Bool
  target : Nat
  count : Nat
  pinq : Nat
  pinc : Nat
  deriving DecidableEq, Repr, Inhabited

/-- A translation held by a TLB (R70): SIZE as in R425. -/
structure Tlb where
  asid : BitVec 16
  page : Nat
  size : Nat
  frame : Nat
  w : Bool
  x : Bool
  al : Bool
  mi : Bool
  deriving DecidableEq, Repr, Inhabited

/-- A walk-cache entry: a non-leaf entry of a level (R70). -/
structure WalkC where
  asid : BitVec 16
  level : Nat
  idx : Nat
  entry : W64
  deriving DecidableEq, Repr, Inhabited

/-- A walk, running or queued, with the Filling ways whose misses joined it (R71, R87). -/
structure Walk where
  asid : BitVec 16
  va : W64
  waiters : List Nat
  deriving DecidableEq, Repr, Inhabited

/-- A cache slice with its walker and TLB (R70, R71, R85 to R93). -/
structure SliceSt where
  lines : SMap Line
  occ : SMap Occ
  tlb : List Tlb
  wcache : List WalkC
  walks : SMap Walk
  /-- Requests reassembled and not yet performed, in order of reassembly (R92). -/
  reqq : List Nat
  /-- Grants of the request port to others since each waiting partition's last one (R408). -/
  grants : SMap Nat
  tagdrop : Nat
  corrected : Nat
  deriving DecidableEq, Repr, Inhabited

/-- A slice that has just passed its self-test (R16, R85). -/
def SliceSt.reset : SliceSt :=
  { lines := [], occ := [], tlb := [], wcache := [], walks := [], reqq := [], grants := [], tagdrop := 0, corrected := 0 }

/-- A flit's header (R95) and the request whose packet it belongs to. -/
structure Flit where
  dest : BitVec 12
  src : BitVec 12
  tag : BitVec 10
  age : BitVec 16
  txn : BitVec 10
  idx : BitVec 3
  nfl : BitVec 3
  cls : BitVec 3
  req : Nat
  /-- The router cycle at which it arrives (R96). -/
  at' : Nat
  deriving DecidableEq, Repr, Inhabited

/-- A router's port into one plane (R94 to R97): cycles routed, arriving flits, the local queue of packets to inject with
the next flit of its head, flits ejected, cycles the head has waited. -/
structure Router where
  cyc : Nat
  inbox : List Flit
  queue : List Nat
  sent : Nat
  ejected : List Flit
  waited : Nat
  /-- A neighbour leaves a link towards this router idle (R97). -/
  asked : Bool
  errors : Nat
  /-- Tag and source of the flits deflected in the present window (R406). -/
  deflected : List (Nat × Nat)
  /-- Flits that the site's cluster may inject, in 1/1,024 (R407): at most a burst of 16. -/
  tokens : Nat
  /-- Grants of a slice's reply port to others since each waiting partition's last one (R408). -/
  grants : SMap Nat
  deriving DecidableEq, Repr, Inhabited

/-- A router at reset. -/
def Router.reset : Router :=
  { cyc := 0, inbox := [], queue := [], sent := 0, ejected := [], waited := 0, asked := false, errors := 0, deflected := [],
    tokens := 16384, grants := [] }

/-- An L0 line (R227, R257): 128 bytes with a poison bit per word. -/
structure L0Line where
  asid : BitVec 16
  va : W64
  w : Bool
  x : Bool
  data : List Byte
  pz : BitVec 16
  /-- The stores whose bytes it holds and that are not yet performed. -/
  inflight : List Nat
  /-- The cell its address maps (R64). -/
  cell : Nat
  deriving DecidableEq, Repr, Inhabited

/-- An entry of an atomic buffer (R248): key, and per lane a committed and a pending part. -/
structure RedEnt where
  asid : BitVec 16
  addr : W64
  opx : Nat
  pro : Bool
  ty : Ty
  cid : Nat
  co : Nat
  done : SMap W64
  pending : SMap W64
  deriving DecidableEq, Repr, Inhabited

/-- A range held by the chuck (R120): physical stash bytes of the cluster, or bytes of an ASID. -/
structure Rng where
  /-- None for the stash. -/
  asid : Option (BitVec 16)
  lo : Nat
  hi : Nat
  /-- Destination entry; otherwise source. -/
  dst : Bool
  /-- The engine that holds it and its job: 0 copy, 1 matrix, 2 hash; order of acceptance. -/
  eng : Nat
  job : Nat
  ord : Nat
  deriving DecidableEq, Repr, Inhabited

/-- The states of a job as `cp.stat` and `mx.stat` report them (R125, R222). -/
inductive JobSt where
  | gone | queued | running | done | failed | cancelled
  /-- Cancelled by a save, a move or `cwait` (R299, R376). -/
  | saved
  deriving DecidableEq, Repr, Inhabited

/-- The kind of a copy job (R112, R290). -/
inductive CpKind where
  | cp | cp2d | gth | sct | mc | sp | rt | fill | fcp
  deriving DecidableEq, Repr, Inhabited

/-- A copy job slot (R110 to R119, R125). -/
structure CpJob where
  serial : Nat
  kind : CpKind
  cid : Nat
  co : Nat
  lane : Nat
  /-- The words of the descriptor, read once (R110). -/
  desc : List W64
  st : JobSt
  cause : BitVec 7
  ord : Nat
  asid : BitVec 16
  /-- Receiving crews, with bytes landed in each; the posting crew first where it counts them (R113). -/
  recv : List (Option Nat × Nat)
  /-- Granules landed, by number. -/
  landed : List Nat
  /-- The route kept from acceptance (R129): stations after the first of the posting cluster. -/
  route : List W32
  /-- A granule's place on the route of a `cp.rt`: pass stations that have forwarded it (R127). -/
  hops : SMap Nat
  /-- Source bytes already read, by granule: those of `cp.mc`, read once (R118), and those from host memory (R421), each
  byte with its poison. -/
  read : SMap (List (Byte × Bool))
  /-- Fabric packets of an `fcp` sent and not yet answered: granule and request (R291). -/
  out : List Nat
  /-- Peer of an `fcp`. -/
  peer : Nat
  /-- Results, with their lanes, of cancels that wait for the job to end (R126, R291); a non-empty list also stops it. -/
  cancelPend : List (Nat × Nat)
  deriving DecidableEq, Repr, Inhabited

/-- A mapped stash line (R106): state 0 Empty, 1 Filling, 2 Valid, 3 Orphan. -/
structure MLine where
  st : Nat
  cid : Nat
  va : W64
  mask : BitVec 4
  w : Bool
  /-- Accesses that wait for the fill: results with their lanes. -/
  waiters : List Nat
  /-- An empty step is due when the fill, or the write-back, ends (R107, R109): behind so many of the accesses that wait. -/
  inv : Option Nat
  /-- Results, with their lanes, that wait for the write-back of the line (R108, R243); the line becomes unmapped after
  it (R109). -/
  wb : List (Nat × Nat)
  un : Bool
  /-- The cell from which it was filled (R64). -/
  cell : Nat
  deriving DecidableEq, Repr, Inhabited

/-- An access of a thread that waits for the fill of a mapped line (R106). -/
structure MWait where
  cid : Nat
  co : Nat
  lane : Nat
  pend : Nat
  off : Nat
  op : ReqOp
  ty : Ty
  sz : Nat
  sx : Bool
  /-- Its contrail entry, once the fill has met an absent page (R74, R106), and clause and slot, order, and region (R77). -/
  req : Option Nat
  trpc : W64
  ord : Nat
  inRgn : Bool
  deriving DecidableEq, Repr, Inhabited

/-- An absorb, or the record write of a `seal.fin`, accepted by the hash engine (R434): its result and lane, window offset
or address, length, whether it is in the stash, and its order of acceptance in the chuck. -/
structure SealAbs where
  pend : Nat
  lane : Nat
  addr : W64
  n : Nat
  stash : Bool
  ord : Nat
  deriving DecidableEq, Repr, Inhabited

/-- A seal context (R432 to R437). -/
structure SealCtx where
  serial : Nat
  cid : Nat
  co : Nat
  lane : Nat
  alg : Nat
  sha256 : Bool
  label : W64
  /-- Bytes absorbed, in order. -/
  data : List Byte
  /-- The ranges absorbed (R434), as in the chuck. -/
  ranges : List Rng
  /-- Absorbs accepted and not ended, in order. -/
  absorbs : List SealAbs
  /-- The `seal.fin` accepted. -/
  fin : Option SealAbs
  /-- An absorb failed: no further byte is absorbed (R80). -/
  failed : Bool
  deriving DecidableEq, Repr, Inhabited

/-- A write-combining line (R287): the partition, and the cohorts that wrote into it, each by crew and number; the times of
its first and the order of its last write. -/
structure Wcb where
  part : Nat
  peer : Nat
  va : W64
  data : List Byte
  mask : List Bool
  cohorts : List (Nat × Nat)
  first : Nat
  last : Nat
  deriving DecidableEq, Repr, Inhabited

/-- What a fabric request is for (R294). -/
inductive FabUse where
  /-- A thread's `ldf`, `atomf` or `casf`: its result. -/
  | thread (cid co lane : Nat) (pend : Nat)
  /-- A line drain, with the cohorts that wrote into it (R295). -/
  | drain (cohorts : List (Nat × Nat))
  /-- A packet of an `fcp`: cluster, slot, serial, granule (R290). -/
  | copy (p slot serial g : Nat)
  /-- The mirror copy of a write or of an atomic (R297). -/
  | mirror (of : Nat)
  deriving DecidableEq, Repr, Inhabited

/-- A fabric request (R294): its packet, the peer it names, when the egress sent it. -/
structure FabReq where
  part : Nat
  p : Nat
  peer : Nat
  use : FabUse
  pkt : FabPkt
  sent : Option Nat
  /-- Clause and slot of the instruction, its order, and whether it arose within the open region (R77, R294). -/
  trpc : W64
  ord : Nat
  inRgn : Bool
  /-- Performed at the copy it was sent to, and waiting for the mirror copy (R297). -/
  primary : Bool
  /-- The request went to the secondary (R298). -/
  fo : Bool
  /-- Its place among the packets of its stream (R280). -/
  out : Nat
  deriving DecidableEq, Repr, Inhabited

/-- A fraction of R283, R361 and R407, `num` / 2 ^ (10 + `exp`), and the time of its last mark or recovery. -/
structure Rate where
  num : Nat
  exp : Nat
  since : Nat
  deriving DecidableEq, Repr, Inhabited

/-- A fraction as it starts. -/
def Rate.full : Rate := { num := 1024, exp := 0, since := 0 }

/-- A fraction in whole 1/1,024, rounded down. -/
def Rate.f (r : Rate) : Nat := r.num / 2 ^ r.exp

/-- A crew control block in a crew queue or in flight (R338). -/
structure Ccb where
  grid : Nat
  crew : Nat
  qt : Nat
  /-- A crew placed again: its saved state (R13, R325). -/
  cid : Option Nat
  deriving DecidableEq, Repr, Inhabited

/-- What a crew freed on a cluster while a reservation stood (R332): cohort slots, window, mapped bytes. -/
structure Kept where
  p : Nat
  coh : Nat
  base : Nat
  stash : Nat
  m : Nat
  deriving DecidableEq, Repr, Inhabited

/-- A steal request outstanding (R336, R337): thief, slots, window and mapped space reserved; shipped crews. -/
structure Steal where
  victim : Nat
  slots : Nat
  window : Nat
  mapped : Nat
  /-- Where the window reserved begins. -/
  wbase : Nat
  answered : Bool
  shipped : List Ccb
  deriving DecidableEq, Repr, Inhabited

/-- A channel of a crew (R355, R356): words oldest first, each 32 lanes, and where each is kept: 0 the stash, otherwise the
number of an overflow block; the blocks taken, in order, with the words ever written into each. -/
structure Chan where
  words : List (Vector QEnt 32)
  homes : List Nat
  blocks : List (Nat × Nat)
  /-- What the cluster clock showed when a pusher began to wait (R4, R356). -/
  wait : Option Nat
  deriving DecidableEq, Repr, Inhabited

/-- An empty channel (R355). -/
def Chan.empty : Chan := { words := [], homes := [], blocks := [], wait := none }

/-- Where a crew stands (R325, R386, R404). A crew that has retired leaves the machine. -/
inductive CrewSt where
  | running
  /-- Suspended by `cwait` (R325). -/
  | suspended
  /-- Saved by a slice end, a quiesce, a move or a checkpoint (R404). -/
  | saved
  /-- Stopped by a debug match (R386). -/
  | debug
  deriving DecidableEq, Repr, Inhabited

/-- What a crew is being drained for: its retirement or its stop, or a save (R107, R315, R379, R404). -/
inductive Leave where
  | retire
  | save
  deriving DecidableEq, Repr, Inhabited

/-- What `cp.stat` and `mx.stat` say of a job cancelled at a save, when its cluster no longer holds it (R376): a card or a
copy job, its handle, steps and bytes. -/
structure Cut where
  mx : Bool
  handle : W64
  steps : Nat
  bytes : Nat
  deriving DecidableEq, Repr, Inhabited

/-- An accumulator bank (R203, R204, R461): elements that are not clean zero bits, and their poison. -/
structure Bank where
  acc : SMap W32
  pz : List Nat
  int32 : Bool
  nw : Nat
  /-- 0 FREE, 1 BUSY, 2 HELD. -/
  st : Nat
  /-- The crew that holds it when HELD, or whose use of it began while HELD or FREE when BUSY. -/
  holder : Option Nat
  deriving DecidableEq, Repr, Inhabited

/-- A bank after zeroing (R402). -/
def Bank.zero : Bank := { acc := [], pz := [], int32 := false, nw := 256, st := 0, holder := none }

/-- A crew (R300 to R303, R335): its placement, declaration and state. -/
structure Crew where
  grid : Nat
  idx : Nat
  part : Nat
  ctx : Nat
  space : Nat
  /-- Physical cluster; service clusters follow the physical ones. -/
  p : Nat
  /-- Logical cluster id (R12). -/
  lcl : Nat
  /-- Stash offset of the window in the cluster's stash (R102). -/
  base : Nat
  stash : Nat
  sync : Nat
  chan : Nat
  regs : Nat
  m : Nat
  ncoh : Nat
  /-- Thread dimensions (R136). -/
  nx : Nat
  ny : Nat
  nz : Nat
  /-- Crew index in the grid (R136). -/
  cx : Nat
  cy : Nat
  cz : Nat
  depth : Nat
  zp : Bool
  /-- Team: width, height; 0 for none (R301). -/
  tw : Nat
  th : Nat
  trph : W64
  /-- `%dline0` to `%dline3` (R144): [63] EN, [62:0] deadline. -/
  dline : Vector W64 4
  dlstat : BitVec 4
  bind : Vector (Option Bind) 64
  /-- What jobs and cards that ended early left in its window for a barrier object, to be published by a later one (R264): object,
  stash offset in the cluster, bytes. -/
  ended : List (Nat × Nat × Nat)
  chans : Vector Chan 8
  cohorts : List Cohort
  st : CrewSt
  /-- Child grids outstanding (R315). -/
  children : List Nat
  /-- Saved with the crew (R404): the bytes of its window with their poison, its mapped lines by line of the window, and
  its HELD banks by number. -/
  saved : List (Byte × Bool)
  lines : List (Nat × MLine)
  banks : List (Nat × Bank)
  /-- Jobs cancelled at a save (R376). -/
  cut : List Cut
  /-- It is being drained, and the state it goes back to after a save. -/
  leaving : Option Leave
  back : CrewSt
  /-- How far its draining has come (R315): 0 mapped lines are being written back, 1 reduction parts were sent, 2 the
  write-combining lines were. -/
  drained : Nat
  /-- What the cluster clock showed when the wait detector began to find it blocked (R4, R359). -/
  wdBlocked : Option Nat
  /-- The crew is stopping: threads stop at their next clause boundary (R379, R316). -/
  stopping : Option (BitVec 7)
  deriving DecidableEq, Repr, Inhabited

/-- A grid (R300, R316, R328, R331). -/
structure Grid where
  part : Nat
  ctx : Nat
  space : Nat
  kdesc : W64
  entry : W64
  trph : W64
  /-- Word 2 of the descriptor (R327). -/
  decl : W64
  param : W64
  gx : Nat
  gy : Nat
  gz : Nat
  nx : Nat
  ny : Nat
  nz : Nat
  m : Nat
  prio : Nat
  dl : List Nat
  depth : Nat
  /-- Launching crew, none for a host grid; anchor (R333). -/
  parent : Option Nat
  anchor : Nat
  /-- Stamp of the host record, and its queue (R426). -/
  stamp : W32
  /-- Next unit in order, and crews to be placed again at the head (R331). -/
  nextUnit : Nat
  again : List Nat
  /-- Entered its queue; head unit's waiting time began (R332). -/
  accepted : Nat
  headSince : Nat
  retiredCrews : Nat
  children : List Nat
  aborted : Option (BitVec 7)
  /-- Grid barrier: generation, arrivals as 4,096 × crew + thread, the time since which it waits with no crew starting,
  and the instant at which the generation before it completed, while its crews are being released (R352 to R354). -/
  gbGen : Nat
  gbArr : List Nat
  gbSince : Nat
  gbDone : Option Nat
  /-- The release of the launch that queued it, still in progress (R324). -/
  fence : Option Nat
  deriving DecidableEq, Repr, Inhabited

/-- The kind of a mandrel entry (R215, R218, R220, R221). -/
inductive MxKind where
  | card | team | drain | zero
  deriving DecidableEq, Repr, Inhabited

/-- A mandrel entry (R216) with the progress of its engine work (R209, R213). -/
structure MxEnt where
  kind : MxKind
  serial : Nat
  /-- The posting crew, cohort and lane; for a sub-job, of the team card. -/
  cid : Nat
  co : Nat
  lane : Nat
  /-- The sixteen words of the card, read once (R206); `mx.zero` keeps its operand in the first. -/
  card : List W64
  st : JobSt
  cause : BitVec 7
  /-- Order of acceptance; the sub-jobs of one team card share it. -/
  ord : Nat
  /-- Clusters and slots of the entries bound as predecessors (R216). -/
  preds : List (Nat × Nat)
  /-- Cluster whose engine runs it (R217). -/
  eng : Nat
  /-- Steps of the walk completed, and elements already touched (R209). -/
  steps : Nat
  touched : List Nat
  /-- Pieces of the output placed, or words pushed, by number (R213). -/
  out : List Nat
  /-- A block was re-executed, and how often the present one was (R222, R224). -/
  restarted : Bool
  replays : Nat
  /-- Sub-jobs: this member's index, and its crew (R218). -/
  member : Option (Nat × Nat)
  /-- Tag space of the poster: its grid, and its team or, without one, its crew (R216). -/
  space : Nat × Nat
  /-- Tiles that the mandrel has delivered into a member's staging area and that its step has not used (R218): 2 × step for A
  and 2 × step + 1 for B; the bytes of each row or column with their poison. -/
  staged : SMap (List (List (Byte × Bool)))
  /-- The check of R219 was passed, and Ns. -/
  srcOk : Option Nat
  /-- Results, with their lanes, of cancels that wait for the end (R223). -/
  cancelPend : List (Nat × Nat)
  deriving DecidableEq, Repr, Inhabited

/-- One issue slice (R227, R248, R339, R144). -/
structure IssueSt where
  ratio : BitVec 5
  l0 : List L0Line
  red : List RedEnt
  run : Option Run
  /-- Slice cycles counted, and the cycle at which each of the nine units last started a clause (R339). -/
  cyc : Nat
  last : Vector Nat 9
  deriving DecidableEq, Repr, Inhabited

/-- An issue slice whose cluster has been zeroed. -/
def IssueSt.zero : IssueSt :=
  { ratio := 16#5, l0 := [], red := [], run := none, cyc := 0, last := Vector.replicate 9 0 }

/-- One cluster, physical or of the service block (R9, R11). -/
structure Cluster where
  sl : Vector IssueSt 6
  /-- Clause cache: lines held with the bytes fetched (R27). -/
  cc : List (BitVec 16 × W64 × List Byte)
  chuck : List Rng
  cpSerial : Nat
  cp : SMap CpJob
  mxSerial : Nat
  mx : SMap MxEnt
  bank0 : Bank
  bank1 : Bank
  sealSerial : Nat
  seals : SMap SealCtx
  /-- Mapped lines by physical stash line (R106), and accesses that wait for a fill. -/
  mapped : SMap MLine
  mwait : SMap MWait
  wcb : List Wcb
  /-- Fractions f by peer module (R283), and g (R407). -/
  fmod : SMap Rate
  g : Rate
  queue : List Ccb
  pointer : Nat
  steal : Option Steal
  stealAfter : Nat
  squalls : Nat
  /-- A stretch is running, at half the nominal clock when `deep`, else at three quarters; suspect window open (R390, R391). -/
  stretched : Bool
  deep : Bool
  suspect : Bool
  /-- The cluster clock (R4), in quarters of a nanosecond of its nominal rate, as it stood at `clkAt`, when its rate last
  changed; and what it showed at the last trip, or at the end of the last stretch. -/
  clk : Nat
  clkAt : Nat
  clkMark : Nat
  mxduty : BitVec 5
  dset : BitVec 5
  silent : Nat
  silentAt : Nat
  haltcode : W64
  halted : Bool
  /-- Being zeroed for a change of owner (R402). -/
  zeroing : Bool
  tagdrop : Nat
  deriving DecidableEq, Repr, Inhabited

/-- A cluster that has just been zeroed (R402). -/
def Cluster.zero : Cluster :=
  { sl := Vector.replicate 6 IssueSt.zero, cc := [], chuck := [], cpSerial := 0, cp := [], mxSerial := 0, mx := [],
    bank0 := Bank.zero, bank1 := Bank.zero, sealSerial := 0, seals := [], mapped := [], mwait := [], wcb := [],
    fmod := [], g := Rate.full, queue := [], pointer := 0, steal := none, stealAfter := 0, squalls := 0,
    stretched := false, deep := false, suspect := false, clk := 0, clkAt := 0, clkMark := 0, mxduty := 16#5, dset := 16#5, silent := 0, silentAt := 0, haltcode := 0,
    halted := false, zeroing := false, tagdrop := 0 }

/-- A queue block (R422): STATE 0 ACTIVE, 1 OVERRUN, 2 STAMP_WAIT, 3 DISABLED. -/
structure Queue where
  base : W64
  wp : W32
  rp : W32
  vec : BitVec 12
  st : BitVec 2
  en : Bool
  log2n : BitVec 5
  lost : W32
  /-- Since when the record at RP carries a foreign stamp; in STAMP_WAIT, a WP write asks for a fetch (R424). -/
  stampSince : Option Nat
  deriving DecidableEq, Repr, Inhabited

/-- A queue block at reset (R422). -/
def Queue.reset : Queue :=
  { base := 0, wp := 0, rp := 0, vec := 0, st := 3, en := false, log2n := 0, lost := 0, stampSince := none }

/-- States of a TDISP interface (R420). -/
inductive TdispSt where
  | unlocked | locked | run | error
  deriving DecidableEq, Repr, Inhabited

/-- A bounce record (R78): the bytes it carries, each with the poison of its source word (R53). -/
structure Bounce where
  asid : BitVec 16
  va : W64
  data : List (Byte × Bool)
  seq : Nat
  deriving DecidableEq, Repr, Inhabited

/-- An access that waits for a MAP: page and first access kind of its record (R76, R383). -/
structure PageWait where
  asid : BitVec 16
  page : W64
  kind : Nat
  deriving DecidableEq, Repr, Inhabited

/-- A management command under way (R412, R416). -/
inductive Reshape where
  | grow (c : ShapeCmd)
  | shrink (c : ShapeCmd)
  | compact (moves : List (Nat × Nat))
  | quiesce
  | sliceEnd
  /-- A channel was fenced (R57). -/
  | refit
  deriving DecidableEq, Repr, Inhabited

/-- A partition (R398 to R414): QST 0 RUNNING, 1 QUIESCING, 2 QUIESCED, 3 RESUMING, 4 RESETTING. -/
structure Part where
  res : ResSet
  w : Nat
  h : Nat
  /-- Map entries by logical id (R401). -/
  map : SMap W32
  /-- Routes: their 64 entries (R127). -/
  routes : SMap (List W32)
  inc : BitVec 12
  qst : Nat
  vfPort : Nat
  pmode : W64
  fabtmo : W64
  gbstag : W64
  gbgrp : W64
  seq : W64
  wcbage : W64
  alwrate : W64
  alwcap : W64
  chquota : W64
  cmthr : W64
  dbgcmp : Vector W64 4
  /-- The tenant's salt (R428). -/
  salt : List Byte
  /-- Root table of each space that has one: its cell (R65). -/
  roots : SMap Nat
  /-- Peer table entries (R277). -/
  peers : SMap W64
  /-- Queue blocks: 0 to 63 launch queues, 64 mapping, 65 fault, 66 event, 67 seal log (R419). -/
  queues : SMap Queue
  rseq : Nat
  msixPend : BitVec 8
  msixMask : BitVec 8
  tdisp : TdispSt
  bounce : List Bounce
  bounceSeq : Nat
  bounceMax : Nat
  /-- A BOUNCE_FULL episode is open (R79). -/
  bounceFull : Bool
  waits : List PageWait
  /-- MIGRATEs under way (R83): their pages are migrating. -/
  migr : List MapCmd
  /-- MODEL: number of its AES-256-XTS key (R52); 0 is the service block's (log 6). -/
  key : Nat
  /-- Fractions f by host port (0 to 3) and far class (4 to 7) (R361). -/
  fport : SMap Rate
  reshape : Option Reshape
  /-- Running context and when its slice began (R404). -/
  ctxNow : Nat
  sliceAt : Nat
  /-- Since when every crew of the running context waits (R404). -/
  idleSince : Option Nat
  /-- When a RESET began (R410 step 3). -/
  resetAt : Nat
  /-- The crew queues of the contexts that are not running (R404): cluster and blocks. -/
  savedQueues : SMap (List (Nat × List Ccb))
  /-- Reservation of the dispatcher: grid, and what was freed since (R332). -/
  reserve : Option (Nat × List Kept)
  /-- A RESET, or a CREATE when true, waits until then for its incarnation (R400). -/
  holdUntil : Option (Nat × Bool)
  /-- Seal log abort records to be generated at the end of a RESET (R410). -/
  abortRecs : List (List W64)
  deriving DecidableEq, Repr, Inhabited

/-- A zone-protected crew's current checkpoint (R394), and the cluster whose reserve holds it, none once that is lost (R393,
R396). -/
structure Check where
  crew : Crew
  host : Option Nat
  deriving DecidableEq, Repr, Inhabited

/-- A host-window access outstanding at a host port (R421). -/
structure HostReq where
  req : Option Nat
  /-- Engine access: cluster, slot, granule. -/
  job : Option (Nat × Nat × Nat)
  part : Nat
  port : Nat
  addr : Nat
  wr : Bool
  n : Nat
  /-- Later zero-length read completed (R421). -/
  flushed : Bool
  deriving DecidableEq, Repr, Inhabited

/-- The whole machine. -/
structure State where
  /-- The fabric rail is up (R11). -/
  rail : Bool
  /-- `%time` (R144). -/
  time : Nat
  /-- MODEL: number of the step, to which free values are applied (log 2). -/
  tick : Nat
  /-- MODEL: who moves next (log 3). -/
  turns : List Turn
  /-- MODEL: the issue slice (6 × cluster + slice) whose bundle executes the instruction (log 3). -/
  cur : Option Nat
  /-- MODEL: next number for crews, grids, results and requests (log 3). -/
  nextId : Nat
  /-- Ready maps (R16), as the numbers whose bit is 1. -/
  svcRdy : List Nat
  rtrRdy : List Nat
  slRdy : List Nat
  chRdy : List Nat
  clRdy : List Nat
  hpRdy : List Nat
  fpRdy : List Nat
  ksRdy : List Nat
  /-- Resources that failed or were fenced since the cold start: their bit is not set again (R16). -/
  failed : List (Res × Nat)
  /-- Burls by site, and sites whose router is fenced (R14). -/
  fenced : List Nat
  fencedRtr : List Nat
  /-- Zones whose regulator is not good (R10), and zone currents `%zonecur` (R388). -/
  zoneBad : List Nat
  zonecur : SMap Nat
  pkgpwr : Nat
  overAt : SMap Nat
  /-- Bytes of DRAM (channel after channel, R51) and then of the stashes (R101); unlisted bytes read 0 (R16, R402). -/
  mem : List Host.Cell
  /-- Numbers of the 64-bit words of `mem` whose poison bit is set (R53). -/
  memPz : List Nat
  /-- DRAM lines whose clear mark is clear (R54). -/
  marks : List Nat
  /-- Frame ownership: cell number (channel-major) to ST (1 Owned, 2 Scrubbing) and TAG (R62). -/
  own : SMap (Nat × Nat)
  /-- The cells of bounce buffers and save areas, in runs by their first cell (R63, R78, R405): length, ST (1 Owned by tag 0,
  2 Scrubbing), and the partition they serve. -/
  areas : SMap (Nat × Nat × Nat)
  /-- MAPs, ACQUIREs that wait for scrubbing cells (R63). -/
  acqWait : List (Nat × MapCmd)
  slices : SMap SliceSt
  /-- Router state by plane × 4,096 + site (R94). -/
  routers : SMap Router
  clusters : SMap Cluster
  parts : SMap Part
  /-- Incarnation of each tag and when it last changed: value, and values held with the time each was left (R400). -/
  incs : SMap (BitVec 12 × List (BitVec 12 × Nat))
  /-- Live tags (R410), and the cells that a destroyed partition of a tag left (R411). -/
  liveTags : List Nat
  leftCells : SMap (List Nat)
  grids : SMap Grid
  crews : SMap Crew
  reqs : SMap Req
  pends : SMap Pend
  toks : SMap Tok
  fab : SMap FabReq
  /-- TXN of ended requests (4,096 × cluster + TXN), held until a time (R294). -/
  txnHold : List (Nat × Nat)
  /-- Next SEQ of each stream (R280), by 2,048 × site + module. -/
  streamSeq : SMap Nat
  /-- Failed replays of the present flit of a port, and the number of the key that its link agreed when it trained (R273; log 6). -/
  replays : SMap Nat
  linkKey : SMap Nat
  /-- Packets that a port dropped for want of a way, or of a reserved class (R275, R276), and its TAGDROP counter (R99, R278). -/
  portDrop : SMap Nat
  portTag : SMap Nat
  /-- Packets that wait at the egress: port, whether by a detour, packet (R276). -/
  egress : SMap (Nat × Bool × FabPkt)
  /-- What the present window of a marking point has seen: items waiting, each with the tag of its partition and the mark that its
  source would get, and tags that were over the limit (R406). -/
  seen : SMap (List (Nat × Mark) × List Nat)
  /-- End of each marking point's last window (R406). -/
  windows : SMap Nat
  /-- Fabric requests of peers admitted and waiting for a MAP (R279). -/
  inbound : SMap FabPkt
  hostReqs : SMap HostReq
  /-- Reserves of zone-protected crews' clusters, by cluster served, and checkpoints by crew (R393, R394). -/
  reserves : SMap Nat
  checks : SMap Check
  /-- Host writes the device made through its ports: what the environment has received (R421, R426), newest last. -/
  hostOut : List (Nat × Nat × List Byte)
  /-- Writes of the host that wait for their line at its home slice, oldest first: partition, space, address, bytes (R268). -/
  hostIn : List (Nat × Nat × W64 × List Byte)
  /-- MSI-X messages sent, newest last (R427). -/
  msixOut : List (Nat × Nat)
  /-- Fabric packets that left by a port, newest last (R276). -/
  fabOut : List (Nat × FabPkt)
  /-- Responses of the DOE mailbox, newest last (R429). -/
  doeOut : List (Nat × List Byte)
  /-- Values that host reads of BAR0 returned, newest last (R419). -/
  bar0Out : List (Nat × Nat × W64)
  /-- Service block's error log: cause, port or cluster, source, tag (R99, R384). -/
  svcLog : List (BitVec 7 × Nat × Nat × Nat)
  /-- Completion status of management commands: tag and status (R412). -/
  mgmtOut : List (Nat × Nat)
  mr : Vector (BitVec 384) 4
  lifecycle : BitVec 4
  chal : W64
  latchV : Bool
  latchW : Bool
  latchM : Bool
  latched : BitVec 384
  /-- Cold starts so far: CHAL is drawn anew at each (R441). -/
  colds : Nat
  debugPort : Bool
  deriving DecidableEq, Repr, Inhabited

/-- The machine right after reset: the fabric rail has just reported power good (R16). No resource has passed its
self-test, no partition exists; every frame and stash byte reads zero (log 5). -/
def State.reset : State :=
  { rail := true, time := 0, tick := 0, turns := [], cur := none, nextId := 1,
    svcRdy := [], rtrRdy := [], slRdy := [], chRdy := [], clRdy := [], hpRdy := [], fpRdy := [], ksRdy := [],
    failed := [], fenced := [], fencedRtr := [], zoneBad := [], zonecur := [], pkgpwr := 0, overAt := [],
    mem := [], memPz := [], marks := [], own := [], areas := [], acqWait := [], slices := [], routers := [], clusters := [],
    parts := [], incs := [], liveTags := [], leftCells := [], grids := [], crews := [], reqs := [], pends := [], toks := [], fab := [],
    txnHold := [], streamSeq := [], replays := [], linkKey := [], portDrop := [], portTag := [], egress := [], seen := [], windows := [],
    inbound := [], hostReqs := [], reserves := [], checks := [], hostOut := [], hostIn := [], msixOut := [], fabOut := [], doeOut := [],
    bar0Out := [], svcLog := [], mgmtOut := [], mr := Vector.replicate 4 0, lifecycle := Config.lifecycleFuse,
    chal := Config.random 0, latchV := false, latchW := false, latchM := false, latched := 0, colds := 0,
    debugPort := false }

end Sys2Proof.Machine
end

