-- ==== Sys2Proof/Machine/Geometry.lean ====
section
/-!
DEFINITION. Sys2Proof/Machine/Geometry.lean: sites, quads, clusters, slices, zones (R8, R9, R10), logical clusters (R12,
R401), fabric ports (R271, R272), and the arithmetic of homes and sets (R57, R86).
-/

namespace Sys2Proof.Machine

/-- Site number of (x, y) (R8). -/
def siteOf (x y : Nat) : Nat := 64 * y + x

/-- Coordinates of a site (R8). -/
def siteX (n : Nat) : Nat := n % 64
/-- Coordinates of a site (R8). -/
def siteY (n : Nat) : Nat := n / 64

/-- Quad number of a site (R8). -/
def quadOf (site : Nat) : Nat := siteX site / 2 + 32 * (siteY site / 2)

/-- Whether a site holds a cache slice (R9). -/
def isSliceSite (site : Nat) : Bool := siteX site % 2 == 0 && siteY site % 2 == 0

/-- Position in the quad of a cluster site (R8). -/
def quadPos (site : Nat) : Nat :=
  if siteY site % 2 = 0 then 0 else if siteX site % 2 = 0 then 1 else 2

/-- Physical cluster number of a cluster site (R8). -/
def clusterAt (site : Nat) : Nat := 3 * quadOf site + quadPos site

/-- Site of slice and channel `q` (R9). -/
def sliceSite (q : Nat) : Nat := siteOf (2 * (q % 32)) (2 * (q / 32))

/-- Site of physical cluster `p` (R8, R9). A service cluster has no site (R11); the model lets its traffic enter the mesh
at the slice site of its own number (log 3). -/
def clusterSite (p : Nat) : Nat :=
  if p < Config.clusters then
    let q := p / 3
    let x := 2 * (q % 32)
    let y := 2 * (q / 32)
    match p % 3 with
    | 0 => siteOf (x + 1) y
    | 1 => siteOf x (y + 1)
    | _ => siteOf (x + 1) (y + 1)
  else sliceSite (p - Config.clusters)

/-- Zone of a site (R8). -/
def zoneOf (site : Nat) : Nat := siteX site / 8 + 8 * (siteY site / 8)

/-- Zone of a cluster (R8); service clusters are on the fabric rail and in no zone (R11). -/
def clusterZone (p : Nat) : Option Nat := if p < Config.clusters then some (zoneOf (clusterSite p)) else none

/-- The buddy zone (R8). -/
def buddy (z : Nat) : Nat := z ^^^ 1

/-- Router hops between two sites. -/
def hops (a b : Nat) : Nat :=
  (max (siteX a) (siteX b) - min (siteX a) (siteX b)) + (max (siteY a) (siteY b) - min (siteY a) (siteY b))

/-- The clusters of a zone, ascending. -/
def zoneClusters (z : Nat) : List Nat := (List.range Config.clusters).filter fun p => zoneOf (clusterSite p) = z

/-- `n` different members of a list, the next of which `f` chooses each time. -/
def pickSome (f : Nat → Nat) : Nat → List Nat → List Nat
  | 0, _ => []
  | n + 1, l => match l[f n % l.length]? with | some x => x :: pickSome f n (l.erase x) | none => []

/-- The three spares of a zone, as the fuses have them (R10, R15). -/
def zoneSpares (z : Nat) : List Nat := pickSome (Config.spareFuses z) 3 (zoneClusters z)

/-- CLSPARE (R16): a cluster is a spare. -/
def isSpare (p : Nat) : Bool := match clusterZone p with | some z => (zoneSpares z).contains p | none => false

/-- Site of a fabric port (R272). -/
def fabricSite (p : Nat) : Nat :=
  let a := 2 * (p % 24 + 4)
  match p / 24 with
  | 0 => siteOf a 0
  | 1 => siteOf 62 a
  | 2 => siteOf a 62
  | _ => siteOf 0 a

/-- The module at the far end of port `p` of module `m` (R271). -/
def partner (m p : Nat) : Option Nat :=
  let row := m / 64
  let col := m % 64
  if p < 31 then some (64 * (if p < row then p else p + 1) + col)
  else if p < 94 then some (64 * row + (if p - 31 < col then p - 31 else p - 30))
  else if p < 96 then some (Config.sparePartner p).toNat
  else none

/-- The port of module `m` whose partner is module `d` in the same column (row port) or row (column port) (R271). -/
def portTo (m d : Nat) : Option Nat := firstBelow 94 fun p => decide (partner m p = some d)

/-- The product of R57 and R86. -/
def homeProduct (va : W64) (asid : BitVec 16) : Nat :=
  ((asid.toNat * 2 ^ 45 + va.toNat / 4096 % 2 ^ 45) * 0x9E3779B97F4A7C15) % 2 ^ 64

/-- The home slice of a granule among the owned channels, ascending (R57). -/
def homeOf (channels : List Nat) (va : W64) (asid : BitVec 16) : Option Nat :=
  if channels = [] then none
  else channels[homeProduct va asid / 2 ^ 32 % channels.length]?

/-- The set of a line (R86). -/
def setIndex (va : W64) (asid : BitVec 16) : Nat :=
  homeProduct va asid / 2 ^ 57 * 32 + va.toNat / 128 % 32

/-- The ASID of a partition's space (R55). -/
def asidOf (tag space : Nat) : BitVec 16 := BitVec.ofNat 16 (64 * tag + space)

/-- The partition tag of an ASID (R55). -/
def asidTag (a : BitVec 16) : Nat := a.toNat / 64

/-- The space of an ASID (R55). -/
def asidSpace (a : BitVec 16) : Nat := a.toNat % 64

/-- A 57-bit address made canonical (R55, R56). -/
def canon (n : Nat) : W64 := BitVec.ofInt 64 (sext 57 n)

/-- Bits [63:57] equal bit 56 (R56 check 2). -/
def isCanon (a : W64) : Bool := canon a.toNat = a

/-- The line that holds an address. -/
def lineVa (a : W64) : W64 := BitVec.ofNat 64 (a.toNat / 128 * 128)

/-- The 4 KiB granule that holds an address. -/
def granVa (a : W64) : W64 := BitVec.ofNat 64 (a.toNat / 4096 * 4096)

end Sys2Proof.Machine
end

