-- ==== Sys2Proof/Machine/Mem.lean ====
section
/-!
DEFINITION. Sys2Proof/Machine/Mem.lean: memory as a canonical list of (address, byte) pairs. Addresses strictly rise, no
listed byte is zero, an unlisted address reads zero (R16, R402; notes/assumptions/12.md). DRAM of channel q stands at
q × 6 GiB, the stash of cluster p after all DRAM (R51, R101).
-/

namespace Sys2Proof.Machine

/-- Memory as a canonical list of cells. -/
abbrev Memory := List Host.Cell

/-- What an unlisted address reads as (R16, R402). -/
def memDefault : Byte := 0

/-- The byte at an address. -/
def memGet (m : Memory) (a : Nat) : Byte :=
  match m with
  | [] => memDefault
  | (b, x) :: r => if b = a then x else memGet r a

/-- Puts a byte that is not the default into its place. -/
def memPut (m : Memory) (a : Nat) (x : Byte) : Memory :=
  match m with
  | [] => [(a, x)]
  | (b, y) :: r => if a < b then (a, x) :: (b, y) :: r else if a = b then (a, x) :: r else (b, y) :: memPut r a x

/-- Takes an address off the list. -/
def memDrop (m : Memory) (a : Nat) : Memory :=
  match m with
  | [] => []
  | (b, y) :: r => if b = a then r else (b, y) :: memDrop r a

/-- Writes a byte; the default value leaves no entry. -/
def memSet (m : Memory) (a : Nat) (x : Byte) : Memory := if x = memDefault then memDrop m a else memPut m a x

/-- The canonical form: addresses strictly rising, no entry equal to what an unlisted address reads as. -/
def Memory.wf : Memory → Bool
  | [] => true
  | [c] => decide (c.2 ≠ memDefault)
  | c :: d :: r => decide (c.1 < d.1) && decide (c.2 ≠ memDefault) && Memory.wf (d :: r)

/-- `n` bytes from an address upwards. -/
def memRead (m : Memory) (a : Nat) : Nat → List Byte
  | 0 => []
  | n + 1 => memGet m a :: memRead m (a + 1) n

/-- Bytes written from an address upwards. -/
def memWrite (m : Memory) (a : Nat) : List Byte → Memory
  | [] => m
  | x :: r => memWrite (memSet m a x) (a + 1) r

/-- Zeroes every byte from `lo` to `hi` - 1. -/
def memClear (m : Memory) (lo hi : Nat) : Memory := m.filter fun c => decide (c.1 < lo) || decide (hi ≤ c.1)

/-- Where the byte `o` of channel `q` stands (R51). -/
def dramAddr (q o : Nat) : Nat := q * Config.channelBytes + o

/-- Where the byte `o` of cluster `p`'s stash stands (R101). -/
def stashAddr (p o : Nat) : Nat := Config.slices * Config.channelBytes + p * Config.stashBytes + o

/-- Bytes of memory read, with whether any touched 64-bit word is poisoned (R53). -/
def State.readPz (s : State) (a n : Nat) : Bool := s.memPz.any fun w => overlaps a (a + n) (8 * w) (8 * w + 8)

/-- Poison bits after `n` bytes at `a` are written: whole words take `p`; a word written in part is poisoned when `p` and
otherwise keeps its bit (R53). -/
def pzWrite (pz : List Nat) (a n : Nat) (p : Bool) : List Nat :=
  let ws := (List.range ((a + n + 7) / 8 - a / 8)).map (· + a / 8)
  forL ws pz fun w pz =>
    if p then nsAdd w pz
    else if decide (a ≤ 8 * w) && decide (8 * w + 8 ≤ a + n) then nsDel w pz else pz

/-- Writes bytes with a poison tag (R53). -/
def State.writeBytes (s : State) (a : Nat) (d : List Byte) (p : Bool) : State :=
  { s with mem := memWrite s.mem a d, memPz := pzWrite s.memPz a d.length p }

/-- A 64-bit word of memory. -/
def State.word64 (s : State) (a : Nat) : W64 := wordOfBytes (memRead s.mem a 8)

/-- Writes a 64-bit word. -/
def State.setWord64 (s : State) (a : Nat) (w : W64) : State := s.writeBytes a (bytesOfNat 8 w.toNat) false

end Sys2Proof.Machine
end

