-- ==== Sys2Proof/Machine/Operands.lean ====
section
/-!
DEFINITION. Sys2Proof/Machine/Operands.lean: reading source operands (R33 to R36, R39, R136) and placing results in a
thread (R29, R36, R37, R133, R134).
-/

namespace Sys2Proof.Machine

/-- A value read from, or to be written to, a register: up to 64 bits and a poison tag (R33, R39, R139). -/
structure Val where
  v : W64
  p : Bool
  deriving DecidableEq, Repr, Inhabited

/-- The pattern of a poisoned value: 0x7FF0_DEAD in each half (R39). -/
def poisonBits : W64 := 0x7FF0DEAD7FF0DEAD

/-- The poisoned value. -/
def Val.poison : Val := { v := poisonBits, p := true }

/-- A clean value. -/
def Val.ok (v : W64) : Val := { v := v, p := false }

/-- A value read under a tag: a poisoned one has the pattern of R39. -/
def Val.tag (v : W64) (p : Bool) : Val := if p then Val.poison else Val.ok v

/-- The low 32 bits. -/
def Val.lo (x : Val) : W32 := x.v.extractLsb' 0 32

/-- A 64-bit word from its halves, low half first (R33). -/
def joinHalves (lo hi : W32) : W64 := hi ++ lo

/-- The integer of an inline selector: 0 to 15, then -1 to -8 (R32). -/
def inlineInt (i : Fin 24) : Int := if i.val < 16 then (i.val : Int) else 15 - (i.val : Int)

/-- The value of an inline floating selector: 0.5, 1, 2, 4, then their negatives (R32). -/
def inlineFlt (i : Fin 8) : FV := .fin (decide (4 ≤ i.val)) 1 ((i.val % 4 : Nat) - 1 : Int)

/-- An element of `w` bits repeated over 32 bits (R33). -/
def replicateElem (w x : Nat) : Nat := (List.range (32 / w)).foldl (fun y i => y + x % 2 ^ w * 2 ^ (w * i)) 0

/-- An exact floating value written into an operand of a format (R33). -/
def fvOperand (f : Fmt) (x : FV) : Nat :=
  match f with
  | .f32 => roundFloat x ffF32 0 false
  | .f16 => roundFloat x ffF16 0 false
  | .bf16 => roundFloat x ffBf16 0 false
  | .f16x2 => replicateElem 16 (roundFloat x ffF16 0 false)
  | .bf16x2 => replicateElem 16 (roundFloat x ffBf16 0 false)
  | .e4m3x4 => replicateElem 8 (roundFloat x ffE4m3 0 false)
  | .e5m2x4 => replicateElem 8 (roundFloat x ffE5m2 0 false)
  | _ => 0

/-- Whether a whole number is exact in E5M2, whose fraction has two bits (R147). -/
def exactE5m2 (n : Int) : Bool := decide (n.natAbs ≤ 8) || decide (n.natAbs % 2 = 0)

/-- An inline integer read in a format: sign-extended, replicated into packed elements, or converted exactly (R33). An
integer that E5M2 does not hold exactly has no stated pattern: a free value (log 2). -/
def inlineOperand (f : Fmt) (n : Int) : W64 :=
  match f with
  | .i32 => BitVec.ofNat 64 (BitVec.ofInt 32 n).toNat
  | .i64 => BitVec.ofInt 64 n
  | .p16 => BitVec.ofNat 64 (replicateElem 16 (BitVec.ofInt 16 n).toNat)
  | .p8 => BitVec.ofNat 64 (replicateElem 8 (BitVec.ofInt 8 n).toNat)
  | .e5m2x4 =>
    if exactE5m2 n then BitVec.ofNat 64 (fvOperand f (fvOfInt n))
    else (Config.unstated 33 (BitVec.ofInt 64 n) 0) &&& 0xFFFFFFFF#64
  | _ => BitVec.ofNat 64 (fvOperand f (fvOfInt n))

/-- What the uniform and per-thread specials are read from (R136). -/
structure SpecEnv where
  lane : Nat
  cohort : Nat
  nx : Nat
  ny : Nat
  nz : Nat
  cx : Nat
  cy : Nat
  cz : Nat
  cluster : Nat
  tile : Nat
  depth : Nat
  time : Nat
  latch : W64
  deriving DecidableEq, Repr, Inhabited

/-- A quick special (R136), 0 being selector 0xE0. -/
def specialVal (e : SpecEnv) (i : Nat) : Nat :=
  let n := 32 * e.cohort + e.lane
  match i with
  | 0 => e.lane
  | 1 => n % e.nx
  | 2 => n / e.nx % e.ny
  | 3 => n / (e.nx * e.ny)
  | 4 => e.cohort
  | 5 => e.cx
  | 6 => e.cy
  | 7 => e.cz
  | 8 => e.cluster
  | 9 => e.nx * e.ny * e.nz
  | 10 => e.tile
  | 11 => e.depth
  | 12 => e.time % 2 ^ 32
  | _ => e.latch.toNat / 2 ^ 32

/-- Two adjacent v registers, low half first; a lone one reads as 32 bits (R33). -/
def readV (v : Vector R32 64) (n : Nat) (wide : Bool) : Val :=
  let a := v[n]?.getD default
  if wide then
    let b := v[n + 1]?.getD default
    Val.tag (joinHalves a.v b.v) (a.p || b.p)
  else Val.tag (a.v.setWidth 64) a.p

/-- Two adjacent s registers (R33). -/
def readS (v : Vector R32 96) (n : Nat) (wide : Bool) : Val :=
  let a := v[n]?.getD default
  if wide then
    let b := v[n + 1]?.getD default
    Val.tag (joinHalves a.v b.v) (a.p || b.p)
  else Val.tag (a.v.setWidth 64) a.p

/-- A queue entry by age; a placeholder or a missing entry reads as poison (R33, R133). -/
def readQ (q : List QEnt) (i : Nat) (wide : Bool) : Val :=
  let e := q.getD i QEnt.poison
  Val.tag (if wide then e.val else e.val &&& 0xFFFFFFFF#64) (e.p || e.pend.isSome)

/-- A source operand as one thread reads it (R33, R34, R39): registers of the thread and its cohort, `w` the word popped
from the channel that the operand names. -/
def readSel (th : Thread) (sr : Vector R32 96) (e : SpecEnv) (w : Option (Vector QEnt 32)) (f : Fmt) (lit : W64) :
    Sel → Val
  | .t i => readQ th.q i.val f.wide
  | .v i => readV th.v i.val f.wide
  | .s i => readS sr i.val f.wide
  | .ch _ =>
    match w with
    | some x =>
      match x[e.lane]? with
      | some y => Val.tag (y.val &&& 0xFFFFFFFF#64) y.p
      | none => Val.poison
    | none => Val.poison
  | .k i =>
    let r := th.k[i.val]?.getD default
    if i.val = 0 then Val.ok 1 else Val.tag (if r.v then 1 else 0) r.p
  | .int i => Val.ok (inlineOperand f (inlineInt i))
  | .flt i => Val.ok (BitVec.ofNat 64 (fvOperand f (inlineFlt i)))
  | .special i => Val.ok (BitVec.ofNat 64 (specialVal e i.val))
  | .reserved _ => Val.poison
  | .lit => Val.ok (if f.wide then lit else lit &&& 0xFFFFFFFF#64)
  | .none => Val.ok 0

/-- The format of a source field. -/
def SrcSpec.fmt : SrcSpec → Fmt
  | .src f | .opt f | .uni f => f
  | _ => .i32

/-- The latch after a source is read: `%time.lo` copies `%time` into it (R33). -/
def latchAfter (x : Sel) (time : Nat) (latch : W64) : W64 :=
  match x with
  | .special i => if i.val = 12 then BitVec.ofNat 64 time else latch
  | _ => latch

/-- A v register made poison by its last use (R35). -/
def poisonV (v : Vector R32 64) (n : Nat) : Vector R32 64 := v.setIfInBounds n { v := 0x7FF0DEAD#32, p := true }

/-- Registers made poison by an operand field's L bit (R35): `n` of them. -/
def lastUse (x : Src) (n : Nat) (v : Vector R32 64) : Vector R32 64 :=
  match x.sel with
  | .v i => if x.l then forN n v fun j v => poisonV v (i.val + j) else v
  | _ => v

/-- Registers that a source field spans. -/
def SrcSpec.span : SrcSpec → Nat
  | .quad => 4
  | sp => if (SrcSpec.fmt sp).wide then 2 else 1

/-- Pushes an entry onto a result queue (R36); a transient that reaches age 3 turns to poison (R134). -/
def pushQ (q : List QEnt) (e : QEnt) : List QEnt :=
  let q' := (e :: q).take 16
  lmod q' 3 fun x => if x.tr then QEnt.poison else x

/-- A clean or poisoned queue entry. -/
def qEnt (x : Val) (tr : Bool) : QEnt := { val := x.v, p := x.p, tr := tr, pend := none }

/-- Writes one v register. -/
def setV (v : Vector R32 64) (n : Nat) (x : W32) (p : Bool) : Vector R32 64 := v.setIfInBounds n { v := x, p := p }

/-- Writes a 32- or 64-bit value to v registers (R36, R139). -/
def writeV (v : Vector R32 64) (n : Nat) (wide : Bool) (x : Val) : Vector R32 64 :=
  let v := setV v n (x.v.extractLsb' 0 32) x.p
  if wide then setV v (n + 1) (x.v.extractLsb' 32 32) x.p else v

/-- Writes a 32- or 64-bit value to s registers (R38, R139). -/
def writeS (v : Vector R32 96) (n : Nat) (wide : Bool) (x : Val) : Vector R32 96 :=
  let v := v.setIfInBounds n { v := x.v.extractLsb' 0 32, p := x.p }
  if wide then v.setIfInBounds (n + 1) { v := x.v.extractLsb' 32 32, p := x.p } else v

/-- The result of an executing thread placed under R36: v register and queue, queue alone, or k register. -/
def placeResult (f : Fields) (wide : Bool) (x : Val) (th : Thread) : Thread :=
  match f.dst with
  | .v i => { th with v := writeV th.v i.val wide x, q := pushQ th.q (qEnt x false) }
  | .k i => { th with k := th.k.setIfInBounds i.val { v := x.v.getLsbD 0, p := x.p } }
  | .none => { th with q := pushQ th.q (qEnt x f.dstT) }
  | _ => th

/-- What a passive thread pushes (R29): the v register's unchanged value, or poison; nothing for k and channels. -/
def placePassive (f : Fields) (wide : Bool) (th : Thread) : Thread :=
  match f.dst with
  | .v i => { th with q := pushQ th.q (qEnt (readV th.v i.val wide) false) }
  | .none => { th with q := pushQ th.q QEnt.poison }
  | _ => th

end Sys2Proof.Machine
end

