-- ==== Sys2Proof/Machine/Flags.lean ====
section
/-!
DEFINITION. Sys2Proof/Machine/Flags.lean: the conditions that instructions compute (carry and borrow R171, comparisons
R172 and R181, classes R181) and the completion flags of a thread (R21, R23).
-/

namespace Sys2Proof.Machine

/-- The carry, borrow or signed overflow of an exact sum or difference (R171): whether `x` lies outside the range of `w`
bits, unsigned or signed. -/
def carryFlag (signed : Bool) (w : Nat) (x : Int) : Bool :=
  if signed then decide (x < -(2 ^ (w - 1) : Int)) || decide ((2 ^ (w - 1) : Int) ≤ x)
  else decide (x < 0) || decide ((2 ^ w : Int) ≤ x)

/-- The condition of an integer comparison: eq, ne, lt, le, gt, ge (R172). -/
def cmpCond (c : Nat) (a b : Int) : Bool :=
  match c with
  | 0 => decide (a = b)
  | 1 => decide (a ≠ b)
  | 2 => decide (a < b)
  | 3 => decide (a ≤ b)
  | 4 => decide (b < a)
  | _ => decide (b ≤ a)

/-- The condition of a floating comparison: eq, ne, lt, le, gt, ge, ord, unord (R181). -/
def fcmpCond (c : Nat) (o : Option Ordering) : Bool :=
  match c with
  | 0 => decide (o = some .eq)
  | 1 => decide (o ≠ some .eq)
  | 2 => decide (o = some .lt)
  | 3 => decide (o = some .lt) || decide (o = some .eq)
  | 4 => decide (o = some .gt)
  | 5 => decide (o = some .gt) || decide (o = some .eq)
  | 6 => decide (o ≠ none)
  | _ => decide (o = none)

/-- The count of flag `i` of a thread (R21). -/
def flagCount (th : Thread) (i : Nat) : Nat := th.f[i]?.getD 0

/-- Flag `i` is clear (R21). -/
def flagClear (th : Thread) (i : Nat) : Bool := decide (flagCount th i = 0)

/-- Every flag of a mask is clear (R22 step 2). -/
def flagsClear (th : Thread) (m : BitVec 12) : Bool :=
  (List.range 12).all fun i => !m.getLsbD i || flagClear th i

/-- Some flag of a mask is clear (R318). -/
def flagsAny (th : Thread) (m : BitVec 12) : Bool :=
  (List.range 12).any fun i => m.getLsbD i && flagClear th i

/-- Flag `i` counted up; 12 to 15 name none (R19, R21). -/
def raiseFlag (i : Nat) (th : Thread) : Thread := { th with f := th.f.setIfInBounds i (flagCount th i + 1) }

/-- Flag `i` counted down (R21, R23). -/
def lowerFlag (i : Nat) (th : Thread) : Thread := { th with f := th.f.setIfInBounds i (flagCount th i - 1) }

/-- Raising flag `i` would not pass 63 (R21). -/
def flagRoom (th : Thread) (i : Nat) : Bool := decide (flagCount th i < 63)

/-- `%fstat` (R144): bit i is 1 when flag fi is not clear. -/
def fstat (th : Thread) : Nat := (List.range 12).foldl (fun y i => if flagClear th i then y else y + 2 ^ i) 0

end Sys2Proof.Machine
end

