-- ==== Sys2Proof/Machine/Tables.lean ====
section
/-!
DEFINITION. Sys2Proof/Machine/Tables.lean: frame ownership (R62), page tables and their walk (R65 to R68), the checks of a
translation (R67), homes (R57) and the host window (R421).
-/

namespace Sys2Proof.Machine

/-- A 4 KiB cell by its number over all channels: channel × cells + frame, so that its bytes start at 4,096 × number
(R51). -/
def cellNo (q frame : Nat) : Nat := q * Config.cells + frame

/-- A run of cells covers a cell. -/
def inRun (x : Nat × Nat × Nat × Nat) (c : Nat) : Bool := decide (x.1 ≤ c) && decide (c < x.1 + x.2.1)

/-- ST and TAG of a cell (R62), of a run or of its own; Free when not listed. -/
def State.cell (s : State) (c : Nat) : Nat × Nat :=
  match smGet s.own c with
  | some x => x
  | none => match s.areas.find? fun x => inRun x c with | some x => (x.2.2.1, 0) | none => (0, 0)

/-- Runs of cells without one cell. -/
def cutRuns (c : Nat) (l : SMap (Nat × Nat × Nat)) : SMap (Nat × Nat × Nat) :=
  l.flatMap fun x =>
    if inRun x c then
      ([(x.1, c - x.1, x.2.2), (c + 1, x.1 + x.2.1 - (c + 1), x.2.2)] : List (Nat × Nat × Nat × Nat)).filter fun y => y.2.1 ≠ 0
    else [x]

/-- Sets the ownership of a cell; Free cells are not listed. -/
def State.setCell (s : State) (c : Nat) (st tag : Nat) : State :=
  { s with own := smSetD (0, 0) s.own c (st, tag), areas := cutRuns c s.areas }

/-- A cell owned by a tag (R62). -/
def State.owned (s : State) (c tag : Nat) : Bool := decide (s.cell c = (1, tag))

/-- Granules of a page size (R60). -/
def sizeGranules : Nat → Nat
  | 0 => 1
  | 1 => 16
  | 2 => 512
  | _ => 262144

/-- Table level of a page size (R60). -/
def sizeLevel : Nat → Nat
  | 0 | 1 => 1
  | 2 => 2
  | _ => 3

/-- The number of a 4 KiB granule, VA[56:12]. -/
def vpnOf (va : W64) : Nat := fld va 56 12

/-- The address of a granule number, canonical (R55). -/
def vpnVa (n : Nat) : W64 := canon (n * 4096)

/-- Index of a granule at a table level (R65). -/
def pteIdx (level vpn : Nat) : Nat := vpn / 512 ^ (level - 1) % 512

/-- Address in memory of an entry of a table cell. -/
def pteAddr (cell idx : Nat) : Nat := 4096 * cell + 8 * idx

/-- Cell that a non-leaf entry names (R66). -/
def pteNext (e : W64) : Nat := cellNo (fld e 42 33) (fld e 32 12)

/-- A table entry (R66). -/
def pteWord (frame chan : Nat) (c mi al x w lf : Bool) : W64 :=
  BitVec.ofNat 64 (chan * 2 ^ 33 + frame * 4096 + c.toNat * 128 + mi.toNat * 32 + al.toNat * 16 + x.toNat * 8 +
    w.toNat * 4 + lf.toNat * 2 + 1)

/-- A walk from a table cell downwards: level, address and value of the leaf entry, or why it ended (R66). -/
def walkDown (s : State) (vpn : Nat) : Nat → Nat → Except Cause (Nat × Nat × W64)
  | 0, _ => .error cPageNotPresent
  | l + 1, cell =>
    let a := pteAddr cell (pteIdx (l + 1) vpn)
    let e := s.word64 a
    if !e.getLsbD 0 then .error cPageNotPresent
    else if e.getLsbD 1 then
      if l < 3 then .ok (l + 1, a, e) else .error cPageNotPresent
    else if l = 0 then .error cPageNotPresent
    else if s.owned (pteNext e) 0 then walkDown s vpn l (pteNext e)
    else .error cFrameNotOwned

/-- The sixteen entries of a table that share a line form a 64 KiB group (R68). -/
def groupOk (s : State) (a : Nat) : Bool :=
  let base := a / 128 * 128
  let e0 := s.word64 base
  decide (fld e0 32 12 % 16 = 0) &&
    (List.range 16).all fun j =>
      let e := s.word64 (base + 8 * j)
      e.getLsbD 7 && e.getLsbD 0 && e.getLsbD 1 && decide (fld e 32 12 = fld e0 32 12 + j) &&
        decide (fld e 5 2 = fld e0 5 2)

/-- The translation that a leaf entry gives (R60, R66, R68). -/
def leafTlb (s : State) (asid : BitVec 16) (vpn level a : Nat) (e : W64) : Tlb :=
  let size := if level = 3 then 3 else if level = 2 then 2 else if e.getLsbD 7 && groupOk s a then 1 else 0
  let n := sizeGranules size
  { asid := asid, page := vpn / n * n, size := size, frame := fld e 32 12 / n * n, w := e.getLsbD 2, x := e.getLsbD 3,
    al := e.getLsbD 4, mi := e.getLsbD 5 }

/-- Frame of a granule under a translation (R59). -/
def Tlb.frameOf (t : Tlb) (vpn : Nat) : Nat := t.frame + (vpn - t.page)

/-- The translation covers a granule of a space. -/
def Tlb.covers (t : Tlb) (asid : BitVec 16) (vpn : Nat) : Bool :=
  decide (t.asid = asid) && decide (t.page ≤ vpn) && decide (vpn < t.page + sizeGranules t.size)

/-- Root cell of a space (R65). -/
def State.root (s : State) (asid : BitVec 16) : Option Nat :=
  (smGet s.parts (asidTag asid)).bind fun p => smGet p.roots (asidSpace asid)

/-- A whole walk (R65, R66), without the check of the cell. -/
def State.walkLeaf (s : State) (asid : BitVec 16) (vpn : Nat) : Except Cause Tlb :=
  match s.root asid with
  | none => .error cPageNotPresent
  | some r => (walkDown s vpn 5 r).map fun x => leafTlb s asid vpn x.1 x.2.1 x.2.2

/-- The checks that end a walk at its leaf, for the home channel `q` (R66). -/
def State.leafOk (s : State) (q vpn : Nat) (t : Tlb) : Except Cause Tlb :=
  if Config.cells ≤ t.frameOf vpn then .error cFrameNotOwned
  else if s.owned (cellNo q (t.frameOf vpn)) (asidTag t.asid) then .ok t
  else .error cFrameNotOwned

/-- The page of a granule is migrating (R83 step 1). -/
def State.migrating (s : State) (asid : BitVec 16) (vpn : Nat) : Bool :=
  match smGet s.parts (asidTag asid) with
  | some p => p.migr.any fun m =>
      let n := sizeGranules m.size.toNat
      let lo := vpnOf m.va / n * n
      decide (m.space.toNat = asidSpace asid) && decide (lo ≤ vpn) && decide (vpn < lo + n)
  | none => false

/-- Two addresses lie in one page, as the tables have it, or in one granule. -/
def State.onePage (s : State) (asid : BitVec 16) (a b : W64) : Bool :=
  decide (vpnOf a = vpnOf b) || (match s.walkLeaf asid (vpnOf a) with | .ok t => t.covers asid (vpnOf b) | .error _ => false)

/-- A page walk at home slice `q` (R66, R71). -/
def State.walk (s : State) (q : Nat) (asid : BitVec 16) (vpn : Nat) : Except Cause Tlb :=
  match s.walkLeaf asid vpn with
  | .error c => .error c
  | .ok t => s.leafOk q vpn t

/-- The kinds of access of R67: 0 read, 1 write, 2 clause fetch. -/
abbrev Kind := Nat

/-- The check of a completed translation against the access (R67). -/
def permFault (w x al : Bool) (k : Kind) : Option Cause :=
  if al && w then some cAliasWrite
  else if k = 1 && !w then some cPagePerm
  else if k = 2 && !x then some cPagePerm
  else none

/-- A set of numbers in ascending order. -/
def ascending (l : List Nat) : List Nat := l.foldl (fun m x => nsAdd x m) []

/-- Channels of a partition that are not fenced, ascending (R57). -/
def State.channels (s : State) (tag : Nat) : List Nat :=
  match smGet s.parts tag with
  | none => []
  | some p => ascending (p.res.channels.filter fun q => !s.fenced.contains (sliceSite q))

/-- Home slice of a granule (R57). -/
def State.home (s : State) (asid : BitVec 16) (va : W64) : Option Nat := homeOf (s.channels (asidTag asid)) va asid

/-- The host window (R421). -/
def inHost (va : W64) : Bool := decide (fld va 63 48 = 0x00F0)

/-- The host address of an access in the window (R421). -/
def hostAddr (va : W64) : Nat := fld va 47 0

/-- R56 checks 2 to 4 for an exact address and `n` bytes; `align` 0 asks no alignment. -/
def addrFault (ea : Int) (n align : Nat) : Option Cause :=
  let a := toW64 ea
  let m := a.toNat
  firstErr
    [failIf (!isCanon a) cNoncanon,
     failIf (decide (ea < 0) || decide ((2 ^ 64 : Int) ≤ ea) ||
       (decide (0 < n) && (decide (m < 2 ^ 56) && decide (2 ^ 56 < m + n) || decide (2 ^ 64 < m + n)))) cAddrWrap,
     failIf (decide (0 < align) && decide (m % align ≠ 0)) cMisaligned]

/-- The first number from `a` on, at most `fuel` tried, that satisfies a test. -/
def findFrom (p : Nat → Bool) : Nat → Nat → Option Nat
  | 0, _ => none
  | fuel + 1, a => if p a then some a else findFrom p fuel (a + 1)

/-- A cell that the service block may take (R63): Free, on a channel that is ready and not fenced. -/
def State.cellFree (s : State) (c : Nat) : Bool :=
  let q := c / Config.cells
  decide (s.cell c = (0, 0)) && s.chRdy.contains q && !s.fenced.contains (sliceSite q)

/-- The cell that the service block takes next (R63, R65): which one is a free value (log 11). -/
def State.newCell (s : State) : Option Nat :=
  let c := Config.cellFor s.tick % (Config.slices * Config.cells)
  if s.cellFree c then some c else findFrom s.cellFree (Config.slices * Config.cells) 0

/-- The bytes of a cell cleared, with their poison bits, and the clear marks of its lines set (R54). -/
def State.clearCell (s : State) (c : Nat) : State :=
  { s with mem := memClear s.mem (4096 * c) (4096 * c + 4096),
           memPz := s.memPz.filter fun w => decide (w < 512 * c) || decide (512 * c + 512 ≤ w),
           marks := s.marks.filter fun l => decide (l < 32 * c) || decide (32 * c + 32 ≤ l) }

/-- Writes a table entry in its cell; the clear mark of its line is cleared (R54, R65). -/
def State.setPte (s : State) (a : Nat) (w : W64) : State :=
  let s := s.setWord64 a w
  { s with marks := nsAdd (a / 128) s.marks }

/-! What the DRAM carries (R52, R54). -/

/-- The tweak of a line (R52): channel q × 2^32 + its channel-local byte address / 128. -/
def lineTweak (l : Nat) : BitVec 128 :=
  BitVec.ofNat 128 (l / (32 * Config.cells) * 2 ^ 32 + l % (32 * Config.cells))

/-- Number of the key under which the lines of a cell stand (R52): that of its owner. -/
def State.cellKey (s : State) (c : Nat) : Nat :=
  match smGet s.parts (s.cell c).2 with | some p => p.key | none => 0

/-- What the DRAM of line `l` carries: its bytes encrypted under its owner's key, none while its clear mark is set (R52, R54).
`mem` holds the bytes that the controller reads and writes on this side of it (log 6). -/
def State.dramImage (s : State) (l : Nat) : Option (List Byte) :=
  if s.marks.contains l then
    some (Config.aesXts (Config.memoryKey (s.cellKey (l / 32))) (lineTweak l) (memRead s.mem (128 * l) 128))
  else none

/-- A cell taken for page tables, owned by tag 0; it reads zero (R54, R63). -/
def State.takeCell (s : State) : Option (State × Nat) :=
  s.newCell.map fun c => (s.setCell c 1 0, c)

end Sys2Proof.Machine
end

