-- ==== Sys2Proof/Machine/Home.lean ====
section
/-!
DEFINITION. Sys2Proof/Machine/Home.lean: the lines of a cache slice (R85 to R93): lookup, victim, write-back, fill, and
the accesses that engines, clause fetch, the dispatcher and the host make at a home slice in one step.
-/

namespace Sys2Proof.Machine

/-- Slice `q` as it stands. -/
def State.slice (s : State) (q : Nat) : SliceSt := smGetD s.slices q SliceSt.reset

/-- Changes slice `q`. -/
def State.modSlice (s : State) (q : Nat) (f : SliceSt → SliceSt) : State :=
  { s with slices := smSet s.slices q (f (s.slice q)) }

/-- A way that has held no line since reset (R85). -/
def Line.invalid (way : Nat) : Line :=
  { st := 0, pin := false, w := false, x := false, asid := 0, vpn := 0, frame := 0, lru := way, data := [], pz := 0,
    waiters := [] }

/-- The way with key `k` = 16 × set + way. -/
def SliceSt.way (sl : SliceSt) (k : Nat) : Line := smGetD sl.lines k (Line.invalid (k % 16))

/-- Changes a way. -/
def SliceSt.setWay (sl : SliceSt) (k : Nat) (l : Line) : SliceSt := { sl with lines := smSet sl.lines k l }

/-- The key of the way that holds a line (R85, R86). -/
def SliceSt.find (sl : SliceSt) (asid : BitVec 16) (va : W64) : Option Nat :=
  let set := setIndex va asid
  ((List.range 16).map fun w => 16 * set + w).find? fun k =>
    let l := sl.way k
    decide (l.st ≠ 0) && decide (l.asid = asid) && decide (l.vpn.toNat = vpnOf va)

/-- Occupancy entry of a tag (R89). -/
def SliceSt.occOf (sl : SliceSt) (tag : Nat) : Occ :=
  smGetD sl.occ tag { en := false, target := 0, count := 0, pinq := 0, pinc := 0 }

/-- Changes an occupancy entry. -/
def SliceSt.modOcc (sl : SliceSt) (tag : Nat) (f : Occ → Occ) : SliceSt :=
  { sl with occ := smSet sl.occ tag (f (sl.occOf tag)) }

/-- The partition of a tag is over target (R89). -/
def SliceSt.over (sl : SliceSt) (tag : Nat) : Bool :=
  let o := sl.occOf tag
  decide (16 * o.target < o.count)

/-- The way of a list with the highest LRU rank (R91). -/
def highestLru (sl : SliceSt) : List Nat → Option Nat
  | [] => none
  | k :: r =>
    match highestLru sl r with
    | none => some k
    | some j => if (sl.way j).lru < (sl.way k).lru then some k else some j

/-- The victim of a set (R91). -/
def SliceSt.victim (sl : SliceSt) (set : Nat) : Option Nat :=
  let ways := (List.range 16).map fun w => 16 * set + w
  match ways.find? fun k => decide ((sl.way k).st = 0) with
  | some k => some k
  | none =>
    let cand := ways.filter fun k => decide ((sl.way k).st ≠ 3) && !(sl.way k).pin
    match highestLru sl (cand.filter fun k => sl.over (asidTag (sl.way k).asid)) with
    | some k => some k
    | none => highestLru sl cand

/-- A way moves to a rank; the ways between move by one (R91, R230). -/
def SliceSt.rank (sl : SliceSt) (k : Nat) (last : Bool) : SliceSt :=
  let old := (sl.way k).lru
  let base := k / 16 * 16
  forN 16 sl fun w sl =>
    let j := base + w
    let l := sl.way j
    if j = k then sl.setWay j { l with lru := if last then 15 else 0 }
    else if last then (if old < l.lru then sl.setWay j { l with lru := l.lru - 1 } else sl)
    else if l.lru < old then sl.setWay j { l with lru := l.lru + 1 }
    else sl

/-- Where the DRAM bytes of a line stand: channel `q`, its frame, and VA[11:7] from the set (R59, R86). -/
def lineDram (q key : Nat) (frame : Nat) : Nat := 4096 * cellNo q frame + 128 * (key / 16 % 32)

/-- The poison bits of the sixteen words of a line in memory. -/
def pzBits (pz : List Nat) (a : Nat) : BitVec 16 :=
  BitVec.ofNat 16 ((List.range 16).foldl (fun y i => if pz.contains (a / 8 + i) then y + 2 ^ i else y) 0)

/-- Writes a line's bytes and poison bits to DRAM (R53, R54, R88). -/
def State.putLine (s : State) (a : Nat) (d : List Byte) (pz : BitVec 16) : State :=
  { s with mem := memWrite s.mem a d,
           memPz := forN 16 s.memPz fun i l => if pz.getLsbD i then nsAdd (a / 8 + i) l else nsDel (a / 8 + i) l,
           marks := nsAdd (a / 128) s.marks }

/-- Writes back a Dirty way when its cell is still Owned, by the line's partition (R52, R88). -/
def State.writeBack (s : State) (q k : Nat) : State :=
  let l := (s.slice q).way k
  if l.st = 2 && s.owned (cellNo q l.frame) (asidTag l.asid) then s.putLine (lineDram q k l.frame) l.data l.pz else s

/-- Takes a way out of use: Invalid, unpinned, counts adjusted (R88, R90, R93). -/
def State.dropWay (s : State) (q k : Nat) : State :=
  let l := (s.slice q).way k
  if l.st = 0 then s
  else
    s.modSlice q fun sl =>
      (sl.setWay k { l with st := 0, pin := false, data := [], pz := 0, waiters := [] }).modOcc (asidTag l.asid) fun o =>
        { o with count := o.count - 1, pinc := if l.pin then o.pinc - 1 else o.pinc }

/-- Writes back and invalidates a way (R82 step 3). -/
def State.evict (s : State) (q k : Nat) : State := (s.writeBack q k).dropWay q k

/-- Allocates a way for a line, evicting its victim: the way is Filling (R87, R91). A Filling way counts in its partition's COUNT
from here on: whether it is a valid line R89 leaves open (DESIGN CHOICE, log 35). -/
def State.allocWay (s : State) (q : Nat) (asid : BitVec 16) (va : W64) : Option (State × Nat) :=
  ((s.slice q).victim (setIndex va asid)).map fun k =>
    let s := s.evict q k
    (s.modSlice q fun sl =>
      (sl.setWay k { sl.way k with st := 3, pin := false, w := false, x := false, asid := asid,
                                   vpn := BitVec.ofNat 45 (vpnOf va), data := [], pz := 0, waiters := [] }).modOcc
        (asidTag asid) fun o => { o with count := o.count + 1 }, k)

/-- A fill: the line's bytes from DRAM under a translation; the line is Clean and most recent, or least recent for a
streaming access (R53, R54, R69, R87, R91, R230). -/
def State.fillWay (s : State) (q k : Nat) (t : Tlb) (strm : Bool) : State :=
  let l := (s.slice q).way k
  let fr := t.frameOf l.vpn.toNat
  let a := lineDram q k fr
  let d := memRead s.mem a 128
  let pz := pzBits s.memPz a
  s.modSlice q fun sl =>
    (sl.setWay k { l with st := 1, w := t.w, x := t.x, frame := fr, data := d, pz := pz }).rank k strm

/-- Bytes `off` to `off` + `n` - 1 of a line. -/
def Line.bytes (l : Line) (off n : Nat) : List Byte := (l.data.drop off).take n

/-- Whether any word of the range is poisoned (R53). -/
def Line.poisoned (l : Line) (off n : Nat) : Bool :=
  (List.range 16).any fun i => l.pz.getLsbD i && overlaps off (off + n) (8 * i) (8 * i + 8)

/-- Sets bit `i` of a poison mask. -/
def setPz (pz : BitVec 16) (i : Nat) (b : Bool) : BitVec 16 :=
  if b then pz ||| BitVec.ofNat 16 (2 ^ i) else pz &&& ~~~(BitVec.ofNat 16 (2 ^ i))

/-- Poison bits of a line after a write of `n` bytes at `off` with poison `p` (R53). -/
def pzLine (pz : BitVec 16) (off n : Nat) (p : Bool) : BitVec 16 :=
  forN 16 pz fun i z =>
    if !overlaps off (off + n) (8 * i) (8 * i + 8) then z
    else if p then setPz z i true
    else if decide (off ≤ 8 * i) && decide (8 * i + 8 ≤ off + n) then setPz z i false
    else z

/-- A line with bytes replaced. -/
def putBytes (d : List Byte) (off : Nat) (x : List Byte) : List Byte := d.take off ++ x ++ d.drop (off + x.length)

/-- Bytes written into a line: Dirty (R53, R87). -/
def Line.write (l : Line) (off : Nat) (x : List Byte) (p : Bool) : Line :=
  { l with st := 2, data := putBytes l.data off x, pz := pzLine l.pz off x.length p }

/-- What an access at a home slice comes to: done, a wait (the line is Filling, or no way is free), or a cause. -/
inductive Acc (α : Type) where
  | done (x : α)
  | wait
  | fault (c : Cause)
  deriving Repr

/-- A translation enters the TLB of a slice (R70). -/
def SliceSt.learn (sl : SliceSt) (t : Tlb) : SliceSt := { sl with tlb := (t :: sl.tlb).take 4096 }

/-- A translation from the slice's TLB (R70), or a walk made within the step, whose result enters the TLB (R66, R71): the
access waits while its page's walk is running or queued, while 16 walks run, and while its page is migrating (R83). -/
def State.translateAt (s : State) (q : Nat) (asid : BitVec 16) (vpn : Nat) : Acc (State × Tlb) :=
  if s.migrating asid vpn then .wait
  else
    match (s.slice q).tlb.find? fun t => t.covers asid vpn with
    | some t => match s.leafOk q vpn t with | .error c => .fault c | .ok t => .done (s, t)
    | none =>
      if 16 ≤ (s.slice q).walks.length || (s.slice q).walks.any fun w => decide (w.2.asid = asid) && s.onePage asid w.2.va (vpnVa vpn)
      then .wait
      else match s.walk q asid vpn with | .error c => .fault c | .ok t => .done (s.modSlice q fun sl => sl.learn t, t)

/-- The line of an address made present at its home slice, with its checks (R67, R69, R87), in one step. -/
def State.ensureLine (s : State) (asid : BitVec 16) (va : W64) (k : Kind) : Acc (State × Nat × Nat) :=
  match s.home asid va with
  | none => .fault cFrameNotOwned
  | some q =>
    match (s.slice q).find asid va with
    | some key =>
      let l := (s.slice q).way key
      if l.st = 3 then .wait
      else
        match permFault l.w l.x false k with
        | some c => .fault c
        | none => .done (s.modSlice q fun sl => sl.rank key false, q, key)
    | none =>
      match s.translateAt q asid (vpnOf va) with
      | .fault c => .fault c
      | .wait => .wait
      | .done (s, t) =>
        match permFault t.w t.x t.al k with
        | some c => .fault c
        | none =>
          match s.allocWay q asid va with
          | none => .wait
          | some (s, key) => .done (s.fillWay q key t false, q, key)

/-- Bytes read at the home slice, within one line, with their poison (R87). -/
def State.homeRead (s : State) (asid : BitVec 16) (va : W64) (n : Nat) (k : Kind) : Acc (State × List Byte × Bool) :=
  match s.ensureLine asid va k with
  | .fault c => .fault c
  | .wait => .wait
  | .done (s, q, key) =>
    let l := (s.slice q).way key
    .done (s, l.bytes (va.toNat % 128) n, l.poisoned (va.toNat % 128) n)

/-- Bytes written at the home slice, within one line (R87). -/
def State.homeWrite (s : State) (asid : BitVec 16) (va : W64) (d : List Byte) (p : Bool) : Acc State :=
  match s.ensureLine asid va 1 with
  | .fault c => .fault c
  | .wait => .wait
  | .done (s, q, key) =>
    .done (s.modSlice q fun sl => sl.setWay key ((sl.way key).write (va.toNat % 128) d p))

/-- A range cut at line boundaries: address and length of each part; at most `fuel` parts. -/
def lineParts : Nat → Nat → Nat → List (Nat × Nat)
  | 0, _, _ => []
  | fuel + 1, a, n =>
    if n = 0 then []
    else
      let m := min n (128 - a % 128)
      (a, m) :: lineParts fuel (a + m) (n - m)

/-- A longer range read, line by line. -/
def State.rangeRead (s : State) (asid : BitVec 16) (k : Kind) : List (Nat × Nat) → Acc (State × List Byte × Bool)
  | [] => .done (s, [], false)
  | (a, n) :: r =>
    match s.homeRead asid (BitVec.ofNat 64 a) n k with
    | .fault c => .fault c
    | .wait => .wait
    | .done (s, d, p) =>
      match State.rangeRead s asid k r with
      | .fault c => .fault c
      | .wait => .wait
      | .done (s, e, p') => .done (s, d ++ e, p || p')

/-- A longer range written, line by line. -/
def State.rangeWrite (s : State) (asid : BitVec 16) (d : List Byte) (p : Bool) : List (Nat × Nat) → Acc State
  | [] => .done s
  | (a, n) :: r =>
    match s.homeWrite asid (BitVec.ofNat 64 a) (d.take n) p with
    | .fault c => .fault c
    | .wait => .wait
    | .done s => State.rangeWrite s asid (d.drop n) p r

/-- `n` bytes from a virtual address. -/
def State.readVa (s : State) (asid : BitVec 16) (va : W64) (n : Nat) (k : Kind) : Acc (State × List Byte × Bool) :=
  s.rangeRead asid k (lineParts (n / 128 + 2) va.toNat n)

/-- Bytes to a virtual address. -/
def State.writeVa (s : State) (asid : BitVec 16) (va : W64) (d : List Byte) : Acc State :=
  s.rangeWrite asid d false (lineParts (d.length / 128 + 2) va.toNat d.length)

end Sys2Proof.Machine
end

