-- ==== Sys2Proof/Machine/Ops.lean ====
section
/-!
DEFINITION. Sys2Proof/Machine/Ops.lean: the named operations over the machine: accessors of clusters, crews, cohorts and
threads; records to the host (R382, R422 to R427); long-latency results and completion flags (R21, R23, R133); taking a
trap (R378), the fatal fault (R379), the abort of a grid (R316), and the return from a trap (R322).
-/

namespace Sys2Proof.Machine

/-! Accessors. -/

/-- Cluster `p`, service clusters after the physical ones (R9, R11). -/
def State.cluster (s : State) (p : Nat) : Cluster := smGetD s.clusters p Cluster.zero

/-- Changes cluster `p`. -/
def State.modCluster (s : State) (p : Nat) (f : Cluster → Cluster) : State :=
  { s with clusters := smSet s.clusters p (f (s.cluster p)) }

/-- The rate of a cluster's clock in quarters of nominal (R390). -/
def Cluster.pace (c : Cluster) : Nat := if !c.stretched then 4 else if c.deep then 2 else 3

/-- What the clock of cluster `p` shows, in quarters of a nanosecond of its nominal rate (R4). -/
def State.clock (s : State) (p : Nat) : Nat :=
  let c := s.cluster p
  c.clk + c.pace * (s.time - c.clkAt)

/-- `n` cluster cycles, nominally 2.7 to the nanosecond, have passed since the clock of cluster `p` showed `t` (R4). -/
def State.cyclesPast (s : State) (p t n : Nat) : Bool := decide (40 * n ≤ 27 * (s.clock p - t))

/-- Issue slice `k` = 6 × cluster + slice. -/
def State.issue (s : State) (k : Nat) : IssueSt := (s.cluster (k / 6)).sl[k % 6]?.getD IssueSt.zero

/-- Changes issue slice `k`. -/
def State.modIssue (s : State) (k : Nat) (f : IssueSt → IssueSt) : State :=
  s.modCluster (k / 6) fun c => { c with sl := c.sl.setIfInBounds (k % 6) (f (c.sl[k % 6]?.getD IssueSt.zero)) }

/-- Changes the clause in progress of issue slice `k`. -/
def State.modRun (s : State) (k : Nat) (f : Run → Run) : State :=
  s.modIssue k fun i => { i with run := i.run.map f }

/-- Changes crew `cid`. -/
def State.modCrew (s : State) (cid : Nat) (f : Crew → Crew) : State := { s with crews := smMod s.crews cid f }

/-- Changes cohort `co` of crew `cid`. -/
def State.modCohort (s : State) (cid co : Nat) (f : Cohort → Cohort) : State :=
  s.modCrew cid fun c => { c with cohorts := lmod c.cohorts co f }

/-- Cohort `co` of crew `cid`. -/
def State.cohort? (s : State) (cid co : Nat) : Option Cohort := (smGet s.crews cid).bind fun c => c.cohorts[co]?

/-- Every thread of a cohort changed by `f`, which sees its lane. -/
def Cohort.mapThreads (c : Cohort) (f : Fin 32 → Thread → Thread) : Cohort :=
  { c with threads := Vector.ofFn fun i => f i c.threads[i] }

/-- Changes the threads of a cohort whose lanes a mask names. -/
def State.modLanes (s : State) (cid co : Nat) (m : BitVec 32) (f : Fin 32 → Thread → Thread) : State :=
  s.modCohort cid co fun c => c.mapThreads fun i th => if m.getLsbD i then f i th else th

/-- Changes one thread. -/
def State.modThread (s : State) (cid co lane : Nat) (f : Thread → Thread) : State :=
  s.modLanes cid co (laneBit lane) fun _ => f

/-- A thread. -/
def State.thread? (s : State) (cid co lane : Nat) : Option Thread :=
  (s.cohort? cid co).bind fun c => c.threads[lane]?

/-- Changes partition `tag`. -/
def State.modPart (s : State) (tag : Nat) (f : Part → Part) : State := { s with parts := smMod s.parts tag f }

/-- The host port that carries a partition's virtual function (R399, R419). -/
def State.vfPort (s : State) (tag : Nat) : Nat := match smGet s.parts tag with | some p => p.vfPort | none => 0

/-- Changes grid `g`. -/
def State.modGrid (s : State) (g : Nat) (f : Grid → Grid) : State := { s with grids := smMod s.grids g f }

/-- The lanes of a cohort's live threads. -/
def Cohort.live (c : Cohort) : BitVec 32 :=
  BitVec.ofNat 32 ((List.finRange 32).foldl (fun y i => if c.threads[i].live then y + 2 ^ i.val else y) 0)

/-- A fresh number (log 3). -/
def State.fresh (s : State) : State := { s with nextId := s.nextId + 1 }

/-! Queues of the host link. -/

/-- MSI-X message `vec` of a partition: sent, or left pending while masked or paused (R427). -/
def State.msix (s : State) (tag vec : Nat) : State :=
  match smGet s.parts tag with
  | none => s
  | some p =>
    if p.msixPend.getLsbD vec then s
    else if p.msixMask.getLsbD vec || decide (p.qst ≠ 0) then
      s.modPart tag fun p => { p with msixPend := p.msixPend ||| BitVec.ofNat 8 (2 ^ vec) }
    else { s with msixOut := s.msixOut ++ [(tag, vec)] }

/-- A record written whole into the ring of a device-produced queue, then WP and the interrupt; dropped and counted when
the ring is full (R422, R426, R427). A record that cannot be written counts as lost (log 14). -/
def State.post (s : State) (tag qi : Nat) (words : List W64) : State :=
  match smGet s.parts tag with
  | none => s
  | some p =>
    let q := smGetD p.queues qi Queue.reset
    let put (f : Queue → Queue) (s : State) : State :=
      s.modPart tag fun p => { p with queues := smSet p.queues qi (f (smGetD p.queues qi Queue.reset)) }
    if !q.en then s
    else if 2 ^ q.log2n.toNat ≤ (q.wp - q.rp).toNat then put (fun q => { q with lost := q.lost + 1 }) s
    else
      let d := bytesOfWords words
      let va := q.base + BitVec.ofNat 64 (d.length * (q.wp.toNat % 2 ^ q.log2n.toNat))
      let next (s : State) : State := (put (fun q => { q with wp := q.wp + 1 }) s).msix tag q.vec.toNat
      if inHost va then
        if p.tdisp = .run then next { s with hostOut := s.hostOut ++ [(tag, hostAddr va, d)] }
        else put (fun q => { q with lost := q.lost + 1 }) s
      else
        match s.writeVa (asidOf tag 0) va d with
        | .done s => next s
        | _ => put (fun q => { q with lost := q.lost + 1 }) s

/-- An event record (R426). -/
def State.postEvent (s : State) (tag kind space : Nat) (stamp : W32) (data : W64) (status : Nat) : State :=
  match smGet s.parts tag with
  | none => s
  | some p =>
    s.post tag 66 [BitVec.ofNat 64 (p.inc.toNat * 2 ^ 52 + kind * 2 ^ 48 + space * 2 ^ 42 + stamp.toNat), data,
      BitVec.ofNat 64 status, BitVec.ofNat 64 s.time]

/-- What a fault record says (R382). -/
structure FaultRec where
  kind : Nat
  inner : Cause := 0
  cause : Cause
  grid : Nat := 0
  crew : Nat := 0
  lcl : Nat := 0
  /-- Cohort, lane and slot, when valid. -/
  thr : Option (Nat × Nat × Nat) := none
  pc : W64 := 0
  addr : W64 := 0
  info : Nat := 0
  deriving DecidableEq, Repr, Inhabited

/-- The words of a fault record (R382). -/
def FaultRec.words (r : FaultRec) (inc : BitVec 12) (rseq time : Nat) : List W64 :=
  let t := match r.thr with
    | some (co, lane, slot) => co * 2 ^ 46 + lane * 2 ^ 41 + 2 ^ 40 + slot % 16 * 2 ^ 36
    | none => 0
  [BitVec.ofNat 64 (inc.toNat * 2 ^ 52 + rseq % 2 ^ 16 * 2 ^ 36 + r.kind * 2 ^ 32 + r.inner.toNat * 2 ^ 7 + r.cause.toNat),
   BitVec.ofNat 64 (r.grid % 2 ^ 32 * 2 ^ 32 + r.crew % 2 ^ 32), BitVec.ofNat 64 (r.lcl % 2 ^ 12 * 2 ^ 52 + t), r.pc, r.addr,
   BitVec.ofNat 64 r.info, BitVec.ofNat 64 time, 0]

/-- A fault record posted to a partition's fault queue (R382). -/
def State.postFault (s : State) (tag : Nat) (r : FaultRec) : State :=
  match smGet s.parts tag with
  | none => s
  | some p =>
    (s.post tag 65 (r.words p.inc p.rseq s.time)).modPart tag fun p => { p with rseq := (p.rseq + 1) % 2 ^ 16 }

/-- An informational record with no crew (R384). -/
def State.postInfo (s : State) (tag : Nat) (cause : Cause) (addr : W64) (info : Nat) : State :=
  s.postFault tag { kind := 3, cause := cause, addr := addr, info := info }

/-- The service block's error log (R99, R384). -/
def State.logSvc (s : State) (cause : Cause) (a b c : Nat) : State := { s with svcLog := s.svcLog ++ [(cause, a, b, c)] }

/-! Silent errors (R373, R374). -/

/-- The partition that owns a cluster (R398). -/
def State.ownerOf (s : State) (p : Nat) : Option Nat :=
  (s.parts.find? fun x => x.2.res.clusters.contains p).map Prod.fst

/-- A detected silent error of a cluster: its record, and the count that makes the cluster failing (R373). -/
def State.silentError (s : State) (p unit : Nat) : State :=
  let s := match s.ownerOf p with
    | some tag => s.postInfo tag cSilentError 0 unit
    | none => s.logSvc cSilentError p unit 0
  s.modCluster p fun c =>
    if decide (2 ≤ c.silent) then c
    else if decide (c.silent ≠ 0) && decide (s.time ≤ c.silentAt + 1000000) then { c with silent := c.silent + 1 }
    else { c with silent := 1, silentAt := s.time }

/-! Long-latency results and flags. -/

/-- Whether a result of clause `tok` still holds SETA up in a lane (R23). -/
def Pend.holdsA (p : Pend) (tok lane : Nat) : Bool := decide (p.tok = tok) && p.waitRes.getLsbD lane && !p.dead

/-- Whether it still holds SETB up in a lane (R23). -/
def Pend.holdsB (p : Pend) (tok lane : Nat) : Bool := decide (p.tok = tok) && p.waitPerf.getLsbD lane && !p.dead

/-- Lanes of a mask in which no result of the clause stands in the way. -/
def freeLanes (s : State) (m : BitVec 32) (h : Pend → Nat → Bool) : BitVec 32 :=
  BitVec.ofNat 32 ((lanesOf m).foldl (fun y i => if s.pends.any fun p => h p.2 i.val then y else y + 2 ^ i.val) 0)

/-- A flag raised before the open region is lowered in its copy too, so that a restart does not raise it again (R368, R369);
`tok` is the clause that raised it, none for an engine's job. -/
def Region.lower (g : Region) (tok : Option Nat) (lane flag : Nat) : Region :=
  let mine (st : Start) : Bool := (match tok, st.tok with | some t, some x => decide (x.1 = t) | _, _ => false)
  let early := (match tok with | some t => decide (t < g.first) | none => true)
  if g.opened && early then
    { g with starts := lmod g.starts lane fun st =>
        if mine st then st else { st with f := st.f.setIfInBounds flag (st.f[flag]?.getD 0 - 1) } }
  else g

/-- Lowers a completion flag of a thread for an engine's job (R113). -/
def State.lowerJobFlag (s : State) (cid co lane flag : Nat) : State :=
  (s.modThread cid co lane (lowerFlag flag)).modCohort cid co fun h => { h with rgn := h.rgn.lower none lane flag }

/-- Lowers SETA and SETB of an ended clause in every lane whose results are delivered, or performed (R23). -/
def State.settle (s : State) (tok : Nat) : State :=
  match smGet s.toks tok with
  | none => s
  | some t =>
    if !t.ended then s
    else
      let a := freeLanes s t.la fun p l => p.holdsA tok l
      let b := freeLanes s t.lb fun p l => p.holdsB tok l
      let s := s.modLanes t.cid t.co (a ||| b) fun i th =>
        let th := if a.getLsbD i then lowerFlag t.seta th else th
        if b.getLsbD i then lowerFlag t.setb th else th
      let s := s.modCohort t.cid t.co fun h =>
        let g := forL (lanesOf a) h.rgn fun i g => g.lower (some tok) i.val t.seta
        { h with rgn := forL (lanesOf b) g fun i g => g.lower (some tok) i.val t.setb }
      let la := t.la &&& ~~~a
      let lb := t.lb &&& ~~~b
      { s with toks := if la ||| lb = 0 then smDel s.toks tok else smSet s.toks tok { t with la := la, lb := lb } }

/-- A result that is written everywhere and performed everywhere leaves the machine; its clause's flags follow. -/
def State.settlePend (s : State) (id : Nat) : State :=
  match smGet s.pends id with
  | none => s
  | some p =>
    let s := if p.waitRes ||| p.waitPerf = 0 then { s with pends := smDel s.pends id } else s
    s.settle p.tok

/-- Changes a result. -/
def State.modPend (s : State) (id : Nat) (f : Pend → Pend) : State := { s with pends := smMod s.pends id f }

/-- The value of a lane's part of a result is known; it waits for RESULT_DELIVERY (R23). -/
def State.resultLane (s : State) (id lane : Nat) (val : List W64) (p : Bool) : State :=
  s.modPend id fun x => { x with vals := smSet x.vals lane { val := val, p := p } }

/-- The effect of a lane's part is performed (R23). -/
def State.performLane (s : State) (id lane : Nat) : State :=
  (s.modPend id fun x => { x with waitPerf := x.waitPerf &&& ~~~laneBit lane }).settlePend id

/-! Traps. -/

/-- Sixteen poisoned entries (R132, R321). -/
def poisonQueue : List QEnt := List.replicate 16 QEnt.poison

/-- `%trpc` of a clause and slot (R144). -/
def trpcOf (h : W64) (slot : Nat) : W64 := BitVec.ofNat 64 (slot % 16 * 2 ^ 60 + h.toNat % 2 ^ 57)

/-- The clause address that a `%trpc` names (R144). -/
def trpcPc (x : W64) : W64 := canon x.toNat

/-- INFO of a fault record for a cause (R383): a fabric cause names module and peer, JOB_CANCELLED the handle. -/
def trapInfo (t : TrapRec) : Nat :=
  match t.peer with
  | some p => p
  | none => if t.cause = cJobCancelled then t.addr.toNat else 0

/-- Takes crews that have not started out of every crew queue (R316). -/
def dropQueued (s : State) (gid : Nat) : State :=
  { s with clusters := smMap (fun _ c =>
      { c with queue := c.queue.filter fun b => b.grid != gid,
               steal := c.steal.map fun t => { t with shipped := t.shipped.filter fun b => b.grid != gid } }) s.clusters
           parts := smMap (fun _ t => { t with savedQueues := smMap (fun _ l =>
             l.map fun x => (x.1, x.2.filter fun b => b.grid != gid)) t.savedQueues }) s.parts }

/-- Units of a grid (R331). -/
def Grid.crewCount (g : Grid) : Nat := g.gx * g.gy * g.gz

/-- Aborts a grid and its children in turn (R316); the children post their own record. `fuel` bounds the nesting depth
(R300). -/
def abortGrids : Nat → State → List (Nat × Bool) → Cause → State
  | 0, s, _, _ => s
  | fuel + 1, s, gs, cause =>
    forL gs s fun x s =>
      match smGet s.grids x.1 with
      | none => s
      | some g =>
        if g.aborted.isSome then s
        else
          let s := if x.2 then s.postFault g.part { kind := 2, cause := cause, grid := x.1 } else s
          let s := s.modGrid x.1 fun g => { g with aborted := some cause, nextUnit := g.crewCount, again := [] }
          let s := dropQueued s x.1
          let s := { s with crews := smMap (fun _ c =>
            if c.grid = x.1 && c.stopping.isNone then { c with stopping := some cause } else c) s.crews }
          abortGrids fuel s (g.children.map fun c => (c, true)) cause

/-- Aborts a grid (R316); `own` says whether the abort posts a record of its own. -/
def State.abortGrid (s : State) (gid : Nat) (cause : Cause) (own : Bool) : State := abortGrids 11 s [(gid, own)] cause

/-- A fatal fault of a crew (R379): the crew stops at its threads' next clause boundaries, one record is posted, and the
grid is aborted. What the stop drains and cancels (R379 steps 2 to 4) is done when the last thread has stopped
(CREW_RETIRE). -/
def State.fatalWith (s : State) (cid : Nat) (r : FaultRec) : State :=
  match smGet s.crews cid with
  | none => s
  | some c =>
    if c.stopping.isSome then s
    else
      let s := s.modCrew cid fun c => { c with stopping := some r.cause }
      (s.postFault c.part { r with grid := c.grid, crew := c.idx, lcl := c.lcl }).abortGrid c.grid r.cause false

/-- A fatal fault with no thread (R346, R359, R80). -/
def State.fatal (s : State) (cid : Nat) (cause : Cause) (addr : W64) (info : Nat) : State :=
  s.fatalWith cid { kind := 2, cause := cause, addr := addr, info := info }

/-- What trap entry does to the thread (R321, R378 steps 2 to 4). -/
def enterHandler (trph : W64) (t : TrapRec) (th : Thread) : Thread :=
  { th with tcause := t.cause, taddr := t.addr, trpc := t.trpc, inHandler := true, rpc := t.rpc, rslot := t.rslot,
            rskip := t.skip, aside := th.q, q := poisonQueue, pc := trph, slot := 0, resumed := false, bpSkip := false,
            trap := none, tok := none, grp := 0,
            lastFab := match t.peer with
              | some p => some (p, t.cause)
              | none => th.lastFab }

/-- A thread takes a recoverable trap (R378): the handler is entered, or the trap is a fatal fault when there is no
handler or the thread is in it. The region has been closed before (R378 step 1). -/
def State.takeTrap (s : State) (cid co lane : Nat) (t : TrapRec) : State :=
  match smGet s.crews cid, s.thread? cid co lane with
  | some c, some th =>
    let r : FaultRec :=
      { kind := 0, cause := t.cause, thr := some (co, lane, fld t.trpc 63 60), pc := trpcPc t.trpc, addr := t.addr,
        info := trapInfo t }
    let clear (s : State) : State := s.modThread cid co lane fun th => { th with trap := none }
    if th.inHandler then
      clear (s.fatalWith cid { r with kind := 1, cause := cTrapInHandler, inner := t.cause })
    else if c.trph = 0 then clear (s.fatalWith cid r)
    else s.modThread cid co lane (enterHandler c.trph t)
  | _, _ => s

/-- What the return from a trap restores (R322): the queue set aside, the end of the handler, and the resume point or the
target given. -/
def leaveHandler (target : Option W64) (th : Thread) : Thread :=
  let th := { th with q := th.aside, aside := [], inHandler := false }
  match target with
  | some t => { th with pc := t, slot := 0, resumed := false, bpSkip := false }
  | none =>
    { th with pc := th.rpc, slot := th.rslot, resumed := th.rskip || decide (0 < th.rslot), bpSkip := th.rskip }

/-! Congestion (R406). -/

/-- QTH and DTH of a partition (R406). -/
def State.thresholds (s : State) (tag : Nat) : Nat × Nat :=
  match smGet s.parts tag with
  | some x => (fld x.cmthr 31 16, fld x.cmthr 15 0)
  | none => (0, 0)

/-- The window of a marking point takes note of what waits there: of the items, each a tag and the mark that its source would get,
and of the partitions with more than QTH of them (R406). -/
def State.noteWindow (s : State) (point : Nat) (l : List (Nat × Mark)) : State :=
  let old := smGetD s.seen point ([], [])
  let hot := (l.filter fun x => decide ((s.thresholds x.1).1 < (l.filter fun y => y.1 = x.1).length)).map Prod.fst
  { s with seen := smSet s.seen point ((old.1 ++ l).eraseDups, (old.2 ++ hot).eraseDups) }

/-- The requests outstanding at a host port, with the marks of their sources (R406). -/
def State.hostItems (s : State) (h : Nat) : List (Nat × Mark) :=
  s.hostReqs.filterMap fun x =>
    if x.2.port ≠ h then none
    else
      match x.2.job, x.2.req.bind fun id => smGet s.reqs id with
      | some j, _ => some (x.2.part, Mark.host j.1 h)
      | none, some r => some (x.2.part, Mark.host r.p h)
      | none, none => none

end Sys2Proof.Machine
end

