-- ==== Sys2Proof/Machine/Request.lean ====
section
/-!
DEFINITION. Sys2Proof/Machine/Request.lean: the roads of a memory access out of an issue slice: the chuck (R120, R121), the
areas of a stash window (R103, R105), mapped lines (R106), the L0 (R227), the contrail (R74) and requests to a home slice
(R94, R421).
-/

namespace Sys2Proof.Machine

/-- Bytes of the sync area (R103). -/
def Crew.syncBytes (c : Crew) : Nat := 128 * ceilDiv c.sync 8

/-- D, the offset of the sync area (R103). -/
def Crew.dOff (c : Crew) : Nat := c.stash - c.syncBytes - 2048 * c.chan - c.m

/-- S - M, the offset of the mapped area (R103). -/
def Crew.mOff (c : Crew) : Nat := c.stash - c.m

/-- Address in memory of a window offset (R102). -/
def Crew.stashAt (c : Crew) (off : Nat) : Nat := stashAddr c.p (c.base + off)

/-- Address in memory of a barrier object (R342). -/
def Crew.barAt (c : Crew) (i : Nat) : Nat := c.stashAt (c.dOff + 16 * i)

/-- What R105 says of a range of window offsets: bounds and the channel area; `wr` a thread store. -/
def Crew.stashFault (c : Crew) (off n : Nat) (wr : Bool) : Option Cause :=
  let d := c.dOff
  let y := d + c.syncBytes
  firstErr
    [failIf (decide (c.stash < off + n)) cStashBounds,
     failIf (overlaps off (off + n) y (y + 2048 * c.chan)) cStashBounds,
     failIf (wr && overlaps off (off + n) d y) cSyncObjOverwrite]

/-- Whether an access overlaps a chuck entry (R120): the stash range by physical bytes, a global one by ASID. -/
def chuckHit (l : List Rng) (asid : Option (BitVec 16)) (lo hi : Nat) (dstOnly : Bool) : Bool :=
  l.any fun r => decide (r.asid = asid) && overlaps lo hi r.lo r.hi && (r.dst || !dstOnly)

/-- RANGE_LOCKED (R121). -/
def Cluster.locked (c : Cluster) (asid : Option (BitVec 16)) (lo n : Nat) (wr : Bool) : Bool :=
  chuckHit c.chuck asid lo (lo + n) (!wr)

/-- The mapped line of a physical stash byte (R106). -/
def Cluster.mline? (c : Cluster) (off : Nat) : Option MLine := smGet c.mapped (off / 128)

/-- Some line of a stash range is an orphan (R106). -/
def Cluster.orphan (c : Cluster) (off n : Nat) : Bool :=
  (List.range (n / 128 + 2)).any fun i =>
    match smGet c.mapped (off / 128 + i) with
    | some l => decide (l.st = 3) && decide (128 * (off / 128 + i) < off + n)
    | none => false

/-- The mask bits of the 32-byte granules that a range of a line touches (R106). -/
def granMask (off n : Nat) : BitVec 4 :=
  BitVec.ofNat 4 ((List.range 4).foldl (fun y i =>
    if overlaps (off % 128) (off % 128 + n) (32 * i) (32 * i + 32) then y + 2 ^ i else y) 0)

/-- Changes the mapped line of a physical stash byte. -/
def State.modMline (s : State) (p off : Nat) (f : MLine → MLine) : State :=
  s.modCluster p fun c => { c with mapped := smMod c.mapped (off / 128) f }

/-- A late fault falls due in a thread at its next clause boundary (R77, R380). -/
def State.dueTrap (s : State) (cid co lane : Nat) (t : TrapRec) : State :=
  s.modThread cid co lane fun th => { th with due := th.due ++ [t] }

/-- The record of a late translation fault (R77). -/
def lateTrap (cause : Cause) (addr trpc : W64) (ord : Nat) (inRgn : Bool) : TrapRec :=
  { cause := cause, addr := addr, trpc := trpc, rpc := 0, rslot := 0, skip := false, rank := 1, ord := ord, peer := none,
    inRgn := inRgn }

/-- The access of a thread waits for the fill of a mapped line (R106); an Empty line begins to fill. -/
def State.waitLine (s : State) (p : Nat) (w : MWait) : State :=
  let id := s.nextId
  (s.fresh.modCluster p fun c => { c with mwait := smSet c.mwait id w }).modMline p w.off fun l =>
    { l with st := if l.st = 0 then 1 else l.st, waiters := l.waiters ++ [id] }

/-- The cohort's region is open. -/
def State.inRegion (s : State) (cid co : Nat) : Bool :=
  match s.cohort? cid co with
  | some c => c.rgn.opened
  | none => false

/-- Whether a thread holds a contrail entry for the page of an address (R74). -/
def State.trailed (s : State) (cid co lane : Nat) (va : W64) : Bool :=
  match s.thread? cid co lane with
  | some th => th.contrail.any fun id =>
      match smGet s.reqs id with
      | some r => decide (vpnOf r.va = vpnOf va) && !r.host
      | none => false
  | none => false

/-- Changes the router of a site in a plane (R94). -/
def State.modRouter (s : State) (plane site : Nat) (f : Router → Router) : State :=
  let k := 4096 * plane + site
  { s with routers := smSet s.routers k (f (smGetD s.routers k Router.reset)) }

/-- The packet of a request, or of its reply, enters the local queue of a router (R96). -/
def State.enqueue (s : State) (plane site id : Nat) : State :=
  s.modRouter plane site fun r => { r with queue := r.queue ++ [id] }

/-- The request belongs to an instruction that makes one access for its bundle (R233): it waits without a contrail entry. -/
def State.oneForBundle (s : State) (r : Req) : Bool :=
  match r.pend.bind fun p => smGet s.pends p with
  | some p => p.bundle
  | none => false

/-- A request is an access of its thread's own, which joins the thread's contrail (R74); a prefetch (R239), a reduction group
(R251) and an access for a whole bundle (R233) leave no entry in it. -/
def State.trails (s : State) (r : Req) : Bool :=
  match r.op with
  | .pref _ | .group _ _ _ _ => false
  | _ => !s.oneForBundle r

/-- A request to one line that is not yet performed and has not joined a fill. -/
def Req.pendingAt (r : Req) : Bool := !r.reply && (r.stage = .inject || r.stage = .mesh || r.stage = .atSlice)

/-- Two requests are to one line. -/
def Req.sameLine (a b : Req) : Bool := decide (a.asid = b.asid) && decide (lineVa a.va = lineVa b.va)

/-- Requests that a cluster injected before have not been performed at a line: an access of its engines, of a mapped line or of
its clause fetch waits for them (R92). -/
def State.sourceBusy (s : State) (src : Option Nat) (asid : BitVec 16) (va : W64) : Bool :=
  s.reqs.any fun x => decide (some x.2.p = src) && !x.2.host && decide (x.2.asid = asid) && decide (lineVa x.2.va = lineVa va) &&
    x.2.pendingAt

/-! What goes out behind another request. -/

/-- Held requests that a request follows: those to its line that an earlier lane of its instruction, or its own thread, made
before (R235, R236). -/
def State.ahead (s : State) (id : Nat) (r : Req) : List Nat :=
  (s.reqs.filter fun x => decide (x.1 < id) && decide (x.2.stage = .held) && decide (x.2.cid = r.cid) && decide (x.2.co = r.co) &&
    (decide (x.2.lane = r.lane) || decide (x.2.trpc = r.trpc)) && x.2.sameLine r).map Prod.fst

/-- A request goes out behind one that a release holds back. -/
def FenceNext.follow (before id : Nat) : FenceNext → FenceNext
  | .send l => .send (if l.contains before then l ++ [id] else l)
  | n => n

/-- A request is held behind an earlier held one, and goes out after it. -/
def State.holdBehind (s : State) (before id : Nat) (r : Req) : State :=
  { s with reqs := smSet s.reqs id { r with stage := .held },
           pends := smMap (fun _ x => { x with fence := x.fence.map fun f => { f with next := f.next.follow before id } }) s.pends }

/-- A request leaves an issue slice: into the contrail behind an entry of its page (R74), to the host port (R421), behind a held
one (R236), or into the request mesh (R94). Its number is the present `nextId`. -/
def State.send (s : State) (r : Req) : State :=
  let id := s.nextId
  if r.host then
    let h : HostReq :=
      { req := some id, job := none, part := asidTag r.asid, port := s.vfPort (asidTag r.asid), addr := hostAddr r.va,
        wr := (match r.op with | .write _ => true | _ => false),
        n := (match r.op with | .read n _ => n | .write d => d.length | _ => 0), flushed := false }
    let out := match r.op with
      | .write d => s.hostOut ++ [(asidTag r.asid, hostAddr r.va, d)]
      | _ => s.hostOut
    { s.fresh with reqs := smSet s.reqs id { r with stage := .mesh }, hostReqs := smSet s.hostReqs id h, hostOut := out }
  else if s.trails r && s.trailed r.cid r.co r.lane r.va then
    ({ s.fresh with reqs := smSet s.reqs id { r with stage := .replay } }).modThread r.cid r.co r.lane fun th =>
      { th with contrail := th.contrail ++ [id] }
  else
    match (s.ahead id r).getLast? with
    | some b => s.fresh.holdBehind b id r
    | none => ({ s.fresh with reqs := smSet s.reqs id { r with stage := .inject, inj := id } }).enqueue 0 (clusterSite r.p) id

/-- A request with the fields every one starts with. -/
def mkReq (s : State) (p sl cid co lane : Nat) (pend : Option Nat) (asid : BitVec 16) (va : W64) (op : ReqOp) (hint : Nat)
    (trpc : W64) (inRgn : Bool) : Req :=
  { p := p, sl := sl, cid := cid, co := co, lane := lane, pend := pend, asid := asid, va := va, op := op, hint := hint,
    home := (s.home asid va).getD 0, stage := .inject, trpc := trpc, ord := s.nextId, data := [], pz := false, txn := none,
    got := [], reply := false, lost := 0, host := inHost va, inRgn := inRgn,
    inj := 0, err := none, line := none }

/-- The L0 line of an address (R227). -/
def IssueSt.l0Line? (i : IssueSt) (asid : BitVec 16) (va : W64) : Option L0Line :=
  i.l0.find? fun l => decide (l.asid = asid) && decide (l.va = lineVa va)

/-- Changes the L0 line of an address. -/
def IssueSt.modL0 (i : IssueSt) (asid : BitVec 16) (va : W64) (f : L0Line → L0Line) : IssueSt :=
  { i with l0 := i.l0.map fun l => if l.asid = asid && l.va = lineVa va then f l else l }

/-- Lines leave the L0s of a cluster. -/
def Cluster.dropL0 (c : Cluster) (p : L0Line → Bool) : Cluster :=
  { c with sl := c.sl.map fun i => { i with l0 := i.l0.filter fun l => !p l } }

/-- Bytes and poison bits of an L0 line after a store through it (R53, R227). -/
def L0Line.write (l : L0Line) (off : Nat) (d : List Byte) : L0Line :=
  { l with data := putBytes l.data off d, pz := pzLine l.pz off d.length false }

/-- The bytes of a store pass through the L0 of its issue slice (R227): a present line takes them, and holds a store not yet
performed; a line with W = 0 does not, for its store will be refused (R234). -/
def State.passL0 (s : State) (id : Nat) (r : Req) : State :=
  match r.op with
  | .write d =>
    s.modIssue (6 * r.p + r.sl) fun i => i.modL0 r.asid r.va fun l =>
      if l.w then { l.write (r.va.toNat % 128) d with inflight := nsAdd id l.inflight } else l
  | _ => s

/-- A store that will not be performed: an L0 line that holds its bytes leaves the L0 (R77, R255). -/
def State.dropStored (s : State) (id : Nat) (r : Req) : State :=
  match r.op with
  | .write _ => s.modIssue (6 * r.p + r.sl) fun i => { i with l0 := i.l0.filter fun l => !l.inflight.contains id }
  | _ => s

/-- Requests that are given up. -/
def State.dropReqs (s : State) (gone : Req → Bool) : State :=
  forL (s.reqs.filter fun x => gone x.2) { s with reqs := smFilter (fun _ r => !gone r) s.reqs } fun x s => s.dropStored x.1 x.2

/-- A request goes out again, or when what held it back is over: the bytes of a store pass through the L0 anew (R74, R257). -/
def State.sendAgain (s : State) (id : Nat) (r : Req) : State :=
  let s := s.passL0 id r
  ({ s.fresh with reqs := smSet s.reqs id { r with stage := .inject, inj := s.nextId, txn := none, got := [], reply := false,
                                                   home := (s.home r.asid r.va).getD 0 } }).enqueue 0 (clusterSite r.p) id

/-- A held request goes out: into the contrail where its thread holds an entry for its page (R74), otherwise into the mesh. -/
def State.sendHeld (s : State) (id : Nat) : State :=
  match smGet s.reqs id with
  | none => s
  | some r =>
    if s.trails r && s.trailed r.cid r.co r.lane r.va then
      ({ s with reqs := smSet s.reqs id { r with stage := .replay } }).modThread r.cid r.co r.lane fun th =>
        { th with contrail := th.contrail ++ [id] }
    else s.sendAgain id r

/-- A store to global memory goes out: the bytes update a present L0 line and a request carries them (R227, R234). -/
def State.storeOut (s : State) (p sl cid co lane : Nat) (pend : Option Nat) (asid : BitVec 16) (va : W64) (d : List Byte)
    (hint : Nat) (trpc : W64) (inRgn : Bool) : State :=
  let r := mkReq s p sl cid co lane pend asid va (.write d) hint trpc inRgn
  (s.passL0 s.nextId r).send r

/-- The window offset of a physical stash byte in a crew. -/
def State.windowOff (s : State) (cid off : Nat) : W64 := BitVec.ofNat 64 (off - ((smGet s.crews cid).map Crew.base).getD 0)

/-- Bytes stored into the stash by a thread, at a physical stash offset of cluster `p`: into a Valid mapped line with its
dirty mask; waiting for a fill; or into plain stash (R106, R234). `pend` names the result whose SETB follows. -/
def State.stashStore (s : State) (p cid co lane : Nat) (pend : Option Nat) (off : Nat) (d : List Byte) (trpc : W64)
    (inRgn : Bool) : State :=
  let done (s : State) : State := match pend with | some id => s.performLane id lane | none => s
  let put (s : State) : State := s.writeBytes (stashAddr p off) d false
  match (s.cluster p).mline? off with
  | none => done (put s)
  | some l =>
    if l.st = 2 then
      if l.w then done (put (s.modMline p off fun l => { l with mask := l.mask ||| granMask off d.length }))
      else done (s.dueTrap cid co lane (lateTrap cPagePerm (s.windowOff cid off) trpc s.nextId inRgn)).fresh
    else if l.st = 3 then done (s.dueTrap cid co lane (lateTrap cStashOrphan (s.windowOff cid off) trpc s.nextId inRgn)).fresh
    else
      s.waitLine p { cid := cid, co := co, lane := lane, pend := pend.getD 0, off := off, op := .write d, ty := .b32,
                     sz := d.length, sx := pend.isSome, req := none, trpc := trpc, ord := s.nextId, inRgn := inRgn }

end Sys2Proof.Machine
end

