-- ==== Sys2Proof/Machine/Region.lean ====
section
/-!
DEFINITION. Sys2Proof/Machine/Region.lean: opening, closing, committing and restarting a cohort's region (R363 to R371).
-/

namespace Sys2Proof.Machine

/-- What a thread goes back to when a region opens now (R364). -/
def Thread.start (th : Thread) : Start :=
  { pc := th.pc, slot := th.slot, resumed := th.resumed, holds := th.holds, v := th.v, k := th.k, f := th.f, tok := th.tok,
    grp := th.grp }

/-- A slot within a clause at which a region opens (R364): the clause, the lanes that go on at a slot, each with its slot,
and the clause's raise, which preceded the region (R369). -/
structure Midway where
  pc : W64
  slots : List (Nat × Nat)
  tok : Nat × Nat × Nat
  deriving DecidableEq, Repr, Inhabited

/-- The opening of a region (R364): the lanes whose header opens it (RGN 01 or 11), and the slot within a clause where it
does not open at a clause boundary. -/
structure Opening where
  header : BitVec 32
  mid : Option Midway
  deriving DecidableEq, Repr, Inhabited

/-- The start state of a thread of the bundle that goes on within its clause (R364). -/
def Midway.start (m : Midway) (lane : Nat) (st : Start) : Start :=
  match smGet m.slots lane with
  | some i => { st with pc := m.pc, slot := i, resumed := true, tok := some m.tok }
  | none => st

/-- The place of the rest of a run at a slot: its lanes at the slot, and those that enter the clause later. -/
def Run.midway (r : Run) (lanes : BitVec 32) (slot : Nat) : Midway :=
  { pc := r.hpc, slots := (lanesOf lanes).map (fun i => (i.val, slot)) ++ r.late,
    tok := (r.tok, fld r.hdr 39 36, fld r.hdr 35 32) }

/-- Opens a cohort's region (R363, R364); `count` when `%rgnid` counts the opening. -/
def State.openRegion (s : State) (cid co : Nat) (explicit : Bool) (o : Opening) : State :=
  let first := s.nextId
  s.modCohort cid co fun c =>
    let starts := (List.finRange 32).map fun (i : Fin 32) =>
      let st := (c.threads[i]).start
      match o.mid with
      | some m => m.start i.val st
      | none => st
    { c with
      rgnCount := if explicit then c.rgnCount + 1 else c.rgnCount
      rgn := { opened := true, explicit := explicit, reopen := false, starts := starts, s := c.s, j := c.j, tile := c.tile,
               stores := [], first := first, suspect := false, restarts := if explicit then 0 else c.rgn.restarts,
               openers := o.header, again := 0 } }

/-- Pending parts of a cohort's reductions folded into the committed parts (R249). -/
def RedEnt.commit (e : RedEnt) : RedEnt :=
  { e with
    done := forL e.pending e.done fun x m =>
      match combine e.opx e.pro e.ty (smGet m x.1) (some x.2) with
      | some v => smSet m x.1 v
      | none => m
    pending := [] }

/-- The byte of a buffer at an address: the latest store's (R235, R237). -/
def bufferByte (l : List RStore) (stash : Bool) (a : Nat) : Option Byte :=
  l.foldl (fun b x =>
    if decide (x.stash = stash) && decide (x.addr.toNat ≤ a) && decide (a < x.addr.toNat + x.data.length) then
      x.data[a - x.addr.toNat]?
    else b) none

/-- The bytes of a range that a buffer holds (R232, R237). -/
def bufferBytes (l : List RStore) (stash : Bool) (a n : Nat) : List (Option Byte) :=
  (List.range n).map fun i => bufferByte l stash (a + i)

/-- Stores of a region buffer leave it, oldest first, each with its own bytes, so that no part of one is seen without the rest
(R5, R235, R367 step 1; log 18). -/
def State.drainStores (s : State) (p sl cid co : Nat) (asid : BitVec 16) (l : List RStore) : State :=
  forL l s fun x s =>
    if x.stash then s.stashStore p cid co x.lane none x.addr.toNat x.data x.trpc false
    else s.storeOut p sl cid co x.lane none asid x.addr x.data x.hint.toNat x.trpc false

/-- Commits a cohort's region (R367); nothing when none is open. An implicit close leaves an explicit region to be opened
again (R363). -/
def State.commitRegion (s : State) (cid co : Nat) (implicit : Bool) : State :=
  match smGet s.crews cid, s.cohort? cid co with
  | some c, some h =>
    if !h.rgn.opened then s
    else
      let again := implicit && h.rgn.explicit
      let s := s.modCohort cid co fun h => { h with rgn := { Region.closed with reopen := again } }
      let s := s.drainStores c.p h.slice cid co (asidOf c.part c.space) h.rgn.stores
      s.modIssue (6 * c.p + h.slice) fun i =>
        { i with red := i.red.map fun e => if e.cid = cid && e.co = co then e.commit else e }
  | _, _ => s

/-- Requests of a cohort that arose within its region and wait in a contrail are discarded (R368). -/
def State.dropTrail (s : State) (cid co first : Nat) : State :=
  { s with reqs := smFilter (fun _ r => !(decide (r.cid = cid) && decide (r.co = co) && r.inRgn && decide (first ≤ r.ord) &&
      (decide (r.stage = .contrail) || decide (r.stage = .replay)))) s.reqs }

/-- A thread returns to its start state (R368). -/
def Start.restore (st : Start) (first : Nat) (alive : State → Nat → Bool) (s : State) (th : Thread) : Thread :=
  { th with pc := st.pc, slot := st.slot, resumed := st.resumed, holds := st.holds, v := st.v, k := st.k, f := st.f,
            tok := st.tok, q := poisonQueue, trap := none, due := th.due.filter fun t => !(t.inRgn && decide (first ≤ t.ord)),
            contrail := th.contrail.filter fun id => alive s id, bpSkip := false, since := none, grp := st.grp }

/-- The flags of clauses that started before the region are as at its opening (R369). -/
def State.restoreToks (s : State) (cid co : Nat) (starts : List Start) (first : Nat) : State :=
  let inside (id : Nat) (t : Tok) : Bool := decide (t.cid = cid) && decide (t.co = co) && decide (first ≤ id)
  let s := { s with toks := smFilter (fun id t => !inside id t) s.toks }
  forL (starts.zipIdx) s fun x s =>
    match x.1.tok with
    | none => s
    | some (id, a, b) =>
      let t := smGetD s.toks id { cid := cid, co := co, seta := a, setb := b, la := 0, lb := 0, ended := false }
      let m := laneBit x.2
      { s with toks := smSet s.toks id { t with ended := false, la := if a < 12 then t.la ||| m else t.la,
                                                lb := if b < 12 then t.lb ||| m else t.lb } }

/-- The clause in progress of a cohort is abandoned (R370). -/
def State.dropRun (s : State) (cid co : Nat) : State :=
  match smGet s.crews cid, s.cohort? cid co with
  | some c, some h =>
    let s := s.modIssue (6 * c.p + h.slice) fun i =>
      { i with run := i.run.filter fun r => !(decide (r.cid = cid) && decide (r.co = co)) }
    s.modCohort cid co fun h => { h with parked := none, closing := false, closeOwn := none, ready := false }
  | _, _ => s

/-- Restarts a cohort's region (R368). With no region open only the clause in progress is given up. -/
def State.restartRegion (s : State) (cid co : Nat) (suspect : Bool) : State :=
  match smGet s.crews cid, s.cohort? cid co with
  | some c, some h =>
    let s := s.dropRun cid co
    if !h.rgn.opened then s
    else
      let g := h.rgn
      let s := { s with pends := smMap (fun id p =>
        if p.cid = cid && p.co = co && g.first ≤ id then { p with dead := true } else p) s.pends }
      let s := (s.dropTrail cid co g.first).restoreToks cid co g.starts g.first
      let drop (e : RedEnt) : RedEnt := if e.cid = cid && e.co = co then { e with pending := [] } else e
      let s := s.modIssue (6 * c.p + h.slice) fun i =>
        { i with red := (i.red.map drop).filter fun e => !(e.done.isEmpty && e.pending.isEmpty) }
      let alive (s : State) (id : Nat) : Bool := (smGet s.reqs id).isSome
      s.modCohort cid co fun h =>
        { h.mapThreads fun i th =>
            match g.starts[i.val]? with
            | some st => if th.live then st.restore g.first alive s th else th
            | none => th with
          s := g.s, j := g.j, tile := g.tile, opc := []
          rgn := { g with opened := g.explicit, stores := [], suspect := false,
                          restarts := if suspect then g.restarts + 1 else g.restarts, again := g.openers } }
  | _, _ => s

/-- What a close comes to (R366). -/
inductive Close where
  | wait
  | restart
  | commit
  deriving DecidableEq, Repr

/-- An access of a lane waits in its thread's contrail (R366 step 1). -/
def State.inTrail (s : State) (id : Nat) (th : Thread) : Bool :=
  th.contrail.any fun r =>
    match smGet s.reqs r with
    | some x => decide (x.pend = some id)
    | none => false

/-- A result of the region is still to be delivered (R366 step 1); `own` is the clause whose own slots are exempt, but for
results that are checked (R366, an sfu clause). -/
def State.undelivered (s : State) (cid co first : Nat) (own : Option Nat) (h : Cohort) : Bool :=
  s.pends.any fun x =>
    let p := x.2
    decide (p.cid = cid) && decide (p.co = co) && decide (first ≤ x.1) && !p.dead &&
      !(decide (own = some p.tok) && !p.checked) &&
      (List.finRange 32).any fun i => p.waitRes.getLsbD i && !s.inTrail x.1 h.threads[i]

/-- The decision of a close (R366): the results of the region are checked then, and whether a check fails is free (R372; log 2). -/
def State.closeDecision (s : State) (cid co : Nat) (own : Option Nat) : Close :=
  match smGet s.crews cid, s.cohort? cid co with
  | some c, some h =>
    if !h.rgn.opened then .commit
    else if s.undelivered cid co h.rgn.first own h || (s.cluster c.p).suspect then .wait
    else if h.rgn.suspect || Config.checkFails s.tick then .restart
    else .commit
  | _, _ => .commit

/-- A restart for a suspect result: the ninth is a fatal fault (R371). A result whose check failed is a detected silent error of its
unit, a result produced in a suspect window is none (R372). -/
def State.suspectRestart (s : State) (cid co : Nat) : State :=
  match smGet s.crews cid, s.cohort? cid co with
  | some c, some h =>
    let s := if h.rgn.suspect then s else s.silentError c.p (Config.failedUnit s.tick % 3)
    if 8 ≤ h.rgn.restarts then ((s.dropRun cid co).fatal cid cSuspectReplayLimit 0 0) else s.restartRegion cid co true
  | _, _ => s

/-- Marks the region of a cohort suspect when a result is produced in a suspect window (R372, R391). -/
def State.noteSuspect (s : State) (p cid co : Nat) : State :=
  if (s.cluster p).suspect then
    s.modCohort cid co fun h => if h.rgn.opened then { h with rgn := { h.rgn with suspect := true } } else h
  else s

end Sys2Proof.Machine
end

