-- ==== Sys2Proof/Machine/Slot.lean ====
section
/-!
DEFINITION. Sys2Proof/Machine/Slot.lean: an instruction slot of the bundle that an issue slice executes: its checks (R42,
R43, R381), its executing and passive threads (R29), the region close before it (R365, R366), its operands (R33 to R35),
the placing of its results (R36 to R38, R133), precise faults (R377), and the end of the clause (R22).
-/

namespace Sys2Proof.Machine

/-- CNT of a header (R19). -/
def hdrCnt (h : W64) : Nat := fld h 55 52
/-- CLS (R19). -/
def hdrCls (h : W64) : Nat := fld h 59 56
/-- RGN (R19). -/
def hdrRgn (h : W64) : Nat := fld h 15 14
/-- YLD (R19). -/
def hdrYld (h : W64) : Bool := h.getLsbD 13
/-- SETA (R19). -/
def hdrSeta (h : W64) : Nat := fld h 39 36
/-- SETB (R19). -/
def hdrSetb (h : W64) : Nat := fld h 35 32
/-- WAIT (R19). -/
def hdrWait (h : W64) : BitVec 12 := h.extractLsb' 40 12
/-- BPM (R19). -/
def hdrBpm (h : W64) : BitVec 16 := h.extractLsb' 16 16

/-- NEXT, the fall-through clause (R18, R308). -/
def Run.next (r : Run) : W64 := r.hpc + BitVec.ofNat 64 (8 * (hdrCnt r.hdr + 2))

/-- An instruction slot as its bundle executes it. -/
structure Slot where
  /-- Issue slice, cluster, slice of the cluster, crew and cohort. -/
  k : Nat
  p : Nat
  sl : Nat
  cid : Nat
  co : Nat
  o : Op
  f : Fields
  run : Run
  crew : Crew
  coh : Cohort
  /-- Threads of the bundle, and those in which the instruction executes (R29). -/
  lanes : BitVec 32
  ex : BitVec 32
  /-- Operand values by lane (R33). -/
  a : Vector Val 32
  b : Vector Val 32
  c : Vector Val 32
  /-- Time latches after the reads (R33). -/
  lat : Vector W64 32
  deriving Repr

/-- ASID of the crew's space (R55). -/
def Slot.asid (x : Slot) : BitVec 16 := asidOf x.crew.part x.crew.space

/-- `%trpc` of the slot (R144). -/
def Slot.trpc (x : Slot) : W64 := trpcOf x.run.hpc x.run.slot

/-- Slots the instruction takes (R18). -/
def slotLen (f : Fields) : Nat := if f.usesLit then 2 else 1

/-- The instruction stands in the last instruction slot (R25). -/
def Slot.last (x : Slot) : Bool := decide (hdrCnt x.run.hdr < x.run.slot + slotLen x.f)

/-- A precise fault of the slot being executed (R321, R378). -/
def preciseTrap (r : Run) (cause : Cause) (addr : W64) : TrapRec :=
  { cause := cause, addr := addr, trpc := trpcOf r.hpc r.slot, rpc := r.hpc, rslot := r.slot, skip := true, rank := 0,
    ord := 0, peer := none, inRgn := true }

/-- Threads leave the clause with a trap to be entered at its end (R377, R378). -/
def State.trapLanes (s : State) (k cid co : Nat) (m : BitVec 32) (t : Fin 32 → TrapRec) : State :=
  if m = 0 then s
  else (s.modLanes cid co m fun i th => { th with trap := some (t i) }).modRun k fun r => { r with lanes := r.lanes &&& ~~~m }

/-- Lanes of a mask that satisfy a test. -/
def laneFilter (m : BitVec 32) (p : Fin 32 → Bool) : BitVec 32 :=
  BitVec.ofNat 32 ((lanesOf m).foldl (fun y i => if p i then y + 2 ^ i.val else y) 0)

/-- A predicate value (R29, R131). -/
def Thread.pred (th : Thread) (n : Nat) : Bool := if n = 0 then true else (th.k[n]?.getD default).v

/-- A poisoned predicate (R39). -/
def Thread.predPoison (th : Thread) (n : Nat) : Bool := decide (n ≠ 0) && (th.k[n]?.getD default).p

/-- The channel that a selector is bound to (R140). -/
def chanOf (h : Cohort) : Sel → Option Nat
  | .ch i => h.ch[i]
  | _ => none

/-- The word an operand pops: the channel's word after those that earlier operands pop (R33, R140). -/
def popWord (c : Crew) (h : Cohort) (before : List Sel) (x : Sel) : Option (Vector QEnt 32) :=
  (chanOf h x).bind fun n =>
    ((c.chans[n]?).bind fun ch => ch.words[(before.filter fun y => chanOf h y = some n).length]?)

/-- What the specials read (R136). -/
def specEnv (s : State) (c : Crew) (tile : Nat) (co : Nat) (lane : Nat) (latch : W64) : SpecEnv :=
  { lane := lane, cohort := co, nx := c.nx, ny := c.ny, nz := c.nz, cx := c.cx, cy := c.cy, cz := c.cz,
    cluster := c.lcl, tile := tile, depth := c.depth, time := s.time, latch := latch }

/-- One source operand in every lane, and the time latches after it (R33). -/
def readLanes (s : State) (c : Crew) (h : Cohort) (tile co : Nat) (lat : Vector W64 32) (w : Option (Vector QEnt 32)) (f : Fmt)
    (lit : W64) (x : Sel) : Vector Val 32 × Vector W64 32 :=
  (Vector.ofFn fun i => readSel h.threads[i] h.s (specEnv s c tile co i.val lat[i]) w f lit x,
   Vector.ofFn fun i => latchAfter x s.time lat[i])

/-- The issue slice gives up its slot until the close that the instruction needs has been made (R366). -/
def State.park (s : State) (k cid co : Nat) (r : Run) : State :=
  (s.modIssue k fun i => { i with run := none }).modCohort cid co fun h => { h with closing := true, closeOwn := some r.tok, parked := some r, rgn := { h.rgn with reopen := true } }

/-- What stands before an instruction's own effect: the bundle, on a cluster that has not halted (R442), the encoding checks (R42), poisoned predicates, the region
close (R365), and the operands. An error is the state in which the slot has ended without its effect. -/
def openSlot (o : Op) (f : Fields) (s : State) : Except State (State × Slot) :=
  match s.cur with
  | none => .error s
  | some k =>
    if (s.cluster (k / 6)).halted then .error s else
    match (s.issue k).run with
    | none => .error s
    | some r =>
      match smGet s.crews r.cid, s.cohort? r.cid r.co with
      | some c, some h =>
        let env : Env := { regs := c.regs, bound := fun i => h.ch[i].isSome }
        match encFault env (decide (c.part = Config.svcTag)) o f with
        | some cause => .error (s.trapLanes k r.cid r.co r.lanes fun _ => preciseTrap r cause 0)
        | none =>
          let pz := laneFilter r.lanes fun i => (h.threads[i]).predPoison f.pk.val
          let s := s.trapLanes k r.cid r.co pz fun _ => preciseTrap r cPoisonUse 0
          let lanes := r.lanes &&& ~~~pz
          if lanes = 0 then .error s
          else
            let go (s : State) : Except State (State × Slot) :=
              let sp := opSpec o f
              let ex := laneFilter lanes fun i => (h.threads[i]).pred f.pk.val != f.pn
              let lat := Vector.ofFn fun i => (h.threads[i]).latch
              let (a, lat) := readLanes s c h r.tile r.co lat (popWord c h [] f.a.sel) (SrcSpec.fmt sp.a) f.lit f.a.sel
              let (b, lat) := readLanes s c h r.tile r.co lat (popWord c h [f.a.sel] f.b.sel) (SrcSpec.fmt sp.b) f.lit f.b.sel
              let (d, lat) := readLanes s c h r.tile r.co lat (popWord c h [f.a.sel, f.b.sel] f.c.sel) (SrcSpec.fmt sp.c) f.lit f.c.sel
              .ok (s, { k := k, p := k / 6, sl := k % 6, cid := r.cid, co := r.co, o := o, f := f, run := r, crew := c,
                        coh := h, lanes := lanes, ex := ex, a := a, b := b, c := d, lat := lat })
            if needsClose o f then
              match s.closeDecision r.cid r.co (some r.tok) with
              | .wait => .error (s.park k r.cid r.co { r with lanes := lanes })
              | .restart => .error (s.suspectRestart r.cid r.co)
              | .commit => go (s.commitRegion r.cid r.co true)
            else go s
      | _, _ => .error s

/-- Predicate that an instruction writes beside its destination, 0 for none: CK of `addc` and `subb`, LK of `launch` and
`chn.try` (R171, R323, R358). -/
def linkK (o : Op) (f : Fields) : Nat :=
  match o with
  | .addc | .subb | .launch => f.mod.toNat % 8
  | .chnTry => f.mod.toNat / 8
  | _ => 0

/-- The operation has a per-thread result of its own (R36, R133). -/
def hasResult (o : Op) (f : Fields) : Bool :=
  match (opSpec o f).dst with
  | .no => false
  | _ => true

/-- The instruction pushes an entry onto the queues (R36, R133). -/
def pushes (o : Op) (f : Fields) : Bool :=
  hasResult o f && (match f.dst with | .v _ | .none => true | _ => false)

/-- Registers that a destination of a width spans. -/
def dstSpan (o : Op) (f : Fields) : Nat :=
  match (opSpec o f).dst with
  | .quad => 4
  | .link => 2
  | .res w _ => if w then 2 else 1
  | .no => 0

/-- The numbers of `n` registers from a selector: v registers, then k registers, then s registers. -/
def regNos (x : Sel) (n : Nat) : List Nat :=
  match x with
  | .v i => (List.range n).map fun j => i.val + j
  | .k i => [64 + i.val]
  | .s i => (List.range n).map fun j => 72 + i.val + j
  | _ => []

/-- The registers that an instruction writes (R36, R171, R323, R358). -/
def opDests (o : Op) (f : Fields) : List Nat :=
  regNos f.dst (dstSpan o f) ++ (if linkK o f = 0 then [] else [64 + linkK o f])

/-- The registers that a result still to come is to write. -/
def Pend.regs (p : Pend) : List Nat :=
  regNos p.dst p.width ++ (match p.kdst with | some k => [64 + k] | none => [])

/-- A later slot of the clause writes some registers in some lanes, which the result then leaves alone: writes to one register
take effect in program order (R135). -/
def Pend.outdate (p : Pend) (ex : BitVec 32) (l : List Nat) : Pend :=
  { p with stale := p.stale ++ (p.regs.filter fun n => l.contains n).map fun n => (n, ex) }

/-- A register that a result no longer writes in a lane (R135). -/
def Pend.isStale (p : Pend) (n lane : Nat) : Bool := p.stale.any fun y => y.1 = n && y.2.getLsbD lane

/-- A cohort's instruction writes some registers in some lanes: results of earlier slots, that of the instruction apart, leave
them alone (R135). -/
def State.outdate (s : State) (cid co : Nat) (ex : BitVec 32) (l : List Nat) (own : Option Nat) : State :=
  { s with pends := smMap (fun id p =>
      if p.cid = cid && p.co = co && decide (own ≠ some id) then p.outdate ex l else p) s.pends }

/-- How a result is placed: none, at once, or later under a result number with its width in registers. -/
inductive Placed where
  | none
  | now (wide : Bool) (vals : Vector Val 32)
  | late (id : Nat) (wide : Bool)

/-- A register read touches the operand cache (R137): a hit, or one with K set, becomes most recent. -/
def touchOpc (k : Bool) (opc : List Nat) (n : Nat) : List Nat :=
  if opc.contains n || k then (n :: opc.filter (· != n)).take 4 else opc

/-- A source's read from the operand cache or its banks (R137, R138): cache, banks read, queue reads, extra cycles. The
registers of a pair stand one by one in the cache, low half first, and are one read of their banks (log 31). -/
def readCost (span : Nat) (x : Src) (st : List Nat × List Nat × Nat × Nat) : List Nat × List Nat × Nat × Nat :=
  let (opc, banks, olds, cost) := st
  match x.sel with
  | .v i =>
    let regs := (List.range span).map fun j => i.val + j
    let miss := (regs.filter fun n => !opc.contains n).map fun n => n % 4
    let opc := regs.foldl (touchOpc x.k) opc
    (if x.l then opc.filter (fun n => !regs.contains n) else opc, miss ++ banks, olds,
      if miss.any fun b => banks.contains b then cost + 1 else cost)
  | .t i => if 3 ≤ i.val then (opc, banks, olds + 1, if olds = 0 then cost else cost + 1) else st
  | _ => st

/-- Extra slice cycles of an operation (R168, R200). -/
def opExtra (o : Op) (f : Fields) (tile : Nat) : Nat :=
  let w := Ty.wide f.ty
  match o with
  | .mul | .mulh | .mad => if w then 3 else 0
  | .mxq => 2
  | .lea => 1
  | .cvt => if w || (cvtSource (f.mod.toNat / 8)).wide then 1 else 0
  | .redx | .scanx => if w then 2 * Nat.log2 tile else Nat.log2 tile
  | .xpose => if f.mod = 0 then tile else if f.mod = 1 then tile / 2 else tile / 4
  | _ =>
    match o.code / 64 with
    | 1 | 2 | 3 | 4 => if w then 1 else 0
    | _ => 0

/-- Removes the first `n` words of a channel; a block returns when its words are popped (R356). -/
def Chan.pop (ch : Chan) (n : Nat) : Chan :=
  let homes := ch.homes.drop n
  { ch with words := ch.words.drop n, homes := homes, blocks := ch.blocks.filter fun b => b.2 = 0 || homes.contains b.1 }

/-- Where a pushed word is kept: the stash while it holds fewer than 16, else the first block not yet filled, else the first
with a place free (R355, R356). Which block is DEDUCED (log 19). -/
def Chan.place (ch : Chan) : Nat :=
  if ch.homes.count 0 < 16 then 0
  else ((ch.blocks.find? fun b => decide (b.2 < 16)).map Prod.fst).getD
    (((ch.blocks.find? fun b => decide (ch.homes.count b.1 < 16)).map Prod.fst).getD 0)

/-- A word is pushed (R355). -/
def Chan.push (ch : Chan) (w : Vector QEnt 32) : Chan :=
  { words := ch.words ++ [w], homes := ch.homes ++ [ch.place],
    blocks := ch.blocks.map (fun b => if b.1 = ch.place then (b.1, b.2 + 1) else b), wait := none }

/-- A channel takes a free block (R356). -/
def Chan.grow (ch : Chan) : Chan :=
  { ch with blocks := ch.blocks ++ [((ch.blocks.foldl (fun n b => max n b.1) 0) + 1, 0)], wait := none }

/-- Words popped from each channel by the sources of an instruction (R33). -/
def popsOf (h : Cohort) (f : Fields) (n : Nat) : Nat :=
  ([f.a.sel, f.b.sel, f.c.sel].filter fun x => chanOf h x = some n).length

/-- The word that a channel destination receives (R29, R140): lanes of executing threads, poison elsewhere. -/
def chanWord (ex : BitVec 32) (g : Fin 32 → QEnt) : Vector QEnt 32 :=
  Vector.ofFn fun i => if ex.getLsbD i then g i else QEnt.poison

/-- Channel words pushed and popped by an instruction (R140). -/
def State.chanMove (s : State) (x : Slot) (push : Option (Vector QEnt 32)) : State :=
  s.modCrew x.cid fun c =>
    { c with chans := Vector.ofFn fun n =>
        let ch := c.chans[n]
        let m := popsOf x.coh x.f n.val
        let ch := if m = 0 then ch else ch.pop m
        match push with
        | some w => if chanOf x.coh x.f.dst = some n.val then ch.push w else ch
        | none => ch }

/-- What the slot leaves in one of its threads: last uses, time latch, result or passive push (R29, R35, R36, R133). -/
def threadAfter (x : Slot) (res : Placed) (i : Fin 32) (th : Thread) : Thread :=
  if x.ex.getLsbD i then
    let sp := opSpec x.o x.f
    let v := lastUse x.f.a (SrcSpec.span sp.a) th.v
    let v := lastUse x.f.b (SrcSpec.span sp.b) v
    let v := lastUse x.f.c (SrcSpec.span sp.c) v
    let th := { th with v := v, latch := x.lat[i] }
    match res with
    | .none => th
    | .now wide vals => placeResult x.f wide vals[i] th
    | .late id _ =>
      match x.f.dst with
      | .v _ | .none => { th with q := pushQ th.q { val := 0, p := true, tr := x.f.dstT, pend := some id } }
      | _ => th
  else
    match res with
    | .none => th
    | .now wide _ | .late _ wide => placePassive x.f wide th

/-- The uniform destination of a result that is known at once (R38). -/
def uniformAfter (x : Slot) (res : Placed) (h : Cohort) : Cohort :=
  match res, x.f.dst with
  | .now wide vals, .s i => { h with s := writeS h.s i.val wide ((((lanesOf x.lanes).head?).map fun l => vals[l]).getD Val.poison) }
  | _, _ => h

/-- The word a channel destination receives now (R140). -/
def pushedWord (x : Slot) (res : Placed) : Option (Vector QEnt 32) :=
  match res, x.f.dst with
  | .now _ vals, .ch _ => some (chanWord x.ex fun i => qEnt vals[i] false)
  | .late id _, .ch _ => some (chanWord x.ex fun _ => { val := 0, p := true, tr := false, pend := some id })
  | _, _ => none

/-- After a slot that closed the region, the region opens again at the next slot of the clause (R363); after the last slot
an explicit region opens at the next clause boundary. -/
def State.reopenSlot (s : State) (x : Slot) : State :=
  match (s.issue x.k).run, s.cohort? x.cid x.co with
  | some r, some h =>
    if needsClose x.o x.f && !h.rgn.opened && !x.last && decide (r.lanes ≠ 0) then
      s.openRegion x.cid x.co h.rgn.reopen { header := 0, mid := some (r.midway r.lanes r.slot) }
    else s
  | _, _ => s

/-- The reads of a slot's sources, A first (R137, R138): operand cache, banks, queue reads and extra cycles. -/
def Slot.reads (x : Slot) : List Nat × List Nat × Nat × Nat :=
  let sp := opSpec x.o x.f
  readCost (SrcSpec.span sp.c) x.f.c
    (readCost (SrcSpec.span sp.b) x.f.b (readCost (SrcSpec.span sp.a) x.f.a (x.coh.opc, [], 0, 0)))

/-- The end of a slot for the threads that stay in the clause: results are placed in them, channels move, and the bundle goes
on to the next instruction slot. -/
def finishGood (x : Slot) (res : Placed) (s : State) : State :=
  let (opc, _, _, cost) := x.reads
  let s := s.outdate x.cid x.co x.ex (opDests x.o x.f) (match res with | .late id _ => some id | _ => none)
  let s := s.modCohort x.cid x.co fun h =>
    { uniformAfter x res (h.mapThreads fun i th => if x.lanes.getLsbD i then threadAfter x res i th else th) with opc := opc }
  let s := s.chanMove x (pushedWord x res)
  let s := s.modRun x.k fun r =>
    { r with slot := r.slot + slotLen x.f, lanes := x.lanes, skips := r.skips &&& ~~~r.lanes, cost := r.cost + 1 + cost + opExtra x.o x.f x.coh.tile }
  let s := if isShort x.o then s.noteSuspect x.p x.cid x.co else s
  s.reopenSlot x

/-- The threads of a slot that take a trap. -/
def Slot.bad (x : Slot) (faults : List (Nat × TrapRec)) : BitVec 32 :=
  laneFilter x.lanes fun i => faults.any fun y => y.1 = i.val

/-- The trap that a thread takes. -/
def Slot.trapAt (x : Slot) (faults : List (Nat × TrapRec)) (i : Fin 32) : TrapRec :=
  ((faults.find? fun y => y.1 = i.val).map fun y => y.2).getD (preciseTrap x.run cPoisonUse 0)

/-- The slot for the threads that stay in the clause when those of a mask trap (R377). -/
def Slot.without (x : Slot) (m : BitVec 32) : Slot :=
  { x with lanes := x.lanes &&& ~~~m, ex := x.ex &&& (x.lanes &&& ~~~m) }

/-- The end of a slot: faulting threads leave the clause (R377), and the slot ends for the others. `faults` gives the trap of
each faulting lane. -/
def finishSlot (x : Slot) (faults : List (Nat × TrapRec)) (res : Placed) (s : State) : State :=
  let bad := x.bad faults
  let s := s.trapLanes x.k x.cid x.co bad (x.trapAt faults)
  if x.lanes &&& ~~~bad = 0 then s else finishGood (x.without bad) res s

/-- A slot whose effect is a function of its operands. -/
def runSlot (o : Op) (f : Fields) (s : State) (body : Slot → State → State) : Host.Outcome State Fault Refusal :=
  match openSlot o f s with
  | .error s => .next s
  | .ok (s, x) => .next (body x s)

/-- Traps of a cohort's threads that wait for the region close are entered (R378). -/
def State.enterTraps (s : State) (cid co : Nat) : State :=
  forN 32 s fun i s =>
    match s.thread? cid co i with
    | some th =>
      match th.trap with
      | some t => s.takeTrap cid co i t
      | none => s
    | none => s

/-- A close at a clause's end or at trap entry, decided (R366, R378): waited for, made, or turned into a restart. -/
def State.closeNow (s : State) (cid co : Nat) (own : Option Nat) (implicit : Bool) : State :=
  match s.closeDecision cid co own with
  | .wait => s.modCohort cid co fun h => { h with closing := true, closeOwn := own, rgn := { h.rgn with reopen := implicit } }
  | .restart => s.suspectRestart cid co
  | .commit => (s.commitRegion cid co implicit).enterTraps cid co

/-- The end of a clause (R22 steps 7 and 8, R23): its flags follow its results, the region closes when the clause or a trap
asks it, and the issue slice is free. -/
def State.endClause (s : State) (k : Nat) : State :=
  match (s.issue k).run with
  | none => s
  | some r =>
    match s.cohort? r.cid r.co with
    | none => s.modIssue k fun i => { i with run := none }
    | some h =>
      let s := s.modIssue k fun i => { i with run := none, cyc := i.cyc + max 4 r.cost }
      let s := { s with toks := smMod s.toks r.tok fun t => { t with ended := true } }
      let trapped := laneFilter (h.live ||| r.lanes) fun i => (h.threads[i]).trap.isSome
      let s := s.modLanes r.cid r.co (r.lanes ||| trapped) fun _ th => { th with yld := hdrYld r.hdr || r.yld, since := none }
      let s := s.settle r.tok
      let rgn10 := hdrRgn r.hdr = 2 ∧ r.lanes ≠ 0
      if h.rgn.opened && (!h.rgn.explicit || decide rgn10 || decide (trapped ≠ 0)) then
        s.closeNow r.cid r.co (some r.tok) (!decide rgn10)
      else s.enterTraps r.cid r.co

end Sys2Proof.Machine
end

