-- ==== Sys2Proof/Machine/Lane.lean ====
section
/-!
DEFINITION. Sys2Proof/Machine/Lane.lean: the shapes in which instruction slots compute: checks lane by lane or for the whole
bundle (R377), results lane by lane (R29, R39), and the threads that an instruction changes.
-/

namespace Sys2Proof

/-- Element width of the instruction's type (R30, R148). -/
def Fields.w (f : Fields) : Nat := (Machine.Ty.shape f.ty).1
/-- A number cut to that width. -/
def Fields.clip (f : Fields) (x : Nat) : W64 := BitVec.ofNat 64 (x % 2 ^ f.w)
/-- SAT of the integer arithmetic, PRO of `fmin` and `fmax` (R170, R179). -/
def Fields.sat0 (f : Fields) : Bool := f.mod.getLsbD 0
/-- RM of a floating instruction (R178). -/
def Fields.rm (f : Fields) : Nat := f.mod.toNat % 4
/-- SAT of a floating instruction (R178). -/
def Fields.sat2 (f : Fields) : Bool := f.mod.getLsbD 2
/-- MOD [3]: NA, NP, HALF, PRO (R178, R185, R197). -/
def Fields.m3 (f : Fields) : Bool := f.mod.getLsbD 3
/-- MOD [4]: NB, NC, EXC, CHK (R177, R178, R197). -/
def Fields.m4 (f : Fields) : Bool := f.mod.getLsbD 4

end Sys2Proof

namespace Sys2Proof.Machine

/-- The traps of executing lanes that fail a check (R377). -/
def Slot.faults (x : Slot) (g : Fin 32 → Option (Cause × W64)) : List (Nat × TrapRec) :=
  (lanesOf x.ex).filterMap fun i => (g i).map fun e => (i.val, preciseTrap x.run e.1 e.2)

/-- A check of an instruction that acts once per bundle: every thread of the bundle traps (R377). -/
def Slot.bundleFault (x : Slot) (e : Option Cause) : List (Nat × TrapRec) :=
  match e with
  | none => []
  | some c => (lanesOf x.lanes).map fun i => (i.val, preciseTrap x.run c 0)

/-- A cause without an address. -/
def atNull (e : Option Cause) : Option (Cause × W64) := e.map fun c => (c, 0)

/-- `%taddr` of a precise fault of an access or a transfer at an address: that address when the cause is found in the
address, 0 for every other cause (R56, R105, R144, R378): R144 calls `%taddr` the faulting address (DEDUCED, log 49). -/
def faultAddr (c : Cause) (a : W64) : W64 :=
  if c = cNoncanon ∨ c = cAddrWrap ∨ c = cPagePerm ∨ c = cMisaligned ∨ c = cRangeLocked ∨ c = cStashBounds ∨
    c = cStashOrphan ∨ c = cStashMapConflict ∨ c = cSyncObjOverwrite ∨ c = cPoisonStore then a else 0

/-- A cause at an address. -/
def atAddr (a : W64) (e : Option Cause) : Option (Cause × W64) := e.map fun c => (c, faultAddr c a)

/-- The lanes whose threads trap. -/
def badLanes (l : List (Nat × TrapRec)) : BitVec 32 := forL l 0 fun x m => m ||| laneBit x.1

/-- The executing lanes without those that trap. -/
def Slot.done (x : Slot) (l : List (Nat × TrapRec)) : BitVec 32 := x.ex &&& ~~~badLanes l

/-- A result in every lane. -/
def perLane (g : Fin 32 → Val) : Vector Val 32 := Vector.ofFn g

/-- The value of the lowest lane of the bundle, which every lane shares for a uniform operand (R38). -/
def Slot.uni (x : Slot) (v : Vector Val 32) : Val := (((lanesOf x.lanes).head?).map fun l => v[l]).getD Val.poison

/-- An instruction whose result in a lane is a value of its operands there, without faults. -/
def laneSlot (o : Op) (f : Fields) (wide : Bool) (s : State) (g : Slot → Fin 32 → Val) : Host.Outcome State Fault Refusal :=
  runSlot o f s fun x s => finishSlot x [] (.now wide (perLane (g x))) s

/-- A value computed from one operand; poison in, poison out (R39). -/
def lift1 (g : W64 → W64) (a : Val) : Val := if a.p then Val.poison else Val.ok (g a.v)

/-- A value computed from two operands (R39). -/
def lift2 (g : W64 → W64 → W64) (a b : Val) : Val := if a.p || b.p then Val.poison else Val.ok (g a.v b.v)

/-- A value computed from three operands (R39). -/
def lift3 (g : W64 → W64 → W64 → W64) (a b c : Val) : Val := if a.p || b.p || c.p then Val.poison else Val.ok (g a.v b.v c.v)

/-- A 32-bit number as a result. -/
def w32Val (n : Nat) : W64 := BitVec.ofNat 64 (n % 2 ^ 32)

/-- Changes the threads of some lanes of the slot's cohort. -/
def State.slotLanes (s : State) (x : Slot) (m : BitVec 32) (g : Fin 32 → Thread → Thread) : State :=
  s.modLanes x.cid x.co m g

end Sys2Proof.Machine
end

