-- ==== Sys2Proof/Machine/Wcb.lean ====
section
/-!
DEFINITION. Sys2Proof/Machine/Wcb.lean: peer entries (R277), packets that leave for a peer (R274, R275, R280, R294, R297)
and the drain of the write-combining buffer (R287, R288).
-/

namespace Sys2Proof.Machine

/-- V of a peer entry (R277). -/
def peerV (e : W64) : Bool := e.getLsbD 63
/-- ST: 0 UP, 1 RESET, 2 SILENT (R277). -/
def peerSt (e : W64) : Nat := fld e 62 61
/-- SEC (R277). -/
def peerSec (e : W64) : Nat := fld e 60 49
/-- SV (R277). -/
def peerSv (e : W64) : Bool := e.getLsbD 48
/-- MOD (R277). -/
def peerMod (e : W64) : Nat := fld e 47 37
/-- RTAG (R277). -/
def peerTag (e : W64) : Nat := fld e 36 27
/-- RSPACE (R277). -/
def peerSpace (e : W64) : Nat := fld e 26 21
/-- INC (R277). -/
def peerInc (e : W64) : Nat := fld e 20 9
/-- FO (R277). -/
def peerFo (e : W64) : Bool := e.getLsbD 8

/-- A peer entry with another ST (R277). -/
def peerSetSt (e : W64) (st : Nat) : W64 := BitVec.ofNat 64 (e.toNat - peerSt e * 2 ^ 61 + st * 2 ^ 61)

/-- A peer entry with FO set (R298). -/
def peerSetFo (e : W64) : W64 := e ||| 0x100

/-- A peer entry of a partition; zero when never written (R277). -/
def State.peer (s : State) (part pid : Nat) : W64 :=
  match smGet s.parts part with
  | some p => smGetD p.peers pid 0
  | none => 0

/-- Sets a peer entry. -/
def State.setPeer (s : State) (part pid : Nat) (e : W64) : State := s.modPart part fun p => { p with peers := smSet p.peers pid e }

/-- The TXN a source site uses next for the fabric: the least that no request holds and that is not set aside (R294). -/
def State.fabTxn (s : State) (p : Nat) : Nat :=
  let used := s.fab.filterMap fun x => if x.2.p = p then some x.2.pkt.txn.toNat else none
  (firstBelow 4096 fun n =>
    !used.contains n && !(s.txnHold.any fun h => decide (h.1 = 4096 * p + n) && decide (s.time < h.2))).getD 0

/-- What a packet carries beyond its header's addresses: class, OPC, address, payload granules, byte mask and payload with
its poison (R274). -/
structure Load where
  cls : Nat
  opc : Nat
  va : W64
  ngr : Nat
  mask : List Bool
  data : List (Byte × Bool)
  mir : Bool := false

/-- The packet of a load for a peer entry (R274, R280). -/
def State.packet (s : State) (part p pid : Nat) (l : Load) : FabPkt :=
  let e := s.peer part pid
  let site := clusterSite p
  { dmod := BitVec.ofNat 11 (peerMod e), smod := Config.fabmod, dtag := BitVec.ofNat 10 (peerTag e),
    stag := BitVec.ofNat 10 part, dspace := BitVec.ofNat 6 (peerSpace e), dinc := BitVec.ofNat 12 (peerInc e),
    cls := BitVec.ofNat 3 l.cls, det := false, hops := 0,
    seq := BitVec.ofNat 16 (smGetD s.streamSeq (2048 * site + peerMod e) 0), opc := BitVec.ofNat 8 l.opc,
    ngr := BitVec.ofNat 4 l.ngr, txn := BitVec.ofNat 12 (s.fabTxn p), ssite := BitVec.ofNat 12 site,
    va := l.va.setWidth 57, mask := l.mask, data := l.data.map Prod.fst, pz := l.data.map Prod.snd,
    mir := l.mir }

/-- Sends one packet to a peer entry under the present `nextId` (R274, R280). -/
def State.sendPkt (s : State) (part p pid : Nat) (use : FabUse) (l : Load) (trpc : W64) (inRgn : Bool) : State :=
  let key := 2048 * clusterSite p + peerMod (s.peer part pid)
  let r : FabReq :=
    { part := part, p := p, peer := pid, use := use, pkt := s.packet part p pid l, sent := none, trpc := trpc, ord := s.nextId,
      inRgn := inRgn, primary := false, fo := peerFo (s.peer part pid), out := s.nextId }
  { s.fresh with fab := smSet s.fab s.nextId r, streamSeq := smSet s.streamSeq key ((smGetD s.streamSeq key 0 + 1) % 65536) }

/-- The entry that operations of a peer go to: the secondary once it has failed over (R298). -/
def State.peerTarget (s : State) (part pid : Nat) : Nat :=
  let e := s.peer part pid
  if peerFo e then peerSec e else pid

/-- Writes to a peer go to its secondary too: it is mirrored, has not failed over, and the secondary has not been reported
reset (R267, R297, R298). -/
def State.mirrored (s : State) (part pid : Nat) : Bool :=
  let e := s.peer part pid
  peerSv e && !peerFo e && peerSt (s.peer part (peerSec e)) ≠ 1

/-- Sends a fabric request to a peer; a write to a mirrored peer goes to both copies (R297). -/
def State.sendFab (s : State) (part p pid : Nat) (use : FabUse) (l : Load) (trpc : W64) (inRgn : Bool) : State :=
  let e := s.peer part pid
  let id := s.nextId
  let l := { l with mir := decide (l.cls = 1) && peerSv e }
  let s := s.sendPkt part p (s.peerTarget part pid) use l trpc inRgn
  let s := { s with fab := smMod s.fab id fun r => { r with peer := pid, fo := peerFo e } }
  if l.cls = 1 && s.mirrored part pid then s.sendPkt part p (peerSec e) (.mirror id) { l with opc := 2 } trpc inRgn else s

/-- A line leaves the write-combining buffer as one write packet of its masked bytes (R288). -/
def State.drainLine (s : State) (p : Nat) (w : Wcb) : State :=
  let s := s.modCluster p fun c => { c with wcb := c.wcb.erase w }
  s.sendFab w.part p w.peer (.drain w.cohorts)
    { cls := 1, opc := if w.mask.all id then 0 else 1, va := w.va, ngr := 4, mask := w.mask, data := w.data.map fun b => (b, false) }
    0 false

/-- Drains the lines of a cluster's buffer that satisfy a test (R288). -/
def State.drainWcb (s : State) (p : Nat) (f : Wcb → Bool) : State :=
  forL ((s.cluster p).wcb.filter f) s fun w s => s.drainLine p w

/-- Fabric requests of a cluster's drains that are not yet performed or ended (R288). -/
def State.drainsOut (s : State) (p : Nat) : List Nat :=
  s.fab.filterMap fun x =>
    match x.2.use with
    | .drain _ => if x.2.p = p then some x.1 else none
    | _ => none

end Sys2Proof.Machine
end

