-- ==== Sys2Proof/Machine/Visibility.lean ====
section
/-!
DEFINITION. Sys2Proof/Machine/Visibility.lean: the actions of releases and acquires (R243, R244, R260) and the drain of
reduction parts (R250, R251).
-/

namespace Sys2Proof.Machine

/-- A range of bytes lies, in part, in the ranges of an operation (R243); all bytes do when none are given. -/
def inRanges (r : Option (List (Nat × Nat))) (lo n : Nat) : Bool :=
  match r with
  | none => true
  | some l => l.any fun x => overlaps lo (lo + n) x.1 x.2

/-- The key of a reduction group, its cohort ignored (R251). -/
def RedEnt.sameKey (a b : RedEnt) : Bool :=
  decide (a.asid = b.asid) && decide (a.addr = b.addr) && decide (a.opx = b.opx) && decide (a.pro = b.pro) && decide (a.ty = b.ty)

/-- Place of an entry's cohort in its slice (R251). -/
def State.redPlace (s : State) (e : RedEnt) : Nat :=
  match s.cohort? e.cid e.co with
  | some h => h.place
  | none => 0

/-- The chosen entries of a cluster in the order of the fold: issue slice, then cohort slot (R251). -/
def State.redOrder (s : State) (p : Nat) (sel : RedEnt → Bool) : List RedEnt :=
  (List.range 6).flatMap fun i =>
    let l := ((s.issue (6 * p + i)).red.filter fun e => sel e && !e.done.isEmpty)
    (List.range 8).flatMap fun c => l.filter fun e => s.redPlace e = c

/-- The committed parts of a group folded, lanes ascending within each entry (R251). -/
def foldParts (l : List RedEnt) : Option W64 :=
  l.foldl (fun v e => e.done.foldl (fun v x => combine e.opx e.pro e.ty v (some x.2)) v) none

/-- One representative of each key, in order of first appearance. -/
def redKeys : List RedEnt → List RedEnt
  | [] => []
  | e :: r => e :: (redKeys r).filter fun x => !e.sameKey x

/-- Drains the chosen committed parts of a cluster (R250, R251): one request for each key. -/
def State.drainParts (s : State) (p : Nat) (sel : RedEnt → Bool) : State :=
  let l := s.redOrder p sel
  let s := s.modCluster p fun c =>
    { c with sl := c.sl.map fun i =>
        { i with red := (i.red.map fun e => if sel e then { e with done := [] } else e).filter fun e =>
            !(e.done.isEmpty && e.pending.isEmpty) } }
  forL (redKeys l) s fun k s =>
    match foldParts (l.filter fun e => k.sameKey e) with
    | some v => s.send (mkReq s p 0 k.cid k.co 0 none k.asid k.addr (.group k.opx k.pro k.ty v) 0 0 false)
    | none => s

/-- Bytes that a request writes (R245, R255). -/
def ReqOp.bytes : ReqOp → Nat
  | .read n _ => n
  | .write d => d.length
  | .atomic _ _ t _ | .group _ _ t _ => if Ty.wide t then 8 else 4
  | .cas w _ _ => if w then 8 else 4
  | .pref _ => 128

/-- A request that changes memory. -/
def ReqOp.writes : ReqOp → Bool
  | .read _ _ | .pref _ => false
  | _ => true

/-- Earlier writes of some threads, before the number `id`, that are not performed (R243 actions 3 and 7): requests to home
slices, and stores that wait for the fill of a mapped line; or, for `host`, writes to host memory. -/
def State.writesOut (s : State) (p cid co : Nat) (lanes : BitVec 32) (ranges : Option (List (Nat × Nat))) (host : Bool) (id : Nat) :
    List Nat :=
  (s.reqs.filterMap fun x =>
    let r := x.2
    if r.cid = cid && r.co = co && lanes.getLsbD r.lane && r.op.writes && r.host = host && decide (r.ord < id) &&
      inRanges ranges r.va.toNat r.op.bytes then some x.1 else none) ++
  ((s.cluster p).mwait.filterMap fun x =>
    let w := x.2
    let va := (((s.cluster p).mline? w.off).map fun l => l.va.toNat + w.off % 128).getD 0
    if w.cid = cid && w.co = co && lanes.getLsbD w.lane && w.op.writes && !host && decide (w.ord < id) && inRanges ranges va w.sz
    then some x.1 else none)

/-- Drained groups of a crew that are not performed (R243 action 4, R251, R265). -/
def State.groupsOut (s : State) (cid : Nat) (ranges : Option (List (Nat × Nat))) : List Nat :=
  s.reqs.filterMap fun x =>
    match x.2.op with
    | .group _ _ _ _ => if x.2.cid = cid && inRanges ranges x.2.va.toNat x.2.op.bytes then some x.1 else none
    | _ => none

/-- Nothing of a list of requests is left. -/
def State.waitsOver (s : State) (p : Nat) (l : List Nat) : Bool :=
  l.all fun id => (smGet s.reqs id).isNone && (smGet s.fab id).isNone && (smGet (s.cluster p).mwait id).isNone

/-- A Valid mapped line that a release or an acquire covers (R107, R243 actions 5 and 9): it is to be written back when dirty,
and then emptied when `inv`. A line that is Filling holds no copy yet: its bytes will be read when the fill is made. -/
def MLine.ask (l : MLine) (who : Nat × Nat) (inv : Bool) : MLine :=
  if l.st ≠ 2 then l
  else if l.mask = 0 then (if inv then { l with st := 0 } else l)
  else { l with wb := l.wb ++ [who], inv := if inv then some (l.inv.getD 0) else l.inv }

/-- Asks for the write-back of the crew's dirty mapped lines in the ranges, and for the empty step when `inv`. -/
def State.askWriteBack (s : State) (p cid : Nat) (ranges : Option (List (Nat × Nat))) (who : Nat × Nat) (inv : Bool) : State :=
  s.modCluster p fun c =>
    { c with mapped := smMap (fun _ l => if l.cid = cid && inRanges ranges l.va.toNat 128 then l.ask who inv else l) c.mapped }

/-- A write-back asked for by a result is still to be made. -/
def State.wbOut (s : State) (p id : Nat) : Bool := (s.cluster p).mapped.any fun x => x.2.wb.any fun w => w.1 = id

/-- A result without registers that stands for a release or an acquire. -/
def fencePend (cid co tok : Nat) (lanes : BitVec 32) (trpc : W64) (f : FenceSt) : Pend :=
  { cid := cid, co := co, tok := tok, lanes := lanes, dst := .none, width := 0, pushed := false, uni := false, vals := [],
    waitRes := 0, waitPerf := lanes, delivered := true, dead := false, trpc := trpc, kdst := none, kvals := 0,
    checked := false, joint := false, sx := false, bundle := false, stale := [], kept := [],
    fence := some f }

/-- Begins a release, an acquire, or both, for the threads of `lanes` (R260); tokens number clauses, and `tok` names none
when the part is not the clause's own instruction. -/
def State.startFence (s : State) (cid co tok : Nat) (lanes : BitVec 32) (trpc : W64) (f : FenceSt) : State :=
  { s.fresh with pends := smSet s.pends s.nextId (fencePend cid co tok lanes trpc f) }

/-- Every contrail entry of the threads has replayed (R75). -/
def Cohort.trailEmpty (h : Cohort) (lanes : BitVec 32) : Bool := (lanesOf lanes).all fun i => (h.threads[i]).contrail.isEmpty

/-- A release or an acquire in progress goes on to its next step, with the requests that this one waits for. -/
def State.fenceStep (s : State) (id : Nat) (f : FenceSt) (n : Nat) (waits : List Nat) : State :=
  s.modPend id fun x => { x with fence := some { f with step := n, waits := waits } }

/-- The drain of a release (R243 action 4): the cohort's committed parts in its ranges. -/
def State.drainCohort (s : State) (p cid co : Nat) (ranges : Option (List (Nat × Nat))) : State :=
  s.drainParts p fun e => decide (e.cid = cid) && decide (e.co = co) && inRanges ranges e.addr.toNat (if Ty.wide e.ty then 8 else 4)

/-- What a release is followed by needs the stores alone (R439). -/
def FenceNext.storesOnly : FenceNext → Bool
  | .icache _ _ => true
  | _ => false

/-- A step of a release, in the order of R243: (0) the contrail entries have replayed and the earlier writes are performed, and
the parts drain; (1) they are performed, and dirty mapped lines are to be written back; (2) they are, and the write-combining
buffer drains; (3) its lines are performed, and the writes to host memory are awaited. -/
def State.releaseStep (s : State) (id p cid co : Nat) (h : Cohort) (lanes : BitVec 32) (f : FenceSt) : State :=
  match f.step with
  | 0 =>
    if !(s.writesOut p cid co lanes f.ranges false id).isEmpty then s
    else if f.next.storesOnly then s.fenceStep id f 4 []
    else if !h.trailEmpty lanes then s
    else
      let s := s.drainCohort p cid co f.ranges
      s.fenceStep id f 1 (s.groupsOut cid f.ranges)
  | 1 =>
    if !s.waitsOver p f.waits then s
    else (if 2 ≤ f.scope then s.askWriteBack p cid f.ranges (id, 32) false else s).fenceStep id f 2 []
  | 2 =>
    if s.wbOut p id then s
    else if 4 ≤ f.scope then
      let s := s.drainWcb p fun _ => true
      s.fenceStep id f 3 (s.drainsOut p)
    else s.fenceStep id f 3 []
  | _ =>
    if !s.waitsOver p f.waits then s
    else s.fenceStep id f 4 (if 5 ≤ f.scope then s.writesOut p cid co lanes f.ranges true id else [])

/-- The L0 lines that an acquire invalidates (R243 action 8). -/
def acqLine (tag : Nat) (ranges : Option (List (Nat × Nat))) (l : L0Line) : Bool :=
  l.w && decide (asidTag l.asid = tag) && inRanges ranges l.va.toNat 128

/-- ZP of a descriptor's word 2 (R327). -/
def declZp (w : W64) : Bool := w.getLsbD 15

/-- Every live thread of a crew has arrived at its grid's barrier, or all have exited (R352). -/
def Crew.arrived (c : Crew) (cid : Nat) (arr : List Nat) : Bool :=
  (c.cohorts.zipIdx).all fun h => (lanesOf h.1.live).all fun i => arr.contains (cid * 4096 + h.2 * 32 + i.val)

/-- Every crew of a grid has arrived, exited or retired (R352). -/
def State.gbarFull (s : State) (gid : Nat) (g : Grid) : Bool :=
  let l := s.crews.filter fun x => x.2.grid = gid
  g.aborted.isNone && g.gbDone.isNone && decide (g.gbArr ≠ []) && decide (g.retiredCrews + l.length = g.crewCount) &&
    l.all fun x => x.2.arrived x.1 g.gbArr

/-- A generation completes (R352, R353): T is the present time. -/
def State.gbarComplete (s : State) (gid : Nat) : State :=
  s.modGrid gid fun g => { g with gbGen := g.gbGen + 1, gbArr := [], gbDone := some s.time }

/-- A generation that every crew has reached completes; that of a zone-protected grid does with its checkpoints (R394). -/
def State.gbarSettle (s : State) (gid : Nat) : State :=
  match smGet s.grids gid with
  | some g => if s.gbarFull gid g && !declZp g.decl then s.gbarComplete gid else s
  | none => s

/-- The threads of a crew arrive at their grid's barrier (R352): their crew and cohort, in the generation's list. -/
def State.gbarArrive (s : State) (gid cid co : Nat) (lanes : BitVec 32) : State :=
  (s.modGrid gid fun g =>
    { g with gbArr := forL (lanesOf lanes) g.gbArr fun i l => nsAdd (cid * 4096 + co * 32 + i.val) l,
             gbSince := if g.gbArr = [] then s.time else g.gbSince }).gbarSettle gid

/-- Invalidates the lines of a space's range in every clause cache of the partition (R439). -/
def State.dropClauses (s : State) (asid : BitVec 16) (lo hi : Nat) : State :=
  { s with clusters := smMap (fun _ c =>
      { c with cc := c.cc.filter fun x => !(decide (x.1 = asid) && overlaps x.2.1.toNat (x.2.1.toNat + 128) lo hi) }) s.clusters }

/-- The held requests of a list may go out: none of another list goes before them (R235). -/
def State.mayGo (s : State) (l : List Nat) : Bool :=
  l.all fun id => match smGet s.reqs id with
    | some r => (s.ahead id r).all fun j => l.contains j
    | none => true

/-- What follows a release that is complete (R260, R352, R439). -/
def State.released (s : State) (c : Crew) (x : Pend) : FenceNext → State
  | .done => s
  | .send l => forL l s fun i s => s.sendHeld i
  | .arrive => s.gbarArrive c.grid x.cid x.co x.lanes
  | .icache lo hi => s.dropClauses (asidOf c.part c.space) lo hi

/-- The requests that go out once a release is complete. -/
def FenceNext.sent : FenceNext → List Nat
  | .send l => l
  | _ => []

/-- A step of an acquire, in the order of R243: (0) lines of the L0 are invalidated, once no store waits in them; (1) mapped lines
are to be written back and emptied; (2) they are. -/
def State.acquireStep (s : State) (id k : Nat) (c : Crew) (x : Pend) (f : FenceSt) : State :=
  match f.step with
  | 0 =>
    let s := if 1 ≤ f.scope then
        s.modIssue k fun i => { i with l0 := i.l0.filter fun l => !(acqLine c.part f.ranges l && l.inflight.isEmpty) }
      else s
    if decide (1 ≤ f.scope) && (s.issue k).l0.any (acqLine c.part f.ranges) then s else s.fenceStep id f 1 []
  | 1 => (if 2 ≤ f.scope then s.askWriteBack c.p x.cid f.ranges (id, 32) true else s).fenceStep id f 2 []
  | _ => if s.wbOut c.p id then s else s.modPend id fun x => { x with fence := some { f with acq := false } }

/-- A step of a release or an acquire in progress (R243, R244): its next step, what follows the release, or its end. -/
def State.advanceFence (s : State) (id : Nat) : State :=
  match smGet s.pends id with
  | none => s
  | some x =>
    match x.fence, smGet s.crews x.cid, s.cohort? x.cid x.co with
    | some f, some c, some h =>
      if f.rel then
        if f.step < 4 then s.releaseStep id c.p x.cid x.co h x.lanes f
        else if !s.waitsOver c.p f.waits || !s.mayGo f.next.sent then s
        else
          let s := s.modPend id fun x =>
            { x with fence := some { f with rel := false, step := 0, waits := f.next.sent.take 1, next := .done } }
          s.released c x f.next
      else if !s.waitsOver c.p f.waits then s
      else if f.acq then s.acquireStep id (6 * c.p + h.slice) c x f
      else (s.modPend id fun x => { x with waitPerf := 0 }).settlePend id
    | _, _, _ => s

/-- A thread's later clauses of class mem, copy, mxp, fab and sync are held by a release or an acquire (R244, R260). -/
def State.underFence (s : State) (cid co lane : Nat) : Bool :=
  s.pends.any fun x => decide (x.2.cid = cid) && decide (x.2.co = co) && (match x.2.fence with | some f => f.hold | none => false) && x.2.waitPerf.getLsbD lane && !x.2.dead

/-- The ranges bound to a barrier object, or to the global sync word at an address, in a crew's bind table (R240). -/
def Crew.boundTo (c : Crew) (w : W64 × W64) : List (Nat × Nat) :=
  c.bind.toList.filterMap fun b =>
    match b with
    | some b => if b.w0 = w.1 && b.w1 = w.2 then some (b.base, b.base + b.len) else none
    | none => none

/-- How a barrier object, or a global sync word, is named in a bind entry. -/
def bindObj (gw : Bool) (x : W64) : W64 × W64 := (if gw then 1 else 0, x)

/-- The ranges bound to the global sync word that holds an address; none when it is no sync word of the crew (R260). -/
def Crew.syncRanges (c : Crew) (va : W64) : List (Nat × Nat) :=
  c.boundTo (bindObj true (BitVec.ofNat 64 (va.toNat / 8 * 8)))

end Sys2Proof.Machine
end

