-- ==== Sys2Proof/Machine/Control.lean ====
section
/-!
DEFINITION. Sys2Proof/Machine/Control.lean: the control instructions of group 0 (R307 to R322), but `launch` and `cwait`.
-/

namespace Sys2Proof.Machine

/-! Transfers. -/

/-- The checks of a target address, an exact whole number (R308). -/
def targetFault (t : Int) : Option Cause :=
  if t < 0 ∨ (2 : Int) ^ 64 ≤ t then some cAddrWrap
  else if !isCanon (toW64 t) then some cNoncanon
  else if t % 8 ≠ 0 then some cMisaligned
  else none

/-- H plus 8 times a displacement, exact (R308). -/
def relTarget (h : W64) (disp : Val) : Int := (h.toNat : Int) + 8 * sext 32 disp.v.toNat

/-- The fault of a relative transfer (R308). -/
def relFault (h : W64) (disp : Val) : Option Cause := if disp.p then some cPoisonUse else targetFault (relTarget h disp)

/-- The fault of an absolute transfer (R308). -/
def absFault (a : Val) : Option Cause := if a.p then some cPoisonUse else targetFault (a.v.toNat : Int)

/-- The threads of some lanes go to their targets (R308). -/
def State.goTo (s : State) (x : Slot) (m : BitVec 32) (t : Fin 32 → W64) : State :=
  s.slotLanes x m fun i th => { th with pc := t i, slot := 0, resumed := false }

/-- A transfer: checks, the result if there is one, and the new pc of the executing threads (R308, R309). -/
def transfer (x : Slot) (flt : Fin 32 → Option Cause) (res : Placed) (t : Fin 32 → W64) (s : State) : State :=
  let l := x.faults fun i => atAddr (t i) (flt i)
  (finishSlot x l res s).goTo x (x.done l) t

/-- `br` (R308). -/
def execBr (f : Fields) (s : State) : Host.Outcome State Fault Refusal :=
  runSlot .br f s fun x s =>
    transfer x (fun i => relFault x.run.hpc x.a[i]) .none (fun i => toW64 (relTarget x.run.hpc x.a[i])) s

/-- `jmp` (R308). -/
def execJmp (f : Fields) (s : State) : Host.Outcome State Fault Refusal :=
  runSlot .jmp f s fun x s => transfer x (fun i => absFault x.a[i]) .none (fun i => (x.a[i]).v) s

/-- The return address as a result (R309). -/
def Slot.linkVal (x : Slot) : Placed := .now true (perLane fun _ => Val.ok x.run.next)

/-- `call` (R309). -/
def execCall (f : Fields) (s : State) : Host.Outcome State Fault Refusal :=
  runSlot .call f s fun x s =>
    transfer x (fun i => relFault x.run.hpc x.a[i]) x.linkVal (fun i => toW64 (relTarget x.run.hpc x.a[i])) s

/-- `callr` (R309). -/
def execCallr (f : Fields) (s : State) : Host.Outcome State Fault Refusal :=
  runSlot .callr f s fun x s => transfer x (fun i => absFault x.a[i]) x.linkVal (fun i => (x.a[i]).v) s

/-- `ret`: exactly the effect of `jmp` (R308). -/
def execRet (f : Fields) (s : State) : Host.Outcome State Fault Refusal :=
  runSlot .ret f s fun x s => transfer x (fun i => absFault x.a[i]) .none (fun i => (x.a[i]).v) s

/-- The count that `dbnz` delivers (R310). -/
def dbnzCount (a : Val) : W32 := a.lo - 1

/-- `dbnz` (R310): the displacement is read for a thread that branches. -/
def execDbnz (f : Fields) (s : State) : Host.Outcome State Fault Refusal :=
  runSlot .dbnz f s fun x s =>
    let l := x.faults fun i =>
      if (x.a[i]).p then some (cPoisonUse, 0)
      else if dbnzCount x.a[i] = 0 then none
      else atAddr (toW64 (relTarget x.run.hpc x.b[i])) (relFault x.run.hpc x.b[i])
    let s := finishSlot x l (.now false (perLane fun i => Val.ok ((dbnzCount x.a[i]).setWidth 64))) s
    s.goTo x (laneFilter (x.done l) fun i => decide (dbnzCount x.a[i] ≠ 0)) fun i => toW64 (relTarget x.run.hpc x.b[i])

/-! Rejoining. -/

/-- ENR of a rejoin register (R141). -/
def joinEnr (j : W64) : BitVec 32 := j.extractLsb' 0 32
/-- ARR of a rejoin register (R141). -/
def joinArr (j : W64) : BitVec 32 := j.extractLsb' 32 32
/-- A rejoin register of its masks (R141). -/
def joinReg (arr enr : BitVec 32) : W64 := arr ++ enr

/-- Writes a rejoin register. -/
def State.setJoin (s : State) (cid co n : Nat) (arr enr : BitVec 32) : State :=
  s.modCohort cid co fun h => { h with j := h.j.setIfInBounds n (joinReg arr enr) }

/-- CheckJoin (R311, R312): the threads released form one bundle where they stand at one address. -/
def State.checkJoin (s : State) (cid co n : Nat) : State :=
  match s.cohort? cid co with
  | none => s
  | some h =>
    let j := h.j[n]?.getD 0
    let arr := joinArr j
    if arr ≠ 0 ∧ arr = joinEnr j then
      let g := s.nextId + 1
      (s.fresh.setJoin cid co n 0 0).modLanes cid co arr fun _ th => { th with holds := th.holds.filter (· ≠ .join n), grp := g }
    else s

/-- `rjn.enrol` (R311). -/
def execRjnEnrol (f : Fields) (s : State) : Host.Outcome State Fault Refusal :=
  runSlot .rjnEnrol f s fun x s =>
    let n := f.mod.toNat
    let j := x.coh.j[n]?.getD 0
    (finishSlot x [] .none s).setJoin x.cid x.co n (joinArr j) (joinEnr j ||| x.ex)

/-- `rjn.wait` (R311). -/
def execRjnWait (f : Fields) (s : State) : Host.Outcome State Fault Refusal :=
  runSlot .rjnWait f s fun x s =>
    let n := f.mod.toNat
    let j := x.coh.j[n]?.getD 0
    let m := x.ex &&& joinEnr j
    let s := (finishSlot x [] .none s).setJoin x.cid x.co n (joinArr j ||| m) (joinEnr j)
    (s.slotLanes x m fun _ th => { th with holds := .join n :: th.holds.filter (· ≠ .join n) }).checkJoin x.cid x.co n

/-- `rjn.leave` (R311). -/
def execRjnLeave (f : Fields) (s : State) : Host.Outcome State Fault Refusal :=
  runSlot .rjnLeave f s fun x s =>
    let n := f.mod.toNat
    let j := x.coh.j[n]?.getD 0
    ((finishSlot x [] .none s).setJoin x.cid x.co n (joinArr j) (joinEnr j &&& ~~~x.ex)).checkJoin x.cid x.co n

/-! Exit, flags, regions, yielding. -/

/-- Lanes leave every rejoin mask of their cohort (R141, R312, R314). -/
def State.leaveJoins (s : State) (cid co : Nat) (m : BitVec 32) : State :=
  forN 4 s fun n s =>
    match s.cohort? cid co with
    | none => s
    | some h =>
      let j := h.j[n]?.getD 0
      (s.setJoin cid co n (joinArr j &&& ~~~m) (joinEnr j &&& ~~~m)).checkJoin cid co n

/-- What is left of a thread that has ended (R314). -/
def Thread.end (th : Thread) : Thread :=
  { th with live := false, holds := [], trap := none, due := [], grp := 0, tok := none, since := none }

/-- `exit` (R314). -/
def execExit (f : Fields) (s : State) : Host.Outcome State Fault Refusal :=
  runSlot .exit f s fun x s =>
    (((finishSlot x [] .none s).slotLanes x x.ex fun _ th => th.end).leaveJoins x.cid x.co x.ex).gbarSettle x.crew.grid

/-- `nop` (R317). -/
def execNop (f : Fields) (s : State) : Host.Outcome State Fault Refusal :=
  runSlot .nop f s fun x s => finishSlot x [] .none s

/-- `yield` (R317): YLD of its clause, for the whole bundle. -/
def execYield (f : Fields) (s : State) : Host.Outcome State Fault Refusal :=
  runSlot .yield f s fun x s =>
    (finishSlot x [] .none s).modRun x.k fun r => { r with yld := r.yld || decide (x.ex ≠ 0) }

/-- A width that `tile.set` accepts (R191). -/
def tileWidthOk (w : Nat) : Bool := [2, 4, 8, 16, 32].contains w

/-- `tile.set` (R191). -/
def execTileSet (f : Fields) (s : State) : Host.Outcome State Fault Refusal :=
  runSlot .tileSet f s fun x s =>
    let a := x.uni x.a
    let l := x.bundleFault
      (if a.p then some cPoisonUse else if tileWidthOk a.lo.toNat then none else some cIllegalOperand)
    let s := finishSlot x l .none s
    if l.isEmpty then s.modCohort x.cid x.co fun h => { h with tile := a.lo.toNat } else s

/-- `fwait` (R318). -/
def execFwait (f : Fields) (s : State) : Host.Outcome State Fault Refusal :=
  runSlot .fwait f s fun x s =>
    let l := x.faults fun i => if (x.a[i]).p then some (cPoisonUse, 0) else none
    finishSlot x l .none (s.slotLanes x (x.done l) fun i th =>
      let m := (x.a[i]).v.extractLsb' 0 12
      if m = 0 then th else { th with holds := .flags m (f.mod.getLsbD 0) :: th.holds })

/-- The place in the clause after a slot, at which a region that opens there begins (R319, R364). -/
def Slot.openingAfter (x : Slot) (lanes : BitVec 32) : Opening :=
  { header := 0, mid := if lanes = 0 then none else some (x.run.midway lanes (x.run.slot + slotLen x.f)) }

/-- `rgn.open` (R319): the open region closes, and one opens after the slot (R363); after the last slot it opens where the
threads stand next. -/
def execRgnOpen (f : Fields) (s : State) : Host.Outcome State Fault Refusal :=
  runSlot .rgnOpen f s fun x s =>
    match s.closeDecision x.cid x.co (some x.run.tok) with
    | .wait => s.park x.k x.cid x.co { x.run with lanes := x.lanes }
    | .restart => s.suspectRestart x.cid x.co
    | .commit =>
      (finishSlot x [] .none (s.commitRegion x.cid x.co false)).openRegion x.cid x.co true
        (x.openingAfter (if x.last then 0 else x.lanes))

/-- `rgn.close` (R319): the open region closes. Slots that follow in the clause are a region of their own (R363; log 17). -/
def execRgnClose (f : Fields) (s : State) : Host.Outcome State Fault Refusal :=
  runSlot .rgnClose f s fun x s =>
    match s.closeDecision x.cid x.co (some x.run.tok) with
    | .wait => s.park x.k x.cid x.co { x.run with lanes := x.lanes }
    | .restart => s.suspectRestart x.cid x.co
    | .commit =>
      let s := finishSlot x [] .none (s.commitRegion x.cid x.co false)
      let s := s.modCohort x.cid x.co fun h => { h with rgn := { h.rgn with reopen := false } }
      if x.last then s else s.openRegion x.cid x.co false (x.openingAfter x.lanes)

/-! Traps and their return. -/

/-- The trap that `trap` and `brkpt` take (R320, R321). -/
def softTrap (x : Slot) (cause : Cause) (code : Val) (rpc : W64) (rslot : Nat) : TrapRec :=
  { preciseTrap x.run cause (code.lo.setWidth 64) with rpc := rpc, rslot := rslot, skip := false }

/-- `trap` (R320, R321): the resume point is NEXT. A poisoned code reads as its pattern: R39 names no fault for it. -/
def execTrap (f : Fields) (s : State) : Host.Outcome State Fault Refusal :=
  runSlot .trap f s fun x s =>
    finishSlot x ((lanesOf x.ex).map fun i => (i.val, softTrap x cTrapInstr x.a[i] x.run.next 0)) .none s

/-- `brkpt` (R320, R321): the resume point is the slot after it. -/
def execBrkpt (f : Fields) (s : State) : Host.Outcome State Fault Refusal :=
  runSlot .brkpt f s fun x s =>
    let p := if x.last then (x.run.next, 0) else (x.run.hpc, x.run.slot + slotLen x.f)
    finishSlot x ((lanesOf x.ex).map fun i => (i.val, softTrap x cBreakpoint x.a[i] p.1 p.2)) .none s

/-- `trapret` (R322). -/
def execTrapret (f : Fields) (s : State) : Host.Outcome State Fault Refusal :=
  runSlot .trapret f s fun x s =>
    let given := decide (f.a.sel ≠ .none)
    let l := x.faults fun i =>
      if !(x.coh.threads[i]).inHandler then some (cIllegalOpcode, 0)
      else if given then atAddr (x.a[i]).v (absFault x.a[i])
      else none
    (finishSlot x l .none s).slotLanes x (x.done l) fun i th =>
      leaveHandler (if given then some (x.a[i]).v else none) th

end Sys2Proof.Machine
end

