-- ==== Sys2Proof/Machine/Integer.lean ====
section
/-!
DEFINITION. Sys2Proof/Machine/Integer.lean: group 1, the integer, bit, field and address instructions (R170 to R177).
-/

namespace Sys2Proof.Machine

/-- A result of the type's width from one operand of it. -/
def aluOne (o : Op) (f : Fields) (s : State) (g : W64 → W64) : Host.Outcome State Fault Refusal :=
  laneSlot o f (Ty.wide f.ty) s fun x i => lift1 g x.a[i]

/-- A result of the type's width from two operands. -/
def aluTwo (o : Op) (f : Fields) (s : State) (g : W64 → W64 → W64) : Host.Outcome State Fault Refusal :=
  laneSlot o f (Ty.wide f.ty) s fun x i => lift2 g x.a[i] x.b[i]

/-- A result of the type's width from three operands. -/
def aluThree (o : Op) (f : Fields) (s : State) (g : W64 → W64 → W64 → W64) : Host.Outcome State Fault Refusal :=
  laneSlot o f (Ty.wide f.ty) s fun x i => lift3 g x.a[i] x.b[i] x.c[i]

/-- `add` (R170). -/
def execAdd (f : Fields) (s : State) : Host.Outcome State Fault Refusal :=
  aluTwo .add f s fun a b => intOp f.ty f.sat0 (fun x y _ => x + y) a b 0

/-- `sub` (R170). -/
def execSub (f : Fields) (s : State) : Host.Outcome State Fault Refusal :=
  aluTwo .sub f s fun a b => intOp f.ty f.sat0 (fun x y _ => x - y) a b 0

/-- `mul` (R170). -/
def execMul (f : Fields) (s : State) : Host.Outcome State Fault Refusal :=
  aluTwo .mul f s fun a b => intOp f.ty f.sat0 (fun x y _ => x * y) a b 0

/-- `mad` (R170). -/
def execMad (f : Fields) (s : State) : Host.Outcome State Fault Refusal :=
  aluThree .mad f s fun a b c => intOp f.ty f.sat0 (fun x y z => x * y + z) a b c

/-- `min` (R170). -/
def execMin (f : Fields) (s : State) : Host.Outcome State Fault Refusal :=
  aluTwo .min f s fun a b => intOp f.ty false (fun x y _ => if x ≤ y then x else y) a b 0

/-- `max` (R170). -/
def execMax (f : Fields) (s : State) : Host.Outcome State Fault Refusal :=
  aluTwo .max f s fun a b => intOp f.ty false (fun x y _ => if y ≤ x then x else y) a b 0

/-- `abs` (R170). -/
def execAbs (f : Fields) (s : State) : Host.Outcome State Fault Refusal :=
  aluOne .abs f s fun a => intOp f.ty f.sat0 (fun x _ _ => (x.natAbs : Int)) a 0 0

/-- `neg` (R170). -/
def execNeg (f : Fields) (s : State) : Host.Outcome State Fault Refusal :=
  aluOne .neg f s fun a => intOp f.ty f.sat0 (fun x _ _ => -x) a 0 0

/-- `mulh` (R170). -/
def execMulh (f : Fields) (s : State) : Host.Outcome State Fault Refusal :=
  aluTwo .mulh f s fun a b => intOp f.ty false (fun x y _ => x * y / (2 : Int) ^ (Ty.shape f.ty).1) a b 0

/-- The exact sum or difference of `addc` and `subb` (R171): `sg` is 1 or -1. -/
def carrySum (t : Ty) (sg : Int) (a b c : Val) : Int :=
  let w := (Ty.shape t).1
  intVal (Ty.signed t) w a.v.toNat + sg * (intVal (Ty.signed t) w b.v.toNat + ((c.v.toNat % 2 : Nat) : Int))

/-- `addc` and `subb`: the result, and CK in each executing thread (R171). -/
def carrySlot (o : Op) (f : Fields) (sg : Int) (s : State) : Host.Outcome State Fault Refusal :=
  runSlot o f s fun x s =>
    let w := (Ty.shape f.ty).1
    let r (i : Fin 32) : Val :=
      lift3 (fun _ _ _ => BitVec.ofNat 64 (intResult false w false (carrySum f.ty sg x.a[i] x.b[i] x.c[i]))) x.a[i] x.b[i] x.c[i]
    let kOut (i : Fin 32) : R1 :=
      if (r i).p then { v := true, p := true }
      else { v := carryFlag (Ty.signed f.ty) w (carrySum f.ty sg x.a[i] x.b[i] x.c[i]), p := false }
    let ck := f.mod.toNat % 8
    let s := if ck = 0 then s else s.slotLanes x x.ex fun i th => { th with k := th.k.setIfInBounds ck (kOut i) }
    finishSlot x [] (.now (Ty.wide f.ty) (perLane r)) s

/-- `addc` (R171). -/
def execAddc (f : Fields) (s : State) : Host.Outcome State Fault Refusal := carrySlot .addc f 1 s

/-- `subb` (R171). -/
def execSubb (f : Fields) (s : State) : Host.Outcome State Fault Refusal := carrySlot .subb f (-1) s

/-- `cmp` (R172). -/
def execCmp (f : Fields) (s : State) : Host.Outcome State Fault Refusal :=
  laneSlot .cmp f false s fun x i =>
    lift2 (fun a b =>
      let w := (Ty.shape f.ty).1
      if cmpCond f.mod.toNat (intVal (Ty.signed f.ty) w a.toNat) (intVal (Ty.signed f.ty) w b.toNat) then 1 else 0)
      x.a[i] x.b[i]

/-- `and` (R173). -/
def execAnd (f : Fields) (s : State) : Host.Outcome State Fault Refusal := aluTwo .and f s fun a b => a &&& b

/-- `or` (R173). -/
def execOr (f : Fields) (s : State) : Host.Outcome State Fault Refusal := aluTwo .or f s fun a b => a ||| b

/-- `xor` (R173). -/
def execXor (f : Fields) (s : State) : Host.Outcome State Fault Refusal := aluTwo .xor f s fun a b => a ^^^ b

/-- `andn` (R173). -/
def execAndn (f : Fields) (s : State) : Host.Outcome State Fault Refusal := aluTwo .andn f s fun a b => a &&& ~~~b

/-- `orn` (R173). -/
def execOrn (f : Fields) (s : State) : Host.Outcome State Fault Refusal :=
  aluTwo .orn f s fun a b => f.clip (a ||| ~~~b).toNat

/-- `not` (R173). -/
def execNot (f : Fields) (s : State) : Host.Outcome State Fault Refusal := aluOne .not f s fun a => f.clip (~~~a).toNat

/-- `brev` (R173). -/
def execBrev (f : Fields) (s : State) : Host.Outcome State Fault Refusal :=
  aluOne .brev f s fun a => f.clip (brevN f.w a.toNat)

/-- A 32-bit count of bits of one operand (R166, R173). -/
def countSlot (o : Op) (f : Fields) (s : State) (g : Nat → Nat) : Host.Outcome State Fault Refusal :=
  laneSlot o f false s fun x i => lift1 (fun a => w32Val (g a.toNat)) x.a[i]

/-- `popc` (R173). -/
def execPopc (f : Fields) (s : State) : Host.Outcome State Fault Refusal := countSlot .popc f s (popcount f.w)

/-- `clz` (R173). -/
def execClz (f : Fields) (s : State) : Host.Outcome State Fault Refusal := countSlot .clz f s (clzN f.w)

/-- `ctz` (R173). -/
def execCtz (f : Fields) (s : State) : Host.Outcome State Fault Refusal := countSlot .ctz f s (ctzN f.w)

/-- A control operand: 32 bits, unsigned (R165). -/
def ctl (b : W64) : Nat := b.toNat % 2 ^ 32

/-- `shl` (R174). -/
def execShl (f : Fields) (s : State) : Host.Outcome State Fault Refusal :=
  aluTwo .shl f s fun a b => if f.w ≤ ctl b then 0 else f.clip (a.toNat * 2 ^ ctl b)

/-- `shr` (R174). -/
def execShr (f : Fields) (s : State) : Host.Outcome State Fault Refusal :=
  aluTwo .shr f s fun a b => if f.w ≤ ctl b then 0 else f.clip (a.toNat / 2 ^ ctl b)

/-- `sar` (R174): an amount past the width acts as the width. -/
def execSar (f : Fields) (s : State) : Host.Outcome State Fault Refusal :=
  aluTwo .sar f s fun a b =>
    BitVec.ofNat 64 (intResult true f.w false (sext f.w a.toNat / (2 : Int) ^ (min (ctl b) f.w)))

/-- A rotated left by n within w bits (R174). -/
def rotl (w a n : Nat) : Nat := a * 2 ^ (n % w) % 2 ^ w + a / 2 ^ (w - n % w)

/-- `rol` (R174). -/
def execRol (f : Fields) (s : State) : Host.Outcome State Fault Refusal :=
  aluTwo .rol f s fun a b => f.clip (rotl f.w (a.toNat % 2 ^ f.w) (ctl b))

/-- `ror` (R174). -/
def execRor (f : Fields) (s : State) : Host.Outcome State Fault Refusal :=
  aluTwo .ror f s fun a b => f.clip (rotl f.w (a.toNat % 2 ^ f.w) (f.w - ctl b % f.w))

/-- FunnelShift (R174). -/
def funnel (w : Nat) (left : Bool) (a b n : Nat) : Nat :=
  let v := a * 2 ^ w + b
  if left then v * 2 ^ (n % w) / 2 ^ w % 2 ^ w else v / 2 ^ (n % w) % 2 ^ w

/-- `fsh` (R174). -/
def execFsh (f : Fields) (s : State) : Host.Outcome State Fault Refusal :=
  aluThree .fsh f s fun a b c =>
    f.clip (funnel f.w (f.mod.getLsbD 0) (a.toNat % 2 ^ f.w) (b.toNat % 2 ^ f.w) (ctl c))

/-- The field that `bfx` extracts (R175). -/
def bitField (signed : Bool) (w a b c : Nat) : Int :=
  let p := min b w
  let n := min c (w - p)
  let x := a / 2 ^ p % 2 ^ n
  if signed && decide (0 < n) then sext n x else (x : Int)

/-- `bfx` (R175). -/
def execBfx (f : Fields) (s : State) : Host.Outcome State Fault Refusal :=
  aluThree .bfx f s fun a b c =>
    BitVec.ofNat 64 (intResult false f.w false (bitField (Ty.signed f.ty) f.w (a.toNat % 2 ^ f.w) (ctl b) (ctl c)))

/-- The word that `bfi` makes (R175). -/
def insertField (w : Nat) (a b : W64) (c : Nat) : W64 :=
  let p := c % 256
  let n := min (c / 256 % 256) (w - p)
  if w ≤ p then a
  else
    let m := BitVec.ofNat 64 ((2 ^ n - 1) * 2 ^ p)
    (a &&& ~~~m) ||| ((b <<< p) &&& m)

/-- `bfi` (R175). -/
def execBfi (f : Fields) (s : State) : Host.Outcome State Fault Refusal :=
  aluThree .bfi f s fun a b c => insertField f.w a b (ctl c)

/-- `sel` (R176). -/
def execSel (f : Fields) (s : State) : Host.Outcome State Fault Refusal :=
  aluThree .sel f s fun a b c => if c.getLsbD 0 then a else b

/-- `mov` (R176). -/
def execMov (f : Fields) (s : State) : Host.Outcome State Fault Refusal := aluOne .mov f s fun a => a

/-- `movk` (R176). -/
def execMovk (f : Fields) (s : State) : Host.Outcome State Fault Refusal :=
  aluTwo .movk f s fun a b =>
    let p := 16 * (f.mod.toNat % 4)
    let m := BitVec.ofNat 64 (0xFFFF * 2 ^ p)
    (a &&& ~~~m) ||| (BitVec.ofNat 64 (b.toNat % 2 ^ 16 * 2 ^ p))

/-- The exact address of `lea` (R177). -/
def leaSum (mod : BitVec 6) (a b c : W64) : Int :=
  let idx : Int := if mod.getLsbD 3 then sext 32 b.toNat else (b.toNat : Int)
  (a.toNat : Int) + idx * (2 : Int) ^ (mod.toNat % 8) + sext 64 c.toNat

/-- The CHK faults of `lea`, in their order (R177). -/
def leaFault (x : Int) : Option (Cause × W64) :=
  let r := toW64 x
  if !isCanon r then some (cNoncanon, r)
  else if x < 0 ∨ (2 : Int) ^ 64 ≤ x then some (cAddrWrap, r)
  else none

/-- `lea` (R177). -/
def execLea (f : Fields) (s : State) : Host.Outcome State Fault Refusal :=
  runSlot .lea f s fun x s =>
    let l := x.faults fun i =>
      if !f.mod.getLsbD 4 then none
      else if (x.a[i]).p || (x.b[i]).p || (x.c[i]).p then some (cPoisonUse, 0)
      else leaFault (leaSum f.mod (x.a[i]).v (x.b[i]).v (x.c[i]).v)
    finishSlot x l (.now true (perLane fun i => lift3 (fun a b c => toW64 (leaSum f.mod a b c)) x.a[i] x.b[i] x.c[i])) s

end Sys2Proof.Machine
end

