-- ==== Sys2Proof/Machine/FloatOps.lean ====
section
/-!
DEFINITION. Sys2Proof/Machine/FloatOps.lean: group 2, the floating instructions (R178 to R183). A scalar FP16 or BF16 result
stands in bits [15:0] (R166).
-/

namespace Sys2Proof.Machine

/-- Negates a value when a modifier bit says so (R178). -/
def negIf (b : Bool) (x : FV) : FV := if b then fvNeg x else x

/-- One rounded result on every element (R178). -/
def fltRound (f : Fields) (g : FV → FV → FV → FV) (a b c : W64) : W64 :=
  fltOp f.ty (fun t x y z => roundFloat (g (fvOf t x) (fvOf t y) (fvOf t z)) t f.rm f.sat2) a b c

/-- `fadd` (R178). -/
def execFadd (f : Fields) (s : State) : Host.Outcome State Fault Refusal :=
  aluTwo .fadd f s fun a b => fltRound f (fun x y _ => fvAdd f.rm (negIf f.m3 x) (negIf f.m4 y)) a b 0

/-- `fsub` (R178). -/
def execFsub (f : Fields) (s : State) : Host.Outcome State Fault Refusal :=
  aluTwo .fsub f s fun a b => fltRound f (fun x y _ => fvAdd f.rm (negIf f.m3 x) (fvNeg (negIf f.m4 y))) a b 0

/-- `fmul` (R178). -/
def execFmul (f : Fields) (s : State) : Host.Outcome State Fault Refusal :=
  aluTwo .fmul f s fun a b => fltRound f (fun x y _ => fvMul (negIf f.m3 x) (negIf f.m4 y)) a b 0

/-- `ffma` (R178). -/
def execFfma (f : Fields) (s : State) : Host.Outcome State Fault Refusal :=
  aluThree .ffma f s (fltRound f fun x y z => fvAdd f.rm (negIf f.m3 (fvMul x y)) (negIf f.m4 z))

/-- `fmin` (R179). -/
def execFmin (f : Fields) (s : State) : Host.Outcome State Fault Refusal :=
  aluTwo .fmin f s fun a b => fltOp f.ty (fun t x y _ => fMinMax false f.sat0 t x y) a b 0

/-- `fmax` (R179). -/
def execFmax (f : Fields) (s : State) : Host.Outcome State Fault Refusal :=
  aluTwo .fmax f s fun a b => fltOp f.ty (fun t x y _ => fMinMax true f.sat0 t x y) a b 0

/-- Sign of a pattern, set and clear (R180). -/
def signOf (t : FF) (x : Nat) : Bool := decide (x / t.signBit % 2 = 1)

/-- The magnitude of a pattern under a sign (R180). -/
def signSet (t : FF) (neg : Bool) (x : Nat) : Nat := withSign t neg (x % t.signBit)

/-- `fabs` (R180). -/
def execFabs (f : Fields) (s : State) : Host.Outcome State Fault Refusal :=
  aluOne .fabs f s fun a => fltOp f.ty (fun t x _ _ => signSet t false x) a 0 0

/-- `fneg` (R180). -/
def execFneg (f : Fields) (s : State) : Host.Outcome State Fault Refusal :=
  aluOne .fneg f s fun a => fltOp f.ty (fun t x _ _ => signSet t (!signOf t x) x) a 0 0

/-- `fcsgn` (R180). -/
def execFcsgn (f : Fields) (s : State) : Host.Outcome State Fault Refusal :=
  aluTwo .fcsgn f s fun a b =>
    fltOp f.ty (fun t x y _ =>
      signSet t (match f.mod.toNat with
        | 0 => signOf t y
        | 1 => !signOf t y
        | _ => signOf t x != signOf t y) x) a b 0

/-- The scalar floating operand of TY 3, 9 or 10 (R165). -/
def scalar (f : Fields) (a : W64) : Nat := a.toNat % 2 ^ f.w

/-- `fcmp` (R181). -/
def execFcmp (f : Fields) (s : State) : Host.Outcome State Fault Refusal :=
  laneSlot .fcmp f false s fun x i =>
    lift2 (fun a b =>
      let t := Ty.ff f.ty
      if fcmpCond f.mod.toNat (fvCmp (fvOf t (scalar f a)) (fvOf t (scalar f b))) then 1 else 0) x.a[i] x.b[i]

/-- The number of the class of a pattern (R181). -/
def fclassBit (t : FF) (x : Nat) : Nat :=
  let neg := signOf t x
  let e := x / 2 ^ t.mbits % 2 ^ t.ebits
  match fvOf t x with
  | .nan => 8
  | .inf n => if n then 0 else 7
  | .fin _ m _ => if m = 0 then (if neg then 3 else 4) else if e = 0 then (if neg then 2 else 5) else if neg then 1 else 6

/-- `fclass` (R181). -/
def execFclass (f : Fields) (s : State) : Host.Outcome State Fault Refusal :=
  laneSlot .fclass f false s fun x i =>
    if f.mod.getLsbD 0 then
      lift2 (fun a b => if b.getLsbD (fclassBit (Ty.ff f.ty) (scalar f a)) then 1 else 0) x.a[i] x.b[i]
    else lift1 (fun a => BitVec.ofNat 64 (2 ^ fclassBit (Ty.ff f.ty) (scalar f a))) x.a[i]

/-- A value rounded to a whole number in its own format (R182). -/
def frndBits (t : FF) (rm x : Nat) : Nat :=
  match fvOf t x with
  | .nan => t.canon
  | .inf _ => x
  | .fin neg m e => if m = 0 || decide (0 ≤ e) then x else roundFloat (.fin neg (roundCount rm neg m e 0) 0) t 1 false

/-- `frnd` (R182). -/
def execFrnd (f : Fields) (s : State) : Host.Outcome State Fault Refusal :=
  aluOne .frnd f s fun a => BitVec.ofNat 64 (frndBits (Ty.ff f.ty) f.rm (scalar f a))

/-- `fscale` (R182). -/
def execFscale (f : Fields) (s : State) : Host.Outcome State Fault Refusal :=
  aluTwo .fscale f s fun a b =>
    let t := Ty.ff f.ty
    BitVec.ofNat 64 (roundFloat (fvScale (fvOf t (scalar f a)) (sext 32 b.toNat)) t f.rm f.sat2)

/-- What `fexpo` gives (R182). -/
def fexpoBits (t : FF) (x : Nat) : W64 :=
  match fvOf t x with
  | .fin _ m e => if m = 0 then 0x80000000 else BitVec.ofNat 64 (intResult true 32 false ((Nat.log2 m : Int) + e))
  | _ => 0x7FFFFFFF

/-- `fexpo` (R182). -/
def execFexpo (f : Fields) (s : State) : Host.Outcome State Fault Refusal :=
  laneSlot .fexpo f false s fun x i => lift1 (fun a => fexpoBits (Ty.ff f.ty) (scalar f a)) x.a[i]

/-- The exact sum of `fdot2` and `fdot4`: the accumulator and the products of the elements (R183). -/
def dotSum (f : Fields) (a b c : W64) : FV :=
  let t := Ty.ff f.ty
  let (w, n) := Ty.shape f.ty
  fvSum f.rm (fvOf ffF32 (c.toNat % 2 ^ 32) ::
    (List.range n).map fun i => fvMul (fvOf t (elem w i a.toNat)) (fvOf t (elem w i b.toNat)))

/-- `fdot2` (R183). -/
def execFdot2 (f : Fields) (s : State) : Host.Outcome State Fault Refusal :=
  laneSlot .fdot2 f false s fun x i =>
    lift3 (fun a b c => BitVec.ofNat 64 (roundFloat (dotSum f a b c) ffF32 f.rm f.sat2)) x.a[i] x.b[i] x.c[i]

/-- The exact integer sum of `fdot4.i8x4` (R183). -/
def dotInt (a b c : W64) : Int :=
  (List.range 4).foldl (fun y i => y + sext 8 (elem 8 i a.toNat) * sext 8 (elem 8 i b.toNat)) (sext 32 c.toNat)

/-- `fdot4` (R183). -/
def execFdot4 (f : Fields) (s : State) : Host.Outcome State Fault Refusal :=
  laneSlot .fdot4 f false s fun x i =>
    lift3 (fun a b c =>
      if f.ty = .i8x4 then BitVec.ofNat 64 (intResult true 32 f.sat2 (dotInt a b c))
      else BitVec.ofNat 64 (roundFloat (dotSum f a b c) ffF32 f.rm f.sat2)) x.a[i] x.b[i] x.c[i]

end Sys2Proof.Machine
end

