-- ==== Sys2Proof/Machine/Convert.lean ====
section
/-!
DEFINITION. Sys2Proof/Machine/Convert.lean: group 3, the conversions (R184 to R189).
-/

namespace Sys2Proof.Machine

/-- What the source of `cvt` holds (R184): a floating value, or an integer. -/
inductive CvtSrc where
  | flt (x : FV)
  | int (n : Int)

/-- The source value by MOD [5:3] (R184). -/
def cvtRead (n : Nat) (a : W64) : CvtSrc :=
  match n with
  | 0 => .int (sext 32 a.toNat)
  | 1 => .int (a.toNat % 2 ^ 32 : Nat)
  | 2 => .flt (fvOf ffF32 (a.toNat % 2 ^ 32))
  | 3 => .int (sext 64 a.toNat)
  | 4 => .int (a.toNat : Nat)
  | 5 => .flt (fvOf ffF16 (a.toNat % 2 ^ 16))
  | _ => .flt (fvOf ffBf16 (a.toNat % 2 ^ 16))

/-- `cvt`: a value converted to the target type (R184). -/
def cvtBits (t : Ty) (rm : Nat) (sat : Bool) (x : CvtSrc) : W64 :=
  let w := (Ty.shape t).1
  let r := intRange (Ty.signed t) w
  match x with
  | .flt v =>
    if Ty.flt t then BitVec.ofNat 64 (roundFloat v (Ty.ff t) rm sat)
    else BitVec.ofNat 64 (intResult (Ty.signed t) w false (fvClampInt v rm r.1 r.2))
  | .int n =>
    if Ty.flt t then BitVec.ofNat 64 (roundFloat (fvOfInt n) (Ty.ff t) rm sat)
    else BitVec.ofNat 64 (intResult (Ty.signed t) w sat n)

/-- `cvt` (R184). -/
def execCvt (f : Fields) (s : State) : Host.Outcome State Fault Refusal :=
  aluOne .cvt f s fun a => cvtBits f.ty f.rm f.sat2 (cvtRead (f.mod.toNat / 8) a)

/-- An element of a packed conversion from FP32 (R185). -/
def pkElem (t : Ty) (rm : Nat) (sat : Bool) (x : Nat) : Nat :=
  let w := (Ty.shape t).1
  let v := fvOf ffF32 (x % 2 ^ 32)
  if Ty.flt t then roundFloat v (Ty.ff t) rm sat
  else
    let r := intRange (Ty.signed t) w
    intResult true w false (fvClampInt v rm r.1 r.2)

/-- Elements of a packed result: A and B give two of them, the others come from `rest` (R185, R186). -/
def pkPlace (t : Ty) (half : Bool) (a b : Nat) (rest : W64) : W64 :=
  let (w, n) := Ty.shape t
  let k := if half then 2 else 0
  BitVec.ofNat 64 (ofElems w n fun i => if i = k then a else if i = k + 1 then b else elem w i rest.toNat)

/-- `cvt.pk` (R185): C holds the other elements of a word of four. -/
def execCvtPk (f : Fields) (s : State) : Host.Outcome State Fault Refusal :=
  laneSlot .cvtPk f false s fun x i =>
    let g (a b c : W64) : W64 := pkPlace f.ty f.m3 (pkElem f.ty f.rm f.sat2 a.toNat) (pkElem f.ty f.rm f.sat2 b.toNat) c
    if pk4 f.ty then lift3 g x.a[i] x.b[i] x.c[i] else lift2 (fun a b => g a b 0) x.a[i] x.b[i]

/-- `cvt.sr` (R186): each element is rounded with its own draw; lane 0 on the uniform unit (R167). -/
def execCvtSr (f : Fields) (s : State) : Host.Outcome State Fault Refusal :=
  laneSlot .cvtSr f false s fun x i =>
    let lane := if Sel.isS f.dst then 0 else i.val
    let k := if f.m3 then 2 else 0
    let sr (seed v : W64) (e : Nat) : Nat :=
      roundSR (fvOf ffF32 (v.toNat % 2 ^ 32)) (Ty.ff f.ty) (seed.extractLsb' 0 32) lane e f.sat2
    if f.ty = .f16 ∨ f.ty = .bf16 then lift2 (fun a c => BitVec.ofNat 64 (sr c a 0)) x.a[i] x.c[i]
    else lift3 (fun a b c => pkPlace f.ty f.m3 (sr c a k) (sr c b (k + 1)) 0) x.a[i] x.b[i] x.c[i]

/-- The element format of `mxq` and `mxdq` (R187). -/
def mxFormat (t : Ty) : FF :=
  match t with
  | .e4m3x4 => ffE4m3
  | .e5m2x4 => ffE5m2
  | _ => ffE2m1

/-- The values of the block that a bundle quantises (R187). -/
def mxBlock (x : Slot) : List FV :=
  (List.finRange 32).map fun (i : Fin 32) =>
    if x.ex.getLsbD i then fvOf ffF32 ((x.a[i]).v.toNat % 2 ^ 32) else .fin false 0 0

/-- Lane `l`'s word of the quantised block (R187). -/
def mxqWord (t : Ty) (p : List Nat) (l : Nat) : W64 :=
  if t = .b32 then BitVec.ofNat 64 (ofElems 4 8 fun j => p.getD (8 * (l / 8) + j) 0)
  else BitVec.ofNat 64 (ofElems 8 4 fun j => p.getD (4 * (l / 4) + j) 0)

/-- `mxq` (R187). -/
def execMxq (f : Fields) (s : State) : Host.Outcome State Fault Refusal :=
  laneSlot .mxq f false s fun x i =>
    let q := mxQuant (mxBlock x) (mxFormat f.ty)
    if (lanesOf x.ex).any fun j => (x.a[j]).p then Val.poison
    else Val.ok (if f.mod.getLsbD 0 then BitVec.ofNat 64 q.1 else mxqWord f.ty q.2 i.val)

/-- The value that `mxdq` gives (R188). -/
def mxdqBits (t : Ty) (e : Nat) (a : W64) (x : Nat) : W64 :=
  let w := if t = .b32 then 4 else 8
  let v := fvOf (mxFormat t) (elem w e a.toNat)
  if x = 0xFF then BitVec.ofNat 64 ffF32.canon
  else BitVec.ofNat 64 (roundFloat (fvScale v ((x : Int) - 127)) ffF32 0 false)

/-- `mxdq` (R188). -/
def execMxdq (f : Fields) (s : State) : Host.Outcome State Fault Refusal :=
  laneSlot .mxdq f false s fun x i =>
    lift2 (fun a b => mxdqBits f.ty (f.mod.toNat % 8) a (b.toNat % 256)) x.a[i] x.b[i]

/-- A signed value narrowed to `w` bits: truncated, or clamped signed or unsigned (R189). -/
def narrow (nar w : Nat) (x : Int) : Nat :=
  match nar with
  | 0 => intResult true w false x
  | 1 => intResult true w true x
  | _ => intResult false w true x

/-- The word that `pack` makes (R189). -/
def packWord (t : Ty) (nar : Nat) (a b : W64) : W64 :=
  if t = .i16x2 then
    BitVec.ofNat 64 (ofElems 16 2 fun i => narrow nar 16 (sext 32 (if i = 0 then a.toNat else b.toNat)))
  else
    BitVec.ofNat 64 (ofElems 8 4 fun i => narrow nar 8 (sext 16 (elem 16 (i % 2) (if i < 2 then a.toNat else b.toNat))))

/-- `pack` (R189). -/
def execPack (f : Fields) (s : State) : Host.Outcome State Fault Refusal :=
  laneSlot .pack f false s fun x i => lift2 (packWord f.ty f.rm) x.a[i] x.b[i]

/-- `unpack` (R189). -/
def execUnpack (f : Fields) (s : State) : Host.Outcome State Fault Refusal :=
  laneSlot .unpack f false s fun x i =>
    lift1 (fun a =>
      let e := elem f.w (f.mod.toNat % 4) a.toNat
      if f.mod.getLsbD 2 then BitVec.ofNat 64 e else BitVec.ofNat 64 (intResult true 32 false (sext f.w e))) x.a[i]

end Sys2Proof.Machine
end

