-- ==== Sys2Proof/Machine/Clause.lean ====
section
/-!
DEFINITION. Sys2Proof/Machine/Clause.lean: what stands before a clause's first slot: fetch (R27), the header and clause
checks (R42, R43), the conditions of R22 step 2, candidates and their choice (R339), bundles (R304, R305), and the start of
a clause (R22 steps 1 to 5).
-/

namespace Sys2Proof.Machine

/-! Fetch. -/

/-- The fetch checks of the header word alone (R20, R42), parity first. -/
def hdrFault (h : W64) : Option Cause :=
  if popcount 64 h.toNat % 2 = 1 then some cClauseParity
  else
    let a := hdrSeta h
    let b := hdrSetb h
    let rsv (n : Nat) : Bool := decide (12 ≤ n) && decide (n ≤ 14)
    if fld h 63 60 ≠ 0b1010 || decide (9 ≤ hdrCls h) || decide (fld h 12 1 ≠ 0) || rsv a || rsv b ||
      (decide (a = b) && decide (a ≠ 15)) then some cIllegalHeader
    else none

/-- Posts a page's PAGE_NOT_PRESENT record, once for the page (R76, R383). -/
def State.notePage (s : State) (asid : BitVec 16) (va : W64) (kind : Nat) : State :=
  let tag := asidTag asid
  let page := granVa va
  match smGet s.parts tag with
  | none => s
  | some p =>
    if p.waits.any fun w => w.asid = asid && w.page = page then s
    else
      (s.postInfo tag cPageNotPresent page (asid.toNat * 2 ^ 48 + kind)).modPart tag fun p =>
        { p with waits := p.waits ++ [{ asid := asid, page := page, kind := kind }] }

/-- Bytes of one line as the clause fetcher of cluster `p` sees them (R27): held ones may be used while stale, or read
again at the home slice, as a free value decides. -/
def State.fetchLine (s : State) (p : Nat) (asid : BitVec 16) (a n : Nat) : Acc (State × List Byte) :=
  let va := BitVec.ofNat 64 a
  let line := lineVa va
  let c := s.cluster p
  match c.cc.find? fun x => x.1 = asid && x.2.1 = line with
  | some x =>
    if Config.fetchOld s.tick line.toNat then .done (s, (x.2.2.drop (a % 128)).take n)
    else if s.sourceBusy (some p) asid line then .wait
    else
      match s.homeRead asid line 128 2 with
      | .fault c => .fault c
      | .wait => .wait
      | .done (s, d, _) =>
        .done (s.modCluster p fun c => { c with cc := (asid, line, d) :: c.cc.filter fun y => !(y.1 = asid && y.2.1 = line) },
          (d.drop (a % 128)).take n)
  | none =>
    if s.sourceBusy (some p) asid line then .wait
    else
    match s.homeRead asid line 128 2 with
    | .fault c => .fault c
    | .wait => .wait
    | .done (s, d, _) => .done (s.modCluster p fun c => { c with cc := (asid, line, d) :: c.cc }, (d.drop (a % 128)).take n)

/-- Fetches the parts of a range. -/
def State.fetchParts (s : State) (p : Nat) (asid : BitVec 16) : List (Nat × Nat) → Acc (State × List Byte)
  | [] => .done (s, [])
  | (a, n) :: r =>
    match s.fetchLine p asid a n with
    | .fault c => .fault c
    | .wait => .wait
    | .done (s, d) =>
      match State.fetchParts s p asid r with
      | .fault c => .fault c
      | .wait => .wait
      | .done (s, e) => .done (s, d ++ e)

/-- The words of a byte list. -/
def wordsOf : Nat → List Byte → List W64
  | 0, _ => []
  | n + 1, d => wordOfBytes (d.take 8) :: wordsOf n (d.drop 8)

/-- A clause fetched: its header and slots (R18, R22 step 1); a header that fails its checks is not followed by its slots
(R43). -/
def State.fetchClause (s : State) (p : Nat) (asid : BitVec 16) (pc : W64) : Acc (State × W64 × List W64) :=
  if inHost pc then .fault cPagePerm
  else if !isCanon pc then .fault cNoncanon
  else
    match s.fetchParts p asid [(pc.toNat, 8)] with
    | .fault c => .fault c
    | .wait => .wait
    | .done (s, d) =>
      let h := wordOfBytes d
      let n := hdrCnt h + 1
      if (hdrFault h).isSome then .done (s, h, [])
      else
      match s.fetchParts p asid (lineParts 4 (pc.toNat + 8) (8 * n)) with
      | .fault c => .fault c
      | .wait => .wait
      | .done (s, d) => .done (s, h, wordsOf n d)

/-! Checks. -/

/-- An instruction slot of a clause: its number, operation when OP is listed, and fields. -/
abbrev SlotWord := Nat × Option Op × Fields

/-- The instruction slots of a clause; `skip` when the first word is a literal (R18). -/
def parseSlots (skip : Bool) (i : Nat) : List W64 → List SlotWord
  | [] => []
  | w :: r =>
    if skip then parseSlots false (i + 1) r
    else
      let f := Fields.ofWord w (r.head?.getD 0)
      (i, Op.ofCode (w.extractLsb' 54 10).toNat, f) :: parseSlots f.usesLit (i + 1) r

/-- BPM marks a word that is no instruction slot (R26, R42). -/
def bpmFault (h : W64) (slots : List SlotWord) : Option Cause :=
  if (List.range 16).any fun i => (hdrBpm h).getLsbD i && !(slots.any fun x => x.1 = i) then some cIllegalHeader else none

/-- Registers that operand A spans in a tile of a width: the block of `xpose` is all of them (R198). -/
def spanA (tile : Nat) (o : Op) (f : Fields) : Nat :=
  match o with
  | .xpose => if f.mod = 0 then tile else if f.mod = 1 then tile / 2 else tile / 4
  | _ => SrcSpec.span (opSpec o f).a

/-- Two register ranges meet. -/
def meets (a n b m : Nat) : Bool := overlaps a (a + n) b (b + m)

/-- Results of the clause's own long-latency slots (R24): queue ages, v ranges, s ranges, k numbers, channel selectors. -/
structure OwnLong where
  q : List Nat := []
  v : List (Nat × Nat) := []
  s : List (Nat × Nat) := []
  k : List Nat := []
  ch : List (Option Nat) := []

/-- A source reads one of them. -/
def OwnLong.reads (l : OwnLong) (h : Cohort) (x : Sel) (n : Nat) : Bool :=
  match x with
  | .t i => l.q.contains i.val
  | .v i => l.v.any fun y => meets i.val n y.1 y.2
  | .s i => l.s.any fun y => meets i.val n y.1 y.2
  | .k i => l.k.contains i.val
  | .ch _ => (chanOf h x).isSome && l.ch.contains (chanOf h x)
  | _ => false

/-- A slot reads one of them (R24). -/
def OwnLong.slotReads (l : OwnLong) (h : Cohort) (o : Op) (f : Fields) : Bool :=
  let sp := opSpec o f
  l.reads h f.a.sel (spanA h.tile o f) || l.reads h f.b.sel (SrcSpec.span sp.b) || l.reads h f.c.sel (SrcSpec.span sp.c) ||
    l.k.contains f.pk.val

/-- The results after a slot. -/
def OwnLong.after (l : OwnLong) (h : Cohort) (o : Op) (f : Fields) : OwnLong :=
  let long := !isShort o && hasResult o f
  let n := dstSpan o f
  let q := if pushes o f then (l.q.map (· + 1)) else l.q
  let q := if pushes o f && long then 0 :: q else q
  let l := { l with q := q }
  let l := if !isShort o && linkK o f ≠ 0 then { l with k := linkK o f :: l.k } else l
  if !long then l
  else
    match f.dst with
    | .v i => { l with v := (i.val, n) :: l.v }
    | .s i => { l with s := (i.val, n) :: l.s }
    | .k i => { l with k := i.val :: l.k }
    | .ch _ => { l with ch := chanOf h f.dst :: l.ch }
    | _ => l

/-- The instruction slots after `i` are none: slot `i` is the last instruction slot. -/
def isLastSlot (slots : List SlotWord) (i : Nat) : Bool := slots.all fun x => decide (x.1 ≤ i)

/-- An operation does not belong at its place in the clause: its class, a transfer before the last instruction slot, or a
literal after the last slot (R25, R34). -/
def misplaced (hdr : W64) (slots : List SlotWord) (i : Nat) (o : Op) (f : Fields) : Bool :=
  let last := isLastSlot slots i
  let cls := (match opClass o with
    | none => true
    | some c => decide (c = hdrCls hdr) || (isCtl o && last))
  !cls || (isTransfer o && !last) || (f.usesLit && decide (i = hdrCnt hdr))

/-- The first slot that breaks a clause check (R24, R25, R34, R43), `l` being the results of the clause's own long-latency
slots before it. -/
def badSlot (h : Cohort) (hdr : W64) (slots : List SlotWord) (l : OwnLong) : List SlotWord → Option Nat
  | [] => none
  | (_, none, _) :: r => badSlot h hdr slots l r
  | (i, some o, f) :: r =>
    if misplaced hdr slots i o f || l.slotReads h o f then some i else badSlot h hdr slots (l.after h o f) r

/-- The clause checks (R24, R25, R34), over the slots whose OP is listed: ILLEGAL_CLAUSE at the slot that fails (R43). -/
def clauseFault (h : Cohort) (hdr : W64) (slots : List SlotWord) : Option (Cause × Nat) :=
  (badSlot h hdr slots {} slots).map fun i => (cIllegalClause, i)

/-! R22 step 2. -/

/-- A result of the cohort, not yet delivered in a lane, goes to a register that a range meets (R22, R135). -/
def State.regPending (s : State) (cid co : Nat) (lane : Nat) (x : Sel) (n : Nat) : Bool :=
  s.pends.any fun y =>
    let p := y.2
    decide (p.cid = cid) && decide (p.co = co) && !p.dead &&
      match x, p.dst with
      | .v i, .v j => p.waitRes.getLsbD lane && meets i.val n j.val p.width
      | .s i, .s j => decide (p.waitRes ≠ 0) && meets i.val n j.val p.width
      | .k i, .k j => p.waitRes.getLsbD lane && decide (i = j)
      | .k i, _ => p.waitRes.getLsbD lane && decide (p.kdst = some i.val)
      | _, _ => false

/-- A queue operand of a clause is a placeholder (R133), `pushed` entries being pushed before it is read. -/
def queuePending (th : Thread) (pushed : Nat) (x : Sel) : Bool :=
  match x with
  | .t i => decide (pushed ≤ i.val) && ((th.q.getD (i.val - pushed) QEnt.poison).pend).isSome
  | _ => false

/-- The sources and destinations of a clause's slots are free of pending results in a lane (R22 step 2, R135). -/
def State.sourcesReady (s : State) (tile cid co : Nat) (lane : Nat) (th : Thread) : Nat → List SlotWord → Bool
  | _, [] => true
  | n, (_, none, _) :: r => State.sourcesReady s tile cid co lane th n r
  | n, (_, some o, f) :: r =>
    let sp := opSpec o f
    let src (x : Sel) (m : Nat) : Bool := !queuePending th n x && !s.regPending cid co lane x m
    src f.a.sel (spanA tile o f) && src f.b.sel (SrcSpec.span sp.b) && src f.c.sel (SrcSpec.span sp.c) &&
      (f.pk.val = 0 || !s.regPending cid co lane (.k f.pk) 1) && !s.regPending cid co lane f.dst (dstSpan o f) &&
      (linkK o f = 0 || !s.regPending cid co lane (.k (Fin.ofNat 8 (linkK o f))) 1) &&
      State.sourcesReady s tile cid co lane th (if pushes o f then n + 1 else n) r

/-- Words that a slot pops from a channel, `chn.pop` included, `chn.try` not (R22, R358). -/
def slotPops (h : Cohort) (n : Nat) (o : Op) (f : Fields) : Nat :=
  popsOf h f n + (match o with | .chnPop => if h.ch[f.mod.toNat % 8]?.getD none = some n then 1 else 0 | _ => 0)

/-- Words that a slot pushes onto a channel. -/
def slotPushes (h : Cohort) (n : Nat) (f : Fields) : Nat := if chanOf h f.dst = some n then 1 else 0

/-- Pops and pushes of some slots on a channel. -/
def chanNeeds (h : Cohort) (n : Nat) (l : List SlotWord) : Nat × Nat :=
  l.foldl (fun y x =>
    match x.2.1 with
    | some o => (y.1 + slotPops h n o x.2.2, y.2 + slotPushes h n x.2.2)
    | none => y) (0, 0)

/-- Words at a channel's head whose lanes are all known. -/
def Chan.filled (ch : Chan) : Nat := (ch.words.takeWhile fun w => w.all fun e => e.pend.isNone).length

/-- Room of a channel (R355, R356, R358). -/
def Chan.room (ch : Chan) : Nat := 16 + 16 * ch.blocks.length - ch.words.length

/-- The slots a run has still to issue. -/
def Run.rest (r : Run) : List SlotWord := (parseSlots false 0 r.words).filter fun x => decide (r.slot ≤ x.1)

/-- What the clauses in progress of the crew's other cohorts still pop and push. -/
def State.chanHeld (s : State) (p cid n : Nat) : Nat × Nat :=
  (List.range 6).foldl (fun y i =>
    match (s.issue (6 * p + i)).run with
    | some r =>
      if r.cid = cid then
        match s.cohort? cid r.co with
        | some h => let m := chanNeeds h n r.rest; (y.1 + m.1, y.2 + m.2)
        | none => y
      else y
    | none => y) (0, 0)

/-- Channels that hold too few words, and channels that lack room, for a clause (R22 step 2). -/
def State.chanShort (s : State) (p cid : Nat) (c : Crew) (h : Cohort) (l : List SlotWord) : List Nat × List Nat :=
  (List.finRange 8).foldl (fun y n =>
    let ch := c.chans[n]
    let m := chanNeeds h n.val l
    let held := s.chanHeld p cid n.val
    (if m.1 ≠ 0 && decide (ch.filled < m.1 + held.1) then y.1 ++ [n.val] else y.1,
     if m.2 ≠ 0 && decide (ch.room < m.2 + held.2) then y.2 ++ [n.val] else y.2)) ([], [])

/-- The handle that a fabric instruction names (R281). -/
def fabHandle (o : Op) (f : Fields) : Option Nat :=
  let m := f.mod.toNat
  match o with
  | .ldf | .stf | .atomf | .casf | .fcp => some (m % 4)
  | .wcbFlush => if m / 4 % 2 = 1 then some (m % 4) else none
  | .fpeer => if m / 4 = 0 then some (m % 4) else none
  | _ => none

/-- A handle whose value is zero or below holds the clause (R282, R361). -/
def allowanceShort (h : Cohort) (cls : Nat) (l : List SlotWord) : Bool :=
  let low (a : Option Alw) : Bool := match a with | some a => decide (a.val ≤ 0) | none => false
  (l.any fun x =>
    match x.2.1.bind fun o => fabHandle o x.2.2 with
    | some n => (match h.w[n]?.getD none with | some a => decide (a.cls = 0) && decide (a.val ≤ 0) | none => false)
    | none => false) ||
  (decide (cls = 3) && h.w.any fun a => (match a with | some b => decide (b.cls = 1) | none => false) && low a)

/-- A slot closes the region (R319, R365). -/
def slotCloses (x : SlotWord) : Bool :=
  match x.2.1 with
  | some o => needsClose o x.2.2 || decide (o = .rgnOpen) || decide (o = .rgnClose)
  | none => false

/-- A slot makes an arrival at a barrier object (R350). -/
def slotArrives (x : SlotWord) : Bool :=
  match x.2.1 with
  | some .barArr => true
  | some .barExp => x.2.2.mod.getLsbD 0
  | _ => false

/-- Rendezvous instructions: over the tile, or over the cohort (R192). -/
def rendezvousOf (l : List SlotWord) : Option Bool :=
  let kinds := l.filterMap fun x =>
    match x.2.1 with
    | some .shflIdx | some .shflUp | some .shflDn | some .shflXor | some .voteAny | some .voteAll | some .voteBal
    | some .voteEq | some .redx | some .scanx | some .xpose => some false
    | some .rdlane | some .tileSet => some true
    | _ => none
  if kinds = [] then none else some (kinds.contains true)

/-- The lanes of a thread's tile (R190). -/
def tileLanes (tile lane : Nat) : BitVec 32 := BitVec.ofNat 32 ((2 ^ tile - 1) * 2 ^ (lane / tile * tile))

/-- Where a thread stands: its clause, the slot it enters at, whether it resumes there, and the raise of a clause it goes on
with (R304, R322, R368). -/
structure Stand where
  pc : W64
  slot : Nat
  resumed : Bool
  tok : Option (Nat × Nat × Nat)
  deriving DecidableEq, Repr, Inhabited

/-- A thread shares the bundle of those that stand at `st`: in a rendezvous clause, when it stands at the address (R193);
otherwise when it stands as they do, or goes on with the clause that they go on with (R304, R369). -/
def Thread.joins (meet : Bool) (st : Stand) (th : Thread) : Bool :=
  decide (th.pc = st.pc) && (meet || (if st.tok.isSome then decide (th.tok = st.tok) else
    decide (th.slot = st.slot) && decide (th.resumed = st.resumed) && th.tok.isNone))

/-- Where a thread stands. -/
def Thread.stand (th : Thread) : Stand := { pc := th.pc, slot := th.slot, resumed := th.resumed, tok := th.tok }

/-- A thread at a clause boundary that no hold of R304 keeps. -/
def Thread.unheld (th : Thread) : Bool := th.live && th.holds.isEmpty && th.trap.isNone

/-- An `ldu` of the thread waits for the MAP of its page (R233). -/
def State.lduWaits (s : State) (cid co lane : Nat) : Bool :=
  s.reqs.any fun x =>
    decide (x.2.cid = cid) && decide (x.2.co = co) && decide (x.2.stage = .contrail) &&
      match x.2.pend.bind fun id => smGet s.pends id with
      | some p => p.bundle && p.waitRes.getLsbD lane
      | none => false

/-- The conditions of R22 step 2 in one thread: flags (R21), sources (R133, R135), fences (R244), contrail (R74, R75), an
`ldu` that waits for a page (R233). -/
def State.laneReady (s : State) (tile cid co : Nat) (hdr : W64) (l : List SlotWord) (lane : Nat) (th : Thread) : Bool :=
  let cls := hdrCls hdr
  let raise := th.tok.isNone
  flagsClear th (hdrWait hdr) &&
    (!raise || ((decide (12 ≤ hdrSeta hdr) || flagRoom th (hdrSeta hdr)) && (decide (12 ≤ hdrSetb hdr) || flagRoom th (hdrSetb hdr)))) &&
    s.sourcesReady tile cid co lane th 0 l && !s.lduWaits cid co lane &&
    !((cls = 3 || cls = 4 || cls = 5 || cls = 6 || cls = 7) && s.underFence cid co lane) &&
    !((cls = 3 || cls = 4 || cls = 6 || cls = 7) && decide (8 ≤ th.contrail.length)) &&
    !((l.any fun x => match x.2.1 with | some o => closesRegion o x.2.2.mod | none => false) && !th.contrail.isEmpty)

/-! Candidates. -/

/-- A candidate (R339): cohort, place, where its threads stand, its clause, its issuable lanes, and a fault of fetch. -/
structure Cand where
  cid : Nat
  co : Nat
  place : Nat
  st : Stand
  hdr : W64
  words : List W64
  lanes : BitVec 32
  /-- Its clause is a rendezvous clause (R193). -/
  meet : Bool
  /-- Threads that enter the clause at a later slot than `st` says, with their slots (R193, R249). -/
  late : List (Nat × Nat)
  fault : Option (Cause × W64)
  age : Nat
  /-- Every thread set YLD at its last clause. -/
  yld : Bool
  /-- The cohort is allowance-blocked by this clause (R282). -/
  blocked : Bool
  /-- Channels that lack room (R356). -/
  full : List Nat
  /-- The threads and the ranges whose release its arrivals still need before the clause may start (R350). -/
  arr : Option (BitVec 32 × List (Nat × Nat))
  deriving Repr

/-- Lanes that may start: those whose rendezvous sets have arrived at the address and are ready (R193), the groups that form
one bundle (R305), and the threads that go on with one clause together (R304, R369). `rv` is what each lane has still to
meet. -/
def completeSets (h : Cohort) (pc : W64) (rv : Fin 32 → Option Bool) (ready : BitVec 32) : BitVec 32 :=
  let here := laneFilter h.live fun i => (h.threads[i]).unheld && decide ((h.threads[i]).pc = pc)
  let sets := laneFilter ready fun i =>
    let set := (match rv i with
      | none => 0
      | some true => h.live
      | some false => h.live &&& tileLanes h.tile i.val)
    decide (set &&& ~~~here = 0) && decide (set &&& here &&& ~~~ready = 0)
  laneFilter sets fun i =>
    let g := (h.threads[i]).grp
    let t := (h.threads[i]).tok
    (g = 0 || (lanesOf h.live).all fun j =>
      (h.threads[j]).grp != g || decide ((h.threads[j]).pc ≠ pc) || sets.getLsbD j) &&
    (t.isNone || (lanesOf here).all fun j => (h.threads[j]).tok != t || sets.getLsbD j)

/-- The first slot at which a thread of some lanes enters its clause. -/
def firstSlot (h : Cohort) (m : BitVec 32) : Nat :=
  (lanesOf m).foldl (fun n i => min n (h.threads[i]).slot) (((lanesOf m).head?.map fun i => (h.threads[i]).slot).getD 0)

/-- Where the bundle of some lanes stands as a whole: at the first of their slots, resumed when all of them are. -/
def standOf (h : Cohort) (pc : W64) (m : BitVec 32) : Stand :=
  { pc := pc, slot := firstSlot h m, resumed := (lanesOf m).all fun i => (h.threads[i]).resumed,
    tok := (lanesOf m).findSome? fun i => (h.threads[i]).tok }

/-- The earlier slots of a clause leave a source as it stands before the clause. -/
def settled (before : List SlotWord) : Sel → Bool
  | .v i => before.all fun x => match x.2.2.dst with | .v j => decide (i.val < j.val) || decide (j.val + 3 < i.val) | _ => true
  | .s i => before.all fun x => match x.2.2.dst with | .s j => decide (i.val < j.val) || decide (j.val + 3 < i.val) | _ => true
  | .t _ | .ch _ | .k _ => before.isEmpty
  | _ => true

/-- The ranges bound to the objects at which the slots of a clause arrive (R350): their indices are read as they stand before the
clause; one that the clause itself computes stands for any object of the crew. -/
def State.arrivalRanges (s : State) (c : Crew) (h : Cohort) (co : Nat) (lanes : BitVec 32) (l : List SlotWord) : List (Nat × Nat) :=
  (l.flatMap fun x =>
    if !slotArrives x then []
    else if settled (l.filter fun y => decide (y.1 < x.1)) x.2.2.a.sel then
      (lanesOf lanes).flatMap fun i =>
        let a := readSel h.threads[i] h.s (specEnv s c h.tile co i.val 0) none .i32 x.2.2.lit x.2.2.a.sel
        c.boundTo (bindObj false (BitVec.ofNat 64 a.lo.toNat))
    else c.bind.toList.filterMap fun b => b.bind fun b => if b.w0 = 0 then some (b.base, b.base + b.len) else none).eraseDups

/-- The release actions that an arrival needs are complete for its bundle's threads (R243, R350). -/
def State.releasedFor (s : State) (p cid co : Nat) (h : Cohort) (lanes : BitVec 32) (r : List (Nat × Nat)) : Bool :=
  !h.rgn.opened && h.trailEmpty lanes && (s.writesOut p cid co lanes (some r) false s.nextId).isEmpty &&
    (s.groupsOut cid (some r)).isEmpty && (s.issue (6 * p + h.slice)).red.all fun e =>
      !(decide (e.cid = cid) && decide (e.co = co) && !e.done.isEmpty && inRanges (some r) e.addr.toNat (if Ty.wide e.ty then 8 else 4))

/-- The readiness of a clause at one address for a cohort (R22 step 2), its fetch done. -/
def State.judge (s : State) (p cid co : Nat) (c : Crew) (h : Cohort) (st : Stand) (hdr : W64) (words : List W64) : Cand :=
  let slots := parseSlots false 0 words
  let meet := (rendezvousOf slots).isSome
  let here := laneFilter h.live fun i => (h.threads[i]).unheld && (h.threads[i]).joins meet st
  let from' (n : Nat) : List SlotWord := slots.filter fun x => decide (n ≤ x.1)
  let ready := laneFilter here fun i => s.laneReady h.tile cid co hdr (from' (h.threads[i]).slot) i.val h.threads[i]
  let lanes := completeSets h st.pc (fun i => rendezvousOf (from' (h.threads[i]).slot)) ready
  let st := if meet || st.tok.isSome then standOf h st.pc (if lanes = 0 then here else lanes) else st
  let base : Cand :=
    { cid := cid, co := co, place := h.place, st := st, hdr := hdr, words := words, lanes := here, meet := meet,
      late := (lanesOf lanes).filterMap fun i => if st.slot < (h.threads[i]).slot then some (i.val, (h.threads[i]).slot) else none,
      fault := none, age := 0, yld := (lanesOf here).all fun i => (h.threads[i]).yld, blocked := false, full := [],
      arr := none }
  match (hdrFault hdr).orElse fun _ => bpmFault hdr slots with
  | some e => { base with late := [], fault := some (e, 0) }
  | none =>
    let l := from' st.slot
    let closes := l.any slotCloses || hdrRgn hdr = 2 || (hdrRgn hdr = 3 && !st.resumed)
    let (few, full) := s.chanShort p cid c h l
    let calm := !(closes && decide (s.closeDecision cid co none = .wait)) && few.isEmpty && full.isEmpty
    let arr :=
      if calm && l.any slotArrives && decide (lanes ≠ 0) then
        let r := s.arrivalRanges c h co lanes l
        if s.releasedFor p cid co h lanes r then none else some (lanes, r)
      else none
    let free := calm && arr.isNone
    let short := allowanceShort h (hdrCls hdr) l
    { base with
      lanes := if free && !short then lanes else 0
      arr := arr
      blocked := free && short && decide (lanes ≠ 0)
      full := if few.isEmpty && decide (lanes ≠ 0) then full else [] }

/-- A page that an `ldu` of a clause ready to start finds absent (R233, R76): its operands are read as they stand before the
clause. -/
def State.lduAbsent (s : State) (k co : Nat) (c : Crew) (h : Cohort) (here : BitVec 32) (l : List SlotWord) : Option W64 :=
  l.findSome? fun x =>
    match x.2.1 with
    | some .ldu =>
      let f := x.2.2
      match (lanesOf here).find? fun i => decide ((h.threads[i]).slot ≤ x.1) && (h.threads[i]).pred f.pk.val != f.pn with
      | none => none
      | some i =>
        let env := specEnv s c h.tile co i.val 0
        let a := readSel h.threads[i] h.s env none .i64 f.lit f.a.sel
        let b := readSel h.threads[i] h.s env none .i32 f.lit f.b.sel
        let ea : Int := (a.v.toNat : Int) + sext 32 b.v.toNat
        let va := toW64 ea
        let asid := asidOf c.part c.space
        let held := decide (f.mod.toNat / 8 % 2 = 0) && ((s.issue k).l0Line? asid va).isSome
        if a.p || b.p || (addrFault ea 1 0).isSome || inHost va || held then none
        else
          match s.home asid va with
          | none => none
          | some q =>
            if ((s.slice q).find asid va).isSome then none
            else
              match s.walk q asid (vpnOf va) with
              | .error e => if e = cPageNotPresent then some va else none
              | .ok _ => none
    | _ => none

/-- The page that the fetch of a clause finds absent: that of its header, or the next one. -/
def State.absentPage (s : State) (asid : BitVec 16) (pc : W64) : W64 :=
  match s.walkLeaf asid (vpnOf pc) with
  | .ok _ => pc + 4096
  | .error _ => pc

/-- A candidate covers the threads that stand at a place. -/
def Cand.covers (c : Cand) (st : Stand) : Bool :=
  decide (c.st.pc = st.pc) && (c.meet || decide (c.st = st) || (st.tok.isSome && decide (c.st.tok = st.tok)))

/-- The candidates of a cohort, every clause fetched on the way; an absent page posts its record and holds the thread
(R76). -/
def State.candidates (s : State) (p cid co : Nat) (c : Crew) (h : Cohort) : State × List Cand :=
  let asid := asidOf c.part c.space
  let stands := (lanesOf (laneFilter h.live fun i => (h.threads[i]).unheld)).map fun i => (h.threads[i]).stand
  forL stands.eraseDups (s, []) fun st (s, l) =>
    if l.any fun y => y.covers st then (s, l)
    else
    match s.fetchClause p asid st.pc with
    | .done (s, hdr, words) =>
      let y := s.judge p cid co c h st hdr words
      let slots := parseSlots false 0 words
      let absent := if y.fault.isSome || (clauseFault h hdr slots).isSome then none
        else s.lduAbsent (6 * p + h.slice) co c h y.lanes slots
      match absent with
      | some va => (s.notePage asid va 0, l ++ [{ y with lanes := 0 }])
      | none => (s, l ++ [y])
    | .wait => (s, l)
    | .fault e =>
      if e = cPageNotPresent then (s.notePage asid (s.absentPage asid st.pc) 3, l)
      else
        (s, l ++ [{ cid := cid, co := co, place := h.place, st := st, hdr := 0, words := [],
                    lanes := laneFilter h.live fun i => (h.threads[i]).unheld && (h.threads[i]).joins false st,
                    meet := false, late := [], fault := some (e, st.pc), age := 0, yld := false, blocked := false,
                    full := [], arr := none }])

/-- A crew whose threads may issue (R302, R316, R379, R414). -/
def State.crewRuns (s : State) (c : Crew) : Bool :=
  decide (c.st = .running) && c.stopping.isNone && c.leaving.isNone &&
    (match smGet s.parts c.part with | some p => decide (p.qst = 0) | none => false) &&
    !(s.cluster c.p).halted && !(s.cluster c.p).zeroing

/-- Cohorts of an issue slice, by place (R335). -/
def State.sliceCohorts (s : State) (k : Nat) : List (Nat × Nat × Crew × Cohort) :=
  let l := s.crews.flatMap fun x =>
    if x.2.p = k / 6 && s.crewRuns x.2 then
      (x.2.cohorts.zipIdx).filterMap fun y => if y.1.slice = k % 6 && !y.1.closing then some (x.1, y.2, x.2, y.1) else none
    else []
  (List.range 8).flatMap fun n => l.filter fun y => y.2.2.2.place = n

/-- A candidate comes before another: larger age, then lower cohort slot, then lower address (R339). -/
def Cand.before (a b : Cand) : Bool :=
  decide (b.age < a.age) || (decide (a.age = b.age) && (decide (a.place < b.place) ||
    (decide (a.place = b.place) && decide (a.st.pc.toNat < b.st.pc.toNat))))

/-- SelectBundle (R339): `idle` is the idle time of a class's unit. -/
def selectCand (idle : Nat → Nat) (l : List Cand) : Option Cand :=
  let old := l.filter fun c => decide (3072 ≤ c.age)
  if !old.isEmpty then bestOf Cand.before old
  else
    let y := l.filter fun c => !c.yld
    let l := if y.isEmpty then l else y
    let unit (c : Cand) : Nat := idle (hdrCls c.hdr)
    bestOf (fun a b => decide (unit b < unit a) || (decide (unit a = unit b) && a.before b)) l

/-- The lanes of the bundle (R304, R305): all of a rendezvous, all that go on with one clause, whole groups, otherwise a subset
that a free value gives. -/
def bundleLanes (tick : Nat) (h : Cohort) (c : Cand) : BitVec 32 :=
  if c.meet || c.st.tok.isSome then c.lanes
  else
    let m := Config.bundleMask tick &&& c.lanes
    let m := if m = 0 then ((lanesOf c.lanes).head?.map fun i => laneBit i.val).getD 0 else m
    m ||| laneFilter c.lanes fun i =>
      let g := (h.threads[i]).grp
      g != 0 && (lanesOf m).any fun j => (h.threads[j]).grp == g

/-! The start of a clause. -/

/-- The threads of a bundle trap at the boundary of the clause fetched, for a check that fails at a slot (R42, R43, R77, R321,
R377). -/
def State.boundaryTrap (s : State) (c : Cand) (m : BitVec 32) (cause : Cause) (addr : W64) (slot : Nat) : State :=
  let t : TrapRec :=
    { cause := cause, addr := addr, trpc := trpcOf c.st.pc slot, rpc := c.st.pc, rslot := 0, skip := false, rank := 0,
      ord := 0, peer := none, inRgn := true }
  let s := s.modLanes c.cid c.co m fun _ th => { th with trap := some { t with rslot := th.slot } }
  match s.cohort? c.cid c.co with
  | some h => if h.rgn.opened then s.closeNow c.cid c.co none true else s.enterTraps c.cid c.co
  | none => s

/-- The region of the clause (R22 step 4, R363): RGN 01 and 11, a reopening that is due, or a clause region. An error is
the state after a restart in place of the close. -/
def State.openForClause (s : State) (c : Cand) (m : BitVec 32) (h : Cohort) (arrives : Bool) : Except State State :=
  let o : Opening := { header := 0, mid := none }
  let rgn := if c.st.resumed then 0 else hdrRgn c.hdr
  if decide (rgn % 2 = 1) && decide (h.rgn.again &&& m ≠ 0) then
    .ok (s.modCohort c.cid c.co fun h => { h with rgn := { h.rgn with again := h.rgn.again &&& ~~~m } })
  else if rgn = 3 && h.rgn.opened then
    match s.closeDecision c.cid c.co none with
    | .restart => .error (s.suspectRestart c.cid c.co)
    | _ => .ok ((s.commitRegion c.cid c.co false).openRegion c.cid c.co true { o with header := m })
  else if h.rgn.opened then .ok s
  else if rgn % 2 = 1 then .ok (s.openRegion c.cid c.co true { o with header := m })
  else if h.rgn.reopen then (if arrives then .ok s else .ok (s.openRegion c.cid c.co true o))
  else .ok (s.openRegion c.cid c.co false o)

/-- A thread of the bundle raises the clause's flags: it does not go on with a raise that the bundle keeps (R369). -/
def Cand.raises (c : Cand) (h : Cohort) (i : Fin 32) : Bool :=
  match c.st.tok, (h.threads[i]).tok with
  | some t, some u => decide (t.1 ≠ u.1)
  | _, _ => true

/-- The number under which the clause's results stand: that of the raise it goes on with, whose lanes others may join, or a
new one (R22 step 5, R23, R369). -/
def State.raiseTok (s : State) (c : Cand) (a b : Nat) (up : BitVec 32) : State × Nat :=
  let t : Tok :=
    { cid := c.cid, co := c.co, seta := a, setb := b, la := if a < 12 then up else 0, lb := if b < 12 then up else 0,
      ended := false }
  match c.st.tok with
  | none => ({ s.fresh with toks := smSet s.toks s.nextId t }, s.nextId)
  | some (id, _, _) =>
    ({ s with toks := smMod s.toks id fun y => { y with la := y.la ||| t.la, lb := y.lb ||| t.lb, ended := false } }, id)

/-- The raises that threads of the bundle do not go on with end: those threads raise the clause's flags anew (R23). -/
def State.endToks (s : State) (c : Cand) (h : Cohort) (m : BitVec 32) : State :=
  forL (((lanesOf m).filterMap fun i => if c.raises h i then (h.threads[i]).tok else none).map (·.1)).eraseDups s fun id s =>
    State.settle { s with toks := smMod s.toks id fun t => { t with ended := true } } id

/-- Starts the clause of a candidate for the lanes of its bundle (R22 steps 3 to 5). -/
def State.startClause (s : State) (k : Nat) (c : Cand) (h : Cohort) (m : BitVec 32) : State :=
  let slots := parseSlots false 0 c.words
  match c.fault with
  | some (e, a) => s.boundaryTrap c m e a 0
  | none =>
    match clauseFault h c.hdr slots with
    | some (e, i) => s.boundaryTrap c m e 0 i
    | none =>
      match s.openForClause c m h (slots.any slotArrives) with
      | .error s => s
      | .ok s =>
        let a := hdrSeta c.hdr
        let b := hdrSetb c.hdr
        let up := laneFilter m (c.raises h)
        let (s, tok) := (s.endToks c h m).raiseTok c a b up
        let r : Run :=
          { cid := c.cid, co := c.co, lanes := m &&& ~~~forL c.late 0 (fun y n => n ||| laneBit y.1), hpc := c.st.pc,
            hdr := c.hdr, words := c.words, slot := c.st.slot,
            skips := laneFilter m fun i => (h.threads[i]).bpSkip, late := c.late, tok := tok, cost := 0, yld := false,
            tile := h.tile }
        let s := s.modLanes c.cid c.co m fun i th =>
          let th := if up.getLsbD i then raiseFlag b (raiseFlag a th) else th
          { th with pc := r.next, slot := 0, resumed := false, bpSkip := false, tok := none, grp := 0 }
        s.modIssue k fun i => { i with run := some r, last := i.last.setIfInBounds (hdrCls c.hdr) i.cyc }

/-- A hold of a thread is over (R318, R351); joins, `cwait` and `gbar` end by what releases them. -/
def State.holdOver (s : State) (c : Crew) (th : Thread) : Hold → Bool
  | .flags m any => if any then flagsAny th m || decide (m = 0) else flagsClear th m
  | .bar i ph => decide (natOfBytes (memRead s.mem (c.barAt i) 2) ≠ ph)
  | _ => false

/-- Threads whose holds are over are released; a barrier wait then makes its acquire (R260, R351). -/
def State.releaseHolds (s : State) (cid co : Nat) (c : Crew) (h : Cohort) : State :=
  forL (lanesOf h.live) s fun i s =>
    let th := h.threads[i]
    let done := th.holds.filter (s.holdOver c th)
    if done.isEmpty then s
    else
      let s := s.modThread cid co i.val fun th => { th with holds := th.holds.filter fun x => !done.contains x }
      forL done s fun x s =>
        match x with
        | .bar idx _ =>
          s.startFence cid co 0 (laneBit i.val) (trpcOf th.pc 0)
            { hold := true, rel := false, acq := true, scope := 1, ranges := some (c.boundTo (bindObj false (BitVec.ofNat 64 idx))),
              step := 0, waits := [], next := .done }
        | _ => s

/-- The boundary trap that a thread takes next: by rank, then by the order of instructions (R380). -/
def nextDue (l : List TrapRec) : Option TrapRec :=
  bestOf (fun a b => decide (a.rank < b.rank) || (decide (a.rank = b.rank) && decide (a.ord < b.ord))) l

/-- Takes one boundary trap in each thread of a cohort that may take one (R378, R380). -/
def State.takeDue (s : State) (cid co : Nat) (h : Cohort) : Option State :=
  let m := laneFilter h.live fun i =>
    let th := h.threads[i]
    th.unheld && !th.inHandler && !th.due.isEmpty
  if m = 0 then none
  else
    let s := s.modLanes cid co m fun _ th =>
      match nextDue th.due with
      | none => th
      | some t => { th with due := th.due.erase t, trap := some { t with rpc := th.pc, rslot := th.slot, skip := th.bpSkip,
                                                                         trpc := if t.trpc = 0 then trpcOf th.pc 0 else t.trpc } }
    some (if h.rgn.opened then s.closeNow cid co none true else s.enterTraps cid co)

/-- What a coming arrival needs done before its clause starts (R350): the region closed early, and the parts in the ranges drained
once the earlier writes to them are performed (R243). -/
def State.prepareArrival (s : State) (p cid co : Nat) (h : Cohort) (m : BitVec 32) (r : List (Nat × Nat)) : State :=
  if h.rgn.opened then
    match s.closeDecision cid co none with
    | .wait => s
    | .restart => s.suspectRestart cid co
    | .commit => s.commitRegion cid co true
  else if (s.writesOut p cid co m (some r) false s.nextId).isEmpty then s.drainCohort p cid co (some r)
  else s

/-- A pusher begins to wait for room in a channel (R356). -/
def Crew.chanWaits (c : Crew) (n time : Nat) : Crew :=
  let ch := c.chans[n]?.getD default
  { c with chans := c.chans.setIfInBounds n { ch with wait := some (ch.wait.getD time) } }

/-- The clause of an issue slice that a close had parked and that may go on (R366), with its crew and cohort. -/
def State.readyRun (s : State) (k : Nat) : Option (Nat × Nat × Run) :=
  (s.crews.flatMap fun x => (x.2.cohorts.zipIdx).filterMap fun y =>
    if x.2.p = k / 6 && y.1.slice = k % 6 && y.1.ready then y.1.parked.map fun r => (x.1, y.2, r) else none).head?

/-- The holds of a slice's threads that are over end (R318, R351). -/
def State.releaseSlice (s : State) (k : Nat) : State :=
  forL (s.sliceCohorts k) s fun x s => s.releaseHolds x.1 x.2.1 x.2.2.1 x.2.2.2

/-- The first cohort of a slice with boundary traps due takes them (R380). -/
def State.sliceDue (s : State) (k : Nat) : Option State :=
  (s.sliceCohorts k).findSome? fun x => s.takeDue x.1 x.2.1 x.2.2.2

/-- The candidates of a slice (R339), once the cycles that it idled have passed. -/
def State.gather (s : State) (k : Nat) : State × List Cand :=
  forL (s.sliceCohorts k) (s.modIssue k fun i => { i with cyc := i.cyc + Config.idleCycles s.tick }, []) fun x (s, l) =>
    let (s, m) := s.candidates (k / 6) x.1 x.2.1 x.2.2.1 x.2.2.2
    (s, l ++ m)

/-- What a slice notes of its candidates: since when threads are issuable (R339), of no cohort that an allowance blocks (R340); pushers that wait for room (R356), and
arrivals to be prepared (R350). -/
def State.noteCands (s : State) (k : Nat) (l : List Cand) : State :=
  let cyc := (s.issue k).cyc
  forL l s fun c s =>
    let still := l.any fun d => d.blocked && decide (d.cid = c.cid) && decide (d.co = c.co)
    let s := s.modLanes c.cid c.co (laneFilter (BitVec.allOnes 32) fun _ => true) fun i th =>
      if th.live && th.joins c.meet c.st then
        { th with since := if c.lanes.getLsbD i && !still then some (th.since.getD cyc) else none }
      else th
    let s := forL c.full s fun n s => s.modCrew c.cid fun cr => cr.chanWaits n (s.clock (k / 6))
    match c.arr, s.cohort? c.cid c.co with
    | some r, some h => s.prepareArrival (k / 6) c.cid c.co h r.1 r.2
    | _, _ => s

/-- The candidate that SelectBundle chooses (R339): ages are counted since the first thread became issuable; a cohort that an
allowance blocks offers none (R282). -/
def State.chosen (s : State) (k : Nat) (l : List Cand) : Option Cand :=
  let cyc := (s.issue k).cyc
  let aged := l.map fun c =>
    match s.cohort? c.cid c.co with
    | some h => { c with age := (lanesOf c.lanes).foldl (fun y i => max y (cyc - ((h.threads[i]).since.getD cyc))) 0 }
    | none => c
  let ok := aged.filter fun c =>
    decide (c.lanes ≠ 0) && !(l.any fun d => d.blocked && decide (d.cid = c.cid) && decide (d.co = c.co))
  let last := (s.issue k).last
  selectCand (fun u => cyc - last[u]?.getD 0) ok

/-- A crew whose clause starts does not wait: the detector of R359 and the idle time of R404 begin anew. -/
def State.noteAwake (s : State) (cid : Nat) : State :=
  match smGet s.crews cid with
  | some c => (s.modCrew cid fun x => { x with wdBlocked := none }).modPart c.part fun t => { t with idleSince := none }
  | none => s

/-- A slice without a clause chooses one and starts it (R22 steps 3 to 5, R339). -/
def State.selectClause (s : State) (k : Nat) : State :=
  let (s, l) := s.gather k
  let s := s.noteCands k l
  match s.chosen k l with
  | none => s
  | some c =>
    match s.cohort? c.cid c.co with
    | some h => (s.noteAwake c.cid).startClause k c h (bundleLanes s.tick h c)
    | none => s

/-- A double-bit error of storage (R372): the word becomes poison, and the error is a detected silent error. The word is a named
register or a queue entry of a thread of the slice, or else a word of the stash. -/
def State.spoil (s : State) (k place word : Nat) : State :=
  let s := s.silentError (k / 6) 4
  let n := word % 80
  match (s.sliceCohorts k)[place]? with
  | some (cid, co, _, _) => s.modThread cid co (word / 80 % 32) fun th =>
      if n < 64 then { th with v := th.v.setIfInBounds n { (th.v[n]?.getD default) with p := true } }
      else { th with q := th.q.modify (n - 64) fun e => { e with p := true } }
  | none => { s with memPz := nsAdd ((stashAddr (k / 6) 0 + 8 * word % Config.stashBytes) / 8) s.memPz }

/-- Such an error where the free value gives one (log 2). -/
def State.storageError (s : State) (k : Nat) : State :=
  match Config.storageError s.tick with
  | none => s
  | some (place, word) => s.spoil k place word

/-- BUNDLE_SELECT (R304, R339): releases, boundary traps, then the choice of a candidate and the start of its clause. -/
def State.bundleSelect (s : State) (k : Nat) : State :=
  if (s.issue k).run.isSome then s
  else
    match s.readyRun k with
    | some (cid, co, r) =>
      (s.modCohort cid co fun h => { h with parked := none, ready := false }).modIssue k fun i => { i with run := some r }
    | none =>
      let s := s.releaseSlice k
      match s.sliceDue k with
      | some s => s
      | none => s.selectClause k

end Sys2Proof.Machine
end

