-- ==== Sys2Proof/Machine/Sfu.lean ====
section
/-!
DEFINITION. Sys2Proof/Machine/Sfu.lean: the values of group 5, the special functions (R162, R163). Division and square root
are exact. Where the spec gives a bound, the exact result is enclosed between two rational numbers and the value is a free one
among the patterns within the bound (notes/assumptions/7.md).
-/

namespace Sys2Proof.Machine

/-- Numbers between which an exact result lies: lo × 2^e and hi × 2^e. -/
structure Encl where
  lo : Int
  hi : Int
  e : Int
  deriving DecidableEq, Repr, Inhabited

/-- A whole number times a power of two as a value. -/
def fvScaled (n e : Int) : FV := .fin (decide (n < 0)) n.natAbs e

/-- A quotient of naturals with 80 bits or more and a sticky bit: its whole number and exponent (R152, R162). -/
def stickyDiv (m n : Nat) : Nat × Int :=
  let k := 80 + Nat.log2 n
  let q := m * 2 ^ k / n
  (2 * q + (if m * 2 ^ k % n = 0 then 0 else 1), -(k : Int) - 1)

/-- `fdiv`, correctly rounded (R162, R163). -/
def fdivBits (f : FF) (a b : FV) : Nat :=
  match a, b with
  | .nan, _ | _, .nan | .inf _, .inf _ => f.canon
  | .inf x, .fin y _ _ => withSign f (x != y) f.infBits
  | .fin x _ _, .inf y => withSign f (x != y) 0
  | .fin x m e, .fin y n g =>
    if m = 0 ∧ n = 0 then f.canon
    else if n = 0 then withSign f (x != y) f.infBits
    else if m = 0 then withSign f (x != y) 0
    else
      let q := stickyDiv m n
      roundFloat (.fin (x != y) q.1 (e - g + q.2)) f 0 false

/-- Integer square root by Newton's steps from above; 400 of them suffice for the widths used. -/
def isqrtN (n : Nat) : Nat :=
  if n = 0 then 0 else forN 400 (2 ^ (Nat.log2 n / 2 + 1)) fun _ x => let y := (x + n / x) / 2; if y < x then y else x

/-- `fsqrt`, correctly rounded (R162, R163). -/
def fsqrtBits (f : FF) (a : FV) : Nat :=
  match a with
  | .nan => f.canon
  | .inf x => if x then f.canon else f.infBits
  | .fin x m e =>
    if m = 0 then withSign f x 0
    else if x then f.canon
    else
      let odd := decide (e % 2 ≠ 0)
      let m2 := (if odd then 2 * m else m) * 2 ^ 160
      let r := isqrtN m2
      roundFloat (.fin false (2 * r + (if r * r = m2 then 0 else 1)) ((if odd then e - 1 else e) / 2 - 81)) f 0 false

/-! Enclosures in fixed point: numbers in units of 2^-192, each within 2^-100 of what it stands for. -/

/-- One (fixed point). -/
def fxOne : Int := 2 ^ 192
/-- The margin of every enclosure. -/
def fxEps : Int := 2 ^ 92
/-- Product (fixed point). -/
def fxMul (a b : Int) : Int := a * b / fxOne
/-- Quotient (fixed point). -/
def fxDiv (a b : Int) : Int := if b = 0 then 0 else a * fxOne / b
/-- The natural logarithm of 2 (fixed point). -/
def fxLn2 : Int := 0xb17217f7d1cf79abc9e3b39803f2f6af40f343267298b62d
/-- 2 / √π (fixed point). -/
def fxErf : Int := 0x120dd750429b6d11ae3a914fed7fd8688281341d7587cea2e
/-- π / 2 in units of 2^-448. -/
def halfPi : Int :=
  0x1921fb54442d18469898cc51701b839a252049c1114cf98e804177d4c76273644a29410f31c6809bbdf2a33679a748636605614dbe4be286e

/-- A value in fixed point, cut downwards; the inputs used lie within ±2^11. -/
def fxOf (neg : Bool) (m : Nat) (e : Int) : Int :=
  let k := e + 192
  let x : Int := if 0 ≤ k then (m : Int) * 2 ^ k.toNat else m / 2 ^ (-k).toNat
  if neg then -x else x

/-- A fixed-point number with its margin, times a power of two. -/
def fxEncl (x e : Int) : Encl := { lo := x - fxEps, hi := x + fxEps, e := e - 192 }

/-- e^z for 0 ≤ z ≤ 1. -/
def fxExp (z : Int) : Int :=
  (forN 60 (0, fxOne) fun i (y : Int × Int) => (y.1 + y.2, fxMul y.2 z / ((i : Int) + 1))).1

/-- e^z for any z ≥ 0 as a fixed-point number and a power of two. -/
def fxExpBig (z : Int) : Int × Int :=
  let n := z / fxLn2
  (fxExp (z - n * fxLn2), n)

/-- log2 of a number from 1 to 2. -/
def fxLog2 (y : Int) : Int :=
  let t := fxDiv (y - fxOne) (y + fxOne)
  let t2 := fxMul t t
  let s := (forN 80 (0, t) fun i (x : Int × Int) => (x.1 + x.2 / (2 * (i : Int) + 1), fxMul x.2 t2)).1
  fxDiv (2 * s) fxLn2

/-- Sine (`j` 1) or cosine (`j` 0) series of r with |r| below 2. -/
def fxTrig (j : Nat) (r : Int) : Int :=
  let r2 := fxMul r r
  (forN 50 (0, if j = 1 then r else fxOne) fun i (y : Int × Int) =>
    (y.1 + y.2, -(fxMul y.2 r2) / ((2 * (i : Int) + (j : Int) + 1) * (2 * (i : Int) + (j : Int) + 2)))).1

/-- Sine or cosine of a finite value, the reduction by π / 2 exact (R162). -/
def trigEncl (cosine : Bool) (neg : Bool) (m : Nat) (e : Int) : Encl :=
  let k := e + 448
  let x : Int := if 0 ≤ k then (m : Int) * 2 ^ k.toNat else m / 2 ^ (-k).toNat
  let x := if neg then -x else x
  let n := x / halfPi
  let r := (x - n * halfPi) / 2 ^ 256
  let q := (n + if cosine then 1 else 0) % 4
  let y := if q = 0 then fxTrig 1 r else if q = 1 then fxTrig 0 r else if q = 2 then -fxTrig 1 r else -fxTrig 0 r
  fxEncl y 0

/-- 1 / (1 + e^-z) for z ≥ 0. -/
def fxSig (z : Int) : Int :=
  if 80 * fxOne ≤ z then fxOne
  else
    let p := fxExpBig z
    let big := p.1 * 2 ^ p.2.toNat
    fxDiv big (big + fxOne)

/-- erf of z ≥ 0: the series of 2/√π e^(-z²) Σ 2^n z^(2n+1) / (2n+1)!!. -/
def fxErfOf (z : Int) : Int :=
  if 8 * fxOne ≤ z then fxOne
  else
    let z2 := fxMul z z
    let s := (forN 420 (0, z) fun i (y : Int × Int) => (y.1 + y.2, 2 * fxMul y.2 z2 / (2 * (i : Int) + 3))).1
    let p := fxExpBig z2
    fxMul fxErf (fxDiv s (p.1 * 2 ^ p.2.toNat))

/-- The order of the patterns of a format: -0 just below +0. -/
def patKey (f : FF) (x : Nat) : Int := if x < f.signBit then (x : Int) else -1 - ((x - f.signBit : Nat) : Int)

/-- The pattern at a place of that order. -/
def patOfKey (f : FF) (k : Int) : Nat := if 0 ≤ k then k.toNat else f.signBit + (-1 - k).toNat

/-- A free pattern among those within `k` ulps of an enclosed result, or within 2^abs where that is larger (R162), and
between two patterns of the true range. The ulp is the quantum at the exact result, which beside a power of two lies on the
side of the enclosure's `far` end or of its end nearer zero. -/
def withinBound (f : FF) (k : Nat) (abs : Option Int) (lowest highest : Nat) (far : Bool) (x : Encl) (free : W64) : Nat :=
  let size := if far then max x.lo.natAbs x.hi.natAbs else min x.lo.natAbs x.hi.natAbs
  let q := max ((Nat.log2 size : Int) + x.e) f.emin - f.mbits
  let g := min x.e (min q (abs.getD q))
  let b : Int := max ((k : Int) * 2 ^ (q - g).toNat) (match abs with | some a => 2 ^ (a - g).toNat | none => 0)
  let sc : Int := 2 ^ (x.e - g).toNat
  let top := fvScaled (x.hi * sc + b) g
  let lo := patKey f (roundFloat (fvScaled (x.lo * sc - b) g) f 2 false)
  let hi := patKey f (if roundFloat top f 0 false = f.infBits then f.infBits else roundFloat top f 3 false)
  let lo := max lo (patKey f lowest)
  let hi := max lo (min hi (patKey f highest))
  patOfKey f (lo + ((free.toNat % ((hi - lo).toNat + 1) : Nat) : Int))

/-- FP32 or FP16: ulps and absolute bound of R162 for each. -/
def boundOf (t : Ty) (k : Nat) (a32 a16 : Option Int) : Nat × Option Int := if t = .f16 then (1, a16) else (k, a32)

/-- One, and minus one, in a format. -/
def onePat (f : FF) : Nat := f.bias * 2 ^ f.mbits

/-- `frcp` (R162, R163). -/
def frcpBits (t : Ty) (a : FV) (free : W64) : Nat :=
  let f := Ty.ff t
  match a with
  | .nan => f.canon
  | .inf n => withSign f n 0
  | .fin n m e =>
    if m = 0 then withSign f n f.infBits
    else
      let k := 200 + Nat.log2 m
      let q : Int := 2 ^ k / (m : Int)
      let y := withinBound f 1 none 0 f.infBits false { lo := q, hi := q + (if 2 ^ k % m = 0 then 0 else 1), e := -e - k } free
      withSign f n y

/-- `frsq` (R162, R163). -/
def frsqBits (t : Ty) (a : FV) (free : W64) : Nat :=
  let f := Ty.ff t
  match a with
  | .nan => f.canon
  | .inf n => if n then f.canon else 0
  | .fin n m e =>
    if m = 0 then withSign f n f.infBits
    else if n then f.canon
    else
      let odd := decide (e % 2 ≠ 0)
      let m := if odd then 2 * m else m
      let e := if odd then e - 1 else e
      let k := 200 + Nat.log2 m
      let r : Int := isqrtN (2 ^ (2 * k) / m)
      withinBound f 1 none 0 f.infBits false { lo := r, hi := r + 1, e := -(e / 2) - k } free

/-- `fex2` (R162, R163). -/
def fex2Bits (t : Ty) (a : FV) (free : W64) : Nat :=
  let f := Ty.ff t
  match a with
  | .nan => f.canon
  | .inf n => if n then 0 else f.infBits
  | .fin n m e =>
    if m = 0 then onePat f
    else
      let far := decide (11 < (Nat.log2 m : Int) + e)
      let x := if far then (if n then -2048 * fxOne else 2048 * fxOne) else fxOf n m e
      let k := x / fxOne
      let fr := x - k * fxOne
      let whole := decide (0 ≤ e) || decide (m % 2 ^ (-e).toNat = 0)
      if whole && !far && decide (f.emin - f.mbits ≤ k) && decide (k < (f.bias : Int) + 1) then roundFloat (.fin false 1 k) f 0 false
      else
        let b := boundOf t 2 none none
        let y := fxExp (fxMul fr fxLn2)
        withinBound f b.1 b.2 0 f.infBits (decide (2 * y < 3 * fxOne)) (fxEncl y k) free

/-- `flg2` (R162, R163). -/
def flg2Bits (t : Ty) (a : FV) (free : W64) : Nat :=
  let f := Ty.ff t
  match a with
  | .nan => f.canon
  | .inf n => if n then f.canon else f.infBits
  | .fin n m e =>
    if m = 0 then withSign f true f.infBits
    else if n then f.canon
    else
      let lg := Nat.log2 m
      if m = 2 ^ lg then roundFloat (fvOfInt ((lg : Int) + e)) f 0 false
      else
        let x := fxLog2 ((m : Int) * 2 ^ 192 / 2 ^ lg) + ((lg : Int) + e) * fxOne
        let near := decide ((lg : Int) + e = -1) || decide ((lg : Int) + e = 0)
        let b := boundOf t 2 (if near then some (-22) else none) none
        withinBound f b.1 b.2 (withSign f true f.infBits) f.infBits false (fxEncl x 0) free

/-- `fsin` and `fcos` (R162, R163). -/
def trigBits (cosine : Bool) (t : Ty) (a : FV) (free : W64) : Nat :=
  let f := Ty.ff t
  match a with
  | .nan | .inf _ => f.canon
  | .fin n m e =>
    if m = 0 then (if cosine then onePat f else withSign f n 0)
    else
      let b := boundOf t 2 (some (-24)) (some (-11))
      withinBound f b.1 b.2 (withSign f true (onePat f)) (onePat f) false (trigEncl cosine n m e) free

/-- A saturating function of a finite value (R162): `pos` in fixed point for values not below zero, `neg` what it is at the
negative. It lies below the power of two that it is beside, but where `half` says that it is beside one half and above it. -/
def saturating (half : Bool) (t : Ty) (lowest : Nat) (pos : Int → Int) (neg : Int → Int) (n : Bool) (m : Nat) (e : Int) (free : W64) : Nat :=
  let f := Ty.ff t
  let z := if 11 < (Nat.log2 m : Int) + e then 2048 * fxOne else fxOf false m e
  let y := if n then neg (pos z) else pos z
  let b := boundOf t 2 (some (-24)) (some (-11))
  withinBound f b.1 b.2 lowest (onePat f) (half && !n && decide (4 * y < 3 * fxOne)) (fxEncl y 0) free

/-- `ftanh` (R162, R163): tanh z = 2 sig(2 z) - 1. -/
def ftanhBits (t : Ty) (a : FV) (free : W64) : Nat :=
  let f := Ty.ff t
  match a with
  | .nan => f.canon
  | .inf n => withSign f n (onePat f)
  | .fin n m e =>
    if m = 0 then withSign f n 0
    else saturating false t (withSign f true (onePat f)) (fun z => 2 * fxSig (2 * z) - fxOne) (fun y => -y) n m e free

/-- `fsig` (R162, R163). -/
def fsigBits (t : Ty) (a : FV) (free : W64) : Nat :=
  let f := Ty.ff t
  match a with
  | .nan => f.canon
  | .inf n => if n then 0 else onePat f
  | .fin n m e =>
    if m = 0 then (f.bias - 1) * 2 ^ f.mbits
    else saturating true t 0 fxSig (fun y => fxOne - y) n m e free

/-- `ferf` (R162, R163). -/
def ferfBits (t : Ty) (a : FV) (free : W64) : Nat :=
  let f := Ty.ff t
  match a with
  | .nan => f.canon
  | .inf n => withSign f n (onePat f)
  | .fin n m e =>
    if m = 0 then withSign f n 0
    else saturating false t (withSign f true (onePat f)) fxErfOf (fun y => -y) n m e free

/-- The value of a special function (R162, R163, R201): a fixed function of its operands' bits. -/
def sfuValue (o : Op) (t : Ty) (a b : W64) : W64 :=
  let f := Ty.ff t
  let w := (Ty.shape t).1
  let a := a &&& BitVec.ofNat 64 (2 ^ w - 1)
  let b := b &&& BitVec.ofNat 64 (2 ^ w - 1)
  let x := fvOf f a.toNat
  let free := Config.sfu o.code (if t = .f16 then 9 else 3) a b
  BitVec.ofNat 64 (match o with
    | .frcp => frcpBits t x free
    | .frsq => frsqBits t x free
    | .fsqrt => fsqrtBits f x
    | .fdiv => fdivBits f x (fvOf f b.toNat)
    | .fex2 => fex2Bits t x free
    | .flg2 => flg2Bits t x free
    | .fsin => trigBits false t x free
    | .fcos => trigBits true t x free
    | .ftanh => ftanhBits t x free
    | .fsig => fsigBits t x free
    | _ => ferfBits t x free)

end Sys2Proof.Machine
end

