-- ==== Sys2Proof/Machine/Deliver.lean ====
section
/-!
DEFINITION. Sys2Proof/Machine/Deliver.lean: long-latency results (R23, R133, R202): their issue, their delivery, and the
special functions of group 5.
-/

namespace Sys2Proof.Machine

/-- A long-latency result as its slot issues it: `width` registers, the lanes whose result is to come and those whose effect
is to be performed. -/
def Slot.pend (x : Slot) (width : Nat) (waitRes waitPerf : BitVec 32) (vals : SMap LaneRes) : Pend :=
  { cid := x.cid, co := x.co, tok := x.run.tok, lanes := x.ex, dst := x.f.dst, width := width,
    pushed := (match x.f.dst with | .v _ | .none => decide (width ≠ 0) | _ => false), uni := Sel.isS x.f.dst, vals := vals,
    waitRes := waitRes, waitPerf := waitPerf, delivered := decide (waitRes = 0), dead := false, trpc := x.trpc, kdst := none,
    kvals := 0, checked := false, joint := false, sx := false, bundle := false, stale := [], kept := [], fence := none }

/-- A result enters the machine; its number is the present `nextId`. -/
def State.addPend (s : State) (p : Pend) : State := { s.fresh with pends := smSet s.pends s.nextId p }

/-- The end of a slot whose result comes later; a result that no lane awaits leaves at once. -/
def finishLate (x : Slot) (l : List (Nat × TrapRec)) (id : Nat) (wide : Bool) (s : State) : State :=
  (finishSlot x l (.late id wide) s).settlePend id

/-- The 64-bit value of a lane's result, low word first. -/
def LaneRes.word (r : LaneRes) : W64 := if r.p then poisonBits else r.val.headD 0

/-- A placeholder of a queue filled where it lies (R133, R321). A 128-bit load pushes one entry, whose 64 bits the spec does not
say; the model takes its low 8 bytes (DESIGN CHOICE, log 32). Unsafe. -/
def fillQueue (id : Nat) (r : LaneRes) (wide : Bool) (q : List QEnt) : List QEnt :=
  q.map fun e =>
    if e.pend = some id then
      { e with val := if wide then r.word else r.word &&& 0xFFFFFFFF#64, p := r.p, pend := none }
    else e

/-- Register `j` of a lane's result. -/
def LaneRes.reg (r : LaneRes) (j : Nat) : R32 :=
  if r.p then { v := 0x7FF0DEAD#32, p := true } else { v := (r.val.getD (j / 2) 0).extractLsb' (32 * (j % 2)) 32, p := false }

/-- `n` registers from a result (R36, R139, R231), those that a later slot has written left as they are (R135). -/
def LaneRes.into (r : LaneRes) (p : Pend) (lane i n : Nat) (v : Vector R32 64) : Vector R32 64 :=
  forN n v fun j v => if p.isStale (i + j) lane then v else v.setIfInBounds (i + j) (r.reg j)

/-- The predicates that a lane's result writes (R36, R358). -/
def LaneRes.preds (r : LaneRes) (p : Pend) (lane : Nat) (k : Vector R1 8) : Vector R1 8 :=
  let k := match p.kdst with
    | some n => if p.isStale (64 + n) lane then k else k.setIfInBounds n { v := p.kvals.getLsbD lane, p := false }
    | none => k
  match p.dst with
  | .k i => if p.isStale (64 + i.val) lane then k else k.setIfInBounds i.val { v := r.word.getLsbD 0, p := r.p }
  | _ => k

/-- The v registers that a lane's result writes (R36). -/
def LaneRes.vregs (r : LaneRes) (p : Pend) (lane : Nat) (v : Vector R32 64) : Vector R32 64 :=
  match p.dst with
  | .v i => r.into p lane i.val p.width v
  | _ => v

/-- A result written in its thread (R23, R36, R133): registers, queue, queue set aside, predicate. -/
def deliverThread (id : Nat) (p : Pend) (lane : Nat) (r : LaneRes) (th : Thread) : Thread :=
  let wide := decide (2 ≤ p.width)
  { th with q := fillQueue id r wide th.q, aside := fillQueue id r wide th.aside, k := r.preds p lane th.k, v := r.vregs p lane th.v }

/-- A result of an instruction issued before the open region stands whatever becomes of the region (R366, R368). -/
def Region.deliver (g : Region) (id : Nat) (p : Pend) (lane : Nat) (r : LaneRes) : Region :=
  if g.opened && decide (id < g.first) then
    { g with starts := lmod g.starts lane fun st => { st with k := r.preds p lane st.k, v := r.vregs p lane st.v } }
  else g

/-- A placeholder of a channel's words filled in a lane (R140). -/
def fillChan (id lane : Nat) (r : LaneRes) (ch : Chan) : Chan :=
  { ch with words := ch.words.map fun w =>
      match w[lane]? with
      | some e => if e.pend = some id then w.setIfInBounds lane { val := r.word, p := r.p, tr := false, pend := none } else w
      | none => w }

/-- Delivers a lane's part of a result. -/
def State.deliverLane (s : State) (id : Nat) (p : Pend) (lane : Nat) (r : LaneRes) : State :=
  if p.dead then s
  else
    let s := s.modThread p.cid p.co lane (deliverThread id p lane r)
    let s := s.modCohort p.cid p.co fun h => { h with rgn := h.rgn.deliver id p lane r }
    match p.dst with
    | .ch _ => s.modCrew p.cid fun c => { c with chans := c.chans.map (fillChan id lane r) }
    | _ => s

/-- An s destination's value: the first that is known (R38). -/
def State.deliverUni (s : State) (id : Nat) (p : Pend) : State :=
  match p.dst, p.vals with
  | .s i, (_, r) :: _ =>
    let put (v : Vector R32 96) : Vector R32 96 := forN p.width v fun j v =>
      if p.stale.any fun y => y.1 = 72 + i.val + j then v else v.setIfInBounds (i.val + j) (r.reg j)
    if p.dead then s
    else s.modCohort p.cid p.co fun h =>
      { h with s := put h.s, rgn := if h.rgn.opened && decide (id < h.rgn.first) then { h.rgn with s := put h.rgn.s } else h.rgn }
  | _, _ => s

/-- The results known so far are delivered, and the flags follow (R23); the check of R372 is made on the way. -/
def State.deliver (s : State) (id : Nat) (p : Pend) : State :=
  let val (i : Nat) : Option LaneRes := if p.bundle then p.vals.head?.map fun y => y.2 else smGet p.vals i
  let m := laneFilter p.waitRes fun i => p.uni && !p.vals.isEmpty || (val i.val).isSome
  let s :=
    if p.uni then s.deliverUni id p
    else forL (lanesOf m) s fun i s =>
      match val i.val with
      | some r => s.deliverLane id p i.val r
      | none => s
  let s := s.modPend id fun p =>
    { p with waitRes := p.waitRes &&& ~~~m, waitPerf := if p.joint then p.waitPerf &&& ~~~m else p.waitPerf,
             delivered := decide (p.waitRes &&& ~~~m = 0) }
  let s := match smGet s.crews p.cid with
    | some c => if p.checked && decide (m ≠ 0) && !p.dead then s.noteSuspect c.p p.cid p.co else s
    | none => s
  s.settlePend id

/-- A special function of the same threads was issued before and is not delivered: the results of one thread are delivered in
issue order (R202). -/
def State.behindSfu (s : State) (id : Nat) (p : Pend) : Bool :=
  p.checked && s.pends.any fun x =>
    x.2.checked && !x.2.dead && decide (x.1 < id) && decide (x.2.cid = p.cid) && decide (x.2.co = p.co) &&
      decide (x.2.waitRes &&& p.waitRes ≠ 0)

/-- RESULT_DELIVERY (R23): a result is delivered in the threads for which it is known; a release or an acquire goes one
action further (R243). -/
def execResultDelivery (id : Nat) (s : State) : Host.Outcome State Fault Refusal :=
  .next (match smGet s.pends id with
    | none => s
    | some p => if p.fence.isSome then s.advanceFence id else if s.behindSfu id p then s else s.deliver id p)

/-! Group 5. -/

/-- A special function (R201, R202): its result is known when it issues and delivered later; both flags follow the
delivery. -/
def sfuSlot (o : Op) (f : Fields) (s : State) : Host.Outcome State Fault Refusal :=
  runSlot o f s fun x s =>
    let val (i : Fin 32) : LaneRes :=
      if (x.a[i]).p || (x.b[i]).p then { val := [], p := true }
      else { val := [sfuValue o f.ty (x.a[i]).v (x.b[i]).v], p := false }
    let vals := forL (lanesOf x.ex) [] fun i m => smSet m i.val (val i)
    finishLate x [] s.nextId false (s.addPend { x.pend 1 x.ex x.ex vals with checked := true, joint := true })

/-- `frcp` (R201). -/
def execFrcp (f : Fields) (s : State) : Host.Outcome State Fault Refusal := sfuSlot .frcp f s
/-- `frsq` (R201). -/
def execFrsq (f : Fields) (s : State) : Host.Outcome State Fault Refusal := sfuSlot .frsq f s
/-- `fsqrt` (R201). -/
def execFsqrt (f : Fields) (s : State) : Host.Outcome State Fault Refusal := sfuSlot .fsqrt f s
/-- `fdiv` (R201). -/
def execFdiv (f : Fields) (s : State) : Host.Outcome State Fault Refusal := sfuSlot .fdiv f s
/-- `fex2` (R201). -/
def execFex2 (f : Fields) (s : State) : Host.Outcome State Fault Refusal := sfuSlot .fex2 f s
/-- `flg2` (R201). -/
def execFlg2 (f : Fields) (s : State) : Host.Outcome State Fault Refusal := sfuSlot .flg2 f s
/-- `fsin` (R201). -/
def execFsin (f : Fields) (s : State) : Host.Outcome State Fault Refusal := sfuSlot .fsin f s
/-- `fcos` (R201). -/
def execFcos (f : Fields) (s : State) : Host.Outcome State Fault Refusal := sfuSlot .fcos f s
/-- `ftanh` (R201). -/
def execFtanh (f : Fields) (s : State) : Host.Outcome State Fault Refusal := sfuSlot .ftanh f s
/-- `fsig` (R201). -/
def execFsig (f : Fields) (s : State) : Host.Outcome State Fault Refusal := sfuSlot .fsig f s
/-- `ferf` (R201). -/
def execFerf (f : Fields) (s : State) : Host.Outcome State Fault Refusal := sfuSlot .ferf f s

end Sys2Proof.Machine
end

