-- ==== Sys2Proof/Machine/Memory.lean ====
section
/-!
DEFINITION. Sys2Proof/Machine/Memory.lean: the loads, stores, atomics, reductions, fences and bindings of groups 6 and 7 at
issue (R228 to R254, R260). What happens to a request on its way is in Mesh and Service.
-/

namespace Sys2Proof.Machine

/-! Addresses and checks (R228, R229, R254). -/

/-- ea of a global operand (R228). -/
def globalEa (a b : Val) : Int := (a.v.toNat : Int) + sext 32 b.v.toNat

/-- off of a stash operand (R229). -/
def stashOff (a b : Val) : Int := ((a.v.toNat % 2 ^ 32 : Nat) : Int) + sext 32 b.v.toNat

/-- A range of `n` bytes crosses a line (R230). -/
def crosses (a n : Nat) : Bool := decide (128 < a % 128 + n)

/-- Check 1 of R254 for a global access of `n` bytes: R56 1 to 4, natural alignment or the line rule. -/
def globalFault (poison : Bool) (ea : Int) (n : Nat) (natural : Bool) : Option Cause :=
  if poison then some cPoisonUse
  else
    firstErr [addrFault ea n (if natural then n else 0), failIf (!natural && crosses (toW64 ea).toNat n) cMisaligned]

/-- The partition's interface is in RUN, which an access to the host window needs (R421). -/
def State.hostRuns (s : State) (tag : Nat) : Bool :=
  match smGet s.parts tag with
  | some p => decide (p.tdisp = .run)
  | none => false

/-- The checks of a global access at issue in the order of R254 (and R421 in place of R56 check 5): `wr` when it writes,
`plain` for a load or a store, `bad` for poisoned data. -/
def State.globalCheck (s : State) (x : Slot) (poison : Bool) (ea : Int) (n : Nat) (natural wr plain bad : Bool) :
    Option (Cause × W64) :=
  let va := toW64 ea
  firstErr
    [atAddr va (globalFault poison ea n natural),
     failIf ((s.cluster x.p).locked (some x.asid) va.toNat n wr) (cRangeLocked, va),
     failIf bad (cPoisonStore, va),
     failIf (inHost va && !(plain && s.hostRuns x.crew.part)) (cPagePerm, va),
     failIf (wr && plain && !inHost va && (match (s.issue x.k).l0Line? x.asid va with | some l => !l.w | none => false))
       (cPagePerm, va)]

/-- A mapped line that takes no store (R106): it is Valid with W = 0, or will be, as the leaf of its page stands, once it has
filled; so the fault of a store to it is precise. -/
def State.mlineClosed (s : State) (asid : BitVec 16) (l : MLine) : Bool :=
  if l.st = 2 then !l.w
  else decide (l.st < 2) && (match s.walkLeaf asid (vpnOf l.va) with | .ok t => !t.w | .error _ => false)

/-- The checks of a stash access at issue (R229, R105, R121, R106, R254). -/
def State.stashCheck (s : State) (x : Slot) (poison : Bool) (off : Int) (n : Nat) (natural wr bad : Bool) :
    Option (Cause × W64) :=
  let o := off.toNat
  let phys := x.crew.base + o
  if poison then some (cPoisonUse, 0)
  else if off < 0 then some (cStashBounds, (BitVec.ofInt 32 off).setWidth 64)
  else
    firstErr
      [failIf (if natural then decide (o % n ≠ 0) else crosses o n) (cMisaligned, BitVec.ofNat 64 o),
       atAddr (BitVec.ofNat 64 o) (x.crew.stashFault o n wr),
       failIf ((s.cluster x.p).locked none phys n wr) (cRangeLocked, BitVec.ofNat 64 o),
       failIf ((s.cluster x.p).orphan phys n) (cStashOrphan, BitVec.ofNat 64 o),
       failIf bad (cPoisonStore, BitVec.ofNat 64 o),
       failIf (wr && (match (s.cluster x.p).mline? phys with | some l => s.mlineClosed x.asid l | none => false)) (cPagePerm, BitVec.ofNat 64 o)]

/-! Loads. -/

/-- A load's value from its bytes: two words of 16 bytes, otherwise one, zero- or sign-extended (R230). -/
def loadWords (sx : Bool) (d : List Byte) : List W64 :=
  if d.length = 16 then [wordOfBytes (d.take 8), wordOfBytes (d.drop 8)]
  else if sx then [toW64 (sext (8 * d.length) (natOfBytes d))]
  else [BitVec.ofNat 64 (natOfBytes d)]

/-- A load's value: the bytes that the region store buffer holds, in preference to those read; poison when a byte that was
read lies in a poisoned word (R53, R232). -/
def loadValue (sx : Bool) (kept : List (Option Byte)) (d : List Byte) (pz : Nat → Bool) : LaneRes :=
  let bytes := kept.zipIdx.map fun b => b.1.getD (d.getD b.2 0)
  let bad := kept.zipIdx.any fun b => b.1.isNone && pz b.2
  { val := if bad then [] else loadWords sx bytes, p := bad }

/-- An atomic with a result (R245). -/
def ReqOp.returns : ReqOp → Bool
  | .atomic _ _ _ _ | .cas _ _ _ => true
  | _ => false

/-- A thread has an atomic on a line that is not performed: a present line of its L0 does not hold what the atomic will leave
(R236). -/
def State.lineBusy (s : State) (cid co lane : Nat) (va : W64) : Bool :=
  s.reqs.any fun x =>
    decide (x.2.cid = cid) && decide (x.2.co = co) && decide (x.2.lane = lane) && decide (lineVa x.2.va = lineVa va) &&
      x.2.op.returns && !x.2.reply

/-- One thread's global load of `n` bytes for result `id`: from the L0, or by a request (R227, R232, R257). -/
def State.loadGlobal (s : State) (x : Slot) (id lane n hint : Nat) (sx : Bool) (va : W64) (kept : List (Option Byte)) : State :=
  let off := va.toNat % 128
  let useL0 := hint % 2 = 0 && !inHost va
  let ask (s : State) : State :=
    let op : ReqOp := if kept.all Option.isSome then .read 0 false else .read n useL0
    s.send (mkReq s x.p x.sl x.cid x.co lane (some id) x.asid va op hint x.trpc (s.inRegion x.cid x.co))
  if kept.all Option.isSome then
    let r := loadValue sx kept [] fun _ => false
    s.resultLane id lane r.val r.p
  else if useL0 && !s.lineBusy x.cid x.co lane va && !s.trailed x.cid x.co lane va then
    match (s.issue x.k).l0Line? x.asid va with
    | some l =>
      let r := loadValue sx kept ((l.data.drop off).take n) fun j => l.pz.getLsbD ((off + j) / 8)
      s.resultLane id lane r.val r.p
    | none => ask s
  else ask s

/-- The size field of an access (R230). -/
def accSize (f : Fields) (sz : Nat) : Nat := szBytes f.ty sz

/-- Registers of a loaded value. -/
def loadWidth (f : Fields) (sz : Nat) : Nat := if sz = 3 then 4 else if Ty.wide f.ty then 2 else 1

/-- The acquire that follows a load of a global sync word that reads at the place (R260). -/
def State.loadAcquire (s : State) (x : Slot) (lane hint : Nat) (va : W64) (first : Nat) : State :=
  let r := x.crew.syncRanges va
  if hint % 2 = 0 || r.isEmpty || inHost va then s
  else
    s.startFence x.cid x.co 0 (laneBit lane) x.trpc
      { hold := true, rel := false, acq := true, scope := 3, ranges := some r, step := 0,
        waits := (List.range (s.nextId - first)).map (· + first), next := .done }

/-- `ld` (R231, R232, R238). -/
def execLd (f : Fields) (s : State) : Host.Outcome State Fault Refusal :=
  runSlot .ld f s fun x s =>
    let m := f.mod.toNat
    let n := accSize f (m % 4)
    let hint := m / 8 % 4
    let ea (i : Fin 32) : Int := globalEa x.a[i] x.b[i]
    let l := x.faults fun i => s.globalCheck x ((x.a[i]).p || (x.b[i]).p) (ea i) n false false true false
    let good := x.done l
    let buf := (match s.cohort? x.cid x.co with | some h => h.rgn.stores | none => [])
    let kept := (lanesOf good).map fun i => (i.val, bufferBytes buf false (toW64 (ea i)).toNat n)
    let id := s.nextId
    let s := s.addPend { x.pend (loadWidth f (m % 4)) good good [] with joint := true, sx := f.mod.getLsbD 2, kept := kept }
    let s := forL kept s fun k s =>
      let va := toW64 (ea (Fin.ofNat 32 k.1))
      let first := s.nextId
      (s.loadGlobal x id k.1 n hint (f.mod.getLsbD 2) va k.2).loadAcquire x k.1 hint va first
    finishLate x l id (Ty.wide f.ty) s

/-- `ldu` (R233): one access for the bundle, its value for every executing thread or for the s destination. -/
def execLdu (f : Fields) (s : State) : Host.Outcome State Fault Refusal :=
  runSlot .ldu f s fun x s =>
    let m := f.mod.toNat
    let n := accSize f (m % 4)
    let hint := m / 8 % 4
    let a := x.uni x.a
    let b := x.uni x.b
    let va := toW64 (globalEa a b)
    let e := if x.ex = 0 then none else s.globalCheck x (a.p || b.p) (globalEa a b) n false false true false
    let l := match e with
      | none => []
      | some e => (lanesOf x.lanes).map fun i => (i.val, preciseTrap x.run e.1 e.2)
    let id := s.nextId
    let lane := (((lanesOf x.ex).head?).map Fin.val).getD 0
    let wait := if l.isEmpty then x.ex else 0
    let buf := (match s.cohort? x.cid x.co with | some h => h.rgn.stores | none => [])
    let kept := bufferBytes buf false va.toNat n
    let s := s.addPend { x.pend (loadWidth f (m % 4)) wait wait [] with
      joint := true, sx := f.mod.getLsbD 2, kept := [(lane, kept)], bundle := true }
    let first := s.nextId
    let s := if wait = 0 then s else (s.loadGlobal x id lane n hint (f.mod.getLsbD 2) va kept).loadAcquire x lane hint va first
    finishLate x l id (Ty.wide f.ty) s

/-- One thread's stash load (R106, R229, R232): at once, or when a mapped line has filled. -/
def State.loadStash (s : State) (x : Slot) (id lane n : Nat) (ty : Ty) (sx : Bool) (phys : Nat) (kept : List (Option Byte)) : State :=
  let a := stashAddr x.p phys
  let now (s : State) : State :=
    let r := loadValue sx kept (memRead s.mem a n) fun j => s.memPz.contains ((a + j) / 8)
    (s.resultLane id lane r.val r.p).performLane id lane
  match (s.cluster x.p).mline? phys with
  | none => now s
  | some l =>
    if l.st = 2 then now s
    else s.waitLine x.p { cid := x.cid, co := x.co, lane := lane, pend := id, off := phys, op := .read n false, ty := ty, sz := n, sx := sx,
                           req := none, trpc := x.trpc, ord := s.nextId, inRgn := s.inRegion x.cid x.co }

/-- `lds` (R231, R232, R238). -/
def execLds (f : Fields) (s : State) : Host.Outcome State Fault Refusal :=
  runSlot .lds f s fun x s =>
    let m := f.mod.toNat
    let n := accSize f (m % 4)
    let off (i : Fin 32) : Int := stashOff x.a[i] x.b[i]
    let l := x.faults fun i => s.stashCheck x ((x.a[i]).p || (x.b[i]).p) (off i) n false false false
    let good := x.done l
    let buf := (match s.cohort? x.cid x.co with | some h => h.rgn.stores | none => [])
    let kept := (lanesOf good).map fun i => (i.val, bufferBytes buf true (x.crew.base + (off i).toNat) n)
    let id := s.nextId
    let s := s.addPend { x.pend (loadWidth f (m % 4)) good good [] with sx := f.mod.getLsbD 2, kept := kept }
    let s := forL kept s fun k s =>
      s.loadStash x id k.1 n f.ty (f.mod.getLsbD 2) (x.crew.base + (off (Fin.ofNat 32 k.1)).toNat) k.2
    finishLate x l id (Ty.wide f.ty) s

/-! Stores. -/

/-- The data of a store in a lane: its bytes, and whether it is poisoned (R231). -/
def storeData (x : Slot) (n : Nat) (i : Fin 32) : List Byte × Bool :=
  if n = 16 then
    let r := (List.range 4).map fun j => (x.coh.threads[i]).v[(match x.f.c.sel with | .v k => k.val | _ => 0) + j]?.getD default
    ((r.map fun y => bytesOfNat 4 y.v.toNat).flatten, r.any fun y => y.p)
  else (bytesOfNat n (x.c[i]).v.toNat, (x.c[i]).p)

/-- Lines that a list of buffered stores needs (R237). -/
def bufferLines (l : List RStore) : Nat := ((l.map fun y => (y.stash, y.addr.toNat / 128)).eraseDups).length

/-- The opening of a region at the slot itself, before its own effect (R363). -/
def Slot.openingHere (x : Slot) : Opening :=
  { header := 0, mid := some (x.run.midway x.lanes x.run.slot) }

/-- The cohort's region is open for a store or a reduction part (R237, R248): it is opened when a close before this slot has
left none. -/
def State.regionHere (s : State) (x : Slot) : State :=
  match s.cohort? x.cid x.co with
  | some h => if h.rgn.opened then s else s.openRegion x.cid x.co h.rgn.reopen x.openingHere
  | none => s

/-- Places stores in the region store buffer, closing the region first when they need a 65th line (R237). An error is the
state in which the slot has not ended. -/
def State.buffer (s : State) (x : Slot) (l : List RStore) : Except State State :=
  let put (s : State) : State :=
    (s.regionHere x).modCohort x.cid x.co fun h => { h with rgn := { h.rgn with stores := h.rgn.stores ++ l } }
  match s.cohort? x.cid x.co with
  | none => .ok s
  | some h =>
    if h.rgn.opened && decide (64 < bufferLines (h.rgn.stores ++ l)) then
      match s.closeDecision x.cid x.co (some x.run.tok) with
      | .wait => .error (s.park x.k x.cid x.co { x.run with lanes := x.lanes })
      | .restart => .error (s.suspectRestart x.cid x.co)
      | .commit => .ok (put (s.commitRegion x.cid x.co true))
    else .ok (put s)

/-- A store of each executing lane that passes its checks, into the buffer (R234, R235). -/
def storeSlot (x : Slot) (l : List (Nat × TrapRec)) (stash : Bool) (addr : Fin 32 → W64) (n : Nat) (s : State) : State :=
  let st := (lanesOf (x.done l)).map fun i =>
    { lane := i.val, stash := stash, addr := addr i, data := (storeData x n i).1, hint := BitVec.ofNat 6 (x.f.mod.toNat / 8 % 4), trpc := x.trpc : RStore }
  match s.buffer x st with
  | .error s => s
  | .ok s => finishSlot x l .none s

/-- `st` (R231, R234). -/
def execSt (f : Fields) (s : State) : Host.Outcome State Fault Refusal :=
  runSlot .st f s fun x s =>
    let n := accSize f (f.mod.toNat % 4)
    let ea (i : Fin 32) : Int := globalEa x.a[i] x.b[i]
    let l := x.faults fun i =>
      s.globalCheck x ((x.a[i]).p || (x.b[i]).p) (ea i) n false true true (storeData x n i).2
    storeSlot x l false (fun i => toW64 (ea i)) n s

/-- `sts` (R231, R234). -/
def execSts (f : Fields) (s : State) : Host.Outcome State Fault Refusal :=
  runSlot .sts f s fun x s =>
    let n := accSize f (f.mod.toNat % 4)
    let off (i : Fin 32) : Int := stashOff x.a[i] x.b[i]
    let l := x.faults fun i => s.stashCheck x ((x.a[i]).p || (x.b[i]).p) (off i) n false true (storeData x n i).2
    storeSlot x l true (fun i => BitVec.ofNat 64 (x.crew.base + (off i).toNat)) n s

/-! Prefetch and binding. -/

/-- `pref` (R239): a request of each executing lane, or nothing; SETB follows the request. -/
def execPref (f : Fields) (s : State) : Host.Outcome State Fault Refusal :=
  runSlot .pref f s fun x s =>
    let l := x.faults fun i => if (x.a[i]).p || (x.b[i]).p then some (cPoisonUse, 0) else none
    let ea (i : Fin 32) : Int := globalEa x.a[i] x.b[i]
    let go := laneFilter (x.done l) fun i =>
      let va := toW64 (ea i)
      (addrFault (ea i) 1 0).isNone && !inHost va && !(s.cluster x.p).locked (some x.asid) (lineVa va).toNat 128 false
    let id := s.nextId
    let s := s.addPend (x.pend 0 0 go [])
    let s := forL (lanesOf go) s fun i s =>
      s.send (mkReq s x.p x.sl x.cid x.co i.val (some id) x.asid (lineVa (toW64 (ea i))) (.pref (f.mod.toNat % 4)) 0 x.trpc
        (s.inRegion x.cid x.co))
    finishSlot x l .none (s.settlePend id)

/-- The refusal of a bind, or the entry it takes (R240); conditions that hold together are reported in this order (log 19). -/
def Crew.bindResult (c : Crew) (gw : Bool) (a : W64) (len : Nat) (obj : W64) : W64 × Option (Nat × Bind) :=
  let lo := a.toNat / 128 * 128
  let b : Bind := { base := lo, len := ceilDiv (a.toNat + len) 128 * 128 - lo, w0 := (bindObj gw obj).1, w1 := obj }
  let l := c.bind.toList.zipIdx
  if len = 0 then (0x80000003, none)
  else if (if gw then decide (obj.toNat % 8 ≠ 0) || !isCanon obj else decide (c.sync ≤ obj.toNat)) then (0x80000004, none)
  else
    match l.find? fun y => decide (y.1 = some b) with
    | some y => (BitVec.ofNat 64 y.2, none)
    | none =>
      let clash := l.any fun y =>
        match y.1 with
        | some e => overlaps e.base (e.base + e.len) b.base (b.base + b.len) && !(decide (e.w0 = b.w0) && decide (e.w1 = b.w1))
        | none => false
      if clash then (0x80000002, none)
      else
        match l.find? fun y => y.1.isNone with
        | some y => (BitVec.ofNat 64 y.2, some (y.2, b))
        | none => (0x80000001, none)

/-- A result known at issue and delivered later, in the lanes of a map; a k destination receives `ok` (R240). -/
def Slot.postPend (x : Slot) (m : BitVec 32) (vals : SMap W64) (ok : W64 → Bool) : Pend :=
  x.pend 1 m 0 (vals.map fun y =>
    (y.1, { val := [match x.f.dst with | .k _ => (if ok y.2 then 1 else 0) | _ => y.2], p := false }))

/-- An instruction that each executing lane performs in turn, giving a value that is delivered later. -/
def eachLane (x : Slot) (l : List (Nat × TrapRec)) (ok : W64 → Bool) (g : Fin 32 → State → State × W64) (s : State) : State :=
  let (s, vals) := forL (lanesOf (x.done l)) (s, ([] : SMap W64)) fun i y =>
    let r := g i y.1
    (r.1, smSet y.2 i.val r.2)
  let id := s.nextId
  finishLate x l id false (s.addPend (x.postPend (x.done l) vals ok))

/-- `bind` (R240). -/
def execBind (f : Fields) (s : State) : Host.Outcome State Fault Refusal :=
  runSlot .bind f s fun x s =>
    let l := x.faults fun i =>
      if (x.a[i]).p || (x.b[i]).p || (x.c[i]).p then some (cPoisonUse, 0)
      else atAddr (x.a[i]).v (addrFault ((x.a[i]).v.toNat : Int) (x.b[i]).lo.toNat 0)
    eachLane x l (fun r => decide (r.toNat < 64)) (fun i s =>
      match smGet s.crews x.cid with
      | none => (s, 0)
      | some c =>
        let r := c.bindResult (f.mod.getLsbD 0) (x.a[i]).v (x.b[i]).lo.toNat (x.c[i]).v
        (match r.2 with
          | some (n, b) => s.modCrew x.cid fun c => { c with bind := c.bind.setIfInBounds n (some b) }
          | none => s, r.1)) s

/-- An `unbind` of one thread (R241): the state and the result; a poisoned A gives poison (R39) and removes nothing. -/
def State.unbindLane (s : State) (cid : Nat) (a : Val) : State × LaneRes :=
  if a.p then (s, { val := [], p := true })
  else
    match (smGet s.crews cid).bind fun c => c.bind[a.lo.toNat]?.getD none with
    | some _ => (s.modCrew cid fun c => { c with bind := c.bind.setIfInBounds a.lo.toNat none }, { val := [0], p := false })
    | none => (s, { val := [0xFFFFFFFF], p := false })

/-- `unbind` (R241): each executing thread in lane order. -/
def execUnbind (f : Fields) (s : State) : Host.Outcome State Fault Refusal :=
  runSlot .unbind f s fun x s =>
    let (s, vals) := forL (lanesOf x.ex) (s, ([] : SMap LaneRes)) fun i y =>
      let r := y.1.unbindLane x.cid x.a[i]
      (r.1, smSet y.2 i.val r.2)
    let id := s.nextId
    finishLate x [] id false (s.addPend (x.pend 1 x.ex 0 vals))

/-! Fences. -/

/-- `fence` (R242 to R244). -/
def execFence (f : Fields) (s : State) : Host.Outcome State Fault Refusal :=
  runSlot .fence f s fun x s =>
    let m := f.mod.toNat
    let s := if x.ex = 0 then s else
      s.startFence x.cid x.co x.run.tok x.ex x.trpc
        { hold := true, rel := decide (m % 4 ≠ 0), acq := decide (m % 4 ≠ 1), scope := m / 4, ranges := none,
          step := 0, waits := [], next := .done }
    finishSlot x [] .none s

/-! Atomics. -/

/-- Sends an atomic's request, or begins the release that goes before it on a global sync word (R260): the request is held, and
goes out in the order of the lanes (R235, R246). -/
def State.sendAtomic (s : State) (x : Slot) (lane : Nat) (r : Req) : State :=
  let g := x.crew.syncRanges r.va
  if g.isEmpty then s.send r
  else
    let s := s.startFence x.cid x.co 0 (laneBit lane) x.trpc
      { hold := true, rel := true, acq := true, scope := 3, ranges := some g, step := 0, waits := [], next := .send [s.nextId + 1] }
    { s.fresh with reqs := smSet s.reqs s.nextId { r with stage := .held, ord := s.nextId } }

/-- An atomic at the home slice in every executing lane, ascending (R246). -/
def atomicSlot (x : Slot) (l : List (Nat × TrapRec)) (va : Fin 32 → W64) (op : Fin 32 → ReqOp) (s : State) : State :=
  let good := x.done l
  let id := s.nextId
  let s := s.addPend { x.pend (if Ty.wide x.f.ty then 2 else 1) good good [] with joint := true }
  let s := forL (lanesOf good) s fun i s =>
    s.sendAtomic x i.val (mkReq s x.p x.sl x.cid x.co i.val (some id) x.asid (va i) (op i) 0 x.trpc false)
  finishLate x l id (Ty.wide x.f.ty) s

/-- Bytes of an atomic's width (R245). -/
def atomBytes (f : Fields) : Nat := if Ty.wide f.ty then 8 else 4

/-- `atom` (R245, R246). -/
def execAtom (f : Fields) (s : State) : Host.Outcome State Fault Refusal :=
  runSlot .atom f s fun x s =>
    let ea (i : Fin 32) : Int := globalEa x.a[i] x.b[i]
    let l := x.faults fun i =>
      s.globalCheck x ((x.a[i]).p || (x.b[i]).p) (ea i) (atomBytes f) true true false (x.c[i]).p
    atomicSlot x l (fun i => toW64 (ea i)) (fun i => .atomic (f.mod.toNat % 8) f.m3 f.ty (x.c[i]).v) s

/-- `cas` (R245, R246). -/
def execCas (f : Fields) (s : State) : Host.Outcome State Fault Refusal :=
  runSlot .cas f s fun x s =>
    let l := x.faults fun i =>
      s.globalCheck x (x.a[i]).p ((x.a[i]).v.toNat : Int) (atomBytes f) true true false ((x.b[i]).p || (x.c[i]).p)
    atomicSlot x l (fun i => (x.a[i]).v) (fun i => .cas (Ty.wide f.ty) (x.b[i]).v (x.c[i]).v) s

/-- The word of an atomic's width. -/
def wordAt (w : Bool) (d : List Byte) : W64 := BitVec.ofNat 64 (natOfBytes (d.take (if w then 8 else 4)))

/-- What an atomic or a swap does to the old value (R246): the new bytes and their poison tag, none when nothing is
written. -/
def atomicNew (op : ReqOp) (old : W64) (pz : Bool) : Option (List Byte × Bool) :=
  match op with
  | .atomic o pro t x =>
    let n := if Ty.wide t then 8 else 4
    some (bytesOfNat n (opxApply o pro t old x).toNat, pz && decide (o ≠ 6))
  | .cas w b c =>
    let n := if w then 8 else 4
    if !pz && decide (natOfBytes (bytesOfNat n b.toNat) = natOfBytes (bytesOfNat n old.toNat)) then
      some (bytesOfNat n c.toNat, false)
    else none
  | .group o pro t x =>
    let n := if Ty.wide t then 8 else 4
    some (bytesOfNat n (opxApply o pro t old x).toNat, pz)
  | _ => none

/-- Writes the result of an atomic into the stash; an exchange or a successful swap cleans its word (R246, R247). -/
def State.atomStash (s : State) (p phys n : Nat) (op : ReqOp) : State × LaneRes :=
  let a := stashAddr p phys
  let old := wordAt (n = 8) (memRead s.mem a n)
  let pz := s.readPz a n
  let s := match atomicNew op old pz with
    | some (d, q) =>
      let s := s.writeBytes a d q
      let s := if q then s else { s with memPz := nsDel (a / 8) s.memPz }
      s.modMline p phys fun l => { l with mask := l.mask ||| granMask phys n }
    | none => s
  (s, { val := if pz then [] else [old], p := pz })

/-- May an atomic act on the bank byte `phys` at once: it is no line of a mapped range, or its line is present
(R247, R260). -/
def State.bankReady (s : State) (p phys : Nat) : Bool :=
  match (s.cluster p).mline? phys with
  | some m => decide (m.st = 2)
  | none => true

/-- One thread's atomic at the stash bank (R106, R247): at once, or when its mapped line has filled. -/
def bankAtomic (x : Slot) (id lane phys : Nat) (op : ReqOp) (s : State) : State :=
  let n := atomBytes x.f
  if s.bankReady x.p phys then
    let (s, r) := s.atomStash x.p phys n op
    s.resultLane id lane r.val r.p
  else
    s.waitLine x.p { cid := x.cid, co := x.co, lane := lane, pend := id, off := phys, op := op, ty := x.f.ty, sz := n,
                     sx := true, req := none, trpc := x.trpc, ord := s.nextId, inRgn := false }

/-- An atomic at the stash bank in every executing lane, ascending (R247). -/
def atomicStash (x : Slot) (l : List (Nat × TrapRec)) (off : Fin 32 → Int) (op : Fin 32 → ReqOp) (s : State) : State :=
  let good := x.done l
  let id := s.nextId
  let s := s.addPend { x.pend (if Ty.wide x.f.ty then 2 else 1) good good [] with joint := true }
  let s := forL (lanesOf good) s fun i s => bankAtomic x id i.val (x.crew.base + (off i).toNat) (op i) s
  finishLate x l id (Ty.wide x.f.ty) s

/-- `atoms` (R245, R247). -/
def execAtoms (f : Fields) (s : State) : Host.Outcome State Fault Refusal :=
  runSlot .atoms f s fun x s =>
    let off (i : Fin 32) : Int := stashOff x.a[i] x.b[i]
    let l := x.faults fun i => s.stashCheck x ((x.a[i]).p || (x.b[i]).p) (off i) (atomBytes f) true true (x.c[i]).p
    atomicStash x l off (fun i => .atomic (f.mod.toNat % 8) f.m3 f.ty (x.c[i]).v) s

/-- `cass` (R245, R247). -/
def execCass (f : Fields) (s : State) : Host.Outcome State Fault Refusal :=
  runSlot .cass f s fun x s =>
    let off (i : Fin 32) : Int := ((x.a[i]).lo.toNat : Int)
    let l := x.faults fun i => s.stashCheck x (x.a[i]).p (off i) (atomBytes f) true true ((x.b[i]).p || (x.c[i]).p)
    atomicStash x l off (fun i => .cas (Ty.wide f.ty) (x.b[i]).v (x.c[i]).v) s

/-! Reductions. -/

/-- A contribution enters an entry: the pending part while a region is open, the committed part otherwise (R248). -/
def RedEnt.add (e : RedEnt) (opened : Bool) (lane : Nat) (v : W64) : RedEnt :=
  let put (m : SMap W64) : SMap W64 :=
    match combine e.opx e.pro e.ty (smGet m lane) (some v) with
    | some y => smSet m lane y
    | none => m
  if opened then { e with pending := put e.pending } else { e with done := put e.done }

/-- Entries of a cohort in its slice's atomic buffer (R248). -/
def State.redEntries (s : State) (x : Slot) : Nat :=
  ((s.issue x.k).red.filter fun e => decide (e.cid = x.cid) && decide (e.co = x.co)).length

/-- The key of a `red` (R248). -/
def redKey (x : Slot) (va : W64) : RedEnt :=
  { asid := x.asid, addr := va, opx := x.f.mod.toNat % 8, pro := x.f.m3, ty := x.f.ty, cid := x.cid, co := x.co, done := [],
    pending := [] }

/-- Two entries of one key, the cohort included. -/
def RedEnt.same (a b : RedEnt) : Bool := a.sameKey b && decide (a.cid = b.cid) && decide (a.co = b.co)

/-- The region reopened in the middle of a `red`, after the lanes `before` have been placed (R249, R363): those lanes go
back to the slot that follows, the others to this slot. -/
def State.reopenMid (s : State) (x : Slot) (before : BitVec 32) : State :=
  let move (y : Start × Nat) : Start := if before.getLsbD y.2 then { y.1 with slot := x.run.slot + slotLen x.f } else y.1
  (s.regionHere x).modCohort x.cid x.co fun h => { h with rgn := { h.rgn with starts := h.rgn.starts.zipIdx.map move } }

/-- Makes room for an entry (R249): the cohort's committed parts drain, and the region closes when that frees none. The flag
tells that it had to. -/
def State.redRoom (s : State) (x : Slot) (before : BitVec 32) : State × Bool :=
  let mine (e : RedEnt) : Bool := decide (e.cid = x.cid) && decide (e.co = x.co)
  let s := s.drainParts x.p mine
  if s.redEntries x < 8 then (s, false)
  else (((s.commitRegion x.cid x.co true).reopenMid x before).drainParts x.p mine, true)

/-- A contribution of one lane into the slice's buffer: combined into the entry of its key, or a new entry (R248). -/
def State.redHere (s : State) (x : Slot) (key : RedEnt) (lane : Nat) (v : W64) : State :=
  let opened := s.inRegion x.cid x.co
  if (s.issue x.k).red.any key.same then
    s.modIssue x.k fun i => { i with red := i.red.map fun e => if key.same e then e.add opened lane v else e }
  else s.modIssue x.k fun i => { i with red := i.red ++ [key.add opened lane v] }

/-- A contribution of one lane (R248, R249): room is made first where a new entry would be a cohort's ninth. -/
def State.redLane (s : State) (x : Slot) (lane : Nat) (before : BitVec 32) (va v : W64) : State × Bool :=
  if (s.issue x.k).red.any (redKey x va).same || decide (s.redEntries x < 8) then (s.redHere x (redKey x va) lane v, false)
  else
    let (s, closed) := s.redRoom x before
    (s.redHere x (redKey x va) lane v, closed)

/-- The contribution of the next executing thread (R248, R249): the state, whether a region had to close, and the lanes placed
so far. -/
def redStep (x : Slot) (va : Fin 32 → W64) (i : Fin 32) (y : State × Bool × BitVec 32) : State × Bool × BitVec 32 :=
  let r := y.1.redLane x i.val y.2.2 (va i) (x.c[i]).v
  (r.1, y.2.1 || r.2, y.2.2 ||| laneBit i.val)

/-- `red` (R248, R249): performed when its contributions are in the buffer. -/
def execRed (f : Fields) (s : State) : Host.Outcome State Fault Refusal :=
  runSlot .red f s fun x s =>
    let ea (i : Fin 32) : Int := globalEa x.a[i] x.b[i]
    let l := x.faults fun i =>
      s.globalCheck x ((x.a[i]).p || (x.b[i]).p) (ea i) (atomBytes f) true true false (x.c[i]).p
    let s := s.regionHere x
    let (t, closed, _) := forL (lanesOf (x.done l)) (s, false, (0 : BitVec 32)) (redStep x fun i => toW64 (ea i))
    if closed then
      match s.closeDecision x.cid x.co (some x.run.tok) with
      | .wait => s.park x.k x.cid x.co { x.run with lanes := x.lanes }
      | .restart => s.suspectRestart x.cid x.co
      | .commit => finishSlot x l .none t
    else finishSlot x l .none t

/-- `red.flush` (R252): every committed part of the crew drains; SETB follows the drain. -/
def execRedFlush (f : Fields) (s : State) : Host.Outcome State Fault Refusal :=
  runSlot .redFlush f s fun x s =>
    if x.ex = 0 then finishSlot x [] .none s
    else
      let first := s.nextId
      let s := s.drainParts x.p fun e => decide (e.cid = x.cid)
      let ids := (List.range (s.nextId - first)).map (· + first)
      let s := s.startFence x.cid x.co x.run.tok x.ex x.trpc
        { hold := false, rel := true, acq := false, scope := 0, ranges := none, step := 1, waits := ids, next := .done }
      finishSlot x [] .none s

end Sys2Proof.Machine
end

