-- ==== Sys2Proof/Machine/Mesh.lean ====
section
/-!
DEFINITION. Sys2Proof/Machine/Mesh.lean: the two meshes (R94 to R99): routing, injection, ejection and reassembly, lost
flits (R374), the arrival of a reply at its source, and contrail replays (R74).
-/

namespace Sys2Proof.Machine

/-! Contrails. -/

/-- The first contrail entry of a thread goes out when its page is mapped (R74, R76). -/
def State.replayHead (s : State) (cid co lane : Nat) : State :=
  match (s.thread? cid co lane).bind fun th => th.contrail.head? with
  | none => s
  | some id =>
    match smGet s.reqs id with
    | some r =>
      let ready := (match r.line with
        | some off => (match (s.cluster r.p).mline? off with | some l => decide (l.st < 2) | none => false)
        | none => true)
      if !ready then s
      else if r.stage = .replay && r.line.isSome then
        ({ s with reqs := smSet s.reqs id { r with stage := .filling } }).waitLine r.p
          { cid := r.cid, co := r.co, lane := r.lane, pend := r.pend.getD 0, off := r.line.getD 0, op := r.op, ty := .b32,
            sz := r.op.bytes, sx := decide (r.lost = 1), req := some id, trpc := r.trpc, ord := r.ord, inRgn := r.inRgn }
      else if r.stage = .replay then
        s.sendAgain id r
      else s
    | none => s

/-- A request leaves its thread's contrail (R74). -/
def State.leaveTrail (s : State) (r : Req) (id : Nat) : State :=
  match s.thread? r.cid r.co r.lane with
  | none => s
  | some th =>
    if th.contrail.contains id then
      (s.modThread r.cid r.co r.lane fun th => { th with contrail := th.contrail.filter (· != id) }).replayHead r.cid r.co r.lane
    else s

/-! The end of a request at its source. -/

/-- A request that ended with a fault (R77, R239, R251): a prefetch is dropped, a group is a fatal fault of the crew, any
other leaves poison and a late trap, in every thread of an access that its bundle makes once (R233, R377). -/
def State.failReq (s : State) (r : Req) (cause : Cause) : State :=
  match r.op with
  | .pref _ => match r.pend with | some p => s.performLane p r.lane | none => s
  | .group _ _ _ _ => s.fatal r.cid cause r.va 0
  | _ =>
    let s := match r.pend, r.op with
      | some p, .write _ => s.performLane p r.lane
      | some p, _ => s.resultLane p r.lane [] true
      | none, _ => s
    if r.inRgn && (match r.pend.bind fun p => smGet s.pends p with | some p => p.dead | none => false) then s
    else
      let m := (match r.pend.bind fun p => smGet s.pends p with
        | some p => if p.bundle then p.lanes else laneBit r.lane
        | none => laneBit r.lane)
      forL (lanesOf m) s fun i s => s.dueTrap r.cid r.co i.val (lateTrap cause r.va r.trpc r.ord r.inRgn)

/-- What the arrival of a request's reply does (R98, R238, R246): the value of a load or an atomic is known, and the
request is gone. -/
def State.endReq (s : State) (id : Nat) : State :=
  match smGet s.reqs id with
  | none => s
  | some r =>
    let s := { s with reqs := smDel s.reqs id }
    let s := match r.err, r.pend with
      | some c, _ => s.failReq r c
      | none, none => s
      | none, some pid =>
        match r.op, smGet s.pends pid with
        | .read _ _, some p =>
          let kept := (smGet p.kept r.lane).getD []
          let v := loadValue p.sx kept r.data fun _ => r.pz
          s.resultLane pid r.lane v.val v.p
        | .atomic _ _ _ _, some _ | .cas _ _ _, some _ =>
          s.resultLane pid r.lane (if r.pz then [] else [wordOfBytes r.data]) r.pz
        | _, _ => s.performLane pid r.lane
    s.leaveTrail r id

/-! Routing. -/

/-- The neighbour of a site through mesh port 0 to 3: +x, -x, +y, -y (R94; the numbers within an axis: log 20). -/
def neighbour (site port : Nat) : Option Nat :=
  let x := siteX site
  let y := siteY site
  match port with
  | 0 => if x < 63 then some (siteOf (x + 1) y) else none
  | 1 => if 0 < x then some (siteOf (x - 1) y) else none
  | 2 => if y < 63 then some (siteOf x (y + 1)) else none
  | _ => if 0 < y then some (siteOf x (y - 1)) else none

/-- The ports of a router that lead to a router in service (R14, R94). -/
def State.ports (s : State) (site : Nat) : List (Nat × Nat) :=
  (List.range 4).filterMap fun i => (neighbour site i).bind fun n => if s.fencedRtr.contains n then none else some (i, n)

/-- Distance over routers that are not fenced, by layers of a search from the destination; `fuel` bounds the layers. -/
def State.layers (s : State) (goal : Nat) : Nat → List Nat → List Nat → Option Nat
  | 0, _, _ => none
  | fuel + 1, seen, front =>
    if front.contains goal then some 0
    else
      let next := ((front.flatMap fun n => (s.ports n).map Prod.snd).filter fun n => !seen.contains n).eraseDups
      (State.layers s goal fuel (seen ++ next) next).map (· + 1)

/-- Distance from a site to a destination (R96): the plain one while no router is fenced. -/
def State.distance (s : State) (a b : Nat) : Option Nat :=
  if s.fencedRtr = [] then some (hops a b) else s.layers a 4096 [b] [b]

/-- A port is productive for a destination: it lies on a shortest path (R96). -/
def State.productive (s : State) (site dest : Nat) (n : Nat) : Bool :=
  match s.distance site dest, s.distance n dest with
  | some a, some b => decide (b + 1 = a)
  | _, _ => false

/-- The order of the flits of a cycle (R96): descending AGE, then SRC, then TXN; flits of one packet by IDX (log 20). -/
def Flit.before (a b : Flit) : Bool :=
  if a.age ≠ b.age then decide (b.age < a.age)
  else if a.src ≠ b.src then decide (a.src < b.src)
  else if a.txn ≠ b.txn then decide (a.txn < b.txn)
  else decide (a.idx < b.idx)

/-- The header of a flit on its wires, even parity in bit 0 (R95). -/
def Flit.header (f : Flit) : BitVec 72 :=
  let h := f.dest.toNat * 2 ^ 60 + f.src.toNat * 2 ^ 48 + f.tag.toNat * 2 ^ 38 + f.age.toNat * 2 ^ 22 + f.txn.toNat * 2 ^ 12 +
    f.idx.toNat * 2 ^ 9 + f.nfl.toNat * 2 ^ 6 + f.cls.toNat * 8
  BitVec.ofNat 72 (h + popcount 72 h % 2)

/-- Insertion into a sorted list of flits. -/
def insertFlit (f : Flit) : List Flit → List Flit
  | [] => [f]
  | g :: r => if f.before g then f :: g :: r else g :: insertFlit f r

/-- Flits in the order of R96. -/
def sortFlits (l : List Flit) : List Flit := l.foldr insertFlit []

/-- A flit one link further (R95). -/
def Flit.hop (f : Flit) (cyc : Nat) : Flit := { f with age := if f.age = 65535 then f.age else f.age + 1, at' := cyc + 1 }

/-- The walks of a slice fill its walk queue (R71): 16 run and 64 wait. -/
def SliceSt.walksFull (sl : SliceSt) : Bool := decide (80 ≤ sl.walks.length)

/-- The ejection port of a plane takes a flit (R71, R96). -/
def State.ejects (s : State) (plane site : Nat) : Bool :=
  !(plane = 0 && isSliceSite site && (s.slice (quadOf site)).walksFull)

/-- What is left while a router places its flits: ports still free, ejected flit, flits sent with the site they go to. -/
structure Placing where
  free : List (Nat × Nat)
  open' : Bool
  out : List (Nat × Flit)
  eject : List Flit
  stay : List Flit

/-- Places one flit (R96). -/
def State.placeFlit (s : State) (site : Nat) (f : Flit) (x : Placing) : Placing :=
  if f.dest.toNat = site && x.open' then { x with open' := false, eject := x.eject ++ [f] }
  else
    match x.free.find? fun y => s.productive site f.dest.toNat y.2 with
    | some y => { x with free := x.free.erase y, out := x.out ++ [(y.2, f)] }
    | none =>
      match x.free with
      | y :: r => { x with free := r, out := x.out ++ [(y.2, f)] }
      | [] => { x with stay := x.stay ++ [f] }

/-- Traffic class in the request mesh (R95). -/
def ReqOp.cls : ReqOp → Nat
  | .read _ _ | .pref _ => 0
  | .write _ => 1
  | _ => 2

/-- Traffic class in the reply mesh (R95). The class of an atomic's or a reduction's reply the table does not name: the model gives it
load data, 0, since it carries a value or ends an access (DESIGN CHOICE, log 42). -/
def ReqOp.replyCls : ReqOp → Nat
  | .read _ l0 => if l0 then 1 else 0
  | .pref l => if l = 0 then 1 else 2
  | .write _ => 2
  | _ => 0

/-- Flits of a request's packet (R94, R98): a header flit, and 32 bytes of store data in each further one. -/
def ReqOp.flits : ReqOp → Nat
  | .write d => 1 + ceilDiv d.length 32
  | _ => 1

/-- The transaction number a source uses next (R98): the least that none of its requests holds. -/
def State.meshTxn (s : State) (p : Nat) : Option Nat :=
  let used := s.reqs.filterMap fun x => if x.2.p = p then x.2.txn else none
  firstBelow 1024 fun n => !used.contains n

/-- The next flit of the packet at the head of a local queue, for a plane (R96, R98), with the state in which it has left the
queue `home` names. -/
def State.nextFlit (s : State) (plane home site : Nat) (cyc : Nat) : Option (Flit × State) :=
  let q := smGetD s.routers (4096 * home + site) Router.reset
  match q.queue with
  | [] => none
  | id :: rest =>
    match smGet s.reqs id with
    | none => none
    | some r =>
      match (if plane = 0 then (match r.txn with | some t => some t | none => s.meshTxn r.p) else r.txn) with
      | none => none
      | some t =>
        let n := if plane = 0 then r.op.flits else 1
        let f : Flit :=
          { dest := BitVec.ofNat 12 (if plane = 0 then sliceSite r.home else clusterSite r.p), src := BitVec.ofNat 12 site,
            tag := BitVec.ofNat 10 (asidTag r.asid), age := 0, txn := BitVec.ofNat 10 t, idx := BitVec.ofNat 3 q.sent,
            nfl := BitVec.ofNat 3 (n - 1), cls := BitVec.ofNat 3 (if plane = 0 then r.op.cls else r.op.replyCls),
            req := id, at' := cyc + 1 }
        let last := n ≤ q.sent + 1
        let s := { s with reqs := smSet s.reqs id { r with txn := some t, stage := if plane = 0 then .mesh else r.stage } }
        some (f, s.modRouter home site fun q =>
          { q with queue := if last then rest else q.queue, sent := if last then 0 else q.sent + 1 })

/-- A packet whose request is gone leaves the head of a queue. -/
def State.dropHeads (s : State) (home site : Nat) : State :=
  s.modRouter home site fun q =>
    match q.queue with
    | [] => q
    | id :: _ =>
      if (smGet s.reqs id).isSome then q
      else { q with queue := q.queue.filter fun i => (smGet s.reqs i).isSome, sent := 0 }

/-- The source sends a request again (R374). -/
def State.resend (s : State) (id : Nat) (r : Req) : State :=
  let site := clusterSite r.p
  let s := s.modRouter 0 site fun q =>
    { q with queue := q.queue.filter (· != id), sent := if q.queue.head? = some id then 0 else q.sent }
  ({ s with reqs := smSet s.reqs id { r with txn := none, got := [], reply := false, stage := .inject } }).enqueue 0 site id

/-- A flit is lost (R95, R374). -/
def State.loseFlit (s : State) (f : Flit) : State :=
  match smGet s.reqs f.req with
  | none => s
  | some r =>
    if r.txn ≠ some f.txn.toNat then s
    else
      let s := s.silentError r.p 5
      if !r.reply && decide (r.lost = 0) then s.resend f.req { r with lost := 1 }
      else if r.op.writes then
        (({ s with reqs := smDel s.reqs f.req }).dropStored f.req r |>.leaveTrail r f.req).fatal r.cid cMeshReplyLost 0 0
      else s.resend f.req r

/-! Arbitration between partitions (R408). -/

/-- QP of a partition, 0 the highest; the service block's traffic counts as 0 (R403). -/
def State.qpOf (s : State) (tag : Nat) : Nat := match smGet s.parts tag with | some p => fld p.pmode 51 50 | none => 0

/-- What an arbiter grants next of the requests that wait at it, oldest first, each with its partition (R408): by QP, and within one
QP the oldest. A partition that has waited through 63 × P grants comes first, the longest waiting before others, so that each of P
partitions gets at least one grant in 64 × P: when before that bound the floor is given the rule leaves open (DESIGN CHOICE,
log 43). -/
def arbPick (qp : Nat → Nat) (since : SMap Nat) (l : List (Nat × Nat)) : Option (Nat × Nat) :=
  let n := ((l.map Prod.snd).eraseDups).length
  match bestOf (fun a b => decide (smGetD since b.2 0 < smGetD since a.2 0)) (l.filter fun x => decide (63 * n ≤ smGetD since x.2 0)) with
  | some x => some x
  | none => bestOf (fun a b => decide (qp a.2 < qp b.2)) l

/-- The grants to others that each waiting partition has seen, after one to `w`. -/
def arbNote (since : SMap Nat) (l : List (Nat × Nat)) (w : Nat) : SMap Nat :=
  (((l.map Prod.snd).eraseDups).filter (· ≠ w)).foldl (fun m t => smSet m t (smGetD since t 0 + 1)) []

/-- The reply injection of a slice grants a reply (R408): it comes to the head of the queue. -/
def State.grantReply (s : State) (site : Nat) : State :=
  s.modRouter 1 site fun q =>
    let l := q.queue.filterMap fun id => (smGet s.reqs id).map fun r => (id, asidTag r.asid)
    match arbPick s.qpOf q.grants l with
    | some (id, t) => { q with queue := id :: q.queue.filter (· ≠ id), grants := arbNote q.grants l t }
    | none => q

/-- The queue from which a plane injects at a site (R98): a slice's replies wait in one queue for either reply plane. -/
def replyHome (plane : Nat) : Nat := if plane = 2 then 1 else plane

/-- The router of a site in a plane (R94). -/
def State.router (s : State) (plane site : Nat) : Router := smGetD s.routers (4096 * plane + site) Router.reset

/-- A flit leaves a site for a neighbour (R96); a deflection is noted (R406). -/
def State.putFlit (s : State) (plane site cyc : Nat) (y : Nat × Flit) : State :=
  let s := s.modRouter plane y.1 fun q => { q with inbox := q.inbox ++ [y.2.hop cyc] }
  if s.productive site y.2.dest.toNat y.1 then s
  else s.modRouter plane site fun q => { q with deflected := q.deflected ++ [(y.2.tag.toNat, y.2.src.toNat)] }

/-- The places of a cycle's flits (R96, R97): the first of the order has every link to choose from; links to neighbours that ask for
them are left idle by the others as far as that is possible. -/
def State.placing (s : State) (plane site : Nat) (live : List Flit) : Placing :=
  let x : Placing := { free := s.ports site, open' := s.ejects plane site, out := [], eject := [], stay := [] }
  let x := forL (live.take 1) x fun f x => s.placeFlit site f x
  let calm := x.free.filter fun y => !(s.router plane y.2).asked
  forL (live.drop 1) { x with free := if live.length ≤ calm.length + 1 then calm else x.free } fun f x => s.placeFlit site f x

/-- The head of a local queue waits anew (R97), for every plane that injects from the queue. -/
def State.calmQueue (s : State) (plane site : Nat) : State :=
  forL (if plane = 0 then [0] else [1, 2]) s fun n s => s.modRouter n site fun q => { q with waited := 0, asked := false }

/-- A plane injects at a site (R96, R98, R407): the next flit of its queue, through a free port. Which of several free ports an
injected flit takes R96 does not say: the model takes a productive one first, else the lowest-numbered (DESIGN CHOICE, log 44). -/
def State.injectNow (s : State) (plane site cyc : Nat) (cl : Bool) (free : List (Nat × Nat)) : State :=
  match (if plane ≠ 0 && isSliceSite site then s.grantReply site else s).nextFlit plane (replyHome plane) site cyc with
  | none => s
  | some (f, s) =>
    let s := s.calmQueue plane site
    let s := if cl then s.modRouter 0 site fun q => { q with tokens := q.tokens - 1024 } else s
    if f.dest.toNat = site then s.modRouter plane site fun q => { q with ejected := q.ejected ++ [f] }
    else
      match (s.placeFlit site f { free := free, open' := false, out := [], eject := [], stay := [] }).out with
      | y :: _ => s.putFlit plane site cyc y
      | [] => s

/-- Injection as the fraction g of a cluster allows (R407), in the turn of the reply planes (R98). -/
def State.inject (s : State) (plane site cyc : Nat) (free : List (Nat × Nat)) : State :=
  let home := replyHome plane
  let s := s.dropHeads home site
  let cl := plane = 0 && !isSliceSite site
  let s := if cl then
      s.modRouter 0 site fun q => { q with tokens := min 16384 (q.tokens + (s.cluster (clusterAt site)).g.f) }
    else s
  let held := cl && decide ((s.router 0 site).tokens < 1024)
  let turn := plane ≠ 2 || decide (cyc < (s.router 1 site).cyc)
  if held then s
  else if !turn || free.isEmpty then
    if (s.router home site).queue.isEmpty then s else s.modRouter plane site fun q => { q with waited := q.waited + 1 }
  else s.injectNow plane site cyc cl free

/-- ROUTE_FLITS (R95 to R98, R407): one cycle of a router in a plane, once every neighbour has come as far; a cluster injects
as its fraction g allows. `bad` are the places,
in the order of R96, of the flits whose header parity fails; they and those of a reserved CLASS are lost (R95). -/
def execRouteFlits (plane site : Nat) (bad : List Nat) (s : State) : Host.Outcome State Fault Refusal :=
  .next (
    let r := s.router plane site
    if 3 ≤ plane || 4096 ≤ site || s.fencedRtr.contains site || (s.ports site).any (fun x => decide ((s.router plane x.2).cyc < r.cyc))
    then s
    else
      let now := sortFlits (r.inbox.filter fun f => decide (f.at' ≤ r.cyc))
      let fails (x : Flit × Nat) : Bool := bad.contains x.2 || decide (6 ≤ x.1.cls.toNat)
      let lost := (now.zipIdx.filter fails).map Prod.fst
      let live := (now.zipIdx.filter fun x => !fails x).map Prod.fst
      let x := s.placing plane site live
      let s := s.modRouter plane site fun q =>
        { q with inbox := (q.inbox.filter fun f => decide (r.cyc < f.at')) ++ x.stay.map fun f => f.hop r.cyc,
                 ejected := q.ejected ++ x.eject, errors := q.errors + lost.length, cyc := r.cyc + 1 }
      let s := forL x.out s fun y s => s.putFlit plane site r.cyc y
      let s := s.inject plane site r.cyc x.free
      forL lost s fun f s => s.loseFlit f)

/-- INJECTION_STARVATION (R97): the head of a local queue has waited 256 cycles; the neighbours leave their links towards the
router idle, as far as their own flits allow. -/
def execInjectionStarvation (plane site : Nat) (s : State) : Host.Outcome State Fault Refusal :=
  .next (
    if plane < 3 && site < 4096 && !(s.router (replyHome plane) site).queue.isEmpty && decide (256 ≤ (s.router plane site).waited) then
      s.modRouter plane site fun q => { q with asked := true }
    else s)

/-! Ejection. -/

/-- A sink port accepts a tag (R99). No flit of this model goes to a host or a fabric port: what crosses those ports is checked where it
enters (R278, R421; log 4). -/
def State.sinkAccepts (s : State) (plane site tag : Nat) : Bool :=
  tag = 0 ||
    (if isSliceSite site then
       (if plane = 0 then ((s.slice (quadOf site)).occOf tag).en else false)
     else
       match smGet s.parts tag with
       | some p => p.res.clusters.contains (clusterAt site)
       | none => false)

/-- A saturating 32-bit count. -/
def satCount (n : Nat) : Nat := if n < 2 ^ 32 - 1 then n + 1 else n

/-- A flit with a foreign tag is dropped, counted and logged (R99). -/
def State.tagDrop (s : State) (site : Nat) (f : Flit) : State :=
  let s :=
    if isSliceSite site then s.modSlice (quadOf site) fun sl => { sl with tagdrop := satCount sl.tagdrop }
    else s.modCluster (clusterAt site) fun c => { c with tagdrop := satCount c.tagdrop }
  s.logSvc cTagDrop site f.src.toNat f.tag.toNat

/-- SINK_EJECT (R98, R99): the next ejected flit of a site's port is checked and joins its packet; a whole request waits at
its home slice in the order of reassembly, a whole reply ends its request. -/
def execSinkEject (plane site : Nat) (s : State) : Host.Outcome State Fault Refusal :=
  .next (
    let r := smGetD s.routers (4096 * plane + site) Router.reset
    match r.ejected with
    | [] => s
    | f :: rest =>
      let s := s.modRouter plane site fun q => { q with ejected := rest }
      if !s.sinkAccepts plane site f.tag.toNat then s.tagDrop site f
      else
        match smGet s.reqs f.req with
        | none => s
        | some q =>
          if q.txn ≠ some f.txn.toNat || q.reply != decide (plane ≠ 0) then s
          else
            let got := nsAdd f.idx.toNat q.got
            if got.length ≤ f.nfl.toNat then { s with reqs := smSet s.reqs f.req { q with got := got } }
            else if plane = 0 then
              ({ s with reqs := smSet s.reqs f.req { q with got := [], stage := .atSlice } }).modSlice q.home fun sl =>
                { sl with reqq := sl.reqq ++ [f.req] }
            else s.endReq f.req)

end Sys2Proof.Machine
end

