-- ==== Sys2Proof/Machine/Service.lean ====
section
/-!
DEFINITION. Sys2Proof/Machine/Service.lean: a request at its home slice (R87 to R92): the home order, hits and misses, walks
and fills, page faults (R74, R76, R77), the fill of an L0 (R227), and the errors and refresh of DRAM (R53).
-/

namespace Sys2Proof.Machine

/-! Performing a request on its line. -/

/-- A request is answered: its reply waits at the slice's reply ports (R98). -/
def State.replyReq (s : State) (id : Nat) (r : Req) : State :=
  ({ s with reqs := smSet s.reqs id { r with stage := .replied, reply := true, got := [] } }).enqueue 1 (sliceSite r.home) id

/-- A store of an issue slice to a line is on its way to the home slice. -/
def Req.onWay (q r : Req) : Bool :=
  (match q.op with | .write _ => true | _ => false) && decide (q.p = r.p) && decide (q.sl = r.sl) && !q.host && q.sameLine r &&
    !q.reply && q.line.isNone && decide (q.stage ≠ .contrail) && decide (q.stage ≠ .replay) && decide (q.stage ≠ .held)

/-- The stores of an issue slice to a line that are on their way, in the order in which they left (R92, R236, R257). -/
def State.inFlight (s : State) (r : Req) : List (Nat × Req) :=
  let l := s.reqs.filter fun x => x.2.onWay r
  (ascending (l.map fun x => x.2.inj)).filterMap fun n => l.find? fun x => decide (x.2.inj = n)

/-- The line that a fill makes (R227, R257): the bytes read, with those of the slice's stores on their way; a line with W = 0
takes none of them (R234). -/
def fillLine (r : Req) (l : Line) (out : List (Nat × Req)) : L0Line :=
  let x : L0Line :=
    { asid := r.asid, va := lineVa r.va, w := l.w, x := l.x, data := l.data, pz := l.pz, inflight := [],
      cell := cellNo r.home l.frame }
  if l.w then
    out.foldl (fun x q =>
      match q.2.op with
      | .write d => { x.write (q.2.va.toNat % 128) d with inflight := nsAdd q.1 x.inflight }
      | _ => x) x
  else x

/-- Allocates an L0 line (R227): which line leaves, also by a full set, is a free value; one that holds bytes of stores not
yet performed stays (R257; log 9). -/
def IssueSt.allocL0 (i : IssueSt) (tick : Nat) (l : L0Line) : IssueSt :=
  let rest := i.l0.filter fun x => !(decide (x.asid = l.asid) && decide (x.va = l.va))
  let idle := rest.filter fun x => x.inflight.isEmpty
  let full := decide (512 ≤ rest.length)
  let n := if full then Config.l0Way tick % idle.length else Config.l0Way tick % (idle.length + 1)
  match idle[n]? with
  | some v => { i with l0 := l :: rest.erase v }
  | none => if full then { i with l0 := rest } else { i with l0 := l :: rest }

/-- A read that allocates fills the L0 of its issue slice as it is performed (R227); a line that is present by then stays. -/
def State.fillL0 (s : State) (r : Req) (l : Line) : State :=
  s.modIssue (6 * r.p + r.sl) fun i =>
    if (i.l0Line? r.asid r.va).isSome then i else i.allocL0 s.tick (fillLine r l (s.inFlight r))

/-- What a read takes its bytes from (R257): the line that another read has brought into the L0 of its issue slice meanwhile,
where it may use the L0, or the line at the home slice. So the loads of a thread by one path never go back (R258). -/
def State.readFrom (s : State) (r : Req) (l : Line) (l0 : Bool) : List Byte × BitVec 16 :=
  match (s.issue (6 * r.p + r.sl)).l0Line? r.asid r.va with
  | some x => if l0 then (x.data, x.pz) else (l.data, l.pz)
  | none => (l.data, l.pz)

/-- Whether a byte range read counts as poisoned (R53), bytes taken from the region store buffer left out (R232). -/
def State.readBad (s : State) (r : Req) (pz : BitVec 16) (n : Nat) : Bool :=
  let kept := match r.pend.bind fun p => smGet s.pends p with
    | some p => (smGet p.kept r.lane).getD []
    | none => []
  let off := r.va.toNat % 128
  (List.range n).any fun i => (kept.getD i none).isNone && pz.getLsbD ((off + i) / 8)

/-- Pins or unpins a line (R81, R90, R239). -/
def SliceSt.setPin (sl : SliceSt) (key tag : Nat) (on : Bool) : SliceSt :=
  let l := sl.way key
  let set := key / 16
  let pinned := ((List.range 16).filter fun w => (sl.way (16 * set + w)).pin).length
  let o := sl.occOf tag
  if on then
    if !l.pin && decide (o.pinc < o.pinq) && decide (pinned < 8) then
      (sl.setWay key { l with pin := true }).modOcc tag fun o => { o with pinc := o.pinc + 1 }
    else sl
  else if l.pin then (sl.setWay key { l with pin := false }).modOcc tag fun o => { o with pinc := o.pinc - 1 }
  else sl

/-- What an operation that changes memory does at the line (R87, R246): the old bytes, with their poison, go back. -/
def State.changeLine (s : State) (q key id : Nat) (r : Req) : State × List Byte × Bool :=
  let l := (s.slice q).way key
  let off := r.va.toNat % 128
  match r.op with
  | .write d =>
    let s := s.modSlice q fun sl => sl.setWay key (l.write off d false)
    (s.modIssue (6 * r.p + r.sl) fun i => i.modL0 r.asid r.va fun x => { x with inflight := nsDel id x.inflight }, [], false)
  | op =>
    let n := op.bytes
    let old := l.bytes off n
    let bad := l.poisoned off n
    let s := match atomicNew op (wordOfBytes old) bad with
      | none => s
      | some (d, p) =>
        let l' := l.write off d p
        let l' := if p then l' else { l' with pz := setPz l'.pz (off / 8) false }
        s.modSlice q fun sl => sl.setWay key l'
    (s.modCluster r.p fun c => c.dropL0 fun x => decide (x.asid = r.asid) && decide (x.va = lineVa r.va), old, bad)

/-- Far class of a cluster and a slice (R361): distance in hops. -/
def farClass (p q : Nat) : Nat :=
  let d := hops (clusterSite p) (sliceSite q)
  if d ≤ 8 then 0 else if d ≤ 24 then 1 else if d ≤ 56 then 2 else 3

/-- Takes bytes off the handles of a cohort that are bound to a class and destination (R361). -/
def State.chargeFar (s : State) (cid co cls dst n : Nat) : State :=
  s.modCohort cid co fun h =>
    { h with w := h.w.map fun w => w.map fun w => if w.cls = cls && w.dst = dst then { w with val := w.val - n } else w }

/-- A request is performed on a present line (R69, R87), or ends with the fault of its check. -/
def State.performReq (s : State) (q key id : Nat) : State :=
  match smGet s.reqs id with
  | none => s
  | some r =>
    let l := (s.slice q).way key
    let s := s.modSlice q fun sl => { sl with reqq := sl.reqq.filter (· != id) }
    let s := s.chargeFar r.cid r.co 2 (farClass r.p q) r.op.bytes
    match permFault l.w l.x false (if r.op.writes then 1 else 0) with
    | some c => (s.dropStored id r).replyReq id { r with err := some c }
    | none =>
      match r.op with
      | .read n l0 =>
        let d := s.readFrom r l l0
        (if l0 then s.fillL0 r l else s).replyReq id
          { r with data := (d.1.drop (r.va.toNat % 128)).take n, pz := s.readBad r d.2 n }
      | .pref lvl =>
        let tag := asidTag r.asid
        let s := if lvl = 0 then s.fillL0 r l
          else if lvl = 1 then s
          else s.modSlice q fun sl => sl.setPin key tag (decide (lvl = 2))
        s.replyReq id r
      | _ =>
        let (s, d, p) := s.changeLine q key id r
        s.replyReq id { r with data := d, pz := p }

/-! Congestion (R406). -/

/-- Requests that wait at a slice: in its request queue, and for a walk (R71, R87). -/
def SliceSt.waiting (sl : SliceSt) : List Nat × List Nat :=
  (sl.reqq, sl.walks.flatMap fun w => w.2.waiters.flatMap fun k => (sl.way k).waiters)

/-- The window of a slice port takes note of the requests that wait in each of its queues (R406). -/
def State.noteSlice (s : State) (q : Nat) : State :=
  let item (id : Nat) : Option (Nat × Mark) := (smGet s.reqs id).map fun r => (asidTag r.asid, Mark.slice r.p q)
  let w := (s.slice q).waiting
  (s.noteWindow (4096 + q) (w.1.filterMap item)).noteWindow (4096 + q) (w.2.filterMap item)

/-! Failures. -/

/-- The access kind of a fault record (R383). -/
def ReqOp.kind : ReqOp → Nat
  | .read _ _ | .pref _ => 0
  | .write _ => 1
  | _ => 2

/-- A request enters its thread's contrail, or keeps its place there (R74). -/
def State.enterTrail (s : State) (id : Nat) (r : Req) (st : Stage) : State :=
  let s := { s with reqs := smSet s.reqs id { r with stage := st, txn := none, got := [] } }
  s.modThread r.cid r.co r.lane fun th =>
    if th.contrail.contains id then th else { th with contrail := th.contrail ++ [id] }

/-- A request whose translation failed (R74, R76, R77, R239, R251). -/
def State.failTranslation (s : State) (id : Nat) (cause : Cause) : State :=
  match smGet s.reqs id with
  | none => s
  | some r =>
    let s := s.modSlice r.home fun sl => { sl with reqq := sl.reqq.filter (· != id) }
    match r.op with
    | .pref _ => s.replyReq id r
    | op =>
      if cause = cPageNotPresent then
        let s := s.notePage r.asid r.va op.kind
        match op with
        | .group _ _ _ _ => { s with reqs := smSet s.reqs id { r with stage := .contrail, txn := none, got := [] } }
        | _ =>
          if s.oneForBundle r then { s with reqs := smSet s.reqs id { r with stage := .contrail, txn := none, got := [] } }
          else s.enterTrail id r .contrail
      else (s.dropStored id r).replyReq id { r with err := some cause }

/-- A fill that cannot be made: the way is Invalid again and its requests end (R87). -/
def State.failLine (s : State) (q key : Nat) (cause : Cause) : State :=
  let ids := ((s.slice q).way key).waiters
  forL ids (s.dropWay q key) fun id s => s.failTranslation id cause

/-! The home order (R92). -/

/-- An earlier request of the same source to the same line has not been performed (R92). -/
def State.sourceHeld (s : State) (r : Req) : Bool :=
  s.reqs.any fun x => decide (x.2.p = r.p) && !x.2.host && x.2.sameLine r && decide (x.2.inj < r.inj) && x.2.pendingAt

/-- An earlier request of the slice's queue to the same line comes first. -/
def State.queueHeld (s : State) (q id : Nat) (r : Req) : Bool :=
  (((s.slice q).reqq.takeWhile (· != id)).any fun j =>
    match smGet s.reqs j with
    | some x => x.sameLine r && !s.sourceHeld x
    | none => false)

/-- The thread holds a contrail entry for the page that is older than the request: the request joins it (R74). -/
def State.behindTrail (s : State) (id : Nat) (r : Req) : Bool :=
  match s.thread? r.cid r.co r.lane with
  | none => false
  | some th =>
    s.trails r && !th.contrail.contains id && th.contrail.any fun j =>
      match smGet s.reqs j with
      | some x => decide (vpnOf x.va = vpnOf r.va) && !x.host && decide (x.ord < r.ord)
      | none => false

/-! Misses. -/

/-- Ways of a slice in Filling (R87). -/
def SliceSt.filling (sl : SliceSt) : Nat := (sl.lines.filter fun x => x.2.st = 3).length

/-- A miss whose translation is not in the TLB joins the walk of its page, or starts one (R70, R71). None when the walk queue
is full. -/
def State.joinWalk (s : State) (q : Nat) (asid : BitVec 16) (va : W64) (key : Nat) : Option State :=
  let sl := s.slice q
  match sl.walks.find? fun x => decide (x.2.asid = asid) && s.onePage asid x.2.va va with
  | some (w, _) =>
    some (s.modSlice q fun sl => { sl with walks := smMod sl.walks w fun x => { x with waiters := nsAdd key x.waiters } })
  | none =>
    if sl.walksFull then none
    else
      let id := s.nextId
      some (s.fresh.modSlice q fun sl => { sl with walks := smSet sl.walks id { asid := asid, va := va, waiters := [key] } })

/-- The TLB of a slice holds a translation of an address. -/
def SliceSt.tlbHit (sl : SliceSt) (asid : BitVec 16) (va : W64) : Option Tlb := sl.tlb.find? fun t => t.covers asid (vpnOf va)

/-- A miss: a way is allocated Filling, and its translation begins (R87). -/
def State.miss (s : State) (q id : Nat) (r : Req) : State :=
  if 64 ≤ (s.slice q).filling then s
  else
    match s.allocWay q r.asid r.va with
    | none => s
    | some (t, key) =>
      let t := t.modSlice q fun sl =>
        { sl.setWay key { sl.way key with waiters := [id] } with reqq := sl.reqq.filter (· != id) }
      let t := { t with reqs := smSet t.reqs id { r with stage := .filling } }
      if ((t.slice q).tlbHit r.asid r.va).isSome then t else (t.joinWalk q r.asid r.va key).getD s

/-- The requests that the request port of a slice may grant, oldest first, with their partitions (R92, R408). -/
def State.grantable (s : State) (q : Nat) : List (Nat × Nat) :=
  (s.slice q).reqq.filterMap fun id =>
    match smGet s.reqs id with
    | some r => if r.stage = .atSlice && r.home = q && !r.host && !s.sourceHeld r && !s.queueHeld q id r then some (id, asidTag r.asid) else none
    | none => none

/-- HOME_SLICE_REQUEST (R87, R92, R408): the request at its home slice that the request port grants is performed, joins a fill, or
misses. The order of grants at the memory controller's command port decides only when a fill arrives (log 4). -/
def execHomeSliceRequest (sl id : Nat) (s : State) : Host.Outcome State Fault Refusal :=
  .next (
    match smGet s.reqs id with
    | none => s
    | some r =>
      let s := s.noteSlice sl
      let l := s.grantable sl
      if arbPick s.qpOf (s.slice sl).grants l ≠ some (id, asidTag r.asid) then s
      else
      let s := s.modSlice sl fun x => { x with grants := arbNote x.grants l (asidTag r.asid) }
      if s.behindTrail id r then (s.modSlice sl fun x => { x with reqq := x.reqq.filter (· != id) }).enterTrail id r .replay
      else
        match (s.slice sl).find r.asid r.va with
        | some key =>
          let l := (s.slice sl).way key
          if l.st = 3 then
            ({ s with reqs := smSet s.reqs id { r with stage := .filling } }).modSlice sl fun x =>
              { x.setWay key { l with waiters := l.waiters ++ [id] } with reqq := x.reqq.filter (· != id) }
          else (s.modSlice sl fun x => x.rank key false).performReq sl key id
        | none =>
          match r.op with
          | .pref 3 => (s.modSlice sl fun x => { x with reqq := x.reqq.filter (· != id) }).replyReq id r
          | _ => s.miss sl id r)

/-- The non-leaf entries that a walk reads (R70): level, index path, entry. -/
def walkEntries (s : State) (asid : BitVec 16) (vpn : Nat) : Nat → Nat → List WalkC
  | 0, _ => []
  | l + 1, cell =>
    let e := s.word64 (pteAddr cell (pteIdx (l + 1) vpn))
    if !e.getLsbD 0 || e.getLsbD 1 || l = 0 then []
    else { asid := asid, level := l + 1, idx := vpn / 512 ^ l, entry := e } :: walkEntries s asid vpn l (pteNext e)

/-- PAGE_WALK_END (R66, R68, R71): a running walk ends; its translation enters the TLB, or the misses that wait for it
fail. The walk of a migrating page waits (R83). -/
def execPageWalkEnd (sl walk : Nat) (s : State) : Host.Outcome State Fault Refusal :=
  .next (
    match ((s.slice sl).walks.take 16).find? fun x => x.1 = walk with
    | none => s
    | some (_, w) =>
      if s.migrating w.asid (vpnOf w.va) then s
      else
      let s := s.noteSlice sl
      let found := s.walk sl w.asid (vpnOf w.va)
      let seen := (match s.root w.asid with | some c => walkEntries s w.asid (vpnOf w.va) 5 c | none => [])
      let s := s.modSlice sl fun x =>
        { x with walks := smDel x.walks walk, wcache := ((seen ++ x.wcache).eraseDups).take 256 }
      match found with
      | .ok t => s.modSlice sl fun x => x.learn t
      | .error c => forL w.waiters s fun key s =>
          match s.walk sl w.asid ((s.slice sl).way key).vpn.toNat with
          | .error _ => s.failLine sl key c
          | .ok _ => s)

/-- The waiting requests of a line that has filled are performed in arrival order (R87). -/
def State.serveLine (s : State) (q key : Nat) (ids : List Nat) : State :=
  forL ids s fun id s =>
    match smGet s.reqs id with
    | none => s
    | some r => if s.behindTrail id r then s.enterTrail id r .replay else s.performReq q key id

/-- The fill of a line is of the streaming kind: its first request's is (R230). -/
def fillStream (ops : List Req) : Bool := (match ops with | r :: _ => decide (r.hint / 2 % 2 = 1) | [] => false)

/-- LINE_FILL_DONE (R54, R67, R87): the bytes of a Filling line arrive from DRAM, when its translation stands. -/
def execLineFillDone (sl key : Nat) (s : State) : Host.Outcome State Fault Refusal :=
  .next (
    let l := (s.slice sl).way key
    if l.st ≠ 3 then s
    else
      let va := vpnVa l.vpn.toNat
      match (s.slice sl).tlbHit l.asid va with
      | none =>
        if (s.slice sl).walks.any fun x => x.2.waiters.contains key then s
        else (s.joinWalk sl l.asid va key).getD s
      | some t =>
        match s.leafOk sl l.vpn.toNat t with
        | .error c => s.failLine sl key c
        | .ok t =>
          let ops := l.waiters.filterMap fun id => smGet s.reqs id
          match permFault t.w t.x t.al (if ops.all fun r => r.op.writes then 1 else 0) with
          | some c => s.failLine sl key c
          | none =>
            let s := s.fillWay sl key t (fillStream ops)
            let s := s.modSlice sl fun x => x.setWay key { x.way key with waiters := [] }
            s.serveLine sl key l.waiters)

/-! DRAM. -/

/-- PATROL_SCRUB (R53): patrol scrub rewrites a line of a channel; `bad` are the words found uncorrectable, `corrected` the
single-bit errors. A word is logged once, when its poison bit is first set. -/
def execPatrolScrub (ch line : Nat) (bad : List Nat) (corrected : Nat) (s : State) : Host.Outcome State Fault Refusal :=
  .next (
    if !s.chRdy.contains ch || decide (32 * Config.cells ≤ line) then s
    else
      let frame := line / 32
      let cell := s.cell (cellNo ch frame)
      let a := dramAddr ch (128 * line)
      let s := s.modSlice ch fun x => { x with corrected := x.corrected + corrected }
      forL bad s fun w s =>
        if 16 ≤ w || s.memPz.contains (a / 8 + w) then s
        else
          let s := { s with memPz := nsAdd (a / 8 + w) s.memPz }
          let info := ch * 2 ^ 32 + frame
          if cell.1 = 1 then s.postInfo cell.2 cMemoryUncorrected (BitVec.ofNat 64 (128 * (line % 32))) info
          else s)

/-- DRAM_REFRESH (R341): a bank group is held for a time; no state of the machine changes (log 4). -/
def execDramRefresh (_ch _group : Nat) (s : State) : Host.Outcome State Fault Refusal := .next s

end Sys2Proof.Machine
end

