-- ==== Sys2Proof/Machine/Engine.lean ====
section
/-!
DEFINITION. Sys2Proof/Machine/Engine.lean: how the copy, matrix and hash engines reach memory: bytes with their poison
(R53), the bounce buffer (R78, R79), mapped lines (R106), and the order towards the posting thread (R264).
-/

namespace Sys2Proof.Machine

/-- A byte with the poison of the word it comes from (R53). -/
abbrev PByte := Byte × Bool

/-- Clean bytes. -/
def cleanBytes (d : List Byte) : List PByte := d.map fun b => (b, false)

/-! Words that receive bytes (R53). -/

/-- Poison of the word at `8 × w` after `d` is written from `a` upwards: set when a poisoned byte reaches it, cleared when
clean bytes cover it, unchanged otherwise (R53). -/
def wordPz (old : Bool) (a : Nat) (d : List PByte) (w : Nat) : Bool :=
  let here := (List.range 8).filterMap fun i => if a ≤ 8 * w + i then d[8 * w + i - a]? else none
  if here.any Prod.snd then true else if here.length = 8 then false else old

/-- Numbers of the words that a range touches. -/
def wordsIn (a n : Nat) : List Nat := (List.range ((a + n + 7) / 8 - a / 8)).map (· + a / 8)

/-- Bytes written into memory with their poison. -/
def State.putBytesP (s : State) (a : Nat) (d : List PByte) : State :=
  { s with mem := memWrite s.mem a (d.map Prod.fst),
           memPz := forL (wordsIn a d.length) s.memPz fun w pz =>
             if wordPz (s.memPz.contains w) a d w then nsAdd w pz else nsDel w pz }

/-- Bytes of memory with their poison. -/
def State.getBytesP (s : State) (a n : Nat) : List PByte :=
  (memRead s.mem a n).zipIdx.map fun x => (x.1, s.memPz.contains ((a + x.2) / 8))

/-- Bytes written into a slice line with their poison. -/
def Line.writeP (l : Line) (off : Nat) (d : List PByte) : Line :=
  { l with st := 2, data := putBytes l.data off (d.map Prod.fst),
           pz := forL (wordsIn off d.length) l.pz fun w z => setPz z w (wordPz (l.pz.getLsbD w) off d w) }

/-- Bytes of a slice line with their poison. -/
def Line.bytesP (l : Line) (off n : Nat) : List PByte :=
  (l.bytes off n).zipIdx.map fun x => (x.1, l.pz.getLsbD ((off + x.2) / 8))

/-! Global bytes. -/

/-- A read within one line at its home slice (R264). -/
def State.homeReadP (s : State) (asid : BitVec 16) (va : W64) (n : Nat) : Acc (State × List PByte) :=
  match s.ensureLine asid va 0 with
  | .fault c => .fault c
  | .wait => .wait
  | .done (s, q, key) => .done (s, ((s.slice q).way key).bytesP (va.toNat % 128) n)

/-- A write within one line at its home slice. -/
def State.homeWriteP (s : State) (asid : BitVec 16) (va : W64) (d : List PByte) : Acc State :=
  match s.ensureLine asid va 1 with
  | .fault c => .fault c
  | .wait => .wait
  | .done (s, q, key) => .done (s.modSlice q fun sl => sl.setWay key ((sl.way key).writeP (va.toNat % 128) d))

/-- Bytes of bounce space that a record takes (R78): a 64-byte header and whole 32-byte granules. -/
def Bounce.size (b : Bounce) : Nat := 64 + 32 * ((b.va.toNat % 32 + b.data.length + 31) / 32)

/-- A bounce buffer without room posts its episode once (R79). -/
def State.bounceEpisode (s : State) (tag : Nat) : State :=
  match smGet s.parts tag with
  | some p => if p.bounceFull then s else (s.postInfo tag cBounceFull 0 0).modPart tag fun p => { p with bounceFull := true }
  | none => s

/-- An engine write that meets an absent page lands in the bounce buffer, with the page's record (R78); without room it
waits, and the episode is posted once (R79). The cells that the buffer occupies are held (`areas`); where in them a record
lies the spec does not say, so a record is an entry of a list. -/
def State.bounceIn (s : State) (asid : BitVec 16) (va : W64) (d : List PByte) : State × Bool :=
  let tag := asidTag asid
  match smGet s.parts tag with
  | none => (s, false)
  | some p =>
    let b : Bounce := { asid := asid, va := va, data := d, seq := p.bounceSeq }
    let used := p.bounce.foldl (fun n x => n + x.size) 0
    if used + b.size ≤ p.bounceMax then
      ((s.modPart tag fun p => { p with bounce := p.bounce ++ [b], bounceSeq := p.bounceSeq + 1 }).notePage asid va 3, true)
    else (s.bounceEpisode tag, false)

/-- An engine write within one line at home; a migrating page takes none, as an absent one (R78). -/
def State.homeLand (s : State) (asid : BitVec 16) (va : W64) (d : List PByte) : Acc State :=
  if s.migrating asid (vpnOf va) then .fault cPageNotPresent else s.homeWriteP asid va d

/-- An engine write within one line, to the host window or at home (R78, R80, R421). -/
def State.engineWrite (s : State) (asid : BitVec 16) (va : W64) (d : List PByte) : Acc State :=
  match s.homeLand asid va d with
  | .done s => .done s
  | .wait => .wait
  | .fault c =>
    if c = cPageNotPresent then
      match s.bounceIn asid va d with
      | (s, true) => .done s
      | (_, false) => .wait
    else .fault c

/-- The state after an engine write that did not land: a full bounce buffer has posted its episode (R79), an absent page its
record. -/
def State.engineStall (s : State) (asid : BitVec 16) (va : W64) (d : List PByte) : State :=
  match s.homeLand asid va d with
  | .fault c => if c = cPageNotPresent then (s.bounceIn asid va d).1 else s
  | _ => s

/-- L0 lines of a cluster that a performed global granule invalidates (R264). -/
def State.dropL0At (s : State) (p : Nat) (asid : BitVec 16) (va : W64) : State :=
  s.modCluster p fun c => c.dropL0 fun x => decide (x.asid = asid) && decide (x.va = lineVa va)

/-! Mapped lines (R106). -/

/-- ASID of the crew that mapped a line. -/
def State.lineAsid (s : State) (l : MLine) : BitVec 16 :=
  match smGet s.crews l.cid with
  | some c => asidOf c.part c.space
  | none => 0

/-- The fill of a mapped line (R106): its bytes and poison, and W of the translation. -/
def State.fillMline (s : State) (p line : Nat) (l : MLine) : Acc State :=
  let asid := s.lineAsid l
  if s.sourceBusy (some p) asid l.va then .wait
  else
  match s.ensureLine asid l.va 0 with
  | .fault c => .fault c
  | .wait => .wait
  | .done (s, q, key) =>
    let x := (s.slice q).way key
    .done ((s.putBytesP (stashAddr p (128 * line)) (x.bytesP 0 128)).modMline p (128 * line) fun l =>
      { l with st := 2, mask := 0, w := x.w, cell := cellNo q x.frame })

/-- An access of a thread to a mapped line that has filled is performed (R106). -/
def State.serveWait (s : State) (p : Nat) (w : MWait) : State :=
  let a := stashAddr p w.off
  let trap (s : State) (c : Cause) : State :=
    s.dueTrap w.cid w.co w.lane (lateTrap c (s.windowOff w.cid w.off) w.trpc w.ord w.inRgn)
  let ro := (match (s.cluster p).mline? w.off with | some l => !l.w | none => false)
  let s := match w.op with
    | .read n _ =>
      let kept := match smGet s.pends w.pend with
        | some x => (smGet x.kept w.lane).getD (List.replicate n none)
        | none => List.replicate n none
      let r := loadValue w.sx kept (memRead s.mem a n) fun j => s.memPz.contains ((a + j) / 8)
      (s.resultLane w.pend w.lane r.val r.p).performLane w.pend w.lane
    | .write d =>
      let s := if ro then trap s cPagePerm
        else (s.writeBytes a d false).modMline p w.off fun l => { l with mask := l.mask ||| granMask w.off d.length }
      if w.sx then s.performLane w.pend w.lane else s
    | op =>
      if ro then trap (s.resultLane w.pend w.lane [] true) cPagePerm
      else
        let (s, r) := s.atomStash p w.off w.sz op
        s.resultLane w.pend w.lane r.val r.p
  match w.req with
  | none => s
  | some id =>
    match smGet s.reqs id with
    | some r => ({ s with reqs := smDel s.reqs id }).leaveTrail r id
    | none => s

/-- The write-back asked for by a result's lane is made on every line (R109). -/
def State.wbLanes (s : State) (p : Nat) (l : List (Nat × Nat)) : State :=
  forL l s fun x s =>
    if x.2 < 32 && !((s.cluster p).mapped.any fun y => y.2.wb.contains x) then s.performLane x.1 x.2 else s

/-- A line after the empty step (R106). -/
def MLine.emptied (l : MLine) : MLine := { l with st := 0, mask := 0, wb := [], inv := none }

/-- What waits for the end of a line's write-back, or of its fill, happens (R106, R107, R109). -/
def State.mlineRest (s : State) (p line : Nat) : State :=
  match smGet (s.cluster p).mapped line with
  | none => s
  | some l =>
    if l.st = 1 || (l.st = 2 && decide (l.mask ≠ 0) && (l.un || !l.wb.isEmpty)) then s
    else
      let s := s.modCluster p fun c =>
        { c with mapped :=
            if l.un then smDel c.mapped line
            else smSet c.mapped line (if l.inv.isSome && decide (l.st ≠ 3) then l.emptied else { l with wb := [] }) }
      s.wbLanes p l.wb

/-- The accesses that wait on a line are taken off it. -/
def State.takeWaiters (s : State) (p line : Nat) (l : MLine) : State × List MWait :=
  let ws := l.waiters.filterMap fun id => smGet (s.cluster p).mwait id
  ((s.modCluster p fun c => { c with mwait := l.waiters.foldl smDel c.mwait }).modMline p (128 * line) fun l =>
    { l with waiters := [] }, ws)

/-- The waiting access of a thread whose line's page is absent becomes a contrail entry (R74, R106). -/
def State.trailWait (s : State) (p : Nat) (l : MLine) (w : MWait) : State :=
  match w.req with
  | some id =>
    match smGet s.reqs id with
    | some r => { s with reqs := smSet s.reqs id { r with stage := .contrail } }
    | none => s
  | none =>
    let id := s.nextId
    let sl := (match s.cohort? w.cid w.co with | some h => h.slice | none => 0)
    let pend := if w.sx || !w.op.writes then some w.pend else none
    let r := mkReq s p sl w.cid w.co w.lane pend (s.lineAsid l) l.va w.op 0 w.trpc w.inRgn
    let r := { r with stage := .contrail, ord := w.ord, line := some w.off, lost := if w.sx then 1 else 0 }
    ({ s.fresh with reqs := smSet s.reqs id r }).modThread w.cid w.co w.lane fun th => { th with contrail := th.contrail ++ [id] }

/-- The fill of a mapped line ends in a fault (R74, R76, R77, R106): the line is Empty again. -/
def State.failMline (s : State) (p line : Nat) (l : MLine) (cause : Cause) : State :=
  let (s, ws) := s.takeWaiters p line l
  let s := s.modMline p (128 * line) fun l => { l with st := 0 }
  let s := if cause = cPageNotPresent then
      forL ws (s.notePage (s.lineAsid l) l.va 0) fun w s => s.trailWait p l w
    else
      forL ws s fun w s =>
        let s := match w.op with
          | .write _ => if w.sx then s.performLane w.pend w.lane else s
          | .read _ _ => (s.resultLane w.pend w.lane [] true).performLane w.pend w.lane
          | _ => s.resultLane w.pend w.lane [] true
        let s := match w.req.bind fun id => (smGet s.reqs id).map fun r => (id, r) with
          | some (id, r) => ({ s with reqs := smDel s.reqs id }).leaveTrail r id
          | none => s
        let a := if cause = cStashOrphan then s.windowOff w.cid w.off else l.va + BitVec.ofNat 64 (w.off % 128)
        s.dueTrap w.cid w.co w.lane (lateTrap cause a w.trpc w.ord w.inRgn)
  s.mlineRest p line

/-- A mapped line that has filled serves its waiting accesses in arrival order (R106). Those that came after a `stash.inv` find
the line as the empty step leaves it (R109). -/
def State.serveMline (s : State) (p line : Nat) : State :=
  match smGet (s.cluster p).mapped line with
  | none => s
  | some l =>
    let (s, ws) := s.takeWaiters p line l
    let n := l.inv.getD ws.length
    let s := (forL (ws.take n) s fun w s => s.serveWait p w).mlineRest p line
    forL (ws.drop n) s fun w s =>
      match (s.cluster p).mline? w.off with
      | some l => if l.st < 2 then s.waitLine p w else s.serveWait p w
      | none => s.serveWait p w

/-- Makes a mapped line that an engine touches Valid (R106). -/
def State.touchMline (s : State) (p line : Nat) : Acc State :=
  match smGet (s.cluster p).mapped line with
  | none => .done s
  | some l =>
    if l.st = 3 then .fault cStashOrphan
    else if l.st = 2 then .done s
    else
      match s.fillMline p line l with
      | .done s => .done (s.serveMline p line)
      | .wait => .wait
      | .fault c => .fault c

/-- A range of physical stash bytes cut at line boundaries and read by an engine. -/
def State.stashReadP (s : State) (p off n : Nat) : Acc (State × List PByte) :=
  match s.touchMline p (off / 128) with
  | .fault c => .fault c
  | .wait => .wait
  | .done s =>
    if off % 128 + n ≤ 128 then .done (s, s.getBytesP (stashAddr p off) n)
    else
      match s.touchMline p (off / 128 + 1) with
      | .fault c => .fault c
      | .wait => .wait
      | .done s => .done (s, s.getBytesP (stashAddr p off) n)

/-- Bytes written by an engine within one line of a stash (R106): mask bits, or PAGE_PERM on a line without W. -/
def State.stashWriteP (s : State) (p off : Nat) (d : List PByte) : Acc State :=
  match s.touchMline p (off / 128) with
  | .fault c => .fault c
  | .wait => .wait
  | .done s =>
    match (s.cluster p).mline? off with
    | some l =>
      if l.st ≠ 2 then .wait
      else if l.w then
        .done ((s.putBytesP (stashAddr p off) d).modMline p off fun l => { l with mask := l.mask ||| granMask off d.length })
      else .fault cPagePerm
    | none => .done (s.putBytesP (stashAddr p off) d)

/-- Writes of a thread to a global range, or to a range of its cluster's stash, that are not yet performed (R264). -/
def State.ownWrites (s : State) (p cid co lane : Nat) (asid : Option (BitVec 16)) (lo n : Nat) : Bool :=
  match asid with
  | some a => s.reqs.any fun x =>
      let r := x.2
      decide (r.cid = cid) && decide (r.co = co) && decide (r.lane = lane) && r.op.writes && decide (r.asid = a) && r.line.isNone &&
        overlaps lo (lo + n) r.va.toNat (r.va.toNat + r.op.bytes)
  | none => ((s.cluster p).mwait.any fun x =>
      let w := x.2
      decide (w.cid = cid) && decide (w.co = co) && decide (w.lane = lane) && w.op.writes && overlaps lo (lo + n) w.off (w.off + w.sz)) ||
      s.reqs.any fun x =>
        let r := x.2
        decide (r.cid = cid) && decide (r.co = co) && decide (r.lane = lane) && r.op.writes &&
          (match r.line with | some o => overlaps lo (lo + n) o (o + r.op.bytes) | none => false)

end Sys2Proof.Machine
end

