-- ==== Sys2Proof/Machine/Barrier.lean ====
section
/-!
DEFINITION. Sys2Proof/Machine/Barrier.lean: the barrier object (R342 to R346).
-/

namespace Sys2Proof.Machine

/-- A barrier object (R342); ADJ is signed. -/
structure BarObj where
  ldb : Nat
  exb : Nat
  adj : Int
  pna : Nat
  exa : Nat
  ph : Nat
  deriving DecidableEq, Repr, Inhabited

/-- A barrier object from its 128 bits (R342). -/
def BarObj.ofNat (n : Nat) : BarObj :=
  { ldb := bits n 127 96, exb := bits n 95 64, adj := sext 16 (bits n 63 48), pna := bits n 47 32, exa := bits n 31 16,
    ph := bits n 15 0 }

/-- The 128 bits of a barrier object (R342). -/
def BarObj.toNat (b : BarObj) : Nat :=
  b.ldb * 2 ^ 96 + b.exb * 2 ^ 64 + (b.adj % 2 ^ 16).toNat * 2 ^ 48 + b.pna * 2 ^ 32 + b.exa * 2 ^ 16 + b.ph

/-- The flip (R344). -/
def BarObj.flip (b : BarObj) : BarObj :=
  let e := ((b.exa : Int) + b.adj).toNat
  { ldb := 0, exb := 0, adj := 0, pna := e, exa := e, ph := (b.ph + 1) % 2 ^ 16 }

/-- The object flips when both of its counts are complete (R344). -/
def BarObj.settle (b : BarObj) : BarObj := if b.pna = 0 && b.ldb = b.exb then b.flip else b

/-- `bar.init` with a count; none when refused (R344, R349). -/
def BarObj.init (b : BarObj) (e : Nat) : Option BarObj :=
  if b.pna ≠ b.exa || b.adj ≠ 0 || b.exb ≠ 0 || b.ldb ≠ 0 then none else some { b with exa := e, pna := e }

/-- The kinds of arrival (R347). -/
inductive ArriveKind where
  | plain | drop | join
  deriving DecidableEq, Repr

/-- An arrival (R344). -/
def BarObj.arrive (b : BarObj) : ArriveKind → Except Cause BarObj
  | .plain => if b.pna = 0 then .error cBarrierUnderflow else .ok { b with pna := b.pna - 1 }.settle
  | .drop =>
    if b.pna = 0 || (b.exa : Int) + b.adj = 0 then .error cBarrierUnderflow
    else if b.adj = -32768 then .error cBarrierOverflow
    else .ok { b with pna := b.pna - 1, adj := b.adj - 1 }.settle
  | .join =>
    if b.adj = 32767 || (b.exa : Int) + b.adj = 65535 then .error cBarrierOverflow
    else .ok { b with adj := b.adj + 1 }.settle

/-- `bar.exp` of `n` bytes, with an arrival when `arv` (R344, R350). -/
def BarObj.expect (b : BarObj) (n : Nat) (arv : Bool) : Except Cause BarObj :=
  if 2 ^ 32 ≤ b.exb + n then .error cBarrierOverflow
  else if arv && decide (b.pna = 0) then .error cBarrierUnderflow
  else .ok { b with exb := b.exb + n, pna := if arv then b.pna - 1 else b.pna }.settle

/-- An engine's addition of `n` bytes (R344); none when they are early (R345). -/
def BarObj.addBytes (b : BarObj) (n : Nat) : Option BarObj :=
  if b.exb < b.ldb + n then none else some { b with ldb := b.ldb + n }.settle

/-- A crew's barrier object as it stands in the stash (R342, R343). -/
def State.bar (s : State) (c : Crew) (i : Nat) : BarObj := BarObj.ofNat (natOfBytes (memRead s.mem (c.barAt i) 16))

/-- A barrier object is written. -/
def State.setBar (s : State) (c : Crew) (i : Nat) (b : BarObj) : State :=
  s.writeBytes (c.barAt i) (bytesOfNat 16 b.toNat) false

/-- Bytes of a list replaced from an offset on. -/
def splice (l : List (Byte × Bool)) (off : Nat) (d : List Byte) : List (Byte × Bool) :=
  l.take off ++ (d.map fun b => (b, false)) ++ l.drop (off + d.length)

/-- An engine adds landed bytes to an object of a crew, in its window or as saved with it; early bytes are refused and
posted as a fatal fault of the crew that holds the object (R344, R346, R383). What has arrived ends the wait of R359. -/
def State.barAdd (s : State) (cid i n : Nat) : State :=
  match smGet s.crews cid with
  | none => s
  | some c =>
    if n = 0 then s
    else
      let off := c.dOff + 16 * i
      let away := decide (c.st = .saved) || decide (c.st = .suspended)
      let old := if away then BarObj.ofNat (natOfBytes (((c.saved.drop off).take 16).map Prod.fst)) else s.bar c i
      match old.addBytes n with
      | some b =>
        let s := s.modCrew cid fun c => { c with wdBlocked := none }
        if away then s.modCrew cid fun c => { c with saved := splice c.saved off (bytesOfNat 16 b.toNat) } else s.setBar c i b
      | none => s.fatal cid cBarrierBytesEarly 0 (i * 2 ^ 32 + n)

/-- An instruction that each executing thread performs in lane order: a fault, or the state after it and its result; the
results are delivered later (R114, R343, R348). -/
def seqSlot (x : Slot) (g : Fin 32 → State → Except Cause (State × W64)) (s : State)
    (ad : Fin 32 → W64 := fun i => (x.a[i]).lo.setWidth 64) : State :=
  let (s, l, vals) := forL (lanesOf x.ex) (s, ([] : List (Nat × TrapRec)), ([] : SMap W64)) fun i y =>
    match g i y.1 with
    | .error c => (y.1, y.2.1 ++ [(i.val, preciseTrap x.run c (faultAddr c (ad i)))], y.2.2)
    | .ok r => (r.1, y.2.1, smSet y.2.2 i.val r.2)
  let id := s.nextId
  finishLate x l id false (s.addPend (x.postPend (x.done l) vals fun r => r.getLsbD 0))

end Sys2Proof.Machine
end

