-- ==== Sys2Proof/Machine/Job.lean ====
section
/-!
DEFINITION. Sys2Proof/Machine/Job.lean: what the engines share: the chuck (R116, R117, R120, R123), the crews that receive
(R128), and reads and writes of a job's granules (R80, R118, R264).
-/

namespace Sys2Proof.Machine

/-! The chuck. -/

/-- Free chuck entries of a cluster (R120). -/
def Cluster.chuckRoom (c : Cluster) : Nat := 64 - c.chuck.length

/-- Entries of one job. -/
def Rng.of (r : Rng) (eng job : Nat) : Bool := decide (r.eng = eng) && decide (r.job = job)

/-- Two entries conflict (R117). -/
def Rng.conflicts (a b : Rng) : Bool := decide (a.asid = b.asid) && overlaps a.lo a.hi b.lo b.hi && (a.dst || b.dst)

/-- A job may start: no earlier-accepted job of any engine of the cluster whose ranges conflict with its own is left
(R117, R123). -/
def Cluster.mayStart (c : Cluster) (eng job ord : Nat) : Bool :=
  let mine := c.chuck.filter fun r => r.of eng job
  !(c.chuck.any fun r => decide (r.ord < ord) && mine.any fun m => m.conflicts r)

/-- Releases the chuck entries of a job (R119 step 2). -/
def Cluster.releaseChuck (c : Cluster) (eng job : Nat) : Cluster := { c with chuck := c.chuck.filter fun r => !r.of eng job }

/-! Receiving crews. -/

/-- Member index of a crew in its team (R301). -/
def Crew.member (c : Crew) : Nat := c.idx % (c.tw * c.th)

/-- The crew of the same team with a member index (R301). -/
def State.teamCrew (s : State) (c : Crew) (m : Nat) : Option Nat :=
  let n := c.tw * c.th
  (s.crews.find? fun x => decide (x.2.grid = c.grid) && decide (x.2.idx = c.idx / n * n + m)).map Prod.fst

/-- The crews of a grid that run on the cluster of a logical position (R128). -/
def State.crewsAt (s : State) (part grid lcl : Nat) : List Nat :=
  s.crews.filterMap fun x =>
    if x.2.part = part && x.2.grid = grid && x.2.lcl = lcl then some x.1 else none

/-- Whether a receiving crew can take bytes now, must be waited for, or is gone (R128, R415). -/
def State.receiver (s : State) (cid : Option Nat) : Acc Crew :=
  match cid.bind fun i => smGet s.crews i with
  | none => .fault cCopyTargetAbsent
  | some c =>
    match c.st with
    | .saved | .suspended => .wait
    | _ => .done c

/-- What is kept of a job that a save cancelled (R376). -/
def Crew.cutOf (c : Crew) (mx : Bool) (h : W64) : Option Cut :=
  c.cut.find? fun x => decide (x.mx = mx) && decide (fld x.handle 31 0 = fld h 31 0)

/-- A job slot of a cluster is used again: what was kept of its former job is gone (R125). -/
def State.reuseSlot (s : State) (p slot : Nat) (mx : Bool) : State :=
  { s with crews := smMap (fun _ c =>
      if c.p = p then { c with cut := c.cut.filter fun x => !(decide (x.mx = mx) && decide (fld x.handle 6 1 = slot)) } else c) s.crews }

/-! Reads and writes of granules. -/

/-- Bytes of global memory, in parts of lines, for an engine of a cluster, or for a peer (R92). -/
def State.globalParts (s : State) (src : Option Nat) (asid : BitVec 16) : List (Nat × Nat) → Acc (State × List PByte)
  | [] => .done (s, [])
  | (a, n) :: r =>
    if s.sourceBusy src asid (BitVec.ofNat 64 a) then .wait
    else
    match s.homeReadP asid (BitVec.ofNat 64 a) n with
    | .fault c => .fault c
    | .wait => .wait
    | .done (s, d) =>
      match State.globalParts s src asid r with
      | .fault c => .fault c
      | .wait => .wait
      | .done (s, e) => .done (s, d ++ e)

/-- A global read of an engine (R80): an absent page posts its record and defers the granule. -/
def State.engineRead (s : State) (p : Nat) (asid : BitVec 16) (va n : Nat) : Acc (State × List PByte) :=
  s.globalParts (some p) asid (lineParts 3 va n)

/-- Records an absent page that an engine's read meets (R76, R80). -/
def State.noteRead (s : State) (asid : BitVec 16) (va n : Nat) : State :=
  forL (lineParts 3 va n) s fun x s =>
    match s.homeReadP asid (BitVec.ofNat 64 x.1) x.2 with
    | .fault c => if c = cPageNotPresent then s.notePage asid (BitVec.ofNat 64 x.1) 3 else s
    | _ => s

/-- Records the absent pages of the Empty mapped lines that an engine meets in a stash range (R80, R106). -/
def State.noteStash (s : State) (p off n : Nat) : State :=
  forL (s.cluster p).mapped s fun x s =>
    if x.2.st = 0 && overlaps (128 * x.1) (128 * x.1 + 128) off (off + n) then
      match s.ensureLine (s.lineAsid x.2) x.2.va 0 with
      | .fault c => if c = cPageNotPresent then s.notePage (s.lineAsid x.2) x.2.va 3 else s
      | _ => s
    else s

/-- Writes an engine's bytes to global memory within one granule, and drops the L0 lines of its cluster (R264). -/
def State.engineGlobal (s : State) (p : Nat) (asid : BitVec 16) (va : W64) (d : List PByte) : Acc State :=
  if s.sourceBusy (some p) asid va then .wait
  else
  match s.engineWrite asid va d with
  | .done s => .done (s.dropL0At p asid va)
  | .wait => .wait
  | .fault c => .fault c

/-- A window range is inside the window and outside the sync and channel areas (R118). -/
def Crew.plainRange (c : Crew) (off : Int) (n : Nat) : Bool :=
  decide (0 ≤ off) && decide (off + n ≤ c.stash) &&
    !overlaps off.toNat (off.toNat + n) c.dOff (c.dOff + c.syncBytes + 2048 * c.chan)

/-- Mapped lines of a physical stash range that hold dirty granules. -/
def Cluster.dirtyIn (c : Cluster) (off n : Nat) : Bool :=
  c.mapped.any fun x => decide (x.2.st = 2) && decide (x.2.mask ≠ 0) && overlaps (128 * x.1) (128 * x.1 + 128) off (off + n)

/-- A job or a card that ends without being published leaves what it wrote into a crew's window for the next one that completes
the barrier's phase (R264). -/
def State.noteEnded (s : State) (cid bar lo n : Nat) : State :=
  s.modCrew cid fun c => { c with ended := if c.ended.contains (bar, lo, n) then c.ended else (bar, lo, n) :: c.ended }

/-- What was left for a barrier object is published with a job's own bytes. -/
def State.dropEnded (s : State) (cid bar : Nat) : State :=
  s.modCrew cid fun c => { c with ended := c.ended.filter fun x => x.1 ≠ bar }

/-- What was left for a barrier object is written back. -/
def State.endedClean (s : State) (c : Crew) (bar : Nat) : Bool :=
  c.ended.all fun x => decide (x.1 ≠ bar) || !(s.cluster c.p).dirtyIn x.2.1 x.2.2

/-- The results of the cancels that wait for a job's end (R126, R223). -/
def State.finishCancel (s : State) (l : List (Nat × Nat)) (v : Nat) : State :=
  forL l s fun w s => s.resultLane w.1 w.2 [BitVec.ofNat 64 (v % 2 ^ 32)] false

/-- One lane's cancel: its result, or a result that waits, noted with the job (R126, R223). -/
def cancelLane (g : Nat × Nat → Fin 32 → State → State × Option Nat) (id : Nat) (i : Fin 32) (s : State) : State :=
  match g (id, i.val) i s with
  | (s, some v) => s.finishCancel [(id, i.val)] v
  | (s, none) => s

/-- A cancelling instruction, lane by lane: each gives its result, or is noted with the job as a result that waits (R126,
R223). -/
def cancelSlot (x : Slot) (g : Nat × Nat → Fin 32 → State → State × Option Nat) (s : State) : State :=
  let l := x.faults fun i => if (x.a[i]).p then some (cPoisonUse, 0) else none
  let id := s.nextId
  let s := s.addPend (x.pend 1 (x.done l) 0 [])
  finishLate x l id false (forL (lanesOf (x.done l)) s (cancelLane g id))

end Sys2Proof.Machine
end

