-- ==== Sys2Proof/Machine/Queue.lean ====
section
/-!
DEFINITION. Sys2Proof/Machine/Queue.lean: the host-produced queues (R422 to R424): state changes, and the fetch of the
record at RP.
-/

namespace Sys2Proof.Machine

/-- Queue block `qi` of a partition (R419): 0 to 63 launch queues, 64 mapping, 65 fault, 66 event, 67 seal log. -/
def State.queue (s : State) (tag qi : Nat) : Queue :=
  match smGet s.parts tag with
  | some p => smGetD p.queues qi Queue.reset
  | none => Queue.reset

/-- Changes a queue block. -/
def State.modQueue (s : State) (tag qi : Nat) (f : Queue → Queue) : State :=
  s.modPart tag fun p => { p with queues := smSet p.queues qi (f (smGetD p.queues qi Queue.reset)) }

/-- Space of the queue concerned in an event record (R426). -/
def queueSpace (qi : Nat) : Nat := if qi < 64 then qi else 0

/-- A change of STATE (R423), with its event record (R426). -/
def State.queueTo (s : State) (tag qi : Nat) (st : BitVec 2) : State :=
  let q := s.queue tag qi
  if q.st = st then s
  else
    (s.modQueue tag qi fun q => { q with st := st, stampSince := none }).postEvent tag 4 (queueSpace qi) q.rp
      (BitVec.ofNat 64 st.toNat) 0

/-- Too many records: OVERRUN, RP := WP, and the record (R423). -/
def State.overrun (s : State) (tag qi : Nat) : State :=
  let q := s.queue tag qi
  if q.st = 0 && decide (2 ^ q.log2n.toNat < (q.wp - q.rp).toNat) then
    ((s.modQueue tag qi fun q => { q with rp := q.wp }).queueTo tag qi 1).postInfo tag cQueueOverrun 0 q.wp.toNat
  else s

/-- Address of the record at RP; records are 64 bytes (R422). -/
def Queue.head (q : Queue) : W64 := q.base + BitVec.ofNat 64 (64 * (q.rp.toNat % 2 ^ q.log2n.toNat))

/-- Words of a byte list, eight of them. -/
def eightWords (d : List Byte) : List W64 := (List.range 8).map fun i => wordOfBytes ((d.drop (8 * i)).take 8)

/-- The 64 bytes at an address of space 0, or of host memory (R421, R422). -/
def State.readRecord (s : State) (tag : Nat) (va : W64) : Acc (State × List W64) :=
  if inHost va then
    .done (s, eightWords ((List.range 64).map fun i => Config.hostByte s.tick (hostAddr va + i)))
  else
    match s.readVa (asidOf tag 0) va 64 0 with
    | .done (s, d, _) => .done (s, eightWords d)
    | .wait => .wait
    | .fault c => .fault c

/-- Fetches the record at RP of a host-produced queue (R423, R424); `stampOf` finds its STAMP. A record whose stamp is not
RP is not taken; in STAMP_WAIT one fetch follows each WP write. Mapping records are taken in every state but RESETTING (R414),
others while RUNNING; a ring in host memory is read only while the interface is in RUN (R420). -/
def State.fetchRecord (s : State) (tag qi : Nat) (stampOf : List W64 → Nat) : State × Option (List W64) :=
  let q := s.queue tag qi
  let running := (match smGet s.parts tag with
    | some p => (decide (p.qst = 0) || (decide (qi = 64) && decide (p.qst ≠ 4))) &&
        (decide (p.tdisp = .run) || !inHost q.base)
    | none => false)
  if !running || !q.en || (q.st ≠ 0 && !(decide (q.st = 2) && q.stampSince.isSome)) then (s, none)
  else
    let s := s.overrun tag qi
    let q := s.queue tag qi
    if (q.st ≠ 0 && q.st ≠ 2) || q.rp = q.wp then (s, none)
    else
      match s.readRecord tag q.head with
      | .done (s, ws) =>
        if stampOf ws = q.rp.toNat then
          ((s.queueTo tag qi 0).modQueue tag qi fun q => { q with rp := q.rp + 1, stampSince := none }, some ws)
        else
          (s.modQueue tag qi fun q =>
            { q with stampSince := if q.st = 2 then none else some (q.stampSince.getD s.time) }, none)
      | _ => (s, none)

/-- STAMP of a mapping record (R425). -/
def mapStamp (ws : List W64) : Nat := match ws with | w :: _ => fld w 31 0 | [] => 0

/-- STAMP of a launch record (R328). -/
def launchStamp (ws : List W64) : Nat := match ws with | _ :: _ :: _ :: w :: _ => fld w 31 0 | _ => 0

/-- The mapping record at RP of a partition's mapping queue, decoded; a malformed one completes with status 2 (R425).
An ACQUIRE that waits for scrubbing cells (R63) holds the partition's later records (R72), and a MIGRATE under way goes on
first (R83). -/
def State.nextMapping (s : State) (tag : Nat) : State × Option Instr :=
  if s.acqWait.any fun x => x.1 = tag then (s, none) else
  match (smGet s.parts tag).bind fun p => p.migr.head? with
  | some m => (s, some (.migrate tag m))
  | none =>
  match s.fetchRecord tag 64 mapStamp with
  | (s, none) => (s, none)
  | (s, some ws) =>
    match decodeRecord tag ws with
    | .ok i => (s, some i)
    | .error _ =>
      let space := (match ws with | w :: _ => fld w 55 50 | [] => 0)
      (s.postEvent tag 2 space (BitVec.ofNat 32 (mapStamp ws)) (ws.getD 4 0) 2, none)

end Sys2Proof.Machine
end

