-- ==== Sys2Proof/Machine/Copy.lean ====
section
/-!
DEFINITION. Sys2Proof/Machine/Copy.lean: the copy engine (R110 to R119, R124 to R130): posts, granules, ends, status,
cancellation, and the forwarding of route data.
-/

namespace Sys2Proof.Machine

/-! The copy descriptor (R111). -/

/-- Word `i` of a descriptor. -/
def dw (d : List W64) (i : Nat) : W64 := d.getD i 0
/-- LEN. -/
def dLen (d : List W64) : Nat := fld (dw d 0) 63 32
/-- BAR. -/
def dBar (d : List W64) : Nat := fld (dw d 0) 27 16
/-- MODE. -/
def dMode (d : List W64) : Nat := fld (dw d 0) 15 14
/-- BRE. -/
def dBre (d : List W64) : Bool := (dw d 0).getLsbD 13
/-- CFE. -/
def dCfe (d : List W64) : Bool := (dw d 0).getLsbD 12
/-- CFL. -/
def dCfl (d : List W64) : Nat := fld (dw d 0) 11 8
/-- DMEM. -/
def dMem (d : List W64) : Nat := fld (dw d 0) 7 4
/-- SSP. -/
def dSsp (d : List W64) : Nat := fld (dw d 0) 3 2
/-- DSP. -/
def dDsp (d : List W64) : Nat := fld (dw d 0) 1 0
/-- DADDR: a VA, or a stash offset in [31:0]. -/
def dDst (d : List W64) : Nat := if dDsp d = 0 then (dw d 1).toNat else fld (dw d 1) 31 0
/-- SADDR: a VA, or a stash offset in [31:0]. -/
def dSrc (d : List W64) : Nat := if dSsp d = 0 then (dw d 2).toNat else fld (dw d 2) 31 0
/-- ROUTE. -/
def dRoute (d : List W64) : Nat := fld (dw d 3) 55 48
/-- MASK. -/
def dMask (d : List W64) : Nat := fld (dw d 3) 47 32
/-- NUM. -/
def dNum (d : List W64) : Nat := fld (dw d 3) 31 0
/-- SSTRIDE. -/
def dSstride (d : List W64) : Int := sext 32 (fld (dw d 4) 63 32)
/-- DSTRIDE. -/
def dDstride (d : List W64) : Int := sext 32 (fld (dw d 4) 31 0)
/-- MSTRIDE. -/
def dMstride (d : List W64) : Nat := fld (dw d 5) 63 32
/-- IDX. -/
def dIdx (d : List W64) : Nat := fld (dw d 5) 31 0
/-- FILL. -/
def dFill (d : List W64) : W64 := dw d 6

/-- Fields that a kind does not use are zero, and so are the reserved ones (R111, R112). -/
def cpUnused (k : CpKind) (d : List W64) : Bool :=
  let num := decide (k ∈ [.cp2d, .gth, .sct, .sp, .fcp])
  let idx := decide (k ∈ [.gth, .sct, .sp])
  let ss := decide (k ∈ [.cp2d, .gth, .sp, .fcp])
  let ds := decide (k ∈ [.cp2d, .sct, .sp, .fcp])
  fld (dw d 0) 31 28 ≠ 0 || fld (dw d 3) 63 56 ≠ 0 || dw d 7 ≠ 0 ||
    (dDsp d ≠ 2 && dMem d ≠ 0) || (k = .fill && dw d 2 ≠ 0) || (k ≠ .rt && dRoute d ≠ 0) ||
    (k ≠ .mc && dMask d ≠ 0) || (!num && dNum d ≠ 0) || (!ss && fld (dw d 4) 63 32 ≠ 0) || (!ds && fld (dw d 4) 31 0 ≠ 0) ||
    (k ≠ .sp && dMstride d ≠ 0) || (!idx && dIdx d ≠ 0) || (k ≠ .fill && dFill d ≠ 0) ||
    (k ≠ .sp && k ≠ .rt && k ≠ .fcp && dMode d ≠ 0)

/-- SSP and DSP that a kind allows (R112, R290). -/
def cpSpaces (k : CpKind) (mode s d : Nat) : Bool :=
  match k with
  | .cp | .cp2d => decide (s ≤ 1) && decide (d ≤ 2) && !(decide (s = 0) && decide (d = 0))
  | .gth => decide (s ≤ 1) && decide (d = 1)
  | .sct => decide (s = 1) && decide (d ≤ 1)
  | .mc => decide (s = 0) && decide (d = 1)
  | .sp => decide (s ≤ 1) && decide (d = 1)
  | .rt => decide (s = 1) && decide (d = 1)
  | .fill => decide (s = 0) && decide (d ≤ 1)
  | .fcp => if mode = 0 then decide (s ≤ 1) && decide (d = 0) else decide (mode = 1) && decide (s = 0) && decide (d ≤ 1)

/-- Rows or elements of a job. -/
def cpRows (k : CpKind) (d : List W64) : Nat := if k ∈ [.cp2d, .gth, .sct, .sp, .fcp] then dNum d else 1

/-- Element size of `cp.sp`. -/
def spSize (d : List W64) : Nat := if dMode d = 0 then 1 else 2

/-- The rules of R112, in part with R113 and R130; `team` is the size of the crew's team, 0 without one. -/
def cpInvalid (k : CpKind) (d : List W64) (sync team : Nat) : Bool :=
  let n := dLen d
  let four := dDst d % 4 ≠ 0 || dSrc d % 4 ≠ 0 || dSstride d % 4 ≠ 0 || dDstride d % 4 ≠ 0 || dMstride d % 4 ≠ 0 || dIdx d % 4 ≠ 0
  cpUnused k d || !cpSpaces k (dMode d) (dSsp d) (dDsp d) || n < 4 || n % 4 ≠ 0 || four ||
    ((k = .cp2d || k = .fcp) && dNum d = 0) || ((k = .gth || k = .sct) && decide (n ∉ [4, 8, 16, 32, 64, 128])) ||
    (k = .sp && (2 ≤ dMode d || n % (4 * spSize d) ≠ 0)) || (k = .rt && dMode d = 3) ||
    (dBre d && decide (2 ^ 32 ≤ cpRows k d * n)) || (dBre d && sync ≤ dBar d) || (dCfe d && 12 ≤ dCfl d) ||
    (dDsp d = 2 && team ≤ dMem d) || (k = .mc && (dMask d = 0 || dMask d / 2 ^ team ≠ 0))

/-! Addresses. -/

/-- Source bytes in a row: two elements in four for `cp.sp` (R118). -/
def srcLen (k : CpKind) (d : List W64) : Nat := if k = .sp then dLen d / 2 else dLen d

/-- Source address of a row; `x` is the row's index value (R118). -/
def srcRow (k : CpKind) (d : List W64) (r x : Nat) : Int :=
  match k with
  | .gth => dSrc d + x * dSstride d
  | .sct => dSrc d + r * dLen d
  | .cp2d | .sp | .fcp => dSrc d + r * dSstride d
  | _ => dSrc d

/-- Destination address of a row (R118). -/
def dstRow (k : CpKind) (d : List W64) (r x : Nat) : Int :=
  match k with
  | .gth => dDst d + r * dLen d
  | .sct => dDst d + x * dDstride d
  | .cp2d | .sp | .fcp => dDst d + r * dDstride d
  | _ => dDst d

/-- The lowest and the highest address of rows that a linear rule gives, `n` bytes each; a range of no bytes without rows
(R116). -/
def bound (rows n : Nat) (f : Nat → Int) : Int × Int :=
  if rows = 0 then (f 0, f 0) else (min (f 0) (f (rows - 1)), max (f 0) (f (rows - 1)) + n)

/-- Bounding range of the source (R116). -/
def srcBound (k : CpKind) (d : List W64) : Int × Int := bound (cpRows k d) (srcLen k d) fun r => srcRow k d r 0
/-- Bounding range of the destination (R116). -/
def dstBound (k : CpKind) (d : List W64) : Int × Int := bound (cpRows k d) (dLen d) fun r => dstRow k d r 0
/-- Bounding range of the index list or the metadata (R116). -/
def idxBound (k : CpKind) (d : List W64) : Int × Int :=
  if k = .sp then bound (dNum d) ((dLen d / (4 * spSize d) + 1) / 2) fun r => dIdx d + r * dMstride d
  else (dIdx d, dIdx d + 4 * dNum d)

/-- The source address of a job depends on its index values (R116). -/
def srcByIndex (k : CpKind) : Bool := decide (k = .gth)
/-- The destination address of a job depends on its index values (R116). -/
def dstByIndex (k : CpKind) : Bool := decide (k = .sct)

/-- An `fcp` that pushes: its destination is at the peer; one that pulls has its source there (R290). -/
def isPush (k : CpKind) (d : List W64) : Bool := decide (k = .fcp) && decide (dMode d = 0)
/-- See `isPush`. -/
def isPull (k : CpKind) (d : List W64) : Bool := decide (k = .fcp) && decide (dMode d = 1)

/-! The checks of a post (R114). -/

/-- A stash range of a job against window and areas (R105). -/
def stashRange (c : Crew) (a : Int) (n : Nat) (wr : Bool) : Option Cause :=
  if a < 0 then some cStashBounds
  else
    let o := a.toNat
    let d := c.dOff
    let y := d + c.syncBytes
    firstErr
      [failIf (decide (c.stash < o + n) || overlaps o (o + n) y (y + 2048 * c.chan)) cStashBounds,
       failIf (wr && overlaps o (o + n) d y) cCopyInvalid]

/-- A global range of a job (R56, R421): partly inside the host window it is COPY_INVALID. -/
def globalRange (a : Int) (n : Nat) : Option Cause :=
  match addrFault a n 0 with
  | some c => some c
  | none =>
    if inHost (toW64 a) != inHost (toW64 (a + n - 1)) then some cCopyInvalid else none

/-- The first fault of the rows of one side. -/
def rowsFault (c : Crew) (stash wr : Bool) (rows n : Nat) (f : Nat → Int) : Option Cause :=
  (List.range rows).findSome? fun r => if stash then stashRange c (f r) n wr else globalRange (f r) n

/-- A logical position lies outside the shape, is a hole, or maps to a fenced site (R14, R129). -/
def State.badStation (s : State) (part : Nat) (e : W32) : Bool :=
  match smGet s.parts part with
  | none => true
  | some p =>
    let lx := bits e.toNat 11 0
    let ly := bits e.toNat 23 12
    if p.w ≤ lx || p.h ≤ ly then true
    else
      match smGet p.map (ly * p.w + lx) with
      | none => true
      | some m => !m.getLsbD 31 || s.fenced.contains (bits m.toNat 11 0)

/-- Logical id of a station (R12, R127). -/
def State.stationId (s : State) (part : Nat) (e : W32) : Nat :=
  match smGet s.parts part with
  | some p => bits e.toNat 23 12 * p.w + bits e.toNat 11 0
  | none => 0

/-- The stations of a route (R127). -/
def stationsOf (l : List W32) : List W32 := l.takeWhile fun e => e.getLsbD 31

/-- The route of a `cp.rt`: its check (R14, R130), and the stations after the first of the posting cluster. -/
def State.routeFor (s : State) (c : Crew) (n : Nat) : Except Cause (List W32) :=
  let all := (match smGet s.parts c.part with | some p => stationsOf (smGetD p.routes n []) | none => [])
  let rest := all.dropWhile fun e => s.stationId c.part e ≠ c.lcl
  if rest = [] then .error cCopyInvalid
  else if all.any fun e => s.badStation c.part e then .error cRouteOwner
  else .ok rest.tail

/-- The checks of a post after those of the descriptor's offset (R112, R114). Of the overlap rule the index-dependent kinds and
`cp.rt` are exempt: their bounding ranges are no ranges of the descriptor (DESIGN CHOICE, log 45). -/
def State.cpFault (s : State) (c : Crew) (k : CpKind) (d : List W64) : Option Cause :=
  let rows := cpRows k d
  let src := if k = .fill || srcByIndex k || isPull k d then none
    else rowsFault c (dSsp d = 1) false rows (srcLen k d) fun r => srcRow k d r 0
  let dst := if dstByIndex k || isPush k d then none
    else rowsFault c (dDsp d ≠ 0) true rows (dLen d) fun r => dstRow k d r 0
  let idx := if k ∈ [.gth, .sct] then stashRange c (dIdx d) (4 * dNum d) false
    else if k = .sp then
      rowsFault c true false rows ((dLen d / (4 * spSize d) + 1) / 2) fun r => (dIdx d + r * dMstride d : Int)
    else none
  let a := srcBound k d
  let b := dstBound k d
  let meet := dSsp d = 1 && dDsp d = 1 && k ≠ .rt && k ≠ .fcp && !srcByIndex k && !dstByIndex k && decide (a.1 < b.2) && decide (b.1 < a.2)
  firstErr
    [failIf (cpInvalid k d c.sync (c.tw * c.th) || meet) cCopyInvalid, src, dst, idx,
     (if k = .rt then (match s.routeFor c (dRoute d) with | .error e => some e | .ok _ => none) else none)]

/-! Acceptance (R115, R116). -/

/-- A chuck entry of a job: a window range as physical bytes, or a global range (R120). -/
def cpRng (c : Crew) (stash : Bool) (r : Int × Int) (dst : Bool) (slot ord : Nat) : Rng :=
  let lo := (toW64 r.1).toNat
  let base := if stash then c.base else 0
  { asid := if stash then none else some (asidOf c.part c.space), lo := base + lo, hi := base + lo + (r.2 - r.1).toNat,
    dst := dst, eng := 0, job := slot, ord := ord }

/-- The data area and the mapped area of a crew (R116). -/
def wholeAreas (c : Crew) : List (Int × Int) :=
  ((0 : Int), (c.dOff : Int)) :: (if c.m = 0 then [] else [((c.mOff : Int), (c.stash : Int))])

/-- The chuck entries of a job (R116). -/
def cpRanges (c : Crew) (k : CpKind) (d : List W64) (slot ord : Nat) : List Rng :=
  let e (stash : Bool) (r : Int × Int) (dst : Bool) : Rng := cpRng c stash r dst slot ord
  let src := match k with
    | .fill => []
    | .fcp => if isPull k d then [] else [e (dSsp d = 1) (srcBound k d) false]
    | .gth => if dSsp d = 1 then (wholeAreas c).map fun r => e true r false else []
    | _ => [e (dSsp d = 1) (srcBound k d) false]
  let idx := if k ∈ [.gth, .sct, .sp] then [e true (idxBound k d) false] else []
  let dst := match k with
    | .rt => []
    | .fcp => if isPush k d then [] else [e (dDsp d = 1) (dstBound k d) true]
    | .sct => if dDsp d = 1 then (wholeAreas c).map fun r => e true r true else []
    | .mc => if (dMask d).testBit c.member then [e true (dstBound k d) true] else []
    | _ => if dDsp d = 2 then [] else [e (dDsp d = 1) (dstBound k d) true]
  src ++ idx ++ dst

/-- Receiving crews of a job (R113, R128, R130). -/
def State.cpReceivers (s : State) (cid : Nat) (c : Crew) (k : CpKind) (d : List W64) (route : List W32) : List (Option Nat) :=
  match k with
  | .mc => ((List.range 16).filter fun m => (dMask d).testBit m).map fun m => s.teamCrew c m
  | .rt =>
    let at' (e : W32) : Option Nat :=
      match s.crewsAt c.part c.grid (s.stationId c.part e) with
      | [i] => some i
      | _ => none
    let all := (route.filter fun e => !e.getLsbD 30).map at'
    if dMode d = 1 then all else all.take 1
  | _ => if dDsp d = 2 then [s.teamCrew c (dMem d)] else [some cid]

/-- A job slot may be taken (R119, R125). -/
def JobSt.over : JobSt → Bool
  | .queued | .running => false
  | _ => true

/-- The free job slots of a copy engine. -/
def Cluster.freeSlots (c : Cluster) : List Nat :=
  (List.range 64).filter fun i => match smGet c.cp i with | some j => j.st.over | none => true

/-- A handle (R115). -/
def cpHandle (serial slot : Nat) : W64 := BitVec.ofNat 64 (serial % 2 ^ 25 * 128 + slot * 2 + 1)

/-- Offers a job to the engine (R115): a refusal changes nothing; `peer` is an `fcp`'s. -/
def State.cpOffer (s : State) (x : Slot) (lane : Nat) (k : CpKind) (peer : Nat) (d : List W64) : State × W64 :=
  match smGet s.crews x.cid, s.thread? x.cid x.co lane with
  | some c, some th =>
    let cl := s.cluster x.p
    let ord := s.nextId
    let free := cl.freeSlots
    let slot := free.getD (Config.slotFor s.tick % free.length) 0
    let rs := cpRanges c k d slot ord
    if cl.chuckRoom < rs.length then (s, 2)
    else if free = [] then (s, 4)
    else if dCfe d && !flagRoom th (dCfl d) then (s, 6)
    else
      let route := (match k, s.routeFor c (dRoute d) with | .rt, .ok r => r | _, _ => [])
      let job : CpJob :=
        { serial := cl.cpSerial % 2 ^ 25, kind := k, cid := x.cid, co := x.co, lane := lane, desc := d, st := .queued, cause := 0,
          ord := ord, asid := asidOf c.part c.space, recv := (s.cpReceivers x.cid c k d route).map fun i => (i, 0),
          landed := [], route := route, hops := [], read := [], out := [], peer := peer, cancelPend := [] }
      let s := (s.fresh.reuseSlot x.p slot false).modCluster x.p fun cl =>
        { cl with cp := smSet cl.cp slot job, cpSerial := cl.cpSerial + 1, chuck := cl.chuck ++ rs }
      let s := if dCfe d then s.modThread x.cid x.co lane (raiseFlag (dCfl d)) else s
      (s, cpHandle cl.cpSerial slot)
  | _, _ => (s, 0)

/-- A posting instruction (R114): each executing thread posts in lane order. -/
def cpPost (o : Op) (k : CpKind) (f : Fields) (s : State) : Host.Outcome State Fault Refusal :=
  runSlot o f s fun x s =>
    seqSlot x (fun i s =>
      let a := x.a[i]
      let off := a.lo.toNat
      let d := eightWords (memRead s.mem (x.crew.stashAt off) 64)
      let e := firstErr
        [failIf a.p cPoisonUse, failIf (decide (off % 64 ≠ 0)) cMisaligned,
         failIf (decide (x.crew.dOff < off + 64)) cStashBounds, s.cpFault x.crew k d]
      match e with
      | some c => .error c
      | none => .ok (s.cpOffer x i.val k 0 d)) s

/-- `cp` (R114, R118). -/
def execCp (f : Fields) (s : State) : Host.Outcome State Fault Refusal := cpPost .cp .cp f s
/-- `cp.2d` (R114, R118). -/
def execCp2d (f : Fields) (s : State) : Host.Outcome State Fault Refusal := cpPost .cp2d .cp2d f s
/-- `cp.gth` (R114, R118). -/
def execCpGth (f : Fields) (s : State) : Host.Outcome State Fault Refusal := cpPost .cpGth .gth f s
/-- `cp.sct` (R114, R118). -/
def execCpSct (f : Fields) (s : State) : Host.Outcome State Fault Refusal := cpPost .cpSct .sct f s
/-- `cp.mc` (R114, R118). -/
def execCpMc (f : Fields) (s : State) : Host.Outcome State Fault Refusal := cpPost .cpMc .mc f s
/-- `cp.sp` (R114, R118). -/
def execCpSp (f : Fields) (s : State) : Host.Outcome State Fault Refusal := cpPost .cpSp .sp f s
/-- `cp.rt` (R114, R130). -/
def execCpRt (f : Fields) (s : State) : Host.Outcome State Fault Refusal := cpPost .cpRt .rt f s
/-- `cp.fill` (R114, R118). -/
def execCpFill (f : Fields) (s : State) : Host.Outcome State Fault Refusal := cpPost .cpFill .fill f s

/-! Granules (R117, R118). -/

/-- A piece of a job: bytes of one row that fall into one 32-byte granule of the destination of one receiver. -/
structure Piece where
  recv : Nat
  row : Nat
  off : Nat
  n : Nat
  dst : Int
  deriving DecidableEq, Repr, Inhabited

/-- A row cut at the granules of its destination; `fuel` bounds the pieces. -/
def cutRow (row : Nat) (dst : Int) : Nat → Nat → Nat → List Piece
  | 0, _, _ => []
  | fuel + 1, off, n =>
    if n = 0 then []
    else
      let m := min n (32 - ((dst + off) % 32).toNat)
      { recv := 0, row := row, off := off, n := m, dst := dst + off } :: cutRow row dst fuel (off + m) (n - m)

/-- The index value of an element (R118). -/
def State.cpIndex (s : State) (c : Crew) (d : List W64) (j : Nat) : Nat :=
  natOfBytes (memRead s.mem (c.stashAt (dIdx d + 4 * j)) 4)

/-- The pieces of a job for one receiver. -/
def State.cpPieces (s : State) (c : Crew) (j : CpJob) : List Piece :=
  let d := j.desc
  (List.range (cpRows j.kind d)).flatMap fun r =>
    let x := if dstByIndex j.kind then s.cpIndex c d r else 0
    cutRow r (dstRow j.kind d r x) (dLen d / 32 + 2) 0 (dLen d)

/-- Piece `g` of a job: the pieces of the first receiver, then those of the next (R117). -/
def State.cpPiece (s : State) (c : Crew) (j : CpJob) (g : Nat) : Option Piece :=
  let l := s.cpPieces c j
  if l = [] || j.recv.length ≤ g / l.length then none
  else (l[g % l.length]?).map fun y => { y with recv := g / l.length }

/-- Number of pieces of a job. -/
def State.cpCount (s : State) (c : Crew) (j : CpJob) : Nat := (s.cpPieces c j).length * j.recv.length

/-- A write to the same granule that comes earlier has not landed (R117). -/
def State.cpBehind (s : State) (c : Crew) (j : CpJob) (g : Nat) (y : Piece) : Bool :=
  let l := s.cpPieces c j
  (List.range (g % l.length)).any fun i =>
    match l[i]? with
    | some z => decide (z.dst / 32 = y.dst / 32) && !j.landed.contains (y.recv * l.length + i)
    | none => false

/-- The mapped lines of a stash range made Valid for an engine; `fuel` lines. -/
def State.touchRange (s : State) (p off n : Nat) : Acc State :=
  forN (n / 128 + 2) (.done s) fun i a =>
    match a with
    | .done s =>
      if 128 * (off / 128 + i) < off + n then s.touchMline p (off / 128 + i) else .done s
    | x => x

/-- Source bytes from an address of the source space (R118): own stash, global, or host memory already read. -/
def State.cpSource (s : State) (c : Crew) (j : CpJob) (a : Int) (n : Nat) (computed : Bool) : Acc (State × List PByte) :=
  if dSsp j.desc = 1 then
    if computed && !c.plainRange a n then .fault cStashBounds
    else if s.ownWrites c.p j.cid j.co j.lane none (c.base + a.toNat) n then .wait
    else s.stashReadP c.p (c.base + a.toNat) n
  else
    match addrFault a n 0 with
    | some e => .fault e
    | none =>
      let va := (toW64 a).toNat
      if inHost (BitVec.ofNat 64 dSrcHost) != inHost (toW64 a) then .fault cPagePerm
      else if s.ownWrites c.p j.cid j.co j.lane (some j.asid) va n then .wait
      else s.engineRead c.p j.asid va n
where
  dSrcHost : Nat := dSrc j.desc

/-- A metadata nibble of `cp.sp` (R118): group `g` of a row. -/
def State.spNibble (s : State) (c : Crew) (d : List W64) (row g : Nat) : Nat :=
  let b := (memGet s.mem (c.stashAt (dIdx d + row * dMstride d + g / 2))).toNat
  if g % 2 = 0 then b % 16 else b / 16

/-- Source of a destination byte of `cp.sp` (R118): an error for a bad nibble, none for zero, or the offset in the source
row. -/
def State.spByte (s : State) (c : Crew) (d : List W64) (row i : Nat) : Except Cause (Option Nat) :=
  let e := spSize d
  let el := i / e
  let nib := s.spNibble c d row (el / 4)
  let a := nib % 4
  let b := nib / 4
  if b ≤ a then .error cCopyInvalid
  else if el % 4 = a then .ok (some ((2 * (el / 4)) * e + i % e))
  else if el % 4 = b then .ok (some ((2 * (el / 4) + 1) * e + i % e))
  else .ok none

/-- Source bytes of the groups that a `cp.sp` piece meets: first offset in the row and length (R118). -/
def spSpan (d : List W64) (off n : Nat) : Nat × Nat :=
  let e := spSize d
  let g := off / (4 * e)
  (2 * e * g, 2 * e * ((off + n - 1) / (4 * e) + 1 - g))

/-- Bytes of a `cp.sp` piece, each read at its source, or taken from host bytes already read (R118). -/
def State.spBytes (s : State) (c : Crew) (j : CpJob) (held : Option (List PByte)) (row off : Nat) : Nat → Acc (State × List PByte)
  | 0 => .done (s, [])
  | n + 1 =>
    match State.spBytes s c j held row off n with
    | .fault e => .fault e
    | .wait => .wait
    | .done (s, l) =>
      match s.spByte c j.desc row (off + n) with
      | .error e => .fault e
      | .ok none => .done (s, l ++ [(0, false)])
      | .ok (some o) =>
        match held with
        | some h => .done (s, l ++ [h.getD (o - (spSpan j.desc off 1).1) (0, false)])
        | none =>
        match s.cpSource c j (srcRow .sp j.desc row 0 + o) 1 false with
        | .fault e => .fault e
        | .wait => .wait
        | .done (s, d) => .done (s, l ++ d)

/-- The bytes that a piece lands (R118). -/
def State.cpData (s : State) (c : Crew) (j : CpJob) (g : Nat) (y : Piece) : Acc (State × List PByte) :=
  let held := smGet j.read (g % max 1 (s.cpPieces c j).length)
  match j.kind, held with
  | .sp, _ => s.spBytes c j held y.row y.off y.n
  | _, some d => .done (s, d)
  | _, none =>
    match j.kind with
    | .fill => .done (s, (List.range y.n).map fun i =>
        ((dFill j.desc).extractLsb' (8 * ((dDst j.desc + y.off + i) % 8)) 8, false))
    | k =>
      let x := if srcByIndex k then s.cpIndex c j.desc y.row else 0
      s.cpSource c j (srcRow k j.desc y.row x + y.off) y.n (srcByIndex k)

/-- FP32 elements added with RNE (R130). -/
def nextAdd (old new : List PByte) : List PByte :=
  (List.range (old.length / 4)).flatMap fun i =>
    let a := (old.drop (4 * i)).take 4
    let b := (new.drop (4 * i)).take 4
    let x := fAddBits ffF32 (natOfBytes (a.map Prod.fst)) (natOfBytes (b.map Prod.fst))
    let p := (a ++ b).any Prod.snd
    (bytesOfNat 4 x).map fun z => (z, p)

/-- Puts the bytes of a piece at their destination (R112, R118, R130). -/
def State.cpPut (s : State) (p : Nat) (j : CpJob) (y : Piece) (d : List PByte) : Acc State :=
  if dDsp j.desc = 0 then
    match addrFault y.dst y.n 0 with
    | some e => .fault e
    | none =>
      if inHost (BitVec.ofNat 64 (dDst j.desc)) != inHost (toW64 y.dst) then .fault cPagePerm
      else if s.ownWrites p j.cid j.co j.lane (some j.asid) (toW64 y.dst).toNat y.n then .wait
      else if inHost (toW64 y.dst) then
        if s.hostRuns (asidTag j.asid) then
          .done { s with hostOut := s.hostOut ++ [(asidTag j.asid, hostAddr (toW64 y.dst), d.map Prod.fst)] }
        else .fault cPagePerm
      else s.engineGlobal p j.asid (toW64 y.dst) d
  else
    match s.receiver ((j.recv.getD y.recv (none, 0)).1) with
    | .fault e => .fault e
    | .wait => .wait
    | .done c =>
      if (dstByIndex j.kind || decide (j.kind = .rt)) && !c.plainRange y.dst y.n then .fault cStashBounds
      else
        let off := c.base + y.dst.toNat
        if c.p = p && s.ownWrites p j.cid j.co j.lane none off y.n then .wait
        else if j.kind = .rt && decide (dMode j.desc = 2) then
          match s.stashReadP c.p off y.n with
          | .done (s, old) => s.stashWriteP c.p off (nextAdd old d)
          | .wait => .wait
          | .fault e => .fault e
        else s.stashWriteP c.p off d

/-- Pass stations before the delivering station of a receiver (R127). -/
def passBefore (j : CpJob) (recv : Nat) : Nat :=
  let rec go : List W32 → Nat → Nat → Nat
    | [], _, n => n
    | e :: r, k, n => if e.getLsbD 30 then go r k (n + 1) else if k = 0 then n else go r (k - 1) n
  go j.route recv 0

/-- The end of a job (R119): entries released, bytes added to barriers, the flag lowered, the slot free. -/
def State.cpOver (s : State) (p slot : Nat) (j : CpJob) (st : JobSt) (cause : Cause) : State :=
  let s := { s with hostReqs := smFilter (fun _ h => match h.job with | some x => x.1 ≠ p || x.2.1 ≠ slot | none => true) s.hostReqs }
  let s := s.modCluster p fun c =>
    { c.releaseChuck 0 slot with cp := smSet c.cp slot { j with st := st, cause := cause, cancelPend := [] } }
  let s := if dBre j.desc then
      forL j.recv s fun r s => match r.1 with | some i => s.barAdd i (dBar j.desc) r.2 | none => s
    else s
  let s := if dCfe j.desc then s.lowerJobFlag j.cid j.co j.lane (dCfl j.desc) else s
  s.finishCancel j.cancelPend (j.recv.foldl (fun n r => n + r.2) 0)

/-- The range of a receiver's window that a job may write. -/
def cpWindow (c : Crew) (j : CpJob) : Nat × Nat :=
  let b := if dstByIndex j.kind then ((c.mOff : Int), (c.stash : Int)) else dstBound j.kind j.desc
  (c.base + b.1.toNat, (b.2 - b.1).toNat)

/-- A job counts bytes into a barrier object of its receivers that it wrote into their windows. -/
def toWindow (j : CpJob) : Bool := dBre j.desc && decide (dDsp j.desc ≠ 0) && !isPush j.kind j.desc

/-- What a job leaves in the windows of its receivers is published with it, or by a later one (R264). -/
def State.cpLeaves (s : State) (j : CpJob) (st : JobSt) : State :=
  if !dBre j.desc then s
  else
    forL j.recv s fun r s =>
      match r.1, r.1.bind fun i => smGet s.crews i with
      | some i, some c =>
        if st = .done then s.dropEnded i (dBar j.desc)
        else if toWindow j && decide (r.2 ≠ 0) then s.noteEnded i (dBar j.desc) (cpWindow c j).1 (cpWindow c j).2
        else s
      | _, _ => s

/-- The end of a job, with the fatal fault of one that failed (R119). -/
def State.cpEnd (s : State) (p slot : Nat) (j : CpJob) (st : JobSt) (cause : Cause) : State :=
  let s := (s.cpOver p slot j st cause).cpLeaves j st
  if st = .failed then s.fatal j.cid cause 0 (cpHandle j.serial slot).toNat else s

/-- A piece counts as landed, with its bytes (R113, R117, R291). -/
def State.cpLanded (s : State) (p slot g : Nat) (recv n : Nat) : State :=
  s.modCluster p fun cl => { cl with cp := smMod cl.cp slot fun j =>
    { j with landed := nsAdd g j.landed, recv := lmod j.recv recv fun r => (r.1, r.2 + n) } }

/-- The record of the page that the source of a piece lacks (R76, R80, R106). -/
def State.noteSource (s : State) (c : Crew) (j : CpJob) (y : Piece) : State :=
  let x := if srcByIndex j.kind then s.cpIndex c j.desc y.row else 0
  let a := if j.kind = .sp then srcRow .sp j.desc y.row 0 + y.off / 2 else srcRow j.kind j.desc y.row x + y.off
  let n := if j.kind = .sp then y.n / 2 + 1 else y.n
  if dSsp j.desc = 1 then s.noteStash c.p (c.base + a.toNat) n else s.noteRead j.asid (toW64 a).toNat n

/-- The record of the page that a mapped line at the destination of a piece lacks (R76, R80, R106). -/
def State.noteDest (s : State) (j : CpJob) (y : Piece) : State :=
  match s.receiver ((j.recv.getD y.recv (none, 0)).1) with
  | .done c => s.noteStash c.p (c.base + y.dst.toNat) y.n
  | _ => s

/-- A granule of a job lands, or the job fails (R80, R118, R128). -/
def State.cpLand (s : State) (p slot g : Nat) (c : Crew) (j : CpJob) (y : Piece) : State :=
  match s.cpData c j g y with
  | .wait => s
  | .fault e =>
    if e = cPageNotPresent then s.noteSource c j y else s.cpEnd p slot j .failed e
  | .done (s1, d) =>
    let s1 := if j.kind = .mc then
        s1.modCluster p fun cl => { cl with cp := smMod cl.cp slot fun j =>
          { j with read := smSet j.read (g % max 1 (s.cpPieces c j).length) d } }
      else s1
    match s1.cpPut p j y d with
    | .wait => if dDsp j.desc = 0 then s1.engineStall j.asid (toW64 y.dst) d else s1
    | .fault e => if e = cPageNotPresent then s1.noteDest j y else s1.cpEnd p slot j .failed e
    | .done s =>
      s.cpLanded p slot g (if dDsp j.desc = 0 then 0 else y.recv) y.n

/-- Number of 32-byte granules that `n` bytes at an address touch. -/
def granules (a n : Nat) : Nat := (a + n + 31) / 32 - a / 32

/-- The granule-wide payload of a piece: mask and bytes with their poison (R274). -/
def piecePayload (a : Nat) (d : List PByte) : List Bool × List PByte :=
  let off := a % 32
  let w := 32 * granules a d.length
  ((List.range w).map fun i => decide (off ≤ i) && decide (i < off + d.length),
   (List.range w).map fun i => if off ≤ i then d.getD (i - off) (0, false) else (0, false))

/-- A packet of an `fcp` leaves for the peer (R290): a piece of a push, or the request for a piece of a pull. -/
def State.fcpSend (s : State) (p slot g part : Nat) (j : CpJob) (l : Load) : State :=
  (s.sendFab part p j.peer (.copy p slot j.serial g) l 0 false).modCluster p fun cl =>
    { cl with cp := smMod cl.cp slot fun j => { j with out := nsAdd g j.out } }

/-- A piece of an `fcp` (R290, R291): a push sends it; a pull asks for it, and lands it once its bytes have come. -/
def State.fcpLand (s : State) (p slot g : Nat) (c : Crew) (j : CpJob) (y : Piece) : State :=
  if j.out.contains g || !j.cancelPend.isEmpty || c.leaving.isSome then s
  else if isPush j.kind j.desc then
    match s.cpData c j g y with
    | .wait => s
    | .fault e =>
      if e = cPageNotPresent then s.noteSource c j y else s.cpEnd p slot j .failed e
    | .done (s, d) =>
      let a := (toW64 y.dst).toNat
      let l := piecePayload a d
      s.fcpSend p slot g c.part j
        { cls := 1, opc := if l.1.all id then 0 else 1, va := BitVec.ofNat 64 (a / 32 * 32), ngr := granules a y.n, mask := l.1,
          data := l.2 }
  else if (smGet j.read g).isSome then s.cpLand p slot g c j y
  else
    let a := toW64 (srcRow j.kind j.desc y.row 0 + y.off)
    s.fcpSend p slot g c.part j { cls := 0, opc := 1, va := a, ngr := granules a.toNat y.n, mask := [], data := [] }

/-- A granule of a running job is written at its destination, or its page waited for (R80, R117, R118). -/
def State.landGranule (s : State) (p slot g : Nat) : State :=
    match smGet (s.cluster p).cp slot with
    | none => s
    | some j =>
      match smGet s.crews j.cid with
      | none => s
      | some c =>
        if j.st ≠ .running || j.landed.contains g then s
        else
          let idx := idxBound j.kind j.desc
          let ready := if j.kind ∈ [.gth, .sct, .sp] then s.touchRange p (c.base + idx.1.toNat) (idx.2 - idx.1).toNat else .done s
          match ready with
          | .wait => s
          | .fault e =>
            if e = cPageNotPresent then s.noteStash p (c.base + idx.1.toNat) (idx.2 - idx.1).toNat else s.cpEnd p slot j .failed e
          | .done s =>
            match s.cpPiece c j g with
            | none => s
            | some y =>
              if s.cpBehind c j g y ||
                  (j.kind = .rt && decide (smGetD j.hops (g % max 1 (s.cpPieces c j).length) 0 < passBefore j y.recv)) then s
              else
                let q := g % max 1 (s.cpPieces c j).length
                let host := dSsp j.desc = 0 && j.kind ≠ .fill && !isPull j.kind j.desc && inHost (BitVec.ofNat 64 (dSrc j.desc)) && (smGet j.read q).isNone
                if host then
                  let x := if srcByIndex j.kind then s.cpIndex c j.desc y.row else 0
                  let span := if j.kind = .sp then spSpan j.desc y.off y.n else (y.off, y.n)
                  let a := srcRow j.kind j.desc y.row x + span.1
                  if !s.hostRuns c.part || !inHost (toW64 a) then s.cpEnd p slot j .failed cPagePerm
                  else if s.hostReqs.any fun h => decide (h.2.job = some (p, slot, q)) then s
                  else
                    let r : HostReq :=
                      { req := none, job := some (p, slot, q), part := c.part, port := s.vfPort c.part, addr := hostAddr (toW64 a), wr := false,
                        n := span.2, flushed := false }
                    { s.fresh with hostReqs := smSet s.hostReqs s.nextId r }
                else if j.kind = .fcp then s.fcpLand p slot g c j y
                else s.cpLand p slot g c j y

/-- COPY_GRANULE_LAND (R117, R118): a granule of a running job is written at its destination. Bytes from host memory are
asked for first (R421). -/
def execCopyGranuleLand (p slot g : Nat) (s : State) : Host.Outcome State Fault Refusal :=
  .next (s.landGranule p slot g)

/-- COPY_JOB_START (R117): a queued job starts when the earlier ones that conflict with it have ended; eight run at once. -/
def execCopyJobStart (p slot : Nat) (s : State) : Host.Outcome State Fault Refusal :=
  .next (
    let c := s.cluster p
    match smGet c.cp slot with
    | none => s
    | some j =>
      let running := (c.cp.filter fun x => x.2.st = .running).length
      if j.st = .queued && decide (running < 8) && c.mayStart 0 slot j.ord then
        s.modCluster p fun c => { c with cp := smMod c.cp slot fun j => { j with st := .running } }
      else s)

/-- What a job, and those that ended early before it, wrote into mapped lines is written back before its bytes are published
(R264). -/
def State.cpPublished (s : State) (j : CpJob) : Bool :=
  !dBre j.desc ||
    j.recv.all fun r =>
      match r.1.bind fun i => smGet s.crews i with
      | some c => !(toWindow j && (s.cluster c.p).dirtyIn (cpWindow c j).1 (cpWindow c j).2) && s.endedClean c (dBar j.desc)
      | none => true

/-- COPY_JOB_END (R119): a job whose every byte has landed ends DONE. -/
def execCopyJobEnd (p slot : Nat) (s : State) : Host.Outcome State Fault Refusal :=
  .next (
    match smGet (s.cluster p).cp slot with
    | none => s
    | some j =>
      match smGet s.crews j.cid with
      | none => s
      | some c =>
        if j.st = .running && j.out.isEmpty && decide (s.cpCount c j ≤ j.landed.length) && s.cpPublished j then
          s.cpEnd p slot j .done 0
        else s)

/-- ROUTE_STATION_FORWARD (R127, R130): the copy engine of a pass station forwards a granule of a route's data. `station`
counts the stations after the posting one. -/
def execRouteStationForward (p slot station g : Nat) (s : State) : Host.Outcome State Fault Refusal :=
  .next (
    match smGet (s.cluster p).cp slot with
    | none => s
    | some j =>
      let before := ((j.route.take station).filter fun e => e.getLsbD 30).length
      let pass := (match j.route[station]? with | some e => e.getLsbD 30 | none => false)
      if j.st = .running && j.kind = .rt && pass && decide (smGetD j.hops g 0 = before) then
        s.modCluster p fun c => { c with cp := smMod c.cp slot fun j => { j with hops := smSet j.hops g (before + 1) } }
      else s)

/-! Status and cancellation (R124 to R126). -/

/-- The job that a handle names (R124). -/
def State.cpNamed (s : State) (x : Slot) (h : W64) : Option (Nat × CpJob) :=
  let slot := fld h 6 1
  match smGet (s.cluster x.p).cp slot with
  | some j => if h.getLsbD 0 && decide (j.serial = fld h 31 7) && decide (j.cid = x.cid) then some (slot, j) else none
  | none => none

/-- STATE of a job (R125). -/
def JobSt.code : JobSt → Nat
  | .gone => 0
  | .queued => 1
  | .running => 2
  | .done => 3
  | .failed => 4
  | .cancelled | .saved => 5

/-- Bytes landed, over every receiver (R125). -/
def CpJob.bytes (j : CpJob) : Nat := j.recv.foldl (fun n r => n + r.2) 0

/-- What `cp.stat` gives for a handle (R125): a job that a save ended keeps its status in the crew (R404). -/
def State.cpStatus (s : State) (x : Slot) (bytes : Bool) (h : W64) : W64 :=
  match s.cpNamed x h with
  | some (_, j) =>
    if bytes then BitVec.ofNat 64 (j.bytes % 2 ^ 32)
    else BitVec.ofNat 64 (j.st.code + (if j.st = .failed then j.cause.toNat * 16 else 0))
  | none =>
    match x.crew.cutOf false h with
    | some t => if bytes then BitVec.ofNat 64 (t.bytes % 2 ^ 32) else 5
    | none => if bytes then 0xFFFFFFFF else 0

/-- `cp.stat` (R125). -/
def execCpStat (f : Fields) (s : State) : Host.Outcome State Fault Refusal :=
  runSlot .cpStat f s fun x s =>
    seqSlot x (fun i s =>
      if (x.a[i]).p then .error cPoisonUse else .ok (s, s.cpStatus x (decide (f.mod ≠ 0)) (x.a[i]).v)) s

/-- A cancel of the job that a handle names (R126, R291): a running job with granules under way ends when they have landed; a
job that a save ended keeps its bytes in the crew. -/
def State.cpCancelOne (s : State) (x : Slot) (w : Nat × Nat) (h : W64) : State × Option Nat :=
  match s.cpNamed x h with
  | none => (s, some (match x.crew.cutOf false h with | some t => t.bytes | none => 0xFFFFFFFF))
  | some (slot, j) =>
    if j.st.over then (s, some j.bytes)
    else if j.out = [] then (s.cpEnd x.p slot j .cancelled 0, some j.bytes)
    else
      (s.modCluster x.p fun c => { c with cp := smMod c.cp slot fun j => { j with cancelPend := j.cancelPend ++ [w] } }, none)

/-- `cp.cancel` (R126, R291): the job stops at a granule boundary and the result follows its end. -/
def execCpCancel (f : Fields) (s : State) : Host.Outcome State Fault Refusal :=
  runSlot .cpCancel f s fun x s => cancelSlot x (fun w i s => s.cpCancelOne x w (x.a[i]).v) s

end Sys2Proof.Machine
end

