-- ==== Sys2Proof/Machine/Peer.lean ====
section
/-!
DEFINITION. Sys2Proof/Machine/Peer.lean: what a peer performs (R279, R289), what a reply does at its source (R286, R291, R294,
R295, R297), the failover of a mirrored peer (R298), and the ports by which a packet leaves (R271, R276).
-/

namespace Sys2Proof.Machine

/-! What a peer performs. -/

/-- What an incoming request comes to: performed or ended, waiting for a page's MAP or for bounce space, or to be tried
again. -/
inductive Served where
  | done (s : State) (a : FabAck)
  | absent (s : State)
  | wait

/-- A request performed, with the bytes it gives back. -/
def ackOk (d : List PByte) : FabAck := { ended := false, cause := 0, data := d.map Prod.fst, pz := d.map Prod.snd }

/-- A request ended with a cause (R279). -/
def ackEnd (c : Cause) : FabAck := { ended := true, cause := c, data := [], pz := [] }

/-- Masked bytes as runs within granules: offset and length (R5, R279). -/
def maskRuns (m : List Bool) : List (Nat × Nat) :=
  (m.zipIdx.foldl (fun (l : List (Nat × Nat)) x =>
    if !x.1 then l
    else
      match l with
      | (o, n) :: r => if o + n = x.2 && x.2 % 32 ≠ 0 then (o, n + 1) :: r else (x.2, 1) :: l
      | [] => [(x.2, 1)]) []).reverse

/-- The runs of a write at the destination; on an absent page the data lands in the bounce buffer (R78, R279). -/
def State.peerWrite (s : State) (asid : BitVec 16) (va : Nat) (d : List PByte) : List (Nat × Nat) → Served
  | [] => .done s (ackOk [])
  | (o, n) :: r =>
    let a := canon (va + o)
    let b := (d.drop o).take n
    match s.homeLand asid a b with
    | .done s => State.peerWrite s asid va d r
    | .wait => .wait
    | .fault c =>
      if c = cPageNotPresent then
        match (s.notePage asid a 1).bounceIn asid a b with
        | (s, true) => State.peerWrite s asid va d r
        | (s, false) => .absent s
      else .done s (ackEnd c)

/-- MI of the leaf of an address (R66). -/
def State.leafMirrors (s : State) (asid : BitVec 16) (va : W64) : Bool :=
  match s.walkLeaf asid (vpnOf va) with
  | .ok t => t.mi
  | .error c => decide (c = cPageNotPresent)

/-- The operation of an atomic packet (R275, R289): the operand in payload bytes 0 to 7, the new value of a swap, or PRO, from
byte 8 on. -/
def pktOp (k : FabPkt) : ReqOp :=
  let o := k.opc.toNat
  let t : Ty := Ty.ofCode (BitVec.ofNat 4 (o / 16))
  let x := wordOfBytes (k.data.take 8)
  let y := wordOfBytes ((k.data.drop 8).take 8)
  if o % 16 = 8 then .cas (Ty.wide t) x y else .atomic (o % 16) (y.getLsbD 0) t x

/-- An atomic performed at its home slice (R246, R289): the old bytes with their poison. -/
def State.peerAtomic (s : State) (asid : BitVec 16) (va : W64) (op : ReqOp) : Acc (State × List PByte) :=
  match s.ensureLine asid va 1 with
  | .fault c => .fault c
  | .wait => .wait
  | .done (s, q, key) =>
    let l := (s.slice q).way key
    let off := va.toNat % 128
    let old := l.bytes off op.bytes
    let bad := l.poisoned off op.bytes
    let s := match atomicNew op (wordOfBytes old) bad with
      | none => s
      | some (d, p) =>
        let l' := l.write off d p
        s.modSlice q fun sl => sl.setWay key (if p then l' else { l' with pz := setPz l'.pz (off / 8) false })
    .done (s, old.map fun b => (b, bad))

/-- Records the absent pages that a read meets (R76). -/
def State.noteParts (s : State) (asid : BitVec 16) (kind : Nat) (l : List (Nat × Nat)) : State :=
  forL l s fun x s =>
    match s.homeReadP asid (BitVec.ofNat 64 x.1) x.2 with
    | .fault c => if c = cPageNotPresent then s.notePage asid (BitVec.ofNat 64 x.1) kind else s
    | _ => s

/-- A peer's write that finds no bounce space waits, and the episode is posted once (R79, R279). -/
def State.bounceStall (s : State) (asid : BitVec 16) (va : W64) : State :=
  (s.notePage asid va 1).bounceEpisode (asidTag asid)

/-- An admitted request performed as an access of partition DTAG in space DSPACE (R279). The host window is no peer's to use:
its pages are never walked (R421). -/
def State.serve (s : State) (k : FabPkt) : Served :=
  let asid := asidOf k.dtag.toNat k.dspace.toNat
  let va := canon k.va.toNat
  if inHost va then .done s (ackEnd cPagePerm)
  else
    match k.cls.toNat with
    | 0 =>
      let a := va.toNat / 32 * 32
      match s.globalParts none asid (lineParts 4 a (32 * k.ngr.toNat)) with
      | .done (s, d) => .done s (ackOk d)
      | .wait => .wait
      | .fault c => if c = cPageNotPresent then .absent (s.noteParts asid 0 (lineParts 4 a (32 * k.ngr.toNat))) else .done s (ackEnd c)
    | 1 =>
      if (k.mir || k.opc = 2) && !s.leafMirrors asid va then .done s (ackEnd cPagePerm)
      else
        match s.peerWrite asid (va.toNat / 32 * 32) (k.data.zip k.pz) (maskRuns (if k.mask = [] then k.data.map fun _ => true else k.mask)) with
        | .done s a => .done s a
        | .absent _ => .absent (s.bounceStall asid va)
        | .wait => .wait
    | _ =>
      match s.peerAtomic asid va (pktOp k) with
      | .done (s, d) => .done s (ackOk d)
      | .wait => .wait
      | .fault c => if c = cPageNotPresent then .absent (s.notePage asid va 2) else .done s (ackEnd c)

/-! The end of a request at its source. -/

/-- The entry that a request's packet went to (R297, R298). -/
def State.fabTarget (s : State) (r : FabReq) : Nat :=
  match r.use with
  | .mirror _ => r.peer
  | _ => if r.fo then peerSec (s.peer r.part r.peer) else r.peer

/-- A fabric cause, which names its peer (R383). -/
def isFabCause (c : Cause) : Bool := decide (c = cFabricTimeout) || decide (c = cFabricPeerReset)

/-- The trap of a request that ended (R279, R294, R380): a fabric cause names module and peer, another is a late fault. -/
def State.fabTrap (s : State) (r : FabReq) (cause : Cause) (va : W64) : TrapRec :=
  let pid := s.fabTarget r
  let t := lateTrap cause va r.trpc r.ord r.inRgn
  if isFabCause cause then { t with rank := 2, peer := some (4096 * peerMod (s.peer r.part pid) + pid) } else t

/-- Each cohort that wrote into a line takes the cause of its loss, in its live thread of lowest linear number (R295). -/
def State.trapWriters (s : State) (l : List (Nat × Nat)) (t : TrapRec) : State :=
  forL l s fun x s =>
    match (s.cohort? x.1 x.2).bind fun h => (lanesOf h.live).head? with
    | some i => s.dueTrap x.1 x.2 i.val t
    | none => s

/-- The remote address of a piece of an `fcp` (R290). -/
def fcpRemote (j : CpJob) (y : Piece) : W64 :=
  if isPush j.kind j.desc then toW64 y.dst else toW64 (srcRow j.kind j.desc y.row 0 + y.off)

/-- The first remote address of an `fcp` that was not acknowledged (R291). -/
def State.fcpFirst (s : State) (c : Crew) (j : CpJob) : W64 :=
  match (s.cpPieces c j).zipIdx.find? fun y => !j.landed.contains y.2 && (smGet j.read y.2).isNone with
  | some y => fcpRemote j y.1
  | none => 0

/-- A job of an `fcp` fails (R291): it ends FAILED without being fatal, and its thread takes the cause. -/
def State.fcpFail (s : State) (r : FabReq) (p slot serial : Nat) (cause : Cause) : State :=
  match smGet (s.cluster p).cp slot with
  | none => s
  | some j =>
    match smGet s.crews j.cid with
    | none => s
    | some c =>
      if j.st ≠ .running || j.serial ≠ serial || j.kind ≠ .fcp then s
      else
        let va := if isFabCause cause then s.fcpFirst c j else canon r.pkt.va.toNat
        (s.cpOver p slot j .failed cause).dueTrap j.cid j.co j.lane (s.fabTrap r cause va)

/-- A packet of an `fcp` is acknowledged (R291): a push has landed, a pull has its bytes to write. -/
def State.fcpAck (s : State) (r : FabReq) (p slot serial g : Nat) (d : List PByte) : State :=
  match smGet (s.cluster p).cp slot with
  | none => s
  | some j =>
    match smGet s.crews j.cid with
    | none => s
    | some c =>
      if j.st ≠ .running || j.serial ≠ serial || j.kind ≠ .fcp then s
      else
        let n := (match s.cpPiece c j g with | some y => y.n | none => 0)
        let s := s.modCluster p fun cl => { cl with cp := smMod cl.cp slot fun j =>
          { j with out := nsDel g j.out,
                   read := if isPull j.kind j.desc then smSet j.read g ((d.drop (r.pkt.va.toNat % 32)).take n) else j.read } }
        let s := if isPush j.kind j.desc then s.cpLanded p slot g 0 n else s
        match smGet (s.cluster p).cp slot with
        | some j => if j.cancelPend ≠ [] && j.out = [] then s.cpEnd p slot j .cancelled 0 else s
        | none => s

/-- A packet of an `fcp` ended, its job being cancelled (R291): nothing of it counts. -/
def State.fcpDrop (s : State) (p slot serial g : Nat) : State × Bool :=
  match smGet (s.cluster p).cp slot with
  | none => (s, false)
  | some j =>
    if j.serial ≠ serial || j.cancelPend = [] then (s, false)
    else
      let j := { j with out := nsDel g j.out }
      let s := s.modCluster p fun cl => { cl with cp := smSet cl.cp slot j }
      (if j.out = [] then s.cpEnd p slot j .cancelled 0 else s, true)

/-- The value of an `ldf` from the granules of its reply (R286). -/
def ldfValue (p : Pend) (lane va : Nat) (d : List PByte) : LaneRes :=
  let kept := (smGet p.kept lane).getD []
  let d := d.drop (va % 32)
  loadValue p.sx kept (d.map Prod.fst) fun i => (d.getD i (0, false)).2

/-- A request that its peer performed ends (R286, R289, R291); `d` are the bytes of the reply. -/
def State.fabPerformed (s : State) (r : FabReq) (d : List PByte) : State :=
  match r.use with
  | .thread _ _ lane pid =>
    match smGet s.pends pid with
    | none => s
    | some p =>
      if r.pkt.cls = 0 then
        let v := ldfValue p lane r.pkt.va.toNat d
        s.resultLane pid lane v.val v.p
      else
        let w := d.take (if 2 ≤ p.width then 8 else 4)
        let bad := w.any Prod.snd
        s.resultLane pid lane (if bad then [] else [wordOfBytes (w.map Prod.fst)]) bad
  | .drain _ => s
  | .copy p slot serial g => s.fcpAck r p slot serial g d
  | .mirror _ => s

/-- A request ends with a cause (R279, R291, R294, R295). -/
def State.fabEnded (s : State) (r : FabReq) (cause : Cause) : State :=
  let va := canon r.pkt.va.toNat
  match r.use with
  | .thread cid co lane pid => (s.resultLane pid lane [] true).dueTrap cid co lane (s.fabTrap r cause va)
  | .drain l => s.trapWriters l (s.fabTrap r cause va)
  | .copy p slot serial g =>
    match s.fcpDrop p slot serial g with
    | (s, true) => s
    | (_, false) => s.fcpFail r p slot serial cause
  | .mirror _ => s

/-- Takes a request off the machine. -/
def State.dropFab (s : State) (id : Nat) : State := { s with fab := smDel s.fab id }

/-- The mirror copy of a request that is still out (R297). -/
def State.mirrorOf (s : State) (id : Nat) : Option Nat :=
  (s.fab.find? fun x => decide (x.2.use = FabUse.mirror id)).map Prod.fst

/-- The record of a request that ended with a fabric cause: peer, module and address (R294, R296). -/
def State.postFab (s : State) (r : FabReq) (cause : Cause) : State :=
  let pid := s.fabTarget r
  if isFabCause cause then
    s.postInfo r.part cause (canon r.pkt.va.toNat) (4096 * peerMod (s.peer r.part pid) + pid)
  else s

/-- A request ends with a cause, and its mirror copy counts no more (R294, R296, R297). -/
def State.endFab (s : State) (id : Nat) (r : FabReq) (cause : Cause) : State :=
  let s := (s.postFab r cause).dropFab id
  let s := { s with fab := s.fab.filter fun x => decide (x.2.use ≠ FabUse.mirror id) }
  s.fabEnded r cause

/-- The mirror copy of a mirrored atomic (R297): the new value, none when the swap failed. -/
def atomicMirror (r : FabReq) (d : List PByte) : Option Load :=
  let op := pktOp r.pkt
  let n := op.bytes
  let old := (d.take n)
  (atomicNew op (wordOfBytes (old.map Prod.fst)) (old.any Prod.snd)).map fun x =>
    let a := r.pkt.va.toNat
    let l := piecePayload a (x.1.map fun b => (b, x.2))
    { cls := 1, opc := 2, va := BitVec.ofNat 64 (a / 32 * 32), ngr := granules a n, mask := l.1, data := l.2, mir := true }

/-- A request is performed where it was sent: it ends, or waits for its mirror copy (R267, R297). -/
def State.doneFab (s : State) (id : Nat) (r : FabReq) (d : List PByte) : State :=
  let hold (s : State) : State :=
    { s with fab := smSet s.fab id { r with primary := true, pkt := { r.pkt with data := d.map Prod.fst, pz := d.map Prod.snd } } }
  match r.use with
  | .mirror of =>
    let s := s.dropFab id
    match smGet s.fab of with
    | some q => if q.primary then (s.dropFab of).fabPerformed q (q.pkt.data.zip q.pkt.pz) else s
    | none => s
  | _ =>
    if r.pkt.cls = 2 && !r.fo && s.mirrored r.part r.peer then
      match atomicMirror r d with
      | some l => (hold s).sendPkt r.part r.p (peerSec (s.peer r.part r.peer)) (.mirror id) l r.trpc r.inRgn
      | none => (s.dropFab id).fabPerformed r d
    else if (s.mirrorOf id).isSome then hold s
    else (s.dropFab id).fabPerformed r d

/-- Any reply of a peer returns its entries to UP (R294). -/
def State.peerAlive (s : State) (part mod tag : Nat) : State :=
  s.modPart part fun p => { p with peers := smMap (fun _ e =>
    if peerV e && decide (peerMod e = mod) && decide (peerTag e = tag) && decide (peerSt e = 2) then peerSetSt e 0 else e) p.peers }

/-- A reply or an acknowledgement of a request (R279, R286, R288, R291, R297). -/
def State.fabAck (s : State) (id : Nat) (a : FabAck) : State :=
  match smGet s.fab id with
  | none => s
  | some r =>
    if r.sent.isNone || r.primary then s
    else
      let s := s.peerAlive r.part r.pkt.dmod.toNat r.pkt.dtag.toNat
      if a.ended then
        match r.use with
        | .mirror of =>
          match smGet s.fab of with
          | some q => if q.fo then s.dropFab id else (s.dropFab id).endFab of { q with fo := true } a.cause
          | none => s.dropFab id
        | _ => s.endFab id r a.cause
      else s.doneFab id r (a.data.zip a.pz)

/-! Failover (R298). -/

/-- MIRROR_FAILOVER: FO is set and the record posted once (R298). -/
def State.setFailover (s : State) (part pid : Nat) : State :=
  let e := s.peer part pid
  if peerFo e then s
  else (s.setPeer part pid (peerSetFo e)).postInfo part cMirrorFailover 0 (4096 * peerMod e + pid)

/-- A request whose primary failed is sent again to the secondary, and counts there alone (R298); a secondary that has been reported
reset ends it. -/
def State.failover (s : State) (id : Nat) (r : FabReq) : State :=
  let sec := peerSec (s.peer r.part r.peer)
  let s := s.setFailover r.part r.peer
  if peerSt (s.peer r.part sec) = 1 then s.endFab id { r with fo := true } cFabricPeerReset
  else
    let l : Load := { cls := r.pkt.cls.toNat, opc := r.pkt.opc.toNat, va := canon r.pkt.va.toNat, ngr := r.pkt.ngr.toNat,
                      mask := r.pkt.mask, data := r.pkt.data.zip r.pkt.pz, mir := r.pkt.mir }
    let key := 2048 * clusterSite r.p + peerMod (s.peer r.part sec)
    { s.fresh with fab := smSet s.fab id { r with fo := true, sent := none, pkt := s.packet r.part r.p sec l, out := s.nextId },
                   streamSeq := smSet s.streamSeq key ((smGetD s.streamSeq key 0 + 1) % 65536) }

/-- A request that ends with a fabric cause (R294, R296): one to a mirrored peer's primary fails over instead. -/
def State.fabLost (s : State) (id : Nat) (r : FabReq) (cause : Cause) : State :=
  let e := s.peer r.part r.peer
  match r.use with
  | .mirror of =>
    match smGet s.fab of with
    | some q =>
      if q.fo then s.dropFab id
      else if cause = cFabricPeerReset then
        if q.primary then ((s.dropFab id).dropFab of).fabPerformed q (q.pkt.data.zip q.pkt.pz) else s.dropFab id
      else (s.dropFab id).endFab of { q with fo := true } cause
    | none => s.dropFab id
  | _ =>
    if r.primary then s
    else if peerSv e && !r.fo then s.failover id r
    else s.endFab id r cause

/-! Ports (R271, R276). -/

/-- A fabric port that is up. -/
def State.portUp (s : State) (f : Nat) : Bool := s.fpRdy.contains f

/-- The port to a directly linked module: its own, or a spare port cabled to that module while its own is down (R273). -/
def State.portFor (s : State) (d : Nat) : Option Nat :=
  match portTo Config.fabmod.toNat d with
  | none => none
  | some f =>
    if s.portUp f then some f
    else [94, 95].find? fun g => s.portUp g && decide (partner Config.fabmod.toNat g = some d)

/-- The productive ports of a destination (R276): the module of this row in its column, then the module of this column in
its row. -/
def productivePorts (d : Nat) : List Nat :=
  let m := Config.fabmod.toNat
  let byCol := if m % 64 ≠ d % 64 then (portTo m (m / 64 * 64 + d % 64)).toList else []
  let byRow := if m / 64 ≠ d / 64 then (portTo m (d / 64 * 64 + m % 64)).toList else []
  byCol ++ byRow

/-- A request that has not left waits for a port: that of the first productive way that is up (R276). -/
def State.queuedFor (s : State) (f : Nat) (r : FabReq) : Bool :=
  r.sent.isNone && decide (r.pkt.dmod ≠ Config.fabmod) &&
    decide (((productivePorts r.pkt.dmod.toNat).filterMap fun g => (partner Config.fabmod.toNat g).bind fun m => s.portFor m).head? = some f)

/-- Packets of a class that wait for a port (R276): this module's requests, and what it passes on or answers. The virtual channels and
credits of R275 decide only when one of them leaves (log 4): none waits here for a packet of another class. -/
def State.portQueue (s : State) (cls f : Nat) : Nat :=
  (s.fab.filter fun x => decide (x.2.pkt.cls.toNat = cls) && s.queuedFor f x.2).length +
    (s.egress.filter fun x => decide (x.2.1 = f) && decide (x.2.2.2.cls.toNat = cls)).length

/-- The ports of the dimensions in which this module differs from a destination, productive ones left out (R276). -/
def detourPorts (d : Nat) : List Nat :=
  let m := Config.fabmod.toNat
  let rows := if m / 64 ≠ d / 64 then List.range 31 else []
  let cols := if m % 64 ≠ d % 64 then (List.range 63).map (· + 31) else []
  (rows ++ cols).filter fun f => !(productivePorts d).contains f

/-- The port with the shortest queue; the lower number on a tie. -/
def State.shortest (s : State) (cls : Nat) : List Nat → Option Nat
  | [] => none
  | f :: r =>
    match State.shortest s cls r with
    | none => some f
    | some g => if s.portQueue cls g < s.portQueue cls f then some g else some f

/-- The port by which a packet leaves this module, and whether that is its detour (R276); none when it is dropped. -/
def State.routePkt (s : State) (k : FabPkt) : Option (Nat × Bool) :=
  let d := k.dmod.toNat
  let cls := k.cls.toNat
  let near := (productivePorts d).filterMap fun f => (partner Config.fabmod.toNat f).bind fun m => s.portFor m
  let side := s.shortest cls ((detourPorts d).filter s.portUp)
  match near.head?, side with
  | none, none => none
  | none, some g => if k.det then none else some (g, true)
  | some f, none => some (f, false)
  | some f, some g =>
    if !k.det && near.all fun f => decide (Config.detourQueue < s.portQueue cls f) then some (g, true) else some (f, false)

/-- The 24-byte header of a packet (R274). The last field is the lowest. -/
def pktHeader (k : FabPkt) : BitVec 192 :=
  k.dmod ++ k.smod ++ k.dtag ++ k.stag ++ k.dspace ++ k.dinc ++ k.cls ++ BitVec.ofBool k.det ++ k.hops ++ (0 : BitVec 9) ++ k.seq ++
    k.opc ++ k.ngr ++ k.txn ++ k.ssite ++ (0 : BitVec 8) ++ k.va

/-- The byte mask of a write packet that covers only part of its granules: 32 bytes, a bit for each byte of the payload (R274). -/
def pktMask (k : FabPkt) : List Byte :=
  if k.cls = 1 && k.mask.any (!·) then
    (List.range 32).map fun i => BitVec.ofNat 8 (((List.range 8).map fun j => if k.mask.getD (8 * i + j) false then 2 ^ j else 0).foldl (· + ·) 0)
  else []

/-- A packet as it goes on a link (R274): header, mask and payload, each number with its least significant byte first (R3). -/
def pktWire (k : FabPkt) : List Byte := bytesOfNat 24 (pktHeader k).toNat ++ pktMask k ++ k.data

/-- A packet crosses the link of a port (R274, R276). -/
def State.leave (s : State) (f : Nat) (det : Bool) (k : FabPkt) : State :=
  { s with fabOut := s.fabOut ++ [(f, { k with det := k.det || det, hops := k.hops + 1 })] }

/-- A packet that finds no way is dropped and counted (R276). -/
def State.dropPkt (s : State) (k : FabPkt) : State :=
  let f := (productivePorts k.dmod.toNat).headD 0
  { s with portDrop := smSet s.portDrop f (satCount (smGetD s.portDrop f 0)) }

/-- A packet joins the queue of the port that its route gives, or is dropped (R276). -/
def State.emit (s : State) (k : FabPkt) : State :=
  match s.routePkt k with
  | some (f, det) => { s.fresh with egress := smSet s.egress s.nextId (f, det, k) }
  | none => s.dropPkt k

/-- The entry of one of this module's partitions that names a partition of another module, with its tag. -/
def State.backEntry (s : State) (mod tag : Nat) : Option (Nat × W64) :=
  s.parts.findSome? fun x =>
    (x.2.peers.find? fun e => peerV e.2 && decide (peerMod e.2 = mod) && decide (peerTag e.2 = tag)).map fun e => (x.1, e.2)

/-- What waits for a fabric port (R283, R406): for each packet the tag of its partition and the mark that its source would get. A
packet that only passes through counts for the partition of this module that lists its source. -/
def State.portItems (s : State) (f : Nat) : List (Nat × Mark) :=
  (s.fab.filterMap fun x => if s.queuedFor f x.2 then some (x.2.part, Mark.fabric x.2.p x.2.pkt.dmod.toNat) else none) ++
    s.egress.filterMap fun x =>
      let k := x.2.2.2
      if x.2.1 ≠ f || k.smod = Config.fabmod || 3 ≤ k.cls.toNat then none
      else (s.backEntry k.smod.toNat k.stag.toNat).map fun b => (b.1, Mark.away k.smod.toNat k.stag.toNat k.ssite.toNat)

/-- A list of bytes filled with zeros to whole granules. -/
def wholeGranules {α : Type} (z : α) (d : List α) : List α := d ++ List.replicate (32 * ceilDiv d.length 32 - d.length) z

/-- The packet of a reply (R274, R275), its payload in whole granules: data in class 3, an acknowledgement in class 4 with the old bytes of an atomic. -/
def State.replyPkt (s : State) (k : FabPkt) (a : FabAck) : FabPkt :=
  let back := (smGet s.parts k.dtag.toNat).bind fun p =>
    (p.peers.find? fun x => peerV x.2 && decide (peerMod x.2 = k.smod.toNat) && decide (peerTag x.2 = k.stag.toNat)).map Prod.snd
  let data := wholeGranules 0 (if a.ended then [a.cause.setWidth 8] else a.data)
  { dmod := k.smod, smod := Config.fabmod, dtag := k.stag, stag := k.dtag, dspace := 0,
    dinc := BitVec.ofNat 12 ((back.map peerInc).getD 0), cls := if k.cls = 0 && !a.ended then 3 else 4, det := false, hops := 0,
    seq := 0, opc := if a.ended then 1 else 0, ngr := BitVec.ofNat 4 (ceilDiv data.length 32), txn := k.txn, ssite := k.ssite,
    va := k.va, mask := [], data := data, pz := wholeGranules false (if a.ended then [false] else a.pz), mir := false }

/-- The request that a reply names by TXN and source site (R274, R294). -/
def State.fabNamed (s : State) (part site txn : Nat) : Option Nat :=
  (s.fab.find? fun x => decide (x.2.part = part) && decide (x.2.pkt.txn.toNat = txn) && decide (x.2.pkt.ssite.toNat = site)
    && x.2.sent.isSome).map Prod.fst

/-- The answer to a request goes back: within the module, or by a port. -/
def State.answer (s : State) (k : FabPkt) (a : FabAck) : State :=
  if k.smod = Config.fabmod then
    match s.fabNamed k.stag.toNat k.ssite.toNat k.txn.toNat with
    | some id => s.fabAck id a
    | none => s
  else s.emit (s.replyPkt k a)

/-- Requests of peers that wait for a page or for bounce space are tried again (R79, R279). -/
def State.retryInbound (s : State) : State :=
  forL s.inbound s fun x s =>
    match s.serve x.2 with
    | .done t a => { t with inbound := smDel t.inbound x.1 }.answer x.2 a
    | _ => s

/-- A request of a peer arrives at its partition (R279): it is performed, or waits. None when it must be presented again. -/
def State.accept (s : State) (k : FabPkt) : Option State :=
  match s.serve k with
  | .done s a => some (s.answer k a)
  | .absent s => some { s.fresh with inbound := smSet s.inbound s.nextId k }
  | .wait => none

end Sys2Proof.Machine
end

