-- ==== Sys2Proof/Machine/Sync.lean ====
section
/-!
DEFINITION. Sys2Proof/Machine/Sync.lean: the instructions of group 10: barrier objects (R349 to R351), the grid barrier
(R352), channels (R357, R358) and allowances (R360, R362).
-/

namespace Sys2Proof.Machine

/-! Barrier objects. -/

/-- The checks of a per-thread barrier instruction that need no object: a poisoned operand, an index out of range, a count
above 16 bits (R348). -/
def barFault (x : Slot) (poison : Bool) (idx : Nat) (bad : Bool) : Option Cause :=
  if poison then some cPoisonUse else if x.crew.sync ≤ idx || bad then some cSyncInvalid else none

/-- `bar.init` (R349). -/
def execBarInit (f : Fields) (s : State) : Host.Outcome State Fault Refusal :=
  runSlot .barInit f s fun x s =>
    seqSlot x (fun i s =>
      let idx := (x.a[i]).lo.toNat
      let e := (x.b[i]).lo.toNat
      match barFault x ((x.a[i]).p || (x.b[i]).p) idx (decide (2 ^ 16 ≤ e)) with
      | some c => .error c
      | none =>
        match (s.bar x.crew idx).init e with
        | some b => .ok (s.setBar x.crew idx b, 0)
        | none => .ok (s, 1)) s

/-- The kind of an arrival from KIND (R347). -/
def arriveKind : Nat → ArriveKind
  | 0 => .plain
  | 1 => .drop
  | _ => .join

/-- `bar.arr` (R350): its release part was completed at the start of the clause. -/
def execBarArr (f : Fields) (s : State) : Host.Outcome State Fault Refusal :=
  runSlot .barArr f s fun x s =>
    seqSlot x (fun i s =>
      let idx := (x.a[i]).lo.toNat
      match barFault x (x.a[i]).p idx false with
      | some c => .error c
      | none =>
        let b := s.bar x.crew idx
        (b.arrive (arriveKind (f.mod.toNat % 4))).map fun b' => (s.setBar x.crew idx b', BitVec.ofNat 64 b.ph)) s

/-- `bar.exp` (R350). -/
def execBarExp (f : Fields) (s : State) : Host.Outcome State Fault Refusal :=
  runSlot .barExp f s fun x s =>
    seqSlot x (fun i s =>
      let idx := (x.a[i]).lo.toNat
      match barFault x ((x.a[i]).p || (x.b[i]).p) idx false with
      | some c => .error c
      | none =>
        let b := s.bar x.crew idx
        (b.expect (x.b[i]).lo.toNat (f.mod.getLsbD 0)).map fun b' => (s.setBar x.crew idx b', BitVec.ofNat 64 b.ph)) s

/-- The acquire of a wait that finds its phase over (R260, R351). -/
def State.barAcquire (s : State) (x : Slot) (lane idx : Nat) : State :=
  s.startFence x.cid x.co 0 (laneBit lane) x.trpc
    { hold := true, rel := false, acq := true, scope := 1,
      ranges := some (x.crew.boundTo (bindObj false (BitVec.ofNat 64 idx))), step := 0, waits := [], next := .done }

/-- The phase that a thread waits for has not ended (R351). -/
def Slot.phaseLasts (x : Slot) (s : State) (i : Fin 32) : Bool :=
  decide ((s.bar x.crew (x.a[i]).lo.toNat).ph = (x.b[i]).lo.toNat % 2 ^ 16)

/-- The thread is held while the phase lasts (R351). -/
def Slot.holdPhase (x : Slot) (i : Fin 32) (th : Thread) : Thread :=
  { th with holds := .bar (x.a[i]).lo.toNat ((x.b[i]).lo.toNat % 2 ^ 16) :: th.holds }

/-- `bar.wait` (R351): the thread is held while the phase lasts. -/
def execBarWait (f : Fields) (s : State) : Host.Outcome State Fault Refusal :=
  runSlot .barWait f s fun x s =>
    let l := x.faults fun i => atNull (barFault x ((x.a[i]).p || (x.b[i]).p) (x.a[i]).lo.toNat false)
    let held := laneFilter (x.done l) (x.phaseLasts s)
    let s := finishSlot x l .none (s.slotLanes x held x.holdPhase)
    forL (lanesOf (x.done l &&& ~~~held)) s fun i s => s.barAcquire x i.val (x.a[i]).lo.toNat

/-- `bar.test` (R351). -/
def execBarTest (f : Fields) (s : State) : Host.Outcome State Fault Refusal :=
  runSlot .barTest f s fun x s =>
    seqSlot x (fun i s =>
      let idx := (x.a[i]).lo.toNat
      match barFault x ((x.a[i]).p || (x.b[i]).p) idx false with
      | some c => .error c
      | none =>
        if (s.bar x.crew idx).ph = (x.b[i]).lo.toNat % 2 ^ 16 then .ok (s, 0) else .ok (s.barAcquire x i.val idx, 1)) s

/-! The grid barrier. -/

/-- `gbar` (R352): each executing thread makes its release at partition scope, arrives, and is held. -/
def execGbar (f : Fields) (s : State) : Host.Outcome State Fault Refusal :=
  runSlot .gbar f s fun x s =>
    let gen := (match smGet s.grids x.crew.grid with | some g => g.gbGen | none => 0)
    let s := finishSlot x [] .none (s.slotLanes x x.ex fun _ th => { th with holds := .gbar gen :: th.holds })
    s.startFence x.cid x.co x.run.tok x.ex x.trpc
      { hold := true, rel := true, acq := false, scope := 3, ranges := none, step := 0, waits := [], next := .arrive }

/-! Channels. -/

/-- `chn.bind` (R357). -/
def execChnBind (f : Fields) (s : State) : Host.Outcome State Fault Refusal :=
  runSlot .chnBind f s fun x s =>
    let a := x.uni x.a
    let n := a.lo.toNat
    let l := x.bundleFault
      (if a.p then some cPoisonUse
       else if 16 ≤ n || (decide (n < 8) && decide (x.crew.chan ≤ n)) then some cSyncInvalid else none)
    let s := finishSlot x l .none s
    if l.isEmpty then
      s.modCohort x.cid x.co fun h => { h with ch := h.ch.setIfInBounds (f.mod.toNat % 8) (if 8 ≤ n then none else some n) }
    else s

/-- The crew channel that a selector number is bound to, for an instruction of the channel group: an unbound one has faulted
before (R140, R358). -/
def Slot.chan (x : Slot) : Nat := (x.coh.ch[x.f.mod.toNat % 8]?.getD none).getD 0

/-- A lane of a channel's word as a result. -/
def wordLane (w : Option (Vector QEnt 32)) (i : Fin 32) : LaneRes :=
  match w with
  | some w => if (w[i]).p then { val := [], p := true } else { val := [(w[i]).val], p := false }
  | none => { val := [0], p := false }

/-- The results of a channel read, delivered later. -/
def chanResult (x : Slot) (w : Option (Vector QEnt 32)) (k : Option Nat) (s : State) : State :=
  let id := s.nextId
  let vals := forL (lanesOf x.ex) [] fun i m => smSet m i.val (wordLane w i)
  finishLate x [] id false
    (s.addPend { x.pend 1 x.ex 0 vals with kdst := k, kvals := if w.isSome then BitVec.allOnes 32 else 0 })

/-- Pops the head word of a crew channel (R355, R356). -/
def State.popChan (s : State) (cid n : Nat) : State :=
  s.modCrew cid fun c => { c with chans := c.chans.setIfInBounds n ((c.chans[n]?.getD default).pop 1) }

/-- `chn.pop` (R358): the clause started with the word at hand (R22 step 2). -/
def execChnPop (f : Fields) (s : State) : Host.Outcome State Fault Refusal :=
  runSlot .chnPop f s fun x s =>
    let n := x.chan
    let w := (x.crew.chans[n]?.getD default).words.head?
    let s := if x.ex = 0 then s else s.popChan x.cid n
    if f.mod.getLsbD 3 then finishSlot x [] .none s
    else chanResult x (some (w.getD (Vector.replicate 32 QEnt.poison))) none s

/-- `chn.try` (R358): words that started clauses have still to pop are not taken. -/
def execChnTry (f : Fields) (s : State) : Host.Outcome State Fault Refusal :=
  runSlot .chnTry f s fun x s =>
    let n := x.chan
    let ch := x.crew.chans[n]?.getD default
    let lk := f.mod.toNat / 8
    let there := decide ((s.chanHeld x.p x.cid n).1 < ch.filled) && decide (x.ex ≠ 0)
    let s := if there then s.popChan x.cid n else s
    chanResult x (if there then ch.words.head? else none) (if lk = 0 then none else some lk) s

/-- A result of an instruction that acts once for the bundle, delivered later (R348). -/
def bundleResult (x : Slot) (l : List (Nat × TrapRec)) (v : W64) (s : State) : State :=
  let id := s.nextId
  let vals := forL (lanesOf (x.done l)) [] fun i m => smSet m i.val { val := [v], p := false }
  finishLate x l id false (s.addPend (x.pend 1 (x.done l) 0 vals))

/-- `chn.cnt` (R358). -/
def execChnCnt (f : Fields) (s : State) : Host.Outcome State Fault Refusal :=
  runSlot .chnCnt f s fun x s =>
    let ch := x.crew.chans[x.chan]?.getD default
    bundleResult x [] (BitVec.ofNat 64 (if f.mod.getLsbD 3 then ch.room else ch.filled)) s

/-! Allowances. -/

/-- A partition owns a host port (R360). -/
def State.ownsPort (s : State) (tag port : Nat) : Bool :=
  match smGet s.parts tag with
  | some p => p.res.hostPorts.contains port
  | none => false

/-- A handle after a binding (R360): KIND 3 unbinds; the destination it names already keeps the value, another starts
at 0. -/
def alwBound (time kind dst : Nat) (old : Option Alw) : Option Alw :=
  if kind = 3 then none
  else
    match old with
    | some w => if w.cls = kind ∧ w.dst = dst then some w else some { cls := kind, dst := dst, val := 0, since := time }
    | none => some { cls := kind, dst := dst, val := 0, since := time }

/-- `alw.bind` (R360). -/
def execAlwBind (f : Fields) (s : State) : Host.Outcome State Fault Refusal :=
  runSlot .alwBind f s fun x s =>
    let a := x.uni x.a
    let v := a.lo
    let kind := bits v.toNat 31 30
    let dst := bits v.toNat 11 0
    let bad := decide (bits v.toNat 29 12 ≠ 0) || ((kind = 1 || kind = 2) && decide (3 < dst)) ||
      (kind = 1 && !s.ownsPort x.crew.part dst)
    let l := x.bundleFault (if a.p then some cPoisonUse else if bad then some cSyncInvalid else none)
    let s := finishSlot x l .none s
    if !l.isEmpty then s
    else
      s.modCohort x.cid x.co fun h =>
        let n := f.mod.toNat % 4
        { h with w := h.w.setIfInBounds n (alwBound s.time kind dst (h.w[n]?.getD none)) }

/-- The value of a bound handle; ILLEGAL_OPERAND for the bundle when it is unbound (R142, R362). -/
def Slot.handle (x : Slot) (n : Nat) : Option Alw := x.coh.w[n]?.getD none

/-- `alw.test` (R362): B of the lowest executing thread serves the bundle (R348). -/
def execAlwTest (f : Fields) (s : State) : Host.Outcome State Fault Refusal :=
  runSlot .alwTest f s fun x s =>
    let b := (((lanesOf x.ex).head?).map fun l => x.b[l]).getD (Val.ok 0)
    match x.handle (f.mod.toNat % 4) with
    | none => finishSlot x (x.bundleFault (if x.ex = 0 then none else some cIllegalOperand)) .none s
    | some w =>
      let l := x.bundleFault (if b.p then some cPoisonUse else none)
      bundleResult x l (if 0 < w.val && (b.lo.toNat : Int) ≤ w.val then 1 else 0) s

/-- `alw.rd` (R362). -/
def execAlwRd (f : Fields) (s : State) : Host.Outcome State Fault Refusal :=
  runSlot .alwRd f s fun x s =>
    match x.handle (f.mod.toNat % 4) with
    | none => finishSlot x (x.bundleFault (if x.ex = 0 then none else some cIllegalOperand)) .none s
    | some w =>
      let v := max (-(2 : Int) ^ 31) (min w.val (2 ^ 31 - 1))
      bundleResult x [] (BitVec.ofNat 64 ((v % 2 ^ 32).toNat)) s

end Sys2Proof.Machine
end

