-- ==== Sys2Proof/Machine/Fabric.lean ====
section
/-!
DEFINITION. Sys2Proof/Machine/Fabric.lean: the fabric instructions (R281 to R293), packets that leave and arrive (R276,
R278 to R280), links (R273), time-outs, resets and joins (R277, R294 to R298), and the ageing of the write-combining buffer
(R288).
-/

namespace Sys2Proof.Machine

/-! The instructions. -/

/-- The peer id of a handle bound to a fabric peer (R142, R281). -/
def Slot.peerOf (x : Slot) : Option Nat :=
  match x.handle (x.f.mod.toNat % 4) with
  | some w => if w.cls = 0 then some w.dst else none
  | none => none

/-- The check of handle and peer (R281); a peer that has failed over is its secondary (R298). -/
def State.peerFault (s : State) (x : Slot) : Option Cause :=
  match x.peerOf with
  | none => some cIllegalOperand
  | some pid =>
    let e := s.peer x.crew.part pid
    let t := s.peer x.crew.part (s.peerTarget x.crew.part pid)
    if !peerV e || !peerV t || peerSt t = 1 then some cFabricPeerReset else none

/-- A precise fault of a fabric instruction; FABRIC_PEER_RESET names module and peer (R293, R383). -/
def Slot.fabFaults (x : Slot) (s : State) (ad : Fin 32 → W64) (g : Fin 32 → Option Cause) : List (Nat × TrapRec) :=
  let pid := x.peerOf.getD 0
  (lanesOf x.ex).filterMap fun i => (g i).map fun c =>
    (i.val, { preciseTrap x.run c (faultAddr c (ad i)) with
      peer := if c = cFabricPeerReset then some (4096 * peerMod (s.peer x.crew.part pid) + pid) else none })

/-- Takes a charge off a handle's value (R282). -/
def State.charge (s : State) (x : Slot) (n : Nat) : State :=
  s.modCohort x.cid x.co fun h =>
    { h with w := lmodV h.w (x.f.mod.toNat % 4) fun w => w.map fun w => { w with val := w.val - n } }
where
  lmodV (w : Vector (Option Alw) 4) (i : Nat) (g : Option Alw → Option Alw) : Vector (Option Alw) 4 :=
    w.setIfInBounds i (g (w[i]?.getD none))

/-- Charge of a write: twice to a mirrored peer (R284). -/
def State.writeCharge (s : State) (x : Slot) (n : Nat) : Nat :=
  match x.peerOf with
  | some pid => if peerSv (s.peer x.crew.part pid) then 2 * n else n
  | none => n

/-- Lanes of a mask. -/
def laneCount (m : BitVec 32) : Nat := (lanesOf m).length

/-- The line of a cluster's write-combining buffer for a peer and an address (R287). -/
def Cluster.wcbLine (c : Cluster) (part pid : Nat) (va : W64) : Option Wcb :=
  c.wcb.find? fun w => decide (w.part = part) && decide (w.peer = pid) && decide (w.va = lineVa va)

/-- Bytes that the buffer holds for a range (R286). -/
def Cluster.wcbBytes (c : Cluster) (part pid : Nat) (va : W64) (n : Nat) : List (Option Byte) :=
  match c.wcbLine part pid va with
  | none => List.replicate n none
  | some w => (List.range n).map fun i =>
      let o := va.toNat % 128 + i
      if w.mask.getD o false then w.data[o]? else none

/-- One lane of an `ldf` (R286): bytes all held in the write-combining buffer give its result, else the read is sent. -/
def ldfLane (x : Slot) (id n : Nat) (sx : Bool) (ea : Fin 32 → W64) (k : Nat × List (Option Byte)) (s : State) : State :=
  let va := ea (Fin.ofNat 32 k.1)
  if k.2.all Option.isSome then
    let r := loadValue sx k.2 [] fun _ => false
    s.resultLane id k.1 r.val r.p
  else
    s.sendFab x.crew.part x.p (x.peerOf.getD 0) (.thread x.cid x.co k.1 id)
      { cls := 0, opc := 0, va := va, ngr := granules va.toNat n, mask := [], data := [] } x.trpc false

/-- `ldf` (R284 to R286). -/
def execLdf (f : Fields) (s : State) : Host.Outcome State Fault Refusal :=
  runSlot .ldf f s fun x s =>
    let sz := f.mod.toNat / 4 % 4
    let n := accSize f sz
    let ea (i : Fin 32) : Int := globalEa x.a[i] x.b[i]
    let l := x.fabFaults s (fun i => toW64 (ea i)) fun i => firstErr [s.peerFault x, globalFault ((x.a[i]).p || (x.b[i]).p) (ea i) n false]
    let good := x.done l
    let pid := x.peerOf.getD 0
    let kept := (lanesOf good).map fun i => (i.val, (s.cluster x.p).wcbBytes x.crew.part pid (toW64 (ea i)) n)
    let sx := f.mod.getLsbD 4
    let id := s.nextId
    let s := s.addPend { x.pend (loadWidth f sz) good good [] with joint := true, sx := sx, kept := kept }
    let s := s.charge x (n * laneCount good)
    let s := forL kept s (ldfLane x id n sx fun i => toW64 (ea i))
    finishLate x l id (Ty.wide f.ty) s

/-- The line written least recently (R287). -/
def oldestWcb : List Wcb → Option Wcb
  | [] => none
  | w :: r =>
    match oldestWcb r with
    | none => some w
    | some v => if v.last < w.last then some v else some w

/-- A line of the buffer with bytes written into it (R287). -/
def Wcb.put (w : Wcb) (off : Nat) (d : List Byte) (who : Nat × Nat) (last : Nat) : Wcb :=
  { w with data := putBytes w.data off d, mask := w.mask.zipIdx.map fun m => m.1 || (decide (off ≤ m.2) && decide (m.2 < off + d.length)),
           cohorts := if w.cohorts.contains who then w.cohorts else w.cohorts ++ [who], last := last }

/-- Bytes placed in the write-combining buffer (R287): a full buffer drains its least recently written line, and a line whose
mask is full drains (R288). -/
def State.wcbPut (s : State) (p part pid : Nat) (who : Nat × Nat) (va : W64) (d : List Byte) : State :=
  let key := (s.cluster p).wcbLine part pid va
  let s := if key.isNone && decide (256 ≤ (s.cluster p).wcb.length) then
      match oldestWcb (s.cluster p).wcb with
      | some w => s.drainLine p w
      | none => s
    else s
  let old := key.getD { part := part, peer := pid, va := lineVa va, data := List.replicate 128 0, mask := List.replicate 128 false,
                        cohorts := [], first := s.time, last := 0 }
  let w := old.put (va.toNat % 128) d who s.nextId
  let s := s.fresh.modCluster p fun c => { c with wcb := c.wcb.filter (fun y => some y ≠ key) ++ [w] }
  if w.mask.all id then s.drainLine p w else s

/-- `stf` (R284, R285, R287). -/
def execStf (f : Fields) (s : State) : Host.Outcome State Fault Refusal :=
  runSlot .stf f s fun x s =>
    let n := accSize f (f.mod.toNat / 4 % 4)
    let ea (i : Fin 32) : Int := globalEa x.a[i] x.b[i]
    let l := x.fabFaults s (fun i => toW64 (ea i)) fun i =>
      firstErr [s.peerFault x, globalFault ((x.a[i]).p || (x.b[i]).p) (ea i) n false,
        failIf (storeData x n i).2 cPoisonStore]
    let good := x.done l
    let s := s.charge x (s.writeCharge x n * laneCount good)
    let s := forL (lanesOf good) s fun i s =>
      s.wcbPut x.p x.crew.part (x.peerOf.getD 0) (x.cid, x.co) (toW64 (ea i)) (storeData x n i).1
    finishSlot x l .none s

/-- One lane's atomic is sent, the line that it overlaps before it (R288, R289). -/
def fabAtomicLane (x : Slot) (id : Nat) (ea : Fin 32 → W64) (opc : Nat) (operand : Fin 32 → List Byte) (i : Fin 32) (s : State) :
    State :=
  let pid := x.peerOf.getD 0
  let s := s.drainWcb x.p fun w => decide (w.part = x.crew.part) && decide (w.peer = pid) && decide (w.va = lineVa (ea i))
  s.sendFab x.crew.part x.p pid (.thread x.cid x.co i.val id)
    { cls := 2, opc := opc + 16 * (Ty.code x.f.ty).toNat, va := ea i, ngr := 1, mask := [], data := cleanBytes (operand i) } x.trpc false

/-- Sends the atomics of the executing lanes, the line they overlap first (R288, R289). -/
def fabAtomic (x : Slot) (l : List (Nat × TrapRec)) (ea : Fin 32 → W64) (opc : Nat) (operand : Fin 32 → List Byte) (s : State) :
    State :=
  let good := x.done l
  let id := s.nextId
  let s := s.addPend { x.pend (if Ty.wide x.f.ty then 2 else 1) good good [] with joint := true }
  let s := s.charge x (atomBytes x.f * laneCount good)
  let s := forL (lanesOf good) s (fabAtomicLane x id ea opc operand)
  finishLate x l id (Ty.wide x.f.ty) s

/-- `atomf` (R284, R285, R289). -/
def execAtomf (f : Fields) (s : State) : Host.Outcome State Fault Refusal :=
  runSlot .atomf f s fun x s =>
    let ea (i : Fin 32) : Int := globalEa x.a[i] x.b[i]
    let l := x.fabFaults s (fun i => toW64 (ea i)) fun i =>
      firstErr [s.peerFault x, globalFault ((x.a[i]).p || (x.b[i]).p) (ea i) (atomBytes f) true, failIf (x.c[i]).p cPoisonStore]
    fabAtomic x l (fun i => toW64 (ea i)) (f.mod.toNat / 4 % 8)
      (fun i => bytesOfNat 8 (x.c[i]).v.toNat ++ bytesOfNat 24 (if f.mod.getLsbD 5 then 1 else 0)) s

/-- `casf` (R284, R285, R289). -/
def execCasf (f : Fields) (s : State) : Host.Outcome State Fault Refusal :=
  runSlot .casf f s fun x s =>
    let l := x.fabFaults s (fun i => (x.a[i]).v) fun i =>
      firstErr [s.peerFault x, globalFault (x.a[i]).p ((x.a[i]).v.toNat : Int) (atomBytes f) true,
        failIf ((x.b[i]).p || (x.c[i]).p) cPoisonStore]
    fabAtomic x l (fun i => (x.a[i]).v) 8
      (fun i => bytesOfNat 8 (x.b[i]).v.toNat ++ bytesOfNat 24 (x.c[i]).v.toNat) s

/-- `fcp` (R285, R290): a post to the copy engine in each executing lane. -/
def execFcp (f : Fields) (s : State) : Host.Outcome State Fault Refusal :=
  runSlot .fcp f s fun x s =>
    let desc (i : Fin 32) : List W64 := eightWords (memRead s.mem (x.crew.stashAt (x.a[i]).lo.toNat) 64)
    let l := x.fabFaults s (fun i => (x.a[i]).lo.setWidth 64) fun i =>
      let off := (x.a[i]).lo.toNat
      firstErr
        [s.peerFault x, failIf (x.a[i]).p cPoisonUse, failIf (decide (off % 64 ≠ 0)) cMisaligned,
         failIf (decide (x.crew.dOff < off + 64)) cStashBounds, s.cpFault x.crew .fcp (desc i)]
    let good := x.done l
    let cost := (lanesOf good).foldl (fun n i =>
      let d := desc i
      let m := dNum d * dLen d
      n + (if isPush .fcp d then s.writeCharge x m else m)) 0
    let s := s.charge x cost
    let (s, vals) := forL (lanesOf good) (s, ([] : SMap W64)) fun i y =>
      let r := y.1.cpOffer x i.val .fcp (x.peerOf.getD 0) (desc i)
      (r.1, smSet y.2 i.val r.2)
    finishLate x l s.nextId false (s.addPend (x.postPend good vals fun r => r.getLsbD 0))

/-- `wcb.flush` (R288, R292): SETB follows the lines that it drained. -/
def execWcbFlush (f : Fields) (s : State) : Host.Outcome State Fault Refusal :=
  runSlot .wcbFlush f s fun x s =>
    let one := f.mod.getLsbD 2
    let l := x.fabFaults s (fun _ => 0) fun _ => if one then s.peerFault x else none
    let good := x.done l
    if good = 0 then finishSlot x l .none s
    else
      let pid := x.peerOf.getD 0
      let first := s.nextId
      let s := s.drainWcb x.p fun w => !one || (decide (w.part = x.crew.part) && decide (w.peer = pid))
      let ids := (List.range (s.nextId - first)).map (· + first)
      finishSlot x l .none (s.startFence x.cid x.co x.run.tok good x.trpc
        { hold := false, rel := false, acq := false, scope := 0, ranges := none, step := 0, waits := ids, next := .done })

/-- The word of `fpeer` (R293). -/
def fpeerWord (s : State) (x : Slot) (lane : Fin 32) : Nat :=
  if x.f.mod.toNat / 4 % 4 = 0 then
    let pid := x.peerOf.getD 0
    let e := s.peer x.crew.part pid
    (if peerV e then peerSt e else 3) + 4 * (peerSv e).toNat + 8 * (peerFo e).toNat + 16 * (pid % 4096)
  else
    match (x.coh.threads[lane]).lastFab with
    | some (p, c) => p % 4096 + 4096 * c.toNat + 2 ^ 31
    | none => 0

/-- `fpeer` (R281, R293). -/
def execFpeer (f : Fields) (s : State) : Host.Outcome State Fault Refusal :=
  runSlot .fpeer f s fun x s =>
    let l := x.fabFaults s (fun _ => 0) fun _ => if f.mod.toNat / 4 % 4 = 0 && x.peerOf.isNone then some cIllegalOperand else none
    let good := x.done l
    let vals := forL (lanesOf good) [] fun i m => smSet m i.val { val := [BitVec.ofNat 64 (fpeerWord s x i)], p := false }
    finishLate x l s.nextId false (s.addPend { x.pend 1 good good vals with joint := true })

/-! Congestion (R283, R361, R406, R407). -/

/-- A mark halves a fraction, down to 1/1,024 (R283, R407). -/
def Rate.mark (r : Rate) (time : Nat) : Rate :=
  if r.num < 2 ^ (r.exp + 1) then { num := 1, exp := 0, since := time } else { num := r.num, exp := r.exp + 1, since := time }

/-- A fraction of a sparse map. -/
def rateOf (m : SMap Rate) (k : Nat) : Rate := smGetD m k Rate.full

/-- The congestion mark that a fabric port returns to a source cluster of another module (R275, R283). -/
def markPkt (tag : Nat) (e : W64) (site : Nat) : FabPkt :=
  { dmod := BitVec.ofNat 11 (peerMod e), smod := Config.fabmod, dtag := BitVec.ofNat 10 (peerTag e), stag := BitVec.ofNat 10 tag,
    dspace := 0, dinc := BitVec.ofNat 12 (peerInc e), cls := 5, det := false, hops := 0, seq := 0, opc := 0, ngr := 0, txn := 0,
    ssite := BitVec.ofNat 12 site, va := 0, mask := [], data := [], pz := [], mir := false }

/-- What a mark does (R283, R361, R406, R407). -/
def State.mark (s : State) (m : Mark) : State :=
  let half (p : Nat) (s : State) : State := s.modCluster p fun c => { c with g := c.g.mark s.time }
  let port (p k : Nat) (s : State) : State :=
    match s.ownerOf p with
    | some tag => s.modPart tag fun x => { x with fport := smSet x.fport k ((rateOf x.fport k).mark s.time) }
    | none => s
  match m with
  | .router p => half p s
  | .slice p q => port p (4 + farClass p q) (half p s)
  | .host p h => port p h s
  | .fabric p mod => s.modCluster p fun c => { c with fmod := smSet c.fmod mod ((rateOf c.fmod mod).mark s.time) }
  | .away mod tag site => match s.backEntry mod tag with | some b => s.emit (markPkt b.1 b.2 site) | none => s

/-! Resets and joins. -/

/-- What a reset notice does in one partition's table (R296, R298). -/
def State.resetPeer (s : State) (part mod rtag : Nat) : State :=
  let names (e : W64) : Bool := peerV e && decide (peerMod e = mod) && decide (peerTag e = rtag)
  match smGet s.parts part with
  | none => s
  | some p =>
    let hit := (p.peers.filter fun x => names x.2).map Prod.fst
    let s := s.modPart part fun p => { p with peers := smMap (fun _ e => if names e then peerSetSt e 1 else e) p.peers }
    let s := forL hit s fun pid s =>
      let e := s.peer part pid
      if peerSv e then s.setFailover part pid else s
    let out := s.fab.filter fun x =>
      decide (x.2.part = part) && decide (x.2.pkt.dmod.toNat = mod) && decide (x.2.pkt.dtag.toNat = rtag)
    let s := forL out s fun x s =>
      match smGet s.fab x.1 with
      | some r => s.fabLost x.1 r cFabricPeerReset
      | none => s
    let gone (w : Wcb) : Bool := decide (w.part = part) && hit.contains (s.peerTarget part w.peer)
    let lost := s.clusters.flatMap fun c => c.2.wcb.filter gone
    let s := { s with clusters := smMap (fun _ c => { c with wcb := c.wcb.filter fun w => !gone w }) s.clusters }
    forL lost s fun w s =>
      s.trapWriters w.cohorts
        { lateTrap cFabricPeerReset w.va 0 s.nextId false with
          rank := 2, peer := some (4096 * mod + s.peerTarget part w.peer) }

/-- A reset notice: in every partition whose table names the peer (R296). -/
def State.resetNotice (s : State) (mod rtag : Nat) : State := forL s.parts s fun x s => s.resetPeer x.1 mod rtag

/-- A peer entry written by the service block: ST and FO zero, reserved bits zero (R277). -/
def peerWritten (e : W64) : W64 := BitVec.ofNat 64 ((peerSetSt e 0).toNat / 512 * 512)

/-- A peer entry with another incarnation (R277, R296). -/
def peerSetInc (e : W64) (inc : Nat) : W64 := peerWritten (BitVec.ofNat 64 (e.toNat - peerInc e * 512 + inc % 4096 * 512))

/-- RESET_NOTICE (R296): it is admitted as any packet is, by our incarnation and by an entry for the peer (R278). -/
def execResetNotice (part mod rtag inc : Nat) (s : State) : Host.Outcome State Fault Refusal :=
  .next (
    match smGet s.parts part with
    | none => s
    | some p =>
      if p.inc.toNat = inc && p.peers.any fun x => peerV x.2 && decide (peerMod x.2 = mod) && decide (peerTag x.2 = rtag) &&
          peerSt x.2 ≠ 1 then
        s.resetNotice mod rtag
      else s)

/-- A peer's incarnation is known: every entry that names the peer is rewritten (R277, R296). -/
def State.peerInc (s : State) (mod rtag inc : Nat) : State :=
  { s with parts := smMap (fun _ p => { p with peers := smMap (fun _ e =>
    if peerV e && decide (peerMod e = mod) && decide (peerTag e = rtag) then peerSetInc e inc else e) p.peers }) s.parts }

/-- PEER_INCARNATION (R277, R296): a peer's service block tells its incarnation. -/
def execPeerIncarnation (mod rtag inc : Nat) (s : State) : Host.Outcome State Fault Refusal := .next (s.peerInc mod rtag inc)

/-- A packet of the service block to a peer (R275, R277, R296): class 5 with OPC 1, a reset notice; class 6 with the incarnation in
its address field: OPC 0 tells it, OPC 1 asks for the other's too. Those places of a class 6 packet are the model's (log 47). -/
def noticePkt (tag : Nat) (e : W64) (cls opc inc : Nat) : FabPkt :=
  { dmod := BitVec.ofNat 11 (peerMod e), smod := Config.fabmod, dtag := BitVec.ofNat 10 (peerTag e), stag := BitVec.ofNat 10 tag,
    dspace := 0, dinc := BitVec.ofNat 12 (Sys2Proof.Machine.peerInc e), cls := BitVec.ofNat 3 cls, det := false, hops := 0, seq := 0,
    opc := BitVec.ofNat 8 opc, ngr := 0, txn := 0, ssite := 0, va := BitVec.ofNat 57 inc, mask := [], data := [], pz := [], mir := false }

/-- A packet of a partition's service block goes to a peer: through a port, or at once to a peer on this module, where packets turn
without crossing a link (R276). -/
def State.tellPeer (s : State) (tag : Nat) (e : W64) (cls opc inc : Nat) : State :=
  if peerMod e = Config.fabmod.toNat then
    if cls = 5 then s.resetNotice (peerMod e) tag
    else
      let s := s.peerInc (peerMod e) tag inc
      match smGet s.parts (peerTag e) with
      | some q => if opc = 1 then s.peerInc (peerMod e) (peerTag e) q.inc.toNat else s
      | none => s
  else s.emit (noticePkt tag e cls opc inc)

/-- Every peer that a partition's table names is told once (R296). -/
def State.notify (s : State) (tag cls inc : Nat) : State :=
  match smGet s.parts tag with
  | none => s
  | some t =>
    let l := t.peers.filter fun x => peerV x.2
    let who := (l.map fun x => (peerMod x.2, peerTag x.2)).eraseDups
    forL who s fun m s =>
      match l.find? fun x => decide ((peerMod x.2, peerTag x.2) = m) with
      | some x => s.tellPeer tag x.2 cls (if cls = 5 then 1 else 0) inc
      | none => s

/-- A class 6 packet of a peer's service block (R277, R296): its partition's incarnation; it is answered with ours where it asks. -/
def State.service (s : State) (k : FabPkt) : State :=
  let s := s.peerInc k.smod.toNat k.stag.toNat k.va.toNat
  match smGet s.parts k.dtag.toNat with
  | some p =>
    match p.peers.find? fun x => peerV x.2 && decide (peerMod x.2 = k.smod.toNat) && decide (peerTag x.2 = k.stag.toNat) with
    | some x => if k.opc = 1 then s.tellPeer k.dtag.toNat x.2 6 0 p.inc.toNat else s
    | none => s
  | none => s

/-- The service block writes a peer's entry without an incarnation, which its operator does not supply, and exchanges incarnations
with the peer's (R277). -/
def State.joinPeer (s : State) (part pid : Nat) (entry : W64) : State :=
  let e := peerSetInc entry 0
  let s := s.setPeer part pid e
  match smGet s.parts part with
  | some p => if peerV e then s.tellPeer part e 6 1 p.inc.toNat else s
  | none => s

/-- PEER_JOIN (R277): the service block writes a peer's entry, and that of its mirror copy when it has one. -/
def execPeerJoin (part pid : Nat) (entry entry2 : W64) (s : State) : Host.Outcome State Fault Refusal :=
  .next (
    if (smGet s.parts part).isNone || 4096 ≤ pid then s
    else
      let s := s.joinPeer part pid entry
      if peerV entry && peerSv entry then s.joinPeer part (peerSec entry) entry2 else s)

/-! Packets. -/

/-- An earlier request of the same stream to the same line is not over (R280): a later one stays at the egress until it is, so that
the destination performs them in the order of their SEQ by whatever links they go (R266; log 48). -/
def State.streamBusy (s : State) (r : FabReq) : Bool :=
  s.fab.any fun x => decide (x.2.out < r.out) && decide (x.2.p = r.p) && decide (x.2.pkt.dmod = r.pkt.dmod) &&
    decide (x.2.pkt.dtag = r.pkt.dtag) && decide (x.2.pkt.dspace = r.pkt.dspace) && !x.2.primary &&
    decide (x.2.pkt.va.toNat / 128 = r.pkt.va.toNat / 128)

/-- FABRIC_EGRESS_ROUTE (R276): a waiting packet crosses its link, or takes another way where the port has gone down; a request's
packet leaves by its port, is dropped there, or turns within the module. -/
def execFabricEgressRoute (id port : Nat) (s : State) : Host.Outcome State Fault Refusal :=
  .next (
    let s := s.noteWindow (5124 + port) (s.portItems port)
    match smGet s.egress id, smGet s.fab id with
    | some (f, det, k), _ =>
      let t := { s with egress := smDel s.egress id }
      if f ≠ port then s else if s.portUp f then t.leave f det k else t.emit k
    | none, none => s
    | none, some r =>
      if r.sent.isSome || r.primary || s.streamBusy r then s
      else
        let sent (s : State) : State := { s with fab := smSet s.fab id { r with sent := some s.time } }
        if r.pkt.dmod = Config.fabmod then
          match smGet s.parts r.pkt.dtag.toNat with
          | some p =>
            if p.inc = r.pkt.dinc then
              match (sent s).accept r.pkt with
              | some s => s
              | none => s
            else sent s
          | none => sent s
        else
          match s.routePkt r.pkt with
          | some (f, det) => if f = port then sent (s.leave f det r.pkt) else s
          | none => sent (s.dropPkt r.pkt))

/-- A port's ingress admits a packet (R278). -/
def State.admits (s : State) (port : Nat) (k : FabPkt) : Bool :=
  match smGet s.parts k.dtag.toNat with
  | none => false
  | some p =>
    p.res.fabricPorts.contains port && decide (p.inc = k.dinc) && s.liveTags.contains k.dtag.toNat &&
      p.peers.any fun x => peerV x.2 && decide (peerMod x.2 = k.smod.toNat) && decide (peerTag x.2 = k.stag.toNat) && peerSt x.2 ≠ 1

/-- A packet of the reserved class is dropped at a port's ingress and counted (R275). -/
def State.ingressDrop (s : State) (port : Nat) : State :=
  { s with portDrop := smSet s.portDrop port (satCount (smGetD s.portDrop port 0)) }

/-- A packet that a port does not admit is dropped, counted in its TAGDROP counter and logged (R99, R278). -/
def State.tagDropPkt (s : State) (port : Nat) (k : FabPkt) : State :=
  { s with portTag := smSet s.portTag port (satCount (smGetD s.portTag port 0)) }.logSvc cTagDrop port k.ssite.toNat k.dtag.toNat

/-- A control packet (R275): a congestion mark, a reset notice, a probe and its reply. -/
def State.control (s : State) (k : FabPkt) : State :=
  match k.opc.toNat with
  | 0 => if k.ssite.toNat < 4096 && !isSliceSite k.ssite.toNat then s.mark (.fabric (clusterAt k.ssite.toNat) k.smod.toNat) else s
  | 1 => s.resetNotice k.smod.toNat k.stag.toNat
  | 2 => s.emit { s.replyPkt k (ackOk []) with cls := 5, opc := 3 }
  | 3 => s.peerAlive k.dtag.toNat k.smod.toNat k.stag.toNat
  | _ => s

/-- A reply packet at its source (R275, R294): any reply returns the peer's entries to UP, also one that comes too late. -/
def State.replied (s : State) (k : FabPkt) : State :=
  let s := s.peerAlive k.dtag.toNat k.smod.toNat k.stag.toNat
  match s.fabNamed k.dtag.toNat k.ssite.toNat k.txn.toNat with
  | some id => s.fabAck id
      { ended := decide (k.cls = 4) && decide (k.opc = 1), cause := ((k.data.headD 0).setWidth 7), data := k.data, pz := k.pz }
  | none => s

/-- FABRIC_INGRESS (R275, R276, R278, R279): a packet arrives at a port. -/
def execFabricIngress (port : Nat) (pkt : FabPkt) (s : State) : Host.Outcome State Fault Refusal :=
  .next (
    let s := s.retryInbound
    if !s.portUp port then s
    else if pkt.cls = 7 then s.ingressDrop port
    else if pkt.dmod ≠ Config.fabmod then s.emit pkt
    else if pkt.cls = 6 then s.service pkt
    else if !s.admits port pkt then s.tagDropPkt port pkt
    else if pkt.cls = 5 then s.control pkt
    else if pkt.cls = 3 || pkt.cls = 4 then s.replied pkt
    else (s.accept pkt).getD s)

/-- FABRIC_ACK (R286, R288, R291, R297): the answer to a request arrives at its source. -/
def execFabricAck (id : Nat) (ack : FabAck) (s : State) : Host.Outcome State Fault Refusal := .next (s.fabAck id ack)

/-- FABRIC_TIMEOUT (R294, R295, R298): a request has had no reply for `%fabtmo` ns. -/
def execFabricTimeout (id : Nat) (s : State) : Host.Outcome State Fault Refusal :=
  .next (
    match smGet s.fab id with
    | none => s
    | some r =>
      match r.sent, smGet s.parts r.part with
      | some t, some p =>
        let tmo := p.fabtmo.toNat
        if r.primary || s.time < t + tmo then s
        else
          let pid := s.fabTarget r
          let e := s.peer r.part pid
          let s := if peerSt e = 1 then s else s.setPeer r.part pid (peerSetSt e 2)
          let s := { s with txnHold := s.txnHold ++ [(4096 * r.p + r.pkt.txn.toNat, s.time + 2 * tmo)] }
          s.fabLost id r cFabricTimeout
      | _, _ => s)

/-! Links (R273). -/

/-- LINK_TRAIN (R273): a link trains with its partner, a key is agreed for it, and its port is up; a port declared down stays down
(R16). What crosses the link encrypted cannot be seen here, so a key is a number (log 6). -/
def execLinkTrain (port : Nat) (ok : Bool) (partner : Nat) (s : State) : Host.Outcome State Fault Refusal :=
  .next (
    let right := (match Sys2Proof.Machine.partner Config.fabmod.toNat port with | some m => decide (m = partner) | none => false)
    if Config.fabricPorts ≤ port || !ok || !right || s.failed.contains (.fp, port) then s
    else { s.fresh with fpRdy := nsAdd port s.fpRdy, replays := smDel s.replays port, linkKey := smSet s.linkKey port s.nextId })

/-- LINK_FLIT_RETRY (R273): a flit is replayed, well or not; the eighth failure declares the port down. -/
def execLinkFlitRetry (port : Nat) (ok : Bool) (s : State) : Host.Outcome State Fault Refusal :=
  .next (
    if !s.portUp port then s
    else if ok then { s with replays := smDel s.replays port }
    else
      let n := smGetD s.replays port 0 + 1
      if 8 ≤ n then
        { s with fpRdy := nsDel port s.fpRdy, failed := s.failed ++ [(.fp, port)], replays := smDel s.replays port }
      else { s with replays := smSet s.replays port n })

/-- WCB_AGE_DRAIN (R283, R288): a line drains once its ageing time has passed. -/
def execWcbAgeDrain (p key : Nat) (s : State) : Host.Outcome State Fault Refusal :=
  .next (
    match (s.cluster p).wcb[key]? with
    | none => s
    | some w =>
      let age := (match smGet s.parts w.part with | some x => fld x.wcbage 3 0 | none => 4)
      if w.first + 64 * 2 ^ age ≤ s.time then s.drainLine p w else s)

end Sys2Proof.Machine
end

