-- ==== Sys2Proof/Machine/MxCard.lean ====
section
/-!
DEFINITION. Sys2Proof/Machine/MxCard.lean: the job card (R205 to R207, R218, R220): fields, checks, walk and ranges.
-/

namespace Sys2Proof.Machine

/-! Fields (R206). -/

/-- Bits `hi` to `lo` of word `i` of a card. -/
def cf (c : List W64) (i hi lo : Nat) : Nat := fld (dw c i) hi lo
/-- A flag of word 0. -/
def cbit (c : List W64) (n : Nat) : Bool := (dw c 0).getLsbD n
/-- AFMT. -/
def mAfmt (c : List W64) : Nat := cf c 0 63 60
/-- BFMT. -/
def mBfmt (c : List W64) : Nat := cf c 0 59 56
/-- OFMT. -/
def mOfmt (c : List W64) : Nat := cf c 0 55 52
/-- ASRC. -/
def mAsrc (c : List W64) : Nat := cf c 0 51 50
/-- BSRC. -/
def mBsrc (c : List W64) : Nat := cf c 0 49 49
/-- CDST. -/
def mCdst (c : List W64) : Nat := cf c 0 48 47
/-- ZA. -/
def mZa (c : List W64) : Bool := cbit c 46
/-- KEEP. -/
def mKeep (c : List W64) : Bool := cbit c 45
/-- BANK. -/
def mBank (c : List W64) : Nat := cf c 0 44 44
/-- ARL. -/
def mArl (c : List W64) : Bool := cbit c 43
/-- EPI. -/
def mEpi (c : List W64) : Nat := cf c 0 42 41
/-- SAT. -/
def mSat (c : List W64) : Bool := cbit c 40
/-- AEPI. -/
def mAepi (c : List W64) : Nat := cf c 0 39 38
/-- ASAT. -/
def mAsat (c : List W64) : Bool := cbit c 37
/-- SPAR. -/
def mSpar (c : List W64) : Bool := cbit c 36
/-- SCX. -/
def mScx (c : List W64) : Int := sext 8 (cf c 0 35 28)
/-- ASCX. -/
def mAscx (c : List W64) : Int := sext 8 (cf c 0 27 20)
/-- BRE. -/
def mBre (c : List W64) : Bool := cbit c 19
/-- CFE. -/
def mCfe (c : List W64) : Bool := cbit c 18
/-- CFL. -/
def mCfl (c : List W64) : Nat := cf c 0 17 14
/-- BAR. -/
def mBar (c : List W64) : Nat := cf c 0 13 2
/-- TAG. -/
def mTag (c : List W64) : Nat := cf c 1 63 48
/-- PRED0. -/
def mPred0 (c : List W64) : Nat := cf c 1 47 32
/-- PRED1. -/
def mPred1 (c : List W64) : Nat := cf c 1 31 16
/-- MCMASK. -/
def mMask (c : List W64) : Nat := cf c 1 15 0
/-- M. -/
def mM (c : List W64) : Nat := cf c 5 63 56 + 1
/-- N. -/
def mN (c : List W64) : Nat := cf c 5 55 48 + 1
/-- ROW0. -/
def mRow0 (c : List W64) : Nat := cf c 5 47 40
/-- COL0. -/
def mCol0 (c : List W64) : Nat := cf c 5 39 32
/-- KS. -/
def mKs (c : List W64) : Nat := 8 * cf c 5 31 20
/-- BSOFF. -/
def mBsoff (c : List W64) : Int := sext 16 (cf c 5 15 0)
/-- 16 × ALD. -/
def mAld (c : List W64) : Nat := 16 * cf c 6 63 48
/-- 16 × BLD. -/
def mBld (c : List W64) : Nat := 16 * cf c 6 47 32
/-- 16 × CLD. -/
def mCld (c : List W64) : Nat := 16 * cf c 6 31 16
/-- ASOFF. -/
def mAsoff (c : List W64) : Int := sext 16 (cf c 6 15 0)
/-- max(CNT_l, 1). -/
def mCnt (c : List W64) (l : Nat) : Nat :=
  max 1 (if l = 4 then cf c 15 63 48 else cf c 7 (16 * l + 15) (16 * l))
/-- SA_l. -/
def mSa (c : List W64) (l : Nat) : Int := sext 32 (cf c (8 + l) 31 0)
/-- SB_l. -/
def mSb (c : List W64) (l : Nat) : Int := sext 32 (cf c (8 + l) 63 32)
/-- SC_l: words 13 and 14 hold the lower level in their low half. -/
def mSc (c : List W64) (l : Nat) : Int :=
  if l = 4 then sext 32 (cf c 15 31 0)
  else if l % 2 = 0 then sext 32 (cf c (13 + l / 2) 31 0)
  else sext 32 (cf c (13 + l / 2) 63 32)
/-- 4,096 × STG. -/
def mStg (c : List W64) : Nat := 4096 * cf c 15 47 32
/-- ABASE: a VA, a stash offset, or an element offset of the source bank. -/
def mAbase (c : List W64) : Nat :=
  match mAsrc c with
  | 0 => cf c 2 31 0
  | 2 => cf c 2 15 0
  | _ => (dw c 2).toNat
/-- Source bank of a chained A. -/
def mSrc (c : List W64) : Nat := cf c 2 16 16
/-- BBASE. -/
def mBbase (c : List W64) : Nat := if mBsrc c = 0 then cf c 3 31 0 else (dw c 3).toNat
/-- CBASE: a stash offset, a VA or a channel. -/
def mCbase (c : List W64) : Nat :=
  match mCdst c with
  | 0 => cf c 4 31 0
  | 2 => cf c 4 2 0
  | _ => (dw c 4).toNat

/-! Formats (R205). -/

/-- Half bytes in an element. -/
def fmtHalf : Nat → Nat
  | 0 | 10 => 8
  | 1 | 2 => 4
  | 7 | 9 => 1
  | _ => 2

/-- Bytes in an element of an output format. -/
def fmtBytes (f : Nat) : Nat := fmtHalf f / 2

/-- Bytes of `n` elements. -/
def elBytes (f n : Nat) : Nat := (n * fmtHalf f + 1) / 2

/-- Group of a format; 5 for a code that no operand has. -/
def fmtGroup : Nat → Nat
  | 0 => 0
  | 1 | 2 => 1
  | 3 | 4 => 2
  | 5 | 6 | 7 => 3
  | 8 | 9 => 4
  | _ => 5

/-- An MX format. -/
def fmtMx (f : Nat) : Bool := decide (fmtGroup f = 3)

/-- An integer job. -/
def mInt (c : List W64) : Bool := decide (fmtGroup (mAfmt c) = 4)

/-- Block size (R158). -/
def mBlock (c : List W64) : Nat :=
  match fmtGroup (mAfmt c) with
  | 0 => 8
  | 1 => 16
  | _ => 32

/-- Stored bytes in a block of an MX operand, 2^s (R208). -/
def mxBlockBytes (f : Nat) (spar : Bool) : Nat := elBytes f 32 / (if spar then 2 else 1)

/-! The walk (R209). -/

/-- Steps of a card. -/
def mSteps (c : List W64) : Nat := mCnt c 0 * mCnt c 1 * mCnt c 2 * mCnt c 3 * mCnt c 4

/-- Index of level `l` in step `n`: level 0 runs fastest. -/
def mIdx (c : List W64) (n l : Nat) : Nat := (n / (List.range l).foldl (fun y i => y * mCnt c i) 1) % mCnt c l

/-- A sum over the levels. -/
def mSum (c : List W64) (n : Nat) (st : List W64 → Nat → Int) : Int :=
  (List.range 5).foldl (fun y l => y + mIdx c n l * st c l) 0

/-- Accumulator offset of a step. -/
def mOff (c : List W64) (n : Nat) : Int := 256 * mRow0 c + mCol0 c + mSum c n mSc

/-- The least and the greatest value of a sum over the levels. -/
def mSpan (c : List W64) (st : List W64 → Nat → Int) : Int × Int :=
  (List.range 5).foldl (fun y l =>
    let d := ((mCnt c l - 1 : Nat) : Int) * st c l
    (y.1 + min 0 d, y.2 + max 0 d)) (0, 0)

/-- The least and the greatest of a function of the steps. -/
def mExtreme (c : List W64) (g : Nat → Int) : Int × Int :=
  forN (mSteps c) (g 0, g 0) fun n y => (min y.1 (g n), max y.2 (g n))

/-- The output rectangle (R213), or that of a drain (R220): first row, rows, first column, columns. -/
def mRect (drain : Bool) (c : List W64) : Int × Nat × Int × Nat :=
  if drain then (mRow0 c, mM c, mCol0 c, mN c)
  else
    let r := mExtreme c fun n => mOff c n / 256
    let q := mExtreme c fun n => mOff c n % 256
    (r.1, (r.2 - r.1).toNat + mM c, q.1, (q.2 - q.1).toNat + mN c)

/-! Checks (R207, R218, R220). -/

/-- Bytes of the staging area (R218). -/
def mStaging (c : List W64) : Nat :=
  let a := mM c * mKs c
  let b := mN c * mKs c
  2 * (elBytes (mAfmt c) a + elBytes (mBfmt c) b + (if fmtMx (mAfmt c) then a / 32 else 0) +
    (if fmtMx (mBfmt c) then b / 32 else 0) + (if mSpar c then b / 8 else 0))

/-- An MX operand whose strides are not whole blocks. -/
def mxStrides (c : List W64) (f ld : Nat) (spar : Bool) (st : List W64 → Nat → Int) : Bool :=
  let m := mxBlockBytes f spar
  fmtMx f && (ld % m ≠ 0 || (List.range 5).any fun l => st c l % m ≠ 0)

/-- What cards and drains share of R207, fields that the use does not name being zero (R206); `team` is the size of the crew's
team, 0 without one. -/
def mOutInvalid (c : List W64) (sync chan team : Nat) : Bool :=
  mCdst c = 3 || (if mCfe c then decide (11 < mCfl c) else mCfl c ≠ 0) || (if mBre c then decide (sync ≤ mBar c) else mBar c ≠ 0) ||
    (mCdst c = 0 && cf c 4 63 32 ≠ 0) ||
    (mCdst c = 2 && (decide (chan ≤ (dw c 4).toNat) || mCld c ≠ 0 || mMask c ≠ 0)) ||
    (mMask c ≠ 0 && (mCdst c ≠ 0 || team = 0 || mMask c / 2 ^ team ≠ 0))

/-- A card breaks its form (R207); word 15's STG belongs to team cards only (R206). -/
def mCardInvalid (c : List W64) (x : Crew) (isTeam : Bool) : Bool :=
  let a := mAfmt c
  let b := mBfmt c
  let o := mOfmt c
  let team := x.tw * x.th
  cf c 0 1 0 ≠ 0 || cf c 5 19 16 ≠ 0 || fmtGroup a = 5 || fmtGroup a ≠ fmtGroup b || mAsrc c = 3 ||
    (if mInt c then decide (o ∉ [0, 1, 2, 10]) || (o = 10 && (mScx c ≠ 0 || decide (1 < mEpi c))) else decide (4 < o)) ||
    mKs c = 0 || (fmtMx a && mKs c % 32 ≠ 0) ||
    mxStrides c b (mBld c) (mSpar c) mSb || (mAsrc c ≠ 2 && mxStrides c a (mAld c) false mSa) ||
    (mAsrc c = 0 && cf c 2 63 32 ≠ 0) || (mBsrc c = 0 && cf c 3 63 32 ≠ 0) ||
    (!fmtMx a && mAsoff c ≠ 0) || (!fmtMx b && mBsoff c ≠ 0) ||
    (mKeep c && (o ≠ 0 || mCdst c ≠ 0 || dw c 4 ≠ 0 || mCld c ≠ 0 || mEpi c ≠ 0 || mSat c || mScx c ≠ 0 || mMask c ≠ 0)) ||
    (if mAsrc c = 2 then
        decide (a ∉ [1, 3, 4, 5, 6]) || cf c 2 63 17 ≠ 0 || mSrc c = mBank c || mAsoff c ≠ 0 || mAld c ≠ 0 || decide (256 < mKs c)
      else mAepi c ≠ 0 || mAsat c || mAscx c ≠ 0 || mArl c) ||
    mOutInvalid c x.sync x.chan team ||
    (if isTeam then
        team = 0 || mAsrc c = 0 || mBsrc c = 0 || mCdst c = 2 || mMask c ≠ 0 || decide (1024 < x.th * mM c) ||
          decide (1024 < x.tw * mN c) || decide (x.dOff < mStg c + mStaging c)
      else mStg c ≠ 0)

/-- A drain breaks its form (R220). -/
def mDrainInvalid (c : List W64) (x : Crew) : Bool :=
  cf c 0 63 56 ≠ 0 || cf c 0 51 49 ≠ 0 || mZa c || mArl c || cf c 0 39 36 ≠ 0 || cf c 0 27 20 ≠ 0 || cf c 0 1 0 ≠ 0 ||
    dw c 2 ≠ 0 || dw c 3 ≠ 0 || cf c 5 31 0 ≠ 0 || cf c 6 63 32 ≠ 0 || cf c 6 15 0 ≠ 0 ||
    ((List.range 9).any fun i => dw c (7 + i) ≠ 0) || decide (mOfmt c ∉ [0, 1, 2, 3, 4, 10]) ||
    decide (256 < mRow0 c + mM c) || decide (256 < mCol0 c + mN c) || mOutInvalid c x.sync x.chan (x.tw * x.th)

/-! Ranges (R210, R215). -/

/-- A range that a card reads or writes: global or in the stash, first byte and the byte after the last, written. -/
structure MxRange where
  glob : Bool
  lo : Int
  hi : Int
  wr : Bool
  deriving DecidableEq, Repr, Inhabited

/-- Shift of A for member `v` rows down, and of B for member `u` columns across (R218). -/
def mShiftA (c : List W64) (v : Nat) : Nat := if mAsrc c = 2 then 0 else mAld c * (v * mM c)
/-- See `mShiftA`. -/
def mShiftB (c : List W64) (u : Nat) : Nat := mBld c * (u * mN c)
/-- Output address of member (u, v) (R218). -/
def mOutBase (c : List W64) (u v : Nat) : Nat :=
  if mCdst c = 1 then mCbase c + mCld c * (v * mM c) + u * mN c * fmtBytes (mOfmt c) else mCbase c

/-- Stored bytes in a row of A. -/
def mRowA (c : List W64) : Nat := elBytes (mAfmt c) (mKs c)
/-- Stored element bytes in a column of B, without metadata (R208). -/
def mColB (c : List W64) : Nat := elBytes (mBfmt c) (mKs c / (if mSpar c then 2 else 1))

/-- The ranges of A, of its scale plane, of B, of its scale plane and of its metadata, for a team member (R208, R210). -/
def mSources (c : List W64) (u v : Nat) : List MxRange :=
  let ga := decide (mAsrc c = 1)
  let gb := decide (mBsrc c = 1)
  let sa := mSpan c mSa
  let sb := mSpan c mSb
  let a0 : Int := mAbase c + mShiftA c v
  let b0 : Int := mBbase c + mShiftB c u
  let alo := a0 + sa.1
  let ahi := a0 + sa.2 + mAld c * (mM c - 1) + mRowA c
  let blo := b0 + sb.1
  let bhi := b0 + sb.2 + mBld c * (mN c - 1) + mColB c
  let plane (g : Bool) (base : Nat) (off : Int) (n : Nat) (lo hi : Int) : MxRange :=
    let p := base + 128 * off
    { glob := g, lo := p + (lo - base) / n, hi := p + (hi - 1 - base) / n + 1, wr := false }
  (if mAsrc c = 2 then []
   else
    { glob := ga, lo := alo, hi := ahi, wr := false } ::
      (if fmtMx (mAfmt c) then [plane ga (mAbase c) (mAsoff c) (mxBlockBytes (mAfmt c) false) alo ahi] else [])) ++
  [{ glob := gb, lo := blo, hi := bhi, wr := false }] ++
  (if fmtMx (mBfmt c) then [plane gb (mBbase c) (mBsoff c) (mxBlockBytes (mBfmt c) (mSpar c)) blo bhi] else []) ++
  (if mSpar c then [{ glob := gb, lo := blo + mColB c, hi := bhi + mKs c / 8, wr := false }] else [])

/-- The output range in the stash or in global memory (R210, R213). -/
def mOutput (drain : Bool) (c : List W64) (u v : Nat) : List MxRange :=
  if (!drain && mKeep c) || mCdst c = 2 then []
  else
    let r := mRect drain c
    let b : Int := mOutBase c u v
    [{ glob := decide (mCdst c = 1), lo := b, wr := true,
       hi := b + mCld c * (r.2.1 - 1 : Nat) + r.2.2.2 * fmtBytes (mOfmt c) }]

/-- The check of a range at the post (R56, R105, R421). -/
def MxRange.fault (x : Crew) (r : MxRange) : Option Cause :=
  if r.glob then globalRange r.lo (r.hi - r.lo).toNat else stashRange x r.lo (r.hi - r.lo).toNat r.wr

/-- The chuck entry of a range (R210). -/
def MxRange.rng (x : Crew) (slot ord : Nat) (r : MxRange) : Rng :=
  { cpRng x (!r.glob) (r.lo, r.hi) r.wr slot ord with eng := 1 }

/-- Member coordinates (u, v) of a team member (R218). -/
def uvOf (w m : Nat) : Nat × Nat := (m % w, m / w)

end Sys2Proof.Machine
end

