-- ==== Sys2Proof/Machine/MxMath.lean ====
section
/-!
DEFINITION. Sys2Proof/Machine/MxMath.lean: the arithmetic of the matrix engine on exact values: operand elements, block sums
and accumulators (R158 to R160, R208, R209, R461), the down-converter (R211, R212).
-/

namespace Sys2Proof.Machine

/-- An operand element: its value, for floating and for integer jobs, and its poison (R461); `absent` one that 2:4 structure
leaves out (R208). -/
structure MxEl where
  fv : FV
  iv : Int
  pz : Bool
  absent : Bool

/-- The element that bits of a format stand for; a subnormal BF16 operand is a zero (R159). -/
def mxDecode (f x : Nat) (pz : Bool) : MxEl :=
  let fv := if f = 1 && decide (x / 128 % 256 = 0) then .fin (decide (32768 ≤ x)) 0 0 else fvOf (fmtFF f) x
  { fv := fv, iv := if f = 9 then sext 4 x else sext 8 x, pz := pz, absent := false }

/-- Element `i` of stored bytes (R146, R149, R205). -/
def mxStored (f : Nat) (d : List PByte) (i : Nat) : MxEl :=
  let h := fmtHalf f
  if h = 1 then
    let b := d.getD (i / 2) (0, false)
    mxDecode f (if i % 2 = 0 then b.1.toNat % 16 else b.1.toNat / 16) b.2
  else
    let n := h / 2
    let l := (d.drop (i * n)).take n
    mxDecode f (natOfBytes (l.map Prod.fst)) (l.any Prod.snd)

/-- An element with its block's scale (R149, R158): NaN when the scale is 0xFF. -/
def MxEl.scaled (e : MxEl) (x : PByte) : MxEl :=
  { e with fv := if x.1 = 0xFF then .nan else fvScale e.fv ((x.1.toNat : Int) - 127), pz := e.pz || x.2 }

/-- An exact product (R158): an absent element gives +0. -/
def mxProduct (a b : MxEl) : FV × Int × Bool :=
  if b.absent then (.fin false 0 0, 0, b.pz) else (fvMul a.fv b.fv, a.iv * b.iv, a.pz || b.pz)

/-- One element's update by the blocks of a step (R160, R209, R461): `x` its bits and poison before. -/
def mxUpdate (int : Bool) (block ks : Nat) (a b : Nat → MxEl) (x : W32 × Bool) : W32 × Bool :=
  forN ((ks + block - 1) / block) x fun j x =>
    let p := (List.range (min block (ks - j * block))).map fun k => mxProduct (a (j * block + k)) (b (j * block + k))
    let pz := x.2 || p.any fun y => y.2.2
    if int then (x.1 + BitVec.ofInt 32 (p.foldl (fun n y => n + y.2.1) 0), pz)
    else
      let miss : List FV := List.replicate (block - p.length) (.fin false 0 0)
      (accUpdate x.1 (alignedSum (p.map (fun y => y.1) ++ miss)), pz)

/-! Banks. -/

/-- An element of a bank with its poison. -/
def Bank.get (b : Bank) (i : Nat) : W32 × Bool := (smGetD b.acc i 0, b.pz.contains i)

/-- Writes an element of a bank. -/
def Bank.put (b : Bank) (i : Nat) (x : W32 × Bool) : Bank :=
  { b with acc := if x.1 = 0 then smDel b.acc i else smSet b.acc i x.1,
           pz := if x.2 then nsAdd i b.pz else nsDel i b.pz }

/-- The exact value of an element as the down-converter reads it (R211). -/
def Bank.value (b : Bank) (i : Nat) : FV :=
  if b.int32 then fvOfInt (sext 32 (b.get i).1.toNat) else fvOf ffF32 (b.get i).1.toNat

/-- Epi (R212) with the target format. -/
def mxEpi (e : Nat) (f : FF) (y : FV) : FV :=
  let lim (m : FV) : FV :=
    match fvCmp y m with
    | some .gt => m
    | _ =>
      match fvCmp y (fvNeg m) with
      | some .lt => fvNeg m
      | _ => y
  match e with
  | 0 => y
  | 1 =>
    (match fvCmp y (.fin false 0 0) with
      | some .gt | none => y
      | _ => .fin false 0 0)
  | 2 =>
    (match fvCmp y (.fin false 0 0), fvCmp y (.fin false 6 0) with
      | some .lt, _ => .fin false 0 0
      | _, some .gt => .fin false 6 0
      | _, _ => y)
  | _ => if y = .nan then .fin false 0 0 else lim (fvOf f f.maxFin)

/-- A written-out value's bits (R212, R213). -/
def mxOut (c : List W64) (b : Bank) (i : Nat) : Nat :=
  let f := mOfmt c
  if f = 10 then
    let y := if b.int32 then b.value i else fvScale (b.value i) (mScx c)
    (fvClampInt (mxEpi (mEpi c) ffF32 y) 0 (-(2 ^ 31)) (2 ^ 31 - 1) % 2 ^ 32).toNat
  else roundFloat (mxEpi (mEpi c) (fmtFF f) (fvScale (b.value i) (mScx c))) (fmtFF f) 0 (mSat c)

/-- A chained row (R211): the elements of A that a row of bank elements gives. -/
def mxChained (c : List W64) (row : List (FV × Bool)) : List MxEl :=
  let f := mAfmt c
  let el (v : FV) (p : Bool) : MxEl := { fv := v, iv := 0, pz := p, absent := false }
  if fmtMx f then
    let ys := row.map fun y =>
      fvOf ffF32 (roundFloat (mxEpi (mAepi c) ffF32 (fvScale y.1 (mAscx c))) ffF32 0 (mAsat c))
    (List.range (row.length / 32)).flatMap fun j =>
      let q := mxQuant ((ys.drop (32 * j)).take 32) (fmtFF f)
      q.2.zipIdx.map fun z =>
        let v : MxEl := (mxDecode f z.1 (row.getD (32 * j + z.2) (.nan, false)).2)
        v.scaled (BitVec.ofNat 8 q.1, false)
  else
    row.map fun y =>
      mxDecode f (roundFloat (mxEpi (mAepi c) (fmtFF f) (fvScale y.1 (mAscx c))) (fmtFF f) 0 (mAsat c)) y.2
      |> fun e => el e.fv e.pz

/-- The bits of a metadata nibble (R208) and its poison. -/
def mxNibble (m : List PByte) (g : Nat) : Nat × Bool :=
  let b := m.getD (g / 2) (0, false)
  (if g % 2 = 0 then b.1.toNat % 16 else b.1.toNat / 16, b.2)

/-- Some nibble of a column's metadata has a ≥ b (R208). -/
def mxBadMeta (m : List PByte) : Bool :=
  (List.range (2 * m.length)).any fun g => decide ((mxNibble m g).1 / 4 ≤ (mxNibble m g).1 % 4)

/-- Element `k` of a column of B with 2:4 structure (R208). -/
def mxSparse (f : Nat) (d m : List PByte) (k : Nat) : MxEl :=
  let n := mxNibble m (k / 4)
  let pick (i : Nat) : MxEl := let e := mxStored f d i; { e with pz := e.pz || n.2 }
  if k % 4 = n.1 % 4 then pick (2 * (k / 4))
  else if k % 4 = n.1 / 4 then pick (2 * (k / 4) + 1)
  else { fv := .fin false 0 0, iv := 0, pz := n.2, absent := true }

end Sys2Proof.Machine
end

