-- ==== Sys2Proof/Machine/Mandrel.lean ====
section
/-!
DEFINITION. Sys2Proof/Machine/Mandrel.lean: the mandrel (R204, R214 to R223): acceptance, predecessors, start, ends, status
and cancellation of cards, drains, `mx.zero` jobs and team cards.
-/

namespace Sys2Proof.Machine

/-! Entries. -/

/-- Changes an entry. -/
def State.modMx (s : State) (p slot : Nat) (f : MxEnt → MxEnt) : State :=
  s.modCluster p fun c => { c with mx := smMod c.mx slot f }

/-- Every entry with its cluster and slot. -/
def State.mxEntries (s : State) : List (Nat × Nat × MxEnt) :=
  s.clusters.flatMap fun x => x.2.mx.map fun y => (x.1, y.1, y.2)

/-- The entries of one acceptance: a card alone, or the sub-jobs of a team card (R218). -/
def State.mxParts (s : State) (e : MxEnt) : List (Nat × Nat × MxEnt) :=
  s.mxEntries.filter fun x => decide (x.2.2.ord = e.ord)

/-- The sub-job on the posting crew's own cluster, which the handle names (R218). -/
def MxEnt.lead (e : MxEnt) : Bool := match e.member with | some (_, i) => decide (i = e.cid) | none => true

/-- The state of a list of parts as one card (R218). -/
def wholeSt (l : List JobSt) : JobSt :=
  if .failed ∈ l then .failed
  else if .cancelled ∈ l then .cancelled
  else if .saved ∈ l then .saved
  else if l.all fun x => decide (x = .done) then .done
  else if l.all fun x => decide (x = .queued) then .queued
  else .running

/-- The state of a card as a whole. -/
def State.mxWhole (s : State) (e : MxEnt) : JobSt :=
  match e.member with
  | none => e.st
  | some _ => wholeSt ((s.mxParts e).map fun x => x.2.2.st)

/-- The crew that holds the banks of an entry: a team member's own crew for a sub-job (R219). -/
def MxEnt.owner (e : MxEnt) : Nat := match e.member with | some (_, i) => i | none => e.cid

/-- Members of a crew's team, 0 without one. -/
def Crew.team (c : Crew) : Nat := c.tw * c.th

/-- A Floating card (R217). -/
def State.mxFloats (s : State) (e : MxEnt) : Bool :=
  match smGet s.crews e.cid with
  | some c =>
    decide (e.kind = .card) && decide (c.team ≠ 0) && mAsrc e.card = 1 && mBsrc e.card = 1 && mCdst e.card = 1 && mZa e.card &&
      !mKeep e.card && mMask e.card = 0
  | none => false

/-- Banks that an entry computes into, or reads by a drain (R204, R221). -/
def MxEnt.results (e : MxEnt) : List Nat :=
  if e.kind = .zero then (List.range 2).filter fun b => (dw e.card 0).getLsbD b else [mBank e.card]

/-- The chained source bank (R211). -/
def MxEnt.source (e : MxEnt) : Option Nat :=
  if (e.kind = .card || e.kind = .team) && mAsrc e.card = 2 then some (mSrc e.card) else none

/-- Banks that an entry names (R210). -/
def MxEnt.names (e : MxEnt) : List Nat := e.results ++ e.source.toList

/-- Bank `b` of a cluster. -/
def Cluster.bank (c : Cluster) (b : Nat) : Bank := if b = 0 then c.bank0 else c.bank1

/-- Changes bank `b` of a cluster. -/
def State.modBank (s : State) (p b : Nat) (f : Bank → Bank) : State :=
  s.modCluster p fun c => if b = 0 then { c with bank0 := f c.bank0 } else { c with bank1 := f c.bank1 }

/-- Coordinates of a member in its team (R218). -/
def State.mxUV (s : State) (e : MxEnt) : Nat × Nat :=
  match e.member, smGet s.crews e.cid with
  | some (m, _), some c => uvOf c.tw m
  | _, _ => (0, 0)

/-- The walk of a card is over. -/
def MxEnt.walked (e : MxEnt) : Bool := decide (mSteps e.card ≤ e.steps)

/-- An entry that writes out, or is about to (R213, R220). -/
def MxEnt.writes (e : MxEnt) : Bool := decide (e.kind = .drain) || (decide (e.kind ≠ .zero) && e.walked && !mKeep e.card)

/-! Output. -/

/-- Pieces of one granule stand together: rows that share a granule land in it at once (R5, R213). -/
def joinPieces : List Piece → List (List Piece)
  | [] => []
  | y :: r =>
    match joinPieces r with
    | (z :: l) :: q => if y.dst / 32 = z.dst / 32 then (y :: z :: l) :: q else [y] :: (z :: l) :: q
    | q => [y] :: q

/-- The pieces of an output rectangle for one receiver: bytes of a row within a 32-byte granule (R213). -/
def State.mxPieces (s : State) (e : MxEnt) : List Piece :=
  let r := mRect (decide (e.kind = .drain)) e.card
  let uv := s.mxUV e
  let n := r.2.2.2 * fmtBytes (mOfmt e.card)
  (List.range r.2.1).flatMap fun i =>
    cutRow i ((mOutBase e.card uv.1 uv.2 + mCld e.card * i : Nat) : Int) (n / 32 + 2) 0 n

/-- The granules of an output rectangle for one receiver, each with the pieces of rows that lie in it (R213). -/
def State.mxGranules (s : State) (e : MxEnt) : List (List Piece) := joinPieces (s.mxPieces e)

/-- Words of a row pushed to a channel (R213). -/
def MxEnt.rowWords (e : MxEnt) : Nat :=
  ((mRect (decide (e.kind = .drain)) e.card).2.2.2 * fmtBytes (mOfmt e.card) + 127) / 128

/-- Receiving crews of an output (R213, R218). -/
def State.mxReceivers (s : State) (e : MxEnt) : List (Option Nat) :=
  match e.member, smGet s.crews e.cid with
  | some (_, i), _ => [if mCdst e.card = 0 then some i else some e.cid]
  | none, some c =>
    if mMask e.card = 0 then [some e.cid]
    else ((List.range 16).filter fun m => (mMask e.card).testBit m).map fun m => s.teamCrew c m
  | none, none => [none]

/-- Granules or words of a whole output. -/
def State.mxOutCount (s : State) (e : MxEnt) : Nat :=
  if mCdst e.card = 2 then (mRect (decide (e.kind = .drain)) e.card).2.1 * e.rowWords
  else (s.mxGranules e).length * (s.mxReceivers e).length

/-- Written bytes by receiver (R213). -/
def State.mxWritten (s : State) (e : MxEnt) : List (Option Nat × Nat) :=
  if mCdst e.card = 2 then [(some e.cid, 128 * e.out.length)]
  else
    let l := s.mxGranules e
    (s.mxReceivers e).zipIdx.map fun r =>
      (r.1, l.zipIdx.foldl (fun n y =>
        if e.out.contains (r.2 * l.length + y.2) then n + y.1.foldl (fun n z => n + z.n) 0 else n) 0)

/-- Written bytes of an entry (R213, R222): bytes of the rectangle, counted once whatever the number of receivers. Before the
output is complete, those that every receiver has (DEDUCED, log 34). -/
def State.mxBytes (s : State) (e : MxEnt) : Nat :=
  match s.mxWritten e with
  | [] => 0
  | r :: l => l.foldl (fun n y => min n y.2) r.2

/-- Written bytes of a card as a whole. -/
def State.mxTotal (s : State) (e : MxEnt) : Nat := (s.mxParts e).foldl (fun n x => n + s.mxBytes x.2.2) 0

/-! Ends (R204, R214, R218). -/

/-- Bytes added to the barriers of receiving crews (R214 step 3). -/
def State.mxBar (s : State) (e : MxEnt) (l : List (Option Nat × Nat)) : State :=
  if mBre e.card && decide (e.kind ≠ .zero) then
    forL l s fun r s => match r.1 with | some i => s.barAdd i (mBar e.card) r.2 | none => s
  else s

/-- A bank after its user has ended (R204, R211, R214). -/
def Bank.after (b : Bank) (held : Option Nat) : Bank :=
  match held with
  | some i => { b with st := 2, holder := some i }
  | none => { b with st := 0, holder := none }

/-- Banks that a running entry leaves as it ends. -/
def State.mxBanks (s : State) (e : MxEnt) (done : Bool) : State :=
  let keep := done && (if e.kind = .zero then !(dw e.card 0).getLsbD 2 else mKeep e.card)
  let s := forL e.results s fun b s => s.modBank e.eng b fun x => x.after (if keep then some e.owner else none)
  match e.source, e.member with
  | some b, none => s.modBank e.eng b fun x => x.after (if mArl e.card then none else some e.owner)
  | _, _ => s

/-- The banks of an entry that ends FAILED or CANCELLED before it started (R214): its result banks become FREE and its chained
source follows ARL where its own crew holds them; a bank refused by the checks of the start stays as it is (R204, R211). -/
def State.mxUnstarted (s : State) (e : MxEnt) (cause : Cause) : State :=
  if cause = cMxBankHeld || cause = cMxCardInvalid || s.mxFloats e then s
  else
    let drop (b : Nat) (s : State) : State :=
      s.modBank e.eng b fun x => if x.st = 2 && decide (x.holder = some e.owner) then x.after none else x
    let s := if e.kind = .drain then s else forL e.results s drop
    match e.source with
    | some b => if mArl e.card then drop b s else s
    | none => s

/-- Bytes of a member's staging area after its sub-job: the spec gives no layout, so each is a free value (R218). -/
def State.mxStaged (s : State) (e : MxEnt) : State :=
  match e.member.bind fun m => smGet s.crews m.2 with
  | some c =>
    if e.steps = 0 then s
    else
      s.writeBytes (c.stashAt (mStg e.card))
        ((List.range (mStaging e.card)).map fun i => (Config.random (s.tick + i)).extractLsb' 0 8) false
  | none => s

/-- The part of a receiver's window that an entry's rectangle lies in. -/
def State.mxSpan (s : State) (e : MxEnt) : Nat × Nat :=
  let l := s.mxPieces e
  let lo := l.foldl (fun n y => min n y.dst.toNat) ((l.head?.map fun y => y.dst.toNat).getD 0)
  (lo, l.foldl (fun n y => max n (y.dst.toNat + y.n)) 0 - lo)

/-- What an entry leaves in the windows of its receivers is published with it, or by a later one (R264). -/
def State.mxLeaves (s : State) (e : MxEnt) (st : JobSt) : State :=
  if !mBre e.card || mCdst e.card ≠ 0 || decide (e.kind = .zero) then s
  else
    forL (s.mxReceivers e) s fun r s =>
      match r, r.bind fun i => smGet s.crews i with
      | some i, some c =>
        if st = .done then s.dropEnded i (mBar e.card)
        else if e.out.isEmpty then s
        else s.noteEnded i (mBar e.card) (c.base + (s.mxSpan e).1) (s.mxSpan e).2
      | _, _ => s

/-- An entry ends: a card alone with steps 2 to 6 of R214, a sub-job with its own part of them. -/
def State.mxOver (s : State) (p slot : Nat) (e : MxEnt) (st : JobSt) (cause : Cause) : State :=
  let out := s.mxWritten e
  let total := s.mxBytes e
  let run := decide (e.st = .running)
  let s := s.modCluster p fun c => c.releaseChuck 1 slot
  let s := if run then s.mxStaged e else s
  let s := (if e.member.isNone || mCdst e.card = 0 then s.mxBar e out else s).mxLeaves e st
  let s := if e.member.isNone && decide (e.kind ≠ .zero) && mCfe e.card then s.lowerJobFlag e.cid e.co e.lane (mCfl e.card) else s
  let s := if run then s.mxBanks e (decide (st = .done)) else s.mxUnstarted e cause
  let s := s.modMx p slot fun e => { e with st := st, cause := cause, cancelPend := [], staged := [] }
  if e.member.isSome then s
  else
    let s := s.finishCancel e.cancelPend total
    if st = .failed then s.fatal e.cid cause 0 (cpHandle e.serial slot).toNat else s

/-- A team card ends once every sub-job has (R218, R219). -/
def State.mxTeamOver (s : State) (e : MxEnt) : State :=
  let parts := s.mxParts e
  let st := s.mxWhole e
  if !st.over || !(parts.all fun x => x.2.2.st.over) then s
  else
    let s := if mCdst e.card = 0 then s else s.mxBar e [(some e.cid, s.mxTotal e)]
    let s := if mCfe e.card then s.lowerJobFlag e.cid e.co e.lane (mCfl e.card) else s
    let s := match e.source with
      | some b =>
        forL parts s fun x s =>
          if x.2.2.srcOk.isSome then s.modBank x.1 b fun y => y.after (if mArl e.card then none else some x.2.2.owner) else s
      | none => s
    let s := s.finishCancel (parts.flatMap fun x => x.2.2.cancelPend) (s.mxTotal e)
    match st, parts.find? fun x => decide (x.2.2.st = .failed), parts.find? fun x => x.2.2.lead with
    | .failed, some f, some l => s.fatal e.cid f.2.2.cause 0 (cpHandle l.2.2.serial l.2.1).toNat
    | _, _, _ => s

/-- A part of a card ends DONE. -/
def State.mxDone (s : State) (p slot : Nat) (e : MxEnt) : State :=
  let s := s.mxOver p slot e .done 0
  if e.member.isSome then s.mxTeamOver e else s

/-- A card ends FAILED or CANCELLED: for a team card the other sub-jobs are cancelled, and banks that finished ones keep
become FREE (R214, R218). -/
def State.mxEndAll (s : State) (p slot : Nat) (e : MxEnt) (st : JobSt) (cause : Cause) : State :=
  let s := s.mxOver p slot e st cause
  if e.member.isNone then s
  else
    let s := forL (s.mxParts e) s fun x s =>
      if x.2.2.st.over then
        if x.2.2.st = .done && mKeep e.card then
          s.modBank x.2.2.eng (mBank e.card) fun b =>
            if b.st = 2 && decide (b.holder = some x.2.2.owner) then b.after none else b
        else s
      else s.mxOver x.1 x.2.1 x.2.2 .cancelled 0
    s.mxTeamOver e

/-! Acceptance (R210, R215, R216). -/

/-- The tag space of a crew: its team, or the crew alone (R216). -/
def Crew.tagSpace (c : Crew) : Nat × Nat := (c.grid, if c.team = 0 then c.idx else c.idx / c.team)

/-- The latest accepted card of a crew's tag space that carries a tag and is still held (R216). -/
def State.mxBind (s : State) (c : Crew) (tag : Nat) : List (Nat × Nat) :=
  if tag = 0 then []
  else
    let l := s.mxEntries.filter fun x =>
      x.2.2.lead && decide (x.2.2.kind ≠ .zero) && decide (mTag x.2.2.card = tag) && decide (x.2.2.space = c.tagSpace)
    match l.foldl (fun (b : Option (Nat × Nat × MxEnt)) x =>
        match b with
        | some y => if y.2.2.ord < x.2.2.ord then some x else b
        | none => some x) none with
    | some x => [(x.1, x.2.1)]
    | none => []

/-- Free slots of a mandrel (R216): an ended card's slot is kept while a card bound to it is queued, or its team card runs. -/
def State.mxFree (s : State) (p : Nat) : List Nat :=
  let l := s.mxEntries
  (List.range 32).filter fun i =>
    match smGet (s.cluster p).mx i with
    | some e => e.st.over && (s.mxWhole e).over &&
        !(l.any fun x => decide (x.2.2.st = .queued) && x.2.2.preds.contains (p, i))
    | none => true

/-- The ranges of a card, or of a member's sub-job, that its cluster's chuck holds (R210, R218). -/
def mxRanges (k : MxKind) (c : List W64) (x : Crew) (uv : Nat × Nat) : List MxRange :=
  match k with
  | .zero => []
  | .drain => if mMask c = 0 || (mMask c).testBit x.member then mOutput true c 0 0 else []
  | .card => mSources c 0 0 ++ (if mMask c = 0 || (mMask c).testBit x.member then mOutput false c 0 0 else [])
  | .team =>
    mSources c uv.1 uv.2 ++ mOutput false c uv.1 uv.2 ++
      [{ glob := false, lo := mStg c, hi := mStg c + mStaging c, wr := true }]

/-- The crews that a card runs on: the poster alone, or every member of its team (R218). -/
def State.mxCrews (s : State) (cid : Nat) (c : Crew) (k : MxKind) : List (Option (Nat × Nat)) :=
  if k = .team then (List.range c.team).map fun m => (s.teamCrew c m).map fun i => (m, i) else [some (c.member, cid)]

/-- The slots of a cluster's mandrel that a new card may take: not those of the cards it is bound to (R216). -/
def State.mxRoom (s : State) (preds : List (Nat × Nat)) (p : Nat) : List Nat :=
  (s.mxFree p).filter fun i => !preds.contains (p, i)

/-- The entries that a card is bound to (R216). -/
def State.mxPreds (s : State) (c : Crew) (k : MxKind) (d : List W64) : List (Nat × Nat) :=
  if k = .zero then [] else s.mxBind c (mPred0 d) ++ s.mxBind c (mPred1 d)

/-- The entry of a card on one cluster it runs on, with its chuck entries (R210, R215, R218); the handle is the poster's. -/
def mxPlaceOne (x : Slot) (lane : Nat) (k : MxKind) (d : List W64) (tw ord : Nat) (preds : List (Nat × Nat))
    (y : Nat × Nat × Crew) (a : State × W64) : State × W64 :=
  let s := a.1
  let p := y.2.2.p
  let free := s.mxRoom preds p
  let slot := free.getD (Config.slotFor s.tick % free.length) 0
  let n := (s.cluster p).mxSerial
  let e : MxEnt :=
    { kind := k, serial := n % 2 ^ 25, cid := x.cid, co := x.co, lane := lane, card := d, st := .queued, cause := 0,
      ord := ord, preds := preds, eng := p, steps := 0, touched := [], out := [], restarted := false, replays := 0,
      member := if k = .team then some (y.1, y.2.1) else none, space := y.2.2.tagSpace, staged := [], srcOk := none,
      cancelPend := [] }
  let rs := (mxRanges k d y.2.2 (uvOf tw y.1)).map fun r => r.rng y.2.2 slot ord
  ((s.reuseSlot p slot true).modCluster p fun cl =>
    { cl with mx := smSet cl.mx slot e, mxSerial := n + 1, chuck := cl.chuck ++ rs },
   if y.2.1 = x.cid then cpHandle n slot else a.2)

/-- The crews that a card runs on, with their member indices. -/
def State.mxTargets (s : State) (cid : Nat) (c : Crew) (k : MxKind) : List (Nat × Nat × Crew) :=
  (s.mxCrews cid c k).filterMap fun y => y.bind fun y => (smGet s.crews y.2).map fun d => (y.1, y.2, d)

/-- Offers a card to the mandrel (R215): a refusal changes nothing. -/
def State.mxOffer (s : State) (x : Slot) (lane : Nat) (k : MxKind) (d : List W64) : State × W64 :=
  match smGet s.crews x.cid, s.thread? x.cid x.co lane with
  | some c, some th =>
    let at' := s.mxTargets x.cid c k
    let flag := decide (k ≠ .zero) && mCfe d
    let preds := s.mxPreds c k d
    if at'.any fun y => decide ((s.cluster y.2.2.p).chuckRoom < (mxRanges k d y.2.2 (uvOf c.tw y.1)).length) then (s, 2)
    else if at'.any fun y => (s.mxRoom preds y.2.2.p).isEmpty then (s, 4)
    else if flag && !flagRoom th (mCfl d) then (s, 6)
    else
      let r := forL at' (s.fresh, (0 : W64)) (mxPlaceOne x lane k d c.tw s.nextId preds)
      (if flag then r.1.modThread x.cid x.co lane (raiseFlag (mCfl d)) else r.1, r.2)
  | _, _ => (s, 0)

/-- The faults of a post after its offset (R215 steps 2 and 3). -/
def mxFault (k : MxKind) (d : List W64) (x : Crew) : Option Cause :=
  let bad := match k with
    | .card => mCardInvalid d x false
    | .team => mCardInvalid d x true
    | .drain => mDrainInvalid d x
    | .zero => false
  let rs := match k with
    | .card => mSources d 0 0 ++ mOutput false d 0 0
    | .team => (List.range x.team).flatMap fun m => mxRanges .team d x (uvOf x.tw m)
    | .drain => mOutput true d 0 0
    | .zero => []
  if bad then some cMxCardInvalid else rs.findSome? fun r => r.fault x

/-- The sixteen words of a card (R206). -/
def cardWords (d : List Byte) : List W64 := (List.range 16).map fun i => wordOfBytes ((d.drop (8 * i)).take 8)

/-- A posting instruction of the matrix engine (R215). -/
def mxPost (o : Op) (k : MxKind) (f : Fields) (s : State) : Host.Outcome State Fault Refusal :=
  runSlot o f s fun x s =>
    seqSlot x (fun i s =>
      let a := x.a[i]
      let off := a.lo.toNat
      let d := cardWords (memRead s.mem (x.crew.stashAt off) 128)
      let e := firstErr
        [failIf a.p cPoisonUse, failIf (decide (off % 128 ≠ 0)) cMisaligned,
         failIf (decide (x.crew.dOff < off + 128)) cStashBounds, mxFault k d x.crew]
      match e with
      | some c => .error c
      | none => .ok (s.mxOffer x i.val k d)) s

/-- `mx.post` (R215). -/
def execMxPost (f : Fields) (s : State) : Host.Outcome State Fault Refusal := mxPost .mxPost .card f s
/-- `mx.team` (R215, R218). -/
def execMxTeam (f : Fields) (s : State) : Host.Outcome State Fault Refusal := mxPost .mxTeam .team f s
/-- `mx.drain` (R215, R220). -/
def execMxDrain (f : Fields) (s : State) : Host.Outcome State Fault Refusal := mxPost .mxDrain .drain f s

/-- `mx.zero` (R221). -/
def execMxZero (f : Fields) (s : State) : Host.Outcome State Fault Refusal :=
  runSlot .mxZero f s fun x s =>
    seqSlot x (fun i s =>
      let a := x.a[i]
      let v := a.lo.toNat
      if a.p then .error cPoisonUse
      else if 8 ≤ v || v % 4 = 0 then .error cMxCardInvalid
      else .ok (s.mxOffer x i.val .zero [BitVec.ofNat 64 v])) s

/-! Status and cancellation (R222, R223). -/

/-- The card that a handle names (R124, R218): posted by the issuing crew, and on its own cluster. -/
def State.mxNamed (s : State) (x : Slot) (h : W64) : Option (Nat × MxEnt) :=
  let slot := fld h 6 1
  match smGet (s.cluster x.p).mx slot with
  | some e =>
    if h.getLsbD 0 && decide (e.serial = fld h 31 7) && decide (e.cid = x.cid) && e.lead then some (slot, e) else none
  | none => none

/-- MOD 3 of `mx.stat` (R222). -/
def bankWord (c : Cluster) (cid : Nat) : Nat :=
  (List.range 2).foldl (fun y b =>
    let k := c.bank b
    y + (k.st + (if k.int32 then 4 else 0) + (if k.st = 2 && k.holder = some cid then 8 else 0)) * 16 ^ b) 0

/-- What `mx.stat` with SEL 0 to 2 gives for a handle (R222): a card that a save ended keeps its status in the crew. -/
def State.mxStatus (s : State) (x : Slot) (sel : Nat) (h : W64) : W64 :=
  match s.mxNamed x h with
  | some (_, e) =>
    let l := s.mxParts e
    let st := s.mxWhole e
    let cause := ((l.find? fun y => decide (y.2.2.st = .failed)).map fun y => y.2.2.cause.toNat).getD 0
    BitVec.ofNat 64 (
      if sel = 0 then st.code + (if l.any fun y => y.2.2.restarted then 8 else 0) + (if st = .failed then 16 * cause else 0)
      else if sel = 1 then (l.foldl (fun n y => min n y.2.2.steps) e.steps) % 2 ^ 32
      else s.mxTotal e % 2 ^ 32)
  | none =>
    match x.crew.cutOf true h with
    | some t => BitVec.ofNat 64 (if sel = 0 then 5 else (if sel = 1 then t.steps else t.bytes) % 2 ^ 32)
    | none => if sel = 0 then 0 else 0xFFFFFFFF

/-- `mx.stat` (R222): the bank word needs no handle. -/
def execMxStat (f : Fields) (s : State) : Host.Outcome State Fault Refusal :=
  runSlot .mxStat f s fun x s =>
    seqSlot x (fun i s =>
      if f.mod = 3 then .ok (s, BitVec.ofNat 64 (bankWord (s.cluster x.p) x.cid))
      else if (x.a[i]).p then .error cPoisonUse
      else .ok (s, s.mxStatus x f.mod.toNat (x.a[i]).v)) s

/-- A cancel of the card that a handle names (R223): the step and the granule are whole steps of the model, so the job ends
at once; a card that a save ended keeps its bytes in the crew. -/
def State.mxCancelOne (s : State) (x : Slot) (h : W64) : State × Option Nat :=
  match s.mxNamed x h with
  | none => (s, some (match x.crew.cutOf true h with | some t => t.bytes | none => 0xFFFFFFFF))
  | some (slot, e) =>
    let n := s.mxTotal e
    if (s.mxWhole e).over then (s, some n) else (s.mxEndAll x.p slot e .cancelled 0, some n)

/-- `mx.cancel` (R223). -/
def execMxCancel (f : Fields) (s : State) : Host.Outcome State Fault Refusal :=
  runSlot .mxCancel f s fun x s => cancelSlot x (fun _ i s => s.mxCancelOne x (x.a[i]).v) s

/-! Starting (R210, R211, R217, R219). -/

/-- The array of a cluster's engine is idle (R203). -/
def State.arrayIdle (s : State) (p : Nat) : Bool :=
  !(s.mxEntries.any fun x =>
    let e := x.2.2
    decide (e.st = .running) && decide (e.eng = p) && (e.kind = .card || e.kind = .team) && !e.walked)

/-- Entries that use, or wait for, the down-converter of a cluster's engine to write out (R203). -/
def State.dcUsers (s : State) (p : Nat) : List (Nat × Nat × MxEnt) :=
  s.mxEntries.filter fun x =>
    let e := x.2.2
    decide (e.st = .running) && decide (e.eng = p) && e.writes && decide (e.out.length < s.mxOutCount e)

/-- The down-converter serves this entry now (R203): a drain, or an entry that has begun, goes first. -/
def State.dcServes (s : State) (e : MxEnt) : Bool :=
  let l := s.dcUsers e.eng
  let first (x : MxEnt) : Bool := decide (x.kind = .drain) || decide (x.out ≠ [])
  first e || !(l.any fun x => first x.2.2)

/-- Another entry of the mandrel, accepted earlier and not ended, names one of the entry's banks, or the bank is in use
(R204, R210). -/
def State.bankBlocked (s : State) (p : Nat) (e : MxEnt) : Bool :=
  ((s.cluster p).mx.any fun y =>
    decide (y.2.ord < e.ord) && !y.2.st.over && !s.mxFloats y.2 && y.2.names.any fun b => e.names.contains b) ||
  e.results.any (fun b => decide (((s.cluster p).bank b).st = 1)) ||
  (match e.source with | some b => decide (((s.cluster p).bank b).st = 1) && e.srcOk.isNone | none => false)

/-- The engine that an entry starts on (R217): a Floating card takes the member engine of lowest index whose array is idle
and whose bank is FREE and named by no queued entry; queued Floating cards name no bank yet. -/
def State.engineFor (s : State) (p : Nat) (e : MxEnt) : Option Nat :=
  if !s.mxFloats e then some p
  else
    match smGet s.crews e.cid with
    | none => none
    | some c =>
      (List.range c.team).findSome? fun m =>
        match (s.teamCrew c m).bind fun i => smGet s.crews i with
        | some d =>
          let named := (s.cluster d.p).mx.any fun y =>
            decide (y.2.st = .queued) && !s.mxFloats y.2 && y.2.names.contains (mBank e.card)
          if s.arrayIdle d.p && decide (((s.cluster d.p).bank (mBank e.card)).st = 0) && !named then some d.p else none
        | none => none

/-- The members of a team card whose crew is gone (R214). -/
def State.mxAbsent (s : State) (e : MxEnt) : Bool :=
  match smGet s.crews e.cid with
  | none => true
  | some c => decide ((s.mxParts e).length < c.team) || (s.mxParts e).any fun x =>
      match s.receiver (some x.2.2.owner) with
      | .fault _ => true
      | _ => false

/-- NW of the source banks of a team card when each member's own crew holds it and all agree (R219). -/
def State.teamSource (s : State) (e : MxEnt) (b : Nat) : Option Nat :=
  let l := (s.mxParts e).map fun x => (((s.cluster x.1).bank b), x.2.2.owner)
  match l with
  | [] => none
  | y :: _ => if l.all fun z => decide (z.1.st = 2) && decide (z.1.holder = some z.2) && decide (z.1.nw = y.1.nw) then some y.1.nw else none

/-- What stops an entry that would start on engine `g` (R204, R211, R214, R219, R220). -/
def State.mxStartFault (s : State) (g : Nat) (e : MxEnt) : Option Cause :=
  let bank (b : Nat) : Bank := (s.cluster g).bank b
  let other := e.names.any fun b => decide ((bank b).st = 2) && decide ((bank b).holder ≠ some e.owner)
  let mine (b : Nat) : Bool := decide ((bank b).st = 2) && decide ((bank b).holder = some e.owner)
  firstErr
    [failIf (decide (e.kind = .team) && s.mxAbsent e) cCopyTargetAbsent, failIf other cMxBankHeld,
     failIf (decide (e.kind = .drain) && !mine (mBank e.card)) cMxCardInvalid,
     (match e.source, e.kind with
      | some b, .card => failIf (!mine b) cMxCardInvalid
      | some b, .team => failIf (e.srcOk.isNone && (s.teamSource e b).isNone) cMxCardInvalid
      | _, _ => none)]

/-- An entry starts on engine `g` (R204, R209, R217, R219). -/
def State.mxStart (s : State) (p slot g : Nat) (e : MxEnt) : State :=
  match s.mxStartFault g e with
  | some c => s.mxEndAll p slot e .failed c
  | none =>
    let s := match e.source, e.kind with
      | some b, .team =>
        if e.srcOk.isSome then s
        else
          let ns := s.teamSource e b
          forL (s.mxParts e) s fun x s =>
            (s.modMx x.1 x.2.1 fun y => { y with srcOk := ns }).modBank x.1 b fun k => { k with st := 1 }
      | some b, _ => s.modBank g b fun k => { k with st := 1 }
      | none, _ => s
    let s := forL e.results s fun b s => s.modBank g b fun k =>
      { k with st := 1, holder := some e.owner, int32 := if e.kind = .card || e.kind = .team then mInt e.card else k.int32 }
    s.modMx p slot fun y => { y with st := .running, eng := g }

/-- The mandrel looks at one of its entries (R217). -/
def State.mxTry (s : State) (p slot : Nat) : State :=
  match smGet (s.cluster p).mx slot with
  | none => s
  | some e =>
    let pst := e.preds.filterMap fun y => (smGet (s.cluster y.1).mx y.2).map fun q => s.mxWhole q
    if e.st ≠ .queued then s
    else if pst.any fun x => decide (x = .failed) || decide (x = .cancelled) || decide (x = .saved) then
      s.mxEndAll p slot e .failed cMxPredFailed
    else if pst.any (fun x => !x.over) || !(s.cluster p).mayStart 1 slot e.ord then s
    else if !s.mxFloats e && s.bankBlocked p e then s
    else
      match s.engineFor p e with
      | none => s
      | some g =>
        if (if e.kind = .drain then (s.dcUsers g).isEmpty else s.arrayIdle g) then s.mxStart p slot g e else s

/-- An entry put into its place in the order of acceptance. -/
def mxInsert (x : Nat × MxEnt) : List (Nat × MxEnt) → List (Nat × MxEnt)
  | [] => [x]
  | y :: r => if x.2.ord ≤ y.2.ord then x :: y :: r else y :: mxInsert x r

/-- Slots of a list of entries in the order of acceptance. -/
def mxOrder (l : List (Nat × MxEnt)) : List Nat := (l.foldr mxInsert []).map Prod.fst

/-- MANDREL_CYCLE (R217). -/
def execMandrelCycle (p : Nat) (s : State) : Host.Outcome State Fault Refusal :=
  .next (forL (mxOrder ((s.cluster p).mx.filter fun y => decide (y.2.st = .queued))) s fun slot s => s.mxTry p slot)

end Sys2Proof.Machine
end

