-- ==== Sys2Proof/Machine/Matrix.lean ====
section
/-!
DEFINITION. Sys2Proof/Machine/Matrix.lean: the work of the matrix engine: steps of the walk (R208, R209, R211, R219, R224),
write-out (R213), and the end of an entry (R214, R221).
-/

namespace Sys2Proof.Machine

/-- A list of reads made one after the other. -/
def accList {α : Type} (g : State → Nat → Acc (State × α)) : State → List Nat → Acc (State × List α)
  | s, [] => .done (s, [])
  | s, i :: r =>
    match g s i with
    | .fault c => .fault c
    | .wait => .wait
    | .done (s, x) =>
      match accList g s r with
      | .fault c => .fault c
      | .wait => .wait
      | .done (s, l) => .done (s, x :: l)

/-- Bytes that the engine reads for an entry: of the posting crew's window, of global memory, or of host memory (R208, R210,
R226, R421). -/
def State.mxRead (s : State) (e : MxEnt) (c : Crew) (glob : Bool) (a : Int) (n : Nat) : Acc (State × List PByte) :=
  let va := (toW64 a).toNat
  let asid := asidOf c.part c.space
  if !glob then
    if s.ownWrites c.p e.cid e.co e.lane none (c.base + a.toNat) n then .wait
    else
      match s.touchRange c.p (c.base + a.toNat) n with
      | .done s => .done (s, s.getBytesP (stashAddr c.p (c.base + a.toNat)) n)
      | .wait => .wait
      | .fault x => .fault x
  else if inHost (toW64 a) then
    if s.hostRuns c.part then
      .done (s, (List.range n).map fun i => (Config.hostByte s.tick (hostAddr (toW64 a) + i), false))
    else .fault cPagePerm
  else if s.ownWrites c.p e.cid e.co e.lane (some asid) va n then .wait
  else s.globalParts (some c.p) asid (lineParts (n / 128 + 2) va n)

/-- The scale bytes of the blocks of a row or a column (R208): `a` its address, `m` the stored bytes of a block. -/
def State.mxScales (s : State) (e : MxEnt) (c : Crew) (glob : Bool) (base : Nat) (off a : Int) (m : Nat) :
    Acc (State × List PByte) :=
  match accList (fun s j => s.mxRead e c glob (base + 128 * off + (a + (j * m : Nat) - base) / m) 1) s
      (List.range (mKs e.card / 32)) with
  | .done (s, l) => .done (s, l.map fun d => d.getD 0 (0, false))
  | .wait => .wait
  | .fault x => .fault x

/-- An element with its block's scale; an absent element keeps its +0 product. -/
def mxWithScale (mx : Bool) (sc : List PByte) (k : Nat) (e : MxEl) : MxEl :=
  if mx && !e.absent then e.scaled (sc.getD (k / 32) (0, false)) else e

/-- The stored bytes of row `r` of A in a step, and of its scales (R208, R218). -/
def State.mxRowOf (s : State) (e : MxEnt) (c : Crew) (r : Nat) : Acc (State × List PByte) :=
  let d := e.card
  let f := mAfmt d
  let glob := decide (mAsrc d = 1)
  let a : Int := mAbase d + mShiftA d (s.mxUV e).2 + mSum d e.steps mSa + mAld d * r
  match s.mxRead e c glob a (mRowA d) with
  | .wait => .wait
  | .fault x => .fault x
  | .done (s, l) =>
    match (if fmtMx f then s.mxScales e c glob (mAbase d) (mAsoff d) a (mxBlockBytes f false) else .done (s, [])) with
    | .wait => .wait
    | .fault x => .fault x
    | .done (s, sc) => .done (s, l ++ sc)

/-- The elements of a row of A that its stored bytes and scales stand for (R208). -/
def mxRowEls (d : List W64) (l : List PByte) : List MxEl :=
  let f := mAfmt d
  let n := mRowA d
  (List.range (mKs d)).map fun k => mxWithScale (fmtMx f) (l.drop n) k (mxStored f (l.take n) k)

/-- The stored bytes of column `n` of B in a step, of its metadata and of its scales (R208, R218). -/
def State.mxColOf (s : State) (e : MxEnt) (c : Crew) (n : Nat) : Acc (State × List PByte) :=
  let d := e.card
  let f := mBfmt d
  let glob := decide (mBsrc d = 1)
  let b : Int := mBbase d + mShiftB d (s.mxUV e).1 + mSum d e.steps mSb + mBld d * n
  match s.mxRead e c glob b (mColB d) with
  | .wait => .wait
  | .fault x => .fault x
  | .done (s, l) =>
    match (if mSpar d then s.mxRead e c glob (b + mColB d) (mKs d / 8) else .done (s, [])) with
    | .wait => .wait
    | .fault x => .fault x
    | .done (s, m) =>
      if mxBadMeta m then .fault cMxCardInvalid
      else
        match (if fmtMx f then s.mxScales e c glob (mBbase d) (mBsoff d) b (mxBlockBytes f (mSpar d)) else .done (s, [])) with
        | .wait => .wait
        | .fault x => .fault x
        | .done (s, sc) => .done (s, l ++ m ++ sc)

/-- The elements of a column of B that its stored bytes, metadata and scales stand for (R208). -/
def mxColEls (d : List W64) (l : List PByte) : List MxEl :=
  let f := mBfmt d
  let n := mColB d
  let z := if mSpar d then mKs d / 8 else 0
  let m := (l.drop n).take z
  (List.range (mKs d)).map fun k =>
    mxWithScale (fmtMx f) (l.drop (n + z)) k (if mSpar d then mxSparse f (l.take n) m k else mxStored f (l.take n) k)

/-- The chained rows of A in a step: from the entry's own engine (R211), or from the members of its row (R219). -/
def State.mxChainRows (s : State) (e : MxEnt) (c : Crew) : Option (List (List MxEl)) :=
  let d := e.card
  let a : Int := mAbase d + mSum d e.steps mSa
  let k := mKs d
  let row (g : Nat → FV × Bool) : List MxEl := mxChained d ((List.range k).map g)
  match e.member with
  | none =>
    let ra := (a / 256).toNat
    let ca := (a % 256).toNat
    if a < 0 || decide (256 < ra + mM d) || decide (256 < ca + k) then none
    else
      let b := (s.cluster e.eng).bank (mSrc d)
      some ((List.range (mM d)).map fun r => row fun j =>
        let i := 256 * (ra + r) + ca + j
        (b.value i, (b.get i).2))
  | some _ =>
    let ns := max 1 (e.srcOk.getD 1)
    if a < 0 || decide ((c.tw * ns : Nat) < a + k) then none
    else
      let v := (s.mxUV e).2
      some ((List.range (mM d)).map fun r => row fun j =>
        let x := a.toNat + j
        let cl := (((s.teamCrew c (v * c.tw + x / ns)).bind fun i => smGet s.crews i).map fun y => y.p).getD 0
        let b := (s.cluster cl).bank (mSrc d)
        let i := 256 * r + x % ns
        (b.value i, (b.get i).2))

/-- The members of a team card that share a tile with a sub-job: its row's for A, its column's for B (R218). -/
def State.mxSharers (s : State) (e : MxEnt) (col : Bool) : List (Nat × Nat × MxEnt) :=
  let uv := s.mxUV e
  (s.mxParts e).filter fun x =>
    let z := s.mxUV x.2.2
    if col then decide (z.1 = uv.1) else decide (z.2 = uv.2)

/-- A tile of a step (R218): a card alone reads it; of a team card, the mandrel reads it once and delivers it to every member
that uses it, where it stays until the member's step. -/
def State.mxTileOf (s : State) (e : MxEnt) (col : Bool) (read : State → Acc (State × List (List PByte))) :
    Acc (State × List (List PByte)) :=
  if e.member.isNone then read s
  else
    let key := 2 * e.steps + col.toNat
    match smGet e.staged key with
    | some l => .done (s, l)
    | none =>
      match read s with
      | .wait => .wait
      | .fault x => .fault x
      | .done (s, l) =>
        .done (forL (s.mxSharers e col) s fun x s => s.modMx x.1 x.2.1 fun y =>
          if y.st.over || decide (e.steps < y.steps) then y else { y with staged := smSet y.staged key l }, l)

/-- The staging areas are double-buffered (R218): a step's tiles are delivered once every member that shares one has ended the
step before the last. -/
def State.mxStageFree (s : State) (e : MxEnt) : Bool :=
  e.member.isNone ||
    (s.mxSharers e false ++ s.mxSharers e true).all fun x => x.2.2.st.over || decide (e.steps ≤ x.2.2.steps + 1)

/-- The operands of a step. -/
def State.mxOperands (s : State) (e : MxEnt) (c : Crew) : Acc (State × List (List MxEl) × List (List MxEl)) :=
  let ra : Acc (State × List (List MxEl)) :=
    if mAsrc e.card = 2 then (match s.mxChainRows e c with | some l => .done (s, l) | none => .fault cMxCardInvalid)
    else
      match s.mxTileOf e false fun s => accList (fun s r => s.mxRowOf e c r) s (List.range (mM e.card)) with
      | .wait => .wait
      | .fault x => .fault x
      | .done (s, l) => .done (s, l.map (mxRowEls e.card))
  match ra with
  | .wait => .wait
  | .fault x => .fault x
  | .done (s, a) =>
    match s.mxTileOf e true fun s => accList (fun s n => s.mxColOf e c n) s (List.range (mN e.card)) with
    | .wait => .wait
    | .fault x => .fault x
    | .done (s, l) => .done (s, a, l.map (mxColEls e.card))

/-- The tile of a step lies inside the bank: its first row and column (R209). -/
def mxTile (d : List W64) (n : Nat) : Option (Nat × Nat) :=
  let o := mOff d n
  let row := (o / 256).toNat
  let col := (o % 256).toNat
  if o < 0 || decide (256 < row + mM d) || decide (256 < col + mN d) then none else some (row, col)

/-- The accumulators of a step's tile are updated (R209); `touched` are the elements of earlier steps. -/
def mxTileUpdate (d : List W64) (touched : List Nat) (row col : Nat) (a b : List (List MxEl)) (k : Bank) : Bank :=
  forN (mM d) k fun r k =>
    forN (mN d) k fun c k =>
      let i := 256 * (row + r) + col + c
      let x := if mZa d && !touched.contains i then (0, false) else k.get i
      let ar := a.getD r []
      let bc := b.getD c []
      let z : MxEl := { fv := .fin false 0 0, iv := 0, pz := false, absent := false }
      k.put i (mxUpdate (mInt d) (mBlock d) (mKs d) (fun j => ar.getD j z) (fun j => bc.getD j z) x)

/-- Elements of a tile, joined to a list. -/
def mxTouch (d : List W64) (row col : Nat) (l : List Nat) : List Nat :=
  forN (mM d) l fun r l => forN (mN d) l fun c l => nsAdd (256 * (row + r) + col + c) l

/-- Records the absent pages of a step's operands (R76, R80). -/
def State.mxNote (s : State) (e : MxEnt) (c : Crew) : State :=
  let d := e.card
  let uv := s.mxUV e
  let asid := asidOf c.part c.space
  let note (glob : Bool) (a : Int) (n : Nat) (s : State) : State :=
    if glob && !inHost (toW64 a) then
      forL (lineParts (n / 128 + 2) (toW64 a).toNat n) s fun x s =>
        match s.homeReadP asid (BitVec.ofNat 64 x.1) x.2 with
        | .fault y => if y = cPageNotPresent then s.notePage asid (BitVec.ofNat 64 x.1) 3 else s
        | _ => s
    else if glob then s
    else s.noteStash c.p (c.base + a.toNat) n
  let a : Int := mAbase d + mShiftA d uv.2 + mSum d e.steps mSa
  let b : Int := mBbase d + mShiftB d uv.1 + mSum d e.steps mSb
  let s := forN (mM d) s fun r s => if mAsrc d = 2 then s else note (decide (mAsrc d = 1)) (a + mAld d * r) (mRowA d) s
  let s := forN (mN d) s fun n s =>
    note (decide (mBsrc d = 1)) (b + mBld d * n) (mColB d + (if mSpar d then mKs d / 8 else 0)) s
  let plane (glob : Bool) (base : Nat) (off a : Int) (m : Nat) (s : State) : State :=
    forN (mKs d / 32) s fun j s => note glob (base + 128 * off + (a + (j * m : Nat) - base) / m) 1 s
  let s := if fmtMx (mAfmt d) && mAsrc d ≠ 2 then
      forN (mM d) s fun r s => plane (decide (mAsrc d = 1)) (mAbase d) (mAsoff d) (a + mAld d * r) (mxBlockBytes (mAfmt d) false) s
    else s
  if fmtMx (mBfmt d) then
    forN (mN d) s fun n s =>
      plane (decide (mBsrc d = 1)) (mBbase d) (mBsoff d) (b + mBld d * n) (mxBlockBytes (mBfmt d) (mSpar d)) s
  else s

/-- A suspect update is discarded, to be executed again, or ends the card (R224): a checksum mismatch is a detected silent
error, an update within a suspect window is none (R372, R391). -/
def State.mxSuspect (s : State) (p slot : Nat) (e : MxEnt) : State :=
  let s := if (s.cluster e.eng).suspect then s else s.silentError e.eng 3
  let e' := { e with restarted := true, replays := e.replays + 1 }
  let s := s.modMx p slot fun _ => e'
  if 8 < e'.replays then s.mxEndAll p slot e' .failed cSuspectReplayLimit else s

/-- The next step of a card, or a wait for its pages (R80, R209). -/
def State.mxStep (s : State) (p slot : Nat) : State :=
    match smGet (s.cluster p).mx slot with
    | none => s
    | some e =>
      match smGet s.crews e.cid with
      | none => s
      | some c =>
        if e.st ≠ .running || !(e.kind = .card || e.kind = .team) || e.walked || !s.mxStageFree e then s
        else
          match mxTile e.card e.steps with
          | none => s.mxEndAll p slot e .failed cMxCardInvalid
          | some (row, col) =>
            match s.mxOperands e c with
            | .wait => s
            | .fault x => if x = cPageNotPresent then s.mxNote e c else s.mxEndAll p slot e .failed x
            | .done (s, a, b) =>
              if (s.cluster e.eng).suspect || Config.checkFails s.tick then s.mxSuspect p slot e
              else
                let s := s.modBank e.eng (mBank e.card) fun k =>
                  { mxTileUpdate e.card e.touched row col a b k with nw := mN e.card }
                s.modMx p slot fun e =>
                  { e with steps := e.steps + 1, touched := mxTouch e.card row col e.touched, replays := 0,
                           staged := smFilter (fun i _ => decide (2 * e.steps + 1 < i)) e.staged }

/-- MX_STEP (R209): the array completes the next step of a card's walk. -/
def execMxStep (p slot : Nat) (s : State) : Host.Outcome State Fault Refusal :=
  .next (s.mxStep p slot)

/-! Write-out (R213). -/

/-- Byte `j` of row `r` of the output rectangle with its poison (R461). -/
def mxOutByte (d : List W64) (drain : Bool) (k : Bank) (r j : Nat) : PByte :=
  let q := mRect drain d
  let n := fmtBytes (mOfmt d)
  if q.2.2.2 * n ≤ j then (0, false)
  else
    let i := 256 * (q.1.toNat + r) + q.2.2.1.toNat + j / n
    (BitVec.ofNat 8 (mxOut d k i / 256 ^ (j % n)), (k.get i).2)

/-- Places the bytes of a piece (R78, R80, R128, R213). -/
def State.mxPut (s : State) (e : MxEnt) (c : Crew) (recv : Option Nat) (y : Piece) (d : List PByte) : Acc State :=
  if mCdst e.card = 1 then
    let va := toW64 y.dst
    if s.ownWrites c.p e.cid e.co e.lane (some (asidOf c.part c.space)) va.toNat y.n then .wait
    else if inHost va then
      if s.hostRuns c.part then .done { s with hostOut := s.hostOut ++ [(c.part, hostAddr va, d.map Prod.fst)] }
      else .fault cPagePerm
    else s.engineGlobal c.p (asidOf c.part c.space) va d
  else
    match s.receiver recv with
    | .fault x => .fault x
    | .wait => .wait
    | .done t =>
      if t.p = c.p && s.ownWrites c.p e.cid e.co e.lane none (t.base + y.dst.toNat) y.n then .wait
      else s.stashWriteP t.p (t.base + y.dst.toNat) d

/-- A granule of an output, whose pieces are placed together (R5, R213). -/
def State.mxPutAll (s : State) (e : MxEnt) (c : Crew) (recv : Option Nat) (k : Bank) : List Piece → Acc State
  | [] => .done s
  | y :: r =>
    match s.mxPut e c recv y ((List.range y.n).map fun i => mxOutByte e.card (decide (e.kind = .drain)) k y.row (y.off + i)) with
    | .wait => .wait
    | .fault x => .fault x
    | .done s => State.mxPutAll s e c recv k r

/-- A granule of an output placed, or waited for (R213). -/
def State.mxWriteOut (s : State) (p slot g : Nat) : State :=
    match smGet (s.cluster p).mx slot with
    | none => s
    | some e =>
      match smGet s.crews e.cid with
      | none => s
      | some c =>
        let l := s.mxGranules e
        let drain := decide (e.kind = .drain)
        if e.st ≠ .running || !e.writes || mCdst e.card = 2 || e.out.contains g || !s.dcServes e then s
        else if mCld e.card < (mRect drain e.card).2.2.2 * fmtBytes (mOfmt e.card) then s.mxEndAll p slot e .failed cMxCardInvalid
        else
          match l[g % l.length]?, (s.mxReceivers e)[g / l.length]? with
          | some ys, some recv =>
            let k := (s.cluster e.eng).bank (mBank e.card)
            match s.mxPutAll e c recv k ys with
            | .wait =>
              if mCdst e.card = 1 then
                forL ys s fun y s => s.engineStall (asidOf c.part c.space) (toW64 y.dst)
                  ((List.range y.n).map fun i => mxOutByte e.card drain k y.row (y.off + i))
              else s
            | .fault x =>
              if x = cPageNotPresent then
                match s.receiver recv with
                | .done t => forL ys s fun y s => s.noteStash t.p (t.base + y.dst.toNat) y.n
                | _ => s
              else s.mxEndAll p slot e .failed x
            | .done s => s.modMx p slot fun e => { e with out := nsAdd g e.out }
          | _, _ => s

/-- MX_WRITE_OUT (R213): the down-converter places granule `g` of the output. -/
def execMxWriteOut (p slot g : Nat) (s : State) : Host.Outcome State Fault Refusal :=
  .next (s.mxWriteOut p slot g)

/-- Word `n` of an output to a channel (R213). -/
def mxWord (e : MxEnt) (k : Bank) (n : Nat) : Vector QEnt 32 :=
  Vector.ofFn fun i =>
    let b := (List.range 4).map fun j =>
      mxOutByte e.card (decide (e.kind = .drain)) k (n / e.rowWords) (128 * (n % e.rowWords) + 4 * i.val + j)
    if b.any Prod.snd then QEnt.poison
    else { val := BitVec.ofNat 64 (natOfBytes (b.map Prod.fst)), p := false, tr := false, pend := none }

/-- MX_CHANNEL_PUSH (R213, R355): the next word of the output is pushed once the channel has room. -/
def execMxChannelPush (p slot : Nat) (s : State) : Host.Outcome State Fault Refusal :=
  .next (
    match smGet (s.cluster p).mx slot with
    | none => s
    | some e =>
      match smGet s.crews e.cid with
      | none => s
      | some c =>
        let n := mCbase e.card
        let ch := c.chans[n]?.getD default
        if e.st ≠ .running || !e.writes || mCdst e.card ≠ 2 || decide (s.mxOutCount e ≤ e.out.length) || !s.dcServes e then s
        else if ch.room ≤ (s.chanHeld c.p e.cid n).2 then s.modCrew e.cid fun c => c.chanWaits n (s.clock c.p)
        else
          let w := mxWord e ((s.cluster e.eng).bank (mBank e.card)) e.out.length
          let s := s.modCrew e.cid fun c =>
            { c with chans := c.chans.setIfInBounds n (ch.push w), wdBlocked := none }
          s.modMx p slot fun e => { e with out := nsAdd e.out.length e.out })

/-! The end. -/

/-- What an entry, and those that ended early before it, wrote into mapped lines is written back before its bytes are published
(R264). -/
def State.mxPublished (s : State) (e : MxEnt) : Bool :=
  e.kind = .zero || !mBre e.card || mCdst e.card ≠ 0 ||
    (s.mxReceivers e).all fun r =>
      match r.bind fun i => smGet s.crews i with
      | some c => ((s.mxPieces e).all fun y => !(s.cluster c.p).dirtyIn (c.base + y.dst.toNat) y.n) && s.endedClean c (mBar e.card)
      | none => true

/-- An entry's work is complete (R214, R221). -/
def State.mxReady (s : State) (e : MxEnt) : Bool :=
  match e.kind with
  | .zero => true
  | .drain => decide (s.mxOutCount e ≤ e.out.length)
  | _ => e.walked && (mKeep e.card || decide (s.mxOutCount e ≤ e.out.length))

/-- `mx.zero` clears its banks (R221). -/
def State.mxClear (s : State) (e : MxEnt) : State :=
  if e.kind = .zero then forL e.results s fun b s => s.modBank e.eng b fun k => { Bank.zero with st := k.st, holder := k.holder }
  else s

/-- MX_CARD_END (R214, R221): an entry whose work is complete ends DONE; `mx.zero` clears its banks. -/
def execMxCardEnd (p slot : Nat) (s : State) : Host.Outcome State Fault Refusal :=
  .next (
    match smGet (s.cluster p).mx slot with
    | none => s
    | some e =>
      if e.st ≠ .running || !s.mxReady e || !s.mxPublished e then s else (s.mxClear e).mxDone p slot e)

end Sys2Proof.Machine
end

