-- ==== Sys2Proof/Machine/Sha.lean ====
section
/-!
DEFINITION. Sys2Proof/Machine/Sha.lean: SHA-384 and SHA-256 (FIPS 180-4), HMAC-SHA-384 (RFC 2104) and HKDF-SHA-384
(RFC 5869), which R428, R435 and R441 name. The round constants of SHA-256 are the upper halves of the first 64 of SHA-512.
-/

namespace Sys2Proof.Machine

/-- Round constants of SHA-384: cube roots of the first 80 primes. -/
def shaK : List Nat :=
  [0x428A2F98D728AE22, 0x7137449123EF65CD, 0xB5C0FBCFEC4D3B2F, 0xE9B5DBA58189DBBC,
   0x3956C25BF348B538, 0x59F111F1B605D019, 0x923F82A4AF194F9B, 0xAB1C5ED5DA6D8118,
   0xD807AA98A3030242, 0x12835B0145706FBE, 0x243185BE4EE4B28C, 0x550C7DC3D5FFB4E2,
   0x72BE5D74F27B896F, 0x80DEB1FE3B1696B1, 0x9BDC06A725C71235, 0xC19BF174CF692694,
   0xE49B69C19EF14AD2, 0xEFBE4786384F25E3, 0x0FC19DC68B8CD5B5, 0x240CA1CC77AC9C65,
   0x2DE92C6F592B0275, 0x4A7484AA6EA6E483, 0x5CB0A9DCBD41FBD4, 0x76F988DA831153B5,
   0x983E5152EE66DFAB, 0xA831C66D2DB43210, 0xB00327C898FB213F, 0xBF597FC7BEEF0EE4,
   0xC6E00BF33DA88FC2, 0xD5A79147930AA725, 0x06CA6351E003826F, 0x142929670A0E6E70,
   0x27B70A8546D22FFC, 0x2E1B21385C26C926, 0x4D2C6DFC5AC42AED, 0x53380D139D95B3DF,
   0x650A73548BAF63DE, 0x766A0ABB3C77B2A8, 0x81C2C92E47EDAEE6, 0x92722C851482353B,
   0xA2BFE8A14CF10364, 0xA81A664BBC423001, 0xC24B8B70D0F89791, 0xC76C51A30654BE30,
   0xD192E819D6EF5218, 0xD69906245565A910, 0xF40E35855771202A, 0x106AA07032BBD1B8,
   0x19A4C116B8D2D0C8, 0x1E376C085141AB53, 0x2748774CDF8EEB99, 0x34B0BCB5E19B48A8,
   0x391C0CB3C5C95A63, 0x4ED8AA4AE3418ACB, 0x5B9CCA4F7763E373, 0x682E6FF3D6B2B8A3,
   0x748F82EE5DEFB2FC, 0x78A5636F43172F60, 0x84C87814A1F0AB72, 0x8CC702081A6439EC,
   0x90BEFFFA23631E28, 0xA4506CEBDE82BDE9, 0xBEF9A3F7B2C67915, 0xC67178F2E372532B,
   0xCA273ECEEA26619C, 0xD186B8C721C0C207, 0xEADA7DD6CDE0EB1E, 0xF57D4F7FEE6ED178,
   0x06F067AA72176FBA, 0x0A637DC5A2C898A6, 0x113F9804BEF90DAE, 0x1B710B35131C471B,
   0x28DB77F523047D84, 0x32CAAB7B40C72493, 0x3C9EBE0A15C9BEBC, 0x431D67C49C100D4C,
   0x4CC5D4BECB3E42B6, 0x597F299CFC657E2A, 0x5FCB6FAB3AD6FAEC, 0x6C44198C4A475817]

/-- Initial value of SHA-256, in the upper halves: square roots of the first 8 primes. -/
def shaIv256 : List Nat :=
  [0x6A09E667F3BCC908, 0xBB67AE8584CAA73B, 0x3C6EF372FE94F82B, 0xA54FF53A5F1D36F1,
   0x510E527FADE682D1, 0x9B05688C2B3E6C1F, 0x1F83D9ABFB41BD6B, 0x5BE0CD19137E2179]

/-- Initial value of SHA-384: square roots of the ninth to sixteenth primes. -/
def shaIv384 : List Nat :=
  [0xCBBB9D5DC1059ED8, 0x629A292A367CD507, 0x9159015A3070DD17, 0x152FECD8F70E5939,
   0x67332667FFC00B31, 0x8EB44A8768581511, 0xDB0C2E0D64F98FA7, 0x47B5481DBEFA4FA4]

/-- What the two hash functions differ in: word width, rotations of the two sums, rotations and shift of the schedule. -/
structure ShaKind where
  w : Nat
  big0 : Nat × Nat × Nat
  big1 : Nat × Nat × Nat
  small0 : Nat × Nat × Nat
  small1 : Nat × Nat × Nat
  deriving DecidableEq, Repr

/-- SHA-384. -/
def sha384Kind : ShaKind :=
  { w := 64, big0 := (28, 34, 39), big1 := (14, 18, 41), small0 := (1, 8, 7), small1 := (19, 61, 6) }

/-- SHA-256. -/
def sha256Kind : ShaKind :=
  { w := 32, big0 := (2, 13, 22), big1 := (6, 11, 25), small0 := (7, 18, 3), small1 := (17, 19, 10) }

/-- A rotation to the right of a `w`-bit number. -/
def rotrN (w x n : Nat) : Nat := (x >>> n) ||| (x <<< (w - n)) % 2 ^ w

/-- A capital sigma function. -/
def ShaKind.sum (k : ShaKind) (r : Nat × Nat × Nat) (x : Nat) : Nat :=
  rotrN k.w x r.1 ^^^ rotrN k.w x r.2.1 ^^^ rotrN k.w x r.2.2

/-- A small sigma function. -/
def ShaKind.mix (k : ShaKind) (r : Nat × Nat × Nat) (x : Nat) : Nat :=
  rotrN k.w x r.1 ^^^ rotrN k.w x r.2.1 ^^^ (x >>> r.2.2)

/-- The message schedule: `n` words, from a window of sixteen. -/
def ShaKind.schedule (k : ShaKind) : Nat → List Nat → List Nat
  | 0, _ => []
  | n + 1, win =>
    let a := win.headD 0
    let x := (k.mix k.small1 (win.getD 14 0) + win.getD 9 0 + k.mix k.small0 (win.getD 1 0) + a) % 2 ^ k.w
    a :: ShaKind.schedule k n (win.tail ++ [x])

/-- One round on the eight working variables. -/
def ShaKind.round (k : ShaKind) (v : List Nat) (x : Nat × Nat) : List Nat :=
  match v with
  | [a, b, c, d, e, f, g, h] =>
    let ch := (e &&& f) ^^^ ((2 ^ k.w - 1 - e) &&& g)
    let maj := (a &&& b) ^^^ (a &&& c) ^^^ (b &&& c)
    let t1 := h + k.sum k.big1 e + ch + x.1 + x.2
    let t2 := k.sum k.big0 a + maj
    [(t1 + t2) % 2 ^ k.w, a, b, c, (d + t1) % 2 ^ k.w, e, f, g]
  | v => v

/-- Words of `n` bytes, most significant byte first. -/
def wordsBE (n : Nat) : Nat → List Byte → List Nat
  | 0, _ => []
  | m + 1, d => natOfBytesBE (d.take n) :: wordsBE n m (d.drop n)

/-- One block of the compression function. -/
def ShaKind.block (k : ShaKind) (ks : List Nat) (st : List Nat) (d : List Byte) : List Nat :=
  let w := k.schedule ks.length (wordsBE (k.w / 8) 16 d)
  let v := (ks.zip w).foldl k.round st
  (st.zip v).map fun x => (x.1 + x.2) % 2 ^ k.w

/-- The padding of a message of `n` bytes. -/
def ShaKind.pad (k : ShaKind) (n : Nat) : List Byte :=
  let b := 2 * k.w
  let l := k.w / 4
  let z := (b - (n + 1 + l) % b) % b
  0x80#8 :: (List.replicate z 0#8 ++ bytesBE l (8 * n))

/-- The blocks of a padded message, compressed. -/
def ShaKind.blocks (k : ShaKind) (ks : List Nat) : Nat → List Nat → List Byte → List Nat
  | 0, st, _ => st
  | n + 1, st, d => ShaKind.blocks k ks n (k.block ks st (d.take (2 * k.w))) (d.drop (2 * k.w))

/-- The digest of a message: `out` words of the final state. -/
def ShaKind.hash (k : ShaKind) (ks iv : List Nat) (out : Nat) (d : List Byte) : List Byte :=
  let m := d ++ k.pad d.length
  ((k.blocks ks (m.length / (2 * k.w)) iv m).take out).flatMap fun x => bytesBE (k.w / 8) x

/-- SHA-384 of a message: 48 bytes. -/
def sha384 (d : List Byte) : List Byte := sha384Kind.hash shaK shaIv384 6 d

/-- SHA-256 of a message: 32 bytes. -/
def sha256 (d : List Byte) : List Byte :=
  sha256Kind.hash ((shaK.take 64).map (· >>> 32)) (shaIv256.map (· >>> 32)) 8 d

/-- HMAC-SHA-384 with a key of up to 128 bytes. -/
def hmac384 (key d : List Byte) : List Byte :=
  let k := key ++ List.replicate (128 - key.length) 0#8
  sha384 ((k.map (· ^^^ 0x5C#8)) ++ sha384 ((k.map (· ^^^ 0x36#8)) ++ d))

/-- The blocks T(i) of HKDF-Expand. -/
def hkdfBlocks (prk info : List Byte) : Nat → Nat → List Byte → List Byte
  | 0, _, _ => []
  | n + 1, i, t =>
    let t := hmac384 prk (t ++ info ++ [BitVec.ofNat 8 i])
    t ++ hkdfBlocks prk info n (i + 1) t

/-- HKDF-SHA-384 (R428): `n` bytes from a key, a salt and an info. -/
def hkdf384 (ikm salt info : List Byte) (n : Nat) : List Byte :=
  (hkdfBlocks (hmac384 salt ikm) info (ceilDiv n 48) 1 []).take n

end Sys2Proof.Machine
end

