-- ==== Sys2Proof/Machine/Ecdsa.lean ====
section
/-!
DEFINITION. Sys2Proof/Machine/Ecdsa.lean: ECDSA over P-384 (FIPS 186-5) with the deterministic nonce of RFC 6979, and the
sealing keys of R462.
-/

namespace Sys2Proof.Machine

/-- The field of P-384. -/
def p384 : Nat := 2 ^ 384 - 2 ^ 128 - 2 ^ 96 + 2 ^ 32 - 1

/-- The order of the group of P-384. -/
def n384 : Nat := 0xFFFFFFFFFFFFFFFFFFFFFFFFFFFFFFFFFFFFFFFFFFFFFFFFC7634D81F4372DDF581A0DB248B0A77AECEC196ACCC52973

/-- The base point of P-384. -/
def g384 : Nat × Nat :=
  (0xAA87CA22BE8B05378EB1C71EF320AD746E1D3B628BA79B9859F741E082542A385502F25DBF55296C3A545E3872760AB7,
   0x3617DE4A96262C6F5D9E98BF9292DC29F8F41DBD289A147CE9DA3113B5F0B8C00A60B1CE1D7E819D7A431D7C90EA0E5F)

/-- A power modulo `m`, over the low `fuel` bits of the exponent. -/
def powMod (m : Nat) : Nat → Nat → Nat → Nat
  | 0, _, _ => 1 % m
  | fuel + 1, b, e => if e % 2 = 1 then b * powMod m fuel (b * b % m) (e / 2) % m else powMod m fuel (b * b % m) (e / 2)

/-- The inverse modulo a prime below 2^384. -/
def invMod (m x : Nat) : Nat := powMod m 384 (x % m) (m - 2)

/-- A point: none at infinity. -/
abbrev EcPoint := Option (Nat × Nat)

/-- Sum of two points of P-384. -/
def ecAdd (a b : EcPoint) : EcPoint :=
  match a, b with
  | none, b => b
  | a, none => a
  | some (x1, y1), some (x2, y2) =>
    let go (lam : Nat) : EcPoint :=
      let x := (lam * lam + 2 * p384 - x1 - x2) % p384
      some (x, (lam * (x1 + p384 - x) + p384 - y1) % p384)
    if x1 = x2 then
      if (y1 + y2) % p384 = 0 then none
      else go ((3 * x1 * x1 + p384 - 3) * invMod p384 (2 * y1) % p384)
    else go ((y2 + p384 - y1) * invMod p384 (x2 + p384 - x1) % p384)

/-- A multiple of a point, over the low `fuel` bits of the factor. -/
def ecMul : Nat → Nat → EcPoint → EcPoint
  | 0, _, _ => none
  | fuel + 1, k, p =>
    let r := ecMul fuel (k / 2) (ecAdd p p)
    if k % 2 = 1 then ecAdd r p else r

/-- The public key of a private scalar. -/
def ecPublic (d : Nat) : Nat × Nat := (ecMul 384 d (some g384)).getD (0, 0)

/-- The signature with a nonce; none when r or s is zero. -/
def ecTry (d e k : Nat) : Option (Nat × Nat) :=
  match ecMul 384 k (some g384) with
  | none => none
  | some (x, _) =>
    let r := x % n384
    let s := invMod n384 k * (e + r * d) % n384
    if r = 0 ∨ s = 0 then none else some (r, s)

/-- The nonces of RFC 6979 tried in turn, from a state (K, V); the search gives up after `fuel` nonces (log 26). -/
def rfc6979 (d e : Nat) : Nat → List Byte → List Byte → Nat × Nat
  | 0, _, _ => (0, 0)
  | fuel + 1, kk, v =>
    let v := hmac384 kk v
    let k := natOfBytesBE v
    let next (_ : Unit) : Nat × Nat :=
      let kk := hmac384 kk (v ++ [0#8])
      rfc6979 d e fuel kk (hmac384 kk v)
    if 1 ≤ k ∧ k < n384 then
      match ecTry d e k with
      | some x => x
      | none => next ()
    else next ()

/-- ECDSA with SHA-384 and the nonce of RFC 6979 (R435): r then s, each 48 bytes, most significant first. -/
def ecdsaSign (d : Nat) (msg : List Byte) : List Byte :=
  let h := sha384 msg
  let e := natOfBytesBE h
  let x := bytesBE 48 d ++ bytesBE 48 (e % n384)
  let v0 := List.replicate 48 1#8
  let k1 := hmac384 (List.replicate 48 0#8) (v0 ++ [0#8] ++ x)
  let v1 := hmac384 k1 v0
  let k2 := hmac384 k1 (v1 ++ [1#8] ++ x)
  let r := rfc6979 d e 1024 k2 (hmac384 k2 v1)
  bytesBE 48 r.1 ++ bytesBE 48 r.2

/-- Verification of a signature r then s (R441). -/
def ecdsaVerify (q : Nat × Nat) (msg sig : List Byte) : Bool :=
  let r := natOfBytesBE (sig.take 48)
  let s := natOfBytesBE ((sig.drop 48).take 48)
  let w := invMod n384 s
  let e := natOfBytesBE (sha384 msg)
  decide (0 < r) && decide (r < n384) && decide (0 < s) && decide (s < n384) &&
    match ecAdd (ecMul 384 (e * w % n384) (some g384)) (ecMul 384 (r * w % n384) (some q)) with
    | some (x, _) => decide (x % n384 = r)
    | none => false

/-- The info of a sealing key (R462). -/
def sealInfo (alg tag inc : Nat) : List Byte := bytesOfNat 1 alg ++ bytesOfNat 2 tag ++ bytesOfNat 2 inc

/-- The device secret as key material, most significant byte first (R428; log 26). -/
def secretBytes : List Byte := bytesBE 32 Config.deviceSecret.toNat

/-- The ECDSA sealing key of a partition (R428, R462). -/
def sealScalar (salt : List Byte) (tag inc : Nat) : Nat :=
  natOfBytesBE (hkdf384 secretBytes salt (sealInfo 0 tag inc) 56) % (n384 - 1) + 1

/-- The seed of the ML-DSA-65 sealing key of a partition (R428, R462). -/
def sealSeed (salt : List Byte) (tag inc : Nat) : List Byte := hkdf384 secretBytes salt (sealInfo 1 tag inc) 32

end Sys2Proof.Machine
end

