-- ==== Sys2Proof/Machine/Seal.lean ====
section
/-!
DEFINITION. Sys2Proof/Machine/Seal.lean: seal contexts and the seal instructions (R432 to R437), the seal record and its
signature (R435, R462), and the seal log (R436).
-/

namespace Sys2Proof.Machine

/-- A handle of a seal context (R432). -/
def sealHandle (serial ctx : Nat) : W64 := BitVec.ofNat 64 (serial % 2 ^ 27 * 32 + ctx * 2 + 1)

/-- The context that a handle names for a crew (R432): its number. -/
def Cluster.sealNamed (c : Cluster) (cid : Nat) (h : W32) : Option (Nat × SealCtx) :=
  let i := bits h.toNat 4 1
  if !h.getLsbD 0 then none
  else
    match smGet c.seals i with
    | some x => if x.serial = bits h.toNat 31 5 && x.cid = cid && x.fin.isNone then some (i, x) else none
    | none => none

/-- Changes a seal context. -/
def State.modSeal (s : State) (p i : Nat) (f : SealCtx → SealCtx) : State :=
  s.modCluster p fun c => { c with seals := smMod c.seals i f }

/-- Takes the chuck entry of one acceptance of the hash engine away. -/
def Cluster.dropSealRng (c : Cluster) (ord : Nat) : Cluster :=
  { c with chuck := c.chuck.filter fun r => !(decide (r.eng = 2) && decide (r.ord = ord)) }

/-- No earlier job of any engine of the cluster whose ranges conflict with an acceptance of the hash engine is left (R117,
R123). -/
def Cluster.sealMayStart (c : Cluster) (ord : Nat) : Bool :=
  let mine := c.chuck.filter fun r => r.eng = 2 && r.ord = ord
  !(c.chuck.any fun r => decide (r.ord < ord) && mine.any fun m => m.conflicts r)

/-- The chuck entry of a range (R120, R434). -/
def sealRng (c : Crew) (stash : Bool) (a : W64) (n : Nat) (dst : Bool) (ctx ord : Nat) : Rng :=
  let lo := if stash then c.base + a.toNat else a.toNat
  { asid := if stash then none else some (asidOf c.part c.space), lo := lo, hi := lo + n, dst := dst, eng := 2, job := ctx,
    ord := ord }

/-! The seal log (R436). -/

/-- A seal log record (R436). -/
def sealLog (inc : BitVec 12) (kind cause reason : Nat) (seq : W64) (n : Nat) (label : W64) (grid crew time : Nat) : List W64 :=
  [BitVec.ofNat 64 (inc.toNat * 2 ^ 52 + kind * 2 ^ 48 + cause * 2 ^ 41 + reason * 2 ^ 38), seq, BitVec.ofNat 64 n, label,
   BitVec.ofNat 64 (grid % 2 ^ 32 * 2 ^ 32 + crew % 2 ^ 32), BitVec.ofNat 64 time, 0, 0]

/-- The seal log record of a context that ends now. -/
def State.sealRecord (s : State) (p : Part) (x : SealCtx) (kind cause reason : Nat) (seq : W64) : List W64 :=
  let (g, i) := match smGet s.crews x.cid with | some c => (c.grid, c.idx) | none => (0, 0)
  sealLog p.inc kind cause reason seq x.data.length x.label g i s.time

/-- The partition of a context. -/
def State.sealPart (s : State) (x : SealCtx) : Nat :=
  match smGet s.crews x.cid with | some c => c.part | none => Config.svcTag

/-- Absorbs still outstanding deliver the bytes absorbed (R437). -/
def State.endAbsorbs (s : State) (x : SealCtx) : State :=
  forL x.absorbs s fun a s => s.resultLane a.pend a.lane [BitVec.ofNat 64 (x.data.length % 2 ^ 32)] false

/-- A context leaves its cluster, with its chuck entries. -/
def State.freeSeal (s : State) (p i : Nat) (x : SealCtx) : State :=
  let ords := (x.absorbs ++ x.fin.toList).map (·.ord)
  s.modCluster p fun c =>
    { c with seals := smDel c.seals i, chuck := c.chuck.filter fun r => !(decide (r.eng = 2) && ords.contains r.ord) }

/-- A context ends with an abort record (R434, R437); at a RESET the record waits for the new incarnation. -/
def State.abortSeal (s : State) (p i : Nat) (x : SealCtx) (reason cause : Nat) : State :=
  let tag := s.sealPart x
  let s := (s.endAbsorbs x).freeSeal p i x
  match smGet s.parts tag with
  | none => s
  | some q =>
    let r := s.sealRecord q x 1 cause reason (q.seq + 1)
    if q.qst = 4 then s.modPart tag fun q => { q with abortRecs := q.abortRecs ++ [r] } else s.post tag 67 r

/-- SEAL_ABORTED falls due in the thread that opened a context (R380, R437). -/
def sealTrap (h : W64) : TrapRec :=
  { cause := cSealAborted, addr := h, trpc := 0, rpc := 0, rslot := 0, skip := false, rank := 5, ord := h.toNat, peer := none,
    inRgn := false }

/-- Discards the seal contexts of a crew (R437); a finished one only at a RESET or DESTROY (R434). -/
def State.discardSeals (s : State) (cid reason cause : Nat) : State :=
  match smGet s.crews cid with
  | none => s
  | some c =>
    forL (s.cluster c.p).seals s fun y s =>
      let x := y.2
      if x.cid ≠ cid || (x.fin.isSome && !x.failed && reason ≠ 3) then s
      else
        let s := s.abortSeal c.p y.1 x reason cause
        if reason = 1 then s.dueTrap cid x.co x.lane (sealTrap (sealHandle x.serial y.1)) else s

/-- A `seal.fin` of the crew has been accepted and has not ended (R434). -/
def State.finPending (s : State) (cid : Nat) : Bool :=
  match smGet s.crews cid with
  | none => false
  | some c => (s.cluster c.p).seals.any fun y => y.2.cid = cid && y.2.fin.isSome && !y.2.failed

/-! The instructions. -/

/-- A result of one register that each executing lane awaits from an engine (R434). -/
def Slot.latePend (x : Slot) : Pend := { x.pend 1 x.ex x.ex [] with joint := true }

/-- One lane of such an instruction: accepted, or a precise fault. -/
def lateStep (x : Slot) (g : Nat → Fin 32 → State → Except Cause State) (id : Nat) (i : Fin 32)
    (y : State × List (Nat × TrapRec)) : State × List (Nat × TrapRec) :=
  match g id i y.1 with
  | .error c => (y.1, y.2 ++ [(i.val, preciseTrap x.run c (faultAddr c (if x.f.mod.getLsbD 0 then (x.b[i]).lo.setWidth 64 else (x.b[i]).v)))])
  | .ok t => (t, y.2)

/-- A result kept in the lanes of a mask. -/
def keepLanes (m : BitVec 32) (p : Pend) : Pend :=
  { p with lanes := m, waitRes := m, waitPerf := m, delivered := decide (m = 0) }

/-- An instruction whose executing threads act in lane order and whose results come later; SETA and SETB follow them
(R434). `g` gets the result's number. -/
def lateSlot (x : Slot) (g : Nat → Fin 32 → State → Except Cause State) (s : State) : State :=
  let id := s.nextId
  let y := forL (lanesOf x.ex) (s.addPend x.latePend, ([] : List (Nat × TrapRec))) (lateStep x g id)
  finishLate x y.2 id false (y.1.modPend id (keepLanes (x.done y.2)))

/-- The contexts that a crew holds. -/
def Cluster.sealsOf (c : Cluster) (cid : Nat) : Nat := (c.seals.filter fun y => y.2.cid = cid).length

/-- `seal.open` of one thread (R432, R434). -/
def State.sealOpen (s : State) (x : Slot) (lane alg : Nat) (label : W64) : State × W64 :=
  let c := s.cluster x.p
  let free := (List.range 16).filter fun i => (smGet c.seals i).isNone
  let shares := (match smGet s.parts x.crew.part with | some p => p.res.shares | none => [])
  if free = [] then (s, 2)
  else if 4 ≤ c.sealsOf x.cid then (s, 4)
  else if shares = [] then (s, 6)
  else
    let i := free.getD (Config.slotFor s.tick % free.length) 0
    let y : SealCtx :=
      { serial := c.sealSerial % 2 ^ 27, cid := x.cid, co := x.co, lane := lane, alg := alg % 2, sha256 := alg.testBit 1,
        label := label, data := [], ranges := [], absorbs := [], fin := none, failed := false }
    (s.modCluster x.p fun c => { c with seals := smSet c.seals i y, sealSerial := c.sealSerial + 1 },
     sealHandle c.sealSerial i)

/-- `seal.open` (R433, R434). -/
def execSealOpen (f : Fields) (s : State) : Host.Outcome State Fault Refusal :=
  runSlot .sealOpen f s fun x s =>
    seqSlot x (fun i s =>
      let a := x.a[i]
      if a.p || (x.b[i]).p then .error cPoisonUse
      else if 4 ≤ a.lo.toNat then .error cIllegalOperand
      else .ok (s.sealOpen x i.val a.lo.toNat (x.b[i]).v)) s

/-- Entries of the hash engine enter the chuck where it has room (R120). -/
def Cluster.sealEnter (c : Cluster) (l : List Rng) : Cluster := if l.length ≤ c.chuckRoom then { c with chuck := c.chuck ++ l } else c

/-- The range of an accepted absorb or record is in the chuck, or has none (R120). -/
def Cluster.sealHolds (c : Cluster) (a : SealAbs) : Bool :=
  decide (a.n = 0) || c.chuck.any fun r => decide (r.eng = 2) && decide (r.ord = a.ord)

/-- A `seal.abs` of one thread (R434): the range is registered as a source entry of the chuck and the absorb queued. Where the chuck
is full the spec names no refusal: the absorb is accepted, and waits for an entry before it reads (DESIGN CHOICE, log 25). -/
def State.sealAbsorb (s : State) (x : Slot) (id lane : Nat) (st : Bool) (h : W32) (b : W64) (n : Nat) : Except Cause State :=
  let va := if st then (b.extractLsb' 0 32).setWidth 64 else b
  match (s.cluster x.p).sealNamed x.cid h with
  | none => .error cSealInvalid
  | some (j, _) =>
    match (if n = 0 then none else if st then stashRange x.crew va.toNat n false else globalRange va.toNat n) with
    | some c => .error c
    | none =>
      let ord := s.nextId
      let r := if n = 0 then [] else [sealRng x.crew st va n false j ord]
      let a : SealAbs := { pend := id, lane := lane, addr := va, n := n, stash := st, ord := ord }
      .ok ((s.fresh.modCluster x.p fun c => c.sealEnter r).modSeal x.p j fun y =>
        { y with absorbs := y.absorbs ++ [a], ranges := y.ranges ++ r })

/-- `seal.abs` (R433, R434). -/
def execSealAbs (f : Fields) (s : State) : Host.Outcome State Fault Refusal :=
  runSlot .sealAbs f s fun x s =>
    lateSlot x (fun id i s =>
      if (x.a[i]).p || (x.b[i]).p || (x.c[i]).p then .error cPoisonUse
      else s.sealAbsorb x id i.val (f.mod.getLsbD 0) (x.a[i]).lo (x.b[i]).v (x.c[i]).lo.toNat) s

/-- Bytes of a seal record (R435). -/
def recordBytes (alg : Nat) : Nat := if alg = 0 then 256 else 3456

/-- A `seal.fin` of one thread (R434): accepted, with the record's range as a destination entry of the chuck (log 25). -/
def State.sealFinish (s : State) (x : Slot) (id lane : Nat) (st : Bool) (h : W32) (b : W64) : Except Cause State :=
  let va := if st then (b.extractLsb' 0 32).setWidth 64 else b
  match (s.cluster x.p).sealNamed x.cid h with
  | none => .error cSealInvalid
  | some (j, y) =>
    let n := recordBytes y.alg
    match (if st then stashRange x.crew va.toNat n true else globalRange va.toNat n) with
    | some c => .error c
    | none =>
      let ord := s.nextId
      let r := sealRng x.crew st va n true j ord
      if y.ranges.any fun q => r.conflicts q then .error cSealInvalid
      else
        let a : SealAbs := { pend := id, lane := lane, addr := va, n := n, stash := st, ord := ord }
        .ok ((s.fresh.modCluster x.p fun c => c.sealEnter [r]).modSeal x.p j fun y => { y with fin := some a })

/-- `seal.fin` (R433, R434). -/
def execSealFin (f : Fields) (s : State) : Host.Outcome State Fault Refusal :=
  runSlot .sealFin f s fun x s =>
    lateSlot x (fun id i s =>
      if (x.a[i]).p || (x.b[i]).p then .error cPoisonUse
      else s.sealFinish x id i.val (f.mod.getLsbD 0) (x.a[i]).lo (x.b[i]).v) s

/-- `seal.abt` (R433, R434). -/
def execSealAbt (f : Fields) (s : State) : Host.Outcome State Fault Refusal :=
  runSlot .sealAbt f s fun x s =>
    seqSlot x (fun i s =>
      if (x.a[i]).p then .error cPoisonUse
      else
        match (s.cluster x.p).sealNamed x.cid (x.a[i]).lo with
        | none => .error cSealInvalid
        | some (j, y) => .ok (s.abortSeal x.p j y 2 0, BitVec.ofNat 64 (y.data.length % 2 ^ 32))) s

/-! The hash engine. -/

/-- Bytes of host memory, read through the function (R421). -/
def State.hostRead (s : State) (tag : Nat) (va : W64) (n : Nat) : Except Cause (List Byte) :=
  match smGet s.parts tag with
  | some p =>
    if p.tdisp = .run then .ok ((List.range n).map fun i => Config.hostByte s.tick (hostAddr va + i)) else .error cPagePerm
  | none => .error cPagePerm

/-- The bytes that an absorb reads (R226, R264). -/
def State.absorbBytes (s : State) (c : Crew) (x : SealCtx) (a : SealAbs) : Acc (State × List Byte) :=
  let asid := asidOf c.part c.space
  let off := c.base + a.addr.toNat
  if a.n = 0 then .done (s, [])
  else if !(s.cluster c.p).sealMayStart a.ord then .wait
  else if a.stash then
    if s.ownWrites c.p x.cid x.co x.lane none off a.n then .wait
    else
      match s.touchRange c.p off a.n with
      | .fault e => .fault e
      | .wait => .wait
      | .done s => .done (s, memRead s.mem (stashAddr c.p off) a.n)
  else if inHost a.addr then
    match s.hostRead c.part a.addr a.n with
    | .ok d => .done (s, d)
    | .error e => .fault e
  else if s.ownWrites c.p x.cid x.co x.lane (some asid) a.addr.toNat a.n then .wait
  else
    match s.globalParts (some c.p) asid (lineParts (a.n / 128 + 2) a.addr.toNat a.n) with
    | .fault e => .fault e
    | .wait => .wait
    | .done (s, d) => .done (s, d.map Prod.fst)

/-- The record of the first absent page that a read of the hash engine meets (R76, R80). -/
def State.noteFirst (s : State) (asid : BitVec 16) (va n : Nat) : State :=
  match (lineParts (n / 128 + 2) va n).find? fun y =>
      match s.homeReadP asid (BitVec.ofNat 64 y.1) y.2 with | .fault _ => true | _ => false with
  | some y => s.noteRead asid y.1 1
  | none => s

/-- The first absorb of a context ends, waits for a page, or fails (R80, R434). -/
def State.absorbEnd (s : State) (p ctx : Nat) : State :=
    match smGet (s.cluster p).seals ctx with
    | none => s
    | some x =>
      match x.absorbs, smGet s.crews x.cid with
      | a :: rest, some c =>
        if x.failed then s
        else if !(s.cluster p).sealHolds a then
          s.modCluster p fun cl => cl.sealEnter [sealRng c a.stash a.addr a.n false ctx a.ord]
        else
          match s.absorbBytes c x a with
          | .wait => s
          | .fault e =>
            if e = cPageNotPresent then
              if a.stash then s.noteStash c.p (c.base + a.addr.toNat) a.n
              else s.noteFirst (asidOf c.part c.space) a.addr.toNat a.n
            else (s.modSeal p ctx fun y => { y with failed := true }).fatal x.cid e 0 (sealHandle x.serial ctx).toNat
          | .done (s, d) =>
            let d := x.data ++ d
            ((s.modCluster p fun c => c.dropSealRng a.ord).modSeal p ctx fun y =>
              { y with data := d, absorbs := rest }).resultLane a.pend a.lane [BitVec.ofNat 64 (d.length % 2 ^ 32)] false
      | _, _ => s

/-- SEAL_ABSORB_END (R432, R434): the first absorb of a context ends, waits for a page (R80), or fails with the crew. -/
def execSealAbsorbEnd (p ctx : Nat) (s : State) : Host.Outcome State Fault Refusal :=
  .next (s.absorbEnd p ctx)

/-- The signed message (R435). -/
def sealMessage (x : SealCtx) (tag : Nat) (inc : BitVec 12) (seq : W64) (time : Nat) : List Byte :=
  let w0 := 2 ^ 56 + x.alg * 2 ^ 52 + x.sha256.toNat * 2 ^ 48 + tag % 2 ^ 10 * 2 ^ 38 + inc.toNat * 2 ^ 26
  let dev (i : Nat) : W64 := BitVec.ofNat 64 ((Config.fuseWord (2 * i)).toNat + (Config.fuseWord (2 * i + 1)).toNat * 2 ^ 32)
  let digest := if x.sha256 then sha256 x.data ++ List.replicate 16 0#8 else sha384 x.data
  bytesOfWords [BitVec.ofNat 64 w0, seq, BitVec.ofNat 64 x.data.length, x.label, BitVec.ofNat 64 time, dev 0, dev 1, 0] ++
    digest

/-- A list of bytes cut or filled with zeros to a length. -/
def fitBytes (n : Nat) (d : List Byte) : List Byte := (d ++ List.replicate n 0#8).take n

/-- The signature of a message (R435, R462). -/
def sealSignature (p : Part) (tag alg : Nat) (msg : List Byte) : List Byte :=
  if alg = 0 then ecdsaSign (sealScalar p.salt tag p.inc.toNat) msg
  else fitBytes 3309 (Config.mldsaSign (sealSeed p.salt tag p.inc.toNat) msg)

/-- An engine's bytes written part by part to global memory, or to the host (R78, R264, R421). -/
def State.globalWrite (s : State) (p : Nat) (asid : BitVec 16) (d : List Byte) : List (Nat × Nat) → Acc State
  | [] => .done s
  | (a, n) :: r =>
    match s.engineGlobal p asid (BitVec.ofNat 64 a) (cleanBytes (d.take n)) with
    | .fault e => .fault e
    | .wait => .wait
    | .done s => State.globalWrite s p asid (d.drop n) r

/-- Bytes of an engine written part by part to the stash (R106). -/
def State.stashWrite (s : State) (p : Nat) (d : List Byte) : List (Nat × Nat) → Acc State
  | [] => .done s
  | (a, n) :: r =>
    match s.stashWriteP p a (cleanBytes (d.take n)) with
    | .fault e => .fault e
    | .wait => .wait
    | .done s => State.stashWrite s p (d.drop n) r

/-- The record is written where the `seal.fin` asked (R434). -/
def State.putRecord (s : State) (c : Crew) (x : SealCtx) (a : SealAbs) (d : List Byte) : Acc State :=
  let asid := asidOf c.part c.space
  let off := c.base + a.addr.toNat
  let n := d.length
  if !(s.cluster c.p).sealMayStart a.ord then .wait
  else if a.stash then
    if s.ownWrites c.p x.cid x.co x.lane none off n then .wait
    else s.stashWrite c.p d (lineParts (n / 128 + 2) off n)
  else if inHost a.addr then
    match smGet s.parts c.part with
    | some p => if p.tdisp = .run then .done { s with hostOut := s.hostOut ++ [(c.part, hostAddr a.addr, d)] } else .fault cPagePerm
    | none => .fault cPagePerm
  else if s.ownWrites c.p x.cid x.co x.lane (some asid) a.addr.toNat n then .wait
  else s.globalWrite c.p asid d (lineParts (n / 128 + 2) a.addr.toNat n)

/-- A record whose write waits for room in the bounce buffer posts the episode (R79). -/
def State.stallRecord (s : State) (c : Crew) (a : SealAbs) (n : Nat) : State :=
  let asid := asidOf c.part c.space
  let absent := !a.stash && !inHost a.addr && (lineParts (n / 128 + 2) a.addr.toNat n).any fun y =>
    match s.homeLand asid (BitVec.ofNat 64 y.1) (cleanBytes (List.replicate y.2 0)) with
    | .fault e => decide (e = cPageNotPresent)
    | _ => false
  if absent then s.bounceEpisode c.part else s

/-- A signed record is out (R434): `%seq` rises, the context is free, the seal log entry is posted and the result known. -/
def State.sealDone (s : State) (p ctx : Nat) (c : Crew) (q : Part) (x : SealCtx) (a : SealAbs) (seq : W64) : State :=
  let s := (s.modPart c.part fun q => { q with seq := seq }).freeSeal p ctx x
  (s.post c.part 67 (s.sealRecord q x 0 0 0 seq)).resultLane a.pend a.lane [seq &&& 0xFFFFFFFF#64] false

/-- The record of a context (R434, R435): message and signature, of the algorithm's length. -/
def State.sealBytes (s : State) (c : Crew) (q : Part) (x : SealCtx) : List Byte :=
  let msg := sealMessage x c.part q.inc (q.seq + 1) s.time
  fitBytes (recordBytes x.alg) (msg ++ sealSignature q c.part x.alg msg)

/-- SEAL_SIGN (R434): the key service signs, `%seq` rises, the record is written and the seal log entry posted; the context
is free and the result known. A record that cannot be written is a fatal fault of the crew (R80). -/
def execSealSign (p ctx : Nat) (s : State) : Host.Outcome State Fault Refusal :=
  .next (
    match smGet (s.cluster p).seals ctx with
    | none => s
    | some x =>
      match x.fin, smGet s.crews x.cid, smGet s.parts (s.sealPart x) with
      | some a, some c, some q =>
        if !x.absorbs.isEmpty || x.failed then s
        else if !(s.cluster p).sealHolds a then
          s.modCluster p fun cl => cl.sealEnter [sealRng c a.stash a.addr a.n true ctx a.ord]
        else
          match s.putRecord c x a (s.sealBytes c q x) with
          | .done s => s.sealDone p ctx c q x a (q.seq + 1)
          | .wait => if (s.cluster c.p).sealMayStart a.ord then s.stallRecord c a (recordBytes x.alg) else s
          | .fault e =>
            if e = cPageNotPresent then s.noteStash c.p (c.base + a.addr.toNat) a.n
            else (s.sealDone p ctx c q x a (q.seq + 1)).fatal x.cid e 0 (sealHandle x.serial ctx).toNat
      | _, _, _ => s)

end Sys2Proof.Machine
end

