-- ==== Sys2Proof/Machine/System.lean ====
section
/-!
DEFINITION. Sys2Proof/Machine/System.lean: the special registers (R143, R144, R438 and the tables of the functions they serve),
`icinv` (R439), `rt.def` (R129), and the firmware instructions (R440 to R442) but `key.wipe`.
-/

namespace Sys2Proof.Machine

/-! Special registers. -/

/-- What a special register is held per (R144). -/
inductive Held where
  | wafer | part | cluster | slice | zone | service | own
  deriving DecidableEq, Repr

/-- The listed registers (R144, R284, R327, R353, R386, R388, R403, R406, R407, R441) and the quick specials (R143). -/
def specHeld (n : Nat) : Option Held :=
  if n ∈ [0x000, 0x123, 0x162, 0x180, 0x181, 0x182] then some .wafer
  else if n ∈ [0x006, 0x007, 0x00A, 0x00B, 0x120, 0x121, 0x122, 0x130, 0x140, 0x150, 0x151, 0x152, 0x153, 0x170, 0x171, 0x172] then
    some .part
  else if n ∈ [0x009, 0x160, 0x173] then some .cluster
  else if n = 0x008 then some .slice
  else if n = 0x161 then some .zone
  else if n = 0x183 then some .service
  else if n ∈ [0x001, 0x002, 0x003, 0x004, 0x005, 0x00C, 0x00D, 0x010, 0x011, 0x012, 0x013, 0x014] then some .own
  else if 0x020 ≤ n ∧ n ≤ 0x02D then some .own
  else none

/-- The number of the holder (R438): the one that firmware names in [14:0] of C, or the issuing thread's own; none when it
names no live tag or lies outside its range. -/
def State.holder (s : State) (x : Slot) (hold : Option Nat) : Held → Option Nat
  | .part =>
    let t := hold.getD x.crew.part
    if (smGet s.parts t).isSome then some t else none
  | .cluster => match hold with
    | none => some x.p
    | some p => if p < Config.clusters then some p else none
  | .slice => match hold with
    | none => some x.k
    | some k => if k < 6 * Config.clusters then some k else none
  | .zone =>
    let z := hold.getD ((clusterZone x.p).getD 0)
    if z < 64 then some z else none
  | .service => match hold with
    | none => some x.p
    | some p => if p < Config.svcClusters then some (Config.clusters + p) else none
  | _ => some 0

/-- `%pmode` (R403): CTX is the running context. -/
def Part.pmodeReg (p : Part) : W64 := p.pmode ||| BitVec.ofNat 64 (p.ctxNow % 16 * 2 ^ 55)

/-- A register held per partition. -/
def Part.reg (p : Part) (tag n : Nat) : W64 :=
  match n with
  | 0x006 => p.fabtmo
  | 0x007 => p.gbstag
  | 0x00A => p.seq
  | 0x00B => BitVec.ofNat 64 tag
  | 0x120 => p.wcbage
  | 0x121 => p.alwrate
  | 0x122 => p.alwcap
  | 0x130 => p.chquota
  | 0x140 => p.gbgrp
  | 0x150 => p.dbgcmp[0]
  | 0x151 => p.dbgcmp[1]
  | 0x152 => p.dbgcmp[2]
  | 0x153 => p.dbgcmp[3]
  | 0x170 => p.pmodeReg
  | 0x171 => BitVec.ofNat 64 (p.qst + p.inc.toNat * 16 + tag * 2 ^ 16)
  | _ => p.cmthr

/-- A register held per cluster. -/
def Cluster.reg (c : Cluster) (n : Nat) : W64 :=
  match n with
  | 0x009 => BitVec.ofNat 64 c.squalls
  | 0x160 => BitVec.ofNat 64 (c.mxduty.toNat + c.dset.toNat * 256)
  | _ => BitVec.ofNat 64 c.g.f

/-- A register of the wafer. -/
def State.waferReg (s : State) (n : Nat) : W64 :=
  match n with
  | 0x000 => BitVec.ofNat 64 s.time
  | 0x123 => Config.fabmod.setWidth 64
  | 0x162 => BitVec.ofNat 64 (s.pkgpwr % 2 ^ 16)
  | 0x180 => s.lifecycle.setWidth 64
  | 0x181 => s.chal
  | _ => BitVec.ofNat 64 (s.latchV.toNat + s.latchW.toNat * 2 + s.latchM.toNat * 4)

/-- `%fstat` (R144). -/
def Thread.fstat (th : Thread) : Nat :=
  (List.range 12).foldl (fun y i => if th.f[i]?.getD 0 ≠ 0 then y + 2 ^ i else y) 0

/-- A register held per thread, cohort or crew, as the issuing thread reads it (R143, R144). -/
def State.ownReg (s : State) (x : Slot) (i : Fin 32) (n : Nat) : W64 :=
  let th := x.coh.threads[i]
  match n with
  | 0x001 => x.crew.trph
  | 0x002 => th.tcause.setWidth 64
  | 0x003 => th.taddr
  | 0x004 => th.trpc
  | 0x005 => BitVec.ofNat 64 ((x.coh.rgn.opened && x.coh.rgn.explicit).toNat * 2 ^ 32 + x.coh.rgnCount.toNat)
  | 0x00C => BitVec.ofNat 64 x.crew.space
  | 0x00D => BitVec.ofNat 64 th.fstat
  | 0x010 => x.crew.dline[0]
  | 0x011 => x.crew.dline[1]
  | 0x012 => x.crew.dline[2]
  | 0x013 => x.crew.dline[3]
  | 0x014 => x.crew.dlstat.setWidth 64
  | n => BitVec.ofNat 64 (specialVal (specEnv s x.crew x.run.tile x.co i.val x.lat[i]) (n - 0x020))

/-- The value of a register and holder. -/
def State.specReg (s : State) (x : Slot) (i : Fin 32) (n : Nat) (h : Held) (k : Nat) : W64 :=
  match h with
  | .wafer => s.waferReg n
  | .part => match smGet s.parts k with | some p => p.reg k n | none => 0
  | .cluster => (s.cluster k).reg n
  | .slice => (s.issue k).ratio.setWidth 64
  | .zone => BitVec.ofNat 64 (smGetD s.zonecur k 0 % 2 ^ 16)
  | .service => (s.cluster k).haltcode
  | .own => s.ownReg x i n

/-- The holder operand (R438). -/
def Slot.hold (x : Slot) (i : Fin 32) : Option Nat :=
  if x.f.c.sel = .none then none else some (bits (x.c[i]).lo.toNat 14 0)

/-- What a `sysrd` of one thread gives (R143, R438). A tenant's read of a firmware register, 0x100 to 0xFFF, faults PRIV, as R143 says of
those numbers; R2's "read by any privilege" is taken to leave R143 its say there (the model's choice between the two; log 41). -/
def State.sysRead (s : State) (x : Slot) (i : Fin 32) : Except Cause W64 :=
  let n := (x.a[i]).lo.toNat
  if (x.a[i]).p || (decide (x.f.c.sel ≠ .none) && (x.c[i]).p) then .error cPoisonUse
  else if x.crew.part ≠ Config.svcTag ∧ 0x100 ≤ n ∧ n ≤ 0xFFF then .error cPriv
  else
    match specHeld n with
    | none => .error cIllegalOperand
    | some h =>
      if h = .part ∧ n = 0x00B ∧ x.hold i = none then .ok (BitVec.ofNat 64 x.crew.part)
      else
        match s.holder x (x.hold i) h with
        | none => .error cIllegalOperand
        | some k => .ok (s.specReg x i n h k)

/-- The fault of a `sysrd` in a lane. -/
def State.sysFault (s : State) (x : Slot) (i : Fin 32) : Option (Cause × W64) :=
  match s.sysRead x i with
  | .error c => some (c, 0)
  | .ok _ => none

/-- The word that a `sysrd` gives in a lane, entered with the others. -/
def sysrdLane (s : State) (x : Slot) (i : Fin 32) (y : SMap LaneRes) : SMap LaneRes :=
  match s.sysRead x i with
  | .ok v => smSet y i.val { val := [v], p := false }
  | .error _ => y

/-- `sysrd` (R143, R433, R438): a read of `%time.lo` sets the thread's time latch (R33). -/
def execSysrd (f : Fields) (s : State) : Host.Outcome State Fault Refusal :=
  runSlot .sysrd f s fun x s =>
    let l := x.faults (s.sysFault x)
    let m := x.done l
    let vals := forL (lanesOf m) [] (sysrdLane s x)
    let low := laneFilter m fun i => decide ((x.a[i]).lo.toNat = 0x02C)
    let t := BitVec.ofNat 64 s.time
    (finishLate x l s.nextId true (s.addPend (x.pend 2 m 0 vals))).slotLanes x low fun _ th => { th with latch := t }

/-- A value written into a register of one field when the whole value lies in the field's range (R438). -/
def inRange (v lo hi : Nat) (old : W64) : W64 := if lo ≤ v ∧ v ≤ hi then BitVec.ofNat 64 v else old

/-- A write of `%pmode` (R403): TS, NCTX and SLEN only while QUIESCED; CTX is read-only. -/
def pmodeWrite (quiet : Bool) (old v : W64) : W64 :=
  let slen := fld v 49 30
  let keep (hi lo : Nat) : Nat := fld old hi lo
  let ts := if quiet then fld v 63 63 else keep 63 63
  let nctx := if quiet then fld v 62 59 else keep 62 59
  let sl := if quiet && decide (100 ≤ slen) && decide (slen ≤ 1000000) then slen else keep 49 30
  BitVec.ofNat 64 (ts * 2 ^ 63 + nctx * 2 ^ 59 + fld v 51 50 * 2 ^ 50 + sl * 2 ^ 30)

/-- A write of `%cmthr` (R406): a zero leaves its field. -/
def cmthrWrite (old v : W64) : W64 :=
  let q := if fld v 31 16 = 0 then fld old 31 16 else fld v 31 16
  let d := if fld v 15 0 = 0 then fld old 15 0 else fld v 15 0
  BitVec.ofNat 64 (q * 2 ^ 16 + d)

/-- `%dbgcmp` with its reserved bits zero (R386). -/
def dbgcmpWrite (v : W64) : W64 := v &&& 0xF9FFFFFFFFFFFFFF#64

/-- A write to a register held per partition (R144, R438). -/
def Part.setReg (p : Part) (n : Nat) (v : W64) : Part :=
  match n with
  | 0x006 => { p with fabtmo := inRange v.toNat 1000 100000000 p.fabtmo }
  | 0x007 => { p with gbstag := inRange v.toNat 0 1023 p.gbstag }
  | 0x120 => { p with wcbage := inRange v.toNat 0 8 p.wcbage }
  | 0x121 => { p with alwrate := inRange v.toNat 1 18800 p.alwrate }
  | 0x122 => { p with alwcap := inRange v.toNat 4096 (2 ^ 31 - 1) p.alwcap }
  | 0x130 => { p with chquota := inRange v.toNat 1 65535 p.chquota }
  | 0x140 => { p with gbgrp := inRange v.toNat 1 16 p.gbgrp }
  | 0x150 => { p with dbgcmp := p.dbgcmp.set 0 (dbgcmpWrite v) }
  | 0x151 => { p with dbgcmp := p.dbgcmp.set 1 (dbgcmpWrite v) }
  | 0x152 => { p with dbgcmp := p.dbgcmp.set 2 (dbgcmpWrite v) }
  | 0x153 => { p with dbgcmp := p.dbgcmp.set 3 (dbgcmpWrite v) }
  | 0x170 => { p with pmode := pmodeWrite (decide (p.qst = 2)) p.pmode v }
  | 0x172 => { p with cmthr := cmthrWrite p.cmthr v }
  | _ => p

/-- A `syswr` of one thread (R438). -/
def State.sysWrite (s : State) (h : Held) (k n : Nat) (v : W64) : State :=
  match h with
  | .part => s.modPart k fun p => p.setReg n v
  | .slice =>
    let r := v.toNat
    if 8 ≤ r ∧ r ≤ 16 then s.modIssue k fun i => { i with ratio := BitVec.ofNat 5 r } else s
  | .cluster =>
    let d := fld v 4 0
    if n = 0x160 ∧ 1 ≤ d ∧ d ≤ 16 then s.modCluster k fun c => { c with mxduty := BitVec.ofNat 5 d, dset := BitVec.ofNat 5 d }
    else s
  | _ => s

/-- An instruction without a result whose executing threads act in lane order. -/
def actSlot (x : Slot) (ad : Fin 32 → W64) (g : Fin 32 → State → Except Cause State) (s : State) : State :=
  let (s, l) := forL (lanesOf x.ex) (s, ([] : List (Nat × TrapRec))) fun i y =>
    match g i y.1 with
    | .error c => (y.1, y.2 ++ [(i.val, preciseTrap x.run c (faultAddr c (ad i)))])
    | .ok t => (t, y.2)
  finishSlot x l .none s

/-- `syswr` (R433, R438): the write has taken effect when the slot ends. -/
def execSyswr (f : Fields) (s : State) : Host.Outcome State Fault Refusal :=
  runSlot .syswr f s fun x s =>
    actSlot x (fun i => (x.a[i]).lo.setWidth 64) (fun i s =>
      let n := (x.a[i]).lo.toNat
      if (x.a[i]).p || (x.b[i]).p || (x.c[i]).p then .error cPoisonUse
      else
        match specHeld n with
        | none | some .own => .error cIllegalOperand
        | some h =>
          match s.holder x (x.hold i) h with
          | none => .error cIllegalOperand
          | some k => .ok (s.sysWrite h k n (x.b[i]).v)) s

/-! Clause caches and routes. -/

/-- One lane of an `icinv` (R439): its earlier stores to the range are performed, then the clause caches lose the range. -/
def icinvLane (x : Slot) (i : Fin 32) (s : State) : State :=
  let n := (x.b[i]).lo.toNat
  if n = 0 then s
  else
    let lo := (x.a[i]).v.toNat
    let r := some [(lo, lo + n)]
    s.startFence x.cid x.co x.run.tok (laneBit i.val) x.trpc
      { hold := false, rel := true, acq := false, scope := 0, ranges := r, step := 0, waits := [],
        next := .icache lo (lo + n) }

/-- The fault of an `icinv` in a lane (R433, R439). -/
def Slot.icinvFault (x : Slot) (i : Fin 32) : Option (Cause × W64) :=
  if (x.a[i]).p || (x.b[i]).p then some (cPoisonUse, 0)
  else if (x.b[i]).lo.toNat = 0 then none
  else atAddr (x.a[i]).v (addrFault ((x.a[i]).v.toNat : Int) (x.b[i]).lo.toNat 0)

/-- `icinv` (R439). -/
def execIcinv (f : Fields) (s : State) : Host.Outcome State Fault Refusal :=
  runSlot .icinv f s fun x s =>
    let l := x.faults x.icinvFault
    forL (lanesOf (x.done l)) (finishSlot x l .none s) (icinvLane x)

/-- The 64 entries of a route image (R127). -/
def routeImage : Nat → List Byte → List W32
  | 0, _ => []
  | n + 1, d => BitVec.ofNat 32 (natOfBytes (d.take 4)) :: routeImage n (d.drop 4)

/-- The position of a station (R127). -/
def stationPos (e : W32) : Nat := bits e.toNat 23 0

/-- A list of positions names one twice, and names one twice in a row. -/
def twice : List Nat → Bool
  | [] => false
  | a :: r => r.contains a || twice r

/-- See `twice`. -/
def twiceRunning : List Nat → Bool
  | a :: b :: r => decide (a = b) || twiceRunning (b :: r)
  | _ => false

/-- A route image that R129 refuses with COPY_INVALID. -/
def routeBad (l : List W32) : Bool :=
  let st := stationsOf l
  st.isEmpty || st.any (fun e => decide (bits e.toNat 29 24 ≠ 0)) || (l.drop st.length).any (fun e => decide (e ≠ 0)) ||
    twice ((st.filter fun e => !e.getLsbD 30).map stationPos) || twiceRunning (st.map stationPos)

/-- `rt.def` (R129): installed in every cluster of the partition at once. -/
def execRtDef (f : Fields) (s : State) : Host.Outcome State Fault Refusal :=
  runSlot .rtDef f s fun x s =>
    seqSlot x (fun i s =>
      let a := (x.a[i]).lo.toNat
      let b := (x.b[i]).lo.toNat
      let l := routeImage 64 (memRead s.mem (x.crew.stashAt b) 256)
      match firstErr
        [failIf ((x.a[i]).p || (x.b[i]).p) cPoisonUse, failIf (decide (b % 128 ≠ 0)) cMisaligned,
         failIf (decide (x.crew.dOff < b + 256)) cStashBounds, failIf (decide (256 ≤ a) || routeBad l) cCopyInvalid,
         failIf ((stationsOf l).any fun e => s.badStation x.crew.part e) cRouteOwner] with
      | some c => .error c
      | none => .ok (s.modPart x.crew.part fun p => { p with routes := smSet p.routes a l }, 0)) s
      (fun i => (x.b[i]).lo.setWidth 64)

/-! Firmware (R440 to R442). -/

/-- `fuse.rd` (R440). -/
def execFuseRd (f : Fields) (s : State) : Host.Outcome State Fault Refusal :=
  runSlot .fuseRd f s fun x s =>
    seqSlot x (fun i s =>
      let n := (x.a[i]).lo.toNat
      if (x.a[i]).p then .error cPoisonUse
      else if 16 < n then .error cIllegalOperand
      else .ok (s, if n = 4 then Config.lifecycleFuse.setWidth 64 else (Config.fuseWord n).setWidth 64)) s

/-- All three latches clear (R441). -/
def State.clearLatches (s : State) : State := { s with latchV := false, latchW := false, latchM := false }

/-- A measurement register as 48 bytes, in digest order (R430). -/
def mrBytes (r : BitVec 384) : List Byte := bytesBE 48 r.toNat

/-- `meas.ext` of one thread (R441). -/
def State.measExt (s : State) (b : Nat) (d : List Byte) : State :=
  let old := s.mr[b]?.getD 0
  let dig := sha384 (mrBytes old ++ d)
  let ok := s.latchV && s.latchW && decide (b = 0) && decide (natOfBytesBE d = s.latched.toNat)
  let s := { s with mr := s.mr.setIfInBounds b (BitVec.ofNat 384 (natOfBytesBE dig)) }
  if ok then { s with latchM := true } else s.clearLatches

/-- The mapped lines of a physical stash range are all Valid, or orphans (R106). -/
def Cluster.linesReady (c : Cluster) (off n : Nat) : Bool :=
  c.mapped.all fun y => !overlaps (128 * y.1) (128 * y.1 + 128) off (off + n) || decide (2 ≤ y.2.st)

/-- The Empty mapped lines of a range begin to fill (R106). -/
def Cluster.startFills (c : Cluster) (off n : Nat) : Cluster :=
  { c with mapped := smMap (fun k l =>
      if overlaps (128 * k) (128 * k + 128) off (off + n) && l.st = 0 then { l with st := 1 } else l) c.mapped }

/-- The physical stash ranges of the executing lanes. -/
def stashLines (x : Slot) (rngs : Fin 32 → List (Nat × Nat)) : List (Nat × Nat) :=
  (lanesOf x.ex).flatMap fun i => (rngs i).map fun y => (x.crew.base + y.1, y.2)

/-- A firmware instruction that reads its stash: while a mapped line of its ranges fills, the slot waits (R106). `rngs` gives
the window ranges of a lane that has passed its checks. -/
def stashSlot (o : Op) (f : Fields) (s : State) (rngs : Slot → Fin 32 → List (Nat × Nat)) (body : Slot → State → State) :
    Host.Outcome State Fault Refusal :=
  runSlot o f s fun x s =>
    let l := stashLines x (rngs x)
    if l.all fun y => (s.cluster x.p).linesReady y.1 y.2 then body x s
    else forL l s fun y s => s.modCluster x.p fun c => c.startFills y.1 y.2

/-- The fault of a firmware instruction's range: R105, and an orphan line (R106). -/
def State.firmFault (s : State) (x : Slot) (off n : Nat) (wr : Bool) : Option Cause :=
  match x.crew.stashFault off n wr with
  | some c => some c
  | none => failIf ((s.cluster x.p).orphan (x.crew.base + off) n) cStashOrphan

/-- The fault of `meas.ext` in a lane (R433). -/
def State.measFault (s : State) (x : Slot) (i : Fin 32) : Option Cause :=
  firstErr
    [failIf ((x.a[i]).p || (x.b[i]).p) cPoisonUse, failIf (decide (3 < (x.b[i]).lo.toNat)) cIllegalOperand,
     s.firmFault x (x.a[i]).lo.toNat 48 false]

/-- A `meas.ext` of one thread (R433, R441). -/
def State.measOne (s : State) (x : Slot) (i : Fin 32) : Except Cause (State × W64) :=
  match s.measFault x i with
  | some c => .error c
  | none => .ok (s.measExt (x.b[i]).lo.toNat (memRead s.mem (x.crew.stashAt (x.a[i]).lo.toNat) 48), 0)

/-- `meas.ext` (R433, R441). -/
def execMeasExt (f : Fields) (s : State) : Host.Outcome State Fault Refusal :=
  stashSlot .measExt f s (fun x i => if (s.measFault x i).isNone then [((x.a[i]).lo.toNat, 48)] else []) fun x s =>
    seqSlot x (fun i s => s.measOne x i) s

/-- The digest of the debug authority's key equals fuse words 5 to 16 (R440, R441). -/
def debugKeyOk : Bool :=
  let d := sha384 ([0x04#8] ++ bytesBE 48 Config.debugKey.1 ++ bytesBE 48 Config.debugKey.2)
  decide (d = (List.range 12).flatMap fun i => bytesOfNat 4 (Config.fuseWord (5 + i)).toNat)

/-- The device identifier as 16 bytes (R440). -/
def deviceId : List Byte := (List.range 4).flatMap fun i => bytesOfNat 4 (Config.fuseWord i).toNat

/-- The verdict on an unlock token (R441): version and zero bytes are not among what the verdict tests. -/
def State.tokenVerdict (s : State) (t : List Byte) : Nat :=
  if !debugKeyOk || !ecdsaVerify Config.debugKey (t.take 64) ((t.drop 64).take 96) then 0
  else if t.take 16 = deviceId ∧ natOfBytes ((t.drop 16).take 4) = 2 ∧ s.lifecycle = 2 ∧
      natOfBytes ((t.drop 24).take 8) = s.chal.toNat then 1
  else 2

/-- The fault of `sig.vfy` in a lane (R433, R441): the token is read and 48 bytes after it are written. -/
def State.sigFault (s : State) (x : Slot) (i : Fin 32) : Option Cause :=
  let a := (x.a[i]).lo.toNat
  firstErr
    [failIf ((x.a[i]).p || (x.b[i]).p) cPoisonUse, failIf (decide ((x.b[i]).lo ≠ 0)) cIllegalOperand,
     s.firmFault x a 160 false, s.firmFault x (a + 160) 48 true]

/-- The digest written into the stash (R106, R441). -/
def State.putDigest (s : State) (x : Slot) (a : Nat) (d : List Byte) : Acc State :=
  s.stashWrite x.p d (lineParts 3 (x.crew.base + a + 160) 48)

/-- The verdict delivered, V set or the latches cleared (R441). -/
def State.latchVerdict (s : State) (v : Nat) (d : List Byte) : State :=
  if v = 1 then { s with latchV := true, latched := BitVec.ofNat 384 (natOfBytesBE d) } else s.clearLatches

/-- The token at a stash offset. -/
def State.tokenAt (s : State) (x : Slot) (a : Nat) : List Byte := memRead s.mem (x.crew.stashAt a) 160

/-- A `sig.vfy` of one thread (R433, R441, R459): the digest is written, and V set, before the verdict. -/
def State.sigOne (s : State) (x : Slot) (i : Fin 32) : Except Cause (State × W64) :=
  match s.sigFault x i with
  | some c => .error c
  | none =>
    let t := s.tokenAt x (x.a[i]).lo.toNat
    let d := sha384 (t.take 64)
    match s.putDigest x (x.a[i]).lo.toNat d with
    | .fault c => .error c
    | .wait => .ok (s, 0)
    | .done s => .ok (s.latchVerdict (s.tokenVerdict t) d, BitVec.ofNat 64 (s.tokenVerdict t))

/-- `sig.vfy` (R433, R441, R459). -/
def execSigVfy (f : Fields) (s : State) : Host.Outcome State Fault Refusal :=
  stashSlot .sigVfy f s (fun x i => if (s.sigFault x i).isNone then [((x.a[i]).lo.toNat, 208)] else []) fun x s =>
    seqSlot x (fun i s => s.sigOne x i) s

/-- `dbg.open` (R431, R441). -/
def execDbgOpen (f : Fields) (s : State) : Host.Outcome State Fault Refusal :=
  runSlot .dbgOpen f s fun x s =>
    seqSlot x (fun _ s =>
      if s.latchV && s.latchW && s.latchM then .ok ({ s.clearLatches with lifecycle := 3, debugPort := true }, 0)
      else .ok (s.clearLatches, 1)) s

/-- `halt` (R442): the code, and the issuing service cluster stops. -/
def execHalt (f : Fields) (s : State) : Host.Outcome State Fault Refusal :=
  runSlot .halt f s fun x s =>
    actSlot x (fun i => (x.a[i]).lo.setWidth 64) (fun i s =>
      if (x.a[i]).p then .error cPoisonUse
      else .ok (s.modCluster x.p fun c => { c with haltcode := (x.a[i]).lo.setWidth 64, halted := true })) s

end Sys2Proof.Machine
end

