-- ==== Sys2Proof/Machine/Mapping.lean ====
section
/-!
DEFINITION. Sys2Proof/Machine/Mapping.lean: the translation commands of R72 and what they reach (R63, R73, R78, R82, R83,
R106): each command is one step, its commit instant (log 24); and the end of a cell's scrubbing (R63, R64).
-/

namespace Sys2Proof

/-- The first granule of the page that a command names (R425): its VA, rounded down to the page size (log 24). -/
def MapCmd.lo (m : MapCmd) : Nat :=
  Machine.vpnOf m.va / Machine.sizeGranules m.size.toNat * Machine.sizeGranules m.size.toNat

/-- The granule after the page. -/
def MapCmd.hi (m : MapCmd) : Nat := m.lo + Machine.sizeGranules m.size.toNat

/-- ASID of a command's space (R55). -/
def MapCmd.asid (m : MapCmd) (part : Nat) : BitVec 16 := Machine.asidOf part m.space.toNat

end Sys2Proof

namespace Sys2Proof.Machine

/-! Page tables (R65, R66). -/

/-- A valid leaf met in a table: its level, first granule, address and entry. -/
structure Leaf where
  level : Nat
  vpn : Nat
  addr : Nat
  e : W64
  deriving DecidableEq, Repr, Inhabited

/-- The valid leaves below a table cell that map a granule from `lo` to `hi` - 1 (R66). -/
def State.leavesIn (s : State) (lo hi : Nat) : Nat → Nat → Nat → List Leaf
  | 0, _, _ => []
  | l + 1, cell, base =>
    (List.range 512).flatMap fun i =>
      let b := base + i * 512 ^ l
      let e := s.word64 (pteAddr cell i)
      if hi ≤ b || b + 512 ^ l ≤ lo || !e.getLsbD 0 then []
      else if e.getLsbD 1 then (if l < 3 then [{ level := l + 1, vpn := b, addr := pteAddr cell i, e := e }] else [])
      else if l = 0 || !s.owned (pteNext e) 0 then []
      else s.leavesIn lo hi l (pteNext e) b

/-- The valid leaves of a space that map a granule of a range. -/
def State.leaves (s : State) (asid : BitVec 16) (lo hi : Nat) : List Leaf :=
  match s.root asid with
  | some r => s.leavesIn lo hi 5 r 0
  | none => []

/-- Frame of the first granule of a leaf (R60). -/
def Leaf.frame (l : Leaf) : Nat := fld l.e 32 12 / 512 ^ (l.level - 1) * 512 ^ (l.level - 1)

/-- Granules of a leaf. -/
def Leaf.granules (l : Leaf) : Nat := 512 ^ (l.level - 1)

/-- The valid leaves of the page of a command's size (R68, R72): one, or the sixteen entries of a 64 KiB page; none when there
is no such leaf. -/
def State.pageLeaves (s : State) (asid : BitVec 16) (m : MapCmd) : List Leaf :=
  let l := (s.leaves asid m.lo m.hi).filter fun x => x.level = sizeLevel m.size.toNat
  if l.length = (if m.size = 1 then 16 else 1) then l else []

/-- The granules of a page with their frames. -/
def pageFrames (l : List Leaf) : List (Nat × Nat) :=
  l.flatMap fun x => (List.range x.granules).map fun j => (x.vpn + j, x.frame + j)

/-- The path from a table down to the table of level `target` that holds a granule's entry; absent tables are taken from the
service block's cells (R63, R65). None when no cell is free: the command then fails, which R72 leaves open (DESIGN CHOICE,
log 36). -/
def State.tablePath (s : State) (vpn target : Nat) : Nat → Nat → Option (State × Nat)
  | 0, _ => none
  | l + 1, cell =>
    if l + 1 = target then some (s, cell)
    else
      let a := pteAddr cell (pteIdx (l + 1) vpn)
      let e := s.word64 a
      if e.getLsbD 0 then State.tablePath s vpn target l (pteNext e)
      else
        match s.takeCell with
        | none => none
        | some (s, c) =>
          let s := s.setPte a (pteWord (c % Config.cells) (c / Config.cells) false false false false false false)
          State.tablePath s vpn target l c

/-- The root table of a space, created when it has none: R65 does not say when a space is created, and the model creates it at
the space's first MAP; a space without a root walks to PAGE_NOT_PRESENT (DESIGN CHOICE, log 36). -/
def State.makeRoot (s : State) (asid : BitVec 16) : Option (State × Nat) :=
  match s.root asid with
  | some r => some (s, r)
  | none =>
    s.takeCell.map fun x =>
      (x.1.modPart (asidTag asid) fun p => { p with roots := smSet p.roots (asidSpace asid) x.2 }, x.2)

/-- A table that holds no valid leaf goes to Scrubbing with the tables below it (R63, R72). -/
def State.freeTables (s : State) : Nat → Nat → State
  | 0, _ => s
  | l + 1, cell =>
    let s := forN 512 s fun i s =>
      let e := s.word64 (pteAddr cell i)
      if e.getLsbD 0 && !e.getLsbD 1 && decide (l ≠ 0) && s.owned (pteNext e) 0 then State.freeTables s l (pteNext e) else s
    s.setCell cell 2 0

/-- Writes the leaf of a page, as sixteen entries for 64 KiB (R66, R68). -/
def State.writeLeaf (s : State) (cell : Nat) (m : MapCmd) (frame : Nat) (w x al mi : Bool) : State :=
  let n := if m.size = 1 then 16 else 1
  let lvl := sizeLevel m.size.toNat
  forN n s fun j s =>
    s.setPte (pteAddr cell (pteIdx lvl (m.lo + j))) (pteWord (frame + j) 0 (decide (m.size = 1)) mi al x w true)

/-! Completion (R426). -/

/-- The number of a command's failure in its completion record, which R72 does not give (log 24). -/
def failCode (n : Nat) : Nat := 1 + 256 * ((Config.unstated 426 (BitVec.ofNat 64 n) 0).toNat % 256)

/-- The completion record of a mapping command (R73, R426). -/
def State.mapDone (s : State) (part : Nat) (m : MapCmd) (status : Nat) : State :=
  s.postEvent part 2 m.space.toNat m.stamp m.cookie status

/-- A command that has its effect, or fails without one (R72). -/
def State.mapping (s : State) (part : Nat) (m : MapCmd) (r : Option State) : State :=
  if (smGet s.parts part).isNone then s
  else
    match r with
    | some t => t.mapDone part m 0
    | none => s.mapDone part m (failCode m.size.toNat)

/-! Frames (R63). -/

/-- The cells of a run of stripe frames on every owned channel (R59), those that exist (R51). -/
def State.frameCells (s : State) (part frame n : Nat) : List Nat :=
  (s.channels part).flatMap fun q => (List.range (min n (Config.cells - frame))).map fun j => cellNo q (frame + j)

/-- ACQUIRE (R63, R72): fails when a cell is Owned, or does not exist; waits while one is Scrubbing. -/
def State.acquireNow (s : State) (part : Nat) (m : MapCmd) : State :=
  let n := m.count.toNat
  let l := s.frameCells part m.frame.toNat n
  if Config.cells < m.frame.toNat + n || l.any fun c => (s.cell c).1 = 1 then s.mapping part m none
  else if l.any fun c => 2 ≤ (s.cell c).1 then { s with acqWait := s.acqWait ++ [(part, m)] }
  else s.mapping part m (some (forL l s fun c s => s.setCell c 1 part))

/-- ACQUIRE (R63, R72). -/
def execAcquire (part : Nat) (m : MapCmd) (s : State) : Host.Outcome State Fault Refusal :=
  .next (if (smGet s.parts part).isNone then s else s.acquireNow part m)

/-- A cell of stripe frames from `frame` on is still mapped in some space of the partition (R72). -/
def State.stillMapped (s : State) (part frame n : Nat) : Bool :=
  match smGet s.parts part with
  | none => false
  | some p => p.roots.any fun r =>
      (s.leavesIn 0 (2 ^ 45) 5 r.2 0).any fun l => overlaps l.frame (l.frame + l.granules) frame (frame + n)

/-- RELEASE (R63, R72). -/
def execRelease (part : Nat) (m : MapCmd) (s : State) : Host.Outcome State Fault Refusal :=
  .next (s.mapping part m (
    if s.stillMapped part m.frame.toNat m.count.toNat then none
    else some (forL (s.frameCells part m.frame.toNat m.count.toNat) s fun c s => if s.owned c part then s.setCell c 2 0 else s)))

/-- The waiting ACQUIREs are tried again, in order (R63). -/
def State.retryAcquires (s : State) : State :=
  forL s.acqWait { s with acqWait := [] } fun x s => s.acquireNow x.1 x.2

/-- The L0 lines and mapped stash lines that hold data of a cell are invalidated (R64): a Valid mapped line becomes an orphan. -/
def State.dropCell (s : State) (c : Nat) : State :=
  let orphan (l : MLine) : MLine := if l.st = 2 && decide (l.cell = c) then { l with st := 3, mask := 0 } else l
  let hit := s.clusters.flatMap fun x => x.2.mapped.filterMap fun y =>
    if y.2.st = 2 && decide (y.2.cell = c) then some (x.1, y.1) else none
  let s := { s with clusters := smMap (fun _ x => { (x.dropL0 fun l => l.cell = c) with mapped := smMap (fun _ l => orphan l) x.mapped }) s.clusters }
  forL hit s fun y s => s.mlineRest y.1 y.2

/-- ROW_CLEAR_DONE (R63, R64): the row clear of a Scrubbing cell has ended; the slice lines, L0 lines and mapped stash lines that
carry it are discarded and the cell is Free. -/
def execRowClearDone (ch frame : Nat) (s : State) : Host.Outcome State Fault Refusal :=
  .next (
    let c := cellNo ch frame
    if Config.cells ≤ frame || (s.cell c).1 < 2 || s.fenced.contains (sliceSite ch) then s
    else
      let keys := (s.slice ch).lines.filterMap fun y =>
        if (y.2.st = 1 || y.2.st = 2) && y.2.frame = frame then some y.1 else none
      let s := forL keys (s.clearCell c) fun k s => s.dropWay ch k
      ((s.dropCell c).setCell c 0 0).retryAcquires)

/-! What waits for a page, and what holds it. -/

/-- A virtual address lies in a page of granules. -/
def inPage (lo hi : Nat) (va : W64) : Bool := decide (lo ≤ vpnOf va) && decide (vpnOf va < hi)

/-- Requests that wait for a page outside their thread's contrail, and contrail entries, are sent again (R76, R251). -/
def State.wakeRequests (s : State) (asid : BitVec 16) (lo hi : Nat) : State :=
  forL s.reqs s fun x s =>
    let r := x.2
    if r.stage ≠ .contrail || r.asid ≠ asid || !inPage lo hi r.va || r.host then s
    else
      let trailed := (match s.thread? r.cid r.co r.lane with | some th => th.contrail.contains x.1 | none => false)
      if trailed then
        ({ s with reqs := smSet s.reqs x.1 { r with stage := .replay } }).replayHead r.cid r.co r.lane
      else s.sendAgain x.1 r

/-- The waits of a page end (R76). -/
def State.dropWaits (s : State) (asid : BitVec 16) (lo hi : Nat) : State :=
  s.modPart (asidTag asid) fun p => { p with waits := p.waits.filter fun w => !(decide (w.asid = asid) && inPage lo hi w.page) }

/-- Everything that waits for a page goes on (R72, R76). -/
def State.wakePage (s : State) (asid : BitVec 16) (lo hi : Nat) : State :=
  ((s.dropWaits asid lo hi).wakeRequests asid lo hi).retryInbound

/-- Walk-cache entries of a space leave (R82 step 2). -/
def State.dropWalks (s : State) (asid : BitVec 16) : State :=
  { s with slices := smMap (fun _ sl => { sl with wcache := sl.wcache.filter fun w => w.asid ≠ asid }) s.slices }

/-- TLB entries that cover a granule of a page leave (R82 step 2). -/
def State.dropTlb (s : State) (asid : BitVec 16) (lo hi : Nat) : State :=
  let hit (t : Tlb) : Bool := decide (t.asid = asid) && overlaps t.page (t.page + sizeGranules t.size) lo hi
  { s with slices := smMap (fun _ sl => { sl with tlb := sl.tlb.filter fun t => !hit t }) s.slices }

/-- The slice lines of a page are written back and invalidated, unpinned (R81, R82 step 3). -/
def State.evictPage (s : State) (asid : BitVec 16) (lo hi : Nat) : State :=
  forL s.slices s fun y s =>
    forL y.2.lines s fun z s =>
      let l := z.2
      if (l.st = 1 || l.st = 2) && l.asid = asid && lo ≤ l.vpn.toNat && l.vpn.toNat < hi then s.evict y.1 z.1 else s

/-- The L0 lines of a page leave (R82 step 4). -/
def State.dropL0Page (s : State) (asid : BitVec 16) (lo hi : Nat) : State :=
  { s with clusters := smMap (fun _ c => c.dropL0 fun l => decide (l.asid = asid) && inPage lo hi l.va) s.clusters }

/-- The clause cache lines of a page leave (R82 step 4). -/
def State.dropCcPage (s : State) (asid : BitVec 16) (lo hi : Nat) : State :=
  let f (c : Cluster) : Cluster := { c with cc := c.cc.filter fun x => !(decide (x.1 = asid) && inPage lo hi x.2.1) }
  { s with clusters := smMap (fun _ c => f c) s.clusters }

/-- The mapped stash lines of a page: cluster, line and state. -/
def State.pageMlines (s : State) (asid : BitVec 16) (lo hi : Nat) : List (Nat × Nat × MLine) :=
  s.clusters.flatMap fun c => c.2.mapped.filterMap fun y =>
    if s.lineAsid y.2 = asid && inPage lo hi y.2.va then some (c.1, y.1, y.2) else none

/-- The mapped lines that a crew holds saved become orphans where a page maps them (R82 step 5, R404). -/
def Crew.orphan (asid : BitVec 16) (lo hi : Nat) (c : Crew) : Crew :=
  if asidOf c.part c.space = asid then
    { c with lines := c.lines.map fun y => if inPage lo hi y.2.va then (y.1, { y.2 with st := 3, mask := 0 }) else y }
  else c

/-- The mapped stash lines of a page become orphans, those of saved crews too; their dirty granules are discarded, and accesses
that wait for a fill fault (R82 step 5, R106). -/
def State.orphanPage (s : State) (asid : BitVec 16) (lo hi : Nat) : State :=
  let s := { s with crews := smMap (fun _ c => c.orphan asid lo hi) s.crews,
                    checks := smMap (fun _ k => { k with crew := k.crew.orphan asid lo hi }) s.checks }
  forL (s.pageMlines asid lo hi) s fun y s =>
    let (p, line, l) := y
    let s := if l.st = 1 then s.failMline p line l cStashOrphan else s
    (s.modMline p (128 * line) fun l => { l with st := 3, mask := 0 }).mlineRest p line

/-- Steps 2 to 4 of R82. -/
def State.flushPage (s : State) (asid : BitVec 16) (lo hi : Nat) : State :=
  ((((s.dropTlb asid lo hi).dropWalks asid).evictPage asid lo hi).dropL0Page asid lo hi).dropCcPage asid lo hi

/-! MAP. -/

/-- The bounce records of a page are applied to its cells in order, and leave the buffer (R78 step 4); room that they free ends
the episode of a full buffer (R79). -/
def State.applyBounce (s : State) (asid : BitVec 16) (m : MapCmd) (frame : Nat) : State :=
  match smGet s.parts (asidTag asid) with
  | none => s
  | some p =>
    let mine (b : Bounce) : Bool := decide (b.asid = asid) && inPage m.lo m.hi b.va
    let s := forL (p.bounce.filter mine) s fun b s =>
      let vpn := vpnOf b.va
      match s.home asid b.va with
      | none => s
      | some q =>
        let a := 4096 * cellNo q (frame + (vpn - m.lo)) + b.va.toNat % 4096
        let s := s.putBytesP a b.data
        { s with marks := nsAdd (a / 128) s.marks }
    s.modPart (asidTag asid) fun p =>
      { p with bounce := p.bounce.filter fun b => !mine b, bounceFull := p.bounceFull && !p.bounce.any mine }

/-- Every cell of the stripe frames of a page is owned by the partition on every owned channel (R72). -/
def State.cellsOwned (s : State) (part frame n : Nat) : Bool :=
  decide (frame + n ≤ Config.cells) && (s.frameCells part frame n).all fun c => s.owned c part

/-- MAP's effect (R72): none when it fails. -/
def State.mapPage (s : State) (part : Nat) (m : MapCmd) : Option State :=
  let asid := m.asid part
  let n := sizeGranules m.size.toNat
  let f := m.frame.toNat
  let lvl := sizeLevel m.size.toNat
  if f % n ≠ 0 || !s.cellsOwned part f n || !(s.leaves asid m.lo m.hi).isEmpty then none
  else
    match s.makeRoot asid with
    | none => none
    | some (s, root) =>
      match s.tablePath m.lo lvl 5 root with
      | none => none
      | some (s, cell) =>
        let e := s.word64 (pteAddr cell (pteIdx lvl m.lo))
        let s := if lvl ≠ 1 && e.getLsbD 0 && !e.getLsbD 1 then s.freeTables (lvl - 1) (pteNext e) else s
        let s := (s.applyBounce asid m f).writeLeaf cell m f (m.fl.getLsbD 3) (m.fl.getLsbD 2) (m.fl.getLsbD 1) (m.fl.getLsbD 0)
        some ((s.dropWalks asid).wakePage asid m.lo m.hi)

/-- MAP (R72, R76, R78). -/
def execMap (part : Nat) (m : MapCmd) (s : State) : Host.Outcome State Fault Refusal :=
  .next (s.mapping part m (s.mapPage part m))

/-! UNMAP and PROTECT. -/

/-- Clears V in the entries of a page (R82 step 1). -/
def State.clearLeaves (s : State) (l : List Leaf) : State :=
  forL l s fun x s => s.setPte x.addr (x.e &&& ~~~(1#64))

/-- UNMAP (R72, R82). -/
def execUnmap (part : Nat) (m : MapCmd) (s : State) : Host.Outcome State Fault Refusal :=
  .next (s.mapping part m (
    let asid := m.asid part
    match s.pageLeaves asid m with
    | [] => none
    | l => some (((s.clearLeaves l).flushPage asid m.lo m.hi).orphanPage asid m.lo m.hi)))

/-- An entry with new W, X and AL (R72). -/
def leafWith (e : W64) (w x al : Bool) : W64 :=
  (e &&& ~~~(0x1C#64)) ||| BitVec.ofNat 64 (al.toNat * 16 + x.toNat * 8 + w.toNat * 4)

/-- Cached translations and lines of a page take their new W and X (R69, R73); a cached translation that covers more than the page
leaves. -/
def State.upgradePage (s : State) (asid : BitVec 16) (lo hi : Nat) (w x al : Bool) : State :=
  let tl (t : Tlb) : Option Tlb :=
    if t.asid ≠ asid || !overlaps t.page (t.page + sizeGranules t.size) lo hi then some t
    else if lo ≤ t.page && t.page + sizeGranules t.size ≤ hi then some { t with w := w, x := x, al := al }
    else none
  let ln (l : Line) : Line := if l.asid = asid && lo ≤ l.vpn.toNat && l.vpn.toNat < hi then { l with w := w, x := x } else l
  let l0 (l : L0Line) : L0Line := if l.asid = asid && inPage lo hi l.va then { l with w := w, x := x } else l
  let lines := s.pageMlines asid lo hi
  let s := { s with
    slices := smMap (fun _ sl => { sl with tlb := sl.tlb.filterMap tl, lines := smMap (fun _ l => ln l) sl.lines }) s.slices
    clusters := smMap (fun _ c => { c with sl := c.sl.map fun i => { i with l0 := i.l0.map l0 } }) s.clusters }
  forL lines s fun y s => s.modMline y.1 (128 * y.2.1) fun l => if l.st = 2 then { l with w := w } else l

/-- A change of permissions is a downgrade (R72; log 24): W or X is lost, or the page becomes an alias that may not be
written. -/
def isDowngrade (l : List Leaf) (w x al : Bool) : Bool :=
  l.any fun y => (y.e.getLsbD 2 && !w) || (y.e.getLsbD 3 && !x) || (al && w)

/-- PROTECT (R72, R82): the page keeps MI. -/
def execProtect (part : Nat) (m : MapCmd) (s : State) : Host.Outcome State Fault Refusal :=
  .next (s.mapping part m (
    let asid := m.asid part
    let w := m.fl.getLsbD 3
    let x := m.fl.getLsbD 2
    let al := m.fl.getLsbD 1
    match s.pageLeaves asid m with
    | [] => none
    | l =>
      let put (s : State) : State := forL l s fun y s => s.setPte y.addr (leafWith y.e w x al)
      if isDowngrade l w x al then some (put ((s.clearLeaves l).flushPage asid m.lo m.hi))
      else some (((put s).dropWalks asid).upgradePage asid m.lo m.hi w x al)))

/-! MIGRATE (R83). -/

/-- A Valid mapped line of a migrating page writes its dirty granules back to the old cell and is Empty (R83, R106, R107). -/
def State.emptyMline (s : State) (asid : BitVec 16) (fr : List (Nat × Nat)) (p line : Nat) (l : MLine) (w : Bool) : State :=
  if l.st ≠ 2 then s
  else
    let a := match s.home asid l.va, fr.find? fun y => y.1 = vpnOf l.va with
      | some q, some y => some (4096 * cellNo q y.2 + l.va.toNat % 4096)
      | _, _ => none
    let s := match a with
      | none => s
      | some a =>
        if l.mask = 0 then s
        else if !w then s.fatal l.cid cPagePerm l.va 0
        else
          let s := forN 4 s fun g s =>
            if l.mask.getLsbD g then s.putBytesP (a + 32 * g) (s.getBytesP (stashAddr p (128 * line + 32 * g)) 32) else s
          { s with marks := nsAdd (a / 128) s.marks }
    (s.modMline p (128 * line) fun l => { l with st := 0, mask := 0 }).mlineRest p line

/-- A granule's bytes, poison and clear marks go from its old cell to its new one (R83 step 3); `old` is the memory before
any granule moved. -/
def State.moveGranule (old s : State) (q f0 f1 : Nat) : State :=
  if Config.cells ≤ f0 then s
  else
    let a := 4096 * cellNo q f0
    let b := 4096 * cellNo q f1
    let s := s.putBytesP b (old.getBytesP a 4096)
    { s with marks := forN 32 s.marks fun i l =>
        if old.marks.contains (a / 128 + i) then nsAdd (b / 128 + i) l else nsDel (b / 128 + i) l }

/-- MIGRATE begins (R83 steps 1 and 2): the page is migrating, and nothing holds its lines or translations; none when the command
fails. -/
def State.beginMigrate (s : State) (part : Nat) (m : MapCmd) : Option State :=
  let asid := m.asid part
  let n := sizeGranules m.size.toNat
  match s.pageLeaves asid m with
  | [] => none
  | l =>
    if m.frame.toNat % n ≠ 0 || !s.cellsOwned part m.frame.toNat n then none
    else
      let fr := pageFrames l
      let w := l.all fun y => y.e.getLsbD 2
      let s := (s.modPart part fun p => { p with migr := p.migr ++ [m] }).evictPage asid m.lo m.hi
      let s := forL (s.pageMlines asid m.lo m.hi) s fun y s => s.emptyMline asid fr y.1 y.2.1 y.2.2 w
      some ((s.dropL0Page asid m.lo m.hi).dropTlb asid m.lo m.hi)

/-- MIGRATE ends (R83 steps 3 to 6): the granules are copied, the page's bounce records applied, the new frame committed, and
what waits for the page goes on. -/
def State.endMigrate (s : State) (part : Nat) (m : MapCmd) : State :=
  let asid := m.asid part
  let f1 := m.frame.toNat
  let l := s.pageLeaves asid m
  let s := s.modPart part fun p => { p with migr := p.migr.erase m }
  let s := forL (pageFrames l) s fun y t =>
    match s.home asid (vpnVa y.1) with
    | some q => s.moveGranule t q y.2 (f1 + (y.1 - m.lo))
    | none => t
  let s := s.applyBounce asid m f1
  let s := forL l s fun y s =>
    s.setPte y.addr ((y.e &&& ~~~(0x1FFFFF000#64)) ||| BitVec.ofNat 64 ((f1 + (y.vpn - m.lo)) * 4096))
  (s.dropTlb asid m.lo m.hi).wakePage asid m.lo m.hi

/-- MIGRATE (R72, R83): its first step marks the page, its second one copies it and completes (log 24). -/
def execMigrate (part : Nat) (m : MapCmd) (s : State) : Host.Outcome State Fault Refusal :=
  .next (
    match smGet s.parts part with
    | none => s
    | some p =>
      if p.migr.contains m then (s.endMigrate part m).mapDone part m 0
      else (s.beginMigrate part m).getD (s.mapping part m none))

/-! REFUSE. -/

/-- The requests that wait for a page end with a cause (R72, R77). -/
def State.refuseRequests (s : State) (asid : BitVec 16) (lo hi : Nat) (cause : Cause) : State :=
  forL s.reqs s fun x s =>
    let r := x.2
    if !(r.stage = .contrail || r.stage = .replay) || r.asid ≠ asid || !inPage lo hi r.va || r.host then s
    else
      let s := (({ s with reqs := smDel s.reqs x.1 }).dropStored x.1 r).failReq r cause
      let s := match r.line, r.op, r.pend with
        | some _, .read _ _, some p => s.performLane p r.lane
        | _, _, _ => s
      s.leaveTrail r x.1

/-- A thread at a clause boundary waits for the page to fetch its clause (R76). -/
def State.fetchWaits (s : State) (c : Crew) (lo hi : Nat) (th : Thread) : Bool :=
  th.live && th.holds.isEmpty && (inPage lo hi th.pc || inPage lo hi (th.pc + 128)) &&
    match s.fetchClause c.p (asidOf c.part c.space) th.pc with
    | .fault e => decide (e = cPageNotPresent)
    | _ => false

/-- The clause fetches that wait for a page fault at the boundary (R77). -/
def State.refuseFetches (s : State) (asid : BitVec 16) (lo hi : Nat) (cause : Cause) : State :=
  let late (th : Thread) : Thread := { th with due := th.due ++ [lateTrap cause th.pc (trpcOf th.pc 0) s.nextId false] }
  let f (c : Crew) : Crew :=
    { c with cohorts := c.cohorts.map fun h => h.mapThreads fun _ th => if s.fetchWaits c lo hi th then late th else th }
  { s with crews := smMap (fun _ c => if asidOf c.part c.space ≠ asid || c.st ≠ .running then c else f c) s.crews }

/-- A page's record appears again in the state after a step of an engine: the step waits for the page. -/
def State.waitsFor (s : State) (asid : BitVec 16) (lo hi : Nat) : Bool :=
  match smGet s.parts (asidTag asid) with
  | some p => p.waits.any fun w => decide (w.asid = asid) && inPage lo hi w.page
  | none => false

/-- The engine jobs that wait for a page end FAILED (R72, R80). -/
def State.refuseJobs (s : State) (asid : BitVec 16) (lo hi : Nat) (cause : Cause) : State :=
  forL s.clusters s fun c s =>
    let s := forL c.2.cp s fun y s =>
      let j := y.2
      match smGet s.crews j.cid with
      | none => s
      | some w =>
        if j.st = .running && j.asid = asid && (List.range (s.cpCount w j)).any fun g =>
            !j.landed.contains g && (s.landGranule c.1 y.1 g).waitsFor asid lo hi &&
              !(match smGet ((s.landGranule c.1 y.1 g).cluster c.1).cp y.1 with | some j => j.landed.contains g | none => true)
        then s.cpEnd c.1 y.1 j .failed cause else s
    let s := forL c.2.mx s fun y s =>
      let e := y.2
      match smGet s.crews e.cid with
      | none => s
      | some w =>
        let out := (List.range (s.mxOutCount e)).any fun g =>
          !e.out.contains g && (s.mxWriteOut c.1 y.1 g).waitsFor asid lo hi &&
            !(match smGet ((s.mxWriteOut c.1 y.1 g).cluster c.1).mx y.1 with | some e => e.out.contains g | none => true)
        if e.st = .running && asidOf w.part w.space = asid && ((s.mxStep c.1 y.1).waitsFor asid lo hi || out)
        then s.mxEndAll c.1 y.1 e .failed cause else s
    forL c.2.seals s fun y s =>
      if (s.absorbEnd c.1 y.1).waitsFor asid lo hi then
        (s.modSeal c.1 y.1 fun x => { x with failed := true }).fatal y.2.cid cause 0 (sealHandle y.2.serial y.1).toNat
      else s

/-- Fabric requests of peers that wait for a page end with a cause (R72, R279). -/
def State.refuseInbound (s : State) (asid : BitVec 16) (lo hi : Nat) (cause : Cause) : State :=
  forL s.inbound s fun x s =>
    let k := x.2
    if asidOf k.dtag.toNat k.dspace.toNat = asid && inPage lo hi (canon k.va.toNat) then
      ({ s with inbound := smDel s.inbound x.1 }).answer k (ackEnd cause)
    else s

/-- REFUSE (R72): every fault that is pending on the granule of the VA ends with the cause (log 24). -/
def execRefuse (part : Nat) (m : MapCmd) (s : State) : Host.Outcome State Fault Refusal :=
  .next (s.mapping part m (
    let asid := m.asid part
    let lo := vpnOf m.va
    let hi := lo + 1
    if !(m.cause = cPageNotPresent || m.cause = cPagePerm) || !s.waitsFor asid lo hi then none
    else
      let s := s.refuseFetches asid lo hi m.cause
      let s := ((s.dropWaits asid lo hi).refuseRequests asid lo hi m.cause).refuseInbound asid lo hi m.cause
      some (s.refuseJobs asid lo hi m.cause)))

end Sys2Proof.Machine
end

