-- ==== Sys2Proof/Machine/Issue.lean ====
section
/-!
DEFINITION. Sys2Proof/Machine/Issue.lean: what stands between a turn and the instruction it executes: the passing of time
(R4), breakpoints (R26, R385), debug comparators (R386), the words of a slot (R28), and the placing of an instruction where
the next step fetches it.
-/

namespace Sys2Proof.Machine

/-- Who moves next: the head of `turns`, or a free value (log 3). -/
def State.turn (s : State) : Turn := s.turns.head?.getD (Config.turnAt s.tick)

/-- The state in which a step acts: the turn is taken, time has passed (R4; log 4), no bundle is executing. -/
def State.advance (s : State) : State :=
  { s with turns := s.turns.tail, time := s.time + Config.elapsed s.tick, tick := s.tick + 1, cur := none }

/-- A debug comparator of the partition matches the slot (R386). -/
def State.debugMatch (s : State) (r : Run) : Bool :=
  match smGet s.crews r.cid with
  | none => false
  | some c =>
    if c.part ≠ Config.svcTag && s.lifecycle ≠ 3 then false
    else
      match smGet s.parts c.part with
      | none => false
      | some p => p.dbgcmp.any fun d => d.getLsbD 63 && decide (fld d 62 59 = r.slot) && decide (fld d 56 0 = fld r.hpc 56 0)

/-- The crew stops at a debug match (R386): the bundle's threads stand at the slot, which does not match on its next
issue. -/
def State.debugStop (s : State) (k : Nat) (r : Run) : State :=
  let m := r.midway r.lanes r.slot
  let s := s.modLanes r.cid r.co (forL m.slots 0 fun y n => n ||| laneBit y.1) fun i th =>
    { th with pc := r.hpc, slot := smGetD m.slots i.val r.slot, resumed := true,
              bpSkip := r.lanes.getLsbD i || r.skips.getLsbD i, tok := some m.tok }
  let s := s.modIssue k fun i => { i with run := none, cyc := i.cyc + max 4 r.cost }
  let s := s.modCrew r.cid fun c => { c with st := .debug }
  s.logSvc cDebugMatch (k / 6) 0 0

/-- The threads that enter the clause at its present slot join the bundle; when only such threads are left, the clause goes on
at the first of their slots (R193, R321). -/
def Run.enter (r : Run) : Run :=
  match r.late with
  | [] => r
  | y :: l =>
    let slot := if r.lanes = 0 then l.foldl (fun n z => min n z.2) y.2 else r.slot
    let now := (y :: l).filter fun z => decide (z.2 ≤ slot)
    { r with slot := slot, lanes := forL now r.lanes (fun z m => m ||| laneBit z.1),
             late := (y :: l).filter fun z => decide (slot < z.2) }

/-- Threads at a slot whose breakpoint and debug match count: not those that enter there and ignore them once (R321, R386). -/
def Run.checked (r : Run) : BitVec 32 := r.lanes &&& ~~~r.skips

/-- What the next slot of a slice's bundle comes to: the state when no instruction executes, or the instruction. -/
def State.nextSlot (s : State) (k : Nat) : State × Option Instr :=
  match (s.issue k).run with
  | none => (s, none)
  | some r =>
    let s := if r.late.isEmpty then s else s.modRun k Run.enter
    let r := r.enter
    if r.lanes = 0 || decide (hdrCnt r.hdr < r.slot) then (s.endClause k, none)
    else if (hdrBpm r.hdr).getLsbD r.slot && decide (r.checked ≠ 0) then
      (s.trapLanes k r.cid r.co r.checked fun _ => preciseTrap r cBreakpoint 0, none)
    else if decide (r.checked ≠ 0) && s.debugMatch r then (s.debugStop k r, none)
    else
      match decodeSlot (r.words.getD r.slot 0) (r.words.getD (r.slot + 1) 0) with
      | .error _ => (s.trapLanes k r.cid r.co r.lanes fun _ => preciseTrap r cIllegalOpcode 0, none)
      | .ok i => (s, some i)

/-- A thread as its crew starts it (R132), standing at `pc`. -/
def Thread.fresh (pc : W64) (live : Bool) (grp : Nat) : Thread :=
  { live := live, pc := pc, slot := 0, resumed := false, bpSkip := false, holds := [],
    v := Vector.replicate 64 { v := 0, p := false }, q := poisonQueue, k := Vector.replicate 8 { v := false, p := false },
    f := Vector.replicate 12 0, latch := 0, tcause := 0, taddr := 0, trpc := 0, inHandler := false, rpc := 0, rslot := 0,
    rskip := false, aside := [], trap := none, due := [], contrail := [], lastFab := none, yld := false, since := none,
    tok := none, grp := grp }

/-- A cohort as its crew starts it (R132). -/
def Cohort.fresh (c : Crew) (param : W64) (co slice place : Nat) (grp : Nat) (pc : W64) : Cohort :=
  let s0 : Vector R32 96 := Vector.ofFn fun i =>
    { v := (match i.val with
        | 0 => param.extractLsb' 0 32
        | 1 => param.extractLsb' 32 32
        | 2 => BitVec.ofNat 32 c.dOff
        | 3 => BitVec.ofNat 32 c.mOff
        | _ => 0), p := false }
  { threads := Vector.ofFn fun i => Thread.fresh pc (decide (32 * co + i.val < c.nx * c.ny * c.nz)) grp,
    s := s0, j := Vector.replicate 4 0, ch := Vector.ofFn fun i => if i.val < c.chan then some i.val else none,
    w := Vector.replicate 4 none, tile := 32, rgn := Region.closed, rgnCount := 0, opc := [], slice := slice, place := place,
    closing := false, closeOwn := none, parked := none, ready := false }

/-- A crew of one cohort of 32 threads on a service cluster, in whose bundle `withFetchWord` places an instruction
(log 1). -/
def probeCrew : Crew :=
  let c : Crew :=
    { (default : Crew) with
      grid := 0, idx := 0, part := Config.svcTag, ctx := 0, space := 0, p := Config.clusters, lcl := 0, base := 0,
      stash := 65536, sync := 8, chan := 8, regs := 64, m := 4096, ncoh := 1, nx := 32, ny := 1, nz := 1,
      bind := Vector.replicate 64 none, ended := [], dline := Vector.replicate 4 0,
      chans := Vector.replicate 8 Chan.empty, st := .running }
  { c with cohorts := [Cohort.fresh c 0 0 0 0 0 0] }

/-- The run of a clause at 0 that holds the words of one instruction. -/
def probeRun (cid tok : Nat) (words : List W64) : Run :=
  { cid := cid, co := 0, lanes := BitVec.allOnes 32, hpc := 0, hdr := BitVec.ofNat 64 (0xA00000FF00000000 + 2 ^ 52), words := words,
    slot := 0, skips := 0, late := [], tok := tok, cost := 0, yld := false, tile := 32 }

/-- `s` with an instruction's words as the next slot that step fetches; a mapping record as the record taken next
(log 1). -/
def State.placeWord (s : State) (nbits w : Nat) : State :=
  let x := w % 2 ^ nbits
  if nbits ≤ 128 then
    let cid := s.nextId
    let s := { s with nextId := s.nextId + 2, crews := smSet s.crews cid probeCrew, turns := [.issue (6 * Config.clusters)] }
    s.modIssue (6 * Config.clusters) fun i =>
      { i with run := some (probeRun cid (cid + 1) [BitVec.ofNat 64 x, BitVec.ofNat 64 (x / 2 ^ 64)]) }
  else
    match decodeTableWord nbits w with
    | some i => { s with turns := [.ev i] }
    | none => s

end Sys2Proof.Machine
end

