-- ==== Sys2Proof/Machine/Save.lean ====
section
/-!
DEFINITION. Sys2Proof/Machine/Save.lean: how a crew leaves its cluster: the restart of its regions (R370), the cancelling of
its jobs (R225, R299, R376), what is drained (R107, R250, R288, R315), its saved state (R404), and the zeroing of a cluster
(R402).
-/

namespace Sys2Proof.Machine

/-! Zeroing (R402). -/

/-- A cluster as its zeroing leaves it (R402): clocks, duties, counters and the serials of jobs are not among what is
zeroed. -/
def Cluster.scrub (c : Cluster) : Cluster :=
  { Cluster.zero with
    sl := c.sl.map fun i => { IssueSt.zero with ratio := i.ratio, cyc := i.cyc, last := i.last }
    cpSerial := c.cpSerial, mxSerial := c.mxSerial, sealSerial := c.sealSerial, stealAfter := c.stealAfter,
    squalls := c.squalls, stretched := c.stretched, deep := c.deep, suspect := c.suspect, clk := c.clk, clkAt := c.clkAt,
    clkMark := c.clkMark, mxduty := c.mxduty, dset := c.dset,
    silent := c.silent, silentAt := c.silentAt, haltcode := c.haltcode, halted := c.halted, zeroing := c.zeroing,
    tagdrop := c.tagdrop }

/-- Bytes of a range of storage become zero, not poison. -/
def State.clearBytes (s : State) (a n : Nat) : State :=
  { s with mem := memClear s.mem a (a + n), memPz := s.memPz.filter fun w => decide (8 * w < a) || decide (a + n ≤ 8 * w) }

/-- The fractions of R361 start at 1 whenever the cluster is zeroed (R283): those that its partition keeps. -/
def State.fullRates (s : State) (p : Nat) : State :=
  match s.ownerOf p with
  | some tag => s.modPart tag fun x => { x with fport := [] }
  | none => s

/-- A cluster and its stash are zeroed (R402), and its fractions start at 1 (R283). -/
def State.zeroCluster (s : State) (p : Nat) : State :=
  ((s.fullRates p).modCluster p Cluster.scrub).clearBytes (stashAddr p 0) Config.stashBytes

/-- A cluster joins a partition: it is zeroed (R402), and `%squalls` counts from 0 (R144). -/
def State.joinCluster (s : State) (p : Nat) : State := (s.zeroCluster p).modCluster p fun c => { c with squalls := 0 }

/-! Stopping (R370, R379). -/

/-- The clauses of a crew in progress are abandoned and its regions restarted (R370); a clause that has issued every slot
with no region open ends. -/
def State.stopRuns (s : State) (cid : Nat) : State :=
  match smGet s.crews cid with
  | none => s
  | some c =>
    forN c.cohorts.length s fun co s =>
      match s.cohort? cid co with
      | none => s
      | some h =>
        let k := 6 * c.p + h.slice
        let mine := (match (s.issue k).run with | some r => decide (r.cid = cid) && decide (r.co = co) | none => false)
        let s := if mine && !h.rgn.opened then s.endClause k else s
        s.restartRegion cid co false

/-- A job cancelled at a save gives its poster JOB_CANCELLED (R376). -/
def jobTrap (h : W64) (ord : Nat) : TrapRec :=
  { cause := cJobCancelled, addr := h, trpc := 0, rpc := 0, rslot := 0, skip := false, rank := 3, ord := ord, peer := none,
    inRgn := false }

/-- What is noted of a job cancelled at a save: the trap, and what its status says later. -/
def State.noteCut (s : State) (cid co lane : Nat) (t : Cut) (ord : Nat) : State :=
  (s.dueTrap cid co lane (jobTrap t.handle ord)).modCrew cid fun c => { c with cut := c.cut ++ [t] }

/-- Banks that a cancelled entry named lose their contents (R225): not those another crew holds or another entry uses, and not
those of a Floating card that waits, which names none (R217). -/
def State.loseBanks (s : State) (e : MxEnt) : State :=
  if e.st = .queued && s.mxFloats e then s
  else
    forL e.names s fun b s =>
      s.modBank e.eng b fun x =>
        if x.st = 1 || (x.st = 2 && x.holder ≠ some e.owner) then x else { x with acc := [], pz := [], st := 0, holder := none }

/-- The mandrel entries that a crew posted and that have not ended are cancelled (R225). -/
def State.cutCards (s : State) (cid : Nat) (save : Bool) : State :=
  forL (s.mxEntries.filter fun x => decide (x.2.2.cid = cid) && x.2.2.lead && !(s.mxWhole x.2.2).over) s fun x s =>
    let e := x.2.2
    let h := cpHandle e.serial x.2.1
    let parts := s.mxParts e
    let steps := (parts.foldl (fun n y => min n y.2.2.steps) e.steps) % 2 ^ 32
    let bytes := s.mxTotal e
    let s := s.mxEndAll x.1 x.2.1 e (if save then .saved else .cancelled) 0
    let s := forL parts s fun y s => s.loseBanks y.2.2
    if save then s.noteCut cid e.co e.lane { mx := true, handle := h, steps := steps, bytes := bytes } e.ord else s

/-- A copy job of a cluster is cancelled (R299, R376). -/
def State.cutCopy (s : State) (p slot : Nat) (j : CpJob) (save : Bool) : State :=
  let h := cpHandle j.serial slot
  let s := s.cpEnd p slot j (if save then .saved else .cancelled) 0
  if save then s.noteCut j.cid j.co j.lane { mx := false, handle := h, steps := 0, bytes := j.bytes } j.ord else s

/-- An access of a job waits on a MAP. -/
def awaitsMap {α : Type} : Acc α → Bool
  | .fault e => decide (e = cPageNotPresent)
  | _ => false

/-- A piece of a copy job waits on a MAP (R404 step 1), or on a crew that is itself saved. -/
def State.cpStuckAt (s : State) (p g : Nat) (c : Crew) (j : CpJob) : Bool :=
  match s.cpPiece c j g with
  | none => false
  | some y =>
    let held := dDsp j.desc ≠ 0 && (match s.receiver ((j.recv.getD y.recv (none, 0)).1) with | .wait => true | _ => false)
    held ||
      match s.cpData c j g y with
      | .done (s, d) =>
        awaitsMap (s.cpPut p j y d) ||
          (dDsp j.desc = 0 && (match s.cpPut p j y d with | .wait => true | _ => false) &&
            awaitsMap (s.homeWriteP j.asid (toW64 y.dst) d))
      | a => awaitsMap a

/-- A copy job waits on a MAP (R404 step 1). -/
def State.cpStuck (s : State) (p : Nat) (c : Crew) (j : CpJob) : Bool :=
  let idx := idxBound j.kind j.desc
  decide (j.st = .running) &&
    ((j.kind ∈ [.gth, .sct, .sp] && awaitsMap (s.touchRange p (c.base + idx.1.toNat) (idx.2 - idx.1).toNat)) ||
      (List.range (s.cpCount c j)).any fun g => !j.landed.contains g && s.cpStuckAt p g c j)

/-- The copy jobs of a crew that are to be cancelled now: every one at a stop, those of the fabric and those that wait on a
MAP at a save (R299, R379, R404). A fabric job ends once its packets have been answered (R291). -/
def State.cutCopies (s : State) (cid : Nat) (save : Bool) : State :=
  match smGet s.crews cid with
  | none => s
  | some c =>
    forL (s.cluster c.p).cp s fun x s =>
      match smGet (s.cluster c.p).cp x.1 with
      | none => s
      | some j =>
        if j.cid ≠ cid || j.st.over || j.out ≠ [] then s
        else if !save || decide (j.kind = .fcp) || s.cpStuck c.p c j then s.cutCopy c.p x.1 j save
        else s

/-- Cohorts' parts are dropped once drained and restarted. -/
def Cluster.dropParts (c : Cluster) (cid : Nat) : Cluster :=
  { c with sl := c.sl.map fun i => { i with red := i.red.filter fun e => e.cid ≠ cid } }

/-- Another crew of a partition stands on a cluster, not counting those that have drained and leave. -/
def State.shared (s : State) (cid : Nat) (c : Crew) : Bool :=
  s.crews.any fun x => x.1 ≠ cid && x.2.p = c.p && x.2.part = c.part && (x.2.st = .running || x.2.st = .debug) &&
    !(x.2.leaving.isSome && decide (2 ≤ x.2.drained))

/-- A crew begins to leave its cluster (R315, R379, R404 steps 1 and 2): at a save its regions restart, and so do those of
a crew that stops; jobs are cancelled. What has to be drained follows step by step. -/
def State.beginLeave (s : State) (cid : Nat) (why : Leave) : State :=
  match smGet s.crews cid with
  | none => s
  | some c =>
    let save := decide (why = .save)
    let stop := c.stopping.isSome
    let s := s.stopRuns cid
    let s := s.modCrew cid fun c => { c with leaving := some why, back := c.st, drained := 0, cut := if save then [] else c.cut }
    let s := s.discardSeals cid (if save then 1 else 0) ((c.stopping.map BitVec.toNat).getD 0)
    let s := if save || stop then (s.cutCards cid save).cutCopies cid save else s
    if stop then s.dropReqs fun r => decide (r.cid = cid) && (r.stage = .contrail || r.stage = .replay || r.stage = .held) &&
      (match r.op with | .group _ _ _ _ => false | _ => true)
    else s

/-- The mapped lines of a crew are clean and none of its accesses waits for one (R107). -/
def State.linesClean (s : State) (cid : Nat) (c : Crew) : Bool :=
  !((s.cluster c.p).mwait.any fun x => x.2.cid = cid) &&
    !((s.cluster c.p).mapped.any fun x => x.2.cid = cid && (x.2.st = 1 || (x.2.st = 2 && x.2.mask ≠ 0)))

/-- What a crew that leaves drains next, in the order of R315: once its dirty mapped lines are written back (R107), its
reduction parts (R250); once those are performed, the write-combining lines, at a save or where it is the last crew of its
partition on the cluster (R288). -/
def State.drainNext (s : State) (cid : Nat) (c : Crew) : State :=
  if c.drained = 0 then
    if s.linesClean cid c then
      ((s.drainParts c.p fun e => decide (e.cid = cid)).modCluster c.p fun cl => cl.dropParts cid).modCrew cid fun c =>
        { c with drained := 1 }
    else s
  else if c.drained = 1 && !(s.reqs.any fun x => decide (x.2.cid = cid) && (match x.2.op with | .group _ _ _ _ => true | _ => false)) then
    (if c.leaving = some .save || !s.shared cid c then s.drainWcb c.p fun w => decide (w.part = c.part) else s).modCrew cid fun c =>
      { c with drained := 2 }
  else s

/-- The next step of a crew that leaves: its draining goes on, and copy jobs that have come to wait on a MAP are cancelled. -/
def State.stepLeave (s : State) (cid : Nat) : State :=
  match smGet s.crews cid with
  | none => s
  | some c =>
    let s := if c.leaving = some .save then s.cutCopies cid true else s
    s.drainNext cid c

/-- Nothing of a crew is left to be drained or waited for (R299, R315, R379, R404). -/
def State.leaveReady (s : State) (cid : Nat) : Bool :=
  match smGet s.crews cid with
  | none => false
  | some c =>
    let save := decide (c.leaving = some .save)
    let cl := s.cluster c.p
    let busy (r : Req) : Bool := decide (r.cid = cid) && !(save && (r.stage = .contrail || r.stage = .replay))
    let fab (f : FabReq) : Bool :=
      match f.use with
      | .thread i _ _ _ => decide (i = cid)
      | .drain _ => decide (f.p = c.p) && decide (f.part = c.part) && (save || !s.shared cid c)
      | _ => false
    c.leaving.isSome && decide (2 ≤ c.drained) && !(s.reqs.any fun x => busy x.2) && s.linesClean cid c &&
      !(s.fab.any fun x => fab x.2) && !(cl.cp.any fun x => x.2.cid = cid && !x.2.st.over) &&
      !(s.mxEntries.any fun x => !x.2.2.st.over && (x.2.2.cid = cid || (save && x.2.2.owner = cid))) && !s.finPending cid

/-! Saving and restoring (R404). -/

/-- A mapped line as it is saved: Empty, or Orphan (R404). -/
def MLine.saved (l : MLine) : MLine := { l with st := if l.st = 3 then 3 else 0, mask := 0, waiters := [], inv := none, wb := [] }

/-- The HELD banks of a crew on its cluster. -/
def Cluster.heldBy (c : Cluster) (cid : Nat) : List (Nat × Bank) :=
  ((List.range 2).map fun b => (b, c.bank b)).filter fun x => x.2.st = 2 && x.2.holder = some cid

/-- What a crew has on its cluster, beside its registers, leaves it; the banks that it held keep what it left (R204). -/
def Cluster.without (c : Cluster) (cid : Nat) : Cluster :=
  let free (b : Bank) : Bank := if b.st = 2 && b.holder = some cid then b.after none else b
  { (c.dropParts cid) with
    mapped := smFilter (fun _ l => l.cid ≠ cid) c.mapped, mwait := smFilter (fun _ w => w.cid ≠ cid) c.mwait,
    bank0 := free c.bank0, bank1 := free c.bank1 }

/-- A crew that has been drained is saved (R404 step 2). -/
def State.saveCrew (s : State) (cid : Nat) (st : CrewSt) : State :=
  match smGet s.crews cid with
  | none => s
  | some c =>
    let cl := s.cluster c.p
    let lines := (cl.mapped.filter fun x => x.2.cid = cid).map fun x => (x.1 - c.base / 128, x.2.saved)
    let bytes := s.getBytesP (stashAddr c.p c.base) c.stash
    let s := s.modCrew cid fun c =>
      { c with saved := bytes, lines := lines, banks := cl.heldBy cid, st := st, leaving := none, wdBlocked := none,
               chans := c.chans.map fun x => { x with wait := none } }
    s.modCluster c.p fun cl => cl.without cid

/-- A saved crew is restored at a window of a cluster, its cohorts in the given places (R325, R404 step 4, R416). -/
def State.restoreCrew (s : State) (cid p lcl base : Nat) (places : List (Nat × Nat)) : State :=
  match smGet s.crews cid with
  | none => s
  | some c =>
    let s := s.putBytesP (stashAddr p base) c.saved
    let s := s.modCluster p fun cl =>
      let cl := { cl with mapped := c.lines.foldl (fun m x => smSet m (x.1 + base / 128) x.2) cl.mapped }
      c.banks.foldl (fun cl x => if x.1 = 0 then { cl with bank0 := x.2 } else { cl with bank1 := x.2 }) cl
    let s := { s with reqs := smMap (fun _ r => if r.cid = cid then
        { r with p := p, sl := ((places[r.co]?).map Prod.fst).getD r.sl, line := r.line.map fun o => o - c.base + base } else r) s.reqs }
    s.modCrew cid fun c =>
      { c with p := p, lcl := lcl, base := base, saved := [], lines := [], banks := [], ended := [], st := c.back, leaving := none,
               cohorts := (c.cohorts.zipIdx).map fun h =>
                 match places[h.2]? with
                 | some x => { h.1 with slice := x.1, place := x.2, opc := [] }
                 | none => h.1 }

/-- The places of a crew's cohorts. -/
def Crew.places (c : Crew) : List (Nat × Nat) := c.cohorts.map fun h => (h.slice, h.place)

end Sys2Proof.Machine
end

