-- ==== Sys2Proof/Machine/Place.lean ====
section
/-!
DEFINITION. Sys2Proof/Machine/Place.lean: where a crew fits (R102, R330, R333, R334, R393), how it starts (R104, R303, R335),
and the dispatcher's units (R331, R332).
-/

namespace Sys2Proof.Machine

/-! Declarations (R327). -/

/-- COH. -/
def declCoh (w : W64) : Nat := fld w 63 58
/-- Bytes of the stash window. -/
def declStash (w : W64) : Nat := 4096 * fld w 57 47
/-- SYNC. -/
def declSync (w : W64) : Nat := fld w 46 34
/-- CHAN. -/
def declChan (w : W64) : Nat := fld w 33 30
/-- Named registers. -/
def declRegs (w : W64) : Nat := 8 * fld w 29 26
/-- TW. -/
def declTw (w : W64) : Nat := fld w 25 21
/-- THT. -/
def declTh (w : W64) : Nat := fld w 20 16

/-- What a crew takes of a cluster (R334): cohort slots, window and mapped area in bytes, HELD banks to be restored, and
whether it needs a reserve (R393). -/
structure Need where
  coh : Nat
  stash : Nat
  m : Nat
  banks : List Nat
  zp : Bool
  deriving DecidableEq, Repr, Inhabited

/-- What a grid's crews take. -/
def Grid.need (g : Grid) : Need :=
  { coh := declCoh g.decl, stash := declStash g.decl, m := g.m, banks := [], zp := declZp g.decl }

/-- What a saved crew takes. -/
def Crew.need (c : Crew) : Need := { coh := c.ncoh, stash := c.stash, m := c.m, banks := c.banks.map Prod.fst, zp := c.zp }

/-! Clusters of a partition. -/

/-- A cluster that can run crews of a partition (R14, R16, R373, R398, R442). -/
def State.usable (s : State) (t : Part) (p : Nat) : Bool :=
  t.res.clusters.contains p && s.clRdy.contains p && !s.fenced.contains (clusterSite p) && !(s.cluster p).halted &&
    !(s.cluster p).zeroing && decide ((s.cluster p).silent < 2)

/-- The mapped positions of a partition: logical id and cluster (R401). -/
def Part.positions (t : Part) : List (Nat × Nat) :=
  t.map.filterMap fun x => if x.2.getLsbD 31 then some (x.1, clusterAt (fld (x.2.setWidth 64) 11 0)) else none

/-- Those whose cluster can run crews. -/
def State.places (s : State) (t : Part) : List (Nat × Nat) := t.positions.filter fun x => s.usable t x.2

/-- Distance of two logical ids (R333). -/
def Part.dist (t : Part) (a b : Nat) : Nat :=
  let w := max 1 t.w
  ((a % w : Int) - (b % w : Nat)).natAbs + ((a / w : Int) - (b / w : Nat)).natAbs

/-- The nearest position to an anchor; ties go to the lower id (R333). -/
def Part.nearest (t : Part) (anchor : Nat) (l : List (Nat × Nat)) : Option (Nat × Nat) :=
  bestOf (fun a b => let x := t.dist anchor a.1; let y := t.dist anchor b.1
                     decide (x < y) || (decide (x = y) && decide (a.1 < b.1))) l

/-! Room on a cluster (R334). -/

/-- The crews that stand on a cluster. -/
def State.residents (s : State) (p : Nat) : List (Nat × Crew) :=
  s.crews.filter fun x => decide (x.2.p = p) && (decide (x.2.st = .running) || decide (x.2.st = .debug))

/-- Bytes of a cluster's stash that windows may take: below a reserve, the lower 3.5 MiB (R393). -/
def State.windowLimit (s : State) (p : Nat) : Nat :=
  if s.reserves.any fun x => x.2 = p then Config.stashBytes - 524288 else Config.stashBytes

/-- The lowest 4 KiB boundary at which a window fits between others (R334). -/
def lowestWindow (used : List (Nat × Nat)) (n limit : Nat) : Option Nat :=
  let ok (b : Nat) : Bool := decide (b + n ≤ limit) && !(used.any fun x => overlaps b (b + n) x.1 x.2)
  bestOf (fun a b => decide (a < b)) ((0 :: used.map fun x => 4096 * ceilDiv x.2 4096).filter ok)

/-- Windows in use on a cluster; `held` with what a steal request keeps (R336). -/
def State.windowsOf (s : State) (p : Nat) (held : Bool) : List (Nat × Nat) :=
  let l := (s.residents p).map fun x => (x.2.base, x.2.base + x.2.stash)
  match (s.cluster p).steal with
  | some t => if held then (t.wbase, t.wbase + t.window) :: l else l
  | none => l

/-- Free cohort slots. -/
def State.freeSlots (s : State) (p : Nat) (held : Bool) : Nat :=
  let used := (s.residents p).foldl (fun n x => n + x.2.ncoh) 0
  let kept := (match (s.cluster p).steal with | some t => if held then t.slots else 0 | none => 0)
  48 - used - kept

/-- Mapped bytes of a queued crew. -/
def State.ccbMapped (s : State) (b : Ccb) : Nat :=
  match b.cid.bind fun i => smGet s.crews i with
  | some c => c.m
  | none => match smGet s.grids b.grid with | some g => g.m | none => 0

/-- Mapped bytes of the crews on a cluster, those of some queued ones, and those a steal request keeps (R334, R336). -/
def State.mappedUse (s : State) (p : Nat) (queue : List Ccb) (held : Bool) : Nat :=
  let n := (s.residents p).foldl (fun n x => n + x.2.m) 0
  let n := queue.foldl (fun n b => n + s.ccbMapped b) n
  match (s.cluster p).steal with
  | some t => if held then n + t.mapped else n
  | none => n

/-! Reserves (R393). -/

/-- Ready clusters of a zone. -/
def State.readyIn (s : State) (z : Nat) : List Nat :=
  (zoneClusters z).filter fun p => s.clRdy.contains p && !s.fenced.contains (clusterSite p)

/-- A cluster whose top 512 KiB can be a reserve for a partition's crew. -/
def State.reserveFree (s : State) (tag q : Nat) : Bool :=
  let own := (s.parts.find? fun x => x.2.res.clusters.contains q).map Prod.fst
  (own = none || own = some tag) && !(s.reserves.any fun x => x.2 = q) && !(s.cluster q).zeroing &&
    (s.residents q).all fun x => decide (x.2.base + x.2.stash ≤ Config.stashBytes - 524288)

/-- The zone in which a cluster's reserve is taken: the buddy zone, or the nearest to it that has a ready cluster. -/
def State.reserveZone (s : State) (z : Nat) : Option Nat :=
  let b := buddy z
  let dist (x : Nat) : Nat := ((x : Int) - (b : Nat)).natAbs
  bestOf (fun x y => decide (dist x < dist y) || (decide (dist x = dist y) && decide (x < y)))
    ((List.range 64).filter fun x => x ≠ z && !(s.readyIn x).isEmpty)

/-- A reserve for a cluster (R393): the one it has, the site with the same offset in its zone, or the lowest site. -/
def State.reserveFor (s : State) (tag p : Nat) : Option Nat :=
  match smGet s.reserves p with
  | some q => some q
  | none =>
    match clusterZone p with
    | none => none
    | some z =>
      let l := ((s.reserveZone z).map s.readyIn).getD [] |>.filter (s.reserveFree tag)
      let same (q : Nat) : Bool :=
        decide (siteX (clusterSite q) % 8 = siteX (clusterSite p) % 8) && decide (siteY (clusterSite q) % 8 = siteY (clusterSite p) % 8)
      match l.find? same with
      | some q => some q
      | none => bestOf (fun a b => decide (clusterSite a < clusterSite b)) l

/-- Bytes of a checkpoint: registers, uniform registers and the sync area (R394; log 28). -/
def checkBytes (w : W64) : Nat := 32 * declCoh w * 4 * declRegs w + 384 * declCoh w + 16 * declSync w

/-- Reserves whose cluster has no zone-protected crew left are free. -/
def State.trimReserves (s : State) : State :=
  { s with reserves := s.reserves.filter fun x => s.crews.any fun y => y.2.zp && decide (y.2.p = x.1) &&
      (decide (y.2.st = .running) || decide (y.2.st = .debug)) }

/-! Fitting (R334). -/

/-- The window of a crew that fits a cluster now (R334, R393); `queue` are the queued crews that count, `kept` what a reservation
keeps from it (R332). -/
def State.fits (s : State) (tag p : Nat) (n : Need) (queue : List Ccb) (held : Bool) (kept : List Kept) : Option Nat :=
  let kept := kept.filter fun x => x.p = p
  let sum (f : Kept → Nat) : Nat := (kept.map f).foldl (· + ·) 0
  let banks := n.banks.all fun b => ((s.cluster p).bank b).st = 0
  let mapped := decide (s.mappedUse p queue held + sum Kept.m + n.m ≤ 1048576)
  if banks && mapped && decide (n.coh + sum Kept.coh ≤ s.freeSlots p held) && (!n.zp || (s.reserveFor tag p).isSome) then
    lowestWindow (s.windowsOf p held ++ kept.map fun x => (x.base, x.base + x.stash)) n.stash (s.windowLimit p)
  else none

/-- A crew would fit a cluster when it is empty (R330, R333, R393). -/
def State.fitsEmpty (s : State) (tag p : Nat) (n : Need) : Bool :=
  let own (q : Nat) : Bool := (match (s.parts.find? fun x => x.2.res.clusters.contains q).map Prod.fst with | some t => decide (t = tag) | none => true)
  decide (n.coh ≤ 48) && decide (n.stash ≤ s.windowLimit p) && decide (n.m ≤ 1048576) &&
    (!n.zp || (match (clusterZone p).bind s.reserveZone with | some z => (s.readyIn z).any own | none => false))

/-- Origins of hole-free rectangles of a partition's shape, with their members' clusters in member order (R302, R333). -/
def Part.rectangles (t : Part) (l : List (Nat × Nat)) (w h : Nat) : List (Nat × List (Nat × Nat)) :=
  (List.range (t.w * t.h)).filterMap fun o =>
    if o % max 1 t.w + w ≤ t.w ∧ o / max 1 t.w + h ≤ t.h then
      let ids := (List.range (w * h)).map fun m => o + m / w * t.w + m % w
      let ps := ids.filterMap fun i => (l.find? fun x => x.1 = i)
      if ps.length = w * h then some (o, ps) else none
    else none

/-- A declaration that no cluster, or no rectangle, of the partition could hold (R103, R330, R393, R394). -/
def State.cannotHold (s : State) (tag : Nat) (t : Part) (decl : W64) (n : Need) : Bool :=
  let area := 128 * ceilDiv (declSync decl) 8 + 2048 * declChan decl + n.m
  decide (n.stash < area) || (n.zp && decide (262144 < checkBytes decl)) ||
    !((s.places t).any fun x => s.fitsEmpty tag x.2 n) ||
    (decide (declTw decl ≠ 0) && (t.rectangles t.positions (declTw decl) (declTh decl)).isEmpty)

/-! Starting (R335). -/

/-- Places for `n` cohorts from a rotating pointer on, given those in use; and the pointer after them (R335). -/
def assignPlaces : Nat → List (Nat × Nat) → Nat → List (Nat × Nat) × Nat
  | 0, _, ptr => ([], ptr)
  | n + 1, used, ptr =>
    let place (sl : Nat) : Option Nat := firstBelow 8 fun i => !used.contains (sl, i)
    match (List.range 6).findSome? fun i => (place ((ptr + i) % 6)).map fun q => ((ptr + i) % 6, q) with
    | some x => let r := assignPlaces n (x :: used) ((x.1 + 1) % 6); (x :: r.1, r.2)
    | none => ([], ptr)

/-- Places for the cohorts of a crew on a cluster; the pointer moves. -/
def State.takePlaces (s : State) (p n : Nat) : State × List (Nat × Nat) :=
  let used := (s.residents p).flatMap fun x => x.2.places
  let r := assignPlaces n used (s.cluster p).pointer
  (s.modCluster p fun c => { c with pointer := r.2 }, r.1)

/-- A crew of a grid as it starts (R132, R301, R335). -/
def Grid.crew (g : Grid) (gid n p lcl base time : Nat) : Crew :=
  { grid := gid, idx := n, part := g.part, ctx := g.ctx, space := g.space, p := p, lcl := lcl, base := base,
    stash := declStash g.decl, sync := declSync g.decl, chan := declChan g.decl, regs := declRegs g.decl, m := g.m,
    ncoh := declCoh g.decl, nx := g.nx, ny := g.ny, nz := g.nz, cx := n % g.gx, cy := n / g.gx % g.gy, cz := n / g.gx / g.gy,
    depth := g.depth, zp := declZp g.decl, tw := declTw g.decl, th := declTh g.decl, trph := g.trph,
    dline := Vector.ofFn fun i => (let d := g.dl.getD i.val 0; if d = 0 then 0 else BitVec.ofNat 64 (2 ^ 63 + (time + d) % 2 ^ 63)), dlstat := 0,
    bind := Vector.replicate 64 none, ended := [], chans := Vector.replicate 8 Chan.empty, cohorts := [],
    st := .running, children := [], saved := [], lines := [], banks := [], cut := [], leaving := none, back := .running,
    drained := 0, wdBlocked := none, stopping := none }

/-- An acquire at partition scope by every thread of a crew, before its later clauses (R243, R303). -/
def State.crewAcquire (s : State) (cid : Nat) : State :=
  match smGet s.crews cid with
  | none => s
  | some c =>
    forL c.cohorts.zipIdx s fun h s =>
      if h.1.live = 0 then s
      else
        s.startFence cid h.2 0 h.1.live 0
          { hold := true, rel := false, acq := true, scope := 3, ranges := none, step := 0, waits := [], next := .done }

/-- A zone-protected crew's cluster takes its reserve (R393). -/
def State.takeReserve (s : State) (tag p : Nat) (zp : Bool) : State :=
  if zp then
    match s.reserveFor tag p with
    | some q => { s with reserves := smSet s.reserves p q }
    | none => s
  else s

/-- A crew of a grid starts (R104, R303, R335). -/
def State.startCrew (s : State) (gid : Nat) (g : Grid) (n p lcl base : Nat) : State :=
  let (s, l) := s.takePlaces p (declCoh g.decl)
  let s := s.takeReserve g.part p (declZp g.decl)
  let cid := s.nextId
  let c := g.crew gid n p lcl base s.time
  let c := { c with cohorts := l.zipIdx.map fun x => Cohort.fresh c g.param x.2 x.1.1 x.1.2 cid g.entry }
  let s := { s.fresh with crews := smSet s.crews cid c }
  let s := s.clearBytes (stashAddr p (base + c.dOff)) c.syncBytes
  (s.modGrid gid fun g => { g with gbSince := s.time }).crewAcquire cid

/-- A saved crew starts again on a cluster (R13, R325, R335). -/
def State.restartCrew (s : State) (cid p lcl base : Nat) : State :=
  match smGet s.crews cid with
  | none => s
  | some c =>
    let (s, l) := s.takePlaces p c.ncoh
    let s := s.takeReserve c.part p c.zp
    (s.restoreCrew cid p lcl base l).modGrid c.grid fun g => { g with gbSince := s.time }

/-! Units (R331, R332). -/

/-- A unit: a new crew, a crew to be placed again, or a new team by its first crew (R331). -/
inductive Unit' where
  | crew (n : Nat)
  | again (cid : Nat)
  | team (n : Nat)
  deriving DecidableEq, Repr, Inhabited

/-- The head unit of a grid (R331). -/
def Grid.head (g : Grid) : Option Unit' :=
  match g.again with
  | cid :: _ => some (.again cid)
  | [] =>
    if g.crewCount ≤ g.nextUnit then none
    else if declTw g.decl ≠ 0 then some (.team g.nextUnit)
    else some (.crew g.nextUnit)

/-- The grid after its head unit was placed, or joined a crew queue. -/
def Grid.popUnit (g : Grid) (time : Nat) : Grid :=
  match g.again with
  | _ :: r => { g with again := r, headSince := time }
  | [] => { g with nextUnit := g.nextUnit + (if declTw g.decl ≠ 0 then declTw g.decl * declTh g.decl else 1), headSince := time }

/-- PlaceCrew (R333): the nearest cluster where it fits, or the queue of the nearest that could hold it. -/
def State.placeCrew (s : State) (gid : Nat) (g : Grid) (t : Part) (l : List (Nat × Nat)) (kept : List Kept) (n : Nat)
    (cid : Option Nat) : Option State :=
  let c := cid.bind fun i => smGet s.crews i
  let need := (match c with | some c => c.need | none => g.need)
  let now := l.filter fun x => (s.fits g.part x.2 need (s.cluster x.2).queue true kept).isSome
  match t.nearest g.anchor now with
  | some (lid, p) =>
    let base := (s.fits g.part p need (s.cluster p).queue true kept).getD 0
    match cid with
    | some i => some (s.restartCrew i p lid base)
    | none => some (s.startCrew gid g n p lid base)
  | none =>
    let room := l.filter fun x => s.fitsEmpty g.part x.2 need && decide ((s.cluster x.2).queue.length < 32)
    match t.nearest g.anchor room with
    | some (_, p) =>
      if declTw g.decl ≠ 0 then none
      else some (s.modCluster p fun cl => { cl with queue := cl.queue ++ [{ grid := gid, crew := n, qt := g.accepted, cid := cid }] })
    | none => none

/-- The members of a team start on the clusters of a rectangle, when every one fits (R302, R333). -/
def State.startTeam (s : State) (gid : Nat) (g : Grid) (n : Nat) (l : List (Nat × Nat)) (kept : List Kept) : Option State :=
  forL l.zipIdx (some s) fun x y =>
    y.bind fun s =>
      (s.fits g.part x.1.2 g.need (s.cluster x.1.2).queue true kept).map fun base => s.startCrew gid g (n + x.2) x.1.2 x.1.1 base

/-- PlaceGang (R333). -/
def State.placeGang (s : State) (gid : Nat) (g : Grid) (t : Part) (l : List (Nat × Nat)) (kept : List Kept) (n : Nat) : Option State :=
  let rs := (t.rectangles l (declTw g.decl) (declTh g.decl)).filterMap fun r => (s.startTeam gid g n r.2 kept).map fun s => (r.1, s)
  match t.nearest g.anchor (rs.map fun r => (r.1, 0)) with
  | some (o, _) => (rs.find? fun r => r.1 = o).map Prod.snd
  | none => none

/-- Places the head unit of a grid on some of its partition's clusters (R332). -/
def State.placeHead (s : State) (gid : Nat) (g : Grid) (t : Part) (l : List (Nat × Nat)) (kept : List Kept) : Option State :=
  match g.head with
  | none => none
  | some (.crew n) => s.placeCrew gid g t l kept n none
  | some (.again cid) => s.placeCrew gid g t l kept (((smGet s.crews cid).map Crew.idx).getD 0) (some cid)
  | some (.team n) => s.placeGang gid g t l kept n

/-- The grids that a partition's dispatcher takes in order (R331, R332): by level; within one, those with crews to be placed
again first, then in order of acceptance; a launched grid once its launcher's release is over (R324). -/
def State.gridOrder (s : State) (tag : Nat) (ctx : Nat) : List (Nat × Grid) :=
  let l := s.grids.filter fun x =>
    decide (x.2.part = tag) && decide (x.2.ctx = ctx) && x.2.head.isSome &&
      (match x.2.fence with | some f => (smGet s.pends f).isNone | none => true)
  (List.range 8).flatMap fun lv =>
    let m := l.filter fun x => x.2.prio = lv
    m.filter (fun x => !x.2.again.isEmpty) ++ m.filter fun x => x.2.again.isEmpty

/-- The first unit in order that can be placed is (R332): a grid whose head has waited 100 µs stops the search, and what was freed
since a reservation is offered to its grid alone. -/
def State.dispatchFirst (s : State) (t : Part) : List (Nat × Grid) → State
  | [] => s
  | (gid, g) :: r =>
    let kept := (match t.reserve with
      | some (h, freed) => if h = gid then [] else freed
      | none => [])
    match s.placeHead gid g t (s.places t) kept with
    | some s' =>
      let s' := s'.modGrid gid fun g => g.popUnit s.time
      s'.modPart g.part fun t => { t with reserve := t.reserve.filter fun x => x.1 ≠ gid }
    | none => if g.headSince + 100000 ≤ s.time then s else State.dispatchFirst s t r

end Sys2Proof.Machine
end

