-- ==== Sys2Proof/Machine/Launch.lean ====
section
/-!
DEFINITION. Sys2Proof/Machine/Launch.lean: launch records and their judgement (R323, R327 to R330), `launch`, `cwait`, the
host's launch queues (R329, R424), the dispatcher (R332), crew queues (R335) and work donation (R336 to R338).
-/

namespace Sys2Proof.Machine

/-! Records (R327 to R330). -/

/-- A field of word `i` of a record or descriptor. -/
def rw (l : List W64) (i hi lo : Nat) : Nat := fld (l.getD i 0) hi lo

/-- Contexts of a partition (R403). -/
def Part.contexts (t : Part) : Nat := if t.pmode.getLsbD 63 then fld t.pmode 62 59 + 1 else 1

/-- The context that owns a space (R403; log 27). -/
def Part.ctxOf (t : Part) (space : Nat) : Nat := Config.contextOf space % t.contexts

/-- The grid that a record and its descriptor describe (R327, R328). -/
def recordGrid (tag ctx space : Nat) (ws d : List W64) (depth : Nat) (parent : Option Nat) (anchor time : Nat) : Grid :=
  { part := tag, ctx := ctx, space := space, kdesc := ws.getD 0 0, entry := d.getD 0 0, trph := d.getD 1 0, decl := d.getD 2 0,
    param := ws.getD 1 0, gx := rw ws 2 63 32, gy := rw ws 2 31 0, gz := rw ws 3 63 32, nx := rw ws 4 63 53, ny := rw ws 4 52 42,
    nz := rw ws 4 41 31, m := 4096 * rw ws 4 21 13, prio := rw ws 4 30 28,
    dl := [rw ws 5 63 32, rw ws 5 31 0, rw ws 6 63 32, rw ws 6 31 0], depth := depth, parent := parent, anchor := anchor,
    stamp := BitVec.ofNat 32 (launchStamp ws), nextUnit := 0, again := [], accepted := time, headSince := time,
    retiredCrews := 0, children := [], aborted := none, gbGen := 0, gbArr := [], gbSince := time, gbDone := none, fence := none }

/-- A record whose own fields break its format (R328, R329). -/
def recordBad (ws : List W64) : Bool :=
  let z (i hi lo : Nat) : Bool := decide (rw ws i hi lo = 0)
  !z 4 12 0 || !z 7 63 0 || z 2 63 32 || z 2 31 0 || z 3 63 32 || z 4 63 53 || z 4 52 42 || z 4 41 31 ||
    decide (256 < rw ws 4 21 13) || (addrFault ((ws.getD 0 0).toNat : Int) 64 64).isSome || inHost (ws.getD 0 0)

/-- A descriptor, with its record, that breaks the format, or a crew count that is no multiple of the team (R301, R327,
R329). -/
def declBad (g : Grid) (d : List W64) : Bool :=
  let w := g.decl
  let tw := declTw w
  let th := declTh w
  let n := g.crewCount
  ((List.range 5).any fun i => d.getD (i + 3) 0 ≠ 0) || decide (fld w 14 0 ≠ 0) ||
    decide (declCoh w = 0) || decide (48 < declCoh w) || decide (4194304 < declStash w) || decide (4096 < declSync w) ||
    decide (8 < declChan w) || decide (declRegs w = 0) || decide (64 < declRegs w) || decide (16 < tw) || decide (16 < tw * th) ||
    decide ((tw = 0) ≠ (th = 0)) || decide (2 ^ 32 < n) || decide (32 * declCoh w < g.nx * g.ny * g.nz) ||
    decide (declStash w < 16 * declSync w + 2048 * declChan w + g.m) || (decide (tw * th ≠ 0) && decide (n % (tw * th) ≠ 0))

/-- What the judgement of a record comes to (R323, R329, R330). -/
inductive Judged where
  | invalid
  | resource
  | grid (g : Grid)
  /-- Its descriptor's line is on its way. -/
  | later

/-- Judges a record for a space (R329, R330): the descriptor is read once; one that cannot be read breaks the format. -/
def State.judgeLaunch (s : State) (tag space : Nat) (ws : List W64) (depth : Nat) (parent : Option Nat) (anchor : Nat) :
    State × Judged :=
  match smGet s.parts tag with
  | none => (s, .resource)
  | some t =>
    if recordBad ws || (smGet t.roots space).isNone then (s, .invalid)
    else
      match s.readVa (asidOf tag space) (ws.getD 0 0) 64 0 with
      | .done (s, b, false) =>
        let d := eightWords b
        let g := recordGrid tag (t.ctxOf space) space ws d depth parent anchor s.time
        if declBad g d then (s, .invalid)
        else if s.cannotHold tag t g.decl g.need then (s, .resource)
        else (s, .grid g)
      | .wait => (s, .later)
      | _ => (s, .invalid)

/-- A grid enters its queue under a fresh serial (R331). -/
def State.queueGrid (s : State) (g : Grid) : State := { s.fresh with grids := smSet s.grids s.nextId g }

/-! `launch` (R323, R324). -/

/-- The faults of `launch` before its record is looked at (R323 checks 1 to 3), its operand first. -/
def launchFault (x : Slot) (i : Fin 32) : Option Cause :=
  let off := (x.a[i]).lo.toNat
  firstErr
    [failIf (x.a[i]).p cPoisonUse, failIf (decide (x.co ≠ 0) || decide (i.val ≠ 0)) cLaunchInvalid,
     failIf (decide (9 ≤ x.crew.depth)) cLaunchDepth, failIf (decide (off % 64 ≠ 0)) cMisaligned,
     failIf (decide (x.crew.dOff < off + 64)) cStashBounds]

/-- The launched grids of a partition that have not retired (R323). -/
def State.launched (s : State) (tag : Nat) : Nat := (s.grids.filter fun x => decide (x.2.part = tag) && x.2.parent.isSome).length

/-- An accepted launch (R324): the grid is queued, its launcher's release begins. -/
def State.acceptLaunch (s : State) (x : Slot) (lane : Nat) (g : Grid) : State :=
  let gid := s.nextId
  let s := s.queueGrid g
  let s := (s.modCrew x.cid fun c => { c with children := c.children ++ [gid] }).modGrid x.crew.grid fun p =>
    { p with children := p.children ++ [gid] }
  let f := s.nextId
  let s := s.startFence x.cid x.co 0 (laneBit lane) x.trpc
    { hold := false, rel := true, acq := false, scope := 3, ranges := none, step := 0, waits := [], next := .done }
  s.modGrid gid fun g => { g with fence := some f }

/-- A leader's launch is judged (R323): its status word, or LAUNCH_INVALID, which a poisoned KDESC gives too (R56, R329). -/
def State.launchOne (s : State) (x : Slot) (i : Fin 32) : State × Except Cause W64 :=
  let off := (x.a[i]).lo.toNat
  let tag := x.crew.part
  let ws := eightWords (memRead s.mem (x.crew.stashAt off) 64)
  if (s.getBytesP (x.crew.stashAt off) 8).any (·.2) then (s, .error cLaunchInvalid) else
  match s.judgeLaunch tag (rw ws 4 27 22) ws (x.crew.depth + 1) (some x.cid) x.crew.lcl with
  | (s, .invalid) => (s, .error cLaunchInvalid)
  | (s, r) =>
    let quota := (match smGet s.parts tag with | some t => (fld t.chquota 15 0) | none => 0)
    if quota ≤ s.launched tag then (s, .ok 1)
    else
      match r with
      | .grid g => (s.acceptLaunch x i.val g, .ok (BitVec.ofNat 64 (s.nextId % 2 ^ 24 * 256)))
      | _ => (s, .ok 2)

/-- One lane of a `launch`: a fault, or its status word. -/
def launchStep (x : Slot) (i : Fin 32) (y : State × List (Nat × TrapRec) × SMap W64) :
    State × List (Nat × TrapRec) × SMap W64 :=
  let trap (c : Cause) : Nat × TrapRec := (i.val, preciseTrap x.run c (faultAddr c ((x.a[i]).lo.setWidth 64)))
  match launchFault x i with
  | some c => (y.1, y.2.1 ++ [trap c], y.2.2)
  | none =>
    match y.1.launchOne x i with
    | (s, .error c) => (s, y.2.1 ++ [trap c], y.2.2)
    | (s, .ok w) => (s, y.2.1, smSet y.2.2 i.val w)

/-- What `launch` leaves in k[LK]: accepted, or not (R323). -/
def launchPred (k : Nat) (vals : SMap W64) (i : Fin 32) (th : Thread) : Thread :=
  { th with k := th.k.setIfInBounds k { v := decide ((smGetD vals i.val 0).toNat % 256 = 0), p := false } }

/-- The line of a leader's descriptor is on its way: the slot has not ended. -/
def State.launchLater (s : State) (x : Slot) (i : Fin 32) : Bool :=
  let ws := eightWords (memRead s.mem (x.crew.stashAt (x.a[i]).lo.toNat) 64)
  (launchFault x i).isNone &&
    match s.judgeLaunch x.crew.part (rw ws 4 27 22) ws (x.crew.depth + 1) (some x.cid) x.crew.lcl with
    | (_, .later) => true
    | _ => false

/-- `launch` (R323): k[LK] tells whether the record was accepted. -/
def execLaunch (f : Fields) (s : State) : Host.Outcome State Fault Refusal :=
  runSlot .launch f s fun x s =>
    if (lanesOf x.ex).any (s.launchLater x) then s else
    let y := forL (lanesOf x.ex) (s, ([] : List (Nat × TrapRec)), ([] : SMap W64)) (launchStep x)
    let s := if f.mod.toNat % 8 = 0 then y.1
      else y.1.modLanes x.cid x.co (x.done y.2.1) (launchPred (f.mod.toNat % 8) y.2.2)
    finishSlot x y.2.1 (.now false (Vector.ofFn fun i => { v := smGetD y.2.2 i.val 0, p := false })) s

/-! `cwait` (R325). -/

/-- `cwait`: each executing thread is held at its next clause boundary. -/
def execCwait (f : Fields) (s : State) : Host.Outcome State Fault Refusal :=
  runSlot .cwait f s fun x s =>
    finishSlot x [] .none (s.modLanes x.cid x.co x.ex fun _ th => { th with holds := .cwait :: th.holds.filter (· ≠ .cwait) })

/-- No clause of a crew is in progress. -/
def State.idleCrew (s : State) (cid : Nat) (c : Crew) : Bool :=
  (List.range 6).all (fun i => match (s.issue (6 * c.p + i)).run with | some r => decide (r.cid ≠ cid) | none => true) &&
    c.cohorts.all fun h => h.parked.isNone

/-- Every live thread of a crew is held by `cwait`, and one is. -/
def Crew.allWaiting (c : Crew) : Bool :=
  c.cohorts.any (fun h => h.live ≠ 0) &&
    c.cohorts.all fun h => (lanesOf h.live).all fun i => (h.threads[i]).holds.contains .cwait

/-- The threads of a crew that `cwait` holds are released; those at one address form one bundle; the release is an acquire
(R325). -/
def State.releaseWaiting (s : State) (cid : Nat) : State :=
  let grp := s.nextId
  let s := s.fresh.modCrew cid fun c =>
    { c with cohorts := c.cohorts.map fun h => h.mapThreads fun _ th =>
        if th.live then { th with holds := th.holds.filter (· ≠ .cwait), grp := grp } else th }
  s.crewAcquire cid

/-- A crew's resources were freed: a reservation keeps them (R332). -/
def State.noteFreed (s : State) (c : Crew) : State :=
  let k : Kept := { p := c.p, coh := c.ncoh, base := c.base, stash := c.stash, m := c.m }
  (s.modPart c.part fun t => { t with reserve := t.reserve.map fun x => (x.1, x.2 ++ [k]) }).trimReserves

/-- The first five words of a queued crew's control block (R338), as the diagnostic port shows them; the other three are zero. -/
def Ccb.words (b : Ccb) (g : Grid) : List W64 :=
  [BitVec.ofNat 64 (b.grid % 2 ^ 32 * 2 ^ 32 + b.crew), g.param, g.decl,
   BitVec.ofNat 64 (g.depth * 2 ^ 60 + g.prio * 2 ^ 57 + g.m / 4096 * 2 ^ 48 + g.space * 2 ^ 42), BitVec.ofNat 64 b.qt]

/-- A suspended crew whose last child has retired becomes a unit of its grid (R325, R331). -/
def State.wakeSuspended (s : State) (cid : Nat) : State :=
  match smGet s.crews cid with
  | some c =>
    if c.st = .suspended && c.children.isEmpty && c.stopping.isNone then
      s.modGrid c.grid fun g => { g with again := g.again ++ [cid] }
    else s
  | none => s

/-- CWAIT_RESUME (R325): a crew all of whose threads wait is released when no child is outstanding; otherwise it is drained,
saved and suspended, and placed again by the dispatcher after its last child has retired. -/
def execCwaitResume (cid : Nat) (s : State) : Host.Outcome State Fault Refusal :=
  .next (
    match smGet s.crews cid with
    | none => s
    | some c =>
      match smGet s.parts c.part with
      | none => s
      | some t =>
        if c.st ≠ .running || c.stopping.isSome || t.qst ≠ 0 || t.reshape.isSome || !c.allWaiting || !s.idleCrew cid c then s
        else if c.leaving.isSome then
          if s.leaveReady cid then ((s.saveCrew cid .suspended).noteFreed c).wakeSuspended cid else s.stepLeave cid
        else if c.children.isEmpty then s.releaseWaiting cid
        else s.beginLeave cid .save)

/-! Host launch queues (R329, R331, R424). -/

/-- HOST_LAUNCH_FETCH (R329, R330): the record at RP of a launch queue is fetched and judged for the queue's space. -/
def execHostLaunchFetch (part space : Nat) (s : State) : Host.Outcome State Fault Refusal :=
  .next (
    if 64 ≤ space then s
    else
      match s.fetchRecord part space launchStamp with
      | (s, none) => s
      | (t, some ws) =>
        match t.judgeLaunch part space ws 0 none 0 with
        | (_, .later) => s
        | (s, .grid g) => s.queueGrid g
        | (s, .invalid) => s.postInfo part cLaunchInvalid 0 (launchStamp ws)
        | (s, .resource) => s.postInfo part cLaunchResource 0 (launchStamp ws))

/-- STAMP_TIMEOUT (R424): 2 µs after the first fetch of a record with a foreign stamp the queue enters STAMP_WAIT, and
RECORD_STAMP is posted. -/
def execStampTimeout (part queue : Nat) (s : State) : Host.Outcome State Fault Refusal :=
  .next (
    let q := s.queue part queue
    match q.stampSince with
    | some t =>
      if 64 < queue || q.st ≠ 0 || !q.en || s.time < t + 2000 then s
      else (s.queueTo part queue 2).postInfo part cRecordStamp 0 q.rp.toNat
    | none => s)

/-! The dispatcher (R332). -/

/-- DISPATCH (R332): the dispatcher of a RUNNING partition places the first unit in order that can be placed. -/
def execDispatch (part : Nat) (s : State) : Host.Outcome State Fault Refusal :=
  .next (
    match smGet s.parts part with
    | some t =>
      if t.qst ≠ 0 || t.reshape.isSome then s
      else
        let l := s.gridOrder part t.ctxNow
        let t := { t with reserve := t.reserve.filter fun x => l.any fun y => y.1 = x.1 }
        (s.modPart part fun u => { u with reserve := t.reserve }).dispatchFirst t l
    | none => s)

/-- RESERVATION_TIMEOUT (R332): the first head unit that has waited 100 µs reserves what is freed from now on. -/
def execReservationTimeout (part : Nat) (s : State) : Host.Outcome State Fault Refusal :=
  .next (
    match smGet s.parts part with
    | some t =>
      let l := s.gridOrder part t.ctxNow
      if t.qst ≠ 0 || (match t.reserve with | some x => l.any fun y => y.1 = x.1 | none => false) then s
      else
        match l.find? fun x => decide (x.2.headSince + 100000 ≤ s.time) with
        | some x => s.modPart part fun t => { t with reserve := some (x.1, []) }
        | none => s
    | none => s)

/-! Crew queues (R335). -/

/-- The logical id of a partition's cluster. -/
def Part.idOf (t : Part) (p : Nat) : Nat := ((t.positions.find? fun x => x.2 = p).map Prod.fst).getD 0

/-- The priority level of a queued crew. -/
def State.ccbLevel (s : State) (b : Ccb) : Nat := match smGet s.grids b.grid with | some g => g.prio | none => 8

/-- The head of a crew queue: by level, then in order of queueing (R335). -/
def State.queueHead (s : State) (l : List Ccb) : Option Ccb :=
  (List.range 9).findSome? fun lv => l.find? fun b => s.ccbLevel b = lv

/-- What a queued crew takes. -/
def State.ccbNeed (s : State) (b : Ccb) (g : Grid) : Need :=
  match b.cid.bind fun i => smGet s.crews i with
  | some c => c.need
  | none => g.need

/-- Starts a queued crew at a window (R335). -/
def State.startCcb (s : State) (b : Ccb) (g : Grid) (p lcl base : Nat) : State :=
  match b.cid with
  | some i => s.restartCrew i p lcl base
  | none => s.startCrew b.grid g b.crew p lcl base

/-- CREW_QUEUE_START (R335): the crew at the head of a cluster's queue starts once it fits. -/
def execCrewQueueStart (p : Nat) (s : State) : Host.Outcome State Fault Refusal :=
  .next (
    match s.queueHead (s.cluster p).queue with
    | none => s
    | some b =>
      match smGet s.grids b.grid with
      | none => s.modCluster p fun c => { c with queue := c.queue.erase b }
      | some g =>
        match smGet s.parts g.part with
        | none => s
        | some t =>
          if t.qst ≠ 0 || t.reshape.isSome || !s.usable t p then s
          else
            match s.fits g.part p (s.ccbNeed b g) ((s.cluster p).queue.erase b) true [] with
            | none => s
            | some base =>
              (s.modCluster p fun c => { c with queue := c.queue.erase b }).startCcb b g p (t.idOf p) base)

/-! Work donation (R336, R337). -/

/-- The largest free window of a cluster: where it begins and its bytes. -/
def largestWindow (used : List (Nat × Nat)) (limit : Nat) : Nat × Nat :=
  let l := (0 :: used.map fun x => 4096 * ceilDiv x.2 4096).filterMap fun b =>
    if limit ≤ b || used.any fun x => decide (x.1 ≤ b) && decide (b < x.2) then none
    else
      let up := used.foldl (fun m x => if b < x.1 then min m x.1 else m) limit
      some (b, (up - b) / 4096 * 4096)
  (bestOf (fun a b => decide (b.2 < a.2) || (decide (a.2 = b.2) && decide (a.1 < b.1))) l).getD (0, 0)

/-- Steal distance of two positions, in logical hops (R336). -/
def Part.victims (t : Part) (s : State) (lid p : Nat) : List (Nat × Nat) :=
  (s.places t).filter fun x => x.2 ≠ p && decide (t.dist lid x.1 ≤ 8) && !(s.cluster x.2).queue.isEmpty

/-- STEAL_REQUEST (R336): an idle cluster names its free resources to the cluster with the longest queue, and keeps them. -/
def execStealRequest (p : Nat) (s : State) : Host.Outcome State Fault Refusal :=
  .next (
    match s.parts.find? fun x => x.2.res.clusters.contains p with
    | none => s
    | some (_, t) =>
      let c := s.cluster p
      let used := (s.residents p).flatMap fun x => x.2.places.map Prod.fst
      let idle := c.queue.isEmpty && (List.range 6).any fun i => !used.contains i
      if t.qst ≠ 0 || t.reshape.isSome || !s.usable t p || c.steal.isSome || !idle || s.time < c.stealAfter then s
      else
        let lid := t.idOf p
        let len (x : Nat × Nat) : Nat := (s.cluster x.2).queue.length
        let best := bestOf (fun a b =>
          decide (len b < len a) || (decide (len a = len b) &&
            (decide (t.dist lid a.1 < t.dist lid b.1) || (decide (t.dist lid a.1 = t.dist lid b.1) && decide (a.1 < b.1)))))
          (t.victims s lid p)
        match best with
        | none => s
        | some v =>
          let w := largestWindow (s.windowsOf p false) (s.windowLimit p)
          s.modCluster p fun c =>
            { c with steal := some { victim := v.2, slots := s.freeSlots p false, window := w.2, wbase := w.1,
                                     mapped := 1048576 - s.mappedUse p [] false, answered := false, shipped := [] } })

/-- The blocks shipped, from the tail on, within the resources named and a number of crews (R337). -/
def State.shipFrom (s : State) : List Ccb → Nat → Nat → Nat → Nat → List Ccb
  | [], _, _, _, _ => []
  | b :: r, n, slots, window, mapped =>
    match smGet s.grids b.grid with
    | none => State.shipFrom s r n slots window mapped
    | some g =>
      let d := s.ccbNeed b g
      if n = 0 || d.zp || d.banks ≠ [] || slots < d.coh || window < d.stash || mapped < d.m then State.shipFrom s r n slots window mapped
      else b :: State.shipFrom s r (n - 1) (slots - d.coh) (window - d.stash) (mapped - d.m)

/-- A cluster waits for the answer of a victim (R336). -/
def Cluster.asks (c : Cluster) (p : Nat) : Bool :=
  match c.steal with
  | some t => decide (t.victim = p) && !t.answered
  | none => false

/-- STEAL_VICTIM (R337): the victim ships blocks from the tail of its queue, at most half of them. -/
def execStealVictim (p : Nat) (s : State) : Host.Outcome State Fault Refusal :=
  .next (
    match s.clusters.find? fun x => x.2.asks p with
    | none => s
    | some (thief, c) =>
      match c.steal with
      | none => s
      | some t =>
        let q := (s.cluster p).queue
        let l := s.shipFrom q.reverse ((q.length + 1) / 2) t.slots t.window t.mapped
        (s.modCluster p fun c => { c with queue := c.queue.filter fun b => !l.contains b }).modCluster thief fun c =>
          { c with steal := some { t with answered := true, shipped := l } })

/-- STEAL_REPLY (R337): the reservation ends and the crews shipped start on the thief; after a reply that ships nothing the
next request waits 1 µs. -/
def execStealReply (p : Nat) (s : State) : Host.Outcome State Fault Refusal :=
  .next (
    match (s.cluster p).steal with
    | none => s
    | some t =>
      if !t.answered then s
      else
        let s := s.modCluster p fun c => { c with steal := none, stealAfter := if t.shipped = [] then s.time + 1000 else s.time }
        forL t.shipped s fun b s =>
          match smGet s.grids b.grid with
          | none => s
          | some g =>
            let lid := (match smGet s.parts g.part with | some q => q.idOf p | none => 0)
            match s.fits g.part p (s.ccbNeed b g) [] false [] with
            | some base => s.startCcb b g p lid base
            | none => s.modCluster p fun c => { c with queue := c.queue ++ [b] })

/-! Retirement (R315, R316). -/

/-- A grid with nothing left to place, to run or to wait for retires, then perhaps the grid that launched it (R316); the host
learns of its own grids (R426). `fuel` bounds the nesting. -/
def State.retireGrid (s : State) : Nat → Nat → State
  | 0, _ => s
  | fuel + 1, gid =>
    match smGet s.grids gid with
    | none => s
    | some g =>
      let queued := s.clusters.any (fun x => x.2.queue.any (fun b => b.grid = gid) ||
          (match x.2.steal with | some t => t.shipped.any fun b => b.grid = gid | none => false)) ||
        s.parts.any fun x => x.2.savedQueues.any fun y => y.2.any fun z => z.2.any fun b => b.grid = gid
      if g.nextUnit < g.crewCount || !g.again.isEmpty || !g.children.isEmpty || queued || s.crews.any fun x => x.2.grid = gid then s
      else
        let s := { s with grids := smDel s.grids gid }
        match g.parent with
        | none => s.postEvent g.part (if g.aborted.isSome then 1 else 0) g.space g.stamp (BitVec.ofNat 64 gid) 0
        | some cid =>
          let up := (s.grids.find? fun x => x.2.children.contains gid).map Prod.fst
          let s := (s.modCrew cid fun c => { c with children := c.children.filter (· ≠ gid) }).wakeSuspended cid
          match up with
          | some u => State.retireGrid (s.modGrid u fun g => { g with children := g.children.filter (· ≠ gid) }) fuel u
          | none => s

/-- A crew's grid, and the aborted grids that have nothing left, retire when they can (R316). -/
def State.retireAfter (s : State) (gid : Nat) : State :=
  forL (s.grids.filter fun x => x.2.aborted.isSome) (s.retireGrid 12 gid) fun x s => s.retireGrid 12 x.1

/-- A crew leaves the machine: its bind table and banks go with it (R225, R315). -/
def State.removeCrew (s : State) (cid : Nat) : State :=
  match smGet s.crews cid with
  | none => s
  | some c =>
    let s := s.modCluster c.p fun cl => cl.without cid
    let s := { s with crews := smDel s.crews cid, checks := smDel s.checks cid,
                      pends := smFilter (fun _ x => x.cid ≠ cid) s.pends, toks := smFilter (fun _ x => x.cid ≠ cid) s.toks,
                      reqs := smFilter (fun _ r => r.cid ≠ cid) s.reqs }
    let s := s.modGrid c.grid fun g => { g with retiredCrews := g.retiredCrews + 1, again := g.again.filter (· ≠ cid) }
    ((s.noteFreed c).gbarSettle c.grid).retireAfter c.grid

/-- Every job and card that a crew posted has ended (R225, R315). -/
def State.jobsOver (s : State) (cid : Nat) (c : Crew) : Bool :=
  !((s.cluster c.p).cp.any fun x => x.2.cid = cid && !x.2.st.over) &&
    !(s.mxEntries.any fun x => x.2.2.cid = cid && !x.2.2.st.over)

/-- No management command of a partition is under way (R412). -/
def State.idlePart (s : State) (tag : Nat) : Bool :=
  match smGet s.parts tag with
  | some t => decide (t.qst = 0) && t.reshape.isNone
  | none => true

/-- CREW_RETIRE (R315, R379): a crew whose threads, jobs and children are done, or that stops, is drained; then it leaves its
cluster and the machine, and its grid may retire. A crew that an abort meets while `cwait` drains it goes the same way. -/
def execCrewRetire (cid : Nat) (s : State) : Host.Outcome State Fault Refusal :=
  .next (
    match smGet s.crews cid with
    | none => s
    | some c =>
      if c.st = .saved || c.st = .suspended then (if c.stopping.isSome then s.removeCrew cid else s)
      else if c.leaving = some .retire || (c.leaving = some .save && c.stopping.isSome && s.idlePart c.part) then
        (if s.leaveReady cid then s.removeCrew cid else s.stepLeave cid)
      else if c.leaving.isSome || !s.idleCrew cid c then s
      else
        let done := c.cohorts.all (fun h => decide (h.live = 0)) && c.children.isEmpty && s.jobsOver cid c && !s.finPending cid
        if done || c.stopping.isSome then s.beginLeave cid .retire else s)

end Sys2Proof.Machine
end

