-- ==== Sys2Proof/Machine/Stash.lean ====
section
/-!
DEFINITION. Sys2Proof/Machine/Stash.lean: the stash maintenance instructions (R108, R109), the fill of a mapped line (R106)
and its write-back (R107).
-/

namespace Sys2Proof.Machine

/-- The maintenance operations (R108). -/
inductive Maint where
  | map | unmap | wb | inv
  deriving DecidableEq, Repr

/-- Some line of a range is mapped, or some VA of the range is mapped at another line of the crew (R109). -/
def State.mapClash (s : State) (p cid line n : Nat) (va : W64) : Bool :=
  (s.cluster p).mapped.any fun x =>
    (decide (line ≤ x.1) && decide (x.1 < line + n)) ||
      (decide (x.2.cid = cid) && decide (va.toNat ≤ x.2.va.toNat) && decide (x.2.va.toNat < va.toNat + 128 * n))

/-- The checks of a maintenance operation, in the order of R109; a mapping to the host window faults PAGE_PERM (R421). -/
def State.maintFault (s : State) (x : Slot) (op : Maint) (poison : Bool) (off n : Nat) (va : W64) : Option (Cause × W64) :=
  let phys := x.crew.base + off
  let line := phys / 128
  if poison then some (cPoisonUse, 0)
  else
    firstErr
      [failIf (decide (off % 128 ≠ 0) || (decide (op = .map) && decide (va.toNat % 128 ≠ 0))) (cMisaligned, if off % 128 ≠ 0 then BitVec.ofNat 64 off else va),
       failIf (decide (x.crew.stash < off + 128 * n) || decide (off < x.crew.mOff)) (cStashBounds, BitVec.ofNat 64 off),
       (if op = .map then atAddr va (addrFault (va.toNat : Int) (128 * n) 0) else none),
       failIf (decide (op = .map) && inHost va) (cPagePerm, va),
       failIf (decide (op = .map) && s.mapClash x.p x.cid line n va) (cStashMapConflict, va),
       failIf (decide (n ≠ 0) && (s.cluster x.p).locked none phys (128 * n) true) (cRangeLocked, BitVec.ofNat 64 off),
       failIf (decide (op ≠ .unmap) && (List.range n).any fun i =>
         match smGet (s.cluster x.p).mapped (line + i) with | some l => decide (l.st = 3) | none => false) (cStashOrphan, BitVec.ofNat 64 off)]

/-- A line newly mapped (R106, R109). -/
def MLine.fresh (cid : Nat) (va : W64) : MLine :=
  { st := 0, cid := cid, va := va, mask := 0, w := false, waiters := [], inv := none, wb := [], un := false, cell := 0 }

/-- A maintenance operation on one line (R106, R109); `who` is its result and lane. -/
def maintLine (op : Maint) (cid : Nat) (va : W64) (who : Nat × Nat) (l : Option MLine) : Option MLine :=
  match op, l with
  | .map, _ => some (MLine.fresh cid va)
  | _, none => none
  | .unmap, some l =>
    if l.st = 1 then some { l with un := true, wb := l.wb ++ [who] }
    else if l.st = 2 && l.mask ≠ 0 then some { l with un := true, wb := l.wb ++ [who] }
    else none
  | .wb, some l => if l.st = 2 && l.mask ≠ 0 then some { l with wb := l.wb ++ [who] } else some l
  | .inv, some l =>
    if l.st = 1 || (l.st = 2 && !l.wb.isEmpty) then some { l with inv := some l.waiters.length }
    else if l.st = 2 then some { l with st := 0, mask := 0 }
    else some l

/-- A maintenance operation of one lane on its lines, in order (R109). -/
def State.maintain (s : State) (x : Slot) (op : Maint) (id lane line n : Nat) (va : W64) : State :=
  forN n s fun i s =>
    let v := BitVec.ofNat 64 (va.toNat + 128 * i)
    let old := smGet (s.cluster x.p).mapped (line + i)
    let next := maintLine op x.cid v (id, lane) old
    let s := s.modCluster x.p fun c =>
      { c with mapped := match next with | some l => smSet c.mapped (line + i) l | none => smDel c.mapped (line + i) }
    match old, next with
    | some l, none => s.wbLanes x.p l.wb
    | _, _ => s

/-- A maintenance operation of the next executing thread: its fault, or its effect and whether it awaits a write-back (R108,
R109). -/
def maintStep (x : Slot) (op : Maint) (id : Nat) (i : Fin 32) (y : State × List (Nat × TrapRec) × BitVec 32) :
    State × List (Nat × TrapRec) × BitVec 32 :=
  let off := (x.a[i]).lo.toNat
  let n := (if op = .map then x.c[i] else x.b[i]).lo.toNat
  let va := if op = .map then (x.b[i]).v else 0
  let poison := (x.a[i]).p || (x.b[i]).p || (decide (op = .map) && (x.c[i]).p)
  match y.1.maintFault x op poison off n va with
  | some e => (y.1, y.2.1 ++ [(i.val, preciseTrap x.run e.1 e.2)], y.2.2)
  | none =>
    let line := (x.crew.base + off) / 128
    let s := y.1.maintain x op id i.val line n va
    let left := (s.cluster x.p).mapped.any fun z => z.2.wb.contains (id, i.val)
    (s, y.2.1, if left then y.2.2 ||| laneBit i.val else y.2.2)

/-- A maintenance instruction: each executing thread in lane order (R108, R109); SETB follows its write-backs. -/
def maintSlot (o : Op) (op : Maint) (f : Fields) (s : State) : Host.Outcome State Fault Refusal :=
  runSlot o f s fun x s =>
    let id := s.nextId
    let s := s.addPend (x.pend 0 0 x.ex [])
    let (s, l, m) := forL (lanesOf x.ex) (s, ([] : List (Nat × TrapRec)), (0 : BitVec 32)) (maintStep x op id)
    let s := s.modPend id fun p => { p with waitPerf := m }
    (finishSlot x l .none s).settlePend id

/-- `stash.map` (R106, R109). -/
def execStashMap (f : Fields) (s : State) : Host.Outcome State Fault Refusal := maintSlot .stashMap .map f s
/-- `stash.unmap` (R106, R109). -/
def execStashUnmap (f : Fields) (s : State) : Host.Outcome State Fault Refusal := maintSlot .stashUnmap .unmap f s
/-- `stash.wb` (R107, R109). -/
def execStashWb (f : Fields) (s : State) : Host.Outcome State Fault Refusal := maintSlot .stashWb .wb f s
/-- `stash.inv` (R107, R109). -/
def execStashInv (f : Fields) (s : State) : Host.Outcome State Fault Refusal := maintSlot .stashInv .inv f s

/-- The replayed accesses of a line that is not to be filled, because it is Valid, Orphan or unmapped by now (R106). -/
def State.serveReplays (s : State) (p line : Nat) : State :=
  forL (s.reqs.filter fun x => x.2.p = p && x.2.stage = .replay && (match x.2.line with | some o => decide (o / 128 = line) | none => false))
    s fun x s =>
      let r := x.2
      match s.thread? r.cid r.co r.lane with
      | some th =>
        if th.contrail.head? = some x.1 then
          let off := r.line.getD 0
          if ((s.cluster p).mline? off).any fun l => l.st = 3 then
            (({ s with reqs := smDel s.reqs x.1 }).leaveTrail r x.1).dueTrap r.cid r.co r.lane
              (lateTrap cStashOrphan (s.windowOff r.cid off) r.trpc r.ord r.inRgn)
          else
            s.serveWait p { cid := r.cid, co := r.co, lane := r.lane, pend := r.pend.getD 0, off := off, op := r.op, ty := .b32,
                            sz := r.op.bytes, sx := decide (r.lost = 1), req := some x.1, trpc := r.trpc, ord := r.ord,
                            inRgn := r.inRgn }
        else s
      | none => s

/-- MAPPED_LINE_FILL (R106): fill data arrives for a Filling line, or the fill meets a fault. -/
def execMappedLineFill (p line : Nat) (s : State) : Host.Outcome State Fault Refusal :=
  .next (
    match smGet (s.cluster p).mapped line with
    | some l =>
      if l.st = 0 then s
      else if l.st ≠ 1 then s.serveReplays p line
      else
        match s.fillMline p line l with
        | .done s => s.serveMline p line
        | .wait => s
        | .fault c => s.failMline p line l c
    | none => s.serveReplays p line)

/-- A dirty granule of a line is written at home, or in the bounce buffer (R78, R107). -/
def State.writeBackGranule (s : State) (p line g : Nat) (l : MLine) : State :=
  let asid := s.lineAsid l
  let va := l.va + BitVec.ofNat 64 (32 * g)
  let d := s.getBytesP (stashAddr p (128 * line + 32 * g)) 32
  let clean (s : State) : State :=
    (s.modMline p (128 * line) fun l => { l with mask := l.mask &&& ~~~(BitVec.ofNat 4 (2 ^ g)) }).mlineRest p line
  if s.sourceBusy (some p) asid va then s
  else
  match s.engineWrite asid va d with
  | .done s => clean s
  | .wait => s.engineStall asid va d
  | .fault c => (clean s).fatal l.cid c va 0

/-- WRITE_BACK_STEP (R107): the cluster writes back a dirty granule of a Valid line, asked or of its own choice. -/
def execWriteBackStep (p line g : Nat) (s : State) : Host.Outcome State Fault Refusal :=
  .next (
    match smGet (s.cluster p).mapped line with
    | some l => if l.st = 2 && l.mask.getLsbD g then s.writeBackGranule p line g l else s
    | none => s)

end Sys2Proof.Machine
end

