-- ==== Sys2Proof/Machine/Power.lean ====
section
/-!
DEFINITION. Sys2Proof/Machine/Power.lean: squalls and their suspect windows (R390, R391), zone and package limits (R388,
R389), the failure of a cluster (R13, R373), zone checkpoints and the loss of a zone (R375, R393 to R396).
-/

namespace Sys2Proof.Machine

/-! Squalls (R390, R391). -/

/-- The cohorts whose regions are open on a cluster, with their places. -/
def State.openRegions (s : State) (p : Nat) : List (Nat × Nat × Nat) :=
  s.crews.flatMap fun x =>
    if x.2.p = p then
      (x.2.cohorts.zipIdx).filterMap fun h => if h.1.rgn.opened then some (x.1, h.2, 8 * h.1.slice + h.1.place) else none
    else []

/-- SQUALL_TRIP (R390, R391): the clock stretches, the trip is counted and the suspect window opens; a trip within a stretch
only extends it. Which regions got a result in the four cycles before the trip is a free value (log 2). `hard` is the drop of
45 mV or more, which slows the clock further. -/
def execSquallTrip (p : Nat) (hard : Bool) (s : State) : Host.Outcome State Fault Refusal :=
  .next (
    let now := s.clock p
    if (s.cluster p).stretched then
      s.modCluster p fun c => { c with deep := c.deep || hard, clk := now, clkAt := s.time, clkMark := now }
    else
      let s := s.modCluster p fun c =>
        { c with stretched := true, deep := hard, suspect := true, squalls := c.squalls + 1, clk := now, clkAt := s.time,
                 clkMark := now }
      forL (s.openRegions p) s fun x s =>
        if (Config.random s.tick).getLsbD x.2.2 then s.noteSuspect p x.1 x.2.1 else s)

/-- SQUALL_STRETCH_END (R390): the stretch ends, at least 32 stretched cycles after its last trip; the suspect window goes on. -/
def execSquallStretchEnd (p : Nat) (s : State) : Host.Outcome State Fault Refusal :=
  .next (
    let now := s.clock p
    if (s.cluster p).stretched && s.cyclesPast p (s.cluster p).clkMark 32 then
      s.modCluster p fun c => { c with stretched := false, deep := false, clk := now, clkAt := s.time, clkMark := now }
    else s)

/-- SUSPECT_WINDOW_END (R391): the window closes 16 cluster cycles after the stretch. -/
def execSuspectWindowEnd (p : Nat) (s : State) : Host.Outcome State Fault Refusal :=
  .next (
    if (s.cluster p).suspect && !(s.cluster p).stretched && s.cyclesPast p (s.cluster p).clkMark 16 then
      s.modCluster p fun c => { c with suspect := false }
    else s)

/-! Limits (R388, R389). -/

/-- ZONE_OVERCURRENT (R389): a reading of a zone's current; above 187.5 A its clusters' duties halve. -/
def execZoneOvercurrent (z current : Nat) (s : State) : Host.Outcome State Fault Refusal :=
  .next (
    if 64 ≤ z then s
    else
      let s := { s with zonecur := smSet s.zonecur z (current % 65536) }
      if current % 65536 ≤ 1875 then s
      else
        forL (zoneClusters z) { s with overAt := smSet s.overAt z s.time } fun p s =>
          s.modCluster p fun c => { c with mxduty := BitVec.ofNat 5 (max 1 (c.mxduty.toNat / 2)) })

/-- DUTY_RESTORE (R389): after 10 quiet µs each duty of the zone rises one step towards DSET. -/
def execDutyRestore (z : Nat) (s : State) : Host.Outcome State Fault Refusal :=
  .next (
    match smGet s.overAt z with
    | some t =>
      if s.time < t + 10000 then s
      else
        forL (zoneClusters z) { s with overAt := smSet s.overAt z s.time } fun p s =>
          if (s.cluster p).mxduty.toNat < (s.cluster p).dset.toNat then
            s.modCluster p fun c => { c with mxduty := c.mxduty + 1 }
          else s
    | none => s)

/-- PACKAGE_POWER_LIMIT (R389): a reading of the package power; above 6,000 W firmware lowers ratios and duties, to values that
the operator's policy gives (log 2). -/
def execPackagePowerLimit (watts : Nat) (s : State) : Host.Outcome State Fault Refusal :=
  .next (
    let s := { s with pkgpwr := watts % 65536 }
    if watts % 65536 ≤ 6000 then s
    else
      forL (s.parts.flatMap fun x => x.2.res.clusters) s fun p s =>
        let n := Config.powerPolicy s.tick p
        s.modCluster p fun c =>
          let d := BitVec.ofNat 5 (min c.dset.toNat (1 + n / 9 % 16))
          { c with sl := c.sl.map fun i => { i with ratio := BitVec.ofNat 5 (min i.ratio.toNat (8 + n % 9)) },
                   dset := d, mxduty := if d.toNat < c.mxduty.toNat then d else c.mxduty })

/-! Failing clusters (R13, R373). -/

/-- A ready cluster that no partition owns. -/
def State.unowned (s : State) (p : Nat) : Bool :=
  s.clRdy.contains p && !s.fenced.contains (clusterSite p) && !(s.cluster p).zeroing && decide ((s.cluster p).silent < 2) &&
    (s.ownerOf p).isNone

/-- Cluster `a` is nearer to a site than `b` by router hops, round fenced routers, or has the lower site on a tie (R13). -/
def State.nearer (s : State) (site a b : Nat) : Bool :=
  let far (p : Nat) : Nat := (s.distance site (clusterSite p)).getD 8192
  decide (far a < far b) || (decide (far a = far b) && decide (clusterSite a < clusterSite b))

/-- The replacement of a failed cluster (R13 step 2): a spare of its zone, else the nearest by router hops, the lower site on
a tie. Of several spares the model takes the nearest, the lower site on a tie: R13 orders none (DESIGN CHOICE, log 38). -/
def State.replacementFor (s : State) (p : Nat) : Option Nat :=
  let site := clusterSite p
  let spares := ((clusterZone p).map zoneSpares).getD [] |>.filter s.unowned
  match bestOf (s.nearer site) spares with
  | some q => some q
  | none => bestOf (s.nearer site) ((List.range Config.clusters).filter s.unowned)

/-- An unowned cluster becomes a partition's (R13 step 3): it is zeroed, and with it the reserve that it may hold: the crews that
used that are unprotected until they take another (R396). -/
def State.takeCluster (s : State) (p : Nat) : State :=
  let s := s.joinCluster p
  { s with reserves := s.reserves.filter fun x => x.2 ≠ p,
           checks := smMap (fun _ k => { k with host := k.host.filter fun q => q ≠ p }) s.checks }

/-- A site is fenced (R13 step 1, R14): it takes no work, and its ready bit is not set again before the next cold start. -/
def State.fenceCluster (s : State) (p : Nat) : State :=
  { s with fenced := nsAdd (clusterSite p) s.fenced, clRdy := nsDel p s.clRdy, failed := (.cl, p) :: s.failed.erase (.cl, p) }

/-- The entry of a route map that named cluster `p` (R401) names `q`, or is a hole. -/
def Part.moveEntry (t : Part) (p : Nat) (q : Option Nat) : Part :=
  { t with
    map := smMap (fun _ e => if e.getLsbD 31 && clusterAt (fld (e.setWidth 64) 11 0) = p then
        (match q with | some q => BitVec.ofNat 32 (2 ^ 31 + clusterSite q) | none => 0) else e) t.map
    res := { t.res with clusters := match q with
      | some q => nsAdd q (nsDel p t.res.clusters)
      | none => nsDel p t.res.clusters }
    savedQueues := smMap (fun _ l => l.map fun x => if x.1 = p then (q.getD p, x.2) else x) t.savedQueues }

/-- Crews that wait in the queue of a cluster that is gone join the nearest queue that can take them, as PlaceCrew has it
(R13, R333; log 27). -/
def State.requeue (s : State) (tag p : Nat) (l : List Ccb) : State :=
  forL l s fun b s =>
    match smGet s.parts tag, smGet s.grids b.grid with
    | some t, some g =>
      let need := (match b.cid.bind fun i => smGet s.crews i with | some c => c.need | none => g.need)
      let fit := (s.places t).filter fun x => x.2 ≠ p && s.fitsEmpty tag x.2 need
      let room := fit.filter fun x => decide ((s.cluster x.2).queue.length < 32)
      match t.nearest g.anchor (if room = [] then fit else room) with
      | some (_, q) => s.modCluster q fun c => { c with queue := c.queue ++ [b] }
      | none => (s.abortGrid b.grid cClusterFailing true).retireAfter b.grid
    | _, _ => s

/-- R13 steps 1 to 5 for a cluster whose crews are saved: it is fenced, and its replacement zeroed, entered in the map and
given the crews and the crew queue; without a replacement the entry becomes a hole and the dispatcher places them. -/
def State.replaceCluster (s : State) (tag p : Nat) : State :=
  let queue := (s.cluster p).queue
  let mine := s.crews.filter fun x => x.2.part = tag && x.2.p = p && x.2.st = .saved
  let q := s.replacementFor p
  let s := ((s.fenceCluster p).zeroCluster p).modCluster p fun c => { c with silent := 0 }
  match q with
  | some q =>
    let s := (s.takeCluster q).modPart tag fun t => t.moveEntry p (some q)
    let s := s.modCluster q fun c => { c with queue := queue, silent := 0 }
    let running := (match smGet s.parts tag with | some t => decide (t.qst = 0) && t.reshape.isNone | none => false)
    let ctx := (match smGet s.parts tag with | some t => t.ctxNow | none => 0)
    forL mine s fun x s =>
      if running && x.2.ctx = ctx then s.restoreCrew x.1 q x.2.lcl x.2.base x.2.places
      else s.modCrew x.1 fun c => { c with p := q }
  | none =>
    let s := s.modPart tag fun t => t.moveEntry p none
    let s := forL mine s fun x s => s.modGrid x.2.grid fun g => { g with again := g.again ++ [x.1] }
    s.requeue tag p queue

/-- A crew whose cluster is lost leaves the machine without being drained; its grid is aborted with a record of its own
(R316, R373, R375). -/
def State.loseCrew (s : State) (cid : Nat) (cause : Cause) : State :=
  match smGet s.crews cid with
  | none => s
  | some c =>
    let s := s.discardSeals cid 0 cause.toNat
    let s := (s.abortGrid c.grid cause true)
    let s := { s with
             crews := smDel s.crews cid, checks := smDel s.checks cid,
             pends := smFilter (fun _ x => x.cid ≠ cid) s.pends, toks := smFilter (fun _ x => x.cid ≠ cid) s.toks,
             reqs := smFilter (fun _ r => r.cid ≠ cid) s.reqs,
             grids := smMod s.grids c.grid fun g => { g with retiredCrews := g.retiredCrews + 1, again := g.again.filter (· ≠ cid) } }
    s.retireAfter c.grid

/-- CLUSTER_FAILING (R373): the second silent error within 1 ms makes a cluster failing: its record, the restart and the save of
its crews, and, once they are saved, its replacement. A save that cannot be read with every check passing aborts them; whether
it can is a free value (log 2). -/
def execClusterFailing (p : Nat) (s : State) : Host.Outcome State Fault Refusal :=
  .next (
    let c := s.cluster p
    if c.silent < 2 || Config.clusters ≤ p then s
    else
      match s.ownerOf p with
      | none => (s.logSvc cClusterFailing p 0 0).fenceCluster p |>.modCluster p fun c => { c with silent := 0 }
      | some tag =>
        let waits := (match smGet s.parts tag with | some t => decide (t.qst = 1) || t.reshape.isSome | none => true)
        let here := s.residents p
        if c.silent = 2 then
          let s := (s.postInfo tag cClusterFailing 0 0).modCluster p fun c => { c with silent := 3 }
          if waits then s else forL here s fun x s => if x.2.leaving.isNone then s.beginLeave x.1 .save else s
        else if waits then s
        else
          let s := forL here s fun x s => if x.2.leaving.isNone then s.beginLeave x.1 .save else s.stepLeave x.1
          let here := s.residents p
          if here.all fun x => x.2.leaving = some .save && s.leaveReady x.1 then
            let lost := (Config.random s.tick).getLsbD 0
            let s := forL here s fun x s => if lost then s.loseCrew x.1 cClusterFailing else s.saveCrew x.1 .saved
            s.replaceCluster tag p
          else s)

/-! Zone-protected grids (R393 to R396). -/

/-- A thread of a checkpoint (R394): live or exited, its clause address, its v and k registers; flags clear, queue poison. -/
def Thread.check (th : Thread) : Thread := { Thread.fresh th.pc th.live 0 with v := th.v, k := th.k }

/-- A cohort of a checkpoint (R394). -/
def Cohort.check (h : Cohort) : Cohort :=
  { h.mapThreads fun _ th => th.check with
    rgn := { Region.closed with reopen := h.rgn.reopen || (h.rgn.opened && h.rgn.explicit) }, opc := [], closing := false,
    closeOwn := none, parked := none, ready := false }

/-- A crew's checkpoint (R394): registers, sync area, bind table, channel and allowance bindings, and the VAs of its mapped
lines. -/
def State.checkpoint (s : State) (cid : Nat) (c : Crew) : Crew :=
  let lines := ((s.cluster c.p).mapped.filter fun x => x.2.cid = cid).map fun x => (x.1 - c.base / 128, MLine.fresh cid x.2.va)
  { c with cohorts := c.cohorts.map Cohort.check, saved := s.getBytesP (c.stashAt c.dOff) c.syncBytes, lines := lines,
           banks := [], cut := [], leaving := none, back := .running, wdBlocked := none, st := .saved,
           dline := Vector.replicate 4 0, dlstat := 0,
           chans := Vector.replicate 8 Chan.empty }

/-- A crew that breaks the rule of R394 at a round's end: a channel with words, or a HELD bank; the channel's number. -/
def State.checkFault (s : State) (cid : Nat) (c : Crew) : Option Nat :=
  match (List.finRange 8).find? fun n => !(c.chans[n]).words.isEmpty with
  | some n => some n.val
  | none => if ((s.cluster c.p).heldBy cid).isEmpty then none else some 0

/-- Every engine job and card of a crew has ended (R394 step 1). -/
def State.engineQuiet (s : State) (cid : Nat) (c : Crew) : Bool :=
  !((s.cluster c.p).cp.any fun x => x.2.cid = cid && !x.2.st.over) &&
    !(s.mxEntries.any fun x => x.2.2.cid = cid && !x.2.2.st.over)

/-- ZONE_CHECKPOINT (R394): a generation of a zone-protected grid that every crew has reached: crews that may not be
checkpointed fault; the others' checkpoints become current all at once, and the release starts. A crew whose reserve was lost
takes another (R396). -/
def execZoneCheckpoint (grid : Nat) (s : State) : Host.Outcome State Fault Refusal :=
  .next (
    match smGet s.grids grid with
    | none => s
    | some g =>
      let l := s.crews.filter fun x => x.2.grid = grid
      if !declZp g.decl || !s.gbarFull grid g || !(l.all fun x => x.2.st = .running && s.engineQuiet x.1 x.2) then s
      else
        match l.findSome? fun x => (s.checkFault x.1 x.2).map fun n => (x.1, n) with
        | some (cid, n) => s.fatal cid cCyclicWait 0 (n * 2 ^ 48)
        | none =>
          let s := forL l s fun x s =>
            let s := s.takeReserve g.part x.2.p true
            { s with checks := smSet s.checks x.1 { crew := s.checkpoint x.1 x.2, host := (smGet s.reserves x.2.p) } }
          s.gbarComplete grid)

/-- A crew restored from its checkpoint, or started again at its entry, on a cluster (R395 step 5, R396). -/
def State.recoverCrew (s : State) (cid p lcl : Nat) : State :=
  match smGet s.crews cid with
  | none => s
  | some c =>
    match s.fits c.part p { c.need with banks := [] } [] false [] with
    | none => s
    | some base =>
      let s := s.modGrid c.grid fun g => { g with gbArr := g.gbArr.filter fun a => a / 4096 ≠ cid }
      let s := s.takeReserve c.part p true
      match smGet s.checks cid with
      | some k =>
        let (s, l) := s.takePlaces p c.ncoh
        let d := { k.crew with p := p, lcl := lcl, base := base, children := c.children, st := .running,
                               saved := [], lines := [],
                               cohorts := (k.crew.cohorts.zipIdx).map fun h =>
                                 match l[h.2]? with | some x => { h.1 with slice := x.1, place := x.2 } | none => h.1 }
        let s := { s with crews := smSet s.crews cid d, checks := smSet s.checks cid { k with host := smGet s.reserves p } }
        let s := s.putBytesP (d.stashAt d.dOff) k.crew.saved
        let s := s.modCluster p fun cl =>
          { cl with mapped := k.crew.lines.foldl (fun m x => smSet m (x.1 + base / 128) x.2) cl.mapped }
        s.crewAcquire cid
      | none =>
        match smGet s.grids c.grid with
        | none => s
        | some g =>
          let s := { s with crews := smDel s.crews cid }
          s.startCrew c.grid g c.idx p lcl base

/-- A zone-protected crew that can be recovered: it has a checkpoint whose reserve is not lost, or none yet (R396). -/
def State.recoverable (s : State) (z cid : Nat) : Bool :=
  match smGet s.checks cid with
  | none => true
  | some k => match k.host with | some q => decide (clusterZone q ≠ some z) && s.clRdy.contains q | none => false

/-- Clusters to which a lost protected crew can go (R395 step 4): the nearest unowned ready one, or a free one of the
partition; each with a reserve, and none that holds one, which its zeroing would lose. -/
def State.recoveryFor (s : State) (tag p : Nat) (c : Crew) : Option Nat :=
  let need : Need := { c.need with banks := [] }
  let ok (q : Nat) : Bool := (s.fits tag q need [] false []).isSome && !(s.reserves.any fun x => x.2 = q)
  let better := s.nearer (clusterSite p)
  match bestOf better ((List.range Config.clusters).filter fun q => s.unowned q && ok q) with
  | some q => some q
  | none =>
    match smGet s.parts tag with
    | some t => bestOf better (((s.places t).map Prod.snd).filter fun q => (s.residents q).isEmpty && (s.cluster q).queue.isEmpty && ok q)
    | none => none

/-- The clusters of a lost zone: everything they held is gone (R395). -/
def State.darken (s : State) (z : Nat) : State :=
  let ps := zoneClusters z
  let on (p : Nat) : Bool := decide (clusterZone p = some z)
  let s := { s with
    zoneBad := nsAdd z s.zoneBad, clRdy := s.clRdy.filter fun p => !on p,
    failed := (ps.map fun p => (Res.cl, p)) ++ s.failed.filter fun x => !(decide (x.1 = .cl) && on x.2),
    reqs := smFilter (fun _ r => !on r.p) s.reqs, fab := smFilter (fun _ f => !on f.p) s.fab,
    reserves := s.reserves.filter fun x => !on x.1 && !on x.2,
    checks := smMap (fun _ k => { k with host := k.host.filter fun q => !on q }) s.checks }
  forL ps s fun p s => if (smGet s.clusters p).isSome then s.zeroCluster p else s

/-- The crews that stand on, or are saved for, a zone's clusters. -/
def State.zoneCrews (s : State) (z : Nat) : List (Nat × Crew) :=
  s.crews.filter fun x => decide (clusterZone x.2.p = some z) && decide (x.2.st ≠ .suspended)

/-- ZONE_LOST (R375, R395, R396): a zone's regulator fails: the record; crews that are not protected, or cannot be recovered,
are aborted; the protected ones go on from their checkpoints on other clusters; queued crews join other queues. -/
def execZoneLost (z : Nat) (s : State) : Host.Outcome State Fault Refusal :=
  .next (
    if 64 ≤ z || s.zoneBad.contains z then s
    else
      let on (p : Nat) : Bool := decide (clusterZone p = some z)
      let tags := (s.parts.filter fun x => x.2.res.clusters.any on).map Prod.fst
      let queues := (zoneClusters z).filterMap fun p => (s.ownerOf p).map fun t => (t, p, (s.cluster p).queue)
      let s := forL tags s fun t s => s.postInfo t cZoneLost 0 0
      let crews := s.zoneCrews z
      let s := forL crews s fun x s =>
        if x.2.zp && s.recoverable z x.1 then s.discardSeals x.1 1 0
        else s.loseCrew x.1 cZoneLost
      let s := s.darken z
      let s := forL queues s fun x s => s.requeue x.1 x.2.1 x.2.2
      forL crews s fun x s =>
        match smGet s.crews x.1 with
        | none => s
        | some c =>
          let s := { s with pends := smFilter (fun _ y => y.cid ≠ x.1) s.pends, toks := smFilter (fun _ y => y.cid ≠ x.1) s.toks }
          match s.recoveryFor c.part c.p c with
          | none => (s.loseCrew x.1 cZoneLost)
          | some q =>
            let s := if (s.ownerOf q).isNone then
                (s.takeCluster q).modPart c.part fun t => t.moveEntry c.p (some q)
              else s
            let lid := (match smGet s.parts c.part with
              | some t => ((t.positions.find? fun y => y.2 = q).map Prod.fst).getD c.lcl
              | none => c.lcl)
            s.recoverCrew x.1 q lid)

end Sys2Proof.Machine
end

