-- ==== Sys2Proof/Machine/Rates.lean ====
section
/-!
DEFINITION. Sys2Proof/Machine/Rates.lean: allowances refilled (R283, R361), congestion windows and marks, and the recovery of
the fractions (R283, R361, R406, R407).
-/

namespace Sys2Proof.Machine

/-- The fraction that a handle is refilled by (R283, R361). -/
def State.handleRate (s : State) (p part : Nat) (w : Alw) : Rate :=
  match w.cls with
  | 0 => rateOf (s.cluster p).fmod (peerMod (s.peer part (s.peerTarget part w.dst)))
  | 1 => (match smGet s.parts part with | some x => rateOf x.fport w.dst | none => Rate.full)
  | _ => (match smGet s.parts part with | some x => rateOf x.fport (4 + w.dst) | none => Rate.full)

/-- What a fraction leaves of a number of bytes, rounded down (R283). -/
def Rate.part (r : Rate) (n : Nat) : Nat := n * r.num / 2 ^ (10 + r.exp)

/-- A handle refilled for the 64 ns periods that have passed (R283). -/
def Alw.refill (w : Alw) (cap gain time : Nat) : Alw :=
  let n := time / 64 - w.since / 64
  if n = 0 then w else { w with val := min cap (w.val + n * gain), since := time }

/-- ALLOWANCE_REFILL (R283, R361): every bound handle of a cluster. -/
def execAllowanceRefill (p : Nat) (s : State) : Host.Outcome State Fault Refusal :=
  .next { s with crews := smMap (fun _ c =>
    if c.p ≠ p then c
    else
      match smGet s.parts c.part with
      | none => c
      | some x =>
        let cap := fld x.alwcap 31 0
        let gain (w : Alw) : Nat := (s.handleRate p c.part w).part (fld x.alwrate 15 0 * 64)
        { c with cohorts := c.cohorts.map fun h =>
            { h with w := h.w.map fun w => w.map fun w => w.refill cap (gain w) s.time } }) s.crews }

/-- CONGESTION_MARK (R406, R407): a mark reaches a source cluster. -/
def execCongestionMark (mark : Mark) (s : State) : Host.Outcome State Fault Refusal := .next (s.mark mark)

/-- A microsecond without a mark gives 1/64 back (R283, R407). -/
def Rate.recover (r : Rate) (time : Nat) : Rate :=
  if time < r.since + 1000 then r
  else if 1024 * 2 ^ r.exp ≤ r.num + 16 * 2 ^ r.exp then
    { num := 1024, exp := 0, since := if r.num < 1024 * 2 ^ r.exp then r.since + 1000 else r.since }
  else { num := r.num + 16 * 2 ^ r.exp, exp := r.exp, since := r.since + 1000 }

/-- RATE_RECOVERY (R283, R361, R407): the fractions of a cluster, and those that its partition keeps. -/
def execRateRecovery (p : Nat) (s : State) : Host.Outcome State Fault Refusal :=
  .next (
    let s := s.modCluster p fun c => { c with g := c.g.recover s.time, fmod := smMap (fun _ r => r.recover s.time) c.fmod }
    match s.ownerOf p with
    | some tag => s.modPart tag fun x => { x with fport := smMap (fun _ r => r.recover s.time) x.fport }
    | none => s)

/-- The cluster at a site, when it is a cluster's. -/
def clusterOf? (site : Nat) : Option Nat := if isSliceSite site then none else some (clusterAt site)

/-- Marks of a router's window, either mesh (R406). -/
def State.routerMarks (s : State) (site : Nat) : List Mark :=
  let items (plane : Nat) : List (Nat × Nat) := (smGetD s.routers (4096 * plane + site) Router.reset).deflected
  let marks (l : List (Nat × Nat)) : List Mark :=
    let tags := (l.filter fun x => decide ((s.thresholds x.1).2 < (l.filter fun y => y.1 = x.1).length))
    (tags.filterMap fun x => (clusterOf? x.2).map fun p => Mark.router p).eraseDups
  (marks (items 0) ++ marks (items 1 ++ items 2)).eraseDups

/-- The end of the window of a slice port, a host port or a fabric port: what waits there is noted for the last time (R406). -/
def State.notePoint (s : State) (point : Nat) : State :=
  if point < 5120 then s.noteSlice (point - 4096)
  else if point < 5124 then s.noteWindow point (s.hostItems (point - 5120))
  else s.noteWindow point (s.portItems (point - 5124))

/-- Marks of a window: for each partition that was over its limit, one for each source that had something waiting (R406). -/
def State.windowMarks (s : State) (point : Nat) : List Mark :=
  let w := smGetD s.seen point ([], [])
  ((w.1.filter fun x => w.2.contains x.1).map Prod.snd).eraseDups

/-- CONGESTION_WINDOW (R406): the end of a marking point's window of 1 µs. Points below 4,096 are routers, then come 1,024
slice ports, four host ports and 96 fabric ports. -/
def execCongestionWindow (point : Nat) (s : State) : Host.Outcome State Fault Refusal :=
  .next (
    if s.time < smGetD s.windows point 0 + 1000 then s
    else
      let s := { s with windows := smSet s.windows point (s.time / 1000 * 1000) }
      if point < 4096 then
        forN 3 (forL (s.routerMarks point) s fun m s => s.mark m) fun plane s =>
          s.modRouter plane point fun r => { r with deflected := [] }
      else
        let s := s.notePoint point
        forL (s.windowMarks point) { s with seen := smDel s.seen point } fun m s => s.mark m)

end Sys2Proof.Machine
end

