-- ==== Sys2Proof/Machine/Partition.lean ====
section
/-!
DEFINITION. Sys2Proof/Machine/Partition.lean: legality (R399, R401), incarnations (R400), the management commands (R405, R410
to R417), the quiesce protocol (R413, R414), time slices (R404), `key.wipe` (R441) and the end of a zeroing (R402).
-/

namespace Sys2Proof.Machine

/-! Results of management commands (R412). -/

/-- The failures of R412. -/
inductive MgmtErr where
  | notReady | owned | shape | resource | collide | busy | aborted
  deriving DecidableEq, Repr

/-- The model's numbers of the outcomes in `mgmtOut`: 0 done. -/
def mgmtCode : Option MgmtErr → Nat
  | none => 0
  | some .notReady => 1
  | some .owned => 2
  | some .shape => 3
  | some .resource => 4
  | some .collide => 5
  | some .busy => 6
  | some .aborted => 7

/-- A command completes: its outcome to the operator, and the event record of KIND 3 (R426), in which the code of a failure's
cause is a free value. -/
def State.mgmtDone (s : State) (tag : Nat) (r : Option MgmtErr) : State :=
  let n := mgmtCode r
  ({ s with mgmtOut := s.mgmtOut ++ [(tag, n)] }).postEvent tag 3 0 0 0 (if n = 0 then 0 else failCode n)

/-! Legality (R398, R399, R401). -/

/-- Every named resource's ready bit is 1 (R17). -/
def State.allReady (s : State) (r : ResSet) : Bool :=
  r.slices.all s.slRdy.contains && r.channels.all s.chRdy.contains && r.clusters.all s.clRdy.contains &&
    r.hostPorts.all s.hpRdy.contains && r.fabricPorts.all s.fpRdy.contains && r.shares.all s.ksRdy.contains

/-- A named cluster belongs to another tag. -/
def State.ownedElsewhere (s : State) (tag : Nat) (r : ResSet) : Bool :=
  s.parts.any fun x => x.1 ≠ tag && x.2.res.clusters.any r.clusters.contains

/-- Sites reached from some others by steps of at most 1 in x and in y; `fuel` steps (R399). -/
def reach : Nat → List Nat → List Nat → List Nat
  | 0, l, _ => l
  | fuel + 1, l, rest =>
    let near (a b : Nat) : Bool :=
      decide (((siteX a : Int) - (siteX b : Nat)).natAbs ≤ 1) && decide (((siteY a : Int) - (siteY b : Nat)).natAbs ≤ 1)
    let new := rest.filter fun b => l.any fun a => near a b
    if new = [] then l else reach fuel (l ++ new) (rest.filter fun b => !new.contains b)

/-- The clusters are connected (R399). -/
def connected (clusters : List Nat) : Bool :=
  match clusters.map clusterSite with
  | [] => false
  | a :: r => decide ((reach r.length [a] r).length = r.length + 1)

/-- The map meets R401: every owned cluster in exactly one entry, no other site, every id within the shape. -/
def mapLegal (clusters : List Nat) (w h : Nat) (map : SMap W32) : Bool :=
  let sites := map.filterMap fun x => if x.2.getLsbD 31 then some (fld (x.2.setWidth 64) 11 0) else none
  decide (1 ≤ w) && decide (1 ≤ h) && decide (w * h ≤ 4096) && map.all (fun x => decide (x.1 < w * h)) &&
    sites.all (fun n => !isSliceSite n && clusters.contains (clusterAt n)) && decide (sites.eraseDups.length = sites.length) &&
    decide (sites.length = clusters.length) && decide (clusters.eraseDups.length = clusters.length)

/-- A partition is legal (R399, R401). -/
def Part.legal (t : Part) : Bool :=
  t.res.clusters ≠ [] && t.res.channels ≠ [] && t.res.channels.all t.res.slices.contains && t.res.hostPorts.contains t.vfPort &&
    connected t.res.clusters && mapLegal t.res.clusters t.w t.h t.map

/-- Cells that the bounce buffer and the save areas of R405 take: 5.5 MiB per owned cluster for each context but one. -/
def Part.areaCells (t : Part) : Nat := t.bounceMax / 4096 + (t.contexts - 1) * t.res.clusters.length * 1408

/-- The channels of a partition that are not fenced. -/
def State.inService (s : State) (t : Part) : List Nat := t.res.channels.filter fun q => !s.fenced.contains (sliceSite q)

/-- Cells of the runs of some channels that satisfy a test. -/
def State.runCells (s : State) (ch : List Nat) (f : Nat × Nat × Nat → Bool) : Nat :=
  s.areas.foldl (fun n x => if ch.contains (x.1 / Config.cells) && f x.2 then n + x.2.1 else n) 0

/-- The channels of a partition have room for its bounce buffer and save areas, what they hold already counted (R78, R405). -/
def State.areasFit (s : State) (tag : Nat) (t : Part) : Bool :=
  let ch := s.inService t
  let used := (s.own.filter fun x => ch.contains (x.1 / Config.cells)).length
  decide (used + s.runCells ch (fun x => !(decide (x.2.1 = 1) && decide (x.2.2 = tag))) + t.areaCells ≤ ch.length * Config.cells)

/-- The runs of numbers from `lo` to `hi` - 1 that a list of runs in ascending order leaves. -/
def gaps (hi : Nat) : Nat → List (Nat × Nat) → List (Nat × Nat)
  | lo, [] => if lo < hi then [(lo, hi - lo)] else []
  | lo, (a, n) :: r => (if lo < a then [(lo, a - lo)] else []) ++ gaps hi (a + n) r

/-- The runs of Free cells of a channel. -/
def State.freeRuns (s : State) (q : Nat) : List (Nat × Nat) :=
  let on (c : Nat) : Bool := decide (c / Config.cells = q)
  let cells := (s.own.filter fun x => on x.1).map fun x => (x.1, 1)
  let l := (s.areas.filter fun x => on x.1).foldl (fun l x => smSet l x.1 x.2.1) cells
  gaps ((q + 1) * Config.cells) (q * Config.cells) l

/-- Runs of together `n` cells from the front of a list of runs. -/
def takeRuns : Nat → List (Nat × Nat) → List (Nat × Nat)
  | 0, _ => []
  | _, [] => []
  | n + 1, (a, m) :: r => if n + 1 ≤ m then [(a, n + 1)] else (a, m) :: takeRuns (n + 1 - m) r

/-- The service block takes and gives back cells until the areas of a partition are as large as they have to be (R63, R78, R405):
which cells it takes is a free value (log 11); those on channels that left, and those too many, go to Scrubbing. -/
def State.setAreas (s : State) (tag : Nat) : State :=
  match smGet s.parts tag with
  | none => s
  | some t =>
    let ch := s.inService t
    let gone (q : Nat) : Bool := !t.res.channels.contains q && !s.fenced.contains (sliceSite q)
    let s := { s with areas := smMap (fun c x => if x.2.2 = tag && gone (c / Config.cells) then (x.1, 2, tag) else x) s.areas }
    let have' := s.runCells ch fun x => decide (x.2.1 = 1) && decide (x.2.2 = tag)
    if have' ≤ t.areaCells then
      let k := if ch = [] then 0 else Config.cellFor s.tick % ch.length
      let new := takeRuns (t.areaCells - have') ((ch.drop k ++ ch.take k).flatMap s.freeRuns)
      { s with areas := new.foldl (fun m x => smSet m x.1 (x.2, 1, tag)) s.areas }
    else
      let mine := s.areas.filter fun x => ch.contains (x.1 / Config.cells) && x.2.2.1 = 1 && x.2.2.2 = tag
      let keep := takeRuns t.areaCells (mine.map fun x => (x.1, x.2.1))
      let put (m : SMap (Nat × Nat × Nat)) (a n st : Nat) : SMap (Nat × Nat × Nat) := if n = 0 then m else smSet m a (n, st, tag)
      let split (m : SMap (Nat × Nat × Nat)) (x : Nat × Nat × Nat × Nat) : SMap (Nat × Nat × Nat) :=
        let n := smGetD keep x.1 0
        put (put (smDel m x.1) x.1 n 1) (x.1 + n) (x.2.1 - n) 2
      { s with areas := mine.foldl split s.areas }

/-- The areas of a partition that is destroyed go to Scrubbing, but for those of fenced channels (R63). -/
def State.dropAreas (s : State) (tag : Nat) : State :=
  let held (c : Nat) : Bool := s.fenced.contains (sliceSite (c / Config.cells))
  { s with areas := smMap (fun c x => if x.2.2 = tag && x.2.1 = 1 && !held c then (x.1, 2, tag) else x) s.areas }

/-! Incarnations (R400). -/

/-- The incarnation of a tag and the values it has left, with the times. -/
def State.incOf (s : State) (tag : Nat) : BitVec 12 × List (BitVec 12 × Nat) := smGetD s.incs tag (0, [])

/-- Until when the next incarnation of a tag has to wait, none when it need not. -/
def State.incHold (s : State) (tag : Nat) : Option Nat :=
  let x := s.incOf tag
  (x.2.find? fun y => y.1 = x.1 + 1 && decide (s.time < y.2 + 1000000000)).map fun y => y.2 + 1000000000

/-- The tag takes its next incarnation. -/
def State.nextInc (s : State) (tag : Nat) : State :=
  let x := s.incOf tag
  let n := x.1 + 1
  ({ s with incs := smSet s.incs tag (n, (x.1, s.time) :: x.2.filter fun y => y.1 ≠ n) }).modPart tag fun t => { t with inc := n }

/-! Creation (R412). -/

/-- Occupancy entries of a partition's slices (R89): target and pin quota are the service block's choice, free values. -/
def State.setOcc (s : State) (tag : Nat) (slices : List Nat) : State :=
  forL slices s fun q s =>
    s.modSlice q fun sl => sl.modOcc tag fun _ =>
      { en := true, target := (Config.unstated 89 (BitVec.ofNat 64 tag) (BitVec.ofNat 64 q)).toNat % 4097, count := 0,
        pinq := (Config.unstated 89 (BitVec.ofNat 64 q) (BitVec.ofNat 64 tag)).toNat % 32769, pinc := 0 }

/-- The size of a bounce buffer (R78): 256 MiB to 8 GiB in steps of 256 MiB; any other size that an operator names counts as none
set, hence 1 GiB (DESIGN CHOICE, log 39). -/
def bounceSize (n : Nat) : Nat := if n % 268435456 = 0 ∧ 268435456 ≤ n ∧ n ≤ 8589934592 then n else 1073741824

/-- A map entry as the table holds it (R2, R401): bits [30:12] are reserved and stay zero. -/
def mapEntry (e : W32) : W32 := e &&& 0x80000FFF

/-- A partition as CREATE makes it: registers at their reset values (R144, R283, R324, R353, R386, R403, R406). -/
def createPart (c : CreateCmd) (time : Nat) : Part :=
  { res := c.res, w := c.w, h := c.h, map := (c.map.zipIdx).foldl (fun m x => if mapEntry x.1 = 0 then m else smSet m x.2 (mapEntry x.1)) [], routes := [],
    inc := 0, qst := 0, vfPort := c.vfPort, pmode := pmodeWrite true (BitVec.ofNat 64 (fld c.pmode 62 59 * 2 ^ 59)) c.pmode,
    fabtmo := 200000, gbstag := 0, gbgrp := 16, seq := 0, wcbage := 4, alwrate := 200, alwcap := 262144, chquota := 4096,
    cmthr := 0x00200080, dbgcmp := Vector.replicate 4 0, salt := c.salt, roots := [], peers := [], queues := [], rseq := 0,
    msixPend := 0, msixMask := 0xFF, tdisp := .unlocked, bounce := [], bounceSeq := 0, bounceMax := bounceSize c.bounce,
    bounceFull := false, waits := [], migr := [], key := 0, fport := [], reshape := none, ctxNow := 0, sliceAt := time, idleSince := none,
    resetAt := time, savedQueues := [], reserve := none, holdUntil := none, abortRecs := [] }

/-- An unlock crew of the service block is live (R458). -/
def State.unlocking (s : State) : Bool :=
  s.crews.any fun x => decide (x.2.part = Config.svcTag) && decide (x.2.nx * x.2.ny * x.2.nz = 1) &&
    (match smGet s.grids x.2.grid with | some g => decide (g.crewCount = 1) | none => true)

/-- A partition whose incarnation is settled starts to run, under a new memory key (R52, R410 step 6). -/
def State.goLive (s : State) (tag : Nat) : State :=
  ((s.nextInc tag).modPart tag fun t => { t with qst := 0, holdUntil := none, sliceAt := s.time, key := s.tick + 1 }) |> fun s =>
    { s with liveTags := nsAdd tag s.liveTags }

/-- The failure of a CREATE (R17, R399, R401, R403, R405, R411, R431). -/
def State.createErr (s : State) (c : CreateCmd) (t : Part) : Option MgmtErr :=
  let ts := c.pmode.getLsbD 63
  firstErr
    [failIf (s.lifecycle = 4 || decide (c.tag = 0) || decide (Config.maxTag < c.tag) || (smGet s.parts c.tag).isSome ||
       ((smGetD s.leftCells c.tag []).any fun x => (s.cell x).1 = 2) || s.areas.any fun x => x.2.2.1 = 2 && x.2.2.2 = c.tag) .busy,
     failIf (!s.allReady c.res) .notReady,
     failIf (s.ownedElsewhere c.tag c.res) .owned,
     failIf (!t.legal || decide (c.map.length ≠ c.w * c.h) ||
       (ts && (decide (fld c.pmode 62 59 = 0) || decide (fld c.pmode 49 30 < 100) || decide (1000000 < fld c.pmode 49 30)))) .shape,
     failIf (!s.areasFit c.tag t) .resource]

/-- CREATE (R398 to R405, R412): a new partition in RUNNING, its resources zeroed; the unlock latches clear (R441); deferred
while an unlock crew runs (R458). -/
def execCreate (c : CreateCmd) (s : State) : Host.Outcome State Fault Refusal :=
  .next (
    if s.unlocking then s
    else
      let t := createPart c s.time
      match s.createErr c t with
      | some e => s.mgmtDone c.tag (some e)
      | none =>
        let s := forL c.res.clusters s.clearLatches fun p s => s.joinCluster p
        let s := { s with parts := smSet s.parts c.tag t, leftCells := smDel s.leftCells c.tag }
        let s := (s.setOcc c.tag c.res.slices).setAreas c.tag
        match s.incHold c.tag with
        | some u => s.modPart c.tag fun t => { t with qst := 4, holdUntil := some (u, true) }
        | none => (s.goLive c.tag).mgmtDone c.tag none)

/-! Reset and destruction (R410, R411). -/

/-- Everything of a tag in flight, in the meshes and at the ports, is dropped; its flits are counted and logged where they stand
(R99, R410 steps 1 to 3). -/
def State.dropTag (s : State) (tag : Nat) : State :=
  let flits := s.routers.flatMap fun x =>
    ((x.2.inbox ++ x.2.ejected).filter fun f => f.tag.toNat = tag).map fun f => (x.1 % 4096, f)
  let s := forL flits s fun x s => s.tagDrop x.1 x.2
  let s := { s with
    reqs := smFilter (fun _ r => asidTag r.asid ≠ tag) s.reqs, fab := smFilter (fun _ f => f.part ≠ tag) s.fab,
    inbound := smFilter (fun _ k => k.dtag.toNat ≠ tag) s.inbound, hostReqs := smFilter (fun _ h => h.part ≠ tag) s.hostReqs,
    acqWait := s.acqWait.filter fun x => x.1 ≠ tag }
  let keep (id : Nat) : Bool := (smGet s.reqs id).isSome
  { s with routers := smMap (fun _ r =>
      { r with inbox := r.inbox.filter fun f => keep f.req, ejected := r.ejected.filter fun f => keep f.req,
               queue := r.queue.filter keep, sent := if (r.queue.head?.map keep).getD true then r.sent else 0 }) s.routers }

/-- Every crew and grid of a partition is gone, without commits, drains, write-backs or fault records; seal contexts are
discarded with REASON 3 (R410 step 2, R437). -/
def State.dropCrews (s : State) (tag : Nat) : State :=
  let s := forL (s.crews.filter fun x => x.2.part = tag) s fun x s => s.discardSeals x.1 3 0
  let mine (cid : Nat) : Bool := (match smGet s.crews cid with | some c => decide (c.part = tag) | none => false)
  { s with
    pends := smFilter (fun _ x => !mine x.cid) s.pends, toks := smFilter (fun _ x => !mine x.cid) s.toks,
    checks := smFilter (fun i _ => !mine i) s.checks, crews := smFilter (fun _ c => c.part ≠ tag) s.crews,
    grids := smFilter (fun _ g => g.part ≠ tag) s.grids }

/-- A way that has become Invalid keeps its place in the order of its set (R91). -/
def Line.gone (l : Line) : Line := { l with st := 0, pin := false, data := [], pz := 0, waiters := [] }

/-- A slice has nothing of a tag left (R402). -/
def SliceSt.without (sl : SliceSt) (tag : Nat) (keep : Bool) : SliceSt :=
  { sl with
    lines := smMap (fun _ l => if asidTag l.asid = tag then l.gone else l) sl.lines, tlb := sl.tlb.filter fun t => asidTag t.asid ≠ tag,
    wcache := sl.wcache.filter fun w => asidTag w.asid ≠ tag, walks := smFilter (fun _ w => asidTag w.asid ≠ tag) sl.walks,
    occ := if keep then smMod sl.occ tag fun o => { o with count := 0, pinc := 0 } else smDel sl.occ tag }

/-- Clusters, slices, cells, tables and bounce buffer of a partition are emptied (R402, R410 step 5); the cells of a fenced channel
keep their state (R63). -/
def State.zeroPart (s : State) (tag : Nat) (t : Part) (keep : Bool) : State :=
  let s := forL t.res.clusters s fun p s => s.zeroCluster p
  let s := { s with slices := smMap (fun _ sl => { sl.without tag keep with reqq := sl.reqq.filter fun id => (smGet s.reqs id).isSome }) s.slices,
                    reserves := s.reserves.filter fun x => !t.res.clusters.contains x.1 }
  let s := { s with own := smMap (fun k c => if c = (1, tag) && !s.fenced.contains (sliceSite (k / Config.cells)) then (2, 0) else c) s.own }
  let s := forL t.roots s fun r s => s.freeTables 5 r.2
  s.modPart tag fun t => { t with roots := [], bounce := [], bounceFull := false, waits := [], migr := [], routes := t.routes }

/-- A TDISP interface that is locked or runs goes to ERROR (R420). -/
def TdispSt.toError : TdispSt → TdispSt
  | .locked | .run => .error
  | x => x

/-- RESET steps 1 and 2 (R410): the tag is retired, its crews, grids and queues are gone; a reshaping in progress completes
with ABORTED. -/
def State.beginReset (s : State) (tag : Nat) (t : Part) : State :=
  let s := if t.reshape.isSome && t.reshape ≠ some .sliceEnd && t.reshape ≠ some .refit then s.mgmtDone tag (some .aborted) else s
  let s := s.modPart tag fun t => { t with qst := 4, tdisp := t.tdisp.toError, resetAt := s.time, reshape := none, reserve := none,
                                           savedQueues := [], idleSince := none }
  let s := { s with liveTags := nsDel tag s.liveTags }
  let s := ((s.dropCrews tag).dropTag tag)
  forL t.res.clusters s fun p s => s.modCluster p fun c => { c with queue := [], steal := none }

/-- RESET (R410 steps 1 and 2). -/
def execReset (part : Nat) (s : State) : Host.Outcome State Fault Refusal :=
  .next (
    match smGet s.parts part with
    | none => s.mgmtDone part (some .busy)
    | some t =>
      let hold := (s.incHold part).map fun u => (u, false)
      (s.beginReset part t).modPart part fun t =>
        { t with holdUntil := hold, msixPend := 0,
                 queues := smMap (fun i q => if i < 64 then Queue.reset else q) t.queues })

/-- RESET_MESH_DRAINED (R410 steps 3 to 7): after 2,048 cluster cycles, and any wait of R400. -/
def execResetMeshDrained (part : Nat) (s : State) : Host.Outcome State Fault Refusal :=
  .next (
    match smGet s.parts part with
    | none => s
    | some t =>
      if t.qst ≠ 4 || t.holdUntil.isSome || s.liveTags.contains part || s.time < t.resetAt + 759 then s
      else
        let s := (s.notify part 5 0).zeroPart part t true
        let s := s.goLive part
        let s := s.notify part 6 (s.incOf part).1.toNat
        let recs := t.abortRecs.map fun ws =>
          match ws with
          | [] => []
          | w :: r => BitVec.ofNat 64 ((s.incOf part).1.toNat * 2 ^ 52 + fld w 51 0) :: r
        let s := forL recs s fun ws s => s.post part 67 ws
        (s.modPart part fun t => { t with abortRecs := [] }).mgmtDone part none)

/-- What a destroyed partition of a tag leaves once its crews are gone (R411): RESET steps 1 to 5 at once, its clusters released
for zeroing, its bitmaps cleared and its tag free once its cells have been scrubbed. -/
def State.raze (s : State) (tag : Nat) (t : Part) : State :=
    let s := (s.beginReset tag t).notify tag 5 0
    let before := s
    let s := (s.zeroPart tag t false).dropAreas tag
    let cells := (s.own.filter fun x => x.2.1 = 2 && (before.cell x.1).1 ≠ 2).map Prod.fst
    let s := forL t.res.clusters s fun p s => s.modCluster p fun c => { c with zeroing := true }
    { s with parts := smDel s.parts tag, leftCells := smSet s.leftCells tag cells,
             clRdy := s.clRdy.filter fun p => !t.res.clusters.contains p }

/-- A partition is destroyed (R411); the abort records of its seal contexts come first (R437). -/
def State.destroy (s : State) (tag : Nat) : State :=
  match smGet s.parts tag with
  | none => s
  | some t => (forL (s.crews.filter fun x => x.2.part = tag) s fun x s => s.discardSeals x.1 3 0).raze tag t

/-- A partition that has lost its last channel is destroyed without further records (R58). -/
def State.destroyQuiet (s : State) (tag : Nat) : State :=
  match smGet s.parts tag with
  | none => s
  | some t => s.raze tag { t with reshape := none }

/-- DESTROY (R411). -/
def execDestroy (part : Nat) (s : State) : Host.Outcome State Fault Refusal :=
  .next (if (smGet s.parts part).isNone then s.mgmtDone part (some .busy) else (s.destroy part).mgmtDone part none)

/-- ZEROING_DONE (R402): the zeroing of a cluster that left its owner ends; it reports ready again unless it has failed. -/
def execZeroingDone (p : Nat) (s : State) : Host.Outcome State Fault Refusal :=
  .next (
    if (s.cluster p).zeroing then
      let s := s.modCluster p fun c => { c with zeroing := false }
      let bad := s.failed.contains (.cl, p) || s.fenced.contains (clusterSite p) ||
        (match clusterZone p with | some z => s.zoneBad.contains z | none => false)
      if bad then s else { s with clRdy := nsAdd p s.clRdy }
    else s)

/-- `key.wipe` (R441, R459): DESTROY of a tag, or of every live tenant. -/
def execKeyWipe (f : Fields) (s : State) : Host.Outcome State Fault Refusal :=
  runSlot .keyWipe f s fun x s =>
    seqSlot x (fun i s =>
      let t := (x.a[i]).lo.toNat
      if (x.a[i]).p then .error cPoisonUse
      else if t = 0xFFFFFFFF then
        let l := (s.parts.map Prod.fst).filter (· ≠ Config.svcTag)
        let s := forL l s fun t s => s.destroy t
        .ok ({ s with latchW := s.latchW || s.latchV }, BitVec.ofNat 64 l.length)
      else if t = 0 || Config.maxTag < t then .error cIllegalOperand
      else if (smGet s.parts t).isSome then .ok (s.destroy t, 1)
      else .ok (s, 0)) s

/-! The quiesce protocol (R413, R414). -/

/-- The crews of a partition that stand on clusters. -/
def State.standing (s : State) (tag : Nat) : List (Nat × Crew) :=
  s.crews.filter fun x => x.2.part = tag && (x.2.st = .running || x.2.st = .debug)

/-- Every standing crew of a partition begins to be saved, or goes on with it. -/
def State.leaveAll (s : State) (tag : Nat) : State :=
  forL (s.standing tag) s fun x s =>
    if x.2.stopping.isSome then s else if x.2.leaving.isNone then s.beginLeave x.1 .save else s.stepLeave x.1

/-- Every standing crew has been drained. -/
def State.allDrained (s : State) (tag : Nat) : Bool :=
  (s.standing tag).all fun x => x.2.leaving = some .save && s.leaveReady x.1

/-- Every standing crew is saved (R404 step 2). -/
def State.saveAll (s : State) (tag : Nat) : State := forL (s.standing tag) s fun x s => s.saveCrew x.1 .saved

/-- A reshaping is accepted (R413, R414): QUIESCING. -/
def State.beginReshape (s : State) (tag : Nat) (r : Reshape) (err : Bool) : State :=
  (s.modPart tag fun t => { t with qst := 1, reshape := some r, tdisp := if err then t.tdisp.toError else t.tdisp }).leaveAll tag

/-- A command that needs a RUNNING partition (R412): BUSY otherwise; while a slice ends it waits (R418). -/
def State.whenRunning (s : State) (tag : Nat) (f : Part → State) : State :=
  match smGet s.parts tag with
  | none => s.mgmtDone tag (some .busy)
  | some t =>
    if t.qst ≠ 0 then s.mgmtDone tag (some .busy)
    else if t.reshape.isSome then s
    else f t

/-- Ids of a map under another width (R416). -/
def reId (w w' i : Nat) : Nat := i / max 1 w * w' + i % max 1 w

/-- A partition after GROW (R412). -/
def Part.grown (t : Part) (c : ShapeCmd) : Part :=
  let add (a b : List Nat) : List Nat := b.foldl (fun l x => nsAdd x l) a
  let old := t.map.foldl (fun m x => smSet m (reId t.w c.w x.1) x.2) []
  { t with
    w := c.w, h := c.h, map := c.map.foldl (fun m x => smSet m x.1 (mapEntry x.2)) old
    res := { slices := add t.res.slices c.res.slices, channels := add t.res.channels c.res.channels,
             clusters := add t.res.clusters c.res.clusters, hostPorts := add t.res.hostPorts c.res.hostPorts,
             fabricPorts := add t.res.fabricPorts c.res.fabricPorts, shares := add t.res.shares c.res.shares } }

/-- A partition after SHRINK (R412): positions of removed clusters are holes, those outside the new shape are gone. -/
def Part.shrunk (t : Part) (c : ShapeCmd) : Part :=
  let sub (a b : List Nat) : List Nat := a.filter fun x => !b.contains x
  let out (e : W32) : Bool := e.getLsbD 31 && c.res.clusters.contains (clusterAt (fld (e.setWidth 64) 11 0))
  { t with
    w := c.w, h := c.h
    map := t.map.foldl (fun m x =>
      if out x.2 || !x.2.getLsbD 31 then m
      else if x.1 % max 1 t.w < c.w then smSet m (reId t.w c.w x.1) x.2 else smSet m (4096 + x.1) x.2) []
    res := { slices := sub t.res.slices c.res.slices, channels := sub t.res.channels c.res.channels,
             clusters := sub t.res.clusters c.res.clusters, hostPorts := sub t.res.hostPorts c.res.hostPorts,
             fabricPorts := sub t.res.fabricPorts c.res.fabricPorts, shares := sub t.res.shares c.res.shares } }

/-- A partition after COMPACT (R412): listed positions have new sites. -/
def Part.compacted (t : Part) (moves : List (Nat × Nat)) : Part :=
  let map := moves.foldl (fun m x => if (smGet m x.1).isSome then smSet m x.1 (BitVec.ofNat 32 (2 ^ 31 + x.2 % 4096)) else m) t.map
  let t := { t with map := map }
  { t with res := { t.res with clusters := t.positions.foldl (fun l x => nsAdd x.2 l) [] } }

/-- The partition that a reshaping makes. -/
def Part.reshaped (t : Part) : Reshape → Part
  | .grow c => t.grown c
  | .shrink c => t.shrunk c
  | .compact m => t.compacted m
  | .quiesce | .sliceEnd | .refit => t

/-- Resources that a reshaping adds. -/
def Part.added (t t' : Part) : ResSet :=
  let sub (a b : List Nat) : List Nat := a.filter fun x => !b.contains x
  { slices := sub t'.res.slices t.res.slices, channels := sub t'.res.channels t.res.channels,
    clusters := sub t'.res.clusters t.res.clusters, hostPorts := sub t'.res.hostPorts t.res.hostPorts,
    fabricPorts := sub t'.res.fabricPorts t.res.fabricPorts, shares := sub t'.res.shares t.res.shares }

/-- Positions of installed routes that are mapped before a reshaping and not after it (R412). -/
def routeLost (t t' : Part) : Bool :=
  t.routes.any fun r => (stationsOf r.2).any fun e =>
    let x := fld (e.setWidth 64) 11 0
    let y := fld (e.setWidth 64) 23 12
    let was := decide (x < t.w) && t.positions.any fun p => p.1 = y * t.w + x
    let is := decide (x < t'.w) && t'.positions.any fun p => p.1 = y * t'.w + x
    was && !is

/-- The failure of a reshaping at acceptance (R412). -/
def State.reshapeErr (s : State) (tag : Nat) (t t' : Part) : Option MgmtErr :=
  let new := t.added t'
  let grids := s.grids.filter fun x => x.2.part = tag
  firstErr
    [failIf (!s.allReady new) .notReady,
     failIf (s.ownedElsewhere tag new) .owned,
     failIf (!t'.legal || routeLost t t') .shape,
     failIf ((grids.any fun x => s.cannotHold tag t' x.2.decl x.2.need) || !s.areasFit tag t') .resource]

/-- GROW, SHRINK or COMPACT at acceptance (R412, R413). -/
def State.acceptReshape (s : State) (tag : Nat) (r : Reshape) (bad : Bool) : State :=
  s.whenRunning tag fun t =>
    let t' := t.reshaped r
    if bad then s.mgmtDone tag (some .shape)
    else
      match s.reshapeErr tag t t' with
      | some e => s.mgmtDone tag (some e)
      | none => s.beginReshape tag r true

/-- GROW (R412); deferred while an unlock crew runs (R458). -/
def execGrow (part : Nat) (c : ShapeCmd) (s : State) : Host.Outcome State Fault Refusal :=
  .next (if s.unlocking then s else s.acceptReshape part (.grow c) false)
/-- SHRINK (R412). -/
def execShrink (part : Nat) (c : ShapeCmd) (s : State) : Host.Outcome State Fault Refusal :=
  .next (s.acceptReshape part (.shrink c) false)
/-- COMPACT (R412): every listed position is mapped, every site a cluster site. -/
def execCompact (part : Nat) (moves : List (Nat × Nat)) (s : State) : Host.Outcome State Fault Refusal :=
  .next (
    let bad := (match smGet s.parts part with
      | some t => moves.any fun m => isSliceSite m.2 || decide (4096 ≤ m.2) || !(t.positions.any fun p => p.1 = m.1)
      | none => false)
    s.acceptReshape part (.compact moves) bad)
/-- QUIESCE (R412, R413). -/
def execQuiesce (part : Nat) (s : State) : Host.Outcome State Fault Refusal :=
  .next (s.whenRunning part fun _ => s.beginReshape part .quiesce false)

/-- SETQOS (R412): QP and the congestion thresholds. -/
def execSetqos (part : Nat) (qp : BitVec 2) (cmthr : W32) (s : State) : Host.Outcome State Fault Refusal :=
  .next (s.whenRunning part fun _ =>
    (s.modPart part fun t =>
      { t with pmode := BitVec.ofNat 64 (t.pmode.toNat - fld t.pmode 51 50 * 2 ^ 50 + qp.toNat * 2 ^ 50),
               cmthr := cmthrWrite t.cmthr (cmthr.setWidth 64) }).mgmtDone part none)

/-! The change of the channel set (R417). -/

/-- The mapped granules of a partition: ASID, granule number and frame. -/
def State.granulesOf (s : State) (tag : Nat) (t : Part) : List (BitVec 16 × Nat × Nat) :=
  t.roots.flatMap fun r =>
    (s.leavesIn 0 (2 ^ 45) 5 r.2 0).flatMap fun l =>
      (List.range l.granules).map fun j => (asidOf tag r.1, l.vpn + j, l.frame + j)

/-- Stripe frames of which the partition owns a cell on its channels. -/
def State.ownedFrames (s : State) (tag : Nat) (chs : List Nat) : List Nat :=
  ((s.own.filter fun x => x.2 = (1, tag) && chs.contains (x.1 / Config.cells)).map fun x => x.1 % Config.cells).eraseDups

/-- Old and new cell of each mapped granule. -/
def State.cellMoves (s : State) (tag : Nat) (t : Part) (chs : List Nat) : List (Nat × Nat) :=
  (s.granulesOf tag t).map fun g =>
    let va := BitVec.ofNat 64 (4096 * g.2.1)
    (cellNo ((s.home g.1 va).getD 0) g.2.2, cellNo ((homeOf chs va g.1).getD 0) g.2.2)

/-- What stands between a reshaping and a change of the channel set (R417 steps 1 and 2): a failure, or cells still being
scrubbed. -/
def State.channelErr (s : State) (tag : Nat) (t t' : Part) : Acc MgmtErr ⊕ Unit :=
  let chs := t'.res.channels.filter fun q => !s.fenced.contains (sliceSite q)
  let new := (t.added t').channels
  let cells := new.flatMap fun q => (s.ownedFrames tag (s.channels tag)).map fun f => cellNo q f
  let dst := (s.cellMoves tag t chs).map Prod.snd
  if t'.res.channels = t.res.channels then .inr ()
  else if cells.any fun c => (s.cell c).1 = 1 then .inl (.done .owned)
  else if dst.eraseDups.length ≠ dst.length then .inl (.done .collide)
  else if cells.any fun c => (s.cell c).1 ≠ 0 then .inl .wait
  else .inr ()

/-- A granule's bytes, poison and clear marks go from one cell to another (R417); `old` is the memory before any moved. -/
def State.moveCell (old s : State) (c0 c1 : Nat) : State :=
  let s := s.putBytesP (4096 * c1) (old.getBytesP (4096 * c0) 4096)
  { s with marks := forN 32 s.marks fun i l =>
      if old.marks.contains (32 * c0 + i) then nsAdd (32 * c1 + i) l else nsDel (32 * c1 + i) l }

/-- The granules of a partition move to their new homes, and cells of removed channels are scrubbed (R417). -/
def State.moveChannels (s : State) (tag : Nat) (t t' : Part) : State :=
  if t'.res.channels = t.res.channels then s
  else
    let chs := t'.res.channels.filter fun q => !s.fenced.contains (sliceSite q)
    let moves := s.cellMoves tag t chs
    let new := (t.added t').channels.flatMap fun q => (s.ownedFrames tag (s.channels tag)).map fun f => cellNo q f
    let s := forL new s fun c s => s.setCell c 1 tag
    let s := forL s.slices s fun y s =>
      forL y.2.lines s fun z s => if z.2.st ≠ 0 && decide (asidTag z.2.asid = tag) then s.evict y.1 z.1 else s
    let old := s
    let s := forL moves s fun m s => s.moveCell old m.1 m.2
    let gone (q : Nat) : Bool := t.res.channels.contains q && !t'.res.channels.contains q && !s.fenced.contains (sliceSite q)
    let s := { s with own := smMap (fun k c => if c = (1, tag) && gone (k / Config.cells) then (2, 0) else c) s.own }
    { s with slices := smMap (fun _ sl =>
        { sl with tlb := sl.tlb.filter fun x => asidTag x.asid ≠ tag, wcache := sl.wcache.filter fun w => asidTag w.asid ≠ tag }) s.slices }

/-- The saved crews of a partition follow their logical positions (R416): to the position's cluster, or to the head of their
grid's level. -/
def State.followMap (s : State) (tag : Nat) (t t' : Part) : State :=
  let goal (lcl : Nat) : Option (Nat × Nat) :=
    let id := reId t.w t'.w lcl
    if lcl % max 1 t.w < t'.w then t'.positions.find? fun x => x.1 = id else none
  let s := { s with grids := smMap (fun _ g => if g.part = tag then { g with anchor := reId t.w t'.w g.anchor } else g) s.grids }
  forL (s.crews.filter fun x => x.2.part = tag && x.2.st = .saved) s fun x s =>
    match goal x.2.lcl with
    | some (id, q) => s.modCrew x.1 fun c => { c with p := q, lcl := id }
    | none => s.modGrid x.2.grid fun g => if g.again.contains x.1 then g else { g with again := g.again ++ [x.1] }

/-- The crew queues of clusters that leave go with their positions, or join other queues (R416). -/
def State.followQueues (s : State) (tag : Nat) (t t' : Part) : State :=
  let left := t.positions.filter fun x => !t'.res.clusters.contains x.2
  let goal (lcl : Nat) : Option Nat :=
    if lcl % max 1 t.w < t'.w then (t'.positions.find? fun x => x.1 = reId t.w t'.w lcl).map Prod.snd else none
  let queues := left.map fun x => (x.1, x.2, (s.cluster x.2).queue)
  let s := s.modPart tag fun u =>
    { u with savedQueues := smMap (fun _ l => l.map fun y =>
        match left.find? fun x => x.2 = y.1 with
        | some x => ((goal x.1).getD y.1, y.2)
        | none => y) u.savedQueues }
  forL queues s fun x s =>
    match goal x.1 with
    | some q => s.modCluster q fun c => { c with queue := c.queue ++ x.2.2 }
    | none => s.requeue tag x.2.1 x.2.2

/-- A reshaping is applied (R416, R417): clusters that leave are zeroed, those that join too; the map, the bitmaps, slices and
ports follow. -/
def State.applyShape (s : State) (tag : Nat) (t t' : Part) : State :=
  let sub (a b : List Nat) : List Nat := a.filter fun x => !b.contains x
  let left := sub t.res.clusters t'.res.clusters
  let join := sub t'.res.clusters t.res.clusters
  let s := s.moveChannels tag t t'
  let s := forL join s fun p s => s.joinCluster p
  let s := s.modPart tag fun u => { u with res := t'.res, w := t'.w, h := t'.h, map := t'.map,
                                           fport := smFilter (fun i _ => decide (4 ≤ i) || t'.res.hostPorts.contains i) u.fport }
  let s := (s.followQueues tag t t').followMap tag t t'
  let s := forL left s fun p s => (s.zeroCluster p).modCluster p fun c => { c with zeroing := true }
  let s := { s with clRdy := s.clRdy.filter fun p => !left.contains p,
                    reserves := s.reserves.filter fun x => !left.contains x.1 }
  let s := forL (sub t.res.slices t'.res.slices) s fun q s => s.modSlice q fun sl => sl.without tag false
  (s.setOcc tag (sub t'.res.slices t.res.slices)).setAreas tag

/-- What a GROW still names when it is applied (R17, R418): optional resources that are no longer ready are left out, a cluster that
is no longer ready is replaced as a failed one once the GROW is applied (R13); a channel or its slice that is not ready, or a
cluster that was fenced, fails it. -/
def State.stillReady (s : State) (t t' : Part) : Except MgmtErr Part :=
  let new := t.added t'
  let need := new.clusters.all (fun p => !s.fenced.contains (clusterSite p)) && new.channels.all (fun q => s.chRdy.contains q && s.slRdy.contains q)
  let keep (l add : List Nat) (rdy : List Nat) : List Nat := l.filter fun x => !add.contains x || rdy.contains x
  if !need then .error .notReady
  else
    .ok { t' with res := { t'.res with
      slices := keep t'.res.slices new.slices s.slRdy, hostPorts := keep t'.res.hostPorts new.hostPorts s.hpRdy,
      fabricPorts := keep t'.res.fabricPorts new.fabricPorts s.fpRdy, shares := keep t'.res.shares new.shares s.ksRdy } }

/-- Clusters of a partition that were declared failing while it was reshaped are replaced (R418). -/
def State.replaceFailing (s : State) (tag : Nat) : State :=
  match smGet s.parts tag with
  | none => s
  | some t => forL (t.res.clusters.filter fun p => decide (2 ≤ (s.cluster p).silent)) s fun p s => s.replaceCluster tag p

/-- Clusters that a CREATE or GROW named and that are no longer ready when it takes effect are replaced (R17). -/
def State.replaceUnready (s : State) (tag : Nat) (l : List Nat) : State :=
  forL (l.filter fun p => !s.clRdy.contains p) s fun p s => s.replaceCluster tag p

/-- A CREATE that has waited for its incarnation starts, or fails as a whole when a channel, its slice or the host port of its
virtual function is no longer ready; any other resource that is not is left out, and a cluster is replaced (R17). -/
def State.startHeld (s : State) (tag : Nat) (t : Part) : State :=
  let need := t.res.channels.all (fun q => s.chRdy.contains q && s.slRdy.contains q) && s.hpRdy.contains t.vfPort
  if !need then (s.destroyQuiet tag).mgmtDone tag (some .notReady)
  else
    let s := s.modPart tag fun t => { t with res := { t.res with
      slices := t.res.slices.filter s.slRdy.contains, hostPorts := t.res.hostPorts.filter s.hpRdy.contains,
      fabricPorts := t.res.fabricPorts.filter s.fpRdy.contains, shares := t.res.shares.filter s.ksRdy.contains } }
    ((s.replaceUnready tag t.res.clusters).goLive tag).mgmtDone tag none

/-- INCARNATION_HOLD_EXPIRY (R400): the second has passed; a CREATE that waited completes, a RESET goes on. -/
def execIncarnationHoldExpiry (part : Nat) (s : State) : Host.Outcome State Fault Refusal :=
  .next (
    match smGet s.parts part with
    | none => s
    | some t =>
      match t.holdUntil with
      | some (u, new) =>
        if s.time < u then s
        else if new then s.startHeld part t
        else s.modPart part fun t => { t with holdUntil := none }
      | none => s)

/-- QUIESCE_DONE (R413, R414, R416): once every crew is saved the partition is QUIESCED, and a GROW, SHRINK or COMPACT is
applied, after which it is RESUMING. -/
def execQuiesceDone (part : Nat) (s : State) : Host.Outcome State Fault Refusal :=
  .next (
    match smGet s.parts part with
    | none => s
    | some t =>
      if t.qst ≠ 1 then s
      else if !s.allDrained part then s.leaveAll part
      else
        let r := t.reshape.getD .quiesce
        let t1 := t.reshaped r
        let resume (s : State) : State := (s.replaceFailing part).modPart part fun t => { t with qst := 3 }
        match r, s.stillReady t t1 with
        | .refit, _ => resume (s.saveAll part)
        | .quiesce, _ => ((s.saveAll part).replaceFailing part).modPart part fun t => { t with qst := 2 }
        | _, .error e => resume ((s.saveAll part).mgmtDone part (some e))
        | _, .ok t' =>
          match s.channelErr part t t' with
          | .inl .wait => s
          | .inl (.done e) => resume ((s.saveAll part).mgmtDone part (some e))
          | .inl (.fault _) => s
          | .inr () =>
            resume ((((s.saveAll part).applyShape part t t').replaceUnready part (t.added t').clusters).mgmtDone part none))

/-- RESUME (R412, R413): a quiesced partition is RESUMING. -/
def execResume (part : Nat) (s : State) : Host.Outcome State Fault Refusal :=
  .next (
    match smGet s.parts part with
    | some t =>
      if t.qst = 2 && t.reshape = some .quiesce then
        (s.modPart part fun t => { t with qst := 3 }).mgmtDone part none
      else s.mgmtDone part (some .busy)
    | none => s.mgmtDone part (some .busy))

/-- The saved crews of the running context that are not to be placed anew. -/
def State.toRestore (s : State) (tag ctx : Nat) : List (Nat × Crew) :=
  s.crews.filter fun x => x.2.part = tag && x.2.ctx = ctx && x.2.st = .saved && x.2.stopping.isNone &&
    !(s.grids.any fun g => g.2.again.contains x.1) && !(s.clusters.any fun c => c.2.queue.any fun b => b.cid = some x.1)

/-- Saved crews go back to their clusters (R404 step 4, R416). -/
def State.restoreAll (s : State) (tag ctx : Nat) : State :=
  forL (s.toRestore tag ctx) s fun x s => s.restoreCrew x.1 x.2.p x.2.lcl x.2.base x.2.places

/-- Messages left pending while the function was paused are sent (R427). -/
def State.sendPending (s : State) (tag : Nat) : State :=
  match smGet s.parts tag with
  | none => s
  | some t =>
    let go := (List.range 8).filter fun v => t.msixPend.getLsbD v && !t.msixMask.getLsbD v
    { s with msixOut := s.msixOut ++ go.map fun v => (tag, v) }.modPart tag fun t => { t with msixPend := t.msixPend &&& t.msixMask }

/-- RESUME_DONE (R413): every crew is restored, and the partition is RUNNING. -/
def execResumeDone (part : Nat) (s : State) : Host.Outcome State Fault Refusal :=
  .next (
    match smGet s.parts part with
    | none => s
    | some t =>
      if t.qst ≠ 3 then s
      else
        let s := (s.restoreAll part t.ctxNow).modPart part fun t => { t with qst := 0, reshape := none }
        let s := s.sendPending part
        if t.reshape = some .quiesce then s.mgmtDone part none else s)

/-! Time slices (R404). -/

/-- A crew whose every live thread waits in `cwait`, `gbar` or `bar.wait`, or that has none (R404). -/
def Crew.resting (c : Crew) : Bool :=
  c.cohorts.all fun h => (lanesOf h.live).all fun i =>
    (h.threads[i]).holds.any fun x => match x with | .cwait | .gbar _ | .bar _ _ => true | _ => false

/-- A context has a queued grid or a resident crew (R404). -/
def State.ctxWork (s : State) (tag ctx : Nat) : Bool :=
  (s.grids.any fun x => x.2.part = tag && x.2.ctx = ctx && x.2.head.isSome) ||
    s.crews.any fun x => x.2.part = tag && x.2.ctx = ctx && x.2.st ≠ .suspended

/-- The next context in ascending order that has work; the running one when no other has. -/
def State.nextCtx (s : State) (tag : Nat) (t : Part) : Nat :=
  ((List.range t.contexts).map fun i => (t.ctxNow + 1 + i) % t.contexts).find? (s.ctxWork tag) |>.getD t.ctxNow

/-- The switch of contexts once every crew is drained (R404 steps 2 to 4). -/
def State.switchCtx (s : State) (tag : Nat) (t : Part) : State :=
  let next := s.nextCtx tag t
  let s := s.saveAll tag
  let blocks (p : Nat) : List Ccb :=
    (s.cluster p).queue ++ s.clusters.flatMap fun c => match c.2.steal with | some x => if x.victim = p then x.shipped else [] | none => []
  let queues := (t.res.clusters.map fun p => (p, blocks p)).filter fun x => x.2 ≠ []
  let s := forL t.res.clusters s fun p s => s.zeroCluster p
  let saved := smSet t.savedQueues t.ctxNow queues
  let s := forL (smGetD saved next []) s fun x s => s.modCluster x.1 fun c => { c with queue := x.2 }
  let s := s.modPart tag fun t => { t with ctxNow := next, sliceAt := s.time, idleSince := none, reshape := none, reserve := none,
                                           savedQueues := smDel saved next }
  s.restoreAll tag next

/-- SLICE_END (R404): the slice of the running context ends SLEN µs after it began, or early when another context has work and
every crew has rested for 10 µs; its crews are drained and saved, the clusters zeroed, and the next context restored. -/
def execSliceEnd (part : Nat) (s : State) : Host.Outcome State Fault Refusal :=
  .next (
    match smGet s.parts part with
    | none => s
    | some t =>
      if !t.pmode.getLsbD 63 || t.qst ≠ 0 then s
      else if t.reshape = some .sliceEnd then
        if s.allDrained part then s.switchCtx part t else s.leaveAll part
      else
        let other := (List.range t.contexts).any fun c => c ≠ t.ctxNow && s.ctxWork part c
        let rests := other && (s.standing part).all fun x => x.2.resting
        let early := rests && (match t.idleSince with | some u => decide (u + 10000 ≤ s.time) | none => false)
        let due := decide (t.sliceAt + 1000 * fld t.pmode 49 30 ≤ s.time)
        if due || early then (s.modPart part fun t => { t with reshape := some .sliceEnd }).leaveAll part
        else s.modPart part fun t => { t with idleSince := if rests then some (t.idleSince.getD s.time) else none })

end Sys2Proof.Machine
end

