-- ==== Sys2Proof/Machine/HostLink.lean ====
section
/-!
DEFINITION. Sys2Proof/Machine/HostLink.lean: the host's side of a virtual function: BAR0 and its queue blocks (R419, R422 to
R424), MSI-X (R427), TDISP (R420), measurements (R429), writes into a partition's memory (R268), and the completions of
host-window accesses (R421).
-/

namespace Sys2Proof.Machine

/-- A change of a partition through BAR0, which outside RUN is completed with Unsupported Request and has no effect (R420). -/
def State.bar0 (s : State) (tag : Nat) (f : Part → State) : State :=
  match smGet s.parts tag with
  | some t => if t.tdisp = .run then f t else s
  | none => s

/-- QUEUE_ENABLE (R422, R423): EN written: a disabled queue becomes ACTIVE, a host-produced one with RP := WP, or a queue is
DISABLED. -/
def execQueueEnable (part queue : Nat) (en : Bool) (s : State) : Host.Outcome State Fault Refusal :=
  .next (s.bar0 part fun _ =>
    if 68 ≤ queue then s
    else
      let s := s.modQueue part queue fun q => { q with en := en }
      if !en then s.queueTo part queue 3
      else if (s.queue part queue).st = 3 then
        (s.modQueue part queue fun q => if queue ≤ 64 then { q with rp := q.wp } else q).queueTo part queue 0
      else s)

/-- QUEUE_RESET (R423): RST takes a host-produced queue out of OVERRUN or STAMP_WAIT. -/
def execQueueReset (part queue : Nat) (s : State) : Host.Outcome State Fault Refusal :=
  .next (s.bar0 part fun _ =>
    let q := s.queue part queue
    if queue ≤ 64 && (q.st = 1 || q.st = 2) then (s.modQueue part queue fun q => { q with rp := q.wp }).queueTo part queue 0
    else s)

/-- QUEUE_WP_WRITE (R422 to R424): the producer's WP; too many records overrun an ACTIVE queue, and a queue in STAMP_WAIT fetches
once more. -/
def execQueueWpWrite (part queue : Nat) (wp : W32) (s : State) : Host.Outcome State Fault Refusal :=
  .next (s.bar0 part fun _ =>
    if 64 < queue then s
    else
      (s.modQueue part queue fun q =>
        { q with wp := wp, stampSince := if q.st = 2 then some s.time else q.stampSince }).overrun part queue)

/-- QUEUE_RP_WRITE (R422): the host consumer's RP of a device-produced queue. -/
def execQueueRpWrite (part queue : Nat) (rp : W32) (s : State) : Host.Outcome State Fault Refusal :=
  .next (s.bar0 part fun _ =>
    if 65 ≤ queue && queue < 68 then s.modQueue part queue fun q => { q with rp := rp } else s)

/-- A write to the fields of a queue block that have no row of their own (R422): BASE and LOG2N while EN = 0, VEC; a value
outside a field's range leaves the field (R438; log 29). -/
def Queue.write (q : Queue) (word : Nat) (v : W64) : Queue :=
  match word with
  | 0 => if !q.en && decide (v.toNat % 64 = 0) then { q with base := v } else q
  | 2 =>
    let n := fld v 4 0
    let q := if fld v 27 16 < 8 then { q with vec := BitVec.ofNat 12 (fld v 27 16) } else q
    if !q.en && decide (4 ≤ n) && decide (n ≤ 20) then { q with log2n := BitVec.ofNat 5 n } else q
  | _ => q

/-- REGISTER_WRITE (R422). -/
def execRegisterWrite (part queue word : Nat) (v : W64) (s : State) : Host.Outcome State Fault Refusal :=
  .next (s.bar0 part fun _ => if queue < 68 then s.modQueue part queue fun q => q.write word v else s)

/-- The word of BAR0 at an offset (R419, R422): zero where nothing is listed. -/
def State.bar0Word (s : State) (part off : Nat) : W64 :=
  if 0x880 ≤ off then 0
  else
    let q := s.queue part (off / 32)
    match off / 8 % 4 with
    | 0 => q.base
    | 1 => BitVec.ofNat 64 (q.wp.toNat * 2 ^ 32 + q.rp.toNat)
    | 2 => BitVec.ofNat 64 (q.vec.toNat * 2 ^ 16 + q.st.toNat * 2 ^ 12 + (if q.en then 256 else 0) + q.log2n.toNat)
    | _ => BitVec.ofNat 64 q.lost.toNat

/-- BAR0_UNLISTED_ACCESS (R419, R420): a read of an unlisted offset returns zero, a write to one is dropped. A read of a listed
one returns its word. -/
def execBar0UnlistedAccess (part off : Nat) (wr : Bool) (_v : W64) (s : State) : Host.Outcome State Fault Refusal :=
  .next (s.bar0 part fun _ => if wr then s else { s with bar0Out := s.bar0Out ++ [(part, off, s.bar0Word part off)] })

/-- MSIX_UNMASK (R427): a vector is unmasked, and its pending message sent unless the function is paused. -/
def execMsixUnmask (part vec : Nat) (s : State) : Host.Outcome State Fault Refusal :=
  .next (
    match smGet s.parts part with
    | none => s
    | some t =>
      if 8 ≤ vec then s
      else
        let bit := BitVec.ofNat 8 (2 ^ vec)
        let s := s.modPart part fun t => { t with msixMask := t.msixMask &&& ~~~bit }
        if t.msixPend.getLsbD vec && decide (t.qst = 0) then
          { s with msixOut := s.msixOut ++ [(part, vec)] }.modPart part fun t => { t with msixPend := t.msixPend &&& ~~~bit }
        else s)

/-- States of a TDISP interface under its messages (R420). -/
def TdispSt.move : TdispSt → Tdisp → TdispSt
  | .unlocked, .lock => .locked
  | .locked, .start => .run
  | _, .stop => .unlocked
  | x, _ => x

/-- TDISP_MESSAGE (R420). -/
def execTdispMessage (part : Nat) (m : Tdisp) (s : State) : Host.Outcome State Fault Refusal :=
  .next (s.modPart part fun t => { t with tdisp := t.tdisp.move m })

/-! Measurements (R429). -/

/-- A bitmap of R398 as bytes, bit 0 first. -/
def bitmapBytes (n : Nat) (l : List Nat) : List Byte :=
  (List.range (ceilDiv n 8)).map fun i =>
    BitVec.ofNat 8 ((List.range 8).foldl (fun y j => if l.contains (8 * i + j) then y + 2 ^ j else y) 0)

/-- The route table of a partition: the map in id order, then the 256 routes of 64 entries (R127, R401). -/
def Part.tableBytes (t : Part) : List Byte :=
  ((List.range (t.w * t.h)).flatMap fun i => bytesOfNat 4 (smGetD t.map i 0).toNat) ++
    (List.range 256).flatMap fun n => (List.range 64).flatMap fun i => bytesOfNat 4 ((smGetD t.routes n []).getD i 0).toNat

/-- The shape report (R429). -/
def State.shapeReport (s : State) (t : Part) : List Byte :=
  sha384 (bitmapBytes Config.clusters t.res.clusters) ++ sha384 (bitmapBytes Config.slices t.res.slices) ++
    sha384 (bitmapBytes Config.slices t.res.channels) ++ sha384 (bitmapBytes Config.hostPorts t.res.hostPorts) ++
    sha384 (bitmapBytes Config.fabricPorts t.res.fabricPorts) ++ sha384 (bitmapBytes Config.shares t.res.shares) ++
    bytesOfNat 2 t.w ++ bytesOfNat 2 t.h ++ sha384 t.tableBytes ++ Config.firmwareDigest 2 ++ mrBytes s.mr[0] ++
    bytesOfNat 4 s.lifecycle.toNat

/-- The two sealing public keys of a partition (R428, R462): the point x then y, and the ML-DSA-65 key. -/
def Part.publicKeys (t : Part) (tag : Nat) : List Byte :=
  let q := ecPublic (sealScalar t.salt tag t.inc.toNat)
  bytesBE 48 q.1 ++ bytesBE 48 q.2 ++ Config.mldsaPublic (sealSeed t.salt tag t.inc.toNat)

/-- A measurement (R429), none for an index that is not listed; the bytes under digests 10 and 11 in the model's order
(log 8). -/
def State.measurement (s : State) (tag : Nat) (t : Part) (index : Nat) : Option (List Byte) :=
  match index with
  | 1 => some (Config.firmwareDigest 1)
  | 2 => some (Config.firmwareDigest 2)
  | 3 => some (mrBytes s.mr[0])
  | 4 => some (mrBytes s.mr[1])
  | 5 => some (mrBytes s.mr[2])
  | 6 => some (mrBytes s.mr[3])
  | 7 => some (bytesOfNat 4 s.lifecycle.toNat)
  | 8 => some (sha384 (s.shapeReport t))
  | 9 => some (sha384 t.tableBytes)
  | 10 => some (sha384 (t.publicKeys tag))
  | 11 => some (sha384 (bytesOfNat 8 t.pmode.toNat ++ bytesOfNat 2 t.inc.toNat))
  | 0x80 => some (s.shapeReport t)
  | _ => none

/-- SPDM_GET_MEASUREMENTS (R429): the measurement, and the responder's signature of the nonce and it (log 8). -/
def execSpdmGetMeasurements (part index : Nat) (nonce : List Byte) (s : State) : Host.Outcome State Fault Refusal :=
  .next (
    match smGet s.parts part with
    | none => s
    | some t =>
      match s.measurement part t index with
      | none => s
      | some d => { s with doeOut := s.doeOut ++ [(part, d ++ Config.identitySign (nonce ++ d))] })

/-! Memory. -/

/-- Bytes that the host writes, line by line, at their home slices (R268). Of the requirements of R67 a host write has the first
alone: it is no store, and W does not stop it (log 13). -/
def State.hostPut (s : State) (asid : BitVec 16) (d : List Byte) : List (Nat × Nat) → Acc State
  | [] => .done s
  | (a, n) :: r =>
    match s.ensureLine asid (BitVec.ofNat 64 a) 0 with
    | .fault c => .fault c
    | .wait => .wait
    | .done (s, q, key) =>
      State.hostPut (s.modSlice q fun sl => sl.setWay key ((sl.way key).write (a % 128) (d.take n) false)) asid (d.drop n) r

/-- The host's writes are performed in their order (R268): one whose line, or a way for it, is not at hand waits, and the later
ones behind it; one to a page that is not mapped is dropped. -/
def State.hostDrain : List (Nat × Nat × W64 × List Byte) → State → State
  | [], s => { s with hostIn := [] }
  | (part, space, va, data) :: r, s =>
    if (smGet s.parts part).isNone then State.hostDrain r s
    else
      match s.hostPut (asidOf part space) data (lineParts (data.length / 128 + 2) va.toNat data.length) with
      | .done s => State.hostDrain r s
      | .fault _ => State.hostDrain r s
      | .wait => { s with hostIn := (part, space, va, data) :: r }

/-- HOST_WRITE (R268): a write of the host reaches its home slice, behind those that wait; one without bytes lets those go on. -/
def execHostWrite (part space : Nat) (va : W64) (data : List Byte) (s : State) : Host.Outcome State Fault Refusal :=
  .next (
    if 64 ≤ space || !isCanon va || inHost va || (smGet s.parts part).isNone then s
    else State.hostDrain (s.hostIn ++ [(part, space, va, data)]) s)

/-- Bytes that a completion brings, as many as were asked for. -/
def hostBytes (n : Nat) (d : List Byte) : List Byte := (d ++ List.replicate n 0#8).take n

/-- HOST_COMPLETION (R361, R421): a host-window access completes. A load gets its bytes, or poison; a write counts as performed;
an engine's bytes arrive, or its job fails. -/
def execHostCompletion (id : Nat) (ok : Bool) (data : List Byte) (s : State) : Host.Outcome State Fault Refusal :=
  .next (
    match smGet s.hostReqs id with
    | none => s
    | some h =>
      let s := s.noteWindow (5120 + h.port) (s.hostItems h.port)
      let s := { s with hostReqs := smDel s.hostReqs id }
      match h.req, h.job with
      | some rid, _ =>
        match smGet s.reqs rid with
        | none => s
        | some r =>
          let s := s.chargeFar r.cid r.co 1 h.port h.n
          { s with reqs := smSet s.reqs rid { r with data := hostBytes h.n data, pz := !ok } }.endReq rid
      | none, some (p, slot, q) =>
        match smGet (s.cluster p).cp slot with
        | none => s
        | some j =>
          if j.st ≠ .running then s
          else if !ok then s.cpEnd p slot j .failed cPagePerm
          else
            let d := (hostBytes h.n data).map fun x => (x, false)
            s.modCluster p fun c => { c with cp := smMod c.cp slot fun j => { j with read := smSet j.read q d } }
      | none, none => s)

end Sys2Proof.Machine
end

