-- ==== Sys2Proof/Machine/Ready.lean ====
section
/-!
DEFINITION. Sys2Proof/Machine/Ready.lean: the fabric rail (R11), the cold start, self-tests and the ready maps (R16, R17), burls
(R14), and what a fenced channel does to the partitions that own it (R57, R58).
-/

namespace Sys2Proof.Machine

/-- How many resources of a kind the wafer has (R16). -/
def resCount : Res → Nat
  | .svc => Config.svcClusters
  | .rtr | .sl | .ch => Config.slices
  | .cl => Config.clusters
  | .hp => Config.hostPorts
  | .fp => Config.fabricPorts
  | .ks => Config.shares

/-- The ready map of a kind (R16). -/
def State.rdy (s : State) : Res → List Nat
  | .svc => s.svcRdy
  | .rtr => s.rtrRdy
  | .sl => s.slRdy
  | .ch => s.chRdy
  | .cl => s.clRdy
  | .hp => s.hpRdy
  | .fp => s.fpRdy
  | .ks => s.ksRdy

/-- A ready map changed (R16). -/
def State.modRdy (s : State) (r : Res) (f : List Nat → List Nat) : State :=
  match r with
  | .svc => { s with svcRdy := f s.svcRdy }
  | .rtr => { s with rtrRdy := f s.rtrRdy }
  | .sl => { s with slRdy := f s.slRdy }
  | .ch => { s with chRdy := f s.chRdy }
  | .cl => { s with clRdy := f s.clRdy }
  | .hp => { s with hpRdy := f s.hpRdy }
  | .fp => { s with fpRdy := f s.fpRdy }
  | .ks => { s with ksRdy := f s.ksRdy }

/-- What the Requires column of R16 asks: a slice its router, a channel its slice, a cluster its zone's regulator. -/
def State.requires (s : State) (r : Res) (i : Nat) : Bool :=
  match r with
  | .sl => s.rtrRdy.contains i
  | .ch => s.slRdy.contains i
  | .cl => (match clusterZone i with | some z => !s.zoneBad.contains z | none => true)
  | _ => true

/-- COLD_START (R11, R14, R16): the fabric rail has power; the machine is as after reset, and the fuses are read again
(R430, R431). What the environment has received stays with it, and the unlock challenge is drawn anew (R441). -/
def execColdStart (s : State) : Host.Outcome State Fault Refusal :=
  .next { State.reset with
    tick := s.tick, turns := s.turns, nextId := s.nextId, colds := s.colds + 1, chal := Config.random s.tick,
    hostOut := s.hostOut, msixOut := s.msixOut, fabOut := s.fabOut, doeOut := s.doeOut, bar0Out := s.bar0Out,
    mgmtOut := s.mgmtOut }

/-- FABRIC_RAIL_DOWN (R11): nothing on the wafer runs until the next cold start. -/
def execFabricRailDown (s : State) : Host.Outcome State Fault Refusal := .next { s with rail := false }

/-- SELF_TEST_PASS (R16): a resource's bit is set, once what it requires is ready, unless it failed or was fenced since the cold
start. -/
def execSelfTestPass (r : Res) (i : Nat) (s : State) : Host.Outcome State Fault Refusal :=
  .next (
    if decide (resCount r ≤ i) || s.failed.contains (r, i) || !s.requires r i then s
    else s.modRdy r (nsAdd i))

/-- A resource's bit is cleared for good (R16). -/
def State.markFailed (s : State) (r : Res) (i : Nat) : State :=
  let t := s.modRdy r (nsDel i)
  { t with failed := (r, i) :: t.failed.erase (r, i) }

/-- The requests of a partition that no slice has performed set out again for the homes of the new channel set (R57). -/
def State.rehomeRequests (s : State) (tag : Nat) : State :=
  forL s.reqs s fun x s =>
    let r := x.2
    if asidTag r.asid ≠ tag || r.host || r.reply then s
    else
      let r := { r with home := (s.home r.asid r.va).getD 0 }
      match r.stage with
      | .inject | .mesh | .atSlice | .filling | .walking => s.resend x.1 r
      | .contrail | .replay | .held | .replied => { s with reqs := smSet s.reqs x.1 r }

/-- The granules of a partition go to the homes that the channels left give them (R57, R417); those of the lost channel are
lost (log 27). `homes` are the old cell and the new one of each granule. -/
def State.spread (s : State) (tag : Nat) (moves : List (Nat × Nat)) : State :=
  let old := s
  let s := forL moves s fun m s => s.moveCell old m.1 m.2
  { s with slices := smMap (fun _ sl =>
      { sl with lines := smMap (fun _ l => if asidTag l.asid = tag then l.gone else l) sl.lines, walks := smFilter (fun _ w => asidTag w.asid ≠ tag) sl.walks,
                reqq := sl.reqq.filter fun id => (match smGet s.reqs id with | some r => decide (asidTag r.asid ≠ tag) | none => false),
                tlb := sl.tlb.filter fun x => asidTag x.asid ≠ tag,
                wcache := sl.wcache.filter fun w => asidTag w.asid ≠ tag,
                occ := smMod sl.occ tag fun o => { o with count := 0, pinc := 0 } }) s.slices }

/-- Moves of granules of which no two meet in one cell; where several would, the one that stands is a free value (R417; log 27). -/
def State.distinctMoves (s : State) (moves : List (Nat × Nat)) : List (Nat × Nat) :=
  let k := if moves = [] then 0 else Config.cellFor s.tick % moves.length
  if (moves.map Prod.snd).eraseDups.length = moves.length then moves
  else (moves.drop k ++ moves.take k).foldl (fun l m => if l.any fun x => x.2 = m.2 then l else l ++ [m]) []

/-- A partition has lost a channel: it is destroyed when none is left (R58), otherwise it is quiesced and its data redistributed
(R57): homes and data change within the step, so that no access meets a cell that its granule has left, and the crews then go
through the quiesce protocol (R413; log 27). -/
def State.channelLost (s0 : State) (q tag : Nat) (t : Part) (s : State) : State :=
  let left := (s0.channels tag).filter fun c => c ≠ q
  if left = [] then (s.postInfo tag cChannelsLost 0 0).destroyQuiet tag
  else
    let s := forL s.slices s fun y s =>
      forL y.2.lines s fun z s => if z.2.st ≠ 0 && decide (asidTag z.2.asid = tag) then s.writeBack y.1 z.1 else s
    let moves := s.distinctMoves ((s0.cellMoves tag t left).filter fun m => m.1 / Config.cells ≠ q)
    let s := ((s.spread tag moves).rehomeRequests tag).setAreas tag
    if t.qst = 0 && t.reshape.isNone then s.beginReshape tag .refit false else s

/-- A slice is fenced and its channel with it (R14): the frames of the channel leave every partition's stripe frames. R16 does not
say what becomes of a slice whose channel alone fails: the model fences the slice site with it (DESIGN CHOICE, log 40). -/
def State.fenceSlice (s : State) (q : Nat) (router : Bool) : State :=
  if s.fenced.contains (sliceSite q) then
    if router then { s with fencedRtr := nsAdd (sliceSite q) s.fencedRtr } else s
  else
    let s0 := s
    let s := (s.markFailed .sl q).markFailed .ch q
    let s := { s with fenced := nsAdd (sliceSite q) s.fenced,
                      fencedRtr := if router then nsAdd (sliceSite q) s.fencedRtr else s.fencedRtr }
    let s := forL (s0.parts.filter fun x => x.2.res.channels.contains q) s fun x s => State.channelLost s0 q x.1 x.2 s
    { s with slices := smDel s.slices q }

/-- A cluster fails (R16, R17): one that no partition owns is fenced; one that a partition owns is a failing cluster, for which
the service block acts under R13. Its bit covers its router (R16): whether that has failed too, and is fenced (R14), is a free
value. -/
def State.clusterFails (s : State) (p : Nat) : State :=
  let s := s.markFailed .cl p
  let s := if Config.routerFailed s.tick then { s with fencedRtr := nsAdd (clusterSite p) s.fencedRtr } else s
  if (s.ownerOf p).isNone then s.fenceCluster p else s.modCluster p fun c => { c with silent := max 2 c.silent, silentAt := s.time }

/-- RESOURCE_FAIL (R14, R16, R17, R58, R96): a resource fails: its bit clears, a site is fenced, next-hop tables go round a
fenced router, and a partition left with no channel is destroyed. -/
def execResourceFail (r : Res) (i : Nat) (s : State) : Host.Outcome State Fault Refusal :=
  .next (
    if resCount r ≤ i then s
    else
      match r with
      | .rtr => (s.markFailed .rtr i).fenceSlice i true
      | .sl | .ch => s.fenceSlice i false
      | .cl => s.clusterFails i
      | .svc | .hp | .fp | .ks => s.markFailed r i)

end Sys2Proof.Machine
end

