-- ==== Sys2Proof/Machine/Rearrange.lean ====
section
/-!
DEFINITION. Sys2Proof/Machine/Rearrange.lean: group 4, the lane instructions (R190 to R199).
-/

namespace Sys2Proof.Machine

/-- Base of a lane's tile (R190). -/
def tileBase (w lane : Nat) : Nat := lane - lane % w

/-- A source operand of the thread in a lane slot, whether it executes or not; poison where no live thread is (R194). -/
def laneValue (x : Slot) (v : Vector Val 32) (l : Nat) : Val :=
  match x.coh.threads[l]?, v[l]? with
  | some th, some a => if th.live then a else Val.poison
  | _, _ => Val.poison

/-- ShuffleResult (R195): a source position, none where it lies outside the tile. A thread's own A counts for its result only
where the result is that A: R39 speaks of the sources of the instruction, R194 of the value read (DESIGN CHOICE, log 33).
Unsafe. -/
def shuffle (x : Slot) (zf : Bool) (pos : Nat → Nat → Nat → Option Nat) (i : Fin 32) : Val :=
  let w := x.run.tile
  let n := x.b[i]
  if n.p then Val.poison
  else
    match pos w (i.val % w) (ctl n.v) with
    | none => if zf then Val.ok 0 else x.a[i]
    | some q => laneValue x x.a (tileBase w i.val + q)

/-- `shfl.idx` (R195). -/
def execShflIdx (f : Fields) (s : State) : Host.Outcome State Fault Refusal :=
  laneSlot .shflIdx f (Ty.wide f.ty) s fun x => shuffle x false fun w _ n => some (n % w)

/-- `shfl.up` (R195). -/
def execShflUp (f : Fields) (s : State) : Host.Outcome State Fault Refusal :=
  laneSlot .shflUp f (Ty.wide f.ty) s fun x => shuffle x f.sat0 fun _ p n => if n ≤ p then some (p - n) else none

/-- `shfl.dn` (R195). -/
def execShflDn (f : Fields) (s : State) : Host.Outcome State Fault Refusal :=
  laneSlot .shflDn f (Ty.wide f.ty) s fun x => shuffle x f.sat0 fun w p n => if p + n < w then some (p + n) else none

/-- `shfl.xor` (R195). -/
def execShflXor (f : Fields) (s : State) : Host.Outcome State Fault Refusal :=
  laneSlot .shflXor f (Ty.wide f.ty) s fun x => shuffle x false fun w p n => some (p ^^^ (n % w))

/-- The contributors of a lane's tile: its executing threads (R194). -/
def tileFrom (x : Slot) (i : Fin 32) : List (Fin 32) := lanesOf (x.ex &&& tileLanes' x.run.tile i.val)
where
  /-- The lanes of a tile (R190). -/
  tileLanes' (w lane : Nat) : BitVec 32 := BitVec.ofNat 32 ((2 ^ w - 1) * 2 ^ tileBase w lane)

/-- A vote: a function of the contributors' values; a poisoned one poisons it (R194, R196). -/
def vote (x : Slot) (g : List (Fin 32) → W64) (i : Fin 32) : Val :=
  let l := tileFrom x i
  if l.any fun j => (x.a[j]).p then Val.poison else Val.ok (g l)

/-- A truth value as a word. -/
def boolWord (b : Bool) : W64 := if b then 1 else 0

/-- `vote.any` (R196). -/
def execVoteAny (f : Fields) (s : State) : Host.Outcome State Fault Refusal :=
  laneSlot .voteAny f false s fun x => vote x fun l => boolWord (l.any fun j => (x.a[j]).v != 0)

/-- `vote.all` (R196). -/
def execVoteAll (f : Fields) (s : State) : Host.Outcome State Fault Refusal :=
  laneSlot .voteAll f false s fun x => vote x fun l => boolWord (l.all fun j => (x.a[j]).v != 0)

/-- `vote.bal` (R196). -/
def execVoteBal (f : Fields) (s : State) : Host.Outcome State Fault Refusal :=
  laneSlot .voteBal f false s fun x => vote x fun l =>
    BitVec.ofNat 64 (l.foldl (fun y j => if (x.a[j]).v = 0 then y else y + 2 ^ j.val) 0)

/-- `vote.eq` (R196). -/
def execVoteEq (f : Fields) (s : State) : Host.Outcome State Fault Refusal :=
  laneSlot .voteEq f false s fun x => vote x fun l => boolWord (l.all fun j => decide ((l.head?.map fun h => (x.a[h]).v) = some (x.a[j]).v))

/-- One level of the tree of `redx`: neighbours combined (R197). -/
def combineOnce (op : Option W64 → Option W64 → Option W64) : List (Option W64) → List (Option W64)
  | a :: b :: r => op a b :: combineOnce op r
  | l => l

/-- The fixed tree of `redx` over the positions of a tile (R197): five levels suffice for 32. -/
def redTree (op : Option W64 → Option W64 → Option W64) (l : List (Option W64)) : Option W64 :=
  ((forN 5 l fun _ l => combineOnce op l).head?).getD none

/-- What position `q` of a lane's tile contributes (R194, R197). -/
def contrib (x : Slot) (i : Fin 32) (q : Nat) : Option W64 :=
  let l := tileBase x.run.tile i.val + q
  if x.ex.getLsbD l then (x.a[l]?).map Val.v else none

/-- `redx` (R197). -/
def execRedx (f : Fields) (s : State) : Host.Outcome State Fault Refusal :=
  laneSlot .redx f (Ty.wide f.ty) s fun x i =>
    let opx := f.mod.toNat % 8
    if (tileFrom x i).any fun j => (x.a[j]).p then Val.poison
    else
      Val.ok (canonNans f.ty
        ((redTree (combine opx f.m3 f.ty) ((List.range x.run.tile).map (contrib x i))).getD (opxIdentity opx f.ty)))

/-- `scanx` (R197): the contributors at lower positions, and the thread's own unless EXC. -/
def execScanx (f : Fields) (s : State) : Host.Outcome State Fault Refusal :=
  laneSlot .scanx f (Ty.wide f.ty) s fun x i =>
    let opx := f.mod.toNat % 8
    let n := i.val % x.run.tile + (if f.m4 then 0 else 1)
    if (tileFrom x i).any fun j => decide (j.val % x.run.tile < n) && (x.a[j]).p then Val.poison
    else
      Val.ok (canonNans f.ty
        ((forN n none fun q acc => combine opx f.m3 f.ty acc (contrib x i q)).getD (opxIdentity opx f.ty)))

/-- Elements to a register in `xpose` (R198). -/
def xposeK (f : Fields) : Nat := if f.mod = 0 then 1 else if f.mod = 1 then 2 else 4

/-- The register that `xpose` names (R198). -/
def xposeReg : Sel → Nat
  | .v i => i.val
  | _ => 0

/-- The checks of `xpose` at execution (R198). -/
def xposeFault (x : Slot) (i : Fin 32) : Option Cause :=
  let k := xposeK x.f
  let w := x.run.tile
  let n := w / k
  if w < k || decide (x.crew.regs ≤ xposeReg x.f.a.sel + n - 1) || (!(x.b[i]).p && decide (n ≤ ctl (x.b[i]).v)) then
    some cIllegalOperand
  else none

/-- XposeResult (R198). -/
def xposeResult (x : Slot) (i : Fin 32) : Val :=
  let k := xposeK x.f
  let w := x.run.tile
  let p := i.val % w
  if (x.b[i]).p then Val.poison
  else
    let src (j : Nat) : Val :=
      match x.coh.threads[tileBase w i.val + k * ctl (x.b[i]).v + j]? with
      | some th => if th.live then readV th.v (xposeReg x.f.a.sel + p / k) false else Val.poison
      | none => Val.poison
    if (List.range k).any fun j => (src j).p then Val.poison
    else Val.ok (BitVec.ofNat 64 (ofElems (32 / k) k fun j => elem (32 / k) (p % k) (src j).v.toNat))

/-- `xpose` (R198). -/
def execXpose (f : Fields) (s : State) : Host.Outcome State Fault Refusal :=
  runSlot .xpose f s fun x s =>
    finishSlot x (x.faults fun i => atNull (xposeFault x i)) (.now false (perLane (xposeResult x))) s

/-- The word that `perm` makes (R199). -/
def permWord (a b c : W64) : W64 :=
  let both := a.toNat % 2 ^ 32 + b.toNat % 2 ^ 32 * 2 ^ 32
  BitVec.ofNat 64 (ofElems 8 4 fun i =>
    let n := elem 4 i c.toNat
    let y := elem 8 (n % 8) both
    if 8 ≤ n then (if 128 ≤ y then 255 else 0) else y)

/-- `perm` (R199). -/
def execPerm (f : Fields) (s : State) : Host.Outcome State Fault Refusal :=
  laneSlot .perm f false s fun x i => lift3 permWord x.a[i] x.b[i] x.c[i]

/-- `rdlane` (R199). -/
def execRdlane (f : Fields) (s : State) : Host.Outcome State Fault Refusal :=
  laneSlot .rdlane f (Ty.wide f.ty) s fun x i =>
    if (x.b[i]).p then Val.poison else laneValue x x.a (ctl (x.b[i]).v % 32)

/-- `wrlane` (R199): a poisoned source poisons the result, chosen or not (R39). -/
def execWrlane (f : Fields) (s : State) : Host.Outcome State Fault Refusal :=
  laneSlot .wrlane f (Ty.wide f.ty) s fun x i =>
    lift3 (fun a b c => if ctl b % 32 = i.val then a else c) x.a[i] x.b[i] x.c[i]

end Sys2Proof.Machine
end

