-- ==== Sys2Proof/Machine/Watch.lean ====
section
/-!
DEFINITION. Sys2Proof/Machine/Watch.lean: what happens to crews by the passing of time or by themselves: bundle selection
(R339), region closes (R366), debug resumption (R386), deadlines (R145), grid barriers (R353, R354), channels (R356) and the
wait detector (R359).
-/

namespace Sys2Proof.Machine

/-- BUNDLE_SELECT (R339): an issue slice chooses a candidate and starts its clause; storage errors are found as registers
are read (R372). -/
def execBundleSelect (k : Nat) (s : State) : Host.Outcome State Fault Refusal := .next ((s.storageError k).bundleSelect k)

/-- REGION_CLOSE (R366): a close that waited is made once nothing stands in its way; a parked clause then goes on, or traps
are entered. -/
def execRegionClose (cid co : Nat) (s : State) : Host.Outcome State Fault Refusal :=
  .next (
    match s.cohort? cid co with
    | none => s
    | some h =>
      if !h.closing then s
      else
        let ended (f : Cohort → Cohort) (s : State) : State :=
          s.modCohort cid co fun h => f { h with closing := false, closeOwn := none }
        match s.closeDecision cid co h.closeOwn with
        | .wait => s
        | .restart => ended id (s.suspectRestart cid co)
        | .commit =>
          let s := s.commitRegion cid co h.rgn.reopen
          if h.parked.isSome then ended (fun h => { h with ready := true }) s
          else (ended id s).enterTraps cid co)

/-- DEBUG_RESUME (R386): firmware resumes a crew that a debug match stopped. -/
def execDebugResume (cid : Nat) (s : State) : Host.Outcome State Fault Refusal :=
  .next (
    match smGet s.crews cid with
    | some c => if c.st = .debug && c.leaving.isNone then s.modCrew cid fun c => { c with st := .running } else s
    | none => s)

/-! Deadlines (R145). -/

/-- The thread that takes a crew's deadline traps: the live one of lowest number. -/
def Crew.firstLive (c : Crew) : Option (Nat × Nat) :=
  (c.cohorts.zipIdx).findSome? fun h => (lanesOf h.1.live).head?.map fun i => (h.2, i.val)

/-- The trap of comparator `i` (R145, R380). -/
def deadlineTrap (i d : Nat) : TrapRec :=
  { cause := cDeadline, addr := BitVec.ofNat 64 d, trpc := 0, rpc := 0, rslot := 0, skip := false, rank := 4, ord := 8 * d + i,
    peer := none, inRgn := false }

/-- DEADLINE (R145): an armed comparator whose deadline `%time` has reached fires once; its EN is cleared. -/
def execDeadline (cid i : Nat) (s : State) : Host.Outcome State Fault Refusal :=
  .next (
    match smGet s.crews cid with
    | none => s
    | some c =>
      let d := c.dline[i]?.getD 0
      if !d.getLsbD 63 || decide (s.time < fld d 62 0) then s
      else
        let s := s.modCrew cid fun c =>
          { c with dline := c.dline.setIfInBounds i (BitVec.ofNat 64 (fld d 62 0)),
                   dlstat := c.dlstat ||| BitVec.ofNat 4 (2 ^ i) }
        match c.firstLive with
        | some (co, lane) => s.dueTrap cid co lane (deadlineTrap i (fld d 62 0))
        | none => s)

/-! Grid barriers (R353, R354). -/

/-- A thread waits at a generation before the present one. -/
def Thread.pastGen (gen : Nat) (th : Thread) : Bool := th.live && th.holds.any fun x => match x with | .gbar g => decide (g < gen) | _ => false

/-- The threads of a crew that a completed generation holds are released together, with the acquire of R260. -/
def State.releaseGbar (s : State) (cid gen : Nat) : State :=
  match smGet s.crews cid with
  | none => s
  | some c =>
    let grp := s.nextId
    forL c.cohorts.zipIdx s.fresh fun h s =>
      let m := laneFilter h.1.live fun i => (h.1.threads[i]).pastGen gen
      if m = 0 then s
      else
        let kept : Hold → Bool := fun x => match x with | .gbar g => decide (gen ≤ g) | _ => true
        let s := s.modLanes cid h.2 m fun _ th => { th with grp := grp, holds := th.holds.filter kept }
        let s := s.modCohort cid h.2 fun h =>
          { h with rgn := { h.rgn with starts := h.rgn.starts.map fun st => { st with holds := st.holds.filter kept } } }
        s.startFence cid h.2 0 m 0
          { hold := true, rel := false, acq := true, scope := 3, ranges := none, step := 0, waits := [], next := .done }

/-- Some thread of a grid is still held by a completed generation. -/
def State.gbarHeld (s : State) (gid gen : Nat) : Bool :=
  s.crews.any fun x => x.2.grid = gid && x.2.cohorts.any fun h => h.threads.any fun th => th.pastGen gen

/-- GBAR_RELEASE (R353): the crews of a release group are released once T + group × `%gbstag` has come; not while the partition
is being reshaped (R414). -/
def execGbarRelease (grid group : Nat) (s : State) : Host.Outcome State Fault Refusal :=
  .next (
    match smGet s.grids grid with
    | none => s
    | some g =>
      match g.gbDone, smGet s.parts g.part with
      | some t, some q =>
        let n := max 1 (fld q.gbgrp 4 0)
        if q.qst = 1 || q.qst = 2 || q.qst = 4 || n ≤ group || s.time < t + group * q.gbstag.toNat then s
        else
          let l := s.crews.filter fun x => x.2.grid = grid && x.2.lcl % n = group && (x.2.st = .running || x.2.st = .debug)
          let s := forL l s fun x s => s.releaseGbar x.1 g.gbGen
          if s.gbarHeld grid g.gbGen then s else s.modGrid grid fun g => { g with gbDone := none }
      | _, _ => s)

/-- Some crew of a grid has not started (R352). -/
def State.unstarted (s : State) (gid : Nat) (g : Grid) : Bool :=
  decide (g.retiredCrews + (s.crews.filter fun x => x.2.grid = gid).length < g.crewCount)

/-- GBAR_STALL (R354): a generation that has waited 1 ms for unplaced crews without one starting; every crew of the grid
faults, in one record (R316). -/
def execGbarStall (grid : Nat) (s : State) : Host.Outcome State Fault Refusal :=
  .next (
    match smGet s.grids grid with
    | none => s
    | some g =>
      if g.gbArr = [] || g.aborted.isSome || !s.unstarted grid g || s.time < g.gbSince + 1000000 then s
      else
        match s.crews.find? fun x => x.2.grid = grid with
        | some x => s.fatal x.1 cCyclicWait 0 0
        | none => s)

/-! Channels (R356). -/

/-- Overflow blocks in use by a crew's channels. -/
def Crew.blocks (c : Crew) : Nat := c.chans.foldl (fun n ch => n + ch.blocks.length) 0

/-- The header of the clause at which a thread stands, and its slots; none when it cannot be read, or breaks a check. -/
def State.standsAt (s : State) (c : Crew) (th : Thread) : Option (W64 × List SlotWord) :=
  match s.fetchClause c.p (asidOf c.part c.space) th.pc with
  | .done (_, hdr, words) =>
    let slots := parseSlots false 0 words
    if (hdrFault hdr).isNone && (bpmFault hdr slots).isNone then some (hdr, slots) else none
  | _ => none

/-- A cohort's next clause waits for room in a channel (R22 step 2, R356). -/
def State.waitsRoom (s : State) (c : Crew) (cid n : Nat) (h : Cohort) : Bool :=
  (lanesOf h.live).any fun i =>
    let th := h.threads[i]
    th.unheld &&
      (match s.standsAt c th with
       | some (_, slots) => (s.chanShort c.p cid c h (slots.filter fun x => decide (th.slot ≤ x.1))).2.contains n
       | none => false)

/-- The cohorts that wait to push onto a channel, a bit for each (R383). -/
def State.pushers (s : State) (c : Crew) (cid n : Nat) : Nat :=
  (c.cohorts.zipIdx).foldl (fun m h => if s.waitsRoom c cid n h.1 then m + 2 ^ h.2 else m) 0

/-- CHANNEL_GROW (R356): a pusher that has waited 4,096 cluster cycles gets a free block of the overflow area, or the crew
faults CYCLIC_WAIT, naming cohorts and channel (R383). -/
def execChannelGrow (cid ch : Nat) (s : State) : Host.Outcome State Fault Refusal :=
  .next (
    match smGet s.crews cid with
    | none => s
    | some c =>
      let x := c.chans[ch]?.getD default
      match x.wait with
      | some t =>
        if 8 ≤ ch || !s.cyclesPast c.p t 4096 then s
        else if x.room ≠ 0 then s.modCrew cid fun c => { c with chans := c.chans.setIfInBounds ch { x with wait := none } }
        else if c.blocks < 32 then
          s.modCrew cid fun c => { c with chans := c.chans.setIfInBounds ch x.grow }
        else s.fatal cid cCyclicWait 0 (ch * 2 ^ 48 + s.pushers c cid ch)
      | none => s)

/-! The wait detector (R359). -/

/-- A thread is held in the sense of R359: by a join or a barrier wait, or standing before a clause whose channel or rendezvous
keeps it. -/
def State.blockedAt (s : State) (c : Crew) (cid co : Nat) (h : Cohort) (i : Fin 32) : Bool :=
  let th := h.threads[i]
  if !th.holds.isEmpty then
    th.holds.all fun x =>
      match x with
      | .join _ => true
      | .bar _ _ => !s.holdOver c th x
      | _ => false
  else if th.trap.isSome || !th.due.isEmpty then false
  else
    match s.standsAt c th with
    | some (hdr, slots) =>
      let rest (j : Fin 32) : List SlotWord := slots.filter fun x => decide ((h.threads[j]).slot ≤ x.1)
      let ready (j : Fin 32) : Bool := s.laneReady h.tile cid co hdr (rest j) j.val h.threads[j]
      ready i &&
        (let short := s.chanShort c.p cid c h (rest i)
         !short.1.isEmpty || !short.2.isEmpty ||
          ((rendezvousOf (rest i)).isSome && !(completeSets h th.pc (fun j => rendezvousOf (rest j))
            (laneFilter h.live fun j => (h.threads[j]).unheld && decide ((h.threads[j]).pc = th.pc) && ready j)).getLsbD i))
    | none => false

/-- A job or card names a crew as one that receives, or was posted by it, and has not ended. -/
def State.jobsFor (s : State) (cid : Nat) : Bool :=
  (s.clusters.any fun x => x.2.cp.any fun j => !j.2.st.over && (j.2.cid = cid || j.2.recv.any fun r => r.1 = some cid)) ||
    s.mxEntries.any fun x => !x.2.2.st.over && (x.2.2.cid = cid || x.2.2.owner = cid || (s.mxReceivers x.2.2).contains (some cid))

/-- Both conditions of R359 hold now. -/
def State.deadlocked (s : State) (cid : Nat) (c : Crew) : Bool :=
  s.crewRuns c && s.idleCrew cid c && c.cohorts.any (fun h => h.live ≠ 0) && c.cohorts.all (fun h => !h.closing) &&
    (c.cohorts.zipIdx).all (fun h => (lanesOf h.1.live).all fun i => s.blockedAt c cid h.2 h.1 i) &&
    !s.jobsFor cid && !(s.reqs.any fun r => r.2.cid = cid) && !(s.pends.any fun x => x.2.cid = cid) &&
    !(s.fab.any fun x => match x.2.use with | .thread i _ _ _ => decide (i = cid) | .drain l => l.any (fun y => y.1 = cid) | _ => false) &&
    c.dline.all fun d => !d.getLsbD 63

/-- CYCLIC_WAIT_DETECT (R359): the detector of a crew; 65,536 cluster cycles after it found both conditions met, and they still
are, the crew faults, naming its live cohorts (R383). -/
def execCyclicWaitDetect (cid : Nat) (s : State) : Host.Outcome State Fault Refusal :=
  .next (
    match smGet s.crews cid with
    | none => s
    | some c =>
      if !s.deadlocked cid c then (if c.wdBlocked.isSome then s.modCrew cid fun c => { c with wdBlocked := none } else s)
      else
        match c.wdBlocked with
        | none => s.modCrew cid fun c => { c with wdBlocked := some (s.clock c.p) }
        | some t =>
          if !s.cyclesPast c.p t 65536 then s
          else
            s.fatal cid cCyclicWait 0
              ((c.cohorts.zipIdx).foldl (fun m h => if h.1.live ≠ 0 then m + 2 ^ h.2 else m) 0))

end Sys2Proof.Machine
end

