-- ==== Sys2Proof/Machine/Dispatch.lean ====
section
/-!
DEFINITION. Sys2Proof/Machine/Dispatch.lean: one arm per constructor of Instr.
-/

namespace Sys2Proof.Machine

def exec (i : Instr) (s : State) : Host.Outcome State Fault Refusal :=
  match i with
  | .nop f => Sys2Proof.Machine.execNop f s
  | .br f => Sys2Proof.Machine.execBr f s
  | .jmp f => Sys2Proof.Machine.execJmp f s
  | .call f => Sys2Proof.Machine.execCall f s
  | .callr f => Sys2Proof.Machine.execCallr f s
  | .ret f => Sys2Proof.Machine.execRet f s
  | .rjnEnrol f => Sys2Proof.Machine.execRjnEnrol f s
  | .rjnWait f => Sys2Proof.Machine.execRjnWait f s
  | .rjnLeave f => Sys2Proof.Machine.execRjnLeave f s
  | .exit f => Sys2Proof.Machine.execExit f s
  | .yield f => Sys2Proof.Machine.execYield f s
  | .tileSet f => Sys2Proof.Machine.execTileSet f s
  | .fwait f => Sys2Proof.Machine.execFwait f s
  | .rgnOpen f => Sys2Proof.Machine.execRgnOpen f s
  | .rgnClose f => Sys2Proof.Machine.execRgnClose f s
  | .launch f => Sys2Proof.Machine.execLaunch f s
  | .cwait f => Sys2Proof.Machine.execCwait f s
  | .dbnz f => Sys2Proof.Machine.execDbnz f s
  | .trap f => Sys2Proof.Machine.execTrap f s
  | .trapret f => Sys2Proof.Machine.execTrapret f s
  | .brkpt f => Sys2Proof.Machine.execBrkpt f s
  | .add f => Sys2Proof.Machine.execAdd f s
  | .sub f => Sys2Proof.Machine.execSub f s
  | .mul f => Sys2Proof.Machine.execMul f s
  | .mad f => Sys2Proof.Machine.execMad f s
  | .min f => Sys2Proof.Machine.execMin f s
  | .max f => Sys2Proof.Machine.execMax f s
  | .addc f => Sys2Proof.Machine.execAddc f s
  | .subb f => Sys2Proof.Machine.execSubb f s
  | .mulh f => Sys2Proof.Machine.execMulh f s
  | .bfx f => Sys2Proof.Machine.execBfx f s
  | .cmp f => Sys2Proof.Machine.execCmp f s
  | .abs f => Sys2Proof.Machine.execAbs f s
  | .neg f => Sys2Proof.Machine.execNeg f s
  | .sar f => Sys2Proof.Machine.execSar f s
  | .and f => Sys2Proof.Machine.execAnd f s
  | .or f => Sys2Proof.Machine.execOr f s
  | .xor f => Sys2Proof.Machine.execXor f s
  | .andn f => Sys2Proof.Machine.execAndn f s
  | .orn f => Sys2Proof.Machine.execOrn f s
  | .not f => Sys2Proof.Machine.execNot f s
  | .shl f => Sys2Proof.Machine.execShl f s
  | .shr f => Sys2Proof.Machine.execShr f s
  | .rol f => Sys2Proof.Machine.execRol f s
  | .ror f => Sys2Proof.Machine.execRor f s
  | .fsh f => Sys2Proof.Machine.execFsh f s
  | .bfi f => Sys2Proof.Machine.execBfi f s
  | .popc f => Sys2Proof.Machine.execPopc f s
  | .clz f => Sys2Proof.Machine.execClz f s
  | .ctz f => Sys2Proof.Machine.execCtz f s
  | .brev f => Sys2Proof.Machine.execBrev f s
  | .sel f => Sys2Proof.Machine.execSel f s
  | .movk f => Sys2Proof.Machine.execMovk f s
  | .lea f => Sys2Proof.Machine.execLea f s
  | .mov f => Sys2Proof.Machine.execMov f s
  | .fadd f => Sys2Proof.Machine.execFadd f s
  | .fsub f => Sys2Proof.Machine.execFsub f s
  | .fmul f => Sys2Proof.Machine.execFmul f s
  | .ffma f => Sys2Proof.Machine.execFfma f s
  | .fmin f => Sys2Proof.Machine.execFmin f s
  | .fmax f => Sys2Proof.Machine.execFmax f s
  | .fabs f => Sys2Proof.Machine.execFabs f s
  | .fneg f => Sys2Proof.Machine.execFneg f s
  | .fcsgn f => Sys2Proof.Machine.execFcsgn f s
  | .fcmp f => Sys2Proof.Machine.execFcmp f s
  | .fclass f => Sys2Proof.Machine.execFclass f s
  | .frnd f => Sys2Proof.Machine.execFrnd f s
  | .fscale f => Sys2Proof.Machine.execFscale f s
  | .fexpo f => Sys2Proof.Machine.execFexpo f s
  | .fdot2 f => Sys2Proof.Machine.execFdot2 f s
  | .fdot4 f => Sys2Proof.Machine.execFdot4 f s
  | .cvt f => Sys2Proof.Machine.execCvt f s
  | .cvtPk f => Sys2Proof.Machine.execCvtPk f s
  | .cvtSr f => Sys2Proof.Machine.execCvtSr f s
  | .mxq f => Sys2Proof.Machine.execMxq f s
  | .mxdq f => Sys2Proof.Machine.execMxdq f s
  | .pack f => Sys2Proof.Machine.execPack f s
  | .unpack f => Sys2Proof.Machine.execUnpack f s
  | .shflIdx f => Sys2Proof.Machine.execShflIdx f s
  | .shflUp f => Sys2Proof.Machine.execShflUp f s
  | .shflDn f => Sys2Proof.Machine.execShflDn f s
  | .shflXor f => Sys2Proof.Machine.execShflXor f s
  | .voteAny f => Sys2Proof.Machine.execVoteAny f s
  | .voteAll f => Sys2Proof.Machine.execVoteAll f s
  | .voteBal f => Sys2Proof.Machine.execVoteBal f s
  | .voteEq f => Sys2Proof.Machine.execVoteEq f s
  | .redx f => Sys2Proof.Machine.execRedx f s
  | .scanx f => Sys2Proof.Machine.execScanx f s
  | .xpose f => Sys2Proof.Machine.execXpose f s
  | .perm f => Sys2Proof.Machine.execPerm f s
  | .rdlane f => Sys2Proof.Machine.execRdlane f s
  | .wrlane f => Sys2Proof.Machine.execWrlane f s
  | .frcp f => Sys2Proof.Machine.execFrcp f s
  | .frsq f => Sys2Proof.Machine.execFrsq f s
  | .fsqrt f => Sys2Proof.Machine.execFsqrt f s
  | .fdiv f => Sys2Proof.Machine.execFdiv f s
  | .fex2 f => Sys2Proof.Machine.execFex2 f s
  | .flg2 f => Sys2Proof.Machine.execFlg2 f s
  | .fsin f => Sys2Proof.Machine.execFsin f s
  | .fcos f => Sys2Proof.Machine.execFcos f s
  | .ftanh f => Sys2Proof.Machine.execFtanh f s
  | .fsig f => Sys2Proof.Machine.execFsig f s
  | .ferf f => Sys2Proof.Machine.execFerf f s
  | .ld f => Sys2Proof.Machine.execLd f s
  | .st f => Sys2Proof.Machine.execSt f s
  | .ldu f => Sys2Proof.Machine.execLdu f s
  | .lds f => Sys2Proof.Machine.execLds f s
  | .sts f => Sys2Proof.Machine.execSts f s
  | .pref f => Sys2Proof.Machine.execPref f s
  | .bind f => Sys2Proof.Machine.execBind f s
  | .unbind f => Sys2Proof.Machine.execUnbind f s
  | .fence f => Sys2Proof.Machine.execFence f s
  | .stashMap f => Sys2Proof.Machine.execStashMap f s
  | .stashUnmap f => Sys2Proof.Machine.execStashUnmap f s
  | .stashWb f => Sys2Proof.Machine.execStashWb f s
  | .stashInv f => Sys2Proof.Machine.execStashInv f s
  | .atom f => Sys2Proof.Machine.execAtom f s
  | .red f => Sys2Proof.Machine.execRed f s
  | .cas f => Sys2Proof.Machine.execCas f s
  | .atoms f => Sys2Proof.Machine.execAtoms f s
  | .cass f => Sys2Proof.Machine.execCass f s
  | .redFlush f => Sys2Proof.Machine.execRedFlush f s
  | .cp f => Sys2Proof.Machine.execCp f s
  | .cp2d f => Sys2Proof.Machine.execCp2d f s
  | .cpGth f => Sys2Proof.Machine.execCpGth f s
  | .cpSct f => Sys2Proof.Machine.execCpSct f s
  | .cpMc f => Sys2Proof.Machine.execCpMc f s
  | .cpSp f => Sys2Proof.Machine.execCpSp f s
  | .cpRt f => Sys2Proof.Machine.execCpRt f s
  | .cpFill f => Sys2Proof.Machine.execCpFill f s
  | .cpStat f => Sys2Proof.Machine.execCpStat f s
  | .cpCancel f => Sys2Proof.Machine.execCpCancel f s
  | .mxPost f => Sys2Proof.Machine.execMxPost f s
  | .mxTeam f => Sys2Proof.Machine.execMxTeam f s
  | .mxDrain f => Sys2Proof.Machine.execMxDrain f s
  | .mxZero f => Sys2Proof.Machine.execMxZero f s
  | .mxStat f => Sys2Proof.Machine.execMxStat f s
  | .mxCancel f => Sys2Proof.Machine.execMxCancel f s
  | .barInit f => Sys2Proof.Machine.execBarInit f s
  | .barArr f => Sys2Proof.Machine.execBarArr f s
  | .barExp f => Sys2Proof.Machine.execBarExp f s
  | .barWait f => Sys2Proof.Machine.execBarWait f s
  | .barTest f => Sys2Proof.Machine.execBarTest f s
  | .gbar f => Sys2Proof.Machine.execGbar f s
  | .chnBind f => Sys2Proof.Machine.execChnBind f s
  | .chnPop f => Sys2Proof.Machine.execChnPop f s
  | .chnTry f => Sys2Proof.Machine.execChnTry f s
  | .chnCnt f => Sys2Proof.Machine.execChnCnt f s
  | .alwBind f => Sys2Proof.Machine.execAlwBind f s
  | .alwTest f => Sys2Proof.Machine.execAlwTest f s
  | .alwRd f => Sys2Proof.Machine.execAlwRd f s
  | .ldf f => Sys2Proof.Machine.execLdf f s
  | .stf f => Sys2Proof.Machine.execStf f s
  | .atomf f => Sys2Proof.Machine.execAtomf f s
  | .casf f => Sys2Proof.Machine.execCasf f s
  | .fcp f => Sys2Proof.Machine.execFcp f s
  | .wcbFlush f => Sys2Proof.Machine.execWcbFlush f s
  | .fpeer f => Sys2Proof.Machine.execFpeer f s
  | .sealOpen f => Sys2Proof.Machine.execSealOpen f s
  | .sealAbs f => Sys2Proof.Machine.execSealAbs f s
  | .sealFin f => Sys2Proof.Machine.execSealFin f s
  | .sealAbt f => Sys2Proof.Machine.execSealAbt f s
  | .sysrd f => Sys2Proof.Machine.execSysrd f s
  | .syswr f => Sys2Proof.Machine.execSyswr f s
  | .icinv f => Sys2Proof.Machine.execIcinv f s
  | .rtDef f => Sys2Proof.Machine.execRtDef f s
  | .fuseRd f => Sys2Proof.Machine.execFuseRd f s
  | .keyWipe f => Sys2Proof.Machine.execKeyWipe f s
  | .measExt f => Sys2Proof.Machine.execMeasExt f s
  | .sigVfy f => Sys2Proof.Machine.execSigVfy f s
  | .dbgOpen f => Sys2Proof.Machine.execDbgOpen f s
  | .halt f => Sys2Proof.Machine.execHalt f s
  | .bundleSelect k => Sys2Proof.Machine.execBundleSelect k s
  | .debugResume cid => Sys2Proof.Machine.execDebugResume cid s
  | .resultDelivery id => Sys2Proof.Machine.execResultDelivery id s
  | .clusterFailing p => Sys2Proof.Machine.execClusterFailing p s
  | .regionClose cid co => Sys2Proof.Machine.execRegionClose cid co s
  | .coldStart => Sys2Proof.Machine.execColdStart s
  | .selfTestPass r n => Sys2Proof.Machine.execSelfTestPass r n s
  | .resourceFail r n => Sys2Proof.Machine.execResourceFail r n s
  | .acquire part m => Sys2Proof.Machine.execAcquire part m s
  | .release part m => Sys2Proof.Machine.execRelease part m s
  | .map part m => Sys2Proof.Machine.execMap part m s
  | .unmap part m => Sys2Proof.Machine.execUnmap part m s
  | .protect part m => Sys2Proof.Machine.execProtect part m s
  | .migrate part m => Sys2Proof.Machine.execMigrate part m s
  | .refuse part m => Sys2Proof.Machine.execRefuse part m s
  | .rowClearDone ch frame => Sys2Proof.Machine.execRowClearDone ch frame s
  | .pageWalkEnd sl walk => Sys2Proof.Machine.execPageWalkEnd sl walk s
  | .homeSliceRequest sl id => Sys2Proof.Machine.execHomeSliceRequest sl id s
  | .lineFillDone sl key => Sys2Proof.Machine.execLineFillDone sl key s
  | .patrolScrub ch line bad corrected => Sys2Proof.Machine.execPatrolScrub ch line bad corrected s
  | .dramRefresh ch group => Sys2Proof.Machine.execDramRefresh ch group s
  | .routeFlits plane site bad => Sys2Proof.Machine.execRouteFlits plane site bad s
  | .injectionStarvation plane site => Sys2Proof.Machine.execInjectionStarvation plane site s
  | .sinkEject plane site => Sys2Proof.Machine.execSinkEject plane site s
  | .copyJobStart p slot => Sys2Proof.Machine.execCopyJobStart p slot s
  | .copyGranuleLand p slot g => Sys2Proof.Machine.execCopyGranuleLand p slot g s
  | .copyJobEnd p slot => Sys2Proof.Machine.execCopyJobEnd p slot s
  | .routeStationForward p slot station g => Sys2Proof.Machine.execRouteStationForward p slot station g s
  | .mappedLineFill p line => Sys2Proof.Machine.execMappedLineFill p line s
  | .writeBackStep p line g => Sys2Proof.Machine.execWriteBackStep p line g s
  | .deadline cid n => Sys2Proof.Machine.execDeadline cid n s
  | .mandrelCycle p => Sys2Proof.Machine.execMandrelCycle p s
  | .mxStep p slot => Sys2Proof.Machine.execMxStep p slot s
  | .mxWriteOut p slot g => Sys2Proof.Machine.execMxWriteOut p slot g s
  | .mxChannelPush p slot => Sys2Proof.Machine.execMxChannelPush p slot s
  | .mxCardEnd p slot => Sys2Proof.Machine.execMxCardEnd p slot s
  | .fabricEgressRoute id port => Sys2Proof.Machine.execFabricEgressRoute id port s
  | .fabricIngress port pkt => Sys2Proof.Machine.execFabricIngress port pkt s
  | .fabricAck id ack => Sys2Proof.Machine.execFabricAck id ack s
  | .linkTrain port ok partner => Sys2Proof.Machine.execLinkTrain port ok partner s
  | .linkFlitRetry port ok => Sys2Proof.Machine.execLinkFlitRetry port ok s
  | .fabricTimeout id => Sys2Proof.Machine.execFabricTimeout id s
  | .resetNotice part mod rtag inc => Sys2Proof.Machine.execResetNotice part mod rtag inc s
  | .peerIncarnation mod rtag inc => Sys2Proof.Machine.execPeerIncarnation mod rtag inc s
  | .peerJoin part pid entry entry2 => Sys2Proof.Machine.execPeerJoin part pid entry entry2 s
  | .wcbAgeDrain p key => Sys2Proof.Machine.execWcbAgeDrain p key s
  | .allowanceRefill p => Sys2Proof.Machine.execAllowanceRefill p s
  | .congestionMark mark => Sys2Proof.Machine.execCongestionMark mark s
  | .rateRecovery p => Sys2Proof.Machine.execRateRecovery p s
  | .congestionWindow point => Sys2Proof.Machine.execCongestionWindow point s
  | .hostLaunchFetch part space => Sys2Proof.Machine.execHostLaunchFetch part space s
  | .stampTimeout part queue => Sys2Proof.Machine.execStampTimeout part queue s
  | .dispatch part => Sys2Proof.Machine.execDispatch part s
  | .reservationTimeout part => Sys2Proof.Machine.execReservationTimeout part s
  | .crewQueueStart p => Sys2Proof.Machine.execCrewQueueStart p s
  | .stealRequest p => Sys2Proof.Machine.execStealRequest p s
  | .stealVictim p => Sys2Proof.Machine.execStealVictim p s
  | .stealReply p => Sys2Proof.Machine.execStealReply p s
  | .crewRetire cid => Sys2Proof.Machine.execCrewRetire cid s
  | .cwaitResume cid => Sys2Proof.Machine.execCwaitResume cid s
  | .gbarRelease grid group => Sys2Proof.Machine.execGbarRelease grid group s
  | .zoneCheckpoint grid => Sys2Proof.Machine.execZoneCheckpoint grid s
  | .gbarStall grid => Sys2Proof.Machine.execGbarStall grid s
  | .channelGrow cid ch => Sys2Proof.Machine.execChannelGrow cid ch s
  | .cyclicWaitDetect cid => Sys2Proof.Machine.execCyclicWaitDetect cid s
  | .squallTrip p hard => Sys2Proof.Machine.execSquallTrip p hard s
  | .squallStretchEnd p => Sys2Proof.Machine.execSquallStretchEnd p s
  | .suspectWindowEnd p => Sys2Proof.Machine.execSuspectWindowEnd p s
  | .zoneOvercurrent z current => Sys2Proof.Machine.execZoneOvercurrent z current s
  | .dutyRestore z => Sys2Proof.Machine.execDutyRestore z s
  | .packagePowerLimit watts => Sys2Proof.Machine.execPackagePowerLimit watts s
  | .zoneLost z => Sys2Proof.Machine.execZoneLost z s
  | .create c => Sys2Proof.Machine.execCreate c s
  | .grow part c => Sys2Proof.Machine.execGrow part c s
  | .shrink part c => Sys2Proof.Machine.execShrink part c s
  | .compact part moves => Sys2Proof.Machine.execCompact part moves s
  | .quiesce part => Sys2Proof.Machine.execQuiesce part s
  | .resume part => Sys2Proof.Machine.execResume part s
  | .setqos part qp cmthr => Sys2Proof.Machine.execSetqos part qp cmthr s
  | .reset part => Sys2Proof.Machine.execReset part s
  | .resetMeshDrained part => Sys2Proof.Machine.execResetMeshDrained part s
  | .destroy part => Sys2Proof.Machine.execDestroy part s
  | .incarnationHoldExpiry part => Sys2Proof.Machine.execIncarnationHoldExpiry part s
  | .quiesceDone part => Sys2Proof.Machine.execQuiesceDone part s
  | .resumeDone part => Sys2Proof.Machine.execResumeDone part s
  | .sliceEnd part => Sys2Proof.Machine.execSliceEnd part s
  | .queueEnable part queue en => Sys2Proof.Machine.execQueueEnable part queue en s
  | .queueReset part queue => Sys2Proof.Machine.execQueueReset part queue s
  | .queueWpWrite part queue wp => Sys2Proof.Machine.execQueueWpWrite part queue wp s
  | .queueRpWrite part queue rp => Sys2Proof.Machine.execQueueRpWrite part queue rp s
  | .registerWrite part queue word v => Sys2Proof.Machine.execRegisterWrite part queue word v s
  | .bar0UnlistedAccess part off wr v => Sys2Proof.Machine.execBar0UnlistedAccess part off wr v s
  | .msixUnmask part vec => Sys2Proof.Machine.execMsixUnmask part vec s
  | .tdispMessage part m => Sys2Proof.Machine.execTdispMessage part m s
  | .spdmGetMeasurements part index nonce => Sys2Proof.Machine.execSpdmGetMeasurements part index nonce s
  | .hostWrite part space va data => Sys2Proof.Machine.execHostWrite part space va data s
  | .sealAbsorbEnd p ctx => Sys2Proof.Machine.execSealAbsorbEnd p ctx s
  | .sealSign p ctx => Sys2Proof.Machine.execSealSign p ctx s
  | .fabricRailDown => Sys2Proof.Machine.execFabricRailDown s
  | .hostCompletion id ok data => Sys2Proof.Machine.execHostCompletion id ok data s
  | .zeroingDone p => Sys2Proof.Machine.execZeroingDone p s

end Sys2Proof.Machine
end

