-- ==== Sys2Proof/Machine/Step.lean ====
section
/-!
DEFINITION. Sys2Proof/Machine/Step.lean: one step of the machine: the agent whose turn it is acts (log 3). While the fabric
rail is down nothing runs but the next cold start (R11).
-/

namespace Sys2Proof.Machine

/-- The step of a turn. -/
def stepTurn (t : Turn) (s : State) : Host.Outcome State Fault Refusal :=
  match t with
  | .issue k =>
    match s.nextSlot k with
    | (s, none) => .next s
    | (s, some i) => exec i { s with cur := some k }
  | .mapRecord part =>
    match s.nextMapping part with
    | (s, none) => .next s
    | (s, some i) => exec i s
  | .ev i => exec i s

/-- One step (R7, R11). -/
def step (s : State) : Host.Outcome State Fault Refusal :=
  if s.rail || decide (s.turn = .ev .coldStart) then stepTurn s.turn s.advance else .fault .railDown

/-- `s` with an instruction stored where `step` fetches its next one (log 1). -/
def State.withFetchWord (s : State) (nbits w : Nat) : State := s.placeWord nbits w

end Sys2Proof.Machine
end

