-- ==== Sys2Proof/Safety.lean ====
section
/-!
DEFINITION. Sys2Proof/Safety.lean: what counts as a safe state and a safe step, and the terms the claims use: where a slot
executes, what a destination holds after it, and what it leaves alone.
-/

namespace Sys2Proof

open Machine

/-- A state the invariants speak of: memory in its canonical form. -/
def SafeState (s : State) : Prop := Memory.wf s.mem = true

/-- A step that goes on: neither a fault nor a refusal. -/
def StepsTo (s t : State) : Prop := step s = .next t

/-- An instruction completes at a state: `exec` answers a next state. -/
def Completes (i : Instr) (s : State) : Prop := ∃ t, exec i s = .next t

/-! Where a slot executes. -/

/-- An issue slice with its clause in progress, the clause's crew and its cohort. -/
structure At where
  k : Nat
  r : Run
  c : Crew
  h : Cohort

/-- What the operand checks read of the crew and its cohort (R33, R140). -/
def At.env (b : At) : Env := { regs := b.c.regs, bound := fun i => b.h.ch[i].isSome }

/-- The slot of an instruction that executes there: operands read as R33 to R35 say, lanes executing as R29 says. -/
def At.slot (b : At) (o : Op) (f : Fields) (s : State) : Slot :=
  let sp := opSpec o f
  let lat := Vector.ofFn fun i : Fin 32 => b.h.threads[i].latch
  let ra := readLanes s b.c b.h b.r.tile b.r.co lat (popWord b.c b.h [] f.a.sel) (SrcSpec.fmt sp.a) f.lit f.a.sel
  let rb := readLanes s b.c b.h b.r.tile b.r.co ra.2 (popWord b.c b.h [f.a.sel] f.b.sel) (SrcSpec.fmt sp.b) f.lit f.b.sel
  let rc := readLanes s b.c b.h b.r.tile b.r.co rb.2 (popWord b.c b.h [f.a.sel, f.b.sel] f.c.sel) (SrcSpec.fmt sp.c) f.lit
    f.c.sel
  { k := b.k, p := b.k / 6, sl := b.k % 6, cid := b.r.cid, co := b.r.co, o := o, f := f, run := b.r, crew := b.c, coh := b.h,
    lanes := b.r.lanes, ex := laneFilter b.r.lanes fun i => (b.h.threads[i]).pred f.pk.val != f.pn,
    a := ra.1, b := rb.1, c := rc.1, lat := rc.2 }

/-- The bundle is at the slot and its word breaks no rule (R42, R43): the cluster has not halted (R442), no thread's
predicate is poisoned (R39), and an instruction of R365 finds no region open. -/
def SlotReady (o : Op) (f : Fields) (s : State) (b : At) : Prop :=
  s.cur = some b.k ∧ (s.cluster (b.k / 6)).halted = false ∧ (s.issue b.k).run = some b.r ∧
    smGet s.crews b.r.cid = some b.c ∧ s.cohort? b.r.cid b.r.co = some b.h ∧
    encFault b.env (decide (b.c.part = Config.svcTag)) o f = none ∧ b.r.lanes ≠ 0 ∧
    (∀ i : Fin 32, b.r.lanes.getLsbD i = true → (b.h.threads[i]).predPoison f.pk.val = false) ∧
    (needsClose o f = true → b.h.rgn.opened = false)

/-! What a destination holds. -/

/-- A cohort of a state. -/
def HasCohort (t : State) (x : Slot) (P : Cohort → Prop) : Prop := ∃ h, t.cohort? x.cid x.co = some h ∧ P h

/-- A thread of the slot's cohort. -/
def HasThread (t : State) (x : Slot) (i : Fin 32) (P : Thread → Prop) : Prop := HasCohort t x fun h => P h.threads[i]

/-- The crew of the slot. -/
def HasCrew (t : State) (x : Slot) (P : Crew → Prop) : Prop := ∃ c, smGet t.crews x.cid = some c ∧ P c

/-- Lane `i` is the lowest of the bundle (R38). -/
def Slot.lowest (x : Slot) (i : Fin 32) : Prop := (lanesOf x.lanes).head? = some i

/-- The value stands in the destination of an executing thread (R36, R38, R139, R140): a v register or pair and the queue's
newest entry, the queue alone, a predicate, an s register or pair, or the newest word of the channel. -/
def Delivered (t : State) (x : Slot) (i : Fin 32) (wide : Bool) (v : Val) : Prop :=
  match x.f.dst with
  | .v d => HasThread t x i fun th =>
      th.v[d] = { v := v.v.extractLsb' 0 32, p := v.p } ∧
        (wide = true → ∀ n : Fin 64, n.val = d.val + 1 → th.v[n] = { v := v.v.extractLsb' 32 32, p := v.p }) ∧
        th.q.head? = some { val := v.v, p := v.p, tr := false, pend := none }
  | .none => HasThread t x i fun th => th.q.head? = some { val := v.v, p := v.p, tr := x.f.dstT, pend := none }
  | .k d => HasThread t x i fun th => th.k[d] = { v := v.v.getLsbD 0, p := v.p }
  | .s d => Slot.lowest x i → HasCohort t x fun h =>
      h.s[d] = { v := v.v.extractLsb' 0 32, p := v.p } ∧
        (wide = true → ∀ n : Fin 96, n.val = d.val + 1 → h.s[n] = { v := v.v.extractLsb' 32 32, p := v.p })
  | .ch _ => ∀ n : Fin 8, chanOf x.coh x.f.dst = some n.val → HasCrew t x fun c =>
      ∃ w : Vector QEnt 32, (c.chans[n]).words.getLast? = some w ∧ w[i] = { val := v.v, p := v.p, tr := false, pend := none }
  | _ => True

/-! What a slot leaves alone. -/

/-- A v register that a source's last use turns to poison (R35). -/
def lastUsed (x : Src) (n : Nat) (r : Nat) : Bool :=
  match x.sel with
  | .v i => x.l && decide (i.val ≤ r) && decide (r < i.val + n)
  | _ => false

/-- A v register that the instruction writes: its destination, or the last use of a source. -/
def writesReg (o : Op) (f : Fields) (wide : Bool) (r : Nat) : Bool :=
  let sp := opSpec o f
  (match f.dst with | .v d => decide (r = d.val) || (wide && decide (r = d.val + 1)) | _ => false) ||
    lastUsed f.a (SrcSpec.span sp.a) r || lastUsed f.b (SrcSpec.span sp.b) r || lastUsed f.c (SrcSpec.span sp.c) r

/-- An s register that the instruction writes. -/
def writesUni (f : Fields) (wide : Bool) (r : Nat) : Bool :=
  match f.dst with
  | .s d => decide (r = d.val) || (wide && decide (r = d.val + 1))
  | _ => false

/-- Results on their way stay as they are, but for those of one crew: registers written since may be noted there, which the results
then leave alone (R135). -/
def OnlyStale (s t : State) (cid : Nat) : Prop :=
  ∃ l : Nat → Pend → List (Nat × BitVec 32),
    t.pends = smMap (fun id p => if p.cid = cid then { p with stale := p.stale ++ l id p } else p) s.pends

/-- Beyond one crew and its cluster nothing changes: no byte of memory, no special register, no other agent. -/
def OnlyCrew (s t : State) (cid p : Nat) : Prop :=
  t = { s with clusters := t.clusters, crews := t.crews, pends := t.pends } ∧ OnlyStale s t cid ∧ (∀ c, c ≠ cid → smGet t.crews c = smGet s.crews c) ∧
    (∀ q, q ≠ p → smGet t.clusters q = smGet s.clusters q) ∧ t.cluster p = { s.cluster p with sl := (t.cluster p).sl }

/-- Of the crew only its channels and one cohort change; of the cohort only threads, s registers, the operand cache and the
region, which without a close of R365 at most becomes suspect (R372). -/
def OnlyCohort (t : State) (x : Slot) (c0 : Crew) (h0 : Cohort) : Prop :=
  HasCrew t x fun c =>
    c = { c0 with cohorts := c.cohorts, chans := c.chans } ∧ (∀ j, j ≠ x.co → c.cohorts[j]? = c0.cohorts[j]?) ∧
      HasCohort t x fun h =>
        h = { h0 with threads := h.threads, s := h.s, opc := h.opc, rgn := h.rgn, rgnCount := h.rgnCount } ∧
          (needsClose x.o x.f = false → h.rgnCount = h0.rgnCount ∧ h.rgn = { h0.rgn with suspect := h.rgn.suspect })

/-- What the end of a slot leaves alone in a cohort: all but the destination, the last uses of the sources, the queues and
the time latches. In a thread the pc, the flags and every special register stay. -/
def OnlyRegs (h h0 : Cohort) (x : Slot) (wide : Bool) : Prop :=
  (∀ r : Fin 96, writesUni x.f wide r.val = false → h.s[r] = h0.s[r]) ∧
    ∀ i : Fin 32,
      h.threads[i] = { h0.threads[i] with v := (h.threads[i]).v, q := (h.threads[i]).q, k := (h.threads[i]).k,
                                          latch := (h.threads[i]).latch } ∧
      (x.lanes.getLsbD i = false → h.threads[i] = h0.threads[i]) ∧
      (x.ex.getLsbD i = false → (h.threads[i]).v = (h0.threads[i]).v ∧ (h.threads[i]).k = (h0.threads[i]).k ∧
        (h.threads[i]).latch = (h0.threads[i]).latch) ∧
      (∀ r : Fin 64, writesReg x.o x.f wide r.val = false → (h.threads[i]).v[r] = (h0.threads[i]).v[r]) ∧
      ∀ r : Fin 8, x.f.dst ≠ .k r → (h.threads[i]).k[r] = (h0.threads[i]).k[r]

/-- The frame of a slot's end from `s` to `t`: what lies beyond its crew, its crew and its cohort keep all but what the
slot's operands and destination write. -/
def RegFrame (s t : State) (x : Slot) (wide : Bool) : Prop :=
  OnlyCrew s t x.cid x.p ∧
    ∃ c0 h0, smGet s.crews x.cid = some c0 ∧ s.cohort? x.cid x.co = some h0 ∧ OnlyCohort t x c0 h0 ∧
      HasCohort t x fun h => OnlyRegs h h0 x wide

/-- A result that comes later stands in the destination of an executing thread (R133, R140): a placeholder at the head of
the queue, or in the channel's newest word. -/
def Awaited (t : State) (x : Slot) (i : Fin 32) (id : Nat) : Prop :=
  match x.f.dst with
  | .v _ | .none => HasThread t x i fun th => th.q.head? = some { val := 0, p := true, tr := x.f.dstT, pend := some id }
  | .ch _ => ∀ n : Fin 8, chanOf x.coh x.f.dst = some n.val → HasCrew t x fun c =>
      ∃ w : Vector QEnt 32, (c.chans[n]).words.getLast? = some w ∧
        w[i] = { val := 0, p := true, tr := false, pend := some id }
  | _ => True

/-- The instruction completes with an effect that makes `e` of the state, and no result: the slot ends there. -/
def Acts (i : Instr) (s e : State) (x : Slot) : Prop := ∃ t, exec i s = .next t ∧ RegFrame e t x false

/-- The instruction completes with an effect that makes `e` of the state and a result `id` that comes later (R23, R133):
each executing thread awaits it, and a result that nobody awaits leaves at once. -/
def Posts (i : Instr) (s e : State) (x : Slot) (wide : Bool) (id : Nat) : Prop :=
  ∃ u, exec i s = .next (u.settlePend id) ∧ RegFrame e u x wide ∧ smGet u.pends id = smGet e.pends id ∧ ∀ l : Fin 32, x.ex.getLsbD l = true → Awaited u x l id

/-- The instruction completes: each executing thread's destination holds its value, and nothing else changes. -/
def Results (i : Instr) (s : State) (x : Slot) (wide : Bool) (val : Fin 32 → Val) : Prop :=
  ∃ t, exec i s = .next t ∧ RegFrame s t x wide ∧ ∀ l : Fin 32, x.ex.getLsbD l = true → Delivered t x l wide (val l)

/-- An instruction whose executing lanes get a value computed from the slot completes so, for every form and every state in
which its slot is ready. -/
def Computes (o : Op) (c : Fields → Instr) (wide : Fields → Bool) (val : Fields → Slot → Fin 32 → Val) : Prop :=
  ∀ (f : Fields) (s : State) (b : At), SlotReady o f s b →
    Results (c f) s (b.slot o f s) (wide f) (val f (b.slot o f s))

/-- The exact sum that `addc` and `subb` form in a lane: A + B + C[0], or A - B - C[0] with `sg` -1 (R171). -/
def carryExact (f : Fields) (sg : Int) (x : Slot) (l : Fin 32) : Int :=
  intVal (Ty.signed f.ty) (Ty.shape f.ty).1 (x.a[l]).v.toNat +
    sg * (intVal (Ty.signed f.ty) (Ty.shape f.ty).1 (x.b[l]).v.toNat + (((x.c[l]).v.toNat % 2 : Nat) : Int))

/-- Its result: the sum modulo the width, poison from a poisoned source (R39, R171). -/
def carryResult (f : Fields) (sg : Int) (x : Slot) (l : Fin 32) : Val :=
  lift3 (fun _ _ _ => BitVec.ofNat 64 (intResult false (Ty.shape f.ty).1 false (carryExact f sg x l))) x.a[l] x.b[l] x.c[l]

/-- The carry, borrow or signed overflow of that sum; poison from a poisoned source (R39, R171). -/
def carryOut (f : Fields) (sg : Int) (x : Slot) (l : Fin 32) : R1 :=
  if (carryResult f sg x l).p then { v := true, p := true }
  else { v := carryFlag (Ty.signed f.ty) (Ty.shape f.ty).1 (carryExact f sg x l), p := false }

/-- What `cvt.sr` gives in a lane: each element rounded with the draw of its seed, lane and number, lane 0 on the uniform
unit (R167, R186). -/
def stochastic (f : Fields) (x : Slot) (l : Fin 32) : Val :=
  let lane := if Sel.isS f.dst then 0 else l.val
  let k := if f.m3 then 2 else 0
  let sr (seed v : W64) (e : Nat) : Nat :=
    roundSR (fvOf ffF32 (v.toNat % 2 ^ 32)) (Ty.ff f.ty) (seed.extractLsb' 0 32) lane e f.sat2
  if f.ty = .f16 ∨ f.ty = .bf16 then lift2 (fun a c => BitVec.ofNat 64 (sr c a 0)) x.a[l] x.c[l]
  else lift3 (fun a b c => pkPlace f.ty f.m3 (sr c a k) (sr c b (k + 1)) 0) x.a[l] x.b[l] x.c[l]

/-- A target that a control transfer may take (R308): exact, within 64 bits, canonical, a multiple of 8. -/
def GoodTarget (t : Int) : Prop := 0 ≤ t ∧ t < (2 : Int) ^ 64 ∧ isCanon (toW64 t) = true ∧ t % 8 = 0

/-- The instruction is a transfer: where its executing threads have clean operands and good targets it completes, they stand
at their targets, and beside their pcs nothing changes but its result, the return address of a call. -/
def Transfers (o : Op) (c : Fields → Instr) (clean : Slot → Fin 32 → Bool) (target : Slot → Fin 32 → Int)
    (link : Slot → Option W64) : Prop :=
  ∀ (f : Fields) (s : State) (b : At), SlotReady o f s b →
    (∀ l : Fin 32, (b.slot o f s).ex.getLsbD l = true →
      clean (b.slot o f s) l = true ∧ GoodTarget (target (b.slot o f s) l)) →
    ∃ u, exec (c f) s = .next (u.modLanes b.r.cid b.r.co (b.slot o f s).ex fun l th =>
          { th with pc := toW64 (target (b.slot o f s) l), slot := 0, resumed := false }) ∧
      RegFrame s u (b.slot o f s) (link (b.slot o f s)).isSome ∧
      ∀ l : Fin 32, (b.slot o f s).ex.getLsbD l = true → ∀ v, link (b.slot o f s) = some v →
        Delivered u (b.slot o f s) l true (Val.ok v)

/-- Executing threads act one after another in ascending lane order, each with a result (R114, R246, R343, R348); none where
one of them faults. -/
def laneRun (g : Fin 32 → State → Except Cause (State × W64)) :
    List (Fin 32) → State × SMap W64 → Option (State × SMap W64)
  | [], y => some y
  | i :: r, y =>
    match g i y.1 with
    | .error _ => none
    | .ok z => laneRun g r (z.1, smSet y.2 i.val z.2)

/-- The same without results. -/
def actRun (g : Fin 32 → State → Except Cause State) : List (Fin 32) → State → Option State
  | [], s => some s
  | i :: r, s =>
    match g i s with
    | .error _ => none
    | .ok t => actRun g r t

/-- The instruction completes for every form in every state where its slot is ready and no executing thread faults: the
executing threads perform `g` in lane order, and each awaits its result of one register, or for a predicate bit 0 of it. -/
def InTurn (o : Op) (c : Fields → Instr) (g : Fields → Slot → Fin 32 → State → Except Cause (State × W64)) : Prop :=
  ∀ (f : Fields) (s : State) (b : At), SlotReady o f s b → ∀ (e : State) (vals : SMap W64),
    laneRun (g f (b.slot o f s)) (lanesOf (b.slot o f s).ex) (s, []) = some (e, vals) →
    Posts (c f) s (e.addPend ((b.slot o f s).postPend (b.slot o f s).ex vals fun r => r.getLsbD 0)) (b.slot o f s) false
      e.nextId

/-- The same of an instruction without a result. -/
def ActsInTurn (o : Op) (c : Fields → Instr) (g : Fields → Slot → Fin 32 → State → Except Cause State) : Prop :=
  ∀ (f : Fields) (s : State) (b : At), SlotReady o f s b → ∀ e : State,
    actRun (g f (b.slot o f s)) (lanesOf (b.slot o f s).ex) s = some e → Acts (c f) s e (b.slot o f s)

/-- The results of the lanes of a mask. -/
def laneResults (m : BitVec 32) (val : Fin 32 → LaneRes) : SMap LaneRes :=
  forL (lanesOf m) [] fun i y => smSet y i.val (val i)

/-- A special function's result in a lane: poison from a poisoned source (R39, R201). -/
def sfuLane (o : Op) (f : Fields) (x : Slot) (l : Fin 32) : LaneRes :=
  if (x.a[l]).p || (x.b[l]).p then { val := [], p := true }
  else { val := [sfuValue o f.ty (x.a[l]).v (x.b[l]).v], p := false }

/-- A special function completes: its results are posted, to be delivered later (R23, R201). -/
def SfuPosts (o : Op) (c : Fields → Instr) : Prop :=
  ∀ (f : Fields) (s : State) (b : At), SlotReady o f s b →
    Posts (c f) s
      (s.addPend { (b.slot o f s).pend 1 (b.slot o f s).ex (b.slot o f s).ex
          (laneResults (b.slot o f s).ex (sfuLane o f (b.slot o f s))) with checked := true, joint := true })
      (b.slot o f s) false s.nextId

/-- A barrier object after an update: it flips when no arrival and no byte is outstanding (R344). -/
def flipped (b : BarObj) : BarObj :=
  if b.pna = 0 ∧ b.ldb = b.exb then
    { ph := (b.ph + 1) % 2 ^ 16, exa := ((b.exa : Int) + b.adj).toNat, pna := ((b.exa : Int) + b.adj).toNat, adj := 0,
      exb := 0, ldb := 0 }
  else b

/-- A barrier object whose fields lie within their widths (R342). -/
def BarFits (b : BarObj) : Prop :=
  b.ldb < 2 ^ 32 ∧ b.exb < 2 ^ 32 ∧ -(2 : Int) ^ 15 ≤ b.adj ∧ b.adj < (2 : Int) ^ 15 ∧ b.pna < 2 ^ 16 ∧ b.exa < 2 ^ 16 ∧
    b.ph < 2 ^ 16

/-- The instruction completes for every form in every state where its slot is ready and its executing threads pass their
checks `pre`: they perform `g` in lane order and await their results; a k destination is to receive `ok` of the result. -/
def EachInTurn (o : Op) (c : Fields → Instr) (pre : Fields → State → Slot → Fin 32 → Prop) (ok : W64 → Bool)
    (g : Fields → Slot → Fin 32 → State → State × W64) : Prop :=
  ∀ (f : Fields) (s : State) (b : At), SlotReady o f s b →
    (∀ l : Fin 32, (b.slot o f s).ex.getLsbD l = true → pre f s (b.slot o f s) l) → ∀ (e : State) (vals : SMap W64),
    laneRun (fun i t => .ok (g f (b.slot o f s) i t)) (lanesOf (b.slot o f s).ex) (s, []) = some (e, vals) →
    Posts (c f) s (e.addPend ((b.slot o f s).postPend (b.slot o f s).ex vals ok)) (b.slot o f s) false e.nextId

/-- A cancelling instruction completes where no executing thread's handle is poisoned: the threads cancel in lane order, each
result is due at once or when its job ends, and nothing else changes beyond the frame of the slot (R126, R223). -/
def Cancels (o : Op) (c : Fields → Instr) (g : Slot → Nat × Nat → Fin 32 → State → State × Option Nat) : Prop :=
  ∀ (f : Fields) (s : State) (b : At), SlotReady o f s b →
    (∀ l : Fin 32, (b.slot o f s).ex.getLsbD l = true → ((b.slot o f s).a[l]).p = false) →
    Posts (c f) s (forL (lanesOf (b.slot o f s).ex) (s.addPend ((b.slot o f s).pend 1 (b.slot o f s).ex 0 []))
      (cancelLane (g (b.slot o f s)) s.nextId)) (b.slot o f s) false s.nextId

/-- Like `InTurn`, for an instruction whose results an engine gives later: `g` enters the acceptance under the result's
number (R434). -/
def LateInTurn (o : Op) (c : Fields → Instr) (g : Fields → Slot → Nat → Fin 32 → State → Except Cause State) : Prop :=
  ∀ (f : Fields) (s : State) (b : At), SlotReady o f s b → ∀ e : State,
    actRun (g f (b.slot o f s) s.nextId) (lanesOf (b.slot o f s).ex)
      (s.addPend (b.slot o f s).latePend) = some e →
    Posts (c f) s (e.modPend s.nextId (keepLanes (b.slot o f s).ex)) (b.slot o f s) false s.nextId

/-- Like `InTurn`, where the threads' own effects leave the bundle's cohort standing. -/
def InTurnStanding (o : Op) (c : Fields → Instr) (g : Fields → Slot → Fin 32 → State → Except Cause (State × W64)) : Prop :=
  ∀ (f : Fields) (s : State) (b : At), SlotReady o f s b → ∀ (e : State) (vals : SMap W64),
    laneRun (g f (b.slot o f s)) (lanesOf (b.slot o f s).ex) (s, []) = some (e, vals) →
    (e.cohort? b.r.cid b.r.co).isSome = true →
    Posts (c f) s (e.addPend ((b.slot o f s).postPend (b.slot o f s).ex vals fun r => r.getLsbD 0)) (b.slot o f s) false
      e.nextId

/-- The stores of the executing threads, as the region store buffer takes them (R231, R234, R237). -/
def slotStores (f : Fields) (x : Slot) (stash : Bool) (addr : Fin 32 → W64) (n : Nat) : List RStore :=
  (lanesOf x.ex).map fun i =>
    { lane := i.val, stash := stash, addr := addr i, data := (storeData x n i).1,
      hint := BitVec.ofNat 6 (f.mod.toNat / 8 % 4), trpc := x.trpc }

/-- What the fault record of a trap that becomes fatal holds (R144, R378): the trap's cause, the thread with its slot, the pc,
the address and the operand information. -/
def trapRecord (co lane : Nat) (t : TrapRec) : FaultRec :=
  { kind := 0, cause := t.cause, thr := some (co, lane, fld t.trpc 63 60), pc := trpcPc t.trpc, addr := t.addr,
    info := trapInfo t }

/-- A result of the type's width (R30, R148). -/
def typeWide (f : Fields) : Bool := Ty.wide f.ty

/-- A result of 32 bits, or a predicate (R166, R172). -/
def narrowRes (_ : Fields) : Bool := false

end Sys2Proof
end

