-- ==== Sys2Proof/WellFormed.lean ====
section
/-!
DEFINITION. Sys2Proof/WellFormed.lean: the instructions that zynas may emit (R50): a legal type and modifier, legal
operand fields, every v register below 64, every channel selector taken as bound, and no literal without a selector that
reads it.
-/

namespace Sys2Proof

/-- What zynas checks operands against: 64 named registers, any channel (R50). -/
def asmEnv : Machine.Env := { regs := 64, bound := fun _ => true }

/-- A well-formed instruction (R30 to R38, R50). A step of another agent is well-formed as it stands. -/
def WellFormed (i : Instr) : Bool :=
  match i.opFields? with
  | some (o, f) => Machine.opcodeOk o f && Machine.operandOk asmEnv o f && (f.usesLit || decide (f.lit = 0))
  | none => true

end Sys2Proof
end

