-- ==== Sys2Proof/Certificates/Slice0/Obligations.lean ====
section
/-!
DEFINITION. Sys2Proof/Certificates/Slice0/Obligations.lean: the statements for the provers.
-/

open Sys2Proof Sys2Proof.Machine

/-- add, sub, mul, mad, min, max, abs, neg and mulh complete wherever their slot is ready. In each executing thread the
destination holds the exact result on every element, read as the type says, saturated when SAT is 1 and otherwise wrapped to
the element; a poisoned source makes the result poison. The frame: beyond the destination, the last uses of the sources, the
result queues and time latches nothing of the threads changes (pc, flags and special registers stay), and beyond the crew
and its issue slice nothing changes at all: no byte of memory, no special register, no other crew. -/
def Obligations.IntegerArithmeticResults : Prop :=
  Computes .add Instr.add typeWide (fun f x l => lift2 (fun a b => intOp f.ty f.sat0 (fun m n _ => m + n) a b 0) x.a[l] x.b[l]) ∧
    Computes .sub Instr.sub typeWide (fun f x l => lift2 (fun a b => intOp f.ty f.sat0 (fun m n _ => m - n) a b 0) x.a[l] x.b[l]) ∧
    Computes .mul Instr.mul typeWide (fun f x l => lift2 (fun a b => intOp f.ty f.sat0 (fun m n _ => m * n) a b 0) x.a[l] x.b[l]) ∧
    Computes .mad Instr.mad typeWide (fun f x l => lift3 (fun a b c => intOp f.ty f.sat0 (fun m n k => m * n + k) a b c) x.a[l] x.b[l] x.c[l]) ∧
    Computes .min Instr.min typeWide (fun f x l => lift2 (fun a b => intOp f.ty false (fun m n _ => if m ≤ n then m else n) a b 0) x.a[l] x.b[l]) ∧
    Computes .max Instr.max typeWide (fun f x l => lift2 (fun a b => intOp f.ty false (fun m n _ => if n ≤ m then m else n) a b 0) x.a[l] x.b[l]) ∧
    Computes .abs Instr.abs typeWide (fun f x l => lift1 (fun a => intOp f.ty f.sat0 (fun m _ _ => (m.natAbs : Int)) a 0 0) x.a[l]) ∧
    Computes .neg Instr.neg typeWide (fun f x l => lift1 (fun a => intOp f.ty f.sat0 (fun m _ _ => -m) a 0 0) x.a[l]) ∧
    Computes .mulh Instr.mulh typeWide (fun f x l => lift2 (fun a b => intOp f.ty false (fun m n _ => m * n / (2 : Int) ^ (Ty.shape f.ty).1) a b 0) x.a[l] x.b[l])

/-- addc and subb complete wherever their slot is ready: each executing thread gets A + B + C[0], or A - B - C[0], reduced
to the width, and when CK is not 0 predicate CK of each executing thread becomes the carry, the borrow, or for a signed type
the overflow of the exact sum; a poisoned source makes both poison. Nothing else changes beyond the frame of register
instructions. -/
def Obligations.CarryArithmeticResults : Prop :=
  (∀ (f : Fields) (s : State) (b : At), SlotReady .addc f s b →
      ∃ t, exec (.addc f) s = .next t ∧
        RegFrame (if f.mod.toNat % 8 = 0 then s else s.modLanes b.r.cid b.r.co (b.slot .addc f s).ex fun i th =>
            { th with k := th.k.setIfInBounds (f.mod.toNat % 8) (carryOut f (1) (b.slot .addc f s) i) })
          t (b.slot .addc f s) (Ty.wide f.ty) ∧
        ∀ l : Fin 32, (b.slot .addc f s).ex.getLsbD l = true →
          Delivered t (b.slot .addc f s) l (Ty.wide f.ty) (carryResult f (1) (b.slot .addc f s) l)) ∧
    (∀ (f : Fields) (s : State) (b : At), SlotReady .subb f s b →
      ∃ t, exec (.subb f) s = .next t ∧
        RegFrame (if f.mod.toNat % 8 = 0 then s else s.modLanes b.r.cid b.r.co (b.slot .subb f s).ex fun i th =>
            { th with k := th.k.setIfInBounds (f.mod.toNat % 8) (carryOut f (-1) (b.slot .subb f s) i) })
          t (b.slot .subb f s) (Ty.wide f.ty) ∧
        ∀ l : Fin 32, (b.slot .subb f s).ex.getLsbD l = true →
          Delivered t (b.slot .subb f s) l (Ty.wide f.ty) (carryResult f (-1) (b.slot .subb f s) l))

/-- and, or, xor, andn, orn, not and brev complete with the bitwise result of the type's width; popc, clz and ctz with a
32-bit count over the type's width; cmp with the truth of its condition on the operands read as the type says. Frame as for
every register instruction. -/
def Obligations.BitAndCompareResults : Prop :=
  Computes .and Instr.and typeWide (fun f x l => lift2 (fun a b => a &&& b) x.a[l] x.b[l]) ∧
    Computes .or Instr.or typeWide (fun f x l => lift2 (fun a b => a ||| b) x.a[l] x.b[l]) ∧
    Computes .xor Instr.xor typeWide (fun f x l => lift2 (fun a b => a ^^^ b) x.a[l] x.b[l]) ∧
    Computes .andn Instr.andn typeWide (fun f x l => lift2 (fun a b => a &&& ~~~b) x.a[l] x.b[l]) ∧
    Computes .orn Instr.orn typeWide (fun f x l => lift2 (fun a b => f.clip (a ||| ~~~b).toNat) x.a[l] x.b[l]) ∧
    Computes .not Instr.not typeWide (fun f x l => lift1 (fun a => f.clip (~~~a).toNat) x.a[l]) ∧
    Computes .brev Instr.brev typeWide (fun f x l => lift1 (fun a => f.clip (brevN f.w a.toNat)) x.a[l]) ∧
    Computes .popc Instr.popc narrowRes (fun f x l => lift1 (fun a => w32Val (popcount f.w a.toNat)) x.a[l]) ∧
    Computes .clz Instr.clz narrowRes (fun f x l => lift1 (fun a => w32Val (clzN f.w a.toNat)) x.a[l]) ∧
    Computes .ctz Instr.ctz narrowRes (fun f x l => lift1 (fun a => w32Val (ctzN f.w a.toNat)) x.a[l]) ∧
    Computes .cmp Instr.cmp narrowRes (fun f x l => lift2 (fun a b => if cmpCond f.mod.toNat (intVal (Ty.signed f.ty) (Ty.shape f.ty).1 a.toNat) (intVal (Ty.signed f.ty) (Ty.shape f.ty).1 b.toNat) then 1 else 0) x.a[l] x.b[l])

/-- shl, shr, sar, rol, ror, fsh, bfx, bfi, sel, mov and movk complete with the word the rules give: a shift by the width or
more gives 0, or the sign for sar; rotates and the funnel shift take the amount modulo the width; bfx and bfi clip their
field to the word. Frame as for every register instruction. -/
def Obligations.ShiftFieldMoveResults : Prop :=
  Computes .shl Instr.shl typeWide (fun f x l => lift2 (fun a b => if f.w ≤ ctl b then 0 else f.clip (a.toNat * 2 ^ ctl b)) x.a[l] x.b[l]) ∧
    Computes .shr Instr.shr typeWide (fun f x l => lift2 (fun a b => if f.w ≤ ctl b then 0 else f.clip (a.toNat / 2 ^ ctl b)) x.a[l] x.b[l]) ∧
    Computes .sar Instr.sar typeWide (fun f x l => lift2 (fun a b => BitVec.ofNat 64 (intResult true f.w false (sext f.w a.toNat / (2 : Int) ^ (min (ctl b) f.w)))) x.a[l] x.b[l]) ∧
    Computes .rol Instr.rol typeWide (fun f x l => lift2 (fun a b => f.clip (rotl f.w (a.toNat % 2 ^ f.w) (ctl b))) x.a[l] x.b[l]) ∧
    Computes .ror Instr.ror typeWide (fun f x l => lift2 (fun a b => f.clip (rotl f.w (a.toNat % 2 ^ f.w) (f.w - ctl b % f.w))) x.a[l] x.b[l]) ∧
    Computes .fsh Instr.fsh typeWide (fun f x l => lift3 (fun a b c => f.clip (funnel f.w (f.mod.getLsbD 0) (a.toNat % 2 ^ f.w) (b.toNat % 2 ^ f.w) (ctl c))) x.a[l] x.b[l] x.c[l]) ∧
    Computes .bfx Instr.bfx typeWide (fun f x l => lift3 (fun a b c => BitVec.ofNat 64 (intResult false f.w false (bitField (Ty.signed f.ty) f.w (a.toNat % 2 ^ f.w) (ctl b) (ctl c)))) x.a[l] x.b[l] x.c[l]) ∧
    Computes .bfi Instr.bfi typeWide (fun f x l => lift3 (fun a b c => insertField f.w a b (ctl c)) x.a[l] x.b[l] x.c[l]) ∧
    Computes .sel Instr.sel typeWide (fun f x l => lift3 (fun a b c => if c.getLsbD 0 then a else b) x.a[l] x.b[l] x.c[l]) ∧
    Computes .mov Instr.mov typeWide (fun f x l => lift1 (fun a => a) x.a[l]) ∧
    Computes .movk Instr.movk typeWide (fun f x l => lift2 (fun a b => (a &&& ~~~(BitVec.ofNat 64 (0xFFFF * 2 ^ (16 * (f.mod.toNat % 4))))) ||| BitVec.ofNat 64 (b.toNat % 2 ^ 16 * 2 ^ (16 * (f.mod.toNat % 4)))) x.a[l] x.b[l])

/-- Without CHK, or with clean sources whose exact address is canonical and lies in 64 bits, lea completes with A + (index
<< SHIFT) + C reduced to 64 bits, poison from a poisoned source. With CHK, the fault of an address is NONCANON when its 64
bits are not canonical and otherwise ADDR_WRAP when the exact sum lies outside 64 bits. -/
def Obligations.LeaResults : Prop :=
  (∀ (f : Fields) (s : State) (b : At), SlotReady .lea f s b →
      (f.mod.getLsbD 4 = true → ∀ l : Fin 32, (b.slot .lea f s).ex.getLsbD l = true →
        ((b.slot .lea f s).a[l]).p = false ∧ ((b.slot .lea f s).b[l]).p = false ∧ ((b.slot .lea f s).c[l]).p = false ∧
          leaFault (leaSum f.mod ((b.slot .lea f s).a[l]).v ((b.slot .lea f s).b[l]).v ((b.slot .lea f s).c[l]).v) = none) →
      Results (.lea f) s (b.slot .lea f s) true fun l =>
        lift3 (fun a b c => toW64 (leaSum f.mod a b c)) (b.slot .lea f s).a[l] (b.slot .lea f s).b[l] (b.slot .lea f s).c[l]) ∧
    ∀ x : Int, leaFault x =
      if isCanon (toW64 x) = false then some (cNoncanon, toW64 x)
      else if x < 0 ∨ (2 : Int) ^ 64 ≤ x then some (cAddrWrap, toW64 x) else none

/-- fadd, fsub, fmul, ffma, fscale, frnd, fdot2 and fdot4 complete with the exact value of the operation on the operands,
their modifiers applied, rounded once to the result format under RM and SAT; fdot4 on bytes gives the exact integer sum,
wrapped or saturated. Frame as for every register instruction. -/
def Obligations.FloatArithmeticResults : Prop :=
  Computes .fadd Instr.fadd typeWide (fun f x l => lift2 (fun a b => fltRound f (fun m n _ => fvAdd f.rm (negIf f.m3 m) (negIf f.m4 n)) a b 0) x.a[l] x.b[l]) ∧
    Computes .fsub Instr.fsub typeWide (fun f x l => lift2 (fun a b => fltRound f (fun m n _ => fvAdd f.rm (negIf f.m3 m) (fvNeg (negIf f.m4 n))) a b 0) x.a[l] x.b[l]) ∧
    Computes .fmul Instr.fmul typeWide (fun f x l => lift2 (fun a b => fltRound f (fun m n _ => fvMul (negIf f.m3 m) (negIf f.m4 n)) a b 0) x.a[l] x.b[l]) ∧
    Computes .ffma Instr.ffma typeWide (fun f x l => lift3 (fun a b c => fltRound f (fun m n k => fvAdd f.rm (negIf f.m3 (fvMul m n)) (negIf f.m4 k)) a b c) x.a[l] x.b[l] x.c[l]) ∧
    Computes .fscale Instr.fscale typeWide (fun f x l => lift2 (fun a b => BitVec.ofNat 64 (roundFloat (fvScale (fvOf (Ty.ff f.ty) (scalar f a)) (sext 32 b.toNat)) (Ty.ff f.ty) f.rm f.sat2)) x.a[l] x.b[l]) ∧
    Computes .frnd Instr.frnd typeWide (fun f x l => lift1 (fun a => BitVec.ofNat 64 (frndBits (Ty.ff f.ty) f.rm (scalar f a))) x.a[l]) ∧
    Computes .fdot2 Instr.fdot2 narrowRes (fun f x l => lift3 (fun a b c => BitVec.ofNat 64 (roundFloat (dotSum f a b c) ffF32 f.rm f.sat2)) x.a[l] x.b[l] x.c[l]) ∧
    Computes .fdot4 Instr.fdot4 narrowRes (fun f x l => lift3 (fun a b c => if f.ty = .i8x4 then BitVec.ofNat 64 (intResult true 32 f.sat2 (dotInt a b c)) else BitVec.ofNat 64 (roundFloat (dotSum f a b c) ffF32 f.rm f.sat2)) x.a[l] x.b[l] x.c[l])

/-- fmin, fmax, fabs, fneg, fcsgn, fcmp, fclass and fexpo complete with the pattern, the truth value or the number that
their rules give for the patterns of their sources. Frame as for every register instruction. -/
def Obligations.FloatSelectResults : Prop :=
  Computes .fmin Instr.fmin typeWide (fun f x l => lift2 (fun a b => fltOp f.ty (fun t m n _ => fMinMax false f.sat0 t m n) a b 0) x.a[l] x.b[l]) ∧
    Computes .fmax Instr.fmax typeWide (fun f x l => lift2 (fun a b => fltOp f.ty (fun t m n _ => fMinMax true f.sat0 t m n) a b 0) x.a[l] x.b[l]) ∧
    Computes .fabs Instr.fabs typeWide (fun f x l => lift1 (fun a => fltOp f.ty (fun t m _ _ => signSet t false m) a 0 0) x.a[l]) ∧
    Computes .fneg Instr.fneg typeWide (fun f x l => lift1 (fun a => fltOp f.ty (fun t m _ _ => signSet t (!signOf t m) m) a 0 0) x.a[l]) ∧
    Computes .fcsgn Instr.fcsgn typeWide (fun f x l => lift2 (fun a b => fltOp f.ty (fun t m n _ => signSet t (match f.mod.toNat with | 0 => signOf t n | 1 => !signOf t n | _ => signOf t m != signOf t n) m) a b 0) x.a[l] x.b[l]) ∧
    Computes .fcmp Instr.fcmp narrowRes (fun f x l => lift2 (fun a b => if fcmpCond f.mod.toNat (fvCmp (fvOf (Ty.ff f.ty) (scalar f a)) (fvOf (Ty.ff f.ty) (scalar f b))) then 1 else 0) x.a[l] x.b[l]) ∧
    Computes .fclass Instr.fclass narrowRes (fun f x l => if f.mod.getLsbD 0 then lift2 (fun a b => if b.getLsbD (fclassBit (Ty.ff f.ty) (scalar f a)) then 1 else 0) x.a[l] x.b[l] else lift1 (fun a => BitVec.ofNat 64 (2 ^ fclassBit (Ty.ff f.ty) (scalar f a))) x.a[l]) ∧
    Computes .fexpo Instr.fexpo narrowRes (fun f x l => lift1 (fun a => fexpoBits (Ty.ff f.ty) (scalar f a)) x.a[l])

/-- cvt, cvt.pk, cvt.sr, mxq, mxdq, pack and unpack complete with the value their rules give: cvt reads its source format
and rounds or clamps to the target; cvt.sr rounds each element with the draw of its seed, lane and element (lane 0 on the
uniform unit); mxq quantises the block of the executing lanes, and a poisoned element poisons every lane. Frame as for every
register instruction. -/
def Obligations.ConversionResults : Prop :=
  Computes .cvt Instr.cvt typeWide (fun f x l => lift1 (fun a => cvtBits f.ty f.rm f.sat2 (cvtRead (f.mod.toNat / 8) a)) x.a[l]) ∧
    Computes .cvtPk Instr.cvtPk narrowRes (fun f x l => if pk4 f.ty then lift3 (fun a b c => pkPlace f.ty f.m3 (pkElem f.ty f.rm f.sat2 a.toNat) (pkElem f.ty f.rm f.sat2 b.toNat) c) x.a[l] x.b[l] x.c[l] else lift2 (fun a b => pkPlace f.ty f.m3 (pkElem f.ty f.rm f.sat2 a.toNat) (pkElem f.ty f.rm f.sat2 b.toNat) 0) x.a[l] x.b[l]) ∧
    Computes .cvtSr Instr.cvtSr narrowRes (fun f x l => stochastic f x l) ∧
    Computes .mxq Instr.mxq narrowRes (fun f x l => if (lanesOf x.ex).any fun j => (x.a[j]).p then Val.poison else Val.ok (if f.mod.getLsbD 0 then BitVec.ofNat 64 (mxQuant (mxBlock x) (mxFormat f.ty)).1 else mxqWord f.ty (mxQuant (mxBlock x) (mxFormat f.ty)).2 l.val)) ∧
    Computes .mxdq Instr.mxdq narrowRes (fun f x l => lift2 (fun a b => mxdqBits f.ty (f.mod.toNat % 8) a (b.toNat % 256)) x.a[l] x.b[l]) ∧
    Computes .pack Instr.pack narrowRes (fun f x l => lift2 (packWord f.ty f.rm) x.a[l] x.b[l]) ∧
    Computes .unpack Instr.unpack narrowRes (fun f x l => lift1 (fun a => if f.mod.getLsbD 2 then BitVec.ofNat 64 (elem f.w (f.mod.toNat % 4) a.toNat) else BitVec.ofNat 64 (intResult true 32 false (sext f.w (elem f.w (f.mod.toNat % 4) a.toNat)))) x.a[l])

/-- shfl.idx, shfl.up, shfl.dn, shfl.xor, the four votes, redx and scanx complete: a shuffle takes the source of the lane at
the position its rule names within the tile, an existing thread executing or not, or its own value or 0 when the position
lies outside; votes, reductions and scans see the executing lanes of the tile, redx in its fixed tree, scanx in ascending
position, a NaN result canonical; a poisoned contributor poisons them. Frame as for every register instruction. -/
def Obligations.TileExchangeResults : Prop :=
  Computes .shflIdx Instr.shflIdx typeWide (fun f x l => shuffle x false (fun w _ n => some (n % w)) l) ∧
    Computes .shflUp Instr.shflUp typeWide (fun f x l => shuffle x f.sat0 (fun _ p n => if n ≤ p then some (p - n) else none) l) ∧
    Computes .shflDn Instr.shflDn typeWide (fun f x l => shuffle x f.sat0 (fun w p n => if p + n < w then some (p + n) else none) l) ∧
    Computes .shflXor Instr.shflXor typeWide (fun f x l => shuffle x false (fun w p n => some (p ^^^ (n % w))) l) ∧
    Computes .voteAny Instr.voteAny narrowRes (fun f x l => vote x (fun js => boolWord (js.any fun j => (x.a[j]).v != 0)) l) ∧
    Computes .voteAll Instr.voteAll narrowRes (fun f x l => vote x (fun js => boolWord (js.all fun j => (x.a[j]).v != 0)) l) ∧
    Computes .voteBal Instr.voteBal narrowRes (fun f x l => vote x (fun js => BitVec.ofNat 64 (js.foldl (fun y j => if (x.a[j]).v = 0 then y else y + 2 ^ j.val) 0)) l) ∧
    Computes .voteEq Instr.voteEq narrowRes (fun f x l => vote x (fun js => boolWord (js.all fun j => decide ((js.head?.map fun h => (x.a[h]).v) = some (x.a[j]).v))) l) ∧
    Computes .redx Instr.redx typeWide (fun f x l => if (tileFrom x l).any fun j => (x.a[j]).p then Val.poison else Val.ok (canonNans f.ty ((redTree (combine (f.mod.toNat % 8) f.m3 f.ty) ((List.range x.run.tile).map (contrib x l))).getD (opxIdentity (f.mod.toNat % 8) f.ty)))) ∧
    Computes .scanx Instr.scanx typeWide (fun f x l => if (tileFrom x l).any fun j => decide (j.val % x.run.tile < l.val % x.run.tile + (if f.m4 then 0 else 1)) && (x.a[j]).p then Val.poison else Val.ok (canonNans f.ty ((forN (l.val % x.run.tile + (if f.m4 then 0 else 1)) none fun q acc => combine (f.mod.toNat % 8) f.m3 f.ty acc (contrib x l q)).getD (opxIdentity (f.mod.toNat % 8) f.ty))))

/-- perm, rdlane and wrlane complete with the bytes or the lane value chosen; rdlane gives poison where no live thread is.
xpose completes with the transposed elements when no executing lane fails its checks (tile wide enough, registers in range,
B below the block count). Frame as for every register instruction. -/
def Obligations.LanePermuteResults : Prop :=
  Computes .perm Instr.perm narrowRes (fun f x l => lift3 permWord x.a[l] x.b[l] x.c[l]) ∧
    Computes .rdlane Instr.rdlane typeWide (fun f x l => if (x.b[l]).p then Val.poison else laneValue x x.a (ctl (x.b[l]).v % 32)) ∧
    Computes .wrlane Instr.wrlane typeWide (fun f x l => lift3 (fun a b c => if ctl b % 32 = l.val then a else c) x.a[l] x.b[l] x.c[l]) ∧
    (∀ (f : Fields) (s : State) (b : At), SlotReady .xpose f s b →
      (∀ l : Fin 32, (b.slot .xpose f s).ex.getLsbD l = true → xposeFault (b.slot .xpose f s) l = none) →
      Results (.xpose f) s (b.slot .xpose f s) false (xposeResult (b.slot .xpose f s)))

/-- Where every executing thread has a clean operand and a target within 64 bits, canonical and aligned to 8 bytes, br, jmp,
call, callr and ret complete: each executing thread stands at its target (H + 8 x displacement, or the address), not
resumed; call and callr deliver the fall-through address; passive threads stay where they stand; nothing else changes. -/
def Obligations.TransfersReachTargets : Prop :=
  Transfers .br Instr.br (fun x l => !(x.a[l]).p) (fun x l => relTarget x.run.hpc x.a[l]) (fun _ => none) ∧
    Transfers .jmp Instr.jmp (fun x l => !(x.a[l]).p) (fun x l => ((x.a[l]).v.toNat : Int)) (fun _ => none) ∧
    Transfers .call Instr.call (fun x l => !(x.a[l]).p) (fun x l => relTarget x.run.hpc x.a[l]) (fun x => some x.run.next) ∧
    Transfers .callr Instr.callr (fun x l => !(x.a[l]).p) (fun x l => ((x.a[l]).v.toNat : Int)) (fun x => some x.run.next) ∧
    Transfers .ret Instr.ret (fun x l => !(x.a[l]).p) (fun x l => ((x.a[l]).v.toNat : Int)) (fun _ => none)

/-- br, jmp, call, callr and ret: an executing thread whose operand is poisoned takes POISON_USE, one whose exact target
lies outside 64 bits ADDR_WRAP, one whose target is not canonical NONCANON, one whose target is not a multiple of 8
MISALIGNED: it stands as before with that trap, naming clause and slot, to be entered at the end of the clause. The causes
are chosen in that order. -/
def Obligations.TransferFaultsTrap : Prop :=
  (∀ (f : Fields) (s : State) (b : At), SlotReady .br f s b →
      ∃ t, exec (.br f) s = .next t ∧ ∀ (l : Fin 32) (c : Cause), (b.slot .br f s).ex.getLsbD l = true →
        relFault b.r.hpc (b.slot .br f s).a[l] = some c →
        HasThread t (b.slot .br f s) l fun th =>
          th = { b.h.threads[l] with trap := some (preciseTrap b.r c (faultAddr c (toW64 (relTarget b.r.hpc (b.slot .br f s).a[l])))) }) ∧
    (∀ (f : Fields) (s : State) (b : At), SlotReady .jmp f s b →
      ∃ t, exec (.jmp f) s = .next t ∧ ∀ (l : Fin 32) (c : Cause), (b.slot .jmp f s).ex.getLsbD l = true →
        absFault (b.slot .jmp f s).a[l] = some c →
        HasThread t (b.slot .jmp f s) l fun th =>
          th = { b.h.threads[l] with trap := some (preciseTrap b.r c (faultAddr c (((b.slot .jmp f s).a[l]).v))) }) ∧
    (∀ (f : Fields) (s : State) (b : At), SlotReady .call f s b →
      ∃ t, exec (.call f) s = .next t ∧ ∀ (l : Fin 32) (c : Cause), (b.slot .call f s).ex.getLsbD l = true →
        relFault b.r.hpc (b.slot .call f s).a[l] = some c →
        HasThread t (b.slot .call f s) l fun th =>
          th = { b.h.threads[l] with trap := some (preciseTrap b.r c (faultAddr c (toW64 (relTarget b.r.hpc (b.slot .call f s).a[l])))) }) ∧
    (∀ (f : Fields) (s : State) (b : At), SlotReady .callr f s b →
      ∃ t, exec (.callr f) s = .next t ∧ ∀ (l : Fin 32) (c : Cause), (b.slot .callr f s).ex.getLsbD l = true →
        absFault (b.slot .callr f s).a[l] = some c →
        HasThread t (b.slot .callr f s) l fun th =>
          th = { b.h.threads[l] with trap := some (preciseTrap b.r c (faultAddr c (((b.slot .callr f s).a[l]).v))) }) ∧
    (∀ (f : Fields) (s : State) (b : At), SlotReady .ret f s b →
      ∃ t, exec (.ret f) s = .next t ∧ ∀ (l : Fin 32) (c : Cause), (b.slot .ret f s).ex.getLsbD l = true →
        absFault (b.slot .ret f s).a[l] = some c →
        HasThread t (b.slot .ret f s) l fun th =>
          th = { b.h.threads[l] with trap := some (preciseTrap b.r c (faultAddr c (((b.slot .ret f s).a[l]).v))) }) ∧
    ∀ (h : W64) (v : Val),
      relFault h v = (if v.p then some cPoisonUse
        else if relTarget h v < 0 ∨ (2 : Int) ^ 64 ≤ relTarget h v then some cAddrWrap
        else if isCanon (toW64 (relTarget h v)) = false then some cNoncanon
        else if relTarget h v % 8 ≠ 0 then some cMisaligned else none) ∧
      absFault v = (if v.p then some cPoisonUse else if isCanon v.v = false then some cNoncanon
        else if v.v.toNat % 8 ≠ 0 then some cMisaligned else none)

/-- dbnz where every executing thread that branches has a clean displacement and a good target: each executing thread with a
clean A has r = A - 1 modulo 2^32 delivered to its destination, stands at H + 8 x displacement when r is not 0 and where it
stood when r is 0; one with a poisoned A takes POISON_USE; a passive thread keeps its pc, its registers and its predicates. -/
def Obligations.DbnzRule : Prop :=
  ∀ (f : Fields) (s : State) (b : At), SlotReady .dbnz f s b →
    (∀ l : Fin 32, (b.slot .dbnz f s).ex.getLsbD l = true → ((b.slot .dbnz f s).a[l]).p = false →
      ((b.slot .dbnz f s).a[l]).lo - 1 ≠ 0 →
      ((b.slot .dbnz f s).b[l]).p = false ∧ GoodTarget (relTarget b.r.hpc (b.slot .dbnz f s).b[l])) →
    ∃ t, exec (.dbnz f) s = .next t ∧ ∀ l : Fin 32,
      ((b.slot .dbnz f s).ex.getLsbD l = true → ((b.slot .dbnz f s).a[l]).p = false →
        Delivered t ((b.slot .dbnz f s).without (laneFilter (b.slot .dbnz f s).ex fun i => ((b.slot .dbnz f s).a[i]).p)) l false
          (Val.ok ((((b.slot .dbnz f s).a[l]).lo - 1).setWidth 64)) ∧
        HasThread t (b.slot .dbnz f s) l fun th =>
          th.pc = if ((b.slot .dbnz f s).a[l]).lo - 1 ≠ 0 then toW64 (relTarget b.r.hpc (b.slot .dbnz f s).b[l])
            else (b.h.threads[l]).pc) ∧
      ((b.slot .dbnz f s).ex.getLsbD l = true → ((b.slot .dbnz f s).a[l]).p = true →
        HasThread t (b.slot .dbnz f s) l fun th =>
          th = { b.h.threads[l] with trap := some (preciseTrap b.r cPoisonUse 0) }) ∧
      ((b.slot .dbnz f s).ex.getLsbD l = false →
        HasThread t (b.slot .dbnz f s) l fun th =>
          th.pc = (b.h.threads[l]).pc ∧ th.v = (b.h.threads[l]).v ∧ th.k = (b.h.threads[l]).k)

/-- rjn.enrol adds the executing threads to ENR of its register; rjn.wait adds those of them that are enrolled to ARR and
holds them at the join; rjn.leave takes them out of ENR. After a wait and after a leave, when ARR equals ENR and is not
empty, both masks become 0 and the threads that arrived are released together; otherwise nothing is released. Nothing else
changes beyond the frame of the slot. -/
def Obligations.RejoinInstructions : Prop :=
  (∀ (f : Fields) (s : State) (b : At), SlotReady .rjnEnrol f s b →
      ∃ u, exec (.rjnEnrol f) s = .next (u.setJoin b.r.cid b.r.co f.mod.toNat (joinArr (b.h.j[f.mod.toNat]?.getD 0)) ((joinEnr (b.h.j[f.mod.toNat]?.getD 0)) ||| (b.slot .rjnEnrol f s).ex)) ∧ RegFrame s u (b.slot .rjnEnrol f s) false) ∧
    (∀ (f : Fields) (s : State) (b : At), SlotReady .rjnWait f s b →
      ∃ u, exec (.rjnWait f) s = .next (((u.setJoin b.r.cid b.r.co f.mod.toNat ((joinArr (b.h.j[f.mod.toNat]?.getD 0)) ||| ((b.slot .rjnWait f s).ex &&& (joinEnr (b.h.j[f.mod.toNat]?.getD 0)))) (joinEnr (b.h.j[f.mod.toNat]?.getD 0))).modLanes
          b.r.cid b.r.co ((b.slot .rjnWait f s).ex &&& (joinEnr (b.h.j[f.mod.toNat]?.getD 0))) fun _ th =>
            { th with holds := .join f.mod.toNat :: th.holds.filter (· ≠ Hold.join f.mod.toNat) }).checkJoin b.r.cid b.r.co f.mod.toNat) ∧ RegFrame s u (b.slot .rjnWait f s) false) ∧
    (∀ (f : Fields) (s : State) (b : At), SlotReady .rjnLeave f s b →
      ∃ u, exec (.rjnLeave f) s = .next ((u.setJoin b.r.cid b.r.co f.mod.toNat (joinArr (b.h.j[f.mod.toNat]?.getD 0)) ((joinEnr (b.h.j[f.mod.toNat]?.getD 0)) &&& ~~~(b.slot .rjnLeave f s).ex)).checkJoin b.r.cid b.r.co f.mod.toNat) ∧ RegFrame s u (b.slot .rjnLeave f s) false) ∧
    (∀ (s : State) (cid co n : Nat) (h : Cohort), s.cohort? cid co = some h →
      s.checkJoin cid co n =
        if joinArr (h.j[n]?.getD 0) ≠ 0 ∧ joinArr (h.j[n]?.getD 0) = joinEnr (h.j[n]?.getD 0) then
          ({ s with nextId := s.nextId + 1 }.setJoin cid co n 0 0).modLanes cid co (joinArr (h.j[n]?.getD 0)) fun _ th =>
            { th with holds := th.holds.filter (· ≠ Hold.join n), grp := s.nextId + 1 }
        else s)

/-- exit ends each executing thread, takes it out of every rejoin mask and lets its grid barrier settle; nop changes
nothing; yield marks its clause as yielding when a thread executes it; tile.set with a clean width of 2, 4, 8, 16 or 32 sets
the cohort's tile; fwait holds each executing thread with a non-zero mask at its next boundary until all, or with ANY one,
of the flags are clear; cwait holds each executing thread. Nothing else changes beyond the frame of the slot. A crew all of
whose threads wait in cwait is released when no child is outstanding, else drained, saved and suspended; nothing happens to
any other crew. -/
def Obligations.ControlInstructions : Prop :=
  ((∀ (f : Fields) (s : State) (b : At), SlotReady .exit f s b →
      ∃ u, exec (.exit f) s = .next (((u.modLanes b.r.cid b.r.co (b.slot .exit f s).ex fun _ th => { th with live := false, holds := [], trap := none, due := [], grp := 0, tok := none, since := none }).leaveJoins b.r.cid b.r.co (b.slot .exit f s).ex).gbarSettle b.c.grid) ∧ RegFrame s u (b.slot .exit f s) false) ∧
    (∀ (f : Fields) (s : State) (b : At), SlotReady .nop f s b →
      ∃ u, exec (.nop f) s = .next (u) ∧ RegFrame s u (b.slot .nop f s) false) ∧
    (∀ (f : Fields) (s : State) (b : At), SlotReady .yield f s b →
      ∃ u, exec (.yield f) s = .next (u.modRun b.k fun r => { r with yld := r.yld || decide ((b.slot .yield f s).ex ≠ 0) }) ∧ RegFrame s u (b.slot .yield f s) false) ∧
    (∀ (f : Fields) (s : State) (b : At), SlotReady .tileSet f s b →
      (((b.slot .tileSet f s).uni (b.slot .tileSet f s).a).p = false ∧ ((b.slot .tileSet f s).uni (b.slot .tileSet f s).a).lo.toNat ∈ [2, 4, 8, 16, 32]) →
      ∃ u, exec (.tileSet f) s = .next (u.modCohort b.r.cid b.r.co fun h => { h with tile := ((b.slot .tileSet f s).uni (b.slot .tileSet f s).a).lo.toNat }) ∧ RegFrame s u (b.slot .tileSet f s) false) ∧
    (∀ (f : Fields) (s : State) (b : At), SlotReady .fwait f s b →
      (∀ l : Fin 32, (b.slot .fwait f s).ex.getLsbD l = true → ((b.slot .fwait f s).a[l]).p = false) →
      ∃ u, exec (.fwait f) s = .next (u) ∧ RegFrame (s.modLanes b.r.cid b.r.co (b.slot .fwait f s).ex fun l th =>
          if ((b.slot .fwait f s).a[l]).v.extractLsb' 0 12 = 0 then th
          else { th with holds := .flags (((b.slot .fwait f s).a[l]).v.extractLsb' 0 12) (f.mod.getLsbD 0) :: th.holds }) u (b.slot .fwait f s) false) ∧
    (∀ (f : Fields) (s : State) (b : At), SlotReady .cwait f s b →
      ∃ u, exec (.cwait f) s = .next (u) ∧ RegFrame (s.modLanes b.r.cid b.r.co (b.slot .cwait f s).ex fun _ th => { th with holds := .cwait :: th.holds.filter (· ≠ Hold.cwait) }) u (b.slot .cwait f s) false)) ∧
    (∀ (cid : Nat) (s : State) (c : Crew) (t : Machine.Part), smGet s.crews cid = some c → smGet s.parts c.part = some t →
      (c.st ≠ .running ∨ c.stopping.isSome = true ∨ t.qst ≠ 0 ∨ t.reshape.isSome = true ∨ c.allWaiting = false ∨
        s.idleCrew cid c = false → exec (.cwaitResume cid) s = .next s) ∧
      (c.st = .running → c.stopping = none → t.qst = 0 → t.reshape = none → c.allWaiting = true → s.idleCrew cid c = true →
        (c.leaving = none → c.children = [] → exec (.cwaitResume cid) s = .next (s.releaseWaiting cid)) ∧
        (c.leaving = none → c.children ≠ [] → exec (.cwaitResume cid) s = .next (s.beginLeave cid .save)) ∧
        (c.leaving ≠ none → s.leaveReady cid = false → exec (.cwaitResume cid) s = .next (s.stepLeave cid)) ∧
        (c.leaving ≠ none → s.leaveReady cid = true → exec (.cwaitResume cid) s = .next
          (((s.saveCrew cid .suspended).noteFreed c).wakeSuspended cid))))

/-- rgn.open and rgn.close decide the close of the cohort's region: while a result of the region is outstanding the bundle
waits parked; a suspect region restarts; otherwise the region commits and the slot ends. rgn.open then opens an explicit
region that begins after the slot (at the next clause boundary after the last slot); after rgn.close no explicit region is
open, and slots that follow in the clause run in a region of their own, which is this model's reading (log 17). -/
def Obligations.RegionInstructions : Prop :=
  (∀ (f : Fields) (s : State) (b : At), SlotReady .rgnOpen f s b →
      (s.closeDecision b.r.cid b.r.co (some b.r.tok) = .wait → exec (.rgnOpen f) s = .next (s.park b.k b.r.cid b.r.co b.r)) ∧
      (s.closeDecision b.r.cid b.r.co (some b.r.tok) = .restart →
        exec (.rgnOpen f) s = .next (s.suspectRestart b.r.cid b.r.co)) ∧
      (s.closeDecision b.r.cid b.r.co (some b.r.tok) = .commit →
        ∃ u, exec (.rgnOpen f) s = .next (u.openRegion b.r.cid b.r.co true
          ((b.slot .rgnOpen f s).openingAfter (if (b.slot .rgnOpen f s).last then 0 else b.r.lanes))) ∧
          RegFrame (s.commitRegion b.r.cid b.r.co false) u (b.slot .rgnOpen f s) false)) ∧
    (∀ (f : Fields) (s : State) (b : At), SlotReady .rgnClose f s b →
      (s.closeDecision b.r.cid b.r.co (some b.r.tok) = .wait → exec (.rgnClose f) s = .next (s.park b.k b.r.cid b.r.co b.r)) ∧
      (s.closeDecision b.r.cid b.r.co (some b.r.tok) = .restart →
        exec (.rgnClose f) s = .next (s.suspectRestart b.r.cid b.r.co)) ∧
      (s.closeDecision b.r.cid b.r.co (some b.r.tok) = .commit →
        ∃ u, exec (.rgnClose f) s = .next
            (if (b.slot .rgnClose f s).last then
              u.modCohort b.r.cid b.r.co fun h => { h with rgn := { h.rgn with reopen := false } }
            else (u.modCohort b.r.cid b.r.co fun h => { h with rgn := { h.rgn with reopen := false } }).openRegion b.r.cid b.r.co
              false ((b.slot .rgnClose f s).openingAfter b.r.lanes)) ∧
          RegFrame (s.commitRegion b.r.cid b.r.co false) u (b.slot .rgnClose f s) false)) ∧
    (∀ (x : Slot) (m : BitVec 32), (x.openingAfter m).header = 0 ∧ (x.openingAfter m).mid =
        if m = 0 then none else some
        { pc := x.run.hpc,
          slots := ((lanesOf m).map fun i => (i.val, x.run.slot + slotLen x.f)) ++ x.run.late,
          tok := (x.run.tok, fld x.run.hdr 39 36, fld x.run.hdr 35 32) }) ∧
    (∀ (s : State) (cid co : Nat) (own : Option Nat) (c : Crew) (h : Cohort), smGet s.crews cid = some c → s.cohort? cid co = some h →
      (h.rgn.opened = false → s.closeDecision cid co own = .commit) ∧
      (h.rgn.opened = true → s.undelivered cid co h.rgn.first own h = true ∨ (s.cluster c.p).suspect = true →
        s.closeDecision cid co own = .wait) ∧
      (h.rgn.opened = true → s.undelivered cid co h.rgn.first own h = false → (s.cluster c.p).suspect = false →
        s.closeDecision cid co own = if h.rgn.suspect = true ∨ Config.checkFails s.tick = true then .restart else .commit))

/-- trap and brkpt complete: each executing thread takes TRAP_INSTR (0x08), or BREAKPOINT (0x07), with the trap address
A[31:0] zero-extended, and stands as before with that trap, to be entered at the end of the clause (TrapEntry); its resume
point is NEXT for trap and the place after the instruction for brkpt; a thread that does not execute takes no trap. An armed
comparator of a crew whose deadline %time has reached fires once: its EN is cleared and nothing else of it, its bit of
%dlstat is set, and the crew's live thread of lowest number takes DEADLINE; one that is not armed or not due does nothing. -/
def Obligations.SoftwareTraps : Prop :=
  ((∀ (f : Fields) (s : State) (b : At), SlotReady .trap f s b →
      ∃ t, exec (.trap f) s = .next t ∧ ∀ l : Fin 32,
        ((b.slot .trap f s).ex.getLsbD l = true → HasThread t (b.slot .trap f s) l fun th =>
          ∃ r : TrapRec, th = { b.h.threads[l] with trap := some r } ∧ r.cause = 0x08#7 ∧
            r.addr = (((b.slot .trap f s).a[l]).lo).setWidth 64 ∧ r.trpc = trpcOf b.r.hpc b.r.slot ∧ r.skip = false ∧ r.rpc = b.r.next ∧ r.rslot = 0) ∧
        ((b.slot .trap f s).ex.getLsbD l = false → HasThread t (b.slot .trap f s) l fun th => th.trap = (b.h.threads[l]).trap)) ∧
    (∀ (f : Fields) (s : State) (b : At), SlotReady .brkpt f s b →
      ∃ t, exec (.brkpt f) s = .next t ∧ ∀ l : Fin 32,
        ((b.slot .brkpt f s).ex.getLsbD l = true → HasThread t (b.slot .brkpt f s) l fun th =>
          ∃ r : TrapRec, th = { b.h.threads[l] with trap := some r } ∧ r.cause = 0x07#7 ∧
            r.addr = (((b.slot .brkpt f s).a[l]).lo).setWidth 64 ∧ r.trpc = trpcOf b.r.hpc b.r.slot ∧ r.skip = false ∧ (r.rpc, r.rslot) = if (b.slot .brkpt f s).last then (b.r.next, 0) else (b.r.hpc, b.r.slot + slotLen f)) ∧
        ((b.slot .brkpt f s).ex.getLsbD l = false → HasThread t (b.slot .brkpt f s) l fun th => th.trap = (b.h.threads[l]).trap))) ∧
    (∀ (cid i : Nat) (s : State) (c : Crew), smGet s.crews cid = some c →
      ((c.dline[i]?.getD 0).getLsbD 63 = false ∨ s.time < fld (c.dline[i]?.getD 0) 62 0 → exec (.deadline cid i) s = .next s) ∧
      ∀ d, d = fld (c.dline[i]?.getD 0) 62 0 → (c.dline[i]?.getD 0).getLsbD 63 = true → d ≤ s.time →
        (∀ u, u = (s.modCrew cid fun c => { c with
            dline := c.dline.setIfInBounds i (BitVec.ofNat 64 d), dlstat := c.dlstat ||| BitVec.ofNat 4 (2 ^ i) }) →
          (c.firstLive = none → exec (.deadline cid i) s = .next u) ∧
          (∀ co lane, c.firstLive = some (co, lane) → exec (.deadline cid i) s = .next (u.dueTrap cid co lane (deadlineTrap i d)))))

/-- trapret, where every executing thread is in its handler and a target that is given is clean and good, completes: each
executing thread gets back the queue that was set aside, leaves its handler, and stands at the target given, or else at its
resume point; a thread that is not in its handler takes ILLEGAL_OPCODE. Nothing else changes beyond the frame of the slot. -/
def Obligations.TrapReturn : Prop :=
  (∀ (f : Fields) (s : State) (b : At), SlotReady .trapret f s b →
      (∀ l : Fin 32, (b.slot .trapret f s).ex.getLsbD l = true → (b.h.threads[l]).inHandler = true ∧
        (f.a.sel ≠ .none → ((b.slot .trapret f s).a[l]).p = false ∧ GoodTarget (((b.slot .trapret f s).a[l]).v.toNat : Int))) →
      ∃ u, exec (.trapret f) s = .next (u.modLanes b.r.cid b.r.co (b.slot .trapret f s).ex fun l th =>
          if f.a.sel = .none then
            { th with q := th.aside, aside := [], inHandler := false, pc := th.rpc, slot := th.rslot,
                      resumed := th.rskip || decide (0 < th.rslot), bpSkip := th.rskip }
          else { th with q := th.aside, aside := [], inHandler := false, pc := ((b.slot .trapret f s).a[l]).v, slot := 0,
                         resumed := false, bpSkip := false }) ∧
        RegFrame s u (b.slot .trapret f s) false) ∧
    (∀ (f : Fields) (s : State) (b : At), SlotReady .trapret f s b →
      ∃ t, exec (.trapret f) s = .next t ∧ ∀ l : Fin 32, (b.slot .trapret f s).ex.getLsbD l = true →
        (b.h.threads[l]).inHandler = false → HasThread t (b.slot .trapret f s) l fun th =>
          th = { b.h.threads[l] with trap := some (preciseTrap b.r cIllegalOpcode 0) })

/-- A thread of a crew with a handler, not in it, that takes a trap: %tcause, %taddr and %trpc get the trap's cause, address
and place, the resume point is recorded, the queue is set aside and a poisoned one takes its place, the thread is in its
handler and stands at %trph; its other registers, predicates and flags stay. With %trph 0, or in the handler already, the
trap is a fatal fault of the crew, under its own cause or TRAP_IN_HANDLER. -/
def Obligations.TrapEntry : Prop :=
  (∀ (s : State) (cid co : Nat) (l : Fin 32) (t : TrapRec) (c : Crew) (h : Cohort), smGet s.crews cid = some c →
      s.cohort? cid co = some h → (h.threads[l]).inHandler = false → c.trph ≠ 0 →
      ∃ hn : Cohort, (s.takeTrap cid co l.val t).cohort? cid co = some hn ∧
        hn.threads[l] = { h.threads[l] with
          tcause := t.cause, taddr := t.addr, trpc := t.trpc, inHandler := true, rpc := t.rpc, rslot := t.rslot,
          rskip := t.skip, aside := (h.threads[l]).q, q := List.replicate 16 QEnt.poison, pc := c.trph, slot := 0,
          resumed := false, bpSkip := false, trap := none, tok := none, grp := 0,
          lastFab := match t.peer with | some p => some (p, t.cause) | none => (h.threads[l]).lastFab } ∧
        ∀ j : Fin 32, j ≠ l → hn.threads[j] = h.threads[j]) ∧
    ∀ (s : State) (cid co : Nat) (l : Fin 32) (t : TrapRec) (c : Crew) (h : Cohort), smGet s.crews cid = some c →
      s.cohort? cid co = some h →
      ((h.threads[l]).inHandler = true →
        s.takeTrap cid co l.val t = (s.fatalWith cid { trapRecord co l.val t with kind := 1, cause := cTrapInHandler, inner := t.cause }).modThread cid co l.val fun th => { th with trap := none }) ∧
      ((h.threads[l]).inHandler = false → c.trph = 0 →
        s.takeTrap cid co l.val t = (s.fatalWith cid (trapRecord co l.val t)).modThread cid co l.val fun th => { th with trap := none })

/-- The eleven special functions complete wherever their slot is ready: a result is entered whose value in each executing
thread is the function of that thread's operands, or poison from a poisoned source, awaited by both flags of the clause;
each executing thread's destination awaits it, and nothing else changes beyond the frame of the slot. In FP32 and in FP16
every special function gives at zeros, infinities, 1, a NaN and a negative input the result the table of special inputs
states; division gives the canonical NaN for 0/0 and inf/inf, infinities and signed zeros as IEEE 754-2019. -/
def Obligations.SpecialFunctionResults : Prop :=
  (SfuPosts .frcp Instr.frcp ∧
    SfuPosts .frsq Instr.frsq ∧
    SfuPosts .fsqrt Instr.fsqrt ∧
    SfuPosts .fdiv Instr.fdiv ∧
    SfuPosts .fex2 Instr.fex2 ∧
    SfuPosts .flg2 Instr.flg2 ∧
    SfuPosts .fsin Instr.fsin ∧
    SfuPosts .fcos Instr.fcos ∧
    SfuPosts .ftanh Instr.ftanh ∧
    SfuPosts .fsig Instr.fsig ∧
    SfuPosts .ferf Instr.ferf) ∧
    ((sfuValue .frcp .f32 0x00000000#64 0 = 0x7F800000#64 ∧ sfuValue .frcp .f32 0x80000000#64 0 = 0xFF800000#64 ∧ sfuValue .frcp .f32 0x7F800000#64 0 = 0x00000000#64 ∧ sfuValue .frcp .f32 0xFF800000#64 0 = 0x80000000#64 ∧ sfuValue .frcp .f32 0xFFC12345#64 0 = 0x7FC00000#64) ∧
    (sfuValue .frcp .f16 0x0000#64 0 = 0x7C00#64 ∧ sfuValue .frcp .f16 0x8000#64 0 = 0xFC00#64 ∧ sfuValue .frcp .f16 0x7C00#64 0 = 0x0000#64 ∧ sfuValue .frcp .f16 0xFC00#64 0 = 0x8000#64 ∧ sfuValue .frcp .f16 0xFE31#64 0 = 0x7E00#64) ∧
    (sfuValue .frsq .f32 0x00000000#64 0 = 0x7F800000#64 ∧ sfuValue .frsq .f32 0x80000000#64 0 = 0xFF800000#64 ∧ sfuValue .frsq .f32 0x7F800000#64 0 = 0x00000000#64 ∧ sfuValue .frsq .f32 0xBF800000#64 0 = 0x7FC00000#64 ∧ sfuValue .frsq .f32 0xFF800000#64 0 = 0x7FC00000#64 ∧ sfuValue .frsq .f32 0xFFC12345#64 0 = 0x7FC00000#64) ∧
    (sfuValue .frsq .f16 0x0000#64 0 = 0x7C00#64 ∧ sfuValue .frsq .f16 0x8000#64 0 = 0xFC00#64 ∧ sfuValue .frsq .f16 0x7C00#64 0 = 0x0000#64 ∧ sfuValue .frsq .f16 0xBC00#64 0 = 0x7E00#64 ∧ sfuValue .frsq .f16 0xFC00#64 0 = 0x7E00#64 ∧ sfuValue .frsq .f16 0xFE31#64 0 = 0x7E00#64) ∧
    (sfuValue .fsqrt .f32 0x80000000#64 0 = 0x80000000#64 ∧ sfuValue .fsqrt .f32 0x7F800000#64 0 = 0x7F800000#64 ∧ sfuValue .fsqrt .f32 0xBF800000#64 0 = 0x7FC00000#64 ∧ sfuValue .fsqrt .f32 0xFF800000#64 0 = 0x7FC00000#64 ∧ sfuValue .fsqrt .f32 0xFFC12345#64 0 = 0x7FC00000#64) ∧
    (sfuValue .fsqrt .f16 0x8000#64 0 = 0x8000#64 ∧ sfuValue .fsqrt .f16 0x7C00#64 0 = 0x7C00#64 ∧ sfuValue .fsqrt .f16 0xBC00#64 0 = 0x7E00#64 ∧ sfuValue .fsqrt .f16 0xFC00#64 0 = 0x7E00#64 ∧ sfuValue .fsqrt .f16 0xFE31#64 0 = 0x7E00#64) ∧
    (sfuValue .fex2 .f32 0xFF800000#64 0 = 0x00000000#64 ∧ sfuValue .fex2 .f32 0x7F800000#64 0 = 0x7F800000#64 ∧ sfuValue .fex2 .f32 0x00000000#64 0 = 0x3F800000#64 ∧ sfuValue .fex2 .f32 0x80000000#64 0 = 0x3F800000#64 ∧ sfuValue .fex2 .f32 0xFFC12345#64 0 = 0x7FC00000#64) ∧
    (sfuValue .fex2 .f16 0xFC00#64 0 = 0x0000#64 ∧ sfuValue .fex2 .f16 0x7C00#64 0 = 0x7C00#64 ∧ sfuValue .fex2 .f16 0x0000#64 0 = 0x3C00#64 ∧ sfuValue .fex2 .f16 0x8000#64 0 = 0x3C00#64 ∧ sfuValue .fex2 .f16 0xFE31#64 0 = 0x7E00#64) ∧
    (sfuValue .flg2 .f32 0x00000000#64 0 = 0xFF800000#64 ∧ sfuValue .flg2 .f32 0x80000000#64 0 = 0xFF800000#64 ∧ sfuValue .flg2 .f32 0x3F800000#64 0 = 0x00000000#64 ∧ sfuValue .flg2 .f32 0x7F800000#64 0 = 0x7F800000#64 ∧ sfuValue .flg2 .f32 0xBF800000#64 0 = 0x7FC00000#64 ∧ sfuValue .flg2 .f32 0xFF800000#64 0 = 0x7FC00000#64 ∧ sfuValue .flg2 .f32 0xFFC12345#64 0 = 0x7FC00000#64) ∧
    (sfuValue .flg2 .f16 0x0000#64 0 = 0xFC00#64 ∧ sfuValue .flg2 .f16 0x8000#64 0 = 0xFC00#64 ∧ sfuValue .flg2 .f16 0x3C00#64 0 = 0x0000#64 ∧ sfuValue .flg2 .f16 0x7C00#64 0 = 0x7C00#64 ∧ sfuValue .flg2 .f16 0xBC00#64 0 = 0x7E00#64 ∧ sfuValue .flg2 .f16 0xFC00#64 0 = 0x7E00#64 ∧ sfuValue .flg2 .f16 0xFE31#64 0 = 0x7E00#64) ∧
    (sfuValue .fsin .f32 0x00000000#64 0 = 0x00000000#64 ∧ sfuValue .fsin .f32 0x80000000#64 0 = 0x80000000#64 ∧ sfuValue .fsin .f32 0x7F800000#64 0 = 0x7FC00000#64 ∧ sfuValue .fsin .f32 0xFF800000#64 0 = 0x7FC00000#64 ∧ sfuValue .fsin .f32 0xFFC12345#64 0 = 0x7FC00000#64) ∧
    (sfuValue .fsin .f16 0x0000#64 0 = 0x0000#64 ∧ sfuValue .fsin .f16 0x8000#64 0 = 0x8000#64 ∧ sfuValue .fsin .f16 0x7C00#64 0 = 0x7E00#64 ∧ sfuValue .fsin .f16 0xFC00#64 0 = 0x7E00#64 ∧ sfuValue .fsin .f16 0xFE31#64 0 = 0x7E00#64) ∧
    (sfuValue .fcos .f32 0x00000000#64 0 = 0x3F800000#64 ∧ sfuValue .fcos .f32 0x80000000#64 0 = 0x3F800000#64 ∧ sfuValue .fcos .f32 0x7F800000#64 0 = 0x7FC00000#64 ∧ sfuValue .fcos .f32 0xFF800000#64 0 = 0x7FC00000#64 ∧ sfuValue .fcos .f32 0xFFC12345#64 0 = 0x7FC00000#64) ∧
    (sfuValue .fcos .f16 0x0000#64 0 = 0x3C00#64 ∧ sfuValue .fcos .f16 0x8000#64 0 = 0x3C00#64 ∧ sfuValue .fcos .f16 0x7C00#64 0 = 0x7E00#64 ∧ sfuValue .fcos .f16 0xFC00#64 0 = 0x7E00#64 ∧ sfuValue .fcos .f16 0xFE31#64 0 = 0x7E00#64) ∧
    (sfuValue .ftanh .f32 0x00000000#64 0 = 0x00000000#64 ∧ sfuValue .ftanh .f32 0x80000000#64 0 = 0x80000000#64 ∧ sfuValue .ftanh .f32 0x7F800000#64 0 = 0x3F800000#64 ∧ sfuValue .ftanh .f32 0xFF800000#64 0 = 0xBF800000#64 ∧ sfuValue .ftanh .f32 0xFFC12345#64 0 = 0x7FC00000#64) ∧
    (sfuValue .ftanh .f16 0x0000#64 0 = 0x0000#64 ∧ sfuValue .ftanh .f16 0x8000#64 0 = 0x8000#64 ∧ sfuValue .ftanh .f16 0x7C00#64 0 = 0x3C00#64 ∧ sfuValue .ftanh .f16 0xFC00#64 0 = 0xBC00#64 ∧ sfuValue .ftanh .f16 0xFE31#64 0 = 0x7E00#64) ∧
    (sfuValue .ferf .f32 0x00000000#64 0 = 0x00000000#64 ∧ sfuValue .ferf .f32 0x80000000#64 0 = 0x80000000#64 ∧ sfuValue .ferf .f32 0x7F800000#64 0 = 0x3F800000#64 ∧ sfuValue .ferf .f32 0xFF800000#64 0 = 0xBF800000#64 ∧ sfuValue .ferf .f32 0xFFC12345#64 0 = 0x7FC00000#64) ∧
    (sfuValue .ferf .f16 0x0000#64 0 = 0x0000#64 ∧ sfuValue .ferf .f16 0x8000#64 0 = 0x8000#64 ∧ sfuValue .ferf .f16 0x7C00#64 0 = 0x3C00#64 ∧ sfuValue .ferf .f16 0xFC00#64 0 = 0xBC00#64 ∧ sfuValue .ferf .f16 0xFE31#64 0 = 0x7E00#64) ∧
    (sfuValue .fsig .f32 0xFF800000#64 0 = 0x00000000#64 ∧ sfuValue .fsig .f32 0x7F800000#64 0 = 0x3F800000#64 ∧ sfuValue .fsig .f32 0x00000000#64 0 = 0x3F000000#64 ∧ sfuValue .fsig .f32 0x80000000#64 0 = 0x3F000000#64 ∧ sfuValue .fsig .f32 0xFFC12345#64 0 = 0x7FC00000#64) ∧
    (sfuValue .fsig .f16 0xFC00#64 0 = 0x0000#64 ∧ sfuValue .fsig .f16 0x7C00#64 0 = 0x3C00#64 ∧ sfuValue .fsig .f16 0x0000#64 0 = 0x3800#64 ∧ sfuValue .fsig .f16 0x8000#64 0 = 0x3800#64 ∧ sfuValue .fsig .f16 0xFE31#64 0 = 0x7E00#64) ∧
    (sfuValue .fdiv .f32 0x00000000#64 0x80000000#64 = 0x7FC00000#64 ∧ sfuValue .fdiv .f32 0xFF800000#64 0x7F800000#64 = 0x7FC00000#64 ∧ sfuValue .fdiv .f32 0x3F800000#64 0x80000000#64 = 0xFF800000#64 ∧ sfuValue .fdiv .f32 0xBF800000#64 0xFF800000#64 = 0x00000000#64 ∧ sfuValue .fdiv .f32 0xFF800000#64 0xBF800000#64 = 0x7F800000#64 ∧ sfuValue .fdiv .f32 0xFFC12345#64 0x3F800000#64 = 0x7FC00000#64 ∧ sfuValue .fdiv .f32 0x3F800000#64 0xFFC12345#64 = 0x7FC00000#64 ∧ sfuValue .fdiv .f32 0x00000000#64 0xBF800000#64 = 0x80000000#64) ∧
    (sfuValue .fdiv .f16 0x0000#64 0x8000#64 = 0x7E00#64 ∧ sfuValue .fdiv .f16 0xFC00#64 0x7C00#64 = 0x7E00#64 ∧ sfuValue .fdiv .f16 0x3C00#64 0x8000#64 = 0xFC00#64 ∧ sfuValue .fdiv .f16 0xBC00#64 0xFC00#64 = 0x0000#64 ∧ sfuValue .fdiv .f16 0xFC00#64 0xBC00#64 = 0x7C00#64 ∧ sfuValue .fdiv .f16 0xFE31#64 0x3C00#64 = 0x7E00#64 ∧ sfuValue .fdiv .f16 0x3C00#64 0xFE31#64 = 0x7E00#64 ∧ sfuValue .fdiv .f16 0x0000#64 0xBC00#64 = 0x8000#64))

/-- For a barrier object whatever its fields: bar.init is refused unless PNA = EXA and ADJ, EXB and LDB are 0, and otherwise
sets EXA and PNA; plain arrival, drop, join, expectation with and without arrival and an engine's bytes fail under the
stated conditions with the stated causes, and otherwise make the stated update, after which the object flips when PNA = 0
and LDB = EXB; the flip steps PH modulo 2^16, adds ADJ to EXA, reloads PNA and clears ADJ, EXB and LDB. KIND 0, 1 and 2 of
bar.arr are the plain arrival, the drop and the join. A barrier object written at an index of a crew reads back as written
when its fields fit their widths; every other object of the crew and every byte of memory outside its 16 bytes read as
before. A release group of a completed grid barrier generation is released at its time, not while the partition is reshaped;
a generation stalled for 1 ms by crews that have not started faults the grid. A zone checkpoint is taken when every crew of
a zone-protected grid has arrived and is quiet: a crew that may not be checkpointed faults, otherwise every crew's
checkpoint becomes current and the generation completes. -/
def Obligations.BarrierObject : Prop :=
  (∀ (b : BarObj) (n : Nat),
    (b.init n = if b.pna ≠ b.exa ∨ b.adj ≠ 0 ∨ b.exb ≠ 0 ∨ b.ldb ≠ 0 then none else some { b with exa := n, pna := n }) ∧
    (b.arrive .plain = if b.pna = 0 then .error 0x31#7 else .ok (flipped { b with pna := b.pna - 1 })) ∧
    (b.arrive .drop = if b.pna = 0 ∨ (b.exa : Int) + b.adj = 0 then .error 0x31#7
      else if b.adj = -32768 then .error 0x37#7 else .ok (flipped { b with pna := b.pna - 1, adj := b.adj - 1 })) ∧
    (b.arrive .join = if b.adj = 32767 ∨ (b.exa : Int) + b.adj = 65535 then .error 0x37#7
      else .ok (flipped { b with adj := b.adj + 1 })) ∧
    (b.expect n false = if 2 ^ 32 ≤ b.exb + n then .error 0x37#7 else .ok (flipped { b with exb := b.exb + n })) ∧
    (b.expect n true = if 2 ^ 32 ≤ b.exb + n then .error 0x37#7 else if b.pna = 0 then .error 0x31#7
      else .ok (flipped { b with exb := b.exb + n, pna := b.pna - 1 })) ∧
    (b.addBytes n = if b.exb < b.ldb + n then none else some (flipped { b with ldb := b.ldb + n })) ∧
    arriveKind 0 = .plain ∧ arriveKind 1 = .drop ∧ arriveKind 2 = .join) ∧
    ((∀ (s : State) (c : Crew) (i : Nat) (b : BarObj), SafeState s → BarFits b →
    (s.setBar c i b).bar c i = b ∧ (∀ j, j ≠ i → (s.setBar c i b).bar c j = s.bar c j) ∧
      ∀ a, (a < c.barAt i ∨ c.barAt i + 16 ≤ a) → memGet (s.setBar c i b).mem a = memGet s.mem a) ∧
    (∀ (grid group : Nat) (s : State) (g : Grid) (t : Nat) (q : Machine.Part), smGet s.grids grid = some g → g.gbDone = some t →
      smGet s.parts g.part = some q →
      (q.qst = 1 ∨ q.qst = 2 ∨ q.qst = 4 ∨ max 1 (fld q.gbgrp 4 0) ≤ group ∨ s.time < t + group * q.gbstag.toNat →
        exec (.gbarRelease grid group) s = .next s) ∧
      (q.qst = 0 ∨ q.qst = 3 → group < max 1 (fld q.gbgrp 4 0) → t + group * q.gbstag.toNat ≤ s.time →
        ∀ u, u = forL (s.crews.filter fun x => x.2.grid = grid && x.2.lcl % max 1 (fld q.gbgrp 4 0) = group &&
            (x.2.st = .running || x.2.st = .debug)) s (fun x s => s.releaseGbar x.1 g.gbGen) →
          (u.gbarHeld grid g.gbGen = true → exec (.gbarRelease grid group) s = .next u) ∧
          (u.gbarHeld grid g.gbGen = false → exec (.gbarRelease grid group) s = .next (u.modGrid grid fun g => { g with gbDone := none })))) ∧
    (∀ (grid : Nat) (s : State) (g : Grid), smGet s.grids grid = some g →
      (g.gbArr = [] ∨ g.aborted ≠ none ∨ s.unstarted grid g = false ∨ s.time < g.gbSince + 1000000 →
        exec (.gbarStall grid) s = .next s) ∧
      (g.gbArr ≠ [] → g.aborted = none → s.unstarted grid g = true → g.gbSince + 1000000 ≤ s.time →
        ∀ cid c, (s.crews.find? fun x => x.2.grid = grid) = some (cid, c) →
          exec (.gbarStall grid) s = .next (s.fatal cid cCyclicWait 0 0))) ∧
    (∀ (grid : Nat) (s : State) (g : Grid) (l : List (Nat × Crew)), smGet s.grids grid = some g →
      l = s.crews.filter (fun x => x.2.grid = grid) →
      (declZp g.decl = false ∨ s.gbarFull grid g = false ∨ (∃ x ∈ l, x.2.st ≠ .running ∨ s.engineQuiet x.1 x.2 = false) →
        exec (.zoneCheckpoint grid) s = .next s) ∧
      (declZp g.decl = true → s.gbarFull grid g = true → (∀ x ∈ l, x.2.st = .running ∧ s.engineQuiet x.1 x.2 = true) →
        (∀ cid n, (l.findSome? fun x => (s.checkFault x.1 x.2).map fun n => (x.1, n)) = some (cid, n) →
          exec (.zoneCheckpoint grid) s = .next (s.fatal cid cCyclicWait 0 (n * 2 ^ 48))) ∧
        ((∀ x ∈ l, s.checkFault x.1 x.2 = none) → exec (.zoneCheckpoint grid) s = .next
          ((forL l s fun x s => { s.takeReserve g.part x.2.p true with
            checks := smSet (s.takeReserve g.part x.2.p true).checks x.1 (Check.mk ((s.takeReserve g.part x.2.p true).checkpoint x.1 x.2)
              (smGet (s.takeReserve g.part x.2.p true).reserves x.2.p)) }).gbarComplete grid)))))

/-- Where no executing thread faults, bar.init, bar.arr, bar.exp and bar.test complete: the threads act on their objects in
lane order, each as the barrier arithmetic says, and await BUSY, the phase before the update, or whether the phase has
passed (with the acquire of the object); bar.wait holds the threads whose phase still lasts and makes the acquire for the
others; gbar holds the executing threads and starts their release at partition scope, after which they arrive. Nothing else
changes beyond the frame of the slot. -/
def Obligations.BarrierInstructions : Prop :=
  InTurn .barInit Instr.barInit (fun _ x i s =>
      match barFault x ((x.a[i]).p || (x.b[i]).p) (x.a[i]).lo.toNat (decide (2 ^ 16 ≤ (x.b[i]).lo.toNat)) with
      | some c => .error c
      | none =>
        match (s.bar x.crew (x.a[i]).lo.toNat).init (x.b[i]).lo.toNat with
        | some b => .ok (s.setBar x.crew (x.a[i]).lo.toNat b, 0)
        | none => .ok (s, 1)) ∧
    InTurn .barArr Instr.barArr (fun f x i s =>
      match barFault x (x.a[i]).p (x.a[i]).lo.toNat false with
      | some c => .error c
      | none =>
        ((s.bar x.crew (x.a[i]).lo.toNat).arrive (arriveKind (f.mod.toNat % 4))).map fun b =>
          (s.setBar x.crew (x.a[i]).lo.toNat b, BitVec.ofNat 64 (s.bar x.crew (x.a[i]).lo.toNat).ph)) ∧
    InTurn .barExp Instr.barExp (fun f x i s =>
      match barFault x ((x.a[i]).p || (x.b[i]).p) (x.a[i]).lo.toNat false with
      | some c => .error c
      | none =>
        ((s.bar x.crew (x.a[i]).lo.toNat).expect (x.b[i]).lo.toNat (f.mod.getLsbD 0)).map fun b =>
          (s.setBar x.crew (x.a[i]).lo.toNat b, BitVec.ofNat 64 (s.bar x.crew (x.a[i]).lo.toNat).ph)) ∧
    InTurn .barTest Instr.barTest (fun _ x i s =>
      match barFault x ((x.a[i]).p || (x.b[i]).p) (x.a[i]).lo.toNat false with
      | some c => .error c
      | none =>
        if (s.bar x.crew (x.a[i]).lo.toNat).ph = (x.b[i]).lo.toNat % 2 ^ 16 then .ok (s, 0)
        else .ok (s.barAcquire x i.val (x.a[i]).lo.toNat, 1)) ∧
    (∀ (f : Fields) (s : State) (b : At), SlotReady .barWait f s b →
      (∀ l : Fin 32, (b.slot .barWait f s).ex.getLsbD l = true → ((b.slot .barWait f s).a[l]).p = false ∧ ((b.slot .barWait f s).b[l]).p = false ∧
        ((b.slot .barWait f s).a[l]).lo.toNat < b.c.sync) →
      ∃ u, exec (.barWait f) s = .next (forL
          (lanesOf ((b.slot .barWait f s).ex &&& ~~~laneFilter (b.slot .barWait f s).ex ((b.slot .barWait f s).phaseLasts s)))
          u fun i t => t.barAcquire (b.slot .barWait f s) i.val ((b.slot .barWait f s).a[i]).lo.toNat) ∧
        RegFrame (s.modLanes b.r.cid b.r.co (laneFilter (b.slot .barWait f s).ex ((b.slot .barWait f s).phaseLasts s)) (b.slot .barWait f s).holdPhase)
          u (b.slot .barWait f s) false) ∧
    (∀ (f : Fields) (s : State) (b : At), SlotReady .gbar f s b →
      ∃ u, exec (.gbar f) s = .next (u.startFence b.r.cid b.r.co
          b.r.tok (b.slot .gbar f s).ex (b.slot .gbar f s).trpc
          { hold := true, rel := true, acq := false, scope := 3, ranges := none, step := 0, waits := [], next := .arrive }) ∧
        RegFrame (s.modLanes b.r.cid b.r.co (b.slot .gbar f s).ex fun _ th =>
            { th with holds := .gbar ((smGet s.grids b.c.grid).elim 0 Grid.gbGen) :: th.holds }) u (b.slot .gbar f s) false)

/-- chn.bind with a clean uniform channel number within the crew's count, or bit 3 set, binds or unbinds the selector;
chn.pop removes the head word when a thread executes and each executing thread awaits its lane of it, or with DROP there is
no result; chn.try takes a word that no started clause is still to pop, and k[LK] is to tell whether it did, else 0 is
delivered; chn.cnt gives the words held, or with ROOM those that can be pushed. Nothing else changes beyond the frame of the
slot. A pusher that has waited 4,096 cluster cycles gets an overflow block, or its crew faults CYCLIC_WAIT when all 32 are
in use. The wait detector faults a crew that it has found deadlocked for 65,536 cluster cycles, and forgets one that is not. -/
def Obligations.ChannelInstructions : Prop :=
  ((∀ (f : Fields) (s : State) (b : At), SlotReady .chnBind f s b →
      (((b.slot .chnBind f s).uni (b.slot .chnBind f s).a).p = false ∧ ((b.slot .chnBind f s).uni (b.slot .chnBind f s).a).lo.toNat < 16 ∧
        (((b.slot .chnBind f s).uni (b.slot .chnBind f s).a).lo.toNat < 8 → ((b.slot .chnBind f s).uni (b.slot .chnBind f s).a).lo.toNat < b.c.chan)) →
      ∃ u, exec (.chnBind f) s = .next (u.modCohort b.r.cid b.r.co fun h => { h with ch := h.ch.setIfInBounds (f.mod.toNat % 8) (if 8 ≤ ((b.slot .chnBind f s).uni (b.slot .chnBind f s).a).lo.toNat then none else some ((b.slot .chnBind f s).uni (b.slot .chnBind f s).a).lo.toNat) }) ∧ RegFrame s u (b.slot .chnBind f s) false) ∧
    (∀ (f : Fields) (s : State) (b : At), SlotReady .chnPop f s b →
      (f.mod.getLsbD 3 = false) →
      Posts (.chnPop f) s ((if (b.slot .chnPop f s).ex = 0 then s else s.popChan b.r.cid (b.slot .chnPop f s).chan).addPend
        { (b.slot .chnPop f s).pend 1 (b.slot .chnPop f s).ex 0 (laneResults (b.slot .chnPop f s).ex (wordLane (some ((((b.c.chans[(b.slot .chnPop f s).chan]?).getD default).words.head?).getD (Vector.replicate 32 QEnt.poison))))) with
          kdst := none, kvals := BitVec.allOnes 32 }) (b.slot .chnPop f s) false (if (b.slot .chnPop f s).ex = 0 then s else s.popChan b.r.cid (b.slot .chnPop f s).chan).nextId) ∧
    (∀ (f : Fields) (s : State) (b : At), SlotReady .chnPop f s b →
      (f.mod.getLsbD 3 = true) →
      Acts (.chnPop f) s (if (b.slot .chnPop f s).ex = 0 then s else s.popChan b.r.cid (b.slot .chnPop f s).chan) (b.slot .chnPop f s)) ∧
    (∀ (f : Fields) (s : State) (b : At), SlotReady .chnTry f s b →
      ∀ t : Bool, t = (decide ((s.chanHeld (b.k / 6) b.r.cid (b.slot .chnTry f s).chan).1 < ((b.c.chans[(b.slot .chnTry f s).chan]?).getD default).filled) && decide ((b.slot .chnTry f s).ex ≠ 0)) →
      Posts (.chnTry f) s ((if t then s.popChan b.r.cid (b.slot .chnTry f s).chan else s).addPend
        { (b.slot .chnTry f s).pend 1 (b.slot .chnTry f s).ex 0 (laneResults (b.slot .chnTry f s).ex (wordLane (if t then ((b.c.chans[(b.slot .chnTry f s).chan]?).getD default).words.head? else none))) with
          kdst := if f.mod.toNat / 8 = 0 then none else some (f.mod.toNat / 8),
          kvals := if (if t then ((b.c.chans[(b.slot .chnTry f s).chan]?).getD default).words.head? else none).isSome then BitVec.allOnes 32 else 0 })
        (b.slot .chnTry f s) false (if t then s.popChan b.r.cid (b.slot .chnTry f s).chan else s).nextId) ∧
    (∀ (f : Fields) (s : State) (b : At), SlotReady .chnCnt f s b →
      Posts (.chnCnt f) s (s.addPend ((b.slot .chnCnt f s).pend 1 (b.slot .chnCnt f s).ex 0 (laneResults (b.slot .chnCnt f s).ex fun _ =>
        { val := [BitVec.ofNat 64 (if f.mod.getLsbD 3 then ((b.c.chans[(b.slot .chnCnt f s).chan]?).getD default).room else ((b.c.chans[(b.slot .chnCnt f s).chan]?).getD default).filled)], p := false }))) (b.slot .chnCnt f s) false s.nextId)) ∧
    (∀ (cid n : Nat) (s : State) (c : Crew) (x : Chan), smGet s.crews cid = some c → x = c.chans[n]?.getD default →
      (x.wait = none ∨ 8 ≤ n → exec (.channelGrow cid n) s = .next s) ∧
      ∀ t, x.wait = some t → n < 8 →
        (s.cyclesPast c.p t 4096 = false → exec (.channelGrow cid n) s = .next s) ∧
        (s.cyclesPast c.p t 4096 = true →
          (x.room ≠ 0 → exec (.channelGrow cid n) s = .next (s.modCrew cid fun c =>
            { c with chans := c.chans.setIfInBounds n { x with wait := none } })) ∧
          (x.room = 0 → c.blocks < 32 → exec (.channelGrow cid n) s = .next (s.modCrew cid fun c =>
            { c with chans := c.chans.setIfInBounds n x.grow })) ∧
          (x.room = 0 → 32 ≤ c.blocks → exec (.channelGrow cid n) s = .next
            (s.fatal cid cCyclicWait 0 (n * 2 ^ 48 + s.pushers c cid n))))) ∧
    (∀ (cid : Nat) (s : State) (c : Crew), smGet s.crews cid = some c →
      (s.deadlocked cid c = false → c.wdBlocked = none → exec (.cyclicWaitDetect cid) s = .next s) ∧
      (s.deadlocked cid c = false → c.wdBlocked ≠ none → exec (.cyclicWaitDetect cid) s = .next
        (s.modCrew cid fun c => { c with wdBlocked := none })) ∧
      (s.deadlocked cid c = true → c.wdBlocked = none → exec (.cyclicWaitDetect cid) s = .next
        (s.modCrew cid fun c => { c with wdBlocked := some (s.clock c.p) })) ∧
      (∀ t, s.deadlocked cid c = true → c.wdBlocked = some t →
        (s.cyclesPast c.p t 65536 = false → exec (.cyclicWaitDetect cid) s = .next s) ∧
        (s.cyclesPast c.p t 65536 = true → exec (.cyclicWaitDetect cid) s = .next (s.fatal cid cCyclicWait 0
          ((c.cohorts.zipIdx).foldl (fun m h => if h.1.live ≠ 0 then m + 2 ^ h.2 else m) 0)))))

/-- alw.bind with a clean uniform A whose fields are in range binds the handle: the destination it already names keeps its
value, any other starts at 0, KIND 3 discards it (alwBound); alw.test on a bound handle gives 1 when the value is positive
and at least B unsigned, else 0; alw.rd gives the value clamped to the signed 32-bit range; neither changes the handle. On
an unbound handle alw.test and alw.rd trap every thread of the bundle with ILLEGAL_OPERAND. Nothing else changes beyond the
frame of the slot. -/
def Obligations.AllowanceInstructions : Prop :=
  (∀ (f : Fields) (s : State) (b : At), SlotReady .alwBind f s b →
      (((b.slot .alwBind f s).uni (b.slot .alwBind f s).a).p = false ∧ bits ((b.slot .alwBind f s).uni (b.slot .alwBind f s).a).lo.toNat 29 12 = 0 ∧ ((bits ((b.slot .alwBind f s).uni (b.slot .alwBind f s).a).lo.toNat 31 30 = 1 ∨ bits ((b.slot .alwBind f s).uni (b.slot .alwBind f s).a).lo.toNat 31 30 = 2) → bits ((b.slot .alwBind f s).uni (b.slot .alwBind f s).a).lo.toNat 11 0 ≤ 3) ∧
        (bits ((b.slot .alwBind f s).uni (b.slot .alwBind f s).a).lo.toNat 31 30 = 1 → s.ownsPort b.c.part (bits ((b.slot .alwBind f s).uni (b.slot .alwBind f s).a).lo.toNat 11 0) = true)) →
      ∃ u, exec (.alwBind f) s = .next (u.modCohort b.r.cid b.r.co fun h =>
          { h with w := h.w.setIfInBounds (f.mod.toNat % 4) (alwBound u.time (bits ((b.slot .alwBind f s).uni (b.slot .alwBind f s).a).lo.toNat 31 30) (bits ((b.slot .alwBind f s).uni (b.slot .alwBind f s).a).lo.toNat 11 0) ((h.w[f.mod.toNat % 4]?).getD none)) }) ∧ RegFrame s u (b.slot .alwBind f s) false) ∧
    (∀ (f : Fields) (s : State) (b : At) (w : Alw), SlotReady .alwTest f s b → (b.h.w[f.mod.toNat % 4]?).getD none = some w →
      ((((lanesOf (b.slot .alwTest f s).ex).head?).map fun l => (b.slot .alwTest f s).b[l]).getD (Val.ok 0)).p = false →
      Posts (.alwTest f) s (s.addPend ((b.slot .alwTest f s).pend 1 (b.slot .alwTest f s).ex 0 (laneResults (b.slot .alwTest f s).ex fun _ =>
        { val := [if 0 < w.val ∧ (((((lanesOf (b.slot .alwTest f s).ex).head?).map fun l => (b.slot .alwTest f s).b[l]).getD (Val.ok 0)).lo.toNat : Int) ≤ w.val then 1 else 0], p := false })))
        (b.slot .alwTest f s) false s.nextId) ∧
    (∀ (f : Fields) (s : State) (b : At) (w : Alw), SlotReady .alwRd f s b → (b.h.w[f.mod.toNat % 4]?).getD none = some w →
      Posts (.alwRd f) s (s.addPend ((b.slot .alwRd f s).pend 1 (b.slot .alwRd f s).ex 0 (laneResults (b.slot .alwRd f s).ex fun _ =>
        { val := [BitVec.ofNat 64 (((if w.val < -(2 : Int) ^ 31 then -(2 : Int) ^ 31 else if (2 : Int) ^ 31 ≤ w.val then (2 : Int) ^ 31 - 1 else w.val) % 2 ^ 32).toNat)], p := false })))
        (b.slot .alwRd f s) false s.nextId) ∧
    (∀ (f : Fields) (s : State) (b : At), (b.h.w[f.mod.toNat % 4]?).getD none = none →
      (SlotReady .alwTest f s b → (b.slot .alwTest f s).ex = 0 → Acts (.alwTest f) s s (b.slot .alwTest f s)) ∧
      (SlotReady .alwRd f s b → (b.slot .alwRd f s).ex = 0 → Acts (.alwRd f) s s (b.slot .alwRd f s)) ∧
      (SlotReady .alwTest f s b → (b.slot .alwTest f s).ex ≠ 0 → ∃ t, exec (.alwTest f) s = .next t ∧ ∀ l : Fin 32, b.r.lanes.getLsbD l = true →
        HasThread t (b.slot .alwTest f s) l fun th => th = { b.h.threads[l] with trap := some (preciseTrap b.r cIllegalOperand 0) }) ∧
      (SlotReady .alwRd f s b → (b.slot .alwRd f s).ex ≠ 0 → ∃ t, exec (.alwRd f) s = .next t ∧ ∀ l : Fin 32, b.r.lanes.getLsbD l = true →
        HasThread t (b.slot .alwRd f s) l fun th => th = { b.h.threads[l] with trap := some (preciseTrap b.r cIllegalOperand 0) }))

/-- Where no executing thread faults a check, ld, ldu and lds complete. A result of the loaded width is entered; each
executing thread, in lane order (for ldu the lowest executing thread, for the bundle), has its bytes taken from the region
store buffer, the L0 or memory, or asks for them, and ld and ldu acquire where the word is a bound sync word; each executing
thread awaits the result. Nothing else changes beyond the frame of the slot. -/
def Obligations.LoadInstructions : Prop :=
  (∀ (f : Fields) (s : State) (b : At), SlotReady .ld f s b →
      (∀ l : Fin 32, (b.slot .ld f s).ex.getLsbD l = true → s.globalCheck (b.slot .ld f s) (((b.slot .ld f s).a[l]).p || ((b.slot .ld f s).b[l]).p) (globalEa (b.slot .ld f s).a[l] (b.slot .ld f s).b[l]) (accSize f (f.mod.toNat % 4)) false false true false = none) →
      ∀ kept, kept = (lanesOf (b.slot .ld f s).ex).map (fun i => (i.val, bufferBytes b.h.rgn.stores false (toW64 (globalEa (b.slot .ld f s).a[i] (b.slot .ld f s).b[i])).toNat (accSize f (f.mod.toNat % 4)))) →
      Posts (.ld f) s
        (forL kept (s.addPend { (b.slot .ld f s).pend (loadWidth f (f.mod.toNat % 4)) (b.slot .ld f s).ex (b.slot .ld f s).ex [] with
            joint := true, sx := f.mod.getLsbD 2, kept := kept }) fun k t =>
          (t.loadGlobal (b.slot .ld f s) s.nextId k.1 (accSize f (f.mod.toNat % 4)) (f.mod.toNat / 8 % 4) (f.mod.getLsbD 2)
            (toW64 (globalEa (b.slot .ld f s).a[(Fin.ofNat 32 k.1)] (b.slot .ld f s).b[(Fin.ofNat 32 k.1)])) k.2).loadAcquire (b.slot .ld f s) k.1 (f.mod.toNat / 8 % 4)
            (toW64 (globalEa (b.slot .ld f s).a[(Fin.ofNat 32 k.1)] (b.slot .ld f s).b[(Fin.ofNat 32 k.1)])) t.nextId)
        (b.slot .ld f s) (Ty.wide f.ty) s.nextId) ∧
    (∀ (f : Fields) (s : State) (b : At), SlotReady .ldu f s b → (b.slot .ldu f s).ex ≠ 0 →
      s.globalCheck (b.slot .ldu f s) (((b.slot .ldu f s).uni (b.slot .ldu f s).a).p || ((b.slot .ldu f s).uni (b.slot .ldu f s).b).p) (globalEa ((b.slot .ldu f s).uni (b.slot .ldu f s).a) ((b.slot .ldu f s).uni (b.slot .ldu f s).b)) (accSize f (f.mod.toNat % 4)) false false true false = none →
      ∀ lane va kept, lane = (((lanesOf (b.slot .ldu f s).ex).head?).map Fin.val).getD 0 →
      va = toW64 (globalEa ((b.slot .ldu f s).uni (b.slot .ldu f s).a) ((b.slot .ldu f s).uni (b.slot .ldu f s).b)) → kept = bufferBytes b.h.rgn.stores false va.toNat (accSize f (f.mod.toNat % 4)) →
      ∀ e, e = s.addPend { (b.slot .ldu f s).pend (loadWidth f (f.mod.toNat % 4)) (b.slot .ldu f s).ex (b.slot .ldu f s).ex [] with
          joint := true, sx := f.mod.getLsbD 2, kept := [(lane, kept)], bundle := true } →
      Posts (.ldu f) s
        ((e.loadGlobal (b.slot .ldu f s) s.nextId lane (accSize f (f.mod.toNat % 4)) (f.mod.toNat / 8 % 4) (f.mod.getLsbD 2) va kept).loadAcquire (b.slot .ldu f s) lane
          (f.mod.toNat / 8 % 4) va e.nextId)
        (b.slot .ldu f s) (Ty.wide f.ty) s.nextId) ∧
    (∀ (f : Fields) (s : State) (b : At), SlotReady .lds f s b →
      (∀ l : Fin 32, (b.slot .lds f s).ex.getLsbD l = true → s.stashCheck (b.slot .lds f s) (((b.slot .lds f s).a[l]).p || ((b.slot .lds f s).b[l]).p) (stashOff (b.slot .lds f s).a[l] (b.slot .lds f s).b[l]) (accSize f (f.mod.toNat % 4)) false false false = none) →
      ∀ kept, kept = (lanesOf (b.slot .lds f s).ex).map (fun i =>
        (i.val, bufferBytes b.h.rgn.stores true (b.c.base + (stashOff (b.slot .lds f s).a[i] (b.slot .lds f s).b[i]).toNat) (accSize f (f.mod.toNat % 4)))) →
      Posts (.lds f) s
        (forL kept (s.addPend { (b.slot .lds f s).pend (loadWidth f (f.mod.toNat % 4)) (b.slot .lds f s).ex (b.slot .lds f s).ex [] with
            sx := f.mod.getLsbD 2, kept := kept }) fun k t =>
          t.loadStash (b.slot .lds f s) s.nextId k.1 (accSize f (f.mod.toNat % 4)) f.ty (f.mod.getLsbD 2)
            (b.c.base + (stashOff (b.slot .lds f s).a[Fin.ofNat 32 k.1] (b.slot .lds f s).b[Fin.ofNat 32 k.1]).toNat) k.2)
        (b.slot .lds f s) (Ty.wide f.ty) s.nextId)

/-- A global load whose bytes the region store buffer holds gets them at once; otherwise, with HINT 0 and outside the host
window, with no request of the thread outstanding on the line and nothing ahead in its contrail, it gets them from the L0
line of the address, buffered bytes in preference; else it sends a request for them. A stash load reads the stash at once
where no line is mapped or the line is Valid, else it waits for the line. A byte read from a poisoned word makes the result
poison; bytes are little-endian, sign-extended when asked. -/
def Obligations.LoadedBytes : Prop :=
  (∀ (s : State) (x : Slot) (id lane n hint : Nat) (sx : Bool) (va : W64) (kept : List (Option Byte)),
      (kept.all Option.isSome = true →
        s.loadGlobal x id lane n hint sx va kept = s.resultLane id lane (loadWords sx (kept.map fun y => y.getD 0)) false) ∧
      (kept.all Option.isSome = false → hint % 2 = 0 → inHost va = false → s.lineBusy x.cid x.co lane va = false →
        s.trailed x.cid x.co lane va = false → ∀ l, (s.issue x.k).l0Line? x.asid va = some l →
        s.loadGlobal x id lane n hint sx va kept =
          (let r := loadValue sx kept ((l.data.drop (va.toNat % 128)).take n) (fun j => l.pz.getLsbD ((va.toNat % 128 + j) / 8))
           s.resultLane id lane r.val r.p)) ∧
      (kept.all Option.isSome = false → (hint % 2 ≠ 0 ∨ inHost va = true ∨ (s.issue x.k).l0Line? x.asid va = none) →
        s.loadGlobal x id lane n hint sx va kept = s.send (mkReq s x.p x.sl x.cid x.co lane (some id) x.asid va
          (.read n (decide (hint % 2 = 0) && !inHost va)) hint x.trpc (s.inRegion x.cid x.co)))) ∧
    (∀ (s : State) (x : Slot) (id lane n : Nat) (ty : Ty) (sx : Bool) (phys : Nat) (kept : List (Option Byte)),
      ((s.cluster x.p).mline? phys = none ∨ (∃ l, (s.cluster x.p).mline? phys = some l ∧ l.st = 2)) →
      s.loadStash x id lane n ty sx phys kept =
        (let r := loadValue sx kept (memRead s.mem (stashAddr x.p phys) n) (fun j => s.memPz.contains ((stashAddr x.p phys + j) / 8))
         (s.resultLane id lane r.val r.p).performLane id lane)) ∧
    (∀ (sx : Bool) (kept : List (Option Byte)) (d : List Byte) (pz : Nat → Bool),
      loadValue sx kept d pz =
        if (kept.zipIdx.any fun y => y.1.isNone && pz y.2) then { val := [], p := true }
        else { val := loadWords sx (kept.zipIdx.map fun y => y.1.getD (d.getD y.2 0)), p := false }) ∧
    (∀ (sx : Bool) (d : List Byte), d.length ≠ 16 →
      loadWords sx d = [if sx then toW64 (sext (8 * d.length) (natOfBytes d)) else BitVec.ofNat 64 (natOfBytes d)]) ∧
    ∀ (sx : Bool) (d : List Byte), d.length = 16 → loadWords sx d = [wordOfBytes (d.take 8), wordOfBytes (d.drop 8)]

/-- Where no executing thread faults a check, st and sts place the stores of the executing threads, ascending, in the
cohort's region store buffer, and nothing else changes beyond the frame of the slot: in particular no byte of memory. Where
the buffer would need a 65th line, the region is closed first: the slot waits for the close, restarts, or goes on after the
commit. -/
def Obligations.StoreInstructions : Prop :=
  (∀ (f : Fields) (s : State) (b : At), SlotReady .st f s b →
      (∀ l : Fin 32, (b.slot .st f s).ex.getLsbD l = true → s.globalCheck (b.slot .st f s) (((b.slot .st f s).a[l]).p || ((b.slot .st f s).b[l]).p) (globalEa (b.slot .st f s).a[l] (b.slot .st f s).b[l]) (accSize f (f.mod.toNat % 4)) false true true (storeData (b.slot .st f s) (accSize f (f.mod.toNat % 4)) l).2 = none) →
      (∀ e, s.buffer (b.slot .st f s) (slotStores f (b.slot .st f s) false (fun i => toW64 (globalEa (b.slot .st f s).a[i] (b.slot .st f s).b[i])) (accSize f (f.mod.toNat % 4))) = .ok e → Acts (.st f) s e (b.slot .st f s)) ∧
      ∀ e, s.buffer (b.slot .st f s) (slotStores f (b.slot .st f s) false (fun i => toW64 (globalEa (b.slot .st f s).a[i] (b.slot .st f s).b[i])) (accSize f (f.mod.toNat % 4))) = .error e → exec (.st f) s = .next e) ∧
    (∀ (f : Fields) (s : State) (b : At), SlotReady .sts f s b →
      (∀ l : Fin 32, (b.slot .sts f s).ex.getLsbD l = true → s.stashCheck (b.slot .sts f s) (((b.slot .sts f s).a[l]).p || ((b.slot .sts f s).b[l]).p) (stashOff (b.slot .sts f s).a[l] (b.slot .sts f s).b[l]) (accSize f (f.mod.toNat % 4)) false true (storeData (b.slot .sts f s) (accSize f (f.mod.toNat % 4)) l).2 = none) →
      (∀ e, s.buffer (b.slot .sts f s) (slotStores f (b.slot .sts f s) true (fun i => BitVec.ofNat 64 (b.c.base + (stashOff (b.slot .sts f s).a[i] (b.slot .sts f s).b[i]).toNat)) (accSize f (f.mod.toNat % 4))) = .ok e → Acts (.sts f) s e (b.slot .sts f s)) ∧
      ∀ e, s.buffer (b.slot .sts f s) (slotStores f (b.slot .sts f s) true (fun i => BitVec.ofNat 64 (b.c.base + (stashOff (b.slot .sts f s).a[i] (b.slot .sts f s).b[i]).toNat)) (accSize f (f.mod.toNat % 4))) = .error e → exec (.sts f) s = .next e)

/-- The buffer takes a slot's stores at its end, opening a region when none is open, as long as its region is new or it
needs at most 64 lines; else it commits, waits or restarts as the close decides. The bytes of a buffered range are those of
the latest store that covers each. A store of up to 8 bytes holds its operand's low bytes, little-endian, and is poisoned
with it. -/
def Obligations.RegionStoreBuffer : Prop :=
  (∀ (s : State) (x : Slot) (l : List RStore) (h : Cohort), s.cohort? x.cid x.co = some h →
      (h.rgn.opened = false ∨ bufferLines (h.rgn.stores ++ l) ≤ 64 → s.buffer x l = .ok ((s.regionHere x).modCohort x.cid x.co
        fun h => { h with rgn := { h.rgn with stores := h.rgn.stores ++ l } })) ∧
      (h.rgn.opened = true → 64 < bufferLines (h.rgn.stores ++ l) →
        s.buffer x l = match s.closeDecision x.cid x.co (some x.run.tok) with
          | .wait => .error (s.park x.k x.cid x.co { x.run with lanes := x.lanes })
          | .restart => .error (s.suspectRestart x.cid x.co)
          | .commit => .ok (((s.commitRegion x.cid x.co true).regionHere x).modCohort x.cid x.co
              fun h => { h with rgn := { h.rgn with stores := h.rgn.stores ++ l } }))) ∧
    (∀ (l : List RStore) (y : RStore) (stash : Bool) (a : Nat),
      bufferByte (l ++ [y]) stash a =
        if y.stash = stash ∧ y.addr.toNat ≤ a ∧ a < y.addr.toNat + y.data.length then some (y.data.getD (a - y.addr.toNat) 0)
        else bufferByte l stash a) ∧
    (∀ (stash : Bool) (a : Nat), bufferByte [] stash a = none) ∧
    ∀ (x : Slot) (n : Nat) (i : Fin 32), n ≠ 16 → storeData x n i = (bytesOfNat n (x.c[i]).v.toNat, (x.c[i]).p)

/-- Where the executing threads' operands of pref and bind are clean (and for bind the range's addresses good), pref sends a
request for each line that it may fetch and SETB follows them; bind and unbind act on the crew's bind table in lane order
and their results are awaited, a k destination of bind getting 1 on success, a poisoned index of unbind giving poison; fence
starts its release and acquire with its scope for the executing threads, which it holds; red.flush drains every committed
part of the crew and SETB follows. Nothing else changes beyond the frame of the slot. -/
def Obligations.BindAndFenceInstructions : Prop :=
  (∀ (f : Fields) (s : State) (b : At), SlotReady .pref f s b →
      (∀ l : Fin 32, (b.slot .pref f s).ex.getLsbD l = true → (((b.slot .pref f s).a[l]).p || ((b.slot .pref f s).b[l]).p) = false) → ∀ go, go = (laneFilter (b.slot .pref f s).ex fun i => (addrFault (globalEa (b.slot .pref f s).a[i] (b.slot .pref f s).b[i]) 1 0).isNone && !inHost (toW64 (globalEa (b.slot .pref f s).a[i] (b.slot .pref f s).b[i])) &&
          !(s.cluster (b.slot .pref f s).p).locked (some (b.slot .pref f s).asid) (lineVa (toW64 (globalEa (b.slot .pref f s).a[i] (b.slot .pref f s).b[i]))).toNat 128 false) →
      Acts (.pref f) s ((forL (lanesOf go) (s.addPend ((b.slot .pref f s).pend 0 0 go [])) fun i t =>
          t.send (mkReq t (b.slot .pref f s).p (b.slot .pref f s).sl (b.slot .pref f s).cid (b.slot .pref f s).co i.val (some s.nextId) (b.slot .pref f s).asid (lineVa (toW64 (globalEa (b.slot .pref f s).a[i] (b.slot .pref f s).b[i])))
            (.pref (f.mod.toNat % 4)) 0 (b.slot .pref f s).trpc (t.inRegion (b.slot .pref f s).cid (b.slot .pref f s).co))).settlePend s.nextId) (b.slot .pref f s)) ∧
    EachInTurn .bind Instr.bind (fun _ _ x l => (x.a[l]).p = false ∧ (x.b[l]).p = false ∧ (x.c[l]).p = false ∧
      addrFault ((x.a[l]).v.toNat : Int) (x.b[l]).lo.toNat 0 = none) (fun r => decide (r.toNat < 64)) (fun f x i s =>
      match smGet s.crews x.cid with
      | none => (s, 0)
      | some c =>
        (match (c.bindResult (f.mod.getLsbD 0) (x.a[i]).v (x.b[i]).lo.toNat (x.c[i]).v).2 with
          | some (n, b) => s.modCrew x.cid fun c => { c with bind := c.bind.setIfInBounds n (some b) }
          | none => s, (c.bindResult (f.mod.getLsbD 0) (x.a[i]).v (x.b[i]).lo.toNat (x.c[i]).v).1)) ∧
    (∀ (f : Fields) (s : State) (b : At), SlotReady .unbind f s b → ∀ (e : State) (vals : SMap LaneRes),
      forL (lanesOf (b.slot .unbind f s).ex) (s, []) (fun i y =>
        ((y.1.unbindLane b.r.cid (b.slot .unbind f s).a[i]).1, smSet y.2 i.val (y.1.unbindLane b.r.cid (b.slot .unbind f s).a[i]).2)) = (e, vals) →
      Posts (.unbind f) s (e.addPend ((b.slot .unbind f s).pend 1 (b.slot .unbind f s).ex 0 vals)) (b.slot .unbind f s) false e.nextId) ∧
    (∀ (s : State) (cid : Nat) (a : Val), s.unbindLane cid a =
      if a.p then (s, { val := [], p := true })
      else match (smGet s.crews cid).bind fun c => c.bind[a.lo.toNat]?.getD none with
      | some _ => (s.modCrew cid fun c => { c with bind := c.bind.setIfInBounds a.lo.toNat none }, { val := [0], p := false })
      | none => (s, { val := [0xFFFFFFFF], p := false })) ∧
    (∀ (f : Fields) (s : State) (b : At), SlotReady .fence f s b →
      Acts (.fence f) s (if (b.slot .fence f s).ex = 0 then s else s.startFence b.r.cid b.r.co b.r.tok (b.slot .fence f s).ex (b.slot .fence f s).trpc
        { hold := true, rel := decide (f.mod.toNat % 4 ≠ 0), acq := decide (f.mod.toNat % 4 ≠ 1), scope := f.mod.toNat / 4, ranges := none,
          step := 0, waits := [], next := .done }) (b.slot .fence f s)) ∧
    (∀ (f : Fields) (s : State) (b : At), SlotReady .redFlush f s b →
      ((b.slot .redFlush f s).ex = 0 → Acts (.redFlush f) s s (b.slot .redFlush f s)) ∧
      ((b.slot .redFlush f s).ex ≠ 0 → ∀ e, e = s.drainParts (b.slot .redFlush f s).p (fun y => decide (y.cid = b.r.cid)) →
        Acts (.redFlush f) s (e.startFence b.r.cid b.r.co b.r.tok (b.slot .redFlush f s).ex (b.slot .redFlush f s).trpc
          { hold := false, rel := true, acq := false, scope := 0, ranges := none, step := 1,
            waits := (List.range (e.nextId - s.nextId)).map (· + s.nextId), next := .done }) (b.slot .redFlush f s)))

/-- bind of 0 bytes gives 0x80000003, of an invalid object 0x80000004; of a range and object that an entry holds that
entry's index; of a range that overlaps one bound to another object 0x80000002; of a full table 0x80000001; else the index
of an empty entry, which takes the range widened to whole lines. Where several refusals apply this is the model's order (log
19). -/
def Obligations.BindResults : Prop :=
  ∀ (c : Crew) (gw : Bool) (a : W64) (len : Nat) (obj : W64) (y : Bind),
    y = { base := a.toNat / 128 * 128, len := ceilDiv (a.toNat + len) 128 * 128 - a.toNat / 128 * 128,
          w0 := (bindObj gw obj).1, w1 := obj } →
    (len = 0 → c.bindResult gw a len obj = (0x80000003, none)) ∧
    (len ≠ 0 → (if gw then obj.toNat % 8 ≠ 0 ∨ isCanon obj = false else c.sync ≤ obj.toNat) →
      c.bindResult gw a len obj = (0x80000004, none)) ∧
    (len ≠ 0 → (if gw then obj.toNat % 8 = 0 ∧ isCanon obj = true else obj.toNat < c.sync) →
      ((∃ n : Fin 64, c.bind[n] = some y) → ∃ n : Fin 64, c.bind[n] = some y ∧ c.bindResult gw a len obj = (BitVec.ofNat 64 n.val, none)) ∧
      ((∀ n : Fin 64, c.bind[n] ≠ some y) →
        ((∃ (n : Fin 64) (e : Bind), c.bind[n] = some e ∧ overlaps e.base (e.base + e.len) y.base (y.base + y.len) = true ∧
            (e.w0 ≠ y.w0 ∨ e.w1 ≠ y.w1)) → c.bindResult gw a len obj = (0x80000002, none)) ∧
        ((∀ (n : Fin 64) (e : Bind), c.bind[n] = some e → overlaps e.base (e.base + e.len) y.base (y.base + y.len) = true →
            e.w0 = y.w0 ∧ e.w1 = y.w1) →
          ((∀ n : Fin 64, c.bind[n] ≠ none) → c.bindResult gw a len obj = (0x80000001, none)) ∧
          ((∃ n : Fin 64, c.bind[n] = none) → ∃ n : Fin 64, c.bind[n] = none ∧
            c.bindResult gw a len obj = (BitVec.ofNat 64 n.val, some (n.val, y))))))

/-- Where no executing thread faults a check, the atomics complete: a result of the type's width is entered; in ascending
lane order atom and cas send their request to the home slice of the address, and atoms and cass act on the stash word at
once, or once its mapped line is Valid; each executing thread awaits the old value, and both flags its delivery. Nothing
else changes beyond the frame of the slot. -/
def Obligations.AtomicInstructions : Prop :=
  (∀ (f : Fields) (s : State) (b : At), SlotReady .atom f s b →
      (∀ l : Fin 32, (b.slot .atom f s).ex.getLsbD l = true → s.globalCheck (b.slot .atom f s) (((b.slot .atom f s).a[l]).p || ((b.slot .atom f s).b[l]).p) (globalEa (b.slot .atom f s).a[l] (b.slot .atom f s).b[l]) (atomBytes f) true true false ((b.slot .atom f s).c[l]).p = none) →
      Posts (.atom f) s (forL (lanesOf (b.slot .atom f s).ex) (s.addPend { (b.slot .atom f s).pend (if Ty.wide f.ty then 2 else 1) (b.slot .atom f s).ex (b.slot .atom f s).ex [] with joint := true }) fun i t =>
          t.sendAtomic (b.slot .atom f s) i.val (mkReq t (b.slot .atom f s).p (b.slot .atom f s).sl (b.slot .atom f s).cid (b.slot .atom f s).co i.val (some s.nextId) (b.slot .atom f s).asid (toW64 (globalEa (b.slot .atom f s).a[i] (b.slot .atom f s).b[i])) (.atomic (f.mod.toNat % 8) f.m3 f.ty ((b.slot .atom f s).c[i]).v) 0 (b.slot .atom f s).trpc false))
        (b.slot .atom f s) (Ty.wide f.ty) s.nextId) ∧
    (∀ (f : Fields) (s : State) (b : At), SlotReady .cas f s b →
      (∀ l : Fin 32, (b.slot .cas f s).ex.getLsbD l = true → s.globalCheck (b.slot .cas f s) ((b.slot .cas f s).a[l]).p (((b.slot .cas f s).a[l]).v.toNat : Int) (atomBytes f) true true false (((b.slot .cas f s).b[l]).p || ((b.slot .cas f s).c[l]).p) = none) →
      Posts (.cas f) s (forL (lanesOf (b.slot .cas f s).ex) (s.addPend { (b.slot .cas f s).pend (if Ty.wide f.ty then 2 else 1) (b.slot .cas f s).ex (b.slot .cas f s).ex [] with joint := true }) fun i t =>
          t.sendAtomic (b.slot .cas f s) i.val (mkReq t (b.slot .cas f s).p (b.slot .cas f s).sl (b.slot .cas f s).cid (b.slot .cas f s).co i.val (some s.nextId) (b.slot .cas f s).asid ((b.slot .cas f s).a[i]).v (.cas (Ty.wide f.ty) ((b.slot .cas f s).b[i]).v ((b.slot .cas f s).c[i]).v) 0 (b.slot .cas f s).trpc false))
        (b.slot .cas f s) (Ty.wide f.ty) s.nextId) ∧
    (∀ (f : Fields) (s : State) (b : At), SlotReady .atoms f s b →
      (∀ l : Fin 32, (b.slot .atoms f s).ex.getLsbD l = true → s.stashCheck (b.slot .atoms f s) (((b.slot .atoms f s).a[l]).p || ((b.slot .atoms f s).b[l]).p) (stashOff (b.slot .atoms f s).a[l] (b.slot .atoms f s).b[l]) (atomBytes f) true true ((b.slot .atoms f s).c[l]).p = none) →
      Posts (.atoms f) s (forL (lanesOf (b.slot .atoms f s).ex) (s.addPend { (b.slot .atoms f s).pend (if Ty.wide f.ty then 2 else 1) (b.slot .atoms f s).ex (b.slot .atoms f s).ex [] with joint := true }) fun i t =>
          bankAtomic (b.slot .atoms f s) s.nextId i.val ((b.slot .atoms f s).crew.base + ((stashOff (b.slot .atoms f s).a[i] (b.slot .atoms f s).b[i])).toNat) (.atomic (f.mod.toNat % 8) f.m3 f.ty ((b.slot .atoms f s).c[i]).v) t)
        (b.slot .atoms f s) (Ty.wide f.ty) s.nextId) ∧
    (∀ (f : Fields) (s : State) (b : At), SlotReady .cass f s b →
      (∀ l : Fin 32, (b.slot .cass f s).ex.getLsbD l = true → s.stashCheck (b.slot .cass f s) ((b.slot .cass f s).a[l]).p ((((b.slot .cass f s).a[l]).lo.toNat : Nat) : Int) (atomBytes f) true true (((b.slot .cass f s).b[l]).p || ((b.slot .cass f s).c[l]).p) = none) →
      Posts (.cass f) s (forL (lanesOf (b.slot .cass f s).ex) (s.addPend { (b.slot .cass f s).pend (if Ty.wide f.ty then 2 else 1) (b.slot .cass f s).ex (b.slot .cass f s).ex [] with joint := true }) fun i t =>
          bankAtomic (b.slot .cass f s) s.nextId i.val ((b.slot .cass f s).crew.base + (((((b.slot .cass f s).a[i]).lo.toNat : Nat) : Int)).toNat) (.cas (Ty.wide f.ty) ((b.slot .cass f s).b[i]).v ((b.slot .cass f s).c[i]).v) t)
        (b.slot .cass f s) (Ty.wide f.ty) s.nextId)

/-- The new word of an atomic on a clean word is old + x, the lesser, the greater, and, or, xor, or x itself, by OPX,
integers modulo the width and signed by the type, floats rounded; a swap writes its new value exactly when the old word is
clean and equals the compare operand bit for bit. A poisoned old word gives poison and stays poisoned except under exchange.
At a stash bank whose line is Valid or not mapped the word is read and written in one step, the old value is the result, and
no byte outside the word changes. -/
def Obligations.AtomicResults : Prop :=
  (∀ (t : Ty) (pro : Bool) (a b : W64),
      (Ty.flt t = false → opxApply 0 pro t a b = intOp t false (fun x y _ => x + y) a b 0 ∧
        opxApply 1 pro t a b = intOp t false (fun x y _ => if x ≤ y then x else y) a b 0 ∧
        opxApply 2 pro t a b = intOp t false (fun x y _ => if x ≤ y then y else x) a b 0) ∧
      (Ty.flt t = true → opxApply 0 pro t a b = fltOp t (fun f x y _ => fAddBits f x y) a b 0 ∧
        opxApply 1 pro t a b = fltOp t (fun f x y _ => fMinMax false pro f x y) a b 0 ∧
        opxApply 2 pro t a b = fltOp t (fun f x y _ => fMinMax true pro f x y) a b 0) ∧
      opxApply 3 pro t a b = a &&& b ∧ opxApply 4 pro t a b = a ||| b ∧ opxApply 5 pro t a b = a ^^^ b ∧ opxApply 6 pro t a b = b) ∧
    (∀ (o : Nat) (pro : Bool) (t : Ty) (v old : W64) (pz : Bool),
      atomicNew (.atomic o pro t v) old pz =
        some (bytesOfNat (if Ty.wide t then 8 else 4) (opxApply o pro t old v).toNat, pz && decide (o ≠ 6))) ∧
    (∀ (w : Bool) (c v old : W64) (pz : Bool), (w = false → old.toNat < 2 ^ 32) →
      atomicNew (.cas w c v) old pz =
        if pz = false ∧ c.toNat % 2 ^ (if w then 64 else 32) = old.toNat then some (bytesOfNat (if w then 8 else 4) v.toNat, false)
        else none) ∧
    (∀ (s : State) (p phys n : Nat) (op : ReqOp), (n = 4 ∨ n = 8) → (s.atomStash p phys n op).2 =
        { val := if s.readPz (stashAddr p phys) n then [] else [BitVec.ofNat 64 (natOfBytes (memRead s.mem (stashAddr p phys) n))],
          p := s.readPz (stashAddr p phys) n }) ∧
    ∀ (s : State) (p phys n : Nat) (op : ReqOp) (a : Nat), (n = 4 ∨ n = 8) →
      (∀ d q old, atomicNew op old (s.readPz (stashAddr p phys) n) = some (d, q) → d.length = n) →
      (a < stashAddr p phys ∨ stashAddr p phys + n ≤ a) → memGet (s.atomStash p phys n op).1.mem a = memGet s.mem a

/-- Where no executing thread faults a check, the threads act on their lines in lane order and SETB waits for the
write-backs that they ask for. Of a line: map makes it Empty for its address; unmap takes a Filling line and a dirty Valid
one out after their end, any other at once; wb asks the write-back of a dirty Valid line; inv empties a Valid line, or lets
a Filling one, or one that is being written back, end first. Nothing else changes beyond the frame of the slot. -/
def Obligations.StashMaintenance : Prop :=
  (∀ (f : Fields) (s : State) (b : At), SlotReady .stashMap f s b → ∀ (e : State) (m : BitVec 32),
      forL (lanesOf (b.slot .stashMap f s).ex) (s.addPend ((b.slot .stashMap f s).pend 0 0 (b.slot .stashMap f s).ex []), [], 0) (maintStep (b.slot .stashMap f s) .map s.nextId) = (e, [], m) →
      ∃ u, exec (.stashMap f) s = .next (u.settlePend s.nextId) ∧
        RegFrame (e.modPend s.nextId fun p => { p with waitPerf := m }) u (b.slot .stashMap f s) false) ∧
    (∀ (f : Fields) (s : State) (b : At), SlotReady .stashUnmap f s b → ∀ (e : State) (m : BitVec 32),
      forL (lanesOf (b.slot .stashUnmap f s).ex) (s.addPend ((b.slot .stashUnmap f s).pend 0 0 (b.slot .stashUnmap f s).ex []), [], 0) (maintStep (b.slot .stashUnmap f s) .unmap s.nextId) = (e, [], m) →
      ∃ u, exec (.stashUnmap f) s = .next (u.settlePend s.nextId) ∧
        RegFrame (e.modPend s.nextId fun p => { p with waitPerf := m }) u (b.slot .stashUnmap f s) false) ∧
    (∀ (f : Fields) (s : State) (b : At), SlotReady .stashWb f s b → ∀ (e : State) (m : BitVec 32),
      forL (lanesOf (b.slot .stashWb f s).ex) (s.addPend ((b.slot .stashWb f s).pend 0 0 (b.slot .stashWb f s).ex []), [], 0) (maintStep (b.slot .stashWb f s) .wb s.nextId) = (e, [], m) →
      ∃ u, exec (.stashWb f) s = .next (u.settlePend s.nextId) ∧
        RegFrame (e.modPend s.nextId fun p => { p with waitPerf := m }) u (b.slot .stashWb f s) false) ∧
    (∀ (f : Fields) (s : State) (b : At), SlotReady .stashInv f s b → ∀ (e : State) (m : BitVec 32),
      forL (lanesOf (b.slot .stashInv f s).ex) (s.addPend ((b.slot .stashInv f s).pend 0 0 (b.slot .stashInv f s).ex []), [], 0) (maintStep (b.slot .stashInv f s) .inv s.nextId) = (e, [], m) →
      ∃ u, exec (.stashInv f) s = .next (u.settlePend s.nextId) ∧
        RegFrame (e.modPend s.nextId fun p => { p with waitPerf := m }) u (b.slot .stashInv f s) false) ∧
    ∀ (cid : Nat) (va : W64) (w : Nat × Nat) (l : MLine),
      (∀ o, maintLine .map cid va w o = some { st := 0, cid := cid, va := va, mask := 0, w := false, waiters := [], inv := none, wb := [], un := false, cell := 0 }) ∧
      maintLine .unmap cid va w none = none ∧ maintLine .wb cid va w none = none ∧ maintLine .inv cid va w none = none ∧
      maintLine .unmap cid va w (some l) =
        (if l.st = 1 ∨ (l.st = 2 ∧ l.mask ≠ 0) then some { l with un := true, wb := l.wb ++ [w] } else none) ∧
      maintLine .wb cid va w (some l) = (if l.st = 2 ∧ l.mask ≠ 0 then some { l with wb := l.wb ++ [w] } else some l) ∧
      maintLine .inv cid va w (some l) =
        (if l.st = 1 ∨ (l.st = 2 ∧ l.wb ≠ []) then some { l with inv := some l.waiters.length }
         else if l.st = 2 then some { l with st := 0, mask := 0 } else some l)

/-- Where no executing thread faults a check, red opens a region when none is open and places the contributions of the
executing threads, in lane order, in the slice's atomic buffer; when that needs no region close, or the close may commit, it
completes so and nothing else changes beyond the frame of the slot; else it waits for the close or restarts. A contribution
whose key has an entry is combined into its lane's pending part, or committed part where no region is open; otherwise it
takes a new entry while the cohort holds fewer than 8. -/
def Obligations.ReductionInstructions : Prop :=
  (∀ (f : Fields) (s : State) (b : At), SlotReady .red f s b →
      (∀ l : Fin 32, (b.slot .red f s).ex.getLsbD l = true → s.globalCheck (b.slot .red f s) (((b.slot .red f s).a[l]).p || ((b.slot .red f s).b[l]).p) (globalEa (b.slot .red f s).a[l] (b.slot .red f s).b[l]) (atomBytes f) true true false ((b.slot .red f s).c[l]).p = none) →
      ∀ (e : State) (closed : Bool) (m : BitVec 32),
      forL (lanesOf (b.slot .red f s).ex) (s.regionHere (b.slot .red f s), false, 0) (redStep (b.slot .red f s) fun i => toW64 (globalEa (b.slot .red f s).a[i] (b.slot .red f s).b[i])) = (e, closed, m) →
      (closed = false ∨ (s.regionHere (b.slot .red f s)).closeDecision b.r.cid b.r.co (some b.r.tok) = .commit → Acts (.red f) s e (b.slot .red f s)) ∧
      (closed = true → (s.regionHere (b.slot .red f s)).closeDecision b.r.cid b.r.co (some b.r.tok) = .wait →
        exec (.red f) s = .next ((s.regionHere (b.slot .red f s)).park b.k b.r.cid b.r.co b.r)) ∧
      (closed = true → (s.regionHere (b.slot .red f s)).closeDecision b.r.cid b.r.co (some b.r.tok) = .restart →
        exec (.red f) s = .next ((s.regionHere (b.slot .red f s)).suspectRestart b.r.cid b.r.co))) ∧
    (∀ (s : State) (x : Slot) (lane : Nat) (m : BitVec 32) (va v : W64),
      ((s.issue x.k).red.any (redKey x va).same = true → s.redLane x lane m va v =
        (s.modIssue x.k fun i =>
          { i with red := i.red.map fun e => if (redKey x va).same e then e.add (s.inRegion x.cid x.co) lane v else e }, false)) ∧
      ((s.issue x.k).red.any (redKey x va).same = false → s.redEntries x < 8 → s.redLane x lane m va v =
        (s.modIssue x.k fun i => { i with red := i.red ++ [(redKey x va).add (s.inRegion x.cid x.co) lane v] }, false))) ∧
    ∀ (e : RedEnt) (lane : Nat) (v : W64),
      (smGet (e.add true lane v).pending lane = match smGet e.pending lane with
        | some y => some (opxApply e.opx e.pro e.ty y v)
        | none => some v) ∧ (e.add true lane v).done = e.done ∧
      (smGet (e.add false lane v).done lane = match smGet e.done lane with
        | some y => some (opxApply e.opx e.pro e.ty y v)
        | none => some v) ∧ (e.add false lane v).pending = e.pending

/-- Where no executing thread faults, the eight posting instructions complete: the threads offer their jobs in lane order,
each after the checks of its offset and descriptor, and await a handle, or ACC where the destination is a predicate. An
offer is refused with reason 1 when the chuck lacks room, 2 when no slot is free, 3 when the completion flag stands at 63,
and then changes nothing at all. Nothing else changes beyond the frame of the slot. -/
def Obligations.CopyPosts : Prop :=
  InTurn .cp Instr.cp (fun _ x i t =>
      match firstErr [failIf (x.a[i]).p cPoisonUse, failIf (decide ((x.a[i]).lo.toNat % 64 ≠ 0)) cMisaligned,
          failIf (decide (x.crew.dOff < (x.a[i]).lo.toNat + 64)) cStashBounds,
          t.cpFault x.crew .cp (eightWords (memRead t.mem (x.crew.stashAt (x.a[i]).lo.toNat) 64))] with
      | some c => .error c
      | none => .ok (t.cpOffer x i.val .cp 0 (eightWords (memRead t.mem (x.crew.stashAt (x.a[i]).lo.toNat) 64)))) ∧
    InTurn .cp2d Instr.cp2d (fun _ x i t =>
      match firstErr [failIf (x.a[i]).p cPoisonUse, failIf (decide ((x.a[i]).lo.toNat % 64 ≠ 0)) cMisaligned,
          failIf (decide (x.crew.dOff < (x.a[i]).lo.toNat + 64)) cStashBounds,
          t.cpFault x.crew .cp2d (eightWords (memRead t.mem (x.crew.stashAt (x.a[i]).lo.toNat) 64))] with
      | some c => .error c
      | none => .ok (t.cpOffer x i.val .cp2d 0 (eightWords (memRead t.mem (x.crew.stashAt (x.a[i]).lo.toNat) 64)))) ∧
    InTurn .cpGth Instr.cpGth (fun _ x i t =>
      match firstErr [failIf (x.a[i]).p cPoisonUse, failIf (decide ((x.a[i]).lo.toNat % 64 ≠ 0)) cMisaligned,
          failIf (decide (x.crew.dOff < (x.a[i]).lo.toNat + 64)) cStashBounds,
          t.cpFault x.crew .gth (eightWords (memRead t.mem (x.crew.stashAt (x.a[i]).lo.toNat) 64))] with
      | some c => .error c
      | none => .ok (t.cpOffer x i.val .gth 0 (eightWords (memRead t.mem (x.crew.stashAt (x.a[i]).lo.toNat) 64)))) ∧
    InTurn .cpSct Instr.cpSct (fun _ x i t =>
      match firstErr [failIf (x.a[i]).p cPoisonUse, failIf (decide ((x.a[i]).lo.toNat % 64 ≠ 0)) cMisaligned,
          failIf (decide (x.crew.dOff < (x.a[i]).lo.toNat + 64)) cStashBounds,
          t.cpFault x.crew .sct (eightWords (memRead t.mem (x.crew.stashAt (x.a[i]).lo.toNat) 64))] with
      | some c => .error c
      | none => .ok (t.cpOffer x i.val .sct 0 (eightWords (memRead t.mem (x.crew.stashAt (x.a[i]).lo.toNat) 64)))) ∧
    InTurn .cpMc Instr.cpMc (fun _ x i t =>
      match firstErr [failIf (x.a[i]).p cPoisonUse, failIf (decide ((x.a[i]).lo.toNat % 64 ≠ 0)) cMisaligned,
          failIf (decide (x.crew.dOff < (x.a[i]).lo.toNat + 64)) cStashBounds,
          t.cpFault x.crew .mc (eightWords (memRead t.mem (x.crew.stashAt (x.a[i]).lo.toNat) 64))] with
      | some c => .error c
      | none => .ok (t.cpOffer x i.val .mc 0 (eightWords (memRead t.mem (x.crew.stashAt (x.a[i]).lo.toNat) 64)))) ∧
    InTurn .cpSp Instr.cpSp (fun _ x i t =>
      match firstErr [failIf (x.a[i]).p cPoisonUse, failIf (decide ((x.a[i]).lo.toNat % 64 ≠ 0)) cMisaligned,
          failIf (decide (x.crew.dOff < (x.a[i]).lo.toNat + 64)) cStashBounds,
          t.cpFault x.crew .sp (eightWords (memRead t.mem (x.crew.stashAt (x.a[i]).lo.toNat) 64))] with
      | some c => .error c
      | none => .ok (t.cpOffer x i.val .sp 0 (eightWords (memRead t.mem (x.crew.stashAt (x.a[i]).lo.toNat) 64)))) ∧
    InTurn .cpRt Instr.cpRt (fun _ x i t =>
      match firstErr [failIf (x.a[i]).p cPoisonUse, failIf (decide ((x.a[i]).lo.toNat % 64 ≠ 0)) cMisaligned,
          failIf (decide (x.crew.dOff < (x.a[i]).lo.toNat + 64)) cStashBounds,
          t.cpFault x.crew .rt (eightWords (memRead t.mem (x.crew.stashAt (x.a[i]).lo.toNat) 64))] with
      | some c => .error c
      | none => .ok (t.cpOffer x i.val .rt 0 (eightWords (memRead t.mem (x.crew.stashAt (x.a[i]).lo.toNat) 64)))) ∧
    InTurn .cpFill Instr.cpFill (fun _ x i t =>
      match firstErr [failIf (x.a[i]).p cPoisonUse, failIf (decide ((x.a[i]).lo.toNat % 64 ≠ 0)) cMisaligned,
          failIf (decide (x.crew.dOff < (x.a[i]).lo.toNat + 64)) cStashBounds,
          t.cpFault x.crew .fill (eightWords (memRead t.mem (x.crew.stashAt (x.a[i]).lo.toNat) 64))] with
      | some c => .error c
      | none => .ok (t.cpOffer x i.val .fill 0 (eightWords (memRead t.mem (x.crew.stashAt (x.a[i]).lo.toNat) 64)))) ∧
    ∀ (s : State) (x : Slot) (lane : Nat) (k : CpKind) (q : Nat) (d : List W64) (c : Crew) (th : Thread),
      smGet s.crews x.cid = some c → s.thread? x.cid x.co lane = some th →
      ((s.cluster x.p).chuckRoom < (cpRanges c k d ((s.cluster x.p).freeSlots.getD
          (Config.slotFor s.tick % (s.cluster x.p).freeSlots.length) 0) s.nextId).length → s.cpOffer x lane k q d = (s, 2)) ∧
      ((cpRanges c k d ((s.cluster x.p).freeSlots.getD (Config.slotFor s.tick % (s.cluster x.p).freeSlots.length) 0)
          s.nextId).length ≤ (s.cluster x.p).chuckRoom →
        ((s.cluster x.p).freeSlots = [] → s.cpOffer x lane k q d = (s, 4)) ∧
        ((s.cluster x.p).freeSlots ≠ [] →
          (dCfe d = true → flagRoom th (dCfl d) = false → s.cpOffer x lane k q d = (s, 6)) ∧
          ((dCfe d = true → flagRoom th (dCfl d) = true) → (s.cpOffer x lane k q d).2.getLsbD 0 = true)))

/-- Where no executing thread faults, the four posting instructions of the matrix engine complete: the threads offer their
cards in lane order, each after the checks of its offset and card, and await a handle, or ACC where the destination is a
predicate; mx.zero names its banks in its operand. An offer is refused with reason 1 when a chuck lacks room, 2 when a
mandrel has no free slot, for a team card in any member, 3 when the completion flag stands at 63, and then changes nothing.
Nothing else changes beyond the frame of the slot. -/
def Obligations.MatrixPosts : Prop :=
  InTurn .mxPost Instr.mxPost (fun _ x i t =>
      match firstErr [failIf (x.a[i]).p cPoisonUse, failIf (decide ((x.a[i]).lo.toNat % 128 ≠ 0)) cMisaligned,
          failIf (decide (x.crew.dOff < (x.a[i]).lo.toNat + 128)) cStashBounds,
          mxFault .card (cardWords (memRead t.mem (x.crew.stashAt (x.a[i]).lo.toNat) 128)) x.crew] with
      | some c => .error c
      | none => .ok (t.mxOffer x i.val .card (cardWords (memRead t.mem (x.crew.stashAt (x.a[i]).lo.toNat) 128)))) ∧
    InTurn .mxTeam Instr.mxTeam (fun _ x i t =>
      match firstErr [failIf (x.a[i]).p cPoisonUse, failIf (decide ((x.a[i]).lo.toNat % 128 ≠ 0)) cMisaligned,
          failIf (decide (x.crew.dOff < (x.a[i]).lo.toNat + 128)) cStashBounds,
          mxFault .team (cardWords (memRead t.mem (x.crew.stashAt (x.a[i]).lo.toNat) 128)) x.crew] with
      | some c => .error c
      | none => .ok (t.mxOffer x i.val .team (cardWords (memRead t.mem (x.crew.stashAt (x.a[i]).lo.toNat) 128)))) ∧
    InTurn .mxDrain Instr.mxDrain (fun _ x i t =>
      match firstErr [failIf (x.a[i]).p cPoisonUse, failIf (decide ((x.a[i]).lo.toNat % 128 ≠ 0)) cMisaligned,
          failIf (decide (x.crew.dOff < (x.a[i]).lo.toNat + 128)) cStashBounds,
          mxFault .drain (cardWords (memRead t.mem (x.crew.stashAt (x.a[i]).lo.toNat) 128)) x.crew] with
      | some c => .error c
      | none => .ok (t.mxOffer x i.val .drain (cardWords (memRead t.mem (x.crew.stashAt (x.a[i]).lo.toNat) 128)))) ∧
    InTurn .mxZero Instr.mxZero (fun _ x i t =>
      if (x.a[i]).p then .error cPoisonUse
      else if 8 ≤ (x.a[i]).lo.toNat || (x.a[i]).lo.toNat % 4 = 0 then .error cMxCardInvalid
      else .ok (t.mxOffer x i.val .zero [BitVec.ofNat 64 (x.a[i]).lo.toNat])) ∧
    ∀ (s : State) (x : Slot) (lane : Nat) (k : MxKind) (d : List W64) (c : Crew) (th : Thread),
      smGet s.crews x.cid = some c → s.thread? x.cid x.co lane = some th →
      ((∃ y ∈ s.mxTargets x.cid c k, (s.cluster y.2.2.p).chuckRoom < (mxRanges k d y.2.2 (uvOf c.tw y.1)).length) →
        s.mxOffer x lane k d = (s, 2)) ∧
      ((∀ y ∈ s.mxTargets x.cid c k, (mxRanges k d y.2.2 (uvOf c.tw y.1)).length ≤ (s.cluster y.2.2.p).chuckRoom) →
        ((∃ y ∈ s.mxTargets x.cid c k, s.mxRoom (s.mxPreds c k d) y.2.2.p = []) → s.mxOffer x lane k d = (s, 4)) ∧
        ((∀ y ∈ s.mxTargets x.cid c k, s.mxRoom (s.mxPreds c k d) y.2.2.p ≠ []) → k ≠ .zero → mCfe d = true →
          flagRoom th (mCfl d) = false → s.mxOffer x lane k d = (s, 6)))

/-- Where no executing thread's handle is poisoned, cp.stat, mx.stat, cp.cancel and mx.cancel complete. The statuses give
each thread the word of its job, 0 or 0xFFFFFFFF for one that is gone, and change no job. The cancels act in lane order: a
gone job gives 0xFFFFFFFF; one that has ended gives its bytes and stays; one that a save ended keeps its status and bytes;
one that runs ends CANCELLED and gives its bytes, or, while a copy has granules under way, is to end at their landing.
Nothing else changes beyond the frame of the slot. -/
def Obligations.JobStatusInstructions : Prop :=
  InTurn .cpStat Instr.cpStat (fun f x i t =>
      if (x.a[i]).p then .error cPoisonUse else .ok (t, t.cpStatus x (decide (f.mod ≠ 0)) (x.a[i]).v)) ∧
    InTurn .mxStat Instr.mxStat (fun f x i t =>
      if f.mod = 3 then .ok (t, BitVec.ofNat 64 (bankWord (t.cluster x.p) x.cid))
      else if (x.a[i]).p then .error cPoisonUse
      else .ok (t, t.mxStatus x f.mod.toNat (x.a[i]).v)) ∧
    Cancels .cpCancel Instr.cpCancel (fun x w i t => t.cpCancelOne x w (x.a[i]).v) ∧
    Cancels .mxCancel Instr.mxCancel (fun x _ i t => t.mxCancelOne x (x.a[i]).v) ∧
    (∀ (s : State) (x : Slot) (w : Nat × Nat) (h : W64), s.cpNamed x h = none →
      (x.crew.cutOf false h = none → s.cpStatus x false h = 0 ∧ s.cpStatus x true h = 0xFFFFFFFF ∧
        s.cpCancelOne x w h = (s, some 0xFFFFFFFF)) ∧
      (∀ t, x.crew.cutOf false h = some t → s.cpStatus x false h = 5 ∧ s.cpStatus x true h = BitVec.ofNat 64 (t.bytes % 2 ^ 32) ∧
        s.cpCancelOne x w h = (s, some t.bytes))) ∧
    (∀ (s : State) (x : Slot) (w : Nat × Nat) (h : W64) (n : Nat) (j : CpJob), s.cpNamed x h = some (n, j) →
      s.cpStatus x false h = BitVec.ofNat 64 (j.st.code + (if j.st = .failed then 16 * j.cause.toNat else 0)) ∧
      s.cpStatus x true h = BitVec.ofNat 64 (j.bytes % 2 ^ 32) ∧
      (j.st.over = true → s.cpCancelOne x w h = (s, some j.bytes)) ∧
      (j.st.over = false → j.out = [] → s.cpCancelOne x w h = (s.cpEnd x.p n j .cancelled 0, some j.bytes)) ∧
      (j.st.over = false → j.out ≠ [] → (s.cpCancelOne x w h).2 = none)) ∧
    (∀ (s : State) (x : Slot) (h : W64), s.mxNamed x h = none →
      (x.crew.cutOf true h = none → s.mxStatus x 0 h = 0 ∧ s.mxStatus x 1 h = 0xFFFFFFFF ∧ s.mxStatus x 2 h = 0xFFFFFFFF ∧
        s.mxCancelOne x h = (s, some 0xFFFFFFFF)) ∧
      (∀ t, x.crew.cutOf true h = some t → s.mxStatus x 0 h = 5 ∧ s.mxCancelOne x h = (s, some t.bytes))) ∧
    ∀ (s : State) (x : Slot) (h : W64) (n : Nat) (e : MxEnt), s.mxNamed x h = some (n, e) →
      s.mxStatus x 1 h = BitVec.ofNat 64 ((s.mxParts e).foldl (fun n y => min n y.2.2.steps) e.steps % 2 ^ 32) ∧
      s.mxStatus x 2 h = BitVec.ofNat 64 (s.mxTotal e % 2 ^ 32) ∧
      ((s.mxWhole e).over = true → s.mxCancelOne x h = (s, some (s.mxTotal e))) ∧
      ((s.mxWhole e).over = false → s.mxCancelOne x h = (s.mxEndAll x.p n e .cancelled 0, some (s.mxTotal e)))

/-- Where no executing thread faults a check of handle, peer, address or data, the fabric instructions complete. Each takes
its charge off the handle, a write to a mirrored peer twice. ldf takes bytes from the write-combining buffer or sends its
reads; stf puts its bytes into the buffer; atomf and casf drain the line they overlap and are sent; fcp posts to the copy
engine; wcb.flush drains all lines, or those of its peer, and SETB waits for them; fpeer gives its word. Results are
awaited; nothing else changes beyond the frame of the slot. -/
def Obligations.FabricInstructions : Prop :=
  (∀ (f : Fields) (s : State) (b : At), SlotReady .ldf f s b →
      (∀ l : Fin 32, (b.slot .ldf f s).ex.getLsbD l = true → firstErr [s.peerFault (b.slot .ldf f s), globalFault (((b.slot .ldf f s).a[l]).p || ((b.slot .ldf f s).b[l]).p) (globalEa (b.slot .ldf f s).a[l] (b.slot .ldf f s).b[l]) (accSize f (f.mod.toNat / 4 % 4)) false] = none) →
      ∀ kept, kept = (lanesOf (b.slot .ldf f s).ex).map (fun i => (i.val, (s.cluster (b.k / 6)).wcbBytes b.c.part ((b.slot .ldf f s).peerOf.getD 0) (toW64 (globalEa (b.slot .ldf f s).a[i] (b.slot .ldf f s).b[i])) (accSize f (f.mod.toNat / 4 % 4)))) →
      Posts (.ldf f) s
        (forL kept ((s.addPend { (b.slot .ldf f s).pend (loadWidth f (f.mod.toNat / 4 % 4)) (b.slot .ldf f s).ex (b.slot .ldf f s).ex [] with joint := true, sx := f.mod.getLsbD 4, kept := kept }).charge
            (b.slot .ldf f s) ((accSize f (f.mod.toNat / 4 % 4)) * laneCount (b.slot .ldf f s).ex)) (ldfLane (b.slot .ldf f s) s.nextId (accSize f (f.mod.toNat / 4 % 4)) (f.mod.getLsbD 4) fun i => toW64 (globalEa (b.slot .ldf f s).a[i] (b.slot .ldf f s).b[i])))
        (b.slot .ldf f s) (Ty.wide f.ty) s.nextId) ∧
    (∀ (f : Fields) (s : State) (b : At), SlotReady .stf f s b →
      (∀ l : Fin 32, (b.slot .stf f s).ex.getLsbD l = true → firstErr [s.peerFault (b.slot .stf f s), globalFault (((b.slot .stf f s).a[l]).p || ((b.slot .stf f s).b[l]).p) (globalEa (b.slot .stf f s).a[l] (b.slot .stf f s).b[l]) (accSize f (f.mod.toNat / 4 % 4)) false, failIf (storeData (b.slot .stf f s) (accSize f (f.mod.toNat / 4 % 4)) l).2 cPoisonStore] = none) →
      Acts (.stf f) s (forL (lanesOf (b.slot .stf f s).ex) (s.charge (b.slot .stf f s) (s.writeCharge (b.slot .stf f s) (accSize f (f.mod.toNat / 4 % 4)) * laneCount (b.slot .stf f s).ex)) fun i t =>
          t.wcbPut (b.k / 6) b.c.part ((b.slot .stf f s).peerOf.getD 0) (b.r.cid, b.r.co) (toW64 (globalEa (b.slot .stf f s).a[i] (b.slot .stf f s).b[i])) (storeData (b.slot .stf f s) (accSize f (f.mod.toNat / 4 % 4)) i).1) (b.slot .stf f s)) ∧
    (∀ (f : Fields) (s : State) (b : At), SlotReady .atomf f s b →
      (∀ l : Fin 32, (b.slot .atomf f s).ex.getLsbD l = true → firstErr [s.peerFault (b.slot .atomf f s), globalFault (((b.slot .atomf f s).a[l]).p || ((b.slot .atomf f s).b[l]).p) (globalEa (b.slot .atomf f s).a[l] (b.slot .atomf f s).b[l]) (atomBytes f) true, failIf ((b.slot .atomf f s).c[l]).p cPoisonStore] = none) →
      Posts (.atomf f) s
        (forL (lanesOf (b.slot .atomf f s).ex) ((s.addPend { (b.slot .atomf f s).pend (if Ty.wide f.ty then 2 else 1) (b.slot .atomf f s).ex (b.slot .atomf f s).ex [] with joint := true }).charge (b.slot .atomf f s) (atomBytes f * laneCount (b.slot .atomf f s).ex))
          (fabAtomicLane (b.slot .atomf f s) s.nextId (fun i => toW64 (globalEa (b.slot .atomf f s).a[i] (b.slot .atomf f s).b[i])) (f.mod.toNat / 4 % 8)
            fun i => bytesOfNat 8 ((b.slot .atomf f s).c[i]).v.toNat ++ bytesOfNat 24 (if f.mod.getLsbD 5 then 1 else 0)))
        (b.slot .atomf f s) (Ty.wide f.ty) s.nextId) ∧
    (∀ (f : Fields) (s : State) (b : At), SlotReady .casf f s b →
      (∀ l : Fin 32, (b.slot .casf f s).ex.getLsbD l = true → firstErr [s.peerFault (b.slot .casf f s), globalFault ((b.slot .casf f s).a[l]).p (((b.slot .casf f s).a[l]).v.toNat : Int) (atomBytes f) true, failIf (((b.slot .casf f s).b[l]).p || ((b.slot .casf f s).c[l]).p) cPoisonStore] = none) →
      Posts (.casf f) s
        (forL (lanesOf (b.slot .casf f s).ex) ((s.addPend { (b.slot .casf f s).pend (if Ty.wide f.ty then 2 else 1) (b.slot .casf f s).ex (b.slot .casf f s).ex [] with joint := true }).charge (b.slot .casf f s) (atomBytes f * laneCount (b.slot .casf f s).ex))
          (fabAtomicLane (b.slot .casf f s) s.nextId (fun i => ((b.slot .casf f s).a[i]).v) 8
            fun i => bytesOfNat 8 ((b.slot .casf f s).b[i]).v.toNat ++ bytesOfNat 24 ((b.slot .casf f s).c[i]).v.toNat))
        (b.slot .casf f s) (Ty.wide f.ty) s.nextId) ∧
    (∀ (f : Fields) (s : State) (b : At), SlotReady .fcp f s b →
      (∀ l : Fin 32, (b.slot .fcp f s).ex.getLsbD l = true → firstErr [s.peerFault (b.slot .fcp f s), failIf ((b.slot .fcp f s).a[l]).p cPoisonUse, failIf (decide (((b.slot .fcp f s).a[l]).lo.toNat % 64 ≠ 0)) cMisaligned, failIf (decide ((b.slot .fcp f s).crew.dOff < ((b.slot .fcp f s).a[l]).lo.toNat + 64)) cStashBounds, s.cpFault (b.slot .fcp f s).crew .fcp (eightWords (memRead s.mem ((b.slot .fcp f s).crew.stashAt ((b.slot .fcp f s).a[l]).lo.toNat) 64))] = none) →
      ∀ (e : State) (vals : SMap W64),
      laneRun (fun i t => .ok (t.cpOffer (b.slot .fcp f s) i.val .fcp ((b.slot .fcp f s).peerOf.getD 0) (eightWords (memRead s.mem ((b.slot .fcp f s).crew.stashAt ((b.slot .fcp f s).a[i]).lo.toNat) 64)))) (lanesOf (b.slot .fcp f s).ex)
        (s.charge (b.slot .fcp f s) ((lanesOf (b.slot .fcp f s).ex).foldl (fun n i => n + (if isPush .fcp (eightWords (memRead s.mem ((b.slot .fcp f s).crew.stashAt ((b.slot .fcp f s).a[i]).lo.toNat) 64)) then
            s.writeCharge (b.slot .fcp f s) (dNum (eightWords (memRead s.mem ((b.slot .fcp f s).crew.stashAt ((b.slot .fcp f s).a[i]).lo.toNat) 64)) * dLen (eightWords (memRead s.mem ((b.slot .fcp f s).crew.stashAt ((b.slot .fcp f s).a[i]).lo.toNat) 64))) else dNum (eightWords (memRead s.mem ((b.slot .fcp f s).crew.stashAt ((b.slot .fcp f s).a[i]).lo.toNat) 64)) * dLen (eightWords (memRead s.mem ((b.slot .fcp f s).crew.stashAt ((b.slot .fcp f s).a[i]).lo.toNat) 64)))) 0), []) =
        some (e, vals) →
      Posts (.fcp f) s (e.addPend ((b.slot .fcp f s).postPend (b.slot .fcp f s).ex vals fun r => r.getLsbD 0)) (b.slot .fcp f s) false e.nextId) ∧
    (∀ (f : Fields) (s : State) (b : At), SlotReady .wcbFlush f s b → (b.slot .wcbFlush f s).ex ≠ 0 →
      (f.mod.getLsbD 2 = true → s.peerFault (b.slot .wcbFlush f s) = none) →
      ∀ e, e = s.drainWcb (b.k / 6) (fun w => !f.mod.getLsbD 2 || (decide (w.part = b.c.part) && decide (w.peer = (b.slot .wcbFlush f s).peerOf.getD 0))) →
      Acts (.wcbFlush f) s (e.startFence b.r.cid b.r.co b.r.tok (b.slot .wcbFlush f s).ex (b.slot .wcbFlush f s).trpc
          { hold := false, rel := false, acq := false, scope := 0, ranges := none, step := 0,
            waits := (List.range (e.nextId - s.nextId)).map (· + s.nextId), next := .done }) (b.slot .wcbFlush f s)) ∧
    (∀ (f : Fields) (s : State) (b : At), SlotReady .fpeer f s b → (f.mod.toNat / 4 % 4 = 0 → (b.slot .fpeer f s).peerOf ≠ none) →
      Posts (.fpeer f) s
        (s.addPend { (b.slot .fpeer f s).pend 1 (b.slot .fpeer f s).ex (b.slot .fpeer f s).ex (laneResults (b.slot .fpeer f s).ex fun i => { val := [BitVec.ofNat 64 (fpeerWord s (b.slot .fpeer f s) i)], p := false }) with joint := true })
        (b.slot .fpeer f s) false s.nextId)

/-- Where no executing thread faults, the seal instructions complete, the threads acting in lane order. seal.open awaits a
handle; it is refused with reason 1 where no context is free, 2 where the crew holds 4, 3 where the partition owns no
key-service share, and then touches nothing. seal.abs enters an absorb and its source range, seal.fin the finish and its
destination range, and their results follow; seal.abt ends the context with an abort record of REASON 2 and gives the bytes
absorbed. Nothing else changes beyond the frame of the slot. -/
def Obligations.SealInstructions : Prop :=
  InTurn .sealOpen Instr.sealOpen (fun _ x i t =>
      if (x.a[i]).p || (x.b[i]).p then .error cPoisonUse
      else if 4 ≤ (x.a[i]).lo.toNat then .error cIllegalOperand
      else .ok (t.sealOpen x i.val (x.a[i]).lo.toNat (x.b[i]).v)) ∧
    LateInTurn .sealAbs Instr.sealAbs (fun f x id i t =>
      if (x.a[i]).p || (x.b[i]).p || (x.c[i]).p then .error cPoisonUse
      else t.sealAbsorb x id i.val (f.mod.getLsbD 0) (x.a[i]).lo (x.b[i]).v (x.c[i]).lo.toNat) ∧
    LateInTurn .sealFin Instr.sealFin (fun f x id i t =>
      if (x.a[i]).p || (x.b[i]).p then .error cPoisonUse
      else t.sealFinish x id i.val (f.mod.getLsbD 0) (x.a[i]).lo (x.b[i]).v) ∧
    InTurn .sealAbt Instr.sealAbt (fun _ x i t =>
      if (x.a[i]).p then .error cPoisonUse
      else
        match (t.cluster x.p).sealNamed x.cid (x.a[i]).lo with
        | none => .error cSealInvalid
        | some (j, y) => .ok (t.abortSeal x.p j y 2 0, BitVec.ofNat 64 (y.data.length % 2 ^ 32))) ∧
    (∀ (s : State) (x : Slot) (lane alg : Nat) (l : W64) (p : Part), smGet s.parts x.crew.part = some p →
      ((∀ i < 16, (smGet (s.cluster x.p).seals i).isSome = true) → s.sealOpen x lane alg l = (s, 2)) ∧
      ((∃ i < 16, smGet (s.cluster x.p).seals i = none) →
        (4 ≤ (s.cluster x.p).sealsOf x.cid → s.sealOpen x lane alg l = (s, 4)) ∧
        ((s.cluster x.p).sealsOf x.cid < 4 →
          (p.res.shares = [] → s.sealOpen x lane alg l = (s, 6)) ∧
          (p.res.shares ≠ [] → ∃ i < 16, smGet (s.cluster x.p).seals i = none ∧
            (s.sealOpen x lane alg l).2 = sealHandle (s.cluster x.p).sealSerial i)))) ∧
    ∀ (s : State) (x : Slot) (id lane : Nat) (st : Bool) (h : W32) (va : W64) (n : Nat),
      (s.cluster x.p).sealNamed x.cid h = none →
      s.sealAbsorb x id lane st h va n = .error cSealInvalid ∧ s.sealFinish x id lane st h va = .error cSealInvalid

/-- Where every executing thread names a register and holder it may read, sysrd completes and each thread awaits the
register's value; a read of %time.lo sets the time latch. A tenant read of 0x100 to 0xFFF is PRIV, of an unlisted number
ILLEGAL_OPERAND. syswr writes its registers in lane order; a read-only register, and one of a stated range that the value
leaves, keeps its value. icinv performs the earlier stores to each thread's range and then invalidates its clause-cache
lines. Nothing else changes beyond the frame of the slot. -/
def Obligations.SpecialRegisterInstructions : Prop :=
  (∀ (f : Fields) (s : State) (b : At), SlotReady .sysrd f s b → ∀ val : Fin 32 → W64,
      (∀ l : Fin 32, (b.slot .sysrd f s).ex.getLsbD l = true → s.sysRead (b.slot .sysrd f s) l = .ok (val l)) →
      ∃ u, exec (.sysrd f) s = .next ((u.settlePend s.nextId).slotLanes (b.slot .sysrd f s)
          (laneFilter (b.slot .sysrd f s).ex fun i => decide (((b.slot .sysrd f s).a[i]).lo.toNat = 0x02C)) fun _ th => { th with latch := BitVec.ofNat 64 s.time }) ∧
        RegFrame (s.addPend ((b.slot .sysrd f s).pend 2 (b.slot .sysrd f s).ex 0 (laneResults (b.slot .sysrd f s).ex fun i => { val := [val i], p := false }))) u (b.slot .sysrd f s) true ∧
        ∀ l : Fin 32, (b.slot .sysrd f s).ex.getLsbD l = true → Awaited u (b.slot .sysrd f s) l s.nextId) ∧
    (∀ (s : State) (x : Slot) (i : Fin 32), (x.a[i]).p = false → x.f.c.sel = .none →
      (x.crew.part ≠ Config.svcTag → 0x100 ≤ (x.a[i]).lo.toNat → (x.a[i]).lo.toNat ≤ 0xFFF → s.sysRead x i = .error cPriv) ∧
      ((x.a[i]).lo.toNat < 0x100 → specHeld (x.a[i]).lo.toNat = none → s.sysRead x i = .error cIllegalOperand) ∧
      ((x.a[i]).lo.toNat = 0 → s.sysRead x i = .ok (BitVec.ofNat 64 s.time)) ∧
      ((x.a[i]).lo.toNat = 1 → s.sysRead x i = .ok x.crew.trph) ∧
      ((x.a[i]).lo.toNat = 2 → s.sysRead x i = .ok ((x.coh.threads[i]).tcause.setWidth 64)) ∧
      ((x.a[i]).lo.toNat = 3 → s.sysRead x i = .ok (x.coh.threads[i]).taddr) ∧
      ((x.a[i]).lo.toNat = 4 → s.sysRead x i = .ok (x.coh.threads[i]).trpc)) ∧
    ActsInTurn .syswr Instr.syswr (fun _ x i t =>
      if (x.a[i]).p || (x.b[i]).p || (x.c[i]).p then .error cPoisonUse
      else
        match specHeld (x.a[i]).lo.toNat with
        | none | some .own => .error cIllegalOperand
        | some h =>
          match t.holder x (x.hold i) h with
          | none => .error cIllegalOperand
          | some k => .ok (t.sysWrite h k (x.a[i]).lo.toNat (x.b[i]).v)) ∧
    (∀ (s : State) (k n : Nat) (v : W64), s.sysWrite .wafer k n v = s ∧ s.sysWrite .service k n v = s ∧ s.sysWrite .zone k n v = s) ∧
    (∀ (p : Part) (v : W64), p.setReg 0x006 v = { p with fabtmo := if 1000 ≤ v.toNat ∧ v.toNat ≤ 100000000 then v else p.fabtmo } ∧
      p.setReg 0x007 v = { p with gbstag := if 0 ≤ v.toNat ∧ v.toNat ≤ 1023 then v else p.gbstag } ∧
      p.setReg 0x120 v = { p with wcbage := if 0 ≤ v.toNat ∧ v.toNat ≤ 8 then v else p.wcbage } ∧
      p.setReg 0x121 v = { p with alwrate := if 1 ≤ v.toNat ∧ v.toNat ≤ 18800 then v else p.alwrate } ∧
      p.setReg 0x122 v = { p with alwcap := if 4096 ≤ v.toNat ∧ v.toNat ≤ 2147483647 then v else p.alwcap } ∧
      p.setReg 0x130 v = { p with chquota := if 1 ≤ v.toNat ∧ v.toNat ≤ 65535 then v else p.chquota } ∧
      p.setReg 0x140 v = { p with gbgrp := if 1 ≤ v.toNat ∧ v.toNat ≤ 16 then v else p.gbgrp } ∧
      p.setReg 0x00A v = p ∧ p.setReg 0x00B v = p ∧ p.setReg 0x171 v = p) ∧
    ∀ (f : Fields) (s : State) (b : At), SlotReady .icinv f s b →
      (∀ l : Fin 32, (b.slot .icinv f s).ex.getLsbD l = true → ((b.slot .icinv f s).a[l]).p = false ∧ ((b.slot .icinv f s).b[l]).p = false ∧
        (((b.slot .icinv f s).b[l]).lo.toNat = 0 ∨ addrFault (((b.slot .icinv f s).a[l]).v.toNat : Int) ((b.slot .icinv f s).b[l]).lo.toNat 0 = none)) →
      ∃ u, exec (.icinv f) s = .next (forL (lanesOf (b.slot .icinv f s).ex) u (icinvLane (b.slot .icinv f s))) ∧ RegFrame s u (b.slot .icinv f s) false

/-- Where no executing thread faults, the instructions complete, the threads acting in lane order: rt.def installs its route
and gives 0; fuse.rd gives the fuse word; key.wipe destroys a live tag and gives 1, or 0, or destroys every tenant and gives
their number; meas.ext extends its register and gives 0, sig.vfy writes the digest and gives the verdict, both once the
mapped lines they read are Valid; dbg.open gives 0 with all latches set and unlocks, else 1, and the latches clear. Nothing
else changes beyond the frame of the slot. -/
def Obligations.FirmwareInstructions : Prop :=
  InTurn .rtDef Instr.rtDef (fun _ x i t =>
      match firstErr
        [failIf ((x.a[i]).p || (x.b[i]).p) cPoisonUse, failIf (decide ((x.b[i]).lo.toNat % 128 ≠ 0)) cMisaligned,
         failIf (decide (x.crew.dOff < (x.b[i]).lo.toNat + 256)) cStashBounds,
         failIf (decide (256 ≤ (x.a[i]).lo.toNat) || routeBad (routeImage 64 (memRead t.mem (x.crew.stashAt (x.b[i]).lo.toNat) 256))) cCopyInvalid,
         failIf ((stationsOf (routeImage 64 (memRead t.mem (x.crew.stashAt (x.b[i]).lo.toNat) 256))).any fun e => t.badStation x.crew.part e) cRouteOwner] with
      | some c => .error c
      | none => .ok (t.modPart x.crew.part fun p =>
          { p with routes := smSet p.routes (x.a[i]).lo.toNat (routeImage 64 (memRead t.mem (x.crew.stashAt (x.b[i]).lo.toNat) 256)) }, 0)) ∧
    InTurn .fuseRd Instr.fuseRd (fun _ x i t =>
      if (x.a[i]).p then .error cPoisonUse
      else if 16 < (x.a[i]).lo.toNat then .error cIllegalOperand
      else .ok (t, if (x.a[i]).lo.toNat = 4 then Config.lifecycleFuse.setWidth 64 else (Config.fuseWord (x.a[i]).lo.toNat).setWidth 64)) ∧
    InTurnStanding .keyWipe Instr.keyWipe (fun _ x i t =>
      if (x.a[i]).p then .error cPoisonUse
      else if (x.a[i]).lo.toNat = 0xFFFFFFFF then
        .ok ({ forL ((t.parts.map Prod.fst).filter (· ≠ Config.svcTag)) t (fun g u => u.destroy g) with
            latchW := (forL ((t.parts.map Prod.fst).filter (· ≠ Config.svcTag)) t fun g u => u.destroy g).latchW ||
              (forL ((t.parts.map Prod.fst).filter (· ≠ Config.svcTag)) t fun g u => u.destroy g).latchV },
          BitVec.ofNat 64 ((t.parts.map Prod.fst).filter (· ≠ Config.svcTag)).length)
      else if (x.a[i]).lo.toNat = 0 || Config.maxTag < (x.a[i]).lo.toNat then .error cIllegalOperand
      else if (smGet t.parts (x.a[i]).lo.toNat).isSome then .ok (t.destroy (x.a[i]).lo.toNat, 1)
      else .ok (t, 0)) ∧
    (∀ (f : Fields) (s : State) (b : At), SlotReady .measExt f s b →
      (∀ l : Fin 32, (b.slot .measExt f s).ex.getLsbD l = true → (s.cluster (b.k / 6)).linesReady (b.c.base + ((b.slot .measExt f s).a[l]).lo.toNat) 48 = true) →
      ∀ (e : State) (vals : SMap W64),
      laneRun (fun i t => t.measOne (b.slot .measExt f s) i)
        (lanesOf (b.slot .measExt f s).ex) (s, []) = some (e, vals) →
      Posts (.measExt f) s (e.addPend ((b.slot .measExt f s).postPend (b.slot .measExt f s).ex vals fun r => r.getLsbD 0)) (b.slot .measExt f s) false e.nextId) ∧
    (∀ (f : Fields) (s : State) (b : At), SlotReady .sigVfy f s b →
      (∀ l : Fin 32, (b.slot .sigVfy f s).ex.getLsbD l = true → (s.cluster (b.k / 6)).linesReady (b.c.base + ((b.slot .sigVfy f s).a[l]).lo.toNat) 208 = true) →
      ∀ (e : State) (vals : SMap W64),
      laneRun (fun i t => t.sigOne (b.slot .sigVfy f s) i)
        (lanesOf (b.slot .sigVfy f s).ex) (s, []) = some (e, vals) → (e.cohort? b.r.cid b.r.co).isSome = true →
      Posts (.sigVfy f) s (e.addPend ((b.slot .sigVfy f s).postPend (b.slot .sigVfy f s).ex vals fun r => r.getLsbD 0)) (b.slot .sigVfy f s) false e.nextId) ∧
    InTurn .dbgOpen Instr.dbgOpen (fun _ _ _ t =>
      if t.latchV && t.latchW && t.latchM then
        .ok ({ t with latchV := false, latchW := false, latchM := false, lifecycle := 3, debugPort := true }, 0)
      else .ok ({ t with latchV := false, latchW := false, latchM := false }, 1)) ∧
    (∀ (s : State) (x : Slot) (i : Fin 32), (x.a[i]).p = false → (x.b[i]).p = false → (x.b[i]).lo.toNat ≤ 3 →
      s.firmFault x (x.a[i]).lo.toNat 48 false = none →
      s.measOne x i = .ok (s.measExt (x.b[i]).lo.toNat (memRead s.mem (x.crew.stashAt (x.a[i]).lo.toNat) 48), 0)) ∧
    (∀ (s u : State) (x : Slot) (i : Fin 32), s.sigFault x i = none →
      s.putDigest x (x.a[i]).lo.toNat (sha384 ((s.tokenAt x (x.a[i]).lo.toNat).take 64)) = .done u →
      s.sigOne x i = .ok (u.latchVerdict (u.tokenVerdict (s.tokenAt x (x.a[i]).lo.toNat)) (sha384 ((s.tokenAt x (x.a[i]).lo.toNat).take 64)),
        BitVec.ofNat 64 (u.tokenVerdict (s.tokenAt x (x.a[i]).lo.toNat)))) ∧
    (∀ (s : State) (n : Fin 4) (d : List Byte),
      s.measExt n.val d = { s with
        mr := s.mr.setIfInBounds n.val (BitVec.ofNat 384 (natOfBytesBE (sha384 (bytesBE 48 (s.mr[n]).toNat ++ d)))),
        latchV := s.latchV && s.latchW && decide (n.val = 0) && decide (natOfBytesBE d = s.latched.toNat),
        latchW := s.latchV && s.latchW && decide (n.val = 0) && decide (natOfBytesBE d = s.latched.toNat),
        latchM := s.latchV && s.latchW && decide (n.val = 0) && decide (natOfBytesBE d = s.latched.toNat) }) ∧
    ∀ (s : State) (d : List Byte),
      s.latchVerdict 1 d = { s with latchV := true, latched := BitVec.ofNat 384 (natOfBytesBE d) } ∧
      ∀ v, v ≠ 1 → s.latchVerdict v d = { s with latchV := false, latchW := false, latchM := false }

/-- halt writes A to %haltcode and stops the issuing service cluster: of the executing threads, in lane order, the last
one's code stands. While the cluster is stopped no instruction of a bundle there has any effect; the next cold start ends
every stop. The other clusters are not stopped, and beside the issuing cluster's code and stop nothing changes beyond the
frame of the slot. -/
def Obligations.HaltRule : Prop :=
  (∀ (f : Fields) (s : State) (b : At), SlotReady .halt f s b → ∀ l : Fin 32, (lanesOf (b.slot .halt f s).ex).getLast? = some l →
      (∀ i : Fin 32, (b.slot .halt f s).ex.getLsbD i = true → ((b.slot .halt f s).a[i]).p = false) →
      Acts (.halt f) s (s.modCluster (b.k / 6) fun c => { c with haltcode := ((b.slot .halt f s).a[l]).lo.setWidth 64, halted := true }) (b.slot .halt f s)) ∧
    (∀ (f : Fields) (s : State) (b : At), SlotReady .halt f s b → (b.slot .halt f s).ex = 0 → Acts (.halt f) s s (b.slot .halt f s)) ∧
    (∀ (i : Instr) (o : Op) (f : Fields) (s : State) (k : Nat), i.opFields? = some (o, f) → s.cur = some k →
      (s.cluster (k / 6)).halted = true → exec i s = .next s) ∧
    ∀ s : State, ∃ t, exec .coldStart s = .next t ∧ ∀ p, (t.cluster p).halted = false

/-- Where its only executing thread is the crew leader, with depth below 9 and an aligned offset in the data area, and the
record keeps its format, its KDESC not poisoned and its descriptor's line at hand, launch completes and delivers its status:
1 when the partition's launched grids reach its quota, 2 when no cluster could hold a crew, else [31:8] the serial of the
grid, which is queued one level deeper, its launcher's release begun. With LK not 0, k[LK] tells ACCEPTED. A refused launch
queues nothing. Beyond that the frame of the slot stands. A host launch record is judged and queued, or reported; a foreign
stamp times out after 2 us. The dispatcher of a RUNNING partition places the first unit in order that can be placed, and
stops at one that has waited 100 us; such a head unit reserves what is freed. -/
def Obligations.LaunchInstruction : Prop :=
  ((∀ (f : Fields) (s : State) (b : At), SlotReady .launch f s b → ∀ (e : State) (vals : SMap W64),
      laneRun (fun i t => match launchFault (b.slot .launch f s) i with
          | some c => .error c
          | none => (t.launchOne (b.slot .launch f s) i).2.map fun w => ((t.launchOne (b.slot .launch f s) i).1, w)) (lanesOf (b.slot .launch f s).ex) (s, []) = some (e, vals) →
      ((lanesOf (b.slot .launch f s).ex).any (s.launchLater (b.slot .launch f s)) = true → exec (.launch f) s = .next s) ∧
      ((lanesOf (b.slot .launch f s).ex).any (s.launchLater (b.slot .launch f s)) = false → ∃ u, exec (.launch f) s = .next u ∧
        RegFrame (if f.mod.toNat % 8 = 0 then e else e.modLanes b.r.cid b.r.co (b.slot .launch f s).ex (launchPred (f.mod.toNat % 8) vals))
          u (b.slot .launch f s) false ∧
        ∀ l : Fin 32, (b.slot .launch f s).ex.getLsbD l = true → Delivered u (b.slot .launch f s) l false { v := smGetD vals l.val 0, p := false })) ∧
    (∀ (s t : State) (x : Slot) (i : Fin 32) (p : Machine.Part), smGet s.parts x.crew.part = some p →
      ((s.getBytesP (x.crew.stashAt (x.a[i]).lo.toNat) 8).any (·.2) = true → s.launchOne x i = (s, .error cLaunchInvalid)) ∧
      ((s.getBytesP (x.crew.stashAt (x.a[i]).lo.toNat) 8).any (·.2) = false →
      let ws := eightWords (memRead s.mem (x.crew.stashAt (x.a[i]).lo.toNat) 64)
      (s.judgeLaunch x.crew.part (rw ws 4 27 22) ws (x.crew.depth + 1) (some x.cid) x.crew.lcl = (t, .invalid) →
        s.launchOne x i = (t, .error cLaunchInvalid)) ∧
      (∀ g, s.judgeLaunch x.crew.part (rw ws 4 27 22) ws (x.crew.depth + 1) (some x.cid) x.crew.lcl = (t, .grid g) →
        smGet t.parts x.crew.part = some p →
        (fld p.chquota 15 0 ≤ t.launched x.crew.part → s.launchOne x i = (t, .ok 1)) ∧
        (t.launched x.crew.part < fld p.chquota 15 0 →
          s.launchOne x i = (t.acceptLaunch x i.val g, .ok (BitVec.ofNat 64 (t.nextId % 2 ^ 24 * 256))))) ∧
      (s.judgeLaunch x.crew.part (rw ws 4 27 22) ws (x.crew.depth + 1) (some x.cid) x.crew.lcl = (t, .resource) →
        smGet t.parts x.crew.part = some p → t.launched x.crew.part < fld p.chquota 15 0 → s.launchOne x i = (t, .ok 2)))) ∧
    ∀ (x : Slot) (i : Fin 32), launchFault x i = none ↔
      (x.a[i]).p = false ∧ x.co = 0 ∧ i.val = 0 ∧ x.crew.depth < 9 ∧ (x.a[i]).lo.toNat % 64 = 0 ∧ (x.a[i]).lo.toNat + 64 ≤ x.crew.dOff) ∧
    (∀ (part space : Nat) (s : State),
      (64 ≤ space → exec (.hostLaunchFetch part space) s = .next s) ∧
      (space < 64 → ∀ u : State,
        (s.fetchRecord part space launchStamp = (u, none) → exec (.hostLaunchFetch part space) s = .next u) ∧
        ∀ ws, s.fetchRecord part space launchStamp = (u, some ws) →
          (∀ t g, u.judgeLaunch part space ws 0 none 0 = (t, .grid g) → exec (.hostLaunchFetch part space) s = .next (t.queueGrid g)) ∧
          (∀ t, u.judgeLaunch part space ws 0 none 0 = (t, .later) → exec (.hostLaunchFetch part space) s = .next s) ∧
          (∀ t, u.judgeLaunch part space ws 0 none 0 = (t, .invalid) → exec (.hostLaunchFetch part space) s = .next
            (t.postInfo part cLaunchInvalid 0 (launchStamp ws))) ∧
          (∀ t, u.judgeLaunch part space ws 0 none 0 = (t, .resource) → exec (.hostLaunchFetch part space) s = .next
            (t.postInfo part cLaunchResource 0 (launchStamp ws))))) ∧
    (∀ (part queue : Nat) (s : State) (q : Queue), q = s.queue part queue →
      (q.stampSince = none ∨ 64 < queue ∨ q.st ≠ 0 ∨ q.en = false → exec (.stampTimeout part queue) s = .next s) ∧
      ∀ t, q.stampSince = some t → queue ≤ 64 → q.st = 0 → q.en = true →
        (s.time < t + 2000 → exec (.stampTimeout part queue) s = .next s) ∧
        (t + 2000 ≤ s.time → exec (.stampTimeout part queue) s = .next
          ((s.queueTo part queue 2).postInfo part cRecordStamp 0 q.rp.toNat))) ∧
    (∀ (part : Nat) (s : State) (t : Machine.Part), smGet s.parts part = some t →
      (t.qst ≠ 0 ∨ t.reshape.isSome = true → exec (.dispatch part) s = .next s) ∧
      (t.qst = 0 → t.reshape = none → ∀ r l, l = s.gridOrder part t.ctxNow → r = (t.reserve.filter fun x => l.any fun y => y.1 = x.1) →
        exec (.dispatch part) s = .next ((s.modPart part fun u => { u with reserve := r }).dispatchFirst { t with reserve := r } l))) ∧
    (∀ (s u : State) (t : Machine.Part) (gid : Nat) (g : Grid) (l : List (Nat × Grid)), t.reserve = none →
      (s.placeHead gid g t (s.places t) [] = some u → s.dispatchFirst t ((gid, g) :: l) =
        ((u.modGrid gid fun g => g.popUnit s.time).modPart g.part fun t => { t with reserve := t.reserve.filter fun x => x.1 ≠ gid })) ∧
      (s.placeHead gid g t (s.places t) [] = none → g.headSince + 100000 ≤ s.time → s.dispatchFirst t ((gid, g) :: l) = s) ∧
      (s.placeHead gid g t (s.places t) [] = none → s.time < g.headSince + 100000 → s.dispatchFirst t ((gid, g) :: l) = s.dispatchFirst t l)) ∧
    (∀ (part : Nat) (s : State) (t : Machine.Part) (l : List (Nat × Grid)), smGet s.parts part = some t → l = s.gridOrder part t.ctxNow →
      (t.qst ≠ 0 ∨ (∃ x, t.reserve = some x ∧ ∃ y ∈ l, y.1 = x.1) ∨ (∀ x ∈ l, s.time < x.2.headSince + 100000) →
        exec (.reservationTimeout part) s = .next s) ∧
      (t.qst = 0 → t.reserve = none → ∀ gid g, (l.find? fun x => decide (x.2.headSince + 100000 ≤ s.time)) = some (gid, g) →
        exec (.reservationTimeout part) s = .next (s.modPart part fun t => { t with reserve := some (gid, []) })))

/-- BUNDLE_SELECT does nothing on an issue slice that runs a clause; after a double-bit error of storage where the free
value gives one; otherwise it takes back a clause whose close has been made, or, after the holds that are over have ended,
enters the boundary traps that are due, or starts the clause of the candidate that SelectBundle chooses, for the lanes of
its bundle. A clause started without a fault is the run of the slice, its flags are raised in its lanes, whose pc is the
fall-through clause, and no other thread of the cohort is changed by its start. DEBUG_RESUME lets a crew stopped by a debug
match run again and changes nothing else. REGION_CLOSE does nothing while no close waits or the close must still wait,
otherwise commits the region or restarts it. CLUSTER_FAILING does nothing before a second silent error; it fences an unowned
cluster, and an owned one gets its record, the save of its crews and, when they are saved, its replacement. A slice ends
when its time has come: its crews are drained and saved and the next context restored. -/
def Obligations.ClauseEvents : Prop :=
  ((∀ (s : State) (k : Nat), exec (.bundleSelect k) s = .next ((s.storageError k).bundleSelect k) ∧
      (s.storageError k = s ∨ ∃ place word, s.storageError k = s.spoil k place word) ∧
      (∀ place word t, t = s.silentError (k / 6) 4 →
        (∀ cid co a b, (t.sliceCohorts k)[place]? = some (cid, co, a, b) →
          s.spoil k place word = t.modThread cid co (word / 80 % 32) fun th =>
            if word % 80 < 64 then { th with v := th.v.setIfInBounds (word % 80) { (th.v[word % 80]?.getD default) with p := true } }
            else { th with q := th.q.modify (word % 80 - 64) fun e => { e with p := true } }) ∧
        ((t.sliceCohorts k)[place]? = none → s.spoil k place word =
          { t with memPz := nsAdd ((stashAddr (k / 6) 0 + 8 * word % Config.stashBytes) / 8) t.memPz })) ∧
      ((s.issue k).run.isSome = true → s.bundleSelect k = s) ∧
      ((s.issue k).run = none → ∀ cid co r, s.readyRun k = some (cid, co, r) →
        s.bundleSelect k =
          ((s.modCohort cid co fun h => { h with parked := none, ready := false }).modIssue k fun i => { i with run := some r })) ∧
      ((s.issue k).run = none → s.readyRun k = none →
        (∀ t, (s.releaseSlice k).sliceDue k = some t → s.bundleSelect k = t) ∧
        ((s.releaseSlice k).sliceDue k = none → ∀ (t u : State) (l : List Cand),
          (s.releaseSlice k).gather k = (t, l) → t.noteCands k l = u →
          (u.chosen k l = none → s.bundleSelect k = u) ∧
          (∀ c h, u.chosen k l = some c → u.cohort? c.cid c.co = some h →
            s.bundleSelect k = ((u.noteAwake c.cid).startClause k c h (bundleLanes u.tick h c)))))) ∧
    (∀ (s : State) (k : Nat) (c : Cand) (h : Cohort) (m : BitVec 32) (t : State),
      c.fault = none → clauseFault h c.hdr (parseSlots false 0 c.words) = none →
      s.openForClause c m h ((parseSlots false 0 c.words).any slotArrives) = .ok t → c.st.tok = none →
      c.late = [] → (∀ i : Fin 32, m.getLsbD i.val = true → (h.threads[i]).tok = none) →
      ∃ r, ((s.startClause k c h m).issue k).run = some r ∧ r.cid = c.cid ∧ r.co = c.co ∧ r.lanes = m ∧ r.hpc = c.st.pc ∧
        r.hdr = c.hdr ∧ r.words = c.words ∧ r.slot = c.st.slot ∧ r.tok = t.nextId ∧ r.tile = h.tile ∧
        smGet (s.startClause k c h m).toks t.nextId = some
          { cid := c.cid, co := c.co, seta := hdrSeta c.hdr, setb := hdrSetb c.hdr, la := if hdrSeta c.hdr < 12 then m else 0,
            lb := if hdrSetb c.hdr < 12 then m else 0, ended := false } ∧
        ∀ h', t.cohort? c.cid c.co = some h' → ∃ h'', (s.startClause k c h m).cohort? c.cid c.co = some h'' ∧
          ∀ i : Fin 32, h''.threads[i] = if m.getLsbD i then
            { raiseFlag (hdrSetb c.hdr) (raiseFlag (hdrSeta c.hdr) h'.threads[i]) with
              pc := c.st.pc + BitVec.ofNat 64 (8 * (hdrCnt c.hdr + 2)), slot := 0, resumed := false, bpSkip := false, tok := none,
              grp := 0 } else h'.threads[i]) ∧
    (∀ (s : State) (cid : Nat) (c : Crew), smGet s.crews cid = some c → c.st = .debug → c.leaving = none →
      exec (.debugResume cid) s = .next { s with crews := smMod s.crews cid fun c => { c with st := .running } }) ∧
    (∀ (s : State) (cid : Nat), (∀ c, smGet s.crews cid = some c → c.st ≠ .debug) → exec (.debugResume cid) s = .next s) ∧
    (∀ (s : State) (cid co : Nat) (h : Cohort), s.cohort? cid co = some h →
      (h.closing = false → exec (.regionClose cid co) s = .next s) ∧
      (h.closing = true →
        (s.closeDecision cid co h.closeOwn = .wait → exec (.regionClose cid co) s = .next s) ∧
        (s.closeDecision cid co h.closeOwn = .restart → exec (.regionClose cid co) s = .next
          ((s.suspectRestart cid co).modCohort cid co fun h => { h with closing := false, closeOwn := none })) ∧
        (s.closeDecision cid co h.closeOwn = .commit →
          (h.parked.isSome = true → exec (.regionClose cid co) s = .next
            ((s.commitRegion cid co h.rgn.reopen).modCohort cid co fun h =>
              { h with closing := false, closeOwn := none, ready := true })) ∧
          (h.parked = none → exec (.regionClose cid co) s = .next
            (((s.commitRegion cid co h.rgn.reopen).modCohort cid co fun h =>
              { h with closing := false, closeOwn := none }).enterTraps cid co))))) ∧
    (∀ (s : State) (p : Nat),
      ((s.cluster p).silent < 2 ∨ Config.clusters ≤ p → exec (.clusterFailing p) s = .next s) ∧
      (2 ≤ (s.cluster p).silent → p < Config.clusters → s.ownerOf p = none → exec (.clusterFailing p) s = .next
        (((s.logSvc cClusterFailing p 0 0).fenceCluster p).modCluster p fun c => { c with silent := 0 })) ∧
      (∀ tag t, p < Config.clusters → s.ownerOf p = some tag → smGet s.parts tag = some t → t.qst ≠ 1 → t.reshape = none →
        ((s.cluster p).silent = 2 → exec (.clusterFailing p) s = .next
          (forL (s.residents p) ((s.postInfo tag cClusterFailing 0 0).modCluster p fun c => { c with silent := 3 }) fun x s =>
            if x.2.leaving.isNone then s.beginLeave x.1 .save else s)) ∧
        (2 < (s.cluster p).silent → ∀ u : State,
          u = forL (s.residents p) s (fun x s => if x.2.leaving.isNone then s.beginLeave x.1 .save else s.stepLeave x.1) →
          (((u.residents p).all fun x => x.2.leaving = some .save && u.leaveReady x.1) = false →
            exec (.clusterFailing p) s = .next u) ∧
          (((u.residents p).all fun x => x.2.leaving = some .save && u.leaveReady x.1) = true →
            exec (.clusterFailing p) s = .next
              ((forL (u.residents p) u fun x s => if (Config.random u.tick).getLsbD 0 = true then s.loseCrew x.1 cClusterFailing
                else s.saveCrew x.1 .saved).replaceCluster tag p)))))) ∧
    (∀ (part : Nat) (s : State) (t : Machine.Part), smGet s.parts part = some t →
      (t.pmode.getLsbD 63 = false ∨ t.qst ≠ 0 → exec (.sliceEnd part) s = .next s) ∧
      (t.pmode.getLsbD 63 = true → t.qst = 0 →
        (t.reshape = some .sliceEnd → s.allDrained part = true → exec (.sliceEnd part) s = .next (s.switchCtx part t)) ∧
        (t.reshape = some .sliceEnd → s.allDrained part = false → exec (.sliceEnd part) s = .next (s.leaveAll part)) ∧
        (t.reshape ≠ some .sliceEnd →
          (t.sliceAt + 1000 * fld t.pmode 49 30 ≤ s.time → exec (.sliceEnd part) s = .next
            ((s.modPart part fun t => { t with reshape := some .sliceEnd }).leaveAll part)) ∧
          (s.time < t.sliceAt + 1000 * fld t.pmode 49 30 → (∀ c < t.contexts, c ≠ t.ctxNow → s.ctxWork part c = false) →
            exec (.sliceEnd part) s = .next (s.modPart part fun t => { t with idleSince := none })))))

/-- RESULT_DELIVERY of a number that no result has changes nothing; of a release or an acquire, it takes it one action
further. A result behind an earlier special-function result of its threads waits. Of any other result, each thread that
waits for its part and whose part is known gets it: a v destination is written, a queue placeholder is filled, a predicate
destination is written. A thread whose part is not known keeps its registers. -/
def Obligations.ResultDelivery : Prop :=
  (∀ (s : State) (id : Nat), smGet s.pends id = none → exec (.resultDelivery id) s = .next s) ∧
    (∀ (s : State) (id : Nat) (p : Pend), smGet s.pends id = some p → p.fence.isSome = true →
      exec (.resultDelivery id) s = .next (s.advanceFence id)) ∧
    (∀ (s : State) (id : Nat) (p : Pend), smGet s.pends id = some p → p.fence = none → s.behindSfu id p = true →
      exec (.resultDelivery id) s = .next s) ∧
    (∀ (s : State) (id : Nat) (p : Pend) (h : Cohort), smGet s.pends id = some p → p.fence = none → p.uni = false →
      p.bundle = false → p.dead = false → s.behindSfu id p = false → s.cohort? p.cid p.co = some h →
      ∃ t h', exec (.resultDelivery id) s = .next t ∧ t.cohort? p.cid p.co = some h' ∧ t.mem = s.mem ∧
        (∀ (i : Fin 32) (r : LaneRes), p.waitRes.getLsbD i = true → smGet p.vals i.val = some r →
          (h'.threads[i]).v = r.vregs p i.val (h.threads[i]).v ∧ (h'.threads[i]).k = r.preds p i.val (h.threads[i]).k ∧
          (h'.threads[i]).q = fillQueue id r (decide (2 ≤ p.width)) (h.threads[i]).q) ∧
        (∀ i : Fin 32, smGet p.vals i.val = none ∨ p.waitRes.getLsbD i = false →
          (h'.threads[i]).v = (h.threads[i]).v ∧ (h'.threads[i]).k = (h.threads[i]).k ∧
          (h'.threads[i]).q = (h.threads[i]).q) ∧
        ∀ i : Fin 32, (h'.threads[i]).pc = (h.threads[i]).pc)

/-- A cold start leaves the machine as after reset with one cold start more; while the rail is down every other step stops.
A self-test sets the ready bit of a resource that exists, has not failed and whose requirements are ready, and only that
bit; otherwise nothing. A failing port, key share or service cluster loses its bit for good and nothing else changes; an
unowned cluster is fenced, an owned one becomes a failing cluster; a slice, a channel or a router takes its site with it.
Zeroing done clears the mark and reports the cluster ready unless it has failed or is fenced. Whether a failing cluster
takes its router with it is a free value. A row clear zeroes the cell, drops the lines that carry it and frees it. Patrol
scrub counts corrections and poisons the words found bad. Refresh changes no state. RESET retires the tag and drops what is
in flight; 2,048 cycles later, and after any hold, the resources are zeroed, the tag goes live with its next incarnation,
the abort records are written and the peers told. DESTROY clears the bitmaps and leaves the cells to the scrub. A CREATE
held for its incarnation starts, or fails when what it needs is no longer ready. -/
def Obligations.ResourceEvents : Prop :=
  ((∀ s : State, ∃ t, exec .coldStart s = .next t ∧ t.rail = true ∧ t.mem = [] ∧ t.crews = [] ∧ t.parts = State.reset.parts ∧
      t.own = State.reset.own ∧ t.clRdy = State.reset.clRdy ∧ t.failed = [] ∧ t.fenced = [] ∧ t.lifecycle = State.reset.lifecycle ∧
      t.colds = s.colds + 1) ∧
    (∀ s : State, exec .fabricRailDown s = .next { s with rail := false }) ∧
    (∀ s : State, s.rail = false → s.turn ≠ .ev .coldStart → step s = .fault .railDown) ∧
    (∀ (r : Res) (i : Nat) (s : State), i < resCount r → (r, i) ∉ s.failed → s.requires r i = true →
      exec (.selfTestPass r i) s = .next (s.modRdy r (nsAdd i)) ∧ i ∈ (s.modRdy r (nsAdd i)).rdy r ∧
      ∀ q, q ≠ r → (s.modRdy r (nsAdd i)).rdy q = s.rdy q) ∧
    (∀ (r : Res) (i : Nat) (s : State), resCount r ≤ i ∨ (r, i) ∈ s.failed ∨ s.requires r i = false →
      exec (.selfTestPass r i) s = .next s) ∧
    (∀ (r : Res) (i : Nat) (s : State), resCount r ≤ i → exec (.resourceFail r i) s = .next s) ∧
    (∀ (s : State) (i : Nat), i < resCount .hp → exec (.resourceFail .hp i) s = .next
      { s with hpRdy := nsDel i s.hpRdy, failed := (.hp, i) :: s.failed.erase (.hp, i) }) ∧
    (∀ (s : State) (i : Nat), i < resCount .fp → exec (.resourceFail .fp i) s = .next
      { s with fpRdy := nsDel i s.fpRdy, failed := (.fp, i) :: s.failed.erase (.fp, i) }) ∧
    (∀ (s : State) (i : Nat), i < resCount .ks → exec (.resourceFail .ks i) s = .next
      { s with ksRdy := nsDel i s.ksRdy, failed := (.ks, i) :: s.failed.erase (.ks, i) }) ∧
    (∀ (s : State) (i : Nat), i < resCount .svc → exec (.resourceFail .svc i) s = .next
      { s with svcRdy := nsDel i s.svcRdy, failed := (.svc, i) :: s.failed.erase (.svc, i) }) ∧
    (∀ (s u : State) (i : Nat), i < resCount .cl →
      u = (if Config.routerFailed s.tick then { s.markFailed .cl i with
          fencedRtr := nsAdd (clusterSite i) (s.markFailed .cl i).fencedRtr } else s.markFailed .cl i) →
      (u.ownerOf i = none → exec (.resourceFail .cl i) s = .next (u.fenceCluster i) ∧ clusterSite i ∈ (u.fenceCluster i).fenced) ∧
      (u.ownerOf i ≠ none → exec (.resourceFail .cl i) s = .next
        (u.modCluster i fun c => { c with silent := max 2 c.silent, silentAt := s.time }))) ∧
    (∀ (s : State) (i : Nat), i < resCount .sl → exec (.resourceFail .sl i) s = .next (s.fenceSlice i false) ∧
      exec (.resourceFail .ch i) s = .next (s.fenceSlice i false) ∧
      exec (.resourceFail .rtr i) s = .next ((s.markFailed .rtr i).fenceSlice i true)) ∧
    (∀ (s : State) (p : Nat), (s.cluster p).zeroing = true → ∃ t, exec (.zeroingDone p) s = .next t ∧
      (t.cluster p) = { s.cluster p with zeroing := false } ∧ t.mem = s.mem ∧ t.crews = s.crews ∧
      (s.failed.contains (.cl, p) = true ∨ s.fenced.contains (clusterSite p) = true → t.clRdy = s.clRdy) ∧
      (s.failed.contains (.cl, p) = false → s.fenced.contains (clusterSite p) = false → s.zoneBad = [] →
        t.clRdy = nsAdd p s.clRdy)) ∧
    (∀ (s : State) (p : Nat), (s.cluster p).zeroing = false → exec (.zeroingDone p) s = .next s) ∧
    (∀ (s : State) (ch frame : Nat), frame < Config.cells → 2 ≤ (s.cell (cellNo ch frame)).1 →
      s.fenced.contains (sliceSite ch) = false → ∀ t, t = forL ((s.slice ch).lines.filterMap fun y =>
        if (y.2.st = 1 || y.2.st = 2) && y.2.frame = frame then some y.1 else none) (s.clearCell (cellNo ch frame))
          (fun k s => s.dropWay ch k) →
      exec (.rowClearDone ch frame) s = .next (((t.dropCell (cellNo ch frame)).setCell (cellNo ch frame) 0 0).retryAcquires)) ∧
    (∀ (s : State) (ch frame : Nat), Config.cells ≤ frame ∨ (s.cell (cellNo ch frame)).1 < 2 ∨ s.fenced.contains (sliceSite ch) = true →
      exec (.rowClearDone ch frame) s = .next s) ∧
    (∀ (s : State) (ch line n : Nat) (bad : List Nat), s.chRdy.contains ch = true → line < 32 * Config.cells →
      exec (.patrolScrub ch line [] n) s = .next (s.modSlice ch fun x => { x with corrected := x.corrected + n }) ∧
      (∀ w, w < 16 → (dramAddr ch (128 * line) / 8 + w) ∉ s.memPz → (s.cell (cellNo ch (line / 32))).1 = 1 →
        exec (.patrolScrub ch line [w] n) s = .next (({ s.modSlice ch fun x => { x with corrected := x.corrected + n } with
          memPz := nsAdd (dramAddr ch (128 * line) / 8 + w) s.memPz }).postInfo (s.cell (cellNo ch (line / 32))).2 cMemoryUncorrected
            (BitVec.ofNat 64 (128 * (line % 32))) (ch * 2 ^ 32 + line / 32))) ∧
      ((s.cell (cellNo ch (line / 32))).1 ≠ 1 → ∃ t, exec (.patrolScrub ch line bad n) s = .next t ∧ t.crews = s.crews ∧
        t.mem = s.mem ∧ t.parts = s.parts ∧ ∀ w ∈ bad, w < 16 → (dramAddr ch (128 * line) / 8 + w) ∈ t.memPz)) ∧
    (∀ (s : State) (ch line n : Nat) (bad : List Nat), s.chRdy.contains ch = false ∨ 32 * Config.cells ≤ line →
      exec (.patrolScrub ch line bad n) s = .next s) ∧
    (∀ (s : State) (ch group : Nat), exec (.dramRefresh ch group) s = .next s)) ∧
    (∀ (part : Nat) (s : State),
      (smGet s.parts part = none → exec (.reset part) s = .next (s.mgmtDone part (some .busy))) ∧
      ∀ t, smGet s.parts part = some t → exec (.reset part) s = .next ((s.beginReset part t).modPart part fun t =>
        { t with holdUntil := (s.incHold part).map (fun u => (u, false)), msixPend := 0,
                 queues := smMap (fun i q => if i < 64 then Queue.reset else q) t.queues })) ∧
    (∀ (part : Nat) (s : State),
      (smGet s.parts part = none → exec (.resetMeshDrained part) s = .next s) ∧
      ∀ t, smGet s.parts part = some t →
        (t.qst ≠ 4 ∨ t.holdUntil.isSome = true ∨ s.liveTags.contains part = true ∨ s.time < t.resetAt + 759 →
          exec (.resetMeshDrained part) s = .next s) ∧
        (t.qst = 4 → t.holdUntil = none → s.liveTags.contains part = false → t.resetAt + 759 ≤ s.time →
          ∀ u v, u = (((s.notify part 5 0).zeroPart part t true).goLive part) → v = u.notify part 6 (u.incOf part).1.toNat →
          exec (.resetMeshDrained part) s = .next
            (((forL (t.abortRecs.map fun ws => ws.modifyHead fun w => BitVec.ofNat 64 ((v.incOf part).1.toNat * 2 ^ 52 + fld w 51 0)) v
              (fun ws s => s.post part 67 ws)).modPart part fun t => { t with abortRecs := [] }).mgmtDone part none))) ∧
    (∀ (part : Nat) (s : State),
      (smGet s.parts part = none → exec (.destroy part) s = .next (s.mgmtDone part (some .busy))) ∧
      ∀ t, smGet s.parts part = some t → exec (.destroy part) s = .next ((s.destroy part).mgmtDone part none) ∧
        (∀ u v, u = ((forL (s.crews.filter fun x => x.2.part = part) s fun x s => s.discardSeals x.1 3 0).beginReset part t).notify part 5 0 →
          v = (u.zeroPart part t false).dropAreas part →
          smGet (s.destroy part).leftCells part = some ((v.own.filter fun x => x.2.1 = 2 && (u.cell x.1).1 ≠ 2).map Prod.fst) ∧
          (s.destroy part).own = v.own ∧ (s.destroy part).areas = v.areas) ∧
        ∀ p ∈ t.res.clusters, p ∉ (s.destroy part).clRdy) ∧
    (∀ (part : Nat) (s : State) (t : Machine.Part), smGet s.parts part = some t →
      (t.holdUntil = none → exec (.incarnationHoldExpiry part) s = .next s) ∧
      (∀ u new, t.holdUntil = some (u, new) → s.time < u → exec (.incarnationHoldExpiry part) s = .next s) ∧
      (∀ u, t.holdUntil = some (u, false) → u ≤ s.time → exec (.incarnationHoldExpiry part) s = .next
        (s.modPart part fun t => { t with holdUntil := none })) ∧
      (∀ u, t.holdUntil = some (u, true) → u ≤ s.time →
        (((∃ q ∈ t.res.channels, s.chRdy.contains q = false ∨ s.slRdy.contains q = false) ∨ s.hpRdy.contains t.vfPort = false) →
          exec (.incarnationHoldExpiry part) s = .next ((s.destroyQuiet part).mgmtDone part (some .notReady))) ∧
        ((∀ q ∈ t.res.channels, s.chRdy.contains q = true ∧ s.slRdy.contains q = true) → s.hpRdy.contains t.vfPort = true →
          ∀ v, v = (s.modPart part fun t => { t with res := { t.res with
            slices := t.res.slices.filter s.slRdy.contains, hostPorts := t.res.hostPorts.filter s.hpRdy.contains,
            fabricPorts := t.res.fabricPorts.filter s.fpRdy.contains, shares := t.res.shares.filter s.ksRdy.contains } }) →
          exec (.incarnationHoldExpiry part) s = .next (((v.replaceUnready part t.res.clusters).goLive part).mgmtDone part none))))

/-- A squall trip on a cluster that is not stretched stretches it, opens its suspect window and counts; it touches no
register, at most marking open regions suspect; during a stretch a trip is not counted, but the stretch begins anew. The
stretch ends no sooner than 32 stretched cycles after the last trip and the window 16 cycles after it; each clears just its
marks. A zone reading is recorded, and above 187.5 A the duty of every cluster of the zone halves, down to 1, in those
clusters only; after ten quiet microseconds each duty below its set value rises one step. A package reading is recorded, and
above 6,000 W no duty or set duty rises. The loss of a zone that serves no partition takes its clusters out of the ready
map; a zone already lost, or none, changes nothing. -/
def Obligations.PowerEvents : Prop :=
  (∀ (p : Nat) (hard : Bool) (s : State),
      ((s.cluster p).stretched = true → exec (.squallTrip p hard) s = .next
        { s with clusters := smSet s.clusters p { s.cluster p with
            deep := (s.cluster p).deep || hard, clk := s.clock p, clkAt := s.time, clkMark := s.clock p } }) ∧
      ((s.cluster p).stretched = false → ∃ t, exec (.squallTrip p hard) s = .next t ∧
        t.cluster p = { s.cluster p with
          stretched := true, deep := hard, suspect := true, squalls := (s.cluster p).squalls + 1, clk := s.clock p,
          clkAt := s.time, clkMark := s.clock p } ∧
        t.mem = s.mem ∧ t.parts = s.parts ∧
        ∀ cid co h, s.cohort? cid co = some h → ∃ b, t.cohort? cid co = some { h with rgn := { h.rgn with suspect := b } } ∧
          (h.rgn.suspect = true → b = true) ∧ (h.rgn.opened = false → b = h.rgn.suspect))) ∧
    (∀ (p : Nat) (s : State),
      ((s.cluster p).stretched = false ∨ s.cyclesPast p (s.cluster p).clkMark 32 = false →
        exec (.squallStretchEnd p) s = .next s) ∧
      ((s.cluster p).stretched = true → s.cyclesPast p (s.cluster p).clkMark 32 = true → exec (.squallStretchEnd p) s = .next
        { s with clusters := smSet s.clusters p { s.cluster p with
            stretched := false, deep := false, clk := s.clock p, clkAt := s.time, clkMark := s.clock p } })) ∧
    (∀ (p : Nat) (s : State),
      ((s.cluster p).suspect = false ∨ (s.cluster p).stretched = true ∨ s.cyclesPast p (s.cluster p).clkMark 16 = false →
        exec (.suspectWindowEnd p) s = .next s) ∧
      ((s.cluster p).suspect = true → (s.cluster p).stretched = false → s.cyclesPast p (s.cluster p).clkMark 16 = true → exec (.suspectWindowEnd p) s = .next
        { s with clusters := smSet s.clusters p { s.cluster p with suspect := false } })) ∧
    (∀ (z c : Nat) (s : State),
      (64 ≤ z → exec (.zoneOvercurrent z c) s = .next s) ∧
      (z < 64 → c ≤ 1875 → exec (.zoneOvercurrent z c) s = .next { s with zonecur := smSet s.zonecur z c }) ∧
      (z < 64 → 1875 < c → c < 65536 → ∃ t, exec (.zoneOvercurrent z c) s = .next t ∧ smGet t.zonecur z = some c ∧
        smGet t.overAt z = some s.time ∧ t.crews = s.crews ∧ t.mem = s.mem ∧
        ∀ p, t.cluster p = if p ∈ zoneClusters z then
            { s.cluster p with mxduty := BitVec.ofNat 5 (max 1 ((s.cluster p).mxduty.toNat / 2)) } else s.cluster p)) ∧
    (∀ (z : Nat) (s : State),
      (smGet s.overAt z = none → exec (.dutyRestore z) s = .next s) ∧
      (∀ u, smGet s.overAt z = some u → s.time < u + 10000 → exec (.dutyRestore z) s = .next s) ∧
      (∀ u, smGet s.overAt z = some u → u + 10000 ≤ s.time → ∃ t, exec (.dutyRestore z) s = .next t ∧
        smGet t.overAt z = some s.time ∧ t.crews = s.crews ∧ t.mem = s.mem ∧
        ∀ p, t.cluster p = if p ∈ zoneClusters z ∧ (s.cluster p).mxduty.toNat < (s.cluster p).dset.toNat then
            { s.cluster p with mxduty := (s.cluster p).mxduty + 1 } else s.cluster p)) ∧
    (∀ (w : Nat) (s : State),
      (w ≤ 6000 → exec (.packagePowerLimit w) s = .next { s with pkgpwr := w }) ∧
      (6000 < w → w < 65536 → ∃ t, exec (.packagePowerLimit w) s = .next t ∧ t.pkgpwr = w ∧ t.crews = s.crews ∧ t.mem = s.mem ∧
        ∀ p, (t.cluster p).mxduty.toNat ≤ (s.cluster p).mxduty.toNat ∧ (t.cluster p).dset.toNat ≤ (s.cluster p).dset.toNat)) ∧
    (∀ (z : Nat) (s : State), 64 ≤ z ∨ s.zoneBad.contains z = true → exec (.zoneLost z) s = .next s) ∧
    (∀ (z : Nat) (s : State), z < 64 → s.zoneBad.contains z = false → s.zoneCrews z = [] →
      (s.parts.filter fun x => x.2.res.clusters.any fun p => decide (clusterZone p = some z)) = [] →
      (zoneClusters z).filterMap (fun p => (s.ownerOf p).map fun t => (t, p, (s.cluster p).queue)) = [] →
      exec (.zoneLost z) s = .next (s.darken z) ∧ z ∈ (s.darken z).zoneBad ∧
        ∀ p ∈ (s.darken z).clRdy, clusterZone p ≠ some z)

/-- A mapping command of a tag without a partition changes nothing. ACQUIRE fails when a cell does not exist or is Owned,
waits while one is Scrubbing, and otherwise gives exactly those cells to the partition. RELEASE fails while a cell is
mapped, and otherwise sends exactly the cells the partition owns to Scrubbing. MAP fails on a misaligned frame, a cell not
owned or a valid leaf in the page; otherwise it writes the leaf, applies the bounce records and wakes what waits. UNMAP,
PROTECT and MIGRATE fail without a leaf of their size; UNMAP clears the leaves, flushes the page and orphans mapped lines;
PROTECT writes the permissions, after a flush when something is lost, and MIGRATE, when the new cells are owned and aligned,
first marks the page migrating and empties what holds it, and, run again, moves the page and completes. REFUSE fails without
a pending fault or with another cause, and otherwise ends every fault that waits for the granule. Each posts its completion
record. PROTECT keeps every other bit of the entry. -/
def Obligations.MappingCommands : Prop :=
  (∀ (part : Nat) (m : MapCmd) (s : State), smGet s.parts part = none → exec (.acquire part m) s = .next s ∧ exec (.release part m) s = .next s ∧ exec (.map part m) s = .next s ∧ exec (.unmap part m) s = .next s ∧ exec (.protect part m) s = .next s ∧ exec (.migrate part m) s = .next s ∧ exec (.refuse part m) s = .next s) ∧
    (∀ (part : Nat) (m : MapCmd) (s : State), (smGet s.parts part).isSome = true →
      ((Config.cells < m.frame.toNat + m.count.toNat ∨ ∃ c ∈ s.frameCells part m.frame.toNat m.count.toNat, (s.cell c).1 = 1) →
        exec (.acquire part m) s = .next (s.mapDone part m (failCode m.size.toNat))) ∧
      (m.frame.toNat + m.count.toNat ≤ Config.cells →
        (∀ c ∈ s.frameCells part m.frame.toNat m.count.toNat, (s.cell c).1 ≠ 1) →
        ((∃ c ∈ s.frameCells part m.frame.toNat m.count.toNat, 2 ≤ (s.cell c).1) →
          exec (.acquire part m) s = .next { s with acqWait := s.acqWait ++ [(part, m)] }) ∧
        ((∀ c ∈ s.frameCells part m.frame.toNat m.count.toNat, (s.cell c).1 < 2) →
          ∃ u : State, exec (.acquire part m) s = .next (u.mapDone part m 0) ∧ u.mem = s.mem ∧ u.crews = s.crews ∧ u.parts = s.parts ∧
            ∀ c, u.cell c = if c ∈ s.frameCells part m.frame.toNat m.count.toNat then (1, part) else s.cell c))) ∧
    (∀ (part : Nat) (m : MapCmd) (s : State), (smGet s.parts part).isSome = true →
      (s.stillMapped part m.frame.toNat m.count.toNat = true →
        exec (.release part m) s = .next (s.mapDone part m (failCode m.size.toNat))) ∧
      (s.stillMapped part m.frame.toNat m.count.toNat = false →
        ∃ u : State, exec (.release part m) s = .next (u.mapDone part m 0) ∧ u.mem = s.mem ∧ u.crews = s.crews ∧ u.parts = s.parts ∧
          ∀ c, u.cell c = if c ∈ s.frameCells part m.frame.toNat m.count.toNat ∧ s.owned c part = true then (2, 0) else s.cell c)) ∧
    (∀ (part : Nat) (m : MapCmd) (s : State), (smGet s.parts part).isSome = true →
      (m.frame.toNat % sizeGranules m.size.toNat ≠ 0 ∨ s.cellsOwned part m.frame.toNat (sizeGranules m.size.toNat) = false ∨
          s.leaves (m.asid part) m.lo m.hi ≠ [] →
        exec (.map part m) s = .next (s.mapDone part m (failCode m.size.toNat))) ∧
      ∀ t root u cell, m.frame.toNat % sizeGranules m.size.toNat = 0 →
        s.cellsOwned part m.frame.toNat (sizeGranules m.size.toNat) = true → s.leaves (m.asid part) m.lo m.hi = [] →
        s.makeRoot (m.asid part) = some (t, root) → t.tablePath m.lo (sizeLevel m.size.toNat) 5 root = some (u, cell) →
        ((u.word64 (pteAddr cell (pteIdx (sizeLevel m.size.toNat) m.lo))).getLsbD 0 = false ∨ sizeLevel m.size.toNat = 1) →
        exec (.map part m) s = .next (State.mapDone ((((u.applyBounce (m.asid part) m m.frame.toNat).writeLeaf cell m m.frame.toNat
          (m.fl.getLsbD 3) (m.fl.getLsbD 2) (m.fl.getLsbD 1) (m.fl.getLsbD 0)).dropWalks (m.asid part)).wakePage
            (m.asid part) m.lo m.hi) part m 0)) ∧
    (∀ (part : Nat) (m : MapCmd) (s : State), (smGet s.parts part).isSome = true →
      (s.pageLeaves (m.asid part) m = [] → exec (.unmap part m) s = .next (s.mapDone part m (failCode m.size.toNat)) ∧
        exec (.protect part m) s = .next (s.mapDone part m (failCode m.size.toNat)) ∧
        (∀ t, smGet s.parts part = some t → t.migr.contains m = false →
          exec (.migrate part m) s = .next (s.mapDone part m (failCode m.size.toNat)))) ∧
      (∀ t, smGet s.parts part = some t → t.migr.contains m = true →
        exec (.migrate part m) s = .next ((s.endMigrate part m).mapDone part m 0)) ∧
      ∀ y l, s.pageLeaves (m.asid part) m = y :: l →
        exec (.unmap part m) s = .next
          ((((s.clearLeaves (y :: l)).flushPage (m.asid part) m.lo m.hi).orphanPage (m.asid part) m.lo m.hi).mapDone part m 0) ∧
        (isDowngrade (y :: l) (m.fl.getLsbD 3) (m.fl.getLsbD 2) (m.fl.getLsbD 1) = true →
          exec (.protect part m) s = .next ((forL (y :: l) ((s.clearLeaves (y :: l)).flushPage (m.asid part) m.lo m.hi)
            fun z s => s.setPte z.addr (leafWith z.e (m.fl.getLsbD 3) (m.fl.getLsbD 2) (m.fl.getLsbD 1))).mapDone part m 0)) ∧
        (isDowngrade (y :: l) (m.fl.getLsbD 3) (m.fl.getLsbD 2) (m.fl.getLsbD 1) = false →
          exec (.protect part m) s = .next (((forL (y :: l) s
            fun z s => s.setPte z.addr (leafWith z.e (m.fl.getLsbD 3) (m.fl.getLsbD 2) (m.fl.getLsbD 1))).dropWalks
              (m.asid part) |>.upgradePage (m.asid part) m.lo m.hi (m.fl.getLsbD 3) (m.fl.getLsbD 2) (m.fl.getLsbD 1)).mapDone part m 0)) ∧
        ∀ t, smGet s.parts part = some t → t.migr.contains m = false →
          (m.frame.toNat % sizeGranules m.size.toNat ≠ 0 ∨ s.cellsOwned part m.frame.toNat (sizeGranules m.size.toNat) = false →
            exec (.migrate part m) s = .next (s.mapDone part m (failCode m.size.toNat))) ∧
          (m.frame.toNat % sizeGranules m.size.toNat = 0 → s.cellsOwned part m.frame.toNat (sizeGranules m.size.toNat) = true →
            ∃ u : State, s.beginMigrate part m = some u ∧ exec (.migrate part m) s = .next u)) ∧
    (∀ (part : Nat) (m : MapCmd) (s : State), (smGet s.parts part).isSome = true →
      ((m.cause ≠ cPageNotPresent ∧ m.cause ≠ cPagePerm) ∨ s.waitsFor (m.asid part) (vpnOf m.va) (vpnOf m.va + 1) = false →
        exec (.refuse part m) s = .next (s.mapDone part m (failCode m.size.toNat))) ∧
      (m.cause = cPageNotPresent ∨ m.cause = cPagePerm → s.waitsFor (m.asid part) (vpnOf m.va) (vpnOf m.va + 1) = true →
        exec (.refuse part m) s = .next ((((((s.refuseFetches (m.asid part) (vpnOf m.va) (vpnOf m.va + 1) m.cause).dropWaits
          (m.asid part) (vpnOf m.va) (vpnOf m.va + 1)).refuseRequests (m.asid part) (vpnOf m.va) (vpnOf m.va + 1) m.cause).refuseInbound
          (m.asid part) (vpnOf m.va) (vpnOf m.va + 1) m.cause).refuseJobs (m.asid part) (vpnOf m.va) (vpnOf m.va + 1) m.cause).mapDone part m 0))) ∧
    (∀ (w x al : Bool) (e : W64), (leafWith e w x al).getLsbD 2 = w ∧ (leafWith e w x al).getLsbD 3 = x ∧
      (leafWith e w x al).getLsbD 4 = al ∧ (leafWith e w x al) &&& ~~~(0x1C#64) = e &&& ~~~(0x1C#64))

/-- ROUTE_FLITS waits for its neighbours; where no flit is bad it takes the router one cycle further, no other router, and
touches neither registers nor memory. Placing puts each flit in exactly one place: the first flit for the site in the
ejection port, otherwise a free productive port, otherwise a free one, otherwise it stays. A starving queue asks its
neighbours. SINK_EJECT drops foreign tags, collects packets, queues whole requests at their slice and ends requests whose
reply is whole. HOME_SLICE_REQUEST serves the request that the port grants, by QP among those that may be served unless one
has starved, performs hits, joins fills, and starts misses; a read takes the bytes of its line, a write changes them, a
request without permission changes no line. A walk ends in the TLB or fails its misses, but that of a migrating page waits;
a fill serves its waiting requests in order; a mapped line is filled or fails; a dirty granule is written back. -/
def Obligations.MeshAndSliceEvents : Prop :=
  (∀ (plane site : Nat) (bad : List Nat) (s : State),
      (3 ≤ plane ∨ 4096 ≤ site ∨ s.fencedRtr.contains site = true ∨
          (∃ x ∈ s.ports site, (smGetD s.routers (4096 * plane + x.2) Router.reset).cyc < (smGetD s.routers (4096 * plane + site) Router.reset).cyc) →
        exec (.routeFlits plane site bad) s = .next s) ∧
      (plane < 3 → site < 4096 → s.fencedRtr.contains site = false →
        (∀ x ∈ s.ports site, (smGetD s.routers (4096 * plane + site) Router.reset).cyc ≤ (smGetD s.routers (4096 * plane + x.2) Router.reset).cyc) → bad = [] →
        (∀ f ∈ (smGetD s.routers (4096 * plane + site) Router.reset).inbox, f.cls.toNat < 6) →
        ∃ t, exec (.routeFlits plane site bad) s = .next t ∧ t.mem = s.mem ∧ t.crews = s.crews ∧ t.parts = s.parts ∧
          t.slices = s.slices ∧ t.clusters = s.clusters ∧
          ∀ k, (smGetD t.routers k Router.reset).cyc =
            if k = 4096 * plane + site then (smGetD s.routers (4096 * plane + site) Router.reset).cyc + 1 else (smGetD s.routers k Router.reset).cyc)) ∧
    (∀ (s : State) (site : Nat) (f : Flit) (x : Placing),
      ((f.dest.toNat = site ∧ x.open' = true) → s.placeFlit site f x = { x with open' := false, eject := x.eject ++ [f] }) ∧
      ((f.dest.toNat ≠ site ∨ x.open' = false) → (s.placeFlit site f x).eject = x.eject ∧
        ((∃ y ∈ x.free, s.productive site f.dest.toNat y.2 = true) →
          ∃ y ∈ x.free, s.productive site f.dest.toNat y.2 = true ∧ (s.placeFlit site f x).out = x.out ++ [(y.2, f)] ∧
            (s.placeFlit site f x).free = x.free.erase y) ∧
        ((∀ y ∈ x.free, s.productive site f.dest.toNat y.2 = false) → ∀ y l, x.free = y :: l →
          (s.placeFlit site f x).out = x.out ++ [(y.2, f)])) ∧
      (s.placeFlit site f x).out.length + (s.placeFlit site f x).eject.length + (s.placeFlit site f x).stay.length =
        x.out.length + x.eject.length + x.stay.length + 1) ∧
    (∀ (plane site : Nat) (s : State),
      (plane < 3 → site < 4096 → (s.router (replyHome plane) site).queue ≠ [] → 256 ≤ (smGetD s.routers (4096 * plane + site) Router.reset).waited →
        exec (.injectionStarvation plane site) s = .next (s.modRouter plane site fun q => { q with asked := true })) ∧
      (3 ≤ plane ∨ 4096 ≤ site ∨ (s.router (replyHome plane) site).queue = [] ∨ (smGetD s.routers (4096 * plane + site) Router.reset).waited < 256 → exec (.injectionStarvation plane site) s = .next s)) ∧
    (∀ (plane site : Nat) (s : State),
      ((smGetD s.routers (4096 * plane + site) Router.reset).ejected = [] → exec (.sinkEject plane site) s = .next s) ∧
      ∀ f l u, (smGetD s.routers (4096 * plane + site) Router.reset).ejected = f :: l → u = s.modRouter plane site (fun q => { q with ejected := l }) →
        (u.sinkAccepts plane site f.tag.toNat = false → exec (.sinkEject plane site) s = .next (u.tagDrop site f)) ∧
        (u.sinkAccepts plane site f.tag.toNat = true → ∀ q, smGet s.reqs f.req = some q → q.txn = some f.txn.toNat →
          q.reply = decide (plane ≠ 0) →
          ((nsAdd f.idx.toNat q.got).length ≤ f.nfl.toNat → exec (.sinkEject plane site) s = .next
            { u with reqs := smSet u.reqs f.req { q with got := nsAdd f.idx.toNat q.got } }) ∧
          (f.nfl.toNat < (nsAdd f.idx.toNat q.got).length →
            (plane = 0 → exec (.sinkEject plane site) s = .next
              (({ u with reqs := smSet u.reqs f.req { q with got := [], stage := .atSlice } }).modSlice q.home fun x =>
                { x with reqq := x.reqq ++ [f.req] })) ∧
            (plane ≠ 0 → exec (.sinkEject plane site) s = .next (u.endReq f.req))))) ∧
    (∀ (sl id : Nat) (s : State), smGet s.reqs id = none → exec (.homeSliceRequest sl id) s = .next s) ∧
    (∀ (qp : Nat → Nat) (since : SMap Nat) (l : List (Nat × Nat)) (n : Nat), n = ((l.map Prod.snd).eraseDups).length →
      (arbPick qp since l = none → l = []) ∧ ∀ x, arbPick qp since l = some x → x ∈ l ∧
        ((∀ y ∈ l, smGetD since y.2 0 < 63 * n) → ∀ y ∈ l, qp x.2 ≤ qp y.2) ∧
        ((∃ y ∈ l, 63 * n ≤ smGetD since y.2 0) → ∀ y ∈ l, smGetD since y.2 0 ≤ smGetD since x.2 0)) ∧
    (∀ (sl id : Nat) (o : State) (r : Req), smGet o.reqs id = some r → ∀ u s : State, u = o.noteSlice sl →
      s = u.modSlice sl (fun x => { x with grants := arbNote x.grants (u.grantable sl) (asidTag r.asid) }) →
      (arbPick u.qpOf (u.slice sl).grants (u.grantable sl) ≠ some (id, asidTag r.asid) → exec (.homeSliceRequest sl id) o = .next u) ∧
      (arbPick u.qpOf (u.slice sl).grants (u.grantable sl) = some (id, asidTag r.asid) →
        (s.behindTrail id r = true → exec (.homeSliceRequest sl id) o = .next
          ((s.modSlice sl fun x => { x with reqq := x.reqq.filter (· != id) }).enterTrail id r .replay)) ∧
        (s.behindTrail id r = false →
          (∀ key, (s.slice sl).find r.asid r.va = some key → ((s.slice sl).way key).st ≠ 3 →
            exec (.homeSliceRequest sl id) o = .next ((s.modSlice sl fun x => x.rank key false).performReq sl key id)) ∧
          (∀ key, (s.slice sl).find r.asid r.va = some key → ((s.slice sl).way key).st = 3 →
            exec (.homeSliceRequest sl id) o = .next (({ s with reqs := smSet s.reqs id { r with stage := .filling } }).modSlice sl fun x =>
              { x.setWay key { (s.slice sl).way key with waiters := ((s.slice sl).way key).waiters ++ [id] } with
                reqq := x.reqq.filter (· != id) })) ∧
          ((s.slice sl).find r.asid r.va = none → (r.op ≠ .pref 3 → exec (.homeSliceRequest sl id) o = .next (s.miss sl id r)) ∧
            (r.op = .pref 3 → exec (.homeSliceRequest sl id) o = .next
              ((s.modSlice sl fun x => { x with reqq := x.reqq.filter (· != id) }).replyReq id r)))))) ∧
    (∀ (s : State) (q key id n : Nat) (b : Bool) (r : Req), smGet s.reqs id = some r → r.op = .read n b →
      b = false ∨ (s.issue (6 * r.p + r.sl)).l0Line? r.asid r.va = none →
      permFault ((s.slice q).way key).w ((s.slice q).way key).x false 0 = none →
      ∃ r', smGet (s.performReq q key id).reqs id = some r' ∧ r'.data = ((s.slice q).way key).bytes (r.va.toNat % 128) n ∧
        r'.stage = .replied ∧ r'.reply = true ∧ r'.err = r.err ∧ (s.performReq q key id).mem = s.mem) ∧
    (∀ (s : State) (q key id : Nat) (d : List Byte) (r : Req), smGet s.reqs id = some r → r.op = .write d →
      permFault ((s.slice q).way key).w ((s.slice q).way key).x false 1 = none →
      ((s.performReq q key id).slice q).way key = ((s.slice q).way key).write (r.va.toNat % 128) d false ∧
        (s.performReq q key id).mem = s.mem ∧ ∃ r', smGet (s.performReq q key id).reqs id = some r' ∧ r'.stage = .replied) ∧
    (∀ (s : State) (q key id : Nat) (c : Cause) (r : Req), smGet s.reqs id = some r →
      permFault ((s.slice q).way key).w ((s.slice q).way key).x false (if r.op.writes then 1 else 0) = some c →
      (((s.performReq q key id).slice q).way key = (s.slice q).way key) ∧
        ∃ r', smGet (s.performReq q key id).reqs id = some r' ∧ r'.err = some c ∧ r'.stage = .replied) ∧
    (∀ (sl walk : Nat) (s : State),
      (((s.slice sl).walks.take 16).find? (fun x => x.1 = walk) = none → exec (.pageWalkEnd sl walk) s = .next s) ∧
      ∀ x, ((s.slice sl).walks.take 16).find? (fun x => x.1 = walk) = some x →
        (s.migrating x.2.asid (vpnOf x.2.va) = true → exec (.pageWalkEnd sl walk) s = .next s) ∧
        (s.migrating x.2.asid (vpnOf x.2.va) = false →
        (∀ t, s.walk sl x.2.asid (vpnOf x.2.va) = .ok t → ∃ u, exec (.pageWalkEnd sl walk) s = .next u ∧
          (u.slice sl).tlb = (t :: (s.slice sl).tlb).take 4096 ∧ (u.slice sl).walks = smDel (s.slice sl).walks walk ∧
          (u.slice sl).lines = (s.slice sl).lines ∧ u.mem = s.mem ∧ u.crews = s.crews ∧ u.reqs = s.reqs) ∧
        (∀ c, s.walk sl x.2.asid (vpnOf x.2.va) = .error c → ∃ u : State, exec (.pageWalkEnd sl walk) s =
            .next (forL x.2.waiters u fun key s => match s.walk sl x.2.asid ((s.slice sl).way key).vpn.toNat with
              | .error _ => s.failLine sl key c
              | .ok _ => s) ∧ u.crews = s.crews ∧ u.mem = s.mem ∧ u.reqs = s.reqs ∧
          (u.slice sl).walks = smDel (s.slice sl).walks walk ∧ (u.slice sl).tlb = (s.slice sl).tlb))) ∧
    (∀ (sl key : Nat) (s : State),
      (((s.slice sl).way key).st ≠ 3 → exec (.lineFillDone sl key) s = .next s) ∧
      (((s.slice sl).way key).st = 3 →
        ∀ t, (s.slice sl).tlbHit ((s.slice sl).way key).asid (vpnVa ((s.slice sl).way key).vpn.toNat) = some t →
        (∀ c, s.leafOk sl ((s.slice sl).way key).vpn.toNat t = .error c →
          exec (.lineFillDone sl key) s = .next (s.failLine sl key c)) ∧
        (∀ t', s.leafOk sl ((s.slice sl).way key).vpn.toNat t = .ok t' →
          permFault t'.w t'.x t'.al (if ((((s.slice sl).way key).waiters.filterMap fun id => smGet s.reqs id).all
            fun r => r.op.writes) then 1 else 0) = none →
          exec (.lineFillDone sl key) s = .next (((s.fillWay sl key t'
            (fillStream (((s.slice sl).way key).waiters.filterMap fun id => smGet s.reqs id))).modSlice sl fun x =>
            x.setWay key { x.way key with waiters := [] }).serveLine sl key ((s.slice sl).way key).waiters)))) ∧
    (∀ (p line : Nat) (s : State),
      (∀ l, smGet (s.cluster p).mapped line = some l →
        (l.st = 0 → exec (.mappedLineFill p line) s = .next s) ∧
        (l.st ≠ 0 → l.st ≠ 1 → exec (.mappedLineFill p line) s = .next (s.serveReplays p line)) ∧
        (l.st = 1 →
          (∀ t, s.fillMline p line l = .done t → exec (.mappedLineFill p line) s = .next (t.serveMline p line)) ∧
          (s.fillMline p line l = .wait → exec (.mappedLineFill p line) s = .next s) ∧
          (∀ c, s.fillMline p line l = .fault c → exec (.mappedLineFill p line) s = .next (s.failMline p line l c)))) ∧
      (smGet (s.cluster p).mapped line = none → exec (.mappedLineFill p line) s = .next (s.serveReplays p line))) ∧
    (∀ (p line g : Nat) (s : State),
      (∀ l, smGet (s.cluster p).mapped line = some l → l.st = 2 → l.mask.getLsbD g = true →
        exec (.writeBackStep p line g) s = .next (s.writeBackGranule p line g l)) ∧
      ((∀ l, smGet (s.cluster p).mapped line = some l → l.st ≠ 2 ∨ l.mask.getLsbD g = false) →
        exec (.writeBackStep p line g) s = .next s))

/-- A queued copy job starts when fewer than eight run and nothing accepted earlier conflicts; a granule lands once, after
earlier writes to the same place, and then counts as landed; a read that faults ends the job FAILED; a job ends DONE when
every piece has landed and is published. A pass station forwards a granule in its turn. A mandrel looks at its queued
entries in order of acceptance: a failed predecessor fails the entry, a conflict, an occupied bank or engine makes it wait,
otherwise it starts. A matrix step updates the bank with the exact tile and counts a step, a suspect one is done again, a
faulting one ends the card. The tiles that members share are staged once for all. Outputs are written granule by granule, or
pushed word by word once the channel has room. An absorb and a record wait for a place in the chuck; an absorb appends its
bytes; a finished seal is signed, its record written and the sequence number raised. Each does nothing when its condition
does not hold. -/
def Obligations.JobEvents : Prop :=
  (∀ (p slot : Nat) (s : State),
      (∀ j, smGet (s.cluster p).cp slot = some j → j.st = .queued →
        ((s.cluster p).cp.filter fun x => x.2.st = .running).length < 8 → (s.cluster p).mayStart 0 slot j.ord = true →
        exec (.copyJobStart p slot) s = .next (s.modCluster p fun c => { c with cp := smMod c.cp slot fun j => { j with st := .running } })) ∧
      ((∀ j, smGet (s.cluster p).cp slot = some j → j.st ≠ .queued ∨
          8 ≤ ((s.cluster p).cp.filter fun x => x.2.st = .running).length ∨ (s.cluster p).mayStart 0 slot j.ord = false) →
        exec (.copyJobStart p slot) s = .next s)) ∧
    (∀ (p slot g : Nat) (s : State),
      (smGet (s.cluster p).cp slot = none → exec (.copyGranuleLand p slot g) s = .next s) ∧
      ∀ j c, smGet (s.cluster p).cp slot = some j → smGet s.crews j.cid = some c →
        (j.st ≠ .running ∨ g ∈ j.landed → exec (.copyGranuleLand p slot g) s = .next s) ∧
        (j.st = .running → g ∉ j.landed → j.kind = .cp ∨ j.kind = .cp2d ∨ j.kind = .mc ∨ j.kind = .fill →
          ∀ y, s.cpPiece c j g = some y → s.cpBehind c j g y = false →
          (j.kind = .fill ∨ dSsp j.desc ≠ 0 ∨ inHost (BitVec.ofNat 64 (dSrc j.desc)) = false) →
          exec (.copyGranuleLand p slot g) s = .next (s.cpLand p slot g c j y))) ∧
    (∀ (s t u : State) (p slot g : Nat) (c : Crew) (j : CpJob) (y : Piece) (d : List PByte), j.kind ≠ .mc →
      s.cpData c j g y = .done (t, d) → t.cpPut p j y d = .done u →
      s.cpLand p slot g c j y = u.cpLanded p slot g (if dDsp j.desc = 0 then 0 else y.recv) y.n ∧
      ∀ j', smGet (u.cluster p).cp slot = some j' → ∃ j2, smGet ((s.cpLand p slot g c j y).cluster p).cp slot = some j2 ∧
        g ∈ j2.landed ∧ (∀ x ∈ j'.landed, x ∈ j2.landed) ∧ j2.st = j'.st ∧ j2.desc = j'.desc) ∧
    (∀ (s : State) (p slot g : Nat) (c : Crew) (j : CpJob) (y : Piece) (e : Cause), s.cpData c j g y = .fault e → e ≠ cPageNotPresent →
      s.cpLand p slot g c j y = s.cpEnd p slot j .failed e) ∧
    (∀ (p slot : Nat) (s : State) (j : CpJob) (c : Crew), smGet (s.cluster p).cp slot = some j → smGet s.crews j.cid = some c →
      (j.st = .running → j.out = [] → s.cpCount c j ≤ j.landed.length → s.cpPublished j = true →
        exec (.copyJobEnd p slot) s = .next (s.cpEnd p slot j .done 0)) ∧
      (j.st ≠ .running ∨ j.out ≠ [] ∨ j.landed.length < s.cpCount c j ∨ s.cpPublished j = false →
        exec (.copyJobEnd p slot) s = .next s)) ∧
    (∀ (p slot station g : Nat) (s : State) (j : CpJob) (e : W32), smGet (s.cluster p).cp slot = some j → j.route[station]? = some e →
      (j.st = .running → j.kind = .rt → e.getLsbD 30 = true →
        smGetD j.hops g 0 = ((j.route.take station).filter fun e => e.getLsbD 30).length →
        exec (.routeStationForward p slot station g) s = .next (s.modCluster p fun c => { c with cp := smMod c.cp slot fun y =>
          { y with hops := smSet y.hops g (((j.route.take station).filter fun e => e.getLsbD 30).length + 1) } })) ∧
      (j.st ≠ .running ∨ j.kind ≠ .rt ∨ e.getLsbD 30 = false ∨
          smGetD j.hops g 0 ≠ ((j.route.take station).filter fun e => e.getLsbD 30).length →
        exec (.routeStationForward p slot station g) s = .next s)) ∧
    (∀ (p : Nat) (s : State), exec (.mandrelCycle p) s = .next
        (forL (mxOrder ((s.cluster p).mx.filter fun y => decide (y.2.st = .queued))) s fun slot s => s.mxTry p slot)) ∧
    (∀ (s : State) (p slot : Nat) (e : MxEnt), smGet (s.cluster p).mx slot = some e →
      (e.st ≠ .queued → s.mxTry p slot = s) ∧
      ∀ pst, pst = e.preds.filterMap (fun y => (smGet (s.cluster y.1).mx y.2).map fun q => s.mxWhole q) → e.st = .queued →
        ((∃ x ∈ pst, x = .failed ∨ x = .cancelled ∨ x = .saved) → s.mxTry p slot = s.mxEndAll p slot e .failed cMxPredFailed) ∧
        ((∀ x ∈ pst, x = .done) →
          ((s.cluster p).mayStart 1 slot e.ord = false → s.mxTry p slot = s) ∧
          ((s.cluster p).mayStart 1 slot e.ord = true → s.mxFloats e = false → s.bankBlocked p e = true → s.mxTry p slot = s) ∧
          ((s.cluster p).mayStart 1 slot e.ord = true → s.mxFloats e = true ∨ s.bankBlocked p e = false →
            ∀ g, s.engineFor p e = some g → (if e.kind = .drain then (s.dcUsers g).isEmpty else s.arrayIdle g) = true →
              s.mxTry p slot = s.mxStart p slot g e))) ∧
    (∀ (p slot : Nat) (s : State) (e : MxEnt) (c : Crew), smGet (s.cluster p).mx slot = some e → smGet s.crews e.cid = some c →
      (e.st ≠ .running ∨ (e.kind ≠ .card ∧ e.kind ≠ .team) ∨ e.walked = true ∨ s.mxStageFree e = false →
        exec (.mxStep p slot) s = .next s) ∧
      (e.st = .running → e.kind = .card ∨ e.kind = .team → e.walked = false → s.mxStageFree e = true →
        (mxTile e.card e.steps = none → exec (.mxStep p slot) s = .next (s.mxEndAll p slot e .failed cMxCardInvalid)) ∧
        ∀ row col, mxTile e.card e.steps = some (row, col) →
          (∀ t a b, s.mxOperands e c = .done (t, a, b) →
            exec (.mxStep p slot) s = .next
              (if (t.cluster e.eng).suspect = true ∨ Config.checkFails t.tick = true then t.mxSuspect p slot e
              else (t.modBank e.eng (mBank e.card) fun k =>
                { mxTileUpdate e.card e.touched row col a b k with nw := mN e.card }).modMx p slot fun e =>
                { e with steps := e.steps + 1, touched := mxTouch e.card row col e.touched, replays := 0,
                         staged := smFilter (fun i _ => decide (2 * e.steps + 1 < i)) e.staged })) ∧
          (∀ x, s.mxOperands e c = .fault x → x ≠ cPageNotPresent →
            exec (.mxStep p slot) s = .next (s.mxEndAll p slot e .failed x)))) ∧
    (∀ (p slot g : Nat) (s : State) (e : MxEnt) (c : Crew), smGet (s.cluster p).mx slot = some e → smGet s.crews e.cid = some c →
      (e.st ≠ .running ∨ e.writes = false ∨ mCdst e.card = 2 ∨ g ∈ e.out ∨ s.dcServes e = false →
        exec (.mxWriteOut p slot g) s = .next s) ∧
      (e.st = .running → e.writes = true → mCdst e.card ≠ 2 → g ∉ e.out → s.dcServes e = true →
        (mRect (decide (e.kind = .drain)) e.card).2.2.2 * fmtBytes (mOfmt e.card) ≤ mCld e.card →
        ∀ ys recv t, (s.mxGranules e)[g % (s.mxGranules e).length]? = some ys →
          (s.mxReceivers e)[g / (s.mxGranules e).length]? = some recv →
          s.mxPutAll e c recv ((s.cluster e.eng).bank (mBank e.card)) ys = .done t →
          exec (.mxWriteOut p slot g) s = .next (t.modMx p slot fun e => { e with out := nsAdd g e.out }))) ∧
    (∀ (p slot : Nat) (s : State) (e : MxEnt) (c : Crew), smGet (s.cluster p).mx slot = some e → smGet s.crews e.cid = some c →
      (e.st ≠ .running ∨ e.writes = false ∨ mCdst e.card ≠ 2 ∨ s.mxOutCount e ≤ e.out.length ∨ s.dcServes e = false →
        exec (.mxChannelPush p slot) s = .next s) ∧
      (e.st = .running → e.writes = true → mCdst e.card = 2 → e.out.length < s.mxOutCount e → s.dcServes e = true →
        ∀ ch, ch = c.chans[mCbase e.card]?.getD default →
        (ch.room ≤ (s.chanHeld c.p e.cid (mCbase e.card)).2 →
          exec (.mxChannelPush p slot) s = .next (s.modCrew e.cid fun c => c.chanWaits (mCbase e.card) (s.clock c.p))) ∧
        ((s.chanHeld c.p e.cid (mCbase e.card)).2 < ch.room →
          exec (.mxChannelPush p slot) s = .next ((s.modCrew e.cid fun c =>
            { c with chans := c.chans.setIfInBounds (mCbase e.card) (ch.push (mxWord e ((s.cluster e.eng).bank (mBank e.card)) e.out.length)), wdBlocked := none }).modMx p slot fun x =>
            { x with out := nsAdd x.out.length x.out })))) ∧
    (∀ (p slot : Nat) (s : State) (e : MxEnt), smGet (s.cluster p).mx slot = some e →
      (e.st = .running → s.mxReady e = true → s.mxPublished e = true →
        exec (.mxCardEnd p slot) s = .next ((s.mxClear e).mxDone p slot e)) ∧
      (e.st ≠ .running ∨ s.mxReady e = false ∨ s.mxPublished e = false → exec (.mxCardEnd p slot) s = .next s)) ∧
    (∀ (p ctx : Nat) (s : State) (x : SealCtx) (c : Crew) (a : SealAbs) (l : List SealAbs), smGet (s.cluster p).seals ctx = some x →
      smGet s.crews x.cid = some c → x.absorbs = a :: l →
      (x.failed = true → exec (.sealAbsorbEnd p ctx) s = .next s) ∧
      (x.failed = false → (s.cluster p).sealHolds a = false → exec (.sealAbsorbEnd p ctx) s = .next
        (s.modCluster p fun cl => cl.sealEnter [sealRng c a.stash a.addr a.n false ctx a.ord])) ∧
      (x.failed = false → (s.cluster p).sealHolds a = true →
        (s.absorbBytes c x a = .wait → exec (.sealAbsorbEnd p ctx) s = .next s) ∧
        (∀ e, s.absorbBytes c x a = .fault e → e ≠ cPageNotPresent → exec (.sealAbsorbEnd p ctx) s = .next
          ((s.modSeal p ctx fun y => { y with failed := true }).fatal x.cid e 0 (sealHandle x.serial ctx).toNat)) ∧
        (∀ t d, s.absorbBytes c x a = .done (t, d) → exec (.sealAbsorbEnd p ctx) s = .next
          (((t.modCluster p fun c => c.dropSealRng a.ord).modSeal p ctx fun y =>
            { y with data := x.data ++ d, absorbs := l }).resultLane a.pend a.lane
              [BitVec.ofNat 64 ((x.data ++ d).length % 2 ^ 32)] false)))) ∧
    (∀ (p ctx : Nat) (s : State) (x : SealCtx) (c : Crew) (a : SealAbs) (q : Machine.Part), smGet (s.cluster p).seals ctx = some x →
      smGet s.crews x.cid = some c → x.fin = some a → smGet s.parts (s.sealPart x) = some q →
      (x.absorbs ≠ [] ∨ x.failed = true → exec (.sealSign p ctx) s = .next s) ∧
      (x.absorbs = [] → x.failed = false → (s.cluster p).sealHolds a = false → exec (.sealSign p ctx) s = .next
        (s.modCluster p fun cl => cl.sealEnter [sealRng c a.stash a.addr a.n true ctx a.ord])) ∧
      (x.absorbs = [] → x.failed = false → (s.cluster p).sealHolds a = true →
        (∀ t, s.putRecord c x a (s.sealBytes c q x) = .done t →
          exec (.sealSign p ctx) s = .next (t.sealDone p ctx c q x a (q.seq + 1))) ∧
        (s.putRecord c x a (s.sealBytes c q x) = .wait → exec (.sealSign p ctx) s = .next
          (if (s.cluster c.p).sealMayStart a.ord then s.stallRecord c a (recordBytes x.alg) else s)))) ∧
    (∀ (p ctx slot : Nat) (s : State),
      ((smGet (s.cluster p).seals ctx = none → exec (.sealAbsorbEnd p ctx) s = .next s ∧ exec (.sealSign p ctx) s = .next s) ∧
      (smGet (s.cluster p).mx slot = none → exec (.mxStep p slot) s = .next s ∧ exec (.mxCardEnd p slot) s = .next s ∧
        exec (.mxChannelPush p slot) s = .next s ∧ ∀ g, exec (.mxWriteOut p slot g) s = .next s) ∧
      (smGet (s.cluster p).cp slot = none → exec (.copyJobEnd p slot) s = .next s ∧
        ∀ n g, exec (.routeStationForward p slot n g) s = .next s)))

/-- A reply ends the request it names and gives its value, or poison and a trap, to the waiting thread; a request already
answered is left alone. A packet leaves by the port its route gives, or is turned within the module, where a stale
incarnation loses it. An arriving packet is dropped and counted at a port that does not admit it, forwarded when it is for
another module, and otherwise handled by its class. A request unanswered after %fabtmo marks its peer SILENT, sets its TXN
aside, posts a record and ends. A link is up once it trains with its partner and goes down for good at the eighth failed
replay. A request to a mirrored peer whose primary copy is lost fails over, once, to the secondary. Reset notices,
incarnations and joins rewrite the peer tables of every partition as the rules say, and a join asks for the peer's
incarnation. Requests of one stream to one line leave one after another. A line of the write buffer drains when its age has
come. Handles are refilled per 64 ns up to the cap; a mark halves a fraction, down to 1/1,024, and a quiet microsecond gives
1/64 back; a marking window ends after 1 microsecond. -/
def Obligations.FabricEvents : Prop :=
  (∀ (id : Nat) (a : FabAck) (s : State),
      (smGet s.fab id = none → exec (.fabricAck id a) s = .next s) ∧
      ∀ r, smGet s.fab id = some r → (r.sent = none ∨ r.primary = true → exec (.fabricAck id a) s = .next s)) ∧
    (∀ (id : Nat) (a : FabAck) (s u : State) (r : FabReq) (cid co lane pid t : Nat), smGet s.fab id = some r → r.sent = some t →
      r.primary = false → r.use = .thread cid co lane pid → u = s.peerAlive r.part r.pkt.dmod.toNat r.pkt.dtag.toNat →
      (a.ended = true → ∀ w : State, w = { u.postFab r a.cause with
            fab := (smDel (u.postFab r a.cause).fab id).filter fun x => decide (x.2.use ≠ FabUse.mirror id) } →
        exec (.fabricAck id a) s = .next ((w.resultLane pid lane [] true).dueTrap cid co lane
          (w.fabTrap r a.cause (canon r.pkt.va.toNat)))) ∧
      (a.ended = false → r.pkt.cls = 0 → u.mirrorOf id = none → ∀ p, smGet u.pends pid = some p →
        exec (.fabricAck id a) s = .next (({ u with fab := smDel u.fab id }).resultLane pid lane
          (ldfValue p lane r.pkt.va.toNat (a.data.zip a.pz)).val (ldfValue p lane r.pkt.va.toNat (a.data.zip a.pz)).p))) ∧
    (∀ (id : Nat) (a : FabAck) (s u : State) (r : FabReq) (l : List (Nat × Nat)) (t : Nat), smGet s.fab id = some r → r.sent = some t →
      r.primary = false → r.use = .drain l → r.pkt.cls = 1 → u = s.peerAlive r.part r.pkt.dmod.toNat r.pkt.dtag.toNat →
      (a.ended = false → u.mirrorOf id = none → exec (.fabricAck id a) s = .next { u with fab := smDel u.fab id }) ∧
      (a.ended = true → ∀ w : State, w = { u.postFab r a.cause with
            fab := (smDel (u.postFab r a.cause).fab id).filter fun x => decide (x.2.use ≠ FabUse.mirror id) } →
        exec (.fabricAck id a) s = .next (w.trapWriters l (w.fabTrap r a.cause (canon r.pkt.va.toNat))))) ∧
    (∀ (id : Nat) (s : State) (r : FabReq) (c : Cause), (∀ o, r.use ≠ .mirror o) → r.primary = false →
      (peerSv (s.peer r.part r.peer) = false ∨ r.fo = true → s.fabLost id r c = s.endFab id r c) ∧
      (peerSv (s.peer r.part r.peer) = true → r.fo = false → s.fabLost id r c = s.failover id r) ∧
      (isFabCause c = true → s.postFab r c = s.postInfo r.part c (canon r.pkt.va.toNat)
        (4096 * peerMod (s.peer r.part (s.fabTarget r)) + s.fabTarget r)) ∧
      (isFabCause c = false → s.postFab r c = s)) ∧
    (∀ (id port : Nat) (o s : State), s = o.noteWindow (5124 + port) (o.portItems port) →
      (∀ f det k, smGet s.egress id = some (f, det, k) →
        (f ≠ port → exec (.fabricEgressRoute id port) o = .next s) ∧
        (f = port → s.portUp f = true → exec (.fabricEgressRoute id port) o = .next { s with
          egress := smDel s.egress id
          fabOut := s.fabOut ++ [(f, { k with det := k.det || det, hops := k.hops + 1 })] }) ∧
        (f = port → s.portUp f = false → exec (.fabricEgressRoute id port) o = .next ({ s with egress := smDel s.egress id }.emit k))) ∧
      (smGet s.egress id = none → smGet s.fab id = none → exec (.fabricEgressRoute id port) o = .next s) ∧
      ∀ r, smGet s.egress id = none → smGet s.fab id = some r →
        (r.sent.isSome = true ∨ r.primary = true ∨ s.streamBusy r = true → exec (.fabricEgressRoute id port) o = .next s) ∧
        (r.sent = none → r.primary = false → s.streamBusy r = false → ∀ u, u = { s with fab := smSet s.fab id { r with sent := some s.time } } →
          (r.pkt.dmod ≠ Config.fabmod →
            (∀ det, s.routePkt r.pkt = some (port, det) → exec (.fabricEgressRoute id port) o = .next
              { u with fabOut := u.fabOut ++ [(port, { r.pkt with det := r.pkt.det || det, hops := r.pkt.hops + 1 })] }) ∧
            (∀ f det, s.routePkt r.pkt = some (f, det) → f ≠ port → exec (.fabricEgressRoute id port) o = .next s) ∧
            (s.routePkt r.pkt = none → ∀ f, f = (productivePorts r.pkt.dmod.toNat).headD 0 → exec (.fabricEgressRoute id port) o =
              .next { u with portDrop := smSet s.portDrop f (satCount (smGetD s.portDrop f 0)) })) ∧
          (r.pkt.dmod = Config.fabmod → (∀ p, smGet s.parts r.pkt.dtag.toNat = some p → p.inc ≠ r.pkt.dinc) →
            exec (.fabricEgressRoute id port) o = .next u) ∧
          (∀ p, r.pkt.dmod = Config.fabmod → smGet s.parts r.pkt.dtag.toNat = some p → p.inc = r.pkt.dinc →
            (∀ t, u.accept r.pkt = some t → exec (.fabricEgressRoute id port) o = .next t) ∧
            (u.accept r.pkt = none → exec (.fabricEgressRoute id port) o = .next s)))) ∧
    (∀ (port : Nat) (k : FabPkt) (s t : State), t = s.retryInbound →
      (t.fpRdy.contains port = false → exec (.fabricIngress port k) s = .next t) ∧
      (t.fpRdy.contains port = true →
        (k.cls = 7 → exec (.fabricIngress port k) s = .next
          { t with portDrop := smSet t.portDrop port (satCount (smGetD t.portDrop port 0)) }) ∧
        (k.cls ≠ 7 → k.dmod ≠ Config.fabmod → exec (.fabricIngress port k) s = .next (t.emit k)) ∧
        (k.dmod = Config.fabmod → k.cls = 6 → exec (.fabricIngress port k) s = .next (t.service k)) ∧
        (k.dmod = Config.fabmod → k.cls ≠ 6 → k.cls ≠ 7 →
          (t.admits port k = false → exec (.fabricIngress port k) s = .next
            (({ t with portTag := smSet t.portTag port (satCount (smGetD t.portTag port 0)) }).logSvc cTagDrop port
              k.ssite.toNat k.dtag.toNat)) ∧
          (t.admits port k = true →
            (k.cls = 5 → exec (.fabricIngress port k) s = .next (t.control k)) ∧
            (k.cls = 3 ∨ k.cls = 4 → exec (.fabricIngress port k) s = .next (t.replied k)) ∧
            (k.cls = 0 ∨ k.cls = 1 ∨ k.cls = 2 → exec (.fabricIngress port k) s = .next ((t.accept k).getD t)))))) ∧
    (∀ (k : FabPkt) (s : State), k.va.toNat < 2 ^ 56 → inHost (canon k.va.toNat) = false →
      ∀ asid a, asid = asidOf k.dtag.toNat k.dspace.toNat → a = (canon k.va.toNat).toNat / 32 * 32 → k.cls = 0 →
        (∀ t d, s.globalParts none asid (lineParts 4 a (32 * k.ngr.toNat)) = .done (t, d) →
          s.accept k = some (t.answer k { ended := false, cause := 0, data := d.map Prod.fst, pz := d.map Prod.snd })) ∧
        (∀ e, s.globalParts none asid (lineParts 4 a (32 * k.ngr.toNat)) = .fault e → e ≠ cPageNotPresent →
          s.accept k = some (s.answer k (ackEnd e))) ∧
        (s.globalParts none asid (lineParts 4 a (32 * k.ngr.toNat)) = .wait → s.accept k = none)) ∧
    (∀ (id : Nat) (s : State),
      (smGet s.fab id = none → exec (.fabricTimeout id) s = .next s) ∧
      ∀ r, smGet s.fab id = some r →
        (r.sent = none ∨ r.primary = true → exec (.fabricTimeout id) s = .next s) ∧
        (∀ t p, r.sent = some t → smGet s.parts r.part = some p → s.time < t + p.fabtmo.toNat → exec (.fabricTimeout id) s = .next s) ∧
        ∀ t p pid e u, r.sent = some t → smGet s.parts r.part = some p → r.primary = false → t + p.fabtmo.toNat ≤ s.time →
          pid = s.fabTarget r → e = s.peer r.part pid →
          u = (if peerSt e = 1 then s else s.setPeer r.part pid (peerSetSt e 2)) →
          exec (.fabricTimeout id) s = .next (({ u with txnHold := u.txnHold ++
            [(4096 * r.p + r.pkt.txn.toNat, u.time + 2 * p.fabtmo.toNat)] }).fabLost id r cFabricTimeout)) ∧
    (∀ (port m : Nat) (ok : Bool) (s : State),
      (port < Config.fabricPorts → ok = true → partner Config.fabmod.toNat port = some m → s.failed.contains (.fp, port) = false →
        exec (.linkTrain port ok m) s = .next { s with
          nextId := s.nextId + 1, fpRdy := nsAdd port s.fpRdy, replays := smDel s.replays port,
          linkKey := smSet s.linkKey port s.nextId }) ∧
      (Config.fabricPorts ≤ port ∨ ok = false ∨ partner Config.fabmod.toNat port ≠ some m ∨ s.failed.contains (.fp, port) = true →
        exec (.linkTrain port ok m) s = .next s)) ∧
    (∀ (port : Nat) (s : State),
      (s.fpRdy.contains port = false → ∀ ok, exec (.linkFlitRetry port ok) s = .next s) ∧
      (s.fpRdy.contains port = true →
        exec (.linkFlitRetry port true) s = .next { s with replays := smDel s.replays port } ∧
        (smGetD s.replays port 0 + 1 < 8 → exec (.linkFlitRetry port false) s = .next
          { s with replays := smSet s.replays port (smGetD s.replays port 0 + 1) }) ∧
        (8 ≤ smGetD s.replays port 0 + 1 → exec (.linkFlitRetry port false) s = .next
          { s with fpRdy := nsDel port s.fpRdy, failed := s.failed ++ [(.fp, port)], replays := smDel s.replays port }))) ∧
    (∀ (part m rtag inc : Nat) (s : State),
      (smGet s.parts part = none → exec (.resetNotice part m rtag inc) s = .next s) ∧
      ∀ p, smGet s.parts part = some p →
        (p.inc.toNat ≠ inc ∨ (∀ x ∈ p.peers, peerV x.2 = true → peerMod x.2 = m → peerTag x.2 = rtag → peerSt x.2 = 1) →
          exec (.resetNotice part m rtag inc) s = .next s) ∧
        (p.inc.toNat = inc → (∃ x ∈ p.peers, peerV x.2 = true ∧ peerMod x.2 = m ∧ peerTag x.2 = rtag ∧ peerSt x.2 ≠ 1) →
          exec (.resetNotice part m rtag inc) s = .next (forL s.parts s fun x s => s.resetPeer x.1 m rtag))) ∧
    (∀ (m rtag inc : Nat) (s : State), exec (.peerIncarnation m rtag inc) s = .next { s with parts := smMap (fun _ p =>
      { p with peers := smMap (fun _ e =>
        if peerV e && decide (peerMod e = m) && decide (peerTag e = rtag) then peerSetInc e inc else e) p.peers }) s.parts }) ∧
    (∀ (part pid : Nat) (e e2 : W64) (s : State),
      ((smGet s.parts part).isNone = true ∨ 4096 ≤ pid → exec (.peerJoin part pid e e2) s = .next s) ∧
      ((smGet s.parts part).isNone = false → pid < 4096 →
        (peerV e = true → peerSv e = true → exec (.peerJoin part pid e e2) s = .next
          ((s.joinPeer part pid e).joinPeer part (peerSec e) e2)) ∧
        (peerV e = false ∨ peerSv e = false → exec (.peerJoin part pid e e2) s = .next (s.joinPeer part pid e)))) ∧
    (∀ (part pid : Nat) (e x : W64) (s u : State) (p : Part), smGet s.parts part = some p → x = peerSetInc e 0 →
      u = s.modPart part (fun p => { p with peers := smSet p.peers pid x }) →
      (peerV x = false → s.joinPeer part pid e = u) ∧
      (peerV x = true → peerMod x ≠ Config.fabmod.toNat → s.joinPeer part pid e = u.emit (noticePkt part x 6 1 p.inc.toNat))) ∧
    (∀ (p n : Nat) (s : State),
      ((s.cluster p).wcb[n]? = none → exec (.wcbAgeDrain p n) s = .next s) ∧
      ∀ w x, (s.cluster p).wcb[n]? = some w → smGet s.parts w.part = some x →
        (s.time < w.first + 64 * 2 ^ fld x.wcbage 3 0 → exec (.wcbAgeDrain p n) s = .next s) ∧
        (w.first + 64 * 2 ^ fld x.wcbage 3 0 ≤ s.time → exec (.wcbAgeDrain p n) s = .next
          ((s.modCluster p fun c => { c with wcb := c.wcb.erase w }).sendFab w.part p w.peer (.drain w.cohorts)
            { cls := 1, opc := if w.mask.all id then 0 else 1, va := w.va, ngr := 4, mask := w.mask,
              data := w.data.map fun b => (b, false) } 0 false))) ∧
    (∀ (p : Nat) (s : State), ∃ t, exec (.allowanceRefill p) s = .next t ∧ (t = { s with crews := t.crews }) ∧
      ∀ cid c, smGet s.crews cid = some c → ∃ c', smGet t.crews cid = some c' ∧ (c.p ≠ p → c' = c) ∧
        (c.p = p → ∀ x, smGet s.parts c.part = some x → ∀ (co : Nat) (h : Cohort), c.cohorts[co]? = some h → ∃ h' : Cohort, c'.cohorts[co]? = some h' ∧
          h'.threads = h.threads ∧ ∀ (i : Fin 4) (w : Alw), h.w[i] = some w →
            (s.time / 64 ≤ w.since / 64 → h'.w[i] = some w) ∧
            (w.since / 64 < s.time / 64 → h'.w[i] = some { w with since := s.time, val := min (fld x.alwcap 31 0) (w.val + (s.time / 64 - w.since / 64 : Nat) *
                ((s.handleRate p c.part w).part (fld x.alwrate 15 0 * 64) : Nat)) }))) ∧
    (∀ (p k : Nat) (s : State),
      exec (.congestionMark (.router p)) s = .next (s.modCluster p fun c => { c with g := c.g.mark s.time }) ∧
      exec (.congestionMark (.fabric p k)) s = .next (s.modCluster p fun c =>
        { c with fmod := smSet c.fmod k ((smGetD c.fmod k Rate.full).mark s.time) }) ∧
      (s.ownerOf p = none → exec (.congestionMark (.host p k)) s = .next s) ∧
      (∀ tag, s.ownerOf p = some tag → exec (.congestionMark (.host p k)) s = .next (s.modPart tag fun x =>
        { x with fport := smSet x.fport k ((smGetD x.fport k Rate.full).mark s.time) })) ∧
      ∃ t, exec (.congestionMark (.slice p k)) s = .next t ∧ (t.cluster p).g = (s.cluster p).g.mark s.time ∧
        t.crews = s.crews) ∧
    (∀ (p : Nat) (s : State), ∃ t, exec (.rateRecovery p) s = .next t ∧ t.crews = s.crews ∧ t.mem = s.mem ∧
      (t.cluster p) = { s.cluster p with g := (s.cluster p).g.recover s.time, fmod := smMap (fun _ r => r.recover s.time) (s.cluster p).fmod } ∧
      (s.ownerOf p = none → t.parts = s.parts)) ∧
    (∀ (r : Rate) (time : Nat),
      (time < r.since + 1000 → r.recover time = r) ∧
      (r.since + 1000 ≤ time → r.num + 16 * 2 ^ r.exp < 1024 * 2 ^ r.exp →
        r.recover time = { num := r.num + 16 * 2 ^ r.exp, exp := r.exp, since := r.since + 1000 }) ∧
      (r.since + 1000 ≤ time → 1024 * 2 ^ r.exp ≤ r.num + 16 * 2 ^ r.exp → r.num < 1024 * 2 ^ r.exp →
        r.recover time = { num := 1024, exp := 0, since := r.since + 1000 }) ∧
      (2 ^ (r.exp + 1) ≤ r.num → r.mark time = { num := r.num, exp := r.exp + 1, since := time }) ∧
      (r.num < 2 ^ (r.exp + 1) → r.mark time = { num := 1, exp := 0, since := time })) ∧
    (∀ (n : Nat) (s u : State), u = { s with windows := smSet s.windows n (s.time / 1000 * 1000) } →
      (s.time < smGetD s.windows n 0 + 1000 → exec (.congestionWindow n) s = .next s) ∧
      (smGetD s.windows n 0 + 1000 ≤ s.time →
        (n < 4096 → exec (.congestionWindow n) s = .next (forN 3 (forL (u.routerMarks n) u fun m s => s.mark m) fun plane s =>
          s.modRouter plane n fun r => { r with deflected := [] })) ∧
        (4096 ≤ n → ∀ v : State, v = u.notePoint n →
          exec (.congestionWindow n) s = .next (forL (v.windowMarks n) { v with seen := smDel v.seen n } fun m s => s.mark m))))

/-- Queued crews start when they fit; an idle cluster asks the one victim, which ships from its tail at most half; the crews
shipped start on the thief, and after a reply that ships nothing the next request waits 1 us. A crew done or stopping is
drained and leaves. Deadlines, channel and wait events, grid barrier events, dispatch, reservations and retirement of a
crew, a grid or a partition that does not exist change nothing. -/
def Obligations.GridEvents : Prop :=
  (∀ (p : Nat) (s : State),
      ((s.cluster p).queue = [] → exec (.crewQueueStart p) s = .next s) ∧
      ∀ b, s.queueHead (s.cluster p).queue = some b →
        (smGet s.grids b.grid = none → exec (.crewQueueStart p) s = .next (s.modCluster p fun c => { c with queue := c.queue.erase b })) ∧
        ∀ g t, smGet s.grids b.grid = some g → smGet s.parts g.part = some t →
          (t.qst ≠ 0 ∨ t.reshape.isSome = true ∨ s.usable t p = false → exec (.crewQueueStart p) s = .next s) ∧
          (t.qst = 0 → t.reshape = none → s.usable t p = true →
            (s.fits g.part p (s.ccbNeed b g) ((s.cluster p).queue.erase b) true [] = none → exec (.crewQueueStart p) s = .next s) ∧
            (∀ base, s.fits g.part p (s.ccbNeed b g) ((s.cluster p).queue.erase b) true [] = some base →
              exec (.crewQueueStart p) s = .next
                ((s.modCluster p fun c => { c with queue := c.queue.erase b }).startCcb b g p (t.idOf p) base)))) ∧
    (∀ (p tag : Nat) (s : State) (t : Machine.Part), (s.parts.find? fun x => x.2.res.clusters.contains p) = some (tag, t) →
      (t.qst ≠ 0 ∨ t.reshape.isSome = true ∨ s.usable t p = false ∨ (s.cluster p).steal.isSome = true ∨ (s.cluster p).queue ≠ [] ∨
        s.time < (s.cluster p).stealAfter ∨ t.victims s (t.idOf p) p = [] → exec (.stealRequest p) s = .next s) ∧
      ∀ v, t.victims s (t.idOf p) p = [v] → t.qst = 0 → t.reshape = none → s.usable t p = true → (s.cluster p).steal = none →
        (s.cluster p).queue = [] → (s.cluster p).stealAfter ≤ s.time → s.residents p = [] →
        exec (.stealRequest p) s = .next (s.modCluster p fun c => { c with steal := some {
          victim := v.2, slots := s.freeSlots p false, window := (largestWindow (s.windowsOf p false) (s.windowLimit p)).2,
            wbase := (largestWindow (s.windowsOf p false) (s.windowLimit p)).1, mapped := 1048576 - s.mappedUse p [] false,
            answered := false, shipped := [] } })) ∧
    (∀ (p : Nat) (s : State),
      ((∀ x ∈ s.clusters, ∀ t, x.2.steal = some t → t.victim ≠ p ∨ t.answered = true) → exec (.stealVictim p) s = .next s) ∧
      ∀ thief c t l, (s.clusters.find? fun x => x.2.asks p) = some (thief, c) → c.steal = some t →
        l = s.shipFrom (s.cluster p).queue.reverse (((s.cluster p).queue.length + 1) / 2) t.slots t.window t.mapped →
        exec (.stealVictim p) s = .next ((s.modCluster p fun c => { c with queue := c.queue.filter fun b => !l.contains b }).modCluster
          thief fun c => { c with steal := some { t with answered := true, shipped := l } })) ∧
    (∀ (p : Nat) (s : State),
      ((s.cluster p).steal = none → exec (.stealReply p) s = .next s) ∧
      ∀ t, (s.cluster p).steal = some t →
        (t.answered = false → exec (.stealReply p) s = .next s) ∧
        (t.answered = true → t.shipped = [] → exec (.stealReply p) s = .next
          (s.modCluster p fun c => { c with steal := none, stealAfter := s.time + 1000 })) ∧
        (∀ b g q base, t.answered = true → t.shipped = [b] → smGet s.grids b.grid = some g → smGet s.parts g.part = some q →
          ∀ u, u = (s.modCluster p fun c => { c with steal := none, stealAfter := s.time }) →
          u.fits g.part p (u.ccbNeed b g) [] false [] = some base →
          exec (.stealReply p) s = .next (u.startCcb b g p (q.idOf p) base))) ∧
    (∀ (cid : Nat) (s : State) (c : Crew), smGet s.crews cid = some c →
      (c.st = .saved ∨ c.st = .suspended →
        (c.stopping.isSome = true → exec (.crewRetire cid) s = .next (s.removeCrew cid)) ∧
        (c.stopping.isSome = false → exec (.crewRetire cid) s = .next s)) ∧
      (c.st = .running ∨ c.st = .debug →
        (c.leaving = some .retire ∨ (c.leaving = some .save ∧ c.stopping.isSome = true ∧ s.idlePart c.part = true) →
          (s.leaveReady cid = true → exec (.crewRetire cid) s = .next (s.removeCrew cid)) ∧
          (s.leaveReady cid = false → exec (.crewRetire cid) s = .next (s.stepLeave cid))) ∧
        ((c.leaving = some .save ∧ (c.stopping = none ∨ s.idlePart c.part = false)) ∨ (c.leaving = none ∧ s.idleCrew cid c = false) → exec (.crewRetire cid) s = .next s) ∧
        (c.leaving = none → s.idleCrew cid c = true → c.stopping.isSome = true →
          exec (.crewRetire cid) s = .next (s.beginLeave cid .retire)) ∧
        (c.leaving = none → s.idleCrew cid c = true → (∀ h ∈ c.cohorts, h.live = 0) → c.children = [] → s.jobsOver cid c = true →
          s.finPending cid = false → exec (.crewRetire cid) s = .next (s.beginLeave cid .retire)) ∧
        (c.leaving = none → s.idleCrew cid c = true → c.stopping = none → (∃ h ∈ c.cohorts, h.live ≠ 0) →
          exec (.crewRetire cid) s = .next s))) ∧
    (∀ (n k : Nat) (s : State),
      ((smGet s.crews n = none → exec (.deadline n k) s = .next s ∧ exec (.channelGrow n k) s = .next s ∧
        exec (.cyclicWaitDetect n) s = .next s ∧ exec (.cwaitResume n) s = .next s ∧ exec (.crewRetire n) s = .next s) ∧
      (smGet s.grids n = none → exec (.gbarRelease n k) s = .next s ∧ exec (.gbarStall n) s = .next s ∧
        exec (.zoneCheckpoint n) s = .next s) ∧
      (smGet s.parts n = none → exec (.dispatch n) s = .next s ∧ exec (.reservationTimeout n) s = .next s)))

/-- A CREATE is put off while an unlock crew runs, fails with the first of its failures, or makes the partition, zeroes its
clusters and clears the latches, and goes live at once or after the hold of its incarnation. A command to a partition that
does not run fails with BUSY; while a slice ends it waits. GROW, SHRINK and COMPACT check the shape they would make and then
quiesce; QUIESCE and SETQOS do what they name. When every crew is saved the partition is QUIESCED, or takes its new shape,
waits for its cells, or fails, and resumes; once its crews are restored it runs. -/
def Obligations.PartitionCommands : Prop :=
  (∀ (c : CreateCmd) (s : State),
      (s.unlocking = true → exec (.create c) s = .next s) ∧
      (s.unlocking = false → ∀ t, t = createPart c s.time →
        (∀ e, s.createErr c t = some e → exec (.create c) s = .next (s.mgmtDone c.tag (some e))) ∧
        (s.createErr c t = none → ∀ u, u = forL c.res.clusters s.clearLatches (fun p s => s.joinCluster p) →
          ∀ v, v = ({ u with parts := smSet u.parts c.tag t, leftCells := smDel u.leftCells c.tag }.setOcc c.tag c.res.slices).setAreas c.tag →
          (∀ n, v.incHold c.tag = some n → exec (.create c) s = .next (v.modPart c.tag fun t =>
            { t with qst := 4, holdUntil := some (n, true) })) ∧
          (v.incHold c.tag = none → exec (.create c) s = .next ((v.goLive c.tag).mgmtDone c.tag none))))) ∧
    (∀ (c : CreateCmd) (s : State) (t : Machine.Part),
      (s.lifecycle = 4 ∨ c.tag = 0 ∨ Config.maxTag < c.tag ∨ (smGet s.parts c.tag).isSome = true ∨
        (∃ x ∈ smGetD s.leftCells c.tag [], (s.cell x).1 = 2) ∨ (∃ x ∈ s.areas, x.2.2.1 = 2 ∧ x.2.2.2 = c.tag) →
        s.createErr c t = some .busy) ∧
      (s.createErr c t = none → s.lifecycle ≠ 4 ∧ c.tag ≠ 0 ∧ c.tag ≤ Config.maxTag ∧ smGet s.parts c.tag = none ∧
        (∀ x ∈ smGetD s.leftCells c.tag [], (s.cell x).1 ≠ 2) ∧ (∀ x ∈ s.areas, x.2.2.1 = 2 → x.2.2.2 ≠ c.tag) ∧
        s.allReady c.res = true ∧ s.ownedElsewhere c.tag c.res = false ∧ t.legal = true ∧ c.map.length = c.w * c.h ∧
        (c.pmode.getLsbD 63 = true → fld c.pmode 62 59 ≠ 0 ∧ 100 ≤ fld c.pmode 49 30 ∧ fld c.pmode 49 30 ≤ 1000000) ∧
        s.areasFit c.tag t = true)) ∧
    (∀ (part : Nat) (c : ShapeCmd) (s : State),
      (s.unlocking = true → exec (.grow part c) s = .next s) ∧
      (s.unlocking = false →
      (smGet s.parts part = none → exec (.grow part c) s = .next (s.mgmtDone part (some .busy))) ∧
      ∀ t, smGet s.parts part = some t →
        (t.qst ≠ 0 → exec (.grow part c) s = .next (s.mgmtDone part (some .busy))) ∧
        (t.qst = 0 → t.reshape.isSome = true → exec (.grow part c) s = .next s) ∧
        (t.qst = 0 → t.reshape = none →
          (∀ e, s.reshapeErr part t (t.reshaped (.grow c)) = some e → exec (.grow part c) s = .next (s.mgmtDone part (some e))) ∧
          (s.reshapeErr part t (t.reshaped (.grow c)) = none → exec (.grow part c) s = .next ((s.modPart part fun t =>
            { t with qst := 1, reshape := some (.grow c), tdisp := t.tdisp.toError }).leaveAll part))))) ∧
    (∀ (part : Nat) (c : ShapeCmd) (s : State),
      (smGet s.parts part = none → exec (.shrink part c) s = .next (s.mgmtDone part (some .busy))) ∧
      ∀ t, smGet s.parts part = some t →
        (t.qst ≠ 0 → exec (.shrink part c) s = .next (s.mgmtDone part (some .busy))) ∧
        (t.qst = 0 → t.reshape.isSome = true → exec (.shrink part c) s = .next s) ∧
        (t.qst = 0 → t.reshape = none →
          (∀ e, s.reshapeErr part t (t.reshaped (.shrink c)) = some e → exec (.shrink part c) s = .next (s.mgmtDone part (some e))) ∧
          (s.reshapeErr part t (t.reshaped (.shrink c)) = none → exec (.shrink part c) s = .next ((s.modPart part fun t =>
            { t with qst := 1, reshape := some (.shrink c), tdisp := t.tdisp.toError }).leaveAll part)))) ∧
    (∀ (part : Nat) (l : List (Nat × Nat)) (s : State),
      (smGet s.parts part = none → exec (.compact part l) s = .next (s.mgmtDone part (some .busy))) ∧
      ∀ t, smGet s.parts part = some t →
        (t.qst ≠ 0 → exec (.compact part l) s = .next (s.mgmtDone part (some .busy))) ∧
        (t.qst = 0 → t.reshape.isSome = true → exec (.compact part l) s = .next s) ∧
        (t.qst = 0 → t.reshape = none → (∀ m ∈ l, isSliceSite m.2 = false ∧ m.2 < 4096 ∧ ∃ y ∈ t.positions, y.1 = m.1) →
          (∀ e, s.reshapeErr part t (t.reshaped (.compact l)) = some e → exec (.compact part l) s = .next (s.mgmtDone part (some e))) ∧
          (s.reshapeErr part t (t.reshaped (.compact l)) = none → exec (.compact part l) s = .next ((s.modPart part fun t =>
            { t with qst := 1, reshape := some (.compact l), tdisp := t.tdisp.toError }).leaveAll part)))) ∧
    (∀ (part : Nat) (l : List (Nat × Nat)) (s : State) (t : Machine.Part), smGet s.parts part = some t → t.qst = 0 → t.reshape = none →
      (∃ m ∈ l, isSliceSite m.2 = true ∨ 4096 ≤ m.2 ∨ ∀ y ∈ t.positions, y.1 ≠ m.1) →
      exec (.compact part l) s = .next (s.mgmtDone part (some .shape))) ∧
    (∀ (part : Nat) (s : State),
      (smGet s.parts part = none → exec (.quiesce part) s = .next (s.mgmtDone part (some .busy))) ∧
      ∀ t, smGet s.parts part = some t →
        (t.qst ≠ 0 → exec (.quiesce part) s = .next (s.mgmtDone part (some .busy))) ∧
        (t.qst = 0 → t.reshape.isSome = true → exec (.quiesce part) s = .next s) ∧
        (t.qst = 0 → t.reshape = none → exec (.quiesce part) s = .next
          ((s.modPart part fun t => { t with qst := 1, reshape := some .quiesce }).leaveAll part))) ∧
    (∀ (part : Nat) (qp : BitVec 2) (v : W32) (s : State),
      (smGet s.parts part = none → exec (.setqos part qp v) s = .next (s.mgmtDone part (some .busy))) ∧
      ∀ t, smGet s.parts part = some t →
        (t.qst ≠ 0 → exec (.setqos part qp v) s = .next (s.mgmtDone part (some .busy))) ∧
        (t.qst = 0 → t.reshape.isSome = true → exec (.setqos part qp v) s = .next s) ∧
        (t.qst = 0 → t.reshape = none → exec (.setqos part qp v) s = .next ((s.modPart part fun t =>
          { t with pmode := BitVec.ofNat 64 (t.pmode.toNat - fld t.pmode 51 50 * 2 ^ 50 + qp.toNat * 2 ^ 50),
                   cmthr := cmthrWrite t.cmthr (v.setWidth 64) }).mgmtDone part none))) ∧
    (∀ (part : Nat) (s : State) (t : Machine.Part), smGet s.parts part = some t →
      (t.qst ≠ 1 → exec (.quiesceDone part) s = .next s) ∧
      (t.qst = 1 → s.allDrained part = false → exec (.quiesceDone part) s = .next (s.leaveAll part)) ∧
      (t.qst = 1 → s.allDrained part = true → ∀ u, u = s.saveAll part →
        (t.reshape = some .quiesce → exec (.quiesceDone part) s = .next
          ((u.replaceFailing part).modPart part fun t => { t with qst := 2 })) ∧
        (t.reshape = some .refit → exec (.quiesceDone part) s = .next
          ((u.replaceFailing part).modPart part fun t => { t with qst := 3 })) ∧
        (∀ r e, t.reshape = some r → r ≠ .quiesce → r ≠ .refit → s.stillReady t (t.reshaped r) = .error e →
          exec (.quiesceDone part) s = .next
            (((u.mgmtDone part (some e)).replaceFailing part).modPart part fun t => { t with qst := 3 })) ∧
        (∀ r t', t.reshape = some r → r ≠ .quiesce → r ≠ .refit → s.stillReady t (t.reshaped r) = .ok t' →
          (s.channelErr part t t' = .inl .wait → exec (.quiesceDone part) s = .next s) ∧
          (∀ e, s.channelErr part t t' = .inl (.done e) → exec (.quiesceDone part) s = .next
            (((u.mgmtDone part (some e)).replaceFailing part).modPart part fun t => { t with qst := 3 })) ∧
          (s.channelErr part t t' = .inr () → exec (.quiesceDone part) s = .next
            (((((u.applyShape part t t').replaceUnready part (t.added t').clusters).mgmtDone part none).replaceFailing part).modPart part
              fun t => { t with qst := 3 }))))) ∧
    (∀ (part : Nat) (s : State),
      (smGet s.parts part = none → exec (.resume part) s = .next (s.mgmtDone part (some .busy))) ∧
      ∀ t, smGet s.parts part = some t →
        (t.qst = 2 → t.reshape = some .quiesce → exec (.resume part) s = .next
          ((s.modPart part fun t => { t with qst := 3 }).mgmtDone part none)) ∧
        (t.qst ≠ 2 ∨ t.reshape ≠ some .quiesce → exec (.resume part) s = .next (s.mgmtDone part (some .busy)))) ∧
    (∀ (part : Nat) (s : State) (t : Machine.Part), smGet s.parts part = some t →
      (t.qst ≠ 3 → exec (.resumeDone part) s = .next s) ∧
      (t.qst = 3 → ∀ u, u = (((s.restoreAll part t.ctxNow).modPart part fun t => { t with qst := 0, reshape := none }).sendPending part) →
        (t.reshape = some .quiesce → exec (.resumeDone part) s = .next (u.mgmtDone part none)) ∧
        (t.reshape ≠ some .quiesce → exec (.resumeDone part) s = .next u))) ∧
    (∀ (part : Nat) (s : State), smGet s.parts part = none →
      exec (.incarnationHoldExpiry part) s = .next s ∧ exec (.quiesceDone part) s = .next s ∧ exec (.resumeDone part) s = .next s ∧
        exec (.sliceEnd part) s = .next s)

/-- Outside RUN no access through BAR0 has an effect. In RUN, EN disables a queue or makes a disabled one ACTIVE, a
host-produced one with RP = WP; RST takes a host-produced queue out of OVERRUN or STAMP_WAIT; WP belongs to host-produced
queues and RP to the others; BASE and LOG2N change only while EN is 0; unlisted offsets read zero and drop writes. Unmasking
a vector sends its pending message unless the function is paused. TDISP messages move the interface as they should. A
measurement is answered with its signature, an index that is not listed is not. A host write lands in the pages it names or
is dropped. A completion gives a thread its bytes, poison on an error; it fills an engine's buffer or fails its job. -/
def Obligations.HostLinkEvents : Prop :=
  (∀ (part n k : Nat) (en wr : Bool) (v : W32) (x : W64) (s : State), (∀ t, smGet s.parts part = some t → t.tdisp ≠ .run) →
      exec (.queueEnable part n en) s = .next s ∧ exec (.queueReset part n) s = .next s ∧ exec (.queueWpWrite part n v) s = .next s ∧
        exec (.queueRpWrite part n v) s = .next s ∧ exec (.registerWrite part n k x) s = .next s ∧
        exec (.bar0UnlistedAccess part n wr x) s = .next s) ∧
    (∀ (part n : Nat) (s : State) (t : Machine.Part), smGet s.parts part = some t → t.tdisp = .run →
      (68 ≤ n → ∀ en, exec (.queueEnable part n en) s = .next s) ∧
      (n < 68 →
        exec (.queueEnable part n false) s = .next ((s.modQueue part n fun q => { q with en := false }).queueTo part n 3) ∧
        ∀ u, u = (s.modQueue part n fun q => { q with en := true }) →
          ((u.queue part n).st ≠ 3 → exec (.queueEnable part n true) s = .next u) ∧
          ((u.queue part n).st = 3 → n ≤ 64 → exec (.queueEnable part n true) s = .next
            ((u.modQueue part n fun q => { q with rp := q.wp }).queueTo part n 0)) ∧
          ((u.queue part n).st = 3 → 64 < n → exec (.queueEnable part n true) s = .next ((u.modQueue part n fun q => q).queueTo part n 0)))) ∧
    (∀ (part n : Nat) (s : State) (t : Machine.Part), smGet s.parts part = some t → t.tdisp = .run →
      (n ≤ 64 → (s.queue part n).st = 1 ∨ (s.queue part n).st = 2 → exec (.queueReset part n) s = .next
        ((s.modQueue part n fun q => { q with rp := q.wp }).queueTo part n 0)) ∧
      (64 < n ∨ (s.queue part n).st = 0 ∨ (s.queue part n).st = 3 → exec (.queueReset part n) s = .next s)) ∧
    (∀ (part n : Nat) (v : W32) (s : State) (t : Machine.Part), smGet s.parts part = some t → t.tdisp = .run →
      (64 < n → exec (.queueWpWrite part n v) s = .next s) ∧
      (n ≤ 64 → exec (.queueWpWrite part n v) s = .next ((s.modQueue part n fun q =>
        { q with wp := v, stampSince := if q.st = 2 then some s.time else q.stampSince }).overrun part n)) ∧
      (65 ≤ n → n < 68 → exec (.queueRpWrite part n v) s = .next (s.modQueue part n fun q => { q with rp := v })) ∧
      (n < 65 ∨ 68 ≤ n → exec (.queueRpWrite part n v) s = .next s)) ∧
    (∀ (part n k : Nat) (v : W64) (s : State) (t : Machine.Part), smGet s.parts part = some t → t.tdisp = .run →
      (68 ≤ n → exec (.registerWrite part n k v) s = .next s) ∧
      (n < 68 → exec (.registerWrite part n k v) s = .next (s.modQueue part n fun q => q.write k v))) ∧
    (∀ (q : Queue) (v : W64),
      (q.en = false → v.toNat % 64 = 0 → q.write 0 v = { q with base := v }) ∧
      (q.en = true ∨ v.toNat % 64 ≠ 0 → q.write 0 v = q) ∧
      (q.en = true → fld v 27 16 < 8 → q.write 2 v = { q with vec := BitVec.ofNat 12 (fld v 27 16) }) ∧
      (q.en = false → fld v 27 16 < 8 → 4 ≤ fld v 4 0 → fld v 4 0 ≤ 20 → q.write 2 v =
        { q with vec := BitVec.ofNat 12 (fld v 27 16), log2n := BitVec.ofNat 5 (fld v 4 0) }) ∧
      ∀ k, k ≠ 0 → k ≠ 2 → q.write k v = q) ∧
    (∀ (part off : Nat) (v : W64) (s : State) (t : Machine.Part), smGet s.parts part = some t → t.tdisp = .run →
      exec (.bar0UnlistedAccess part off true v) s = .next s ∧
      exec (.bar0UnlistedAccess part off false v) s = .next { s with bar0Out := s.bar0Out ++ [(part, off, s.bar0Word part off)] } ∧
      (0x880 ≤ off → s.bar0Word part off = 0)) ∧
    (∀ (part n : Nat) (s : State),
      (smGet s.parts part = none ∨ 8 ≤ n → exec (.msixUnmask part n) s = .next s) ∧
      ∀ t, smGet s.parts part = some t → n < 8 →
        ∀ u, u = (s.modPart part fun t => { t with msixMask := t.msixMask &&& ~~~BitVec.ofNat 8 (2 ^ n) }) →
        (t.msixPend.getLsbD n = false ∨ t.qst ≠ 0 → exec (.msixUnmask part n) s = .next u) ∧
        (t.msixPend.getLsbD n = true → t.qst = 0 → exec (.msixUnmask part n) s = .next
          ({ u with msixOut := s.msixOut ++ [(part, n)] }.modPart part fun t => { t with msixPend := t.msixPend &&& ~~~BitVec.ofNat 8 (2 ^ n) }))) ∧
    (∀ (part : Nat) (m : Tdisp) (s : State), exec (.tdispMessage part m) s = .next (s.modPart part fun t => { t with tdisp := t.tdisp.move m })) ∧
    (TdispSt.unlocked.move .lock = .locked ∧ TdispSt.locked.move .start = .run ∧ (∀ x : TdispSt, x.move .stop = .unlocked) ∧
      (∀ m, m ≠ .stop → TdispSt.error.move m = .error) ∧ (∀ m, m ≠ .stop → TdispSt.run.move m = .run) ∧
      TdispSt.unlocked.move .start = .unlocked ∧ TdispSt.locked.move .lock = .locked) ∧
    (∀ (part n : Nat) (l : List Byte) (s : State),
      (smGet s.parts part = none → exec (.spdmGetMeasurements part n l) s = .next s) ∧
      ∀ t, smGet s.parts part = some t →
        (s.measurement part t n = none → exec (.spdmGetMeasurements part n l) s = .next s) ∧
        (∀ d, s.measurement part t n = some d → exec (.spdmGetMeasurements part n l) s = .next
          { s with doeOut := s.doeOut ++ [(part, d ++ Config.identitySign (l ++ d))] })) ∧
    (∀ (tag : Nat) (s : State) (t : Machine.Part),
      s.measurement tag t 3 = some (mrBytes s.mr[0]) ∧ s.measurement tag t 4 = some (mrBytes s.mr[1]) ∧
        s.measurement tag t 5 = some (mrBytes s.mr[2]) ∧ s.measurement tag t 6 = some (mrBytes s.mr[3]) ∧
        s.measurement tag t 7 = some (bytesOfNat 4 s.lifecycle.toNat) ∧
        (∀ d, s.measurement tag t 0x80 = some d → s.measurement tag t 8 = some (sha384 d)) ∧
        s.measurement tag t 0 = none ∧ ∀ n, 11 < n → n ≠ 0x80 → s.measurement tag t n = none) ∧
    (∀ (part space : Nat) (a : W64) (l : List Byte) (s : State),
      (64 ≤ space ∨ isCanon a = false ∨ inHost a = true ∨ (smGet s.parts part).isNone = true →
        exec (.hostWrite part space a l) s = .next s) ∧
      (space < 64 → isCanon a = true → inHost a = false → (smGet s.parts part).isNone = false →
        exec (.hostWrite part space a l) s = .next (State.hostDrain (s.hostIn ++ [(part, space, a, l)]) s))) ∧
    (∀ (part space : Nat) (a : W64) (l : List Byte) (s : State) (r : List (Nat × Nat × W64 × List Byte)),
      State.hostDrain [] s = { s with hostIn := [] } ∧
      ((smGet s.parts part).isNone = true → State.hostDrain ((part, space, a, l) :: r) s = State.hostDrain r s) ∧
      ((smGet s.parts part).isNone = false →
        (∀ t, s.hostPut (asidOf part space) l (lineParts (l.length / 128 + 2) a.toNat l.length) = .done t →
          State.hostDrain ((part, space, a, l) :: r) s = State.hostDrain r t) ∧
        (∀ e, s.hostPut (asidOf part space) l (lineParts (l.length / 128 + 2) a.toNat l.length) = .fault e →
          State.hostDrain ((part, space, a, l) :: r) s = State.hostDrain r s) ∧
        (s.hostPut (asidOf part space) l (lineParts (l.length / 128 + 2) a.toNat l.length) = .wait →
          State.hostDrain ((part, space, a, l) :: r) s = { s with hostIn := (part, space, a, l) :: r }))) ∧
    (∀ (id : Nat) (ok : Bool) (l : List Byte) (s : State),
      (smGet s.hostReqs id = none → exec (.hostCompletion id ok l) s = .next s) ∧
      ∀ h w u, smGet s.hostReqs id = some h → w = s.noteWindow (5120 + h.port) (s.hostItems h.port) →
        u = { w with hostReqs := smDel w.hostReqs id } →
        (∀ n r, h.req = some n → smGet s.reqs n = some r → ∀ v, v = u.chargeFar r.cid r.co 1 h.port h.n →
          exec (.hostCompletion id ok l) s = .next
            (State.endReq { v with reqs := smSet v.reqs n { r with data := hostBytes h.n l, pz := !ok } } n)) ∧
        (∀ p slot q j, h.req = none → h.job = some (p, slot, q) → smGet (s.cluster p).cp slot = some j →
          (j.st ≠ .running → exec (.hostCompletion id ok l) s = .next u) ∧
          (j.st = .running → ok = false → exec (.hostCompletion id ok l) s = .next (u.cpEnd p slot j .failed cPagePerm)) ∧
          (j.st = .running → ok = true → exec (.hostCompletion id ok l) s = .next (u.modCluster p fun c =>
            { c with cp := smMod c.cp slot fun j => { j with read := smSet j.read q ((hostBytes h.n l).map fun x => (x, false)) } }))))

/-- Twelve code words that the worked examples of the spec write out in full decode to the instruction, type, predicate,
destination, operands with their last-use and keep marks, modifiers and literal that the examples give; a mapping record
with CMD 3 decodes to MAP with its fields, and one with CMD 8 or a reserved bit set to none. -/
def Obligations.DecodeSamples : Prop :=
  decodeSlot 0x20CC0140021244C0#64 0#64 = .ok (.ffma { ty := .f32, pn := false, pk := 0, dstT := false, rsv44 := false, dst := .v 4, a := ⟨.t 0, false, false⟩, b := ⟨.v 2, true, false⟩, c := ⟨.v 3, false, true⟩, mod := 0, lit := 0 }) ∧
    decodeSlot 0x1006817004FE3FC0#64 0x3E8#64 = .ok (.add { ty := .i32, pn := true, pk := 2, dstT := false, rsv44 := false, dst := .v 7, a := ⟨.t 1, false, false⟩, b := ⟨.lit, false, false⟩, c := ⟨.none, false, false⟩, mod := 0, lit := 0x3E8 }) ∧
    decodeSlot 0x818041A160FF3FC0#64 0#64 = .ok (.cpRt { ty := .b32, pn := false, pk := 1, dstT := false, rsv44 := false, dst := .v 10, a := ⟨.s 8, false, false⟩, b := ⟨.none, false, false⟩, c := ⟨.none, false, false⟩, mod := 0, lit := 0 }) ∧
    decodeSlot 0xC200020300FF3FC0#64 0#64 = .ok (.fuseRd { ty := .b32, pn := false, pk := 0, dstT := false, rsv44 := false, dst := .v 16, a := ⟨.int 0, false, false⟩, b := ⟨.none, false, false⟩, c := ⟨.none, false, false⟩, mod := 0, lit := 0 }) ∧
    decodeSlot 0xC2C0026150C03FC0#64 0#64 = .ok (.sigVfy { ty := .b32, pn := false, pk := 0, dstT := false, rsv44 := false, dst := .v 22, a := ⟨.s 4, false, false⟩, b := ⟨.int 0, false, false⟩, c := ⟨.none, false, false⟩, mod := 0, lit := 0 }) ∧
    decodeSlot 0xC240027340FF3FC0#64 0#64 = .ok (.keyWipe { ty := .b32, pn := false, pk := 0, dstT := false, rsv44 := false, dst := .v 23, a := ⟨.int 16, false, false⟩, b := ⟨.none, false, false⟩, c := ⟨.none, false, false⟩, mod := 0, lit := 0 }) ∧
    decodeSlot 0xC2800FF3F8C03FC0#64 0xA0#64 = .ok (.measExt { ty := .b32, pn := false, pk := 0, dstT := false, rsv44 := false, dst := .none, a := ⟨.lit, false, false⟩, b := ⟨.int 0, false, false⟩, c := ⟨.none, false, false⟩, mod := 0, lit := 0xA0 }) ∧
    decodeSlot 0xC3000293FCFF3FC0#64 0#64 = .ok (.dbgOpen { ty := .b32, pn := false, pk := 0, dstT := false, rsv44 := false, dst := .v 25, a := ⟨.none, false, false⟩, b := ⟨.none, false, false⟩, c := ⟨.none, false, false⟩, mod := 0, lit := 0 }) ∧
    decodeSlot 0x01800FF3FCFF3FC0#64 0#64 = .ok (.rjnEnrol { ty := .b32, pn := false, pk := 0, dstT := false, rsv44 := false, dst := .none, a := ⟨.none, false, false⟩, b := ⟨.none, false, false⟩, c := ⟨.none, false, false⟩, mod := 0, lit := 0 }) ∧
    decodeSlot 0x00428FF320FF3FC0#64 0#64 = .ok (.br { ty := .b32, pn := true, pk := 2, dstT := false, rsv44 := false, dst := .none, a := ⟨.int 8, false, false⟩, b := ⟨.none, false, false⟩, c := ⟨.none, false, false⟩, mod := 0, lit := 0 }) ∧
    decodeSlot 0x1004014050C13FC0#64 0#64 = .ok (.add { ty := .i32, pn := false, pk := 0, dstT := false, rsv44 := false, dst := .v 4, a := ⟨.v 4, false, false⟩, b := ⟨.int 1, false, false⟩, c := ⟨.none, false, false⟩, mod := 0, lit := 0 }) ∧
    decodeSlot 0x01C00FF3FCFF3FC0#64 0#64 = .ok (.rjnWait { ty := .b32, pn := false, pk := 0, dstT := false, rsv44 := false, dst := .none, a := ⟨.none, false, false⟩, b := ⟨.none, false, false⟩, c := ⟨.none, false, false⟩, mod := 0, lit := 0 }) ∧
    decodeRecord 5 [0x030B900000000007#64, 0x10000#64, 0x1234#64, 2#64, 9#64, 0#64, 0#64, 0#64] = .ok (.map 5 { space := 2, size := 3, fl := 9, cause := 0, stamp := 7, va := 0x10000, frame := 0x1234, count := 2, cookie := 9 }) ∧
    decodeRecord 5 [0x080B900000000007#64, 0x10000#64, 0x1234#64, 2#64, 9#64, 0#64, 0#64, 0#64] = .error .malformedRecord ∧
    decodeRecord 5 [0x030B900000000007#64, 0x10000#64, 0x200000#64, 2#64, 9#64, 0#64, 0#64, 0#64] = .error .malformedRecord

/-- For every well-formed slot instruction, with every operand at every value that the encoding admits, decoding the bytes
of its encoding gives the instruction back with its length. For every mapping command, decoding its eight words gives the
command back. Every slot word that decodes is the first word of the encoding of what it decodes to, so no bit of it is
dropped. A word whose OP is not listed decodes to no instruction. -/
def Obligations.EncodeDecodeAgree : Prop :=
  (∀ (i : Instr) (o : Op) (f : Fields), WellFormed i = true → i.opFields? = some (o, f) → decode (bytesOfWords (encode i)) = .ok (i, 8 * (encode i).length)) ∧
    (∀ (i : Instr) (cmd part : Nat) (m : MapCmd), i.mapFields? = some (cmd, part, m) → (encode i).length = 8 ∧ decodeRecord part (encode i) = .ok i) ∧
    (∀ (w lit : W64) (i : Instr), decodeSlot w lit = .ok i → (encode i).head? = some w) ∧
    (∀ (w lit : W64), Op.ofCode (w.extractLsb' 54 10).toNat = none → decodeSlot w lit = .error (.unlistedOpcode (w.extractLsb' 54 10).toNat))

/-- While the rail is up: when the turn is an issue slice's and the word at its bundle's slot decodes to an instruction (no
breakpoint mark and no debug match stopping it), the step is exec of that instruction, in the state whose turn is taken,
whose time has passed, and in which that slice executes; a word that decodes to none makes the bundle's threads take
ILLEGAL_OPCODE; past the clause's last slot the clause ends; with no clause nothing else happens. When the turn is a mapping
record's, the step runs the command that the record decodes to. When it is another agent's, the step is exec of that agent's
action. While the rail is down only a cold start runs. -/
def Obligations.StepRunsDecoded : Prop :=
  (∀ (s a b : State) (k : Nat) (r e : Run), s.rail = true → s.turn = .issue k → (s.issue k).run = some r → e = r.enter →
      a = { s with turns := s.turns.tail, time := s.time + Config.elapsed s.tick, tick := s.tick + 1, cur := none } →
      b = (if r.late.isEmpty then a else a.modRun k Run.enter) →
      e.lanes ≠ 0 → e.slot ≤ hdrCnt e.hdr →
      (e.checked = 0 ∨ ((hdrBpm e.hdr).getLsbD e.slot = false ∧ s.debugMatch e = false) →
        (∀ i, decodeSlot (e.words.getD e.slot 0) (e.words.getD (e.slot + 1) 0) = .ok i → step s = exec i { b with cur := some k }) ∧
        (∀ x, decodeSlot (e.words.getD e.slot 0) (e.words.getD (e.slot + 1) 0) = .error x →
          step s = .next (b.trapLanes k e.cid e.co e.lanes fun _ => preciseTrap e cIllegalOpcode 0))) ∧
      (e.checked ≠ 0 → (hdrBpm e.hdr).getLsbD e.slot = true →
        step s = .next (b.trapLanes k e.cid e.co e.checked fun _ => preciseTrap e cBreakpoint 0)) ∧
      (e.checked ≠ 0 → (hdrBpm e.hdr).getLsbD e.slot = false → s.debugMatch e = true → step s = .next (b.debugStop k e))) ∧
    (∀ (s b : State) (k : Nat), s.rail = true → s.turn = .issue k →
      ((s.issue k).run = none → step s = .next s.advance) ∧
      (∀ r e, (s.issue k).run = some r → e = r.enter → b = (if r.late.isEmpty then s.advance else s.advance.modRun k Run.enter) →
        e.lanes = 0 ∨ hdrCnt e.hdr < e.slot → step s = .next (b.endClause k))) ∧
    (∀ r : Run, r.late = [] → r.enter = r) ∧
    (∀ (s t : State) (part : Nat), s.rail = true → s.turn = .mapRecord part →
      ((∃ x ∈ s.acqWait, x.1 = part) → step s = .next s.advance) ∧
      (∀ p m l, (∀ x ∈ s.acqWait, x.1 ≠ part) → smGet s.parts part = some p → p.migr = m :: l →
        step s = exec (.migrate part m) s.advance) ∧
      ((∀ x ∈ s.acqWait, x.1 ≠ part) → (∀ p, smGet s.parts part = some p → p.migr = []) →
        (s.advance.fetchRecord part 64 mapStamp = (t, none) → step s = .next t) ∧
        ∀ ws i, s.advance.fetchRecord part 64 mapStamp = (t, some ws) → decodeRecord part ws = .ok i → step s = exec i t) ∧
      (∀ ws e, (∀ x ∈ s.acqWait, x.1 ≠ part) → (∀ p, smGet s.parts part = some p → p.migr = []) →
        s.advance.fetchRecord part 64 mapStamp = (t, some ws) → decodeRecord part ws = .error e →
        step s = .next (t.postEvent part 2 (fld (ws.headD 0) 55 50) (BitVec.ofNat 32 (mapStamp ws)) (ws.getD 4 0) 2))) ∧
    (∀ (s : State) (i : Instr), s.rail = true → s.turn = .ev i → step s = exec i s.advance) ∧
    (∀ s : State, s.rail = false → (s.turn = .ev .coldStart → step s = exec .coldStart s.advance) ∧ (s.turn ≠ .ev .coldStart → step s = .fault .railDown))

/-- For every slot instruction: where the word breaks a rule of the encoding, names an operand that is not legal, or is
privileged in tenant code, all threads of the bundle take the trap of the first of these, in this order: ILLEGAL_OPCODE,
PRIV, ILLEGAL_OPERAND. Where the predicate that guards the slot is poisoned in every thread of the bundle, all of them take
POISON_USE. In a halted cluster nothing executes. The check itself: TY and MOD that the instruction does not have come
first, then the mode, then the operands. -/
def Obligations.SlotFaults : Prop :=
  (∀ (i : Instr) (o : Op) (f : Fields) (s : State) (b : At), i.opFields? = some (o, f) → s.cur = some b.k →
      (s.cluster (b.k / 6)).halted = false → (s.issue b.k).run = some b.r → smGet s.crews b.r.cid = some b.c →
      s.cohort? b.r.cid b.r.co = some b.h →
      (∀ e, encFault b.env (decide (b.c.part = Config.svcTag)) o f = some e →
        exec i s = .next (s.trapLanes b.k b.r.cid b.r.co b.r.lanes fun _ => preciseTrap b.r e 0)) ∧
      (encFault b.env (decide (b.c.part = Config.svcTag)) o f = none →
        (∀ l : Fin 32, b.r.lanes.getLsbD l = true → (b.h.threads[l]).predPoison f.pk.val = true) →
        exec i s = .next (s.trapLanes b.k b.r.cid b.r.co b.r.lanes fun _ => preciseTrap b.r cPoisonUse 0))) ∧
    (∀ (i : Instr) (o : Op) (f : Fields) (s : State) (k : Nat), i.opFields? = some (o, f) → s.cur = some k →
      (s.cluster (k / 6)).halted = true → exec i s = .next s) ∧
    (∀ (e : Env) (fw : Bool) (o : Op) (f : Fields),
      (opcodeOk o f = false → encFault e fw o f = some cIllegalOpcode) ∧
      (opcodeOk o f = true → privileged o = true → fw = false → encFault e fw o f = some cPriv) ∧
      (opcodeOk o f = true → privileged o = false ∨ fw = true →
        (operandOk e o f = false ∨ namedOk e o f = false → encFault e fw o f = some cIllegalOperand) ∧
        (o = .sysrd → fw = false → f.c.sel ≠ .none → encFault e fw o f = some cIllegalOperand) ∧
        (operandOk e o f = true → namedOk e o f = true → o ≠ .sysrd ∨ fw = true ∨ f.c.sel = .none → encFault e fw o f = none)))

/-- Right after reset the rail is good and nothing else has come up: no resource has passed its self-test, no partition is
known and none runs, no crew, grid, request or packet exists, no cell has an owner, no line is cached, nothing has been
reported, the measurement registers are zero, the unlock latches are clear and the debug port is closed; every byte of
memory reads zero (the value that the model names for bytes that nothing has written, log 5), with memory in canonical form;
time is 0. -/
def Obligations.ResetState : Prop :=
  State.reset.rail = true ∧
    State.reset.time = 0 ∧
    (∀ r : Res, State.reset.rdy r = []) ∧
    State.reset.failed = [] ∧ State.reset.fenced = [] ∧ State.reset.zoneBad = [] ∧
    State.reset.parts = [] ∧ State.reset.liveTags = [] ∧
    State.reset.crews = [] ∧ State.reset.grids = [] ∧ State.reset.reqs = [] ∧ State.reset.pends = [] ∧ State.reset.fab = [] ∧
    State.reset.own = [] ∧ State.reset.areas = [] ∧ State.reset.slices = [] ∧ State.reset.clusters = [] ∧
    State.reset.msixOut = [] ∧ State.reset.mgmtOut = [] ∧ State.reset.svcLog = [] ∧
    (∀ n : Fin 4, State.reset.mr[n] = 0) ∧
    State.reset.latchV = false ∧ State.reset.latchW = false ∧ State.reset.latchM = false ∧ State.reset.debugPort = false ∧
    (∀ a n : Nat, memRead State.reset.mem a n = List.replicate n 0) ∧
    State.reset.memPz = [] ∧
    SafeState State.reset

/-- For every state whose memory is in canonical form (addresses strictly rising, no byte listed that equals what an
unlisted address reads as), if a step answers a next state then memory of that state is in canonical form. -/
def Obligations.MemoryInvariant : Prop :=
  ∀ s t : State, SafeState s → StepsTo s t → SafeState t
end

