-- ==== Sys2Proof/Laws/Maps.lean ====
section
/-!
SUPPORT. Sys2Proof/Laws/Maps.lean: reads after writes of the sparse maps, the number sets and the list helpers.
-/

namespace Sys2Proof.Machine

variable {α β : Type}

@[simp] theorem smGet_nil (k : Nat) : smGet ([] : SMap α) k = none := rfl

theorem smGet_cons (j k : Nat) (x : α) (r : SMap α) : smGet ((j, x) :: r) k = if j = k then some x else smGet r k := rfl

@[simp] theorem smGet_smSet_self (m : SMap α) (k : Nat) (x : α) : smGet (smSet m k x) k = some x := by
  induction m with
  | nil => simp [smSet, smGet]
  | cons y r ih =>
    obtain ⟨j, y⟩ := y
    simp only [smSet]
    split
    · simp [smGet]
    · split
      · simp [smGet]
      · rename_i h
        simp [smGet, Ne.symm h, ih]

theorem smGet_smSet_ne (m : SMap α) {k j : Nat} (x : α) (h : j ≠ k) : smGet (smSet m k x) j = smGet m j := by
  induction m with
  | nil => simp [smSet, smGet, Ne.symm h]
  | cons y r ih =>
    obtain ⟨i, y⟩ := y
    simp only [smSet]
    split
    · simp [smGet, Ne.symm h]
    · split
      · rename_i _ e
        subst e
        simp [smGet, Ne.symm h]
      · simp [smGet, ih]

theorem smGet_smSet (m : SMap α) (k j : Nat) (x : α) : smGet (smSet m k x) j = if j = k then some x else smGet m j := by
  split
  · rename_i h; subst h; simp
  · rename_i h; exact smGet_smSet_ne m x h

theorem smSet_cons (j k : Nat) (z x : α) (r : SMap α) :
    smSet ((j, z) :: r) k x =
      if k < j then (k, x) :: (j, z) :: r else if k = j then (k, x) :: r else (j, z) :: smSet r k x := rfl

theorem smSet_smSet (m : SMap α) (k : Nat) (x y : α) : smSet (smSet m k x) k y = smSet m k y := by
  induction m with
  | nil => simp [smSet]
  | cons a r ih =>
    obtain ⟨j, z⟩ := a
    rw [smSet_cons, smSet_cons]
    by_cases h : k < j
    · rw [if_pos h, if_pos h, smSet_cons, if_neg (Nat.lt_irrefl k), if_pos rfl]
    · by_cases h2 : k = j
      · rw [if_neg h, if_neg h, if_pos h2, if_pos h2, smSet_cons, if_neg (Nat.lt_irrefl k), if_pos rfl]
      · rw [if_neg h, if_neg h, if_neg h2, if_neg h2, smSet_cons, if_neg h, if_neg h2, ih]

theorem smGet_smMod (m : SMap α) (k j : Nat) (f : α → α) :
    smGet (smMod m k f) j = if j = k then (smGet m j).map f else smGet m j := by
  induction m with
  | nil => simp [smMod]
  | cons y r ih =>
    obtain ⟨i, y⟩ := y
    simp only [smMod]
    split
    · rename_i e
      subst e
      by_cases h : j = i
      · subst h; simp [smGet]
      · simp [smGet, h, Ne.symm h]
    · rename_i e
      by_cases h : i = j
      · subst h; simp [smGet, e]
      · simp [smGet, h, ih]

@[simp] theorem smGet_smMod_self (m : SMap α) (k : Nat) (f : α → α) : smGet (smMod m k f) k = (smGet m k).map f := by
  simp [smGet_smMod]

theorem smGet_smMod_ne (m : SMap α) {k j : Nat} (f : α → α) (h : j ≠ k) : smGet (smMod m k f) j = smGet m j := by
  simp [smGet_smMod, h]

theorem smGet_smDel_ne (m : SMap α) {k j : Nat} (h : j ≠ k) : smGet (smDel m k) j = smGet m j := by
  induction m with
  | nil => rfl
  | cons y r ih =>
    obtain ⟨i, y⟩ := y
    simp only [smDel]
    split
    · rename_i e; subst e; simp [smGet, Ne.symm h]
    · simp [smGet, ih]

@[simp] theorem smGetD_smSet_self (m : SMap α) (k : Nat) (x d : α) : smGetD (smSet m k x) k d = x := by simp [smGetD]

theorem smGetD_smSet_ne (m : SMap α) {k j : Nat} (x d : α) (h : j ≠ k) : smGetD (smSet m k x) j d = smGetD m j d := by
  simp [smGetD, smGet_smSet_ne m x h]

theorem smGet_smMap (f : Nat → α → β) (m : SMap α) (k : Nat) : smGet (m.map fun x => (x.1, f x.1 x.2)) k = (smGet m k).map (f k) := by
  induction m with
  | nil => rfl
  | cons y r ih =>
    obtain ⟨i, y⟩ := y
    simp only [List.map_cons, smGet]
    split
    · rename_i e; subst e; rfl
    · exact ih

@[simp] theorem smGet_smMap' (f : Nat → α → α) (m : SMap α) (k : Nat) : smGet (smMap f m) k = (smGet m k).map (f k) :=
  smGet_smMap f m k

theorem lmod_getElem? (l : List α) (i j : Nat) (f : α → α) : (lmod l i f)[j]? = if i = j then l[j]?.map f else l[j]? := by
  induction l generalizing i j with
  | nil => simp [lmod]
  | cons x r ih =>
    cases i with
    | zero => cases j <;> simp [lmod]
    | succ i =>
      cases j with
      | zero => simp [lmod]
      | succ j => simp [lmod, ih]

@[simp] theorem lmod_length (l : List α) (i : Nat) (f : α → α) : (lmod l i f).length = l.length := by
  induction l generalizing i with
  | nil => rfl
  | cons x r ih => cases i <;> simp [lmod, ih]

@[simp] theorem forL_nil (x : α) (f : β → α → α) : forL [] x f = x := rfl

@[simp] theorem forL_cons (b : β) (l : List β) (x : α) (f : β → α → α) : forL (b :: l) x f = forL l (f b x) f := rfl

/-- What every round of a loop keeps, the loop keeps. -/
theorem forL_keeps {γ : Type} (g : α → γ) (l : List β) (x : α) (f : β → α → α) (h : ∀ b y, g (f b y) = g y) :
    g (forL l x f) = g x := by
  induction l generalizing x with
  | nil => rfl
  | cons b r ih => rw [forL_cons, ih, h]

/-- What every round of a loop keeps true stays true. -/
theorem forL_inv (P : α → Prop) (l : List β) (x : α) (f : β → α → α) (h : ∀ b ∈ l, ∀ y, P y → P (f b y)) (hx : P x) :
    P (forL l x f) := by
  induction l generalizing x with
  | nil => exact hx
  | cons b r ih =>
    exact ih (f b x) (fun c hc => h c (List.mem_cons_of_mem _ hc)) (h b List.mem_cons_self x hx)

theorem forN_eq (n : Nat) (x : α) (f : Nat → α → α) : forN n x f = forL (List.range n) x f := rfl

theorem mem_nsAdd (n k : Nat) (l : List Nat) : k ∈ nsAdd n l ↔ k = n ∨ k ∈ l := by
  induction l with
  | nil => simp [nsAdd]
  | cons x r ih =>
    simp only [nsAdd]
    split
    · simp
    · split
      · rename_i e; subst e; simp
      · simp only [List.mem_cons, ih]; tauto

theorem mem_nsDel (n k : Nat) (l : List Nat) : k ∈ nsDel n l ↔ k ≠ n ∧ k ∈ l := by
  simp [nsDel, and_comm]

/-! Lanes. -/

@[simp] theorem mem_lanesOf (m : BitVec 32) (i : Fin 32) : i ∈ lanesOf m ↔ m.getLsbD i = true := by
  simp [lanesOf]

@[simp] theorem lanesOf_zero : lanesOf 0 = [] := by decide

end Sys2Proof.Machine
end

