-- ==== Sys2Proof/Laws/State.lean ====
section
/-!
SUPPORT. Sys2Proof/Laws/State.lean: what each update of the state leaves alone: one lemma per field and update, so that no
proof unfolds a record update.
-/

namespace Sys2Proof.Machine

/-! `State.modCluster`. -/

@[simp] theorem State.modCluster_rail (s : State) (p : Nat) (f : Cluster → Cluster) : (s.modCluster p f).rail = s.rail := rfl
@[simp] theorem State.modCluster_time (s : State) (p : Nat) (f : Cluster → Cluster) : (s.modCluster p f).time = s.time := rfl
@[simp] theorem State.modCluster_tick (s : State) (p : Nat) (f : Cluster → Cluster) : (s.modCluster p f).tick = s.tick := rfl
@[simp] theorem State.modCluster_turns (s : State) (p : Nat) (f : Cluster → Cluster) : (s.modCluster p f).turns = s.turns := rfl
@[simp] theorem State.modCluster_cur (s : State) (p : Nat) (f : Cluster → Cluster) : (s.modCluster p f).cur = s.cur := rfl
@[simp] theorem State.modCluster_nextId (s : State) (p : Nat) (f : Cluster → Cluster) : (s.modCluster p f).nextId = s.nextId := rfl
@[simp] theorem State.modCluster_svcRdy (s : State) (p : Nat) (f : Cluster → Cluster) : (s.modCluster p f).svcRdy = s.svcRdy := rfl
@[simp] theorem State.modCluster_rtrRdy (s : State) (p : Nat) (f : Cluster → Cluster) : (s.modCluster p f).rtrRdy = s.rtrRdy := rfl
@[simp] theorem State.modCluster_slRdy (s : State) (p : Nat) (f : Cluster → Cluster) : (s.modCluster p f).slRdy = s.slRdy := rfl
@[simp] theorem State.modCluster_chRdy (s : State) (p : Nat) (f : Cluster → Cluster) : (s.modCluster p f).chRdy = s.chRdy := rfl
@[simp] theorem State.modCluster_clRdy (s : State) (p : Nat) (f : Cluster → Cluster) : (s.modCluster p f).clRdy = s.clRdy := rfl
@[simp] theorem State.modCluster_hpRdy (s : State) (p : Nat) (f : Cluster → Cluster) : (s.modCluster p f).hpRdy = s.hpRdy := rfl
@[simp] theorem State.modCluster_fpRdy (s : State) (p : Nat) (f : Cluster → Cluster) : (s.modCluster p f).fpRdy = s.fpRdy := rfl
@[simp] theorem State.modCluster_ksRdy (s : State) (p : Nat) (f : Cluster → Cluster) : (s.modCluster p f).ksRdy = s.ksRdy := rfl
@[simp] theorem State.modCluster_failed (s : State) (p : Nat) (f : Cluster → Cluster) : (s.modCluster p f).failed = s.failed := rfl
@[simp] theorem State.modCluster_fenced (s : State) (p : Nat) (f : Cluster → Cluster) : (s.modCluster p f).fenced = s.fenced := rfl
@[simp] theorem State.modCluster_fencedRtr (s : State) (p : Nat) (f : Cluster → Cluster) : (s.modCluster p f).fencedRtr = s.fencedRtr := rfl
@[simp] theorem State.modCluster_zoneBad (s : State) (p : Nat) (f : Cluster → Cluster) : (s.modCluster p f).zoneBad = s.zoneBad := rfl
@[simp] theorem State.modCluster_zonecur (s : State) (p : Nat) (f : Cluster → Cluster) : (s.modCluster p f).zonecur = s.zonecur := rfl
@[simp] theorem State.modCluster_pkgpwr (s : State) (p : Nat) (f : Cluster → Cluster) : (s.modCluster p f).pkgpwr = s.pkgpwr := rfl
@[simp] theorem State.modCluster_overAt (s : State) (p : Nat) (f : Cluster → Cluster) : (s.modCluster p f).overAt = s.overAt := rfl
@[simp] theorem State.modCluster_mem (s : State) (p : Nat) (f : Cluster → Cluster) : (s.modCluster p f).mem = s.mem := rfl
@[simp] theorem State.modCluster_memPz (s : State) (p : Nat) (f : Cluster → Cluster) : (s.modCluster p f).memPz = s.memPz := rfl
@[simp] theorem State.modCluster_marks (s : State) (p : Nat) (f : Cluster → Cluster) : (s.modCluster p f).marks = s.marks := rfl
@[simp] theorem State.modCluster_own (s : State) (p : Nat) (f : Cluster → Cluster) : (s.modCluster p f).own = s.own := rfl
@[simp] theorem State.modCluster_areas (s : State) (p : Nat) (f : Cluster → Cluster) : (s.modCluster p f).areas = s.areas := rfl
@[simp] theorem State.modCluster_acqWait (s : State) (p : Nat) (f : Cluster → Cluster) : (s.modCluster p f).acqWait = s.acqWait := rfl
@[simp] theorem State.modCluster_slices (s : State) (p : Nat) (f : Cluster → Cluster) : (s.modCluster p f).slices = s.slices := rfl
@[simp] theorem State.modCluster_routers (s : State) (p : Nat) (f : Cluster → Cluster) : (s.modCluster p f).routers = s.routers := rfl
@[simp] theorem State.modCluster_parts (s : State) (p : Nat) (f : Cluster → Cluster) : (s.modCluster p f).parts = s.parts := rfl
@[simp] theorem State.modCluster_incs (s : State) (p : Nat) (f : Cluster → Cluster) : (s.modCluster p f).incs = s.incs := rfl
@[simp] theorem State.modCluster_liveTags (s : State) (p : Nat) (f : Cluster → Cluster) : (s.modCluster p f).liveTags = s.liveTags := rfl
@[simp] theorem State.modCluster_leftCells (s : State) (p : Nat) (f : Cluster → Cluster) : (s.modCluster p f).leftCells = s.leftCells := rfl
@[simp] theorem State.modCluster_grids (s : State) (p : Nat) (f : Cluster → Cluster) : (s.modCluster p f).grids = s.grids := rfl
@[simp] theorem State.modCluster_crews (s : State) (p : Nat) (f : Cluster → Cluster) : (s.modCluster p f).crews = s.crews := rfl
@[simp] theorem State.modCluster_reqs (s : State) (p : Nat) (f : Cluster → Cluster) : (s.modCluster p f).reqs = s.reqs := rfl
@[simp] theorem State.modCluster_pends (s : State) (p : Nat) (f : Cluster → Cluster) : (s.modCluster p f).pends = s.pends := rfl
@[simp] theorem State.modCluster_toks (s : State) (p : Nat) (f : Cluster → Cluster) : (s.modCluster p f).toks = s.toks := rfl
@[simp] theorem State.modCluster_fab (s : State) (p : Nat) (f : Cluster → Cluster) : (s.modCluster p f).fab = s.fab := rfl
@[simp] theorem State.modCluster_txnHold (s : State) (p : Nat) (f : Cluster → Cluster) : (s.modCluster p f).txnHold = s.txnHold := rfl
@[simp] theorem State.modCluster_streamSeq (s : State) (p : Nat) (f : Cluster → Cluster) : (s.modCluster p f).streamSeq = s.streamSeq := rfl
@[simp] theorem State.modCluster_replays (s : State) (p : Nat) (f : Cluster → Cluster) : (s.modCluster p f).replays = s.replays := rfl
@[simp] theorem State.modCluster_linkKey (s : State) (p : Nat) (f : Cluster → Cluster) : (s.modCluster p f).linkKey = s.linkKey := rfl
@[simp] theorem State.modCluster_portDrop (s : State) (p : Nat) (f : Cluster → Cluster) : (s.modCluster p f).portDrop = s.portDrop := rfl
@[simp] theorem State.modCluster_portTag (s : State) (p : Nat) (f : Cluster → Cluster) : (s.modCluster p f).portTag = s.portTag := rfl
@[simp] theorem State.modCluster_egress (s : State) (p : Nat) (f : Cluster → Cluster) : (s.modCluster p f).egress = s.egress := rfl
@[simp] theorem State.modCluster_seen (s : State) (p : Nat) (f : Cluster → Cluster) : (s.modCluster p f).seen = s.seen := rfl
@[simp] theorem State.modCluster_windows (s : State) (p : Nat) (f : Cluster → Cluster) : (s.modCluster p f).windows = s.windows := rfl
@[simp] theorem State.modCluster_inbound (s : State) (p : Nat) (f : Cluster → Cluster) : (s.modCluster p f).inbound = s.inbound := rfl
@[simp] theorem State.modCluster_hostReqs (s : State) (p : Nat) (f : Cluster → Cluster) : (s.modCluster p f).hostReqs = s.hostReqs := rfl
@[simp] theorem State.modCluster_reserves (s : State) (p : Nat) (f : Cluster → Cluster) : (s.modCluster p f).reserves = s.reserves := rfl
@[simp] theorem State.modCluster_checks (s : State) (p : Nat) (f : Cluster → Cluster) : (s.modCluster p f).checks = s.checks := rfl
@[simp] theorem State.modCluster_hostOut (s : State) (p : Nat) (f : Cluster → Cluster) : (s.modCluster p f).hostOut = s.hostOut := rfl
@[simp] theorem State.modCluster_hostIn (s : State) (p : Nat) (f : Cluster → Cluster) : (s.modCluster p f).hostIn = s.hostIn := rfl
@[simp] theorem State.modCluster_msixOut (s : State) (p : Nat) (f : Cluster → Cluster) : (s.modCluster p f).msixOut = s.msixOut := rfl
@[simp] theorem State.modCluster_fabOut (s : State) (p : Nat) (f : Cluster → Cluster) : (s.modCluster p f).fabOut = s.fabOut := rfl
@[simp] theorem State.modCluster_doeOut (s : State) (p : Nat) (f : Cluster → Cluster) : (s.modCluster p f).doeOut = s.doeOut := rfl
@[simp] theorem State.modCluster_bar0Out (s : State) (p : Nat) (f : Cluster → Cluster) : (s.modCluster p f).bar0Out = s.bar0Out := rfl
@[simp] theorem State.modCluster_svcLog (s : State) (p : Nat) (f : Cluster → Cluster) : (s.modCluster p f).svcLog = s.svcLog := rfl
@[simp] theorem State.modCluster_mgmtOut (s : State) (p : Nat) (f : Cluster → Cluster) : (s.modCluster p f).mgmtOut = s.mgmtOut := rfl
@[simp] theorem State.modCluster_mr (s : State) (p : Nat) (f : Cluster → Cluster) : (s.modCluster p f).mr = s.mr := rfl
@[simp] theorem State.modCluster_lifecycle (s : State) (p : Nat) (f : Cluster → Cluster) : (s.modCluster p f).lifecycle = s.lifecycle := rfl
@[simp] theorem State.modCluster_chal (s : State) (p : Nat) (f : Cluster → Cluster) : (s.modCluster p f).chal = s.chal := rfl
@[simp] theorem State.modCluster_latchV (s : State) (p : Nat) (f : Cluster → Cluster) : (s.modCluster p f).latchV = s.latchV := rfl
@[simp] theorem State.modCluster_latchW (s : State) (p : Nat) (f : Cluster → Cluster) : (s.modCluster p f).latchW = s.latchW := rfl
@[simp] theorem State.modCluster_latchM (s : State) (p : Nat) (f : Cluster → Cluster) : (s.modCluster p f).latchM = s.latchM := rfl
@[simp] theorem State.modCluster_latched (s : State) (p : Nat) (f : Cluster → Cluster) : (s.modCluster p f).latched = s.latched := rfl
@[simp] theorem State.modCluster_colds (s : State) (p : Nat) (f : Cluster → Cluster) : (s.modCluster p f).colds = s.colds := rfl
@[simp] theorem State.modCluster_debugPort (s : State) (p : Nat) (f : Cluster → Cluster) : (s.modCluster p f).debugPort = s.debugPort := rfl

/-! `State.modIssue`. -/

@[simp] theorem State.modIssue_rail (s : State) (k : Nat) (f : IssueSt → IssueSt) : (s.modIssue k f).rail = s.rail := rfl
@[simp] theorem State.modIssue_time (s : State) (k : Nat) (f : IssueSt → IssueSt) : (s.modIssue k f).time = s.time := rfl
@[simp] theorem State.modIssue_tick (s : State) (k : Nat) (f : IssueSt → IssueSt) : (s.modIssue k f).tick = s.tick := rfl
@[simp] theorem State.modIssue_turns (s : State) (k : Nat) (f : IssueSt → IssueSt) : (s.modIssue k f).turns = s.turns := rfl
@[simp] theorem State.modIssue_cur (s : State) (k : Nat) (f : IssueSt → IssueSt) : (s.modIssue k f).cur = s.cur := rfl
@[simp] theorem State.modIssue_nextId (s : State) (k : Nat) (f : IssueSt → IssueSt) : (s.modIssue k f).nextId = s.nextId := rfl
@[simp] theorem State.modIssue_svcRdy (s : State) (k : Nat) (f : IssueSt → IssueSt) : (s.modIssue k f).svcRdy = s.svcRdy := rfl
@[simp] theorem State.modIssue_rtrRdy (s : State) (k : Nat) (f : IssueSt → IssueSt) : (s.modIssue k f).rtrRdy = s.rtrRdy := rfl
@[simp] theorem State.modIssue_slRdy (s : State) (k : Nat) (f : IssueSt → IssueSt) : (s.modIssue k f).slRdy = s.slRdy := rfl
@[simp] theorem State.modIssue_chRdy (s : State) (k : Nat) (f : IssueSt → IssueSt) : (s.modIssue k f).chRdy = s.chRdy := rfl
@[simp] theorem State.modIssue_clRdy (s : State) (k : Nat) (f : IssueSt → IssueSt) : (s.modIssue k f).clRdy = s.clRdy := rfl
@[simp] theorem State.modIssue_hpRdy (s : State) (k : Nat) (f : IssueSt → IssueSt) : (s.modIssue k f).hpRdy = s.hpRdy := rfl
@[simp] theorem State.modIssue_fpRdy (s : State) (k : Nat) (f : IssueSt → IssueSt) : (s.modIssue k f).fpRdy = s.fpRdy := rfl
@[simp] theorem State.modIssue_ksRdy (s : State) (k : Nat) (f : IssueSt → IssueSt) : (s.modIssue k f).ksRdy = s.ksRdy := rfl
@[simp] theorem State.modIssue_failed (s : State) (k : Nat) (f : IssueSt → IssueSt) : (s.modIssue k f).failed = s.failed := rfl
@[simp] theorem State.modIssue_fenced (s : State) (k : Nat) (f : IssueSt → IssueSt) : (s.modIssue k f).fenced = s.fenced := rfl
@[simp] theorem State.modIssue_fencedRtr (s : State) (k : Nat) (f : IssueSt → IssueSt) : (s.modIssue k f).fencedRtr = s.fencedRtr := rfl
@[simp] theorem State.modIssue_zoneBad (s : State) (k : Nat) (f : IssueSt → IssueSt) : (s.modIssue k f).zoneBad = s.zoneBad := rfl
@[simp] theorem State.modIssue_zonecur (s : State) (k : Nat) (f : IssueSt → IssueSt) : (s.modIssue k f).zonecur = s.zonecur := rfl
@[simp] theorem State.modIssue_pkgpwr (s : State) (k : Nat) (f : IssueSt → IssueSt) : (s.modIssue k f).pkgpwr = s.pkgpwr := rfl
@[simp] theorem State.modIssue_overAt (s : State) (k : Nat) (f : IssueSt → IssueSt) : (s.modIssue k f).overAt = s.overAt := rfl
@[simp] theorem State.modIssue_mem (s : State) (k : Nat) (f : IssueSt → IssueSt) : (s.modIssue k f).mem = s.mem := rfl
@[simp] theorem State.modIssue_memPz (s : State) (k : Nat) (f : IssueSt → IssueSt) : (s.modIssue k f).memPz = s.memPz := rfl
@[simp] theorem State.modIssue_marks (s : State) (k : Nat) (f : IssueSt → IssueSt) : (s.modIssue k f).marks = s.marks := rfl
@[simp] theorem State.modIssue_own (s : State) (k : Nat) (f : IssueSt → IssueSt) : (s.modIssue k f).own = s.own := rfl
@[simp] theorem State.modIssue_areas (s : State) (k : Nat) (f : IssueSt → IssueSt) : (s.modIssue k f).areas = s.areas := rfl
@[simp] theorem State.modIssue_acqWait (s : State) (k : Nat) (f : IssueSt → IssueSt) : (s.modIssue k f).acqWait = s.acqWait := rfl
@[simp] theorem State.modIssue_slices (s : State) (k : Nat) (f : IssueSt → IssueSt) : (s.modIssue k f).slices = s.slices := rfl
@[simp] theorem State.modIssue_routers (s : State) (k : Nat) (f : IssueSt → IssueSt) : (s.modIssue k f).routers = s.routers := rfl
@[simp] theorem State.modIssue_parts (s : State) (k : Nat) (f : IssueSt → IssueSt) : (s.modIssue k f).parts = s.parts := rfl
@[simp] theorem State.modIssue_incs (s : State) (k : Nat) (f : IssueSt → IssueSt) : (s.modIssue k f).incs = s.incs := rfl
@[simp] theorem State.modIssue_liveTags (s : State) (k : Nat) (f : IssueSt → IssueSt) : (s.modIssue k f).liveTags = s.liveTags := rfl
@[simp] theorem State.modIssue_leftCells (s : State) (k : Nat) (f : IssueSt → IssueSt) : (s.modIssue k f).leftCells = s.leftCells := rfl
@[simp] theorem State.modIssue_grids (s : State) (k : Nat) (f : IssueSt → IssueSt) : (s.modIssue k f).grids = s.grids := rfl
@[simp] theorem State.modIssue_crews (s : State) (k : Nat) (f : IssueSt → IssueSt) : (s.modIssue k f).crews = s.crews := rfl
@[simp] theorem State.modIssue_reqs (s : State) (k : Nat) (f : IssueSt → IssueSt) : (s.modIssue k f).reqs = s.reqs := rfl
@[simp] theorem State.modIssue_pends (s : State) (k : Nat) (f : IssueSt → IssueSt) : (s.modIssue k f).pends = s.pends := rfl
@[simp] theorem State.modIssue_toks (s : State) (k : Nat) (f : IssueSt → IssueSt) : (s.modIssue k f).toks = s.toks := rfl
@[simp] theorem State.modIssue_fab (s : State) (k : Nat) (f : IssueSt → IssueSt) : (s.modIssue k f).fab = s.fab := rfl
@[simp] theorem State.modIssue_txnHold (s : State) (k : Nat) (f : IssueSt → IssueSt) : (s.modIssue k f).txnHold = s.txnHold := rfl
@[simp] theorem State.modIssue_streamSeq (s : State) (k : Nat) (f : IssueSt → IssueSt) : (s.modIssue k f).streamSeq = s.streamSeq := rfl
@[simp] theorem State.modIssue_replays (s : State) (k : Nat) (f : IssueSt → IssueSt) : (s.modIssue k f).replays = s.replays := rfl
@[simp] theorem State.modIssue_linkKey (s : State) (k : Nat) (f : IssueSt → IssueSt) : (s.modIssue k f).linkKey = s.linkKey := rfl
@[simp] theorem State.modIssue_portDrop (s : State) (k : Nat) (f : IssueSt → IssueSt) : (s.modIssue k f).portDrop = s.portDrop := rfl
@[simp] theorem State.modIssue_portTag (s : State) (k : Nat) (f : IssueSt → IssueSt) : (s.modIssue k f).portTag = s.portTag := rfl
@[simp] theorem State.modIssue_egress (s : State) (k : Nat) (f : IssueSt → IssueSt) : (s.modIssue k f).egress = s.egress := rfl
@[simp] theorem State.modIssue_seen (s : State) (k : Nat) (f : IssueSt → IssueSt) : (s.modIssue k f).seen = s.seen := rfl
@[simp] theorem State.modIssue_windows (s : State) (k : Nat) (f : IssueSt → IssueSt) : (s.modIssue k f).windows = s.windows := rfl
@[simp] theorem State.modIssue_inbound (s : State) (k : Nat) (f : IssueSt → IssueSt) : (s.modIssue k f).inbound = s.inbound := rfl
@[simp] theorem State.modIssue_hostReqs (s : State) (k : Nat) (f : IssueSt → IssueSt) : (s.modIssue k f).hostReqs = s.hostReqs := rfl
@[simp] theorem State.modIssue_reserves (s : State) (k : Nat) (f : IssueSt → IssueSt) : (s.modIssue k f).reserves = s.reserves := rfl
@[simp] theorem State.modIssue_checks (s : State) (k : Nat) (f : IssueSt → IssueSt) : (s.modIssue k f).checks = s.checks := rfl
@[simp] theorem State.modIssue_hostOut (s : State) (k : Nat) (f : IssueSt → IssueSt) : (s.modIssue k f).hostOut = s.hostOut := rfl
@[simp] theorem State.modIssue_hostIn (s : State) (k : Nat) (f : IssueSt → IssueSt) : (s.modIssue k f).hostIn = s.hostIn := rfl
@[simp] theorem State.modIssue_msixOut (s : State) (k : Nat) (f : IssueSt → IssueSt) : (s.modIssue k f).msixOut = s.msixOut := rfl
@[simp] theorem State.modIssue_fabOut (s : State) (k : Nat) (f : IssueSt → IssueSt) : (s.modIssue k f).fabOut = s.fabOut := rfl
@[simp] theorem State.modIssue_doeOut (s : State) (k : Nat) (f : IssueSt → IssueSt) : (s.modIssue k f).doeOut = s.doeOut := rfl
@[simp] theorem State.modIssue_bar0Out (s : State) (k : Nat) (f : IssueSt → IssueSt) : (s.modIssue k f).bar0Out = s.bar0Out := rfl
@[simp] theorem State.modIssue_svcLog (s : State) (k : Nat) (f : IssueSt → IssueSt) : (s.modIssue k f).svcLog = s.svcLog := rfl
@[simp] theorem State.modIssue_mgmtOut (s : State) (k : Nat) (f : IssueSt → IssueSt) : (s.modIssue k f).mgmtOut = s.mgmtOut := rfl
@[simp] theorem State.modIssue_mr (s : State) (k : Nat) (f : IssueSt → IssueSt) : (s.modIssue k f).mr = s.mr := rfl
@[simp] theorem State.modIssue_lifecycle (s : State) (k : Nat) (f : IssueSt → IssueSt) : (s.modIssue k f).lifecycle = s.lifecycle := rfl
@[simp] theorem State.modIssue_chal (s : State) (k : Nat) (f : IssueSt → IssueSt) : (s.modIssue k f).chal = s.chal := rfl
@[simp] theorem State.modIssue_latchV (s : State) (k : Nat) (f : IssueSt → IssueSt) : (s.modIssue k f).latchV = s.latchV := rfl
@[simp] theorem State.modIssue_latchW (s : State) (k : Nat) (f : IssueSt → IssueSt) : (s.modIssue k f).latchW = s.latchW := rfl
@[simp] theorem State.modIssue_latchM (s : State) (k : Nat) (f : IssueSt → IssueSt) : (s.modIssue k f).latchM = s.latchM := rfl
@[simp] theorem State.modIssue_latched (s : State) (k : Nat) (f : IssueSt → IssueSt) : (s.modIssue k f).latched = s.latched := rfl
@[simp] theorem State.modIssue_colds (s : State) (k : Nat) (f : IssueSt → IssueSt) : (s.modIssue k f).colds = s.colds := rfl
@[simp] theorem State.modIssue_debugPort (s : State) (k : Nat) (f : IssueSt → IssueSt) : (s.modIssue k f).debugPort = s.debugPort := rfl

/-! `State.modRun`. -/

@[simp] theorem State.modRun_rail (s : State) (k : Nat) (f : Run → Run) : (s.modRun k f).rail = s.rail := rfl
@[simp] theorem State.modRun_time (s : State) (k : Nat) (f : Run → Run) : (s.modRun k f).time = s.time := rfl
@[simp] theorem State.modRun_tick (s : State) (k : Nat) (f : Run → Run) : (s.modRun k f).tick = s.tick := rfl
@[simp] theorem State.modRun_turns (s : State) (k : Nat) (f : Run → Run) : (s.modRun k f).turns = s.turns := rfl
@[simp] theorem State.modRun_cur (s : State) (k : Nat) (f : Run → Run) : (s.modRun k f).cur = s.cur := rfl
@[simp] theorem State.modRun_nextId (s : State) (k : Nat) (f : Run → Run) : (s.modRun k f).nextId = s.nextId := rfl
@[simp] theorem State.modRun_svcRdy (s : State) (k : Nat) (f : Run → Run) : (s.modRun k f).svcRdy = s.svcRdy := rfl
@[simp] theorem State.modRun_rtrRdy (s : State) (k : Nat) (f : Run → Run) : (s.modRun k f).rtrRdy = s.rtrRdy := rfl
@[simp] theorem State.modRun_slRdy (s : State) (k : Nat) (f : Run → Run) : (s.modRun k f).slRdy = s.slRdy := rfl
@[simp] theorem State.modRun_chRdy (s : State) (k : Nat) (f : Run → Run) : (s.modRun k f).chRdy = s.chRdy := rfl
@[simp] theorem State.modRun_clRdy (s : State) (k : Nat) (f : Run → Run) : (s.modRun k f).clRdy = s.clRdy := rfl
@[simp] theorem State.modRun_hpRdy (s : State) (k : Nat) (f : Run → Run) : (s.modRun k f).hpRdy = s.hpRdy := rfl
@[simp] theorem State.modRun_fpRdy (s : State) (k : Nat) (f : Run → Run) : (s.modRun k f).fpRdy = s.fpRdy := rfl
@[simp] theorem State.modRun_ksRdy (s : State) (k : Nat) (f : Run → Run) : (s.modRun k f).ksRdy = s.ksRdy := rfl
@[simp] theorem State.modRun_failed (s : State) (k : Nat) (f : Run → Run) : (s.modRun k f).failed = s.failed := rfl
@[simp] theorem State.modRun_fenced (s : State) (k : Nat) (f : Run → Run) : (s.modRun k f).fenced = s.fenced := rfl
@[simp] theorem State.modRun_fencedRtr (s : State) (k : Nat) (f : Run → Run) : (s.modRun k f).fencedRtr = s.fencedRtr := rfl
@[simp] theorem State.modRun_zoneBad (s : State) (k : Nat) (f : Run → Run) : (s.modRun k f).zoneBad = s.zoneBad := rfl
@[simp] theorem State.modRun_zonecur (s : State) (k : Nat) (f : Run → Run) : (s.modRun k f).zonecur = s.zonecur := rfl
@[simp] theorem State.modRun_pkgpwr (s : State) (k : Nat) (f : Run → Run) : (s.modRun k f).pkgpwr = s.pkgpwr := rfl
@[simp] theorem State.modRun_overAt (s : State) (k : Nat) (f : Run → Run) : (s.modRun k f).overAt = s.overAt := rfl
@[simp] theorem State.modRun_mem (s : State) (k : Nat) (f : Run → Run) : (s.modRun k f).mem = s.mem := rfl
@[simp] theorem State.modRun_memPz (s : State) (k : Nat) (f : Run → Run) : (s.modRun k f).memPz = s.memPz := rfl
@[simp] theorem State.modRun_marks (s : State) (k : Nat) (f : Run → Run) : (s.modRun k f).marks = s.marks := rfl
@[simp] theorem State.modRun_own (s : State) (k : Nat) (f : Run → Run) : (s.modRun k f).own = s.own := rfl
@[simp] theorem State.modRun_areas (s : State) (k : Nat) (f : Run → Run) : (s.modRun k f).areas = s.areas := rfl
@[simp] theorem State.modRun_acqWait (s : State) (k : Nat) (f : Run → Run) : (s.modRun k f).acqWait = s.acqWait := rfl
@[simp] theorem State.modRun_slices (s : State) (k : Nat) (f : Run → Run) : (s.modRun k f).slices = s.slices := rfl
@[simp] theorem State.modRun_routers (s : State) (k : Nat) (f : Run → Run) : (s.modRun k f).routers = s.routers := rfl
@[simp] theorem State.modRun_parts (s : State) (k : Nat) (f : Run → Run) : (s.modRun k f).parts = s.parts := rfl
@[simp] theorem State.modRun_incs (s : State) (k : Nat) (f : Run → Run) : (s.modRun k f).incs = s.incs := rfl
@[simp] theorem State.modRun_liveTags (s : State) (k : Nat) (f : Run → Run) : (s.modRun k f).liveTags = s.liveTags := rfl
@[simp] theorem State.modRun_leftCells (s : State) (k : Nat) (f : Run → Run) : (s.modRun k f).leftCells = s.leftCells := rfl
@[simp] theorem State.modRun_grids (s : State) (k : Nat) (f : Run → Run) : (s.modRun k f).grids = s.grids := rfl
@[simp] theorem State.modRun_crews (s : State) (k : Nat) (f : Run → Run) : (s.modRun k f).crews = s.crews := rfl
@[simp] theorem State.modRun_reqs (s : State) (k : Nat) (f : Run → Run) : (s.modRun k f).reqs = s.reqs := rfl
@[simp] theorem State.modRun_pends (s : State) (k : Nat) (f : Run → Run) : (s.modRun k f).pends = s.pends := rfl
@[simp] theorem State.modRun_toks (s : State) (k : Nat) (f : Run → Run) : (s.modRun k f).toks = s.toks := rfl
@[simp] theorem State.modRun_fab (s : State) (k : Nat) (f : Run → Run) : (s.modRun k f).fab = s.fab := rfl
@[simp] theorem State.modRun_txnHold (s : State) (k : Nat) (f : Run → Run) : (s.modRun k f).txnHold = s.txnHold := rfl
@[simp] theorem State.modRun_streamSeq (s : State) (k : Nat) (f : Run → Run) : (s.modRun k f).streamSeq = s.streamSeq := rfl
@[simp] theorem State.modRun_replays (s : State) (k : Nat) (f : Run → Run) : (s.modRun k f).replays = s.replays := rfl
@[simp] theorem State.modRun_linkKey (s : State) (k : Nat) (f : Run → Run) : (s.modRun k f).linkKey = s.linkKey := rfl
@[simp] theorem State.modRun_portDrop (s : State) (k : Nat) (f : Run → Run) : (s.modRun k f).portDrop = s.portDrop := rfl
@[simp] theorem State.modRun_portTag (s : State) (k : Nat) (f : Run → Run) : (s.modRun k f).portTag = s.portTag := rfl
@[simp] theorem State.modRun_egress (s : State) (k : Nat) (f : Run → Run) : (s.modRun k f).egress = s.egress := rfl
@[simp] theorem State.modRun_seen (s : State) (k : Nat) (f : Run → Run) : (s.modRun k f).seen = s.seen := rfl
@[simp] theorem State.modRun_windows (s : State) (k : Nat) (f : Run → Run) : (s.modRun k f).windows = s.windows := rfl
@[simp] theorem State.modRun_inbound (s : State) (k : Nat) (f : Run → Run) : (s.modRun k f).inbound = s.inbound := rfl
@[simp] theorem State.modRun_hostReqs (s : State) (k : Nat) (f : Run → Run) : (s.modRun k f).hostReqs = s.hostReqs := rfl
@[simp] theorem State.modRun_reserves (s : State) (k : Nat) (f : Run → Run) : (s.modRun k f).reserves = s.reserves := rfl
@[simp] theorem State.modRun_checks (s : State) (k : Nat) (f : Run → Run) : (s.modRun k f).checks = s.checks := rfl
@[simp] theorem State.modRun_hostOut (s : State) (k : Nat) (f : Run → Run) : (s.modRun k f).hostOut = s.hostOut := rfl
@[simp] theorem State.modRun_hostIn (s : State) (k : Nat) (f : Run → Run) : (s.modRun k f).hostIn = s.hostIn := rfl
@[simp] theorem State.modRun_msixOut (s : State) (k : Nat) (f : Run → Run) : (s.modRun k f).msixOut = s.msixOut := rfl
@[simp] theorem State.modRun_fabOut (s : State) (k : Nat) (f : Run → Run) : (s.modRun k f).fabOut = s.fabOut := rfl
@[simp] theorem State.modRun_doeOut (s : State) (k : Nat) (f : Run → Run) : (s.modRun k f).doeOut = s.doeOut := rfl
@[simp] theorem State.modRun_bar0Out (s : State) (k : Nat) (f : Run → Run) : (s.modRun k f).bar0Out = s.bar0Out := rfl
@[simp] theorem State.modRun_svcLog (s : State) (k : Nat) (f : Run → Run) : (s.modRun k f).svcLog = s.svcLog := rfl
@[simp] theorem State.modRun_mgmtOut (s : State) (k : Nat) (f : Run → Run) : (s.modRun k f).mgmtOut = s.mgmtOut := rfl
@[simp] theorem State.modRun_mr (s : State) (k : Nat) (f : Run → Run) : (s.modRun k f).mr = s.mr := rfl
@[simp] theorem State.modRun_lifecycle (s : State) (k : Nat) (f : Run → Run) : (s.modRun k f).lifecycle = s.lifecycle := rfl
@[simp] theorem State.modRun_chal (s : State) (k : Nat) (f : Run → Run) : (s.modRun k f).chal = s.chal := rfl
@[simp] theorem State.modRun_latchV (s : State) (k : Nat) (f : Run → Run) : (s.modRun k f).latchV = s.latchV := rfl
@[simp] theorem State.modRun_latchW (s : State) (k : Nat) (f : Run → Run) : (s.modRun k f).latchW = s.latchW := rfl
@[simp] theorem State.modRun_latchM (s : State) (k : Nat) (f : Run → Run) : (s.modRun k f).latchM = s.latchM := rfl
@[simp] theorem State.modRun_latched (s : State) (k : Nat) (f : Run → Run) : (s.modRun k f).latched = s.latched := rfl
@[simp] theorem State.modRun_colds (s : State) (k : Nat) (f : Run → Run) : (s.modRun k f).colds = s.colds := rfl
@[simp] theorem State.modRun_debugPort (s : State) (k : Nat) (f : Run → Run) : (s.modRun k f).debugPort = s.debugPort := rfl

/-! `State.modCrew`. -/

@[simp] theorem State.modCrew_rail (s : State) (i : Nat) (f : Crew → Crew) : (s.modCrew i f).rail = s.rail := rfl
@[simp] theorem State.modCrew_time (s : State) (i : Nat) (f : Crew → Crew) : (s.modCrew i f).time = s.time := rfl
@[simp] theorem State.modCrew_tick (s : State) (i : Nat) (f : Crew → Crew) : (s.modCrew i f).tick = s.tick := rfl
@[simp] theorem State.modCrew_turns (s : State) (i : Nat) (f : Crew → Crew) : (s.modCrew i f).turns = s.turns := rfl
@[simp] theorem State.modCrew_cur (s : State) (i : Nat) (f : Crew → Crew) : (s.modCrew i f).cur = s.cur := rfl
@[simp] theorem State.modCrew_nextId (s : State) (i : Nat) (f : Crew → Crew) : (s.modCrew i f).nextId = s.nextId := rfl
@[simp] theorem State.modCrew_svcRdy (s : State) (i : Nat) (f : Crew → Crew) : (s.modCrew i f).svcRdy = s.svcRdy := rfl
@[simp] theorem State.modCrew_rtrRdy (s : State) (i : Nat) (f : Crew → Crew) : (s.modCrew i f).rtrRdy = s.rtrRdy := rfl
@[simp] theorem State.modCrew_slRdy (s : State) (i : Nat) (f : Crew → Crew) : (s.modCrew i f).slRdy = s.slRdy := rfl
@[simp] theorem State.modCrew_chRdy (s : State) (i : Nat) (f : Crew → Crew) : (s.modCrew i f).chRdy = s.chRdy := rfl
@[simp] theorem State.modCrew_clRdy (s : State) (i : Nat) (f : Crew → Crew) : (s.modCrew i f).clRdy = s.clRdy := rfl
@[simp] theorem State.modCrew_hpRdy (s : State) (i : Nat) (f : Crew → Crew) : (s.modCrew i f).hpRdy = s.hpRdy := rfl
@[simp] theorem State.modCrew_fpRdy (s : State) (i : Nat) (f : Crew → Crew) : (s.modCrew i f).fpRdy = s.fpRdy := rfl
@[simp] theorem State.modCrew_ksRdy (s : State) (i : Nat) (f : Crew → Crew) : (s.modCrew i f).ksRdy = s.ksRdy := rfl
@[simp] theorem State.modCrew_failed (s : State) (i : Nat) (f : Crew → Crew) : (s.modCrew i f).failed = s.failed := rfl
@[simp] theorem State.modCrew_fenced (s : State) (i : Nat) (f : Crew → Crew) : (s.modCrew i f).fenced = s.fenced := rfl
@[simp] theorem State.modCrew_fencedRtr (s : State) (i : Nat) (f : Crew → Crew) : (s.modCrew i f).fencedRtr = s.fencedRtr := rfl
@[simp] theorem State.modCrew_zoneBad (s : State) (i : Nat) (f : Crew → Crew) : (s.modCrew i f).zoneBad = s.zoneBad := rfl
@[simp] theorem State.modCrew_zonecur (s : State) (i : Nat) (f : Crew → Crew) : (s.modCrew i f).zonecur = s.zonecur := rfl
@[simp] theorem State.modCrew_pkgpwr (s : State) (i : Nat) (f : Crew → Crew) : (s.modCrew i f).pkgpwr = s.pkgpwr := rfl
@[simp] theorem State.modCrew_overAt (s : State) (i : Nat) (f : Crew → Crew) : (s.modCrew i f).overAt = s.overAt := rfl
@[simp] theorem State.modCrew_mem (s : State) (i : Nat) (f : Crew → Crew) : (s.modCrew i f).mem = s.mem := rfl
@[simp] theorem State.modCrew_memPz (s : State) (i : Nat) (f : Crew → Crew) : (s.modCrew i f).memPz = s.memPz := rfl
@[simp] theorem State.modCrew_marks (s : State) (i : Nat) (f : Crew → Crew) : (s.modCrew i f).marks = s.marks := rfl
@[simp] theorem State.modCrew_own (s : State) (i : Nat) (f : Crew → Crew) : (s.modCrew i f).own = s.own := rfl
@[simp] theorem State.modCrew_areas (s : State) (i : Nat) (f : Crew → Crew) : (s.modCrew i f).areas = s.areas := rfl
@[simp] theorem State.modCrew_acqWait (s : State) (i : Nat) (f : Crew → Crew) : (s.modCrew i f).acqWait = s.acqWait := rfl
@[simp] theorem State.modCrew_slices (s : State) (i : Nat) (f : Crew → Crew) : (s.modCrew i f).slices = s.slices := rfl
@[simp] theorem State.modCrew_routers (s : State) (i : Nat) (f : Crew → Crew) : (s.modCrew i f).routers = s.routers := rfl
@[simp] theorem State.modCrew_clusters (s : State) (i : Nat) (f : Crew → Crew) : (s.modCrew i f).clusters = s.clusters := rfl
@[simp] theorem State.modCrew_parts (s : State) (i : Nat) (f : Crew → Crew) : (s.modCrew i f).parts = s.parts := rfl
@[simp] theorem State.modCrew_incs (s : State) (i : Nat) (f : Crew → Crew) : (s.modCrew i f).incs = s.incs := rfl
@[simp] theorem State.modCrew_liveTags (s : State) (i : Nat) (f : Crew → Crew) : (s.modCrew i f).liveTags = s.liveTags := rfl
@[simp] theorem State.modCrew_leftCells (s : State) (i : Nat) (f : Crew → Crew) : (s.modCrew i f).leftCells = s.leftCells := rfl
@[simp] theorem State.modCrew_grids (s : State) (i : Nat) (f : Crew → Crew) : (s.modCrew i f).grids = s.grids := rfl
@[simp] theorem State.modCrew_reqs (s : State) (i : Nat) (f : Crew → Crew) : (s.modCrew i f).reqs = s.reqs := rfl
@[simp] theorem State.modCrew_pends (s : State) (i : Nat) (f : Crew → Crew) : (s.modCrew i f).pends = s.pends := rfl
@[simp] theorem State.modCrew_toks (s : State) (i : Nat) (f : Crew → Crew) : (s.modCrew i f).toks = s.toks := rfl
@[simp] theorem State.modCrew_fab (s : State) (i : Nat) (f : Crew → Crew) : (s.modCrew i f).fab = s.fab := rfl
@[simp] theorem State.modCrew_txnHold (s : State) (i : Nat) (f : Crew → Crew) : (s.modCrew i f).txnHold = s.txnHold := rfl
@[simp] theorem State.modCrew_streamSeq (s : State) (i : Nat) (f : Crew → Crew) : (s.modCrew i f).streamSeq = s.streamSeq := rfl
@[simp] theorem State.modCrew_replays (s : State) (i : Nat) (f : Crew → Crew) : (s.modCrew i f).replays = s.replays := rfl
@[simp] theorem State.modCrew_linkKey (s : State) (i : Nat) (f : Crew → Crew) : (s.modCrew i f).linkKey = s.linkKey := rfl
@[simp] theorem State.modCrew_portDrop (s : State) (i : Nat) (f : Crew → Crew) : (s.modCrew i f).portDrop = s.portDrop := rfl
@[simp] theorem State.modCrew_portTag (s : State) (i : Nat) (f : Crew → Crew) : (s.modCrew i f).portTag = s.portTag := rfl
@[simp] theorem State.modCrew_egress (s : State) (i : Nat) (f : Crew → Crew) : (s.modCrew i f).egress = s.egress := rfl
@[simp] theorem State.modCrew_seen (s : State) (i : Nat) (f : Crew → Crew) : (s.modCrew i f).seen = s.seen := rfl
@[simp] theorem State.modCrew_windows (s : State) (i : Nat) (f : Crew → Crew) : (s.modCrew i f).windows = s.windows := rfl
@[simp] theorem State.modCrew_inbound (s : State) (i : Nat) (f : Crew → Crew) : (s.modCrew i f).inbound = s.inbound := rfl
@[simp] theorem State.modCrew_hostReqs (s : State) (i : Nat) (f : Crew → Crew) : (s.modCrew i f).hostReqs = s.hostReqs := rfl
@[simp] theorem State.modCrew_reserves (s : State) (i : Nat) (f : Crew → Crew) : (s.modCrew i f).reserves = s.reserves := rfl
@[simp] theorem State.modCrew_checks (s : State) (i : Nat) (f : Crew → Crew) : (s.modCrew i f).checks = s.checks := rfl
@[simp] theorem State.modCrew_hostOut (s : State) (i : Nat) (f : Crew → Crew) : (s.modCrew i f).hostOut = s.hostOut := rfl
@[simp] theorem State.modCrew_hostIn (s : State) (i : Nat) (f : Crew → Crew) : (s.modCrew i f).hostIn = s.hostIn := rfl
@[simp] theorem State.modCrew_msixOut (s : State) (i : Nat) (f : Crew → Crew) : (s.modCrew i f).msixOut = s.msixOut := rfl
@[simp] theorem State.modCrew_fabOut (s : State) (i : Nat) (f : Crew → Crew) : (s.modCrew i f).fabOut = s.fabOut := rfl
@[simp] theorem State.modCrew_doeOut (s : State) (i : Nat) (f : Crew → Crew) : (s.modCrew i f).doeOut = s.doeOut := rfl
@[simp] theorem State.modCrew_bar0Out (s : State) (i : Nat) (f : Crew → Crew) : (s.modCrew i f).bar0Out = s.bar0Out := rfl
@[simp] theorem State.modCrew_svcLog (s : State) (i : Nat) (f : Crew → Crew) : (s.modCrew i f).svcLog = s.svcLog := rfl
@[simp] theorem State.modCrew_mgmtOut (s : State) (i : Nat) (f : Crew → Crew) : (s.modCrew i f).mgmtOut = s.mgmtOut := rfl
@[simp] theorem State.modCrew_mr (s : State) (i : Nat) (f : Crew → Crew) : (s.modCrew i f).mr = s.mr := rfl
@[simp] theorem State.modCrew_lifecycle (s : State) (i : Nat) (f : Crew → Crew) : (s.modCrew i f).lifecycle = s.lifecycle := rfl
@[simp] theorem State.modCrew_chal (s : State) (i : Nat) (f : Crew → Crew) : (s.modCrew i f).chal = s.chal := rfl
@[simp] theorem State.modCrew_latchV (s : State) (i : Nat) (f : Crew → Crew) : (s.modCrew i f).latchV = s.latchV := rfl
@[simp] theorem State.modCrew_latchW (s : State) (i : Nat) (f : Crew → Crew) : (s.modCrew i f).latchW = s.latchW := rfl
@[simp] theorem State.modCrew_latchM (s : State) (i : Nat) (f : Crew → Crew) : (s.modCrew i f).latchM = s.latchM := rfl
@[simp] theorem State.modCrew_latched (s : State) (i : Nat) (f : Crew → Crew) : (s.modCrew i f).latched = s.latched := rfl
@[simp] theorem State.modCrew_colds (s : State) (i : Nat) (f : Crew → Crew) : (s.modCrew i f).colds = s.colds := rfl
@[simp] theorem State.modCrew_debugPort (s : State) (i : Nat) (f : Crew → Crew) : (s.modCrew i f).debugPort = s.debugPort := rfl

/-! `State.modCohort`. -/

@[simp] theorem State.modCohort_rail (s : State) (i co : Nat) (f : Cohort → Cohort) : (s.modCohort i co f).rail = s.rail := rfl
@[simp] theorem State.modCohort_time (s : State) (i co : Nat) (f : Cohort → Cohort) : (s.modCohort i co f).time = s.time := rfl
@[simp] theorem State.modCohort_tick (s : State) (i co : Nat) (f : Cohort → Cohort) : (s.modCohort i co f).tick = s.tick := rfl
@[simp] theorem State.modCohort_turns (s : State) (i co : Nat) (f : Cohort → Cohort) : (s.modCohort i co f).turns = s.turns := rfl
@[simp] theorem State.modCohort_cur (s : State) (i co : Nat) (f : Cohort → Cohort) : (s.modCohort i co f).cur = s.cur := rfl
@[simp] theorem State.modCohort_nextId (s : State) (i co : Nat) (f : Cohort → Cohort) : (s.modCohort i co f).nextId = s.nextId := rfl
@[simp] theorem State.modCohort_svcRdy (s : State) (i co : Nat) (f : Cohort → Cohort) : (s.modCohort i co f).svcRdy = s.svcRdy := rfl
@[simp] theorem State.modCohort_rtrRdy (s : State) (i co : Nat) (f : Cohort → Cohort) : (s.modCohort i co f).rtrRdy = s.rtrRdy := rfl
@[simp] theorem State.modCohort_slRdy (s : State) (i co : Nat) (f : Cohort → Cohort) : (s.modCohort i co f).slRdy = s.slRdy := rfl
@[simp] theorem State.modCohort_chRdy (s : State) (i co : Nat) (f : Cohort → Cohort) : (s.modCohort i co f).chRdy = s.chRdy := rfl
@[simp] theorem State.modCohort_clRdy (s : State) (i co : Nat) (f : Cohort → Cohort) : (s.modCohort i co f).clRdy = s.clRdy := rfl
@[simp] theorem State.modCohort_hpRdy (s : State) (i co : Nat) (f : Cohort → Cohort) : (s.modCohort i co f).hpRdy = s.hpRdy := rfl
@[simp] theorem State.modCohort_fpRdy (s : State) (i co : Nat) (f : Cohort → Cohort) : (s.modCohort i co f).fpRdy = s.fpRdy := rfl
@[simp] theorem State.modCohort_ksRdy (s : State) (i co : Nat) (f : Cohort → Cohort) : (s.modCohort i co f).ksRdy = s.ksRdy := rfl
@[simp] theorem State.modCohort_failed (s : State) (i co : Nat) (f : Cohort → Cohort) : (s.modCohort i co f).failed = s.failed := rfl
@[simp] theorem State.modCohort_fenced (s : State) (i co : Nat) (f : Cohort → Cohort) : (s.modCohort i co f).fenced = s.fenced := rfl
@[simp] theorem State.modCohort_fencedRtr (s : State) (i co : Nat) (f : Cohort → Cohort) : (s.modCohort i co f).fencedRtr = s.fencedRtr := rfl
@[simp] theorem State.modCohort_zoneBad (s : State) (i co : Nat) (f : Cohort → Cohort) : (s.modCohort i co f).zoneBad = s.zoneBad := rfl
@[simp] theorem State.modCohort_zonecur (s : State) (i co : Nat) (f : Cohort → Cohort) : (s.modCohort i co f).zonecur = s.zonecur := rfl
@[simp] theorem State.modCohort_pkgpwr (s : State) (i co : Nat) (f : Cohort → Cohort) : (s.modCohort i co f).pkgpwr = s.pkgpwr := rfl
@[simp] theorem State.modCohort_overAt (s : State) (i co : Nat) (f : Cohort → Cohort) : (s.modCohort i co f).overAt = s.overAt := rfl
@[simp] theorem State.modCohort_mem (s : State) (i co : Nat) (f : Cohort → Cohort) : (s.modCohort i co f).mem = s.mem := rfl
@[simp] theorem State.modCohort_memPz (s : State) (i co : Nat) (f : Cohort → Cohort) : (s.modCohort i co f).memPz = s.memPz := rfl
@[simp] theorem State.modCohort_marks (s : State) (i co : Nat) (f : Cohort → Cohort) : (s.modCohort i co f).marks = s.marks := rfl
@[simp] theorem State.modCohort_own (s : State) (i co : Nat) (f : Cohort → Cohort) : (s.modCohort i co f).own = s.own := rfl
@[simp] theorem State.modCohort_areas (s : State) (i co : Nat) (f : Cohort → Cohort) : (s.modCohort i co f).areas = s.areas := rfl
@[simp] theorem State.modCohort_acqWait (s : State) (i co : Nat) (f : Cohort → Cohort) : (s.modCohort i co f).acqWait = s.acqWait := rfl
@[simp] theorem State.modCohort_slices (s : State) (i co : Nat) (f : Cohort → Cohort) : (s.modCohort i co f).slices = s.slices := rfl
@[simp] theorem State.modCohort_routers (s : State) (i co : Nat) (f : Cohort → Cohort) : (s.modCohort i co f).routers = s.routers := rfl
@[simp] theorem State.modCohort_clusters (s : State) (i co : Nat) (f : Cohort → Cohort) : (s.modCohort i co f).clusters = s.clusters := rfl
@[simp] theorem State.modCohort_parts (s : State) (i co : Nat) (f : Cohort → Cohort) : (s.modCohort i co f).parts = s.parts := rfl
@[simp] theorem State.modCohort_incs (s : State) (i co : Nat) (f : Cohort → Cohort) : (s.modCohort i co f).incs = s.incs := rfl
@[simp] theorem State.modCohort_liveTags (s : State) (i co : Nat) (f : Cohort → Cohort) : (s.modCohort i co f).liveTags = s.liveTags := rfl
@[simp] theorem State.modCohort_leftCells (s : State) (i co : Nat) (f : Cohort → Cohort) : (s.modCohort i co f).leftCells = s.leftCells := rfl
@[simp] theorem State.modCohort_grids (s : State) (i co : Nat) (f : Cohort → Cohort) : (s.modCohort i co f).grids = s.grids := rfl
@[simp] theorem State.modCohort_reqs (s : State) (i co : Nat) (f : Cohort → Cohort) : (s.modCohort i co f).reqs = s.reqs := rfl
@[simp] theorem State.modCohort_pends (s : State) (i co : Nat) (f : Cohort → Cohort) : (s.modCohort i co f).pends = s.pends := rfl
@[simp] theorem State.modCohort_toks (s : State) (i co : Nat) (f : Cohort → Cohort) : (s.modCohort i co f).toks = s.toks := rfl
@[simp] theorem State.modCohort_fab (s : State) (i co : Nat) (f : Cohort → Cohort) : (s.modCohort i co f).fab = s.fab := rfl
@[simp] theorem State.modCohort_txnHold (s : State) (i co : Nat) (f : Cohort → Cohort) : (s.modCohort i co f).txnHold = s.txnHold := rfl
@[simp] theorem State.modCohort_streamSeq (s : State) (i co : Nat) (f : Cohort → Cohort) : (s.modCohort i co f).streamSeq = s.streamSeq := rfl
@[simp] theorem State.modCohort_replays (s : State) (i co : Nat) (f : Cohort → Cohort) : (s.modCohort i co f).replays = s.replays := rfl
@[simp] theorem State.modCohort_linkKey (s : State) (i co : Nat) (f : Cohort → Cohort) : (s.modCohort i co f).linkKey = s.linkKey := rfl
@[simp] theorem State.modCohort_portDrop (s : State) (i co : Nat) (f : Cohort → Cohort) : (s.modCohort i co f).portDrop = s.portDrop := rfl
@[simp] theorem State.modCohort_portTag (s : State) (i co : Nat) (f : Cohort → Cohort) : (s.modCohort i co f).portTag = s.portTag := rfl
@[simp] theorem State.modCohort_egress (s : State) (i co : Nat) (f : Cohort → Cohort) : (s.modCohort i co f).egress = s.egress := rfl
@[simp] theorem State.modCohort_seen (s : State) (i co : Nat) (f : Cohort → Cohort) : (s.modCohort i co f).seen = s.seen := rfl
@[simp] theorem State.modCohort_windows (s : State) (i co : Nat) (f : Cohort → Cohort) : (s.modCohort i co f).windows = s.windows := rfl
@[simp] theorem State.modCohort_inbound (s : State) (i co : Nat) (f : Cohort → Cohort) : (s.modCohort i co f).inbound = s.inbound := rfl
@[simp] theorem State.modCohort_hostReqs (s : State) (i co : Nat) (f : Cohort → Cohort) : (s.modCohort i co f).hostReqs = s.hostReqs := rfl
@[simp] theorem State.modCohort_reserves (s : State) (i co : Nat) (f : Cohort → Cohort) : (s.modCohort i co f).reserves = s.reserves := rfl
@[simp] theorem State.modCohort_checks (s : State) (i co : Nat) (f : Cohort → Cohort) : (s.modCohort i co f).checks = s.checks := rfl
@[simp] theorem State.modCohort_hostOut (s : State) (i co : Nat) (f : Cohort → Cohort) : (s.modCohort i co f).hostOut = s.hostOut := rfl
@[simp] theorem State.modCohort_hostIn (s : State) (i co : Nat) (f : Cohort → Cohort) : (s.modCohort i co f).hostIn = s.hostIn := rfl
@[simp] theorem State.modCohort_msixOut (s : State) (i co : Nat) (f : Cohort → Cohort) : (s.modCohort i co f).msixOut = s.msixOut := rfl
@[simp] theorem State.modCohort_fabOut (s : State) (i co : Nat) (f : Cohort → Cohort) : (s.modCohort i co f).fabOut = s.fabOut := rfl
@[simp] theorem State.modCohort_doeOut (s : State) (i co : Nat) (f : Cohort → Cohort) : (s.modCohort i co f).doeOut = s.doeOut := rfl
@[simp] theorem State.modCohort_bar0Out (s : State) (i co : Nat) (f : Cohort → Cohort) : (s.modCohort i co f).bar0Out = s.bar0Out := rfl
@[simp] theorem State.modCohort_svcLog (s : State) (i co : Nat) (f : Cohort → Cohort) : (s.modCohort i co f).svcLog = s.svcLog := rfl
@[simp] theorem State.modCohort_mgmtOut (s : State) (i co : Nat) (f : Cohort → Cohort) : (s.modCohort i co f).mgmtOut = s.mgmtOut := rfl
@[simp] theorem State.modCohort_mr (s : State) (i co : Nat) (f : Cohort → Cohort) : (s.modCohort i co f).mr = s.mr := rfl
@[simp] theorem State.modCohort_lifecycle (s : State) (i co : Nat) (f : Cohort → Cohort) : (s.modCohort i co f).lifecycle = s.lifecycle := rfl
@[simp] theorem State.modCohort_chal (s : State) (i co : Nat) (f : Cohort → Cohort) : (s.modCohort i co f).chal = s.chal := rfl
@[simp] theorem State.modCohort_latchV (s : State) (i co : Nat) (f : Cohort → Cohort) : (s.modCohort i co f).latchV = s.latchV := rfl
@[simp] theorem State.modCohort_latchW (s : State) (i co : Nat) (f : Cohort → Cohort) : (s.modCohort i co f).latchW = s.latchW := rfl
@[simp] theorem State.modCohort_latchM (s : State) (i co : Nat) (f : Cohort → Cohort) : (s.modCohort i co f).latchM = s.latchM := rfl
@[simp] theorem State.modCohort_latched (s : State) (i co : Nat) (f : Cohort → Cohort) : (s.modCohort i co f).latched = s.latched := rfl
@[simp] theorem State.modCohort_colds (s : State) (i co : Nat) (f : Cohort → Cohort) : (s.modCohort i co f).colds = s.colds := rfl
@[simp] theorem State.modCohort_debugPort (s : State) (i co : Nat) (f : Cohort → Cohort) : (s.modCohort i co f).debugPort = s.debugPort := rfl

/-! `State.modLanes`. -/

@[simp] theorem State.modLanes_rail (s : State) (i co : Nat) (m : BitVec 32) (f : Fin 32 → Thread → Thread) : (s.modLanes i co m f).rail = s.rail := rfl
@[simp] theorem State.modLanes_time (s : State) (i co : Nat) (m : BitVec 32) (f : Fin 32 → Thread → Thread) : (s.modLanes i co m f).time = s.time := rfl
@[simp] theorem State.modLanes_tick (s : State) (i co : Nat) (m : BitVec 32) (f : Fin 32 → Thread → Thread) : (s.modLanes i co m f).tick = s.tick := rfl
@[simp] theorem State.modLanes_turns (s : State) (i co : Nat) (m : BitVec 32) (f : Fin 32 → Thread → Thread) : (s.modLanes i co m f).turns = s.turns := rfl
@[simp] theorem State.modLanes_cur (s : State) (i co : Nat) (m : BitVec 32) (f : Fin 32 → Thread → Thread) : (s.modLanes i co m f).cur = s.cur := rfl
@[simp] theorem State.modLanes_nextId (s : State) (i co : Nat) (m : BitVec 32) (f : Fin 32 → Thread → Thread) : (s.modLanes i co m f).nextId = s.nextId := rfl
@[simp] theorem State.modLanes_svcRdy (s : State) (i co : Nat) (m : BitVec 32) (f : Fin 32 → Thread → Thread) : (s.modLanes i co m f).svcRdy = s.svcRdy := rfl
@[simp] theorem State.modLanes_rtrRdy (s : State) (i co : Nat) (m : BitVec 32) (f : Fin 32 → Thread → Thread) : (s.modLanes i co m f).rtrRdy = s.rtrRdy := rfl
@[simp] theorem State.modLanes_slRdy (s : State) (i co : Nat) (m : BitVec 32) (f : Fin 32 → Thread → Thread) : (s.modLanes i co m f).slRdy = s.slRdy := rfl
@[simp] theorem State.modLanes_chRdy (s : State) (i co : Nat) (m : BitVec 32) (f : Fin 32 → Thread → Thread) : (s.modLanes i co m f).chRdy = s.chRdy := rfl
@[simp] theorem State.modLanes_clRdy (s : State) (i co : Nat) (m : BitVec 32) (f : Fin 32 → Thread → Thread) : (s.modLanes i co m f).clRdy = s.clRdy := rfl
@[simp] theorem State.modLanes_hpRdy (s : State) (i co : Nat) (m : BitVec 32) (f : Fin 32 → Thread → Thread) : (s.modLanes i co m f).hpRdy = s.hpRdy := rfl
@[simp] theorem State.modLanes_fpRdy (s : State) (i co : Nat) (m : BitVec 32) (f : Fin 32 → Thread → Thread) : (s.modLanes i co m f).fpRdy = s.fpRdy := rfl
@[simp] theorem State.modLanes_ksRdy (s : State) (i co : Nat) (m : BitVec 32) (f : Fin 32 → Thread → Thread) : (s.modLanes i co m f).ksRdy = s.ksRdy := rfl
@[simp] theorem State.modLanes_failed (s : State) (i co : Nat) (m : BitVec 32) (f : Fin 32 → Thread → Thread) : (s.modLanes i co m f).failed = s.failed := rfl
@[simp] theorem State.modLanes_fenced (s : State) (i co : Nat) (m : BitVec 32) (f : Fin 32 → Thread → Thread) : (s.modLanes i co m f).fenced = s.fenced := rfl
@[simp] theorem State.modLanes_fencedRtr (s : State) (i co : Nat) (m : BitVec 32) (f : Fin 32 → Thread → Thread) : (s.modLanes i co m f).fencedRtr = s.fencedRtr := rfl
@[simp] theorem State.modLanes_zoneBad (s : State) (i co : Nat) (m : BitVec 32) (f : Fin 32 → Thread → Thread) : (s.modLanes i co m f).zoneBad = s.zoneBad := rfl
@[simp] theorem State.modLanes_zonecur (s : State) (i co : Nat) (m : BitVec 32) (f : Fin 32 → Thread → Thread) : (s.modLanes i co m f).zonecur = s.zonecur := rfl
@[simp] theorem State.modLanes_pkgpwr (s : State) (i co : Nat) (m : BitVec 32) (f : Fin 32 → Thread → Thread) : (s.modLanes i co m f).pkgpwr = s.pkgpwr := rfl
@[simp] theorem State.modLanes_overAt (s : State) (i co : Nat) (m : BitVec 32) (f : Fin 32 → Thread → Thread) : (s.modLanes i co m f).overAt = s.overAt := rfl
@[simp] theorem State.modLanes_mem (s : State) (i co : Nat) (m : BitVec 32) (f : Fin 32 → Thread → Thread) : (s.modLanes i co m f).mem = s.mem := rfl
@[simp] theorem State.modLanes_memPz (s : State) (i co : Nat) (m : BitVec 32) (f : Fin 32 → Thread → Thread) : (s.modLanes i co m f).memPz = s.memPz := rfl
@[simp] theorem State.modLanes_marks (s : State) (i co : Nat) (m : BitVec 32) (f : Fin 32 → Thread → Thread) : (s.modLanes i co m f).marks = s.marks := rfl
@[simp] theorem State.modLanes_own (s : State) (i co : Nat) (m : BitVec 32) (f : Fin 32 → Thread → Thread) : (s.modLanes i co m f).own = s.own := rfl
@[simp] theorem State.modLanes_areas (s : State) (i co : Nat) (m : BitVec 32) (f : Fin 32 → Thread → Thread) : (s.modLanes i co m f).areas = s.areas := rfl
@[simp] theorem State.modLanes_acqWait (s : State) (i co : Nat) (m : BitVec 32) (f : Fin 32 → Thread → Thread) : (s.modLanes i co m f).acqWait = s.acqWait := rfl
@[simp] theorem State.modLanes_slices (s : State) (i co : Nat) (m : BitVec 32) (f : Fin 32 → Thread → Thread) : (s.modLanes i co m f).slices = s.slices := rfl
@[simp] theorem State.modLanes_routers (s : State) (i co : Nat) (m : BitVec 32) (f : Fin 32 → Thread → Thread) : (s.modLanes i co m f).routers = s.routers := rfl
@[simp] theorem State.modLanes_clusters (s : State) (i co : Nat) (m : BitVec 32) (f : Fin 32 → Thread → Thread) : (s.modLanes i co m f).clusters = s.clusters := rfl
@[simp] theorem State.modLanes_parts (s : State) (i co : Nat) (m : BitVec 32) (f : Fin 32 → Thread → Thread) : (s.modLanes i co m f).parts = s.parts := rfl
@[simp] theorem State.modLanes_incs (s : State) (i co : Nat) (m : BitVec 32) (f : Fin 32 → Thread → Thread) : (s.modLanes i co m f).incs = s.incs := rfl
@[simp] theorem State.modLanes_liveTags (s : State) (i co : Nat) (m : BitVec 32) (f : Fin 32 → Thread → Thread) : (s.modLanes i co m f).liveTags = s.liveTags := rfl
@[simp] theorem State.modLanes_leftCells (s : State) (i co : Nat) (m : BitVec 32) (f : Fin 32 → Thread → Thread) : (s.modLanes i co m f).leftCells = s.leftCells := rfl
@[simp] theorem State.modLanes_grids (s : State) (i co : Nat) (m : BitVec 32) (f : Fin 32 → Thread → Thread) : (s.modLanes i co m f).grids = s.grids := rfl
@[simp] theorem State.modLanes_reqs (s : State) (i co : Nat) (m : BitVec 32) (f : Fin 32 → Thread → Thread) : (s.modLanes i co m f).reqs = s.reqs := rfl
@[simp] theorem State.modLanes_pends (s : State) (i co : Nat) (m : BitVec 32) (f : Fin 32 → Thread → Thread) : (s.modLanes i co m f).pends = s.pends := rfl
@[simp] theorem State.modLanes_toks (s : State) (i co : Nat) (m : BitVec 32) (f : Fin 32 → Thread → Thread) : (s.modLanes i co m f).toks = s.toks := rfl
@[simp] theorem State.modLanes_fab (s : State) (i co : Nat) (m : BitVec 32) (f : Fin 32 → Thread → Thread) : (s.modLanes i co m f).fab = s.fab := rfl
@[simp] theorem State.modLanes_txnHold (s : State) (i co : Nat) (m : BitVec 32) (f : Fin 32 → Thread → Thread) : (s.modLanes i co m f).txnHold = s.txnHold := rfl
@[simp] theorem State.modLanes_streamSeq (s : State) (i co : Nat) (m : BitVec 32) (f : Fin 32 → Thread → Thread) : (s.modLanes i co m f).streamSeq = s.streamSeq := rfl
@[simp] theorem State.modLanes_replays (s : State) (i co : Nat) (m : BitVec 32) (f : Fin 32 → Thread → Thread) : (s.modLanes i co m f).replays = s.replays := rfl
@[simp] theorem State.modLanes_linkKey (s : State) (i co : Nat) (m : BitVec 32) (f : Fin 32 → Thread → Thread) : (s.modLanes i co m f).linkKey = s.linkKey := rfl
@[simp] theorem State.modLanes_portDrop (s : State) (i co : Nat) (m : BitVec 32) (f : Fin 32 → Thread → Thread) : (s.modLanes i co m f).portDrop = s.portDrop := rfl
@[simp] theorem State.modLanes_portTag (s : State) (i co : Nat) (m : BitVec 32) (f : Fin 32 → Thread → Thread) : (s.modLanes i co m f).portTag = s.portTag := rfl
@[simp] theorem State.modLanes_egress (s : State) (i co : Nat) (m : BitVec 32) (f : Fin 32 → Thread → Thread) : (s.modLanes i co m f).egress = s.egress := rfl
@[simp] theorem State.modLanes_seen (s : State) (i co : Nat) (m : BitVec 32) (f : Fin 32 → Thread → Thread) : (s.modLanes i co m f).seen = s.seen := rfl
@[simp] theorem State.modLanes_windows (s : State) (i co : Nat) (m : BitVec 32) (f : Fin 32 → Thread → Thread) : (s.modLanes i co m f).windows = s.windows := rfl
@[simp] theorem State.modLanes_inbound (s : State) (i co : Nat) (m : BitVec 32) (f : Fin 32 → Thread → Thread) : (s.modLanes i co m f).inbound = s.inbound := rfl
@[simp] theorem State.modLanes_hostReqs (s : State) (i co : Nat) (m : BitVec 32) (f : Fin 32 → Thread → Thread) : (s.modLanes i co m f).hostReqs = s.hostReqs := rfl
@[simp] theorem State.modLanes_reserves (s : State) (i co : Nat) (m : BitVec 32) (f : Fin 32 → Thread → Thread) : (s.modLanes i co m f).reserves = s.reserves := rfl
@[simp] theorem State.modLanes_checks (s : State) (i co : Nat) (m : BitVec 32) (f : Fin 32 → Thread → Thread) : (s.modLanes i co m f).checks = s.checks := rfl
@[simp] theorem State.modLanes_hostOut (s : State) (i co : Nat) (m : BitVec 32) (f : Fin 32 → Thread → Thread) : (s.modLanes i co m f).hostOut = s.hostOut := rfl
@[simp] theorem State.modLanes_hostIn (s : State) (i co : Nat) (m : BitVec 32) (f : Fin 32 → Thread → Thread) : (s.modLanes i co m f).hostIn = s.hostIn := rfl
@[simp] theorem State.modLanes_msixOut (s : State) (i co : Nat) (m : BitVec 32) (f : Fin 32 → Thread → Thread) : (s.modLanes i co m f).msixOut = s.msixOut := rfl
@[simp] theorem State.modLanes_fabOut (s : State) (i co : Nat) (m : BitVec 32) (f : Fin 32 → Thread → Thread) : (s.modLanes i co m f).fabOut = s.fabOut := rfl
@[simp] theorem State.modLanes_doeOut (s : State) (i co : Nat) (m : BitVec 32) (f : Fin 32 → Thread → Thread) : (s.modLanes i co m f).doeOut = s.doeOut := rfl
@[simp] theorem State.modLanes_bar0Out (s : State) (i co : Nat) (m : BitVec 32) (f : Fin 32 → Thread → Thread) : (s.modLanes i co m f).bar0Out = s.bar0Out := rfl
@[simp] theorem State.modLanes_svcLog (s : State) (i co : Nat) (m : BitVec 32) (f : Fin 32 → Thread → Thread) : (s.modLanes i co m f).svcLog = s.svcLog := rfl
@[simp] theorem State.modLanes_mgmtOut (s : State) (i co : Nat) (m : BitVec 32) (f : Fin 32 → Thread → Thread) : (s.modLanes i co m f).mgmtOut = s.mgmtOut := rfl
@[simp] theorem State.modLanes_mr (s : State) (i co : Nat) (m : BitVec 32) (f : Fin 32 → Thread → Thread) : (s.modLanes i co m f).mr = s.mr := rfl
@[simp] theorem State.modLanes_lifecycle (s : State) (i co : Nat) (m : BitVec 32) (f : Fin 32 → Thread → Thread) : (s.modLanes i co m f).lifecycle = s.lifecycle := rfl
@[simp] theorem State.modLanes_chal (s : State) (i co : Nat) (m : BitVec 32) (f : Fin 32 → Thread → Thread) : (s.modLanes i co m f).chal = s.chal := rfl
@[simp] theorem State.modLanes_latchV (s : State) (i co : Nat) (m : BitVec 32) (f : Fin 32 → Thread → Thread) : (s.modLanes i co m f).latchV = s.latchV := rfl
@[simp] theorem State.modLanes_latchW (s : State) (i co : Nat) (m : BitVec 32) (f : Fin 32 → Thread → Thread) : (s.modLanes i co m f).latchW = s.latchW := rfl
@[simp] theorem State.modLanes_latchM (s : State) (i co : Nat) (m : BitVec 32) (f : Fin 32 → Thread → Thread) : (s.modLanes i co m f).latchM = s.latchM := rfl
@[simp] theorem State.modLanes_latched (s : State) (i co : Nat) (m : BitVec 32) (f : Fin 32 → Thread → Thread) : (s.modLanes i co m f).latched = s.latched := rfl
@[simp] theorem State.modLanes_colds (s : State) (i co : Nat) (m : BitVec 32) (f : Fin 32 → Thread → Thread) : (s.modLanes i co m f).colds = s.colds := rfl
@[simp] theorem State.modLanes_debugPort (s : State) (i co : Nat) (m : BitVec 32) (f : Fin 32 → Thread → Thread) : (s.modLanes i co m f).debugPort = s.debugPort := rfl

/-! `State.modThread`. -/

@[simp] theorem State.modThread_rail (s : State) (i co l : Nat) (f : Thread → Thread) : (s.modThread i co l f).rail = s.rail := rfl
@[simp] theorem State.modThread_time (s : State) (i co l : Nat) (f : Thread → Thread) : (s.modThread i co l f).time = s.time := rfl
@[simp] theorem State.modThread_tick (s : State) (i co l : Nat) (f : Thread → Thread) : (s.modThread i co l f).tick = s.tick := rfl
@[simp] theorem State.modThread_turns (s : State) (i co l : Nat) (f : Thread → Thread) : (s.modThread i co l f).turns = s.turns := rfl
@[simp] theorem State.modThread_cur (s : State) (i co l : Nat) (f : Thread → Thread) : (s.modThread i co l f).cur = s.cur := rfl
@[simp] theorem State.modThread_nextId (s : State) (i co l : Nat) (f : Thread → Thread) : (s.modThread i co l f).nextId = s.nextId := rfl
@[simp] theorem State.modThread_svcRdy (s : State) (i co l : Nat) (f : Thread → Thread) : (s.modThread i co l f).svcRdy = s.svcRdy := rfl
@[simp] theorem State.modThread_rtrRdy (s : State) (i co l : Nat) (f : Thread → Thread) : (s.modThread i co l f).rtrRdy = s.rtrRdy := rfl
@[simp] theorem State.modThread_slRdy (s : State) (i co l : Nat) (f : Thread → Thread) : (s.modThread i co l f).slRdy = s.slRdy := rfl
@[simp] theorem State.modThread_chRdy (s : State) (i co l : Nat) (f : Thread → Thread) : (s.modThread i co l f).chRdy = s.chRdy := rfl
@[simp] theorem State.modThread_clRdy (s : State) (i co l : Nat) (f : Thread → Thread) : (s.modThread i co l f).clRdy = s.clRdy := rfl
@[simp] theorem State.modThread_hpRdy (s : State) (i co l : Nat) (f : Thread → Thread) : (s.modThread i co l f).hpRdy = s.hpRdy := rfl
@[simp] theorem State.modThread_fpRdy (s : State) (i co l : Nat) (f : Thread → Thread) : (s.modThread i co l f).fpRdy = s.fpRdy := rfl
@[simp] theorem State.modThread_ksRdy (s : State) (i co l : Nat) (f : Thread → Thread) : (s.modThread i co l f).ksRdy = s.ksRdy := rfl
@[simp] theorem State.modThread_failed (s : State) (i co l : Nat) (f : Thread → Thread) : (s.modThread i co l f).failed = s.failed := rfl
@[simp] theorem State.modThread_fenced (s : State) (i co l : Nat) (f : Thread → Thread) : (s.modThread i co l f).fenced = s.fenced := rfl
@[simp] theorem State.modThread_fencedRtr (s : State) (i co l : Nat) (f : Thread → Thread) : (s.modThread i co l f).fencedRtr = s.fencedRtr := rfl
@[simp] theorem State.modThread_zoneBad (s : State) (i co l : Nat) (f : Thread → Thread) : (s.modThread i co l f).zoneBad = s.zoneBad := rfl
@[simp] theorem State.modThread_zonecur (s : State) (i co l : Nat) (f : Thread → Thread) : (s.modThread i co l f).zonecur = s.zonecur := rfl
@[simp] theorem State.modThread_pkgpwr (s : State) (i co l : Nat) (f : Thread → Thread) : (s.modThread i co l f).pkgpwr = s.pkgpwr := rfl
@[simp] theorem State.modThread_overAt (s : State) (i co l : Nat) (f : Thread → Thread) : (s.modThread i co l f).overAt = s.overAt := rfl
@[simp] theorem State.modThread_mem (s : State) (i co l : Nat) (f : Thread → Thread) : (s.modThread i co l f).mem = s.mem := rfl
@[simp] theorem State.modThread_memPz (s : State) (i co l : Nat) (f : Thread → Thread) : (s.modThread i co l f).memPz = s.memPz := rfl
@[simp] theorem State.modThread_marks (s : State) (i co l : Nat) (f : Thread → Thread) : (s.modThread i co l f).marks = s.marks := rfl
@[simp] theorem State.modThread_own (s : State) (i co l : Nat) (f : Thread → Thread) : (s.modThread i co l f).own = s.own := rfl
@[simp] theorem State.modThread_areas (s : State) (i co l : Nat) (f : Thread → Thread) : (s.modThread i co l f).areas = s.areas := rfl
@[simp] theorem State.modThread_acqWait (s : State) (i co l : Nat) (f : Thread → Thread) : (s.modThread i co l f).acqWait = s.acqWait := rfl
@[simp] theorem State.modThread_slices (s : State) (i co l : Nat) (f : Thread → Thread) : (s.modThread i co l f).slices = s.slices := rfl
@[simp] theorem State.modThread_routers (s : State) (i co l : Nat) (f : Thread → Thread) : (s.modThread i co l f).routers = s.routers := rfl
@[simp] theorem State.modThread_clusters (s : State) (i co l : Nat) (f : Thread → Thread) : (s.modThread i co l f).clusters = s.clusters := rfl
@[simp] theorem State.modThread_parts (s : State) (i co l : Nat) (f : Thread → Thread) : (s.modThread i co l f).parts = s.parts := rfl
@[simp] theorem State.modThread_incs (s : State) (i co l : Nat) (f : Thread → Thread) : (s.modThread i co l f).incs = s.incs := rfl
@[simp] theorem State.modThread_liveTags (s : State) (i co l : Nat) (f : Thread → Thread) : (s.modThread i co l f).liveTags = s.liveTags := rfl
@[simp] theorem State.modThread_leftCells (s : State) (i co l : Nat) (f : Thread → Thread) : (s.modThread i co l f).leftCells = s.leftCells := rfl
@[simp] theorem State.modThread_grids (s : State) (i co l : Nat) (f : Thread → Thread) : (s.modThread i co l f).grids = s.grids := rfl
@[simp] theorem State.modThread_reqs (s : State) (i co l : Nat) (f : Thread → Thread) : (s.modThread i co l f).reqs = s.reqs := rfl
@[simp] theorem State.modThread_pends (s : State) (i co l : Nat) (f : Thread → Thread) : (s.modThread i co l f).pends = s.pends := rfl
@[simp] theorem State.modThread_toks (s : State) (i co l : Nat) (f : Thread → Thread) : (s.modThread i co l f).toks = s.toks := rfl
@[simp] theorem State.modThread_fab (s : State) (i co l : Nat) (f : Thread → Thread) : (s.modThread i co l f).fab = s.fab := rfl
@[simp] theorem State.modThread_txnHold (s : State) (i co l : Nat) (f : Thread → Thread) : (s.modThread i co l f).txnHold = s.txnHold := rfl
@[simp] theorem State.modThread_streamSeq (s : State) (i co l : Nat) (f : Thread → Thread) : (s.modThread i co l f).streamSeq = s.streamSeq := rfl
@[simp] theorem State.modThread_replays (s : State) (i co l : Nat) (f : Thread → Thread) : (s.modThread i co l f).replays = s.replays := rfl
@[simp] theorem State.modThread_linkKey (s : State) (i co l : Nat) (f : Thread → Thread) : (s.modThread i co l f).linkKey = s.linkKey := rfl
@[simp] theorem State.modThread_portDrop (s : State) (i co l : Nat) (f : Thread → Thread) : (s.modThread i co l f).portDrop = s.portDrop := rfl
@[simp] theorem State.modThread_portTag (s : State) (i co l : Nat) (f : Thread → Thread) : (s.modThread i co l f).portTag = s.portTag := rfl
@[simp] theorem State.modThread_egress (s : State) (i co l : Nat) (f : Thread → Thread) : (s.modThread i co l f).egress = s.egress := rfl
@[simp] theorem State.modThread_seen (s : State) (i co l : Nat) (f : Thread → Thread) : (s.modThread i co l f).seen = s.seen := rfl
@[simp] theorem State.modThread_windows (s : State) (i co l : Nat) (f : Thread → Thread) : (s.modThread i co l f).windows = s.windows := rfl
@[simp] theorem State.modThread_inbound (s : State) (i co l : Nat) (f : Thread → Thread) : (s.modThread i co l f).inbound = s.inbound := rfl
@[simp] theorem State.modThread_hostReqs (s : State) (i co l : Nat) (f : Thread → Thread) : (s.modThread i co l f).hostReqs = s.hostReqs := rfl
@[simp] theorem State.modThread_reserves (s : State) (i co l : Nat) (f : Thread → Thread) : (s.modThread i co l f).reserves = s.reserves := rfl
@[simp] theorem State.modThread_checks (s : State) (i co l : Nat) (f : Thread → Thread) : (s.modThread i co l f).checks = s.checks := rfl
@[simp] theorem State.modThread_hostOut (s : State) (i co l : Nat) (f : Thread → Thread) : (s.modThread i co l f).hostOut = s.hostOut := rfl
@[simp] theorem State.modThread_hostIn (s : State) (i co l : Nat) (f : Thread → Thread) : (s.modThread i co l f).hostIn = s.hostIn := rfl
@[simp] theorem State.modThread_msixOut (s : State) (i co l : Nat) (f : Thread → Thread) : (s.modThread i co l f).msixOut = s.msixOut := rfl
@[simp] theorem State.modThread_fabOut (s : State) (i co l : Nat) (f : Thread → Thread) : (s.modThread i co l f).fabOut = s.fabOut := rfl
@[simp] theorem State.modThread_doeOut (s : State) (i co l : Nat) (f : Thread → Thread) : (s.modThread i co l f).doeOut = s.doeOut := rfl
@[simp] theorem State.modThread_bar0Out (s : State) (i co l : Nat) (f : Thread → Thread) : (s.modThread i co l f).bar0Out = s.bar0Out := rfl
@[simp] theorem State.modThread_svcLog (s : State) (i co l : Nat) (f : Thread → Thread) : (s.modThread i co l f).svcLog = s.svcLog := rfl
@[simp] theorem State.modThread_mgmtOut (s : State) (i co l : Nat) (f : Thread → Thread) : (s.modThread i co l f).mgmtOut = s.mgmtOut := rfl
@[simp] theorem State.modThread_mr (s : State) (i co l : Nat) (f : Thread → Thread) : (s.modThread i co l f).mr = s.mr := rfl
@[simp] theorem State.modThread_lifecycle (s : State) (i co l : Nat) (f : Thread → Thread) : (s.modThread i co l f).lifecycle = s.lifecycle := rfl
@[simp] theorem State.modThread_chal (s : State) (i co l : Nat) (f : Thread → Thread) : (s.modThread i co l f).chal = s.chal := rfl
@[simp] theorem State.modThread_latchV (s : State) (i co l : Nat) (f : Thread → Thread) : (s.modThread i co l f).latchV = s.latchV := rfl
@[simp] theorem State.modThread_latchW (s : State) (i co l : Nat) (f : Thread → Thread) : (s.modThread i co l f).latchW = s.latchW := rfl
@[simp] theorem State.modThread_latchM (s : State) (i co l : Nat) (f : Thread → Thread) : (s.modThread i co l f).latchM = s.latchM := rfl
@[simp] theorem State.modThread_latched (s : State) (i co l : Nat) (f : Thread → Thread) : (s.modThread i co l f).latched = s.latched := rfl
@[simp] theorem State.modThread_colds (s : State) (i co l : Nat) (f : Thread → Thread) : (s.modThread i co l f).colds = s.colds := rfl
@[simp] theorem State.modThread_debugPort (s : State) (i co l : Nat) (f : Thread → Thread) : (s.modThread i co l f).debugPort = s.debugPort := rfl

/-! `State.modPart`. -/

@[simp] theorem State.modPart_rail (s : State) (g : Nat) (f : Part → Part) : (s.modPart g f).rail = s.rail := rfl
@[simp] theorem State.modPart_time (s : State) (g : Nat) (f : Part → Part) : (s.modPart g f).time = s.time := rfl
@[simp] theorem State.modPart_tick (s : State) (g : Nat) (f : Part → Part) : (s.modPart g f).tick = s.tick := rfl
@[simp] theorem State.modPart_turns (s : State) (g : Nat) (f : Part → Part) : (s.modPart g f).turns = s.turns := rfl
@[simp] theorem State.modPart_cur (s : State) (g : Nat) (f : Part → Part) : (s.modPart g f).cur = s.cur := rfl
@[simp] theorem State.modPart_nextId (s : State) (g : Nat) (f : Part → Part) : (s.modPart g f).nextId = s.nextId := rfl
@[simp] theorem State.modPart_svcRdy (s : State) (g : Nat) (f : Part → Part) : (s.modPart g f).svcRdy = s.svcRdy := rfl
@[simp] theorem State.modPart_rtrRdy (s : State) (g : Nat) (f : Part → Part) : (s.modPart g f).rtrRdy = s.rtrRdy := rfl
@[simp] theorem State.modPart_slRdy (s : State) (g : Nat) (f : Part → Part) : (s.modPart g f).slRdy = s.slRdy := rfl
@[simp] theorem State.modPart_chRdy (s : State) (g : Nat) (f : Part → Part) : (s.modPart g f).chRdy = s.chRdy := rfl
@[simp] theorem State.modPart_clRdy (s : State) (g : Nat) (f : Part → Part) : (s.modPart g f).clRdy = s.clRdy := rfl
@[simp] theorem State.modPart_hpRdy (s : State) (g : Nat) (f : Part → Part) : (s.modPart g f).hpRdy = s.hpRdy := rfl
@[simp] theorem State.modPart_fpRdy (s : State) (g : Nat) (f : Part → Part) : (s.modPart g f).fpRdy = s.fpRdy := rfl
@[simp] theorem State.modPart_ksRdy (s : State) (g : Nat) (f : Part → Part) : (s.modPart g f).ksRdy = s.ksRdy := rfl
@[simp] theorem State.modPart_failed (s : State) (g : Nat) (f : Part → Part) : (s.modPart g f).failed = s.failed := rfl
@[simp] theorem State.modPart_fenced (s : State) (g : Nat) (f : Part → Part) : (s.modPart g f).fenced = s.fenced := rfl
@[simp] theorem State.modPart_fencedRtr (s : State) (g : Nat) (f : Part → Part) : (s.modPart g f).fencedRtr = s.fencedRtr := rfl
@[simp] theorem State.modPart_zoneBad (s : State) (g : Nat) (f : Part → Part) : (s.modPart g f).zoneBad = s.zoneBad := rfl
@[simp] theorem State.modPart_zonecur (s : State) (g : Nat) (f : Part → Part) : (s.modPart g f).zonecur = s.zonecur := rfl
@[simp] theorem State.modPart_pkgpwr (s : State) (g : Nat) (f : Part → Part) : (s.modPart g f).pkgpwr = s.pkgpwr := rfl
@[simp] theorem State.modPart_overAt (s : State) (g : Nat) (f : Part → Part) : (s.modPart g f).overAt = s.overAt := rfl
@[simp] theorem State.modPart_mem (s : State) (g : Nat) (f : Part → Part) : (s.modPart g f).mem = s.mem := rfl
@[simp] theorem State.modPart_memPz (s : State) (g : Nat) (f : Part → Part) : (s.modPart g f).memPz = s.memPz := rfl
@[simp] theorem State.modPart_marks (s : State) (g : Nat) (f : Part → Part) : (s.modPart g f).marks = s.marks := rfl
@[simp] theorem State.modPart_own (s : State) (g : Nat) (f : Part → Part) : (s.modPart g f).own = s.own := rfl
@[simp] theorem State.modPart_areas (s : State) (g : Nat) (f : Part → Part) : (s.modPart g f).areas = s.areas := rfl
@[simp] theorem State.modPart_acqWait (s : State) (g : Nat) (f : Part → Part) : (s.modPart g f).acqWait = s.acqWait := rfl
@[simp] theorem State.modPart_slices (s : State) (g : Nat) (f : Part → Part) : (s.modPart g f).slices = s.slices := rfl
@[simp] theorem State.modPart_routers (s : State) (g : Nat) (f : Part → Part) : (s.modPart g f).routers = s.routers := rfl
@[simp] theorem State.modPart_clusters (s : State) (g : Nat) (f : Part → Part) : (s.modPart g f).clusters = s.clusters := rfl
@[simp] theorem State.modPart_incs (s : State) (g : Nat) (f : Part → Part) : (s.modPart g f).incs = s.incs := rfl
@[simp] theorem State.modPart_liveTags (s : State) (g : Nat) (f : Part → Part) : (s.modPart g f).liveTags = s.liveTags := rfl
@[simp] theorem State.modPart_leftCells (s : State) (g : Nat) (f : Part → Part) : (s.modPart g f).leftCells = s.leftCells := rfl
@[simp] theorem State.modPart_grids (s : State) (g : Nat) (f : Part → Part) : (s.modPart g f).grids = s.grids := rfl
@[simp] theorem State.modPart_crews (s : State) (g : Nat) (f : Part → Part) : (s.modPart g f).crews = s.crews := rfl
@[simp] theorem State.modPart_reqs (s : State) (g : Nat) (f : Part → Part) : (s.modPart g f).reqs = s.reqs := rfl
@[simp] theorem State.modPart_pends (s : State) (g : Nat) (f : Part → Part) : (s.modPart g f).pends = s.pends := rfl
@[simp] theorem State.modPart_toks (s : State) (g : Nat) (f : Part → Part) : (s.modPart g f).toks = s.toks := rfl
@[simp] theorem State.modPart_fab (s : State) (g : Nat) (f : Part → Part) : (s.modPart g f).fab = s.fab := rfl
@[simp] theorem State.modPart_txnHold (s : State) (g : Nat) (f : Part → Part) : (s.modPart g f).txnHold = s.txnHold := rfl
@[simp] theorem State.modPart_streamSeq (s : State) (g : Nat) (f : Part → Part) : (s.modPart g f).streamSeq = s.streamSeq := rfl
@[simp] theorem State.modPart_replays (s : State) (g : Nat) (f : Part → Part) : (s.modPart g f).replays = s.replays := rfl
@[simp] theorem State.modPart_linkKey (s : State) (g : Nat) (f : Part → Part) : (s.modPart g f).linkKey = s.linkKey := rfl
@[simp] theorem State.modPart_portDrop (s : State) (g : Nat) (f : Part → Part) : (s.modPart g f).portDrop = s.portDrop := rfl
@[simp] theorem State.modPart_portTag (s : State) (g : Nat) (f : Part → Part) : (s.modPart g f).portTag = s.portTag := rfl
@[simp] theorem State.modPart_egress (s : State) (g : Nat) (f : Part → Part) : (s.modPart g f).egress = s.egress := rfl
@[simp] theorem State.modPart_seen (s : State) (g : Nat) (f : Part → Part) : (s.modPart g f).seen = s.seen := rfl
@[simp] theorem State.modPart_windows (s : State) (g : Nat) (f : Part → Part) : (s.modPart g f).windows = s.windows := rfl
@[simp] theorem State.modPart_inbound (s : State) (g : Nat) (f : Part → Part) : (s.modPart g f).inbound = s.inbound := rfl
@[simp] theorem State.modPart_hostReqs (s : State) (g : Nat) (f : Part → Part) : (s.modPart g f).hostReqs = s.hostReqs := rfl
@[simp] theorem State.modPart_reserves (s : State) (g : Nat) (f : Part → Part) : (s.modPart g f).reserves = s.reserves := rfl
@[simp] theorem State.modPart_checks (s : State) (g : Nat) (f : Part → Part) : (s.modPart g f).checks = s.checks := rfl
@[simp] theorem State.modPart_hostOut (s : State) (g : Nat) (f : Part → Part) : (s.modPart g f).hostOut = s.hostOut := rfl
@[simp] theorem State.modPart_hostIn (s : State) (g : Nat) (f : Part → Part) : (s.modPart g f).hostIn = s.hostIn := rfl
@[simp] theorem State.modPart_msixOut (s : State) (g : Nat) (f : Part → Part) : (s.modPart g f).msixOut = s.msixOut := rfl
@[simp] theorem State.modPart_fabOut (s : State) (g : Nat) (f : Part → Part) : (s.modPart g f).fabOut = s.fabOut := rfl
@[simp] theorem State.modPart_doeOut (s : State) (g : Nat) (f : Part → Part) : (s.modPart g f).doeOut = s.doeOut := rfl
@[simp] theorem State.modPart_bar0Out (s : State) (g : Nat) (f : Part → Part) : (s.modPart g f).bar0Out = s.bar0Out := rfl
@[simp] theorem State.modPart_svcLog (s : State) (g : Nat) (f : Part → Part) : (s.modPart g f).svcLog = s.svcLog := rfl
@[simp] theorem State.modPart_mgmtOut (s : State) (g : Nat) (f : Part → Part) : (s.modPart g f).mgmtOut = s.mgmtOut := rfl
@[simp] theorem State.modPart_mr (s : State) (g : Nat) (f : Part → Part) : (s.modPart g f).mr = s.mr := rfl
@[simp] theorem State.modPart_lifecycle (s : State) (g : Nat) (f : Part → Part) : (s.modPart g f).lifecycle = s.lifecycle := rfl
@[simp] theorem State.modPart_chal (s : State) (g : Nat) (f : Part → Part) : (s.modPart g f).chal = s.chal := rfl
@[simp] theorem State.modPart_latchV (s : State) (g : Nat) (f : Part → Part) : (s.modPart g f).latchV = s.latchV := rfl
@[simp] theorem State.modPart_latchW (s : State) (g : Nat) (f : Part → Part) : (s.modPart g f).latchW = s.latchW := rfl
@[simp] theorem State.modPart_latchM (s : State) (g : Nat) (f : Part → Part) : (s.modPart g f).latchM = s.latchM := rfl
@[simp] theorem State.modPart_latched (s : State) (g : Nat) (f : Part → Part) : (s.modPart g f).latched = s.latched := rfl
@[simp] theorem State.modPart_colds (s : State) (g : Nat) (f : Part → Part) : (s.modPart g f).colds = s.colds := rfl
@[simp] theorem State.modPart_debugPort (s : State) (g : Nat) (f : Part → Part) : (s.modPart g f).debugPort = s.debugPort := rfl

/-! `State.modGrid`. -/

@[simp] theorem State.modGrid_rail (s : State) (g : Nat) (f : Grid → Grid) : (s.modGrid g f).rail = s.rail := rfl
@[simp] theorem State.modGrid_time (s : State) (g : Nat) (f : Grid → Grid) : (s.modGrid g f).time = s.time := rfl
@[simp] theorem State.modGrid_tick (s : State) (g : Nat) (f : Grid → Grid) : (s.modGrid g f).tick = s.tick := rfl
@[simp] theorem State.modGrid_turns (s : State) (g : Nat) (f : Grid → Grid) : (s.modGrid g f).turns = s.turns := rfl
@[simp] theorem State.modGrid_cur (s : State) (g : Nat) (f : Grid → Grid) : (s.modGrid g f).cur = s.cur := rfl
@[simp] theorem State.modGrid_nextId (s : State) (g : Nat) (f : Grid → Grid) : (s.modGrid g f).nextId = s.nextId := rfl
@[simp] theorem State.modGrid_svcRdy (s : State) (g : Nat) (f : Grid → Grid) : (s.modGrid g f).svcRdy = s.svcRdy := rfl
@[simp] theorem State.modGrid_rtrRdy (s : State) (g : Nat) (f : Grid → Grid) : (s.modGrid g f).rtrRdy = s.rtrRdy := rfl
@[simp] theorem State.modGrid_slRdy (s : State) (g : Nat) (f : Grid → Grid) : (s.modGrid g f).slRdy = s.slRdy := rfl
@[simp] theorem State.modGrid_chRdy (s : State) (g : Nat) (f : Grid → Grid) : (s.modGrid g f).chRdy = s.chRdy := rfl
@[simp] theorem State.modGrid_clRdy (s : State) (g : Nat) (f : Grid → Grid) : (s.modGrid g f).clRdy = s.clRdy := rfl
@[simp] theorem State.modGrid_hpRdy (s : State) (g : Nat) (f : Grid → Grid) : (s.modGrid g f).hpRdy = s.hpRdy := rfl
@[simp] theorem State.modGrid_fpRdy (s : State) (g : Nat) (f : Grid → Grid) : (s.modGrid g f).fpRdy = s.fpRdy := rfl
@[simp] theorem State.modGrid_ksRdy (s : State) (g : Nat) (f : Grid → Grid) : (s.modGrid g f).ksRdy = s.ksRdy := rfl
@[simp] theorem State.modGrid_failed (s : State) (g : Nat) (f : Grid → Grid) : (s.modGrid g f).failed = s.failed := rfl
@[simp] theorem State.modGrid_fenced (s : State) (g : Nat) (f : Grid → Grid) : (s.modGrid g f).fenced = s.fenced := rfl
@[simp] theorem State.modGrid_fencedRtr (s : State) (g : Nat) (f : Grid → Grid) : (s.modGrid g f).fencedRtr = s.fencedRtr := rfl
@[simp] theorem State.modGrid_zoneBad (s : State) (g : Nat) (f : Grid → Grid) : (s.modGrid g f).zoneBad = s.zoneBad := rfl
@[simp] theorem State.modGrid_zonecur (s : State) (g : Nat) (f : Grid → Grid) : (s.modGrid g f).zonecur = s.zonecur := rfl
@[simp] theorem State.modGrid_pkgpwr (s : State) (g : Nat) (f : Grid → Grid) : (s.modGrid g f).pkgpwr = s.pkgpwr := rfl
@[simp] theorem State.modGrid_overAt (s : State) (g : Nat) (f : Grid → Grid) : (s.modGrid g f).overAt = s.overAt := rfl
@[simp] theorem State.modGrid_mem (s : State) (g : Nat) (f : Grid → Grid) : (s.modGrid g f).mem = s.mem := rfl
@[simp] theorem State.modGrid_memPz (s : State) (g : Nat) (f : Grid → Grid) : (s.modGrid g f).memPz = s.memPz := rfl
@[simp] theorem State.modGrid_marks (s : State) (g : Nat) (f : Grid → Grid) : (s.modGrid g f).marks = s.marks := rfl
@[simp] theorem State.modGrid_own (s : State) (g : Nat) (f : Grid → Grid) : (s.modGrid g f).own = s.own := rfl
@[simp] theorem State.modGrid_areas (s : State) (g : Nat) (f : Grid → Grid) : (s.modGrid g f).areas = s.areas := rfl
@[simp] theorem State.modGrid_acqWait (s : State) (g : Nat) (f : Grid → Grid) : (s.modGrid g f).acqWait = s.acqWait := rfl
@[simp] theorem State.modGrid_slices (s : State) (g : Nat) (f : Grid → Grid) : (s.modGrid g f).slices = s.slices := rfl
@[simp] theorem State.modGrid_routers (s : State) (g : Nat) (f : Grid → Grid) : (s.modGrid g f).routers = s.routers := rfl
@[simp] theorem State.modGrid_clusters (s : State) (g : Nat) (f : Grid → Grid) : (s.modGrid g f).clusters = s.clusters := rfl
@[simp] theorem State.modGrid_parts (s : State) (g : Nat) (f : Grid → Grid) : (s.modGrid g f).parts = s.parts := rfl
@[simp] theorem State.modGrid_incs (s : State) (g : Nat) (f : Grid → Grid) : (s.modGrid g f).incs = s.incs := rfl
@[simp] theorem State.modGrid_liveTags (s : State) (g : Nat) (f : Grid → Grid) : (s.modGrid g f).liveTags = s.liveTags := rfl
@[simp] theorem State.modGrid_leftCells (s : State) (g : Nat) (f : Grid → Grid) : (s.modGrid g f).leftCells = s.leftCells := rfl
@[simp] theorem State.modGrid_crews (s : State) (g : Nat) (f : Grid → Grid) : (s.modGrid g f).crews = s.crews := rfl
@[simp] theorem State.modGrid_reqs (s : State) (g : Nat) (f : Grid → Grid) : (s.modGrid g f).reqs = s.reqs := rfl
@[simp] theorem State.modGrid_pends (s : State) (g : Nat) (f : Grid → Grid) : (s.modGrid g f).pends = s.pends := rfl
@[simp] theorem State.modGrid_toks (s : State) (g : Nat) (f : Grid → Grid) : (s.modGrid g f).toks = s.toks := rfl
@[simp] theorem State.modGrid_fab (s : State) (g : Nat) (f : Grid → Grid) : (s.modGrid g f).fab = s.fab := rfl
@[simp] theorem State.modGrid_txnHold (s : State) (g : Nat) (f : Grid → Grid) : (s.modGrid g f).txnHold = s.txnHold := rfl
@[simp] theorem State.modGrid_streamSeq (s : State) (g : Nat) (f : Grid → Grid) : (s.modGrid g f).streamSeq = s.streamSeq := rfl
@[simp] theorem State.modGrid_replays (s : State) (g : Nat) (f : Grid → Grid) : (s.modGrid g f).replays = s.replays := rfl
@[simp] theorem State.modGrid_linkKey (s : State) (g : Nat) (f : Grid → Grid) : (s.modGrid g f).linkKey = s.linkKey := rfl
@[simp] theorem State.modGrid_portDrop (s : State) (g : Nat) (f : Grid → Grid) : (s.modGrid g f).portDrop = s.portDrop := rfl
@[simp] theorem State.modGrid_portTag (s : State) (g : Nat) (f : Grid → Grid) : (s.modGrid g f).portTag = s.portTag := rfl
@[simp] theorem State.modGrid_egress (s : State) (g : Nat) (f : Grid → Grid) : (s.modGrid g f).egress = s.egress := rfl
@[simp] theorem State.modGrid_seen (s : State) (g : Nat) (f : Grid → Grid) : (s.modGrid g f).seen = s.seen := rfl
@[simp] theorem State.modGrid_windows (s : State) (g : Nat) (f : Grid → Grid) : (s.modGrid g f).windows = s.windows := rfl
@[simp] theorem State.modGrid_inbound (s : State) (g : Nat) (f : Grid → Grid) : (s.modGrid g f).inbound = s.inbound := rfl
@[simp] theorem State.modGrid_hostReqs (s : State) (g : Nat) (f : Grid → Grid) : (s.modGrid g f).hostReqs = s.hostReqs := rfl
@[simp] theorem State.modGrid_reserves (s : State) (g : Nat) (f : Grid → Grid) : (s.modGrid g f).reserves = s.reserves := rfl
@[simp] theorem State.modGrid_checks (s : State) (g : Nat) (f : Grid → Grid) : (s.modGrid g f).checks = s.checks := rfl
@[simp] theorem State.modGrid_hostOut (s : State) (g : Nat) (f : Grid → Grid) : (s.modGrid g f).hostOut = s.hostOut := rfl
@[simp] theorem State.modGrid_hostIn (s : State) (g : Nat) (f : Grid → Grid) : (s.modGrid g f).hostIn = s.hostIn := rfl
@[simp] theorem State.modGrid_msixOut (s : State) (g : Nat) (f : Grid → Grid) : (s.modGrid g f).msixOut = s.msixOut := rfl
@[simp] theorem State.modGrid_fabOut (s : State) (g : Nat) (f : Grid → Grid) : (s.modGrid g f).fabOut = s.fabOut := rfl
@[simp] theorem State.modGrid_doeOut (s : State) (g : Nat) (f : Grid → Grid) : (s.modGrid g f).doeOut = s.doeOut := rfl
@[simp] theorem State.modGrid_bar0Out (s : State) (g : Nat) (f : Grid → Grid) : (s.modGrid g f).bar0Out = s.bar0Out := rfl
@[simp] theorem State.modGrid_svcLog (s : State) (g : Nat) (f : Grid → Grid) : (s.modGrid g f).svcLog = s.svcLog := rfl
@[simp] theorem State.modGrid_mgmtOut (s : State) (g : Nat) (f : Grid → Grid) : (s.modGrid g f).mgmtOut = s.mgmtOut := rfl
@[simp] theorem State.modGrid_mr (s : State) (g : Nat) (f : Grid → Grid) : (s.modGrid g f).mr = s.mr := rfl
@[simp] theorem State.modGrid_lifecycle (s : State) (g : Nat) (f : Grid → Grid) : (s.modGrid g f).lifecycle = s.lifecycle := rfl
@[simp] theorem State.modGrid_chal (s : State) (g : Nat) (f : Grid → Grid) : (s.modGrid g f).chal = s.chal := rfl
@[simp] theorem State.modGrid_latchV (s : State) (g : Nat) (f : Grid → Grid) : (s.modGrid g f).latchV = s.latchV := rfl
@[simp] theorem State.modGrid_latchW (s : State) (g : Nat) (f : Grid → Grid) : (s.modGrid g f).latchW = s.latchW := rfl
@[simp] theorem State.modGrid_latchM (s : State) (g : Nat) (f : Grid → Grid) : (s.modGrid g f).latchM = s.latchM := rfl
@[simp] theorem State.modGrid_latched (s : State) (g : Nat) (f : Grid → Grid) : (s.modGrid g f).latched = s.latched := rfl
@[simp] theorem State.modGrid_colds (s : State) (g : Nat) (f : Grid → Grid) : (s.modGrid g f).colds = s.colds := rfl
@[simp] theorem State.modGrid_debugPort (s : State) (g : Nat) (f : Grid → Grid) : (s.modGrid g f).debugPort = s.debugPort := rfl

/-! `State.fresh`. -/

@[simp] theorem State.fresh_rail (s : State) : (s.fresh).rail = s.rail := rfl
@[simp] theorem State.fresh_time (s : State) : (s.fresh).time = s.time := rfl
@[simp] theorem State.fresh_tick (s : State) : (s.fresh).tick = s.tick := rfl
@[simp] theorem State.fresh_turns (s : State) : (s.fresh).turns = s.turns := rfl
@[simp] theorem State.fresh_cur (s : State) : (s.fresh).cur = s.cur := rfl
@[simp] theorem State.fresh_svcRdy (s : State) : (s.fresh).svcRdy = s.svcRdy := rfl
@[simp] theorem State.fresh_rtrRdy (s : State) : (s.fresh).rtrRdy = s.rtrRdy := rfl
@[simp] theorem State.fresh_slRdy (s : State) : (s.fresh).slRdy = s.slRdy := rfl
@[simp] theorem State.fresh_chRdy (s : State) : (s.fresh).chRdy = s.chRdy := rfl
@[simp] theorem State.fresh_clRdy (s : State) : (s.fresh).clRdy = s.clRdy := rfl
@[simp] theorem State.fresh_hpRdy (s : State) : (s.fresh).hpRdy = s.hpRdy := rfl
@[simp] theorem State.fresh_fpRdy (s : State) : (s.fresh).fpRdy = s.fpRdy := rfl
@[simp] theorem State.fresh_ksRdy (s : State) : (s.fresh).ksRdy = s.ksRdy := rfl
@[simp] theorem State.fresh_failed (s : State) : (s.fresh).failed = s.failed := rfl
@[simp] theorem State.fresh_fenced (s : State) : (s.fresh).fenced = s.fenced := rfl
@[simp] theorem State.fresh_fencedRtr (s : State) : (s.fresh).fencedRtr = s.fencedRtr := rfl
@[simp] theorem State.fresh_zoneBad (s : State) : (s.fresh).zoneBad = s.zoneBad := rfl
@[simp] theorem State.fresh_zonecur (s : State) : (s.fresh).zonecur = s.zonecur := rfl
@[simp] theorem State.fresh_pkgpwr (s : State) : (s.fresh).pkgpwr = s.pkgpwr := rfl
@[simp] theorem State.fresh_overAt (s : State) : (s.fresh).overAt = s.overAt := rfl
@[simp] theorem State.fresh_mem (s : State) : (s.fresh).mem = s.mem := rfl
@[simp] theorem State.fresh_memPz (s : State) : (s.fresh).memPz = s.memPz := rfl
@[simp] theorem State.fresh_marks (s : State) : (s.fresh).marks = s.marks := rfl
@[simp] theorem State.fresh_own (s : State) : (s.fresh).own = s.own := rfl
@[simp] theorem State.fresh_areas (s : State) : (s.fresh).areas = s.areas := rfl
@[simp] theorem State.fresh_acqWait (s : State) : (s.fresh).acqWait = s.acqWait := rfl
@[simp] theorem State.fresh_slices (s : State) : (s.fresh).slices = s.slices := rfl
@[simp] theorem State.fresh_routers (s : State) : (s.fresh).routers = s.routers := rfl
@[simp] theorem State.fresh_clusters (s : State) : (s.fresh).clusters = s.clusters := rfl
@[simp] theorem State.fresh_parts (s : State) : (s.fresh).parts = s.parts := rfl
@[simp] theorem State.fresh_incs (s : State) : (s.fresh).incs = s.incs := rfl
@[simp] theorem State.fresh_liveTags (s : State) : (s.fresh).liveTags = s.liveTags := rfl
@[simp] theorem State.fresh_leftCells (s : State) : (s.fresh).leftCells = s.leftCells := rfl
@[simp] theorem State.fresh_grids (s : State) : (s.fresh).grids = s.grids := rfl
@[simp] theorem State.fresh_crews (s : State) : (s.fresh).crews = s.crews := rfl
@[simp] theorem State.fresh_reqs (s : State) : (s.fresh).reqs = s.reqs := rfl
@[simp] theorem State.fresh_pends (s : State) : (s.fresh).pends = s.pends := rfl
@[simp] theorem State.fresh_toks (s : State) : (s.fresh).toks = s.toks := rfl
@[simp] theorem State.fresh_fab (s : State) : (s.fresh).fab = s.fab := rfl
@[simp] theorem State.fresh_txnHold (s : State) : (s.fresh).txnHold = s.txnHold := rfl
@[simp] theorem State.fresh_streamSeq (s : State) : (s.fresh).streamSeq = s.streamSeq := rfl
@[simp] theorem State.fresh_replays (s : State) : (s.fresh).replays = s.replays := rfl
@[simp] theorem State.fresh_linkKey (s : State) : (s.fresh).linkKey = s.linkKey := rfl
@[simp] theorem State.fresh_portDrop (s : State) : (s.fresh).portDrop = s.portDrop := rfl
@[simp] theorem State.fresh_portTag (s : State) : (s.fresh).portTag = s.portTag := rfl
@[simp] theorem State.fresh_egress (s : State) : (s.fresh).egress = s.egress := rfl
@[simp] theorem State.fresh_seen (s : State) : (s.fresh).seen = s.seen := rfl
@[simp] theorem State.fresh_windows (s : State) : (s.fresh).windows = s.windows := rfl
@[simp] theorem State.fresh_inbound (s : State) : (s.fresh).inbound = s.inbound := rfl
@[simp] theorem State.fresh_hostReqs (s : State) : (s.fresh).hostReqs = s.hostReqs := rfl
@[simp] theorem State.fresh_reserves (s : State) : (s.fresh).reserves = s.reserves := rfl
@[simp] theorem State.fresh_checks (s : State) : (s.fresh).checks = s.checks := rfl
@[simp] theorem State.fresh_hostOut (s : State) : (s.fresh).hostOut = s.hostOut := rfl
@[simp] theorem State.fresh_hostIn (s : State) : (s.fresh).hostIn = s.hostIn := rfl
@[simp] theorem State.fresh_msixOut (s : State) : (s.fresh).msixOut = s.msixOut := rfl
@[simp] theorem State.fresh_fabOut (s : State) : (s.fresh).fabOut = s.fabOut := rfl
@[simp] theorem State.fresh_doeOut (s : State) : (s.fresh).doeOut = s.doeOut := rfl
@[simp] theorem State.fresh_bar0Out (s : State) : (s.fresh).bar0Out = s.bar0Out := rfl
@[simp] theorem State.fresh_svcLog (s : State) : (s.fresh).svcLog = s.svcLog := rfl
@[simp] theorem State.fresh_mgmtOut (s : State) : (s.fresh).mgmtOut = s.mgmtOut := rfl
@[simp] theorem State.fresh_mr (s : State) : (s.fresh).mr = s.mr := rfl
@[simp] theorem State.fresh_lifecycle (s : State) : (s.fresh).lifecycle = s.lifecycle := rfl
@[simp] theorem State.fresh_chal (s : State) : (s.fresh).chal = s.chal := rfl
@[simp] theorem State.fresh_latchV (s : State) : (s.fresh).latchV = s.latchV := rfl
@[simp] theorem State.fresh_latchW (s : State) : (s.fresh).latchW = s.latchW := rfl
@[simp] theorem State.fresh_latchM (s : State) : (s.fresh).latchM = s.latchM := rfl
@[simp] theorem State.fresh_latched (s : State) : (s.fresh).latched = s.latched := rfl
@[simp] theorem State.fresh_colds (s : State) : (s.fresh).colds = s.colds := rfl
@[simp] theorem State.fresh_debugPort (s : State) : (s.fresh).debugPort = s.debugPort := rfl

/-! `State.writeBytes`. -/

@[simp] theorem State.writeBytes_rail (s : State) (a : Nat) (d : List Byte) (p : Bool) : (s.writeBytes a d p).rail = s.rail := rfl
@[simp] theorem State.writeBytes_time (s : State) (a : Nat) (d : List Byte) (p : Bool) : (s.writeBytes a d p).time = s.time := rfl
@[simp] theorem State.writeBytes_tick (s : State) (a : Nat) (d : List Byte) (p : Bool) : (s.writeBytes a d p).tick = s.tick := rfl
@[simp] theorem State.writeBytes_turns (s : State) (a : Nat) (d : List Byte) (p : Bool) : (s.writeBytes a d p).turns = s.turns := rfl
@[simp] theorem State.writeBytes_cur (s : State) (a : Nat) (d : List Byte) (p : Bool) : (s.writeBytes a d p).cur = s.cur := rfl
@[simp] theorem State.writeBytes_nextId (s : State) (a : Nat) (d : List Byte) (p : Bool) : (s.writeBytes a d p).nextId = s.nextId := rfl
@[simp] theorem State.writeBytes_svcRdy (s : State) (a : Nat) (d : List Byte) (p : Bool) : (s.writeBytes a d p).svcRdy = s.svcRdy := rfl
@[simp] theorem State.writeBytes_rtrRdy (s : State) (a : Nat) (d : List Byte) (p : Bool) : (s.writeBytes a d p).rtrRdy = s.rtrRdy := rfl
@[simp] theorem State.writeBytes_slRdy (s : State) (a : Nat) (d : List Byte) (p : Bool) : (s.writeBytes a d p).slRdy = s.slRdy := rfl
@[simp] theorem State.writeBytes_chRdy (s : State) (a : Nat) (d : List Byte) (p : Bool) : (s.writeBytes a d p).chRdy = s.chRdy := rfl
@[simp] theorem State.writeBytes_clRdy (s : State) (a : Nat) (d : List Byte) (p : Bool) : (s.writeBytes a d p).clRdy = s.clRdy := rfl
@[simp] theorem State.writeBytes_hpRdy (s : State) (a : Nat) (d : List Byte) (p : Bool) : (s.writeBytes a d p).hpRdy = s.hpRdy := rfl
@[simp] theorem State.writeBytes_fpRdy (s : State) (a : Nat) (d : List Byte) (p : Bool) : (s.writeBytes a d p).fpRdy = s.fpRdy := rfl
@[simp] theorem State.writeBytes_ksRdy (s : State) (a : Nat) (d : List Byte) (p : Bool) : (s.writeBytes a d p).ksRdy = s.ksRdy := rfl
@[simp] theorem State.writeBytes_failed (s : State) (a : Nat) (d : List Byte) (p : Bool) : (s.writeBytes a d p).failed = s.failed := rfl
@[simp] theorem State.writeBytes_fenced (s : State) (a : Nat) (d : List Byte) (p : Bool) : (s.writeBytes a d p).fenced = s.fenced := rfl
@[simp] theorem State.writeBytes_fencedRtr (s : State) (a : Nat) (d : List Byte) (p : Bool) : (s.writeBytes a d p).fencedRtr = s.fencedRtr := rfl
@[simp] theorem State.writeBytes_zoneBad (s : State) (a : Nat) (d : List Byte) (p : Bool) : (s.writeBytes a d p).zoneBad = s.zoneBad := rfl
@[simp] theorem State.writeBytes_zonecur (s : State) (a : Nat) (d : List Byte) (p : Bool) : (s.writeBytes a d p).zonecur = s.zonecur := rfl
@[simp] theorem State.writeBytes_pkgpwr (s : State) (a : Nat) (d : List Byte) (p : Bool) : (s.writeBytes a d p).pkgpwr = s.pkgpwr := rfl
@[simp] theorem State.writeBytes_overAt (s : State) (a : Nat) (d : List Byte) (p : Bool) : (s.writeBytes a d p).overAt = s.overAt := rfl
@[simp] theorem State.writeBytes_marks (s : State) (a : Nat) (d : List Byte) (p : Bool) : (s.writeBytes a d p).marks = s.marks := rfl
@[simp] theorem State.writeBytes_own (s : State) (a : Nat) (d : List Byte) (p : Bool) : (s.writeBytes a d p).own = s.own := rfl
@[simp] theorem State.writeBytes_areas (s : State) (a : Nat) (d : List Byte) (p : Bool) : (s.writeBytes a d p).areas = s.areas := rfl
@[simp] theorem State.writeBytes_acqWait (s : State) (a : Nat) (d : List Byte) (p : Bool) : (s.writeBytes a d p).acqWait = s.acqWait := rfl
@[simp] theorem State.writeBytes_slices (s : State) (a : Nat) (d : List Byte) (p : Bool) : (s.writeBytes a d p).slices = s.slices := rfl
@[simp] theorem State.writeBytes_routers (s : State) (a : Nat) (d : List Byte) (p : Bool) : (s.writeBytes a d p).routers = s.routers := rfl
@[simp] theorem State.writeBytes_clusters (s : State) (a : Nat) (d : List Byte) (p : Bool) : (s.writeBytes a d p).clusters = s.clusters := rfl
@[simp] theorem State.writeBytes_parts (s : State) (a : Nat) (d : List Byte) (p : Bool) : (s.writeBytes a d p).parts = s.parts := rfl
@[simp] theorem State.writeBytes_incs (s : State) (a : Nat) (d : List Byte) (p : Bool) : (s.writeBytes a d p).incs = s.incs := rfl
@[simp] theorem State.writeBytes_liveTags (s : State) (a : Nat) (d : List Byte) (p : Bool) : (s.writeBytes a d p).liveTags = s.liveTags := rfl
@[simp] theorem State.writeBytes_leftCells (s : State) (a : Nat) (d : List Byte) (p : Bool) : (s.writeBytes a d p).leftCells = s.leftCells := rfl
@[simp] theorem State.writeBytes_grids (s : State) (a : Nat) (d : List Byte) (p : Bool) : (s.writeBytes a d p).grids = s.grids := rfl
@[simp] theorem State.writeBytes_crews (s : State) (a : Nat) (d : List Byte) (p : Bool) : (s.writeBytes a d p).crews = s.crews := rfl
@[simp] theorem State.writeBytes_reqs (s : State) (a : Nat) (d : List Byte) (p : Bool) : (s.writeBytes a d p).reqs = s.reqs := rfl
@[simp] theorem State.writeBytes_pends (s : State) (a : Nat) (d : List Byte) (p : Bool) : (s.writeBytes a d p).pends = s.pends := rfl
@[simp] theorem State.writeBytes_toks (s : State) (a : Nat) (d : List Byte) (p : Bool) : (s.writeBytes a d p).toks = s.toks := rfl
@[simp] theorem State.writeBytes_fab (s : State) (a : Nat) (d : List Byte) (p : Bool) : (s.writeBytes a d p).fab = s.fab := rfl
@[simp] theorem State.writeBytes_txnHold (s : State) (a : Nat) (d : List Byte) (p : Bool) : (s.writeBytes a d p).txnHold = s.txnHold := rfl
@[simp] theorem State.writeBytes_streamSeq (s : State) (a : Nat) (d : List Byte) (p : Bool) : (s.writeBytes a d p).streamSeq = s.streamSeq := rfl
@[simp] theorem State.writeBytes_replays (s : State) (a : Nat) (d : List Byte) (p : Bool) : (s.writeBytes a d p).replays = s.replays := rfl
@[simp] theorem State.writeBytes_linkKey (s : State) (a : Nat) (d : List Byte) (p : Bool) : (s.writeBytes a d p).linkKey = s.linkKey := rfl
@[simp] theorem State.writeBytes_portDrop (s : State) (a : Nat) (d : List Byte) (p : Bool) : (s.writeBytes a d p).portDrop = s.portDrop := rfl
@[simp] theorem State.writeBytes_portTag (s : State) (a : Nat) (d : List Byte) (p : Bool) : (s.writeBytes a d p).portTag = s.portTag := rfl
@[simp] theorem State.writeBytes_egress (s : State) (a : Nat) (d : List Byte) (p : Bool) : (s.writeBytes a d p).egress = s.egress := rfl
@[simp] theorem State.writeBytes_seen (s : State) (a : Nat) (d : List Byte) (p : Bool) : (s.writeBytes a d p).seen = s.seen := rfl
@[simp] theorem State.writeBytes_windows (s : State) (a : Nat) (d : List Byte) (p : Bool) : (s.writeBytes a d p).windows = s.windows := rfl
@[simp] theorem State.writeBytes_inbound (s : State) (a : Nat) (d : List Byte) (p : Bool) : (s.writeBytes a d p).inbound = s.inbound := rfl
@[simp] theorem State.writeBytes_hostReqs (s : State) (a : Nat) (d : List Byte) (p : Bool) : (s.writeBytes a d p).hostReqs = s.hostReqs := rfl
@[simp] theorem State.writeBytes_reserves (s : State) (a : Nat) (d : List Byte) (p : Bool) : (s.writeBytes a d p).reserves = s.reserves := rfl
@[simp] theorem State.writeBytes_checks (s : State) (a : Nat) (d : List Byte) (p : Bool) : (s.writeBytes a d p).checks = s.checks := rfl
@[simp] theorem State.writeBytes_hostOut (s : State) (a : Nat) (d : List Byte) (p : Bool) : (s.writeBytes a d p).hostOut = s.hostOut := rfl
@[simp] theorem State.writeBytes_hostIn (s : State) (a : Nat) (d : List Byte) (p : Bool) : (s.writeBytes a d p).hostIn = s.hostIn := rfl
@[simp] theorem State.writeBytes_msixOut (s : State) (a : Nat) (d : List Byte) (p : Bool) : (s.writeBytes a d p).msixOut = s.msixOut := rfl
@[simp] theorem State.writeBytes_fabOut (s : State) (a : Nat) (d : List Byte) (p : Bool) : (s.writeBytes a d p).fabOut = s.fabOut := rfl
@[simp] theorem State.writeBytes_doeOut (s : State) (a : Nat) (d : List Byte) (p : Bool) : (s.writeBytes a d p).doeOut = s.doeOut := rfl
@[simp] theorem State.writeBytes_bar0Out (s : State) (a : Nat) (d : List Byte) (p : Bool) : (s.writeBytes a d p).bar0Out = s.bar0Out := rfl
@[simp] theorem State.writeBytes_svcLog (s : State) (a : Nat) (d : List Byte) (p : Bool) : (s.writeBytes a d p).svcLog = s.svcLog := rfl
@[simp] theorem State.writeBytes_mgmtOut (s : State) (a : Nat) (d : List Byte) (p : Bool) : (s.writeBytes a d p).mgmtOut = s.mgmtOut := rfl
@[simp] theorem State.writeBytes_mr (s : State) (a : Nat) (d : List Byte) (p : Bool) : (s.writeBytes a d p).mr = s.mr := rfl
@[simp] theorem State.writeBytes_lifecycle (s : State) (a : Nat) (d : List Byte) (p : Bool) : (s.writeBytes a d p).lifecycle = s.lifecycle := rfl
@[simp] theorem State.writeBytes_chal (s : State) (a : Nat) (d : List Byte) (p : Bool) : (s.writeBytes a d p).chal = s.chal := rfl
@[simp] theorem State.writeBytes_latchV (s : State) (a : Nat) (d : List Byte) (p : Bool) : (s.writeBytes a d p).latchV = s.latchV := rfl
@[simp] theorem State.writeBytes_latchW (s : State) (a : Nat) (d : List Byte) (p : Bool) : (s.writeBytes a d p).latchW = s.latchW := rfl
@[simp] theorem State.writeBytes_latchM (s : State) (a : Nat) (d : List Byte) (p : Bool) : (s.writeBytes a d p).latchM = s.latchM := rfl
@[simp] theorem State.writeBytes_latched (s : State) (a : Nat) (d : List Byte) (p : Bool) : (s.writeBytes a d p).latched = s.latched := rfl
@[simp] theorem State.writeBytes_colds (s : State) (a : Nat) (d : List Byte) (p : Bool) : (s.writeBytes a d p).colds = s.colds := rfl
@[simp] theorem State.writeBytes_debugPort (s : State) (a : Nat) (d : List Byte) (p : Bool) : (s.writeBytes a d p).debugPort = s.debugPort := rfl

/-! `State.setWord64`. -/

@[simp] theorem State.setWord64_rail (s : State) (a : Nat) (w : W64) : (s.setWord64 a w).rail = s.rail := rfl
@[simp] theorem State.setWord64_time (s : State) (a : Nat) (w : W64) : (s.setWord64 a w).time = s.time := rfl
@[simp] theorem State.setWord64_tick (s : State) (a : Nat) (w : W64) : (s.setWord64 a w).tick = s.tick := rfl
@[simp] theorem State.setWord64_turns (s : State) (a : Nat) (w : W64) : (s.setWord64 a w).turns = s.turns := rfl
@[simp] theorem State.setWord64_cur (s : State) (a : Nat) (w : W64) : (s.setWord64 a w).cur = s.cur := rfl
@[simp] theorem State.setWord64_nextId (s : State) (a : Nat) (w : W64) : (s.setWord64 a w).nextId = s.nextId := rfl
@[simp] theorem State.setWord64_svcRdy (s : State) (a : Nat) (w : W64) : (s.setWord64 a w).svcRdy = s.svcRdy := rfl
@[simp] theorem State.setWord64_rtrRdy (s : State) (a : Nat) (w : W64) : (s.setWord64 a w).rtrRdy = s.rtrRdy := rfl
@[simp] theorem State.setWord64_slRdy (s : State) (a : Nat) (w : W64) : (s.setWord64 a w).slRdy = s.slRdy := rfl
@[simp] theorem State.setWord64_chRdy (s : State) (a : Nat) (w : W64) : (s.setWord64 a w).chRdy = s.chRdy := rfl
@[simp] theorem State.setWord64_clRdy (s : State) (a : Nat) (w : W64) : (s.setWord64 a w).clRdy = s.clRdy := rfl
@[simp] theorem State.setWord64_hpRdy (s : State) (a : Nat) (w : W64) : (s.setWord64 a w).hpRdy = s.hpRdy := rfl
@[simp] theorem State.setWord64_fpRdy (s : State) (a : Nat) (w : W64) : (s.setWord64 a w).fpRdy = s.fpRdy := rfl
@[simp] theorem State.setWord64_ksRdy (s : State) (a : Nat) (w : W64) : (s.setWord64 a w).ksRdy = s.ksRdy := rfl
@[simp] theorem State.setWord64_failed (s : State) (a : Nat) (w : W64) : (s.setWord64 a w).failed = s.failed := rfl
@[simp] theorem State.setWord64_fenced (s : State) (a : Nat) (w : W64) : (s.setWord64 a w).fenced = s.fenced := rfl
@[simp] theorem State.setWord64_fencedRtr (s : State) (a : Nat) (w : W64) : (s.setWord64 a w).fencedRtr = s.fencedRtr := rfl
@[simp] theorem State.setWord64_zoneBad (s : State) (a : Nat) (w : W64) : (s.setWord64 a w).zoneBad = s.zoneBad := rfl
@[simp] theorem State.setWord64_zonecur (s : State) (a : Nat) (w : W64) : (s.setWord64 a w).zonecur = s.zonecur := rfl
@[simp] theorem State.setWord64_pkgpwr (s : State) (a : Nat) (w : W64) : (s.setWord64 a w).pkgpwr = s.pkgpwr := rfl
@[simp] theorem State.setWord64_overAt (s : State) (a : Nat) (w : W64) : (s.setWord64 a w).overAt = s.overAt := rfl
@[simp] theorem State.setWord64_marks (s : State) (a : Nat) (w : W64) : (s.setWord64 a w).marks = s.marks := rfl
@[simp] theorem State.setWord64_own (s : State) (a : Nat) (w : W64) : (s.setWord64 a w).own = s.own := rfl
@[simp] theorem State.setWord64_areas (s : State) (a : Nat) (w : W64) : (s.setWord64 a w).areas = s.areas := rfl
@[simp] theorem State.setWord64_acqWait (s : State) (a : Nat) (w : W64) : (s.setWord64 a w).acqWait = s.acqWait := rfl
@[simp] theorem State.setWord64_slices (s : State) (a : Nat) (w : W64) : (s.setWord64 a w).slices = s.slices := rfl
@[simp] theorem State.setWord64_routers (s : State) (a : Nat) (w : W64) : (s.setWord64 a w).routers = s.routers := rfl
@[simp] theorem State.setWord64_clusters (s : State) (a : Nat) (w : W64) : (s.setWord64 a w).clusters = s.clusters := rfl
@[simp] theorem State.setWord64_parts (s : State) (a : Nat) (w : W64) : (s.setWord64 a w).parts = s.parts := rfl
@[simp] theorem State.setWord64_incs (s : State) (a : Nat) (w : W64) : (s.setWord64 a w).incs = s.incs := rfl
@[simp] theorem State.setWord64_liveTags (s : State) (a : Nat) (w : W64) : (s.setWord64 a w).liveTags = s.liveTags := rfl
@[simp] theorem State.setWord64_leftCells (s : State) (a : Nat) (w : W64) : (s.setWord64 a w).leftCells = s.leftCells := rfl
@[simp] theorem State.setWord64_grids (s : State) (a : Nat) (w : W64) : (s.setWord64 a w).grids = s.grids := rfl
@[simp] theorem State.setWord64_crews (s : State) (a : Nat) (w : W64) : (s.setWord64 a w).crews = s.crews := rfl
@[simp] theorem State.setWord64_reqs (s : State) (a : Nat) (w : W64) : (s.setWord64 a w).reqs = s.reqs := rfl
@[simp] theorem State.setWord64_pends (s : State) (a : Nat) (w : W64) : (s.setWord64 a w).pends = s.pends := rfl
@[simp] theorem State.setWord64_toks (s : State) (a : Nat) (w : W64) : (s.setWord64 a w).toks = s.toks := rfl
@[simp] theorem State.setWord64_fab (s : State) (a : Nat) (w : W64) : (s.setWord64 a w).fab = s.fab := rfl
@[simp] theorem State.setWord64_txnHold (s : State) (a : Nat) (w : W64) : (s.setWord64 a w).txnHold = s.txnHold := rfl
@[simp] theorem State.setWord64_streamSeq (s : State) (a : Nat) (w : W64) : (s.setWord64 a w).streamSeq = s.streamSeq := rfl
@[simp] theorem State.setWord64_replays (s : State) (a : Nat) (w : W64) : (s.setWord64 a w).replays = s.replays := rfl
@[simp] theorem State.setWord64_linkKey (s : State) (a : Nat) (w : W64) : (s.setWord64 a w).linkKey = s.linkKey := rfl
@[simp] theorem State.setWord64_portDrop (s : State) (a : Nat) (w : W64) : (s.setWord64 a w).portDrop = s.portDrop := rfl
@[simp] theorem State.setWord64_portTag (s : State) (a : Nat) (w : W64) : (s.setWord64 a w).portTag = s.portTag := rfl
@[simp] theorem State.setWord64_egress (s : State) (a : Nat) (w : W64) : (s.setWord64 a w).egress = s.egress := rfl
@[simp] theorem State.setWord64_seen (s : State) (a : Nat) (w : W64) : (s.setWord64 a w).seen = s.seen := rfl
@[simp] theorem State.setWord64_windows (s : State) (a : Nat) (w : W64) : (s.setWord64 a w).windows = s.windows := rfl
@[simp] theorem State.setWord64_inbound (s : State) (a : Nat) (w : W64) : (s.setWord64 a w).inbound = s.inbound := rfl
@[simp] theorem State.setWord64_hostReqs (s : State) (a : Nat) (w : W64) : (s.setWord64 a w).hostReqs = s.hostReqs := rfl
@[simp] theorem State.setWord64_reserves (s : State) (a : Nat) (w : W64) : (s.setWord64 a w).reserves = s.reserves := rfl
@[simp] theorem State.setWord64_checks (s : State) (a : Nat) (w : W64) : (s.setWord64 a w).checks = s.checks := rfl
@[simp] theorem State.setWord64_hostOut (s : State) (a : Nat) (w : W64) : (s.setWord64 a w).hostOut = s.hostOut := rfl
@[simp] theorem State.setWord64_hostIn (s : State) (a : Nat) (w : W64) : (s.setWord64 a w).hostIn = s.hostIn := rfl
@[simp] theorem State.setWord64_msixOut (s : State) (a : Nat) (w : W64) : (s.setWord64 a w).msixOut = s.msixOut := rfl
@[simp] theorem State.setWord64_fabOut (s : State) (a : Nat) (w : W64) : (s.setWord64 a w).fabOut = s.fabOut := rfl
@[simp] theorem State.setWord64_doeOut (s : State) (a : Nat) (w : W64) : (s.setWord64 a w).doeOut = s.doeOut := rfl
@[simp] theorem State.setWord64_bar0Out (s : State) (a : Nat) (w : W64) : (s.setWord64 a w).bar0Out = s.bar0Out := rfl
@[simp] theorem State.setWord64_svcLog (s : State) (a : Nat) (w : W64) : (s.setWord64 a w).svcLog = s.svcLog := rfl
@[simp] theorem State.setWord64_mgmtOut (s : State) (a : Nat) (w : W64) : (s.setWord64 a w).mgmtOut = s.mgmtOut := rfl
@[simp] theorem State.setWord64_mr (s : State) (a : Nat) (w : W64) : (s.setWord64 a w).mr = s.mr := rfl
@[simp] theorem State.setWord64_lifecycle (s : State) (a : Nat) (w : W64) : (s.setWord64 a w).lifecycle = s.lifecycle := rfl
@[simp] theorem State.setWord64_chal (s : State) (a : Nat) (w : W64) : (s.setWord64 a w).chal = s.chal := rfl
@[simp] theorem State.setWord64_latchV (s : State) (a : Nat) (w : W64) : (s.setWord64 a w).latchV = s.latchV := rfl
@[simp] theorem State.setWord64_latchW (s : State) (a : Nat) (w : W64) : (s.setWord64 a w).latchW = s.latchW := rfl
@[simp] theorem State.setWord64_latchM (s : State) (a : Nat) (w : W64) : (s.setWord64 a w).latchM = s.latchM := rfl
@[simp] theorem State.setWord64_latched (s : State) (a : Nat) (w : W64) : (s.setWord64 a w).latched = s.latched := rfl
@[simp] theorem State.setWord64_colds (s : State) (a : Nat) (w : W64) : (s.setWord64 a w).colds = s.colds := rfl
@[simp] theorem State.setWord64_debugPort (s : State) (a : Nat) (w : W64) : (s.setWord64 a w).debugPort = s.debugPort := rfl

/-! `State.logSvc`. -/

@[simp] theorem State.logSvc_rail (s : State) (c : Cause) (x y z : Nat) : (s.logSvc c x y z).rail = s.rail := rfl
@[simp] theorem State.logSvc_time (s : State) (c : Cause) (x y z : Nat) : (s.logSvc c x y z).time = s.time := rfl
@[simp] theorem State.logSvc_tick (s : State) (c : Cause) (x y z : Nat) : (s.logSvc c x y z).tick = s.tick := rfl
@[simp] theorem State.logSvc_turns (s : State) (c : Cause) (x y z : Nat) : (s.logSvc c x y z).turns = s.turns := rfl
@[simp] theorem State.logSvc_cur (s : State) (c : Cause) (x y z : Nat) : (s.logSvc c x y z).cur = s.cur := rfl
@[simp] theorem State.logSvc_nextId (s : State) (c : Cause) (x y z : Nat) : (s.logSvc c x y z).nextId = s.nextId := rfl
@[simp] theorem State.logSvc_svcRdy (s : State) (c : Cause) (x y z : Nat) : (s.logSvc c x y z).svcRdy = s.svcRdy := rfl
@[simp] theorem State.logSvc_rtrRdy (s : State) (c : Cause) (x y z : Nat) : (s.logSvc c x y z).rtrRdy = s.rtrRdy := rfl
@[simp] theorem State.logSvc_slRdy (s : State) (c : Cause) (x y z : Nat) : (s.logSvc c x y z).slRdy = s.slRdy := rfl
@[simp] theorem State.logSvc_chRdy (s : State) (c : Cause) (x y z : Nat) : (s.logSvc c x y z).chRdy = s.chRdy := rfl
@[simp] theorem State.logSvc_clRdy (s : State) (c : Cause) (x y z : Nat) : (s.logSvc c x y z).clRdy = s.clRdy := rfl
@[simp] theorem State.logSvc_hpRdy (s : State) (c : Cause) (x y z : Nat) : (s.logSvc c x y z).hpRdy = s.hpRdy := rfl
@[simp] theorem State.logSvc_fpRdy (s : State) (c : Cause) (x y z : Nat) : (s.logSvc c x y z).fpRdy = s.fpRdy := rfl
@[simp] theorem State.logSvc_ksRdy (s : State) (c : Cause) (x y z : Nat) : (s.logSvc c x y z).ksRdy = s.ksRdy := rfl
@[simp] theorem State.logSvc_failed (s : State) (c : Cause) (x y z : Nat) : (s.logSvc c x y z).failed = s.failed := rfl
@[simp] theorem State.logSvc_fenced (s : State) (c : Cause) (x y z : Nat) : (s.logSvc c x y z).fenced = s.fenced := rfl
@[simp] theorem State.logSvc_fencedRtr (s : State) (c : Cause) (x y z : Nat) : (s.logSvc c x y z).fencedRtr = s.fencedRtr := rfl
@[simp] theorem State.logSvc_zoneBad (s : State) (c : Cause) (x y z : Nat) : (s.logSvc c x y z).zoneBad = s.zoneBad := rfl
@[simp] theorem State.logSvc_zonecur (s : State) (c : Cause) (x y z : Nat) : (s.logSvc c x y z).zonecur = s.zonecur := rfl
@[simp] theorem State.logSvc_pkgpwr (s : State) (c : Cause) (x y z : Nat) : (s.logSvc c x y z).pkgpwr = s.pkgpwr := rfl
@[simp] theorem State.logSvc_overAt (s : State) (c : Cause) (x y z : Nat) : (s.logSvc c x y z).overAt = s.overAt := rfl
@[simp] theorem State.logSvc_mem (s : State) (c : Cause) (x y z : Nat) : (s.logSvc c x y z).mem = s.mem := rfl
@[simp] theorem State.logSvc_memPz (s : State) (c : Cause) (x y z : Nat) : (s.logSvc c x y z).memPz = s.memPz := rfl
@[simp] theorem State.logSvc_marks (s : State) (c : Cause) (x y z : Nat) : (s.logSvc c x y z).marks = s.marks := rfl
@[simp] theorem State.logSvc_own (s : State) (c : Cause) (x y z : Nat) : (s.logSvc c x y z).own = s.own := rfl
@[simp] theorem State.logSvc_areas (s : State) (c : Cause) (x y z : Nat) : (s.logSvc c x y z).areas = s.areas := rfl
@[simp] theorem State.logSvc_acqWait (s : State) (c : Cause) (x y z : Nat) : (s.logSvc c x y z).acqWait = s.acqWait := rfl
@[simp] theorem State.logSvc_slices (s : State) (c : Cause) (x y z : Nat) : (s.logSvc c x y z).slices = s.slices := rfl
@[simp] theorem State.logSvc_routers (s : State) (c : Cause) (x y z : Nat) : (s.logSvc c x y z).routers = s.routers := rfl
@[simp] theorem State.logSvc_clusters (s : State) (c : Cause) (x y z : Nat) : (s.logSvc c x y z).clusters = s.clusters := rfl
@[simp] theorem State.logSvc_parts (s : State) (c : Cause) (x y z : Nat) : (s.logSvc c x y z).parts = s.parts := rfl
@[simp] theorem State.logSvc_incs (s : State) (c : Cause) (x y z : Nat) : (s.logSvc c x y z).incs = s.incs := rfl
@[simp] theorem State.logSvc_liveTags (s : State) (c : Cause) (x y z : Nat) : (s.logSvc c x y z).liveTags = s.liveTags := rfl
@[simp] theorem State.logSvc_leftCells (s : State) (c : Cause) (x y z : Nat) : (s.logSvc c x y z).leftCells = s.leftCells := rfl
@[simp] theorem State.logSvc_grids (s : State) (c : Cause) (x y z : Nat) : (s.logSvc c x y z).grids = s.grids := rfl
@[simp] theorem State.logSvc_crews (s : State) (c : Cause) (x y z : Nat) : (s.logSvc c x y z).crews = s.crews := rfl
@[simp] theorem State.logSvc_reqs (s : State) (c : Cause) (x y z : Nat) : (s.logSvc c x y z).reqs = s.reqs := rfl
@[simp] theorem State.logSvc_pends (s : State) (c : Cause) (x y z : Nat) : (s.logSvc c x y z).pends = s.pends := rfl
@[simp] theorem State.logSvc_toks (s : State) (c : Cause) (x y z : Nat) : (s.logSvc c x y z).toks = s.toks := rfl
@[simp] theorem State.logSvc_fab (s : State) (c : Cause) (x y z : Nat) : (s.logSvc c x y z).fab = s.fab := rfl
@[simp] theorem State.logSvc_txnHold (s : State) (c : Cause) (x y z : Nat) : (s.logSvc c x y z).txnHold = s.txnHold := rfl
@[simp] theorem State.logSvc_streamSeq (s : State) (c : Cause) (x y z : Nat) : (s.logSvc c x y z).streamSeq = s.streamSeq := rfl
@[simp] theorem State.logSvc_replays (s : State) (c : Cause) (x y z : Nat) : (s.logSvc c x y z).replays = s.replays := rfl
@[simp] theorem State.logSvc_linkKey (s : State) (c : Cause) (x y z : Nat) : (s.logSvc c x y z).linkKey = s.linkKey := rfl
@[simp] theorem State.logSvc_portDrop (s : State) (c : Cause) (x y z : Nat) : (s.logSvc c x y z).portDrop = s.portDrop := rfl
@[simp] theorem State.logSvc_portTag (s : State) (c : Cause) (x y z : Nat) : (s.logSvc c x y z).portTag = s.portTag := rfl
@[simp] theorem State.logSvc_egress (s : State) (c : Cause) (x y z : Nat) : (s.logSvc c x y z).egress = s.egress := rfl
@[simp] theorem State.logSvc_seen (s : State) (c : Cause) (x y z : Nat) : (s.logSvc c x y z).seen = s.seen := rfl
@[simp] theorem State.logSvc_windows (s : State) (c : Cause) (x y z : Nat) : (s.logSvc c x y z).windows = s.windows := rfl
@[simp] theorem State.logSvc_inbound (s : State) (c : Cause) (x y z : Nat) : (s.logSvc c x y z).inbound = s.inbound := rfl
@[simp] theorem State.logSvc_hostReqs (s : State) (c : Cause) (x y z : Nat) : (s.logSvc c x y z).hostReqs = s.hostReqs := rfl
@[simp] theorem State.logSvc_reserves (s : State) (c : Cause) (x y z : Nat) : (s.logSvc c x y z).reserves = s.reserves := rfl
@[simp] theorem State.logSvc_checks (s : State) (c : Cause) (x y z : Nat) : (s.logSvc c x y z).checks = s.checks := rfl
@[simp] theorem State.logSvc_hostOut (s : State) (c : Cause) (x y z : Nat) : (s.logSvc c x y z).hostOut = s.hostOut := rfl
@[simp] theorem State.logSvc_hostIn (s : State) (c : Cause) (x y z : Nat) : (s.logSvc c x y z).hostIn = s.hostIn := rfl
@[simp] theorem State.logSvc_msixOut (s : State) (c : Cause) (x y z : Nat) : (s.logSvc c x y z).msixOut = s.msixOut := rfl
@[simp] theorem State.logSvc_fabOut (s : State) (c : Cause) (x y z : Nat) : (s.logSvc c x y z).fabOut = s.fabOut := rfl
@[simp] theorem State.logSvc_doeOut (s : State) (c : Cause) (x y z : Nat) : (s.logSvc c x y z).doeOut = s.doeOut := rfl
@[simp] theorem State.logSvc_bar0Out (s : State) (c : Cause) (x y z : Nat) : (s.logSvc c x y z).bar0Out = s.bar0Out := rfl
@[simp] theorem State.logSvc_mgmtOut (s : State) (c : Cause) (x y z : Nat) : (s.logSvc c x y z).mgmtOut = s.mgmtOut := rfl
@[simp] theorem State.logSvc_mr (s : State) (c : Cause) (x y z : Nat) : (s.logSvc c x y z).mr = s.mr := rfl
@[simp] theorem State.logSvc_lifecycle (s : State) (c : Cause) (x y z : Nat) : (s.logSvc c x y z).lifecycle = s.lifecycle := rfl
@[simp] theorem State.logSvc_chal (s : State) (c : Cause) (x y z : Nat) : (s.logSvc c x y z).chal = s.chal := rfl
@[simp] theorem State.logSvc_latchV (s : State) (c : Cause) (x y z : Nat) : (s.logSvc c x y z).latchV = s.latchV := rfl
@[simp] theorem State.logSvc_latchW (s : State) (c : Cause) (x y z : Nat) : (s.logSvc c x y z).latchW = s.latchW := rfl
@[simp] theorem State.logSvc_latchM (s : State) (c : Cause) (x y z : Nat) : (s.logSvc c x y z).latchM = s.latchM := rfl
@[simp] theorem State.logSvc_latched (s : State) (c : Cause) (x y z : Nat) : (s.logSvc c x y z).latched = s.latched := rfl
@[simp] theorem State.logSvc_colds (s : State) (c : Cause) (x y z : Nat) : (s.logSvc c x y z).colds = s.colds := rfl
@[simp] theorem State.logSvc_debugPort (s : State) (c : Cause) (x y z : Nat) : (s.logSvc c x y z).debugPort = s.debugPort := rfl

/-! `State.modPend`. -/

@[simp] theorem State.modPend_rail (s : State) (i : Nat) (f : Pend → Pend) : (s.modPend i f).rail = s.rail := rfl
@[simp] theorem State.modPend_time (s : State) (i : Nat) (f : Pend → Pend) : (s.modPend i f).time = s.time := rfl
@[simp] theorem State.modPend_tick (s : State) (i : Nat) (f : Pend → Pend) : (s.modPend i f).tick = s.tick := rfl
@[simp] theorem State.modPend_turns (s : State) (i : Nat) (f : Pend → Pend) : (s.modPend i f).turns = s.turns := rfl
@[simp] theorem State.modPend_cur (s : State) (i : Nat) (f : Pend → Pend) : (s.modPend i f).cur = s.cur := rfl
@[simp] theorem State.modPend_nextId (s : State) (i : Nat) (f : Pend → Pend) : (s.modPend i f).nextId = s.nextId := rfl
@[simp] theorem State.modPend_svcRdy (s : State) (i : Nat) (f : Pend → Pend) : (s.modPend i f).svcRdy = s.svcRdy := rfl
@[simp] theorem State.modPend_rtrRdy (s : State) (i : Nat) (f : Pend → Pend) : (s.modPend i f).rtrRdy = s.rtrRdy := rfl
@[simp] theorem State.modPend_slRdy (s : State) (i : Nat) (f : Pend → Pend) : (s.modPend i f).slRdy = s.slRdy := rfl
@[simp] theorem State.modPend_chRdy (s : State) (i : Nat) (f : Pend → Pend) : (s.modPend i f).chRdy = s.chRdy := rfl
@[simp] theorem State.modPend_clRdy (s : State) (i : Nat) (f : Pend → Pend) : (s.modPend i f).clRdy = s.clRdy := rfl
@[simp] theorem State.modPend_hpRdy (s : State) (i : Nat) (f : Pend → Pend) : (s.modPend i f).hpRdy = s.hpRdy := rfl
@[simp] theorem State.modPend_fpRdy (s : State) (i : Nat) (f : Pend → Pend) : (s.modPend i f).fpRdy = s.fpRdy := rfl
@[simp] theorem State.modPend_ksRdy (s : State) (i : Nat) (f : Pend → Pend) : (s.modPend i f).ksRdy = s.ksRdy := rfl
@[simp] theorem State.modPend_failed (s : State) (i : Nat) (f : Pend → Pend) : (s.modPend i f).failed = s.failed := rfl
@[simp] theorem State.modPend_fenced (s : State) (i : Nat) (f : Pend → Pend) : (s.modPend i f).fenced = s.fenced := rfl
@[simp] theorem State.modPend_fencedRtr (s : State) (i : Nat) (f : Pend → Pend) : (s.modPend i f).fencedRtr = s.fencedRtr := rfl
@[simp] theorem State.modPend_zoneBad (s : State) (i : Nat) (f : Pend → Pend) : (s.modPend i f).zoneBad = s.zoneBad := rfl
@[simp] theorem State.modPend_zonecur (s : State) (i : Nat) (f : Pend → Pend) : (s.modPend i f).zonecur = s.zonecur := rfl
@[simp] theorem State.modPend_pkgpwr (s : State) (i : Nat) (f : Pend → Pend) : (s.modPend i f).pkgpwr = s.pkgpwr := rfl
@[simp] theorem State.modPend_overAt (s : State) (i : Nat) (f : Pend → Pend) : (s.modPend i f).overAt = s.overAt := rfl
@[simp] theorem State.modPend_mem (s : State) (i : Nat) (f : Pend → Pend) : (s.modPend i f).mem = s.mem := rfl
@[simp] theorem State.modPend_memPz (s : State) (i : Nat) (f : Pend → Pend) : (s.modPend i f).memPz = s.memPz := rfl
@[simp] theorem State.modPend_marks (s : State) (i : Nat) (f : Pend → Pend) : (s.modPend i f).marks = s.marks := rfl
@[simp] theorem State.modPend_own (s : State) (i : Nat) (f : Pend → Pend) : (s.modPend i f).own = s.own := rfl
@[simp] theorem State.modPend_areas (s : State) (i : Nat) (f : Pend → Pend) : (s.modPend i f).areas = s.areas := rfl
@[simp] theorem State.modPend_acqWait (s : State) (i : Nat) (f : Pend → Pend) : (s.modPend i f).acqWait = s.acqWait := rfl
@[simp] theorem State.modPend_slices (s : State) (i : Nat) (f : Pend → Pend) : (s.modPend i f).slices = s.slices := rfl
@[simp] theorem State.modPend_routers (s : State) (i : Nat) (f : Pend → Pend) : (s.modPend i f).routers = s.routers := rfl
@[simp] theorem State.modPend_clusters (s : State) (i : Nat) (f : Pend → Pend) : (s.modPend i f).clusters = s.clusters := rfl
@[simp] theorem State.modPend_parts (s : State) (i : Nat) (f : Pend → Pend) : (s.modPend i f).parts = s.parts := rfl
@[simp] theorem State.modPend_incs (s : State) (i : Nat) (f : Pend → Pend) : (s.modPend i f).incs = s.incs := rfl
@[simp] theorem State.modPend_liveTags (s : State) (i : Nat) (f : Pend → Pend) : (s.modPend i f).liveTags = s.liveTags := rfl
@[simp] theorem State.modPend_leftCells (s : State) (i : Nat) (f : Pend → Pend) : (s.modPend i f).leftCells = s.leftCells := rfl
@[simp] theorem State.modPend_grids (s : State) (i : Nat) (f : Pend → Pend) : (s.modPend i f).grids = s.grids := rfl
@[simp] theorem State.modPend_crews (s : State) (i : Nat) (f : Pend → Pend) : (s.modPend i f).crews = s.crews := rfl
@[simp] theorem State.modPend_reqs (s : State) (i : Nat) (f : Pend → Pend) : (s.modPend i f).reqs = s.reqs := rfl
@[simp] theorem State.modPend_toks (s : State) (i : Nat) (f : Pend → Pend) : (s.modPend i f).toks = s.toks := rfl
@[simp] theorem State.modPend_fab (s : State) (i : Nat) (f : Pend → Pend) : (s.modPend i f).fab = s.fab := rfl
@[simp] theorem State.modPend_txnHold (s : State) (i : Nat) (f : Pend → Pend) : (s.modPend i f).txnHold = s.txnHold := rfl
@[simp] theorem State.modPend_streamSeq (s : State) (i : Nat) (f : Pend → Pend) : (s.modPend i f).streamSeq = s.streamSeq := rfl
@[simp] theorem State.modPend_replays (s : State) (i : Nat) (f : Pend → Pend) : (s.modPend i f).replays = s.replays := rfl
@[simp] theorem State.modPend_linkKey (s : State) (i : Nat) (f : Pend → Pend) : (s.modPend i f).linkKey = s.linkKey := rfl
@[simp] theorem State.modPend_portDrop (s : State) (i : Nat) (f : Pend → Pend) : (s.modPend i f).portDrop = s.portDrop := rfl
@[simp] theorem State.modPend_portTag (s : State) (i : Nat) (f : Pend → Pend) : (s.modPend i f).portTag = s.portTag := rfl
@[simp] theorem State.modPend_egress (s : State) (i : Nat) (f : Pend → Pend) : (s.modPend i f).egress = s.egress := rfl
@[simp] theorem State.modPend_seen (s : State) (i : Nat) (f : Pend → Pend) : (s.modPend i f).seen = s.seen := rfl
@[simp] theorem State.modPend_windows (s : State) (i : Nat) (f : Pend → Pend) : (s.modPend i f).windows = s.windows := rfl
@[simp] theorem State.modPend_inbound (s : State) (i : Nat) (f : Pend → Pend) : (s.modPend i f).inbound = s.inbound := rfl
@[simp] theorem State.modPend_hostReqs (s : State) (i : Nat) (f : Pend → Pend) : (s.modPend i f).hostReqs = s.hostReqs := rfl
@[simp] theorem State.modPend_reserves (s : State) (i : Nat) (f : Pend → Pend) : (s.modPend i f).reserves = s.reserves := rfl
@[simp] theorem State.modPend_checks (s : State) (i : Nat) (f : Pend → Pend) : (s.modPend i f).checks = s.checks := rfl
@[simp] theorem State.modPend_hostOut (s : State) (i : Nat) (f : Pend → Pend) : (s.modPend i f).hostOut = s.hostOut := rfl
@[simp] theorem State.modPend_hostIn (s : State) (i : Nat) (f : Pend → Pend) : (s.modPend i f).hostIn = s.hostIn := rfl
@[simp] theorem State.modPend_msixOut (s : State) (i : Nat) (f : Pend → Pend) : (s.modPend i f).msixOut = s.msixOut := rfl
@[simp] theorem State.modPend_fabOut (s : State) (i : Nat) (f : Pend → Pend) : (s.modPend i f).fabOut = s.fabOut := rfl
@[simp] theorem State.modPend_doeOut (s : State) (i : Nat) (f : Pend → Pend) : (s.modPend i f).doeOut = s.doeOut := rfl
@[simp] theorem State.modPend_bar0Out (s : State) (i : Nat) (f : Pend → Pend) : (s.modPend i f).bar0Out = s.bar0Out := rfl
@[simp] theorem State.modPend_svcLog (s : State) (i : Nat) (f : Pend → Pend) : (s.modPend i f).svcLog = s.svcLog := rfl
@[simp] theorem State.modPend_mgmtOut (s : State) (i : Nat) (f : Pend → Pend) : (s.modPend i f).mgmtOut = s.mgmtOut := rfl
@[simp] theorem State.modPend_mr (s : State) (i : Nat) (f : Pend → Pend) : (s.modPend i f).mr = s.mr := rfl
@[simp] theorem State.modPend_lifecycle (s : State) (i : Nat) (f : Pend → Pend) : (s.modPend i f).lifecycle = s.lifecycle := rfl
@[simp] theorem State.modPend_chal (s : State) (i : Nat) (f : Pend → Pend) : (s.modPend i f).chal = s.chal := rfl
@[simp] theorem State.modPend_latchV (s : State) (i : Nat) (f : Pend → Pend) : (s.modPend i f).latchV = s.latchV := rfl
@[simp] theorem State.modPend_latchW (s : State) (i : Nat) (f : Pend → Pend) : (s.modPend i f).latchW = s.latchW := rfl
@[simp] theorem State.modPend_latchM (s : State) (i : Nat) (f : Pend → Pend) : (s.modPend i f).latchM = s.latchM := rfl
@[simp] theorem State.modPend_latched (s : State) (i : Nat) (f : Pend → Pend) : (s.modPend i f).latched = s.latched := rfl
@[simp] theorem State.modPend_colds (s : State) (i : Nat) (f : Pend → Pend) : (s.modPend i f).colds = s.colds := rfl
@[simp] theorem State.modPend_debugPort (s : State) (i : Nat) (f : Pend → Pend) : (s.modPend i f).debugPort = s.debugPort := rfl

/-! `State.addPend`. -/

@[simp] theorem State.addPend_rail (s : State) (p : Pend) : (s.addPend p).rail = s.rail := rfl
@[simp] theorem State.addPend_time (s : State) (p : Pend) : (s.addPend p).time = s.time := rfl
@[simp] theorem State.addPend_tick (s : State) (p : Pend) : (s.addPend p).tick = s.tick := rfl
@[simp] theorem State.addPend_turns (s : State) (p : Pend) : (s.addPend p).turns = s.turns := rfl
@[simp] theorem State.addPend_cur (s : State) (p : Pend) : (s.addPend p).cur = s.cur := rfl
@[simp] theorem State.addPend_svcRdy (s : State) (p : Pend) : (s.addPend p).svcRdy = s.svcRdy := rfl
@[simp] theorem State.addPend_rtrRdy (s : State) (p : Pend) : (s.addPend p).rtrRdy = s.rtrRdy := rfl
@[simp] theorem State.addPend_slRdy (s : State) (p : Pend) : (s.addPend p).slRdy = s.slRdy := rfl
@[simp] theorem State.addPend_chRdy (s : State) (p : Pend) : (s.addPend p).chRdy = s.chRdy := rfl
@[simp] theorem State.addPend_clRdy (s : State) (p : Pend) : (s.addPend p).clRdy = s.clRdy := rfl
@[simp] theorem State.addPend_hpRdy (s : State) (p : Pend) : (s.addPend p).hpRdy = s.hpRdy := rfl
@[simp] theorem State.addPend_fpRdy (s : State) (p : Pend) : (s.addPend p).fpRdy = s.fpRdy := rfl
@[simp] theorem State.addPend_ksRdy (s : State) (p : Pend) : (s.addPend p).ksRdy = s.ksRdy := rfl
@[simp] theorem State.addPend_failed (s : State) (p : Pend) : (s.addPend p).failed = s.failed := rfl
@[simp] theorem State.addPend_fenced (s : State) (p : Pend) : (s.addPend p).fenced = s.fenced := rfl
@[simp] theorem State.addPend_fencedRtr (s : State) (p : Pend) : (s.addPend p).fencedRtr = s.fencedRtr := rfl
@[simp] theorem State.addPend_zoneBad (s : State) (p : Pend) : (s.addPend p).zoneBad = s.zoneBad := rfl
@[simp] theorem State.addPend_zonecur (s : State) (p : Pend) : (s.addPend p).zonecur = s.zonecur := rfl
@[simp] theorem State.addPend_pkgpwr (s : State) (p : Pend) : (s.addPend p).pkgpwr = s.pkgpwr := rfl
@[simp] theorem State.addPend_overAt (s : State) (p : Pend) : (s.addPend p).overAt = s.overAt := rfl
@[simp] theorem State.addPend_mem (s : State) (p : Pend) : (s.addPend p).mem = s.mem := rfl
@[simp] theorem State.addPend_memPz (s : State) (p : Pend) : (s.addPend p).memPz = s.memPz := rfl
@[simp] theorem State.addPend_marks (s : State) (p : Pend) : (s.addPend p).marks = s.marks := rfl
@[simp] theorem State.addPend_own (s : State) (p : Pend) : (s.addPend p).own = s.own := rfl
@[simp] theorem State.addPend_areas (s : State) (p : Pend) : (s.addPend p).areas = s.areas := rfl
@[simp] theorem State.addPend_acqWait (s : State) (p : Pend) : (s.addPend p).acqWait = s.acqWait := rfl
@[simp] theorem State.addPend_slices (s : State) (p : Pend) : (s.addPend p).slices = s.slices := rfl
@[simp] theorem State.addPend_routers (s : State) (p : Pend) : (s.addPend p).routers = s.routers := rfl
@[simp] theorem State.addPend_clusters (s : State) (p : Pend) : (s.addPend p).clusters = s.clusters := rfl
@[simp] theorem State.addPend_parts (s : State) (p : Pend) : (s.addPend p).parts = s.parts := rfl
@[simp] theorem State.addPend_incs (s : State) (p : Pend) : (s.addPend p).incs = s.incs := rfl
@[simp] theorem State.addPend_liveTags (s : State) (p : Pend) : (s.addPend p).liveTags = s.liveTags := rfl
@[simp] theorem State.addPend_leftCells (s : State) (p : Pend) : (s.addPend p).leftCells = s.leftCells := rfl
@[simp] theorem State.addPend_grids (s : State) (p : Pend) : (s.addPend p).grids = s.grids := rfl
@[simp] theorem State.addPend_crews (s : State) (p : Pend) : (s.addPend p).crews = s.crews := rfl
@[simp] theorem State.addPend_reqs (s : State) (p : Pend) : (s.addPend p).reqs = s.reqs := rfl
@[simp] theorem State.addPend_toks (s : State) (p : Pend) : (s.addPend p).toks = s.toks := rfl
@[simp] theorem State.addPend_fab (s : State) (p : Pend) : (s.addPend p).fab = s.fab := rfl
@[simp] theorem State.addPend_txnHold (s : State) (p : Pend) : (s.addPend p).txnHold = s.txnHold := rfl
@[simp] theorem State.addPend_streamSeq (s : State) (p : Pend) : (s.addPend p).streamSeq = s.streamSeq := rfl
@[simp] theorem State.addPend_replays (s : State) (p : Pend) : (s.addPend p).replays = s.replays := rfl
@[simp] theorem State.addPend_linkKey (s : State) (p : Pend) : (s.addPend p).linkKey = s.linkKey := rfl
@[simp] theorem State.addPend_portDrop (s : State) (p : Pend) : (s.addPend p).portDrop = s.portDrop := rfl
@[simp] theorem State.addPend_portTag (s : State) (p : Pend) : (s.addPend p).portTag = s.portTag := rfl
@[simp] theorem State.addPend_egress (s : State) (p : Pend) : (s.addPend p).egress = s.egress := rfl
@[simp] theorem State.addPend_seen (s : State) (p : Pend) : (s.addPend p).seen = s.seen := rfl
@[simp] theorem State.addPend_windows (s : State) (p : Pend) : (s.addPend p).windows = s.windows := rfl
@[simp] theorem State.addPend_inbound (s : State) (p : Pend) : (s.addPend p).inbound = s.inbound := rfl
@[simp] theorem State.addPend_hostReqs (s : State) (p : Pend) : (s.addPend p).hostReqs = s.hostReqs := rfl
@[simp] theorem State.addPend_reserves (s : State) (p : Pend) : (s.addPend p).reserves = s.reserves := rfl
@[simp] theorem State.addPend_checks (s : State) (p : Pend) : (s.addPend p).checks = s.checks := rfl
@[simp] theorem State.addPend_hostOut (s : State) (p : Pend) : (s.addPend p).hostOut = s.hostOut := rfl
@[simp] theorem State.addPend_hostIn (s : State) (p : Pend) : (s.addPend p).hostIn = s.hostIn := rfl
@[simp] theorem State.addPend_msixOut (s : State) (p : Pend) : (s.addPend p).msixOut = s.msixOut := rfl
@[simp] theorem State.addPend_fabOut (s : State) (p : Pend) : (s.addPend p).fabOut = s.fabOut := rfl
@[simp] theorem State.addPend_doeOut (s : State) (p : Pend) : (s.addPend p).doeOut = s.doeOut := rfl
@[simp] theorem State.addPend_bar0Out (s : State) (p : Pend) : (s.addPend p).bar0Out = s.bar0Out := rfl
@[simp] theorem State.addPend_svcLog (s : State) (p : Pend) : (s.addPend p).svcLog = s.svcLog := rfl
@[simp] theorem State.addPend_mgmtOut (s : State) (p : Pend) : (s.addPend p).mgmtOut = s.mgmtOut := rfl
@[simp] theorem State.addPend_mr (s : State) (p : Pend) : (s.addPend p).mr = s.mr := rfl
@[simp] theorem State.addPend_lifecycle (s : State) (p : Pend) : (s.addPend p).lifecycle = s.lifecycle := rfl
@[simp] theorem State.addPend_chal (s : State) (p : Pend) : (s.addPend p).chal = s.chal := rfl
@[simp] theorem State.addPend_latchV (s : State) (p : Pend) : (s.addPend p).latchV = s.latchV := rfl
@[simp] theorem State.addPend_latchW (s : State) (p : Pend) : (s.addPend p).latchW = s.latchW := rfl
@[simp] theorem State.addPend_latchM (s : State) (p : Pend) : (s.addPend p).latchM = s.latchM := rfl
@[simp] theorem State.addPend_latched (s : State) (p : Pend) : (s.addPend p).latched = s.latched := rfl
@[simp] theorem State.addPend_colds (s : State) (p : Pend) : (s.addPend p).colds = s.colds := rfl
@[simp] theorem State.addPend_debugPort (s : State) (p : Pend) : (s.addPend p).debugPort = s.debugPort := rfl

/-! `State.modSlice`. -/

@[simp] theorem State.modSlice_rail (s : State) (q : Nat) (f : SliceSt → SliceSt) : (s.modSlice q f).rail = s.rail := rfl
@[simp] theorem State.modSlice_time (s : State) (q : Nat) (f : SliceSt → SliceSt) : (s.modSlice q f).time = s.time := rfl
@[simp] theorem State.modSlice_tick (s : State) (q : Nat) (f : SliceSt → SliceSt) : (s.modSlice q f).tick = s.tick := rfl
@[simp] theorem State.modSlice_turns (s : State) (q : Nat) (f : SliceSt → SliceSt) : (s.modSlice q f).turns = s.turns := rfl
@[simp] theorem State.modSlice_cur (s : State) (q : Nat) (f : SliceSt → SliceSt) : (s.modSlice q f).cur = s.cur := rfl
@[simp] theorem State.modSlice_nextId (s : State) (q : Nat) (f : SliceSt → SliceSt) : (s.modSlice q f).nextId = s.nextId := rfl
@[simp] theorem State.modSlice_svcRdy (s : State) (q : Nat) (f : SliceSt → SliceSt) : (s.modSlice q f).svcRdy = s.svcRdy := rfl
@[simp] theorem State.modSlice_rtrRdy (s : State) (q : Nat) (f : SliceSt → SliceSt) : (s.modSlice q f).rtrRdy = s.rtrRdy := rfl
@[simp] theorem State.modSlice_slRdy (s : State) (q : Nat) (f : SliceSt → SliceSt) : (s.modSlice q f).slRdy = s.slRdy := rfl
@[simp] theorem State.modSlice_chRdy (s : State) (q : Nat) (f : SliceSt → SliceSt) : (s.modSlice q f).chRdy = s.chRdy := rfl
@[simp] theorem State.modSlice_clRdy (s : State) (q : Nat) (f : SliceSt → SliceSt) : (s.modSlice q f).clRdy = s.clRdy := rfl
@[simp] theorem State.modSlice_hpRdy (s : State) (q : Nat) (f : SliceSt → SliceSt) : (s.modSlice q f).hpRdy = s.hpRdy := rfl
@[simp] theorem State.modSlice_fpRdy (s : State) (q : Nat) (f : SliceSt → SliceSt) : (s.modSlice q f).fpRdy = s.fpRdy := rfl
@[simp] theorem State.modSlice_ksRdy (s : State) (q : Nat) (f : SliceSt → SliceSt) : (s.modSlice q f).ksRdy = s.ksRdy := rfl
@[simp] theorem State.modSlice_failed (s : State) (q : Nat) (f : SliceSt → SliceSt) : (s.modSlice q f).failed = s.failed := rfl
@[simp] theorem State.modSlice_fenced (s : State) (q : Nat) (f : SliceSt → SliceSt) : (s.modSlice q f).fenced = s.fenced := rfl
@[simp] theorem State.modSlice_fencedRtr (s : State) (q : Nat) (f : SliceSt → SliceSt) : (s.modSlice q f).fencedRtr = s.fencedRtr := rfl
@[simp] theorem State.modSlice_zoneBad (s : State) (q : Nat) (f : SliceSt → SliceSt) : (s.modSlice q f).zoneBad = s.zoneBad := rfl
@[simp] theorem State.modSlice_zonecur (s : State) (q : Nat) (f : SliceSt → SliceSt) : (s.modSlice q f).zonecur = s.zonecur := rfl
@[simp] theorem State.modSlice_pkgpwr (s : State) (q : Nat) (f : SliceSt → SliceSt) : (s.modSlice q f).pkgpwr = s.pkgpwr := rfl
@[simp] theorem State.modSlice_overAt (s : State) (q : Nat) (f : SliceSt → SliceSt) : (s.modSlice q f).overAt = s.overAt := rfl
@[simp] theorem State.modSlice_mem (s : State) (q : Nat) (f : SliceSt → SliceSt) : (s.modSlice q f).mem = s.mem := rfl
@[simp] theorem State.modSlice_memPz (s : State) (q : Nat) (f : SliceSt → SliceSt) : (s.modSlice q f).memPz = s.memPz := rfl
@[simp] theorem State.modSlice_marks (s : State) (q : Nat) (f : SliceSt → SliceSt) : (s.modSlice q f).marks = s.marks := rfl
@[simp] theorem State.modSlice_own (s : State) (q : Nat) (f : SliceSt → SliceSt) : (s.modSlice q f).own = s.own := rfl
@[simp] theorem State.modSlice_areas (s : State) (q : Nat) (f : SliceSt → SliceSt) : (s.modSlice q f).areas = s.areas := rfl
@[simp] theorem State.modSlice_acqWait (s : State) (q : Nat) (f : SliceSt → SliceSt) : (s.modSlice q f).acqWait = s.acqWait := rfl
@[simp] theorem State.modSlice_routers (s : State) (q : Nat) (f : SliceSt → SliceSt) : (s.modSlice q f).routers = s.routers := rfl
@[simp] theorem State.modSlice_clusters (s : State) (q : Nat) (f : SliceSt → SliceSt) : (s.modSlice q f).clusters = s.clusters := rfl
@[simp] theorem State.modSlice_parts (s : State) (q : Nat) (f : SliceSt → SliceSt) : (s.modSlice q f).parts = s.parts := rfl
@[simp] theorem State.modSlice_incs (s : State) (q : Nat) (f : SliceSt → SliceSt) : (s.modSlice q f).incs = s.incs := rfl
@[simp] theorem State.modSlice_liveTags (s : State) (q : Nat) (f : SliceSt → SliceSt) : (s.modSlice q f).liveTags = s.liveTags := rfl
@[simp] theorem State.modSlice_leftCells (s : State) (q : Nat) (f : SliceSt → SliceSt) : (s.modSlice q f).leftCells = s.leftCells := rfl
@[simp] theorem State.modSlice_grids (s : State) (q : Nat) (f : SliceSt → SliceSt) : (s.modSlice q f).grids = s.grids := rfl
@[simp] theorem State.modSlice_crews (s : State) (q : Nat) (f : SliceSt → SliceSt) : (s.modSlice q f).crews = s.crews := rfl
@[simp] theorem State.modSlice_reqs (s : State) (q : Nat) (f : SliceSt → SliceSt) : (s.modSlice q f).reqs = s.reqs := rfl
@[simp] theorem State.modSlice_pends (s : State) (q : Nat) (f : SliceSt → SliceSt) : (s.modSlice q f).pends = s.pends := rfl
@[simp] theorem State.modSlice_toks (s : State) (q : Nat) (f : SliceSt → SliceSt) : (s.modSlice q f).toks = s.toks := rfl
@[simp] theorem State.modSlice_fab (s : State) (q : Nat) (f : SliceSt → SliceSt) : (s.modSlice q f).fab = s.fab := rfl
@[simp] theorem State.modSlice_txnHold (s : State) (q : Nat) (f : SliceSt → SliceSt) : (s.modSlice q f).txnHold = s.txnHold := rfl
@[simp] theorem State.modSlice_streamSeq (s : State) (q : Nat) (f : SliceSt → SliceSt) : (s.modSlice q f).streamSeq = s.streamSeq := rfl
@[simp] theorem State.modSlice_replays (s : State) (q : Nat) (f : SliceSt → SliceSt) : (s.modSlice q f).replays = s.replays := rfl
@[simp] theorem State.modSlice_linkKey (s : State) (q : Nat) (f : SliceSt → SliceSt) : (s.modSlice q f).linkKey = s.linkKey := rfl
@[simp] theorem State.modSlice_portDrop (s : State) (q : Nat) (f : SliceSt → SliceSt) : (s.modSlice q f).portDrop = s.portDrop := rfl
@[simp] theorem State.modSlice_portTag (s : State) (q : Nat) (f : SliceSt → SliceSt) : (s.modSlice q f).portTag = s.portTag := rfl
@[simp] theorem State.modSlice_egress (s : State) (q : Nat) (f : SliceSt → SliceSt) : (s.modSlice q f).egress = s.egress := rfl
@[simp] theorem State.modSlice_seen (s : State) (q : Nat) (f : SliceSt → SliceSt) : (s.modSlice q f).seen = s.seen := rfl
@[simp] theorem State.modSlice_windows (s : State) (q : Nat) (f : SliceSt → SliceSt) : (s.modSlice q f).windows = s.windows := rfl
@[simp] theorem State.modSlice_inbound (s : State) (q : Nat) (f : SliceSt → SliceSt) : (s.modSlice q f).inbound = s.inbound := rfl
@[simp] theorem State.modSlice_hostReqs (s : State) (q : Nat) (f : SliceSt → SliceSt) : (s.modSlice q f).hostReqs = s.hostReqs := rfl
@[simp] theorem State.modSlice_reserves (s : State) (q : Nat) (f : SliceSt → SliceSt) : (s.modSlice q f).reserves = s.reserves := rfl
@[simp] theorem State.modSlice_checks (s : State) (q : Nat) (f : SliceSt → SliceSt) : (s.modSlice q f).checks = s.checks := rfl
@[simp] theorem State.modSlice_hostOut (s : State) (q : Nat) (f : SliceSt → SliceSt) : (s.modSlice q f).hostOut = s.hostOut := rfl
@[simp] theorem State.modSlice_hostIn (s : State) (q : Nat) (f : SliceSt → SliceSt) : (s.modSlice q f).hostIn = s.hostIn := rfl
@[simp] theorem State.modSlice_msixOut (s : State) (q : Nat) (f : SliceSt → SliceSt) : (s.modSlice q f).msixOut = s.msixOut := rfl
@[simp] theorem State.modSlice_fabOut (s : State) (q : Nat) (f : SliceSt → SliceSt) : (s.modSlice q f).fabOut = s.fabOut := rfl
@[simp] theorem State.modSlice_doeOut (s : State) (q : Nat) (f : SliceSt → SliceSt) : (s.modSlice q f).doeOut = s.doeOut := rfl
@[simp] theorem State.modSlice_bar0Out (s : State) (q : Nat) (f : SliceSt → SliceSt) : (s.modSlice q f).bar0Out = s.bar0Out := rfl
@[simp] theorem State.modSlice_svcLog (s : State) (q : Nat) (f : SliceSt → SliceSt) : (s.modSlice q f).svcLog = s.svcLog := rfl
@[simp] theorem State.modSlice_mgmtOut (s : State) (q : Nat) (f : SliceSt → SliceSt) : (s.modSlice q f).mgmtOut = s.mgmtOut := rfl
@[simp] theorem State.modSlice_mr (s : State) (q : Nat) (f : SliceSt → SliceSt) : (s.modSlice q f).mr = s.mr := rfl
@[simp] theorem State.modSlice_lifecycle (s : State) (q : Nat) (f : SliceSt → SliceSt) : (s.modSlice q f).lifecycle = s.lifecycle := rfl
@[simp] theorem State.modSlice_chal (s : State) (q : Nat) (f : SliceSt → SliceSt) : (s.modSlice q f).chal = s.chal := rfl
@[simp] theorem State.modSlice_latchV (s : State) (q : Nat) (f : SliceSt → SliceSt) : (s.modSlice q f).latchV = s.latchV := rfl
@[simp] theorem State.modSlice_latchW (s : State) (q : Nat) (f : SliceSt → SliceSt) : (s.modSlice q f).latchW = s.latchW := rfl
@[simp] theorem State.modSlice_latchM (s : State) (q : Nat) (f : SliceSt → SliceSt) : (s.modSlice q f).latchM = s.latchM := rfl
@[simp] theorem State.modSlice_latched (s : State) (q : Nat) (f : SliceSt → SliceSt) : (s.modSlice q f).latched = s.latched := rfl
@[simp] theorem State.modSlice_colds (s : State) (q : Nat) (f : SliceSt → SliceSt) : (s.modSlice q f).colds = s.colds := rfl
@[simp] theorem State.modSlice_debugPort (s : State) (q : Nat) (f : SliceSt → SliceSt) : (s.modSlice q f).debugPort = s.debugPort := rfl

/-! `State.modRouter`. -/

@[simp] theorem State.modRouter_rail (s : State) (p n : Nat) (f : Router → Router) : (s.modRouter p n f).rail = s.rail := rfl
@[simp] theorem State.modRouter_time (s : State) (p n : Nat) (f : Router → Router) : (s.modRouter p n f).time = s.time := rfl
@[simp] theorem State.modRouter_tick (s : State) (p n : Nat) (f : Router → Router) : (s.modRouter p n f).tick = s.tick := rfl
@[simp] theorem State.modRouter_turns (s : State) (p n : Nat) (f : Router → Router) : (s.modRouter p n f).turns = s.turns := rfl
@[simp] theorem State.modRouter_cur (s : State) (p n : Nat) (f : Router → Router) : (s.modRouter p n f).cur = s.cur := rfl
@[simp] theorem State.modRouter_nextId (s : State) (p n : Nat) (f : Router → Router) : (s.modRouter p n f).nextId = s.nextId := rfl
@[simp] theorem State.modRouter_svcRdy (s : State) (p n : Nat) (f : Router → Router) : (s.modRouter p n f).svcRdy = s.svcRdy := rfl
@[simp] theorem State.modRouter_rtrRdy (s : State) (p n : Nat) (f : Router → Router) : (s.modRouter p n f).rtrRdy = s.rtrRdy := rfl
@[simp] theorem State.modRouter_slRdy (s : State) (p n : Nat) (f : Router → Router) : (s.modRouter p n f).slRdy = s.slRdy := rfl
@[simp] theorem State.modRouter_chRdy (s : State) (p n : Nat) (f : Router → Router) : (s.modRouter p n f).chRdy = s.chRdy := rfl
@[simp] theorem State.modRouter_clRdy (s : State) (p n : Nat) (f : Router → Router) : (s.modRouter p n f).clRdy = s.clRdy := rfl
@[simp] theorem State.modRouter_hpRdy (s : State) (p n : Nat) (f : Router → Router) : (s.modRouter p n f).hpRdy = s.hpRdy := rfl
@[simp] theorem State.modRouter_fpRdy (s : State) (p n : Nat) (f : Router → Router) : (s.modRouter p n f).fpRdy = s.fpRdy := rfl
@[simp] theorem State.modRouter_ksRdy (s : State) (p n : Nat) (f : Router → Router) : (s.modRouter p n f).ksRdy = s.ksRdy := rfl
@[simp] theorem State.modRouter_failed (s : State) (p n : Nat) (f : Router → Router) : (s.modRouter p n f).failed = s.failed := rfl
@[simp] theorem State.modRouter_fenced (s : State) (p n : Nat) (f : Router → Router) : (s.modRouter p n f).fenced = s.fenced := rfl
@[simp] theorem State.modRouter_fencedRtr (s : State) (p n : Nat) (f : Router → Router) : (s.modRouter p n f).fencedRtr = s.fencedRtr := rfl
@[simp] theorem State.modRouter_zoneBad (s : State) (p n : Nat) (f : Router → Router) : (s.modRouter p n f).zoneBad = s.zoneBad := rfl
@[simp] theorem State.modRouter_zonecur (s : State) (p n : Nat) (f : Router → Router) : (s.modRouter p n f).zonecur = s.zonecur := rfl
@[simp] theorem State.modRouter_pkgpwr (s : State) (p n : Nat) (f : Router → Router) : (s.modRouter p n f).pkgpwr = s.pkgpwr := rfl
@[simp] theorem State.modRouter_overAt (s : State) (p n : Nat) (f : Router → Router) : (s.modRouter p n f).overAt = s.overAt := rfl
@[simp] theorem State.modRouter_mem (s : State) (p n : Nat) (f : Router → Router) : (s.modRouter p n f).mem = s.mem := rfl
@[simp] theorem State.modRouter_memPz (s : State) (p n : Nat) (f : Router → Router) : (s.modRouter p n f).memPz = s.memPz := rfl
@[simp] theorem State.modRouter_marks (s : State) (p n : Nat) (f : Router → Router) : (s.modRouter p n f).marks = s.marks := rfl
@[simp] theorem State.modRouter_own (s : State) (p n : Nat) (f : Router → Router) : (s.modRouter p n f).own = s.own := rfl
@[simp] theorem State.modRouter_areas (s : State) (p n : Nat) (f : Router → Router) : (s.modRouter p n f).areas = s.areas := rfl
@[simp] theorem State.modRouter_acqWait (s : State) (p n : Nat) (f : Router → Router) : (s.modRouter p n f).acqWait = s.acqWait := rfl
@[simp] theorem State.modRouter_slices (s : State) (p n : Nat) (f : Router → Router) : (s.modRouter p n f).slices = s.slices := rfl
@[simp] theorem State.modRouter_clusters (s : State) (p n : Nat) (f : Router → Router) : (s.modRouter p n f).clusters = s.clusters := rfl
@[simp] theorem State.modRouter_parts (s : State) (p n : Nat) (f : Router → Router) : (s.modRouter p n f).parts = s.parts := rfl
@[simp] theorem State.modRouter_incs (s : State) (p n : Nat) (f : Router → Router) : (s.modRouter p n f).incs = s.incs := rfl
@[simp] theorem State.modRouter_liveTags (s : State) (p n : Nat) (f : Router → Router) : (s.modRouter p n f).liveTags = s.liveTags := rfl
@[simp] theorem State.modRouter_leftCells (s : State) (p n : Nat) (f : Router → Router) : (s.modRouter p n f).leftCells = s.leftCells := rfl
@[simp] theorem State.modRouter_grids (s : State) (p n : Nat) (f : Router → Router) : (s.modRouter p n f).grids = s.grids := rfl
@[simp] theorem State.modRouter_crews (s : State) (p n : Nat) (f : Router → Router) : (s.modRouter p n f).crews = s.crews := rfl
@[simp] theorem State.modRouter_reqs (s : State) (p n : Nat) (f : Router → Router) : (s.modRouter p n f).reqs = s.reqs := rfl
@[simp] theorem State.modRouter_pends (s : State) (p n : Nat) (f : Router → Router) : (s.modRouter p n f).pends = s.pends := rfl
@[simp] theorem State.modRouter_toks (s : State) (p n : Nat) (f : Router → Router) : (s.modRouter p n f).toks = s.toks := rfl
@[simp] theorem State.modRouter_fab (s : State) (p n : Nat) (f : Router → Router) : (s.modRouter p n f).fab = s.fab := rfl
@[simp] theorem State.modRouter_txnHold (s : State) (p n : Nat) (f : Router → Router) : (s.modRouter p n f).txnHold = s.txnHold := rfl
@[simp] theorem State.modRouter_streamSeq (s : State) (p n : Nat) (f : Router → Router) : (s.modRouter p n f).streamSeq = s.streamSeq := rfl
@[simp] theorem State.modRouter_replays (s : State) (p n : Nat) (f : Router → Router) : (s.modRouter p n f).replays = s.replays := rfl
@[simp] theorem State.modRouter_linkKey (s : State) (p n : Nat) (f : Router → Router) : (s.modRouter p n f).linkKey = s.linkKey := rfl
@[simp] theorem State.modRouter_portDrop (s : State) (p n : Nat) (f : Router → Router) : (s.modRouter p n f).portDrop = s.portDrop := rfl
@[simp] theorem State.modRouter_portTag (s : State) (p n : Nat) (f : Router → Router) : (s.modRouter p n f).portTag = s.portTag := rfl
@[simp] theorem State.modRouter_egress (s : State) (p n : Nat) (f : Router → Router) : (s.modRouter p n f).egress = s.egress := rfl
@[simp] theorem State.modRouter_seen (s : State) (p n : Nat) (f : Router → Router) : (s.modRouter p n f).seen = s.seen := rfl
@[simp] theorem State.modRouter_windows (s : State) (p n : Nat) (f : Router → Router) : (s.modRouter p n f).windows = s.windows := rfl
@[simp] theorem State.modRouter_inbound (s : State) (p n : Nat) (f : Router → Router) : (s.modRouter p n f).inbound = s.inbound := rfl
@[simp] theorem State.modRouter_hostReqs (s : State) (p n : Nat) (f : Router → Router) : (s.modRouter p n f).hostReqs = s.hostReqs := rfl
@[simp] theorem State.modRouter_reserves (s : State) (p n : Nat) (f : Router → Router) : (s.modRouter p n f).reserves = s.reserves := rfl
@[simp] theorem State.modRouter_checks (s : State) (p n : Nat) (f : Router → Router) : (s.modRouter p n f).checks = s.checks := rfl
@[simp] theorem State.modRouter_hostOut (s : State) (p n : Nat) (f : Router → Router) : (s.modRouter p n f).hostOut = s.hostOut := rfl
@[simp] theorem State.modRouter_hostIn (s : State) (p n : Nat) (f : Router → Router) : (s.modRouter p n f).hostIn = s.hostIn := rfl
@[simp] theorem State.modRouter_msixOut (s : State) (p n : Nat) (f : Router → Router) : (s.modRouter p n f).msixOut = s.msixOut := rfl
@[simp] theorem State.modRouter_fabOut (s : State) (p n : Nat) (f : Router → Router) : (s.modRouter p n f).fabOut = s.fabOut := rfl
@[simp] theorem State.modRouter_doeOut (s : State) (p n : Nat) (f : Router → Router) : (s.modRouter p n f).doeOut = s.doeOut := rfl
@[simp] theorem State.modRouter_bar0Out (s : State) (p n : Nat) (f : Router → Router) : (s.modRouter p n f).bar0Out = s.bar0Out := rfl
@[simp] theorem State.modRouter_svcLog (s : State) (p n : Nat) (f : Router → Router) : (s.modRouter p n f).svcLog = s.svcLog := rfl
@[simp] theorem State.modRouter_mgmtOut (s : State) (p n : Nat) (f : Router → Router) : (s.modRouter p n f).mgmtOut = s.mgmtOut := rfl
@[simp] theorem State.modRouter_mr (s : State) (p n : Nat) (f : Router → Router) : (s.modRouter p n f).mr = s.mr := rfl
@[simp] theorem State.modRouter_lifecycle (s : State) (p n : Nat) (f : Router → Router) : (s.modRouter p n f).lifecycle = s.lifecycle := rfl
@[simp] theorem State.modRouter_chal (s : State) (p n : Nat) (f : Router → Router) : (s.modRouter p n f).chal = s.chal := rfl
@[simp] theorem State.modRouter_latchV (s : State) (p n : Nat) (f : Router → Router) : (s.modRouter p n f).latchV = s.latchV := rfl
@[simp] theorem State.modRouter_latchW (s : State) (p n : Nat) (f : Router → Router) : (s.modRouter p n f).latchW = s.latchW := rfl
@[simp] theorem State.modRouter_latchM (s : State) (p n : Nat) (f : Router → Router) : (s.modRouter p n f).latchM = s.latchM := rfl
@[simp] theorem State.modRouter_latched (s : State) (p n : Nat) (f : Router → Router) : (s.modRouter p n f).latched = s.latched := rfl
@[simp] theorem State.modRouter_colds (s : State) (p n : Nat) (f : Router → Router) : (s.modRouter p n f).colds = s.colds := rfl
@[simp] theorem State.modRouter_debugPort (s : State) (p n : Nat) (f : Router → Router) : (s.modRouter p n f).debugPort = s.debugPort := rfl

/-! `State.modQueue`. -/

@[simp] theorem State.modQueue_rail (s : State) (g q : Nat) (f : Queue → Queue) : (s.modQueue g q f).rail = s.rail := rfl
@[simp] theorem State.modQueue_time (s : State) (g q : Nat) (f : Queue → Queue) : (s.modQueue g q f).time = s.time := rfl
@[simp] theorem State.modQueue_tick (s : State) (g q : Nat) (f : Queue → Queue) : (s.modQueue g q f).tick = s.tick := rfl
@[simp] theorem State.modQueue_turns (s : State) (g q : Nat) (f : Queue → Queue) : (s.modQueue g q f).turns = s.turns := rfl
@[simp] theorem State.modQueue_cur (s : State) (g q : Nat) (f : Queue → Queue) : (s.modQueue g q f).cur = s.cur := rfl
@[simp] theorem State.modQueue_nextId (s : State) (g q : Nat) (f : Queue → Queue) : (s.modQueue g q f).nextId = s.nextId := rfl
@[simp] theorem State.modQueue_svcRdy (s : State) (g q : Nat) (f : Queue → Queue) : (s.modQueue g q f).svcRdy = s.svcRdy := rfl
@[simp] theorem State.modQueue_rtrRdy (s : State) (g q : Nat) (f : Queue → Queue) : (s.modQueue g q f).rtrRdy = s.rtrRdy := rfl
@[simp] theorem State.modQueue_slRdy (s : State) (g q : Nat) (f : Queue → Queue) : (s.modQueue g q f).slRdy = s.slRdy := rfl
@[simp] theorem State.modQueue_chRdy (s : State) (g q : Nat) (f : Queue → Queue) : (s.modQueue g q f).chRdy = s.chRdy := rfl
@[simp] theorem State.modQueue_clRdy (s : State) (g q : Nat) (f : Queue → Queue) : (s.modQueue g q f).clRdy = s.clRdy := rfl
@[simp] theorem State.modQueue_hpRdy (s : State) (g q : Nat) (f : Queue → Queue) : (s.modQueue g q f).hpRdy = s.hpRdy := rfl
@[simp] theorem State.modQueue_fpRdy (s : State) (g q : Nat) (f : Queue → Queue) : (s.modQueue g q f).fpRdy = s.fpRdy := rfl
@[simp] theorem State.modQueue_ksRdy (s : State) (g q : Nat) (f : Queue → Queue) : (s.modQueue g q f).ksRdy = s.ksRdy := rfl
@[simp] theorem State.modQueue_failed (s : State) (g q : Nat) (f : Queue → Queue) : (s.modQueue g q f).failed = s.failed := rfl
@[simp] theorem State.modQueue_fenced (s : State) (g q : Nat) (f : Queue → Queue) : (s.modQueue g q f).fenced = s.fenced := rfl
@[simp] theorem State.modQueue_fencedRtr (s : State) (g q : Nat) (f : Queue → Queue) : (s.modQueue g q f).fencedRtr = s.fencedRtr := rfl
@[simp] theorem State.modQueue_zoneBad (s : State) (g q : Nat) (f : Queue → Queue) : (s.modQueue g q f).zoneBad = s.zoneBad := rfl
@[simp] theorem State.modQueue_zonecur (s : State) (g q : Nat) (f : Queue → Queue) : (s.modQueue g q f).zonecur = s.zonecur := rfl
@[simp] theorem State.modQueue_pkgpwr (s : State) (g q : Nat) (f : Queue → Queue) : (s.modQueue g q f).pkgpwr = s.pkgpwr := rfl
@[simp] theorem State.modQueue_overAt (s : State) (g q : Nat) (f : Queue → Queue) : (s.modQueue g q f).overAt = s.overAt := rfl
@[simp] theorem State.modQueue_mem (s : State) (g q : Nat) (f : Queue → Queue) : (s.modQueue g q f).mem = s.mem := rfl
@[simp] theorem State.modQueue_memPz (s : State) (g q : Nat) (f : Queue → Queue) : (s.modQueue g q f).memPz = s.memPz := rfl
@[simp] theorem State.modQueue_marks (s : State) (g q : Nat) (f : Queue → Queue) : (s.modQueue g q f).marks = s.marks := rfl
@[simp] theorem State.modQueue_own (s : State) (g q : Nat) (f : Queue → Queue) : (s.modQueue g q f).own = s.own := rfl
@[simp] theorem State.modQueue_areas (s : State) (g q : Nat) (f : Queue → Queue) : (s.modQueue g q f).areas = s.areas := rfl
@[simp] theorem State.modQueue_acqWait (s : State) (g q : Nat) (f : Queue → Queue) : (s.modQueue g q f).acqWait = s.acqWait := rfl
@[simp] theorem State.modQueue_slices (s : State) (g q : Nat) (f : Queue → Queue) : (s.modQueue g q f).slices = s.slices := rfl
@[simp] theorem State.modQueue_routers (s : State) (g q : Nat) (f : Queue → Queue) : (s.modQueue g q f).routers = s.routers := rfl
@[simp] theorem State.modQueue_clusters (s : State) (g q : Nat) (f : Queue → Queue) : (s.modQueue g q f).clusters = s.clusters := rfl
@[simp] theorem State.modQueue_incs (s : State) (g q : Nat) (f : Queue → Queue) : (s.modQueue g q f).incs = s.incs := rfl
@[simp] theorem State.modQueue_liveTags (s : State) (g q : Nat) (f : Queue → Queue) : (s.modQueue g q f).liveTags = s.liveTags := rfl
@[simp] theorem State.modQueue_leftCells (s : State) (g q : Nat) (f : Queue → Queue) : (s.modQueue g q f).leftCells = s.leftCells := rfl
@[simp] theorem State.modQueue_grids (s : State) (g q : Nat) (f : Queue → Queue) : (s.modQueue g q f).grids = s.grids := rfl
@[simp] theorem State.modQueue_crews (s : State) (g q : Nat) (f : Queue → Queue) : (s.modQueue g q f).crews = s.crews := rfl
@[simp] theorem State.modQueue_reqs (s : State) (g q : Nat) (f : Queue → Queue) : (s.modQueue g q f).reqs = s.reqs := rfl
@[simp] theorem State.modQueue_pends (s : State) (g q : Nat) (f : Queue → Queue) : (s.modQueue g q f).pends = s.pends := rfl
@[simp] theorem State.modQueue_toks (s : State) (g q : Nat) (f : Queue → Queue) : (s.modQueue g q f).toks = s.toks := rfl
@[simp] theorem State.modQueue_fab (s : State) (g q : Nat) (f : Queue → Queue) : (s.modQueue g q f).fab = s.fab := rfl
@[simp] theorem State.modQueue_txnHold (s : State) (g q : Nat) (f : Queue → Queue) : (s.modQueue g q f).txnHold = s.txnHold := rfl
@[simp] theorem State.modQueue_streamSeq (s : State) (g q : Nat) (f : Queue → Queue) : (s.modQueue g q f).streamSeq = s.streamSeq := rfl
@[simp] theorem State.modQueue_replays (s : State) (g q : Nat) (f : Queue → Queue) : (s.modQueue g q f).replays = s.replays := rfl
@[simp] theorem State.modQueue_linkKey (s : State) (g q : Nat) (f : Queue → Queue) : (s.modQueue g q f).linkKey = s.linkKey := rfl
@[simp] theorem State.modQueue_portDrop (s : State) (g q : Nat) (f : Queue → Queue) : (s.modQueue g q f).portDrop = s.portDrop := rfl
@[simp] theorem State.modQueue_portTag (s : State) (g q : Nat) (f : Queue → Queue) : (s.modQueue g q f).portTag = s.portTag := rfl
@[simp] theorem State.modQueue_egress (s : State) (g q : Nat) (f : Queue → Queue) : (s.modQueue g q f).egress = s.egress := rfl
@[simp] theorem State.modQueue_seen (s : State) (g q : Nat) (f : Queue → Queue) : (s.modQueue g q f).seen = s.seen := rfl
@[simp] theorem State.modQueue_windows (s : State) (g q : Nat) (f : Queue → Queue) : (s.modQueue g q f).windows = s.windows := rfl
@[simp] theorem State.modQueue_inbound (s : State) (g q : Nat) (f : Queue → Queue) : (s.modQueue g q f).inbound = s.inbound := rfl
@[simp] theorem State.modQueue_hostReqs (s : State) (g q : Nat) (f : Queue → Queue) : (s.modQueue g q f).hostReqs = s.hostReqs := rfl
@[simp] theorem State.modQueue_reserves (s : State) (g q : Nat) (f : Queue → Queue) : (s.modQueue g q f).reserves = s.reserves := rfl
@[simp] theorem State.modQueue_checks (s : State) (g q : Nat) (f : Queue → Queue) : (s.modQueue g q f).checks = s.checks := rfl
@[simp] theorem State.modQueue_hostOut (s : State) (g q : Nat) (f : Queue → Queue) : (s.modQueue g q f).hostOut = s.hostOut := rfl
@[simp] theorem State.modQueue_hostIn (s : State) (g q : Nat) (f : Queue → Queue) : (s.modQueue g q f).hostIn = s.hostIn := rfl
@[simp] theorem State.modQueue_msixOut (s : State) (g q : Nat) (f : Queue → Queue) : (s.modQueue g q f).msixOut = s.msixOut := rfl
@[simp] theorem State.modQueue_fabOut (s : State) (g q : Nat) (f : Queue → Queue) : (s.modQueue g q f).fabOut = s.fabOut := rfl
@[simp] theorem State.modQueue_doeOut (s : State) (g q : Nat) (f : Queue → Queue) : (s.modQueue g q f).doeOut = s.doeOut := rfl
@[simp] theorem State.modQueue_bar0Out (s : State) (g q : Nat) (f : Queue → Queue) : (s.modQueue g q f).bar0Out = s.bar0Out := rfl
@[simp] theorem State.modQueue_svcLog (s : State) (g q : Nat) (f : Queue → Queue) : (s.modQueue g q f).svcLog = s.svcLog := rfl
@[simp] theorem State.modQueue_mgmtOut (s : State) (g q : Nat) (f : Queue → Queue) : (s.modQueue g q f).mgmtOut = s.mgmtOut := rfl
@[simp] theorem State.modQueue_mr (s : State) (g q : Nat) (f : Queue → Queue) : (s.modQueue g q f).mr = s.mr := rfl
@[simp] theorem State.modQueue_lifecycle (s : State) (g q : Nat) (f : Queue → Queue) : (s.modQueue g q f).lifecycle = s.lifecycle := rfl
@[simp] theorem State.modQueue_chal (s : State) (g q : Nat) (f : Queue → Queue) : (s.modQueue g q f).chal = s.chal := rfl
@[simp] theorem State.modQueue_latchV (s : State) (g q : Nat) (f : Queue → Queue) : (s.modQueue g q f).latchV = s.latchV := rfl
@[simp] theorem State.modQueue_latchW (s : State) (g q : Nat) (f : Queue → Queue) : (s.modQueue g q f).latchW = s.latchW := rfl
@[simp] theorem State.modQueue_latchM (s : State) (g q : Nat) (f : Queue → Queue) : (s.modQueue g q f).latchM = s.latchM := rfl
@[simp] theorem State.modQueue_latched (s : State) (g q : Nat) (f : Queue → Queue) : (s.modQueue g q f).latched = s.latched := rfl
@[simp] theorem State.modQueue_colds (s : State) (g q : Nat) (f : Queue → Queue) : (s.modQueue g q f).colds = s.colds := rfl
@[simp] theorem State.modQueue_debugPort (s : State) (g q : Nat) (f : Queue → Queue) : (s.modQueue g q f).debugPort = s.debugPort := rfl

/-! `State.setCell`. -/

@[simp] theorem State.setCell_rail (s : State) (c st g : Nat) : (s.setCell c st g).rail = s.rail := rfl
@[simp] theorem State.setCell_time (s : State) (c st g : Nat) : (s.setCell c st g).time = s.time := rfl
@[simp] theorem State.setCell_tick (s : State) (c st g : Nat) : (s.setCell c st g).tick = s.tick := rfl
@[simp] theorem State.setCell_turns (s : State) (c st g : Nat) : (s.setCell c st g).turns = s.turns := rfl
@[simp] theorem State.setCell_cur (s : State) (c st g : Nat) : (s.setCell c st g).cur = s.cur := rfl
@[simp] theorem State.setCell_nextId (s : State) (c st g : Nat) : (s.setCell c st g).nextId = s.nextId := rfl
@[simp] theorem State.setCell_svcRdy (s : State) (c st g : Nat) : (s.setCell c st g).svcRdy = s.svcRdy := rfl
@[simp] theorem State.setCell_rtrRdy (s : State) (c st g : Nat) : (s.setCell c st g).rtrRdy = s.rtrRdy := rfl
@[simp] theorem State.setCell_slRdy (s : State) (c st g : Nat) : (s.setCell c st g).slRdy = s.slRdy := rfl
@[simp] theorem State.setCell_chRdy (s : State) (c st g : Nat) : (s.setCell c st g).chRdy = s.chRdy := rfl
@[simp] theorem State.setCell_clRdy (s : State) (c st g : Nat) : (s.setCell c st g).clRdy = s.clRdy := rfl
@[simp] theorem State.setCell_hpRdy (s : State) (c st g : Nat) : (s.setCell c st g).hpRdy = s.hpRdy := rfl
@[simp] theorem State.setCell_fpRdy (s : State) (c st g : Nat) : (s.setCell c st g).fpRdy = s.fpRdy := rfl
@[simp] theorem State.setCell_ksRdy (s : State) (c st g : Nat) : (s.setCell c st g).ksRdy = s.ksRdy := rfl
@[simp] theorem State.setCell_failed (s : State) (c st g : Nat) : (s.setCell c st g).failed = s.failed := rfl
@[simp] theorem State.setCell_fenced (s : State) (c st g : Nat) : (s.setCell c st g).fenced = s.fenced := rfl
@[simp] theorem State.setCell_fencedRtr (s : State) (c st g : Nat) : (s.setCell c st g).fencedRtr = s.fencedRtr := rfl
@[simp] theorem State.setCell_zoneBad (s : State) (c st g : Nat) : (s.setCell c st g).zoneBad = s.zoneBad := rfl
@[simp] theorem State.setCell_zonecur (s : State) (c st g : Nat) : (s.setCell c st g).zonecur = s.zonecur := rfl
@[simp] theorem State.setCell_pkgpwr (s : State) (c st g : Nat) : (s.setCell c st g).pkgpwr = s.pkgpwr := rfl
@[simp] theorem State.setCell_overAt (s : State) (c st g : Nat) : (s.setCell c st g).overAt = s.overAt := rfl
@[simp] theorem State.setCell_mem (s : State) (c st g : Nat) : (s.setCell c st g).mem = s.mem := rfl
@[simp] theorem State.setCell_memPz (s : State) (c st g : Nat) : (s.setCell c st g).memPz = s.memPz := rfl
@[simp] theorem State.setCell_marks (s : State) (c st g : Nat) : (s.setCell c st g).marks = s.marks := rfl
@[simp] theorem State.setCell_acqWait (s : State) (c st g : Nat) : (s.setCell c st g).acqWait = s.acqWait := rfl
@[simp] theorem State.setCell_slices (s : State) (c st g : Nat) : (s.setCell c st g).slices = s.slices := rfl
@[simp] theorem State.setCell_routers (s : State) (c st g : Nat) : (s.setCell c st g).routers = s.routers := rfl
@[simp] theorem State.setCell_clusters (s : State) (c st g : Nat) : (s.setCell c st g).clusters = s.clusters := rfl
@[simp] theorem State.setCell_parts (s : State) (c st g : Nat) : (s.setCell c st g).parts = s.parts := rfl
@[simp] theorem State.setCell_incs (s : State) (c st g : Nat) : (s.setCell c st g).incs = s.incs := rfl
@[simp] theorem State.setCell_liveTags (s : State) (c st g : Nat) : (s.setCell c st g).liveTags = s.liveTags := rfl
@[simp] theorem State.setCell_leftCells (s : State) (c st g : Nat) : (s.setCell c st g).leftCells = s.leftCells := rfl
@[simp] theorem State.setCell_grids (s : State) (c st g : Nat) : (s.setCell c st g).grids = s.grids := rfl
@[simp] theorem State.setCell_crews (s : State) (c st g : Nat) : (s.setCell c st g).crews = s.crews := rfl
@[simp] theorem State.setCell_reqs (s : State) (c st g : Nat) : (s.setCell c st g).reqs = s.reqs := rfl
@[simp] theorem State.setCell_pends (s : State) (c st g : Nat) : (s.setCell c st g).pends = s.pends := rfl
@[simp] theorem State.setCell_toks (s : State) (c st g : Nat) : (s.setCell c st g).toks = s.toks := rfl
@[simp] theorem State.setCell_fab (s : State) (c st g : Nat) : (s.setCell c st g).fab = s.fab := rfl
@[simp] theorem State.setCell_txnHold (s : State) (c st g : Nat) : (s.setCell c st g).txnHold = s.txnHold := rfl
@[simp] theorem State.setCell_streamSeq (s : State) (c st g : Nat) : (s.setCell c st g).streamSeq = s.streamSeq := rfl
@[simp] theorem State.setCell_replays (s : State) (c st g : Nat) : (s.setCell c st g).replays = s.replays := rfl
@[simp] theorem State.setCell_linkKey (s : State) (c st g : Nat) : (s.setCell c st g).linkKey = s.linkKey := rfl
@[simp] theorem State.setCell_portDrop (s : State) (c st g : Nat) : (s.setCell c st g).portDrop = s.portDrop := rfl
@[simp] theorem State.setCell_portTag (s : State) (c st g : Nat) : (s.setCell c st g).portTag = s.portTag := rfl
@[simp] theorem State.setCell_egress (s : State) (c st g : Nat) : (s.setCell c st g).egress = s.egress := rfl
@[simp] theorem State.setCell_seen (s : State) (c st g : Nat) : (s.setCell c st g).seen = s.seen := rfl
@[simp] theorem State.setCell_windows (s : State) (c st g : Nat) : (s.setCell c st g).windows = s.windows := rfl
@[simp] theorem State.setCell_inbound (s : State) (c st g : Nat) : (s.setCell c st g).inbound = s.inbound := rfl
@[simp] theorem State.setCell_hostReqs (s : State) (c st g : Nat) : (s.setCell c st g).hostReqs = s.hostReqs := rfl
@[simp] theorem State.setCell_reserves (s : State) (c st g : Nat) : (s.setCell c st g).reserves = s.reserves := rfl
@[simp] theorem State.setCell_checks (s : State) (c st g : Nat) : (s.setCell c st g).checks = s.checks := rfl
@[simp] theorem State.setCell_hostOut (s : State) (c st g : Nat) : (s.setCell c st g).hostOut = s.hostOut := rfl
@[simp] theorem State.setCell_hostIn (s : State) (c st g : Nat) : (s.setCell c st g).hostIn = s.hostIn := rfl
@[simp] theorem State.setCell_msixOut (s : State) (c st g : Nat) : (s.setCell c st g).msixOut = s.msixOut := rfl
@[simp] theorem State.setCell_fabOut (s : State) (c st g : Nat) : (s.setCell c st g).fabOut = s.fabOut := rfl
@[simp] theorem State.setCell_doeOut (s : State) (c st g : Nat) : (s.setCell c st g).doeOut = s.doeOut := rfl
@[simp] theorem State.setCell_bar0Out (s : State) (c st g : Nat) : (s.setCell c st g).bar0Out = s.bar0Out := rfl
@[simp] theorem State.setCell_svcLog (s : State) (c st g : Nat) : (s.setCell c st g).svcLog = s.svcLog := rfl
@[simp] theorem State.setCell_mgmtOut (s : State) (c st g : Nat) : (s.setCell c st g).mgmtOut = s.mgmtOut := rfl
@[simp] theorem State.setCell_mr (s : State) (c st g : Nat) : (s.setCell c st g).mr = s.mr := rfl
@[simp] theorem State.setCell_lifecycle (s : State) (c st g : Nat) : (s.setCell c st g).lifecycle = s.lifecycle := rfl
@[simp] theorem State.setCell_chal (s : State) (c st g : Nat) : (s.setCell c st g).chal = s.chal := rfl
@[simp] theorem State.setCell_latchV (s : State) (c st g : Nat) : (s.setCell c st g).latchV = s.latchV := rfl
@[simp] theorem State.setCell_latchW (s : State) (c st g : Nat) : (s.setCell c st g).latchW = s.latchW := rfl
@[simp] theorem State.setCell_latchM (s : State) (c st g : Nat) : (s.setCell c st g).latchM = s.latchM := rfl
@[simp] theorem State.setCell_latched (s : State) (c st g : Nat) : (s.setCell c st g).latched = s.latched := rfl
@[simp] theorem State.setCell_colds (s : State) (c st g : Nat) : (s.setCell c st g).colds = s.colds := rfl
@[simp] theorem State.setCell_debugPort (s : State) (c st g : Nat) : (s.setCell c st g).debugPort = s.debugPort := rfl

/-! `State.dueTrap`. -/

@[simp] theorem State.dueTrap_rail (s : State) (i co l : Nat) (x : TrapRec) : (s.dueTrap i co l x).rail = s.rail := rfl
@[simp] theorem State.dueTrap_time (s : State) (i co l : Nat) (x : TrapRec) : (s.dueTrap i co l x).time = s.time := rfl
@[simp] theorem State.dueTrap_tick (s : State) (i co l : Nat) (x : TrapRec) : (s.dueTrap i co l x).tick = s.tick := rfl
@[simp] theorem State.dueTrap_turns (s : State) (i co l : Nat) (x : TrapRec) : (s.dueTrap i co l x).turns = s.turns := rfl
@[simp] theorem State.dueTrap_cur (s : State) (i co l : Nat) (x : TrapRec) : (s.dueTrap i co l x).cur = s.cur := rfl
@[simp] theorem State.dueTrap_nextId (s : State) (i co l : Nat) (x : TrapRec) : (s.dueTrap i co l x).nextId = s.nextId := rfl
@[simp] theorem State.dueTrap_svcRdy (s : State) (i co l : Nat) (x : TrapRec) : (s.dueTrap i co l x).svcRdy = s.svcRdy := rfl
@[simp] theorem State.dueTrap_rtrRdy (s : State) (i co l : Nat) (x : TrapRec) : (s.dueTrap i co l x).rtrRdy = s.rtrRdy := rfl
@[simp] theorem State.dueTrap_slRdy (s : State) (i co l : Nat) (x : TrapRec) : (s.dueTrap i co l x).slRdy = s.slRdy := rfl
@[simp] theorem State.dueTrap_chRdy (s : State) (i co l : Nat) (x : TrapRec) : (s.dueTrap i co l x).chRdy = s.chRdy := rfl
@[simp] theorem State.dueTrap_clRdy (s : State) (i co l : Nat) (x : TrapRec) : (s.dueTrap i co l x).clRdy = s.clRdy := rfl
@[simp] theorem State.dueTrap_hpRdy (s : State) (i co l : Nat) (x : TrapRec) : (s.dueTrap i co l x).hpRdy = s.hpRdy := rfl
@[simp] theorem State.dueTrap_fpRdy (s : State) (i co l : Nat) (x : TrapRec) : (s.dueTrap i co l x).fpRdy = s.fpRdy := rfl
@[simp] theorem State.dueTrap_ksRdy (s : State) (i co l : Nat) (x : TrapRec) : (s.dueTrap i co l x).ksRdy = s.ksRdy := rfl
@[simp] theorem State.dueTrap_failed (s : State) (i co l : Nat) (x : TrapRec) : (s.dueTrap i co l x).failed = s.failed := rfl
@[simp] theorem State.dueTrap_fenced (s : State) (i co l : Nat) (x : TrapRec) : (s.dueTrap i co l x).fenced = s.fenced := rfl
@[simp] theorem State.dueTrap_fencedRtr (s : State) (i co l : Nat) (x : TrapRec) : (s.dueTrap i co l x).fencedRtr = s.fencedRtr := rfl
@[simp] theorem State.dueTrap_zoneBad (s : State) (i co l : Nat) (x : TrapRec) : (s.dueTrap i co l x).zoneBad = s.zoneBad := rfl
@[simp] theorem State.dueTrap_zonecur (s : State) (i co l : Nat) (x : TrapRec) : (s.dueTrap i co l x).zonecur = s.zonecur := rfl
@[simp] theorem State.dueTrap_pkgpwr (s : State) (i co l : Nat) (x : TrapRec) : (s.dueTrap i co l x).pkgpwr = s.pkgpwr := rfl
@[simp] theorem State.dueTrap_overAt (s : State) (i co l : Nat) (x : TrapRec) : (s.dueTrap i co l x).overAt = s.overAt := rfl
@[simp] theorem State.dueTrap_mem (s : State) (i co l : Nat) (x : TrapRec) : (s.dueTrap i co l x).mem = s.mem := rfl
@[simp] theorem State.dueTrap_memPz (s : State) (i co l : Nat) (x : TrapRec) : (s.dueTrap i co l x).memPz = s.memPz := rfl
@[simp] theorem State.dueTrap_marks (s : State) (i co l : Nat) (x : TrapRec) : (s.dueTrap i co l x).marks = s.marks := rfl
@[simp] theorem State.dueTrap_own (s : State) (i co l : Nat) (x : TrapRec) : (s.dueTrap i co l x).own = s.own := rfl
@[simp] theorem State.dueTrap_areas (s : State) (i co l : Nat) (x : TrapRec) : (s.dueTrap i co l x).areas = s.areas := rfl
@[simp] theorem State.dueTrap_acqWait (s : State) (i co l : Nat) (x : TrapRec) : (s.dueTrap i co l x).acqWait = s.acqWait := rfl
@[simp] theorem State.dueTrap_slices (s : State) (i co l : Nat) (x : TrapRec) : (s.dueTrap i co l x).slices = s.slices := rfl
@[simp] theorem State.dueTrap_routers (s : State) (i co l : Nat) (x : TrapRec) : (s.dueTrap i co l x).routers = s.routers := rfl
@[simp] theorem State.dueTrap_clusters (s : State) (i co l : Nat) (x : TrapRec) : (s.dueTrap i co l x).clusters = s.clusters := rfl
@[simp] theorem State.dueTrap_parts (s : State) (i co l : Nat) (x : TrapRec) : (s.dueTrap i co l x).parts = s.parts := rfl
@[simp] theorem State.dueTrap_incs (s : State) (i co l : Nat) (x : TrapRec) : (s.dueTrap i co l x).incs = s.incs := rfl
@[simp] theorem State.dueTrap_liveTags (s : State) (i co l : Nat) (x : TrapRec) : (s.dueTrap i co l x).liveTags = s.liveTags := rfl
@[simp] theorem State.dueTrap_leftCells (s : State) (i co l : Nat) (x : TrapRec) : (s.dueTrap i co l x).leftCells = s.leftCells := rfl
@[simp] theorem State.dueTrap_grids (s : State) (i co l : Nat) (x : TrapRec) : (s.dueTrap i co l x).grids = s.grids := rfl
@[simp] theorem State.dueTrap_reqs (s : State) (i co l : Nat) (x : TrapRec) : (s.dueTrap i co l x).reqs = s.reqs := rfl
@[simp] theorem State.dueTrap_pends (s : State) (i co l : Nat) (x : TrapRec) : (s.dueTrap i co l x).pends = s.pends := rfl
@[simp] theorem State.dueTrap_toks (s : State) (i co l : Nat) (x : TrapRec) : (s.dueTrap i co l x).toks = s.toks := rfl
@[simp] theorem State.dueTrap_fab (s : State) (i co l : Nat) (x : TrapRec) : (s.dueTrap i co l x).fab = s.fab := rfl
@[simp] theorem State.dueTrap_txnHold (s : State) (i co l : Nat) (x : TrapRec) : (s.dueTrap i co l x).txnHold = s.txnHold := rfl
@[simp] theorem State.dueTrap_streamSeq (s : State) (i co l : Nat) (x : TrapRec) : (s.dueTrap i co l x).streamSeq = s.streamSeq := rfl
@[simp] theorem State.dueTrap_replays (s : State) (i co l : Nat) (x : TrapRec) : (s.dueTrap i co l x).replays = s.replays := rfl
@[simp] theorem State.dueTrap_linkKey (s : State) (i co l : Nat) (x : TrapRec) : (s.dueTrap i co l x).linkKey = s.linkKey := rfl
@[simp] theorem State.dueTrap_portDrop (s : State) (i co l : Nat) (x : TrapRec) : (s.dueTrap i co l x).portDrop = s.portDrop := rfl
@[simp] theorem State.dueTrap_portTag (s : State) (i co l : Nat) (x : TrapRec) : (s.dueTrap i co l x).portTag = s.portTag := rfl
@[simp] theorem State.dueTrap_egress (s : State) (i co l : Nat) (x : TrapRec) : (s.dueTrap i co l x).egress = s.egress := rfl
@[simp] theorem State.dueTrap_seen (s : State) (i co l : Nat) (x : TrapRec) : (s.dueTrap i co l x).seen = s.seen := rfl
@[simp] theorem State.dueTrap_windows (s : State) (i co l : Nat) (x : TrapRec) : (s.dueTrap i co l x).windows = s.windows := rfl
@[simp] theorem State.dueTrap_inbound (s : State) (i co l : Nat) (x : TrapRec) : (s.dueTrap i co l x).inbound = s.inbound := rfl
@[simp] theorem State.dueTrap_hostReqs (s : State) (i co l : Nat) (x : TrapRec) : (s.dueTrap i co l x).hostReqs = s.hostReqs := rfl
@[simp] theorem State.dueTrap_reserves (s : State) (i co l : Nat) (x : TrapRec) : (s.dueTrap i co l x).reserves = s.reserves := rfl
@[simp] theorem State.dueTrap_checks (s : State) (i co l : Nat) (x : TrapRec) : (s.dueTrap i co l x).checks = s.checks := rfl
@[simp] theorem State.dueTrap_hostOut (s : State) (i co l : Nat) (x : TrapRec) : (s.dueTrap i co l x).hostOut = s.hostOut := rfl
@[simp] theorem State.dueTrap_hostIn (s : State) (i co l : Nat) (x : TrapRec) : (s.dueTrap i co l x).hostIn = s.hostIn := rfl
@[simp] theorem State.dueTrap_msixOut (s : State) (i co l : Nat) (x : TrapRec) : (s.dueTrap i co l x).msixOut = s.msixOut := rfl
@[simp] theorem State.dueTrap_fabOut (s : State) (i co l : Nat) (x : TrapRec) : (s.dueTrap i co l x).fabOut = s.fabOut := rfl
@[simp] theorem State.dueTrap_doeOut (s : State) (i co l : Nat) (x : TrapRec) : (s.dueTrap i co l x).doeOut = s.doeOut := rfl
@[simp] theorem State.dueTrap_bar0Out (s : State) (i co l : Nat) (x : TrapRec) : (s.dueTrap i co l x).bar0Out = s.bar0Out := rfl
@[simp] theorem State.dueTrap_svcLog (s : State) (i co l : Nat) (x : TrapRec) : (s.dueTrap i co l x).svcLog = s.svcLog := rfl
@[simp] theorem State.dueTrap_mgmtOut (s : State) (i co l : Nat) (x : TrapRec) : (s.dueTrap i co l x).mgmtOut = s.mgmtOut := rfl
@[simp] theorem State.dueTrap_mr (s : State) (i co l : Nat) (x : TrapRec) : (s.dueTrap i co l x).mr = s.mr := rfl
@[simp] theorem State.dueTrap_lifecycle (s : State) (i co l : Nat) (x : TrapRec) : (s.dueTrap i co l x).lifecycle = s.lifecycle := rfl
@[simp] theorem State.dueTrap_chal (s : State) (i co l : Nat) (x : TrapRec) : (s.dueTrap i co l x).chal = s.chal := rfl
@[simp] theorem State.dueTrap_latchV (s : State) (i co l : Nat) (x : TrapRec) : (s.dueTrap i co l x).latchV = s.latchV := rfl
@[simp] theorem State.dueTrap_latchW (s : State) (i co l : Nat) (x : TrapRec) : (s.dueTrap i co l x).latchW = s.latchW := rfl
@[simp] theorem State.dueTrap_latchM (s : State) (i co l : Nat) (x : TrapRec) : (s.dueTrap i co l x).latchM = s.latchM := rfl
@[simp] theorem State.dueTrap_latched (s : State) (i co l : Nat) (x : TrapRec) : (s.dueTrap i co l x).latched = s.latched := rfl
@[simp] theorem State.dueTrap_colds (s : State) (i co l : Nat) (x : TrapRec) : (s.dueTrap i co l x).colds = s.colds := rfl
@[simp] theorem State.dueTrap_debugPort (s : State) (i co l : Nat) (x : TrapRec) : (s.dueTrap i co l x).debugPort = s.debugPort := rfl

/-! `State.setJoin`. -/

@[simp] theorem State.setJoin_rail (s : State) (i co n : Nat) (a e : BitVec 32) : (s.setJoin i co n a e).rail = s.rail := rfl
@[simp] theorem State.setJoin_time (s : State) (i co n : Nat) (a e : BitVec 32) : (s.setJoin i co n a e).time = s.time := rfl
@[simp] theorem State.setJoin_tick (s : State) (i co n : Nat) (a e : BitVec 32) : (s.setJoin i co n a e).tick = s.tick := rfl
@[simp] theorem State.setJoin_turns (s : State) (i co n : Nat) (a e : BitVec 32) : (s.setJoin i co n a e).turns = s.turns := rfl
@[simp] theorem State.setJoin_cur (s : State) (i co n : Nat) (a e : BitVec 32) : (s.setJoin i co n a e).cur = s.cur := rfl
@[simp] theorem State.setJoin_nextId (s : State) (i co n : Nat) (a e : BitVec 32) : (s.setJoin i co n a e).nextId = s.nextId := rfl
@[simp] theorem State.setJoin_svcRdy (s : State) (i co n : Nat) (a e : BitVec 32) : (s.setJoin i co n a e).svcRdy = s.svcRdy := rfl
@[simp] theorem State.setJoin_rtrRdy (s : State) (i co n : Nat) (a e : BitVec 32) : (s.setJoin i co n a e).rtrRdy = s.rtrRdy := rfl
@[simp] theorem State.setJoin_slRdy (s : State) (i co n : Nat) (a e : BitVec 32) : (s.setJoin i co n a e).slRdy = s.slRdy := rfl
@[simp] theorem State.setJoin_chRdy (s : State) (i co n : Nat) (a e : BitVec 32) : (s.setJoin i co n a e).chRdy = s.chRdy := rfl
@[simp] theorem State.setJoin_clRdy (s : State) (i co n : Nat) (a e : BitVec 32) : (s.setJoin i co n a e).clRdy = s.clRdy := rfl
@[simp] theorem State.setJoin_hpRdy (s : State) (i co n : Nat) (a e : BitVec 32) : (s.setJoin i co n a e).hpRdy = s.hpRdy := rfl
@[simp] theorem State.setJoin_fpRdy (s : State) (i co n : Nat) (a e : BitVec 32) : (s.setJoin i co n a e).fpRdy = s.fpRdy := rfl
@[simp] theorem State.setJoin_ksRdy (s : State) (i co n : Nat) (a e : BitVec 32) : (s.setJoin i co n a e).ksRdy = s.ksRdy := rfl
@[simp] theorem State.setJoin_failed (s : State) (i co n : Nat) (a e : BitVec 32) : (s.setJoin i co n a e).failed = s.failed := rfl
@[simp] theorem State.setJoin_fenced (s : State) (i co n : Nat) (a e : BitVec 32) : (s.setJoin i co n a e).fenced = s.fenced := rfl
@[simp] theorem State.setJoin_fencedRtr (s : State) (i co n : Nat) (a e : BitVec 32) : (s.setJoin i co n a e).fencedRtr = s.fencedRtr := rfl
@[simp] theorem State.setJoin_zoneBad (s : State) (i co n : Nat) (a e : BitVec 32) : (s.setJoin i co n a e).zoneBad = s.zoneBad := rfl
@[simp] theorem State.setJoin_zonecur (s : State) (i co n : Nat) (a e : BitVec 32) : (s.setJoin i co n a e).zonecur = s.zonecur := rfl
@[simp] theorem State.setJoin_pkgpwr (s : State) (i co n : Nat) (a e : BitVec 32) : (s.setJoin i co n a e).pkgpwr = s.pkgpwr := rfl
@[simp] theorem State.setJoin_overAt (s : State) (i co n : Nat) (a e : BitVec 32) : (s.setJoin i co n a e).overAt = s.overAt := rfl
@[simp] theorem State.setJoin_mem (s : State) (i co n : Nat) (a e : BitVec 32) : (s.setJoin i co n a e).mem = s.mem := rfl
@[simp] theorem State.setJoin_memPz (s : State) (i co n : Nat) (a e : BitVec 32) : (s.setJoin i co n a e).memPz = s.memPz := rfl
@[simp] theorem State.setJoin_marks (s : State) (i co n : Nat) (a e : BitVec 32) : (s.setJoin i co n a e).marks = s.marks := rfl
@[simp] theorem State.setJoin_own (s : State) (i co n : Nat) (a e : BitVec 32) : (s.setJoin i co n a e).own = s.own := rfl
@[simp] theorem State.setJoin_areas (s : State) (i co n : Nat) (a e : BitVec 32) : (s.setJoin i co n a e).areas = s.areas := rfl
@[simp] theorem State.setJoin_acqWait (s : State) (i co n : Nat) (a e : BitVec 32) : (s.setJoin i co n a e).acqWait = s.acqWait := rfl
@[simp] theorem State.setJoin_slices (s : State) (i co n : Nat) (a e : BitVec 32) : (s.setJoin i co n a e).slices = s.slices := rfl
@[simp] theorem State.setJoin_routers (s : State) (i co n : Nat) (a e : BitVec 32) : (s.setJoin i co n a e).routers = s.routers := rfl
@[simp] theorem State.setJoin_clusters (s : State) (i co n : Nat) (a e : BitVec 32) : (s.setJoin i co n a e).clusters = s.clusters := rfl
@[simp] theorem State.setJoin_parts (s : State) (i co n : Nat) (a e : BitVec 32) : (s.setJoin i co n a e).parts = s.parts := rfl
@[simp] theorem State.setJoin_incs (s : State) (i co n : Nat) (a e : BitVec 32) : (s.setJoin i co n a e).incs = s.incs := rfl
@[simp] theorem State.setJoin_liveTags (s : State) (i co n : Nat) (a e : BitVec 32) : (s.setJoin i co n a e).liveTags = s.liveTags := rfl
@[simp] theorem State.setJoin_leftCells (s : State) (i co n : Nat) (a e : BitVec 32) : (s.setJoin i co n a e).leftCells = s.leftCells := rfl
@[simp] theorem State.setJoin_grids (s : State) (i co n : Nat) (a e : BitVec 32) : (s.setJoin i co n a e).grids = s.grids := rfl
@[simp] theorem State.setJoin_reqs (s : State) (i co n : Nat) (a e : BitVec 32) : (s.setJoin i co n a e).reqs = s.reqs := rfl
@[simp] theorem State.setJoin_pends (s : State) (i co n : Nat) (a e : BitVec 32) : (s.setJoin i co n a e).pends = s.pends := rfl
@[simp] theorem State.setJoin_toks (s : State) (i co n : Nat) (a e : BitVec 32) : (s.setJoin i co n a e).toks = s.toks := rfl
@[simp] theorem State.setJoin_fab (s : State) (i co n : Nat) (a e : BitVec 32) : (s.setJoin i co n a e).fab = s.fab := rfl
@[simp] theorem State.setJoin_txnHold (s : State) (i co n : Nat) (a e : BitVec 32) : (s.setJoin i co n a e).txnHold = s.txnHold := rfl
@[simp] theorem State.setJoin_streamSeq (s : State) (i co n : Nat) (a e : BitVec 32) : (s.setJoin i co n a e).streamSeq = s.streamSeq := rfl
@[simp] theorem State.setJoin_replays (s : State) (i co n : Nat) (a e : BitVec 32) : (s.setJoin i co n a e).replays = s.replays := rfl
@[simp] theorem State.setJoin_linkKey (s : State) (i co n : Nat) (a e : BitVec 32) : (s.setJoin i co n a e).linkKey = s.linkKey := rfl
@[simp] theorem State.setJoin_portDrop (s : State) (i co n : Nat) (a e : BitVec 32) : (s.setJoin i co n a e).portDrop = s.portDrop := rfl
@[simp] theorem State.setJoin_portTag (s : State) (i co n : Nat) (a e : BitVec 32) : (s.setJoin i co n a e).portTag = s.portTag := rfl
@[simp] theorem State.setJoin_egress (s : State) (i co n : Nat) (a e : BitVec 32) : (s.setJoin i co n a e).egress = s.egress := rfl
@[simp] theorem State.setJoin_seen (s : State) (i co n : Nat) (a e : BitVec 32) : (s.setJoin i co n a e).seen = s.seen := rfl
@[simp] theorem State.setJoin_windows (s : State) (i co n : Nat) (a e : BitVec 32) : (s.setJoin i co n a e).windows = s.windows := rfl
@[simp] theorem State.setJoin_inbound (s : State) (i co n : Nat) (a e : BitVec 32) : (s.setJoin i co n a e).inbound = s.inbound := rfl
@[simp] theorem State.setJoin_hostReqs (s : State) (i co n : Nat) (a e : BitVec 32) : (s.setJoin i co n a e).hostReqs = s.hostReqs := rfl
@[simp] theorem State.setJoin_reserves (s : State) (i co n : Nat) (a e : BitVec 32) : (s.setJoin i co n a e).reserves = s.reserves := rfl
@[simp] theorem State.setJoin_checks (s : State) (i co n : Nat) (a e : BitVec 32) : (s.setJoin i co n a e).checks = s.checks := rfl
@[simp] theorem State.setJoin_hostOut (s : State) (i co n : Nat) (a e : BitVec 32) : (s.setJoin i co n a e).hostOut = s.hostOut := rfl
@[simp] theorem State.setJoin_hostIn (s : State) (i co n : Nat) (a e : BitVec 32) : (s.setJoin i co n a e).hostIn = s.hostIn := rfl
@[simp] theorem State.setJoin_msixOut (s : State) (i co n : Nat) (a e : BitVec 32) : (s.setJoin i co n a e).msixOut = s.msixOut := rfl
@[simp] theorem State.setJoin_fabOut (s : State) (i co n : Nat) (a e : BitVec 32) : (s.setJoin i co n a e).fabOut = s.fabOut := rfl
@[simp] theorem State.setJoin_doeOut (s : State) (i co n : Nat) (a e : BitVec 32) : (s.setJoin i co n a e).doeOut = s.doeOut := rfl
@[simp] theorem State.setJoin_bar0Out (s : State) (i co n : Nat) (a e : BitVec 32) : (s.setJoin i co n a e).bar0Out = s.bar0Out := rfl
@[simp] theorem State.setJoin_svcLog (s : State) (i co n : Nat) (a e : BitVec 32) : (s.setJoin i co n a e).svcLog = s.svcLog := rfl
@[simp] theorem State.setJoin_mgmtOut (s : State) (i co n : Nat) (a e : BitVec 32) : (s.setJoin i co n a e).mgmtOut = s.mgmtOut := rfl
@[simp] theorem State.setJoin_mr (s : State) (i co n : Nat) (a e : BitVec 32) : (s.setJoin i co n a e).mr = s.mr := rfl
@[simp] theorem State.setJoin_lifecycle (s : State) (i co n : Nat) (a e : BitVec 32) : (s.setJoin i co n a e).lifecycle = s.lifecycle := rfl
@[simp] theorem State.setJoin_chal (s : State) (i co n : Nat) (a e : BitVec 32) : (s.setJoin i co n a e).chal = s.chal := rfl
@[simp] theorem State.setJoin_latchV (s : State) (i co n : Nat) (a e : BitVec 32) : (s.setJoin i co n a e).latchV = s.latchV := rfl
@[simp] theorem State.setJoin_latchW (s : State) (i co n : Nat) (a e : BitVec 32) : (s.setJoin i co n a e).latchW = s.latchW := rfl
@[simp] theorem State.setJoin_latchM (s : State) (i co n : Nat) (a e : BitVec 32) : (s.setJoin i co n a e).latchM = s.latchM := rfl
@[simp] theorem State.setJoin_latched (s : State) (i co n : Nat) (a e : BitVec 32) : (s.setJoin i co n a e).latched = s.latched := rfl
@[simp] theorem State.setJoin_colds (s : State) (i co n : Nat) (a e : BitVec 32) : (s.setJoin i co n a e).colds = s.colds := rfl
@[simp] theorem State.setJoin_debugPort (s : State) (i co n : Nat) (a e : BitVec 32) : (s.setJoin i co n a e).debugPort = s.debugPort := rfl

/-! `State.clearLatches`. -/

@[simp] theorem State.clearLatches_rail (s : State) : (s.clearLatches).rail = s.rail := rfl
@[simp] theorem State.clearLatches_time (s : State) : (s.clearLatches).time = s.time := rfl
@[simp] theorem State.clearLatches_tick (s : State) : (s.clearLatches).tick = s.tick := rfl
@[simp] theorem State.clearLatches_turns (s : State) : (s.clearLatches).turns = s.turns := rfl
@[simp] theorem State.clearLatches_cur (s : State) : (s.clearLatches).cur = s.cur := rfl
@[simp] theorem State.clearLatches_nextId (s : State) : (s.clearLatches).nextId = s.nextId := rfl
@[simp] theorem State.clearLatches_svcRdy (s : State) : (s.clearLatches).svcRdy = s.svcRdy := rfl
@[simp] theorem State.clearLatches_rtrRdy (s : State) : (s.clearLatches).rtrRdy = s.rtrRdy := rfl
@[simp] theorem State.clearLatches_slRdy (s : State) : (s.clearLatches).slRdy = s.slRdy := rfl
@[simp] theorem State.clearLatches_chRdy (s : State) : (s.clearLatches).chRdy = s.chRdy := rfl
@[simp] theorem State.clearLatches_clRdy (s : State) : (s.clearLatches).clRdy = s.clRdy := rfl
@[simp] theorem State.clearLatches_hpRdy (s : State) : (s.clearLatches).hpRdy = s.hpRdy := rfl
@[simp] theorem State.clearLatches_fpRdy (s : State) : (s.clearLatches).fpRdy = s.fpRdy := rfl
@[simp] theorem State.clearLatches_ksRdy (s : State) : (s.clearLatches).ksRdy = s.ksRdy := rfl
@[simp] theorem State.clearLatches_failed (s : State) : (s.clearLatches).failed = s.failed := rfl
@[simp] theorem State.clearLatches_fenced (s : State) : (s.clearLatches).fenced = s.fenced := rfl
@[simp] theorem State.clearLatches_fencedRtr (s : State) : (s.clearLatches).fencedRtr = s.fencedRtr := rfl
@[simp] theorem State.clearLatches_zoneBad (s : State) : (s.clearLatches).zoneBad = s.zoneBad := rfl
@[simp] theorem State.clearLatches_zonecur (s : State) : (s.clearLatches).zonecur = s.zonecur := rfl
@[simp] theorem State.clearLatches_pkgpwr (s : State) : (s.clearLatches).pkgpwr = s.pkgpwr := rfl
@[simp] theorem State.clearLatches_overAt (s : State) : (s.clearLatches).overAt = s.overAt := rfl
@[simp] theorem State.clearLatches_mem (s : State) : (s.clearLatches).mem = s.mem := rfl
@[simp] theorem State.clearLatches_memPz (s : State) : (s.clearLatches).memPz = s.memPz := rfl
@[simp] theorem State.clearLatches_marks (s : State) : (s.clearLatches).marks = s.marks := rfl
@[simp] theorem State.clearLatches_own (s : State) : (s.clearLatches).own = s.own := rfl
@[simp] theorem State.clearLatches_areas (s : State) : (s.clearLatches).areas = s.areas := rfl
@[simp] theorem State.clearLatches_acqWait (s : State) : (s.clearLatches).acqWait = s.acqWait := rfl
@[simp] theorem State.clearLatches_slices (s : State) : (s.clearLatches).slices = s.slices := rfl
@[simp] theorem State.clearLatches_routers (s : State) : (s.clearLatches).routers = s.routers := rfl
@[simp] theorem State.clearLatches_clusters (s : State) : (s.clearLatches).clusters = s.clusters := rfl
@[simp] theorem State.clearLatches_parts (s : State) : (s.clearLatches).parts = s.parts := rfl
@[simp] theorem State.clearLatches_incs (s : State) : (s.clearLatches).incs = s.incs := rfl
@[simp] theorem State.clearLatches_liveTags (s : State) : (s.clearLatches).liveTags = s.liveTags := rfl
@[simp] theorem State.clearLatches_leftCells (s : State) : (s.clearLatches).leftCells = s.leftCells := rfl
@[simp] theorem State.clearLatches_grids (s : State) : (s.clearLatches).grids = s.grids := rfl
@[simp] theorem State.clearLatches_crews (s : State) : (s.clearLatches).crews = s.crews := rfl
@[simp] theorem State.clearLatches_reqs (s : State) : (s.clearLatches).reqs = s.reqs := rfl
@[simp] theorem State.clearLatches_pends (s : State) : (s.clearLatches).pends = s.pends := rfl
@[simp] theorem State.clearLatches_toks (s : State) : (s.clearLatches).toks = s.toks := rfl
@[simp] theorem State.clearLatches_fab (s : State) : (s.clearLatches).fab = s.fab := rfl
@[simp] theorem State.clearLatches_txnHold (s : State) : (s.clearLatches).txnHold = s.txnHold := rfl
@[simp] theorem State.clearLatches_streamSeq (s : State) : (s.clearLatches).streamSeq = s.streamSeq := rfl
@[simp] theorem State.clearLatches_replays (s : State) : (s.clearLatches).replays = s.replays := rfl
@[simp] theorem State.clearLatches_linkKey (s : State) : (s.clearLatches).linkKey = s.linkKey := rfl
@[simp] theorem State.clearLatches_portDrop (s : State) : (s.clearLatches).portDrop = s.portDrop := rfl
@[simp] theorem State.clearLatches_portTag (s : State) : (s.clearLatches).portTag = s.portTag := rfl
@[simp] theorem State.clearLatches_egress (s : State) : (s.clearLatches).egress = s.egress := rfl
@[simp] theorem State.clearLatches_seen (s : State) : (s.clearLatches).seen = s.seen := rfl
@[simp] theorem State.clearLatches_windows (s : State) : (s.clearLatches).windows = s.windows := rfl
@[simp] theorem State.clearLatches_inbound (s : State) : (s.clearLatches).inbound = s.inbound := rfl
@[simp] theorem State.clearLatches_hostReqs (s : State) : (s.clearLatches).hostReqs = s.hostReqs := rfl
@[simp] theorem State.clearLatches_reserves (s : State) : (s.clearLatches).reserves = s.reserves := rfl
@[simp] theorem State.clearLatches_checks (s : State) : (s.clearLatches).checks = s.checks := rfl
@[simp] theorem State.clearLatches_hostOut (s : State) : (s.clearLatches).hostOut = s.hostOut := rfl
@[simp] theorem State.clearLatches_hostIn (s : State) : (s.clearLatches).hostIn = s.hostIn := rfl
@[simp] theorem State.clearLatches_msixOut (s : State) : (s.clearLatches).msixOut = s.msixOut := rfl
@[simp] theorem State.clearLatches_fabOut (s : State) : (s.clearLatches).fabOut = s.fabOut := rfl
@[simp] theorem State.clearLatches_doeOut (s : State) : (s.clearLatches).doeOut = s.doeOut := rfl
@[simp] theorem State.clearLatches_bar0Out (s : State) : (s.clearLatches).bar0Out = s.bar0Out := rfl
@[simp] theorem State.clearLatches_svcLog (s : State) : (s.clearLatches).svcLog = s.svcLog := rfl
@[simp] theorem State.clearLatches_mgmtOut (s : State) : (s.clearLatches).mgmtOut = s.mgmtOut := rfl
@[simp] theorem State.clearLatches_mr (s : State) : (s.clearLatches).mr = s.mr := rfl
@[simp] theorem State.clearLatches_lifecycle (s : State) : (s.clearLatches).lifecycle = s.lifecycle := rfl
@[simp] theorem State.clearLatches_chal (s : State) : (s.clearLatches).chal = s.chal := rfl
@[simp] theorem State.clearLatches_latched (s : State) : (s.clearLatches).latched = s.latched := rfl
@[simp] theorem State.clearLatches_colds (s : State) : (s.clearLatches).colds = s.colds := rfl
@[simp] theorem State.clearLatches_debugPort (s : State) : (s.clearLatches).debugPort = s.debugPort := rfl

/-! `State.dropFab`. -/

@[simp] theorem State.dropFab_rail (s : State) (i : Nat) : (s.dropFab i).rail = s.rail := rfl
@[simp] theorem State.dropFab_time (s : State) (i : Nat) : (s.dropFab i).time = s.time := rfl
@[simp] theorem State.dropFab_tick (s : State) (i : Nat) : (s.dropFab i).tick = s.tick := rfl
@[simp] theorem State.dropFab_turns (s : State) (i : Nat) : (s.dropFab i).turns = s.turns := rfl
@[simp] theorem State.dropFab_cur (s : State) (i : Nat) : (s.dropFab i).cur = s.cur := rfl
@[simp] theorem State.dropFab_nextId (s : State) (i : Nat) : (s.dropFab i).nextId = s.nextId := rfl
@[simp] theorem State.dropFab_svcRdy (s : State) (i : Nat) : (s.dropFab i).svcRdy = s.svcRdy := rfl
@[simp] theorem State.dropFab_rtrRdy (s : State) (i : Nat) : (s.dropFab i).rtrRdy = s.rtrRdy := rfl
@[simp] theorem State.dropFab_slRdy (s : State) (i : Nat) : (s.dropFab i).slRdy = s.slRdy := rfl
@[simp] theorem State.dropFab_chRdy (s : State) (i : Nat) : (s.dropFab i).chRdy = s.chRdy := rfl
@[simp] theorem State.dropFab_clRdy (s : State) (i : Nat) : (s.dropFab i).clRdy = s.clRdy := rfl
@[simp] theorem State.dropFab_hpRdy (s : State) (i : Nat) : (s.dropFab i).hpRdy = s.hpRdy := rfl
@[simp] theorem State.dropFab_fpRdy (s : State) (i : Nat) : (s.dropFab i).fpRdy = s.fpRdy := rfl
@[simp] theorem State.dropFab_ksRdy (s : State) (i : Nat) : (s.dropFab i).ksRdy = s.ksRdy := rfl
@[simp] theorem State.dropFab_failed (s : State) (i : Nat) : (s.dropFab i).failed = s.failed := rfl
@[simp] theorem State.dropFab_fenced (s : State) (i : Nat) : (s.dropFab i).fenced = s.fenced := rfl
@[simp] theorem State.dropFab_fencedRtr (s : State) (i : Nat) : (s.dropFab i).fencedRtr = s.fencedRtr := rfl
@[simp] theorem State.dropFab_zoneBad (s : State) (i : Nat) : (s.dropFab i).zoneBad = s.zoneBad := rfl
@[simp] theorem State.dropFab_zonecur (s : State) (i : Nat) : (s.dropFab i).zonecur = s.zonecur := rfl
@[simp] theorem State.dropFab_pkgpwr (s : State) (i : Nat) : (s.dropFab i).pkgpwr = s.pkgpwr := rfl
@[simp] theorem State.dropFab_overAt (s : State) (i : Nat) : (s.dropFab i).overAt = s.overAt := rfl
@[simp] theorem State.dropFab_mem (s : State) (i : Nat) : (s.dropFab i).mem = s.mem := rfl
@[simp] theorem State.dropFab_memPz (s : State) (i : Nat) : (s.dropFab i).memPz = s.memPz := rfl
@[simp] theorem State.dropFab_marks (s : State) (i : Nat) : (s.dropFab i).marks = s.marks := rfl
@[simp] theorem State.dropFab_own (s : State) (i : Nat) : (s.dropFab i).own = s.own := rfl
@[simp] theorem State.dropFab_areas (s : State) (i : Nat) : (s.dropFab i).areas = s.areas := rfl
@[simp] theorem State.dropFab_acqWait (s : State) (i : Nat) : (s.dropFab i).acqWait = s.acqWait := rfl
@[simp] theorem State.dropFab_slices (s : State) (i : Nat) : (s.dropFab i).slices = s.slices := rfl
@[simp] theorem State.dropFab_routers (s : State) (i : Nat) : (s.dropFab i).routers = s.routers := rfl
@[simp] theorem State.dropFab_clusters (s : State) (i : Nat) : (s.dropFab i).clusters = s.clusters := rfl
@[simp] theorem State.dropFab_parts (s : State) (i : Nat) : (s.dropFab i).parts = s.parts := rfl
@[simp] theorem State.dropFab_incs (s : State) (i : Nat) : (s.dropFab i).incs = s.incs := rfl
@[simp] theorem State.dropFab_liveTags (s : State) (i : Nat) : (s.dropFab i).liveTags = s.liveTags := rfl
@[simp] theorem State.dropFab_leftCells (s : State) (i : Nat) : (s.dropFab i).leftCells = s.leftCells := rfl
@[simp] theorem State.dropFab_grids (s : State) (i : Nat) : (s.dropFab i).grids = s.grids := rfl
@[simp] theorem State.dropFab_crews (s : State) (i : Nat) : (s.dropFab i).crews = s.crews := rfl
@[simp] theorem State.dropFab_reqs (s : State) (i : Nat) : (s.dropFab i).reqs = s.reqs := rfl
@[simp] theorem State.dropFab_pends (s : State) (i : Nat) : (s.dropFab i).pends = s.pends := rfl
@[simp] theorem State.dropFab_toks (s : State) (i : Nat) : (s.dropFab i).toks = s.toks := rfl
@[simp] theorem State.dropFab_txnHold (s : State) (i : Nat) : (s.dropFab i).txnHold = s.txnHold := rfl
@[simp] theorem State.dropFab_streamSeq (s : State) (i : Nat) : (s.dropFab i).streamSeq = s.streamSeq := rfl
@[simp] theorem State.dropFab_replays (s : State) (i : Nat) : (s.dropFab i).replays = s.replays := rfl
@[simp] theorem State.dropFab_linkKey (s : State) (i : Nat) : (s.dropFab i).linkKey = s.linkKey := rfl
@[simp] theorem State.dropFab_portDrop (s : State) (i : Nat) : (s.dropFab i).portDrop = s.portDrop := rfl
@[simp] theorem State.dropFab_portTag (s : State) (i : Nat) : (s.dropFab i).portTag = s.portTag := rfl
@[simp] theorem State.dropFab_egress (s : State) (i : Nat) : (s.dropFab i).egress = s.egress := rfl
@[simp] theorem State.dropFab_seen (s : State) (i : Nat) : (s.dropFab i).seen = s.seen := rfl
@[simp] theorem State.dropFab_windows (s : State) (i : Nat) : (s.dropFab i).windows = s.windows := rfl
@[simp] theorem State.dropFab_inbound (s : State) (i : Nat) : (s.dropFab i).inbound = s.inbound := rfl
@[simp] theorem State.dropFab_hostReqs (s : State) (i : Nat) : (s.dropFab i).hostReqs = s.hostReqs := rfl
@[simp] theorem State.dropFab_reserves (s : State) (i : Nat) : (s.dropFab i).reserves = s.reserves := rfl
@[simp] theorem State.dropFab_checks (s : State) (i : Nat) : (s.dropFab i).checks = s.checks := rfl
@[simp] theorem State.dropFab_hostOut (s : State) (i : Nat) : (s.dropFab i).hostOut = s.hostOut := rfl
@[simp] theorem State.dropFab_hostIn (s : State) (i : Nat) : (s.dropFab i).hostIn = s.hostIn := rfl
@[simp] theorem State.dropFab_msixOut (s : State) (i : Nat) : (s.dropFab i).msixOut = s.msixOut := rfl
@[simp] theorem State.dropFab_fabOut (s : State) (i : Nat) : (s.dropFab i).fabOut = s.fabOut := rfl
@[simp] theorem State.dropFab_doeOut (s : State) (i : Nat) : (s.dropFab i).doeOut = s.doeOut := rfl
@[simp] theorem State.dropFab_bar0Out (s : State) (i : Nat) : (s.dropFab i).bar0Out = s.bar0Out := rfl
@[simp] theorem State.dropFab_svcLog (s : State) (i : Nat) : (s.dropFab i).svcLog = s.svcLog := rfl
@[simp] theorem State.dropFab_mgmtOut (s : State) (i : Nat) : (s.dropFab i).mgmtOut = s.mgmtOut := rfl
@[simp] theorem State.dropFab_mr (s : State) (i : Nat) : (s.dropFab i).mr = s.mr := rfl
@[simp] theorem State.dropFab_lifecycle (s : State) (i : Nat) : (s.dropFab i).lifecycle = s.lifecycle := rfl
@[simp] theorem State.dropFab_chal (s : State) (i : Nat) : (s.dropFab i).chal = s.chal := rfl
@[simp] theorem State.dropFab_latchV (s : State) (i : Nat) : (s.dropFab i).latchV = s.latchV := rfl
@[simp] theorem State.dropFab_latchW (s : State) (i : Nat) : (s.dropFab i).latchW = s.latchW := rfl
@[simp] theorem State.dropFab_latchM (s : State) (i : Nat) : (s.dropFab i).latchM = s.latchM := rfl
@[simp] theorem State.dropFab_latched (s : State) (i : Nat) : (s.dropFab i).latched = s.latched := rfl
@[simp] theorem State.dropFab_colds (s : State) (i : Nat) : (s.dropFab i).colds = s.colds := rfl
@[simp] theorem State.dropFab_debugPort (s : State) (i : Nat) : (s.dropFab i).debugPort = s.debugPort := rfl

end Sys2Proof.Machine
end

