-- ==== Sys2Proof/Laws/Slot.lean ====
section
/-!
SUPPORT. Sys2Proof/Laws/Slot.lean: what opening and finishing a slot do: a ready slot opens at the bundle's operands, and the
end of a slot without faults places the results and changes nothing else.
-/

namespace Sys2Proof.Machine

/-! Reads of crews, cohorts, clusters and slices after updates. -/

@[simp] theorem cluster_modCluster_self (s : State) (p : Nat) (f : Cluster → Cluster) :
    (s.modCluster p f).cluster p = f (s.cluster p) := by simp [State.modCluster, State.cluster]

theorem modCluster_modCluster (s : State) (p : Nat) (f g : Cluster → Cluster) :
    (s.modCluster p f).modCluster p g = s.modCluster p fun c => g (f c) := by
  unfold State.modCluster State.cluster
  simp only [smGetD_smSet_self, smSet_smSet]

theorem cluster_modCluster_ne (s : State) {p q : Nat} (f : Cluster → Cluster) (h : q ≠ p) :
    (s.modCluster p f).cluster q = s.cluster q := by simp [State.modCluster, State.cluster, smGetD_smSet_ne _ _ _ h]

@[simp] theorem smGet_modCrew (s : State) (i j : Nat) (f : Crew → Crew) :
    smGet (s.modCrew i f).crews j = if j = i then (smGet s.crews j).map f else smGet s.crews j := by
  simp [State.modCrew, smGet_smMod]

theorem cohort_modCohort (s : State) (i co : Nat) (f : Cohort → Cohort) (j n : Nat) :
    (s.modCohort i co f).cohort? j n = if j = i ∧ n = co then (s.cohort? j n).map f else s.cohort? j n := by
  simp only [State.cohort?, State.modCohort, smGet_modCrew]
  by_cases h : j = i
  · subst h
    cases hc : smGet s.crews j with
    | none => simp
    | some c =>
      simp only [if_true, Option.map_some, Option.bind_some, true_and]
      rw [lmod_getElem?]
      simp only [eq_comm]
  · simp [h]

@[simp] theorem cohort_modCohort_self (s : State) (i co : Nat) (f : Cohort → Cohort) :
    (s.modCohort i co f).cohort? i co = (s.cohort? i co).map f := by simp [cohort_modCohort]

@[simp] theorem cohort_modCluster (s : State) (p : Nat) (f : Cluster → Cluster) (i co : Nat) :
    (s.modCluster p f).cohort? i co = s.cohort? i co := rfl

@[simp] theorem cohort_modIssue (s : State) (k : Nat) (f : IssueSt → IssueSt) (i co : Nat) :
    (s.modIssue k f).cohort? i co = s.cohort? i co := rfl

@[simp] theorem cohort_modRun (s : State) (k : Nat) (f : Run → Run) (i co : Nat) :
    (s.modRun k f).cohort? i co = s.cohort? i co := rfl

/-! Lane masks. -/

theorem laneSum_getLsbD (l : List (Fin 32)) (p : Fin 32 → Bool) (y : Nat) (hn : l.Nodup)
    (hy : ∀ i ∈ l, (BitVec.ofNat 32 y).getLsbD i.val = false) (j : Fin 32) :
    (BitVec.ofNat 32 (l.foldl (fun y i => if p i then y + 2 ^ i.val else y) y)).getLsbD j.val =
      ((BitVec.ofNat 32 y).getLsbD j.val || l.any fun i => p i && decide (i = j)) := by
  induction l generalizing y with
  | nil => simp
  | cons a r ih =>
    have ha := hy a List.mem_cons_self
    have hr : r.Nodup := (List.nodup_cons.1 hn).2
    have hne : a ∉ r := (List.nodup_cons.1 hn).1
    have hb : ∀ n : Fin 32, (BitVec.ofNat 32 (y + 2 ^ a.val)).getLsbD n.val =
        ((BitVec.ofNat 32 y).getLsbD n.val || decide (a = n)) := by
      intro n
      have hp : ∀ m : Fin 32, (BitVec.ofNat 32 (2 ^ a.val)).getLsbD m.val = decide (a = m) := by
        intro m
        simp only [BitVec.getLsbD_ofNat, m.isLt, decide_true, Bool.true_and, Nat.testBit_two_pow, Fin.ext_iff]
      have e : BitVec.ofNat 32 (y + 2 ^ a.val) = BitVec.ofNat 32 y ||| BitVec.ofNat 32 (2 ^ a.val) := by
        rw [BitVec.ofNat_add]
        refine BitVec.add_eq_or_of_and_eq_zero _ _ (BitVec.eq_of_getLsbD_eq fun i hi => ?_)
        have := hp ⟨i, hi⟩
        simp only at this
        rw [BitVec.getLsbD_and, this, BitVec.getLsbD_zero, Bool.and_eq_false_iff]
        by_cases h : a = ⟨i, hi⟩
        · left; rw [h] at ha; exact ha
        · right; simp [h]
      rw [e, BitVec.getLsbD_or, hp]
    simp only [List.foldl_cons, List.any_cons]
    by_cases hp : p a = true
    · rw [if_pos hp, ih _ hr, hb, hp]
      · simp [Bool.or_assoc]
      · intro i hi
        rw [hb, hy i (List.mem_cons_of_mem _ hi)]
        have : a ≠ i := fun e => hne (e ▸ hi)
        simp [this]
    · rw [if_neg hp, ih _ hr fun i hi => hy i (List.mem_cons_of_mem _ hi)]
      simp [hp]

theorem lanesOf_nodup (m : BitVec 32) : (lanesOf m).Nodup := (List.nodup_finRange 32).filter _

@[simp] theorem laneFilter_getLsbD (m : BitVec 32) (p : Fin 32 → Bool) (i : Fin 32) :
    (laneFilter m p).getLsbD i.val = (m.getLsbD i.val && p i) := by
  rw [laneFilter, laneSum_getLsbD _ _ _ (lanesOf_nodup m) (by simp)]
  rw [Bool.eq_iff_iff]
  simp only [BitVec.getLsbD_ofNat, Nat.zero_testBit, Bool.and_false, Bool.false_or, List.any_eq_true, mem_lanesOf,
    Bool.and_eq_true, decide_eq_true_eq]
  constructor
  · rintro ⟨j, h1, h2, rfl⟩; exact ⟨h1, h2⟩
  · rintro ⟨h1, h2⟩; exact ⟨i, h1, h2, rfl⟩

theorem laneMask_ext {a b : BitVec 32} (h : ∀ i : Fin 32, a.getLsbD i.val = b.getLsbD i.val) : a = b :=
  BitVec.eq_of_getLsbD_eq fun i hi => h ⟨i, hi⟩

theorem laneFilter_none {m : BitVec 32} {p : Fin 32 → Bool} (h : ∀ i : Fin 32, m.getLsbD i.val = true → p i = false) :
    laneFilter m p = 0 := by
  apply laneMask_ext
  intro i
  rw [laneFilter_getLsbD]
  cases hm : m.getLsbD i.val with
  | false => simp
  | true => simp [h i hm]

@[simp] theorem trapLanes_zero (s : State) (k cid co : Nat) (t : Fin 32 → TrapRec) : s.trapLanes k cid co 0 t = s := by
  simp [State.trapLanes]

@[simp] theorem and_not_zero32 (m : BitVec 32) : m &&& ~~~(0 : BitVec 32) = m := by
  have : ~~~(0 : BitVec 32) = BitVec.allOnes 32 := rfl
  rw [this, BitVec.and_allOnes]

/-! Opening. -/

theorem closeDecision_closed {s : State} {cid co : Nat} {own : Option Nat} {h : Cohort} (hh : s.cohort? cid co = some h)
    (hr : h.rgn.opened = false) : s.closeDecision cid co own = .commit := by
  unfold State.closeDecision
  rw [hh]
  cases smGet s.crews cid <;> simp [hr]

theorem commitRegion_closed {s : State} {cid co : Nat} {im : Bool} {h : Cohort} (hh : s.cohort? cid co = some h)
    (hr : h.rgn.opened = false) : s.commitRegion cid co im = s := by
  unfold State.commitRegion
  rw [hh]
  cases smGet s.crews cid <;> simp [hr]

/-- A ready slot opens, in the same state, at the slot that `At.slot` describes. -/
theorem openSlot_ready {o : Op} {f : Fields} {s : State} {b : At} (h : SlotReady o f s b) :
    openSlot o f s = .ok (s, b.slot o f s) := by
  obtain ⟨h1, h2, h3, h4, h5, h6, h7, h8, h9⟩ := h
  have h6' : encFault { regs := b.c.regs, bound := fun i => b.h.ch[i].isSome } (decide (b.c.part = Config.svcTag)) o f = none := h6
  have h8' : laneFilter b.r.lanes (fun i => (b.h.threads[i]).predPoison f.pk.val) = 0 := laneFilter_none h8
  have h7' : ¬ b.r.lanes &&& ~~~(0 : BitVec 32) = 0 := by rw [and_not_zero32]; exact h7
  unfold openSlot
  simp only [h1, h2, h3, h4, h5, h6', h8']
  rw [if_neg (by simp), if_neg h7', trapLanes_zero, and_not_zero32]
  by_cases hc : needsClose o f = true
  · rw [if_pos hc, closeDecision_closed h5 (h9 hc)]
    simp only [commitRegion_closed h5 (h9 hc)]
    rfl
  · rw [if_neg hc]
    rfl

/-- What a slot does when it is ready. -/
theorem runSlot_ready {o : Op} {f : Fields} {s : State} {b : At} (h : SlotReady o f s b) (body : Slot → State → State) :
    runSlot o f s body = .next (body (b.slot o f s) s) := by
  simp [runSlot, openSlot_ready h]

/-! Finishing. -/

@[simp] theorem smMod_id {α : Type} (m : SMap α) (k : Nat) : smMod m k (fun x => x) = m := by
  induction m with
  | nil => rfl
  | cons y r ih => obtain ⟨j, y⟩ := y; simp only [smMod]; split <;> simp [ih]

@[simp] theorem lmod_id {α : Type} (l : List α) (i : Nat) : lmod l i (fun x => x) = l := by
  induction l generalizing i with
  | nil => rfl
  | cons x r ih => cases i <;> simp [lmod, ih]

theorem smMod_smMod {α : Type} (m : SMap α) (k : Nat) (f g : α → α) : smMod (smMod m k f) k g = smMod m k fun x => g (f x) := by
  induction m with
  | nil => rfl
  | cons y r ih => obtain ⟨j, y⟩ := y; simp only [smMod]; split <;> simp_all [smMod]

theorem lmod_lmod {α : Type} (l : List α) (i : Nat) (f g : α → α) : lmod (lmod l i f) i g = lmod l i fun x => g (f x) := by
  induction l generalizing i with
  | nil => rfl
  | cons x r ih => cases i <;> simp [lmod, ih]

theorem modCohort_id (s : State) (i co : Nat) : s.modCohort i co (fun h => h) = s := by
  simp [State.modCohort, State.modCrew]

theorem modCohort_modCohort (s : State) (i co : Nat) (f g : Cohort → Cohort) :
    (s.modCohort i co f).modCohort i co g = s.modCohort i co fun h => g (f h) := by
  simp [State.modCohort, State.modCrew, smMod_smMod, lmod_lmod]

/-- A change of a cohort's region and its count alone; without `any` at most the suspect mark. -/
def RgnChange (any : Bool) (g : Cohort → Cohort) : Prop :=
  ∀ h, ∃ r n, g h = { h with rgn := r, rgnCount := n } ∧
    (any = false → n = h.rgnCount ∧ ∃ b, r = { h.rgn with suspect := b })

theorem RgnChange.refl (any : Bool) : RgnChange any fun h => h := fun h => ⟨h.rgn, h.rgnCount, rfl, fun _ => ⟨rfl, h.rgn.suspect, rfl⟩⟩

theorem noteSuspect_eq (s : State) (p cid co : Nat) : ∃ g, RgnChange false g ∧ s.noteSuspect p cid co = s.modCohort cid co g := by
  unfold State.noteSuspect
  split
  · refine ⟨_, ?_, rfl⟩
    intro h
    by_cases e : h.rgn.opened = true
    · exact ⟨{ h.rgn with suspect := true }, h.rgnCount, by simp [e], fun _ => ⟨rfl, true, rfl⟩⟩
    · exact ⟨h.rgn, h.rgnCount, by simp [e], fun _ => ⟨rfl, h.rgn.suspect, rfl⟩⟩
  · exact ⟨fun h => h, RgnChange.refl _, (modCohort_id s cid co).symm⟩

theorem reopenSlot_eq (s : State) (x : Slot) :
    ∃ g, RgnChange (needsClose x.o x.f) g ∧ s.reopenSlot x = s.modCohort x.cid x.co g := by
  unfold State.reopenSlot
  split
  · split
    · rename_i e
      simp only [Bool.and_eq_true] at e
      refine ⟨_, ?_, rfl⟩
      intro h
      exact ⟨_, _, rfl, fun k => by simp [e.1.1.1] at k⟩
    · exact ⟨fun h => h, RgnChange.refl _, (modCohort_id s x.cid x.co).symm⟩
  · exact ⟨fun h => h, RgnChange.refl _, (modCohort_id s x.cid x.co).symm⟩

theorem RgnChange.comp {a b : Bool} {f g : Cohort → Cohort} (hf : RgnChange a f) (hg : RgnChange b g) :
    RgnChange (a || b) fun h => g (f h) := by
  intro h
  obtain ⟨r, n, e, k⟩ := hf h
  obtain ⟨r', n', e', k'⟩ := hg (f h)
  refine ⟨r', n', ?_, ?_⟩
  · refine e'.trans ?_
    rw [e]
  intro z
  simp only [Bool.or_eq_false_iff] at z
  obtain ⟨k1, b1, k2⟩ := k z.1
  obtain ⟨k3, b2, k4⟩ := k' z.2
  exact ⟨by rw [k3, e, k1], b2, by rw [k4, e, k2]⟩

/-- The threads of a cohort after a slot without faults. -/
def Slot.threadsAfter (x : Slot) (res : Placed) (h : Cohort) : Cohort :=
  h.mapThreads fun i th => if x.lanes.getLsbD i then threadAfter x res i th else th

/-- The cohort after a slot without faults. -/
def Slot.cohortAfter (x : Slot) (res : Placed) (opc : List Nat) (h : Cohort) : Cohort :=
  { uniformAfter x res (x.threadsAfter res h) with opc := opc }

/-- Results on their way, after a slot that writes registers (R135). -/
def Slot.outdated (x : Slot) (res : Placed) (s : State) : State :=
  s.outdate x.cid x.co x.ex (opDests x.o x.f) (match res with | .late id _ => some id | _ => none)

/-- The clause in progress after a slot without faults. -/
def Slot.runAfter (x : Slot) (cost : Nat) (r : Run) : Run :=
  { r with slot := r.slot + slotLen x.f, lanes := x.lanes, skips := r.skips &&& ~~~r.lanes, cost := r.cost + 1 + cost + opExtra x.o x.f x.coh.tile }

/-- The end of a slot without faults, update by update. -/
theorem finishSlot_eq (x : Slot) (res : Placed) (s : State) (hl : x.lanes ≠ 0) (he : x.ex &&& x.lanes = x.ex) :
    ∃ (opc : List Nat) (cost : Nat) (g : Cohort → Cohort), RgnChange (needsClose x.o x.f) g ∧
      finishSlot x [] res s =
        ((((x.outdated res s).modCohort x.cid x.co (x.cohortAfter res opc)).chanMove x (pushedWord x res)).modRun x.k
          (x.runAfter cost)).modCohort x.cid x.co g := by
  have hb : x.bad [] = 0 := laneFilter_none fun _ _ => rfl
  have hw : x.without 0 = x := by
    unfold Slot.without
    rw [and_not_zero32, he]
  unfold finishSlot
  simp only [hb, trapLanes_zero, and_not_zero32, hl, if_false, hw]
  unfold finishGood
  generalize x.reads = rc
  obtain ⟨opc, _, _, cost⟩ := rc
  simp only
  refine ⟨opc, cost, ?_⟩
  let u : State := (((x.outdated res s).modCohort x.cid x.co (x.cohortAfter res opc)).chanMove x (pushedWord x res)).modRun x.k (x.runAfter cost)
  by_cases hs : isShort x.o = true
  · obtain ⟨g1, h1, e1⟩ := noteSuspect_eq u x.p x.cid x.co
    obtain ⟨g2, h2, e2⟩ := reopenSlot_eq (u.modCohort x.cid x.co g1) x
    refine ⟨_, by simpa using h1.comp h2, ?_⟩
    rw [if_pos hs]
    refine Eq.trans (congrArg (fun t => State.reopenSlot t x) e1) (e2.trans ?_)
    rw [modCohort_modCohort]
  · obtain ⟨g2, h2, e2⟩ := reopenSlot_eq u x
    refine ⟨g2, h2, ?_⟩
    rw [if_neg hs]
    exact e2

/-- The channels of a crew after a slot. -/
def Slot.chansAfter (x : Slot) (push : Option (Vector QEnt 32)) (c : Crew) : Vector Chan 8 :=
  Vector.ofFn fun n =>
    let ch := c.chans[n]
    let m := popsOf x.coh x.f n.val
    let ch := if m = 0 then ch else ch.pop m
    match push with
    | some w => if chanOf x.coh x.f.dst = some n.val then ch.push w else ch
    | none => ch

theorem chanMove_eq (s : State) (x : Slot) (push : Option (Vector QEnt 32)) :
    s.chanMove x push = s.modCrew x.cid fun c => { c with chans := x.chansAfter push c } := rfl

theorem chansAfter_cohorts (x : Slot) (push : Option (Vector QEnt 32)) (c : Crew) (l : List Cohort) :
    x.chansAfter push { c with cohorts := l } = x.chansAfter push c := rfl

theorem cohort_modCrew_chans (s : State) (i : Nat) (g : Crew → Vector Chan 8) (j n : Nat) :
    (s.modCrew i fun c => { c with chans := g c }).cohort? j n = s.cohort? j n := by
  simp only [State.cohort?, smGet_modCrew]
  by_cases h : j = i
  · subst h; cases smGet s.crews j <;> simp
  · simp [h]

theorem smGet_modCohort (s : State) (i co : Nat) (f : Cohort → Cohort) (j : Nat) :
    smGet (s.modCohort i co f).crews j =
      if j = i then (smGet s.crews j).map fun c => { c with cohorts := lmod c.cohorts co f } else smGet s.crews j := by
  simp [State.modCohort]

theorem outdated_crews (x : Slot) (res : Placed) (s : State) : (x.outdated res s).crews = s.crews := rfl

theorem outdated_cohort (x : Slot) (res : Placed) (s : State) (i co : Nat) : (x.outdated res s).cohort? i co = s.cohort? i co := rfl

theorem Pend.outdate_if (b : Bool) (p : Pend) (m : BitVec 32) (l : List Nat) :
    (if b = true then p.outdate m l else p) =
      { p with stale := p.stale ++ if b = true then (p.regs.filter fun n => l.contains n).map fun n => (n, m) else [] } := by
  cases b
  · show p = { p with stale := p.stale ++ [] }
    rw [List.append_nil]
  · rfl

/-- A result after a slot: only registers written since are noted (R135). -/
theorem outdated_pend (x : Slot) (res : Placed) (s : State) (id : Nat) :
    ∃ l : Pend → List (Nat × BitVec 32),
      smGet (x.outdated res s).pends id = (smGet s.pends id).map fun p => { p with stale := p.stale ++ l p } := by
  unfold Slot.outdated State.outdate
  simp only [smGet_smMap', Pend.outdate_if]
  exact ⟨_, rfl⟩

/-- The slot's own result stays as it is. -/
theorem outdated_own (x : Slot) (id : Nat) (w : Bool) (s : State) : smGet (x.outdated (.late id w) s).pends id = smGet s.pends id := by
  unfold Slot.outdated State.outdate
  simp

/-- After a slot without faults: the crew and its cohort. -/
theorem finishSlot_crew {x : Slot} {s : State} {c0 : Crew} {h0 : Cohort} (res : Placed) (hl : x.lanes ≠ 0)
    (he : x.ex &&& x.lanes = x.ex) (hc : smGet s.crews x.cid = some c0) (hh : s.cohort? x.cid x.co = some h0) :
    ∃ (opc : List Nat) (g : Cohort → Cohort), RgnChange (needsClose x.o x.f) g ∧
      smGet (finishSlot x [] res s).crews x.cid =
        some { c0 with cohorts := lmod c0.cohorts x.co fun h => g (x.cohortAfter res opc h),
                       chans := x.chansAfter (pushedWord x res) c0 } ∧
      (finishSlot x [] res s).cohort? x.cid x.co = some (g (x.cohortAfter res opc h0)) := by
  obtain ⟨opc, cost, g, hg, e⟩ := finishSlot_eq x res s hl he
  have h1 := smGet_modCohort (x.outdated res s) x.cid x.co (x.cohortAfter res opc) x.cid
  rw [if_pos rfl, outdated_crews, hc] at h1
  refine ⟨opc, g, hg, ?_, ?_⟩
  · rw [e, smGet_modCohort, if_pos rfl, State.modRun_crews, chanMove_eq, smGet_modCrew, if_pos rfl, h1]
    simp only [Option.map_some, lmod_lmod, chansAfter_cohorts]
  · rw [e, cohort_modCohort_self, cohort_modRun, chanMove_eq, cohort_modCrew_chans, cohort_modCohort_self, outdated_cohort, hh]
    rfl

theorem onlyStale_refl {s t : State} (i : Nat) (h : t.pends = s.pends) : OnlyStale s t i :=
  ⟨fun _ _ => [], by
    rw [h]
    unfold smMap
    conv => lhs; rw [← List.map_id s.pends]
    exact List.map_congr_left fun y _ => by simp⟩

theorem onlyStale_trans {s t u : State} {i : Nat} (a : OnlyStale s t i) (b : OnlyStale t u i) : OnlyStale s u i := by
  obtain ⟨l, a⟩ := a
  obtain ⟨m, b⟩ := b
  refine ⟨fun id p => l id p ++ m id { p with stale := p.stale ++ l id p }, ?_⟩
  rw [b, a]
  simp only [smMap, List.map_map]
  refine List.map_congr_left fun y _ => ?_
  simp only [Function.comp]
  by_cases h : y.2.cid = i <;> simp [h]

theorem onlyStale_outdated (x : Slot) (res : Placed) (s : State) : OnlyStale s (x.outdated res s) x.cid := by
  unfold Slot.outdated State.outdate
  simp only [Pend.outdate_if]
  refine ⟨fun i p => if (decide (p.cid = x.cid) && decide (p.co = x.co) &&
      decide ((match res with | .late id _ => some id | _ => none) ≠ some i)) = true then
        (p.regs.filter fun n => (opDests x.o x.f).contains n).map fun n => (n, x.ex) else [],
    List.map_congr_left fun y _ => ?_⟩
  obtain ⟨i, p⟩ := y
  simp only
  by_cases h : p.cid = x.cid
  · rw [if_pos h]
  · rw [if_neg h]
    simp only [h, decide_false, Bool.false_and, Bool.false_eq_true, if_false, List.append_nil]

theorem onlyCrew_outdated (x : Slot) (res : Placed) (s : State) (p : Nat) : OnlyCrew s (x.outdated res s) x.cid p :=
  ⟨rfl, onlyStale_outdated x res s, fun _ _ => rfl, fun _ _ => rfl, rfl⟩

theorem onlyCrew_modCrew (s : State) (i p : Nat) (f : Crew → Crew) : OnlyCrew s (s.modCrew i f) i p := by
  refine ⟨rfl, onlyStale_refl i rfl, fun c hc => ?_, fun _ _ => rfl, rfl⟩
  rw [smGet_modCrew, if_neg hc]

theorem onlyCrew_modIssue (s : State) (i k : Nat) (f : IssueSt → IssueSt) : OnlyCrew s (s.modIssue k f) i (k / 6) := by
  refine ⟨rfl, onlyStale_refl i rfl, fun _ _ => rfl, fun q hq => smGet_smSet_ne _ _ hq, ?_⟩
  unfold State.modIssue
  rw [cluster_modCluster_self]

theorem onlyCrew_trans {s t u : State} {i p : Nat} (a : OnlyCrew s t i p) (b : OnlyCrew t u i p) : OnlyCrew s u i p := by
  obtain ⟨a1, a5, a2, a3, a4⟩ := a
  obtain ⟨b1, b5, b2, b3, b4⟩ := b
  refine ⟨?_, onlyStale_trans a5 b5, fun c hc => (b2 c hc).trans (a2 c hc), fun q hq => (b3 q hq).trans (a3 q hq), ?_⟩
  · rw [a1] at b1; exact b1
  · rw [a4] at b4; exact b4

/-- After a slot without faults its own result waits as it was posted. -/
theorem finishSlot_own {x : Slot} {s : State} (id : Nat) (w : Bool) (hl : x.lanes ≠ 0) (he : x.ex &&& x.lanes = x.ex) :
    smGet (finishSlot x [] (.late id w) s).pends id = smGet s.pends id := by
  obtain ⟨opc, cost, g, -, e⟩ := finishSlot_eq x (.late id w) s hl he
  rw [e]
  exact outdated_own x id w s

/-- After a slot without faults everything beyond its crew and its cluster is as before. -/
theorem finishSlot_only {x : Slot} {s : State} (res : Placed) (hl : x.lanes ≠ 0) (he : x.ex &&& x.lanes = x.ex)
    (hp : x.k / 6 = x.p) : OnlyCrew s (finishSlot x [] res s) x.cid x.p := by
  obtain ⟨opc, cost, g, hg, e⟩ := finishSlot_eq x res s hl he
  rw [e, ← hp]
  exact onlyCrew_trans (onlyCrew_trans (onlyCrew_trans (onlyCrew_trans (onlyCrew_outdated x res s (x.k / 6)) (onlyCrew_modCrew _ x.cid (x.k / 6) _))
    (onlyCrew_modCrew _ x.cid (x.k / 6) _)) (onlyCrew_modIssue _ x.cid x.k _)) (onlyCrew_modCrew _ x.cid (x.k / 6) _)

end Sys2Proof.Machine
end

