-- ==== Sys2Proof/Laws/Checks.lean ====
section
/-!
SUPPORT. Sys2Proof/Laws/Checks.lean: what becomes of a slot that does not open: a word, a mode or a predicate that forbids it, or
a halted cluster.
-/

namespace Sys2Proof.Machine

theorem openSlot_enc {o : Op} {f : Fields} {s : State} {b : At} {e : Cause} (h1 : s.cur = some b.k)
    (h2 : (s.cluster (b.k / 6)).halted = false) (h3 : (s.issue b.k).run = some b.r) (h4 : smGet s.crews b.r.cid = some b.c)
    (h5 : s.cohort? b.r.cid b.r.co = some b.h) (h6 : encFault b.env (decide (b.c.part = Config.svcTag)) o f = some e) :
    openSlot o f s = .error (s.trapLanes b.k b.r.cid b.r.co b.r.lanes fun _ => preciseTrap b.r e 0) := by
  unfold At.env at h6
  unfold openSlot
  simp only [h1, h2, h3, h4, h5, h6, Bool.false_eq_true, if_false]

theorem openSlot_pred {o : Op} {f : Fields} {s : State} {b : At} (h1 : s.cur = some b.k)
    (h2 : (s.cluster (b.k / 6)).halted = false) (h3 : (s.issue b.k).run = some b.r) (h4 : smGet s.crews b.r.cid = some b.c)
    (h5 : s.cohort? b.r.cid b.r.co = some b.h) (h6 : encFault b.env (decide (b.c.part = Config.svcTag)) o f = none)
    (h7 : ∀ l : Fin 32, b.r.lanes.getLsbD l = true → (b.h.threads[l]).predPoison f.pk.val = true) :
    openSlot o f s = .error (s.trapLanes b.k b.r.cid b.r.co b.r.lanes fun _ => preciseTrap b.r cPoisonUse 0) := by
  unfold At.env at h6
  have e : laneFilter b.r.lanes (fun i => (b.h.threads[i]).predPoison f.pk.val) = b.r.lanes := by
    refine BitVec.eq_of_getLsbD_eq fun i hi => ?_
    rw [show i = (⟨i, hi⟩ : Fin 32).val from rfl, laneFilter_getLsbD]
    cases h : b.r.lanes.getLsbD i
    · simp
    · rw [h7 ⟨i, hi⟩ h]; rfl
  unfold openSlot
  simp only [h1, h2, h3, h4, h5, h6, e, Bool.false_eq_true, if_false]
  rw [if_pos (by simp)]

theorem openSlot_halted {o : Op} {f : Fields} {s : State} {k : Nat} (h1 : s.cur = some k) (h2 : (s.cluster (k / 6)).halted = true) :
    openSlot o f s = .error s := by
  unfold openSlot
  simp only [h1, h2, if_true]

theorem runSlot_error {o : Op} {f : Fields} {s t : State} {g : Slot → State → State} (h : openSlot o f s = .error t) :
    runSlot o f s g = .next t := by
  unfold runSlot
  rw [h]

theorem exec_error {i : Instr} {o : Op} {f : Fields} {s t : State} (h : i.opFields? = some (o, f)) (h2 : openSlot o f s = .error t) :
    exec i s = .next t := by
  cases i <;> first | (cases h; exact runSlot_error h2) | cases h

theorem memRead_nil (a n : Nat) : memRead [] a n = List.replicate n 0 := by
  induction n generalizing a with
  | zero => rfl
  | succ n ih => rw [memRead, ih]; rfl

end Sys2Proof.Machine
end

