-- ==== Sys2Proof/Laws/Results.lean ====
section
/-!
SUPPORT. Sys2Proof/Laws/Results.lean: the results that a slot places: what each thread, its cohort and the channels hold after
a slot without faults.
-/

namespace Sys2Proof.Machine

theorem setIfInBounds_getElem {α : Type} {n : Nat} (v : Vector α n) (i : Nat) (x : α) (j : Fin n) :
    (v.setIfInBounds i x)[j] = if i = j.val then x else v[j] := by
  show (v.setIfInBounds i x)[j.val] = if i = j.val then x else v[j.val]
  rw [Vector.getElem_setIfInBounds]

/-! Registers. -/

theorem lastUse_keeps (x : Src) (n : Nat) (v : Vector R32 64) (r : Fin 64) (h : lastUsed x n r.val = false) :
    (lastUse x n v)[r] = v[r] := by
  unfold lastUse
  unfold lastUsed at h
  split
  · rename_i i e
    rw [e] at h
    simp only at h
    split
    · rename_i hl
      rw [hl] at h
      simp only [Bool.true_and, Bool.and_eq_false_iff, decide_eq_false_iff_not] at h
      rw [forN_eq]
      refine forL_inv (fun w => w[r] = v[r]) _ _ _ ?_ rfl
      intro j hj w hw
      have hj := List.mem_range.1 hj
      unfold poisonV
      rw [setIfInBounds_getElem, if_neg (by omega), hw]
    · rfl
  · rfl

/-- The v registers of an executing thread after its last uses (R35). -/
def Slot.usedRegs (x : Slot) (v : Vector R32 64) : Vector R32 64 :=
  lastUse x.f.c (SrcSpec.span (opSpec x.o x.f).c) (lastUse x.f.b (SrcSpec.span (opSpec x.o x.f).b)
    (lastUse x.f.a (SrcSpec.span (opSpec x.o x.f).a) v))

theorem usedRegs_keeps (x : Slot) (wide : Bool) (v : Vector R32 64) (r : Fin 64) (h : writesReg x.o x.f wide r.val = false) :
    (x.usedRegs v)[r] = v[r] := by
  unfold writesReg at h
  simp only [Bool.or_eq_false_iff] at h
  unfold Slot.usedRegs
  rw [lastUse_keeps _ _ _ _ h.2, lastUse_keeps _ _ _ _ h.1.2, lastUse_keeps _ _ _ _ h.1.1.2]

theorem writeV_at (v : Vector R32 64) (d : Fin 64) (wide : Bool) (x : Val) :
    (writeV v d.val wide x)[d] = { v := x.v.extractLsb' 0 32, p := x.p } := by
  unfold writeV setV
  simp only
  split
  · rw [setIfInBounds_getElem, if_neg (by omega), setIfInBounds_getElem, if_pos rfl]
  · rw [setIfInBounds_getElem, if_pos rfl]

theorem writeV_next (v : Vector R32 64) (d n : Fin 64) (x : Val) (h : n.val = d.val + 1) :
    (writeV v d.val true x)[n] = { v := x.v.extractLsb' 32 32, p := x.p } := by
  unfold writeV setV
  simp only [if_true]
  rw [setIfInBounds_getElem, if_pos h.symm]

theorem writeV_keeps (v : Vector R32 64) (d r : Fin 64) (wide : Bool) (x : Val)
    (h : (decide (r.val = d.val) || (wide && decide (r.val = d.val + 1))) = false) : (writeV v d.val wide x)[r] = v[r] := by
  simp only [Bool.or_eq_false_iff, decide_eq_false_iff_not, Bool.and_eq_false_iff] at h
  unfold writeV setV
  simp only
  split
  · rename_i hw
    have h2 : ¬ r.val = d.val + 1 := by
      rcases h.2 with h2 | h2
      · simp [hw] at h2
      · exact h2
    rw [setIfInBounds_getElem, if_neg (by omega), setIfInBounds_getElem, if_neg (by omega)]
  · rw [setIfInBounds_getElem, if_neg (by omega)]

theorem writeS_at (v : Vector R32 96) (d : Fin 96) (wide : Bool) (x : Val) :
    (writeS v d.val wide x)[d] = { v := x.v.extractLsb' 0 32, p := x.p } := by
  unfold writeS
  simp only
  split
  · rw [setIfInBounds_getElem, if_neg (by omega), setIfInBounds_getElem, if_pos rfl]
  · rw [setIfInBounds_getElem, if_pos rfl]

theorem writeS_next (v : Vector R32 96) (d n : Fin 96) (x : Val) (h : n.val = d.val + 1) :
    (writeS v d.val true x)[n] = { v := x.v.extractLsb' 32 32, p := x.p } := by
  unfold writeS
  simp only [if_true]
  rw [setIfInBounds_getElem, if_pos h.symm]

theorem writeS_keeps (v : Vector R32 96) (d r : Fin 96) (wide : Bool) (x : Val)
    (h : (decide (r.val = d.val) || (wide && decide (r.val = d.val + 1))) = false) : (writeS v d.val wide x)[r] = v[r] := by
  simp only [Bool.or_eq_false_iff, decide_eq_false_iff_not, Bool.and_eq_false_iff] at h
  unfold writeS
  simp only
  split
  · rename_i hw
    have h2 : ¬ r.val = d.val + 1 := by
      rcases h.2 with h2 | h2
      · simp [hw] at h2
      · exact h2
    rw [setIfInBounds_getElem, if_neg (by omega), setIfInBounds_getElem, if_neg (by omega)]
  · rw [setIfInBounds_getElem, if_neg (by omega)]

theorem pushQ_head (q : List QEnt) (e : QEnt) : (pushQ q e).head? = some e := by
  unfold pushQ
  simp only [List.take_succ_cons, lmod]
  rfl

/-! Threads. -/

/-- What a slot may change of a thread: v and k registers, queue and time latch. -/
def ThreadKeeps (a b : Thread) : Prop := b = { a with v := b.v, q := b.q, k := b.k, latch := b.latch }

theorem placeResult_keeps (f : Fields) (wide : Bool) (x : Val) (th : Thread) : ThreadKeeps th (placeResult f wide x th) := by
  unfold placeResult ThreadKeeps
  split <;> rfl

theorem placePassive_keeps (f : Fields) (wide : Bool) (th : Thread) :
    placePassive f wide th = { th with q := (placePassive f wide th).q } := by
  unfold placePassive
  split <;> rfl

theorem threadAfter_keeps (x : Slot) (res : Placed) (i : Fin 32) (th : Thread) : ThreadKeeps th (threadAfter x res i th) := by
  unfold threadAfter
  split
  · simp only
    split
    · rfl
    · have h := placeResult_keeps x.f ‹Bool› (‹Vector Val 32›[i]) { th with
        v := lastUse x.f.c (SrcSpec.span (opSpec x.o x.f).c) (lastUse x.f.b (SrcSpec.span (opSpec x.o x.f).b)
          (lastUse x.f.a (SrcSpec.span (opSpec x.o x.f).a) th.v)), latch := x.lat[i] }
      unfold ThreadKeeps at h ⊢
      rw [h]
    · split <;> rfl
  · split
    · rfl
    · rw [placePassive_keeps]; rfl
    · rw [placePassive_keeps]; rfl

theorem threadAfter_passive {x : Slot} {res : Placed} {i : Fin 32} {th : Thread} (h : x.ex.getLsbD i.val = false) :
    (threadAfter x res i th).v = th.v ∧ (threadAfter x res i th).k = th.k ∧ (threadAfter x res i th).latch = th.latch := by
  unfold threadAfter
  rw [if_neg (by rw [h]; simp)]
  split
  · exact ⟨rfl, rfl, rfl⟩
  · rw [placePassive_keeps]; exact ⟨rfl, rfl, rfl⟩
  · rw [placePassive_keeps]; exact ⟨rfl, rfl, rfl⟩

theorem threadAfter_now {x : Slot} {wide : Bool} {vals : Vector Val 32} {i : Fin 32} {th : Thread} (h : x.ex.getLsbD i.val = true) :
    threadAfter x (.now wide vals) i th = placeResult x.f wide vals[i] { th with v := x.usedRegs th.v, latch := x.lat[i] } := by
  unfold threadAfter
  rw [if_pos h]
  rfl

theorem threadAfter_none {x : Slot} {i : Fin 32} {th : Thread} (h : x.ex.getLsbD i.val = true) :
    threadAfter x .none i th = { th with v := x.usedRegs th.v, latch := x.lat[i] } := by
  unfold threadAfter
  rw [if_pos h]
  rfl

/-- The width of a result in registers, as a frame counts it. -/
def Placed.isWide : Placed → Bool
  | .none => false
  | .now w _ | .late _ w => w

theorem threadAfter_v (x : Slot) (res : Placed) (i : Fin 32) (th : Thread) (r : Fin 64)
    (h : writesReg x.o x.f res.isWide r.val = false) : (threadAfter x res i th).v[r] = th.v[r] := by
  by_cases he : x.ex.getLsbD i.val = true
  · have hu := usedRegs_keeps x res.isWide th.v r h
    unfold threadAfter
    rw [if_pos he]
    simp only
    split
    · exact hu
    · rename_i wide vals
      unfold placeResult
      split
      · rename_i d hd
        have h2 : (decide (r.val = d.val) || (wide && decide (r.val = d.val + 1))) = false := by
          unfold writesReg at h
          rw [hd] at h
          simp only [Bool.or_eq_false_iff, Placed.isWide] at h ⊢
          exact h.1.1.1
        exact (writeV_keeps _ d r wide _ h2).trans hu
      · exact hu
      · exact hu
      · exact hu
    · split <;> exact hu
  · rw [(threadAfter_passive (Bool.eq_false_iff.2 he)).1]

theorem threadAfter_k (x : Slot) (res : Placed) (i : Fin 32) (th : Thread) (r : Fin 8) (h : x.f.dst ≠ .k r) :
    (threadAfter x res i th).k[r] = th.k[r] := by
  by_cases he : x.ex.getLsbD i.val = true
  · unfold threadAfter
    rw [if_pos he]
    simp only
    split
    · rfl
    · unfold placeResult
      split
      · rfl
      · rename_i d hd
        simp only
        rw [setIfInBounds_getElem, if_neg]
        intro e
        exact h (by rw [hd, Fin.ext e])
      · rfl
      · rfl
    · split <;> rfl
  · rw [(threadAfter_passive (Bool.eq_false_iff.2 he)).2.1]

/-! Cohorts. -/

theorem uniformAfter_threads (x : Slot) (res : Placed) (h : Cohort) : (uniformAfter x res h).threads = h.threads := by
  unfold uniformAfter
  split <;> rfl

theorem mapThreads_getElem (h : Cohort) (g : Fin 32 → Thread → Thread) (i : Fin 32) :
    (h.mapThreads g).threads[i] = g i h.threads[i] := by
  unfold Cohort.mapThreads
  simp only
  show (Vector.ofFn _)[i.val] = _
  rw [Vector.getElem_ofFn]

theorem cohortAfter_thread (x : Slot) (res : Placed) (opc : List Nat) (h : Cohort) (i : Fin 32) :
    (x.cohortAfter res opc h).threads[i] =
      if x.lanes.getLsbD i.val then threadAfter x res i h.threads[i] else h.threads[i] := by
  show (uniformAfter x res (x.threadsAfter res h)).threads[i] = _
  rw [uniformAfter_threads]
  unfold Slot.threadsAfter
  rw [mapThreads_getElem]

theorem uniformAfter_eq (x : Slot) (res : Placed) (h : Cohort) : uniformAfter x res h = { h with s := (uniformAfter x res h).s } := by
  unfold uniformAfter
  split <;> rfl

theorem threadsAfter_eq (x : Slot) (res : Placed) (h : Cohort) :
    x.threadsAfter res h = { h with threads := (x.threadsAfter res h).threads } := rfl

theorem cohort_fields (h u w : Cohort) (opc : List Nat) (hu : u = { h with threads := u.threads }) (hw : w = { u with s := w.s }) :
    ({ w with opc := opc } : Cohort) = { h with threads := u.threads, s := w.s, opc := opc } := by
  rw [hw, hu]

theorem cohortAfter_keeps (x : Slot) (res : Placed) (opc : List Nat) (h : Cohort) :
    ∃ (t : Vector Thread 32) (s : Vector R32 96), x.cohortAfter res opc h = { h with threads := t, s := s, opc := opc } :=
  ⟨_, _, cohort_fields h _ _ opc (threadsAfter_eq x res h) (uniformAfter_eq x res _)⟩

theorem uniformAfter_keeps (x : Slot) (res : Placed) (h : Cohort) (r : Fin 96)
    (hw : writesUni x.f res.isWide r.val = false) : (uniformAfter x res h).s[r] = h.s[r] := by
  unfold uniformAfter
  split
  · rename_i wide vals d hd
    unfold writesUni at hw
    rw [hd] at hw
    exact writeS_keeps _ d r wide _ hw
  · rfl

theorem cohortAfter_s_eq (x : Slot) (res : Placed) (opc : List Nat) (h : Cohort) :
    (x.cohortAfter res opc h).s = (uniformAfter x res (x.threadsAfter res h)).s := rfl

theorem cohortAfter_s (x : Slot) (res : Placed) (opc : List Nat) (h : Cohort) (r : Fin 96)
    (hw : writesUni x.f res.isWide r.val = false) : (x.cohortAfter res opc h).s[r] = h.s[r] := by
  rw [cohortAfter_s_eq, uniformAfter_keeps x res _ r hw, threadsAfter_eq]

theorem perLane_getElem (g : Fin 32 → Val) (i : Fin 32) : (perLane g)[i] = g i := by
  unfold perLane
  show (Vector.ofFn g)[i.val] = g i
  rw [Vector.getElem_ofFn]

theorem uniformAfter_now (x : Slot) (wide : Bool) (vals : Vector Val 32) (h : Cohort) (d : Fin 96) (l : Fin 32)
    (hd : x.f.dst = .s d) (hl : Sys2Proof.Slot.lowest x l) : (uniformAfter x (.now wide vals) h).s = writeS h.s d.val wide vals[l] := by
  unfold Sys2Proof.Slot.lowest at hl
  unfold uniformAfter
  rw [hd]
  simp only [hl, Option.map_some, Option.getD_some]

/-! Slots. -/

theorem slot_ex_lanes (b : At) (o : Op) (f : Fields) (s : State) : (b.slot o f s).ex &&& (b.slot o f s).lanes = (b.slot o f s).ex := by
  apply laneMask_ext
  intro i
  show (laneFilter b.r.lanes _ &&& b.r.lanes).getLsbD i.val = (laneFilter b.r.lanes _).getLsbD i.val
  rw [BitVec.getLsbD_and, laneFilter_getLsbD]
  cases b.r.lanes.getLsbD i.val <;> simp

theorem ex_lane {x : Slot} (he : x.ex &&& x.lanes = x.ex) {i : Fin 32} (h : x.ex.getLsbD i.val = true) :
    x.lanes.getLsbD i.val = true := by
  rw [← he, BitVec.getLsbD_and, Bool.and_eq_true] at h
  exact h.2

/-- The facts about a slot that opened, and the crew and cohort that its end finds. -/
structure Stands (s : State) (x : Slot) (c0 : Crew) (h0 : Cohort) : Prop where
  lanes : x.lanes ≠ 0
  ex : x.ex &&& x.lanes = x.ex
  crew : smGet s.crews x.cid = some c0
  coh : s.cohort? x.cid x.co = some h0
  place : x.k / 6 = x.p

theorem slot_stands {o : Op} {f : Fields} {s : State} {b : At} (h : SlotReady o f s b) : Stands s (b.slot o f s) b.c b.h :=
  ⟨h.2.2.2.2.2.2.1, slot_ex_lanes b o f s, h.2.2.2.1, h.2.2.2.2.1, rfl⟩

/-- After a slot without faults: what it leaves alone. -/
theorem finishSlot_frame {s : State} {x : Slot} {c0 : Crew} {h0 : Cohort} (h : Stands s x c0 h0) (res : Placed) :
    RegFrame s (finishSlot x [] res s) x res.isWide := by
  obtain ⟨opc, g, hg, hcrew, hcoh⟩ := finishSlot_crew res h.lanes h.ex h.crew h.coh
  obtain ⟨r, n, e, k⟩ := hg (x.cohortAfter res opc h0)
  obtain ⟨t, sr, ec⟩ := cohortAfter_keeps x res opc h0
  have hthr : (g (x.cohortAfter res opc h0)).threads = (x.cohortAfter res opc h0).threads := by rw [e]
  have hs : (g (x.cohortAfter res opc h0)).s = (x.cohortAfter res opc h0).s := by rw [e]
  refine ⟨finishSlot_only res h.lanes h.ex h.place, c0, h0, h.crew, h.coh, ⟨_, hcrew, rfl, ?_, _, hcoh, ?_, ?_⟩, _, hcoh, ?_, ?_⟩
  · intro j hj
    simp only
    rw [lmod_getElem?, if_neg (Ne.symm hj)]
  · rw [e, ec]
  · intro z
    obtain ⟨k1, b, k2⟩ := k z
    rw [e]
    rw [ec] at k1 k2
    exact ⟨k1, by rw [k2]⟩
  · intro r hr
    rw [hs]
    exact cohortAfter_s x res opc h0 r hr
  · intro i
    rw [hthr, cohortAfter_thread]
    by_cases hl : x.lanes.getLsbD i.val = true
    · rw [if_pos hl]
      refine ⟨threadAfter_keeps x res i _, fun z => by rw [hl] at z; simp at z, fun z => threadAfter_passive z,
        fun r hr => threadAfter_v x res i _ r hr, fun r hr => threadAfter_k x res i _ r hr⟩
    · rw [if_neg hl]
      exact ⟨rfl, fun _ => rfl, fun _ => ⟨rfl, rfl, rfl⟩, fun _ _ => rfl, fun _ _ => rfl⟩

/-- After a slot without faults: the destinations of a result known at once. -/
theorem finishSlot_delivered {s : State} {x : Slot} {c0 : Crew} {h0 : Cohort} (h : Stands s x c0 h0) (wide : Bool) (val : Fin 32 → Val) (l : Fin 32)
    (hx : x.ex.getLsbD l.val = true) :
    Delivered (finishSlot x [] (.now wide (perLane val)) s) x l wide (val l) := by
  obtain ⟨opc, g, hg, hcrew, hcoh⟩ := finishSlot_crew (.now wide (perLane val)) h.lanes h.ex h.crew h.coh
  obtain ⟨r, n, e, k⟩ := hg (x.cohortAfter (.now wide (perLane val)) opc h0)
  have hthr : (g (x.cohortAfter (.now wide (perLane val)) opc h0)).threads[l] =
      placeResult x.f wide (val l) { h0.threads[l] with v := x.usedRegs (h0.threads[l]).v, latch := x.lat[l] } := by
    rw [e]
    refine Eq.trans (cohortAfter_thread x (.now wide (perLane val)) opc h0 l) ?_
    rw [if_pos (ex_lane h.ex hx), threadAfter_now hx, perLane_getElem]
  unfold Delivered
  split
  · rename_i d hd
    refine ⟨_, hcoh, ?_⟩
    beta_reduce
    rw [hthr]
    unfold placeResult
    rw [hd]
    refine ⟨writeV_at _ d wide _, ?_, pushQ_head _ _⟩
    intro hw m hm
    subst hw
    exact writeV_next _ d m _ hm
  · rename_i hd
    refine ⟨_, hcoh, ?_⟩
    beta_reduce
    rw [hthr]
    unfold placeResult
    rw [hd]
    exact pushQ_head _ _
  · rename_i d hd
    refine ⟨_, hcoh, ?_⟩
    beta_reduce
    rw [hthr]
    unfold placeResult
    rw [hd]
    simp only
    rw [setIfInBounds_getElem, if_pos rfl]
  · rename_i d hd
    intro hlow
    refine ⟨_, hcoh, ?_⟩
    beta_reduce
    have hs : (g (x.cohortAfter (.now wide (perLane val)) opc h0)).s = writeS h0.s d.val wide (val l) := by
      rw [e]
      refine Eq.trans (cohortAfter_s_eq x (.now wide (perLane val)) opc h0) ?_
      rw [uniformAfter_now x wide _ _ d l hd hlow, perLane_getElem, threadsAfter_eq]
    rw [hs]
    refine ⟨writeS_at _ d wide _, ?_⟩
    intro hw m hm
    subst hw
    exact writeS_next _ d m _ hm
  · rename_i ci hd
    intro m hm
    refine ⟨_, hcrew, ?_⟩
    beta_reduce
    have hp : pushedWord x (.now wide (perLane val)) = some (chanWord x.ex fun i => qEnt (perLane val)[i] false) := by
      unfold pushedWord
      rw [hd]
    refine ⟨chanWord x.ex fun i => qEnt (perLane val)[i] false, ?_, ?_⟩
    · show (x.chansAfter _ c0)[m.val].words.getLast? = _
      unfold Slot.chansAfter
      rw [hp, Vector.getElem_ofFn]
      simp only
      have hm' : chanOf x.coh x.f.dst = some m.val := hm
      rw [if_pos hm']
      simp [Chan.push]
    · show (Vector.ofFn _)[l.val] = _
      rw [Vector.getElem_ofFn, if_pos hx]
      show qEnt (Vector.ofFn val)[l.val] false = _
      rw [Vector.getElem_ofFn]
      rfl
  · trivial

/-- A result that comes later: what the executing threads await. -/
theorem finishSlot_awaited {s : State} {x : Slot} {c0 : Crew} {h0 : Cohort} (h : Stands s x c0 h0) (id : Nat) (wide : Bool)
    (l : Fin 32) (hx : x.ex.getLsbD l.val = true) : Awaited (finishSlot x [] (.late id wide) s) x l id := by
  obtain ⟨opc, g, hg, hcrew, hcoh⟩ := finishSlot_crew (.late id wide) h.lanes h.ex h.crew h.coh
  obtain ⟨r, n, e, k⟩ := hg (x.cohortAfter (.late id wide) opc h0)
  have hthr : (g (x.cohortAfter (.late id wide) opc h0)).threads[l] = threadAfter x (.late id wide) l h0.threads[l] := by
    rw [e]
    refine Eq.trans (cohortAfter_thread x (.late id wide) opc h0 l) ?_
    rw [if_pos (ex_lane h.ex hx)]
  unfold Awaited
  split
  · rename_i d hd
    refine ⟨_, hcoh, ?_⟩
    beta_reduce
    rw [hthr]
    unfold threadAfter
    rw [if_pos hx]
    simp only [hd]
    exact pushQ_head _ _
  · rename_i hd
    refine ⟨_, hcoh, ?_⟩
    beta_reduce
    rw [hthr]
    unfold threadAfter
    rw [if_pos hx]
    simp only [hd]
    exact pushQ_head _ _
  · rename_i ci hd
    intro m hm
    refine ⟨_, hcrew, ?_⟩
    beta_reduce
    have hp : pushedWord x (.late id wide) = some (chanWord x.ex fun _ => { val := 0, p := true, tr := false, pend := some id }) := by
      unfold pushedWord
      rw [hd]
    refine ⟨chanWord x.ex fun _ => { val := 0, p := true, tr := false, pend := some id }, ?_, ?_⟩
    · show (x.chansAfter _ c0)[m.val].words.getLast? = _
      unfold Slot.chansAfter
      rw [hp, Vector.getElem_ofFn]
      simp only
      have hm' : chanOf x.coh x.f.dst = some m.val := hm
      rw [if_pos hm']
      simp [Chan.push]
    · show (Vector.ofFn _)[l.val] = _
      rw [Vector.getElem_ofFn, if_pos hx]
  · trivial

/-- An instruction whose lanes get values of their operands completes with them. -/
theorem slot_results {i : Instr} {o : Op} {f : Fields} {s : State} {b : At} {wide : Bool} {g : Slot → Fin 32 → Val}
    (h : SlotReady o f s b)
    (he : exec i s = runSlot o f s fun x s => finishSlot x [] (.now wide (perLane (g x))) s) :
    Results i s (b.slot o f s) wide (g (b.slot o f s)) := by
  rw [runSlot_ready h] at he
  exact ⟨_, he, finishSlot_frame (slot_stands h) (.now wide _), fun l hx => finishSlot_delivered (slot_stands h) wide _ l hx⟩
/-- The same of every form and every state. -/
theorem computes {o : Op} {c : Fields → Instr} {wide : Fields → Bool} {val : Fields → Slot → Fin 32 → Val}
    (he : ∀ f s, exec (c f) s = runSlot o f s fun x s => finishSlot x [] (.now (wide f) (perLane (val f x))) s) :
    Computes o c wide val := fun f s _ h => slot_results (g := val f) h (he f s)

/-- An instruction that ends its slot in the state of its effect. -/
theorem slot_acts {i : Instr} {o : Op} {f : Fields} {s e : State} {b : At} {body : Slot → State → State} (h : SlotReady o f s b)
    (he : exec i s = runSlot o f s body) (hb : body (b.slot o f s) s = finishSlot (b.slot o f s) [] .none e)
    (hp : ∃ c h, Stands e (b.slot o f s) c h) : Acts i s e (b.slot o f s) := by
  obtain ⟨_, _, hp⟩ := hp
  rw [runSlot_ready h, hb] at he
  exact ⟨_, he, finishSlot_frame hp .none⟩

/-- An instruction that ends its slot in the state of its effect, its result to come. -/
theorem slot_posts {i : Instr} {o : Op} {f : Fields} {s e : State} {b : At} {id : Nat} {wide : Bool}
    {body : Slot → State → State} (h : SlotReady o f s b) (he : exec i s = runSlot o f s body)
    (hb : body (b.slot o f s) s = finishLate (b.slot o f s) [] id wide e) (hp : ∃ c h, Stands e (b.slot o f s) c h) :
    Posts i s e (b.slot o f s) wide id := by
  obtain ⟨_, _, hp⟩ := hp
  rw [runSlot_ready h, hb] at he
  exact ⟨_, he, finishSlot_frame hp (.late id wide), finishSlot_own id wide hp.lanes hp.ex, fun l hl => finishSlot_awaited hp id wide l hl⟩

/-- A check that no executing lane fails gives no trap. -/
theorem slot_faults_none {x : Slot} {g : Fin 32 → Option (Cause × W64)} (h : ∀ i : Fin 32, x.ex.getLsbD i.val = true → g i = none) :
    x.faults g = [] := by
  unfold Slot.faults
  rw [List.filterMap_eq_nil_iff]
  intro i hi
  rw [h i ((mem_lanesOf _ _).1 hi)]
  rfl

/-- A slot stands in a state that has its cohort. -/
theorem stands_of_cohort {o : Op} {f : Fields} {s e : State} {b : At} (h : SlotReady o f s b)
    (hc : (e.cohort? b.r.cid b.r.co).isSome = true) : ∃ c h, Stands e (b.slot o f s) c h := by
  obtain ⟨h0, hh⟩ := Option.isSome_iff_exists.1 hc
  have hh' := hh
  unfold State.cohort? at hh'
  cases hcr : smGet e.crews b.r.cid with
  | none => rw [hcr] at hh'; simp at hh'
  | some c0 => exact ⟨c0, h0, h.2.2.2.2.2.2.1, slot_ex_lanes b o f s, hcr, hh, rfl⟩

/-- A ready slot's cohort is there. -/
theorem ready_cohort {o : Op} {f : Fields} {s : State} {b : At} (h : SlotReady o f s b) :
    (s.cohort? b.r.cid b.r.co).isSome = true := by
  rw [h.2.2.2.2.1]; rfl

end Sys2Proof.Machine
end

