-- ==== Sys2Proof/Laws/Effects.lean ====
section
/-!
SUPPORT. Sys2Proof/Laws/Effects.lean: the effects of instructions keep the cohorts: whether a cohort is there is as before
after each operation that an instruction's own effect is made of.
-/

namespace Sys2Proof.Machine

/-- Cohort `j` of crew `i` is there. -/
def live (cs : SMap Crew) (i j : Nat) : Bool := ((smGet cs i).bind fun c => c.cohorts[j]?).isSome

theorem cohort_isSome (s : State) (i j : Nat) : (s.cohort? i j).isSome = live s.crews i j := rfl

theorem isSome_getElem?_iff {α : Type} (l : List α) (n : Nat) : l[n]?.isSome = true ↔ n < l.length := by simp

theorem live_smMod (cs : SMap Crew) (k : Nat) (f : Crew → Crew) (i j : Nat)
    (h : ∀ c, (f c).cohorts.length = c.cohorts.length) : live (smMod cs k f) i j = live cs i j := by
  unfold live
  rw [smGet_smMod]
  by_cases hk : i = k
  · rw [if_pos hk]
    cases smGet cs i with
    | none => rfl
    | some c =>
      simp only [Option.map_some, Option.bind_some]
      rw [Bool.eq_iff_iff, isSome_getElem?_iff, isSome_getElem?_iff, h]
  · rw [if_neg hk]

theorem live_smMap (cs : SMap Crew) (f : Nat → Crew → Crew) (i j : Nat)
    (h : ∀ k c, (f k c).cohorts.length = c.cohorts.length) : live (smMap f cs) i j = live cs i j := by
  unfold live
  rw [smGet_smMap']
  cases smGet cs i with
  | none => rfl
  | some c =>
    simp only [Option.map_some, Option.bind_some]
    rw [Bool.eq_iff_iff, isSome_getElem?_iff, isSome_getElem?_iff, h]

@[simp] theorem live_modCohort (s : State) (a b : Nat) (f : Cohort → Cohort) (i j : Nat) :
    live (s.modCohort a b f).crews i j = live s.crews i j := live_smMod _ _ _ _ _ fun _ => lmod_length ..

@[simp] theorem live_modLanes (s : State) (a b : Nat) (m : BitVec 32) (f : Fin 32 → Thread → Thread) (i j : Nat) :
    live (s.modLanes a b m f).crews i j = live s.crews i j := live_modCohort ..

@[simp] theorem live_modThread (s : State) (a b l : Nat) (f : Thread → Thread) (i j : Nat) :
    live (s.modThread a b l f).crews i j = live s.crews i j := live_modCohort ..

theorem live_modCrew (s : State) (a : Nat) (f : Crew → Crew) (i j : Nat) (h : ∀ c, (f c).cohorts = c.cohorts) :
    live (s.modCrew a f).crews i j = live s.crews i j := live_smMod _ _ _ _ _ fun c => by rw [h]

@[simp] theorem live_forL {α : Type} (l : List α) (s : State) (g : α → State → State) (i j : Nat)
    (h : ∀ x s, live (g x s).crews i j = live s.crews i j) : live (forL l s g).crews i j = live s.crews i j := by
  induction l generalizing s with
  | nil => rfl
  | cons x r ih => exact (ih (g x s)).trans (h x s)

theorem live_forL_fst {α β : Type} (l : List α) (y : State × β) (g : α → State × β → State × β) (i j : Nat)
    (h : ∀ x y, live (g x y).1.crews i j = live y.1.crews i j) : live (forL l y g).1.crews i j = live y.1.crews i j := by
  induction l generalizing y with
  | nil => rfl
  | cons x r ih => exact (ih (g x y)).trans (h x y)

theorem live_forN (n : Nat) (s : State) (g : Nat → State → State) (i j : Nat)
    (h : ∀ x s, live (g x s).crews i j = live s.crews i j) : live (forN n s g).crews i j = live s.crews i j := by
  rw [forN_eq]
  exact live_forL _ _ _ _ _ h

@[simp] theorem live_addPend (s : State) (p : Pend) (i j : Nat) : live (s.addPend p).crews i j = live s.crews i j := rfl

@[simp] theorem live_startFence (s : State) (a b t : Nat) (m : BitVec 32) (pc : W64) (f : FenceSt) (i j : Nat) :
    live (s.startFence a b t m pc f).crews i j = live s.crews i j := rfl

@[simp] theorem live_resultLane (s : State) (a b : Nat) (v : List W64) (p : Bool) (i j : Nat) :
    live (s.resultLane a b v p).crews i j = live s.crews i j := rfl

@[simp] theorem live_send (s : State) (r : Req) (i j : Nat) : live (s.send r).crews i j = live s.crews i j := by
  unfold State.send
  simp only
  split
  · rfl
  · split
    · rw [live_modThread]; rfl
    · split <;> rfl

@[simp] theorem live_settle (s : State) (t i j : Nat) : live (s.settle t).crews i j = live s.crews i j := by
  unfold State.settle
  split
  · rfl
  · split
    · rfl
    · simp only [live_modCohort, live_modLanes]

@[simp] theorem live_settlePend (s : State) (id i j : Nat) : live (s.settlePend id).crews i j = live s.crews i j := by
  unfold State.settlePend
  split
  · rfl
  · split <;> simp

@[simp] theorem live_performLane (s : State) (a b i j : Nat) : live (s.performLane a b).crews i j = live s.crews i j := by
  unfold State.performLane
  rw [live_settlePend]
  rfl

@[simp] theorem live_dueTrap (s : State) (a b c : Nat) (t : TrapRec) (i j : Nat) :
    live (s.dueTrap a b c t).crews i j = live s.crews i j := live_modThread ..

@[simp] theorem live_waitLine (s : State) (p : Nat) (w : MWait) (i j : Nat) :
    live (s.waitLine p w).crews i j = live s.crews i j := rfl

@[simp] theorem live_modIssue (s : State) (k : Nat) (f : IssueSt → IssueSt) (i j : Nat) :
    live (s.modIssue k f).crews i j = live s.crews i j := rfl

@[simp] theorem live_modCluster (s : State) (k : Nat) (f : Cluster → Cluster) (i j : Nat) :
    live (s.modCluster k f).crews i j = live s.crews i j := rfl

@[simp] theorem live_loadGlobal (s : State) (x : Slot) (id lane n hint : Nat) (sx : Bool) (va : W64)
    (kept : List (Option Byte)) (i j : Nat) :
    live (s.loadGlobal x id lane n hint sx va kept).crews i j = live s.crews i j := by
  unfold State.loadGlobal
  simp only
  split
  · rfl
  · split
    · split
      · rfl
      · exact live_send ..
    · exact live_send ..

@[simp] theorem live_loadAcquire (s : State) (x : Slot) (lane hint : Nat) (va : W64) (first i j : Nat) :
    live (s.loadAcquire x lane hint va first).crews i j = live s.crews i j := by
  unfold State.loadAcquire
  simp only
  split <;> rfl

@[simp] theorem live_loadStash (s : State) (x : Slot) (id lane n : Nat) (ty : Ty) (sx : Bool) (phys : Nat)
    (kept : List (Option Byte)) (i j : Nat) :
    live (s.loadStash x id lane n ty sx phys kept).crews i j = live s.crews i j := by
  unfold State.loadStash
  simp only
  split
  · simp
  · split <;> simp

@[simp] theorem live_sendAtomic (s : State) (x : Slot) (lane : Nat) (r : Req) (i j : Nat) :
    live (s.sendAtomic x lane r).crews i j = live s.crews i j := by
  unfold State.sendAtomic
  simp only
  split
  · simp
  · rfl

theorem writeBytes_crews (s : State) (a : Nat) (d : List Byte) (q : Bool) : (s.writeBytes a d q).crews = s.crews := rfl

@[simp] theorem live_drainParts (s : State) (p : Nat) (f : RedEnt → Bool) (i j : Nat) :
    live (s.drainParts p f).crews i j = live s.crews i j := by
  unfold State.drainParts
  simp only
  refine (live_forL _ _ _ _ _ ?_).trans (live_modCluster ..)
  intro k s
  split <;> simp

@[simp] theorem live_writeBytes (s : State) (a : Nat) (d : List Byte) (q : Bool) (i j : Nat) :
    live (s.writeBytes a d q).crews i j = live s.crews i j := rfl

@[simp] theorem live_fresh (s : State) (i j : Nat) : live s.fresh.crews i j = live s.crews i j := rfl

@[simp] theorem live_modMline (s : State) (p o : Nat) (f : MLine → MLine) (i j : Nat) :
    live (s.modMline p o f).crews i j = live s.crews i j := rfl

@[simp] theorem live_passL0 (s : State) (id : Nat) (r : Req) (i j : Nat) : live (s.passL0 id r).crews i j = live s.crews i j := by
  unfold State.passL0
  split <;> rfl

@[simp] theorem live_storeOut (s : State) (p sl cid co lane : Nat) (pend : Option Nat) (asid : BitVec 16) (va : W64)
    (d : List Byte) (hint : Nat) (trpc : W64) (r : Bool) (i j : Nat) :
    live (s.storeOut p sl cid co lane pend asid va d hint trpc r).crews i j = live s.crews i j := by
  unfold State.storeOut
  simp

@[simp] theorem live_stashStore (s : State) (p cid co lane : Nat) (pend : Option Nat) (off : Nat) (d : List Byte)
    (trpc : W64) (r : Bool) (i j : Nat) :
    live (s.stashStore p cid co lane pend off d trpc r).crews i j = live s.crews i j := by
  unfold State.stashStore
  simp only
  split
  · cases pend <;> simp
  · split
    · split
      · cases pend <;> simp
      · cases pend <;> simp
    · split
      · cases pend <;> simp
      · simp

@[simp] theorem live_drainStores (s : State) (p sl cid co : Nat) (asid : BitVec 16) (l : List RStore) (i j : Nat) :
    live (s.drainStores p sl cid co asid l).crews i j = live s.crews i j := by
  unfold State.drainStores
  refine live_forL _ _ _ _ _ fun x s => ?_
  split <;> simp

@[simp] theorem live_commitRegion (s : State) (cid co : Nat) (im : Bool) (i j : Nat) :
    live (s.commitRegion cid co im).crews i j = live s.crews i j := by
  unfold State.commitRegion
  split
  · split
    · rfl
    · simp
  · rfl

@[simp] theorem live_openRegion (s : State) (cid co : Nat) (e : Bool) (o : Opening) (i j : Nat) :
    live (s.openRegion cid co e o).crews i j = live s.crews i j := live_modCohort ..

@[simp] theorem live_popChan (s : State) (cid n i j : Nat) : live (s.popChan cid n).crews i j = live s.crews i j :=
  live_modCrew _ _ _ _ _ fun _ => rfl

@[simp] theorem live_regionHere (s : State) (x : Slot) (i j : Nat) : live (s.regionHere x).crews i j = live s.crews i j := by
  unfold State.regionHere
  split
  · split
    · rfl
    · simp
  · rfl

theorem live_buffer {s e : State} {x : Slot} {l : List RStore} (h : s.buffer x l = .ok e) (i j : Nat) :
    live e.crews i j = live s.crews i j := by
  unfold State.buffer at h
  simp only at h
  split at h
  · simp only [Except.ok.injEq] at h; subst h; rfl
  · split at h
    · split at h
      · simp at h
      · simp at h
      · simp only [Except.ok.injEq] at h; subst h; simp
    · simp only [Except.ok.injEq] at h; subst h; simp

@[simp] theorem live_atomStash (s : State) (p phys n : Nat) (op : ReqOp) (i j : Nat) :
    live (s.atomStash p phys n op).1.crews i j = live s.crews i j := by
  unfold State.atomStash
  simp only
  split
  · rw [live_modMline]
    split
    · simp
    · rfl
  · rfl

@[simp] theorem live_wbLanes (s : State) (p : Nat) (l : List (Nat × Nat)) (i j : Nat) :
    live (s.wbLanes p l).crews i j = live s.crews i j := by
  unfold State.wbLanes
  refine live_forL _ _ _ _ _ fun x s => ?_
  split <;> simp

@[simp] theorem live_maintain (s : State) (x : Slot) (op : Maint) (id lane line n : Nat) (va : W64) (i j : Nat) :
    live (s.maintain x op id lane line n va).crews i j = live s.crews i j := by
  unfold State.maintain
  refine live_forN _ _ _ _ _ fun k s => ?_
  simp only
  split <;> simp

@[simp] theorem live_redHere (s : State) (x : Slot) (key : RedEnt) (lane : Nat) (v : W64) (i j : Nat) :
    live (s.redHere x key lane v).crews i j = live s.crews i j := by
  unfold State.redHere
  simp only
  split <;> simp

@[simp] theorem live_redLane (s : State) (x : Slot) (lane : Nat) (m : BitVec 32) (va v : W64) (i j : Nat) :
    live (s.redLane x lane m va v).1.crews i j = live s.crews i j := by
  unfold State.redLane State.redRoom State.reopenMid
  simp only
  split
  · simp
  · split <;> simp

theorem live_modPend (s : State) (id : Nat) (f : Pend → Pend) (i j : Nat) :
    live (s.modPend id f).crews i j = live s.crews i j := rfl

end Sys2Proof.Machine
end

