-- ==== Sys2Proof/Laws/Encoding.lean ====
section
/-!
SUPPORT. Sys2Proof/Laws/Encoding.lean: the decoder undoes the encoder: fields of concatenated bits, selectors, types and OP
values both ways, slot words, bytes and mapping records.
-/

namespace Sys2Proof.Machine

theorem ext_hi {m n : Nat} (x : BitVec m) (y : BitVec n) {s l : Nat} (h : n ≤ s) :
    (x ++ y).extractLsb' s l = x.extractLsb' (s - n) l := by
  ext i hi
  rw [BitVec.getElem_extractLsb', BitVec.getElem_extractLsb', BitVec.getLsbD_append, if_neg (by omega)]
  congr 1; omega
theorem ext_lo {m n : Nat} (x : BitVec m) (y : BitVec n) {s l : Nat} (h : s + l ≤ n) :
    (x ++ y).extractLsb' s l = y.extractLsb' s l := by
  ext i hi
  rw [BitVec.getElem_extractLsb', BitVec.getElem_extractLsb', BitVec.getLsbD_append, if_pos (by omega)]
theorem ext_at {m n : Nat} (x : BitVec m) (y : BitVec n) {s : Nat} (h : s = n) :
    (x ++ y).extractLsb' s m = x := by
  subst h
  rw [ext_hi _ _ (Nat.le_refl _), Nat.sub_self]
  ext i hi
  rw [BitVec.getElem_extractLsb', Nat.zero_add, BitVec.getLsbD_eq_getElem hi]
theorem get_hi {m n : Nat} (x : BitVec m) (y : BitVec n) {s : Nat} (h : n ≤ s) : (x ++ y).getLsbD s = x.getLsbD (s - n) := by
  rw [BitVec.getLsbD_append, if_neg (by omega)]
theorem get_lo {m n : Nat} (x : BitVec m) (y : BitVec n) {s : Nat} (h : s < n) : (x ++ y).getLsbD s = y.getLsbD s := by
  rw [BitVec.getLsbD_append, if_pos h]
theorem sel_byte (x : Sel) : Sel.ofByte x.byte = x := by
  cases x with
  | t i => revert i; decide
  | v i => revert i; decide
  | s i => revert i; decide
  | ch i => revert i; decide
  | k i => revert i; decide
  | int i => revert i; decide
  | flt i => revert i; decide
  | special i => revert i; decide
  | reserved i => revert i; decide
  | lit => decide
  | none => decide
theorem ext_all {n : Nat} (x : BitVec n) : x.extractLsb' 0 n = x := by
  ext i hi
  rw [BitVec.getElem_extractLsb', Nat.zero_add, BitVec.getLsbD_eq_getElem hi]
theorem src_bits (x : Src) : Src.ofBits x.bits = x := by
  obtain ⟨s, l, k⟩ := x
  unfold Src.ofBits Src.bits
  simp only
  rw [ext_lo _ _ (by decide), ext_lo _ _ (by decide), ext_all, sel_byte, get_hi (BitVec.ofBool l) _ (by decide),
    get_lo (BitVec.ofBool l) _ (by decide), get_hi _ _ (by decide)]
  simp
theorem ty_code (t : Ty) : Ty.ofCode t.code = t := by cases t <;> rfl
theorem op_code (o : Op) : Op.ofCode o.code = some o := by cases o <;> rfl
theorem code_lt (o : Op) : o.code < 1024 := by cases o <;> decide

theorem fields_word (o : Op) (f : Fields) (lit : W64) :
    Fields.ofWord (f.word o) lit = { f with lit := if f.usesLit then lit else 0 } := by
  obtain ⟨ty, pn, pk, dstT, rsv44, dst, a, b, c, mod, l⟩ := f
  have e1 : (Fields.word o ⟨ty, pn, pk, dstT, rsv44, dst, a, b, c, mod, l⟩).extractLsb' 50 4 = ty.code := by
    unfold Fields.word
    rw [ext_lo _ _ (by decide), ext_at _ _ (by decide)]
  have e2 : (Fields.word o ⟨ty, pn, pk, dstT, rsv44, dst, a, b, c, mod, l⟩).getLsbD 49 = pn := by
    unfold Fields.word
    rw [get_lo _ _ (by decide), get_lo _ _ (by decide), get_hi _ _ (by decide)]
    simp
  have e3 : (Fields.word o ⟨ty, pn, pk, dstT, rsv44, dst, a, b, c, mod, l⟩).extractLsb' 46 3 = BitVec.ofNat 3 pk.val := by
    unfold Fields.word
    rw [ext_lo _ _ (by decide), ext_lo _ _ (by decide), ext_lo _ _ (by decide), ext_at _ _ (by decide)]
  have e4 : (Fields.word o ⟨ty, pn, pk, dstT, rsv44, dst, a, b, c, mod, l⟩).getLsbD 45 = dstT := by
    unfold Fields.word
    rw [get_lo _ _ (by decide), get_lo _ _ (by decide), get_lo _ _ (by decide), get_lo _ _ (by decide), get_hi _ _ (by decide)]
    simp
  have e5 : (Fields.word o ⟨ty, pn, pk, dstT, rsv44, dst, a, b, c, mod, l⟩).getLsbD 44 = rsv44 := by
    unfold Fields.word
    rw [get_lo _ _ (by decide), get_lo _ _ (by decide), get_lo _ _ (by decide), get_lo _ _ (by decide), get_lo _ _ (by decide), get_hi _ _ (by decide)]
    simp
  have e6 : (Fields.word o ⟨ty, pn, pk, dstT, rsv44, dst, a, b, c, mod, l⟩).extractLsb' 36 8 = dst.byte := by
    unfold Fields.word
    rw [ext_lo _ _ (by decide), ext_lo _ _ (by decide), ext_lo _ _ (by decide), ext_lo _ _ (by decide), ext_lo _ _ (by decide), ext_lo _ _ (by decide), ext_at _ _ (by decide)]
  have e7 : (Fields.word o ⟨ty, pn, pk, dstT, rsv44, dst, a, b, c, mod, l⟩).extractLsb' 26 10 = a.bits := by
    unfold Fields.word
    rw [ext_lo _ _ (by decide), ext_lo _ _ (by decide), ext_lo _ _ (by decide), ext_lo _ _ (by decide), ext_lo _ _ (by decide), ext_lo _ _ (by decide), ext_lo _ _ (by decide), ext_at _ _ (by decide)]
  have e8 : (Fields.word o ⟨ty, pn, pk, dstT, rsv44, dst, a, b, c, mod, l⟩).extractLsb' 16 10 = b.bits := by
    unfold Fields.word
    rw [ext_lo _ _ (by decide), ext_lo _ _ (by decide), ext_lo _ _ (by decide), ext_lo _ _ (by decide), ext_lo _ _ (by decide), ext_lo _ _ (by decide), ext_lo _ _ (by decide), ext_lo _ _ (by decide), ext_at _ _ (by decide)]
  have e9 : (Fields.word o ⟨ty, pn, pk, dstT, rsv44, dst, a, b, c, mod, l⟩).extractLsb' 6 10 = c.bits := by
    unfold Fields.word
    rw [ext_lo _ _ (by decide), ext_lo _ _ (by decide), ext_lo _ _ (by decide), ext_lo _ _ (by decide), ext_lo _ _ (by decide), ext_lo _ _ (by decide), ext_lo _ _ (by decide), ext_lo _ _ (by decide), ext_lo _ _ (by decide), ext_at _ _ (by decide)]
  have e10 : (Fields.word o ⟨ty, pn, pk, dstT, rsv44, dst, a, b, c, mod, l⟩).extractLsb' 0 6 = mod := by
    unfold Fields.word
    rw [ext_lo _ _ (by decide), ext_lo _ _ (by decide), ext_lo _ _ (by decide), ext_lo _ _ (by decide), ext_lo _ _ (by decide), ext_lo _ _ (by decide), ext_lo _ _ (by decide), ext_lo _ _ (by decide), ext_lo _ _ (by decide), ext_lo _ _ (by decide), ext_all]
  unfold Fields.ofWord
  simp only [e1, e2, e3, e4, e5, e6, e7, e8, e9, e10, ty_code, sel_byte, src_bits]
  have p : ∀ h, (⟨(BitVec.ofNat 3 pk.val).toNat, h⟩ : Fin 8) = pk := by
    intro h
    apply Fin.ext
    show pk.val % 2 ^ 3 = pk.val
    have := pk.isLt
    omega
  simp only [p]
  have q : (Fields.usesLit ⟨ty, pn, pk, dstT, rsv44, dst, a, b, c, mod, 0⟩) = Fields.usesLit ⟨ty, pn, pk, dstT, rsv44, dst, a, b, c, mod, l⟩ := rfl
  rw [q]
  split <;> rfl

theorem slot_word (o : Op) (f : Fields) (lit : W64) (h : (f.usesLit || decide (f.lit = 0)) = true) (h2 : f.usesLit = true → lit = f.lit) :
    decodeSlot (f.word o) lit = .ok (Instr.ofOp o f) := by
  have e : (f.word o).extractLsb' 54 10 = BitVec.ofNat 10 o.code := by
    unfold Fields.word
    rw [ext_at _ _ (by decide)]
  unfold decodeSlot
  rw [e, BitVec.toNat_ofNat, Nat.mod_eq_of_lt (code_lt o), op_code, fields_word]
  refine congrArg (fun x => Except.ok (Instr.ofOp o x)) ?_
  cases hu : f.usesLit
  · rw [hu] at h
    simp only [Bool.false_or, decide_eq_true_eq] at h
    obtain ⟨ty, pn, pk, dstT, rsv44, dst, a, b, c, mod, l⟩ := f
    simp only at h
    simp [h]
  · rw [h2 hu]
    rfl
theorem opFields_ofOp {i : Instr} {o : Op} {f : Fields} (h : i.opFields? = some (o, f)) : Instr.ofOp o f = i := by
  cases i <;> first | (cases h; rfl) | cases h

theorem byte_sel (x : BitVec 8) : (Sel.ofByte x).byte = x := by revert x; decide
theorem code_ty (x : BitVec 4) : (Ty.ofCode x).code = x := by revert x; decide
theorem ext_join {n : Nat} (w : BitVec n) (s m k t : Nat) (h : t = s + k) : w.extractLsb' t m ++ w.extractLsb' s k = w.extractLsb' s (m + k) := by
  subst h
  ext i hi
  rw [← BitVec.getLsbD_eq_getElem, BitVec.getLsbD_append, BitVec.getLsbD_extractLsb', BitVec.getLsbD_extractLsb', ← BitVec.getLsbD_eq_getElem, BitVec.getLsbD_extractLsb']
  split
  · next h => simp [h, hi]
  · next h =>
    have : s + k + (i - k) = s + i := by omega
    simp [this, hi]; omega
theorem ext_joinb {n : Nat} (w : BitVec n) (s k t : Nat) (h : t = s + k) : BitVec.ofBool (w.getLsbD t) ++ w.extractLsb' s k = w.extractLsb' s (1 + k) := by
  rw [← ext_join w s 1 k t h]
  congr 1
  ext i hi
  have : i = 0 := by omega
  subst this
  simp
theorem bits_src (x : BitVec 10) : (Src.ofBits x).bits = x := by
  unfold Src.ofBits Src.bits
  simp only
  rw [byte_sel, ext_joinb _ _ _ _ (by decide), ext_joinb _ _ _ _ (by decide), ext_all]
theorem ofCode_code (n : Nat) (h : n < 1024) (o : Op) (e : Op.ofCode n = some o) : o.code = n := by
  have k : ∀ n : Fin 1024, (Op.ofCode n.val).all (fun o => o.code == n.val) = true := by decide +kernel
  have := k ⟨n, h⟩
  rw [e] at this
  simpa using this
theorem word_fields (o : Op) (w lit : W64) (h : Op.ofCode (w.extractLsb' 54 10).toNat = some o) : (Fields.ofWord w lit).word o = w := by
  have e : ∀ l, (Fields.word o {
      ty := Ty.ofCode (w.extractLsb' 50 4), pn := w.getLsbD 49,
      pk := ⟨(w.extractLsb' 46 3).toNat, (w.extractLsb' 46 3).isLt⟩,
      dstT := w.getLsbD 45, rsv44 := w.getLsbD 44, dst := Sel.ofByte (w.extractLsb' 36 8),
      a := Src.ofBits (w.extractLsb' 26 10), b := Src.ofBits (w.extractLsb' 16 10),
      c := Src.ofBits (w.extractLsb' 6 10), mod := w.extractLsb' 0 6, lit := l }) = w := by
    intro l
    unfold Fields.word
    simp only [code_ty, byte_sel, bits_src, ofCode_code _ (w.extractLsb' 54 10).isLt _ h, BitVec.ofNat_toNat, BitVec.setWidth_eq]
    rw [ext_join _ _ _ _ _ (by decide), ext_join _ _ _ _ _ (by decide), ext_join _ _ _ _ _ (by decide), ext_join _ _ _ _ _ (by decide), ext_joinb _ _ _ _ (by decide), ext_joinb _ _ _ _ (by decide), ext_join _ _ _ _ _ (by decide), ext_joinb _ _ _ _ (by decide), ext_join _ _ _ _ _ (by decide), ext_join _ _ _ _ _ (by decide)]
    exact ext_all w
  unfold Fields.ofWord
  simp only
  split
  · exact e _
  · exact e _
theorem nat_bytes (n x : Nat) : wordOfBytes.natOfBytes (bytesOfNat n x) = x % 256 ^ n := by
  induction n generalizing x with
  | zero => simp [bytesOfNat, wordOfBytes.natOfBytes, Nat.mod_one]
  | succ n ih =>
    rw [bytesOfNat, wordOfBytes.natOfBytes, ih, BitVec.toNat_ofNat, show 256 ^ (n + 1) = 256 * 256 ^ n from Nat.pow_succ']
    exact (Nat.mod_mul ..).symm
theorem bytes_len (n x : Nat) : (bytesOfNat n x).length = n := by
  induction n generalizing x with
  | zero => rfl
  | succ n ih => rw [bytesOfNat, List.length_cons, ih]
theorem word_bytes (w : W64) : wordOfBytes (bytesOfNat 8 w.toNat) = w := by
  unfold wordOfBytes
  rw [nat_bytes, Nat.mod_eq_of_lt (by have := w.isLt; omega), BitVec.ofNat_toNat, BitVec.setWidth_eq]
theorem ofOp_opFields (o : Op) (f : Fields) : (Instr.ofOp o f).opFields? = some (o, f) := by cases o <;> rfl
theorem record_words {p cmd : Nat} {m : MapCmd} {i : Instr} (h : mapInstr p m cmd = some i) : decodeRecord p (m.words cmd) = .ok i := by
  have hc : cmd < 256 := by
    apply Decidable.byContradiction
    intro h1
    unfold mapInstr at h
    split at h <;> first | omega | cases h
  obtain ⟨space, size, fl, cause, stamp, va, frame, count, cookie⟩ := m
  unfold MapCmd.words decodeRecord MapCmd.ofWords
  simp only
  rw [if_pos]
  · rw [ext_at (BitVec.ofNat 8 cmd) _ rfl, ext_lo (BitVec.ofNat 8 cmd) _ (by decide), ext_lo (BitVec.ofNat 8 cmd) _ (by decide),
      ext_lo (BitVec.ofNat 8 cmd) _ (by decide), ext_lo (BitVec.ofNat 8 cmd) _ (by decide), ext_lo (BitVec.ofNat 8 cmd) _ (by decide),
      ext_at space _ rfl, ext_lo space _ (by decide), ext_lo space _ (by decide), ext_lo space _ (by decide), ext_lo space _ (by decide),
      ext_at size _ rfl, ext_lo size _ (by decide), ext_lo size _ (by decide), ext_lo size _ (by decide),
      ext_at fl _ rfl, ext_lo fl _ (by decide), ext_lo fl _ (by decide), ext_at cause _ rfl, ext_lo cause _ (by decide),
      ext_lo (0#5) _ (by decide), ext_all, ext_lo (0#43) _ (by decide), ext_all, ext_lo (0#32) _ (by decide), ext_all,
      BitVec.toNat_ofNat, Nat.mod_eq_of_lt hc, h]
  · refine ⟨?_, ext_at _ _ rfl, ext_at _ _ rfl, trivial, trivial, trivial⟩
    rw [ext_lo (BitVec.ofNat 8 cmd) _ (by decide), ext_lo space _ (by decide), ext_lo size _ (by decide), ext_lo fl _ (by decide), ext_lo cause _ (by decide)]
    exact ext_at _ _ rfl
theorem mapFields_instr {i : Instr} {cmd p : Nat} {m : MapCmd} (h : i.mapFields? = some (cmd, p, m)) : mapInstr p m cmd = some i := by
  cases i <;> first | (cases h; rfl) | cases h

theorem decodeSlot_head {w lit : W64} {i : Instr} (h : decodeSlot w lit = .ok i) : (encode i).head? = some w := by
  unfold decodeSlot at h
  split at h
  · next o ho =>
    cases h
    have e := word_fields o w lit ho
    simp only [encode, ofOp_opFields]
    split
    · simp only [List.head?_cons, e]
    · simp only [List.head?_cons, e]
  · cases h

theorem decode_encode {i : Instr} {o : Op} {f : Fields} (h : WellFormed i = true) (h2 : i.opFields? = some (o, f)) :
    decode (bytesOfWords (encode i)) = .ok (i, 8 * (encode i).length) := by
  have hw : (f.usesLit || decide (f.lit = 0)) = true := by
    simp only [WellFormed, h2, Bool.and_eq_true] at h
    exact h.2
  simp only [encode, h2]
  cases hu : f.usesLit
  · simp only [Bool.false_eq_true, if_false, bytesOfWords, List.append_nil]
    unfold decode
    rw [if_neg (by rw [bytes_len]; decide), List.take_of_length_le (by simp only [bytes_len, Nat.le_refl]), word_bytes,
      slot_word o f _ hw (by rw [hu]; intro h; cases h), opFields_ofOp h2]
    simp only [h2, Option.map_some, hu]
    rfl
  · simp only [if_true, bytesOfWords, List.append_nil]
    unfold decode
    rw [if_neg (by rw [List.length_append, bytes_len, bytes_len]; decide),
      List.take_append_of_le_length (by simp only [bytes_len, Nat.le_refl]), List.take_of_length_le (by simp only [bytes_len, Nat.le_refl]), word_bytes,
      List.drop_append_of_le_length (by simp only [bytes_len, Nat.le_refl]), List.drop_of_length_le (by simp only [bytes_len, Nat.le_refl]), List.nil_append,
      List.take_of_length_le (by simp only [bytes_len, Nat.le_refl]), word_bytes,
      slot_word o f _ hw (fun _ => rfl), opFields_ofOp h2]
    simp only [h2, Option.map_some, hu, if_true, List.length_append, bytes_len]
    rfl

end Sys2Proof.Machine
end

