-- ==== Sys2Proof/Laws/Memory.lean ====
section
/-!
SUPPORT. Sys2Proof/Laws/Memory.lean: memory keeps its canonical form under every operation, and a byte reads as it was last
written.
-/

namespace Sys2Proof.Machine

/-- Every listed address lies above a bound. -/
def memAbove (n : Nat) (m : Memory) : Prop := ∀ c ∈ m, n < c.1

theorem memWf_cons (c : Host.Cell) (m : Memory) :
    Memory.wf (c :: m) = true ↔ c.2 ≠ memDefault ∧ memAbove c.1 m ∧ Memory.wf m = true := by
  induction m generalizing c with
  | nil => simp [Memory.wf, memAbove]
  | cons d r ih =>
    have hd := ih d
    constructor
    · intro h
      simp only [Memory.wf, Bool.and_eq_true, decide_eq_true_eq] at h
      obtain ⟨⟨h1, h2⟩, h3⟩ := h
      refine ⟨h2, ?_, h3⟩
      intro e he
      rcases List.mem_cons.1 he with rfl | he
      · exact h1
      · exact Nat.lt_trans h1 ((hd.1 h3).2.1 e he)
    · rintro ⟨h2, h1, h3⟩
      simp only [Memory.wf, Bool.and_eq_true, decide_eq_true_eq]
      exact ⟨⟨h1 d List.mem_cons_self, h2⟩, h3⟩

theorem memGet_above {n : Nat} {m : Memory} (h : memAbove n m) {a : Nat} (ha : a ≤ n) : memGet m a = memDefault := by
  induction m with
  | nil => rfl
  | cons c r ih =>
    obtain ⟨b, x⟩ := c
    have hb : n < b := h (b, x) List.mem_cons_self
    have : b ≠ a := by omega
    simp only [memGet, this, if_false]
    exact ih fun e he => h e (List.mem_cons_of_mem _ he)

theorem memPut_above {n a : Nat} {x : Byte} {m : Memory} (h : memAbove n m) (ha : n < a) : memAbove n (memPut m a x) := by
  induction m with
  | nil => intro e he; simp only [memPut, List.mem_singleton] at he; subst he; exact ha
  | cons c r ih =>
    obtain ⟨b, y⟩ := c
    have hb : n < b := h (b, y) List.mem_cons_self
    have hr : memAbove n r := fun e he => h e (List.mem_cons_of_mem _ he)
    simp only [memPut]
    split
    · intro e he
      rcases List.mem_cons.1 he with rfl | he
      · exact ha
      · exact h e he
    · split
      · intro e he
        rcases List.mem_cons.1 he with rfl | he
        · exact ha
        · exact hr e he
      · intro e he
        rcases List.mem_cons.1 he with rfl | he
        · exact hb
        · exact ih hr e he

theorem memDrop_above {n a : Nat} {m : Memory} (h : memAbove n m) : memAbove n (memDrop m a) := by
  induction m with
  | nil => exact h
  | cons c r ih =>
    obtain ⟨b, y⟩ := c
    have hr : memAbove n r := fun e he => h e (List.mem_cons_of_mem _ he)
    simp only [memDrop]
    split
    · exact hr
    · intro e he
      rcases List.mem_cons.1 he with rfl | he
      · exact h (b, y) List.mem_cons_self
      · exact ih hr e he

theorem memPut_wf {a : Nat} {x : Byte} {m : Memory} (h : Memory.wf m = true) (hx : x ≠ memDefault) :
    Memory.wf (memPut m a x) = true := by
  induction m with
  | nil => simpa [memPut, Memory.wf] using hx
  | cons c r ih =>
    obtain ⟨b, y⟩ := c
    obtain ⟨h1, h2, h3⟩ := (memWf_cons _ _).1 h
    simp only [memPut]
    split
    · rename_i hab
      refine (memWf_cons _ _).2 ⟨hx, ?_, h⟩
      intro e he
      rcases List.mem_cons.1 he with rfl | he
      · exact hab
      · exact Nat.lt_trans hab (h2 e he)
    · split
      · rename_i hab
        subst hab
        exact (memWf_cons _ _).2 ⟨hx, h2, h3⟩
      · rename_i h4 h5
        exact (memWf_cons _ _).2 ⟨h1, memPut_above h2 (by simp only; omega), ih h3⟩

theorem memDrop_wf {a : Nat} {m : Memory} (h : Memory.wf m = true) : Memory.wf (memDrop m a) = true := by
  induction m with
  | nil => exact h
  | cons c r ih =>
    obtain ⟨b, y⟩ := c
    obtain ⟨h1, h2, h3⟩ := (memWf_cons _ _).1 h
    simp only [memDrop]
    split
    · exact h3
    · exact (memWf_cons _ _).2 ⟨h1, memDrop_above h2, ih h3⟩

/-- Writing a byte keeps the canonical form. -/
theorem memSet_wf {a : Nat} {x : Byte} {m : Memory} (h : Memory.wf m = true) : Memory.wf (memSet m a x) = true := by
  unfold memSet
  split
  · exact memDrop_wf h
  · rename_i hx; exact memPut_wf h hx

/-- Writing bytes keeps the canonical form. -/
theorem memWrite_wf {m : Memory} {a : Nat} {d : List Byte} (h : Memory.wf m = true) : Memory.wf (memWrite m a d) = true := by
  induction d generalizing m a with
  | nil => exact h
  | cons x r ih => exact ih (memSet_wf h)

/-- Zeroing a range keeps the canonical form. -/
theorem memClear_wf {m : Memory} {lo hi : Nat} (h : Memory.wf m = true) : Memory.wf (memClear m lo hi) = true := by
  induction m with
  | nil => exact h
  | cons c r ih =>
    obtain ⟨h1, h2, h3⟩ := (memWf_cons _ _).1 h
    simp only [memClear, List.filter]
    split
    · refine (memWf_cons _ _).2 ⟨h1, ?_, ih h3⟩
      intro e he
      exact h2 e (List.mem_of_mem_filter he)
    · exact ih h3

/-- The memory of the machine after reset is in canonical form. -/
theorem reset_wf : Memory.wf State.reset.mem = true := rfl

theorem memGet_cons (j : Nat) (y : Byte) (r : Memory) (b : Nat) : memGet ((j, y) :: r) b = if j = b then y else memGet r b := rfl

theorem memGet_memPut (m : Memory) (a b : Nat) (x : Byte) : memGet (memPut m a x) b = if b = a then x else memGet m b := by
  induction m with
  | nil => by_cases h : b = a <;> simp [memPut, memGet, h, Ne.symm]
  | cons c r ih =>
    obtain ⟨j, y⟩ := c
    simp only [memPut]
    split
    · rw [memGet_cons]
      by_cases h : b = a
      · simp [h]
      · rw [if_neg (Ne.symm h), if_neg h]
    · split
      · rename_i e
        rw [memGet_cons, memGet_cons, ← e]
        by_cases h : b = a
        · simp [h]
        · rw [if_neg (Ne.symm h), if_neg h, if_neg (Ne.symm h)]
      · rw [memGet_cons, memGet_cons, ih]
        by_cases hj : j = b
        · have : ¬ b = a := by omega
          rw [if_pos hj, if_pos hj, if_neg this]
        · rw [if_neg hj, if_neg hj]

theorem memGet_memDrop_ne (m : Memory) {a b : Nat} (h : b ≠ a) : memGet (memDrop m a) b = memGet m b := by
  induction m with
  | nil => rfl
  | cons c r ih =>
    obtain ⟨j, y⟩ := c
    simp only [memDrop]
    split
    · rename_i e; subst e; simp [memGet, Ne.symm h]
    · simp [memGet, ih]

theorem memGet_memDrop_self {m : Memory} (a : Nat) (h : Memory.wf m = true) : memGet (memDrop m a) a = memDefault := by
  induction m with
  | nil => rfl
  | cons c r ih =>
    obtain ⟨j, y⟩ := c
    obtain ⟨_, h2, h3⟩ := (memWf_cons _ _).1 h
    simp only [memDrop]
    split
    · rename_i e; subst e; exact memGet_above h2 (Nat.le_refl _)
    · rename_i e; simp only [memGet, e, if_false]; exact ih h3

/-- A byte reads as it was last written. -/
theorem memGet_memSet {m : Memory} (a b : Nat) (x : Byte) (h : Memory.wf m = true) :
    memGet (memSet m a x) b = if b = a then x else memGet m b := by
  unfold memSet
  split
  · rename_i hx
    subst hx
    by_cases e : b = a
    · subst e; simp [memGet_memDrop_self _ h]
    · simp [e, memGet_memDrop_ne m e]
  · exact memGet_memPut m a b x

/-- A byte outside the one written reads as before. -/
theorem memGet_memSet_ne (m : Memory) {a b : Nat} (x : Byte) (h : b ≠ a) : memGet (memSet m a x) b = memGet m b := by
  unfold memSet
  split
  · exact memGet_memDrop_ne m h
  · simp [memGet_memPut, h]

/-- A byte outside the bytes written reads as before. -/
theorem memGet_memWrite_out (m : Memory) (a b : Nat) (d : List Byte) (h : b < a ∨ a + d.length ≤ b) :
    memGet (memWrite m a d) b = memGet m b := by
  induction d generalizing m a with
  | nil => rfl
  | cons x r ih =>
    simp only [List.length_cons] at h
    rw [memWrite, ih _ _ (by omega), memGet_memSet_ne m x (by omega)]

/-- A byte among the bytes written reads as written. -/
theorem memGet_memWrite_in {m : Memory} (a i : Nat) (d : List Byte) (h : Memory.wf m = true) (hi : i < d.length) :
    memGet (memWrite m a d) (a + i) = d[i] := by
  induction d generalizing m a i with
  | nil => simp at hi
  | cons x r ih =>
    cases i with
    | zero =>
      rw [memWrite, memGet_memWrite_out _ _ _ _ (by omega), memGet_memSet _ _ _ h]
      simp
    | succ i =>
      have := ih (a := a + 1) (i := i) (memSet_wf (a := a) (x := x) h) (by simpa using hi)
      simp only [memWrite, List.getElem_cons_succ]
      rw [show a + (i + 1) = a + 1 + i by omega]
      exact this

/-- Bytes read are the bytes at their addresses. -/
theorem memRead_getElem? (m : Memory) (a n i : Nat) : (memRead m a n)[i]? = if i < n then some (memGet m (a + i)) else none := by
  induction n generalizing a i with
  | zero => simp [memRead]
  | succ n ih =>
    cases i with
    | zero => simp [memRead]
    | succ i => simp [memRead, ih, show a + 1 + i = a + (i + 1) by omega]

@[simp] theorem memRead_length (m : Memory) (a n : Nat) : (memRead m a n).length = n := by
  induction n generalizing a with
  | zero => rfl
  | succ n ih => simp [memRead, ih]

/-- A zeroed byte reads zero, and any other as before. -/
theorem memGet_memClear {m : Memory} (lo hi a : Nat) (h : Memory.wf m = true) :
    memGet (memClear m lo hi) a = if lo ≤ a ∧ a < hi then memDefault else memGet m a := by
  induction m with
  | nil => simp [memClear, memGet]
  | cons c r ih =>
    obtain ⟨j, y⟩ := c
    obtain ⟨_, h2, h3⟩ := (memWf_cons _ _).1 h
    have ih := ih h3
    simp only [memClear] at ih ⊢
    simp only [List.filter]
    split
    · rename_i e
      simp only [Bool.or_eq_true, decide_eq_true_eq] at e
      simp only [memGet, ih]
      by_cases hj : j = a
      · subst hj
        have : ¬ (lo ≤ j ∧ j < hi) := by omega
        simp [this]
      · simp [hj]
    · rename_i e
      simp only [Bool.or_eq_false_iff, decide_eq_false_iff_not] at e
      rw [ih]
      by_cases hj : j = a
      · subst hj
        have hg : memGet r j = memDefault := memGet_above h2 (Nat.le_refl _)
        have : lo ≤ j ∧ j < hi := by omega
        simp [this]
      · simp [memGet, hj]

/-! Reading what has been written. -/

theorem memRead_congr {m k : Memory} {a b n : Nat} (h : ∀ i, i < n → memGet m (a + i) = memGet k (b + i)) :
    memRead m a n = memRead k b n := by
  refine List.ext_getElem? fun i => ?_
  rw [memRead_getElem?, memRead_getElem?]
  by_cases hi : i < n
  · rw [if_pos hi, if_pos hi, h i hi]
  · rw [if_neg hi, if_neg hi]

theorem memRead_memWrite {m : Memory} {a : Nat} {d : List Byte} (h : Memory.wf m = true) :
    memRead (memWrite m a d) a d.length = d := by
  refine List.ext_getElem? fun i => ?_
  rw [memRead_getElem?]
  by_cases hi : i < d.length
  · rw [if_pos hi, memGet_memWrite_in a i d h hi, List.getElem?_eq_getElem hi]
  · rw [if_neg hi, List.getElem?_eq_none (by omega)]

theorem bytesOfNat_length (n x : Nat) : (bytesOfNat n x).length = n := by
  induction n generalizing x with
  | zero => rfl
  | succ n ih => simp [bytesOfNat, ih]

theorem natOfBytes_bytesOfNat (n x : Nat) : natOfBytes (bytesOfNat n x) = x % 256 ^ n := by
  unfold natOfBytes
  induction n generalizing x with
  | zero => simp [bytesOfNat, wordOfBytes.natOfBytes, Nat.mod_one]
  | succ n ih =>
    simp only [bytesOfNat, wordOfBytes.natOfBytes]
    rw [ih, Nat.pow_succ, BitVec.toNat_ofNat, Nat.mul_comm (256 ^ n) 256, Nat.mod_mul]

end Sys2Proof.Machine
end

