-- ==== Sys2Proof/Laws/Home.lean ====
section
/-!
SUPPORT. Sys2Proof/Laws/Home.lean: accesses at the home slices, posted records and fatal faults keep the cohorts and the
canonical form of memory.
-/

namespace Sys2Proof.Machine

/-- The crews stay, and memory keeps its canonical form. -/
def Keeps (s t : State) : Prop := t.crews = s.crews ∧ (Memory.wf s.mem = true → Memory.wf t.mem = true)

theorem Keeps.refl (s : State) : Keeps s s := ⟨rfl, id⟩

theorem Keeps.trans {s t u : State} (h : Keeps s t) (k : Keeps t u) : Keeps s u := ⟨k.1.trans h.1, k.2 ∘ h.2⟩

theorem keeps_modSlice (s : State) (q : Nat) (f : SliceSt → SliceSt) : Keeps s (s.modSlice q f) := ⟨rfl, id⟩

theorem keeps_putLine (s : State) (a : Nat) (d : List Byte) (p : BitVec 16) : Keeps s (s.putLine a d p) :=
  ⟨rfl, memWrite_wf⟩

theorem keeps_writeBack (s : State) (q k : Nat) : Keeps s (s.writeBack q k) := by
  unfold State.writeBack
  simp only
  split
  · exact keeps_putLine ..
  · exact .refl s

theorem keeps_dropWay (s : State) (q k : Nat) : Keeps s (s.dropWay q k) := by
  unfold State.dropWay
  simp only
  split
  · exact .refl s
  · exact keeps_modSlice ..

theorem keeps_evict (s : State) (q k : Nat) : Keeps s (s.evict q k) := (keeps_writeBack s q k).trans (keeps_dropWay _ q k)

theorem keeps_allocWay {s t : State} {q : Nat} {asid : BitVec 16} {va : W64} {k : Nat}
    (h : s.allocWay q asid va = some (t, k)) : Keeps s t := by
  unfold State.allocWay at h
  cases hv : (s.slice q).victim (setIndex va asid) with
  | none => rw [hv] at h; simp at h
  | some w =>
    rw [hv] at h
    simp only [Option.map_some, Option.some.injEq, Prod.mk.injEq] at h
    obtain ⟨rfl, rfl⟩ := h
    exact (keeps_evict s q w).trans (keeps_modSlice ..)

theorem keeps_fillWay (s : State) (q k : Nat) (t : Tlb) (b : Bool) : Keeps s (s.fillWay q k t b) := keeps_modSlice ..

theorem keeps_translateAt {s t : State} {q : Nat} {asid : BitVec 16} {vpn : Nat} {e : Tlb}
    (h : s.translateAt q asid vpn = .done (t, e)) : Keeps s t := by
  unfold State.translateAt at h
  split at h
  · simp at h
  · split at h
    · split at h
      · simp at h
      · simp only [Acc.done.injEq, Prod.mk.injEq] at h
        obtain ⟨rfl, _⟩ := h
        exact .refl s
    · split at h
      · simp at h
      · split at h
        · simp at h
        · simp only [Acc.done.injEq, Prod.mk.injEq] at h
          obtain ⟨rfl, _⟩ := h
          exact keeps_modSlice ..

theorem keeps_ensureLine {s t : State} {asid : BitVec 16} {va : W64} {k : Kind} {q key : Nat}
    (h : s.ensureLine asid va k = .done (t, q, key)) : Keeps s t := by
  unfold State.ensureLine at h
  split at h
  · simp at h
  · rename_i q' _
    split at h
    · simp only at h
      split at h
      · simp at h
      · split at h
        · simp at h
        · simp only [Acc.done.injEq, Prod.mk.injEq] at h
          obtain ⟨rfl, _⟩ := h
          exact keeps_modSlice ..
    · split at h
      · simp at h
      · simp at h
      · rename_i u e hu
        split at h
        · simp at h
        · split at h
          · simp at h
          · rename_i w key' hw
            simp only [Acc.done.injEq, Prod.mk.injEq] at h
            obtain ⟨rfl, _⟩ := h
            exact ((keeps_translateAt hu).trans (keeps_allocWay hw)).trans (keeps_fillWay ..)

theorem keeps_homeRead {s t : State} {asid : BitVec 16} {va : W64} {n : Nat} {k : Kind} {d : List Byte × Bool}
    (h : s.homeRead asid va n k = .done (t, d)) : Keeps s t := by
  unfold State.homeRead at h
  split at h
  · simp at h
  · simp at h
  · rename_i u q key hu
    simp only [Acc.done.injEq, Prod.mk.injEq] at h
    obtain ⟨rfl, _⟩ := h
    exact keeps_ensureLine hu

theorem keeps_homeWrite {s t : State} {asid : BitVec 16} {va : W64} {d : List Byte} {p : Bool}
    (h : s.homeWrite asid va d p = .done t) : Keeps s t := by
  unfold State.homeWrite at h
  split at h
  · simp at h
  · simp at h
  · rename_i u q key hu
    simp only [Acc.done.injEq] at h
    subst h
    exact (keeps_ensureLine hu).trans (keeps_modSlice ..)

theorem keeps_rangeRead {l : List (Nat × Nat)} {s t : State} {asid : BitVec 16} {k : Kind} {d : List Byte × Bool}
    (h : s.rangeRead asid k l = .done (t, d)) : Keeps s t := by
  induction l generalizing s t d with
  | nil =>
    simp only [State.rangeRead, Acc.done.injEq, Prod.mk.injEq] at h
    obtain ⟨rfl, _⟩ := h
    exact .refl s
  | cons y r ih =>
    unfold State.rangeRead at h
    split at h
    · simp at h
    · simp at h
    · rename_i u e p hu
      split at h
      · simp at h
      · simp at h
      · rename_i v e' p' hv
        simp only [Acc.done.injEq, Prod.mk.injEq] at h
        obtain ⟨rfl, _⟩ := h
        exact (keeps_homeRead hu).trans (ih hv)

theorem keeps_rangeWrite {l : List (Nat × Nat)} {s t : State} {asid : BitVec 16} {d : List Byte} {p : Bool}
    (h : s.rangeWrite asid d p l = .done t) : Keeps s t := by
  induction l generalizing s t d with
  | nil =>
    simp only [State.rangeWrite, Acc.done.injEq] at h
    subst h
    exact .refl s
  | cons y r ih =>
    unfold State.rangeWrite at h
    split at h
    · simp at h
    · simp at h
    · rename_i u hu
      exact (keeps_homeWrite hu).trans (ih h)

theorem keeps_readVa {s t : State} {asid : BitVec 16} {va : W64} {n : Nat} {k : Kind} {d : List Byte × Bool}
    (h : s.readVa asid va n k = .done (t, d)) : Keeps s t := keeps_rangeRead h

theorem keeps_writeVa {s t : State} {asid : BitVec 16} {va : W64} {d : List Byte} (h : s.writeVa asid va d = .done t) :
    Keeps s t := keeps_rangeWrite h

theorem keeps_modPart (s : State) (tag : Nat) (f : Part → Part) : Keeps s (s.modPart tag f) := ⟨rfl, id⟩

theorem keeps_msix (s : State) (tag vec : Nat) : Keeps s (s.msix tag vec) := by
  unfold State.msix
  split
  · exact .refl s
  · split
    · exact .refl s
    · split
      · exact keeps_modPart ..
      · exact ⟨rfl, id⟩

theorem keeps_post (s : State) (tag qi : Nat) (w : List W64) : Keeps s (s.post tag qi w) := by
  unfold State.post
  split
  · exact .refl s
  · simp only
    split
    · exact .refl s
    · split
      · exact keeps_modPart ..
      · split
        · split
          · refine Keeps.trans ?_ (keeps_msix ..)
            exact ⟨rfl, id⟩
          · exact keeps_modPart ..
        · split
          · rename_i t ht
            refine Keeps.trans ?_ (keeps_msix ..)
            exact (keeps_writeVa ht).trans (keeps_modPart ..)
          · exact keeps_modPart ..

theorem keeps_postEvent (s : State) (tag kind space : Nat) (stamp : W32) (data : W64) (st : Nat) :
    Keeps s (s.postEvent tag kind space stamp data st) := by
  unfold State.postEvent
  split
  · exact .refl s
  · exact keeps_post ..

theorem keeps_postFault (s : State) (tag : Nat) (r : FaultRec) : Keeps s (s.postFault tag r) := by
  unfold State.postFault
  split
  · exact .refl s
  · exact (keeps_post ..).trans (keeps_modPart ..)

theorem Keeps.live {s t : State} (h : Keeps s t) (i j : Nat) : live t.crews i j = live s.crews i j := by rw [h.1]

/-! Crews change, and the cohorts stay. -/

/-- Every cohort that was there is there, and memory keeps its canonical form. -/
def Stays (s t : State) : Prop :=
  (∀ i j, live t.crews i j = live s.crews i j) ∧ (Memory.wf s.mem = true → Memory.wf t.mem = true)

theorem Stays.refl (s : State) : Stays s s := ⟨fun _ _ => rfl, id⟩

theorem Stays.trans {s t u : State} (h : Stays s t) (k : Stays t u) : Stays s u :=
  ⟨fun i j => (k.1 i j).trans (h.1 i j), k.2 ∘ h.2⟩

theorem Keeps.stays {s t : State} (h : Keeps s t) : Stays s t := ⟨h.live, h.2⟩

theorem stays_forL {α : Type} (l : List α) (s : State) (g : α → State → State) (h : ∀ x s, Stays s (g x s)) :
    Stays s (forL l s g) := by
  induction l generalizing s with
  | nil => exact .refl s
  | cons x r ih => exact (h x s).trans (ih (g x s))

theorem stays_modCrew (s : State) (a : Nat) (f : Crew → Crew) (h : ∀ c, (f c).cohorts = c.cohorts) : Stays s (s.modCrew a f) :=
  ⟨fun i j => live_modCrew s a f i j h, id⟩

theorem stays_modCohort (s : State) (a b : Nat) (f : Cohort → Cohort) : Stays s (s.modCohort a b f) :=
  ⟨fun i j => live_modCohort s a b f i j, id⟩

theorem stays_modThread (s : State) (a b l : Nat) (f : Thread → Thread) : Stays s (s.modThread a b l f) := stays_modCohort ..

theorem stays_modCluster (s : State) (p : Nat) (f : Cluster → Cluster) : Stays s (s.modCluster p f) :=
  ⟨fun _ _ => rfl, id⟩

theorem stays_modGrid (s : State) (p : Nat) (f : Grid → Grid) : Stays s (s.modGrid p f) := ⟨fun _ _ => rfl, id⟩

theorem stays_addPend (s : State) (p : Pend) : Stays s (s.addPend p) := ⟨fun _ _ => rfl, id⟩

theorem stays_fresh (s : State) : Stays s s.fresh := ⟨fun _ _ => rfl, id⟩

theorem stays_startFence (s : State) (a b t : Nat) (m : BitVec 32) (pc : W64) (f : FenceSt) :
    Stays s (s.startFence a b t m pc f) := ⟨fun _ _ => rfl, id⟩

theorem stays_resultLane (s : State) (a b : Nat) (v : List W64) (p : Bool) : Stays s (s.resultLane a b v p) :=
  ⟨fun _ _ => rfl, id⟩

theorem stays_smMap (s : State) (f : Nat → Crew → Crew) (h : ∀ k c, (f k c).cohorts.length = c.cohorts.length) :
    Stays s { s with crews := smMap f s.crews } := ⟨fun i j => live_smMap _ _ i j h, id⟩

theorem stays_abortGrids (n : Nat) (s : State) (l : List (Nat × Bool)) (c : Cause) : Stays s (abortGrids n s l c) := by
  induction n generalizing s l with
  | zero => exact .refl s
  | succ n ih =>
    unfold abortGrids
    refine stays_forL _ _ _ fun x s => ?_
    split
    · exact .refl s
    · rename_i g _
      split
      · exact .refl s
      · refine Stays.trans ?_ (ih _ _)
        refine Stays.trans ?_ (stays_smMap _ _ fun k c => by split <;> rfl)
        refine Stays.trans (t := if x.2 = true then s.postFault g.part { kind := 2, cause := c, grid := x.1 } else s) ?_
          ⟨fun _ _ => rfl, id⟩
        split
        · exact (keeps_postFault ..).stays
        · exact .refl s

theorem stays_abortGrid (s : State) (g : Nat) (c : Cause) (own : Bool) : Stays s (s.abortGrid g c own) := stays_abortGrids ..

theorem stays_fatalWith (s : State) (cid : Nat) (r : FaultRec) : Stays s (s.fatalWith cid r) := by
  unfold State.fatalWith
  split
  · exact .refl s
  · split
    · exact .refl s
    · refine Stays.trans ?_ (stays_abortGrid ..)
      refine Stays.trans ?_ (keeps_postFault ..).stays
      exact stays_modCrew _ _ _ fun _ => rfl

theorem stays_fatal (s : State) (cid : Nat) (c : Cause) (a : W64) (i : Nat) : Stays s (s.fatal cid c a i) := stays_fatalWith ..

end Sys2Proof.Machine
end

