-- ==== Sys2Proof/Laws/Traps.lean ====
section
/-!
SUPPORT. Sys2Proof/Laws/Traps.lean: the end of a slot in which threads trap (R377): they stand as before with their trap to be
entered, and the slot ends for the others.
-/

namespace Sys2Proof.Machine

@[simp] theorem laneBit_getLsbD (l : Nat) (i : Fin 32) : (laneBit l).getLsbD i.val = decide (l = i.val) := by
  simp only [laneBit, BitVec.getLsbD_ofNat, i.isLt, decide_true, Bool.true_and, Nat.testBit_two_pow]

theorem badLanes_getLsbD (l : List (Nat × TrapRec)) (h : ∀ y ∈ l, y.1 < 32) (i : Fin 32) :
    (badLanes l).getLsbD i.val = l.any fun y => decide (y.1 = i.val) := by
  have gen : ∀ (l : List (Nat × TrapRec)), (∀ y ∈ l, y.1 < 32) → ∀ m : BitVec 32,
      (forL l m fun x m => m ||| laneBit x.1).getLsbD i.val = (m.getLsbD i.val || l.any fun y => decide (y.1 = i.val)) := by
    intro l
    induction l with
    | nil => intro _ m; simp [forL]
    | cons a r ih =>
      intro h m
      rw [forL_cons, ih (fun y hy => h y (List.mem_cons_of_mem _ hy)), BitVec.getLsbD_or,
        laneBit_getLsbD, List.any_cons, Bool.or_assoc]
  unfold badLanes
  rw [gen l h 0]
  simp

theorem and_and_self32 (a b : BitVec 32) : (a &&& b) &&& b = a &&& b := by
  rw [BitVec.and_assoc, BitVec.and_self]

/-- The end of a slot in which some threads trap: the traps, then the end of the slot for the other threads. -/
theorem finishSlot_split (x : Slot) (l : List (Nat × TrapRec)) (res : Placed) (s : State) :
    finishSlot x l res s =
      if x.lanes &&& ~~~(x.bad l) = 0 then s.trapLanes x.k x.cid x.co (x.bad l) (x.trapAt l)
      else finishSlot (x.without (x.bad l)) [] res (s.trapLanes x.k x.cid x.co (x.bad l) (x.trapAt l)) := by
  by_cases h : x.lanes &&& ~~~(x.bad l) = 0
  · rw [if_pos h]
    unfold finishSlot
    simp only
    rw [if_pos h]
  · rw [if_neg h]
    have hb : (x.without (x.bad l)).bad [] = 0 := laneFilter_none fun _ _ => rfl
    have hw : (x.without (x.bad l)).without 0 = x.without (x.bad l) := by
      unfold Slot.without
      simp only [and_not_zero32, and_and_self32]
    unfold finishSlot
    simp only [hb, trapLanes_zero, and_not_zero32]
    rw [if_neg h, if_neg (show ¬ (x.without (x.bad l)).lanes = 0 from h), hw]

theorem bad_getLsbD (x : Slot) (l : List (Nat × TrapRec)) (i : Fin 32) :
    (x.bad l).getLsbD i.val = (x.lanes.getLsbD i.val && l.any fun y => decide (y.1 = i.val)) := laneFilter_getLsbD ..

/-- The cohort after its threads of some lanes have trapped. -/
def trapped (m : BitVec 32) (t : Fin 32 → TrapRec) (h : Cohort) : Cohort :=
  h.mapThreads fun i th => if m.getLsbD i then { th with trap := some (t i) } else th

theorem trapLanes_cohort {s : State} {k cid co : Nat} {m : BitVec 32} {t : Fin 32 → TrapRec} {h0 : Cohort}
    (h : s.cohort? cid co = some h0) :
    (s.trapLanes k cid co m t).cohort? cid co = some (if m = 0 then h0 else trapped m t h0) := by
  unfold State.trapLanes
  split
  · exact h
  · rw [cohort_modRun, State.modLanes, cohort_modCohort_self, h]
    rfl

theorem trapLanes_stands {s : State} {x : Slot} {c0 : Crew} {h0 : Cohort} (h : Stands s x c0 h0) (m : BitVec 32)
    (t : Fin 32 → TrapRec) (hl : x.lanes &&& ~~~m ≠ 0) :
    ∃ c, Stands (s.trapLanes x.k x.cid x.co m t) (x.without m) c (if m = 0 then h0 else trapped m t h0) := by
  have hc := trapLanes_cohort (k := x.k) (m := m) (t := t) h.coh
  have hc' := hc
  unfold State.cohort? at hc'
  cases hcr : smGet (s.trapLanes x.k x.cid x.co m t).crews x.cid with
  | none => rw [hcr] at hc'; simp at hc'
  | some c =>
    refine ⟨c, hl, ?_, hcr, hc, h.place⟩
    show x.ex &&& (x.lanes &&& ~~~m) &&& (x.lanes &&& ~~~m) = x.ex &&& (x.lanes &&& ~~~m)
    exact and_and_self32 _ _

theorem trapped_thread (m : BitVec 32) (t : Fin 32 → TrapRec) (h : Cohort) (i : Fin 32) :
    (if m = 0 then h else trapped m t h).threads[i] =
      if m.getLsbD i then { h.threads[i] with trap := some (t i) } else h.threads[i] := by
  by_cases e : m = 0
  · rw [if_pos e, if_neg]
    subst e
    simp
  · rw [if_neg e]
    unfold trapped
    rw [mapThreads_getElem]

/-- What becomes of a thread at the end of a slot: those that trap stand as before with the trap to be entered; the others
have had the slot's end. -/
theorem finishSlot_threads {s : State} {x : Slot} {c0 : Crew} {h0 : Cohort} (h : Stands s x c0 h0) (l : List (Nat × TrapRec))
    (res : Placed) :
    ∃ hn, (finishSlot x l res s).cohort? x.cid x.co = some hn ∧ ∀ i : Fin 32,
      ((x.bad l).getLsbD i = true → hn.threads[i] = { h0.threads[i] with trap := some (x.trapAt l i) }) ∧
      ((x.bad l).getLsbD i = false → x.lanes.getLsbD i = true →
        hn.threads[i] = threadAfter (x.without (x.bad l)) res i h0.threads[i]) ∧
      (x.lanes.getLsbD i = false → hn.threads[i] = h0.threads[i]) := by
  rw [finishSlot_split]
  by_cases hl : x.lanes &&& ~~~(x.bad l) = 0
  · rw [if_pos hl]
    refine ⟨_, trapLanes_cohort h.coh, fun i => ⟨fun hb => ?_, fun hb hi => ?_, fun hi => ?_⟩⟩
    · rw [trapped_thread, if_pos hb]
    · exfalso
      have : (x.lanes &&& ~~~(x.bad l)).getLsbD i.val = true := by
        rw [BitVec.getLsbD_and, BitVec.getLsbD_not, hb, hi]; simp
      rw [hl] at this
      simp at this
    · have hb : (x.bad l).getLsbD i.val = false := by rw [bad_getLsbD, hi]; rfl
      rw [trapped_thread, if_neg (by rw [hb]; simp)]
  · rw [if_neg hl]
    obtain ⟨c, hs⟩ := trapLanes_stands h (x.bad l) (x.trapAt l) hl
    obtain ⟨opc, g, hg, hcrew, hcoh⟩ := finishSlot_crew res hs.lanes hs.ex hs.crew hs.coh
    refine ⟨_, hcoh, fun i => ?_⟩
    obtain ⟨r, n, e, k⟩ := hg ((x.without (x.bad l)).cohortAfter res opc (if x.bad l = 0 then h0 else trapped (x.bad l) (x.trapAt l) h0))
    have ht : (g ((x.without (x.bad l)).cohortAfter res opc (if x.bad l = 0 then h0 else trapped (x.bad l) (x.trapAt l) h0))).threads[i] =
        if (x.lanes &&& ~~~(x.bad l)).getLsbD i.val then
          threadAfter (x.without (x.bad l)) res i (if (x.bad l).getLsbD i then { h0.threads[i] with trap := some (x.trapAt l i) } else h0.threads[i])
        else (if (x.bad l).getLsbD i then { h0.threads[i] with trap := some (x.trapAt l i) } else h0.threads[i]) := by
      rw [e]
      refine Eq.trans (cohortAfter_thread _ res opc _ i) ?_
      rw [trapped_thread]
      rfl
    have hm : (x.lanes &&& ~~~(x.bad l)).getLsbD i.val = (x.lanes.getLsbD i.val && !(x.bad l).getLsbD i.val) := by
      rw [BitVec.getLsbD_and, BitVec.getLsbD_not]; simp
    refine ⟨fun hb => ?_, fun hb hi => ?_, fun hi => ?_⟩
    · have hb' : (x.bad l).getLsbD i.val = true := hb
      rw [ht, hm, hb', if_neg (by simp), if_pos rfl]
    · have hb' : (x.bad l).getLsbD i.val = false := hb
      have hi' : x.lanes.getLsbD i.val = true := hi
      rw [ht, hm, hb', hi', if_pos (by simp), if_neg (by simp)]
    · have hi' : x.lanes.getLsbD i.val = false := hi
      have hb : (x.bad l).getLsbD i.val = false := by rw [bad_getLsbD, hi']; rfl
      rw [ht, hm, hi', hb, if_neg (by simp), if_neg (by simp)]

/-! The traps of checks. -/

theorem faults_any {x : Slot} {g : Fin 32 → Option (Cause × W64)} (i : Fin 32) :
    ((x.faults g).any fun y => decide (y.1 = i.val)) = (x.ex.getLsbD i.val && (g i).isSome) := by
  rw [Bool.eq_iff_iff, List.any_eq_true, Bool.and_eq_true]
  unfold Slot.faults
  constructor
  · rintro ⟨y, hy, he⟩
    obtain ⟨j, hj, hj'⟩ := List.mem_filterMap.1 hy
    cases hg : g j with
    | none => rw [hg] at hj'; simp at hj'
    | some e =>
      rw [hg] at hj'
      simp only [Option.map_some, Option.some.injEq] at hj'
      subst hj'
      have : j = i := Fin.ext (by simpa using he)
      subst this
      exact ⟨(mem_lanesOf _ _).1 hj, by rw [hg]; rfl⟩
  · rintro ⟨h1, h2⟩
    obtain ⟨e, he⟩ := Option.isSome_iff_exists.1 h2
    exact ⟨_, List.mem_filterMap.2 ⟨i, (mem_lanesOf _ _).2 h1, by rw [he]; rfl⟩, by simp⟩

theorem find_filterMap {α : Type} (l : List (Fin 32)) (g : Fin 32 → Option α) (i : Fin 32) (hi : i ∈ l) (e : α) (he : g i = some e) :
    (l.filterMap fun j => (g j).map fun a => (j.val, a)).find? (fun y => decide (y.1 = i.val)) = some (i.val, e) := by
  induction l with
  | nil => simp at hi
  | cons a r ih =>
    by_cases ha : a = i
    · subst ha
      simp [he]
    · have hr : i ∈ r := by
        rcases List.mem_cons.1 hi with h | h
        · exact absurd h.symm ha
        · exact h
      have hne : ¬ a.val = i.val := fun h => ha (Fin.ext h)
      cases hga : g a with
      | none => simp [hga, ih hr]
      | some b => simp [hga, hne, ih hr]

theorem faults_trapAt {x : Slot} {g : Fin 32 → Option (Cause × W64)} {i : Fin 32} {c : Cause} {a : W64}
    (hx : x.ex.getLsbD i.val = true) (hg : g i = some (c, a)) : x.trapAt (x.faults g) i = preciseTrap x.run c a := by
  unfold Slot.trapAt
  have : (x.faults g).find? (fun y => decide (y.1 = i.val)) = some (i.val, preciseTrap x.run c a) := by
    have := find_filterMap (lanesOf x.ex) (fun j => (g j).map fun e => preciseTrap x.run e.1 e.2) i ((mem_lanesOf _ _).2 hx)
      (preciseTrap x.run c a) (by rw [hg]; rfl)
    unfold Slot.faults
    simpa [Option.map_map, Function.comp_def] using this
  rw [this]
  rfl

theorem faults_bad {x : Slot} (he : x.ex &&& x.lanes = x.ex) (g : Fin 32 → Option (Cause × W64)) (i : Fin 32) :
    (x.bad (x.faults g)).getLsbD i.val = (x.ex.getLsbD i.val && (g i).isSome) := by
  rw [bad_getLsbD, faults_any]
  cases hx : x.ex.getLsbD i.val with
  | false => simp
  | true => rw [ex_lane he hx]; simp

theorem faults_done {x : Slot} (g : Fin 32 → Option (Cause × W64)) (i : Fin 32) :
    (x.done (x.faults g)).getLsbD i.val = (x.ex.getLsbD i.val && (g i).isNone) := by
  unfold Slot.done
  rw [BitVec.getLsbD_and, BitVec.getLsbD_not, badLanes_getLsbD, faults_any]
  · cases x.ex.getLsbD i.val <;> cases g i <;> simp
  · intro y hy
    unfold Slot.faults at hy
    obtain ⟨j, _, hj⟩ := List.mem_filterMap.1 hy
    cases hgj : g j with
    | none => rw [hgj] at hj; simp at hj
    | some e =>
      rw [hgj] at hj
      simp only [Option.map_some, Option.some.injEq] at hj
      subst hj
      exact j.isLt

@[simp] theorem done_nil (x : Slot) : x.done [] = x.ex := by
  unfold Slot.done badLanes
  simp only [forL_nil]
  have : (~~~(0 : BitVec 32)) = BitVec.allOnes 32 := rfl
  rw [this, BitVec.and_allOnes]

/-! Threads changed after the slot's end. -/

theorem modLanes_thread {s : State} {cid co : Nat} {h : Cohort} (hh : s.cohort? cid co = some h) (m : BitVec 32)
    (f : Fin 32 → Thread → Thread) :
    ∃ hn, (s.modLanes cid co m f).cohort? cid co = some hn ∧
      (∀ i : Fin 32, hn.threads[i] = if m.getLsbD i then f i h.threads[i] else h.threads[i]) ∧
      hn = { h with threads := hn.threads } := by
  refine ⟨h.mapThreads fun i th => if m.getLsbD i then f i th else th, ?_, fun i => ?_, rfl⟩
  · unfold State.modLanes
    rw [cohort_modCohort_self, hh]
    rfl
  · rw [mapThreads_getElem]
/-! Transfers. -/

theorem targetFault_good {t : Int} (h : GoodTarget t) : targetFault t = none := by
  obtain ⟨h1, h2, h3, h4⟩ := h
  unfold targetFault
  rw [if_neg (by omega), h3]
  simp [h4]

theorem transfer_none {x : Slot} {flt : Fin 32 → Option Cause} (res : Placed) (t : Fin 32 → W64) (s : State)
    (h : ∀ i : Fin 32, x.ex.getLsbD i.val = true → flt i = none) :
    transfer x flt res t s = (finishSlot x [] res s).modLanes x.cid x.co x.ex
      fun i th => { th with pc := t i, slot := 0, resumed := false } := by
  have hf : x.faults (fun i => atAddr (t i) (flt i)) = [] := slot_faults_none fun i hi => by rw [h i hi]; rfl
  unfold transfer
  simp only [hf, done_nil]
  rfl

theorem transfers_plain {o : Op} {c : Fields → Instr} {clean : Slot → Fin 32 → Bool} {target : Slot → Fin 32 → Int}
    {flt : Slot → Fin 32 → Option Cause}
    (he : ∀ f s, exec (c f) s = runSlot o f s fun x s => transfer x (flt x) .none (fun i => toW64 (target x i)) s)
    (hf : ∀ x i, clean x i = true → GoodTarget (target x i) → flt x i = none) :
    Transfers o c clean target fun _ => none := by
  intro f s b h hg
  refine ⟨_, ?_, finishSlot_frame (slot_stands h) .none, fun _ _ _ hv => by simp at hv⟩
  rw [he, runSlot_ready h, transfer_none _ _ _ fun i hi => hf _ i (hg i hi).1 (hg i hi).2]
  rfl

theorem transfers_link {o : Op} {c : Fields → Instr} {clean : Slot → Fin 32 → Bool} {target : Slot → Fin 32 → Int}
    {flt : Slot → Fin 32 → Option Cause}
    (he : ∀ f s, exec (c f) s = runSlot o f s fun x s => transfer x (flt x) x.linkVal (fun i => toW64 (target x i)) s)
    (hf : ∀ x i, clean x i = true → GoodTarget (target x i) → flt x i = none) :
    Transfers o c clean target fun x => some x.run.next := by
  intro f s b h hg
  refine ⟨_, ?_, finishSlot_frame (slot_stands h) (b.slot o f s).linkVal, fun l hl v hv => ?_⟩
  · rw [he, runSlot_ready h, transfer_none _ _ _ fun i hi => hf _ i (hg i hi).1 (hg i hi).2]
    rfl
  · simp only [Option.some.injEq] at hv
    subst hv
    exact finishSlot_delivered (slot_stands h) true (fun _ => Val.ok (b.slot o f s).run.next) l hl

theorem relFault_good {h : W64} {d : Val} (hc : (!d.p) = true) (hg : GoodTarget (relTarget h d)) : relFault h d = none := by
  unfold relFault
  rw [if_neg (by simpa using hc), targetFault_good hg]

theorem absFault_good {a : Val} (hc : (!a.p) = true) (hg : GoodTarget (a.v.toNat : Int)) : absFault a = none := by
  unfold absFault
  rw [if_neg (by simpa using hc), targetFault_good hg]

theorem toW64_toNat (v : W64) : toW64 (v.toNat : Int) = v := by
  unfold toW64
  simp

/-- A thread of the cohort stays as its slot's end left it where later updates do not reach. -/
theorem hasThread_modLanes {s : State} {x : Slot} {m : BitVec 32} {f : Fin 32 → Thread → Thread} {i : Fin 32} {P Q : Thread → Prop}
    (h : HasThread s x i P) (hq : ∀ th, P th → Q (if m.getLsbD i then f i th else th)) :
    HasThread (s.modLanes x.cid x.co m f) x i Q := by
  obtain ⟨h0, hh, hp⟩ := h
  obtain ⟨hn, h1, h2, _⟩ := modLanes_thread hh m f
  exact ⟨hn, h1, by beta_reduce; rw [h2 i]; exact hq _ hp⟩

theorem relFault_cases (h : W64) (v : Val) :
    relFault h v = (if v.p then some cPoisonUse
      else if relTarget h v < 0 ∨ (2 : Int) ^ 64 ≤ relTarget h v then some cAddrWrap
      else if isCanon (toW64 (relTarget h v)) = false then some cNoncanon
      else if relTarget h v % 8 ≠ 0 then some cMisaligned else none) := by
  unfold relFault targetFault
  simp only [Bool.not_eq_true']

theorem absFault_cases (v : Val) :
    absFault v = (if v.p then some cPoisonUse else if isCanon v.v = false then some cNoncanon
      else if v.v.toNat % 8 ≠ 0 then some cMisaligned else none) := by
  have h1 : ¬ ((v.v.toNat : Int) < 0 ∨ (2 : Int) ^ 64 ≤ (v.v.toNat : Int)) := by
    have := v.v.isLt
    omega
  have h2 : ((v.v.toNat : Int) % 8 ≠ 0) ↔ v.v.toNat % 8 ≠ 0 := by omega
  unfold absFault targetFault
  rw [if_neg h1, toW64_toNat]
  simp only [Bool.not_eq_true', h2]

/-- A thread that traps at a transfer. -/
theorem transfer_traps {i : Instr} {o : Op} {f : Fields} {s : State} {b : At} {flt : Slot → Fin 32 → Option Cause}
    {res : Slot → Placed} {t : Slot → Fin 32 → W64} (h : SlotReady o f s b)
    (he : exec i s = runSlot o f s fun x s => transfer x (flt x) (res x) (t x) s) :
    ∃ u, exec i s = .next u ∧ ∀ (l : Fin 32) (c : Cause), (b.slot o f s).ex.getLsbD l.val = true →
      flt (b.slot o f s) l = some c →
      HasThread u (b.slot o f s) l fun th =>
        th = { b.h.threads[l] with trap := some (preciseTrap b.r c (faultAddr c (t (b.slot o f s) l))) } := by
  rw [runSlot_ready h] at he
  refine ⟨_, he, fun l c hl hc => ?_⟩
  generalize hx : b.slot o f s = x at *
  have hs : Stands s x b.c b.h := hx ▸ slot_stands h
  have hr : x.run = b.r := by rw [← hx]; rfl
  obtain ⟨hn, h1, h2⟩ := finishSlot_threads hs (x.faults fun i => atAddr (t x i) (flt x i)) (res x)
  have hg : atAddr (t x l) (flt x l) = some (c, faultAddr c (t x l)) := by rw [hc]; rfl
  have hb : (x.bad (x.faults fun i => atAddr (t x i) (flt x i))).getLsbD l.val = true := by
    rw [faults_bad hs.ex, hl, hg]; rfl
  have ht := (h2 l).1 hb
  rw [faults_trapAt hl hg, hr] at ht
  unfold transfer State.goTo State.slotLanes
  refine hasThread_modLanes (P := fun th => th = { b.h.threads[l] with trap := some (preciseTrap b.r c (faultAddr c (t x l))) })
    ⟨hn, h1, ht⟩ fun th hth => ?_
  rw [if_neg]
  · exact hth
  · rw [faults_done, hl, hg]; simp

/-- The destinations of the threads that stay in the clause when others trap. -/
theorem finishSlot_delivered_rest {s : State} {x : Slot} {c0 : Crew} {h0 : Cohort} (h : Stands s x c0 h0)
    (faults : List (Nat × TrapRec)) (wide : Bool) (val : Fin 32 → Val) (l : Fin 32) (hx : x.ex.getLsbD l.val = true)
    (hb : (x.bad faults).getLsbD l.val = false) :
    Delivered (finishSlot x faults (.now wide (perLane val)) s) (x.without (x.bad faults)) l wide (val l) := by
  have hl : x.lanes &&& ~~~(x.bad faults) ≠ 0 := by
    intro e
    have : (x.lanes &&& ~~~(x.bad faults)).getLsbD l.val = true := by
      rw [BitVec.getLsbD_and, BitVec.getLsbD_not, hb, ex_lane h.ex hx]; simp
    rw [e] at this
    simp at this
  rw [finishSlot_split, if_neg hl]
  obtain ⟨c, hs⟩ := trapLanes_stands h (x.bad faults) (x.trapAt faults) hl
  refine finishSlot_delivered hs wide val l ?_
  show (x.ex &&& (x.lanes &&& ~~~(x.bad faults))).getLsbD l.val = true
  rw [BitVec.getLsbD_and, BitVec.getLsbD_and, BitVec.getLsbD_not, hb, ex_lane h.ex hx, hx]
  simp

/-- What a destination holds stays when only pcs and the like change. -/
theorem delivered_modLanes {s : State} {x : Slot} {cid co : Nat} {m : BitVec 32} {f : Fin 32 → Thread → Thread} {l : Fin 32} {wide : Bool} {v : Val}
    (hc : x.cid = cid) (ho : x.co = co)
    (hf : ∀ i th, (f i th).v = th.v ∧ (f i th).q = th.q ∧ (f i th).k = th.k) (h : Delivered s x l wide v) :
    Delivered (s.modLanes cid co m f) x l wide v := by
  subst hc
  subst ho
  have keep : ∀ (i : Fin 32) (th : Thread), (if m.getLsbD i then f i th else th).v = th.v ∧ (if m.getLsbD i then f i th else th).q = th.q ∧
      (if m.getLsbD i then f i th else th).k = th.k := by
    intro i th
    split
    · exact hf i th
    · exact ⟨rfl, rfl, rfl⟩
  unfold Delivered at h ⊢
  split
  · rename_i d hd
    simp only [hd] at h
    refine hasThread_modLanes h fun th ht => ?_
    obtain ⟨k1, k2, k3⟩ := keep l th
    rw [k1, k2]
    exact ht
  · rename_i hd
    simp only [hd] at h
    refine hasThread_modLanes h fun th ht => ?_
    rw [(keep l th).2.1]
    exact ht
  · rename_i d hd
    simp only [hd] at h
    refine hasThread_modLanes h fun th ht => ?_
    rw [(keep l th).2.2]
    exact ht
  · rename_i d hd
    simp only [hd] at h
    intro hl
    obtain ⟨hh, h1, h2⟩ := h hl
    obtain ⟨hn, g1, _, g3⟩ := modLanes_thread h1 m f
    refine ⟨hn, g1, ?_⟩
    have e : hn.s = hh.s := by rw [g3]
    beta_reduce
    rw [e]
    exact h2
  · rename_i ci hd
    simp only [hd] at h
    intro n hn
    obtain ⟨c, h1, h2⟩ := h n (hd ▸ hn)
    refine ⟨{ c with cohorts := lmod c.cohorts x.co fun h => h.mapThreads fun i th => if m.getLsbD i then f i th else th }, ?_, h2⟩
    unfold State.modLanes
    rw [smGet_modCohort, if_pos rfl, h1]
    rfl
  · trivial

theorem bad_of_poison {x : Slot} (he : x.ex &&& x.lanes = x.ex) {g : Fin 32 → Option (Cause × W64)} {p : Fin 32 → Bool}
    (h : ∀ i : Fin 32, x.ex.getLsbD i.val = true → (g i).isSome = p i) : x.bad (x.faults g) = laneFilter x.ex p := by
  apply laneMask_ext
  intro i
  rw [faults_bad he, laneFilter_getLsbD]
  cases hx : x.ex.getLsbD i.val with
  | false => rfl
  | true => rw [h i hx]

theorem hasThread_mono {s : State} {x : Slot} {i : Fin 32} {P Q : Thread → Prop} (h : HasThread s x i P)
    (hq : ∀ th, P th → Q th) : HasThread s x i Q := by
  obtain ⟨h0, hh, hp⟩ := h
  exact ⟨h0, hh, hq _ hp⟩

/-- The traps that all executing lanes take. -/
theorem lanesTrap_any {x : Slot} (t : Fin 32 → TrapRec) (i : Fin 32) :
    (((lanesOf x.ex).map fun i => (i.val, t i)).any fun y => decide (y.1 = i.val)) = x.ex.getLsbD i.val := by
  rw [Bool.eq_iff_iff, List.any_eq_true]
  constructor
  · rintro ⟨y, hy, he⟩
    obtain ⟨j, hj, rfl⟩ := List.mem_map.1 hy
    have : j = i := Fin.ext (by simpa using he)
    exact this ▸ (mem_lanesOf _ _).1 hj
  · intro h
    exact ⟨_, List.mem_map.2 ⟨i, (mem_lanesOf _ _).2 h, rfl⟩, by simp⟩

theorem lanes_trap {s : State} {x : Slot} {c0 : Crew} {h0 : Cohort} (h : Stands s x c0 h0) (t : Fin 32 → TrapRec) (res : Placed)
    (l : Fin 32) (hl : x.ex.getLsbD l.val = true) :
    HasThread (finishSlot x ((lanesOf x.ex).map fun i => (i.val, t i)) res s) x l fun th => th = { h0.threads[l] with trap := some (t l) } := by
  obtain ⟨hn, h1, h2⟩ := finishSlot_threads h ((lanesOf x.ex).map fun i => (i.val, t i)) res
  have hb : (x.bad ((lanesOf x.ex).map fun i => (i.val, t i))).getLsbD l.val = true := by
    rw [bad_getLsbD, lanesTrap_any, hl, ex_lane h.ex hl]; rfl
  refine ⟨hn, h1, ?_⟩
  beta_reduce
  rw [(h2 l).1 hb]
  have : x.trapAt ((lanesOf x.ex).map fun i => (i.val, t i)) l = t l := by
    have := find_filterMap (lanesOf x.ex) (fun j => some (t j)) l ((mem_lanesOf _ _).2 hl) (t l) rfl
    unfold Slot.trapAt
    simp only [Option.map_some] at this
    rw [List.filterMap_eq_map'] at this
    rw [this]
    rfl
  rw [this]

theorem lanes_pass {s : State} {x : Slot} {c0 : Crew} {h0 : Cohort} (h : Stands s x c0 h0) (t : Fin 32 → TrapRec) (res : Placed)
    (l : Fin 32) (hl : x.ex.getLsbD l.val = false) :
    HasThread (finishSlot x ((lanesOf x.ex).map fun i => (i.val, t i)) res s) x l fun th => th.trap = (h0.threads[l]).trap := by
  obtain ⟨hn, h1, h2⟩ := finishSlot_threads h ((lanesOf x.ex).map fun i => (i.val, t i)) res
  have hb : (x.bad ((lanesOf x.ex).map fun i => (i.val, t i))).getLsbD l.val = false := by
    rw [bad_getLsbD, lanesTrap_any, hl]; simp
  refine ⟨hn, h1, ?_⟩
  beta_reduce
  by_cases hla : x.lanes.getLsbD l.val = true
  · rw [(h2 l).2.1 hb hla, threadAfter_keeps]
  · rw [(h2 l).2.2 (Bool.eq_false_iff.2 hla)]

/-- A thread that a check traps stays so whatever the instruction does to the others. -/
theorem check_traps {s : State} {x : Slot} {c0 : Crew} {h0 : Cohort} (h : Stands s x c0 h0) (g : Fin 32 → Option (Cause × W64))
    (f : Fin 32 → Thread → Thread) (res : Placed) (l : Fin 32) (hl : x.ex.getLsbD l.val = true) {c : Cause} {a : W64}
    (hg : g l = some (c, a)) :
    HasThread ((finishSlot x (x.faults g) res s).modLanes x.cid x.co (x.done (x.faults g)) f) x l fun th =>
      th = { h0.threads[l] with trap := some (preciseTrap x.run c a) } := by
  obtain ⟨hn, h1, h2⟩ := finishSlot_threads h (x.faults g) res
  have hb : (x.bad (x.faults g)).getLsbD l.val = true := by rw [faults_bad h.ex, hl, hg]; rfl
  have ht := (h2 l).1 hb
  rw [faults_trapAt hl hg] at ht
  refine hasThread_modLanes (P := fun th => th = { h0.threads[l] with trap := some (preciseTrap x.run c a) }) ⟨hn, h1, ht⟩ fun th hth => ?_
  rw [if_neg]
  · exact hth
  · rw [faults_done, hl, hg]; simp

/-- A check of an instruction that acts once per bundle traps every thread of the bundle. -/
theorem bundle_traps {s : State} {x : Slot} {c0 : Crew} {h0 : Cohort} (h : Stands s x c0 h0) (c : Cause) (res : Placed)
    (l : Fin 32) (hl : x.lanes.getLsbD l.val = true) :
    HasThread (finishSlot x (x.bundleFault (some c)) res s) x l fun th =>
      th = { h0.threads[l] with trap := some (preciseTrap x.run c 0) } := by
  obtain ⟨hn, h1, h2⟩ := finishSlot_threads h (x.bundleFault (some c)) res
  have hm : ∀ i : Fin 32, x.lanes.getLsbD i.val = true → ((x.bundleFault (some c)).any fun y => y.1 = i.val) = true := fun i hi =>
    List.any_eq_true.2 ⟨_, List.mem_map.2 ⟨i, (mem_lanesOf _ _).2 hi, rfl⟩, by simp⟩
  have hb : (x.bad (x.bundleFault (some c))).getLsbD l.val = true := by
    rw [bad_getLsbD, hm l hl, hl]; rfl
  refine ⟨hn, h1, ?_⟩
  beta_reduce
  rw [(h2 l).1 hb]
  have : x.trapAt (x.bundleFault (some c)) l = preciseTrap x.run c 0 := by
    have := find_filterMap (lanesOf x.lanes) (fun _ => some (preciseTrap x.run c 0)) l ((mem_lanesOf _ _).2 hl) _ rfl
    unfold Slot.trapAt Slot.bundleFault
    simp only [Option.map_some] at this
    rw [List.filterMap_eq_map'] at this
    rw [this]
    rfl
  rw [this]

end Sys2Proof.Machine
end

