-- ==== Sys2Proof/Laws/Lanes.lean ====
section
/-!
SUPPORT. Sys2Proof/Laws/Lanes.lean: instructions whose executing threads act one after another complete with what the threads
do, where none of them faults.
-/

namespace Sys2Proof.Machine

theorem laneRun_forL {g : Fin 32 → State → Except Cause (State × W64)}
    {F : Fin 32 → State × List (Nat × TrapRec) × SMap W64 → State × List (Nat × TrapRec) × SMap W64}
    (hF : ∀ i y z, g i y.1 = .ok z → F i y = (z.1, y.2.1, smSet y.2.2 i.val z.2)) {l : List (Fin 32)}
    {y : State × SMap W64} {e : State} {vals : SMap W64} (h : laneRun g l y = some (e, vals)) (fl : List (Nat × TrapRec)) :
    forL l (y.1, fl, y.2) F = (e, fl, vals) := by
  induction l generalizing y with
  | nil => simp only [laneRun, Option.some.injEq] at h; subst h; rfl
  | cons i r ih =>
    unfold laneRun at h
    cases hg : g i y.1 with
    | error c => rw [hg] at h; simp at h
    | ok z =>
      rw [hg] at h
      rw [forL_cons, hF i (y.1, fl, y.2) z hg]
      exact ih h

theorem actRun_forL {g : Fin 32 → State → Except Cause State}
    {F : Fin 32 → State × List (Nat × TrapRec) → State × List (Nat × TrapRec)}
    (hF : ∀ i y z, g i y.1 = .ok z → F i y = (z, y.2)) {l : List (Fin 32)}
    {s e : State} (h : actRun g l s = some e) (fl : List (Nat × TrapRec)) :
    forL l (s, fl) F = (e, fl) := by
  induction l generalizing s with
  | nil => simp only [actRun, Option.some.injEq] at h; subst h; rfl
  | cons i r ih =>
    unfold actRun at h
    cases hg : g i s with
    | error c => rw [hg] at h; simp at h
    | ok z =>
      rw [hg] at h
      rw [forL_cons, hF i (s, fl) z hg]
      exact ih h

theorem laneRun_ok {g : Fin 32 → State → State × W64} {l : List (Fin 32)} {y z : State × SMap W64}
    (h : laneRun (fun i t => .ok (g i t)) l y = some z) :
    forL l y (fun i y => ((g i y.1).1, smSet y.2 i.val (g i y.1).2)) = z := by
  induction l generalizing y with
  | nil => simp only [laneRun, Option.some.injEq] at h; exact h
  | cons i r ih => exact ih h

theorem laneRun_live {g : Fin 32 → State → Except Cause (State × W64)} {a b : Nat}
    (hl : ∀ i s t v, g i s = .ok (t, v) → live t.crews a b = live s.crews a b) {l : List (Fin 32)}
    {y : State × SMap W64} {e : State} {vals : SMap W64} (h : laneRun g l y = some (e, vals)) :
    live e.crews a b = live y.1.crews a b := by
  induction l generalizing y with
  | nil => simp only [laneRun, Option.some.injEq] at h; subst h; rfl
  | cons i r ih =>
    unfold laneRun at h
    cases hg : g i y.1 with
    | error c => rw [hg] at h; simp at h
    | ok z =>
      rw [hg] at h
      exact (ih h).trans (hl i y.1 z.1 z.2 hg)

theorem actRun_live {g : Fin 32 → State → Except Cause State} {a b : Nat}
    (hl : ∀ i s t, g i s = .ok t → live t.crews a b = live s.crews a b) {l : List (Fin 32)}
    {s e : State} (h : actRun g l s = some e) : live e.crews a b = live s.crews a b := by
  induction l generalizing s with
  | nil => simp only [actRun, Option.some.injEq] at h; subst h; rfl
  | cons i r ih =>
    unfold actRun at h
    cases hg : g i s with
    | error c => rw [hg] at h; simp at h
    | ok z =>
      rw [hg] at h
      exact (ih h).trans (hl i s z hg)

/-- A slot stands in a state that keeps the cohorts. -/
theorem stands_live {o : Op} {f : Fields} {s e : State} {b : At} (h : SlotReady o f s b)
    (hl : live e.crews b.r.cid b.r.co = live s.crews b.r.cid b.r.co) : ∃ c h, Stands e (b.slot o f s) c h :=
  stands_of_cohort h (by rw [cohort_isSome, hl]; exact ready_cohort h)

theorem inTurn {o : Op} {c : Fields → Instr} {g : Fields → Slot → Fin 32 → State → Except Cause (State × W64)}
    {ad : Fields → Slot → Fin 32 → W64}
    (he : ∀ f s, exec (c f) s = runSlot o f s fun x s => seqSlot x (g f x) s (ad f x))
    (hl : ∀ f x i s t v a b, g f x i s = .ok (t, v) → live t.crews a b = live s.crews a b) : InTurn o c g := by
  intro f s b h e vals hr
  refine slot_posts h (he f s) ?_ (stands_live h (laneRun_live (fun i s t v => hl f _ i s t v _ _) hr))
  unfold seqSlot
  rw [laneRun_forL (fun i y z hz => by simp only [hz]) hr []]
  simp only [done_nil]

theorem actsInTurn {o : Op} {c : Fields → Instr} {g : Fields → Slot → Fin 32 → State → Except Cause State}
    {ad : Fields → Slot → Fin 32 → W64}
    (he : ∀ f s, exec (c f) s = runSlot o f s fun x s => actSlot x (ad f x) (g f x) s)
    (hl : ∀ f x i s t a b, g f x i s = .ok t → live t.crews a b = live s.crews a b) : ActsInTurn o c g := by
  intro f s b h e hr
  refine slot_acts h (he f s) ?_ (stands_live h (actRun_live (fun i s t => hl f _ i s t _ _) hr))
  unfold actSlot
  rw [actRun_forL (fun i y z hz => by simp only [hz]) hr []]

theorem eachInTurn {o : Op} {c : Fields → Instr} {pre : Fields → State → Slot → Fin 32 → Prop} {ok : W64 → Bool}
    {g : Fields → Slot → Fin 32 → State → State × W64} {flt : Fields → State → Slot → Fin 32 → Option (Cause × W64)}
    (he : ∀ f s, exec (c f) s = runSlot o f s fun x s => eachLane x (x.faults (flt f s x)) ok (g f x) s)
    (hp : ∀ f s x i, pre f s x i → flt f s x i = none)
    (hl : ∀ f x i s a b, live (g f x i s).1.crews a b = live s.crews a b) : EachInTurn o c pre ok g := by
  intro f s b h hg e vals hr
  refine slot_posts h (he f s) ?_ (stands_live h (laneRun_live (fun i u t v hi => ?_) hr))
  · have hf := slot_faults_none (x := b.slot o f s) (g := flt f s (b.slot o f s)) fun i hi => hp _ _ _ _ (hg i hi)
    unfold eachLane
    simp only [hf, done_nil]
    rw [laneRun_ok hr]
  · simp only [Except.ok.injEq] at hi
    have := hl f (b.slot o f s) i u b.r.cid b.r.co
    rw [hi] at this
    exact this

/-! Where the slot stands. -/

theorem slot_cid (b : At) (o : Op) (f : Fields) (s : State) : (b.slot o f s).cid = b.r.cid := rfl
theorem slot_co (b : At) (o : Op) (f : Fields) (s : State) : (b.slot o f s).co = b.r.co := rfl
theorem slot_crew (b : At) (o : Op) (f : Fields) (s : State) : (b.slot o f s).crew = b.c := rfl
theorem slot_run (b : At) (o : Op) (f : Fields) (s : State) : (b.slot o f s).run = b.r := rfl
theorem slot_f (b : At) (o : Op) (f : Fields) (s : State) : (b.slot o f s).f = f := rfl
theorem slot_o (b : At) (o : Op) (f : Fields) (s : State) : (b.slot o f s).o = o := rfl
theorem slot_k (b : At) (o : Op) (f : Fields) (s : State) : (b.slot o f s).k = b.k := rfl
theorem slot_p (b : At) (o : Op) (f : Fields) (s : State) : (b.slot o f s).p = b.k / 6 := rfl
theorem slot_sl (b : At) (o : Op) (f : Fields) (s : State) : (b.slot o f s).sl = b.k % 6 := rfl
theorem slot_coh (b : At) (o : Op) (f : Fields) (s : State) : (b.slot o f s).coh = b.h := rfl
theorem slot_lanes (b : At) (o : Op) (f : Fields) (s : State) : (b.slot o f s).lanes = b.r.lanes := rfl

end Sys2Proof.Machine
end

