-- ==== Sys2Proof/Laws/Sync.lean ====
section
/-!
SUPPORT. Sys2Proof/Laws/Sync.lean: barrier objects in the stash.
-/

namespace Sys2Proof.Machine

theorem bits_eq (x hi lo : Nat) : bits x hi lo = x / 2 ^ lo % 2 ^ (hi + 1 - lo) := by
  unfold bits
  rw [Nat.shiftRight_eq_div_pow]

theorem field_split {h l k : Nat} (hl : l < 2 ^ k) : (h * 2 ^ k + l) / 2 ^ k = h ∧ (h * 2 ^ k + l) % 2 ^ k = l := by
  rw [Nat.add_comm, Nat.add_mul_div_right _ _ (Nat.two_pow_pos k), Nat.div_eq_of_lt hl, Nat.zero_add, Nat.add_mul_mod_self_right,
    Nat.mod_eq_of_lt hl]
  exact ⟨rfl, rfl⟩

theorem div_field {x y j z : Nat} (k m : Nat) (h : x / 2 ^ j = y) (e : m = j + k) (hz : y / 2 ^ k = z) : x / 2 ^ m = z := by
  rw [← hz, e, Nat.pow_add, ← Nat.div_div_eq_div_mul, h]

theorem sext_wrap {x : Int} (h1 : -(2 : Int) ^ 15 ≤ x) (h2 : x < (2 : Int) ^ 15) : sext 16 (x % 2 ^ 16).toNat = x := by
  unfold sext
  simp only
  split <;> omega

/-- The fields of a number laid out from the least significant on. -/
theorem fields_of {p q n1 n2 n3 n4 n5 ldb exb z pna exa ph : Nat} (e1 : n1 = ldb * 2 ^ q + exb) (e2 : n2 = n1 * 2 ^ p + z)
    (e3 : n3 = n2 * 2 ^ p + pna) (e4 : n4 = n3 * 2 ^ p + exa) (e5 : n5 = n4 * 2 ^ p + ph) (h2 : exb < 2 ^ q) (ha : z < 2 ^ p)
    (h5 : pna < 2 ^ p) (h6 : exa < 2 ^ p) (h7 : ph < 2 ^ p) :
    n5 % 2 ^ p = ph ∧ n5 / 2 ^ p % 2 ^ p = exa ∧ n5 / 2 ^ (p + p) % 2 ^ p = pna ∧ n5 / 2 ^ (p + p + p) % 2 ^ p = z ∧
      n5 / 2 ^ (p + p + p + p) % 2 ^ q = exb ∧ n5 / 2 ^ (p + p + p + p + q) = ldb := by
  obtain ⟨d1, m1⟩ := field_split (h := n4) h7
  obtain ⟨d2, m2⟩ := field_split (h := n3) h6
  obtain ⟨d3, m3⟩ := field_split (h := n2) h5
  obtain ⟨d4, m4⟩ := field_split (h := n1) ha
  obtain ⟨d5, m5⟩ := field_split (h := ldb) h2
  rw [← e5] at d1 m1
  rw [← e4] at d2 m2
  rw [← e3] at d3 m3
  rw [← e2] at d4 m4
  rw [← e1] at d5 m5
  have k2 := div_field p (p + p) d1 rfl d2
  have k3 := div_field p (p + p + p) k2 rfl d3
  have k4 := div_field p (p + p + p + p) k3 rfl d4
  have k5 := div_field q (p + p + p + p + q) k4 rfl d5
  rw [d1, k2, k3, k4, k5]
  exact ⟨m1, m2, m3, m4, m5, rfl⟩

theorem fields_lt {p q n ldb : Nat} (h : n / 2 ^ (p + p + p + p + q) = ldb) (h1 : ldb < 2 ^ q) :
    n < 2 ^ (p + p + p + p + q + q) := by
  rw [Nat.pow_add]
  exact (Nat.div_lt_iff_lt_mul (Nat.two_pow_pos _)).1 (h ▸ h1) |>.trans_eq (Nat.mul_comm _ _)

theorem layout_eq (ldb exb z pna exa ph : Nat) :
    ldb * 2 ^ 96 + exb * 2 ^ 64 + z * 2 ^ 48 + pna * 2 ^ 32 + exa * 2 ^ 16 + ph =
      ((((ldb * 2 ^ 32 + exb) * 2 ^ 16 + z) * 2 ^ 16 + pna) * 2 ^ 16 + exa) * 2 ^ 16 + ph := by ring

theorem barObj_roundtrip {b : BarObj} (h : BarFits b) : BarObj.ofNat (b.toNat % 256 ^ 16) = b := by
  obtain ⟨h1, h2, h3, h4, h5, h6, h7⟩ := h
  have ha : (b.adj % 2 ^ 16).toNat < 2 ^ 16 := by omega
  have hx := sext_wrap h3 h4
  obtain ⟨n1, e1⟩ : ∃ n, n = b.ldb * 2 ^ 32 + b.exb := ⟨_, rfl⟩
  obtain ⟨n2, e2⟩ : ∃ n, n = n1 * 2 ^ 16 + (b.adj % 2 ^ 16).toNat := ⟨_, rfl⟩
  obtain ⟨n3, e3⟩ : ∃ n, n = n2 * 2 ^ 16 + b.pna := ⟨_, rfl⟩
  obtain ⟨n4, e4⟩ : ∃ n, n = n3 * 2 ^ 16 + b.exa := ⟨_, rfl⟩
  have e : b.toNat = n4 * 2 ^ 16 + b.ph := by
    unfold BarObj.toNat
    rw [layout_eq, e4, e3, e2, e1]
  obtain ⟨m1, m2, m3, m4, m5, m6⟩ := fields_of e1 e2 e3 e4 e h2 ha h5 h6 h7
  clear e1 e2 e3 e4 e
  generalize b.toNat = n at *
  rw [show (256 : Nat) ^ 16 = 2 ^ (16 + 16 + 16 + 16 + 32 + 32) by norm_num, Nat.mod_eq_of_lt (fields_lt m6 h1)]
  unfold BarObj.ofNat
  simp only [bits_eq, Nat.reduceAdd, Nat.reduceSub, Nat.pow_zero, Nat.div_one] at *
  rw [m1, m2, m3, m4, m5, m6, hx, Nat.mod_eq_of_lt h1]

@[simp] theorem live_setBar (s : State) (c : Crew) (n : Nat) (b : BarObj) (i j : Nat) :
    live (s.setBar c n b).crews i j = live s.crews i j := live_writeBytes ..

theorem barMap_live {o : Option Cause} {r : Except Cause BarObj} {s t : State} {c : Crew} {n : Nat} {w v : W64} {a b : Nat}
    (h : (match o with
      | some c => Except.error c
      | none => r.map fun b' => (s.setBar c n b', w)) = .ok (t, v)) : live t.crews a b = live s.crews a b := by
  cases o with
  | some c => simp at h
  | none =>
    cases r with
    | error c => simp [Except.map] at h
    | ok b' =>
      simp only [Except.map, Except.ok.injEq, Prod.mk.injEq] at h
      rw [← h.1]
      exact live_setBar ..

end Sys2Proof.Machine
end

