-- ==== Sys2Proof/Laws/Jobs.lean ====
section
/-!
SUPPORT. Sys2Proof/Laws/Jobs.lean: posts, ends and cancellations of jobs, launches, seal contexts and register writes keep the
cohorts and the canonical form of memory.
-/

namespace Sys2Proof.Machine

theorem forL_congr {α β : Type} {l : List α} {y : β} {f g : α → β → β} (h : ∀ a ∈ l, ∀ z, f a z = g a z) :
    forL l y f = forL l y g := by
  induction l generalizing y with
  | nil => rfl
  | cons a r ih =>
    rw [forL_cons, forL_cons, h a (List.mem_cons_self ..)]
    exact ih fun b hb => h b (List.mem_cons_of_mem _ hb)

theorem stays_reuseSlot (s : State) (p slot : Nat) (mx : Bool) : Stays s (s.reuseSlot p slot mx) :=
  stays_smMap _ _ fun k c => by split <;> rfl

theorem stays_ite_fst {β : Type} {c : Prop} [Decidable c] {s : State} {t u : State × β} (h : Stays s t.1) (k : Stays s u.1) :
    Stays s (if c then t else u).1 := by
  split
  · exact h
  · exact k

theorem stays_cpOffer (s : State) (x : Slot) (lane : Nat) (k : CpKind) (peer : Nat) (d : List W64) :
    Stays s (s.cpOffer x lane k peer d).1 := by
  unfold State.cpOffer
  split
  · simp only
    split
    · exact .refl s
    · split
      · exact .refl s
      · split
        · exact .refl s
        · split
          · refine Stays.trans ?_ (stays_modThread ..)
            exact ((stays_fresh s).trans (stays_reuseSlot ..)).trans (stays_modCluster ..)
          · exact ((stays_fresh s).trans (stays_reuseSlot ..)).trans (stays_modCluster ..)
  · exact .refl s

theorem stays_mxPlaceOne (x : Slot) (lane : Nat) (k : MxKind) (d : List W64) (tw ord : Nat) (l : List (Nat × Nat))
    (y : Nat × Nat × Crew) (a : State × W64) : Stays a.1 (mxPlaceOne x lane k d tw ord l y a).1 :=
  (stays_reuseSlot ..).trans (stays_modCluster ..)

theorem stays_forL_fst {α β : Type} (l : List α) (y : State × β) (g : α → State × β → State × β)
    (h : ∀ x y, Stays y.1 (g x y).1) : Stays y.1 (forL l y g).1 := by
  induction l generalizing y with
  | nil => exact .refl y.1
  | cons x r ih => exact (h x y).trans (ih (g x y))

theorem stays_mxOffer (s : State) (x : Slot) (lane : Nat) (k : MxKind) (d : List W64) :
    Stays s (s.mxOffer x lane k d).1 := by
  unfold State.mxOffer
  split
  · simp only
    split
    · exact .refl s
    · split
      · exact .refl s
      · split
        · exact .refl s
        · have h := fun l tw preds => (stays_fresh s).trans (stays_forL_fst l (s.fresh, (0 : W64))
            (mxPlaceOne x lane k d tw s.nextId preds) fun a z => stays_mxPlaceOne ..)
          split
          · exact (h _ _ _).trans (stays_modThread ..)
          · exact h _ _ _
  · exact .refl s

theorem stays_unbindLane (s : State) (cid : Nat) (a : Val) : Stays s (s.unbindLane cid a).1 := by
  unfold State.unbindLane
  refine stays_ite_fst (.refl s) ?_
  split
  · exact stays_modCrew _ _ _ fun _ => rfl
  · exact .refl s

theorem stays_finishCancel (s : State) (l : List (Nat × Nat)) (v : Nat) : Stays s (s.finishCancel l v) :=
  stays_forL _ _ _ fun _ _ => stays_resultLane ..

theorem stays_setBar (s : State) (c : Crew) (i : Nat) (b : BarObj) : Stays s (s.setBar c i b) :=
  ⟨fun _ _ => live_setBar .., memWrite_wf⟩

theorem stays_barAdd (s : State) (cid i n : Nat) : Stays s (s.barAdd cid i n) := by
  unfold State.barAdd
  split
  · exact .refl s
  · split
    · exact .refl s
    · simp only
      split
      · split
        · refine Stays.trans ?_ (stays_modCrew _ _ _ fun _ => rfl)
          exact stays_modCrew _ _ _ fun _ => rfl
        · refine Stays.trans ?_ (stays_setBar ..)
          exact stays_modCrew _ _ _ fun _ => rfl
      · exact stays_fatal ..

theorem stays_lowerJobFlag (s : State) (cid co lane i : Nat) : Stays s (s.lowerJobFlag cid co lane i) := by
  unfold State.lowerJobFlag
  exact (stays_modThread ..).trans (stays_modCohort ..)

theorem stays_cpOver (s : State) (p slot : Nat) (j : CpJob) (st : JobSt) (c : Cause) : Stays s (s.cpOver p slot j st c) := by
  unfold State.cpOver
  simp only
  refine Stays.trans ?_ (stays_finishCancel ..)
  split
  · refine Stays.trans ?_ (stays_lowerJobFlag ..)
    split
    · refine Stays.trans ?_ (stays_forL _ _ _ fun r s => ?_)
      · exact ⟨fun _ _ => rfl, id⟩
      · split
        · exact stays_barAdd ..
        · exact .refl s
    · exact ⟨fun _ _ => rfl, id⟩
  · split
    · refine Stays.trans ?_ (stays_forL _ _ _ fun r s => ?_)
      · exact ⟨fun _ _ => rfl, id⟩
      · split
        · exact stays_barAdd ..
        · exact .refl s
    · exact ⟨fun _ _ => rfl, id⟩

theorem stays_noteEnded (s : State) (cid b lo n : Nat) : Stays s (s.noteEnded cid b lo n) := stays_modCrew _ _ _ fun _ => rfl

theorem stays_dropEnded (s : State) (cid b : Nat) : Stays s (s.dropEnded cid b) := stays_modCrew _ _ _ fun _ => rfl

theorem stays_ite {c : Prop} [Decidable c] {s t u : State} (h : Stays s t) (k : Stays s u) : Stays s (if c then t else u) := by
  split
  · exact h
  · exact k

theorem stays_cpLeaves (s : State) (j : CpJob) (st : JobSt) : Stays s (s.cpLeaves j st) := by
  unfold State.cpLeaves
  refine stays_ite (.refl s) (stays_forL _ _ _ fun r s => ?_)
  split
  · exact stays_ite (stays_dropEnded ..) (stays_ite (stays_noteEnded ..) (.refl s))
  · exact .refl s

theorem stays_cpEnd (s : State) (p slot : Nat) (j : CpJob) (st : JobSt) (c : Cause) : Stays s (s.cpEnd p slot j st c) := by
  unfold State.cpEnd
  simp only
  split
  · exact ((stays_cpOver ..).trans (stays_cpLeaves ..)).trans (stays_fatal ..)
  · exact (stays_cpOver ..).trans (stays_cpLeaves ..)

theorem stays_cpCancelOne (s : State) (x : Slot) (w : Nat × Nat) (h : W64) : Stays s (s.cpCancelOne x w h).1 := by
  unfold State.cpCancelOne
  split
  · exact .refl s
  · exact stays_ite_fst (.refl s) (stays_ite_fst (stays_cpEnd ..) (stays_modCluster ..))

theorem stays_modBank (s : State) (p b : Nat) (f : Bank → Bank) : Stays s (s.modBank p b f) := stays_modCluster ..

theorem stays_mxBanks (s : State) (e : MxEnt) (d : Bool) : Stays s (s.mxBanks e d) := by
  unfold State.mxBanks
  simp only
  split
  · exact (stays_forL _ _ _ fun _ _ => stays_modBank ..).trans (stays_modBank ..)
  · exact stays_forL _ _ _ fun _ _ => stays_modBank ..

theorem stays_mxStaged (s : State) (e : MxEnt) : Stays s (s.mxStaged e) := by
  unfold State.mxStaged
  split
  · split
    · exact .refl s
    · exact ⟨fun _ _ => rfl, memWrite_wf⟩
  · exact .refl s

theorem stays_mxBar (s : State) (e : MxEnt) (l : List (Option Nat × Nat)) : Stays s (s.mxBar e l) := by
  unfold State.mxBar
  split
  · refine stays_forL _ _ _ fun r s => ?_
    split
    · exact stays_barAdd ..
    · exact .refl s
  · exact .refl s

theorem stays_mxLeaves (s : State) (e : MxEnt) (st : JobSt) : Stays s (s.mxLeaves e st) := by
  unfold State.mxLeaves
  refine stays_ite (.refl s) (stays_forL _ _ _ fun r s => ?_)
  split
  · exact stays_ite (stays_dropEnded ..) (stays_ite (.refl s) (stays_noteEnded ..))
  · exact .refl s

theorem stays_mxUnstarted (s : State) (e : MxEnt) (c : Cause) : Stays s (s.mxUnstarted e c) := by
  have h := stays_ite (c := e.kind = .drain) (.refl s) (stays_forL e.results s
    (fun b s => s.modBank e.eng b fun x => if x.st = 2 && decide (x.holder = some e.owner) then x.after none else x)
    fun _ _ => stays_modBank ..)
  unfold State.mxUnstarted
  refine stays_ite (.refl s) ?_
  cases e.source
  · exact h
  · exact stays_ite (h.trans (stays_modBank ..)) h

theorem stays_mxOver (s : State) (p slot : Nat) (e : MxEnt) (st : JobSt) (c : Cause) : Stays s (s.mxOver p slot e st c) := by
  unfold State.mxOver
  have h1 := stays_modCluster s p fun c => c.releaseChuck 1 slot
  have h2 := stays_ite (c := decide (e.st = .running) = true) (h1.trans (stays_mxStaged _ e)) h1
  have h3 := (stays_ite (c := (e.member.isNone || decide (mCdst e.card = 0)) = true)
    (h2.trans (stays_mxBar _ e (s.mxWritten e))) h2).trans (stays_mxLeaves _ e st)
  have h4 := stays_ite (c := (e.member.isNone && decide (e.kind ≠ .zero) && mCfe e.card) = true)
    (h3.trans (stays_lowerJobFlag _ e.cid e.co e.lane (mCfl e.card))) h3
  have h5 := stays_ite (c := decide (e.st = .running) = true) (h4.trans (stays_mxBanks _ e (decide (st = .done))))
    (h4.trans (stays_mxUnstarted _ e c))
  have h6 := h5.trans (stays_modCluster _ p fun cl =>
    { cl with mx := smMod cl.mx slot fun e => { e with st := st, cause := c, cancelPend := [], staged := [] } })
  have h7 := h6.trans (stays_finishCancel _ e.cancelPend (s.mxBytes e))
  exact stays_ite h6 (stays_ite (h7.trans (stays_fatal _ e.cid c 0 (cpHandle e.serial slot).toNat)) h7)

theorem stays_mxTeamOver (s : State) (e : MxEnt) : Stays s (s.mxTeamOver e) := by
  have h1 := stays_ite (c := mCdst e.card = 0) (.refl s) (stays_mxBar s e [(some e.cid, s.mxTotal e)])
  have h2 := stays_ite (c := mCfe e.card = true) (h1.trans (stays_lowerJobFlag _ e.cid e.co e.lane (mCfl e.card))) h1
  unfold State.mxTeamOver
  refine stays_ite (.refl s) ?_
  have h3 : ∀ u, Stays s u → Stays s (match e.source with
      | some b =>
        forL (s.mxParts e) u fun x s =>
          if x.2.2.srcOk.isSome then s.modBank x.1 b fun y => y.after (if mArl e.card then none else some x.2.2.owner) else s
      | none => u) := fun u hu => by
    split
    · exact hu.trans (stays_forL _ _ _ fun x s => stays_ite (stays_modBank ..) (.refl s))
    · exact hu
  have h5 : ∀ u, Stays s u → Stays s (match s.mxWhole e, (s.mxParts e).find? fun x => decide (x.2.2.st = .failed),
        (s.mxParts e).find? fun x => x.2.2.lead with
      | .failed, some f, some l => u.fatal e.cid f.2.2.cause 0 (cpHandle l.2.2.serial l.2.1).toNat
      | _, _, _ => u) := fun u hu => by
    split
    · exact hu.trans (stays_fatal ..)
    · exact hu
  exact h5 _ ((h3 _ h2).trans (stays_finishCancel ..))

theorem stays_mxEndAll (s : State) (p slot : Nat) (e : MxEnt) (st : JobSt) (c : Cause) : Stays s (s.mxEndAll p slot e st c) := by
  unfold State.mxEndAll
  refine stays_ite (stays_mxOver ..) (((stays_mxOver s p slot e st c).trans (stays_forL _ _ _ fun x s => ?_)).trans (stays_mxTeamOver ..))
  refine stays_ite (stays_ite (stays_modBank ..) (.refl s)) (stays_mxOver ..)

theorem stays_mxCancelOne (s : State) (x : Slot) (h : W64) : Stays s (s.mxCancelOne x h).1 := by
  unfold State.mxCancelOne
  split
  · exact .refl s
  · exact stays_ite_fst (.refl s) (stays_mxEndAll ..)

theorem stays_cancelLane {g : Nat × Nat → Fin 32 → State → State × Option Nat} (hg : ∀ w i s, Stays s (g w i s).1)
    (id : Nat) (i : Fin 32) (s : State) : Stays s (cancelLane g id i s) := by
  have h := hg (id, i.val) i s
  unfold cancelLane
  split
  · rename_i hj
    rw [hj] at h
    exact h.trans (stays_finishCancel ..)
  · rename_i hj
    rw [hj] at h
    exact h

theorem cancels {o : Op} {c : Fields → Instr} {g : Slot → Nat × Nat → Fin 32 → State → State × Option Nat}
    (he : ∀ f s, exec (c f) s = runSlot o f s fun x s => cancelSlot x (g x) s) (hg : ∀ x w i s, Stays s (g x w i s).1) :
    Cancels o c g := by
  intro f s b h hp
  refine slot_posts h (he f s) ?_ (stands_live h ?_)
  · have hf := slot_faults_none (x := b.slot o f s) (g := fun i => if ((b.slot o f s).a[i]).p then some (cPoisonUse, 0) else none)
      fun i hi => by rw [hp i hi]; rfl
    unfold cancelSlot
    simp only [hf, done_nil]
  · exact ((stays_addPend s _).trans (stays_forL _ _ _ fun i s => stays_cancelLane (hg _) ..)).1 _ _

theorem inTurnStanding {o : Op} {c : Fields → Instr} {g : Fields → Slot → Fin 32 → State → Except Cause (State × W64)}
    {ad : Fields → Slot → Fin 32 → W64}
    (he : ∀ f s, exec (c f) s = runSlot o f s fun x s => seqSlot x (g f x) s (ad f x)) : InTurnStanding o c g := by
  intro f s b h e vals hr hl
  refine slot_posts h (he f s) ?_ (stands_of_cohort h hl)
  unfold seqSlot
  rw [laneRun_forL (fun i y z hz => by simp only [hz]) hr []]
  simp only [done_nil]

theorem cpHandle_acc (n k : Nat) : (cpHandle n k).getLsbD 0 = true := by
  unfold cpHandle
  rw [BitVec.getLsbD_ofNat]
  simp
  omega

theorem stays_endAbsorbs (s : State) (x : SealCtx) : Stays s (s.endAbsorbs x) := stays_forL _ _ _ fun _ _ => stays_resultLane ..

theorem stays_freeSeal (s : State) (p i : Nat) (x : SealCtx) : Stays s (s.freeSeal p i x) := stays_modCluster ..

theorem stays_abortSeal (s : State) (p i : Nat) (x : SealCtx) (r c : Nat) : Stays s (s.abortSeal p i x r c) := by
  have h := (stays_endAbsorbs s x).trans (stays_freeSeal _ p i x)
  unfold State.abortSeal
  simp only
  split
  · exact h
  · exact stays_ite (h.trans (keeps_modPart ..).stays) (h.trans (keeps_post ..).stays)

theorem stays_sealOpen (s : State) (x : Slot) (lane alg : Nat) (l : W64) : Stays s (s.sealOpen x lane alg l).1 := by
  exact stays_ite_fst (.refl s) (stays_ite_fst (.refl s) (stays_ite_fst (.refl s) (stays_modCluster ..)))

theorem stays_modSeal' (s : State) (p i : Nat) (f : SealCtx → SealCtx) (g : Cluster → Cluster) :
    Stays s ((s.fresh.modCluster p g).modSeal p i f) := ⟨fun _ _ => rfl, id⟩

theorem stays_sealAbsorb {s t : State} {x : Slot} {id lane : Nat} {st : Bool} {h : W32} {b : W64} {n : Nat}
    (hr : s.sealAbsorb x id lane st h b n = .ok t) : Stays s t := by
  unfold State.sealAbsorb at hr
  simp only at hr
  split at hr
  · simp at hr
  · split at hr
    · simp at hr
    · simp only [Except.ok.injEq] at hr
      subst hr
      exact stays_modSeal' ..

theorem stays_sealFinish {s t : State} {x : Slot} {id lane : Nat} {st : Bool} {h : W32} {b : W64}
    (hr : s.sealFinish x id lane st h b = .ok t) : Stays s t := by
  unfold State.sealFinish at hr
  cases st <;>
  · simp only [if_true, Bool.false_eq_true, if_false] at hr
    split at hr
    · simp at hr
    · split at hr
      · simp at hr
      · split at hr
        · simp at hr
        · simp only [Except.ok.injEq] at hr
          subst hr
          exact stays_modSeal' ..

theorem stays_modSeal (s : State) (p i : Nat) (f : SealCtx → SealCtx) : Stays s (s.modSeal p i f) := stays_modCluster ..

theorem stays_sysWrite (s : State) (h : Held) (k n : Nat) (v : W64) : Stays s (s.sysWrite h k n v) := by
  unfold State.sysWrite
  split
  · exact (keeps_modPart ..).stays
  · exact stays_ite ⟨fun _ _ => rfl, id⟩ (.refl s)
  · exact stays_ite (stays_modCluster ..) (.refl s)
  · exact .refl s

theorem stays_measExt (s : State) (b : Nat) (d : List Byte) : Stays s (s.measExt b d) := by
  unfold State.measExt
  exact stays_ite ⟨fun _ _ => rfl, id⟩ ⟨fun _ _ => rfl, id⟩

theorem stays_acceptLaunch (s : State) (x : Slot) (lane : Nat) (g : Grid) : Stays s (s.acceptLaunch x lane g) := by
  unfold State.acceptLaunch
  simp only
  refine Stays.trans ?_ (stays_modGrid ..)
  refine Stays.trans ?_ (stays_startFence ..)
  refine Stays.trans ?_ (stays_modGrid ..)
  refine Stays.trans (t := s.queueGrid g) ⟨fun _ _ => rfl, id⟩ ?_
  exact stays_modCrew _ _ _ fun _ => rfl

theorem stays_judgeLaunch (s : State) (tag space : Nat) (ws : List W64) (depth : Nat) (parent : Option Nat) (anchor : Nat) :
    Stays s (s.judgeLaunch tag space ws depth parent anchor).1 := by
  unfold State.judgeLaunch
  split
  · exact .refl s
  · simp only
    split
    · exact .refl s
    · split
      · rename_i hr
        have hk := (keeps_readVa hr).stays
        split
        · exact hk
        · split
          · exact hk
          · exact hk
      · exact .refl s
      · exact .refl s

theorem stays_launchOne (s : State) (x : Slot) (i : Fin 32) : Stays s (s.launchOne x i).1 := by
  have h := stays_judgeLaunch s x.crew.part (rw (eightWords (memRead s.mem (x.crew.stashAt (x.a[i]).lo.toNat) 64)) 4 27 22)
    (eightWords (memRead s.mem (x.crew.stashAt (x.a[i]).lo.toNat) 64)) (x.crew.depth + 1) (some x.cid) x.crew.lcl
  unfold State.launchOne
  refine stays_ite_fst (.refl s) ?_
  simp only
  split
  · rename_i hj
    rw [hj] at h
    exact h
  · rename_i u r hj
    rw [hj] at h
    refine stays_ite_fst h ?_
    split
    · exact h.trans (stays_acceptLaunch ..)
    · exact h

theorem stays_charge (s : State) (x : Slot) (n : Nat) : Stays s (s.charge x n) := stays_modCohort ..

theorem stays_sendPkt (s : State) (part p pid : Nat) (u : FabUse) (l : Load) (pc : W64) (r : Bool) :
    Stays s (s.sendPkt part p pid u l pc r) := ⟨fun _ _ => rfl, id⟩

theorem stays_sendFab (s : State) (part p pid : Nat) (u : FabUse) (l : Load) (pc : W64) (r : Bool) :
    Stays s (s.sendFab part p pid u l pc r) := by
  have h : Stays s { s.sendPkt part p (s.peerTarget part pid) u l pc r with
      fab := smMod (s.sendPkt part p (s.peerTarget part pid) u l pc r).fab s.nextId fun r =>
        { r with peer := pid, fo := peerFo (s.peer part pid) } } := ⟨fun _ _ => rfl, id⟩
  exact stays_ite (h.trans (stays_sendPkt ..)) h

theorem stays_drainLine (s : State) (p : Nat) (w : Wcb) : Stays s (s.drainLine p w) :=
  (stays_modCluster ..).trans (stays_sendFab ..)

theorem stays_drainWcb (s : State) (p : Nat) (f : Wcb → Bool) : Stays s (s.drainWcb p f) :=
  stays_forL _ _ _ fun _ _ => stays_drainLine ..

theorem stays_wcbPut (s : State) (p part pid : Nat) (who : Nat × Nat) (va : W64) (d : List Byte) :
    Stays s (s.wcbPut p part pid who va d) := by
  have h1 : Stays s (if ((s.cluster p).wcbLine part pid va).isNone && decide (256 ≤ (s.cluster p).wcb.length) then
      match oldestWcb (s.cluster p).wcb with
      | some w => s.drainLine p w
      | none => s
    else s) := by
    refine stays_ite ?_ (.refl s)
    split
    · exact stays_drainLine ..
    · exact .refl s
  unfold State.wcbPut
  exact stays_ite (((h1.trans (stays_fresh _)).trans (stays_modCluster ..)).trans (stays_drainLine ..))
    ((h1.trans (stays_fresh _)).trans (stays_modCluster ..))

theorem stays_ldfLane (x : Slot) (id n : Nat) (sx : Bool) (ea : Fin 32 → W64) (k : Nat × List (Option Byte)) (s : State) :
    Stays s (ldfLane x id n sx ea k s) := stays_ite (stays_resultLane ..) (stays_sendFab ..)

theorem stays_fabAtomicLane (x : Slot) (id : Nat) (ea : Fin 32 → W64) (opc : Nat) (d : Fin 32 → List Byte) (i : Fin 32)
    (s : State) : Stays s (fabAtomicLane x id ea opc d i s) := (stays_drainWcb ..).trans (stays_sendFab ..)

theorem stashLines_ready {x : Slot} {rngs : Fin 32 → List (Nat × Nat)} {p : Nat × Nat → Bool}
    (h : ∀ i : Fin 32, x.ex.getLsbD i.val = true → ∀ y ∈ rngs i, p (x.crew.base + y.1, y.2) = true) :
    ((stashLines x rngs).all fun y => p y) = true := by
  unfold stashLines
  rw [List.all_eq_true]
  intro z hz
  obtain ⟨i, hi, hz⟩ := List.mem_flatMap.1 hz
  obtain ⟨y, hy, rfl⟩ := List.mem_map.1 hz
  exact h i ((mem_lanesOf _ _).1 hi) y hy

theorem seqSlot_ok {x : Slot} {g : Fin 32 → State → Except Cause (State × W64)} {s e : State} {vals : SMap W64}
    {ad : Fin 32 → W64} (hr : laneRun g (lanesOf x.ex) (s, []) = some (e, vals)) :
    seqSlot x g s ad = finishLate x [] e.nextId false (e.addPend (x.postPend x.ex vals fun r => r.getLsbD 0)) := by
  unfold seqSlot
  rw [laneRun_forL (fun i y z hz => by simp only [hz]) hr []]
  simp only [done_nil]

/-- A check that no executing lane fails gives no trap of a fabric instruction. -/
theorem fab_faults_none {x : Slot} {s : State} {ad : Fin 32 → W64} {g : Fin 32 → Option Cause}
    (h : ∀ i : Fin 32, x.ex.getLsbD i.val = true → g i = none) : x.fabFaults s ad g = [] := by
  unfold Slot.fabFaults
  simp only
  rw [List.filterMap_eq_nil_iff]
  intro i hi
  rw [h i ((mem_lanesOf _ _).1 hi)]
  rfl

/-- Executing threads that act in lane order, with a result that the engine delivers. -/
theorem lateInTurn {o : Op} {c : Fields → Instr} {g : Fields → Slot → Nat → Fin 32 → State → Except Cause State}
    (he : ∀ f s, exec (c f) s = runSlot o f s fun x s => lateSlot x (g f x) s)
    (hl : ∀ f x id i s t, g f x id i s = .ok t → Stays s t) : LateInTurn o c g := by
  intro f s b h e hr
  refine slot_posts h (he f s) ?_ (stands_live h ?_)
  · unfold lateSlot
    have hF := actRun_forL (g := g f (b.slot o f s) s.nextId) (F := lateStep (b.slot o f s) (g f (b.slot o f s)) s.nextId)
      (fun i y z hz => by unfold lateStep; rw [hz]) hr []
    simp only [hF, done_nil]
  · rw [live_modPend]
    have := actRun_live (g := g f (b.slot o f s) s.nextId) (a := b.r.cid) (b := b.r.co)
      (fun i u t hi => (hl f (b.slot o f s) s.nextId i u t hi).1 _ _) hr
    exact this

end Sys2Proof.Machine
end

