-- ==== Sys2Proof/Laws/Events.lean ====
section
/-!
SUPPORT. Sys2Proof/Laws/Events.lean: what a delivery and the start of a clause leave in the threads of a cohort, and what the events of
power and repair leave in the clusters.
-/

namespace Sys2Proof.Machine

/-- The threads of a cohort after an operation, each from what it was; memory is as before. -/
def ThreadsTo (s t : State) (cid co : Nat) (R : Fin 32 → Thread → Thread → Prop) : Prop :=
  t.mem = s.mem ∧ ∀ h, s.cohort? cid co = some h → ∃ h', t.cohort? cid co = some h' ∧ ∀ i : Fin 32, R i h.threads[i] h'.threads[i]

theorem ThreadsTo.trans {s t u : State} {cid co : Nat} {R Q P : Fin 32 → Thread → Thread → Prop}
    (a : ThreadsTo s t cid co R) (b : ThreadsTo t u cid co Q) (h : ∀ i x y z, R i x y → Q i y z → P i x z) :
    ThreadsTo s u cid co P := by
  refine ⟨b.1.trans a.1, fun g hg => ?_⟩
  obtain ⟨g1, h1, h2⟩ := a.2 g hg
  obtain ⟨g2, h3, h4⟩ := b.2 g1 h1
  exact ⟨g2, h3, fun i => h i _ _ _ (h2 i) (h4 i)⟩

theorem threadsTo_refl {s t : State} {cid co : Nat} {R : Fin 32 → Thread → Thread → Prop} (hm : t.mem = s.mem)
    (hc : t.crews = s.crews) (h : ∀ i x, R i x x) : ThreadsTo s t cid co R :=
  ⟨hm, fun g hg => ⟨g, by unfold State.cohort? at hg ⊢; rw [hc]; exact hg, fun i => h i _⟩⟩

theorem threadsTo_modLanes (s : State) (cid co : Nat) (m : BitVec 32) (f : Fin 32 → Thread → Thread) :
    ThreadsTo s (s.modLanes cid co m f) cid co fun i x y => y = if m.getLsbD i then f i x else x := by
  refine ⟨rfl, fun g hg => ?_⟩
  obtain ⟨hn, h1, h2, _⟩ := modLanes_thread hg m f
  exact ⟨hn, h1, h2⟩

theorem threadsTo_modCohort (s : State) (cid co : Nat) (f : Cohort → Cohort) (h : ∀ g, (f g).threads = g.threads) :
    ThreadsTo s (s.modCohort cid co f) cid co fun _ x y => y = x := by
  refine ⟨rfl, fun g hg => ⟨f g, by rw [cohort_modCohort_self, hg]; rfl, fun i => by rw [h g]⟩⟩

/-- v, k, queue and pc of a thread are as they were. -/
def SameRegs (x y : Thread) : Prop := y.v = x.v ∧ y.k = x.k ∧ y.q = x.q ∧ y.pc = x.pc

theorem SameRegs.refl (x : Thread) : SameRegs x x := ⟨rfl, rfl, rfl, rfl⟩

theorem SameRegs.trans {x y z : Thread} (a : SameRegs x y) (b : SameRegs y z) : SameRegs x z :=
  ⟨b.1.trans a.1, b.2.1.trans a.2.1, b.2.2.1.trans a.2.2.1, b.2.2.2.trans a.2.2.2⟩

theorem threadsTo_other {s t : State} {cid co c2 o2 : Nat} (m : BitVec 32) (f : Fin 32 → Thread → Thread)
    (hf : ∀ i x, SameRegs x (f i x)) (ht : t = s.modLanes c2 o2 m f) : ThreadsTo s t cid co fun _ => SameRegs := by
  subst ht
  refine ⟨rfl, fun g hg => ?_⟩
  unfold State.modLanes
  rw [cohort_modCohort]
  split
  · rw [hg]
    refine ⟨_, rfl, fun i => ?_⟩
    rw [mapThreads_getElem]
    split
    · exact hf _ _
    · exact SameRegs.refl _
  · exact ⟨g, hg, fun i => SameRegs.refl _⟩

theorem threadsTo_otherRgn {s : State} {cid co : Nat} (c2 o2 : Nat) (f : Cohort → Cohort) (hf : ∀ g, (f g).threads = g.threads) :
    ThreadsTo s (s.modCohort c2 o2 f) cid co fun _ => SameRegs := by
  refine ⟨rfl, fun g hg => ?_⟩
  rw [cohort_modCohort]
  split
  · rw [hg]
    exact ⟨_, rfl, fun i => by rw [hf g]; exact SameRegs.refl _⟩
  · exact ⟨g, hg, fun i => SameRegs.refl _⟩

theorem sameRegs_trans_to {s t u : State} {cid co : Nat} (a : ThreadsTo s t cid co fun _ => SameRegs)
    (b : ThreadsTo t u cid co fun _ => SameRegs) : ThreadsTo s u cid co fun _ => SameRegs :=
  a.trans b fun _ _ _ _ => SameRegs.trans

theorem threadsTo_lower {s : State} {cid co a b : Nat} {m : BitVec 32} {f : Fin 32 → Thread → Thread} {g : Cohort → Cohort}
    {tk : SMap Tok} (hf : ∀ i x, SameRegs x (f i x)) (hg : ∀ h, (g h).threads = h.threads) :
    ThreadsTo s { (s.modLanes a b m f).modCohort a b g with toks := tk } cid co fun _ => SameRegs :=
  sameRegs_trans_to (t := s.modLanes a b m f) (threadsTo_other m f hf rfl)
    (sameRegs_trans_to (t := (s.modLanes a b m f).modCohort a b g) (threadsTo_otherRgn _ _ _ hg)
      (threadsTo_refl rfl rfl fun _ => SameRegs.refl))

theorem threadsTo_settle (s : State) (tok cid co : Nat) : ThreadsTo s (s.settle tok) cid co fun _ => SameRegs := by
  unfold State.settle
  split
  · exact threadsTo_refl rfl rfl fun _ => SameRegs.refl
  · split
    · exact threadsTo_refl rfl rfl fun _ => SameRegs.refl
    · refine threadsTo_lower (fun i x => ?_) (fun g => rfl)
      dsimp only
      split <;> split <;> exact SameRegs.refl _

theorem threadsTo_settlePend (s : State) (id cid co : Nat) : ThreadsTo s (s.settlePend id) cid co fun _ => SameRegs := by
  unfold State.settlePend
  split
  · exact threadsTo_refl rfl rfl fun _ => SameRegs.refl
  · split
    · exact sameRegs_trans_to (threadsTo_refl rfl rfl fun _ => SameRegs.refl) (threadsTo_settle _ _ cid co)
    · exact threadsTo_settle _ _ cid co

theorem threadsTo_noteSuspect (s : State) (p a b cid co : Nat) :
    ThreadsTo s (s.noteSuspect p a b) cid co fun _ => SameRegs := by
  unfold State.noteSuspect
  split
  · exact threadsTo_otherRgn _ _ _ fun g => by split <;> rfl
  · exact threadsTo_refl rfl rfl fun _ => SameRegs.refl

theorem threadsTo_modPend (s : State) (id cid co : Nat) (f : Pend → Pend) :
    ThreadsTo s (s.modPend id f) cid co fun _ => SameRegs := threadsTo_refl rfl rfl fun _ => SameRegs.refl

theorem threadsTo_deliverLane (s : State) (id : Nat) (p : Pend) (lane : Nat) (r : LaneRes) (h : p.dead = false) :
    ThreadsTo s (s.deliverLane id p lane r) p.cid p.co fun i x y => y = if lane = i.val then deliverThread id p lane r x else x := by
  unfold State.deliverLane
  rw [h]
  simp only [Bool.false_eq_true, if_false]
  have a : ThreadsTo s ((s.modThread p.cid p.co lane (deliverThread id p lane r)).modCohort p.cid p.co fun h =>
      { h with rgn := h.rgn.deliver id p lane r }) p.cid p.co fun i x y => y = if lane = i.val then deliverThread id p lane r x else x := by
    refine (threadsTo_modLanes s p.cid p.co (laneBit lane) fun _ => deliverThread id p lane r).trans
      (threadsTo_modCohort _ _ _ _ fun g => rfl) fun i x y z h1 h2 => ?_
    rw [h2, h1, laneBit_getLsbD]
    simp only [decide_eq_true_eq]
  split
  · refine a.trans (Q := fun _ x y => y = x) ⟨rfl, fun g hg => ⟨g, ?_, fun i => rfl⟩⟩ fun i x y z h1 h2 => by rw [h2, h1]
    unfold State.cohort? at hg ⊢
    rw [smGet_modCrew, if_pos rfl]
    cases e : smGet (State.modCohort _ p.cid p.co _).crews p.cid with
    | none => rw [e] at hg; exact hg
    | some c => rw [e] at hg; exact hg
  · exact a

theorem threadsTo_deliverLanes (id : Nat) (p : Pend) (val : Nat → Option LaneRes) (h : p.dead = false) (l : List (Fin 32)) :
    ∀ s : State, l.Nodup → ThreadsTo s (forL l s fun i s => match val i.val with
      | some r => s.deliverLane id p i.val r
      | none => s) p.cid p.co fun i x y => y = if i ∈ l then (match val i.val with
      | some r => deliverThread id p i.val r x
      | none => x) else x := by
  induction l with
  | nil => exact fun s _ => threadsTo_refl rfl rfl fun i x => by simp
  | cons a l ih =>
    intro s hn
    obtain ⟨ha, hn⟩ := List.nodup_cons.mp hn
    have one : ThreadsTo s (match val a.val with
        | some r => s.deliverLane id p a.val r
        | none => s) p.cid p.co fun i x y => y = if i = a then (match val i.val with
        | some r => deliverThread id p i.val r x
        | none => x) else x := by
      cases e : val a.val with
      | none =>
        refine threadsTo_refl rfl rfl fun i x => ?_
        by_cases hi : i = a
        · subst hi; simp [e]
        · simp [hi]
      | some r =>
        refine (threadsTo_deliverLane s id p a.val r h).trans (threadsTo_refl (R := fun _ x y => y = x) rfl rfl fun _ _ => rfl)
          fun i x y z h1 h2 => ?_
        rw [h2, h1]
        by_cases hi : i = a
        · subst hi; simp [e]
        · have : a.val ≠ i.val := fun e => hi (Fin.ext e.symm)
          simp [hi, this]
    refine one.trans (ih _ hn) fun i x y z h1 h2 => ?_
    rw [h2, h1]
    by_cases hi : i = a
    · subst hi
      simp [ha]
    · simp [hi]

/-- What a delivery leaves in the thread of a lane. -/
def afterDeliver (id : Nat) (p : Pend) (i : Fin 32) (x : Thread) : Thread :=
  if p.waitRes.getLsbD i.val = true then (match smGet p.vals i.val with
    | some r => deliverThread id p i.val r x
    | none => x) else x

theorem afterDeliver_eq (id : Nat) (p : Pend) (i : Fin 32) (x y : Thread)
    (h : y = if i ∈ lanesOf (laneFilter p.waitRes fun i => (smGet p.vals i.val).isSome) then (match smGet p.vals i.val with
      | some r => deliverThread id p i.val r x
      | none => x) else x) : y = afterDeliver id p i x := by
  have e : (i ∈ lanesOf (laneFilter p.waitRes fun i => (smGet p.vals i.val).isSome)) ↔
      (p.waitRes.getLsbD i.val = true ∧ (smGet p.vals i.val).isSome = true) := by
    rw [lanesOf, List.mem_filter, laneFilter_getLsbD]
    simp
  rw [h]
  unfold afterDeliver
  by_cases hw : p.waitRes.getLsbD i.val = true
  · cases hv : smGet p.vals i.val with
    | none => simp only [ite_self]
    | some r => rw [if_pos (e.mpr ⟨hw, by rw [hv]; rfl⟩), if_pos hw]
  · rw [if_neg fun c => hw (e.mp c).1, if_neg hw]

theorem deliver_key {s : State} {id : Nat} {p : Pend} (hu : p.uni = false) (hb : p.bundle = false) (hd : p.dead = false) :
    ThreadsTo s (s.deliver id p) p.cid p.co fun i x y => SameRegs (afterDeliver id p i x) y := by
  unfold State.deliver
  simp only [hu, hb, Bool.false_eq_true, if_false, Bool.false_and, Bool.false_or]
  refine (threadsTo_deliverLanes id p (fun i => smGet p.vals i) hd
    (lanesOf (laneFilter p.waitRes fun i => (smGet p.vals i.val).isSome)) s (lanesOf_nodup _)).trans
    (Q := fun _ => SameRegs) ?_ fun i x y z h1 h2 => ?_
  · refine sameRegs_trans_to ?_ (threadsTo_settlePend _ _ _ _)
    split
    · split
      · exact sameRegs_trans_to (threadsTo_modPend ..) (threadsTo_noteSuspect ..)
      · exact threadsTo_modPend ..
    · exact threadsTo_modPend ..
  · rw [← afterDeliver_eq id p i x y h1]
    exact h2

theorem deliver_spec {s : State} {id : Nat} {p : Pend} {h : Cohort} (hu : p.uni = false)
    (hb : p.bundle = false) (hd : p.dead = false) (hh : s.cohort? p.cid p.co = some h) :
    ∃ h', (s.deliver id p).cohort? p.cid p.co = some h' ∧ (s.deliver id p).mem = s.mem ∧
      (∀ (i : Fin 32) (r : LaneRes), p.waitRes.getLsbD i.val = true → smGet p.vals i.val = some r →
        (h'.threads[i]).v = r.vregs p i.val (h.threads[i]).v ∧ (h'.threads[i]).k = r.preds p i.val (h.threads[i]).k ∧
        (h'.threads[i]).q = fillQueue id r (decide (2 ≤ p.width)) (h.threads[i]).q) ∧
      (∀ i : Fin 32, smGet p.vals i.val = none ∨ p.waitRes.getLsbD i.val = false →
        (h'.threads[i]).v = (h.threads[i]).v ∧ (h'.threads[i]).k = (h.threads[i]).k ∧ (h'.threads[i]).q = (h.threads[i]).q) ∧
      ∀ i : Fin 32, (h'.threads[i]).pc = (h.threads[i]).pc := by
  obtain ⟨km, key⟩ := deliver_key (s := s) (id := id) hu hb hd
  obtain ⟨h', h1, h2⟩ := key h hh
  refine ⟨h', h1, km, fun i r hi hr => ?_, fun i hi => ?_, fun i => ?_⟩
  · have k : SameRegs _ _ := h2 i
    have e : afterDeliver id p i h.threads[i] = deliverThread id p i.val r h.threads[i] := by
      unfold afterDeliver; rw [if_pos hi, hr]
    rw [e] at k
    exact ⟨k.1, k.2.1, k.2.2.1⟩
  · have k : SameRegs _ _ := h2 i
    have e : afterDeliver id p i h.threads[i] = h.threads[i] := by
      unfold afterDeliver
      rcases hi with hi | hi
      · rw [hi, ite_self]
      · rw [if_neg (by rw [hi]; decide)]
    rw [e] at k
    exact ⟨k.1, k.2.1, k.2.2.1⟩
  · have k : SameRegs _ _ := h2 i
    rw [k.2.2.2]
    unfold afterDeliver
    split
    · split <;> rfl
    · rfl

@[simp] theorem issue_modIssue_self (s : State) (k : Nat) (f : IssueSt → IssueSt) : (s.modIssue k f).issue k = f (s.issue k) := by
  unfold State.issue State.modIssue
  rw [cluster_modCluster_self]
  have h : k % 6 < 6 := Nat.mod_lt _ (by decide)
  simp [Vector.getElem?_eq_getElem h]

theorem laneFilter_all (m : BitVec 32) : laneFilter m (fun _ => true) = m := by
  refine BitVec.eq_of_getLsbD_eq fun i hi => ?_
  have := laneFilter_getLsbD m (fun _ => true) ⟨i, hi⟩
  simpa using this

theorem raises_new {c : Cand} {h : Cohort} (h1 : c.st.tok = none) : c.raises h = fun _ => true := by
  funext i
  unfold Cand.raises
  rw [h1]

theorem endToks_none {t : State} {c : Cand} {h : Cohort} {m : BitVec 32}
    (h1 : ∀ i : Fin 32, m.getLsbD i.val = true → (h.threads[i]).tok = none) : t.endToks c h m = t := by
  have e : (lanesOf m).filterMap (fun i => if c.raises h i then (h.threads[i]).tok else none) = [] := by
    rw [List.filterMap_eq_nil_iff]
    intro i hi
    rw [h1 i ((mem_lanesOf _ _).1 hi), ite_self]
  unfold State.endToks
  rw [e]
  rfl

theorem startClause_spec (s : State) (k : Nat) (c : Cand) (h : Cohort) (m : BitVec 32) (t : State)
    (h1 : c.fault = none) (h2 : clauseFault h c.hdr (parseSlots false 0 c.words) = none)
    (h3 : s.openForClause c m h ((parseSlots false 0 c.words).any slotArrives) = .ok t) (h4 : c.st.tok = none)
    (h5 : c.late = []) (h6 : ∀ i : Fin 32, m.getLsbD i.val = true → (h.threads[i]).tok = none) :
    ∃ r, ((s.startClause k c h m).issue k).run = some r ∧ r.cid = c.cid ∧ r.co = c.co ∧ r.lanes = m ∧ r.hpc = c.st.pc ∧
      r.hdr = c.hdr ∧ r.words = c.words ∧ r.slot = c.st.slot ∧ r.tok = t.nextId ∧ r.tile = h.tile ∧
      smGet (s.startClause k c h m).toks t.nextId = some
        { cid := c.cid, co := c.co, seta := hdrSeta c.hdr, setb := hdrSetb c.hdr, la := if hdrSeta c.hdr < 12 then m else 0,
          lb := if hdrSetb c.hdr < 12 then m else 0, ended := false } ∧
      ∀ h', t.cohort? c.cid c.co = some h' → ∃ h'', (s.startClause k c h m).cohort? c.cid c.co = some h'' ∧
        ∀ i : Fin 32, h''.threads[i] = if m.getLsbD i then
          { raiseFlag (hdrSetb c.hdr) (raiseFlag (hdrSeta c.hdr) h'.threads[i]) with
            pc := c.st.pc + BitVec.ofNat 64 (8 * (hdrCnt c.hdr + 2)), slot := 0, resumed := false, bpSkip := false, tok := none,
            grp := 0 } else h'.threads[i] := by
  unfold State.startClause
  simp only [h1, h2, h3]
  rw [raises_new h4, laneFilter_all, endToks_none h6]
  have e : t.raiseTok c (hdrSeta c.hdr) (hdrSetb c.hdr) m = ({ t with
      nextId := t.nextId + 1
      toks := smSet t.toks t.nextId
        { cid := c.cid, co := c.co, seta := hdrSeta c.hdr, setb := hdrSetb c.hdr, la := if hdrSeta c.hdr < 12 then m else 0,
          lb := if hdrSetb c.hdr < 12 then m else 0, ended := false } }, t.nextId) := by
    unfold State.raiseTok
    rw [h4]
    rfl
  rw [e, h5]
  have e0 : m &&& ~~~forL ([] : List (Nat × Nat)) (0 : BitVec 32) (fun y n => n ||| laneBit y.1) = m := by
    show m &&& ~~~0#32 = m
    exact BitVec.and_allOnes
  rw [e0]
  refine ⟨_, by rw [issue_modIssue_self], rfl, rfl, rfl, rfl, rfl, rfl, rfl, rfl, rfl, ?_, fun h' hh => ?_⟩
  · show smGet (smSet t.toks t.nextId _) t.nextId = _
    rw [smGet_smSet_self]
  · rw [cohort_modIssue]
    obtain ⟨hn, g1, g2, _⟩ := modLanes_thread (s := { t with nextId := t.nextId + 1, toks := _ }) hh m _
    refine ⟨hn, g1, fun i => ?_⟩
    rw [g2 i]
    split
    · rfl
    · rfl

/-! Clusters changed one after another. -/

theorem forL_clusters (b : Nat → State → State) (g : Nat → Cluster → Cluster)
    (hb : ∀ p s, (∃ m, b p s = { s with clusters := m }) ∧
      ∀ q, (b p s).cluster q = if q = p then g p (s.cluster p) else s.cluster q) (l : List Nat) :
    ∀ s : State, l.Nodup → (∃ m, forL l s b = { s with clusters := m }) ∧
      ∀ q, (forL l s b).cluster q = if q ∈ l then g q (s.cluster q) else s.cluster q := by
  induction l with
  | nil => exact fun s _ => ⟨⟨s.clusters, rfl⟩, fun q => by simp [forL]⟩
  | cons a l ih =>
    intro s hn
    obtain ⟨ha, hn⟩ := List.nodup_cons.mp hn
    rw [forL_cons]
    obtain ⟨⟨m, h1⟩, h2⟩ := ih (b a s) hn
    obtain ⟨⟨n, h3⟩, h4⟩ := hb a s
    refine ⟨⟨m, ?_⟩, fun q => ?_⟩
    · rw [h1, h3]
    · rw [h2 q, h4 q]
      by_cases hq : q = a
      · subst hq; simp [ha]
      · simp [hq]

theorem modCluster_each (p : Nat) (s : State) (g : Cluster → Cluster) :
    (∃ m, s.modCluster p g = { s with clusters := m }) ∧
      ∀ q, (s.modCluster p g).cluster q = if q = p then g (s.cluster p) else s.cluster q := by
  refine ⟨⟨_, rfl⟩, fun q => ?_⟩
  by_cases h : q = p
  · subst h; rw [if_pos rfl, cluster_modCluster_self]
  · rw [if_neg h, cluster_modCluster_ne s g h]

theorem zoneClusters_nodup (z : Nat) : (zoneClusters z).Nodup := List.nodup_range.filter _

theorem overcurrent_spec {z c : Nat} {s : State} (h : z < 64) (h2 : 1875 < c) (h3 : c < 65536) :
    ∃ t, execZoneOvercurrent z c s = .next t ∧ smGet t.zonecur z = some c ∧
      smGet t.overAt z = some s.time ∧ t.crews = s.crews ∧ t.mem = s.mem ∧
      ∀ p, t.cluster p = if p ∈ zoneClusters z then
          { s.cluster p with mxduty := BitVec.ofNat 5 (max 1 ((s.cluster p).mxduty.toNat / 2)) } else s.cluster p := by
  refine ⟨_, rfl, ?_⟩
  simp only [if_neg (Nat.not_le.mpr h), Nat.mod_eq_of_lt h3, if_neg (Nat.not_le.mpr h2)]
  obtain ⟨⟨m, h4⟩, h5⟩ := forL_clusters
    (fun p s => s.modCluster p fun c => { c with mxduty := BitVec.ofNat 5 (max 1 (c.mxduty.toNat / 2)) })
    (fun _ c => { c with mxduty := BitVec.ofNat 5 (max 1 (c.mxduty.toNat / 2)) }) (fun p s => modCluster_each p s _)
    (zoneClusters z) { s with zonecur := smSet s.zonecur z c, overAt := smSet s.overAt z s.time } (zoneClusters_nodup z)
  refine ⟨by rw [h4]; simp, by rw [h4]; simp, by rw [h4], by rw [h4], h5⟩

/-- One step of a duty towards the set value (R389). -/
def dutyStep (c : Cluster) : Cluster := if c.mxduty.toNat < c.dset.toNat then { c with mxduty := c.mxduty + 1 } else c

theorem dutyStep_each (p : Nat) (s : State) :
    (∃ m, (if (s.cluster p).mxduty.toNat < (s.cluster p).dset.toNat then
        s.modCluster p fun c => { c with mxduty := c.mxduty + 1 } else s) = { s with clusters := m }) ∧
      ∀ q, (if (s.cluster p).mxduty.toNat < (s.cluster p).dset.toNat then
        s.modCluster p fun c => { c with mxduty := c.mxduty + 1 } else s).cluster q = if q = p then dutyStep (s.cluster p) else s.cluster q := by
  unfold dutyStep
  split
  · exact modCluster_each p s _
  · refine ⟨⟨s.clusters, rfl⟩, fun q => ?_⟩
    by_cases hq : q = p
    · subst hq; rw [if_pos rfl]
    · rw [if_neg hq]

theorem dutyRestore_spec {z u : Nat} {s : State} (h : smGet s.overAt z = some u) (h2 : u + 10000 ≤ s.time) :
    ∃ t, execDutyRestore z s = .next t ∧ smGet t.overAt z = some s.time ∧ t.crews = s.crews ∧ t.mem = s.mem ∧
      ∀ p, t.cluster p = if p ∈ zoneClusters z ∧ (s.cluster p).mxduty.toNat < (s.cluster p).dset.toNat then
          { s.cluster p with mxduty := (s.cluster p).mxduty + 1 } else s.cluster p := by
  refine ⟨_, rfl, ?_⟩
  simp only [h, if_neg (Nat.not_lt.mpr h2)]
  obtain ⟨v, hv⟩ : ∃ v, v = { s with overAt := smSet s.overAt z s.time } := ⟨_, rfl⟩
  rw [← hv]
  have e1 : v.crews = s.crews ∧ v.mem = s.mem ∧ smGet v.overAt z = some s.time := by
    subst hv
    exact ⟨rfl, rfl, smGet_smSet_self ..⟩
  have e2 : ∀ p, v.cluster p = s.cluster p := by subst hv; exact fun p => rfl
  clear hv
  obtain ⟨⟨m, h4⟩, h5⟩ := forL_clusters _ _ dutyStep_each (zoneClusters z) v (zoneClusters_nodup z)
  refine ⟨by rw [h4]; exact e1.2.2, by rw [h4]; exact e1.1, by rw [h4]; exact e1.2.1, fun p => ?_⟩
  rw [h5 p, e2 p]
  unfold dutyStep
  by_cases hp : p ∈ zoneClusters z <;> simp only [hp, true_and, false_and, if_true, if_false]

theorem forL_each {α : Type} (b : α → State → State) (R : Cluster → Cluster → Prop) (hr : ∀ c, R c c)
    (ht : ∀ a b c, R a b → R b c → R a c)
    (hb : ∀ p s, (∃ m, b p s = { s with clusters := m }) ∧ ∀ q, R (s.cluster q) ((b p s).cluster q)) (l : List α) :
    ∀ s : State, (∃ m, forL l s b = { s with clusters := m }) ∧ ∀ q, R (s.cluster q) ((forL l s b).cluster q) := by
  induction l with
  | nil => exact fun s => ⟨⟨s.clusters, rfl⟩, fun q => hr _⟩
  | cons a l ih =>
    intro s
    rw [forL_cons]
    obtain ⟨⟨m, h1⟩, h2⟩ := ih (b a s)
    obtain ⟨⟨n, h3⟩, h4⟩ := hb a s
    exact ⟨⟨m, by rw [h1, h3]⟩, fun q => ht _ _ _ (h4 q) (h2 q)⟩

theorem packagePower_spec {w : Nat} {s : State} (h : 6000 < w) (h2 : w < 65536) :
    ∃ t, execPackagePowerLimit w s = .next t ∧ t.pkgpwr = w ∧ t.crews = s.crews ∧ t.mem = s.mem ∧
      ∀ p, (t.cluster p).mxduty.toNat ≤ (s.cluster p).mxduty.toNat ∧ (t.cluster p).dset.toNat ≤ (s.cluster p).dset.toNat := by
  refine ⟨_, rfl, ?_⟩
  simp only [Nat.mod_eq_of_lt h2, if_neg (Nat.not_le.mpr h)]
  obtain ⟨⟨m, h4⟩, h5⟩ := forL_each (fun p s =>
      let n := Config.powerPolicy s.tick p
      s.modCluster p fun c =>
        let d := BitVec.ofNat 5 (min c.dset.toNat (1 + n / 9 % 16))
        { c with sl := c.sl.map fun i => { i with ratio := BitVec.ofNat 5 (min i.ratio.toNat (8 + n % 9)) },
                 dset := d, mxduty := if d.toNat < c.mxduty.toNat then d else c.mxduty })
    (fun a b => b.mxduty.toNat ≤ a.mxduty.toNat ∧ b.dset.toNat ≤ a.dset.toNat) (fun c => ⟨le_rfl, le_rfl⟩)
    (fun a b c h k => ⟨k.1.trans h.1, k.2.trans h.2⟩) (fun p s => by
      obtain ⟨a, b⟩ := modCluster_each p s (fun c =>
        { c with sl := c.sl.map fun i => { i with ratio := BitVec.ofNat 5 (min i.ratio.toNat (8 + Config.powerPolicy s.tick p % 9)) },
                 dset := BitVec.ofNat 5 (min c.dset.toNat (1 + Config.powerPolicy s.tick p / 9 % 16)),
                 mxduty := if (BitVec.ofNat 5 (min c.dset.toNat (1 + Config.powerPolicy s.tick p / 9 % 16))).toNat < c.mxduty.toNat then
                   BitVec.ofNat 5 (min c.dset.toNat (1 + Config.powerPolicy s.tick p / 9 % 16)) else c.mxduty })
      refine ⟨a, fun q => ?_⟩
      have e := b q
      dsimp only
      rw [e]
      by_cases hq : q = p
      · subst hq
        rw [if_pos rfl]
        refine ⟨?_, ?_⟩
        · dsimp only
          split
          · omega
          · exact le_rfl
        · dsimp only
          rw [BitVec.toNat_ofNat]
          exact (Nat.mod_le _ _).trans (Nat.min_le_left _ _)
      · rw [if_neg hq]
        exact ⟨le_rfl, le_rfl⟩)
    (s.parts.flatMap fun x => x.2.res.clusters) { s with pkgpwr := w }
  exact ⟨by rw [h4], by rw [h4], by rw [h4], h5⟩

/-! Squalls. -/

/-- Cohorts are as before but for marks of suspicion on open regions. -/
def Marked (s t : State) : Prop :=
  t.mem = s.mem ∧ t.parts = s.parts ∧ t.clusters = s.clusters ∧ ∀ cid co h, s.cohort? cid co = some h →
    ∃ b, t.cohort? cid co = some { h with rgn := { h.rgn with suspect := b } } ∧
      (h.rgn.suspect = true → b = true) ∧ (h.rgn.opened = false → b = h.rgn.suspect)

theorem Marked.refl (s : State) : Marked s s := ⟨rfl, rfl, rfl, fun _ _ h hh => ⟨h.rgn.suspect, hh, id, fun _ => rfl⟩⟩

theorem marked_noteSuspect (s : State) (p cid co : Nat) : Marked s (s.noteSuspect p cid co) := by
  unfold State.noteSuspect
  split
  · refine ⟨rfl, rfl, rfl, fun a b h hh => ?_⟩
    rw [cohort_modCohort]
    split
    · rw [hh]
      by_cases e : h.rgn.opened = true
      · exact ⟨true, by simp [e], fun _ => rfl, fun k => by rw [e] at k; exact absurd k (by decide)⟩
      · exact ⟨h.rgn.suspect, congrArg some (if_neg e), id, fun _ => rfl⟩
    · exact ⟨h.rgn.suspect, hh, id, fun _ => rfl⟩
  · exact Marked.refl s

theorem Marked.trans {s t u : State} (a : Marked s t) (b : Marked t u) : Marked s u := by
  obtain ⟨a1, a2, a3, a4⟩ := a
  obtain ⟨b1, b2, b3, b4⟩ := b
  refine ⟨b1.trans a1, b2.trans a2, b3.trans a3, fun i j h hh => ?_⟩
  obtain ⟨x, x1, x2, x3⟩ := a4 i j h hh
  obtain ⟨y, y1, y2, y3⟩ := b4 i j _ x1
  exact ⟨y, y1, fun k => y2 (x2 k), fun k => (y3 k).trans (x3 k)⟩

theorem marked_forL {α : Type} (l : List α) (g : α → State → State) (h : ∀ x s, Marked s (g x s)) :
    ∀ s, Marked s (forL l s g) := by
  induction l with
  | nil => exact fun s => Marked.refl s
  | cons a l ih => exact fun s => (h a s).trans (ih _)

/-- A cluster whose clock a squall stretches (R390). -/
def tripped (s : State) (p : Nat) (hard : Bool) (c : Cluster) : Cluster :=
  { c with stretched := true, deep := hard, suspect := true, squalls := c.squalls + 1, clk := s.clock p, clkAt := s.time,
           clkMark := s.clock p }

theorem squallTrip_spec {p : Nat} {hard : Bool} {s : State} (h : (s.cluster p).stretched = false) :
    ∃ t, execSquallTrip p hard s = .next t ∧
      t.cluster p = { s.cluster p with
        stretched := true, deep := hard, suspect := true, squalls := (s.cluster p).squalls + 1, clk := s.clock p,
        clkAt := s.time, clkMark := s.clock p } ∧
      t.mem = s.mem ∧ t.parts = s.parts ∧
      ∀ cid co h, s.cohort? cid co = some h → ∃ b, t.cohort? cid co = some { h with rgn := { h.rgn with suspect := b } } ∧
        (h.rgn.suspect = true → b = true) ∧ (h.rgn.opened = false → b = h.rgn.suspect) := by
  refine ⟨_, rfl, ?_⟩
  simp only [h, Bool.false_eq_true, if_false]
  obtain ⟨h1, h2, h3, h4⟩ := marked_forL
    ((s.modCluster p (tripped s p hard)).openRegions p)
    (fun x t => if (Config.random t.tick).getLsbD x.2.2 then t.noteSuspect p x.1 x.2.1 else t)
    (fun x t => by split; exact marked_noteSuspect ..; exact Marked.refl t)
    (s.modCluster p (tripped s p hard))
  exact ⟨(congrArg (fun m => smGetD m p Cluster.zero) h3).trans (cluster_modCluster_self s p (tripped s p hard)), h1, h2,
    fun cid co g hg => h4 cid co g hg⟩

/-! Patrol scrub and the loss of a zone. -/

theorem patrol_open {ch line : Nat} {s : State} (h1 : s.chRdy.contains ch = true) (h2 : line < 32 * Config.cells) :
    (!s.chRdy.contains ch || decide (32 * Config.cells ≤ line)) = false := by
  rw [h1]
  simp
  omega

theorem patrol_none {ch line n : Nat} {s : State} (h1 : s.chRdy.contains ch = true) (h2 : line < 32 * Config.cells) :
    execPatrolScrub ch line [] n s = .next (s.modSlice ch fun x => { x with corrected := x.corrected + n }) := by
  simp only [execPatrolScrub, patrol_open h1 h2, Bool.false_eq_true, if_false]
  rfl

theorem patrol_one {ch line n w : Nat} {s : State} (h1 : s.chRdy.contains ch = true) (h2 : line < 32 * Config.cells)
    (h3 : w < 16) (h4 : (dramAddr ch (128 * line) / 8 + w) ∉ s.memPz) (h5 : (s.cell (cellNo ch (line / 32))).1 = 1) :
    execPatrolScrub ch line [w] n s = .next (({ s.modSlice ch fun x => { x with corrected := x.corrected + n } with
      memPz := nsAdd (dramAddr ch (128 * line) / 8 + w) s.memPz }).postInfo (s.cell (cellNo ch (line / 32))).2 cMemoryUncorrected
        (BitVec.ofNat 64 (128 * (line % 32))) (ch * 2 ^ 32 + line / 32)) := by
  have e : (decide (16 ≤ w) || (s.modSlice ch fun x => { x with corrected := x.corrected + n }).memPz.contains
      (dramAddr ch (128 * line) / 8 + w)) = false := by
    rw [Bool.or_eq_false_iff]
    refine ⟨by simp; omega, ?_⟩
    rw [← Bool.not_eq_true, List.contains_iff_mem]
    exact h4
  simp only [execPatrolScrub, patrol_open h1 h2, Bool.false_eq_true, if_false, forL_cons, h5, if_true]
  rw [if_neg (by rw [e]; decide)]
  rfl

theorem patrol_free {ch line n : Nat} {s : State} {bad : List Nat} (h1 : s.chRdy.contains ch = true)
    (h2 : line < 32 * Config.cells) (h3 : (s.cell (cellNo ch (line / 32))).1 ≠ 1) :
    ∃ t, execPatrolScrub ch line bad n s = .next t ∧ t.crews = s.crews ∧ t.mem = s.mem ∧ t.parts = s.parts ∧
      ∀ w ∈ bad, w < 16 → (dramAddr ch (128 * line) / 8 + w) ∈ t.memPz := by
  refine ⟨_, rfl, ?_⟩
  simp only [patrol_open h1 h2, Bool.false_eq_true, if_false, if_neg h3]
  have key : ∀ (l : List Nat) (u : State), ∀ v, v = forL l u (fun w s => if 16 ≤ w || s.memPz.contains (dramAddr ch (128 * line) / 8 + w)
      then s else { s with memPz := nsAdd (dramAddr ch (128 * line) / 8 + w) s.memPz }) →
      v.crews = u.crews ∧ v.mem = u.mem ∧ v.parts = u.parts ∧ (∀ w ∈ l, w < 16 → (dramAddr ch (128 * line) / 8 + w) ∈ v.memPz) ∧
      ∀ x ∈ u.memPz, x ∈ v.memPz := by
    intro l
    induction l with
    | nil => rintro u v rfl; exact ⟨rfl, rfl, rfl, by simp, fun x hx => hx⟩
    | cons a l ih =>
      rintro u v rfl
      rw [forL_cons]
      by_cases c : (decide (16 ≤ a) || u.memPz.contains (dramAddr ch (128 * line) / 8 + a)) = true
      · obtain ⟨i1, i2, i3, i4, i5⟩ := ih u _ rfl
        simp only [if_pos c]
        refine ⟨i1, i2, i3, fun w hw h16 => ?_, i5⟩
        rcases List.mem_cons.mp hw with rfl | hw
        · rw [Bool.or_eq_true] at c
          rcases c with c | c
          · exact absurd (of_decide_eq_true c) (by omega)
          · exact i5 _ (List.contains_iff_mem.mp c)
        · exact i4 w hw h16
      · obtain ⟨i1, i2, i3, i4, i5⟩ := ih { u with memPz := nsAdd (dramAddr ch (128 * line) / 8 + a) u.memPz } _ rfl
        simp only [if_neg c]
        refine ⟨i1, i2, i3, fun w hw h16 => ?_, fun x hx => i5 x ((mem_nsAdd _ _ _).mpr (.inr hx))⟩
        rcases List.mem_cons.mp hw with rfl | hw
        · exact i5 _ ((mem_nsAdd _ _ _).mpr (.inl rfl))
        · exact i4 w hw h16
  obtain ⟨i1, i2, i3, i4, _⟩ := key bad (s.modSlice ch fun x => { x with corrected := x.corrected + n }) _ rfl
  exact ⟨i1, i2, i3, i4⟩

theorem zeroCluster_maps (s : State) (p : Nat) : (s.zeroCluster p).zoneBad = s.zoneBad ∧ (s.zeroCluster p).clRdy = s.clRdy := by
  unfold State.zeroCluster State.fullRates
  split <;> exact ⟨rfl, rfl⟩

theorem zoned_forL (l : List Nat) : ∀ s : State, (forL l s fun p s => if (smGet s.clusters p).isSome then s.zeroCluster p else s).zoneBad = s.zoneBad ∧
    (forL l s fun p s => if (smGet s.clusters p).isSome then s.zeroCluster p else s).clRdy = s.clRdy := by
  induction l with
  | nil => exact fun s => ⟨rfl, rfl⟩
  | cons a l ih =>
    intro s
    rw [forL_cons, (ih _).1, (ih _).2]
    split
    · exact zeroCluster_maps s a
    · exact ⟨rfl, rfl⟩

theorem darken_zoneBad (s : State) (z : Nat) : (s.darken z).zoneBad = nsAdd z s.zoneBad := (zoned_forL _ _).1

theorem darken_clRdy (s : State) (z : Nat) :
    (s.darken z).clRdy = s.clRdy.filter fun p => !decide (clusterZone p = some z) := (zoned_forL _ _).2

theorem zoneLost_empty {z : Nat} {s : State} (h1 : z < 64) (h2 : s.zoneBad.contains z = false) (h3 : s.zoneCrews z = [])
    (h4 : (s.parts.filter fun x => x.2.res.clusters.any fun p => decide (clusterZone p = some z)) = [])
    (h5 : (zoneClusters z).filterMap (fun p => (s.ownerOf p).map fun t => (t, p, (s.cluster p).queue)) = []) :
    execZoneLost z s = .next (s.darken z) ∧ z ∈ (s.darken z).zoneBad ∧
      ∀ p ∈ (s.darken z).clRdy, clusterZone p ≠ some z := by
  refine ⟨?_, ?_, ?_⟩
  · have e : (decide (64 ≤ z) || s.zoneBad.contains z) = false := by rw [h2]; simp; omega
    simp only [execZoneLost, e, Bool.false_eq_true, if_false, h4, List.map_nil]
    simp only [h3, h5, forL, List.foldl_nil]
  · rw [darken_zoneBad, mem_nsAdd]
    exact .inl rfl
  · rw [darken_clRdy]
    intro p hp
    have := (List.mem_filter.mp hp).2
    simpa using this

/-- A cluster whose zeroing has ended stays out of the ready map (R402). -/
def State.stillOut (s : State) (p : Nat) : Bool :=
  s.failed.contains (.cl, p) || s.fenced.contains (clusterSite p) ||
    (match clusterZone p with | some z => s.zoneBad.contains z | none => false)

theorem zeroingDone_spec {p : Nat} {s : State} (h : (s.cluster p).zeroing = true) :
    ∃ t, execZeroingDone p s = .next t ∧ (t.cluster p) = { s.cluster p with zeroing := false } ∧ t.mem = s.mem ∧
      t.crews = s.crews ∧
      (s.failed.contains (.cl, p) = true ∨ s.fenced.contains (clusterSite p) = true → t.clRdy = s.clRdy) ∧
      (s.failed.contains (.cl, p) = false → s.fenced.contains (clusterSite p) = false → s.zoneBad = [] →
        t.clRdy = nsAdd p s.clRdy) := by
  have e : execZeroingDone p s = .next (if s.stillOut p then s.modCluster p fun c => { c with zeroing := false }
      else { s.modCluster p fun c => { c with zeroing := false } with clRdy := nsAdd p s.clRdy }) := by
    simp only [execZeroingDone, h, if_true]
    rfl
  cases hb : s.stillOut p with
  | true =>
    rw [hb, if_pos rfl] at e
    refine ⟨_, e, cluster_modCluster_self .., rfl, rfl, fun _ => rfl, fun h1 h2 h3 => ?_⟩
    exfalso
    unfold State.stillOut at hb
    rw [h1, h2, h3] at hb
    split at hb <;> simp at hb
  | false =>
    rw [hb, if_neg (by decide)] at e
    refine ⟨_, e, cluster_modCluster_self s p fun c => { c with zeroing := false }, rfl, rfl, fun h1 => ?_, fun _ _ _ => rfl⟩
    exfalso
    unfold State.stillOut at hb
    rcases h1 with h1 | h1 <;> rw [h1] at hb <;> simp at hb

end Sys2Proof.Machine
end

