-- ==== Sys2Proof/Laws/Loads.lean ====
section
/-!
SUPPORT. Sys2Proof/Laws/Loads.lean: what loads, stores and atomics give and do.
-/

namespace Sys2Proof.Machine

theorem map_zipIdx_getD (kept : List (Option Byte)) (n : Nat) :
    (kept.zipIdx n).map (fun b => b.1.getD (([] : List Byte).getD b.2 0)) = kept.map fun y => y.getD 0 := by
  induction kept generalizing n with
  | nil => rfl
  | cons y r ih =>
    rw [List.zipIdx_cons, List.map_cons, List.map_cons, ih]
    rfl

/-- A load whose bytes are all in the buffer needs none from memory. -/
theorem loadValue_full {sx : Bool} {kept : List (Option Byte)} (_ : kept.all Option.isSome = true) :
    loadValue sx kept [] (fun _ => false) = { val := loadWords sx (kept.map fun y => y.getD 0), p := false } := by
  unfold loadValue
  have hb : (kept.zipIdx.any fun b => b.1.isNone && (fun _ => false) b.2) = false := by simp
  simp only [hb, map_zipIdx_getD]
  rfl

theorem bufferByte_append (l : List RStore) (y : RStore) (stash : Bool) (a : Nat) :
    bufferByte (l ++ [y]) stash a =
      if y.stash = stash ∧ y.addr.toNat ≤ a ∧ a < y.addr.toNat + y.data.length then some (y.data.getD (a - y.addr.toNat) 0)
      else bufferByte l stash a := by
  unfold bufferByte
  rw [List.foldl_append]
  simp only [List.foldl_cons, List.foldl_nil, Bool.and_eq_true, decide_eq_true_eq, and_assoc]
  split
  · rename_i h
    rw [List.getD_eq_getElem?_getD, List.getElem?_eq_getElem (by omega)]
    rfl
  · rfl

theorem storeSlot_nil (x : Slot) (stash : Bool) (addr : Fin 32 → W64) (n : Nat) (s : State) :
    storeSlot x [] stash addr n s = match s.buffer x (slotStores x.f x stash addr n) with
      | .error s => s
      | .ok s => finishSlot x [] .none s := by
  unfold storeSlot
  rw [done_nil]
  rfl

theorem storeSlot_ok {x : Slot} {stash : Bool} {addr : Fin 32 → W64} {n : Nat} {s e : State}
    (h : s.buffer x (slotStores x.f x stash addr n) = .ok e) : storeSlot x [] stash addr n s = finishSlot x [] .none e := by
  rw [storeSlot_nil, h]

theorem storeSlot_error {x : Slot} {stash : Bool} {addr : Fin 32 → W64} {n : Nat} {s e : State}
    (h : s.buffer x (slotStores x.f x stash addr n) = .error e) : storeSlot x [] stash addr n s = e := by
  rw [storeSlot_nil, h]

@[simp] theorem live_bankAtomic (x : Slot) (id lane phys : Nat) (op : ReqOp) (s : State) (i j : Nat) :
    live (bankAtomic x id lane phys op s).crews i j = live s.crews i j := by
  unfold bankAtomic
  simp only
  split
  · exact (live_resultLane ..).trans (live_atomStash ..)
  · exact live_waitLine ..

theorem live_maintStep (x : Slot) (op : Maint) (id : Nat) (k : Fin 32) (y : State × List (Nat × TrapRec) × BitVec 32) (i j : Nat) :
    live (maintStep x op id k y).1.crews i j = live y.1.crews i j := by
  unfold maintStep
  simp only
  split
  · rfl
  · simp

theorem maint_live {s e : State} {x : Slot} {op : Maint} {id : Nat} {p : Pend} {l : List (Nat × TrapRec)} {m : BitVec 32}
    {g : Pend → Pend} {i j : Nat}
    (h : forL (lanesOf x.ex) (s.addPend p, [], 0) (maintStep x op id) = (e, l, m)) :
    live (e.modPend id g).crews i j = live s.crews i j := by
  rw [live_modPend]
  have := live_forL_fst (lanesOf x.ex) (s.addPend p, ([] : List (Nat × TrapRec)), (0 : BitVec 32)) (maintStep x op id) i j
    fun k y => live_maintStep x op id k y i j
  rw [h] at this
  exact this

theorem live_redStep (x : Slot) (va : Fin 32 → W64) (k : Fin 32) (y : State × Bool × BitVec 32) (i j : Nat) :
    live (redStep x va k y).1.crews i j = live y.1.crews i j := live_redLane ..

theorem red_live {s e : State} {x : Slot} {va : Fin 32 → W64} {c : Bool} {m : BitVec 32} {i j : Nat}
    (h : forL (lanesOf x.ex) (s.regionHere x, false, 0) (redStep x va) = (e, c, m)) :
    live e.crews i j = live s.crews i j := by
  have := live_forL_fst (lanesOf x.ex) (s.regionHere x, false, (0 : BitVec 32)) (redStep x va) i j
    fun k y => live_redStep x va k y i j
  rw [h] at this
  exact this.trans (live_regionHere ..)

end Sys2Proof.Machine
end

