-- ==== Sys2Proof/Laws/Mapping.lean ====
section
/-!
SUPPORT. Sys2Proof/Laws/Mapping.lean: the mapping commands (R72): a command that fails or has its effect, the cells that
ACQUIRE and RELEASE change, and the bits that PROTECT writes.
-/

namespace Sys2Proof.Machine

theorem mapping_some {part : Nat} {m : MapCmd} {s : State} (h : (smGet s.parts part).isSome = true) {r : Option State} :
    s.mapping part m r = match r with
      | some t => t.mapDone part m 0
      | none => s.mapDone part m (failCode m.size.toNat) := by
  unfold State.mapping
  have hn : ¬(smGet s.parts part).isNone = true := by cases e : smGet s.parts part <;> simp_all
  simp only [hn]
  rfl

theorem mapping_none' {part : Nat} {m : MapCmd} {s : State} (h : (smGet s.parts part).isSome = true) {r : Option State}
    (e : r = none) : s.mapping part m r = s.mapDone part m (failCode m.size.toNat) := by
  rw [mapping_some h, e]

theorem mapping_some' {part : Nat} {m : MapCmd} {s u : State} (h : (smGet s.parts part).isSome = true) {r : Option State}
    (e : r = some u) : s.mapping part m r = u.mapDone part m 0 := by
  rw [mapping_some h, e]

/-- The state that the runs of cells give a cell. -/
def runOf (l : SMap (Nat × Nat × Nat)) (d : Nat) : Option Nat := (l.find? fun x => inRun x d).map fun x => x.2.2.1

theorem runOf_cons (x : Nat × Nat × Nat × Nat) (l : SMap (Nat × Nat × Nat)) (d : Nat) :
    runOf (x :: l) d = if inRun x d = true then some x.2.2.1 else runOf l d := by
  unfold runOf
  rw [List.find?_cons]
  cases inRun x d <;> rfl

theorem runOf_append (l m : SMap (Nat × Nat × Nat)) (d : Nat) : runOf (l ++ m) d = (runOf l d).or (runOf m d) := by
  unfold runOf
  rw [List.find?_append]
  cases l.find? fun x => inRun x d <;> rfl

/-- What is left of a run without a cell covers what it covered, but for the cell. -/
theorem runOf_cut {a n c d : Nat} (y : Nat × Nat) (h : d ≠ c) (hc : inRun (a, n, y) c = true) :
    runOf (([(a, c - a, y), (c + 1, a + n - (c + 1), y)] : List (Nat × Nat × Nat × Nat)).filter fun z => decide (z.2.1 ≠ 0)) d =
      if inRun (a, n, y) d = true then some y.1 else none := by
  simp only [inRun, Bool.and_eq_true, decide_eq_true_eq] at hc ⊢
  have e1 : decide (c - a ≠ 0) = true ↔ a < c := by simp; omega
  have e2 : decide (a + n - (c + 1) ≠ 0) = true ↔ c + 1 < a + n := by simp; omega
  rw [List.filter_cons, List.filter_cons, List.filter_nil]
  simp only [e1, e2]
  by_cases k1 : a < c <;> by_cases k2 : c + 1 < a + n <;>
    simp only [k1, k2, if_true, if_false, runOf_cons, inRun, Bool.and_eq_true, decide_eq_true_eq] <;>
    split_ifs <;> first | rfl | (exfalso; omega)

theorem runOf_cutRuns {c d : Nat} (h : d ≠ c) (l : SMap (Nat × Nat × Nat)) : runOf (cutRuns c l) d = runOf l d := by
  induction l with
  | nil => rfl
  | cons x l ih =>
    have e : cutRuns c (x :: l) = (if inRun x c then
      ([(x.1, c - x.1, x.2.2), (c + 1, x.1 + x.2.1 - (c + 1), x.2.2)] : List (Nat × Nat × Nat × Nat)).filter fun y => decide (y.2.1 ≠ 0)
      else [x]) ++ cutRuns c l := List.flatMap_cons
    rw [e, runOf_append, ih, runOf_cons]
    by_cases hc : inRun x c = true
    · rw [if_pos hc, runOf_cut x.2.2 h hc]
      show (if inRun x d = true then some x.2.2.1 else none).or (runOf l d) = _
      split <;> rfl
    · rw [if_neg hc, runOf_cons]
      split <;> rfl

theorem cell_eq (s : State) (d : Nat) :
    s.cell d = ((smGet s.own d).or ((runOf s.areas d).map fun n => (n, 0))).getD (0, 0) := by
  unfold State.cell runOf
  cases smGet s.own d <;> cases s.areas.find? fun x => inRun x d <;> rfl

theorem cell_setCell (s : State) (c st tag d : Nat) (hs : st ≠ 0) :
    (s.setCell c st tag).cell d = if d = c then (st, tag) else s.cell d := by
  have e : (s.setCell c st tag).own = smSet s.own c (st, tag) := by
    show smSetD (0, 0) s.own c (st, tag) = _
    unfold smSetD
    rw [if_neg fun e => hs (Prod.mk.inj e).1]
  rw [cell_eq, cell_eq, e]
  by_cases h : d = c
  · subst h
    rw [if_pos rfl, smGet_smSet_self]
    rfl
  · rw [if_neg h, smGet_smSet_ne _ _ h]
    show ((smGet s.own d).or ((runOf (cutRuns c s.areas) d).map fun n => (n, 0))).getD (0, 0) = _
    rw [runOf_cutRuns h]

/-- Only the ownership table differs. -/
def OwnOnly (s t : State) : Prop := ∃ o a, t = { s with own := o, areas := a }

theorem acquireCells (part : Nat) (l : List Nat) : ∀ s : State, OwnOnly s (forL l s fun c s => s.setCell c 1 part) ∧
    ∀ d, (forL l s fun c s => s.setCell c 1 part).cell d = if d ∈ l then (1, part) else s.cell d := by
  induction l with
  | nil => exact fun s => ⟨⟨s.own, s.areas, rfl⟩, fun d => by simp [forL]⟩
  | cons a l ih =>
    intro s
    rw [forL_cons]
    obtain ⟨⟨o, r, h1⟩, h2⟩ := ih (s.setCell a 1 part)
    refine ⟨⟨o, r, by rw [h1]; rfl⟩, fun d => ?_⟩
    rw [h2 d, cell_setCell _ _ _ _ _ (by decide)]
    by_cases h : d = a <;> by_cases k : d ∈ l <;> simp [h, k]

theorem releaseCells (part : Nat) (l : List Nat) : ∀ s : State,
    OwnOnly s (forL l s fun c s => if s.owned c part then s.setCell c 2 0 else s) ∧
    ∀ d, (forL l s fun c s => if s.owned c part then s.setCell c 2 0 else s).cell d =
      if d ∈ l ∧ s.owned d part = true then (2, 0) else s.cell d := by
  induction l with
  | nil => exact fun s => ⟨⟨s.own, s.areas, rfl⟩, fun d => by simp [forL]⟩
  | cons a l ih =>
    intro s
    rw [forL_cons]
    by_cases ha : s.owned a part = true
    · rw [if_pos ha]
      obtain ⟨⟨o, r, h1⟩, h2⟩ := ih (s.setCell a 2 0)
      refine ⟨⟨o, r, by rw [h1]; rfl⟩, fun d => ?_⟩
      rw [h2 d]
      have e : (s.setCell a 2 0).owned d part = (decide (d ≠ a) && s.owned d part) := by
        unfold State.owned
        rw [cell_setCell _ _ _ _ _ (by decide)]
        by_cases h : d = a <;> simp [h]
      rw [e, cell_setCell _ _ _ _ _ (by decide)]
      by_cases h : d = a
      · subst h; simp [ha]
      · simp [h]
    · rw [if_neg ha]
      obtain ⟨h1, h2⟩ := ih s
      refine ⟨h1, fun d => ?_⟩
      rw [h2 d]
      by_cases h : d = a
      · subst h; simp [ha]
      · simp [h]

theorem acquire_spec {part : Nat} {m : MapCmd} {s : State} (h : (smGet s.parts part).isSome = true) :
    ((Config.cells < m.frame.toNat + m.count.toNat ∨ ∃ c ∈ s.frameCells part m.frame.toNat m.count.toNat, (s.cell c).1 = 1) →
      execAcquire part m s = .next (s.mapDone part m (failCode m.size.toNat))) ∧
    (m.frame.toNat + m.count.toNat ≤ Config.cells →
      (∀ c ∈ s.frameCells part m.frame.toNat m.count.toNat, (s.cell c).1 ≠ 1) →
      ((∃ c ∈ s.frameCells part m.frame.toNat m.count.toNat, 2 ≤ (s.cell c).1) →
        execAcquire part m s = .next { s with acqWait := s.acqWait ++ [(part, m)] }) ∧
      ((∀ c ∈ s.frameCells part m.frame.toNat m.count.toNat, (s.cell c).1 < 2) →
        ∃ u : State, execAcquire part m s = .next (u.mapDone part m 0) ∧ u.mem = s.mem ∧ u.crews = s.crews ∧ u.parts = s.parts ∧
          ∀ c, u.cell c = if c ∈ s.frameCells part m.frame.toNat m.count.toNat then (1, part) else s.cell c)) := by
  have e0 : execAcquire part m s = .next (s.acquireNow part m) := by
    unfold execAcquire
    rw [if_neg (by cases e : smGet s.parts part <;> simp_all)]
  rw [e0]
  unfold State.acquireNow
  refine ⟨fun h2 => ?_, fun h2 h3 => ⟨fun h4 => ?_, fun h4 => ?_⟩⟩
  · dsimp only
    rw [if_pos, mapping_none' h rfl]
    rcases h2 with h2 | ⟨c, h2, h3⟩
    · simp [h2]
    · rw [Bool.or_eq_true]
      exact .inr (List.any_eq_true.mpr ⟨c, h2, decide_eq_true h3⟩)
  · dsimp only
    have a : ((s.frameCells part m.frame.toNat m.count.toNat).any fun c => decide ((s.cell c).1 = 1)) = false := by
      rw [List.any_eq_false]
      exact fun c hc k => h3 c hc (of_decide_eq_true k)
    rw [if_neg (by rw [a]; simp; omega), if_pos]
    obtain ⟨c, h5, h6⟩ := h4
    exact List.any_eq_true.mpr ⟨c, h5, decide_eq_true h6⟩
  · dsimp only
    have a : ((s.frameCells part m.frame.toNat m.count.toNat).any fun c => decide ((s.cell c).1 = 1)) = false := by
      rw [List.any_eq_false]
      exact fun c hc k => h3 c hc (of_decide_eq_true k)
    have b : ((s.frameCells part m.frame.toNat m.count.toNat).any fun c => decide (2 ≤ (s.cell c).1)) = false := by
      rw [List.any_eq_false]
      exact fun c hc k => absurd (of_decide_eq_true k) (by have := h4 c hc; omega)
    rw [if_neg (by rw [a]; simp; omega), if_neg (by rw [b]; decide), mapping_some' h rfl]
    obtain ⟨⟨o, r, e⟩, k⟩ := acquireCells part (s.frameCells part m.frame.toNat m.count.toNat) s
    exact ⟨_, rfl, by rw [e], by rw [e], by rw [e], k⟩

theorem release_spec {part : Nat} {m : MapCmd} {s : State} (h : (smGet s.parts part).isSome = true) :
    (s.stillMapped part m.frame.toNat m.count.toNat = true →
      execRelease part m s = .next (s.mapDone part m (failCode m.size.toNat))) ∧
    (s.stillMapped part m.frame.toNat m.count.toNat = false →
      ∃ u : State, execRelease part m s = .next (u.mapDone part m 0) ∧ u.mem = s.mem ∧ u.crews = s.crews ∧ u.parts = s.parts ∧
        ∀ c, u.cell c = if c ∈ s.frameCells part m.frame.toNat m.count.toNat ∧ s.owned c part = true then (2, 0) else s.cell c) := by
  unfold execRelease
  refine ⟨fun h2 => ?_, fun h2 => ?_⟩
  · rw [mapping_none' h (by rw [if_pos h2])]
  · rw [if_neg (by rw [h2]; decide), mapping_some' h rfl]
    obtain ⟨⟨o, r, e⟩, k⟩ := releaseCells part (s.frameCells part m.frame.toNat m.count.toNat) s
    exact ⟨_, rfl, by rw [e], by rw [e], by rw [e], k⟩

theorem mask_or (e m c : W64) (h : c &&& m = 0#64) : (e &&& m ||| c) &&& m = e &&& m := by
  refine BitVec.eq_of_getLsbD_eq fun i hi => ?_
  have k : (c &&& m).getLsbD i = false := by rw [h]; exact BitVec.getLsbD_zero
  rw [BitVec.getLsbD_and] at k
  rw [BitVec.getLsbD_and, BitVec.getLsbD_or, BitVec.getLsbD_and]
  revert k
  generalize e.getLsbD i = a
  generalize m.getLsbD i = b
  generalize c.getLsbD i = d
  revert a b d
  decide

theorem leafWith_spec (w x al : Bool) (e : W64) : (leafWith e w x al).getLsbD 2 = w ∧ (leafWith e w x al).getLsbD 3 = x ∧
    (leafWith e w x al).getLsbD 4 = al ∧ (leafWith e w x al) &&& ~~~(0x1C#64) = e &&& ~~~(0x1C#64) := by
  unfold leafWith
  refine ⟨?_, ?_, ?_, ?_⟩
  · cases w <;> cases x <;> cases al <;> simp
  · cases w <;> cases x <;> cases al <;> simp
  · cases w <;> cases x <;> cases al <;> simp
  · exact mask_or _ _ _ (by cases w <;> cases x <;> cases al <;> decide)

end Sys2Proof.Machine
end

