-- ==== Sys2Proof/Laws/Mesh.lean ====
section
/-!
SUPPORT. Sys2Proof/Laws/Mesh.lean: a cycle of a router (R96), the placing of a flit, a request performed on its line (R87),
the end of a walk (R71), and
steps of the copy engine and the mandrel (R117, R217).
-/

namespace Sys2Proof.Machine

/-! Routers. -/

/-- Only routers and requests differ, and no router's cycle does. -/
def MeshOnly (s t : State) : Prop :=
  (∃ a b, t = { s with routers := a, reqs := b }) ∧
    ∀ k, (smGetD t.routers k Router.reset).cyc = (smGetD s.routers k Router.reset).cyc

theorem MeshOnly.refl (s : State) : MeshOnly s s := ⟨⟨s.routers, s.reqs, rfl⟩, fun _ => rfl⟩

theorem MeshOnly.trans {s t u : State} (a : MeshOnly s t) (b : MeshOnly t u) : MeshOnly s u := by
  obtain ⟨⟨a1, a2, ha⟩, hc⟩ := a
  obtain ⟨⟨b1, b2, hb⟩, hd⟩ := b
  exact ⟨⟨b1, b2, by rw [hb, ha]⟩, fun k => (hd k).trans (hc k)⟩

theorem cyc_modRouter (s : State) (plane site : Nat) (f : Router → Router) (k : Nat) :
    (smGetD (s.modRouter plane site f).routers k Router.reset) =
      if k = 4096 * plane + site then f (smGetD s.routers k Router.reset) else smGetD s.routers k Router.reset := by
  unfold State.modRouter
  by_cases h : k = 4096 * plane + site
  · subst h; rw [if_pos rfl]; exact smGetD_smSet_self ..
  · rw [if_neg h]; exact smGetD_smSet_ne _ _ _ h

theorem meshOnly_modRouter (s : State) (plane site : Nat) (f : Router → Router) (h : ∀ q, (f q).cyc = q.cyc) :
    MeshOnly s (s.modRouter plane site f) := by
  refine ⟨⟨_, s.reqs, rfl⟩, fun k => ?_⟩
  rw [cyc_modRouter]
  split
  · exact h _
  · rfl

theorem meshOnly_forL {α : Type} (l : List α) (g : α → State → State) (h : ∀ x s, MeshOnly s (g x s)) :
    ∀ s, MeshOnly s (forL l s g) := by
  induction l with
  | nil => exact fun s => MeshOnly.refl s
  | cons a l ih => exact fun s => (h a s).trans (ih _)

theorem meshOnly_ite {c : Prop} [Decidable c] {s t u : State} (h : MeshOnly s t) (k : MeshOnly s u) : MeshOnly s (if c then t else u) := by
  split
  · exact h
  · exact k

theorem meshOnly_nextFlit {s t : State} {plane home site cyc : Nat} {f : Flit} (h : s.nextFlit plane home site cyc = some (f, t)) :
    MeshOnly s t := by
  unfold State.nextFlit at h
  dsimp only at h
  split at h
  · exact absurd h (by simp)
  · split at h
    · exact absurd h (by simp)
    · generalize (if plane = 0 then _ else _ : Option Nat) = o at h
      cases o with
      | none => exact absurd h (by simp)
      | some n =>
        simp only [Option.some.injEq, Prod.mk.injEq] at h
        rw [← h.2]
        exact MeshOnly.trans (t := { s with reqs := _ }) ⟨⟨s.routers, _, rfl⟩, fun _ => rfl⟩ (meshOnly_modRouter _ _ _ _ fun _ => rfl)

theorem route_stays {plane site : Nat} {bad : List Nat} {s : State}
    (h : 3 ≤ plane ∨ 4096 ≤ site ∨ s.fencedRtr.contains site = true ∨
      (∃ x ∈ s.ports site, (smGetD s.routers (4096 * plane + x.2) Router.reset).cyc <
        (smGetD s.routers (4096 * plane + site) Router.reset).cyc)) :
    execRouteFlits plane site bad s = .next s := by
  unfold execRouteFlits
  dsimp only
  rw [if_pos]
  rcases h with h | h | h | ⟨x, h1, h2⟩
  · simp [h]
  · simp [h]
  · simp only [h, Bool.or_true, Bool.true_or]
  · rw [Bool.or_eq_true]
    exact .inr (List.any_eq_true.mpr ⟨x, h1, decide_eq_true h2⟩)

theorem meshOnly_putFlit (s : State) (plane site cyc : Nat) (y : Nat × Flit) : MeshOnly s (s.putFlit plane site cyc y) :=
  have a := meshOnly_modRouter s plane y.1 (fun q => { q with inbox := q.inbox ++ [y.2.hop cyc] }) fun _ => rfl
  meshOnly_ite a (a.trans (meshOnly_modRouter _ plane site
    (fun q => { q with deflected := q.deflected ++ [(y.2.tag.toNat, y.2.src.toNat)] }) fun _ => rfl))

theorem meshOnly_dropHeads (s : State) (home site : Nat) : MeshOnly s (s.dropHeads home site) := by
  refine meshOnly_modRouter _ _ _ _ fun q => ?_
  split
  · rfl
  · split <;> rfl

theorem meshOnly_grantReply (s : State) (site : Nat) : MeshOnly s (s.grantReply site) := by
  refine meshOnly_modRouter _ _ _ _ fun q => ?_
  dsimp only
  split <;> rfl

theorem meshOnly_calmQueue (s : State) (plane site : Nat) : MeshOnly s (s.calmQueue plane site) :=
  meshOnly_forL _ _ (fun n s => meshOnly_modRouter s n site (fun q => { q with waited := 0, asked := false }) fun _ => rfl) s

theorem meshOnly_injectNow (s : State) (plane site cyc : Nat) (cl : Bool) (free : List (Nat × Nat)) :
    MeshOnly s (s.injectNow plane site cyc cl free) := by
  unfold State.injectNow
  split
  · exact MeshOnly.refl s
  · next f t h =>
    refine (meshOnly_ite (meshOnly_grantReply s site) (MeshOnly.refl s)).trans ((meshOnly_nextFlit h).trans ?_)
    refine (meshOnly_calmQueue t plane site).trans ?_
    dsimp only
    generalize t.calmQueue plane site = t
    have a : MeshOnly t (if cl then t.modRouter 0 site fun q => { q with tokens := q.tokens - 1024 } else t) :=
      meshOnly_ite (meshOnly_modRouter _ _ _ _ fun q => rfl) (MeshOnly.refl t)
    refine a.trans ?_
    generalize (if cl = true then t.modRouter 0 site fun q => { q with tokens := q.tokens - 1024 } else t) = u
    split
    · exact meshOnly_modRouter _ _ _ _ fun q => rfl
    · split
      · exact meshOnly_putFlit ..
      · exact MeshOnly.refl u

theorem meshOnly_inject (s : State) (plane site cyc : Nat) (free : List (Nat × Nat)) :
    MeshOnly s (s.inject plane site cyc free) := by
  unfold State.inject
  dsimp only
  have a : ∀ u : State, MeshOnly s u → ∀ (b : Bool) (n : Nat), MeshOnly s (if b = true then
      u.modRouter 0 site fun q => { q with tokens := min 16384 (q.tokens + n) } else u) := fun u h b n =>
    h.trans (meshOnly_ite (meshOnly_modRouter _ _ _ _ fun q => rfl) (MeshOnly.refl u))
  have b := a _ (meshOnly_dropHeads s (replyHome plane) site) (plane = 0 && !isSliceSite site)
    ((s.dropHeads (replyHome plane) site).cluster (clusterAt site)).g.f
  exact meshOnly_ite b (meshOnly_ite (meshOnly_ite b (b.trans (meshOnly_modRouter _ _ _ _ fun _ => rfl)))
    (b.trans (meshOnly_injectNow ..)))

theorem mem_insertFlit (f g : Flit) (l : List Flit) : g ∈ insertFlit f l ↔ g = f ∨ g ∈ l := by
  induction l with
  | nil => simp [insertFlit]
  | cons a l ih =>
    unfold insertFlit
    split
    · simp
    · simp only [List.mem_cons, ih]
      tauto

theorem mem_sortFlits (l : List Flit) (g : Flit) : g ∈ sortFlits l ↔ g ∈ l := by
  induction l with
  | nil => simp [sortFlits]
  | cons a l ih =>
    show g ∈ insertFlit a (sortFlits l) ↔ _
    rw [mem_insertFlit, ih, List.mem_cons]

theorem route_cycle {plane site : Nat} {bad : List Nat} {s : State} (h1 : plane < 3) (h2 : site < 4096)
    (h3 : s.fencedRtr.contains site = false)
    (h4 : ∀ x ∈ s.ports site, (smGetD s.routers (4096 * plane + site) Router.reset).cyc ≤
      (smGetD s.routers (4096 * plane + x.2) Router.reset).cyc) (h5 : bad = [])
    (h6 : ∀ f ∈ (smGetD s.routers (4096 * plane + site) Router.reset).inbox, f.cls.toNat < 6) :
    ∃ t, execRouteFlits plane site bad s = .next t ∧ t.mem = s.mem ∧ t.crews = s.crews ∧ t.parts = s.parts ∧
      t.slices = s.slices ∧ t.clusters = s.clusters ∧
      ∀ k, (smGetD t.routers k Router.reset).cyc =
        if k = 4096 * plane + site then (smGetD s.routers (4096 * plane + site) Router.reset).cyc + 1
        else (smGetD s.routers k Router.reset).cyc := by
  have hany : (s.ports site).any (fun x => decide ((s.router plane x.2).cyc < (s.router plane site).cyc)) = false := by
    rw [List.any_eq_false]
    exact fun x hx k => absurd (of_decide_eq_true k) (Nat.not_lt.mpr (h4 x hx))
  have key : ∃ t, execRouteFlits plane site bad s = .next t ∧ ∃ g : Router → Router,
      (∀ q, (g q).cyc = (s.router plane site).cyc + 1) ∧ MeshOnly (s.modRouter plane site g) t := by
    unfold execRouteFlits
    dsimp only
    rw [if_neg (by rw [h3, hany]; simp [h1, h2])]
    subst h5
    have e : (sortFlits ((s.router plane site).inbox.filter fun f => decide (f.at' ≤ (s.router plane site).cyc))).zipIdx.filter
        (fun x => ([] : List Nat).contains x.2 || decide (6 ≤ x.1.cls.toNat)) = [] := by
      rw [List.filter_eq_nil_iff]
      intro x hx
      have hm := (List.mem_filter.1 ((mem_sortFlits _ _).1 (List.fst_mem_of_mem_zipIdx hx))).1
      have := h6 x.1 hm
      simp
      omega
    rw [e]
    exact ⟨_, rfl, _, fun q => rfl, (meshOnly_forL _ _ (fun y s => meshOnly_putFlit ..) _).trans (meshOnly_inject ..)⟩
  obtain ⟨t, a, g, b, ⟨⟨x, y, c⟩, d⟩⟩ := key
  refine ⟨t, a, by rw [c]; rfl, by rw [c]; rfl, by rw [c]; rfl, by rw [c]; rfl, by rw [c]; rfl, fun k => ?_⟩
  rw [d k, cyc_modRouter]
  split
  · exact b _
  · rfl

theorem find_spec {α : Type} {l : List α} {p : α → Bool} {y : α} (h : l.find? p = some y) : y ∈ l ∧ p y = true :=
  ⟨List.mem_of_find?_eq_some h, List.find?_some h⟩

theorem placeFlit_spec (s : State) (site : Nat) (f : Flit) (x : Placing) :
    ((f.dest.toNat = site ∧ x.open' = true) → s.placeFlit site f x = { x with open' := false, eject := x.eject ++ [f] }) ∧
    ((f.dest.toNat ≠ site ∨ x.open' = false) → (s.placeFlit site f x).eject = x.eject ∧
      ((∃ y ∈ x.free, s.productive site f.dest.toNat y.2 = true) →
        ∃ y ∈ x.free, s.productive site f.dest.toNat y.2 = true ∧ (s.placeFlit site f x).out = x.out ++ [(y.2, f)] ∧
          (s.placeFlit site f x).free = x.free.erase y) ∧
      ((∀ y ∈ x.free, s.productive site f.dest.toNat y.2 = false) → ∀ y l, x.free = y :: l →
        (s.placeFlit site f x).out = x.out ++ [(y.2, f)])) ∧
    (s.placeFlit site f x).out.length + (s.placeFlit site f x).eject.length + (s.placeFlit site f x).stay.length =
      x.out.length + x.eject.length + x.stay.length + 1 := by
  unfold State.placeFlit
  refine ⟨fun h => ?_, fun h => ?_, ?_⟩
  · rw [if_pos (by simp [h.1, h.2])]
  · have e : (decide (f.dest.toNat = site) && x.open') = false := by rcases h with h | h <;> simp [h]
    rw [if_neg (by rw [e]; decide)]
    cases hf : x.free.find? fun y => s.productive site f.dest.toNat y.2 with
    | some y =>
      obtain ⟨h1, h2⟩ := find_spec hf
      refine ⟨rfl, fun _ => ⟨y, h1, h2, rfl, rfl⟩, fun h3 => ?_⟩
      exact absurd (h3 y h1) (by rw [h2]; decide)
    | none =>
      refine ⟨?_, fun ⟨y, h1, h2⟩ => ?_, fun _ y l hl => ?_⟩
      · dsimp only; split <;> rfl
      · exact absurd h2 (by simpa using List.find?_eq_none.mp hf y h1)
      · dsimp only
        rw [hl]
  · split
    · simp only [List.length_append, List.length_cons, List.length_nil]; omega
    · split
      · simp only [List.length_append, List.length_cons, List.length_nil]; omega
      · split
        · simp only [List.length_append, List.length_cons, List.length_nil]; omega
        · simp only [List.length_append, List.length_cons, List.length_nil]; omega

/-! A request on its line. -/

theorem bestOf_min {α : Type} (f : α → Nat) (l : List α) {x : α} (h : bestOf (fun a b => decide (f a < f b)) l = some x) :
    x ∈ l ∧ ∀ y ∈ l, f x ≤ f y := by
  induction l generalizing x with
  | nil => exact absurd h (by simp [bestOf])
  | cons a l ih =>
    unfold bestOf at h
    cases hb : bestOf (fun a b => decide (f a < f b)) l with
    | none =>
      rw [hb] at h
      cases h
      cases l with
      | nil => simp
      | cons b l =>
        unfold bestOf at hb
        split at hb <;> simp at hb
    | some y =>
      rw [hb] at h
      obtain ⟨h1, h2⟩ := ih hb
      simp only [Option.some.injEq] at h
      by_cases hf : f y < f a
      · rw [if_pos (by simpa using hf)] at h
        subst h
        exact ⟨List.mem_cons_of_mem _ h1, fun z hz => by
          rcases List.mem_cons.mp hz with rfl | hz
          · exact Nat.le_of_lt hf
          · exact h2 z hz⟩
      · rw [if_neg (by simpa using hf)] at h
        subst h
        exact ⟨List.mem_cons_self, fun z hz => by
          rcases List.mem_cons.mp hz with rfl | hz
          · exact Nat.le_refl _
          · exact Nat.le_trans (Nat.not_lt.mp hf) (h2 z hz)⟩

theorem bestOf_none {α : Type} (b : α → α → Bool) {l : List α} (h : bestOf b l = none) : l = [] := by
  cases l with
  | nil => rfl
  | cons a l =>
    unfold bestOf at h
    split at h <;> simp at h

theorem bestOf_max {α : Type} (f : α → Nat) (l : List α) {x : α} (h : bestOf (fun a b => decide (f b < f a)) l = some x) :
    x ∈ l ∧ ∀ y ∈ l, f y ≤ f x := by
  induction l generalizing x with
  | nil => exact absurd h (by simp [bestOf])
  | cons a l ih =>
    unfold bestOf at h
    cases hb : bestOf (fun a b => decide (f b < f a)) l with
    | none =>
      rw [hb] at h
      cases h
      rw [bestOf_none _ hb]
      simp
    | some y =>
      rw [hb] at h
      obtain ⟨h1, h2⟩ := ih hb
      simp only [Option.some.injEq] at h
      by_cases hf : f a < f y
      · rw [if_pos (by simpa using hf)] at h
        subst h
        exact ⟨List.mem_cons_of_mem _ h1, fun z hz => by
          rcases List.mem_cons.mp hz with rfl | hz
          · exact Nat.le_of_lt hf
          · exact h2 z hz⟩
      · rw [if_neg (by simpa using hf)] at h
        subst h
        exact ⟨List.mem_cons_self, fun z hz => by
          rcases List.mem_cons.mp hz with rfl | hz
          · exact Nat.le_refl _
          · exact Nat.le_trans (h2 z hz) (Nat.not_lt.mp hf)⟩

/-- What an arbiter grants (R408). -/
theorem arbPick_spec (qp : Nat → Nat) (since : SMap Nat) (l : List (Nat × Nat)) (n : Nat) (hn : n = ((l.map Prod.snd).eraseDups).length) :
    (arbPick qp since l = none → l = []) ∧ ∀ x, arbPick qp since l = some x → x ∈ l ∧
      ((∀ y ∈ l, smGetD since y.2 0 < 63 * n) → ∀ y ∈ l, qp x.2 ≤ qp y.2) ∧
      ((∃ y ∈ l, 63 * n ≤ smGetD since y.2 0) → ∀ y ∈ l, smGetD since y.2 0 ≤ smGetD since x.2 0) := by
  unfold arbPick
  simp only [← hn]
  cases hb : bestOf (fun (a b : Nat × Nat) => decide (smGetD since b.2 0 < smGetD since a.2 0))
      (l.filter fun x => decide (63 * n ≤ smGetD since x.2 0)) with
  | some y =>
    obtain ⟨h1, h2⟩ := bestOf_max (fun y : Nat × Nat => smGetD since y.2 0) _ hb
    rw [List.mem_filter] at h1
    refine ⟨fun h => by simp at h, fun x hx => ?_⟩
    cases hx
    refine ⟨h1.1, fun h => absurd (h y h1.1) (Nat.not_lt.mpr (of_decide_eq_true h1.2)), fun _ z hz => ?_⟩
    by_cases hs : 63 * n ≤ smGetD since z.2 0
    · exact h2 z (List.mem_filter.mpr ⟨hz, by simpa using hs⟩)
    · exact Nat.le_trans (Nat.le_of_lt (Nat.not_le.mp hs)) (of_decide_eq_true h1.2)
  | none =>
    have h0 := bestOf_none _ hb
    refine ⟨fun h => bestOf_none _ h, fun x hx => ?_⟩
    obtain ⟨h1, h2⟩ := bestOf_min (fun y : Nat × Nat => qp y.2) _ hx
    refine ⟨h1, fun _ => h2, fun ⟨y, hy, hs⟩ => ?_⟩
    have : y ∈ l.filter fun x => decide (63 * n ≤ smGetD since x.2 0) := List.mem_filter.mpr ⟨hy, by simpa using hs⟩
    rw [h0] at this
    exact absurd this (by simp)

theorem slice_modSlice (s : State) (q : Nat) (f : SliceSt → SliceSt) : (s.modSlice q f).slice q = f (s.slice q) := by
  unfold State.slice State.modSlice
  exact smGetD_smSet_self ..

theorem reqs_replyReq (s : State) (id : Nat) (r : Req) :
    smGet (s.replyReq id r).reqs id = some { r with stage := .replied, reply := true, got := [] } := smGet_smSet_self ..

theorem slice_replyReq (s : State) (id : Nat) (r : Req) (q : Nat) : (s.replyReq id r).slice q = s.slice q := rfl

theorem slice_modIssue (s : State) (k : Nat) (f : IssueSt → IssueSt) (q : Nat) : (s.modIssue k f).slice q = s.slice q := rfl

theorem slice_chargeFar (s : State) (a b c d n q : Nat) : (s.chargeFar a b c d n).slice q = s.slice q := rfl

theorem slice_dropStored (s : State) (id : Nat) (r : Req) (q : Nat) : (s.dropStored id r).slice q = s.slice q := by
  unfold State.dropStored
  split <;> rfl

theorem mem_replyReq (s : State) (id : Nat) (r : Req) : (s.replyReq id r).mem = s.mem := rfl

theorem mem_chargeFar (s : State) (a b c d n : Nat) : (s.chargeFar a b c d n).mem = s.mem := rfl

theorem mem_modSlice (s : State) (q : Nat) (f : SliceSt → SliceSt) : (s.modSlice q f).mem = s.mem := rfl

theorem mem_modIssue (s : State) (k : Nat) (f : IssueSt → IssueSt) : (s.modIssue k f).mem = s.mem := rfl

theorem performReq_read {s : State} {q key id n : Nat} {b : Bool} {r : Req} (h1 : smGet s.reqs id = some r) (h2 : r.op = .read n b)
    (h3 : permFault ((s.slice q).way key).w ((s.slice q).way key).x false 0 = none)
    (h4 : b = false ∨ (s.issue (6 * r.p + r.sl)).l0Line? r.asid r.va = none) :
    ∃ r', smGet (s.performReq q key id).reqs id = some r' ∧ r'.data = ((s.slice q).way key).bytes (r.va.toNat % 128) n ∧
      r'.stage = .replied ∧ r'.reply = true ∧ r'.err = r.err ∧ (s.performReq q key id).mem = s.mem := by
  unfold State.performReq
  simp only [h1, h2]
  rw [show (ReqOp.read n b).writes = false from rfl]
  simp only [Bool.false_eq_true, if_false, h3]
  have e : ∀ u : State, u.issue (6 * r.p + r.sl) = s.issue (6 * r.p + r.sl) →
      (u.readFrom r ((s.slice q).way key) b).1 = ((s.slice q).way key).data := by
    intro u hu
    unfold State.readFrom
    rw [hu]
    rcases h4 with h4 | h4
    · rw [h4]
      split <;> rfl
    · rw [h4]
  refine ⟨_, reqs_replyReq .., ?_, rfl, rfl, rfl, ?_⟩
  · exact congrArg (fun l => (l.drop (r.va.toNat % 128)).take n) (e _ rfl)
  · split <;> rfl

theorem performReq_write {s : State} {q key id : Nat} {d : List Byte} {r : Req} (h1 : smGet s.reqs id = some r)
    (h2 : r.op = .write d) (h3 : permFault ((s.slice q).way key).w ((s.slice q).way key).x false 1 = none) :
    ((s.performReq q key id).slice q).way key = ((s.slice q).way key).write (r.va.toNat % 128) d false ∧
      (s.performReq q key id).mem = s.mem ∧ ∃ r', smGet (s.performReq q key id).reqs id = some r' ∧ r'.stage = .replied := by
  unfold State.performReq
  simp only [h1, h2]
  rw [show (ReqOp.write d).writes = true from rfl]
  simp only [if_true, h3]
  refine ⟨?_, ?_, _, reqs_replyReq .., rfl⟩
  · unfold State.changeLine
    simp only [h2]
    rw [slice_replyReq, slice_modIssue, slice_modSlice, slice_chargeFar, slice_modSlice]
    unfold SliceSt.setWay SliceSt.way
    rw [smGetD_smSet_self]
  · unfold State.changeLine
    simp only [h2]
    rw [mem_replyReq, mem_modIssue, mem_modSlice, mem_chargeFar, mem_modSlice]

theorem performReq_fault {s : State} {q key id : Nat} {c : Cause} {r : Req} (h1 : smGet s.reqs id = some r)
    (h2 : permFault ((s.slice q).way key).w ((s.slice q).way key).x false (if r.op.writes then 1 else 0) = some c) :
    (((s.performReq q key id).slice q).way key = (s.slice q).way key) ∧
      ∃ r', smGet (s.performReq q key id).reqs id = some r' ∧ r'.err = some c ∧ r'.stage = .replied := by
  unfold State.performReq
  simp only [h1, h2]
  refine ⟨?_, _, reqs_replyReq .., rfl, rfl⟩
  rw [slice_replyReq, slice_dropStored, slice_chargeFar, slice_modSlice]
  rfl

theorem walk_noteSlice (s : State) (a sl : Nat) (asid : BitVec 16) (v : Nat) : (s.noteSlice a).walk sl asid v = s.walk sl asid v := rfl

theorem pageWalkEnd_spec (sl walk : Nat) (s : State) :
    (((s.slice sl).walks.take 16).find? (fun x => x.1 = walk) = none → execPageWalkEnd sl walk s = .next s) ∧
    ∀ x, ((s.slice sl).walks.take 16).find? (fun x => x.1 = walk) = some x →
      (s.migrating x.2.asid (vpnOf x.2.va) = true → execPageWalkEnd sl walk s = .next s) ∧
      (s.migrating x.2.asid (vpnOf x.2.va) = false →
      (∀ t, s.walk sl x.2.asid (vpnOf x.2.va) = .ok t → ∃ u, execPageWalkEnd sl walk s = .next u ∧
        (u.slice sl).tlb = (t :: (s.slice sl).tlb).take 4096 ∧ (u.slice sl).walks = smDel (s.slice sl).walks walk ∧
        (u.slice sl).lines = (s.slice sl).lines ∧ u.mem = s.mem ∧ u.crews = s.crews ∧ u.reqs = s.reqs) ∧
      (∀ c, s.walk sl x.2.asid (vpnOf x.2.va) = .error c → ∃ u : State, execPageWalkEnd sl walk s =
          .next (forL x.2.waiters u fun key s => match s.walk sl x.2.asid ((s.slice sl).way key).vpn.toNat with
            | .error _ => s.failLine sl key c
            | .ok _ => s) ∧ u.crews = s.crews ∧ u.mem = s.mem ∧ u.reqs = s.reqs ∧
        (u.slice sl).walks = smDel (s.slice sl).walks walk ∧ (u.slice sl).tlb = (s.slice sl).tlb)) := by
  unfold execPageWalkEnd
  refine ⟨fun h => by simp only [h], fun x h => ⟨fun hm => ?_, fun hm => ⟨fun t ht => ?_, fun c hc => ?_⟩⟩⟩
  · simp only [h, hm, if_true]
  · have hw := walk_noteSlice s sl sl x.2.asid (vpnOf x.2.va)
    have k : (s.noteSlice sl).slice sl = s.slice sl ∧ (s.noteSlice sl).mem = s.mem ∧ (s.noteSlice sl).crews = s.crews ∧
      (s.noteSlice sl).reqs = s.reqs := ⟨rfl, rfl, rfl, rfl⟩
    simp only [h, hm, Bool.false_eq_true, if_false]
    generalize s.noteSlice sl = n at hw k
    rw [← k.1, ← k.2.1, ← k.2.2.1, ← k.2.2.2]
    rw [← hw] at ht
    simp only [ht]
    refine ⟨_, rfl, ?_, ?_, ?_, rfl, rfl, rfl⟩
    · rw [slice_modSlice, slice_modSlice]; rfl
    · rw [slice_modSlice, slice_modSlice]; rfl
    · rw [slice_modSlice, slice_modSlice]; rfl
  · have hw := walk_noteSlice s sl sl x.2.asid (vpnOf x.2.va)
    have k : (s.noteSlice sl).slice sl = s.slice sl ∧ (s.noteSlice sl).mem = s.mem ∧ (s.noteSlice sl).crews = s.crews ∧
      (s.noteSlice sl).reqs = s.reqs := ⟨rfl, rfl, rfl, rfl⟩
    simp only [h, hm, Bool.false_eq_true, if_false]
    generalize s.noteSlice sl = n at hw k
    rw [← k.1, ← k.2.1, ← k.2.2.1, ← k.2.2.2]
    rw [← hw] at hc
    simp only [hc]
    refine ⟨_, rfl, rfl, rfl, rfl, ?_, ?_⟩
    · rw [slice_modSlice]
    · rw [slice_modSlice]

/-! Engines. -/

theorem landGranule_plain {p slot g : Nat} {s : State} {j : CpJob} {c : Crew} {y : Piece} (h : smGet (s.cluster p).cp slot = some j)
    (hc : smGet s.crews j.cid = some c) (h1 : j.st = .running) (h2 : g ∉ j.landed)
    (h3 : j.kind = .cp ∨ j.kind = .cp2d ∨ j.kind = .mc ∨ j.kind = .fill) (h4 : s.cpPiece c j g = some y)
    (h5 : s.cpBehind c j g y = false)
    (h6 : j.kind = .fill ∨ dSsp j.desc ≠ 0 ∨ inHost (BitVec.ofNat 64 (dSrc j.desc)) = false) :
    s.landGranule p slot g = s.cpLand p slot g c j y := by
  unfold State.landGranule
  simp only [h, hc]
  rw [if_neg (by simp [h1, h2])]
  have k1 : ¬ (j.kind ∈ [CpKind.gth, .sct, .sp]) := by rcases h3 with e | e | e | e <;> rw [e] <;> decide
  have k2 : j.kind ≠ .rt := by rcases h3 with e | e | e | e <;> rw [e] <;> decide
  have k3 : j.kind ≠ .fcp := by rcases h3 with e | e | e | e <;> rw [e] <;> decide
  simp only [if_neg k1, h4]
  rw [if_neg (by simp [h5, k2]), if_neg, if_neg k3]
  rcases h6 with h6 | h6 | h6 <;> simp [h6]

theorem cpLand_done {s t u : State} {p slot g : Nat} {c : Crew} {j : CpJob} {y : Piece} {d : List PByte} (h1 : j.kind ≠ .mc)
    (h2 : s.cpData c j g y = .done (t, d)) (h3 : t.cpPut p j y d = .done u) :
    s.cpLand p slot g c j y = u.cpLanded p slot g (if dDsp j.desc = 0 then 0 else y.recv) y.n ∧
    ∀ j', smGet (u.cluster p).cp slot = some j' → ∃ j2, smGet ((s.cpLand p slot g c j y).cluster p).cp slot = some j2 ∧
      g ∈ j2.landed ∧ (∀ x ∈ j'.landed, x ∈ j2.landed) ∧ j2.st = j'.st ∧ j2.desc = j'.desc := by
  have e : s.cpLand p slot g c j y = u.cpLanded p slot g (if dDsp j.desc = 0 then 0 else y.recv) y.n := by
    unfold State.cpLand
    simp only [h2, if_neg h1, h3]
  refine ⟨e, fun j' hj => ?_⟩
  rw [e]
  unfold State.cpLanded
  rw [cluster_modCluster_self]
  refine ⟨{ j' with landed := nsAdd g j'.landed, recv := lmod j'.recv (if dDsp j.desc = 0 then 0 else y.recv) fun r => (r.1, r.2 + y.n) },
    by rw [smGet_smMod, hj, if_pos rfl, Option.map_some], (mem_nsAdd _ _ _).mpr (.inl rfl), fun x hx => (mem_nsAdd _ _ _).mpr (.inr hx), rfl, rfl⟩

theorem mxTry_spec {s : State} {p slot : Nat} {e : MxEnt} (h : smGet (s.cluster p).mx slot = some e) :
    (e.st ≠ .queued → s.mxTry p slot = s) ∧
    ∀ pst, pst = e.preds.filterMap (fun y => (smGet (s.cluster y.1).mx y.2).map fun q => s.mxWhole q) → e.st = .queued →
      ((∃ x ∈ pst, x = .failed ∨ x = .cancelled ∨ x = .saved) → s.mxTry p slot = s.mxEndAll p slot e .failed cMxPredFailed) ∧
      ((∀ x ∈ pst, x = .done) →
        ((s.cluster p).mayStart 1 slot e.ord = false → s.mxTry p slot = s) ∧
        ((s.cluster p).mayStart 1 slot e.ord = true → s.mxFloats e = false → s.bankBlocked p e = true → s.mxTry p slot = s) ∧
        ((s.cluster p).mayStart 1 slot e.ord = true → s.mxFloats e = true ∨ s.bankBlocked p e = false →
          ∀ g, s.engineFor p e = some g → (if e.kind = .drain then (s.dcUsers g).isEmpty else s.arrayIdle g) = true →
            s.mxTry p slot = s.mxStart p slot g e)) := by
  unfold State.mxTry
  simp only [h]
  refine ⟨fun h1 => by rw [if_pos h1], fun pst hp h1 => ⟨fun ⟨x, h2, h3⟩ => ?_, fun h2 => ?_⟩⟩
  · rw [if_neg (by rw [h1]; simp), ← hp, if_pos]
    refine List.any_eq_true.mpr ⟨x, h2, ?_⟩
    rcases h3 with h3 | h3 | h3 <;> subst h3 <;> decide
  · have a : pst.any (fun x => decide (x = .failed) || decide (x = .cancelled) || decide (x = .saved)) = false := by
      rw [List.any_eq_false]
      intro x hx
      rw [h2 x hx]
      decide
    have b : pst.any (fun x => !x.over) = false := by
      rw [List.any_eq_false]
      intro x hx
      rw [h2 x hx]
      decide
    rw [if_neg (by rw [h1]; simp), ← hp, a, b]
    refine ⟨fun h3 => ?_, fun h3 h4 h5 => ?_, fun h3 h4 g h5 h6 => ?_⟩
    · simp [h3]
    · simp [h3, h4, h5]
    · rw [h3, h5]
      rw [if_neg (by decide), if_neg (by decide), if_neg (by rcases h4 with h4 | h4 <;> simp [h4])]
      simp only [h6, if_true]

end Sys2Proof.Machine
end

