-- ==== Sys2Proof/Laws/PerInstr.lean ====
section
/-!
SUPPORT. Sys2Proof/Laws/PerInstr.lean: the family Encodes, one lemma per constructor of Instr: a well-formed slot instruction is
what its own bytes decode to, a mapping command what its own record decodes to, and a step of another agent has no words.
-/

namespace Sys2Proof.Laws.Encodes

open Sys2Proof.Machine

/-- What the encoding of an instruction says. -/
def Statement (i : Instr) : Prop :=
  (∀ o f, i.opFields? = some (o, f) → WellFormed i = true → decode (bytesOfWords (encode i)) = .ok (i, 8 * (encode i).length)) ∧
    (∀ cmd part m, i.mapFields? = some (cmd, part, m) → decodeRecord part (encode i) = .ok i) ∧
    (i.opFields? = none → i.mapFields? = none → encode i = [])

theorem slot {i : Instr} {o : Op} {f : Fields} (h : i.opFields? = some (o, f)) (h2 : i.mapFields? = none) : Statement i :=
  ⟨fun _ _ e w => decode_encode w e, fun _ _ _ e => (by rw [h2] at e; cases e), fun e => (by rw [h] at e; cases e)⟩

theorem record {i : Instr} {cmd part : Nat} {m : MapCmd} (h : i.opFields? = none) (h2 : i.mapFields? = some (cmd, part, m)) :
    Statement i :=
  ⟨fun _ _ e => (by rw [h] at e; cases e), fun c p n e => (by
    have r : encode i = n.words c := by simp only [encode, h, e]
    rw [r]
    exact record_words (mapFields_instr e)), fun _ e => (by rw [h2] at e; cases e)⟩

theorem event {i : Instr} (h : i.opFields? = none) (h2 : i.mapFields? = none) : Statement i :=
  ⟨fun _ _ e => (by rw [h] at e; cases e), fun _ _ _ e => (by rw [h2] at e; cases e), fun _ _ => by simp only [encode, h, h2]⟩

theorem nop (f : Fields) : Statement (.nop f) := slot rfl rfl
theorem br (f : Fields) : Statement (.br f) := slot rfl rfl
theorem jmp (f : Fields) : Statement (.jmp f) := slot rfl rfl
theorem call (f : Fields) : Statement (.call f) := slot rfl rfl
theorem callr (f : Fields) : Statement (.callr f) := slot rfl rfl
theorem ret (f : Fields) : Statement (.ret f) := slot rfl rfl
theorem rjnEnrol (f : Fields) : Statement (.rjnEnrol f) := slot rfl rfl
theorem rjnWait (f : Fields) : Statement (.rjnWait f) := slot rfl rfl
theorem rjnLeave (f : Fields) : Statement (.rjnLeave f) := slot rfl rfl
theorem exit (f : Fields) : Statement (.exit f) := slot rfl rfl
theorem yield (f : Fields) : Statement (.yield f) := slot rfl rfl
theorem tileSet (f : Fields) : Statement (.tileSet f) := slot rfl rfl
theorem fwait (f : Fields) : Statement (.fwait f) := slot rfl rfl
theorem rgnOpen (f : Fields) : Statement (.rgnOpen f) := slot rfl rfl
theorem rgnClose (f : Fields) : Statement (.rgnClose f) := slot rfl rfl
theorem launch (f : Fields) : Statement (.launch f) := slot rfl rfl
theorem cwait (f : Fields) : Statement (.cwait f) := slot rfl rfl
theorem dbnz (f : Fields) : Statement (.dbnz f) := slot rfl rfl
theorem trap (f : Fields) : Statement (.trap f) := slot rfl rfl
theorem trapret (f : Fields) : Statement (.trapret f) := slot rfl rfl
theorem brkpt (f : Fields) : Statement (.brkpt f) := slot rfl rfl
theorem add (f : Fields) : Statement (.add f) := slot rfl rfl
theorem sub (f : Fields) : Statement (.sub f) := slot rfl rfl
theorem mul (f : Fields) : Statement (.mul f) := slot rfl rfl
theorem mad (f : Fields) : Statement (.mad f) := slot rfl rfl
theorem min (f : Fields) : Statement (.min f) := slot rfl rfl
theorem max (f : Fields) : Statement (.max f) := slot rfl rfl
theorem addc (f : Fields) : Statement (.addc f) := slot rfl rfl
theorem subb (f : Fields) : Statement (.subb f) := slot rfl rfl
theorem mulh (f : Fields) : Statement (.mulh f) := slot rfl rfl
theorem bfx (f : Fields) : Statement (.bfx f) := slot rfl rfl
theorem cmp (f : Fields) : Statement (.cmp f) := slot rfl rfl
theorem abs (f : Fields) : Statement (.abs f) := slot rfl rfl
theorem neg (f : Fields) : Statement (.neg f) := slot rfl rfl
theorem sar (f : Fields) : Statement (.sar f) := slot rfl rfl
theorem and (f : Fields) : Statement (.and f) := slot rfl rfl
theorem or (f : Fields) : Statement (.or f) := slot rfl rfl
theorem xor (f : Fields) : Statement (.xor f) := slot rfl rfl
theorem andn (f : Fields) : Statement (.andn f) := slot rfl rfl
theorem orn (f : Fields) : Statement (.orn f) := slot rfl rfl
theorem not (f : Fields) : Statement (.not f) := slot rfl rfl
theorem shl (f : Fields) : Statement (.shl f) := slot rfl rfl
theorem shr (f : Fields) : Statement (.shr f) := slot rfl rfl
theorem rol (f : Fields) : Statement (.rol f) := slot rfl rfl
theorem ror (f : Fields) : Statement (.ror f) := slot rfl rfl
theorem fsh (f : Fields) : Statement (.fsh f) := slot rfl rfl
theorem bfi (f : Fields) : Statement (.bfi f) := slot rfl rfl
theorem popc (f : Fields) : Statement (.popc f) := slot rfl rfl
theorem clz (f : Fields) : Statement (.clz f) := slot rfl rfl
theorem ctz (f : Fields) : Statement (.ctz f) := slot rfl rfl
theorem brev (f : Fields) : Statement (.brev f) := slot rfl rfl
theorem sel (f : Fields) : Statement (.sel f) := slot rfl rfl
theorem movk (f : Fields) : Statement (.movk f) := slot rfl rfl
theorem lea (f : Fields) : Statement (.lea f) := slot rfl rfl
theorem mov (f : Fields) : Statement (.mov f) := slot rfl rfl
theorem fadd (f : Fields) : Statement (.fadd f) := slot rfl rfl
theorem fsub (f : Fields) : Statement (.fsub f) := slot rfl rfl
theorem fmul (f : Fields) : Statement (.fmul f) := slot rfl rfl
theorem ffma (f : Fields) : Statement (.ffma f) := slot rfl rfl
theorem fmin (f : Fields) : Statement (.fmin f) := slot rfl rfl
theorem fmax (f : Fields) : Statement (.fmax f) := slot rfl rfl
theorem fabs (f : Fields) : Statement (.fabs f) := slot rfl rfl
theorem fneg (f : Fields) : Statement (.fneg f) := slot rfl rfl
theorem fcsgn (f : Fields) : Statement (.fcsgn f) := slot rfl rfl
theorem fcmp (f : Fields) : Statement (.fcmp f) := slot rfl rfl
theorem fclass (f : Fields) : Statement (.fclass f) := slot rfl rfl
theorem frnd (f : Fields) : Statement (.frnd f) := slot rfl rfl
theorem fscale (f : Fields) : Statement (.fscale f) := slot rfl rfl
theorem fexpo (f : Fields) : Statement (.fexpo f) := slot rfl rfl
theorem fdot2 (f : Fields) : Statement (.fdot2 f) := slot rfl rfl
theorem fdot4 (f : Fields) : Statement (.fdot4 f) := slot rfl rfl
theorem cvt (f : Fields) : Statement (.cvt f) := slot rfl rfl
theorem cvtPk (f : Fields) : Statement (.cvtPk f) := slot rfl rfl
theorem cvtSr (f : Fields) : Statement (.cvtSr f) := slot rfl rfl
theorem mxq (f : Fields) : Statement (.mxq f) := slot rfl rfl
theorem mxdq (f : Fields) : Statement (.mxdq f) := slot rfl rfl
theorem pack (f : Fields) : Statement (.pack f) := slot rfl rfl
theorem unpack (f : Fields) : Statement (.unpack f) := slot rfl rfl
theorem shflIdx (f : Fields) : Statement (.shflIdx f) := slot rfl rfl
theorem shflUp (f : Fields) : Statement (.shflUp f) := slot rfl rfl
theorem shflDn (f : Fields) : Statement (.shflDn f) := slot rfl rfl
theorem shflXor (f : Fields) : Statement (.shflXor f) := slot rfl rfl
theorem voteAny (f : Fields) : Statement (.voteAny f) := slot rfl rfl
theorem voteAll (f : Fields) : Statement (.voteAll f) := slot rfl rfl
theorem voteBal (f : Fields) : Statement (.voteBal f) := slot rfl rfl
theorem voteEq (f : Fields) : Statement (.voteEq f) := slot rfl rfl
theorem redx (f : Fields) : Statement (.redx f) := slot rfl rfl
theorem scanx (f : Fields) : Statement (.scanx f) := slot rfl rfl
theorem xpose (f : Fields) : Statement (.xpose f) := slot rfl rfl
theorem perm (f : Fields) : Statement (.perm f) := slot rfl rfl
theorem rdlane (f : Fields) : Statement (.rdlane f) := slot rfl rfl
theorem wrlane (f : Fields) : Statement (.wrlane f) := slot rfl rfl
theorem frcp (f : Fields) : Statement (.frcp f) := slot rfl rfl
theorem frsq (f : Fields) : Statement (.frsq f) := slot rfl rfl
theorem fsqrt (f : Fields) : Statement (.fsqrt f) := slot rfl rfl
theorem fdiv (f : Fields) : Statement (.fdiv f) := slot rfl rfl
theorem fex2 (f : Fields) : Statement (.fex2 f) := slot rfl rfl
theorem flg2 (f : Fields) : Statement (.flg2 f) := slot rfl rfl
theorem fsin (f : Fields) : Statement (.fsin f) := slot rfl rfl
theorem fcos (f : Fields) : Statement (.fcos f) := slot rfl rfl
theorem ftanh (f : Fields) : Statement (.ftanh f) := slot rfl rfl
theorem fsig (f : Fields) : Statement (.fsig f) := slot rfl rfl
theorem ferf (f : Fields) : Statement (.ferf f) := slot rfl rfl
theorem ld (f : Fields) : Statement (.ld f) := slot rfl rfl
theorem st (f : Fields) : Statement (.st f) := slot rfl rfl
theorem ldu (f : Fields) : Statement (.ldu f) := slot rfl rfl
theorem lds (f : Fields) : Statement (.lds f) := slot rfl rfl
theorem sts (f : Fields) : Statement (.sts f) := slot rfl rfl
theorem pref (f : Fields) : Statement (.pref f) := slot rfl rfl
theorem bind (f : Fields) : Statement (.bind f) := slot rfl rfl
theorem unbind (f : Fields) : Statement (.unbind f) := slot rfl rfl
theorem fence (f : Fields) : Statement (.fence f) := slot rfl rfl
theorem stashMap (f : Fields) : Statement (.stashMap f) := slot rfl rfl
theorem stashUnmap (f : Fields) : Statement (.stashUnmap f) := slot rfl rfl
theorem stashWb (f : Fields) : Statement (.stashWb f) := slot rfl rfl
theorem stashInv (f : Fields) : Statement (.stashInv f) := slot rfl rfl
theorem atom (f : Fields) : Statement (.atom f) := slot rfl rfl
theorem red (f : Fields) : Statement (.red f) := slot rfl rfl
theorem cas (f : Fields) : Statement (.cas f) := slot rfl rfl
theorem atoms (f : Fields) : Statement (.atoms f) := slot rfl rfl
theorem cass (f : Fields) : Statement (.cass f) := slot rfl rfl
theorem redFlush (f : Fields) : Statement (.redFlush f) := slot rfl rfl
theorem cp (f : Fields) : Statement (.cp f) := slot rfl rfl
theorem cp2d (f : Fields) : Statement (.cp2d f) := slot rfl rfl
theorem cpGth (f : Fields) : Statement (.cpGth f) := slot rfl rfl
theorem cpSct (f : Fields) : Statement (.cpSct f) := slot rfl rfl
theorem cpMc (f : Fields) : Statement (.cpMc f) := slot rfl rfl
theorem cpSp (f : Fields) : Statement (.cpSp f) := slot rfl rfl
theorem cpRt (f : Fields) : Statement (.cpRt f) := slot rfl rfl
theorem cpFill (f : Fields) : Statement (.cpFill f) := slot rfl rfl
theorem cpStat (f : Fields) : Statement (.cpStat f) := slot rfl rfl
theorem cpCancel (f : Fields) : Statement (.cpCancel f) := slot rfl rfl
theorem mxPost (f : Fields) : Statement (.mxPost f) := slot rfl rfl
theorem mxTeam (f : Fields) : Statement (.mxTeam f) := slot rfl rfl
theorem mxDrain (f : Fields) : Statement (.mxDrain f) := slot rfl rfl
theorem mxZero (f : Fields) : Statement (.mxZero f) := slot rfl rfl
theorem mxStat (f : Fields) : Statement (.mxStat f) := slot rfl rfl
theorem mxCancel (f : Fields) : Statement (.mxCancel f) := slot rfl rfl
theorem barInit (f : Fields) : Statement (.barInit f) := slot rfl rfl
theorem barArr (f : Fields) : Statement (.barArr f) := slot rfl rfl
theorem barExp (f : Fields) : Statement (.barExp f) := slot rfl rfl
theorem barWait (f : Fields) : Statement (.barWait f) := slot rfl rfl
theorem barTest (f : Fields) : Statement (.barTest f) := slot rfl rfl
theorem gbar (f : Fields) : Statement (.gbar f) := slot rfl rfl
theorem chnBind (f : Fields) : Statement (.chnBind f) := slot rfl rfl
theorem chnPop (f : Fields) : Statement (.chnPop f) := slot rfl rfl
theorem chnTry (f : Fields) : Statement (.chnTry f) := slot rfl rfl
theorem chnCnt (f : Fields) : Statement (.chnCnt f) := slot rfl rfl
theorem alwBind (f : Fields) : Statement (.alwBind f) := slot rfl rfl
theorem alwTest (f : Fields) : Statement (.alwTest f) := slot rfl rfl
theorem alwRd (f : Fields) : Statement (.alwRd f) := slot rfl rfl
theorem ldf (f : Fields) : Statement (.ldf f) := slot rfl rfl
theorem stf (f : Fields) : Statement (.stf f) := slot rfl rfl
theorem atomf (f : Fields) : Statement (.atomf f) := slot rfl rfl
theorem casf (f : Fields) : Statement (.casf f) := slot rfl rfl
theorem fcp (f : Fields) : Statement (.fcp f) := slot rfl rfl
theorem wcbFlush (f : Fields) : Statement (.wcbFlush f) := slot rfl rfl
theorem fpeer (f : Fields) : Statement (.fpeer f) := slot rfl rfl
theorem sealOpen (f : Fields) : Statement (.sealOpen f) := slot rfl rfl
theorem sealAbs (f : Fields) : Statement (.sealAbs f) := slot rfl rfl
theorem sealFin (f : Fields) : Statement (.sealFin f) := slot rfl rfl
theorem sealAbt (f : Fields) : Statement (.sealAbt f) := slot rfl rfl
theorem sysrd (f : Fields) : Statement (.sysrd f) := slot rfl rfl
theorem syswr (f : Fields) : Statement (.syswr f) := slot rfl rfl
theorem icinv (f : Fields) : Statement (.icinv f) := slot rfl rfl
theorem rtDef (f : Fields) : Statement (.rtDef f) := slot rfl rfl
theorem fuseRd (f : Fields) : Statement (.fuseRd f) := slot rfl rfl
theorem keyWipe (f : Fields) : Statement (.keyWipe f) := slot rfl rfl
theorem measExt (f : Fields) : Statement (.measExt f) := slot rfl rfl
theorem sigVfy (f : Fields) : Statement (.sigVfy f) := slot rfl rfl
theorem dbgOpen (f : Fields) : Statement (.dbgOpen f) := slot rfl rfl
theorem halt (f : Fields) : Statement (.halt f) := slot rfl rfl
theorem bundleSelect (k : Nat) : Statement (.bundleSelect k) := event rfl rfl
theorem debugResume (cid : Nat) : Statement (.debugResume cid) := event rfl rfl
theorem resultDelivery (id : Nat) : Statement (.resultDelivery id) := event rfl rfl
theorem clusterFailing (p : Nat) : Statement (.clusterFailing p) := event rfl rfl
theorem regionClose (cid co : Nat) : Statement (.regionClose cid co) := event rfl rfl
theorem coldStart : Statement .coldStart := event rfl rfl
theorem selfTestPass (r : Res) (i : Nat) : Statement (.selfTestPass r i) := event rfl rfl
theorem resourceFail (r : Res) (i : Nat) : Statement (.resourceFail r i) := event rfl rfl
theorem acquire (part : Nat) (m : MapCmd) : Statement (.acquire part m) := record rfl rfl
theorem release (part : Nat) (m : MapCmd) : Statement (.release part m) := record rfl rfl
theorem map (part : Nat) (m : MapCmd) : Statement (.map part m) := record rfl rfl
theorem unmap (part : Nat) (m : MapCmd) : Statement (.unmap part m) := record rfl rfl
theorem protect (part : Nat) (m : MapCmd) : Statement (.protect part m) := record rfl rfl
theorem migrate (part : Nat) (m : MapCmd) : Statement (.migrate part m) := record rfl rfl
theorem refuse (part : Nat) (m : MapCmd) : Statement (.refuse part m) := record rfl rfl
theorem rowClearDone (ch frame : Nat) : Statement (.rowClearDone ch frame) := event rfl rfl
theorem pageWalkEnd (sl walk : Nat) : Statement (.pageWalkEnd sl walk) := event rfl rfl
theorem homeSliceRequest (sl id : Nat) : Statement (.homeSliceRequest sl id) := event rfl rfl
theorem lineFillDone (sl key : Nat) : Statement (.lineFillDone sl key) := event rfl rfl
theorem patrolScrub (ch line : Nat) (bad : List Nat) (corrected : Nat) : Statement (.patrolScrub ch line bad corrected) := event rfl rfl
theorem dramRefresh (ch group : Nat) : Statement (.dramRefresh ch group) := event rfl rfl
theorem routeFlits (plane site : Nat) (bad : List Nat) : Statement (.routeFlits plane site bad) := event rfl rfl
theorem injectionStarvation (plane site : Nat) : Statement (.injectionStarvation plane site) := event rfl rfl
theorem sinkEject (plane site : Nat) : Statement (.sinkEject plane site) := event rfl rfl
theorem copyJobStart (p slot : Nat) : Statement (.copyJobStart p slot) := event rfl rfl
theorem copyGranuleLand (p slot g : Nat) : Statement (.copyGranuleLand p slot g) := event rfl rfl
theorem copyJobEnd (p slot : Nat) : Statement (.copyJobEnd p slot) := event rfl rfl
theorem routeStationForward (p slot station g : Nat) : Statement (.routeStationForward p slot station g) := event rfl rfl
theorem mappedLineFill (p line : Nat) : Statement (.mappedLineFill p line) := event rfl rfl
theorem writeBackStep (p line g : Nat) : Statement (.writeBackStep p line g) := event rfl rfl
theorem deadline (cid i : Nat) : Statement (.deadline cid i) := event rfl rfl
theorem mandrelCycle (p : Nat) : Statement (.mandrelCycle p) := event rfl rfl
theorem mxStep (p slot : Nat) : Statement (.mxStep p slot) := event rfl rfl
theorem mxWriteOut (p slot g : Nat) : Statement (.mxWriteOut p slot g) := event rfl rfl
theorem mxChannelPush (p slot : Nat) : Statement (.mxChannelPush p slot) := event rfl rfl
theorem mxCardEnd (p slot : Nat) : Statement (.mxCardEnd p slot) := event rfl rfl
theorem fabricEgressRoute (id port : Nat) : Statement (.fabricEgressRoute id port) := event rfl rfl
theorem fabricIngress (port : Nat) (pkt : FabPkt) : Statement (.fabricIngress port pkt) := event rfl rfl
theorem fabricAck (id : Nat) (ack : FabAck) : Statement (.fabricAck id ack) := event rfl rfl
theorem linkTrain (port : Nat) (ok : Bool) (partner : Nat) : Statement (.linkTrain port ok partner) := event rfl rfl
theorem linkFlitRetry (port : Nat) (ok : Bool) : Statement (.linkFlitRetry port ok) := event rfl rfl
theorem fabricTimeout (id : Nat) : Statement (.fabricTimeout id) := event rfl rfl
theorem resetNotice (part mod rtag inc : Nat) : Statement (.resetNotice part mod rtag inc) := event rfl rfl
theorem peerIncarnation (mod rtag inc : Nat) : Statement (.peerIncarnation mod rtag inc) := event rfl rfl
theorem peerJoin (part pid : Nat) (entry : W64) (entry2 : W64) : Statement (.peerJoin part pid entry entry2) := event rfl rfl
theorem wcbAgeDrain (p key : Nat) : Statement (.wcbAgeDrain p key) := event rfl rfl
theorem allowanceRefill (p : Nat) : Statement (.allowanceRefill p) := event rfl rfl
theorem congestionMark (mark : Mark) : Statement (.congestionMark mark) := event rfl rfl
theorem rateRecovery (p : Nat) : Statement (.rateRecovery p) := event rfl rfl
theorem congestionWindow (point : Nat) : Statement (.congestionWindow point) := event rfl rfl
theorem hostLaunchFetch (part space : Nat) : Statement (.hostLaunchFetch part space) := event rfl rfl
theorem stampTimeout (part queue : Nat) : Statement (.stampTimeout part queue) := event rfl rfl
theorem dispatch (part : Nat) : Statement (.dispatch part) := event rfl rfl
theorem reservationTimeout (part : Nat) : Statement (.reservationTimeout part) := event rfl rfl
theorem crewQueueStart (p : Nat) : Statement (.crewQueueStart p) := event rfl rfl
theorem stealRequest (p : Nat) : Statement (.stealRequest p) := event rfl rfl
theorem stealVictim (p : Nat) : Statement (.stealVictim p) := event rfl rfl
theorem stealReply (p : Nat) : Statement (.stealReply p) := event rfl rfl
theorem crewRetire (cid : Nat) : Statement (.crewRetire cid) := event rfl rfl
theorem cwaitResume (cid : Nat) : Statement (.cwaitResume cid) := event rfl rfl
theorem gbarRelease (grid group : Nat) : Statement (.gbarRelease grid group) := event rfl rfl
theorem zoneCheckpoint (grid : Nat) : Statement (.zoneCheckpoint grid) := event rfl rfl
theorem gbarStall (grid : Nat) : Statement (.gbarStall grid) := event rfl rfl
theorem channelGrow (cid ch : Nat) : Statement (.channelGrow cid ch) := event rfl rfl
theorem cyclicWaitDetect (cid : Nat) : Statement (.cyclicWaitDetect cid) := event rfl rfl
theorem squallTrip (p : Nat) (hard : Bool) : Statement (.squallTrip p hard) := event rfl rfl
theorem squallStretchEnd (p : Nat) : Statement (.squallStretchEnd p) := event rfl rfl
theorem suspectWindowEnd (p : Nat) : Statement (.suspectWindowEnd p) := event rfl rfl
theorem zoneOvercurrent (z current : Nat) : Statement (.zoneOvercurrent z current) := event rfl rfl
theorem dutyRestore (z : Nat) : Statement (.dutyRestore z) := event rfl rfl
theorem packagePowerLimit (watts : Nat) : Statement (.packagePowerLimit watts) := event rfl rfl
theorem zoneLost (z : Nat) : Statement (.zoneLost z) := event rfl rfl
theorem create (c : CreateCmd) : Statement (.create c) := event rfl rfl
theorem grow (part : Nat) (c : ShapeCmd) : Statement (.grow part c) := event rfl rfl
theorem shrink (part : Nat) (c : ShapeCmd) : Statement (.shrink part c) := event rfl rfl
theorem compact (part : Nat) (moves : List (Nat × Nat)) : Statement (.compact part moves) := event rfl rfl
theorem quiesce (part : Nat) : Statement (.quiesce part) := event rfl rfl
theorem resume (part : Nat) : Statement (.resume part) := event rfl rfl
theorem setqos (part : Nat) (qp : BitVec 2) (cmthr : W32) : Statement (.setqos part qp cmthr) := event rfl rfl
theorem reset (part : Nat) : Statement (.reset part) := event rfl rfl
theorem resetMeshDrained (part : Nat) : Statement (.resetMeshDrained part) := event rfl rfl
theorem destroy (part : Nat) : Statement (.destroy part) := event rfl rfl
theorem incarnationHoldExpiry (part : Nat) : Statement (.incarnationHoldExpiry part) := event rfl rfl
theorem quiesceDone (part : Nat) : Statement (.quiesceDone part) := event rfl rfl
theorem resumeDone (part : Nat) : Statement (.resumeDone part) := event rfl rfl
theorem sliceEnd (part : Nat) : Statement (.sliceEnd part) := event rfl rfl
theorem queueEnable (part queue : Nat) (en : Bool) : Statement (.queueEnable part queue en) := event rfl rfl
theorem queueReset (part queue : Nat) : Statement (.queueReset part queue) := event rfl rfl
theorem queueWpWrite (part queue : Nat) (wp : W32) : Statement (.queueWpWrite part queue wp) := event rfl rfl
theorem queueRpWrite (part queue : Nat) (rp : W32) : Statement (.queueRpWrite part queue rp) := event rfl rfl
theorem registerWrite (part queue word : Nat) (v : W64) : Statement (.registerWrite part queue word v) := event rfl rfl
theorem bar0UnlistedAccess (part off : Nat) (wr : Bool) (v : W64) : Statement (.bar0UnlistedAccess part off wr v) := event rfl rfl
theorem msixUnmask (part vec : Nat) : Statement (.msixUnmask part vec) := event rfl rfl
theorem tdispMessage (part : Nat) (m : Tdisp) : Statement (.tdispMessage part m) := event rfl rfl
theorem spdmGetMeasurements (part index : Nat) (nonce : List Byte) : Statement (.spdmGetMeasurements part index nonce) := event rfl rfl
theorem hostWrite (part space : Nat) (va : W64) (data : List Byte) : Statement (.hostWrite part space va data) := event rfl rfl
theorem sealAbsorbEnd (p ctx : Nat) : Statement (.sealAbsorbEnd p ctx) := event rfl rfl
theorem sealSign (p ctx : Nat) : Statement (.sealSign p ctx) := event rfl rfl
theorem fabricRailDown : Statement .fabricRailDown := event rfl rfl
theorem hostCompletion (id : Nat) (ok : Bool) (data : List Byte) : Statement (.hostCompletion id ok data) := event rfl rfl
theorem zeroingDone (p : Nat) : Statement (.zeroingDone p) := event rfl rfl

end Sys2Proof.Laws.Encodes
end

