-- ==== Sys2Proof/Tests/Slice0.lean ====
section
/-!
SUPPORT. Sys2Proof/Tests/Slice0.lean: own tests: words of the spec decode as the spec says, ill-formed terms are refused, single
steps give values worked out by hand from the rules, and for each statement with hypotheses a state that meets them.
-/

namespace Sys2Proof.Tests

open Sys2Proof Sys2Proof.Machine

set_option maxRecDepth 100000
set_option Elab.async false

/-! A small state: one crew of 32 threads whose clause stands at its first slot. -/

/-- The slice on which the tests run their slots. -/
def slice0 : Nat := 6 * Config.clusters

/-- The cohort of the tests as its crew starts it. -/
def cohort0 : Cohort := Cohort.fresh probeCrew 0 0 0 0 0 0

/-- The crew of the tests, changed by `c`, its cohort by `g`. -/
def crewOf (g : Cohort → Cohort) (c : Crew → Crew) : Crew := { c probeCrew with cohorts := [g cohort0] }

/-- The state in which that crew runs. -/
def demo (g : Cohort → Cohort) (c : Crew → Crew) : State :=
  ({ State.reset with crews := [(1, crewOf g c)], nextId := 3, cur := some slice0 }).modIssue slice0 fun i =>
    { i with run := some (probeRun 1 2 [0, 0]) }

/-- Where its slot executes. -/
def demoAt (g : Cohort → Cohort) (c : Crew → Crew) : At :=
  { k := slice0, r := probeRun 1 2 [0, 0], c := crewOf g c, h := g cohort0 }

theorem demo_ready (g : Cohort → Cohort) (c : Crew → Crew) (o : Op) (f : Fields)
    (he : encFault (demoAt g c).env (decide ((crewOf g c).part = Config.svcTag)) o f = none)
    (hp : ∀ i : Fin 32, ((g cohort0).threads[i]).predPoison f.pk.val = false)
    (hc : needsClose o f = true → (g cohort0).rgn.opened = false) : SlotReady o f (demo g c) (demoAt g c) := by
  refine ⟨rfl, ?_, ?_, rfl, rfl, he, ?_, fun i _ => hp i, hc⟩
  · show ((demo g c).cluster _).halted = false
    simp [demo, State.cluster, State.modIssue, State.modCluster, slice0, demoAt]
    rfl
  · have : (demo g c).issue slice0 = { IssueSt.zero with run := some (probeRun 1 2 [0, 0]) } := rfl
    simp [demoAt, this]
  · show ¬BitVec.allOnes 32 = 0#32
    decide

/-! One legal form of every instruction in a slot: type, destination, operands and modifiers. -/

/-- Fields without a predicate, marks or literal. -/
def smp (t : Ty) (d a b c : Sel) (m : BitVec 6) : Fields :=
  { ty := t, pn := false, pk := 0, dstT := false, rsv44 := false, dst := d, a := ⟨a, false, false⟩, b := ⟨b, false, false⟩,
    c := ⟨c, false, false⟩, mod := m, lit := 0 }

def samples1 : List (Op × Fields) :=
  [(.nop, smp .b32 (.none) (.none) (.none) (.none) 0),
   (.br, smp .b32 (.none) (.int 0) (.none) (.none) 0),
   (.jmp, smp .b32 (.none) (.int 0) (.none) (.none) 0),
   (.call, smp .b32 (.none) (.int 0) (.none) (.none) 0),
   (.callr, smp .b32 (.none) (.int 0) (.none) (.none) 0),
   (.ret, smp .b32 (.none) (.int 0) (.none) (.none) 0),
   (.rjnEnrol, smp .b32 (.none) (.none) (.none) (.none) 0),
   (.rjnWait, smp .b32 (.none) (.none) (.none) (.none) 0),
   (.rjnLeave, smp .b32 (.none) (.none) (.none) (.none) 0),
   (.exit, smp .b32 (.none) (.none) (.none) (.none) 0),
   (.yield, smp .b32 (.none) (.none) (.none) (.none) 0),
   (.tileSet, smp .b32 (.none) (.int 0) (.none) (.none) 0),
   (.fwait, smp .b32 (.none) (.int 0) (.none) (.none) 0),
   (.rgnOpen, smp .b32 (.none) (.none) (.none) (.none) 0),
   (.rgnClose, smp .b32 (.none) (.none) (.none) (.none) 0),
   (.launch, smp .b32 (.none) (.int 0) (.none) (.none) 0),
   (.cwait, smp .b32 (.none) (.none) (.none) (.none) 0),
   (.dbnz, smp .b32 (.none) (.int 0) (.int 0) (.none) 0),
   (.trap, smp .b32 (.none) (.int 0) (.none) (.none) 0),
   (.trapret, smp .b32 (.none) (.none) (.none) (.none) 0),
   (.brkpt, smp .b32 (.none) (.int 0) (.none) (.none) 0),
   (.add, smp .i32 (.none) (.int 0) (.int 0) (.none) 0),
   (.addc, smp .i32 (.none) (.int 0) (.int 0) (.int 0) 0),
   (.sub, smp .i32 (.none) (.int 0) (.int 0) (.none) 0),
   (.subb, smp .i32 (.none) (.int 0) (.int 0) (.int 0) 0),
   (.mul, smp .i32 (.none) (.int 0) (.int 0) (.none) 0),
   (.mulh, smp .i32 (.none) (.int 0) (.int 0) (.none) 0),
   (.mad, smp .i32 (.none) (.int 0) (.int 0) (.int 0) 0),
   (.min, smp .i32 (.none) (.int 0) (.int 0) (.none) 0),
   (.max, smp .i32 (.none) (.int 0) (.int 0) (.none) 0),
   (.abs, smp .i32 (.none) (.int 0) (.none) (.none) 0),
   (.neg, smp .i32 (.none) (.int 0) (.none) (.none) 0),
   (.and, smp .b32 (.none) (.int 0) (.int 0) (.none) 0),
   (.or, smp .b32 (.none) (.int 0) (.int 0) (.none) 0),
   (.xor, smp .b32 (.none) (.int 0) (.int 0) (.none) 0),
   (.andn, smp .b32 (.none) (.int 0) (.int 0) (.none) 0),
   (.orn, smp .b32 (.none) (.int 0) (.int 0) (.none) 0),
   (.not, smp .b32 (.none) (.int 0) (.none) (.none) 0),
   (.shl, smp .b32 (.none) (.int 0) (.int 0) (.none) 0),
   (.shr, smp .b32 (.none) (.int 0) (.int 0) (.none) 0),
   (.sar, smp .i32 (.none) (.int 0) (.int 0) (.none) 0),
   (.rol, smp .b32 (.none) (.int 0) (.int 0) (.none) 0),
   (.ror, smp .b32 (.none) (.int 0) (.int 0) (.none) 0),
   (.fsh, smp .b32 (.none) (.int 0) (.int 0) (.int 0) 0),
   (.bfx, smp .i32 (.none) (.int 0) (.int 0) (.int 0) 0),
   (.bfi, smp .b32 (.none) (.int 0) (.int 0) (.int 0) 0),
   (.popc, smp .b32 (.none) (.int 0) (.none) (.none) 0),
   (.clz, smp .b32 (.none) (.int 0) (.none) (.none) 0),
   (.ctz, smp .b32 (.none) (.int 0) (.none) (.none) 0),
   (.brev, smp .b32 (.none) (.int 0) (.none) (.none) 0),
   (.cmp, smp .i32 (.none) (.int 0) (.int 0) (.none) 0),
   (.sel, smp .b32 (.none) (.int 0) (.int 0) (.int 0) 0),
   (.lea, smp .n64 (.none) (.int 0) (.int 0) (.int 0) 0),
   (.mov, smp .b32 (.none) (.int 0) (.none) (.none) 0),
   (.movk, smp .b32 (.none) (.int 0) (.int 0) (.none) 0),
   (.fadd, smp .f32 (.none) (.int 0) (.int 0) (.none) 0),
   (.fsub, smp .f32 (.none) (.int 0) (.int 0) (.none) 0),
   (.fmul, smp .f32 (.none) (.int 0) (.int 0) (.none) 0),
   (.ffma, smp .f32 (.none) (.int 0) (.int 0) (.int 0) 0),
   (.fmin, smp .f32 (.none) (.int 0) (.int 0) (.none) 0)]

def samples2 : List (Op × Fields) :=
  [(.fmax, smp .f32 (.none) (.int 0) (.int 0) (.none) 0),
   (.fabs, smp .f32 (.none) (.int 0) (.none) (.none) 0),
   (.fneg, smp .f32 (.none) (.int 0) (.none) (.none) 0),
   (.fcmp, smp .f32 (.none) (.int 0) (.int 0) (.none) 0),
   (.fclass, smp .f32 (.none) (.int 0) (.none) (.none) 0),
   (.frnd, smp .f32 (.none) (.int 0) (.none) (.none) 0),
   (.fscale, smp .f32 (.none) (.int 0) (.int 0) (.none) 0),
   (.fexpo, smp .f32 (.none) (.int 0) (.none) (.none) 0),
   (.fcsgn, smp .f32 (.none) (.int 0) (.int 0) (.none) 0),
   (.fdot2, smp .f16x2 (.none) (.int 0) (.int 0) (.int 0) 0),
   (.fdot4, smp .e4m3x4 (.none) (.int 0) (.int 0) (.int 0) 0),
   (.cvt, smp .i32 (.none) (.int 0) (.none) (.none) 0),
   (.cvtPk, smp .f16x2 (.none) (.int 0) (.int 0) (.none) 0),
   (.cvtSr, smp .f16x2 (.none) (.int 0) (.int 0) (.int 0) 0),
   (.mxq, smp .b32 (.none) (.int 0) (.none) (.none) 0),
   (.mxdq, smp .b32 (.none) (.int 0) (.int 0) (.none) 0),
   (.pack, smp .i16x2 (.none) (.int 0) (.int 0) (.none) 0),
   (.unpack, smp .i16x2 (.none) (.int 0) (.none) (.none) 0),
   (.shflIdx, smp .b32 (.none) (.int 0) (.int 0) (.none) 0),
   (.shflUp, smp .b32 (.none) (.int 0) (.int 0) (.none) 0),
   (.shflDn, smp .b32 (.none) (.int 0) (.int 0) (.none) 0),
   (.shflXor, smp .b32 (.none) (.int 0) (.int 0) (.none) 0),
   (.voteAny, smp .b32 (.none) (.int 0) (.none) (.none) 0),
   (.voteAll, smp .b32 (.none) (.int 0) (.none) (.none) 0),
   (.voteBal, smp .b32 (.none) (.int 0) (.none) (.none) 0),
   (.voteEq, smp .b32 (.none) (.int 0) (.none) (.none) 0),
   (.redx, smp .i32 (.none) (.int 0) (.none) (.none) 0),
   (.scanx, smp .i32 (.none) (.int 0) (.none) (.none) 0),
   (.xpose, smp .b32 (.none) (.v 8) (.int 0) (.none) 0),
   (.perm, smp .b32 (.none) (.int 0) (.int 0) (.int 0) 0),
   (.rdlane, smp .b32 (.none) (.int 0) (.int 0) (.none) 0),
   (.wrlane, smp .b32 (.none) (.int 0) (.int 0) (.int 0) 0),
   (.frcp, smp .f32 (.none) (.int 0) (.none) (.none) 0),
   (.frsq, smp .f32 (.none) (.int 0) (.none) (.none) 0),
   (.fsqrt, smp .f32 (.none) (.int 0) (.none) (.none) 0),
   (.fdiv, smp .f32 (.none) (.int 0) (.int 0) (.none) 0),
   (.fex2, smp .f32 (.none) (.int 0) (.none) (.none) 0),
   (.flg2, smp .f32 (.none) (.int 0) (.none) (.none) 0),
   (.fsin, smp .f32 (.none) (.int 0) (.none) (.none) 0),
   (.fcos, smp .f32 (.none) (.int 0) (.none) (.none) 0),
   (.ftanh, smp .f32 (.none) (.int 0) (.none) (.none) 0),
   (.fsig, smp .f32 (.none) (.int 0) (.none) (.none) 0),
   (.ferf, smp .f32 (.none) (.int 0) (.none) (.none) 0),
   (.ld, smp .b32 (.none) (.int 0) (.int 0) (.none) 0),
   (.st, smp .b32 (.none) (.int 0) (.int 0) (.int 0) 0),
   (.ldu, smp .b32 (.none) (.int 0) (.int 0) (.none) 0),
   (.lds, smp .b32 (.none) (.int 0) (.int 0) (.none) 0),
   (.sts, smp .b32 (.none) (.int 0) (.int 0) (.int 0) 0),
   (.pref, smp .b32 (.none) (.int 0) (.int 0) (.none) 0),
   (.stashMap, smp .b32 (.none) (.int 0) (.int 0) (.int 0) 0),
   (.stashUnmap, smp .b32 (.none) (.int 0) (.int 0) (.none) 0),
   (.stashWb, smp .b32 (.none) (.int 0) (.int 0) (.none) 0),
   (.stashInv, smp .b32 (.none) (.int 0) (.int 0) (.none) 0),
   (.bind, smp .b32 (.none) (.int 0) (.int 0) (.int 0) 0),
   (.unbind, smp .b32 (.none) (.int 0) (.none) (.none) 0),
   (.fence, smp .b32 (.none) (.none) (.none) (.none) 0),
   (.atom, smp .i32 (.none) (.int 0) (.int 0) (.int 0) 0),
   (.cas, smp .b32 (.none) (.int 0) (.int 0) (.int 0) 0),
   (.atoms, smp .i32 (.none) (.int 0) (.int 0) (.int 0) 0),
   (.cass, smp .b32 (.none) (.int 0) (.int 0) (.int 0) 0)]

def samples3 : List (Op × Fields) :=
  [(.red, smp .i32 (.none) (.int 0) (.int 0) (.int 0) 0),
   (.redFlush, smp .b32 (.none) (.none) (.none) (.none) 0),
   (.cp, smp .b32 (.none) (.int 0) (.none) (.none) 0),
   (.cp2d, smp .b32 (.none) (.int 0) (.none) (.none) 0),
   (.cpGth, smp .b32 (.none) (.int 0) (.none) (.none) 0),
   (.cpSct, smp .b32 (.none) (.int 0) (.none) (.none) 0),
   (.cpMc, smp .b32 (.none) (.int 0) (.none) (.none) 0),
   (.cpSp, smp .b32 (.none) (.int 0) (.none) (.none) 0),
   (.cpRt, smp .b32 (.none) (.int 0) (.none) (.none) 0),
   (.cpFill, smp .b32 (.none) (.int 0) (.none) (.none) 0),
   (.cpStat, smp .b32 (.none) (.int 0) (.none) (.none) 0),
   (.cpCancel, smp .b32 (.none) (.int 0) (.none) (.none) 0),
   (.mxPost, smp .b32 (.none) (.int 0) (.none) (.none) 0),
   (.mxTeam, smp .b32 (.none) (.int 0) (.none) (.none) 0),
   (.mxDrain, smp .b32 (.none) (.int 0) (.none) (.none) 0),
   (.mxZero, smp .b32 (.none) (.int 0) (.none) (.none) 0),
   (.mxStat, smp .b32 (.none) (.int 0) (.none) (.none) 0),
   (.mxCancel, smp .b32 (.none) (.int 0) (.none) (.none) 0),
   (.barInit, smp .b32 (.none) (.int 0) (.int 0) (.none) 0),
   (.barArr, smp .b32 (.none) (.int 0) (.none) (.none) 0),
   (.barExp, smp .b32 (.none) (.int 0) (.int 0) (.none) 0),
   (.barWait, smp .b32 (.none) (.int 0) (.int 0) (.none) 0),
   (.barTest, smp .b32 (.none) (.int 0) (.int 0) (.none) 0),
   (.gbar, smp .b32 (.none) (.none) (.none) (.none) 0),
   (.chnBind, smp .b32 (.none) (.int 0) (.none) (.none) 0),
   (.chnPop, smp .b32 (.none) (.none) (.none) (.none) 0),
   (.chnTry, smp .b32 (.none) (.none) (.none) (.none) 0),
   (.chnCnt, smp .b32 (.none) (.none) (.none) (.none) 0),
   (.alwBind, smp .b32 (.none) (.int 0) (.none) (.none) 0),
   (.alwTest, smp .b32 (.none) (.none) (.int 0) (.none) 0),
   (.alwRd, smp .b32 (.none) (.none) (.none) (.none) 0),
   (.ldf, smp .b32 (.none) (.int 0) (.int 0) (.none) 0),
   (.stf, smp .b32 (.none) (.int 0) (.int 0) (.int 0) 0),
   (.atomf, smp .i32 (.none) (.int 0) (.int 0) (.int 0) 0),
   (.casf, smp .b32 (.none) (.int 0) (.int 0) (.int 0) 0),
   (.fcp, smp .b32 (.none) (.int 0) (.none) (.none) 0),
   (.wcbFlush, smp .b32 (.none) (.none) (.none) (.none) 0),
   (.fpeer, smp .b32 (.none) (.none) (.none) (.none) 0),
   (.sealOpen, smp .b32 (.none) (.int 0) (.int 0) (.none) 0),
   (.sealAbs, smp .b32 (.none) (.int 0) (.int 0) (.int 0) 0),
   (.sealFin, smp .b32 (.none) (.int 0) (.int 0) (.none) 0),
   (.sealAbt, smp .b32 (.none) (.int 0) (.none) (.none) 0),
   (.sysrd, smp .b64 (.none) (.int 0) (.none) (.none) 0),
   (.syswr, smp .b64 (.none) (.int 0) (.int 0) (.int 0) 0),
   (.icinv, smp .b32 (.none) (.int 0) (.int 0) (.none) 0),
   (.rtDef, smp .b32 (.none) (.int 0) (.int 0) (.none) 0),
   (.fuseRd, smp .b32 (.none) (.int 0) (.none) (.none) 0),
   (.keyWipe, smp .b32 (.none) (.int 0) (.none) (.none) 0),
   (.measExt, smp .b32 (.none) (.int 0) (.int 0) (.none) 0),
   (.sigVfy, smp .b32 (.none) (.int 0) (.int 0) (.none) 0),
   (.dbgOpen, smp .b32 (.none) (.none) (.none) (.none) 0),
   (.halt, smp .b32 (.none) (.int 0) (.none) (.none) 0)]

/-- The sample of an instruction. -/
def sampleOf (o : Op) : Fields :=
  (((samples1 ++ samples2 ++ samples3).find? fun y => y.1 = o).map Prod.snd).getD (smp .b32 .none .none .none .none 0)

theorem sample_legal (o : Op) : encFault (demoAt id id).env true o (sampleOf o) = none := by
  cases o <;> decide +kernel

/-- In the small state the slot of every instruction is ready: the hypothesis of the statements about slot instructions is met
for each of them. -/
theorem witness_ready (o : Op) : SlotReady o (sampleOf o) (demo id id) (demoAt id id) :=
  demo_ready id id o _ (sample_legal o) (fun i => by
    have : (sampleOf o).pk = 0 := by cases o <;> decide +kernel
    rw [this]; rfl) fun _ => rfl

/-! Words written out field by field from R28, R32 and R40. -/

theorem test_decode_control :
    decodeSlot 0x0442C15054D13FC0#64 0#64 = .ok (.dbnz { ty := .b32, pn := true, pk := 3, dstT := false, rsv44 := false, dst := .v 5, a := ⟨.v 5, false, false⟩, b := ⟨.int 17, false, false⟩, c := ⟨.none, false, false⟩, mod := 0, lit := 0 }) ∧
    decodeSlot 0x04800FF324FF3FC0#64 0#64 = .ok (.trap { ty := .b32, pn := false, pk := 0, dstT := false, rsv44 := false, dst := .none, a := ⟨.int 9, false, false⟩, b := ⟨.none, false, false⟩, c := ⟨.none, false, false⟩, mod := 0, lit := 0 }) := by decide +kernel

theorem test_decode_integer :
    decodeSlot 0x15C4016848C41400#64 0#64 = .ok (.bfx { ty := .i32, pn := false, pk := 0, dstT := false, rsv44 := false, dst := .v 6, a := ⟨.v 2, true, false⟩, b := ⟨.int 4, false, false⟩, c := ⟨.s 0, false, false⟩, mod := 0, lit := 0 }) ∧
    decodeSlot 0x1850058160FE3FC3#64 0x123456789ABCDEF#64 = .ok (.movk { ty := .b64, pn := false, pk := 0, dstT := false, rsv44 := false, dst := .s 8, a := ⟨.s 8, false, false⟩, b := ⟨.lit, false, false⟩, c := ⟨.none, false, false⟩, mod := 3, lit := 0x123456789ABCDEF }) := by decide +kernel

theorem test_decode_floating :
    decodeSlot 0x220C0BB044D83FC2#64 0#64 = .ok (.fcmp { ty := .f32, pn := false, pk := 0, dstT := false, rsv44 := false, dst := .k 3, a := ⟨.v 1, false, false⟩, b := ⟨.flt 0, false, false⟩, c := ⟨.none, false, false⟩, mod := 2, lit := 0 }) ∧
    decodeSlot 0x23F96FF53C0F35C0#64 0#64 = .ok (.fdot4 { ty := .i8x4, pn := false, pk := 5, dstT := true, rsv44 := false, dst := .none, a := ⟨.v 63, false, true⟩, b := ⟨.t 15, false, false⟩, c := ⟨.int 23, false, false⟩, mod := 0, lit := 0 }) := by decide +kernel

theorem test_decode_conversion :
    decodeSlot 0x3024018064FF3FD8#64 0#64 = .ok (.cvt { ty := .f16, pn := false, pk := 0, dstT := false, rsv44 := false, dst := .v 8, a := ⟨.v 9, false, false⟩, b := ⟨.none, false, false⟩, c := ⟨.none, false, false⟩, mod := 24, lit := 0 }) ∧
    decodeSlot 0x31B80182DCFF3FC7#64 0#64 = .ok (.unpack { ty := .i8x4, pn := false, pk := 0, dstT := false, rsv44 := false, dst := .v 8, a := ⟨.ch 7, false, false⟩, b := ⟨.none, false, false⟩, c := ⟨.none, false, false⟩, mod := 7, lit := 0 }) := by decide +kernel

theorem test_decode_lane :
    decodeSlot 0x4050012050C33FC1#64 0#64 = .ok (.shflUp { ty := .b64, pn := false, pk := 0, dstT := false, rsv44 := false, dst := .v 2, a := ⟨.v 4, false, false⟩, b := ⟨.int 3, false, false⟩, c := ⟨.none, false, false⟩, mod := 1, lit := 0 }) ∧
    decodeSlot 0x43000AF050CF3FC0#64 0#64 = .ok (.rdlane { ty := .b32, pn := false, pk := 0, dstT := false, rsv44 := false, dst := .s 95, a := ⟨.v 4, false, false⟩, b := ⟨.int 15, false, false⟩, c := ⟨.none, false, false⟩, mod := 0, lit := 0 }) := by decide +kernel

theorem test_decode_special_functions :
    decodeSlot 0x50E4011048DF3FC0#64 0#64 = .ok (.fdiv { ty := .f16, pn := false, pk := 0, dstT := false, rsv44 := false, dst := .v 1, a := ⟨.v 2, false, false⟩, b := ⟨.flt 7, false, false⟩, c := ⟨.none, false, false⟩, mod := 0, lit := 0 }) := by decide +kernel

theorem test_decode_memory :
    decodeSlot 0x601001A048C83FCA#64 0#64 = .ok (.ld { ty := .b64, pn := false, pk := 0, dstT := false, rsv44 := false, dst := .v 10, a := ⟨.v 2, false, false⟩, b := ⟨.int 8, false, false⟩, c := ⟨.none, false, false⟩, mod := 10, lit := 0 }) ∧
    decodeSlot 0x61800FF148103040#64 0#64 = .ok (.stashMap { ty := .b32, pn := false, pk := 0, dstT := false, rsv44 := false, dst := .none, a := ⟨.s 2, false, false⟩, b := ⟨.v 0, false, false⟩, c := ⟨.int 1, false, false⟩, mod := 0, lit := 0 }) := by decide +kernel

theorem test_decode_atomic :
    decodeSlot 0x705041C048140580#64 0#64 = .ok (.cas { ty := .b64, pn := false, pk := 1, dstT := false, rsv44 := false, dst := .v 12, a := ⟨.v 2, false, false⟩, b := ⟨.v 4, false, false⟩, c := ⟨.v 6, false, false⟩, mod := 0, lit := 0 }) ∧
    decodeSlot 0x71200FF048C00588#64 0#64 = .ok (.red { ty := .bf16x2, pn := false, pk := 0, dstT := false, rsv44 := false, dst := .none, a := ⟨.v 2, false, false⟩, b := ⟨.int 0, false, false⟩, c := ⟨.v 6, false, false⟩, mod := 8, lit := 0 }) := by decide +kernel

theorem test_decode_copy :
    decodeSlot 0x80400BF164FF3FC0#64 0#64 = .ok (.cp2d { ty := .b32, pn := false, pk := 0, dstT := false, rsv44 := false, dst := .k 7, a := ⟨.s 9, false, false⟩, b := ⟨.none, false, false⟩, c := ⟨.none, false, false⟩, mod := 0, lit := 0 }) := by decide +kernel

theorem test_decode_matrix :
    decodeSlot 0x9000011164FF3FC0#64 0#64 = .ok (.mxPost { ty := .b32, pn := false, pk := 0, dstT := false, rsv44 := false, dst := .v 1, a := ⟨.s 9, false, false⟩, b := ⟨.none, false, false⟩, c := ⟨.none, false, false⟩, mod := 0, lit := 0 }) := by decide +kernel

theorem test_decode_sync :
    decodeSlot 0xA1C00113FCFF3FC6#64 0#64 = .ok (.chnPop { ty := .b32, pn := false, pk := 0, dstT := false, rsv44 := false, dst := .v 1, a := ⟨.none, false, false⟩, b := ⟨.none, false, false⟩, c := ⟨.none, false, false⟩, mod := 6, lit := 0 }) ∧
    decodeSlot 0xA0C00FF304133FC0#64 0#64 = .ok (.barWait { ty := .b32, pn := false, pk := 0, dstT := false, rsv44 := false, dst := .none, a := ⟨.int 1, false, false⟩, b := ⟨.v 3, false, false⟩, c := ⟨.none, false, false⟩, mod := 0, lit := 0 }) := by decide +kernel

theorem test_decode_fabric :
    decodeSlot 0xB010012050C03FD3#64 0#64 = .ok (.ldf { ty := .b64, pn := false, pk := 0, dstT := false, rsv44 := false, dst := .v 2, a := ⟨.v 4, false, false⟩, b := ⟨.int 0, false, false⟩, c := ⟨.none, false, false⟩, mod := 19, lit := 0 }) := by decide +kernel

theorem test_decode_system :
    decodeSlot 0xC1100123F8FF31C0#64 0x123456789ABCDEF#64 = .ok (.sysrd { ty := .b64, pn := false, pk := 0, dstT := false, rsv44 := false, dst := .v 2, a := ⟨.lit, false, false⟩, b := ⟨.none, false, false⟩, c := ⟨.int 7, false, false⟩, mod := 0, lit := 0x123456789ABCDEF }) ∧
    decodeSlot 0xC040012050160601#64 0#64 = .ok (.sealAbs { ty := .b32, pn := false, pk := 0, dstT := false, rsv44 := false, dst := .v 2, a := ⟨.v 4, false, false⟩, b := ⟨.v 6, false, false⟩, c := ⟨.v 8, false, false⟩, mod := 1, lit := 0 }) := by decide +kernel

/-! Witnesses for the statements about slots whose threads act in turn: a state and fields in which the slot is ready, some
thread executes, and none faults. -/

/-- A slot stays ready in a state with the same crews, slices and clusters running. -/
theorem ready_of {o : Op} {f : Fields} {s t : State} {b : At} (h : SlotReady o f s b) (hc : t.cur = s.cur)
    (hr : t.crews = s.crews) (hh : (t.cluster (b.k / 6)).halted = (s.cluster (b.k / 6)).halted)
    (hi : (t.issue b.k).run = (s.issue b.k).run) : SlotReady o f t b := by
  obtain ⟨a1, a2, a3, a4, a5, a6⟩ := h
  refine ⟨hc.trans a1, hh.trans a2, hi.trans a3, by rw [hr]; exact a4, ?_, a6⟩
  have : t.cohort? b.r.cid b.r.co = s.cohort? b.r.cid b.r.co := by simp only [State.cohort?, hr]
  exact this.trans a5

/-- Threads act in turn somewhere. -/
def TurnMet (o : Op) (g : Fields → Slot → Fin 32 → State → Except Cause (State × W64)) : Prop :=
  ∃ f s b e vals, SlotReady o f s b ∧ (b.slot o f s).ex ≠ 0 ∧
    laneRun (g f (b.slot o f s)) (lanesOf (b.slot o f s).ex) (s, []) = some (e, vals)

theorem turnMet {o : Op} {g : Fields → Slot → Fin 32 → State → Except Cause (State × W64)} (f : Fields) (s : State) (b : At)
    (h : SlotReady o f s b) (he : (b.slot o f s).ex ≠ 0)
    (hr : (laneRun (g f (b.slot o f s)) (lanesOf (b.slot o f s).ex) (s, [])).isSome = true) : TurnMet o g := by
  obtain ⟨⟨e, v⟩, hv⟩ := Option.isSome_iff_exists.1 hr
  exact ⟨f, s, b, e, v, h, he, hv⟩

/-- The same with engines that answer later, or without results. -/
def ActMet (o : Op) (g : Fields → Slot → Fin 32 → State → Except Cause State) (s0 : Slot → State → State) : Prop :=
  ∃ f s b e, SlotReady o f s b ∧ (b.slot o f s).ex ≠ 0 ∧
    actRun (g f (b.slot o f s)) (lanesOf (b.slot o f s).ex) (s0 (b.slot o f s) s) = some e

theorem actMet {o : Op} {g : Fields → Slot → Fin 32 → State → Except Cause State} {s0 : Slot → State → State} (f : Fields)
    (s : State) (b : At) (h : SlotReady o f s b) (he : (b.slot o f s).ex ≠ 0)
    (hr : (actRun (g f (b.slot o f s)) (lanesOf (b.slot o f s).ex) (s0 (b.slot o f s) s)).isSome = true) : ActMet o g s0 := by
  obtain ⟨e, hv⟩ := Option.isSome_iff_exists.1 hr
  exact ⟨f, s, b, e, h, he, hv⟩

theorem ready_mem {o : Op} {f : Fields} {s : State} {b : At} (h : SlotReady o f s b) (m : Memory) :
    SlotReady o f { s with mem := m } b := ready_of h rfl rfl rfl rfl

theorem ready_part {o : Op} {f : Fields} {s : State} {b : At} (h : SlotReady o f s b) (p : SMap Machine.Part) :
    SlotReady o f { s with parts := p } b := ready_of h rfl rfl rfl rfl

/-- The fields with another literal and predicate. -/
def lk (f : Fields) (lit : W64) (pk : Fin 8) : Fields := { f with lit := lit, pk := pk }

/-- Memory with words at a stash offset of the crew of the tests. -/
def stashWords (off : Nat) (l : List W64) : Memory :=
  memWrite [] ((crewOf id id).stashAt off) (l.flatMap fun w => bytesOfNat 8 w.toNat)

/-- A partition of two clusters with a route through both. -/
def part0 : Machine.Part :=
  { (default : Machine.Part) with
    w := 2, h := 1, map := [(0, 0x80000000#32), (1, 0x80000001#32)], routes := [(3, [0x80000000#32, 0x80000001#32])] }

/-- Predicate 1 holds in lane 0 alone. -/
def oneLane (h : Cohort) : Cohort :=
  { h with threads := Vector.ofFn fun i => { h.threads[i] with k := (h.threads[i]).k.set 1 { v := decide (i = 0), p := false } } }

/-- The crew of the tests with seal context 0 of serial number 7. -/
def sealDemo (g : Cohort → Cohort) : State :=
  (demo g id).modCluster Config.clusters fun c => { c with seals := [(0, { (default : SealCtx) with serial := 7, cid := 1 })] }

/-- A team of one crew. -/
def inTeam (c : Crew) : Crew := { c with tw := 1, th := 1 }


theorem witness_turn_barInit : TurnMet .barInit (fun _ x i s =>
      match barFault x ((x.a[i]).p || (x.b[i]).p) (x.a[i]).lo.toNat (decide (2 ^ 16 ≤ (x.b[i]).lo.toNat)) with
      | some c => .error c
      | none =>
        match (s.bar x.crew (x.a[i]).lo.toNat).init (x.b[i]).lo.toNat with
        | some b => .ok (s.setBar x.crew (x.a[i]).lo.toNat b, 0)
        | none => .ok (s, 1)) :=
  turnMet (lk (smp .b32 (.v 0) (.int 1) (.int 4) .none 0) 0 1) (demo oneLane id) (demoAt oneLane id)
    (demo_ready oneLane id .barInit (lk (smp .b32 (.v 0) (.int 1) (.int 4) .none 0) 0 1) (by decide +kernel) (by decide +kernel) (fun _ => rfl))
    (by decide +kernel) (by decide +kernel)

theorem witness_turn_barArr : TurnMet .barArr (fun f x i s =>
      match barFault x (x.a[i]).p (x.a[i]).lo.toNat false with
      | some c => .error c
      | none =>
        ((s.bar x.crew (x.a[i]).lo.toNat).arrive (arriveKind (f.mod.toNat % 4))).map fun b =>
          (s.setBar x.crew (x.a[i]).lo.toNat b, BitVec.ofNat 64 (s.bar x.crew (x.a[i]).lo.toNat).ph)) :=
  turnMet (lk (smp .b32 (.v 0) (.int 1) .none .none 0) 0 1) ({ demo oneLane id with mem := ((demo oneLane id).setBar (crewOf oneLane id) 1 { ph := 0, exa := 64, pna := 64, adj := 0, exb := 0, ldb := 0 }).mem }) (demoAt oneLane id)
    (ready_mem (demo_ready oneLane id .barArr (lk (smp .b32 (.v 0) (.int 1) .none .none 0) 0 1) (by decide +kernel) (by decide +kernel) (fun _ => rfl)) _)
    (by decide +kernel) (by decide +kernel)

theorem witness_turn_barExp : TurnMet .barExp (fun f x i s =>
      match barFault x ((x.a[i]).p || (x.b[i]).p) (x.a[i]).lo.toNat false with
      | some c => .error c
      | none =>
        ((s.bar x.crew (x.a[i]).lo.toNat).expect (x.b[i]).lo.toNat (f.mod.getLsbD 0)).map fun b =>
          (s.setBar x.crew (x.a[i]).lo.toNat b, BitVec.ofNat 64 (s.bar x.crew (x.a[i]).lo.toNat).ph)) :=
  turnMet (lk (smp .b32 (.v 0) (.int 1) (.int 4) .none 0) 0 1) (demo oneLane id) (demoAt oneLane id)
    (demo_ready oneLane id .barExp (lk (smp .b32 (.v 0) (.int 1) (.int 4) .none 0) 0 1) (by decide +kernel) (by decide +kernel) (fun _ => rfl))
    (by decide +kernel) (by decide +kernel)

theorem witness_turn_barTest : TurnMet .barTest (fun _ x i s =>
      match barFault x ((x.a[i]).p || (x.b[i]).p) (x.a[i]).lo.toNat false with
      | some c => .error c
      | none =>
        if (s.bar x.crew (x.a[i]).lo.toNat).ph = (x.b[i]).lo.toNat % 2 ^ 16 then .ok (s, 0)
        else .ok (s.barAcquire x i.val (x.a[i]).lo.toNat, 1)) :=
  turnMet (lk (smp .b32 (.v 0) (.int 1) (.int 3) .none 0) 0 1) (demo oneLane id) (demoAt oneLane id)
    (demo_ready oneLane id .barTest (lk (smp .b32 (.v 0) (.int 1) (.int 3) .none 0) 0 1) (by decide +kernel) (by decide +kernel) (fun _ => rfl))
    (by decide +kernel) (by decide +kernel)

theorem witness_turn_cp : TurnMet .cp (fun _ x i t =>
      match firstErr [failIf (x.a[i]).p cPoisonUse, failIf (decide ((x.a[i]).lo.toNat % 64 ≠ 0)) cMisaligned,
          failIf (decide (x.crew.dOff < (x.a[i]).lo.toNat + 64)) cStashBounds,
          t.cpFault x.crew .cp (eightWords (memRead t.mem (x.crew.stashAt (x.a[i]).lo.toNat) 64))] with
      | some c => .error c
      | none => .ok (t.cpOffer x i.val .cp 0 (eightWords (memRead t.mem (x.crew.stashAt (x.a[i]).lo.toNat) 64)))) :=
  turnMet (lk (smp .b32 (.v 0) (.int 0) .none .none 0) 0 1) ({ demo oneLane id with mem := (stashWords 0 [0x400000004#64, 0x0#64, 0x0#64, 0x0#64, 0x0#64, 0x0#64, 0x0#64, 0x0#64]) }) (demoAt oneLane id)
    (ready_mem (demo_ready oneLane id .cp (lk (smp .b32 (.v 0) (.int 0) .none .none 0) 0 1) (by decide +kernel) (by decide +kernel) (fun _ => rfl)) _)
    (by decide +kernel) (by decide +kernel)

theorem witness_turn_cp2d : TurnMet .cp2d (fun _ x i t =>
      match firstErr [failIf (x.a[i]).p cPoisonUse, failIf (decide ((x.a[i]).lo.toNat % 64 ≠ 0)) cMisaligned,
          failIf (decide (x.crew.dOff < (x.a[i]).lo.toNat + 64)) cStashBounds,
          t.cpFault x.crew .cp2d (eightWords (memRead t.mem (x.crew.stashAt (x.a[i]).lo.toNat) 64))] with
      | some c => .error c
      | none => .ok (t.cpOffer x i.val .cp2d 0 (eightWords (memRead t.mem (x.crew.stashAt (x.a[i]).lo.toNat) 64)))) :=
  turnMet (lk (smp .b32 (.v 0) (.int 0) .none .none 0) 0 1) ({ demo oneLane id with mem := (stashWords 0 [0x400000004#64, 0x0#64, 0x0#64, 0x2#64, 0x800000008#64, 0x0#64, 0x0#64, 0x0#64]) }) (demoAt oneLane id)
    (ready_mem (demo_ready oneLane id .cp2d (lk (smp .b32 (.v 0) (.int 0) .none .none 0) 0 1) (by decide +kernel) (by decide +kernel) (fun _ => rfl)) _)
    (by decide +kernel) (by decide +kernel)

theorem witness_turn_cpGth : TurnMet .cpGth (fun _ x i t =>
      match firstErr [failIf (x.a[i]).p cPoisonUse, failIf (decide ((x.a[i]).lo.toNat % 64 ≠ 0)) cMisaligned,
          failIf (decide (x.crew.dOff < (x.a[i]).lo.toNat + 64)) cStashBounds,
          t.cpFault x.crew .gth (eightWords (memRead t.mem (x.crew.stashAt (x.a[i]).lo.toNat) 64))] with
      | some c => .error c
      | none => .ok (t.cpOffer x i.val .gth 0 (eightWords (memRead t.mem (x.crew.stashAt (x.a[i]).lo.toNat) 64)))) :=
  turnMet (lk (smp .b32 (.v 0) (.int 0) .none .none 0) 0 1) ({ demo oneLane id with mem := (stashWords 0 [0x400000001#64, 0x0#64, 0x0#64, 0x2#64, 0x800000000#64, 0x40#64, 0x0#64, 0x0#64]) }) (demoAt oneLane id)
    (ready_mem (demo_ready oneLane id .cpGth (lk (smp .b32 (.v 0) (.int 0) .none .none 0) 0 1) (by decide +kernel) (by decide +kernel) (fun _ => rfl)) _)
    (by decide +kernel) (by decide +kernel)

theorem witness_turn_cpSct : TurnMet .cpSct (fun _ x i t =>
      match firstErr [failIf (x.a[i]).p cPoisonUse, failIf (decide ((x.a[i]).lo.toNat % 64 ≠ 0)) cMisaligned,
          failIf (decide (x.crew.dOff < (x.a[i]).lo.toNat + 64)) cStashBounds,
          t.cpFault x.crew .sct (eightWords (memRead t.mem (x.crew.stashAt (x.a[i]).lo.toNat) 64))] with
      | some c => .error c
      | none => .ok (t.cpOffer x i.val .sct 0 (eightWords (memRead t.mem (x.crew.stashAt (x.a[i]).lo.toNat) 64)))) :=
  turnMet (lk (smp .b32 (.v 0) (.int 0) .none .none 0) 0 1) ({ demo oneLane id with mem := (stashWords 0 [0x400000004#64, 0x0#64, 0x0#64, 0x2#64, 0x8#64, 0x40#64, 0x0#64, 0x0#64]) }) (demoAt oneLane id)
    (ready_mem (demo_ready oneLane id .cpSct (lk (smp .b32 (.v 0) (.int 0) .none .none 0) 0 1) (by decide +kernel) (by decide +kernel) (fun _ => rfl)) _)
    (by decide +kernel) (by decide +kernel)

theorem witness_turn_cpSp : TurnMet .cpSp (fun _ x i t =>
      match firstErr [failIf (x.a[i]).p cPoisonUse, failIf (decide ((x.a[i]).lo.toNat % 64 ≠ 0)) cMisaligned,
          failIf (decide (x.crew.dOff < (x.a[i]).lo.toNat + 64)) cStashBounds,
          t.cpFault x.crew .sp (eightWords (memRead t.mem (x.crew.stashAt (x.a[i]).lo.toNat) 64))] with
      | some c => .error c
      | none => .ok (t.cpOffer x i.val .sp 0 (eightWords (memRead t.mem (x.crew.stashAt (x.a[i]).lo.toNat) 64)))) :=
  turnMet (lk (smp .b32 (.v 0) (.int 0) .none .none 0) 0 1) ({ demo oneLane id with mem := (stashWords 0 [0x800000001#64, 0x0#64, 0x0#64, 0x1#64, 0x0#64, 0x40#64, 0x0#64, 0x0#64]) }) (demoAt oneLane id)
    (ready_mem (demo_ready oneLane id .cpSp (lk (smp .b32 (.v 0) (.int 0) .none .none 0) 0 1) (by decide +kernel) (by decide +kernel) (fun _ => rfl)) _)
    (by decide +kernel) (by decide +kernel)

theorem witness_turn_cpFill : TurnMet .cpFill (fun _ x i t =>
      match firstErr [failIf (x.a[i]).p cPoisonUse, failIf (decide ((x.a[i]).lo.toNat % 64 ≠ 0)) cMisaligned,
          failIf (decide (x.crew.dOff < (x.a[i]).lo.toNat + 64)) cStashBounds,
          t.cpFault x.crew .fill (eightWords (memRead t.mem (x.crew.stashAt (x.a[i]).lo.toNat) 64))] with
      | some c => .error c
      | none => .ok (t.cpOffer x i.val .fill 0 (eightWords (memRead t.mem (x.crew.stashAt (x.a[i]).lo.toNat) 64)))) :=
  turnMet (lk (smp .b32 (.v 0) (.int 0) .none .none 0) 0 1) ({ demo oneLane id with mem := (stashWords 0 [0x400000001#64, 0x0#64, 0x0#64, 0x0#64, 0x0#64, 0x0#64, 0x7#64, 0x0#64]) }) (demoAt oneLane id)
    (ready_mem (demo_ready oneLane id .cpFill (lk (smp .b32 (.v 0) (.int 0) .none .none 0) 0 1) (by decide +kernel) (by decide +kernel) (fun _ => rfl)) _)
    (by decide +kernel) (by decide +kernel)

theorem witness_turn_cpMc : TurnMet .cpMc (fun _ x i t =>
      match firstErr [failIf (x.a[i]).p cPoisonUse, failIf (decide ((x.a[i]).lo.toNat % 64 ≠ 0)) cMisaligned,
          failIf (decide (x.crew.dOff < (x.a[i]).lo.toNat + 64)) cStashBounds,
          t.cpFault x.crew .mc (eightWords (memRead t.mem (x.crew.stashAt (x.a[i]).lo.toNat) 64))] with
      | some c => .error c
      | none => .ok (t.cpOffer x i.val .mc 0 (eightWords (memRead t.mem (x.crew.stashAt (x.a[i]).lo.toNat) 64)))) :=
  turnMet (lk (smp .b32 (.v 0) (.int 0) .none .none 0) 0 1) ({ demo oneLane inTeam with mem := (stashWords 0 [0x400000001#64, 0x0#64, 0x0#64, 0x100000000#64, 0x0#64, 0x0#64, 0x0#64, 0x0#64]) }) (demoAt oneLane inTeam)
    (ready_mem (demo_ready oneLane inTeam .cpMc (lk (smp .b32 (.v 0) (.int 0) .none .none 0) 0 1) (by decide +kernel) (by decide +kernel) (fun _ => rfl)) _)
    (by decide +kernel) (by decide +kernel)

theorem witness_turn_cpRt : TurnMet .cpRt (fun _ x i t =>
      match firstErr [failIf (x.a[i]).p cPoisonUse, failIf (decide ((x.a[i]).lo.toNat % 64 ≠ 0)) cMisaligned,
          failIf (decide (x.crew.dOff < (x.a[i]).lo.toNat + 64)) cStashBounds,
          t.cpFault x.crew .rt (eightWords (memRead t.mem (x.crew.stashAt (x.a[i]).lo.toNat) 64))] with
      | some c => .error c
      | none => .ok (t.cpOffer x i.val .rt 0 (eightWords (memRead t.mem (x.crew.stashAt (x.a[i]).lo.toNat) 64)))) :=
  turnMet (lk (smp .b32 (.v 0) (.int 0) .none .none 0) 0 1) ({ { demo oneLane id with mem := (stashWords 0 [0x400000005#64, 0x0#64, 0x0#64, 0x3000000000000#64, 0x0#64, 0x0#64, 0x0#64, 0x0#64]) } with parts := [(0, part0)] }) (demoAt oneLane id)
    (ready_part (ready_mem (demo_ready oneLane id .cpRt (lk (smp .b32 (.v 0) (.int 0) .none .none 0) 0 1) (by decide +kernel) (by decide +kernel) (fun _ => rfl)) _) _)
    (by decide +kernel) (by decide +kernel)

theorem witness_turn_mxPost : TurnMet .mxPost (fun _ x i t =>
      match firstErr [failIf (x.a[i]).p cPoisonUse, failIf (decide ((x.a[i]).lo.toNat % 128 ≠ 0)) cMisaligned,
          failIf (decide (x.crew.dOff < (x.a[i]).lo.toNat + 128)) cStashBounds,
          mxFault .card (cardWords (memRead t.mem (x.crew.stashAt (x.a[i]).lo.toNat) 128)) x.crew] with
      | some c => .error c
      | none => .ok (t.mxOffer x i.val .card (cardWords (memRead t.mem (x.crew.stashAt (x.a[i]).lo.toNat) 128)))) :=
  turnMet (lk (smp .b32 (.v 0) (.int 0) .none .none 0) 0 1) ({ demo oneLane id with mem := (stashWords 0 [0x200000000000#64, 0x0#64, 0x0#64, 0x0#64, 0x0#64, 0x100000#64]) }) (demoAt oneLane id)
    (ready_mem (demo_ready oneLane id .mxPost (lk (smp .b32 (.v 0) (.int 0) .none .none 0) 0 1) (by decide +kernel) (by decide +kernel) (fun _ => rfl)) _)
    (by decide +kernel) (by decide +kernel)

theorem witness_turn_mxTeam : TurnMet .mxTeam (fun _ x i t =>
      match firstErr [failIf (x.a[i]).p cPoisonUse, failIf (decide ((x.a[i]).lo.toNat % 128 ≠ 0)) cMisaligned,
          failIf (decide (x.crew.dOff < (x.a[i]).lo.toNat + 128)) cStashBounds,
          mxFault .team (cardWords (memRead t.mem (x.crew.stashAt (x.a[i]).lo.toNat) 128)) x.crew] with
      | some c => .error c
      | none => .ok (t.mxOffer x i.val .team (cardWords (memRead t.mem (x.crew.stashAt (x.a[i]).lo.toNat) 128)))) :=
  turnMet (lk (smp .b32 (.v 0) (.int 0) .none .none 0) 0 1) ({ demo oneLane inTeam with mem := (stashWords 0 [0x6200000000000#64, 0x0#64, 0x0#64, 0x0#64, 0x0#64, 0x100000#64]) }) (demoAt oneLane inTeam)
    (ready_mem (demo_ready oneLane inTeam .mxTeam (lk (smp .b32 (.v 0) (.int 0) .none .none 0) 0 1) (by decide +kernel) (by decide +kernel) (fun _ => rfl)) _)
    (by decide +kernel) (by decide +kernel)

theorem witness_turn_mxDrain : TurnMet .mxDrain (fun _ x i t =>
      match firstErr [failIf (x.a[i]).p cPoisonUse, failIf (decide ((x.a[i]).lo.toNat % 128 ≠ 0)) cMisaligned,
          failIf (decide (x.crew.dOff < (x.a[i]).lo.toNat + 128)) cStashBounds,
          mxFault .drain (cardWords (memRead t.mem (x.crew.stashAt (x.a[i]).lo.toNat) 128)) x.crew] with
      | some c => .error c
      | none => .ok (t.mxOffer x i.val .drain (cardWords (memRead t.mem (x.crew.stashAt (x.a[i]).lo.toNat) 128)))) :=
  turnMet (lk (smp .b32 (.v 0) (.int 0) .none .none 0) 0 1) (demo oneLane id) (demoAt oneLane id)
    (demo_ready oneLane id .mxDrain (lk (smp .b32 (.v 0) (.int 0) .none .none 0) 0 1) (by decide +kernel) (by decide +kernel) (fun _ => rfl))
    (by decide +kernel) (by decide +kernel)

theorem witness_turn_mxZero : TurnMet .mxZero (fun _ x i t =>
      if (x.a[i]).p then .error cPoisonUse
      else if 8 ≤ (x.a[i]).lo.toNat || (x.a[i]).lo.toNat % 4 = 0 then .error cMxCardInvalid
      else .ok (t.mxOffer x i.val .zero [BitVec.ofNat 64 (x.a[i]).lo.toNat])) :=
  turnMet (lk (smp .b32 (.v 0) (.int 1) .none .none 0) 0 1) (demo oneLane id) (demoAt oneLane id)
    (demo_ready oneLane id .mxZero (lk (smp .b32 (.v 0) (.int 1) .none .none 0) 0 1) (by decide +kernel) (by decide +kernel) (fun _ => rfl))
    (by decide +kernel) (by decide +kernel)

theorem witness_turn_cpStat : TurnMet .cpStat (fun f x i t =>
      if (x.a[i]).p then .error cPoisonUse else .ok (t, t.cpStatus x (decide (f.mod ≠ 0)) (x.a[i]).v)) :=
  turnMet (lk (smp .b32 (.v 0) (.int 0) .none .none 0) 0 1) (demo oneLane id) (demoAt oneLane id)
    (demo_ready oneLane id .cpStat (lk (smp .b32 (.v 0) (.int 0) .none .none 0) 0 1) (by decide +kernel) (by decide +kernel) (fun _ => rfl))
    (by decide +kernel) (by decide +kernel)

theorem witness_turn_mxStat : TurnMet .mxStat (fun f x i t =>
      if f.mod = 3 then .ok (t, BitVec.ofNat 64 (bankWord (t.cluster x.p) x.cid))
      else if (x.a[i]).p then .error cPoisonUse
      else .ok (t, t.mxStatus x f.mod.toNat (x.a[i]).v)) :=
  turnMet (lk (smp .b32 (.v 0) (.int 0) .none .none 1) 0 1) (demo oneLane id) (demoAt oneLane id)
    (demo_ready oneLane id .mxStat (lk (smp .b32 (.v 0) (.int 0) .none .none 1) 0 1) (by decide +kernel) (by decide +kernel) (fun _ => rfl))
    (by decide +kernel) (by decide +kernel)

theorem witness_turn_sealOpen : TurnMet .sealOpen (fun _ x i t =>
      if (x.a[i]).p || (x.b[i]).p then .error cPoisonUse
      else if 4 ≤ (x.a[i]).lo.toNat then .error cIllegalOperand
      else .ok (t.sealOpen x i.val (x.a[i]).lo.toNat (x.b[i]).v)) :=
  turnMet (lk (smp .b32 (.v 0) (.int 0) (.int 0) .none 0) 0 1) (demo oneLane id) (demoAt oneLane id)
    (demo_ready oneLane id .sealOpen (lk (smp .b32 (.v 0) (.int 0) (.int 0) .none 0) 0 1) (by decide +kernel) (by decide +kernel) (fun _ => rfl))
    (by decide +kernel) (by decide +kernel)

theorem witness_turn_fuseRd : TurnMet .fuseRd (fun _ x i t =>
      if (x.a[i]).p then .error cPoisonUse
      else if 16 < (x.a[i]).lo.toNat then .error cIllegalOperand
      else .ok (t, if (x.a[i]).lo.toNat = 4 then Config.lifecycleFuse.setWidth 64 else (Config.fuseWord (x.a[i]).lo.toNat).setWidth 64)) :=
  turnMet (lk (smp .b32 (.v 0) (.int 4) .none .none 0) 0 1) (demo oneLane id) (demoAt oneLane id)
    (demo_ready oneLane id .fuseRd (lk (smp .b32 (.v 0) (.int 4) .none .none 0) 0 1) (by decide +kernel) (by decide +kernel) (fun _ => rfl))
    (by decide +kernel) (by decide +kernel)

theorem witness_turn_keyWipe : TurnMet .keyWipe (fun _ x i t =>
      if (x.a[i]).p then .error cPoisonUse
      else if (x.a[i]).lo.toNat = 0xFFFFFFFF then
        .ok ({ forL ((t.parts.map Prod.fst).filter (· ≠ Config.svcTag)) t (fun g u => u.destroy g) with
            latchW := (forL ((t.parts.map Prod.fst).filter (· ≠ Config.svcTag)) t fun g u => u.destroy g).latchW ||
              (forL ((t.parts.map Prod.fst).filter (· ≠ Config.svcTag)) t fun g u => u.destroy g).latchV },
          BitVec.ofNat 64 ((t.parts.map Prod.fst).filter (· ≠ Config.svcTag)).length)
      else if (x.a[i]).lo.toNat = 0 || Config.maxTag < (x.a[i]).lo.toNat then .error cIllegalOperand
      else if (smGet t.parts (x.a[i]).lo.toNat).isSome then .ok (t.destroy (x.a[i]).lo.toNat, 1)
      else .ok (t, 0)) :=
  turnMet (lk (smp .b32 (.v 0) (.int 1) .none .none 0) 0 1) (demo oneLane id) (demoAt oneLane id)
    (demo_ready oneLane id .keyWipe (lk (smp .b32 (.v 0) (.int 1) .none .none 0) 0 1) (by decide +kernel) (by decide +kernel) (fun _ => rfl))
    (by decide +kernel) (by decide +kernel)

theorem witness_turn_dbgOpen : TurnMet .dbgOpen (fun _ _ _ t =>
      if t.latchV && t.latchW && t.latchM then
        .ok ({ t with latchV := false, latchW := false, latchM := false, lifecycle := 3, debugPort := true }, 0)
      else .ok ({ t with latchV := false, latchW := false, latchM := false }, 1)) :=
  turnMet (lk (smp .b32 (.v 0) .none .none .none 0) 0 1) (demo oneLane id) (demoAt oneLane id)
    (demo_ready oneLane id .dbgOpen (lk (smp .b32 (.v 0) .none .none .none 0) 0 1) (by decide +kernel) (by decide +kernel) (fun _ => rfl))
    (by decide +kernel) (by decide +kernel)

theorem witness_turn_rtDef : TurnMet .rtDef (fun _ x i t =>
      match firstErr
        [failIf ((x.a[i]).p || (x.b[i]).p) cPoisonUse, failIf (decide ((x.b[i]).lo.toNat % 128 ≠ 0)) cMisaligned,
         failIf (decide (x.crew.dOff < (x.b[i]).lo.toNat + 256)) cStashBounds,
         failIf (decide (256 ≤ (x.a[i]).lo.toNat) || routeBad (routeImage 64 (memRead t.mem (x.crew.stashAt (x.b[i]).lo.toNat) 256))) cCopyInvalid,
         failIf ((stationsOf (routeImage 64 (memRead t.mem (x.crew.stashAt (x.b[i]).lo.toNat) 256))).any fun e => t.badStation x.crew.part e) cRouteOwner] with
      | some c => .error c
      | none => .ok (t.modPart x.crew.part fun p =>
          { p with routes := smSet p.routes (x.a[i]).lo.toNat (routeImage 64 (memRead t.mem (x.crew.stashAt (x.b[i]).lo.toNat) 256)) }, 0)) :=
  turnMet (lk (smp .b32 .none (.int 3) (.int 0) .none 0) 0 1) ({ { demo oneLane id with mem := (stashWords 0 [0x8000000180000000#64]) } with parts := [(0, part0)] }) (demoAt oneLane id)
    (ready_part (ready_mem (demo_ready oneLane id .rtDef (lk (smp .b32 .none (.int 3) (.int 0) .none 0) 0 1) (by decide +kernel) (by decide +kernel) (fun _ => rfl)) _) _)
    (by decide +kernel) (by decide +kernel)

theorem witness_turn_sealAbt : TurnMet .sealAbt (fun _ x i t =>
      if (x.a[i]).p then .error cPoisonUse
      else
        match (t.cluster x.p).sealNamed x.cid (x.a[i]).lo with
        | none => .error cSealInvalid
        | some (j, y) => .ok (t.abortSeal x.p j y 2 0, BitVec.ofNat 64 (y.data.length % 2 ^ 32))) :=
  turnMet (lk (smp .b32 (.v 0) .lit .none .none 0) 225 1) (sealDemo oneLane) (demoAt oneLane id)
    (ready_of (demo_ready oneLane id .sealAbt (lk (smp .b32 (.v 0) .lit .none .none 0) 225 1) (by decide +kernel) (by decide +kernel) (fun _ => rfl)) rfl rfl rfl rfl)
    (by decide +kernel) (by decide +kernel)

theorem witness_turn_sealAbs : ActMet .sealAbs (fun f x i t => (fun f x id i t =>
      if (x.a[i]).p || (x.b[i]).p || (x.c[i]).p then .error cPoisonUse
      else t.sealAbsorb x id i.val (f.mod.getLsbD 0) (x.a[i]).lo (x.b[i]).v (x.c[i]).lo.toNat) f x 3 i t) (fun x s => s.addPend x.latePend) :=
  actMet (lk (smp .b32 (.v 0) .lit (.int 0) (.int 8) 0) 225 1) (sealDemo oneLane) (demoAt oneLane id)
    (ready_of (demo_ready oneLane id .sealAbs (lk (smp .b32 (.v 0) .lit (.int 0) (.int 8) 0) 225 1) (by decide +kernel) (by decide +kernel) (fun _ => rfl)) rfl rfl rfl rfl)
    (by decide +kernel) (by decide +kernel)

theorem witness_turn_sealFin : ActMet .sealFin (fun f x i t => (fun f x id i t =>
      if (x.a[i]).p || (x.b[i]).p then .error cPoisonUse
      else t.sealFinish x id i.val (f.mod.getLsbD 0) (x.a[i]).lo (x.b[i]).v) f x 3 i t) (fun x s => s.addPend x.latePend) :=
  actMet (lk (smp .b32 (.v 0) .lit (.int 8) .none 0) 225 1) (sealDemo oneLane) (demoAt oneLane id)
    (ready_of (demo_ready oneLane id .sealFin (lk (smp .b32 (.v 0) .lit (.int 8) .none 0) 225 1) (by decide +kernel) (by decide +kernel) (fun _ => rfl)) rfl rfl rfl rfl)
    (by decide +kernel) (by decide +kernel)

theorem witness_turn_syswr : ActMet .syswr (fun _ x i t =>
      if (x.a[i]).p || (x.b[i]).p || (x.c[i]).p then .error cPoisonUse
      else
        match specHeld (x.a[i]).lo.toNat with
        | none | some .own => .error cIllegalOperand
        | some h =>
          match t.holder x (x.hold i) h with
          | none => .error cIllegalOperand
          | some k => .ok (t.sysWrite h k (x.a[i]).lo.toNat (x.b[i]).v)) (fun _ s => s) :=
  actMet (lk (smp .b64 .none (.int 6) .lit (.int 0) 0) 5000 1) ({ demo oneLane id with parts := [(0, part0)] }) (demoAt oneLane id)
    (ready_part (demo_ready oneLane id .syswr (lk (smp .b64 .none (.int 6) .lit (.int 0) 0) 5000 1) (by decide +kernel) (by decide +kernel) (fun _ => rfl)) _)
    (by decide +kernel) (by decide +kernel)

/-! Witnesses for the other statements about slots: the slot is ready and the further hypotheses hold. -/

/-- The slot of an instruction in the small state. -/
def slotOf (o : Op) (f : Fields) (g : Cohort → Cohort) (c : Crew → Crew) : Slot := (demoAt g c).slot o f (demo g c)

/-- Changes every thread of a cohort. -/
def allThreads (f : Thread → Thread) (h : Cohort) : Cohort := { h with threads := Vector.ofFn fun i => f h.threads[i] }

/-- Predicate 1 in lane 0 alone, v0 at the start of the mapped area. -/
def mapLane (h : Cohort) : Cohort := allThreads (fun t => { t with v := t.v.set 0 { v := 61440, p := false } }) (oneLane h)

/-- Handle 0 is bound to peer 5. -/
def bound5 (h : Cohort) : Cohort := { h with w := h.w.set 0 (some { cls := 0, dst := 5, val := 4096, since := 0 }) }

/-- A region is open, first result number `n`, suspect or not. -/
def openAt (n : Nat) (b : Bool) (h : Cohort) : Cohort := { h with rgn := { h.rgn with opened := true, first := n, suspect := b } }

/-- A result of the crew that a clause before this one issued. -/
def pend0 : Pend := { (default : Pend) with cid := 1, co := 0, tok := 1, waitRes := 1 }

theorem witness_LeaResults : SlotReady .lea (lk (smp .n64 (.v 4) .lit (.int 2) (.int 17) 0x13) 0x1000 0) (demo id id) (demoAt id id) ∧ (slotOf .lea (lk (smp .n64 (.v 4) .lit (.int 2) (.int 17) 0x13) 0x1000 0) id id).ex ≠ 0 ∧
    ∀ l : Fin 32, (slotOf .lea (lk (smp .n64 (.v 4) .lit (.int 2) (.int 17) 0x13) 0x1000 0) id id).ex.getLsbD l = true → ((slotOf .lea (lk (smp .n64 (.v 4) .lit (.int 2) (.int 17) 0x13) 0x1000 0) id id).a[l]).p = false ∧ ((slotOf .lea (lk (smp .n64 (.v 4) .lit (.int 2) (.int 17) 0x13) 0x1000 0) id id).b[l]).p = false ∧ ((slotOf .lea (lk (smp .n64 (.v 4) .lit (.int 2) (.int 17) 0x13) 0x1000 0) id id).c[l]).p = false ∧ leaFault (leaSum ((lk (smp .n64 (.v 4) .lit (.int 2) (.int 17) 0x13) 0x1000 0)).mod ((slotOf .lea (lk (smp .n64 (.v 4) .lit (.int 2) (.int 17) 0x13) 0x1000 0) id id).a[l]).v ((slotOf .lea (lk (smp .n64 (.v 4) .lit (.int 2) (.int 17) 0x13) 0x1000 0) id id).b[l]).v ((slotOf .lea (lk (smp .n64 (.v 4) .lit (.int 2) (.int 17) 0x13) 0x1000 0) id id).c[l]).v) = none :=
  ⟨demo_ready id id .lea (lk (smp .n64 (.v 4) .lit (.int 2) (.int 17) 0x13) 0x1000 0) (by decide +kernel) (by decide +kernel) (by decide +kernel), by decide +kernel, by decide +kernel⟩

theorem witness_LanePermuteResults_xpose : SlotReady .xpose (lk (smp .b32 (.v 4) (.v 32) (.int 15) .none 0) 0 0) (demo id id) (demoAt id id) ∧ (slotOf .xpose (lk (smp .b32 (.v 4) (.v 32) (.int 15) .none 0) 0 0) id id).ex ≠ 0 ∧
    ∀ l : Fin 32, (slotOf .xpose (lk (smp .b32 (.v 4) (.v 32) (.int 15) .none 0) 0 0) id id).ex.getLsbD l = true → xposeFault (slotOf .xpose (lk (smp .b32 (.v 4) (.v 32) (.int 15) .none 0) 0 0) id id) l = none :=
  ⟨demo_ready id id .xpose (lk (smp .b32 (.v 4) (.v 32) (.int 15) .none 0) 0 0) (by decide +kernel) (by decide +kernel) (by decide +kernel), by decide +kernel, by decide +kernel⟩

theorem witness_TransfersReachTargets_br : SlotReady .br (lk (smp .b32 .none (.int 15) .none .none 0) 0 0) (demo id id) (demoAt id id) ∧ (slotOf .br (lk (smp .b32 .none (.int 15) .none .none 0) 0 0) id id).ex ≠ 0 ∧
    ∀ l : Fin 32, (slotOf .br (lk (smp .b32 .none (.int 15) .none .none 0) 0 0) id id).ex.getLsbD l = true → ((slotOf .br (lk (smp .b32 .none (.int 15) .none .none 0) 0 0) id id).a[l]).p = false ∧ 0 ≤ relTarget ((demoAt id id)).r.hpc (slotOf .br (lk (smp .b32 .none (.int 15) .none .none 0) 0 0) id id).a[l] ∧ relTarget ((demoAt id id)).r.hpc (slotOf .br (lk (smp .b32 .none (.int 15) .none .none 0) 0 0) id id).a[l] < (2 : Int) ^ 64 ∧ isCanon (toW64 (relTarget ((demoAt id id)).r.hpc (slotOf .br (lk (smp .b32 .none (.int 15) .none .none 0) 0 0) id id).a[l])) = true ∧ relTarget ((demoAt id id)).r.hpc (slotOf .br (lk (smp .b32 .none (.int 15) .none .none 0) 0 0) id id).a[l] % 8 = 0 :=
  ⟨demo_ready id id .br (lk (smp .b32 .none (.int 15) .none .none 0) 0 0) (by decide +kernel) (by decide +kernel) (by decide +kernel), by decide +kernel, by decide +kernel⟩

theorem witness_TransfersReachTargets_call : SlotReady .call (lk (smp .b32 (.v 2) (.int 15) .none .none 0) 0 0) (demo id id) (demoAt id id) ∧ (slotOf .call (lk (smp .b32 (.v 2) (.int 15) .none .none 0) 0 0) id id).ex ≠ 0 ∧
    ∀ l : Fin 32, (slotOf .call (lk (smp .b32 (.v 2) (.int 15) .none .none 0) 0 0) id id).ex.getLsbD l = true → ((slotOf .call (lk (smp .b32 (.v 2) (.int 15) .none .none 0) 0 0) id id).a[l]).p = false ∧ 0 ≤ relTarget ((demoAt id id)).r.hpc (slotOf .call (lk (smp .b32 (.v 2) (.int 15) .none .none 0) 0 0) id id).a[l] ∧ relTarget ((demoAt id id)).r.hpc (slotOf .call (lk (smp .b32 (.v 2) (.int 15) .none .none 0) 0 0) id id).a[l] < (2 : Int) ^ 64 ∧ isCanon (toW64 (relTarget ((demoAt id id)).r.hpc (slotOf .call (lk (smp .b32 (.v 2) (.int 15) .none .none 0) 0 0) id id).a[l])) = true ∧ relTarget ((demoAt id id)).r.hpc (slotOf .call (lk (smp .b32 (.v 2) (.int 15) .none .none 0) 0 0) id id).a[l] % 8 = 0 :=
  ⟨demo_ready id id .call (lk (smp .b32 (.v 2) (.int 15) .none .none 0) 0 0) (by decide +kernel) (by decide +kernel) (by decide +kernel), by decide +kernel, by decide +kernel⟩

theorem witness_TransfersReachTargets_jmp : SlotReady .jmp (lk (smp .b32 .none .lit .none .none 0) 0xff00000000000008 0) (demo id id) (demoAt id id) ∧ (slotOf .jmp (lk (smp .b32 .none .lit .none .none 0) 0xff00000000000008 0) id id).ex ≠ 0 ∧
    ∀ l : Fin 32, (slotOf .jmp (lk (smp .b32 .none .lit .none .none 0) 0xff00000000000008 0) id id).ex.getLsbD l = true → ((slotOf .jmp (lk (smp .b32 .none .lit .none .none 0) 0xff00000000000008 0) id id).a[l]).p = false ∧ 0 ≤ (((slotOf .jmp (lk (smp .b32 .none .lit .none .none 0) 0xff00000000000008 0) id id).a[l]).v.toNat : Int) ∧ (((slotOf .jmp (lk (smp .b32 .none .lit .none .none 0) 0xff00000000000008 0) id id).a[l]).v.toNat : Int) < (2 : Int) ^ 64 ∧ isCanon (toW64 ((((slotOf .jmp (lk (smp .b32 .none .lit .none .none 0) 0xff00000000000008 0) id id).a[l]).v.toNat : Int))) = true ∧ (((slotOf .jmp (lk (smp .b32 .none .lit .none .none 0) 0xff00000000000008 0) id id).a[l]).v.toNat : Int) % 8 = 0 :=
  ⟨demo_ready id id .jmp (lk (smp .b32 .none .lit .none .none 0) 0xff00000000000008 0) (by decide +kernel) (by decide +kernel) (by decide +kernel), by decide +kernel, by decide +kernel⟩

theorem witness_TransfersReachTargets_callr : SlotReady .callr (lk (smp .b32 (.v 2) .lit .none .none 0) 0xff00000000000008 0) (demo id id) (demoAt id id) ∧ (slotOf .callr (lk (smp .b32 (.v 2) .lit .none .none 0) 0xff00000000000008 0) id id).ex ≠ 0 ∧
    ∀ l : Fin 32, (slotOf .callr (lk (smp .b32 (.v 2) .lit .none .none 0) 0xff00000000000008 0) id id).ex.getLsbD l = true → ((slotOf .callr (lk (smp .b32 (.v 2) .lit .none .none 0) 0xff00000000000008 0) id id).a[l]).p = false ∧ 0 ≤ (((slotOf .callr (lk (smp .b32 (.v 2) .lit .none .none 0) 0xff00000000000008 0) id id).a[l]).v.toNat : Int) ∧ (((slotOf .callr (lk (smp .b32 (.v 2) .lit .none .none 0) 0xff00000000000008 0) id id).a[l]).v.toNat : Int) < (2 : Int) ^ 64 ∧ isCanon (toW64 ((((slotOf .callr (lk (smp .b32 (.v 2) .lit .none .none 0) 0xff00000000000008 0) id id).a[l]).v.toNat : Int))) = true ∧ (((slotOf .callr (lk (smp .b32 (.v 2) .lit .none .none 0) 0xff00000000000008 0) id id).a[l]).v.toNat : Int) % 8 = 0 :=
  ⟨demo_ready id id .callr (lk (smp .b32 (.v 2) .lit .none .none 0) 0xff00000000000008 0) (by decide +kernel) (by decide +kernel) (by decide +kernel), by decide +kernel, by decide +kernel⟩

theorem witness_TransfersReachTargets_ret : SlotReady .ret (lk (smp .b32 .none .lit .none .none 0) 0xff00000000000008 0) (demo id id) (demoAt id id) ∧ (slotOf .ret (lk (smp .b32 .none .lit .none .none 0) 0xff00000000000008 0) id id).ex ≠ 0 ∧
    ∀ l : Fin 32, (slotOf .ret (lk (smp .b32 .none .lit .none .none 0) 0xff00000000000008 0) id id).ex.getLsbD l = true → ((slotOf .ret (lk (smp .b32 .none .lit .none .none 0) 0xff00000000000008 0) id id).a[l]).p = false ∧ 0 ≤ (((slotOf .ret (lk (smp .b32 .none .lit .none .none 0) 0xff00000000000008 0) id id).a[l]).v.toNat : Int) ∧ (((slotOf .ret (lk (smp .b32 .none .lit .none .none 0) 0xff00000000000008 0) id id).a[l]).v.toNat : Int) < (2 : Int) ^ 64 ∧ isCanon (toW64 ((((slotOf .ret (lk (smp .b32 .none .lit .none .none 0) 0xff00000000000008 0) id id).a[l]).v.toNat : Int))) = true ∧ (((slotOf .ret (lk (smp .b32 .none .lit .none .none 0) 0xff00000000000008 0) id id).a[l]).v.toNat : Int) % 8 = 0 :=
  ⟨demo_ready id id .ret (lk (smp .b32 .none .lit .none .none 0) 0xff00000000000008 0) (by decide +kernel) (by decide +kernel) (by decide +kernel), by decide +kernel, by decide +kernel⟩

theorem witness_TransferFaultsTrap_br : SlotReady .br (lk (smp .b32 .none (.int 16) .none .none 0) 0 0) (demo id id) (demoAt id id) ∧ (slotOf .br (lk (smp .b32 .none (.int 16) .none .none 0) 0 0) id id).ex ≠ 0 ∧
    ∀ l : Fin 32, (slotOf .br (lk (smp .b32 .none (.int 16) .none .none 0) 0 0) id id).ex.getLsbD l = true → relFault ((demoAt id id)).r.hpc (slotOf .br (lk (smp .b32 .none (.int 16) .none .none 0) 0 0) id id).a[l] = some cAddrWrap :=
  ⟨demo_ready id id .br (lk (smp .b32 .none (.int 16) .none .none 0) 0 0) (by decide +kernel) (by decide +kernel) (by decide +kernel), by decide +kernel, by decide +kernel⟩

theorem witness_TransferFaultsTrap_call : SlotReady .call (lk (smp .b32 (.v 2) (.int 16) .none .none 0) 0 0) (demo id id) (demoAt id id) ∧ (slotOf .call (lk (smp .b32 (.v 2) (.int 16) .none .none 0) 0 0) id id).ex ≠ 0 ∧
    ∀ l : Fin 32, (slotOf .call (lk (smp .b32 (.v 2) (.int 16) .none .none 0) 0 0) id id).ex.getLsbD l = true → relFault ((demoAt id id)).r.hpc (slotOf .call (lk (smp .b32 (.v 2) (.int 16) .none .none 0) 0 0) id id).a[l] = some cAddrWrap :=
  ⟨demo_ready id id .call (lk (smp .b32 (.v 2) (.int 16) .none .none 0) 0 0) (by decide +kernel) (by decide +kernel) (by decide +kernel), by decide +kernel, by decide +kernel⟩

theorem witness_TransferFaultsTrap_jmp : SlotReady .jmp (lk (smp .b32 .none (.int 4) .none .none 0) 0 0) (demo id id) (demoAt id id) ∧ (slotOf .jmp (lk (smp .b32 .none (.int 4) .none .none 0) 0 0) id id).ex ≠ 0 ∧
    ∀ l : Fin 32, (slotOf .jmp (lk (smp .b32 .none (.int 4) .none .none 0) 0 0) id id).ex.getLsbD l = true → absFault (slotOf .jmp (lk (smp .b32 .none (.int 4) .none .none 0) 0 0) id id).a[l] = some cMisaligned :=
  ⟨demo_ready id id .jmp (lk (smp .b32 .none (.int 4) .none .none 0) 0 0) (by decide +kernel) (by decide +kernel) (by decide +kernel), by decide +kernel, by decide +kernel⟩

theorem witness_TransferFaultsTrap_callr : SlotReady .callr (lk (smp .b32 (.v 2) (.int 4) .none .none 0) 0 0) (demo id id) (demoAt id id) ∧ (slotOf .callr (lk (smp .b32 (.v 2) (.int 4) .none .none 0) 0 0) id id).ex ≠ 0 ∧
    ∀ l : Fin 32, (slotOf .callr (lk (smp .b32 (.v 2) (.int 4) .none .none 0) 0 0) id id).ex.getLsbD l = true → absFault (slotOf .callr (lk (smp .b32 (.v 2) (.int 4) .none .none 0) 0 0) id id).a[l] = some cMisaligned :=
  ⟨demo_ready id id .callr (lk (smp .b32 (.v 2) (.int 4) .none .none 0) 0 0) (by decide +kernel) (by decide +kernel) (by decide +kernel), by decide +kernel, by decide +kernel⟩

theorem witness_TransferFaultsTrap_ret : SlotReady .ret (lk (smp .b32 .none (.int 4) .none .none 0) 0 0) (demo id id) (demoAt id id) ∧ (slotOf .ret (lk (smp .b32 .none (.int 4) .none .none 0) 0 0) id id).ex ≠ 0 ∧
    ∀ l : Fin 32, (slotOf .ret (lk (smp .b32 .none (.int 4) .none .none 0) 0 0) id id).ex.getLsbD l = true → absFault (slotOf .ret (lk (smp .b32 .none (.int 4) .none .none 0) 0 0) id id).a[l] = some cMisaligned :=
  ⟨demo_ready id id .ret (lk (smp .b32 .none (.int 4) .none .none 0) 0 0) (by decide +kernel) (by decide +kernel) (by decide +kernel), by decide +kernel, by decide +kernel⟩

theorem witness_DbnzRule : SlotReady .dbnz (lk (smp .b32 (.v 5) (.int 2) (.int 3) .none 0) 0 0) (demo id id) (demoAt id id) ∧ (slotOf .dbnz (lk (smp .b32 (.v 5) (.int 2) (.int 3) .none 0) 0 0) id id).ex ≠ 0 ∧
    ∀ l : Fin 32, (slotOf .dbnz (lk (smp .b32 (.v 5) (.int 2) (.int 3) .none 0) 0 0) id id).ex.getLsbD l = true → ((slotOf .dbnz (lk (smp .b32 (.v 5) (.int 2) (.int 3) .none 0) 0 0) id id).a[l]).p = false ∧ ((slotOf .dbnz (lk (smp .b32 (.v 5) (.int 2) (.int 3) .none 0) 0 0) id id).a[l]).lo - 1 ≠ 0 ∧ ((slotOf .dbnz (lk (smp .b32 (.v 5) (.int 2) (.int 3) .none 0) 0 0) id id).b[l]).p = false ∧ 0 ≤ relTarget ((demoAt id id)).r.hpc (slotOf .dbnz (lk (smp .b32 (.v 5) (.int 2) (.int 3) .none 0) 0 0) id id).b[l] ∧ relTarget ((demoAt id id)).r.hpc (slotOf .dbnz (lk (smp .b32 (.v 5) (.int 2) (.int 3) .none 0) 0 0) id id).b[l] < (2 : Int) ^ 64 ∧ isCanon (toW64 (relTarget ((demoAt id id)).r.hpc (slotOf .dbnz (lk (smp .b32 (.v 5) (.int 2) (.int 3) .none 0) 0 0) id id).b[l])) = true ∧ relTarget ((demoAt id id)).r.hpc (slotOf .dbnz (lk (smp .b32 (.v 5) (.int 2) (.int 3) .none 0) 0 0) id id).b[l] % 8 = 0 :=
  ⟨demo_ready id id .dbnz (lk (smp .b32 (.v 5) (.int 2) (.int 3) .none 0) 0 0) (by decide +kernel) (by decide +kernel) (by decide +kernel), by decide +kernel, by decide +kernel⟩

theorem witness_ControlInstructions_tileSet : SlotReady .tileSet (lk (smp .b32 .none (.int 8) .none .none 0) 0 0) (demo id id) (demoAt id id) ∧ (slotOf .tileSet (lk (smp .b32 .none (.int 8) .none .none 0) 0 0) id id).ex ≠ 0 ∧
    (((slotOf .tileSet (lk (smp .b32 .none (.int 8) .none .none 0) 0 0) id id).uni (slotOf .tileSet (lk (smp .b32 .none (.int 8) .none .none 0) 0 0) id id).a).p = false ∧ ((slotOf .tileSet (lk (smp .b32 .none (.int 8) .none .none 0) 0 0) id id).uni (slotOf .tileSet (lk (smp .b32 .none (.int 8) .none .none 0) 0 0) id id).a).lo.toNat ∈ [2, 4, 8, 16, 32]) :=
  ⟨demo_ready id id .tileSet (lk (smp .b32 .none (.int 8) .none .none 0) 0 0) (by decide +kernel) (by decide +kernel) (by decide +kernel), by decide +kernel, by decide +kernel⟩

theorem witness_ControlInstructions_fwait : SlotReady .fwait (lk (smp .b32 .none (.int 3) .none .none 0) 0 0) (demo id id) (demoAt id id) ∧ (slotOf .fwait (lk (smp .b32 .none (.int 3) .none .none 0) 0 0) id id).ex ≠ 0 ∧
    ∀ l : Fin 32, (slotOf .fwait (lk (smp .b32 .none (.int 3) .none .none 0) 0 0) id id).ex.getLsbD l = true → ((slotOf .fwait (lk (smp .b32 .none (.int 3) .none .none 0) 0 0) id id).a[l]).p = false :=
  ⟨demo_ready id id .fwait (lk (smp .b32 .none (.int 3) .none .none 0) 0 0) (by decide +kernel) (by decide +kernel) (by decide +kernel), by decide +kernel, by decide +kernel⟩

theorem witness_RegionInstructions_commit_rgnOpen : SlotReady .rgnOpen (lk (smp .b32 .none .none .none .none 0) 0 0) (demo id id) (demoAt id id) ∧ (slotOf .rgnOpen (lk (smp .b32 .none .none .none .none 0) 0 0) id id).ex ≠ 0 ∧
    (demo id id).closeDecision ((demoAt id id)).r.cid ((demoAt id id)).r.co (some ((demoAt id id)).r.tok) = .commit :=
  ⟨demo_ready id id .rgnOpen (lk (smp .b32 .none .none .none .none 0) 0 0) (by decide +kernel) (by decide +kernel) (by decide +kernel), by decide +kernel, by decide +kernel⟩

theorem witness_RegionInstructions_restart_rgnOpen : SlotReady .rgnOpen (lk (smp .b32 .none .none .none .none 0) 0 0) (demo (openAt 9 true) id) (demoAt (openAt 9 true) id) ∧ (slotOf .rgnOpen (lk (smp .b32 .none .none .none .none 0) 0 0) (openAt 9 true) id).ex ≠ 0 ∧
    (demo (openAt 9 true) id).closeDecision ((demoAt (openAt 9 true) id)).r.cid ((demoAt (openAt 9 true) id)).r.co (some ((demoAt (openAt 9 true) id)).r.tok) = .restart :=
  ⟨demo_ready (openAt 9 true) id .rgnOpen (lk (smp .b32 .none .none .none .none 0) 0 0) (by decide +kernel) (by decide +kernel) (by decide +kernel), by decide +kernel, by decide +kernel⟩

theorem witness_RegionInstructions_commit_rgnClose : SlotReady .rgnClose (lk (smp .b32 .none .none .none .none 0) 0 0) (demo id id) (demoAt id id) ∧ (slotOf .rgnClose (lk (smp .b32 .none .none .none .none 0) 0 0) id id).ex ≠ 0 ∧
    (demo id id).closeDecision ((demoAt id id)).r.cid ((demoAt id id)).r.co (some ((demoAt id id)).r.tok) = .commit :=
  ⟨demo_ready id id .rgnClose (lk (smp .b32 .none .none .none .none 0) 0 0) (by decide +kernel) (by decide +kernel) (by decide +kernel), by decide +kernel, by decide +kernel⟩

theorem witness_RegionInstructions_restart_rgnClose : SlotReady .rgnClose (lk (smp .b32 .none .none .none .none 0) 0 0) (demo (openAt 9 true) id) (demoAt (openAt 9 true) id) ∧ (slotOf .rgnClose (lk (smp .b32 .none .none .none .none 0) 0 0) (openAt 9 true) id).ex ≠ 0 ∧
    (demo (openAt 9 true) id).closeDecision ((demoAt (openAt 9 true) id)).r.cid ((demoAt (openAt 9 true) id)).r.co (some ((demoAt (openAt 9 true) id)).r.tok) = .restart :=
  ⟨demo_ready (openAt 9 true) id .rgnClose (lk (smp .b32 .none .none .none .none 0) 0 0) (by decide +kernel) (by decide +kernel) (by decide +kernel), by decide +kernel, by decide +kernel⟩

theorem witness_RegionInstructions_wait : SlotReady .rgnOpen (lk (smp .b32 .none .none .none .none 0) 0 0) (demo (openAt 4 false) id) (demoAt (openAt 4 false) id) ∧ (slotOf .rgnOpen (lk (smp .b32 .none .none .none .none 0) 0 0) (openAt 4 false) id).ex ≠ 0 ∧
    { (demo (openAt 4 false) id) with pends := [(5, pend0)] }.closeDecision ((demoAt (openAt 4 false) id)).r.cid ((demoAt (openAt 4 false) id)).r.co (some ((demoAt (openAt 4 false) id)).r.tok) = .wait :=
  ⟨demo_ready (openAt 4 false) id .rgnOpen (lk (smp .b32 .none .none .none .none 0) 0 0) (by decide +kernel) (by decide +kernel) (by decide +kernel), by decide +kernel, by decide +kernel⟩

theorem witness_TrapReturn : SlotReady .trapret (lk (smp .b32 .none .lit .none .none 0) 0x1008 0) (demo (allThreads fun t => { t with inHandler := true, rpc := 0x40 }) id) (demoAt (allThreads fun t => { t with inHandler := true, rpc := 0x40 }) id) ∧ (slotOf .trapret (lk (smp .b32 .none .lit .none .none 0) 0x1008 0) (allThreads fun t => { t with inHandler := true, rpc := 0x40 }) id).ex ≠ 0 ∧
    ∀ l : Fin 32, (slotOf .trapret (lk (smp .b32 .none .lit .none .none 0) 0x1008 0) (allThreads fun t => { t with inHandler := true, rpc := 0x40 }) id).ex.getLsbD l = true → (((demoAt (allThreads fun t => { t with inHandler := true, rpc := 0x40 }) id)).h.threads[l]).inHandler = true ∧ (((lk (smp .b32 .none .lit .none .none 0) 0x1008 0)).a.sel ≠ .none → ((slotOf .trapret (lk (smp .b32 .none .lit .none .none 0) 0x1008 0) (allThreads fun t => { t with inHandler := true, rpc := 0x40 }) id).a[l]).p = false ∧ 0 ≤ (((slotOf .trapret (lk (smp .b32 .none .lit .none .none 0) 0x1008 0) (allThreads fun t => { t with inHandler := true, rpc := 0x40 }) id).a[l]).v.toNat : Int) ∧ (((slotOf .trapret (lk (smp .b32 .none .lit .none .none 0) 0x1008 0) (allThreads fun t => { t with inHandler := true, rpc := 0x40 }) id).a[l]).v.toNat : Int) < (2 : Int) ^ 64 ∧ isCanon (toW64 ((((slotOf .trapret (lk (smp .b32 .none .lit .none .none 0) 0x1008 0) (allThreads fun t => { t with inHandler := true, rpc := 0x40 }) id).a[l]).v.toNat : Int))) = true ∧ (((slotOf .trapret (lk (smp .b32 .none .lit .none .none 0) 0x1008 0) (allThreads fun t => { t with inHandler := true, rpc := 0x40 }) id).a[l]).v.toNat : Int) % 8 = 0) :=
  ⟨demo_ready (allThreads fun t => { t with inHandler := true, rpc := 0x40 }) id .trapret (lk (smp .b32 .none .lit .none .none 0) 0x1008 0) (by decide +kernel) (by decide +kernel) (by decide +kernel), by decide +kernel, by decide +kernel⟩

theorem witness_TrapReturn_outside : SlotReady .trapret (lk (smp .b32 .none .none .none .none 0) 0 0) (demo id id) (demoAt id id) ∧ (slotOf .trapret (lk (smp .b32 .none .none .none .none 0) 0 0) id id).ex ≠ 0 ∧
    ∀ l : Fin 32, (slotOf .trapret (lk (smp .b32 .none .none .none .none 0) 0 0) id id).ex.getLsbD l = true → (((demoAt id id)).h.threads[l]).inHandler = false :=
  ⟨demo_ready id id .trapret (lk (smp .b32 .none .none .none .none 0) 0 0) (by decide +kernel) (by decide +kernel) (by decide +kernel), by decide +kernel, by decide +kernel⟩

theorem witness_BarrierInstructions_wait : SlotReady .barWait (lk (smp .b32 .none (.int 7) (.int 0) .none 0) 0 0) (demo id id) (demoAt id id) ∧ (slotOf .barWait (lk (smp .b32 .none (.int 7) (.int 0) .none 0) 0 0) id id).ex ≠ 0 ∧
    ∀ l : Fin 32, (slotOf .barWait (lk (smp .b32 .none (.int 7) (.int 0) .none 0) 0 0) id id).ex.getLsbD l = true → ((slotOf .barWait (lk (smp .b32 .none (.int 7) (.int 0) .none 0) 0 0) id id).a[l]).p = false ∧ ((slotOf .barWait (lk (smp .b32 .none (.int 7) (.int 0) .none 0) 0 0) id id).b[l]).p = false ∧ ((slotOf .barWait (lk (smp .b32 .none (.int 7) (.int 0) .none 0) 0 0) id id).a[l]).lo.toNat < ((demoAt id id)).c.sync :=
  ⟨demo_ready id id .barWait (lk (smp .b32 .none (.int 7) (.int 0) .none 0) 0 0) (by decide +kernel) (by decide +kernel) (by decide +kernel), by decide +kernel, by decide +kernel⟩

theorem witness_ChannelInstructions_bind : SlotReady .chnBind (lk (smp .b32 .none (.int 7) .none .none 2) 0 0) (demo id id) (demoAt id id) ∧ (slotOf .chnBind (lk (smp .b32 .none (.int 7) .none .none 2) 0 0) id id).ex ≠ 0 ∧
    (((slotOf .chnBind (lk (smp .b32 .none (.int 7) .none .none 2) 0 0) id id).uni (slotOf .chnBind (lk (smp .b32 .none (.int 7) .none .none 2) 0 0) id id).a).p = false ∧ ((slotOf .chnBind (lk (smp .b32 .none (.int 7) .none .none 2) 0 0) id id).uni (slotOf .chnBind (lk (smp .b32 .none (.int 7) .none .none 2) 0 0) id id).a).lo.toNat < 16 ∧ (((slotOf .chnBind (lk (smp .b32 .none (.int 7) .none .none 2) 0 0) id id).uni (slotOf .chnBind (lk (smp .b32 .none (.int 7) .none .none 2) 0 0) id id).a).lo.toNat < 8 → ((slotOf .chnBind (lk (smp .b32 .none (.int 7) .none .none 2) 0 0) id id).uni (slotOf .chnBind (lk (smp .b32 .none (.int 7) .none .none 2) 0 0) id id).a).lo.toNat < ((demoAt id id)).c.chan)) :=
  ⟨demo_ready id id .chnBind (lk (smp .b32 .none (.int 7) .none .none 2) 0 0) (by decide +kernel) (by decide +kernel) (by decide +kernel), by decide +kernel, by decide +kernel⟩

theorem witness_ChannelInstructions_drop : SlotReady .chnPop (lk (smp .b32 .none .none .none .none 8) 0 0) (demo id id) (demoAt id id) ∧ (slotOf .chnPop (lk (smp .b32 .none .none .none .none 8) 0 0) id id).ex ≠ 0 ∧
    ((lk (smp .b32 .none .none .none .none 8) 0 0)).mod.getLsbD 3 = true :=
  ⟨demo_ready id id .chnPop (lk (smp .b32 .none .none .none .none 8) 0 0) (by decide +kernel) (by decide +kernel) (by decide +kernel), by decide +kernel, by decide +kernel⟩

theorem witness_AllowanceInstructions_bind : SlotReady .alwBind (lk (smp .b32 .none .lit .none .none 1) 0x80000003 0) (demo id id) (demoAt id id) ∧ (slotOf .alwBind (lk (smp .b32 .none .lit .none .none 1) 0x80000003 0) id id).ex ≠ 0 ∧
    (((slotOf .alwBind (lk (smp .b32 .none .lit .none .none 1) 0x80000003 0) id id).uni (slotOf .alwBind (lk (smp .b32 .none .lit .none .none 1) 0x80000003 0) id id).a).p = false ∧ bits ((slotOf .alwBind (lk (smp .b32 .none .lit .none .none 1) 0x80000003 0) id id).uni (slotOf .alwBind (lk (smp .b32 .none .lit .none .none 1) 0x80000003 0) id id).a).lo.toNat 29 12 = 0 ∧ ((bits ((slotOf .alwBind (lk (smp .b32 .none .lit .none .none 1) 0x80000003 0) id id).uni (slotOf .alwBind (lk (smp .b32 .none .lit .none .none 1) 0x80000003 0) id id).a).lo.toNat 31 30 = 1 ∨ bits ((slotOf .alwBind (lk (smp .b32 .none .lit .none .none 1) 0x80000003 0) id id).uni (slotOf .alwBind (lk (smp .b32 .none .lit .none .none 1) 0x80000003 0) id id).a).lo.toNat 31 30 = 2) → bits ((slotOf .alwBind (lk (smp .b32 .none .lit .none .none 1) 0x80000003 0) id id).uni (slotOf .alwBind (lk (smp .b32 .none .lit .none .none 1) 0x80000003 0) id id).a).lo.toNat 11 0 ≤ 3) ∧ (bits ((slotOf .alwBind (lk (smp .b32 .none .lit .none .none 1) 0x80000003 0) id id).uni (slotOf .alwBind (lk (smp .b32 .none .lit .none .none 1) 0x80000003 0) id id).a).lo.toNat 31 30 = 1 → (demo id id).ownsPort ((demoAt id id)).c.part (bits ((slotOf .alwBind (lk (smp .b32 .none .lit .none .none 1) 0x80000003 0) id id).uni (slotOf .alwBind (lk (smp .b32 .none .lit .none .none 1) 0x80000003 0) id id).a).lo.toNat 11 0) = true)) :=
  ⟨demo_ready id id .alwBind (lk (smp .b32 .none .lit .none .none 1) 0x80000003 0) (by decide +kernel) (by decide +kernel) (by decide +kernel), by decide +kernel, by decide +kernel⟩

theorem witness_AllowanceInstructions_test : SlotReady .alwTest (lk (smp .b32 (.v 3) .none (.int 5) .none 0) 0 0) (demo bound5 id) (demoAt bound5 id) ∧ (slotOf .alwTest (lk (smp .b32 (.v 3) .none (.int 5) .none 0) 0 0) bound5 id).ex ≠ 0 ∧
    (((demoAt bound5 id)).h.w[((lk (smp .b32 (.v 3) .none (.int 5) .none 0) 0 0)).mod.toNat % 4]?).getD none = some { cls := 0, dst := 5, val := 4096, since := 0 } ∧ ((((lanesOf (slotOf .alwTest (lk (smp .b32 (.v 3) .none (.int 5) .none 0) 0 0) bound5 id).ex).head?).map fun l => (slotOf .alwTest (lk (smp .b32 (.v 3) .none (.int 5) .none 0) 0 0) bound5 id).b[l]).getD (Val.ok 0)).p = false :=
  ⟨demo_ready bound5 id .alwTest (lk (smp .b32 (.v 3) .none (.int 5) .none 0) 0 0) (by decide +kernel) (by decide +kernel) (by decide +kernel), by decide +kernel, by decide +kernel⟩

theorem witness_AllowanceInstructions_rd : SlotReady .alwRd (lk (smp .b32 (.v 3) .none .none .none 0) 0 0) (demo bound5 id) (demoAt bound5 id) ∧ (slotOf .alwRd (lk (smp .b32 (.v 3) .none .none .none 0) 0 0) bound5 id).ex ≠ 0 ∧
    (((demoAt bound5 id)).h.w[((lk (smp .b32 (.v 3) .none .none .none 0) 0 0)).mod.toNat % 4]?).getD none = some { cls := 0, dst := 5, val := 4096, since := 0 } :=
  ⟨demo_ready bound5 id .alwRd (lk (smp .b32 (.v 3) .none .none .none 0) 0 0) (by decide +kernel) (by decide +kernel) (by decide +kernel), by decide +kernel, by decide +kernel⟩

theorem witness_AllowanceInstructions_unbound : SlotReady .alwRd (lk (smp .b32 (.v 3) .none .none .none 0) 0 0) (demo id id) (demoAt id id) ∧ (slotOf .alwRd (lk (smp .b32 (.v 3) .none .none .none 0) 0 0) id id).ex ≠ 0 ∧
    (((demoAt id id)).h.w[((lk (smp .b32 (.v 3) .none .none .none 0) 0 0)).mod.toNat % 4]?).getD none = none :=
  ⟨demo_ready id id .alwRd (lk (smp .b32 (.v 3) .none .none .none 0) 0 0) (by decide +kernel) (by decide +kernel) (by decide +kernel), by decide +kernel, by decide +kernel⟩

theorem witness_LoadInstructions_ld : SlotReady .ld (lk (smp .b32 (.v 4) (.int 8) (.int 4) .none 0) 0 0) (demo id id) (demoAt id id) ∧ (slotOf .ld (lk (smp .b32 (.v 4) (.int 8) (.int 4) .none 0) 0 0) id id).ex ≠ 0 ∧
    ∀ l : Fin 32, (slotOf .ld (lk (smp .b32 (.v 4) (.int 8) (.int 4) .none 0) 0 0) id id).ex.getLsbD l = true → (demo id id).globalCheck (slotOf .ld (lk (smp .b32 (.v 4) (.int 8) (.int 4) .none 0) 0 0) id id) (((slotOf .ld (lk (smp .b32 (.v 4) (.int 8) (.int 4) .none 0) 0 0) id id).a[l]).p || ((slotOf .ld (lk (smp .b32 (.v 4) (.int 8) (.int 4) .none 0) 0 0) id id).b[l]).p) (globalEa (slotOf .ld (lk (smp .b32 (.v 4) (.int 8) (.int 4) .none 0) 0 0) id id).a[l] (slotOf .ld (lk (smp .b32 (.v 4) (.int 8) (.int 4) .none 0) 0 0) id id).b[l]) (accSize (lk (smp .b32 (.v 4) (.int 8) (.int 4) .none 0) 0 0) (((lk (smp .b32 (.v 4) (.int 8) (.int 4) .none 0) 0 0)).mod.toNat % 4)) false false true false = none :=
  ⟨demo_ready id id .ld (lk (smp .b32 (.v 4) (.int 8) (.int 4) .none 0) 0 0) (by decide +kernel) (by decide +kernel) (by decide +kernel), by decide +kernel, by decide +kernel⟩

theorem witness_LoadInstructions_ldu : SlotReady .ldu (lk (smp .b32 (.s 9) (.int 8) (.int 4) .none 0) 0 0) (demo id id) (demoAt id id) ∧ (slotOf .ldu (lk (smp .b32 (.s 9) (.int 8) (.int 4) .none 0) 0 0) id id).ex ≠ 0 ∧
    (demo id id).globalCheck (slotOf .ldu (lk (smp .b32 (.s 9) (.int 8) (.int 4) .none 0) 0 0) id id) (((slotOf .ldu (lk (smp .b32 (.s 9) (.int 8) (.int 4) .none 0) 0 0) id id).uni (slotOf .ldu (lk (smp .b32 (.s 9) (.int 8) (.int 4) .none 0) 0 0) id id).a).p || ((slotOf .ldu (lk (smp .b32 (.s 9) (.int 8) (.int 4) .none 0) 0 0) id id).uni (slotOf .ldu (lk (smp .b32 (.s 9) (.int 8) (.int 4) .none 0) 0 0) id id).b).p) (globalEa ((slotOf .ldu (lk (smp .b32 (.s 9) (.int 8) (.int 4) .none 0) 0 0) id id).uni (slotOf .ldu (lk (smp .b32 (.s 9) (.int 8) (.int 4) .none 0) 0 0) id id).a) ((slotOf .ldu (lk (smp .b32 (.s 9) (.int 8) (.int 4) .none 0) 0 0) id id).uni (slotOf .ldu (lk (smp .b32 (.s 9) (.int 8) (.int 4) .none 0) 0 0) id id).b)) (accSize (lk (smp .b32 (.s 9) (.int 8) (.int 4) .none 0) 0 0) (((lk (smp .b32 (.s 9) (.int 8) (.int 4) .none 0) 0 0)).mod.toNat % 4)) false false true false = none :=
  ⟨demo_ready id id .ldu (lk (smp .b32 (.s 9) (.int 8) (.int 4) .none 0) 0 0) (by decide +kernel) (by decide +kernel) (by decide +kernel), by decide +kernel, by decide +kernel⟩

theorem witness_LoadInstructions_lds : SlotReady .lds (lk (smp .b32 (.v 4) (.int 8) (.int 4) .none 0) 0 0) (demo id id) (demoAt id id) ∧ (slotOf .lds (lk (smp .b32 (.v 4) (.int 8) (.int 4) .none 0) 0 0) id id).ex ≠ 0 ∧
    ∀ l : Fin 32, (slotOf .lds (lk (smp .b32 (.v 4) (.int 8) (.int 4) .none 0) 0 0) id id).ex.getLsbD l = true → (demo id id).stashCheck (slotOf .lds (lk (smp .b32 (.v 4) (.int 8) (.int 4) .none 0) 0 0) id id) (((slotOf .lds (lk (smp .b32 (.v 4) (.int 8) (.int 4) .none 0) 0 0) id id).a[l]).p || ((slotOf .lds (lk (smp .b32 (.v 4) (.int 8) (.int 4) .none 0) 0 0) id id).b[l]).p) (stashOff (slotOf .lds (lk (smp .b32 (.v 4) (.int 8) (.int 4) .none 0) 0 0) id id).a[l] (slotOf .lds (lk (smp .b32 (.v 4) (.int 8) (.int 4) .none 0) 0 0) id id).b[l]) (accSize (lk (smp .b32 (.v 4) (.int 8) (.int 4) .none 0) 0 0) (((lk (smp .b32 (.v 4) (.int 8) (.int 4) .none 0) 0 0)).mod.toNat % 4)) false false false = none :=
  ⟨demo_ready id id .lds (lk (smp .b32 (.v 4) (.int 8) (.int 4) .none 0) 0 0) (by decide +kernel) (by decide +kernel) (by decide +kernel), by decide +kernel, by decide +kernel⟩

theorem witness_StoreInstructions_st : SlotReady .st (lk (smp .b32 .none (.int 8) (.int 4) (.int 1) 0) 0 0) (demo id id) (demoAt id id) ∧ (slotOf .st (lk (smp .b32 .none (.int 8) (.int 4) (.int 1) 0) 0 0) id id).ex ≠ 0 ∧
    ∀ l : Fin 32, (slotOf .st (lk (smp .b32 .none (.int 8) (.int 4) (.int 1) 0) 0 0) id id).ex.getLsbD l = true → (demo id id).globalCheck (slotOf .st (lk (smp .b32 .none (.int 8) (.int 4) (.int 1) 0) 0 0) id id) (((slotOf .st (lk (smp .b32 .none (.int 8) (.int 4) (.int 1) 0) 0 0) id id).a[l]).p || ((slotOf .st (lk (smp .b32 .none (.int 8) (.int 4) (.int 1) 0) 0 0) id id).b[l]).p) (globalEa (slotOf .st (lk (smp .b32 .none (.int 8) (.int 4) (.int 1) 0) 0 0) id id).a[l] (slotOf .st (lk (smp .b32 .none (.int 8) (.int 4) (.int 1) 0) 0 0) id id).b[l]) (accSize (lk (smp .b32 .none (.int 8) (.int 4) (.int 1) 0) 0 0) (((lk (smp .b32 .none (.int 8) (.int 4) (.int 1) 0) 0 0)).mod.toNat % 4)) false true true (storeData (slotOf .st (lk (smp .b32 .none (.int 8) (.int 4) (.int 1) 0) 0 0) id id) (accSize (lk (smp .b32 .none (.int 8) (.int 4) (.int 1) 0) 0 0) (((lk (smp .b32 .none (.int 8) (.int 4) (.int 1) 0) 0 0)).mod.toNat % 4)) l).2 = none :=
  ⟨demo_ready id id .st (lk (smp .b32 .none (.int 8) (.int 4) (.int 1) 0) 0 0) (by decide +kernel) (by decide +kernel) (by decide +kernel), by decide +kernel, by decide +kernel⟩

theorem witness_StoreInstructions_sts : SlotReady .sts (lk (smp .b32 .none (.int 8) (.int 4) (.int 1) 0) 0 0) (demo id id) (demoAt id id) ∧ (slotOf .sts (lk (smp .b32 .none (.int 8) (.int 4) (.int 1) 0) 0 0) id id).ex ≠ 0 ∧
    ∀ l : Fin 32, (slotOf .sts (lk (smp .b32 .none (.int 8) (.int 4) (.int 1) 0) 0 0) id id).ex.getLsbD l = true → (demo id id).stashCheck (slotOf .sts (lk (smp .b32 .none (.int 8) (.int 4) (.int 1) 0) 0 0) id id) (((slotOf .sts (lk (smp .b32 .none (.int 8) (.int 4) (.int 1) 0) 0 0) id id).a[l]).p || ((slotOf .sts (lk (smp .b32 .none (.int 8) (.int 4) (.int 1) 0) 0 0) id id).b[l]).p) (stashOff (slotOf .sts (lk (smp .b32 .none (.int 8) (.int 4) (.int 1) 0) 0 0) id id).a[l] (slotOf .sts (lk (smp .b32 .none (.int 8) (.int 4) (.int 1) 0) 0 0) id id).b[l]) (accSize (lk (smp .b32 .none (.int 8) (.int 4) (.int 1) 0) 0 0) (((lk (smp .b32 .none (.int 8) (.int 4) (.int 1) 0) 0 0)).mod.toNat % 4)) false true (storeData (slotOf .sts (lk (smp .b32 .none (.int 8) (.int 4) (.int 1) 0) 0 0) id id) (accSize (lk (smp .b32 .none (.int 8) (.int 4) (.int 1) 0) 0 0) (((lk (smp .b32 .none (.int 8) (.int 4) (.int 1) 0) 0 0)).mod.toNat % 4)) l).2 = none :=
  ⟨demo_ready id id .sts (lk (smp .b32 .none (.int 8) (.int 4) (.int 1) 0) 0 0) (by decide +kernel) (by decide +kernel) (by decide +kernel), by decide +kernel, by decide +kernel⟩

theorem witness_BindAndFence_pref : SlotReady .pref (lk (smp .b32 .none (.int 8) (.int 4) .none 0) 0 0) (demo id id) (demoAt id id) ∧ (slotOf .pref (lk (smp .b32 .none (.int 8) (.int 4) .none 0) 0 0) id id).ex ≠ 0 ∧
    ∀ l : Fin 32, (slotOf .pref (lk (smp .b32 .none (.int 8) (.int 4) .none 0) 0 0) id id).ex.getLsbD l = true → (((slotOf .pref (lk (smp .b32 .none (.int 8) (.int 4) .none 0) 0 0) id id).a[l]).p || ((slotOf .pref (lk (smp .b32 .none (.int 8) (.int 4) .none 0) 0 0) id id).b[l]).p) = false :=
  ⟨demo_ready id id .pref (lk (smp .b32 .none (.int 8) (.int 4) .none 0) 0 0) (by decide +kernel) (by decide +kernel) (by decide +kernel), by decide +kernel, by decide +kernel⟩

theorem witness_BindAndFence_bind : SlotReady .bind (lk (smp .b32 (.k 2) .lit (.int 8) (.int 3) 0) 0x1000 0) (demo id id) (demoAt id id) ∧ (slotOf .bind (lk (smp .b32 (.k 2) .lit (.int 8) (.int 3) 0) 0x1000 0) id id).ex ≠ 0 ∧
    ∀ l : Fin 32, (slotOf .bind (lk (smp .b32 (.k 2) .lit (.int 8) (.int 3) 0) 0x1000 0) id id).ex.getLsbD l = true → ((slotOf .bind (lk (smp .b32 (.k 2) .lit (.int 8) (.int 3) 0) 0x1000 0) id id).a[l]).p = false ∧ ((slotOf .bind (lk (smp .b32 (.k 2) .lit (.int 8) (.int 3) 0) 0x1000 0) id id).b[l]).p = false ∧ ((slotOf .bind (lk (smp .b32 (.k 2) .lit (.int 8) (.int 3) 0) 0x1000 0) id id).c[l]).p = false ∧ addrFault (((slotOf .bind (lk (smp .b32 (.k 2) .lit (.int 8) (.int 3) 0) 0x1000 0) id id).a[l]).v.toNat : Int) ((slotOf .bind (lk (smp .b32 (.k 2) .lit (.int 8) (.int 3) 0) 0x1000 0) id id).b[l]).lo.toNat 0 = none :=
  ⟨demo_ready id id .bind (lk (smp .b32 (.k 2) .lit (.int 8) (.int 3) 0) 0x1000 0) (by decide +kernel) (by decide +kernel) (by decide +kernel), by decide +kernel, by decide +kernel⟩

theorem witness_BindAndFence_unbind : SlotReady .unbind (lk (smp .b32 (.v 2) (.int 3) .none .none 0) 0 0) (demo id id) (demoAt id id) ∧ (slotOf .unbind (lk (smp .b32 (.v 2) (.int 3) .none .none 0) 0 0) id id).ex ≠ 0 ∧
    ∀ l : Fin 32, (slotOf .unbind (lk (smp .b32 (.v 2) (.int 3) .none .none 0) 0 0) id id).ex.getLsbD l = true → ((slotOf .unbind (lk (smp .b32 (.v 2) (.int 3) .none .none 0) 0 0) id id).a[l]).p = false :=
  ⟨demo_ready id id .unbind (lk (smp .b32 (.v 2) (.int 3) .none .none 0) 0 0) (by decide +kernel) (by decide +kernel) (by decide +kernel), by decide +kernel, by decide +kernel⟩

theorem witness_AtomicInstructions_atom : SlotReady .atom (lk (smp .i32 (.v 4) (.int 8) (.int 4) (.int 1) 0) 0 0) (demo id id) (demoAt id id) ∧ (slotOf .atom (lk (smp .i32 (.v 4) (.int 8) (.int 4) (.int 1) 0) 0 0) id id).ex ≠ 0 ∧
    ∀ l : Fin 32, (slotOf .atom (lk (smp .i32 (.v 4) (.int 8) (.int 4) (.int 1) 0) 0 0) id id).ex.getLsbD l = true → (demo id id).globalCheck (slotOf .atom (lk (smp .i32 (.v 4) (.int 8) (.int 4) (.int 1) 0) 0 0) id id) (((slotOf .atom (lk (smp .i32 (.v 4) (.int 8) (.int 4) (.int 1) 0) 0 0) id id).a[l]).p || ((slotOf .atom (lk (smp .i32 (.v 4) (.int 8) (.int 4) (.int 1) 0) 0 0) id id).b[l]).p) (globalEa (slotOf .atom (lk (smp .i32 (.v 4) (.int 8) (.int 4) (.int 1) 0) 0 0) id id).a[l] (slotOf .atom (lk (smp .i32 (.v 4) (.int 8) (.int 4) (.int 1) 0) 0 0) id id).b[l]) (atomBytes (lk (smp .i32 (.v 4) (.int 8) (.int 4) (.int 1) 0) 0 0)) true true false ((slotOf .atom (lk (smp .i32 (.v 4) (.int 8) (.int 4) (.int 1) 0) 0 0) id id).c[l]).p = none :=
  ⟨demo_ready id id .atom (lk (smp .i32 (.v 4) (.int 8) (.int 4) (.int 1) 0) 0 0) (by decide +kernel) (by decide +kernel) (by decide +kernel), by decide +kernel, by decide +kernel⟩

theorem witness_AtomicInstructions_cas : SlotReady .cas (lk (smp .b32 (.v 4) (.int 8) (.int 4) (.int 1) 0) 0 0) (demo id id) (demoAt id id) ∧ (slotOf .cas (lk (smp .b32 (.v 4) (.int 8) (.int 4) (.int 1) 0) 0 0) id id).ex ≠ 0 ∧
    ∀ l : Fin 32, (slotOf .cas (lk (smp .b32 (.v 4) (.int 8) (.int 4) (.int 1) 0) 0 0) id id).ex.getLsbD l = true → (demo id id).globalCheck (slotOf .cas (lk (smp .b32 (.v 4) (.int 8) (.int 4) (.int 1) 0) 0 0) id id) ((slotOf .cas (lk (smp .b32 (.v 4) (.int 8) (.int 4) (.int 1) 0) 0 0) id id).a[l]).p (((slotOf .cas (lk (smp .b32 (.v 4) (.int 8) (.int 4) (.int 1) 0) 0 0) id id).a[l]).v.toNat : Int) (atomBytes (lk (smp .b32 (.v 4) (.int 8) (.int 4) (.int 1) 0) 0 0)) true true false (((slotOf .cas (lk (smp .b32 (.v 4) (.int 8) (.int 4) (.int 1) 0) 0 0) id id).b[l]).p || ((slotOf .cas (lk (smp .b32 (.v 4) (.int 8) (.int 4) (.int 1) 0) 0 0) id id).c[l]).p) = none :=
  ⟨demo_ready id id .cas (lk (smp .b32 (.v 4) (.int 8) (.int 4) (.int 1) 0) 0 0) (by decide +kernel) (by decide +kernel) (by decide +kernel), by decide +kernel, by decide +kernel⟩

theorem witness_AtomicInstructions_atoms : SlotReady .atoms (lk (smp .i32 (.v 4) (.int 8) (.int 4) (.int 1) 0) 0 0) (demo id id) (demoAt id id) ∧ (slotOf .atoms (lk (smp .i32 (.v 4) (.int 8) (.int 4) (.int 1) 0) 0 0) id id).ex ≠ 0 ∧
    ∀ l : Fin 32, (slotOf .atoms (lk (smp .i32 (.v 4) (.int 8) (.int 4) (.int 1) 0) 0 0) id id).ex.getLsbD l = true → (demo id id).stashCheck (slotOf .atoms (lk (smp .i32 (.v 4) (.int 8) (.int 4) (.int 1) 0) 0 0) id id) (((slotOf .atoms (lk (smp .i32 (.v 4) (.int 8) (.int 4) (.int 1) 0) 0 0) id id).a[l]).p || ((slotOf .atoms (lk (smp .i32 (.v 4) (.int 8) (.int 4) (.int 1) 0) 0 0) id id).b[l]).p) (stashOff (slotOf .atoms (lk (smp .i32 (.v 4) (.int 8) (.int 4) (.int 1) 0) 0 0) id id).a[l] (slotOf .atoms (lk (smp .i32 (.v 4) (.int 8) (.int 4) (.int 1) 0) 0 0) id id).b[l]) (atomBytes (lk (smp .i32 (.v 4) (.int 8) (.int 4) (.int 1) 0) 0 0)) true true ((slotOf .atoms (lk (smp .i32 (.v 4) (.int 8) (.int 4) (.int 1) 0) 0 0) id id).c[l]).p = none :=
  ⟨demo_ready id id .atoms (lk (smp .i32 (.v 4) (.int 8) (.int 4) (.int 1) 0) 0 0) (by decide +kernel) (by decide +kernel) (by decide +kernel), by decide +kernel, by decide +kernel⟩

theorem witness_AtomicInstructions_cass : SlotReady .cass (lk (smp .b32 (.v 4) (.int 8) (.int 4) (.int 1) 0) 0 0) (demo id id) (demoAt id id) ∧ (slotOf .cass (lk (smp .b32 (.v 4) (.int 8) (.int 4) (.int 1) 0) 0 0) id id).ex ≠ 0 ∧
    ∀ l : Fin 32, (slotOf .cass (lk (smp .b32 (.v 4) (.int 8) (.int 4) (.int 1) 0) 0 0) id id).ex.getLsbD l = true → (demo id id).stashCheck (slotOf .cass (lk (smp .b32 (.v 4) (.int 8) (.int 4) (.int 1) 0) 0 0) id id) ((slotOf .cass (lk (smp .b32 (.v 4) (.int 8) (.int 4) (.int 1) 0) 0 0) id id).a[l]).p ((((slotOf .cass (lk (smp .b32 (.v 4) (.int 8) (.int 4) (.int 1) 0) 0 0) id id).a[l]).lo.toNat : Nat) : Int) (atomBytes (lk (smp .b32 (.v 4) (.int 8) (.int 4) (.int 1) 0) 0 0)) true true (((slotOf .cass (lk (smp .b32 (.v 4) (.int 8) (.int 4) (.int 1) 0) 0 0) id id).b[l]).p || ((slotOf .cass (lk (smp .b32 (.v 4) (.int 8) (.int 4) (.int 1) 0) 0 0) id id).c[l]).p) = none :=
  ⟨demo_ready id id .cass (lk (smp .b32 (.v 4) (.int 8) (.int 4) (.int 1) 0) 0 0) (by decide +kernel) (by decide +kernel) (by decide +kernel), by decide +kernel, by decide +kernel⟩

theorem witness_StashMaintenance_stashMap : SlotReady .stashMap (lk (smp .b32 .none (.v 0) .lit (.int 1) 0) 0x4000 1) (demo mapLane id) (demoAt mapLane id) ∧ (slotOf .stashMap (lk (smp .b32 .none (.v 0) .lit (.int 1) 0) 0x4000 1) mapLane id).ex ≠ 0 ∧
    (forL (lanesOf (slotOf .stashMap (lk (smp .b32 .none (.v 0) .lit (.int 1) 0) 0x4000 1) mapLane id).ex) ((demo mapLane id).addPend ((slotOf .stashMap (lk (smp .b32 .none (.v 0) .lit (.int 1) 0) 0x4000 1) mapLane id).pend 0 0 (slotOf .stashMap (lk (smp .b32 .none (.v 0) .lit (.int 1) 0) 0x4000 1) mapLane id).ex []), [], 0) (maintStep (slotOf .stashMap (lk (smp .b32 .none (.v 0) .lit (.int 1) 0) 0x4000 1) mapLane id) .map (demo mapLane id).nextId)).2.1 = [] :=
  ⟨demo_ready mapLane id .stashMap (lk (smp .b32 .none (.v 0) .lit (.int 1) 0) 0x4000 1) (by decide +kernel) (by decide +kernel) (by decide +kernel), by decide +kernel, by decide +kernel⟩

theorem witness_StashMaintenance_stashUnmap : SlotReady .stashUnmap (lk (smp .b32 .none .lit (.int 1) .none 0) 61440 1) (demo mapLane id) (demoAt mapLane id) ∧ (slotOf .stashUnmap (lk (smp .b32 .none .lit (.int 1) .none 0) 61440 1) mapLane id).ex ≠ 0 ∧
    (forL (lanesOf (slotOf .stashUnmap (lk (smp .b32 .none .lit (.int 1) .none 0) 61440 1) mapLane id).ex) ((demo mapLane id).addPend ((slotOf .stashUnmap (lk (smp .b32 .none .lit (.int 1) .none 0) 61440 1) mapLane id).pend 0 0 (slotOf .stashUnmap (lk (smp .b32 .none .lit (.int 1) .none 0) 61440 1) mapLane id).ex []), [], 0) (maintStep (slotOf .stashUnmap (lk (smp .b32 .none .lit (.int 1) .none 0) 61440 1) mapLane id) .unmap (demo mapLane id).nextId)).2.1 = [] :=
  ⟨demo_ready mapLane id .stashUnmap (lk (smp .b32 .none .lit (.int 1) .none 0) 61440 1) (by decide +kernel) (by decide +kernel) (by decide +kernel), by decide +kernel, by decide +kernel⟩

theorem witness_StashMaintenance_stashWb : SlotReady .stashWb (lk (smp .b32 .none .lit (.int 1) .none 0) 61440 1) (demo mapLane id) (demoAt mapLane id) ∧ (slotOf .stashWb (lk (smp .b32 .none .lit (.int 1) .none 0) 61440 1) mapLane id).ex ≠ 0 ∧
    (forL (lanesOf (slotOf .stashWb (lk (smp .b32 .none .lit (.int 1) .none 0) 61440 1) mapLane id).ex) ((demo mapLane id).addPend ((slotOf .stashWb (lk (smp .b32 .none .lit (.int 1) .none 0) 61440 1) mapLane id).pend 0 0 (slotOf .stashWb (lk (smp .b32 .none .lit (.int 1) .none 0) 61440 1) mapLane id).ex []), [], 0) (maintStep (slotOf .stashWb (lk (smp .b32 .none .lit (.int 1) .none 0) 61440 1) mapLane id) .wb (demo mapLane id).nextId)).2.1 = [] :=
  ⟨demo_ready mapLane id .stashWb (lk (smp .b32 .none .lit (.int 1) .none 0) 61440 1) (by decide +kernel) (by decide +kernel) (by decide +kernel), by decide +kernel, by decide +kernel⟩

theorem witness_StashMaintenance_stashInv : SlotReady .stashInv (lk (smp .b32 .none .lit (.int 1) .none 0) 61440 1) (demo mapLane id) (demoAt mapLane id) ∧ (slotOf .stashInv (lk (smp .b32 .none .lit (.int 1) .none 0) 61440 1) mapLane id).ex ≠ 0 ∧
    (forL (lanesOf (slotOf .stashInv (lk (smp .b32 .none .lit (.int 1) .none 0) 61440 1) mapLane id).ex) ((demo mapLane id).addPend ((slotOf .stashInv (lk (smp .b32 .none .lit (.int 1) .none 0) 61440 1) mapLane id).pend 0 0 (slotOf .stashInv (lk (smp .b32 .none .lit (.int 1) .none 0) 61440 1) mapLane id).ex []), [], 0) (maintStep (slotOf .stashInv (lk (smp .b32 .none .lit (.int 1) .none 0) 61440 1) mapLane id) .inv (demo mapLane id).nextId)).2.1 = [] :=
  ⟨demo_ready mapLane id .stashInv (lk (smp .b32 .none .lit (.int 1) .none 0) 61440 1) (by decide +kernel) (by decide +kernel) (by decide +kernel), by decide +kernel, by decide +kernel⟩

theorem witness_ReductionInstructions : SlotReady .red (lk (smp .i32 .none (.int 8) (.int 4) (.int 1) 0) 0 0) (demo id id) (demoAt id id) ∧ (slotOf .red (lk (smp .i32 .none (.int 8) (.int 4) (.int 1) 0) 0 0) id id).ex ≠ 0 ∧
    ∀ l : Fin 32, (slotOf .red (lk (smp .i32 .none (.int 8) (.int 4) (.int 1) 0) 0 0) id id).ex.getLsbD l = true → (demo id id).globalCheck (slotOf .red (lk (smp .i32 .none (.int 8) (.int 4) (.int 1) 0) 0 0) id id) (((slotOf .red (lk (smp .i32 .none (.int 8) (.int 4) (.int 1) 0) 0 0) id id).a[l]).p || ((slotOf .red (lk (smp .i32 .none (.int 8) (.int 4) (.int 1) 0) 0 0) id id).b[l]).p) (globalEa (slotOf .red (lk (smp .i32 .none (.int 8) (.int 4) (.int 1) 0) 0 0) id id).a[l] (slotOf .red (lk (smp .i32 .none (.int 8) (.int 4) (.int 1) 0) 0 0) id id).b[l]) (atomBytes (lk (smp .i32 .none (.int 8) (.int 4) (.int 1) 0) 0 0)) true true false ((slotOf .red (lk (smp .i32 .none (.int 8) (.int 4) (.int 1) 0) 0 0) id id).c[l]).p = none :=
  ⟨demo_ready id id .red (lk (smp .i32 .none (.int 8) (.int 4) (.int 1) 0) 0 0) (by decide +kernel) (by decide +kernel) (by decide +kernel), by decide +kernel, by decide +kernel⟩

theorem witness_JobStatusInstructions_cpCancel : SlotReady .cpCancel (lk (smp .b32 (.v 2) (.int 3) .none .none 0) 0 0) (demo id id) (demoAt id id) ∧ (slotOf .cpCancel (lk (smp .b32 (.v 2) (.int 3) .none .none 0) 0 0) id id).ex ≠ 0 ∧
    ∀ l : Fin 32, (slotOf .cpCancel (lk (smp .b32 (.v 2) (.int 3) .none .none 0) 0 0) id id).ex.getLsbD l = true → ((slotOf .cpCancel (lk (smp .b32 (.v 2) (.int 3) .none .none 0) 0 0) id id).a[l]).p = false :=
  ⟨demo_ready id id .cpCancel (lk (smp .b32 (.v 2) (.int 3) .none .none 0) 0 0) (by decide +kernel) (by decide +kernel) (by decide +kernel), by decide +kernel, by decide +kernel⟩

theorem witness_JobStatusInstructions_mxCancel : SlotReady .mxCancel (lk (smp .b32 (.v 2) (.int 3) .none .none 0) 0 0) (demo id id) (demoAt id id) ∧ (slotOf .mxCancel (lk (smp .b32 (.v 2) (.int 3) .none .none 0) 0 0) id id).ex ≠ 0 ∧
    ∀ l : Fin 32, (slotOf .mxCancel (lk (smp .b32 (.v 2) (.int 3) .none .none 0) 0 0) id id).ex.getLsbD l = true → ((slotOf .mxCancel (lk (smp .b32 (.v 2) (.int 3) .none .none 0) 0 0) id id).a[l]).p = false :=
  ⟨demo_ready id id .mxCancel (lk (smp .b32 (.v 2) (.int 3) .none .none 0) 0 0) (by decide +kernel) (by decide +kernel) (by decide +kernel), by decide +kernel, by decide +kernel⟩

/-- A partition whose peer 5 is valid and OPEN. -/
def peer5 : Machine.Part := { (default : Machine.Part) with peers := [(5, BitVec.ofNat 64 (2 ^ 63))] }

theorem peer5_valid : peerV (BitVec.ofNat 64 (2 ^ 63)) = true ∧ peerSt (BitVec.ofNat 64 (2 ^ 63)) ≠ 1 := by decide +kernel

theorem witness_FabricInstructions_ldf : SlotReady .ldf (lk (smp .b32 (.v 4) (.int 8) (.int 4) .none 0) 0 0) (demo bound5 id) (demoAt bound5 id) ∧ (slotOf .ldf (lk (smp .b32 (.v 4) (.int 8) (.int 4) .none 0) 0 0) bound5 id).ex ≠ 0 ∧
    ∀ l : Fin 32, (slotOf .ldf (lk (smp .b32 (.v 4) (.int 8) (.int 4) .none 0) 0 0) bound5 id).ex.getLsbD l = true → firstErr [{ (demo bound5 id) with parts := [(0, peer5)] }.peerFault (slotOf .ldf (lk (smp .b32 (.v 4) (.int 8) (.int 4) .none 0) 0 0) bound5 id), globalFault (((slotOf .ldf (lk (smp .b32 (.v 4) (.int 8) (.int 4) .none 0) 0 0) bound5 id).a[l]).p || ((slotOf .ldf (lk (smp .b32 (.v 4) (.int 8) (.int 4) .none 0) 0 0) bound5 id).b[l]).p) (globalEa (slotOf .ldf (lk (smp .b32 (.v 4) (.int 8) (.int 4) .none 0) 0 0) bound5 id).a[l] (slotOf .ldf (lk (smp .b32 (.v 4) (.int 8) (.int 4) .none 0) 0 0) bound5 id).b[l]) (accSize (lk (smp .b32 (.v 4) (.int 8) (.int 4) .none 0) 0 0) (((lk (smp .b32 (.v 4) (.int 8) (.int 4) .none 0) 0 0)).mod.toNat / 4 % 4)) false] = none :=
  ⟨demo_ready bound5 id .ldf (lk (smp .b32 (.v 4) (.int 8) (.int 4) .none 0) 0 0) (by decide +kernel) (by decide +kernel) (by decide +kernel), by decide +kernel, by decide +kernel⟩

theorem witness_FabricInstructions_stf : SlotReady .stf (lk (smp .b32 .none (.int 8) (.int 4) (.int 1) 0) 0 0) (demo bound5 id) (demoAt bound5 id) ∧ (slotOf .stf (lk (smp .b32 .none (.int 8) (.int 4) (.int 1) 0) 0 0) bound5 id).ex ≠ 0 ∧
    ∀ l : Fin 32, (slotOf .stf (lk (smp .b32 .none (.int 8) (.int 4) (.int 1) 0) 0 0) bound5 id).ex.getLsbD l = true → firstErr [{ (demo bound5 id) with parts := [(0, peer5)] }.peerFault (slotOf .stf (lk (smp .b32 .none (.int 8) (.int 4) (.int 1) 0) 0 0) bound5 id), globalFault (((slotOf .stf (lk (smp .b32 .none (.int 8) (.int 4) (.int 1) 0) 0 0) bound5 id).a[l]).p || ((slotOf .stf (lk (smp .b32 .none (.int 8) (.int 4) (.int 1) 0) 0 0) bound5 id).b[l]).p) (globalEa (slotOf .stf (lk (smp .b32 .none (.int 8) (.int 4) (.int 1) 0) 0 0) bound5 id).a[l] (slotOf .stf (lk (smp .b32 .none (.int 8) (.int 4) (.int 1) 0) 0 0) bound5 id).b[l]) (accSize (lk (smp .b32 .none (.int 8) (.int 4) (.int 1) 0) 0 0) (((lk (smp .b32 .none (.int 8) (.int 4) (.int 1) 0) 0 0)).mod.toNat / 4 % 4)) false, failIf (storeData (slotOf .stf (lk (smp .b32 .none (.int 8) (.int 4) (.int 1) 0) 0 0) bound5 id) (accSize (lk (smp .b32 .none (.int 8) (.int 4) (.int 1) 0) 0 0) (((lk (smp .b32 .none (.int 8) (.int 4) (.int 1) 0) 0 0)).mod.toNat / 4 % 4)) l).2 cPoisonStore] = none :=
  ⟨demo_ready bound5 id .stf (lk (smp .b32 .none (.int 8) (.int 4) (.int 1) 0) 0 0) (by decide +kernel) (by decide +kernel) (by decide +kernel), by decide +kernel, by decide +kernel⟩

theorem witness_FabricInstructions_atomf : SlotReady .atomf (lk (smp .i32 (.v 4) (.int 8) (.int 4) (.int 1) 0) 0 0) (demo bound5 id) (demoAt bound5 id) ∧ (slotOf .atomf (lk (smp .i32 (.v 4) (.int 8) (.int 4) (.int 1) 0) 0 0) bound5 id).ex ≠ 0 ∧
    ∀ l : Fin 32, (slotOf .atomf (lk (smp .i32 (.v 4) (.int 8) (.int 4) (.int 1) 0) 0 0) bound5 id).ex.getLsbD l = true → firstErr [{ (demo bound5 id) with parts := [(0, peer5)] }.peerFault (slotOf .atomf (lk (smp .i32 (.v 4) (.int 8) (.int 4) (.int 1) 0) 0 0) bound5 id), globalFault (((slotOf .atomf (lk (smp .i32 (.v 4) (.int 8) (.int 4) (.int 1) 0) 0 0) bound5 id).a[l]).p || ((slotOf .atomf (lk (smp .i32 (.v 4) (.int 8) (.int 4) (.int 1) 0) 0 0) bound5 id).b[l]).p) (globalEa (slotOf .atomf (lk (smp .i32 (.v 4) (.int 8) (.int 4) (.int 1) 0) 0 0) bound5 id).a[l] (slotOf .atomf (lk (smp .i32 (.v 4) (.int 8) (.int 4) (.int 1) 0) 0 0) bound5 id).b[l]) (atomBytes (lk (smp .i32 (.v 4) (.int 8) (.int 4) (.int 1) 0) 0 0)) true, failIf ((slotOf .atomf (lk (smp .i32 (.v 4) (.int 8) (.int 4) (.int 1) 0) 0 0) bound5 id).c[l]).p cPoisonStore] = none :=
  ⟨demo_ready bound5 id .atomf (lk (smp .i32 (.v 4) (.int 8) (.int 4) (.int 1) 0) 0 0) (by decide +kernel) (by decide +kernel) (by decide +kernel), by decide +kernel, by decide +kernel⟩

theorem witness_FabricInstructions_casf : SlotReady .casf (lk (smp .b32 (.v 4) (.int 8) (.int 4) (.int 1) 0) 0 0) (demo bound5 id) (demoAt bound5 id) ∧ (slotOf .casf (lk (smp .b32 (.v 4) (.int 8) (.int 4) (.int 1) 0) 0 0) bound5 id).ex ≠ 0 ∧
    ∀ l : Fin 32, (slotOf .casf (lk (smp .b32 (.v 4) (.int 8) (.int 4) (.int 1) 0) 0 0) bound5 id).ex.getLsbD l = true → firstErr [{ (demo bound5 id) with parts := [(0, peer5)] }.peerFault (slotOf .casf (lk (smp .b32 (.v 4) (.int 8) (.int 4) (.int 1) 0) 0 0) bound5 id), globalFault ((slotOf .casf (lk (smp .b32 (.v 4) (.int 8) (.int 4) (.int 1) 0) 0 0) bound5 id).a[l]).p (((slotOf .casf (lk (smp .b32 (.v 4) (.int 8) (.int 4) (.int 1) 0) 0 0) bound5 id).a[l]).v.toNat : Int) (atomBytes (lk (smp .b32 (.v 4) (.int 8) (.int 4) (.int 1) 0) 0 0)) true, failIf (((slotOf .casf (lk (smp .b32 (.v 4) (.int 8) (.int 4) (.int 1) 0) 0 0) bound5 id).b[l]).p || ((slotOf .casf (lk (smp .b32 (.v 4) (.int 8) (.int 4) (.int 1) 0) 0 0) bound5 id).c[l]).p) cPoisonStore] = none :=
  ⟨demo_ready bound5 id .casf (lk (smp .b32 (.v 4) (.int 8) (.int 4) (.int 1) 0) 0 0) (by decide +kernel) (by decide +kernel) (by decide +kernel), by decide +kernel, by decide +kernel⟩

theorem witness_FabricInstructions_wcbFlush : SlotReady .wcbFlush (lk (smp .b32 .none .none .none .none 4) 0 0) (demo bound5 id) (demoAt bound5 id) ∧ (slotOf .wcbFlush (lk (smp .b32 .none .none .none .none 4) 0 0) bound5 id).ex ≠ 0 ∧
    { (demo bound5 id) with parts := [(0, peer5)] }.peerFault (slotOf .wcbFlush (lk (smp .b32 .none .none .none .none 4) 0 0) bound5 id) = none :=
  ⟨demo_ready bound5 id .wcbFlush (lk (smp .b32 .none .none .none .none 4) 0 0) (by decide +kernel) (by decide +kernel) (by decide +kernel), by decide +kernel, by decide +kernel⟩

theorem witness_FabricInstructions_fpeer : SlotReady .fpeer (lk (smp .b32 (.v 4) .none .none .none 0) 0 0) (demo bound5 id) (demoAt bound5 id) ∧ (slotOf .fpeer (lk (smp .b32 (.v 4) .none .none .none 0) 0 0) bound5 id).ex ≠ 0 ∧
    (slotOf .fpeer (lk (smp .b32 (.v 4) .none .none .none 0) 0 0) bound5 id).peerOf ≠ none :=
  ⟨demo_ready bound5 id .fpeer (lk (smp .b32 (.v 4) .none .none .none 0) 0 0) (by decide +kernel) (by decide +kernel) (by decide +kernel), by decide +kernel, by decide +kernel⟩

theorem witness_SpecialRegisterInstructions_sysrd : SlotReady .sysrd (lk (smp .b64 (.v 4) (.int 1) .none .none 0) 0 0) (demo id id) (demoAt id id) ∧ (slotOf .sysrd (lk (smp .b64 (.v 4) (.int 1) .none .none 0) 0 0) id id).ex ≠ 0 ∧
    ∀ l : Fin 32, (slotOf .sysrd (lk (smp .b64 (.v 4) (.int 1) .none .none 0) 0 0) id id).ex.getLsbD l = true → (demo id id).sysRead (slotOf .sysrd (lk (smp .b64 (.v 4) (.int 1) .none .none 0) 0 0) id id) l = .ok ((demoAt id id)).c.trph :=
  ⟨demo_ready id id .sysrd (lk (smp .b64 (.v 4) (.int 1) .none .none 0) 0 0) (by decide +kernel) (by decide +kernel) (by decide +kernel), by decide +kernel, by decide +kernel⟩

theorem witness_SpecialRegisterInstructions_icinv : SlotReady .icinv (lk (smp .b32 .none (.int 8) (.int 4) .none 0) 0 0) (demo id id) (demoAt id id) ∧ (slotOf .icinv (lk (smp .b32 .none (.int 8) (.int 4) .none 0) 0 0) id id).ex ≠ 0 ∧
    ∀ l : Fin 32, (slotOf .icinv (lk (smp .b32 .none (.int 8) (.int 4) .none 0) 0 0) id id).ex.getLsbD l = true → ((slotOf .icinv (lk (smp .b32 .none (.int 8) (.int 4) .none 0) 0 0) id id).a[l]).p = false ∧ ((slotOf .icinv (lk (smp .b32 .none (.int 8) (.int 4) .none 0) 0 0) id id).b[l]).p = false ∧ (((slotOf .icinv (lk (smp .b32 .none (.int 8) (.int 4) .none 0) 0 0) id id).b[l]).lo.toNat = 0 ∨ addrFault (((slotOf .icinv (lk (smp .b32 .none (.int 8) (.int 4) .none 0) 0 0) id id).a[l]).v.toNat : Int) ((slotOf .icinv (lk (smp .b32 .none (.int 8) (.int 4) .none 0) 0 0) id id).b[l]).lo.toNat 0 = none) :=
  ⟨demo_ready id id .icinv (lk (smp .b32 .none (.int 8) (.int 4) .none 0) 0 0) (by decide +kernel) (by decide +kernel) (by decide +kernel), by decide +kernel, by decide +kernel⟩

theorem witness_HaltRule : SlotReady .halt (lk (smp .b32 .none (.int 9) .none .none 0) 0 0) (demo id id) (demoAt id id) ∧ (slotOf .halt (lk (smp .b32 .none (.int 9) .none .none 0) 0 0) id id).ex ≠ 0 ∧
    (lanesOf (slotOf .halt (lk (smp .b32 .none (.int 9) .none .none 0) 0 0) id id).ex).getLast? = some 31 ∧ ∀ i : Fin 32, (slotOf .halt (lk (smp .b32 .none (.int 9) .none .none 0) 0 0) id id).ex.getLsbD i = true → ((slotOf .halt (lk (smp .b32 .none (.int 9) .none .none 0) 0 0) id id).a[i]).p = false :=
  ⟨demo_ready id id .halt (lk (smp .b32 .none (.int 9) .none .none 0) 0 0) (by decide +kernel) (by decide +kernel) (by decide +kernel), by decide +kernel, by decide +kernel⟩

theorem witness_HaltRule_passive : SlotReady .halt (lk (smp .b32 .none (.int 9) .none .none 0) 0 2) (demo id id) (demoAt id id) ∧
    (slotOf .halt (lk (smp .b32 .none (.int 9) .none .none 0) 0 2) id id).ex = 0 :=
  ⟨demo_ready id id .halt _ (by decide +kernel) (by decide +kernel) (fun _ => rfl), by decide +kernel⟩

/-! Witnesses for statements about objects, operations and faults of slots. -/

/-- The slot of an instruction executing in lane 0 alone. -/
def oneSlot (o : Op) (f : Fields) (s : State) : Slot := (demoAt oneLane id).slot o (lk f f.lit 1) s

theorem witness_TrapEntry : smGet (demo id id).crews 1 = some (crewOf id id) ∧ (demo id id).cohort? 1 0 = some cohort0 ∧
    (cohort0.threads[(3 : Fin 32)]).inHandler = false ∧ (crewOf id fun c => { c with trph := 0x40 }).trph ≠ 0 ∧
    smGet (demo id fun c => { c with trph := 0x40 }).crews 1 = some (crewOf id fun c => { c with trph := 0x40 }) ∧
    (crewOf id id).trph = 0 ∧ ((allThreads (fun t => { t with inHandler := true }) cohort0).threads[(3 : Fin 32)]).inHandler = true := by
  decide +kernel

theorem witness_RejoinInstructions : (demo id id).cohort? 1 0 = some cohort0 := by decide +kernel

/-- A barrier object at the ends of its fields' widths. -/
def bar1 : BarObj := { ph := 65535, exa := 65535, pna := 1, adj := -32768, exb := 4294967295, ldb := 4294967295 }

theorem witness_BarrierObject : Memory.wf State.reset.mem = true ∧ BarFits bar1 ∧
    (∃ a, a < (crewOf id id).barAt 3 ∨ (crewOf id id).barAt 3 + 16 ≤ a) ∧ (7 : Nat) ≠ 3 := by
  refine ⟨by decide +kernel, ?_, ⟨0, by decide +kernel⟩, by decide⟩
  unfold BarFits bar1; decide

theorem witness_LoadedBytes_kept : ([some 7#8, some 8#8] : List (Option Byte)).all Option.isSome = true := by decide

/-- The small state with a line of zeros in the slice's L0. -/
def l0Demo : State := (demo id id).modIssue slice0 fun i =>
  { i with l0 := [{ asid := asidOf 0 0, va := 0x80, w := true, x := false, data := List.replicate 128 0, pz := 0, inflight := [], cell := 0 }] }

theorem witness_LoadedBytes_l0 : ([none, some 8#8] : List (Option Byte)).all Option.isSome = false ∧ 2 % 2 = 0 ∧
    inHost 0x84#64 = false ∧ l0Demo.lineBusy 1 0 0 0x84 = false ∧ l0Demo.trailed 1 0 0 0x84 = false ∧
    (l0Demo.issue slice0).l0Line? (asidOf 0 0) 0x84 = some
      { asid := asidOf 0 0, va := 0x80, w := true, x := false, data := List.replicate 128 0, pz := 0, inflight := [], cell := 0 } := by
  decide +kernel

theorem witness_LoadedBytes_ask : ([none] : List (Option Byte)).all Option.isSome = false ∧
    (l0Demo.issue slice0).l0Line? (asidOf 0 0) 0x1000 = none ∧ 1 % 2 ≠ 0 := by decide +kernel

theorem witness_LoadedBytes_stash : ((demo id id).cluster Config.clusters).mline? 5 = none ∧
    (((demo id id).modCluster Config.clusters fun c => { c with mapped := [(0, { (default : MLine) with st := 2 })] }).cluster
      Config.clusters).mline? 5 = some { (default : MLine) with st := 2 } ∧ (List.replicate 8 (0 : Byte)).length ≠ 16 ∧
    (List.replicate 16 (0 : Byte)).length = 16 := by decide +kernel

/-- Stores into 65 lines. -/
def stores65 : List RStore := (List.range 65).map fun n =>
  { lane := 0, stash := false, addr := BitVec.ofNat 64 (128 * n), data := [1], hint := 0, trpc := 0 }

theorem witness_RegionStoreBuffer : (demo id id).cohort? 1 0 = some cohort0 ∧ cohort0.rgn.opened = false ∧
    (openAt 9 false cohort0).rgn.opened = true ∧ 64 < bufferLines ((openAt 9 false cohort0).rgn.stores ++ stores65) ∧
    bufferLines ((openAt 9 false cohort0).rgn.stores ++ stores65.tail) = 64 := by decide +kernel

/-- A bind entry of the range 0 to 255 to object 3. -/
def bind0 : Bind := { base := 0, len := 256, w0 := 0, w1 := 3 }

/-- The crew of the tests with that entry in each place of `n`. -/
def bindCrew (p : Fin 64 → Bool) : Crew := { crewOf id id with bind := Vector.ofFn fun i => if p i then some bind0 else none }

theorem witness_BindResults : ((8 : Nat) ≠ 0 ∧ (crewOf id id).sync ≤ (8#64).toNat) ∧ (12#64).toNat % 8 ≠ 0 ∧
    ((3#64).toNat < (crewOf id id).sync ∧ (bindCrew fun i => i = 5).bind[(5 : Fin 64)] = some bind0) ∧
    ((∀ n : Fin 64, (bindCrew fun i => i = 5).bind[n] ≠ some { bind0 with w1 := 4 }) ∧
      overlaps bind0.base (bind0.base + bind0.len) 128 256 = true ∧ bind0.w1 ≠ 4) ∧
    ((∀ n : Fin 64, (bindCrew fun _ => true).bind[n] ≠ none) ∧
      ∀ n : Fin 64, (bindCrew fun _ => true).bind[n] ≠ some { bind0 with base := 512 }) ∧
    (∃ n : Fin 64, (crewOf id id).bind[n] = none) := by decide +kernel

theorem witness_AtomicResults : Ty.flt .i32 = false ∧ Ty.flt .f32 = true ∧ (0xFFFFFFFF#64).toNat < 2 ^ 32 ∧
    (stashAddr 0 8 + 8 ≤ stashAddr 0 16) ∧
    ∀ d q, atomicNew (.cas true 5 7) 5 false = some (d, q) → d.length = 8 := by
  refine ⟨by decide, by decide, by decide, by decide +kernel, ?_⟩
  intro d q h
  have e : atomicNew (.cas true 5 7) 5 false = some ([7, 0, 0, 0, 0, 0, 0, 0], false) := by decide +kernel
  rw [e] at h
  simp only [Option.some.injEq, Prod.mk.injEq] at h
  rw [← h.1]; rfl

/-- `red` in the small state. -/
def redF : Fields := smp .i32 .none (.int 8) (.int 4) (.int 1) 0

theorem witness_ReductionInstructions_more :
    ((demo id id).issue slice0).red.any (redKey (slotOf .red redF id id) 12).same = false ∧
    (demo id id).redEntries (slotOf .red redF id id) < 8 ∧
    (((demo id id).modIssue slice0 fun i => { i with red := [redKey (slotOf .red redF id id) 12] }).issue slice0).red.any
      (redKey (slotOf .red redF id id) 12).same = true := by decide +kernel

theorem witness_ReductionInstructions_place :
    (forL (lanesOf (slotOf .red redF id id).ex) ((demo id id).regionHere (slotOf .red redF id id), false, 0)
      (redStep (slotOf .red redF id id) fun i => toW64 (globalEa (slotOf .red redF id id).a[i] (slotOf .red redF id id).b[i]))).2.1 =
      false := by decide +kernel

theorem witness_CopyPosts : smGet (demo id id).crews 1 = some (crewOf id id) ∧
    (demo id id).thread? 1 0 4 = some cohort0.threads[(4 : Fin 32)] ∧
    ((demo id id).cluster Config.clusters).freeSlots ≠ [] ∧ 3 ≤ ((demo id id).cluster Config.clusters).chuckRoom ∧
    (((demo id id).modCluster Config.clusters fun c => { c with chuck := List.replicate 4096 default }).cluster
      Config.clusters).chuckRoom < 1 ∧
    (((demo id id).modCluster Config.clusters fun c => { c with cp := (List.range 64).map fun n => (n, { (default : CpJob) with st := .queued }) }).cluster
      Config.clusters).freeSlots = [] ∧
    flagRoom { cohort0.threads[(4 : Fin 32)] with f := Vector.replicate 12 63 } 0 = false ∧
    flagRoom cohort0.threads[(4 : Fin 32)] 0 = true := by decide +kernel

/-! Witnesses for posts, jobs, seals, system instructions and launches. -/

/-- A queued card of the crew of the tests on its own cluster. -/
def card0 : MxEnt := { (default : MxEnt) with kind := .card, cid := 1, st := .queued, eng := Config.clusters }

/-- A running copy job of the crew of the tests, serial number 2. -/
def job0 : CpJob := { (default : CpJob) with kind := .cp, cid := 1, st := .running, serial := 2 }

/-- The small state with a copy job in slot 0. -/
def jobDemo (j : CpJob) : State := (demo id id).modCluster Config.clusters fun c => { c with cp := [(0, j)] }

/-- The small state with a card in slot 0. -/
def cardDemo (e : MxEnt) : State := (demo id id).modCluster Config.clusters fun c => { c with mx := [(0, e)] }

theorem witness_MatrixPosts : smGet (demo id id).crews 1 = some (crewOf id id) ∧
    (demo id id).thread? 1 0 4 = some cohort0.threads[(4 : Fin 32)] ∧
    (∀ y ∈ (demo id id).mxTargets 1 (crewOf id id) .zero,
      (mxRanges .zero [1] y.2.2 (uvOf (crewOf id id).tw y.1)).length ≤ ((demo id id).cluster y.2.2.p).chuckRoom) ∧
    (∃ y ∈ (demo id id).mxTargets 1 (crewOf id id) .card,
      (((demo id id).modCluster Config.clusters fun c => { c with chuck := List.replicate 64 default }).cluster y.2.2.p).chuckRoom <
        (mxRanges .card [2 ^ 45, 0, 0, 0, 0, 2 ^ 20] y.2.2 (uvOf (crewOf id id).tw y.1)).length) ∧
    mCfe [2 ^ 18] = true ∧ flagRoom { cohort0.threads[(4 : Fin 32)] with f := Vector.replicate 12 63 } (mCfl [2 ^ 18]) = false := by
  decide +kernel

theorem witness_JobStatus_copies : (demo id id).cpNamed (slotOf .cpStat (sampleOf .cpStat) id id) 0x101 = none ∧
    (crewOf id id).cutOf false 0x101 = none ∧
    (jobDemo job0).cpNamed (slotOf .cpStat (sampleOf .cpStat) id id) 0x101 = some (0, job0) ∧ job0.st.over = false ∧
    job0.out = [] ∧ ({ job0 with st := JobSt.done }.st).over = true := by decide +kernel

theorem witness_JobStatus_cards : (demo id id).mxNamed (slotOf .mxStat (sampleOf .mxStat) id id) 0x101 = none ∧
    (crewOf id id).cutOf true 0x101 = none ∧
    (cardDemo { card0 with serial := 2 }).mxNamed (slotOf .mxStat (sampleOf .mxStat) id id) 0x101 =
      some (0, { card0 with serial := 2 }) ∧
    ((cardDemo { card0 with serial := 2 }).mxWhole { card0 with serial := 2 }).over = false ∧
    ((cardDemo { card0 with st := .done }).mxWhole { card0 with st := .done }).over = true := by decide +kernel

/-- `fcp` of a pull from peer 5 of 4 bytes to global address 0. -/
def fcpMem : State := { demo bound5 id with mem := stashWords 0 [0x0000000400004000, 0, 0, 1] }

/-- The same with the peer table. -/
def fcpState : State := { fcpMem with parts := [(0, peer5)] }

theorem fcp_ready : SlotReady .fcp (sampleOf .fcp) fcpState (demoAt bound5 id) :=
  have h : SlotReady .fcp (sampleOf .fcp) fcpMem (demoAt bound5 id) :=
    ready_mem (demo_ready bound5 id .fcp _ (by decide +kernel) (by decide +kernel) (fun _ => rfl)) _
  ready_part h _

/-- Its slot. -/
def fcpSlot : Slot := (demoAt bound5 id).slot .fcp (sampleOf .fcp) fcpState

theorem witness_FabricInstructions_fcp : SlotReady .fcp (sampleOf .fcp) fcpState (demoAt bound5 id) ∧
    ∀ l : Fin 32, fcpSlot.ex.getLsbD l = true → firstErr [fcpState.peerFault fcpSlot, failIf (fcpSlot.a[l]).p cPoisonUse,
      failIf (decide ((fcpSlot.a[l]).lo.toNat % 64 ≠ 0)) cMisaligned,
      failIf (decide (fcpSlot.crew.dOff < (fcpSlot.a[l]).lo.toNat + 64)) cStashBounds,
      fcpState.cpFault fcpSlot.crew .fcp (eightWords (memRead fcpState.mem
        (fcpSlot.crew.stashAt (fcpSlot.a[l]).lo.toNat) 64))] = none :=
  ⟨fcp_ready, by decide +kernel⟩

theorem witness_FabricInstructions_fcp_posts :
    (laneRun (fun i t => .ok (t.cpOffer ((demoAt oneLane id).slot .fcp (lk (sampleOf .fcp) 0 1) fcpState) i.val .fcp 5
      [0x0000000400004000, 0, 0, 1, 0, 0, 0, 0])) (lanesOf (oneSlot .fcp (sampleOf .fcp) fcpState).ex) (fcpState, [])).isSome =
      true := by decide +kernel

/-- The slot of `seal.open`. -/
def sealSlot : Slot := slotOf .sealOpen (sampleOf .sealOpen) id id

theorem witness_SealInstructions : smGet { demo id id with parts := [(0, part0)] }.parts sealSlot.crew.part = some part0 ∧
    (∀ i < 16, (smGet (((demo id id).modCluster Config.clusters fun c =>
      { c with seals := (List.range 16).map fun n => (n, default) }).cluster sealSlot.p).seals i).isSome = true) ∧
    (∃ i < 16, smGet ((sealDemo id).cluster sealSlot.p).seals i = none) ∧ ((sealDemo id).cluster sealSlot.p).sealsOf 1 < 4 ∧
    4 ≤ (((demo id id).modCluster Config.clusters fun c =>
      { c with seals := (List.range 4).map fun n => (n, { (default : SealCtx) with cid := 1 }) }).cluster sealSlot.p).sealsOf 1 ∧
    part0.res.shares = [] ∧ { part0.res with shares := [2] }.shares ≠ [] ∧
    ((demo id id).cluster sealSlot.p).sealNamed sealSlot.cid 225 = none := by decide +kernel

theorem witness_SpecialRegisterInstructions :
    (Val.ok 0x100).p = false ∧ (sampleOf .sysrd).c.sel = .none ∧ (crewOf id fun c => { c with part := 7 }).part ≠ Config.svcTag ∧
    specHeld 0x0FF = none ∧ specHeld 0x000 = some .wafer ∧ specHeld 4 = some .own ∧ specHeld 0x006 = some .part := by
  decide +kernel

theorem witness_FirmwareInstructions_lines : ∀ l : Fin 32,
    (slotOf .measExt (sampleOf .measExt) id id).ex.getLsbD l = true →
    ((demo id id).cluster Config.clusters).linesReady ((crewOf id id).base +
      ((slotOf .measExt (sampleOf .measExt) id id).a[l]).lo.toNat) 48 = true ∧
    ((demo id id).cluster Config.clusters).linesReady ((crewOf id id).base +
      ((slotOf .sigVfy (sampleOf .sigVfy) id id).a[l]).lo.toNat) 208 = true := by decide +kernel

theorem witness_FirmwareInstructions_meas :
    (laneRun (fun i t => t.measOne (oneSlot .measExt (sampleOf .measExt) (demo oneLane id)) i)
      (lanesOf (oneSlot .measExt (sampleOf .measExt) (demo oneLane id)).ex) (demo oneLane id, [])).isSome = true ∧
    ((slotOf .measExt (sampleOf .measExt) id id).a[(3 : Fin 32)]).p = false ∧
    ((slotOf .measExt (sampleOf .measExt) id id).b[(3 : Fin 32)]).lo.toNat ≤ 3 ∧
    (demo id id).firmFault (slotOf .measExt (sampleOf .measExt) id id) 0 48 false = none := by decide +kernel

theorem witness_FirmwareInstructions_sig : (demo id id).sigFault (slotOf .sigVfy (sampleOf .sigVfy) id id) 0 = none ∧
    (match (demo id id).putDigest (slotOf .sigVfy (sampleOf .sigVfy) id id) 0 (List.replicate 48 7) with
      | .done _ => true | _ => false) = true := by decide +kernel

/-- A partition that may launch. -/
def launchPart : Machine.Part := { part0 with chquota := 5, roots := [(0, default)] }

/-- The slot of `launch` in lane 0. -/
def launchSlot : Slot := oneSlot .launch (sampleOf .launch) (demo oneLane id)

theorem witness_LaunchInstruction : SlotReady .launch (lk (sampleOf .launch) 0 1) (demo oneLane id) (demoAt oneLane id) ∧
    launchSlot.ex = 1 ∧ (laneRun (fun i t => match launchFault launchSlot i with
      | some c => .error c
      | none => (t.launchOne launchSlot i).2.map fun w => ((t.launchOne launchSlot i).1, w)) (lanesOf launchSlot.ex)
        (demo oneLane id, [])).isSome = true ∧ (lanesOf launchSlot.ex).any ((demo oneLane id).launchLater launchSlot) = false :=
  ⟨demo_ready oneLane id .launch _ (by decide +kernel) (by decide +kernel) (fun _ => rfl), by decide +kernel, by decide +kernel,
    by decide +kernel⟩

theorem witness_LaunchInstruction_refusals :
    smGet { demo id id with parts := [(0, launchPart)] }.parts launchSlot.crew.part = some launchPart ∧
    (match ({ demo id id with parts := [(0, launchPart)] }).judgeLaunch 0 0 [2 ^ 60, 0, 0, 0, 0, 0, 0, 0] 1 (some 1) 0 with
      | (_, .invalid) => true | _ => false) = true ∧
    ({ demo id id with parts := [(0, launchPart)] }).launched 0 < fld launchPart.chquota 15 0 ∧
    fld part0.chquota 15 0 ≤ (demo id id).launched 0 := by decide +kernel

/-- A word of tenant code may not halt. -/
theorem witness_SlotFaults :
    encFault { regs := 64, bound := fun _ => true } true .nop { smp .b32 .none .none .none .none 1 with pk := 0 } = some cIllegalOpcode ∧
    encFault { regs := 64, bound := fun _ => true } false .halt (smp .b32 .none (.int 0) .none .none 0) = some cPriv ∧
    encFault { regs := 8, bound := fun _ => true } true .mov (smp .b32 (.v 3) (.v 9) .none .none 0) = some cIllegalOperand ∧
    (∀ l : Fin 32, ((allThreads (fun t => { t with k := t.k.set 2 { v := true, p := true } }) cohort0).threads[l]).predPoison 2 =
      true) ∧
    ({ (demo id id).cluster Config.clusters with halted := true }).halted = true := by decide +kernel

/-! Witnesses for the statements about events. -/

/-- The reset state with partition 1. -/
def withPart (p : Machine.Part) : State := { State.reset with parts := [(1, p)] }

/-- The reset state with a cluster. -/
def withCluster (n : Nat) (f : Cluster → Cluster) : State := State.reset.modCluster n f

/-- A partition of cluster 0. -/
def part1 : Machine.Part := { (default : Machine.Part) with res := { (default : Machine.Part).res with clusters := [0] } }

/-- The small state between clauses, its crew's partition known. -/
def idleDemo (g : Cohort → Cohort) (c : Crew → Crew) : State :=
  { (demo g c).modIssue slice0 (fun i => { i with run := none }) with parts := [(0, part0)] }

theorem witness_ClauseEvents_select : ((demo id id).issue slice0).run.isSome = true ∧ ((idleDemo id id).issue slice0).run = none ∧
    (idleDemo (fun h => { h with parked := some (probeRun 1 2 [0, 0]), ready := true }) id).readyRun slice0 =
      some (1, 0, probeRun 1 2 [0, 0]) ∧
    (idleDemo id id).readyRun slice0 = none ∧
    (((idleDemo (allThreads fun t => { t with due := [default] }) id).releaseSlice slice0).sliceDue slice0).isSome = true ∧
    (((idleDemo id id).releaseSlice slice0).sliceDue slice0).isNone = true := by decide +kernel

/-- A candidate: the threads of the crew of the tests at a clause of one `nop`, header 0xA00000FF00000000 with PAR 0. -/
def cand0 : Cand :=
  { cid := 1, co := 0, place := 0, st := (cohort0.threads[(0 : Fin 32)]).stand, hdr := 0xA00000FF00000000,
    words := [0x00000FF3FCFF3FC0], lanes := BitVec.allOnes 32, fault := none, age := 0, yld := false, blocked := false, full := [],
    meet := false, late := [], arr := none }

theorem witness_ClauseEvents_choose : ((idleDemo id id).noteCands slice0 [cand0]).chosen slice0 [] = none ∧
    ((((idleDemo id id).noteCands slice0 [cand0]).chosen slice0 [cand0]).isSome) = true ∧
    (((idleDemo id id).noteCands slice0 [cand0]).cohort? 1 0).isSome = true := by decide +kernel

theorem witness_ClauseEvents_start : cand0.fault = none ∧
    clauseFault cohort0 cand0.hdr (parseSlots false 0 cand0.words) = none ∧
    (match (idleDemo id id).openForClause cand0 cand0.lanes cohort0 ((parseSlots false 0 cand0.words).any slotArrives) with
      | .ok _ => true | .error _ => false) = true ∧ cand0.st.tok = none := by decide +kernel

theorem witness_ClauseEvents_debug : smGet (demo id fun c => { c with st := .debug }).crews 1 =
    some (crewOf id fun c => { c with st := .debug }) ∧ (crewOf id fun c => { c with st := .debug }).leaving = none ∧
    (∀ c, smGet (demo id id).crews 9 = some c → c.st ≠ .debug) := by
  refine ⟨by decide +kernel, by decide +kernel, fun c h => ?_⟩
  have : smGet (demo id id).crews 9 = none := by decide +kernel
  rw [this] at h; cases h

theorem witness_ClauseEvents_close : (demo id id).cohort? 1 0 = some cohort0 ∧ cohort0.closing = false ∧
    (cohort0.parked = none ∧ (demo id id).closeDecision 1 0 cohort0.closeOwn = .commit) ∧
    (demo (openAt 9 true) id).closeDecision 1 0 none = .restart ∧
    ({ demo (openAt 4 false) id with pends := [(5, pend0)] }).closeDecision 1 0 none = .wait ∧
    ({ openAt 9 false cohort0 with closing := true, parked := some (probeRun 1 2 []) }).parked.isSome = true := by decide +kernel

/-- Cluster 0 after two silent errors, and after three. -/
def failing (n : Nat) : State := { withCluster 0 fun c => { c with silent := n } with parts := [(1, part1)] }

theorem witness_ClauseEvents_failing : (State.reset.cluster 0).silent < 2 ∧
    ((withCluster 0 fun c => { c with silent := 2 }).ownerOf 0 = none ∧
      2 ≤ ((withCluster 0 fun c => { c with silent := 2 }).cluster 0).silent) ∧
    (failing 2).ownerOf 0 = some 1 ∧ smGet (failing 2).parts 1 = some part1 ∧ part1.qst ≠ 1 ∧ part1.reshape = none ∧
    ((failing 2).cluster 0).silent = 2 ∧ 2 < ((failing 3).cluster 0).silent ∧
    ((failing 3).residents 0).all (fun x => x.2.leaving = some .save && (failing 3).leaveReady x.1) = true := by decide +kernel

/-- A result of the crew of the tests that has come in lane 0, for v5. -/
def pend1 : Pend := { (default : Pend) with
  cid := 1, co := 0, dst := .v 5, width := 1, lanes := 1, waitRes := 1, vals := [(0, { val := [7], p := false })] }

theorem witness_ResultDelivery : smGet ({ demo id id with pends := [(5, pend1)] }).pends 5 = some pend1 ∧
    pend1.fence = none ∧ pend1.uni = false ∧ pend1.bundle = false ∧ pend1.dead = false ∧
    ({ demo id id with pends := [(5, pend1)] }).cohort? pend1.cid pend1.co = some cohort0 ∧
    pend1.waitRes.getLsbD 0 = true ∧ smGet pend1.vals 0 = some { val := [7], p := false } ∧ smGet pend1.vals 1 = none ∧
    smGet (demo id id).pends 5 = none ∧ ({ pend1 with fence := some default }).fence.isSome = true := by decide +kernel

/-- A cell that is Scrubbing, and one that is Owned. -/
def cellsDemo : State := { withPart part1 with own := [(3, (2, 0)), (4, (1, 1))], chRdy := [0] }

theorem witness_ResourceEvents : ({ State.reset with rail := false }).rail = false ∧
    ({ State.reset with turns := [.ev (.fabricRailDown)] }).turn ≠ .ev .coldStart ∧
    (0 < resCount .svc ∧ (Res.svc, 0) ∉ State.reset.failed ∧ State.reset.requires .svc 0 = true) ∧
    resCount .svc ≤ resCount .svc ∧
    (0 < resCount .cl ∧ (State.reset.markFailed .cl 0).ownerOf 0 = none ∧ ((withPart part1).markFailed .cl 0).ownerOf 0 ≠ none) ∧
    ((withCluster 3 fun c => { c with zeroing := true }).cluster 3).zeroing = true ∧
    State.reset.failed.contains (.cl, 3) = false ∧ State.reset.fenced.contains (clusterSite 3) = false ∧ State.reset.zoneBad = [] ∧
    ({ State.reset with failed := [(.cl, 3)] }).failed.contains (.cl, 3) = true ∧
    (3 < Config.cells ∧ 2 ≤ (cellsDemo.cell (cellNo 0 3)).1 ∧ cellsDemo.fenced.contains (sliceSite 0) = false) ∧
    (cellsDemo.cell (cellNo 0 4)).1 < 2 ∧
    (cellsDemo.chRdy.contains 0 = true ∧ 32 * 4 < 32 * Config.cells ∧ (dramAddr 0 (128 * (32 * 4)) / 8 + 15) ∉ cellsDemo.memPz ∧
      (cellsDemo.cell (cellNo 0 (32 * 4 / 32))).1 = 1) ∧ State.reset.chRdy.contains 0 = false := by decide +kernel

/-- Zone 3 over its limit at time 0, the clock at `t`. -/
def overDemo (t : Nat) : State := { State.reset with overAt := [(3, 0)], time := t }

theorem witness_PowerEvents : (State.reset.cluster 0).stretched = false ∧
    ((withCluster 0 fun c => { c with stretched := true, suspect := true }).cluster 0).stretched = true ∧
    ((withCluster 0 fun c => { c with suspect := true }).cluster 0).suspect = true ∧ (State.reset.cluster 0).suspect = false ∧
    (demo (openAt 9 false) id).cohort? 1 0 = some (openAt 9 false cohort0) ∧
    ((3 : Nat) < 64 ∧ 1875 < 1876 ∧ 65535 < 65536) ∧ smGet State.reset.overAt 3 = none ∧
    (smGet (overDemo 9999).overAt 3 = some 0 ∧ (overDemo 9999).time < 0 + 10000) ∧ 0 + 10000 ≤ (overDemo 10000).time ∧
    (6000 < 6001 ∧ 6001 < 65536) ∧ ({ State.reset with zoneBad := [3] }).zoneBad.contains 3 = true ∧
    (State.reset.zoneBad.contains 3 = false ∧ State.reset.zoneCrews 3 = [] ∧
      (State.reset.parts.filter fun x => x.2.res.clusters.any fun p => decide (clusterZone p = some 3)) = [] ∧
      (zoneClusters 3).filterMap (fun p => (State.reset.ownerOf p).map fun t => (t, p, (State.reset.cluster p).queue)) = []) := by
  decide +kernel


/-! Witnesses for the mapping commands. Space 0 of partition 1, which has channel 0, has its tables in cells 10 to 14; the
granule 16 (address 0x10000) is mapped writable to frame 0, cell 0, which the partition owns with cell 1. -/

/-- A mapping command for the granule at an address, permission bits `fl`, frame `f`, `n` granules. -/
def mapOf (va : W64) (fl : BitVec 4) (f : BitVec 21) (n : W32) (cause : BitVec 7) : MapCmd :=
  { space := 0, size := 0, fl := fl, cause := cause, stamp := 0, va := va, frame := f, count := n, cookie := 0 }

/-- The partition of the tests of mapping. -/
def mapPart (root : SMap Nat) (waits : List PageWait) : Machine.Part :=
  { part1 with res := { part1.res with channels := [0] }, roots := root, waits := waits }

/-- Its state: `own` as given beside the tables' cells. -/
def mapState (own : SMap (Nat × Nat)) (waits : List PageWait) : State :=
  { withPart (mapPart [(0, 10)] waits) with
    own := own ++ [(10, (1, 0)), (11, (1, 0)), (12, (1, 0)), (13, (1, 0)), (14, (1, 0))],
    mem := memWrite (memWrite (memWrite (memWrite (memWrite [] (4096 * 10) (bytesOfNat 8 (11 * 4096 + 1))) (4096 * 11)
      (bytesOfNat 8 (12 * 4096 + 1))) (4096 * 12) (bytesOfNat 8 (13 * 4096 + 1))) (4096 * 13) (bytesOfNat 8 (14 * 4096 + 1)))
      (4096 * 14 + 8 * 16) (bytesOfNat 8 7) }

/-- The partition owns cells 0 and 1. -/
def mapDemo : State := mapState [(0, (1, 1)), (1, (1, 1))] []

theorem witness_MappingCommands_acquire : smGet State.reset.parts 1 = none ∧ (smGet mapDemo.parts 1).isSome = true ∧
    (Config.cells < (mapOf 0 0 0 0xFFFFFFFF 0).frame.toNat + (mapOf 0 0 0 0xFFFFFFFF 0).count.toNat) ∧
    (∃ c ∈ mapDemo.frameCells 1 0 1, (mapDemo.cell c).1 = 1) ∧
    ((mapOf 0 0 2 2 0).frame.toNat + (mapOf 0 0 2 2 0).count.toNat ≤ Config.cells ∧
      (∀ c ∈ mapDemo.frameCells 1 2 2, (mapDemo.cell c).1 ≠ 1) ∧ (∀ c ∈ mapDemo.frameCells 1 2 2, (mapDemo.cell c).1 < 2) ∧
      mapDemo.frameCells 1 2 2 = [2, 3]) ∧
    ((∀ c ∈ (mapState [(2, (2, 0))] []).frameCells 1 2 2, ((mapState [(2, (2, 0))] []).cell c).1 ≠ 1) ∧
      ∃ c ∈ (mapState [(2, (2, 0))] []).frameCells 1 2 2, 2 ≤ ((mapState [(2, (2, 0))] []).cell c).1) := by
  refine ⟨rfl, rfl, by decide +kernel, ⟨0, by decide +kernel, by decide +kernel⟩, by decide +kernel, by decide +kernel,
    2, by decide +kernel, by decide +kernel⟩

theorem witness_MappingCommands_release : mapDemo.stillMapped 1 0 1 = true ∧ mapDemo.stillMapped 1 1 1 = false ∧
    mapDemo.owned 1 1 = true := by decide +kernel

theorem witness_MappingCommands_map : (0 % sizeGranules 3 = 0 ∧ 1 % sizeGranules 1 ≠ 0) ∧
    mapDemo.cellsOwned 1 1 1 = true ∧ mapDemo.cellsOwned 1 2 1 = false ∧
    (mapDemo.leaves ((mapOf 0x10000 8 0 1 0).asid 1) (mapOf 0x10000 8 0 1 0).lo (mapOf 0x10000 8 0 1 0).hi).length = 1 ∧
    mapDemo.leaves ((mapOf 0x11000 8 1 1 0).asid 1) (mapOf 0x11000 8 1 1 0).lo (mapOf 0x11000 8 1 1 0).hi = [] ∧
    (mapDemo.makeRoot ((mapOf 0x11000 8 1 1 0).asid 1)).map Prod.snd = some 10 ∧
    (mapDemo.tablePath (mapOf 0x11000 8 1 1 0).lo (sizeLevel 0) 5 10).map (fun x =>
      (x.2, (x.1.word64 (pteAddr x.2 (pteIdx (sizeLevel 0) (mapOf 0x11000 8 1 1 0).lo))).getLsbD 0)) = some (14, false) := by
  decide +kernel

theorem witness_MappingCommands_leaf : mapDemo.pageLeaves ((mapOf 0x11000 8 1 1 0).asid 1) (mapOf 0x11000 8 1 1 0) = [] ∧
    mapDemo.pageLeaves ((mapOf 0x10000 8 1 1 0).asid 1) (mapOf 0x10000 8 1 1 0) =
      [{ level := 1, vpn := 16, addr := 4096 * 14 + 128, e := 7 }] ∧
    isDowngrade [{ level := 1, vpn := 16, addr := 4096 * 14 + 128, e := 7 }] false false false = true ∧
    isDowngrade [{ level := 1, vpn := 16, addr := 4096 * 14 + 128, e := 7 }] true true false = false ∧
    mapDemo.cellsOwned 1 1 (sizeGranules 0) = true ∧ 1 % sizeGranules 0 = 0 ∧ mapDemo.cellsOwned 1 5 (sizeGranules 0) = false := by
  decide +kernel

theorem witness_MappingCommands_refuse : (mapOf 0x11000 0 0 1 0).cause ≠ cPageNotPresent ∧
    (mapOf 0x11000 0 0 1 cPagePerm).cause = cPagePerm ∧
    (mapState [] [{ asid := (mapOf 0x11000 0 0 1 0).asid 1, page := 0x11000, kind := 0 }]).waitsFor
      ((mapOf 0x11000 0 0 1 0).asid 1) (vpnOf 0x11000) (vpnOf 0x11000 + 1) = true ∧
    mapDemo.waitsFor ((mapOf 0x11000 0 0 1 0).asid 1) (vpnOf 0x11000) (vpnOf 0x11000 + 1) = false := by decide +kernel

/-! Witnesses for the events of the meshes and the home slices. -/

/-- The reset state with a router of plane 0 at site 9. -/
def routed (r : Router) : State := { State.reset with routers := [(9, r)] }

/-- A flit for a site. -/
def flitTo (d : BitVec 12) : Flit := { (default : Flit) with dest := d, tag := 0, txn := 3, req := 5, nfl := 1 }

/-- A place with the ports of site 9. -/
def place9 (free : List (Nat × Nat)) (b : Bool) : Placing := { free := free, open' := b, out := [], eject := [], stay := [] }

theorem witness_MeshAndSliceEvents_route :
    ((routed { Router.reset with cyc := 1 }).ports 9 ≠ [] ∧ ∃ x ∈ (routed { Router.reset with cyc := 1 }).ports 9,
      (smGetD (routed { Router.reset with cyc := 1 }).routers (4096 * 0 + x.2) Router.reset).cyc <
        (smGetD (routed { Router.reset with cyc := 1 }).routers (4096 * 0 + 9) Router.reset).cyc) ∧
    (State.reset.fencedRtr.contains 9 = false ∧ ∀ x ∈ State.reset.ports 9,
      (smGetD State.reset.routers (4096 * 0 + 9) Router.reset).cyc ≤ (smGetD State.reset.routers (4096 * 0 + x.2) Router.reset).cyc) := by
  refine ⟨⟨by decide +kernel, (0, 10), by decide +kernel, by decide +kernel⟩, by decide +kernel⟩

theorem witness_MeshAndSliceEvents_place : ((flitTo 9).dest.toNat = 9 ∧ (place9 (State.reset.ports 9) true).open' = true) ∧
    ((flitTo 9).dest.toNat ≠ 8 ∧ (∃ y ∈ (place9 (State.reset.ports 8) true).free, State.reset.productive 8 9 y.2 = true)) ∧
    (place9 [(1, 7)] false).free = (1, 7) :: [] ∧ (∀ y ∈ (place9 [(1, 7)] false).free, State.reset.productive 8 9 y.2 = false) := by
  refine ⟨by decide +kernel, ⟨by decide +kernel, (0, 9), by decide +kernel, by decide +kernel⟩, by decide +kernel,
    by decide +kernel⟩

theorem witness_MeshAndSliceEvents_starve :
    (smGetD (routed { Router.reset with queue := [5], waited := 256 }).routers 9 Router.reset).queue ≠ [] ∧
    256 ≤ (smGetD (routed { Router.reset with queue := [5], waited := 256 }).routers 9 Router.reset).waited ∧
    (smGetD (routed { Router.reset with queue := [5], waited := 255 }).routers 9 Router.reset).waited < 256 ∧
    (smGetD State.reset.routers 9 Router.reset).queue = [] := by decide +kernel

/-- A request that travels, of two flits. -/
def req5 : Req := { (default : Req) with cid := 1, txn := some 3, op := .write [], home := 0 }

/-- A flit of it ejected at site 9. -/
def sunk (t : BitVec 10) (r : Req) : State :=
  { routed { Router.reset with ejected := [{ flitTo 9 with tag := t }] } with reqs := [(5, r)] }

theorem witness_MeshAndSliceEvents_sink : (smGetD State.reset.routers 9 Router.reset).ejected = [] ∧
    (smGetD (sunk 7 req5).routers (4096 * 0 + 9) Router.reset).ejected = { flitTo 9 with tag := 7 } :: [] ∧
    ((sunk 7 req5).modRouter 0 9 (fun q => { q with ejected := [] })).sinkAccepts 0 9 7 = false ∧
    ((sunk 0 req5).modRouter 0 9 (fun q => { q with ejected := [] })).sinkAccepts 0 9 0 = true ∧
    smGet ((sunk 0 req5).modRouter 0 9 (fun q => { q with ejected := [] })).reqs 5 = some req5 ∧
    req5.txn = some (flitTo 9).txn.toNat ∧ req5.reply = decide ((0 : Nat) ≠ 0) ∧
    (nsAdd (flitTo 9).idx.toNat req5.got).length ≤ (flitTo 9).nfl.toNat ∧
    (flitTo 9).nfl.toNat < (nsAdd (flitTo 9).idx.toNat { req5 with got := [1] }.got).length := by decide +kernel

/-- A request of tag 1 for its granule 16 at slice 0. -/
def atHome (op : ReqOp) : Req :=
  { (default : Req) with cid := 1, asid := asidOf 1 0, va := 0x10000, op := op, home := 0, stage := .atSlice }

/-- The key of the first way of its set. -/
def key16 : Nat := 16 * setIndex 0x10000 (asidOf 1 0)

/-- Slice 0 with its line there, in state `st`, writable or not. -/
def homed (st : Nat) (w : Bool) (op : ReqOp) : State :=
  { ({ mapDemo with chRdy := [0] }.modSlice 0 fun _ => { SliceSt.reset with
      lines := [(key16, { Line.invalid 0 with st := st, w := w, asid := asidOf 1 0, vpn := 16, data := List.replicate 128 0, waiters := [5] })],
      walks := [(8, { asid := asidOf 1 0, va := 0x10000, waiters := [key16] }), (9, { asid := asidOf 1 0, va := 0x20000, waiters := [] })],
      tlb := [leafTlb mapDemo (asidOf 1 0) 16 1 0 7] }) with reqs := [(5, atHome op)] }

theorem witness_MeshAndSliceEvents_home : smGet State.reset.reqs 5 = none ∧
    smGet (homed 1 true (.read 4 false)).reqs 5 = some (atHome (.read 4 false)) ∧
    (atHome (.read 4 false)).stage = .atSlice ∧ (homed 1 true (.read 4 false)).sourceHeld (atHome (.read 4 false)) = false ∧
    (homed 1 true (.read 4 false)).queueHeld 0 5 (atHome (.read 4 false)) = false ∧
    (homed 1 true (.read 4 false)).behindTrail 5 (atHome (.read 4 false)) = false ∧
    ((homed 1 true (.read 4 false)).slice 0).find (asidOf 1 0) 0x10000 = some key16 ∧
    (((homed 1 true (.read 4 false)).slice 0).way key16).st ≠ 3 ∧ (((homed 3 true (.read 4 false)).slice 0).way key16).st = 3 ∧
    (State.reset.slice 0).find (asidOf 1 0) 0x10000 = none := by decide +kernel

/-- The thread holds an older contrail entry for the page. -/
def trailing : State :=
  { demo (allThreads fun t => { t with contrail := [4] }) id with
    reqs := [(4, { atHome (.read 4 false) with stage := .contrail }), (5, { atHome (.read 4 false) with ord := 1 })] }

theorem witness_MeshAndSliceEvents_trail : trailing.behindTrail 5 { atHome (.read 4 false) with ord := 1 } = true ∧
    trailing.sourceHeld { atHome (.read 4 false) with ord := 1 } = false ∧
    trailing.queueHeld 0 5 { atHome (.read 4 false) with ord := 1 } = false := by decide +kernel

theorem witness_MeshAndSliceEvents_perform :
    permFault (((homed 1 true (.read 4 false)).slice 0).way key16).w (((homed 1 true (.read 4 false)).slice 0).way key16).x false 0 = none ∧
    permFault (((homed 1 true (.write [7])).slice 0).way key16).w (((homed 1 true (.write [7])).slice 0).way key16).x false 1 = none ∧
    permFault (((homed 1 false (.write [7])).slice 0).way key16).w (((homed 1 false (.write [7])).slice 0).way key16).x false
      (if (ReqOp.write [7]).writes then 1 else 0) = some cPagePerm := by decide +kernel

theorem witness_MeshAndSliceEvents_walk : ((State.reset.slice 0).walks.take 16).find? (fun x => x.1 = 8) = none ∧
    (((homed 3 true (.read 4 false)).slice 0).walks.take 16).find? (fun x => x.1 = 8) =
      some (8, { asid := asidOf 1 0, va := 0x10000, waiters := [key16] }) ∧
    (match (homed 3 true (.read 4 false)).walk 0 (asidOf 1 0) (vpnOf 0x10000) with | .ok _ => true | .error _ => false) = true ∧
    (match (homed 3 true (.read 4 false)).walk 0 (asidOf 1 0) (vpnOf 0x20000) with | .ok _ => true | .error _ => false) = false := by
  decide +kernel

theorem witness_MeshAndSliceEvents_fill : (((homed 1 true (.read 4 false)).slice 0).way key16).st ≠ 3 ∧
    ((homed 3 true (.read 4 false)).slice 0).tlbHit (asidOf 1 0) (vpnVa 16) = some (leafTlb mapDemo (asidOf 1 0) 16 1 0 7) ∧
    (match (homed 3 true (.read 4 false)).leafOk 0 16 (leafTlb mapDemo (asidOf 1 0) 16 1 0 7) with | .ok _ => true | .error _ => false) = true ∧
    (match { homed 3 true (.read 4 false) with own := [] }.leafOk 0 16 (leafTlb mapDemo (asidOf 1 0) 16 1 0 7) with
      | .ok _ => true | .error _ => false) = false ∧
    permFault (leafTlb mapDemo (asidOf 1 0) 16 1 0 7).w (leafTlb mapDemo (asidOf 1 0) 16 1 0 7).x (leafTlb mapDemo (asidOf 1 0) 16 1 0 7).al 0 = none := by
  decide +kernel

/-- A mapped line of the crew of the tests, in a state. -/
def lineIn (st : Nat) : MLine := { (default : MLine) with st := st, cid := 1, va := 0x10000, mask := 1 }

/-- The crew's cluster with it, the crew of partition 1. -/
def lined (st : Nat) (t : State) : State :=
  { t with crews := [(1, crewOf id fun c => { c with part := 1 })] }.modCluster 0 fun c => { c with mapped := [(0, lineIn st)] }

theorem witness_MeshAndSliceEvents_mapped : smGet ((lined 0 mapDemo).cluster 0).mapped 0 = some (lineIn 0) ∧ (lineIn 0).st = 0 ∧
    smGet ((lined 2 mapDemo).cluster 0).mapped 0 = some (lineIn 2) ∧ (lineIn 2).st ≠ 0 ∧ (lineIn 2).st ≠ 1 ∧
    (lineIn 2).mask.getLsbD 0 = true ∧ (lineIn 2).mask.getLsbD 1 = false ∧
    smGet ((lined 1 (homed 1 true (.read 4 false))).cluster 0).mapped 0 = some (lineIn 1) ∧
    (match (lined 1 { homed 1 true (.read 4 false) with reqs := [] }).fillMline 0 0 (lineIn 1) with | .done _ => true | _ => false) = true ∧
    (match (lined 1 { mapDemo with own := [] }).fillMline 0 0 (lineIn 1) with | .fault _ => true | _ => false) = true ∧
    (match (lined 1 (homed 3 true (.read 4 false))).fillMline 0 0 (lineIn 1) with | .wait => true | _ => false) = true ∧
    smGet (mapDemo.cluster 0).mapped 0 = none := by decide +kernel

/-! Witnesses for the events of the engines. -/

/-- The small state with its cluster's engines changed. -/
def engDemo (f : Cluster → Cluster) : State := (demo id id).modCluster Config.clusters f

/-- A copy of 4 bytes of the crew of the tests within its window, from offset 0 to 64. -/
def copy0 : CpJob := { job0 with desc := [0x0000000400004005, 64, 0, 1, 0, 0, 0, 0], recv := [(some 1, 0)], ord := 5 }

/-- A chuck range of an earlier job over the window's first bytes, and the range of the job in slot 0 there. -/
def clash : List Rng := [{ (default : Rng) with asid := none, lo := 0, hi := 64, dst := true, eng := 1, job := 3, ord := 1 },
  { (default : Rng) with asid := none, lo := 0, hi := 4, dst := false, eng := 0, job := 0, ord := 5 }]

theorem witness_JobEvents_start : smGet ((jobDemo { copy0 with st := .queued }).cluster Config.clusters).cp 0 =
      some { copy0 with st := .queued } ∧
    (((jobDemo { copy0 with st := .queued }).cluster Config.clusters).cp.filter fun x => x.2.st = .running).length < 8 ∧
    ((jobDemo { copy0 with st := .queued }).cluster Config.clusters).mayStart 0 0 5 = true ∧
    ((engDemo fun c => { c with cp := [(0, { copy0 with st := .queued })], chuck := clash }).cluster Config.clusters).mayStart 0 0 5 = false ∧
    copy0.st ≠ .queued ∧
    8 ≤ (((engDemo fun c => { c with cp := (List.range 9).map fun n => (n, copy0) }).cluster Config.clusters).cp.filter fun x =>
      x.2.st = .running).length := by decide +kernel

theorem witness_JobEvents_land : smGet ((demo id id).cluster Config.clusters).cp 0 = none ∧
    smGet ((jobDemo copy0).cluster Config.clusters).cp 0 = some copy0 ∧ smGet (jobDemo copy0).crews copy0.cid = some (crewOf id id) ∧
    copy0.st = .running ∧ 0 ∉ copy0.landed ∧ 0 ∈ { copy0 with landed := [0] }.landed ∧ copy0.kind = .cp ∧
    (match (jobDemo copy0).cpPiece (crewOf id id) copy0 0 with
      | some y => !(jobDemo copy0).cpBehind (crewOf id id) copy0 0 y &&
          (match (jobDemo copy0).cpData (crewOf id id) copy0 0 y with
            | .done (t, d) => (match t.cpPut Config.clusters copy0 y d with | .done _ => true | _ => false)
            | _ => false)
      | none => false) = true ∧ dSsp copy0.desc ≠ 0 := by decide +kernel

/-- The same from global address 2^60, which is not canonical. -/
def copyBad : CpJob := { copy0 with desc := [0x0000000400004001, 64, 2 ^ 60, 1, 0, 0, 0, 0] }

theorem witness_JobEvents_fault : (match (jobDemo copyBad).cpPiece (crewOf id id) copyBad 0 with
      | some y => (match (jobDemo copyBad).cpData (crewOf id id) copyBad 0 y with | .fault e => decide (e ≠ cPageNotPresent) | _ => false)
      | none => false) = true := by decide +kernel

theorem witness_JobEvents_end : ({ copy0 with landed := [0] }).st = .running ∧ copy0.out = [] ∧
    (jobDemo copy0).cpCount (crewOf id id) { copy0 with landed := [0] } ≤ ({ copy0 with landed := [0] }).landed.length ∧
    (jobDemo copy0).cpPublished { copy0 with landed := [0] } = true ∧
    copy0.landed.length < (jobDemo copy0).cpCount (crewOf id id) copy0 ∧ { copy0 with st := .queued }.st ≠ .running ∧
    { copy0 with out := [7] }.out ≠ [] := by decide +kernel

/-- A copy along a route that this cluster forwards. -/
def route0 : CpJob := { copy0 with kind := .rt, route := [0x40000001, 0x80000002], hops := [(4, 1)] }

theorem witness_JobEvents_route : smGet ((jobDemo route0).cluster Config.clusters).cp 0 = some route0 ∧
    route0.route[0]? = some 0x40000001#32 ∧ route0.route[1]? = some 0x80000002#32 ∧ (0x40000001#32).getLsbD 30 = true ∧
    (0x80000002#32).getLsbD 30 = false ∧
    smGetD route0.hops 0 0 = ((route0.route.take 0).filter fun e => e.getLsbD 30).length ∧
    smGetD route0.hops 4 0 ≠ ((route0.route.take 0).filter fun e => e.getLsbD 30).length := by decide +kernel

/-- A bank in use. -/
def busyBank : Bank := { Bank.zero with st := 1, holder := some 2 }

theorem witness_JobEvents_mandrel : smGet ((cardDemo card0).cluster Config.clusters).mx 0 = some card0 ∧
    { card0 with st := .done }.st ≠ .queued ∧
    (∃ x ∈ ({ card0 with preds := [(Config.clusters, 1)] }.preds.filterMap fun (y : Nat × Nat) =>
      (smGet ((engDemo fun c => { c with mx := [(0, { card0 with preds := [(Config.clusters, 1)] }), (1, { card0 with st := .failed })] }).cluster
        y.1).mx y.2).map fun q => (demo id id).mxWhole q), x = .failed) ∧
    (∀ x ∈ (card0.preds.filterMap fun (y : Nat × Nat) => (smGet ((cardDemo card0).cluster y.1).mx y.2).map fun q => (cardDemo card0).mxWhole q), x = .done) ∧
    ((engDemo fun c => { c with mx := [(0, { card0 with ord := 5 })], chuck := clash.map fun r => if r.eng = 0 then { r with eng := 1, job := 0 } else r }).cluster
      Config.clusters).mayStart 1 0 5 = false ∧
    ((cardDemo card0).cluster Config.clusters).mayStart 1 0 0 = true ∧ (cardDemo card0).mxFloats card0 = false ∧
    (engDemo fun c => { c with mx := [(0, card0)], bank0 := busyBank, bank1 := busyBank }).bankBlocked Config.clusters card0 = true ∧
    (cardDemo card0).bankBlocked Config.clusters card0 = false ∧
    (cardDemo card0).engineFor Config.clusters card0 = some Config.clusters ∧ (cardDemo card0).arrayIdle Config.clusters = true := by
  refine ⟨by decide +kernel, by decide, ⟨.failed, by decide +kernel, rfl⟩, ?_⟩
  decide +kernel

/-- A running card of one product, whose output of 4 bytes goes to the window at 0 with CLD 16. -/
def run0 : MxEnt := { card0 with st := .running, card := [0, 0, 0, 0, 0, 0, 0x10000, 0, 0, 0, 0, 0, 0, 0, 0, 0] }

/-- The same with A at a global address that is not canonical, K 8. -/
def runBad : MxEnt := { run0 with card := [0x0004000000000000, 0, 2 ^ 60, 0, 0, 0x100000, 0x10000, 0, 0, 0, 0, 0, 0, 0, 0, 0] }

/-- The same with its tile outside the bank. -/
def runOut : MxEnt := { run0 with card := [0, 0, 0, 0, 0, 0x01000000FF000000 + 0xFF0000000000, 0, 0, 0, 0, 0, 0, 0, 0, 0, 0] }

theorem witness_JobEvents_step : smGet ((cardDemo run0).cluster Config.clusters).mx 0 = some run0 ∧
    smGet (cardDemo run0).crews run0.cid = some (crewOf id id) ∧ run0.walked = false ∧
    { run0 with steps := 1 }.walked = true ∧ mxTile runOut.card runOut.steps = none ∧ mxTile run0.card run0.steps = some (0, 0) ∧
    (match (cardDemo run0).mxOperands run0 (crewOf id id) with
      | .done (t, _, _) => !(t.cluster run0.eng).suspect | _ => false) = true ∧
    (match (engDemo fun c => { c with mx := [(0, run0)], suspect := true }).mxOperands run0 (crewOf id id) with
      | .done (t, _, _) => (t.cluster run0.eng).suspect | _ => false) = true ∧
    mxTile runBad.card runBad.steps = some (0, 0) ∧
    (match (cardDemo runBad).mxOperands runBad (crewOf id id) with | .fault x => decide (x ≠ cPageNotPresent) | _ => false) = true := by
  decide +kernel

/-- The card walked, its output to the window, and to channel 0. -/
def outEnt (ch : Bool) : MxEnt :=
  { run0 with steps := 1, card := [if ch then 0x0001000000000000 else 0, 0, 0, 0, 0, 0, 0x10000, 0, 0, 0, 0, 0, 0, 0, 0, 0] }

theorem witness_JobEvents_write : (outEnt false).writes = true ∧ run0.writes = false ∧ mCdst (outEnt false).card ≠ 2 ∧
    mCdst (outEnt true).card = 2 ∧ 0 ∉ (outEnt false).out ∧ (cardDemo (outEnt false)).dcServes (outEnt false) = true ∧
    (mRect (decide ((outEnt false).kind = .drain)) (outEnt false).card).2.2.2 * fmtBytes (mOfmt (outEnt false).card) ≤ mCld (outEnt false).card ∧
    (match ((cardDemo (outEnt false)).mxPieces (outEnt false))[0]?, ((cardDemo (outEnt false)).mxReceivers (outEnt false))[0]? with
      | some y, some recv =>
        (match (cardDemo (outEnt false)).mxPut (outEnt false) (crewOf id id) recv y ((List.range y.n).map fun i =>
            mxOutByte (outEnt false).card false Bank.zero y.row (y.off + i)) with | .done _ => true | _ => false)
      | _, _ => false) = true := by decide +kernel

/-- The crew with channel 0 full. -/
def fullCrew : Crew := { crewOf id id with chans := (crewOf id id).chans.set 0 { Chan.empty with words := List.replicate 16 default } }

theorem witness_JobEvents_push : (outEnt true).out.length < (cardDemo (outEnt true)).mxOutCount (outEnt true) ∧
    (cardDemo (outEnt true)).dcServes (outEnt true) = true ∧ mCbase (outEnt true).card = 0 ∧
    ((cardDemo (outEnt true)).chanHeld Config.clusters 1 0).2 < ((crewOf id id).chans[0]?.getD default).room ∧
    (fullCrew.chans[0]?.getD default).room ≤ ((cardDemo (outEnt true)).chanHeld Config.clusters 1 0).2 ∧
    (cardDemo { outEnt true with out := [0, 1, 2, 3] }).mxOutCount { outEnt true with out := [0, 1, 2, 3] } ≤ 4 := by decide +kernel

theorem witness_JobEvents_card : (cardDemo { outEnt false with out := [0] }).mxReady { outEnt false with out := [0] } = true ∧
    (cardDemo { outEnt false with out := [0] }).mxPublished { outEnt false with out := [0] } = true ∧
    (cardDemo (outEnt false)).mxReady (outEnt false) = false := by decide +kernel

/-- An absorb of 4 bytes of the window at 0; the same of a global address that is not canonical. -/
def abs0 : SealAbs := { (default : SealAbs) with addr := 0, n := 4, stash := true, ord := 5, pend := 3 }

/-- See `abs0`. -/
def absBad : SealAbs := { abs0 with addr := 0x00F0000000000000, stash := false }

/-- A seal context of the crew of the tests. -/
def seal0 (a : List SealAbs) (f : Option SealAbs) (b : Bool) : SealCtx :=
  { (default : SealCtx) with serial := 7, cid := 1, absorbs := a, fin := f, failed := b }

/-- The small state with it in place 0, the crew's partition with TDISP in RUN. -/
def sealed (x : SealCtx) (l : List Rng) : State :=
  { engDemo fun c => { c with seals := [(0, x)], chuck := l } with parts := [(0, { part0 with tdisp := .run })] }

/-- A hash range in the way. -/
def clashSeal : List Rng := clash.map fun r => if r.eng = 0 then { r with eng := 2, job := 0 } else r

theorem witness_JobEvents_absorb : smGet ((sealed (seal0 [abs0] none false) []).cluster Config.clusters).seals 0 = some (seal0 [abs0] none false) ∧
    smGet (sealed (seal0 [abs0] none false) []).crews 1 = some (crewOf id id) ∧ (seal0 [abs0] none true).failed = true ∧
    (match (sealed (seal0 [abs0] none false) []).absorbBytes (crewOf id id) (seal0 [abs0] none false) abs0 with | .done _ => true | _ => false) = true ∧
    (match (sealed (seal0 [abs0] none false) clashSeal).absorbBytes (crewOf id id) (seal0 [abs0] none false) abs0 with | .wait => true | _ => false) = true ∧
    (match { sealed (seal0 [absBad] none false) [] with parts := [] }.absorbBytes (crewOf id id) (seal0 [absBad] none false) absBad with
      | .fault e => decide (e ≠ cPageNotPresent) | _ => false) = true := by decide +kernel

theorem witness_JobEvents_sign : (seal0 [] (some absBad) false).fin = some absBad ∧
    (smGet (sealed (seal0 [] (some absBad) false) []).parts ((sealed (seal0 [] (some absBad) false) []).sealPart (seal0 [] (some absBad) false))).isSome = true ∧
    (seal0 [abs0] (some absBad) false).absorbs ≠ [] ∧
    (∀ d, ∃ t, (sealed (seal0 [] (some absBad) false) []).putRecord (crewOf id id) (seal0 [] (some absBad) false) absBad d = .done t) ∧
    (∀ d, (sealed (seal0 [] (some abs0) false) clashSeal).putRecord (crewOf id id) (seal0 [] (some abs0) false) abs0 d = .wait) :=
  ⟨by decide +kernel, by decide +kernel, by decide +kernel, fun _ => ⟨_, rfl⟩, fun _ => rfl⟩

/-! Witnesses for the events of the fabric. -/

theorem portTo_spec {m d f : Nat} (h : portTo m d = some f) : f < 94 ∧ partner m f = some d := by
  unfold portTo firstBelow at h
  have h1 := List.find?_some h
  have h2 := List.mem_of_find?_eq_some h
  exact ⟨List.mem_range.1 h2, of_decide_eq_true h1⟩

/-- A module of this module's row, of another column. -/
def nearMod : Nat := Config.fabmod.toNat / 64 * 64 + (if Config.fabmod.toNat % 64 = 0 then 1 else 0)

theorem near_port : ∃ f, portTo Config.fabmod.toNat nearMod = some f := by
  have h : (portTo Config.fabmod.toNat nearMod).isSome = true := by
    unfold portTo firstBelow
    rw [List.find?_isSome]
    refine ⟨31, List.mem_range.2 (by decide), ?_⟩
    unfold partner nearMod
    simp only [decide_eq_true_eq]
    have h : (if 0 < Config.fabmod.toNat % 64 then 0 else 1) = if Config.fabmod.toNat % 64 = 0 then 1 else 0 := by
      split <;> split <;> omega
    simp [h]; omega
  exact Option.isSome_iff_exists.1 h

/-- Every port of the module trained. -/
def allUp : State := { State.reset with fpRdy := List.range 96 }

/-- A read packet for a module. -/
def pktTo (m : Nat) : FabPkt := { (default : FabPkt) with dmod := BitVec.ofNat 11 m }

theorem nearMod_lt : nearMod < 2048 := by
  have := Config.fabmod.isLt; unfold nearMod; split <;> omega

theorem nearMod_ne : (pktTo nearMod).dmod ≠ Config.fabmod := by
  intro h
  have h1 : nearMod % 2048 = Config.fabmod.toNat := by simpa [pktTo] using congrArg BitVec.toNat h
  have := nearMod_lt
  unfold nearMod at h1 this
  split at h1 <;> omega

theorem witness_FabricEvents_route : (∃ port det, allUp.routePkt (pktTo nearMod) = some (port, det)) ∧
    (pktTo nearMod).dmod ≠ Config.fabmod ∧ ∀ k, State.reset.routePkt k = none := by
  refine ⟨?_, nearMod_ne, fun k => ?_⟩
  · obtain ⟨f, hf⟩ := near_port
    have hd : (pktTo nearMod).dmod.toNat = nearMod := by
      have := nearMod_lt; simp [pktTo]; omega
    have hp : f ∈ productivePorts nearMod := by
      have hm : Config.fabmod.toNat % 64 ≠ nearMod % 64 := by unfold nearMod; split <;> omega
      have hr : Config.fabmod.toNat / 64 * 64 + nearMod % 64 = nearMod := by unfold nearMod; split <;> omega
      unfold productivePorts
      simp only [hr, hf]
      rw [if_pos hm]; simp
    have hn : ∃ x, ((productivePorts nearMod).filterMap fun f =>
        (partner Config.fabmod.toNat f).bind fun m => allUp.portFor m).head? = some x := by
      cases h0 : ((productivePorts nearMod).filterMap fun f =>
        (partner Config.fabmod.toNat f).bind fun m => allUp.portFor m) with
      | cons a l => exact ⟨a, rfl⟩
      | nil =>
      exfalso
      have : f ∈ (productivePorts nearMod).filterMap fun f =>
          (partner Config.fabmod.toNat f).bind fun m => allUp.portFor m := by
        refine List.mem_filterMap.2 ⟨f, hp, ?_⟩
        rw [(portTo_spec hf).2]
        show allUp.portFor nearMod = some f
        unfold State.portFor
        rw [hf]
        have : allUp.portUp f = true := by
          simpa [allUp, State.portUp] using (by have := (portTo_spec hf).1; omega : f < 96)
        simp [this]
      rw [h0] at this; cases this
    obtain ⟨x, hx⟩ := hn
    unfold State.routePkt
    simp only [hd, hx]
    split
    · rename_i h _; cases h
    · rename_i h _; cases h
    · exact ⟨_, _, rfl⟩
    · split <;> exact ⟨_, _, rfl⟩
  · have h1 : ∀ d, State.reset.portFor d = none := by
      intro d; unfold State.portFor State.portUp
      cases portTo Config.fabmod.toNat d <;> simp [State.reset]
    have h2 : ∀ l, List.filter State.reset.portUp l = [] := by
      intro l; exact List.filter_eq_nil_iff.2 fun a _ => by simp [State.portUp, State.reset]
    unfold State.routePkt
    have h3 : ((productivePorts k.dmod.toNat).filterMap fun f =>
        (partner Config.fabmod.toNat f).bind fun m => State.reset.portFor m) = [] := by
      refine List.filterMap_eq_nil_iff.2 fun f _ => ?_
      cases partner Config.fabmod.toNat f <;> simp [h1]
    simp [h2, h3, State.shortest]

/-- A fabric request of a thread of the crew of the tests, of partition 1 for peer 5, sent at time 0. -/
def fab0 (use : FabUse) (k : FabPkt) : FabReq := { (default : FabReq) with part := 1, peer := 5, use := use, pkt := k, sent := some 0 }

/-- A state with it, partition 1 with peer 5. -/
def fabDemo (r : FabReq) : State :=
  { withPart { part1 with peers := [(5, 0x8000000000000000)], fabtmo := 200000 } with fab := [(2, r)], pends := [(9, pend1)] }

/-- A write packet. -/
def wrPkt : FabPkt := { (default : FabPkt) with cls := 1 }

theorem witness_FabricEvents_ack : smGet State.reset.fab 2 = none ∧
    smGet (fabDemo (fab0 (.thread 1 0 0 9) default)).fab 2 = some (fab0 (.thread 1 0 0 9) default) ∧
    (fab0 (.thread 1 0 0 9) default).sent = some 0 ∧ (fab0 (.thread 1 0 0 9) default).primary = false ∧
    { fab0 (.thread 1 0 0 9) default with sent := none }.sent = none ∧
    (fab0 (.thread 1 0 0 9) default).pkt.cls = 0 ∧
    ((fabDemo (fab0 (.thread 1 0 0 9) default)).peerAlive 1 0 0).mirrorOf 2 = none ∧
    smGet ((fabDemo (fab0 (.thread 1 0 0 9) default)).peerAlive 1 0 0).pends 9 = some pend1 ∧
    smGet (fabDemo (fab0 (.drain []) wrPkt)).fab 2 = some (fab0 (.drain []) wrPkt) ∧ (fab0 (.drain []) wrPkt).pkt.cls = 1 ∧
    ((fabDemo (fab0 (.drain []) wrPkt)).peerAlive 1 0 0).mirrorOf 2 = none := by decide +kernel

/-- A packet for partition 1 of this module. -/
def homePkt (c : BitVec 3) (va : BitVec 57) : FabPkt :=
  { (default : FabPkt) with dmod := Config.fabmod, dtag := 1, cls := c, va := va, ngr := 1 }

/-- Mapping tests' partition 1, which admits tag 0 of module 0 at port 4. -/
def admitting : State :=
  { mapDemo with
    fpRdy := [4], liveTags := [1],
    parts := [(1, { mapPart [(0, 10)] [] with res := { (mapPart [(0, 10)] []).res with fabricPorts := [4] }, peers := [(5, 0x8000000000000000)] })] }

theorem homePkt_dmod (c : BitVec 3) (va : BitVec 57) : (homePkt c va).dmod = Config.fabmod := rfl

theorem witness_FabricEvents_turned : (∀ p, smGet State.reset.parts 1 = some p → p.inc ≠ 0) ∧
    (∃ p, smGet mapDemo.parts 1 = some p ∧ p.inc = (homePkt 0 0x10000).dinc) ∧
    (∃ t, mapDemo.accept (homePkt 0 0x10000) = some t) ∧ (homed 3 true (.read 4 false)).accept (homePkt 0 0x10000) = none := by
  refine ⟨fun p h => (by cases h), ⟨_, rfl, rfl⟩, Option.isSome_iff_exists.1 (by decide +kernel), Option.isNone_iff_eq_none.1 (by decide +kernel)⟩

theorem witness_FabricEvents_arrive : State.reset.retryInbound.fpRdy.contains 4 = false ∧
    admitting.retryInbound.fpRdy.contains 4 = true ∧ admitting.retryInbound.admits 4 (homePkt 5 0) = true ∧
    admitting.retryInbound.admits 4 (homePkt 3 0) = true ∧ admitting.retryInbound.admits 4 (homePkt 0 0) = true ∧
    { admitting with liveTags := [] }.retryInbound.admits 4 (homePkt 0 0) = false ∧
    (homePkt 6 0).cls = 6 ∧ (homePkt 7 0).cls = 7 := by decide +kernel

theorem witness_FabricEvents_read : (homePkt 0 0x10000).va.toNat < 2 ^ 56 ∧ inHost (canon (homePkt 0 0x10000).va.toNat) = false ∧
    (match mapDemo.globalParts none (asidOf 1 0) (lineParts 4 0x10000 32) with | .done _ => true | _ => false) = true ∧
    (match { mapDemo with own := mapDemo.own.tail }.globalParts none (asidOf 1 0) (lineParts 4 0x10000 32) with
      | .fault e => decide (e ≠ cPageNotPresent) | _ => false) = true ∧
    (match (homed 3 true (.read 4 false)).globalParts none (asidOf 1 0) (lineParts 4 0x10000 32) with | .wait => true | _ => false) = true := by
  decide +kernel

theorem witness_FabricEvents_timeout : (fabDemo (fab0 (.drain []) wrPkt)).time < 0 + 200000 ∧
    0 + 200000 ≤ { fabDemo (fab0 (.drain []) wrPkt) with time := 200000 }.time ∧
    (fabDemo (fab0 (.drain []) wrPkt)).fabTarget (fab0 (.drain []) wrPkt) = 5 ∧
    peerSt ((fabDemo (fab0 (.drain []) wrPkt)).peer 1 5) ≠ 1 ∧
    peerSv (((fabDemo (fab0 (.drain []) wrPkt)).setPeer 1 5 (peerSetSt ((fabDemo (fab0 (.drain []) wrPkt)).peer 1 5) 2)).peer 1 5) = false ∧
    (smGet (fabDemo (fab0 (.drain []) wrPkt)).parts 1).map (fun p => p.fabtmo.toNat) = some 200000 := by decide +kernel

theorem witness_FabricEvents_link : (0 < Config.fabricPorts ∧ (partner Config.fabmod.toNat 0).isSome = true ∧
      State.reset.failed.contains (.fp, 0) = false) ∧
    { State.reset with failed := [(.fp, 0)] }.failed.contains (.fp, 0) = true ∧
    State.reset.fpRdy.contains 0 = false ∧ allUp.fpRdy.contains 0 = true ∧ smGetD allUp.replays 0 0 + 1 < 8 ∧
    8 ≤ smGetD { allUp with replays := [(0, 7)] }.replays 0 0 + 1 :=
  ⟨⟨by decide, rfl, by decide +kernel⟩, by decide +kernel⟩

theorem witness_FabricEvents_notice : smGet State.reset.parts 1 = none ∧
    (∃ p, smGet admitting.parts 1 = some p ∧ p.inc.toNat = 0 ∧
      ∃ x ∈ p.peers, peerV x.2 = true ∧ peerMod x.2 = 0 ∧ peerTag x.2 = 0 ∧ peerSt x.2 ≠ 1) ∧
    (∃ p, smGet admitting.parts 1 = some p ∧ p.inc.toNat ≠ 1) ∧
    (∀ x ∈ ([(5, 0xA000000000000000)] : SMap W64), peerV x.2 = true → peerMod x.2 = 0 → peerTag x.2 = 0 → peerSt x.2 = 1) := by
  refine ⟨rfl, ⟨_, rfl, rfl, (5, 0x8000000000000000), by decide +kernel, by decide +kernel⟩, ⟨_, rfl, by decide +kernel⟩, by decide +kernel⟩

theorem witness_FabricEvents_join : (smGet State.reset.parts 1).isNone = true ∧ (smGet admitting.parts 1).isNone = false ∧
    4095 < 4096 ∧ peerV 0x8001000000000000 = true ∧ peerSv 0x8001000000000000 = true ∧ peerSv 0x8000000000000000 = false := by
  decide +kernel

/-- A write-combining line of partition 1, first written at time 0. -/
def wcb0 : Wcb := { (default : Wcb) with part := 1, first := 0 }

theorem witness_FabricEvents_drain : ((withCluster 0 id).cluster 0).wcb[0]? = none ∧
    ((withCluster 0 fun c => { c with wcb := [wcb0] }).cluster 0).wcb[0]? = some wcb0 ∧
    (0 < wcb0.first + 64 * 2 ^ fld 4#64 3 0) ∧ wcb0.first + 64 * 2 ^ fld 4#64 3 0 ≤ 1024 := by decide +kernel

theorem witness_FabricEvents_refill : (∃ x, smGet (idleDemo bound5 id).parts 0 = some x) ∧
    (bound5 cohort0).w[(0 : Fin 4)] = some { cls := 0, dst := 5, val := 4096, since := 0 } ∧ (63 / 64 ≤ 0 / 64) ∧ (0 / 64 < 64 / 64) ∧
    smGet (idleDemo bound5 id).crews 1 = some (crewOf bound5 id) := ⟨⟨_, rfl⟩, by decide +kernel⟩

theorem witness_FabricEvents_rates : State.reset.ownerOf 0 = none ∧ (withPart part1).ownerOf 0 = some 1 ∧
    (999 < Rate.full.since + 1000 ∧ Rate.full.since + 1000 ≤ 1000) ∧
    (({ num := 17, exp := 1, since := 0 } : Rate).num + 16 * 2 ^ 1 < 1024 * 2 ^ 1 ∧ (1024 * 2 ^ 0 ≤ 1023 + 16 * 2 ^ 0 ∧ 1023 < 1024 * 2 ^ 0)) ∧
    (2 ^ (0 + 1) ≤ Rate.full.num ∧ 1 < 2 ^ (0 + 1)) ∧ { State.reset with time := 999 }.time < smGetD State.reset.windows 0 0 + 1000 ∧
    smGetD State.reset.windows 0 0 + 1000 ≤ { State.reset with time := 1000 }.time := by decide +kernel

theorem witness_FabricEvents_lost : (∀ o, (fab0 (.drain []) wrPkt).use ≠ .mirror o) ∧ (fab0 (.drain []) wrPkt).primary = false ∧
    peerSv ((fabDemo (fab0 (.drain []) wrPkt)).peer 1 5) = false ∧
    (∃ e : W64, peerSv ({ withPart { part1 with peers := [(5, e)] } with fab := [] }.peer 1 5) = true) ∧
    (fab0 (.drain []) wrPkt).fo = false ∧ isFabCause cFabricTimeout = true ∧ isFabCause cPagePerm = false := by
  refine ⟨fun o h => (by cases h), rfl, by decide +kernel, ⟨BitVec.allOnes 64, by decide +kernel⟩, rfl, by decide, by decide⟩

/-- A packet in transit that waits at port 4. -/
def transit : State := { State.reset with egress := [(3, (4, false, pktTo 0))] }

theorem witness_FabricEvents_egress :
    smGet (transit.noteWindow (5124 + 5) (transit.portItems 5)).egress 3 = some (4, false, pktTo 0) ∧ 4 ≠ 5 ∧
    ({ transit with fpRdy := [4] }.noteWindow (5124 + 4) ({ transit with fpRdy := [4] }.portItems 4)).portUp 4 = true ∧
    (transit.noteWindow (5124 + 4) (transit.portItems 4)).portUp 4 = false ∧
    (smGet (State.reset.noteWindow 5128 (State.reset.portItems 4)).egress 3 = none ∧
      smGet (State.reset.noteWindow 5128 (State.reset.portItems 4)).fab 3 = none) ∧
    smGet ((fabDemo (fab0 (.drain []) wrPkt)).noteWindow 5128 ((fabDemo (fab0 (.drain []) wrPkt)).portItems 4)).fab 2 =
      some (fab0 (.drain []) wrPkt) ∧
    ((fab0 (.drain []) wrPkt).sent.isSome = true ∧ { fab0 (.drain []) wrPkt with sent := none }.sent = none) ∧
    ((fabDemo { fab0 (.drain []) wrPkt with sent := none }).noteWindow 5128 []).streamBusy { fab0 (.drain []) wrPkt with sent := none } =
      false := by
  refine ⟨rfl, by decide, by decide +kernel, by decide +kernel, ⟨rfl, rfl⟩, rfl, ⟨rfl, rfl⟩, by decide +kernel⟩

theorem witness_FabricEvents_joinPeer : (∃ p, smGet admitting.parts 1 = some p) ∧ peerV (peerSetInc 0 0) = false ∧
    ∃ e, peerV (peerSetInc e 0) = true ∧ peerMod (peerSetInc e 0) ≠ Config.fabmod.toNat := by
  refine ⟨⟨_, rfl⟩, by decide, ?_⟩
  by_cases h : Config.fabmod.toNat = 0
  · refine ⟨BitVec.allOnes 64, by decide, ?_⟩
    rw [h]; decide
  · exact ⟨0x8000000000000000, by decide, fun k => h (k.symm.trans (by decide))⟩

/-! Witnesses for the events of grids and crews. -/

/-- The crew of the tests on its own: its state, reached at a time. -/
def crewAt (c : Crew → Crew) (t : Nat) : State := { idleDemo id c with time := t }

/-- The crew of the tests with deadlines at 50 that are armed. -/
def armed (c : Crew) : Crew := { c with dline := Vector.replicate 4 0x8000000000000032 }

theorem witness_SoftwareTraps_deadline : ((crewOf id id).dline[0]?.getD 0).getLsbD 63 = false ∧
    smGet (crewAt armed 50).crews 1 = some (crewOf id armed) ∧ ((crewOf id armed).dline[0]?.getD 0).getLsbD 63 = true ∧
    (crewAt armed 49).time < fld ((crewOf id armed).dline[0]?.getD 0) 62 0 ∧
    fld ((crewOf id armed).dline[0]?.getD 0) 62 0 ≤ (crewAt armed 50).time ∧
    (crewOf id id).firstLive = some (0, 0) ∧ (crewOf (allThreads fun t => { t with live := false }) id).firstLive = none := by
  decide +kernel

/-- A grid of partition 0 whose crews are the crew of the tests (grid 0) and one more. -/
def grid0 : Grid := { (default : Grid) with part := 0, gx := 2, gy := 1, gz := 1 }

/-- The crew of the tests with that grid. -/
def gridAt (g : Grid) (p : Machine.Part) (t : Nat) : State :=
  { crewAt id t with grids := [(0, g)], parts := [(0, p)] }

theorem witness_BarrierStorage_release :
    smGet (gridAt { grid0 with gbDone := some 7 } { part0 with gbgrp := 16 } 7).grids 0 = some { grid0 with gbDone := some 7 } ∧
    smGet (gridAt { grid0 with gbDone := some 7 } { part0 with gbgrp := 16 } 7).parts grid0.part = some { part0 with gbgrp := 16 } ∧
    part0.qst = 0 ∧ 15 < max 1 (fld 16#64 4 0) ∧ max 1 (fld 16#64 4 0) ≤ 16 ∧ 7 + 15 * (0#64).toNat ≤ 7 ∧
    (gridAt { grid0 with gbDone := some 7 } { part0 with gbgrp := 16 } 7).gbarHeld 0 0 = false ∧
    { crewAt id 7 with crews := [(1, crewOf (allThreads fun t => { t with holds := [.gbar 0] }) id)] }.gbarHeld 0 1 = true := by
  decide +kernel

theorem witness_BarrierStorage_stall : grid0.gbArr = [] ∧ { grid0 with gbArr := [4096] }.gbArr ≠ [] ∧ grid0.aborted = none ∧
    (gridAt grid0 part0 1000000).unstarted 0 grid0 = true ∧ (gridAt grid0 part0 0).unstarted 0 { grid0 with gx := 1 } = false ∧
    grid0.gbSince + 1000000 ≤ (gridAt grid0 part0 1000000).time ∧
    ((gridAt grid0 part0 0).crews.find? fun x => x.2.grid = 0) = some (1, crewOf id id) := by decide +kernel

/-- A channel with a waiting pusher, of `n` words and `b` blocks. -/
def chanW (n b : Nat) : Chan := { words := List.replicate n default, homes := [], blocks := List.replicate b (0, 0), wait := some 10 }

theorem witness_ChannelInstructions_grow : Chan.empty.wait = none ∧ (chanW 16 0).wait = some 10 ∧ (crewAt id 1517).cyclesPast Config.clusters 10 4096 = false ∧
    (crewAt id 1528).cyclesPast Config.clusters 10 4096 = true ∧
    (chanW 15 0).room ≠ 0 ∧ (chanW 16 0).room = 0 ∧ (chanW 528 32).room = 0 ∧
    { crewOf id id with chans := (crewOf id id).chans.set 0 (chanW 16 0) }.blocks < 32 ∧
    32 ≤ { crewOf id id with chans := (crewOf id id).chans.set 0 (chanW 528 32) }.blocks := by decide +kernel

/-- The crew of the tests, every thread of it waiting for a barrier's next phase. -/
def stuckAt (w : Option Nat) (t : Nat) : State :=
  { crewAt id t with crews := [(1, crewOf (allThreads fun t => { t with holds := [.bar 0 0] }) fun c => { c with wdBlocked := w })] }

theorem witness_ChannelInstructions_detect :
    (stuckAt none 0).deadlocked 1 (crewOf (allThreads fun t => { t with holds := [.bar 0 0] }) id) = true ∧
    (stuckAt (some 5) 24278).deadlocked 1 (crewOf (allThreads fun t => { t with holds := [.bar 0 0] }) fun c => { c with wdBlocked := some 5 }) = true ∧
    (stuckAt (some 5) 24278).cyclesPast Config.clusters 5 65536 = true ∧ (stuckAt (some 5) 24272).cyclesPast Config.clusters 5 65536 = false ∧
    (demo id id).deadlocked 1 (crewOf id id) = false ∧ (crewOf id id).wdBlocked = none := by decide +kernel

/-- The crew of the tests, every thread in `cwait`. -/
def waiting (c : Crew → Crew) : Crew := crewOf (allThreads fun t => { t with holds := [.cwait] }) c

theorem witness_ControlInstructions_cwait : (waiting id).st = .running ∧ (waiting id).stopping = none ∧ part0.qst = 0 ∧ part0.reshape = none ∧
    (waiting id).allWaiting = true ∧ (crewAt id 0).idleCrew 1 (waiting id) = true ∧ (waiting id).leaving = none ∧ (waiting id).children = [] ∧
    (waiting fun c => { c with children := [3] }).children ≠ [] ∧ (crewOf id id).allWaiting = false ∧
    (crewAt (fun c => { c with leaving := some .save, drained := 2 }) 0).leaveReady 1 = true ∧
    { crewAt (fun c => { c with leaving := some .save, drained := 2 }) 0 with reqs := [(4, { (default : Req) with cid := 1 })] }.leaveReady 1 = false := by
  decide +kernel

/-- Partition 1 of the mapping tests with cluster 0 in its map, its launch queue of space 0 at 0x10040 as given. -/
def lpart (q : Queue) : Machine.Part :=
  { mapPart [(0, 10)] [] with w := 1, h := 1, map := [(0, BitVec.ofNat 32 (2 ^ 31 + clusterSite 0))], queues := [(0, q)] }

/-- Its state: a descriptor (COH 1, STASH 1, REGS 1) at 0x10000, a record for a crew of one thread in the ring. -/
def launchingAt (at' : Nat) (q : Queue) (ready : List Nat) (r : W64) : State :=
  { mapDemo with
    clRdy := ready, parts := [(1, lpart q)],
    mem := memWrite (memWrite mapDemo.mem 16 (bytesOfNat 8 (2 ^ 58 + 2 ^ 47 + 2 ^ 26))) at'
      ([r, 0, 0x100000001, 0x100000000, 0x0020040080000000, 0, 0, 0].flatMap fun w => bytesOfNat 8 w.toNat) }

/-- The record behind the descriptor, in its line. -/
def launching (q : Queue) (ready : List Nat) (r : W64) : State := launchingAt 64 q ready r

/-- The ring with one record. -/
def ring : Queue := { Queue.reset with base := 0x10040, wp := 1, st := 0, en := true, log2n := 4 }

/-- What a host launch comes to: 0 no record, 1 invalid, 2 no resource, 3 a grid, 4 the descriptor's line is
not at hand. -/
def launchSays (s : State) : Nat :=
  match s.fetchRecord 1 0 launchStamp with
  | (_, none) => 0
  | (u, some ws) => (match u.judgeLaunch 1 0 ws 0 none 0 with | (_, .invalid) => 1 | (_, .resource) => 2 | (_, .grid _) => 3 | (_, .later) => 4)

theorem witness_LaunchInstruction_host : launchSays (launching Queue.reset [0] 0x10000) = 0 ∧ launchSays (launching ring [0] 0x10001) = 1 ∧
    launchSays (launching ring [] 0x10000) = 2 ∧ launchSays (launching ring [0] 0x10000) = 3 ∧
    launchSays { launchingAt 128 { ring with base := 0x10080 } [0] 0x10000 with slices := (homed 3 true (.read 4 false)).slices } = 4 ∧ (63 : Nat) < 64 := by decide +kernel

theorem witness_LaunchInstruction_stamp : Queue.reset.stampSince = none ∧
    ({ ring with stampSince := some 5 }.stampSince = some 5 ∧ ring.st = 0 ∧ ring.en = true ∧ 64 ≤ 64) ∧ 2004 < 5 + 2000 ∧ 5 + 2000 ≤ 2005 := by
  decide +kernel

/-- A grid of partition 1 of one crew of one thread. -/
def grid1 : Grid :=
  { (default : Grid) with part := 1, ctx := 0, gx := 1, gy := 1, gz := 1, nx := 1, ny := 1, nz := 1, decl := 2 ^ 58 + 2 ^ 47 + 2 ^ 26 }

/-- Partition 1 with that grid, its cluster ready or not. -/
def dispatching (ready : List Nat) (t : Nat) : State := { launching Queue.reset ready 0 with grids := [(6, grid1)], time := t }

theorem witness_LaunchInstruction_dispatch : smGet (dispatching [0] 0).parts 1 = some (lpart Queue.reset) ∧
    (lpart Queue.reset).qst = 0 ∧ (lpart Queue.reset).reshape = none ∧ (lpart Queue.reset).reserve = none ∧
    (dispatching [0] 0).gridOrder 1 0 = [(6, grid1)] ∧
    ((dispatching [0] 0).placeHead 6 grid1 (lpart Queue.reset) ((dispatching [0] 0).places (lpart Queue.reset)) []).isSome = true ∧
    ((dispatching [] 0).placeHead 6 grid1 (lpart Queue.reset) ((dispatching [] 0).places (lpart Queue.reset)) []).isNone = true ∧
    grid1.headSince + 100000 ≤ (dispatching [] 100000).time ∧ (dispatching [] 99999).time < grid1.headSince + 100000 ∧
    (((dispatching [] 100000).gridOrder 1 0).find? fun x => decide (x.2.headSince + 100000 ≤ 100000)) = some (6, grid1) := by
  decide +kernel

/-- A queued crew of that grid. -/
def ccb1 : Ccb := { grid := 6, crew := 0, qt := 0, cid := none }

/-- Cluster 0 with it queued. -/
def queued (ready : List Nat) : State := (dispatching ready 0).modCluster 0 fun c => { c with queue := [ccb1] }

theorem witness_GridEvents_start : ((dispatching [0] 0).cluster 0).queue = [] ∧ (queued [0]).queueHead ((queued [0]).cluster 0).queue = some ccb1 ∧
    smGet (queued [0]).grids 6 = some grid1 ∧ smGet { queued [0] with grids := [] }.grids 6 = none ∧
    (queued [0]).usable (lpart Queue.reset) 0 = true ∧ (queued []).usable (lpart Queue.reset) 0 = false ∧
    (queued [0]).fits 1 0 ((queued [0]).ccbNeed ccb1 grid1) [] true [] = some 0 ∧
    ({ queued [0] with crews := [(1, crewOf id fun c => { c with p := 0, ncoh := 48 })] }).fits 1 0 ((queued [0]).ccbNeed ccb1 grid1) [] true [] = none := by
  decide +kernel

/-- A partition of clusters 0 and 1, the second with a queued crew. -/
def stealing (f : Cluster → Cluster) : State :=
  let t : Machine.Part := { lpart Queue.reset with
    res := { (lpart Queue.reset).res with clusters := [0, 1] }, w := 2,
    map := [(0, BitVec.ofNat 32 (2 ^ 31 + clusterSite 0)), (1, BitVec.ofNat 32 (2 ^ 31 + clusterSite 1))] }
  ({ dispatching [0, 1] 0 with parts := [(1, t)] }.modCluster 1 fun c => { c with queue := [ccb1] }).modCluster 0 f

/-- A steal request answered or not. -/
def steal1 (b : Bool) (l : List Ccb) : Steal :=
  { victim := 1, slots := 48, window := 4194304, wbase := 0, mapped := 1048576, answered := b, shipped := l }

theorem witness_GridEvents_steal : (∃ t, ((stealing id).parts.find? fun x => x.2.res.clusters.contains 0) = some (1, t) ∧
      t.victims (stealing id) (t.idOf 0) 0 = [(1, 1)] ∧ t.qst = 0 ∧ t.reshape = none ∧ (stealing id).usable t 0 = true) ∧
    ((stealing id).cluster 0).steal = none ∧ ((stealing id).cluster 0).queue = [] ∧ ((stealing id).cluster 0).stealAfter ≤ (stealing id).time ∧
    (stealing id).residents 0 = [] ∧ ((stealing fun c => { c with queue := [ccb1] }).cluster 0).queue ≠ [] ∧
    ((stealing fun c => { c with steal := some (steal1 false []) }).clusters.find? fun x => x.2.asks 1).isSome = true ∧
    ((stealing id).clusters.find? fun x => x.2.asks 1).isNone = true ∧ (steal1 true [ccb1]).answered = true ∧
    ((stealing fun c => { c with steal := none }).fits 1 0 ((stealing id).ccbNeed ccb1 grid1) [] false []).isSome = true := by
  refine ⟨⟨_, rfl, ?_⟩, ?_⟩ <;> decide +kernel

theorem witness_GridEvents_retire : { crewOf id id with st := .saved, stopping := some 3 }.stopping.isSome = true ∧
    { crewOf id id with leaving := some .retire }.leaving = some .retire ∧
    (crewAt (fun c => { c with leaving := some .retire, drained := 2 }) 0).leaveReady 1 = true ∧
    { crewAt (fun c => { c with leaving := some .retire, drained := 2 }) 0 with reqs := [(4, { (default : Req) with cid := 1 })] }.leaveReady 1 = false ∧
    (crewAt id 0).idleCrew 1 (crewOf id id) = true ∧ (demo id id).idleCrew 1 (crewOf id id) = false ∧
    ((crewAt id 0).jobsOver 1 (crewOf id id) = true ∧ (crewAt id 0).finPending 1 = false ∧
      ∀ h ∈ (crewOf (allThreads fun t => { t with live := false }) id).cohorts, h.live = 0) ∧
    (∃ h ∈ (crewOf id id).cohorts, h.live ≠ 0) := by
  refine ⟨by decide, by decide, by decide +kernel, by decide +kernel, by decide +kernel, by decide +kernel, by decide +kernel,
    cohort0, List.mem_singleton.2 rfl, by decide +kernel⟩

/-- A zone-protected grid of one crew, at whose barrier every thread of it has arrived. -/
def zpGrid : Grid :=
  { grid0 with gx := 1, decl := 0x8000, gbArr := (List.range 32).map fun i => 4096 + i }

theorem witness_BarrierStorage_checkpoint : declZp grid0.decl = false ∧ declZp zpGrid.decl = true ∧
    (gridAt zpGrid part0 0).gbarFull 0 zpGrid = true ∧ (gridAt zpGrid part0 0).engineQuiet 1 (crewOf id id) = true ∧
    (gridAt zpGrid part0 0).checkFault 1 (crewOf id id) = none ∧ (gridAt zpGrid part0 0).checkFault 1 fullCrew = some 0 ∧
    (gridAt grid0 part0 0).gbarFull 0 grid0 = false := by decide +kernel

/-! Witnesses for the partition commands and the host link. -/

/-- A partition of cluster 0, channel and slice 0 and host port 0. -/
def res0 : ResSet := { slices := [0], channels := [0], clusters := [0], hostPorts := [0], fabricPorts := [], shares := [] }

/-- Its CREATE for tag 1. -/
def create1 : CreateCmd :=
  { tag := 1, res := res0, w := 1, h := 1, map := [BitVec.ofNat 32 (2 ^ 31 + clusterSite 0)], pmode := 0, salt := [], bounce := 0, vfPort := 0 }

/-- Resources of clusters 0 and 1 that have passed their self-tests; lifecycle 2. -/
def ready2 : State :=
  { State.reset with slRdy := [0], chRdy := [0], clRdy := [0, 1], hpRdy := [0], lifecycle := 2 }

/-- The same with the partition created. -/
def created (f : Machine.Part → Machine.Part) : State := { ready2 with parts := [(1, f (createPart create1 0))] }

theorem witness_PartitionCommands_create : ready2.unlocking = false ∧ (demo id id).unlocking = false ∧
    { demo id id with crews := [(1, crewOf id fun c => { c with nx := 1 })] }.unlocking = true ∧
    ready2.createErr create1 (createPart create1 0) = none ∧ ready2.incHold 1 = none ∧
    { ready2 with incs := [(1, (5, [(6, 9)]))] }.incHold 1 = some 1000000009 ∧
    ready2.createErr { create1 with tag := 0 } (createPart create1 0) = some .busy ∧
    { ready2 with clRdy := [] }.createErr create1 (createPart create1 0) = some .notReady ∧
    { ready2 with lifecycle := 4 }.lifecycle = 4 ∧ Config.maxTag < 1021 ∧
    { ready2 with leftCells := [(1, [7])], own := [(7, (2, 0))] }.createErr create1 (createPart create1 0) = some .busy ∧
    { ready2 with areas := [(7, (4, (2, 1)))] }.createErr create1 (createPart create1 0) = some .busy ∧
    ready2.createErr { create1 with pmode := BitVec.ofNat 64 (2 ^ 63 + 2 ^ 59 + 99 * 2 ^ 30) } (createPart create1 0) = some .shape ∧ (smGet (created id).parts 1).isSome = true := by decide +kernel

theorem witness_ResourceEvents_reset : smGet ready2.parts 1 = none ∧ smGet (created id).parts 1 = some (createPart create1 0) ∧
    (createPart create1 0).qst ≠ 4 ∧ { createPart create1 0 with qst := 4 }.qst = 4 ∧ (createPart create1 0).holdUntil = none ∧
    (created id).liveTags.contains 1 = false ∧ (createPart create1 0).resetAt + 759 ≤ 759 ∧ (createPart create1 0).abortRecs = [] ∧
    (758 < (createPart create1 0).resetAt + 759) := by decide +kernel

theorem witness_ResourceEvents_hold : ((∀ q ∈ (createPart create1 0).res.channels, ready2.chRdy.contains q = true ∧ ready2.slRdy.contains q = true) ∧
      ready2.hpRdy.contains (createPart create1 0).vfPort = true) ∧
    (∃ q ∈ (createPart create1 0).res.channels, State.reset.chRdy.contains q = false) ∧
    { createPart create1 0 with holdUntil := some (9, true) }.holdUntil = some (9, true) ∧
    { createPart create1 0 with holdUntil := some (9, false) }.holdUntil = some (9, false) ∧ (8 < 9 ∧ 9 ≤ 9) := by decide +kernel

/-- GROW by cluster 1 to a shape of 2 by 1. -/
def grow1 : ShapeCmd :=
  { res := { slices := [], channels := [], clusters := [1], hostPorts := [], fabricPorts := [], shares := [] }, w := 2, h := 1,
    map := [(1, BitVec.ofNat 32 (2 ^ 31 + clusterSite 1))] }

/-- SHRINK by nothing but to another shape, and by its only cluster. -/
def shrink1 (l : List Nat) : ShapeCmd := { grow1 with res := { grow1.res with clusters := l }, w := 2, map := [] }

theorem witness_PartitionCommands_shape : (createPart create1 0).qst = 0 ∧ (createPart create1 0).reshape = none ∧
    (created id).reshapeErr 1 (createPart create1 0) ((createPart create1 0).reshaped (.grow grow1)) = none ∧
    (created id).reshapeErr 1 (createPart create1 0) ((createPart create1 0).reshaped (.grow { grow1 with map := [] })) = some .shape ∧
    (created id).reshapeErr 1 (createPart create1 0) ((createPart create1 0).reshaped (.shrink (shrink1 []))) = none ∧
    (created id).reshapeErr 1 (createPart create1 0) ((createPart create1 0).reshaped (.shrink (shrink1 [0]))) = some .shape ∧
    (created id).reshapeErr 1 (createPart create1 0) ((createPart create1 0).reshaped (.compact [(0, clusterSite 1)])) = none ∧
    (created id).reshapeErr 1 (createPart create1 0) ((createPart create1 0).reshaped (.compact [(0, clusterSite 2)])) = some .notReady ∧
    (∀ m ∈ [((0 : Nat), clusterSite 1)], isSliceSite m.2 = false ∧ m.2 < 4096 ∧ ∃ y ∈ (createPart create1 0).positions, y.1 = m.1) ∧
    (∃ m ∈ [((0 : Nat), 4096)], 4096 ≤ m.2) ∧ { createPart create1 0 with reshape := some .sliceEnd }.reshape.isSome = true := by
  decide +kernel

/-- GROW by channel 1 and its slice. -/
def growCh : ShapeCmd := { grow1 with res := { res0 with clusters := [], hostPorts := [], channels := [1], slices := [1] }, w := 1, map := [] }

/-- The partition owns frame 3 of channel 0, whose cell on channel 1 is in state `n`. -/
def widened (n : Nat) : State := { created id with own := [(cellNo 0 3, (1, 1)), (cellNo 1 3, (n, 2))], chRdy := [0, 1], slRdy := [0, 1] }

theorem witness_PartitionCommands_quiesced :
    { createPart create1 0 with qst := 1, reshape := some .quiesce }.qst = 1 ∧ (created id).allDrained 1 = true ∧
    { created id with crews := [(1, crewOf id fun c => { c with part := 1, p := 0 })] }.allDrained 1 = false ∧
    (match (created id).stillReady (createPart create1 0) ((createPart create1 0).reshaped (.grow grow1)) with
      | .ok t' => (match (created id).channelErr 1 (createPart create1 0) t' with | .inr _ => true | _ => false)
      | .error _ => false) = true ∧
    (match { created id with fenced := [clusterSite 1] }.stillReady (createPart create1 0) ((createPart create1 0).reshaped (.grow grow1)) with
      | .ok _ => false | .error _ => true) = true ∧
    (Reshape.grow grow1 ≠ .quiesce ∧ Reshape.grow grow1 ≠ .refit) ∧
    (match (widened 2).channelErr 1 (createPart create1 0) ((createPart create1 0).reshaped (.grow growCh)) with
      | .inl .wait => true | _ => false) = true ∧
    (match (widened 1).channelErr 1 (createPart create1 0) ((createPart create1 0).reshaped (.grow growCh)) with
      | .inl (.done .owned) => true | _ => false) = true ∧
    { createPart create1 0 with qst := 2, reshape := some .quiesce }.reshape = some .quiesce ∧
    { createPart create1 0 with qst := 3 }.qst = 3 := by decide +kernel

/-- A time-shared partition of two contexts with slices of 100 us. -/
def shared2 : Machine.Part := { createPart create1 0 with pmode := BitVec.ofNat 64 (2 ^ 63 + 2 ^ 59 + 100 * 2 ^ 30) }

theorem witness_ClauseEvents_slice : (createPart create1 0).pmode.getLsbD 63 = false ∧ shared2.pmode.getLsbD 63 = true ∧ shared2.qst = 0 ∧
    { shared2 with reshape := some .sliceEnd }.reshape = some .sliceEnd ∧ (created id).allDrained 1 = true ∧
    shared2.reshape ≠ some .sliceEnd ∧ shared2.sliceAt + 1000 * fld shared2.pmode 49 30 ≤ 100000 ∧
    (99999 < shared2.sliceAt + 1000 * fld shared2.pmode 49 30 ∧
      ∀ c < shared2.contexts, c ≠ shared2.ctxNow → (created fun _ => shared2).ctxWork 1 c = false) := by decide +kernel

/-- A partition whose interface is in RUN, queue `n` in a state. -/
def linked (n : Nat) (q : Queue) : State := created fun t => { t with tdisp := .run, queues := [(n, q)] }

theorem witness_HostLinkEvents_queues : (∀ t, smGet (created id).parts 1 = some t → t.tdisp ≠ .run) ∧
    (∃ t, smGet (linked 67 ring).parts 1 = some t ∧ t.tdisp = .run) ∧ (67 < 68 ∧ 68 ≤ 68) ∧
    (((linked 67 ring).modQueue 1 67 fun q => { q with en := true }).queue 1 67).st ≠ 3 ∧
    (((linked 64 Queue.reset).modQueue 1 64 fun q => { q with en := true }).queue 1 64).st = 3 ∧
    (((linked 65 Queue.reset).modQueue 1 65 fun q => { q with en := true }).queue 1 65).st = 3 ∧
    ((linked 64 { ring with st := 1 }).queue 1 64).st = 1 ∧ ((linked 0 { ring with st := 2 }).queue 1 0).st = 2 ∧
    ((linked 0 ring).queue 1 0).st = 0 := by
  refine ⟨fun t h => ?_, ⟨_, rfl, rfl⟩, by decide, by decide +kernel, by decide +kernel, by decide +kernel, by decide +kernel,
    by decide +kernel, by decide +kernel⟩
  cases h; decide

theorem witness_HostLinkEvents_registers : (Queue.reset.en = false ∧ (0x40#64).toNat % 64 = 0) ∧ ring.en = true ∧ (0x20#64).toNat % 64 ≠ 0 ∧
    fld 0x70014#64 27 16 < 8 ∧ 4 ≤ fld 0x70014#64 4 0 ∧ fld 0x70014#64 4 0 ≤ 20 := by decide +kernel

theorem witness_HostLinkEvents_msix : (7 < 8 ∧ 8 ≤ 8) ∧
    (∃ t, smGet (created fun t => { t with msixPend := 0x80 }).parts 1 = some t ∧ t.msixPend.getLsbD 7 = true ∧ t.qst = 0) ∧
    (∃ t, smGet (created id).parts 1 = some t ∧ t.msixPend.getLsbD 7 = false) := by
  refine ⟨by decide, ⟨_, rfl, by decide +kernel, rfl⟩, ⟨_, rfl, by decide +kernel⟩⟩

theorem witness_HostLinkEvents_measure : (created id).measurement 1 (createPart create1 0) 12 = none ∧
    (∃ d, (created id).measurement 1 (createPart create1 0) 3 = some d) ∧ ∃ d, (created id).measurement 1 (createPart create1 0) 0x80 = some d :=
  ⟨rfl, ⟨_, rfl⟩, ⟨_, rfl⟩⟩

theorem witness_HostLinkEvents_write : (63 < 64 ∧ isCanon 0x10000 = true ∧ inHost 0x10000 = false ∧ (smGet mapDemo.parts 1).isNone = false) ∧
    isCanon (2 ^ 60) = false ∧ inHost 0x00F0000000000000 = true ∧
    (match mapDemo.hostPut (asidOf 1 0) [7, 8] (lineParts 2 0x10000 2) with | .done _ => true | _ => false) = true ∧
    (match mapDemo.hostPut (asidOf 1 0) [7, 8] (lineParts 2 0x20000 2) with | .fault _ => true | _ => false) = true ∧
    (match (homed 3 true (.read 4 false)).hostPut (asidOf 1 0) [7, 8] (lineParts 2 0x10000 2) with | .wait => true | _ => false) = true := by
  decide +kernel

/-- A host access of request 5, and one of the copy job in slot 0 of cluster 0. -/
def hostR (n : Option Nat) (j : Option (Nat × Nat × Nat)) : HostReq := { (default : HostReq) with req := n, job := j, n := 4 }

theorem witness_HostLinkEvents_completion : smGet State.reset.hostReqs 2 = none ∧
    smGet { homed 1 true (.read 4 false) with hostReqs := [(2, hostR (some 5) none)] }.hostReqs 2 = some (hostR (some 5) none) ∧
    smGet (homed 1 true (.read 4 false)).reqs 5 = some (atHome (.read 4 false)) ∧
    smGet { jobDemo copy0 with hostReqs := [(2, hostR none (some (Config.clusters, 0, 0)))] }.hostReqs 2 =
      some (hostR none (some (Config.clusters, 0, 0))) ∧
    smGet ((jobDemo copy0).cluster Config.clusters).cp 0 = some copy0 ∧ copy0.st = .running ∧ { copy0 with st := .queued }.st ≠ .running := by
  decide +kernel

/-! Witnesses for encodings, the step and the invariant. -/

/-- A mapping command with fields at the ends of their widths. -/
def map1 : MapCmd :=
  { space := 63, size := 3, fl := 15, cause := 127, stamp := 0xFFFFFFFF, va := 0x10000, frame := 0x1FFFFF, count := 0xFFFFFFFF, cookie := 9 }

theorem witness_EncodeDecodeAgree : WellFormed (.add (smp .i32 (.v 4) (.v 1) (.int 3) .none 0)) = true ∧
    (Instr.add (smp .i32 (.v 4) (.v 1) (.int 3) .none 0)).opFields? = some (.add, smp .i32 (.v 4) (.v 1) (.int 3) .none 0) ∧
    (Instr.map 5 map1).mapFields? = some (3, 5, map1) ∧
    (match decodeSlot 0x1004014050C13FC0#64 0 with | .ok _ => true | _ => false) = true ∧
    Op.ofCode ((0xFFC0000000000000#64 : W64).extractLsb' 54 10).toNat = none := by decide +kernel

/-- The reset state with `add.i32 v4, #3, #1` placed. -/
def placed : State := State.reset.withFetchWord 64 0x100401430CC13FC0

/-- The same with another run. -/
def placedRun (f : Run → Run) : State := { placed with clusters := [] }.modIssue slice0 fun i =>
  { i with run := some (f (probeRun 1 2 [0x100401430CC13FC0, 0])) }

theorem witness_StepRunsDecoded : placed.rail = true ∧ placed.turn = .issue slice0 ∧
    (placed.issue slice0).run = some (probeRun 1 2 [0x100401430CC13FC0, 0]) ∧ (probeRun 1 2 [0x100401430CC13FC0, 0]).lanes ≠ 0 ∧
    (probeRun 1 2 [0x100401430CC13FC0, 0]).slot ≤ hdrCnt (probeRun 1 2 [0x100401430CC13FC0, 0]).hdr ∧
    (probeRun 1 2 [0x100401430CC13FC0, 0]).enter = probeRun 1 2 [0x100401430CC13FC0, 0] ∧
    (hdrBpm (probeRun 1 2 [0x100401430CC13FC0, 0]).hdr).getLsbD 0 = false ∧ { probeRun 1 2 [] with skips := BitVec.allOnes 32 }.checked = 0 ∧ placed.debugMatch (probeRun 1 2 [0x100401430CC13FC0, 0]) = false ∧
    decodeSlot 0x100401430CC13FC0 0 = .ok (.add (smp .i32 (.v 4) (.int 3) (.int 1) .none 0)) ∧
    (match decodeSlot 0xFFC0000000000000 0 with | .error _ => true | .ok _ => false) = true := by decide +kernel

theorem witness_StepRunsDecoded_clause : (State.reset.issue slice0).run = none ∧
    hdrCnt (probeRun 1 2 []).hdr < { probeRun 1 2 [] with slot := 2 }.slot ∧
    (hdrBpm { probeRun 1 2 [] with hdr := 0xA01000FF00010000 }.hdr).getLsbD 0 = true ∧ (probeRun 1 2 []).checked ≠ 0 ∧ (probeRun 1 2 []).late = [] ∧
    ((placedRun fun r => { r with slot := 2 }).issue slice0).run.isSome = true := by decide +kernel

/-- The mapping tests' partition with a mapping queue whose ring holds RELEASE (CMD 2) of one granule. -/
def mapRing (f : Queue → Queue) : State :=
  { launching Queue.reset [0] 0 with
    turns := [.mapRecord 1], parts := [(1, { lpart Queue.reset with queues := [(64, f ring)] })],
    mem := memWrite mapDemo.mem 64 ([0x0200000000000000, 0, 1, 1, 9, 0, 0, 0].flatMap fun w => bytesOfNat 8 (w : W64).toNat) }

theorem witness_StepRunsDecoded_record : (mapRing id).rail = true ∧ (mapRing id).turn = .mapRecord 1 ∧
    (∀ x ∈ (mapRing id).acqWait, x.1 ≠ 1) ∧ (∃ x ∈ { mapRing id with acqWait := [(1, map1)] }.acqWait, x.1 = 1) ∧
    (match (mapRing fun q => { q with en := false }).fetchRecord 1 64 mapStamp with | (_, none) => true | _ => false) = true ∧
    (match (mapRing id).fetchRecord 1 64 mapStamp with
      | (_, some ws) => (match decodeRecord 1 ws with | .ok (.release 1 _) => true | _ => false)
      | _ => false) = true ∧
    (∃ p, smGet (mapRing id).parts 1 = some p ∧ p.migr = []) ∧
    (match { mapRing id with mem := memWrite mapDemo.mem 64 ([0x0800000000000000, 0, 1, 1, 9, 0, 0, 0].flatMap fun w => bytesOfNat 8 (w : W64).toNat) }.fetchRecord
        1 64 mapStamp with
      | (_, some ws) => (match decodeRecord 1 ws with | .error _ => true | .ok _ => false)
      | _ => false) = true := by
  refine ⟨rfl, rfl, by decide +kernel, by decide +kernel, by decide +kernel, by decide +kernel, ⟨_, rfl, rfl⟩, by decide +kernel⟩

theorem witness_StepRunsDecoded_debug : (∃ p, smGet (created fun t => { t with migr := [map1] }).parts 1 = some p ∧ p.migr = [map1]) ∧
    { demo id id with parts := [(0, { part0 with dbgcmp := Vector.replicate 4 0x8000000000000000 })] }.debugMatch (probeRun 1 2 []) = true := by
  refine ⟨⟨_, rfl, rfl⟩, by decide +kernel⟩

theorem witness_StepRunsDecoded_event : { State.reset with turns := [.ev .coldStart] }.turn = .ev .coldStart ∧
    { State.reset with rail := false, turns := [.ev (.dramRefresh 0 0)] }.turn ≠ .ev .coldStart := by decide +kernel

theorem witness_MemoryInvariant : SafeState { State.reset with turns := [.ev (.dramRefresh 0 0)] } ∧
    ∃ t, StepsTo { State.reset with turns := [.ev (.dramRefresh 0 0)] } t := ⟨rfl, _, rfl⟩

/-! Ill-formed terms that WellFormed refuses, one for each check (R29 to R40), beside a well-formed one. -/

theorem test_wellformed_type : WellFormed (.add (smp .i32 (.v 4) (.v 1) (.int 3) .none 0)) = true ∧
    WellFormed (.add (smp .f32 (.v 4) (.v 1) (.int 3) .none 0)) = false ∧
    WellFormed (.add (smp .rsv (.v 4) (.v 1) (.int 3) .none 0)) = false := by decide +kernel

theorem test_wellformed_modifier : WellFormed (.add (smp .i32 (.v 4) (.v 1) (.int 3) .none 1)) = true ∧
    WellFormed (.add (smp .i32 (.v 4) (.v 1) (.int 3) .none 2)) = false ∧
    WellFormed (.cmp (smp .i32 (.k 1) (.v 1) (.int 3) .none 6)) = false ∧
    WellFormed (.movk (smp .b32 (.v 1) (.v 1) (.int 3) .none 2)) = false := by decide +kernel

theorem test_wellformed_unused_operand : WellFormed (.add (smp .i32 (.v 4) (.v 1) (.int 3) (.int 0) 0)) = false ∧
    WellFormed (.nop (smp .b32 .none (.v 1) .none .none 0)) = false ∧ WellFormed (.add (smp .i32 (.v 4) (.v 1) .none .none 0)) = false := by
  decide +kernel

theorem test_wellformed_selector : WellFormed (.add (smp .i32 (.v 4) (.reserved 0) (.int 3) .none 0)) = false ∧
    WellFormed (.add (smp .i32 (.v 4) (.flt 1) (.int 3) .none 0)) = false ∧
    WellFormed (.add (smp .i64 (.v 4) (.v 2) (.v 3) .none 0)) = false ∧
    WellFormed (.add (smp .i64 (.v 5) (.v 2) (.v 6) .none 0)) = false ∧
    WellFormed (.add (smp .i64 (.v 4) (.s 3) (.v 6) .none 0)) = false := by decide +kernel

theorem test_wellformed_literal : WellFormed (.add { smp .i32 (.v 4) (.v 1) .lit .none 0 with lit := 7 }) = true ∧
    WellFormed (.add { smp .i32 (.v 4) (.v 1) (.int 3) .none 0 with lit := 7 }) = false := by decide +kernel

theorem test_wellformed_marks :
    WellFormed (.add { smp .i32 (.v 4) (.v 1) (.int 3) .none 0 with a := ⟨.v 1, true, false⟩ }) = true ∧
    WellFormed (.add { smp .i32 (.v 4) (.v 1) (.int 3) .none 0 with a := ⟨.v 1, true, true⟩ }) = false ∧
    WellFormed (.add { smp .i32 (.v 4) (.t 1) (.int 3) .none 0 with a := ⟨.t 1, true, false⟩ }) = false := by decide +kernel

theorem test_wellformed_predicate : WellFormed (.add { smp .i32 (.v 4) (.v 1) (.int 3) .none 0 with pn := true, pk := 1 }) = true ∧
    WellFormed (.add { smp .i32 (.v 4) (.v 1) (.int 3) .none 0 with pn := true }) = false ∧
    WellFormed (.add { smp .i32 (.v 4) (.v 1) (.int 3) .none 0 with rsv44 := true }) = false := by decide +kernel

theorem test_wellformed_destination : WellFormed (.add { smp .i32 .none (.v 1) (.int 3) .none 0 with dstT := true }) = true ∧
    WellFormed (.add { smp .i32 (.v 4) (.v 1) (.int 3) .none 0 with dstT := true }) = false ∧
    WellFormed (.add (smp .i32 (.s 4) (.s 1) (.int 3) .none 0)) = true ∧ WellFormed (.add (smp .i32 (.s 4) (.v 1) (.int 3) .none 0)) = false ∧
    WellFormed (.add { smp .i32 (.s 4) (.s 1) (.int 3) .none 0 with pk := 1 }) = false ∧
    WellFormed (.cmp (smp .i32 (.k 0) (.v 1) (.int 3) .none 0)) = false ∧
    WellFormed (.add (smp .i32 (.special 4) (.v 1) (.int 3) .none 0)) = false ∧
    WellFormed (.st (smp .b32 (.v 0) (.v 2) (.int 0) (.v 1) 0)) = false := by decide +kernel

theorem test_wellformed_channel : WellFormed (.add (smp .i32 (.v 4) (.ch 1) (.ch 2) .none 0)) = true ∧
    WellFormed (.add (smp .i32 (.v 4) (.ch 1) (.ch 1) .none 0)) = false := by decide +kernel

theorem test_wellformed_quad : WellFormed (.ld (smp .b64 (.v 8) (.v 2) (.int 0) .none 3)) = true ∧
    WellFormed (.ld (smp .b64 (.v 6) (.v 2) (.int 0) .none 3)) = false ∧ WellFormed (.ld (smp .b32 (.v 8) (.v 2) (.int 0) .none 3)) = false := by
  decide +kernel

theorem test_decode_refuses : (match decodeSlot 0xFFC00FF3FCFF3FC0 0 with | .error (.unlistedOpcode n) => decide (n = 1023) | _ => false) = true ∧
    decodeRecord 5 [0x000B900000000007#64, 0x10000#64, 0x1234#64, 2#64, 9#64, 0#64, 0#64, 0#64] = .error .malformedRecord := by
  decide +kernel

/-! One step, values worked out by hand from the rules; those marked E stand in the spec's examples. -/

/-- A v register pair of every thread. -/
def setPair (n : Fin 62) (x : W64) (t : Thread) : Thread :=
  { t with v := (t.v.set n.val { v := x.setWidth 32, p := false }).set (n.val + 1) { v := (x >>> 32).setWidth 32, p := false } }

/-- A in v2, B in v4, C in v6 of every thread. -/
def regs (a b c : W64) : Cohort → Cohort := allThreads fun t => setPair 6 c (setPair 4 b (setPair 2 a t))

/-- Thread `l` after one instruction on those registers, its result in v8. -/
def after (o : Op) (ty : Ty) (n : Nat) (m : BitVec 6) (g : Cohort → Cohort) (l : Nat) : Option Thread :=
  match exec (Instr.ofOp o (smp ty (.v 8) (.v 2) (if 2 ≤ n then .v 4 else .none) (if 3 ≤ n then .v 6 else .none) m)) (demo g id) with
  | .next t => t.thread? 1 0 l
  | _ => none

/-- The word that thread 0 then has in v8. -/
def word (o : Op) (ty : Ty) (n : Nat) (m : BitVec 6) (a b c : W64) : Option W32 := (after o ty n m (regs a b c) 0).map fun t => (t.v[8]).v

/-- The pair of words v9:v8. -/
def pair (o : Op) (ty : Ty) (n : Nat) (m : BitVec 6) (a b c : W64) : Option W64 :=
  (after o ty n m (regs a b c) 0).map fun t => (t.v[9]).v ++ (t.v[8]).v

theorem test_add_E :
    word .add .i8x4 2 1 0x7f0180ff 0x101ff01 0x0 = some 0x7f028000 ∧
    word .add .i32 2 1 0x7fffffff 0x1 0x0 = some 0x7fffffff := by decide +kernel

theorem test_add_wraps :
    word .add .i32 2 0 0xffffffff 0x2 0x0 = some 0x1 ∧
    pair .add .i64 2 0 0xffffffff 0x1 0x0 = some 0x100000000 := by decide +kernel

theorem test_sub :
    word .sub .n32 2 1 0x3 0x5 0x0 = some 0x0 ∧
    word .sub .i32 2 0 0x3 0x5 0x0 = some 0xfffffffe := by decide +kernel

theorem test_mul :
    word .mul .i32 2 0 0x10000 0x10000 0x0 = some 0x0 ∧
    word .mulh .i32 2 0 0x80000000 0x2 0x0 = some 0xffffffff ∧
    word .mulh .n32 2 0 0x80000000 0x2 0x0 = some 0x1 := by decide +kernel

theorem test_mad :
    word .mad .i32 3 1 0x40000000 0x4 0xffffffff = some 0x7fffffff ∧
    word .mad .n32 3 0 0x3 0x5 0x7 = some 0x16 := by decide +kernel

theorem test_minmax :
    word .min .i32 2 0 0xffffffff 0x1 0x0 = some 0xffffffff ∧
    word .min .n32 2 0 0xffffffff 0x1 0x0 = some 0x1 ∧
    word .max .i16x2 2 0 0x8000ffff 0x10000 0x0 = some 0x10000 := by decide +kernel

theorem test_abs_neg :
    word .abs .i32 1 0 0x80000000 0x0 0x0 = some 0x80000000 ∧
    word .abs .i32 1 1 0x80000000 0x0 0x0 = some 0x7fffffff ∧
    word .neg .i8x4 1 1 0x80010203 0x0 0x0 = some 0x7ffffefd := by decide +kernel

theorem test_carry :
    word .addc .n32 3 0 0xffffffff 0x0 0x1 = some 0x0 ∧
    word .subb .n32 3 0 0x5 0x5 0x1 = some 0xffffffff := by decide +kernel

theorem test_bitwise :
    word .and .b32 2 0 0xf0f0 0xff00 0x0 = some 0xf000 ∧
    word .andn .b32 2 0 0xf0f0 0xff00 0x0 = some 0xf0 ∧
    word .orn .b32 2 0 0x0 0xffffff00 0x0 = some 0xff ∧
    word .xor .b32 2 0 0xf0f0 0xff00 0x0 = some 0xff0 ∧
    word .not .b32 1 0 0x0 0x0 0x0 = some 0xffffffff ∧
    word .or .b32 2 0 0xf0f0 0xff00 0x0 = some 0xfff0 := by decide +kernel

theorem test_counts :
    word .popc .b64 1 0 0x8000000000000001 0x0 0x0 = some 0x2 ∧
    word .clz .b32 1 0 0x0 0x0 0x0 = some 0x20 ∧
    word .ctz .b64 1 0 0x0 0x0 0x0 = some 0x40 ∧
    word .brev .b32 1 0 0x1 0x0 0x0 = some 0x80000000 := by decide +kernel

theorem test_shift_by_width :
    word .shl .b32 2 0 0x1 0x20 0x0 = some 0x0 ∧
    word .shr .b32 2 0 0xffffffff 0x21 0x0 = some 0x0 ∧
    word .sar .i32 2 0 0x80000000 0x28 0x0 = some 0xffffffff := by decide +kernel

theorem test_rotate :
    word .rol .b32 2 0 0x80000001 0x21 0x0 = some 0x3 ∧
    word .ror .b32 2 0 0x80000001 0x1 0x0 = some 0xc0000000 ∧
    word .fsh .b32 3 0 0x12345678 0x9abcdef0 0x8 = some 0x789abcde ∧
    word .fsh .b32 3 1 0x12345678 0x9abcdef0 0x8 = some 0x3456789a := by decide +kernel

theorem test_fields :
    word .bfx .i32 3 0 0xf00000 0x14 0x4 = some 0xffffffff ∧
    word .bfx .n32 3 0 0xf00000 0x14 0x4 = some 0xf ∧
    word .bfx .n32 3 0 0xffffffff 0x1c 0x9 = some 0xf ∧
    word .bfi .b32 3 0 0xffffffff 0x0 0x804 = some 0xfffff00f := by decide +kernel

theorem test_select :
    word .sel .b32 3 0 0x7 0x9 0x3 = some 0x7 ∧
    word .sel .b32 3 0 0x7 0x9 0x2 = some 0x9 ∧
    pair .movk .b64 2 3 0x1111222233334444 0xabcd 0x0 = some 0xabcd222233334444 := by decide +kernel

theorem test_compare :
    word .cmp .i32 2 2 0xffffffff 0x0 0x0 = some 0x1 ∧
    word .cmp .n32 2 2 0xffffffff 0x0 0x0 = some 0x0 := by decide +kernel

theorem test_lea :
    pair .lea .n64 3 10 0x1000 0xffffffff 0x4 = some 0x1000 := by decide +kernel

theorem test_fdot_E :
    word .fdot2 .bf16x2 3 0 0x3f804580 0x3f804580 0xcb800000 = some 0x3f800000 := by decide +kernel

theorem test_fminmax_E :
    word .fmin .f32 2 0 0x7fc00000 0x40000000 0x0 = some 0x40000000 ∧
    word .fmin .f32 2 1 0x7fc00000 0x40000000 0x0 = some 0x7fc00000 ∧
    word .fmax .f32 2 0 0x80000000 0x0 0x0 = some 0x0 ∧
    word .fneg .f32 1 0 0x7fc12345 0x0 0x0 = some 0xffc12345 := by decide +kernel

theorem test_fadd :
    word .fadd .f32 2 0 0x4b800000 0x3f800000 0x0 = some 0x4b800000 ∧
    word .fadd .f32 2 0 0x3f800000 0xbf800000 0x0 = some 0x0 ∧
    word .fsub .f16 2 0 0x3c00 0x4000 0x0 = some 0xbc00 := by decide +kernel

theorem test_fmul :
    word .fmul .f32 2 0 0x40400000 0xbf000000 0x0 = some 0xbfc00000 ∧
    word .fmul .f32 2 0 0x7f800000 0x0 0x0 = some 0x7fc00000 ∧
    word .ffma .f32 3 0 0x40000000 0x40400000 0x3f800000 = some 0x40e00000 := by decide +kernel

theorem test_fsign :
    word .fabs .f32 1 0 0xc0000000 0x0 0x0 = some 0x40000000 ∧
    word .fcsgn .f32 2 1 0x40000000 0x3f800000 0x0 = some 0xc0000000 ∧
    word .fcsgn .f32 2 2 0xc0000000 0xbf800000 0x0 = some 0x40000000 := by decide +kernel

theorem test_convert_E :
    word .cvt .i32 1 17 0xc0300000 0x0 0x0 = some 0xfffffffe ∧
    word .cvt .n32 1 4 0xfffffffb 0x0 0x0 = some 0x0 ∧
    word .cvt .n32 1 0 0xfffffffb 0x0 0x0 = some 0xfffffffb := by decide +kernel

theorem test_convert_pack_E :
    word .cvtPk .e4m3x4 3 4 0x3f800000 0x43fa0000 0x0 = some 0x7e38 ∧
    word .cvtPk .e4m3x4 3 0 0x3f800000 0x43fa0000 0x0 = some 0x7f38 := by decide +kernel

theorem test_pack_E :
    word .pack .i8x4 2 2 0xfffe012c 0xff0007 0x0 = some 0xff0700ff ∧
    word .unpack .i8x4 1 3 0x80000000 0x0 0x0 = some 0xffffff80 ∧
    word .unpack .i8x4 1 7 0x80000000 0x0 0x0 = some 0x80 := by decide +kernel

theorem test_fscale :
    word .fscale .f32 2 0 0x3fc00000 0xffffffff 0x0 = some 0x3f400000 ∧
    word .frnd .f32 1 0 0x40200000 0x0 0x0 = some 0x40000000 := by decide +kernel

theorem test_perm :
    word .perm .b32 3 0 0x33221180 0x77665544 0x408 = some 0x804480ff := by decide +kernel

theorem test_votes :
    word .voteAny .b32 1 0 0x0 0x0 0x0 = some 0x0 ∧
    word .voteAll .b32 1 0 0x1 0x0 0x0 = some 0x1 ∧
    word .voteBal .b32 1 0 0x5 0x0 0x0 = some 0xffffffff ∧
    word .voteEq .b32 1 0 0x5 0x0 0x0 = some 0x1 := by decide +kernel

theorem test_exchange :
    word .shflIdx .b32 2 0 0x4d 0x3 0x0 = some 0x4d ∧
    word .rdlane .b32 2 0 0x5 0x1f 0x0 = some 0x5 ∧
    word .wrlane .b32 3 0 0x7 0x0 0x9 = some 0x7 ∧
    word .redx .i32 1 0 0x1 0x0 0x0 = some 0x20 := by decide +kernel

theorem witness_MappingCommands_migrate :
    (∃ t, smGet mapDemo.parts 1 = some t ∧ t.migr.contains (mapOf 0x10000 8 1 1 0) = false) ∧
    (∃ t, smGet { mapDemo with parts := [(1, { mapPart [(0, 10)] [] with migr := [mapOf 0x10000 8 1 1 0] })] }.parts 1 = some t ∧
      t.migr.contains (mapOf 0x10000 8 1 1 0) = true) :=
  ⟨⟨_, rfl, by decide +kernel⟩, _, rfl, by decide +kernel⟩

/-- Nothing is bound. -/
def unbound : Env := { regs := 64, bound := fun _ => false }

theorem witness_SlotFaults_named : operandOk unbound .chnPop (sampleOf .chnPop) = true ∧ namedOk unbound .chnPop (sampleOf .chnPop) = false ∧
    encFault unbound true .chnPop (sampleOf .chnPop) = some cIllegalOperand ∧
    (opcodeOk .sysrd { sampleOf .sysrd with c := ⟨.int 0, false, false⟩ } = true ∧ privileged .sysrd = false ∧
      ({ sampleOf .sysrd with c := ⟨.int 0, false, false⟩ } : Fields).c.sel ≠ .none) ∧
    (((demo id id).modCluster Config.clusters fun c => { c with halted := true }).cur = some slice0 ∧
      (((demo id id).modCluster Config.clusters fun c => { c with halted := true }).cluster (slice0 / 6)).halted = true) := by
  decide +kernel

theorem witness_ResultDelivery_behind :
    ({ demo id id with pends := [(4, { pend1 with checked := true }), (5, { pend1 with checked := true })] }).behindSfu 5 { pend1 with checked := true } = true ∧
    ({ demo id id with pends := [(5, pend1)] }).behindSfu 5 pend1 = false := by decide +kernel

theorem witness_JobEvents_stage : (cardDemo run0).mxStageFree run0 = true ∧
    (∃ e f : MxEnt, (engDemo fun c => { c with mx := [(0, e), (1, f)] }).mxStageFree e = false) :=
  ⟨by decide +kernel, { run0 with kind := .team, member := some (0, 1), steps := 2 }, { run0 with kind := .team, member := some (0, 1) }, by decide +kernel⟩

theorem witness_JobEvents_writeAll :
    (match ((cardDemo (outEnt false)).mxGranules (outEnt false))[0 % ((cardDemo (outEnt false)).mxGranules (outEnt false)).length]?,
        ((cardDemo (outEnt false)).mxReceivers (outEnt false))[0 / ((cardDemo (outEnt false)).mxGranules (outEnt false)).length]? with
      | some ys, some recv =>
        (match (cardDemo (outEnt false)).mxPutAll (outEnt false) (crewOf id id) recv
            (((cardDemo (outEnt false)).cluster (outEnt false).eng).bank (mBank (outEnt false).card)) ys with | .done _ => true | _ => false)
      | _, _ => false) = true := by decide +kernel

theorem witness_JobEvents_holds : ((sealed (seal0 [abs0] none false) []).cluster Config.clusters).sealHolds abs0 = decide (abs0.n = 0) ∧
    (Cluster.sealHolds Cluster.zero { abs0 with n := 8 }) = false ∧
    (Cluster.sealHolds Cluster.zero { abs0 with n := 0 }) = true ∧ (seal0 [] none false).absorbs = [] := by decide +kernel

theorem witness_FabricEvents_busy :
    ((fabDemo { fab0 (.drain []) wrPkt with sent := none, out := 7 })).streamBusy { fab0 (.drain []) wrPkt with sent := none, out := 8 } = true := by
  decide +kernel

theorem witness_LaunchInstruction_poison :
    ({ launching ring [0] 0x10000 with memPz := [((crewOf id id).stashAt 0) / 8] }.getBytesP ((crewOf id id).stashAt 0) 8).any (·.2) = true ∧
    ((launching ring [0] 0x10000).getBytesP ((crewOf id id).stashAt 0) 8).any (·.2) = false := by decide +kernel

/-- The slot of `launch` for a crew of partition 1. -/
def launchSlot1 : Slot := { launchSlot with crew := { launchSlot.crew with part := 1 } }

/-- What a record at the leader's stash offset 0 comes to: 1 invalid, 2 no resource, 3 a grid, 4 later. -/
def judgeSays (s : State) : Nat :=
  let ws := [0x10000, 0, 0x100000001, 0x100000000, 0x0020040080000000, 0, 0, 0]
  match s.judgeLaunch 1 (rw ws 4 27 22) ws 1 (some 1) 0 with
  | (_, .invalid) => 1 | (_, .resource) => 2 | (_, .grid _) => 3 | (_, .later) => 4

theorem witness_LaunchInstruction_judged : judgeSays (launching ring [0] 0) = 3 ∧ judgeSays (launching ring [] 0) = 2 ∧
    judgeSays { launching ring [0] 0 with slices := (homed 3 true (.read 4 false)).slices } = 4 ∧
    fld (lpart ring).chquota 15 0 ≤ (launching ring [0] 0).launched 1 ∧
    (launching ring [0] 0).launched 1 < fld { lpart ring with chquota := 5 }.chquota 15 0 := by decide +kernel

theorem witness_GridEvents_reply : (steal1 true []).shipped = [] ∧ (steal1 true [ccb1]).shipped = [ccb1] ∧
    (steal1 false []).answered = false ∧
    smGet (stealing fun c => { c with steal := none }).grids ccb1.grid = some grid1 ∧
    (∃ q, smGet (stealing fun c => { c with steal := none }).parts grid1.part = some q) :=
  ⟨rfl, rfl, rfl, rfl, _, rfl⟩

theorem witness_GridEvents_saving : { crewOf id id with leaving := some .save, stopping := some 3 }.leaving = some .save ∧
    { crewOf id id with leaving := some .save, stopping := some 3 }.stopping.isSome = true ∧
    (∃ t : Machine.Part, { demo id id with parts := [((crewOf id id).part, t)] }.idlePart (crewOf id id).part = false) ∧
    (∃ t : Machine.Part, { demo id id with parts := [((crewOf id id).part, t)] }.idlePart (crewOf id id).part = true) :=
  ⟨rfl, rfl, ⟨{ part0 with qst := 1 }, by decide +kernel⟩, ⟨part0, by decide +kernel⟩⟩

theorem witness_ClauseEvents_storage : (((idleDemo id id).silentError (slice0 / 6) 4).sliceCohorts slice0)[0]?.isSome = true ∧
    (((idleDemo id id).silentError (slice0 / 6) 4).sliceCohorts slice0)[7]? = none := by decide +kernel

theorem witness_ClauseEvents_lanes : cand0.late = [] ∧
    (∀ i : Fin 32, (cohort0.threads[i]).tok = none) := by decide +kernel

/-- The request of the tests waits in the queue of its home slice. -/
def reqAt0 (s : State) : State := s.modSlice 0 fun x => { x with reqq := [5] }

/-- The port of slice 0 grants that request. -/
def grants5 (s : State) : Bool :=
  decide (arbPick (s.noteSlice 0).qpOf ((s.noteSlice 0).slice 0).grants ((s.noteSlice 0).grantable 0) = some (5, 1))

/-- The state in which the granted request is served. -/
def granted5 (s : State) : State :=
  (s.noteSlice 0).modSlice 0 fun x => { x with grants := arbNote x.grants ((s.noteSlice 0).grantable 0) 1 }

theorem witness_MeshAndSliceEvents_grant : asidTag (atHome (.read 4 false)).asid = 1 ∧
    grants5 (reqAt0 (homed 1 true (.read 4 false))) = true ∧ grants5 (reqAt0 (homed 3 true (.read 4 false))) = true ∧
    grants5 (homed 1 true (.read 4 false)) = false ∧ grants5 (reqAt0 trailing) = true ∧
    ((granted5 (reqAt0 (homed 1 true (.read 4 false)))).behindTrail 5 (atHome (.read 4 false)) = false ∧
      ((granted5 (reqAt0 (homed 1 true (.read 4 false)))).slice 0).find (asidOf 1 0) 0x10000 = some key16 ∧
      (((granted5 (reqAt0 (homed 1 true (.read 4 false)))).slice 0).way key16).st ≠ 3) ∧
    ((granted5 (reqAt0 (homed 3 true (.read 4 false)))).behindTrail 5 (atHome (.read 4 false)) = false ∧
      (((granted5 (reqAt0 (homed 3 true (.read 4 false)))).slice 0).way key16).st = 3) ∧
    (granted5 (reqAt0 trailing)).behindTrail 5 { atHome (.read 4 false) with ord := 1 } = true ∧
    (grants5 (reqAt0 { homed 1 true (.pref 3) with slices := [] }) = true ∧
      ((granted5 (reqAt0 { homed 1 true (.pref 3) with slices := [] })).slice 0).find (asidOf 1 0) 0x10000 = none) := by
  decide +kernel

theorem witness_MeshAndSliceEvents_arb : arbPick (fun t => t) [] [] = none ∧
    arbPick (fun t => t) [] [(4, 2), (5, 1)] = some (5, 1) ∧ arbPick (fun t => t) [(2, 126)] [(4, 2), (5, 1)] = some (4, 2) ∧
    63 * ((([(4, 2), (5, 1)] : List (Nat × Nat)).map Prod.snd).eraseDups).length ≤ smGetD [(2, 126)] 2 0 := by decide +kernel

theorem witness_MeshAndSliceEvents_migrating : (homed 3 true (.read 4 false)).migrating (asidOf 1 0) (vpnOf 0x10000) = false ∧
    { homed 3 true (.read 4 false) with parts := [(1, { mapPart [(0, 10)] [] with migr := [mapOf 0x10000 8 1 1 0] })] }.migrating
      (asidOf 1 0) (vpnOf 0x10000) = true ∧ (atHome (.pref 3)).op = .pref 3 ∧
    (State.reset.slice 0).find (atHome (.pref 3)).asid (atHome (.pref 3)).va = none := by decide +kernel

end Sys2Proof.Tests
end

section
/-!
What a turn comes to: one lemma for each way in which the next slot of an issue slice or the next
mapping record ends, and for each kind of turn the step that follows from it (R7, R11, R22, R26, R28, R72, R386, R424).
-/

namespace Sys2Proof.Machine

/-! Threads that enter the clause at the slot. -/

theorem Run.enter_of_late_nil {r : Run} (h : r.late = []) : r.enter = r := by
  simp only [Run.enter, h]

/-- The state in which the next slot of slice `k` acts: the threads that enter there have joined the bundle of `r`. -/
def State.entered (s : State) (k : Nat) (r : Run) : State := if r.late.isEmpty then s else s.modRun k Run.enter

@[simp] theorem State.entered_debugMatch (s : State) (k : Nat) (r q : Run) :
    (s.entered k r).debugMatch q = s.debugMatch q := by
  unfold State.entered
  split <;> rfl

/-! The next slot of a slice's bundle. -/

theorem nextSlot_of_no_run {s : State} {k : Nat} (h : (s.issue k).run = none) : s.nextSlot k = (s, none) := by
  simp only [State.nextSlot, h]

/-- What the word at the slot of `r` comes to when nothing stops the bundle before it (R28). -/
def State.slotWord (s : State) (k : Nat) (r : Run) : State × Option Instr :=
  match decodeSlot (r.words.getD r.slot 0) (r.words.getD (r.slot + 1) 0) with
  | .error _ => (s.trapLanes k r.cid r.co r.lanes fun _ => preciseTrap r cIllegalOpcode 0, none)
  | .ok i => (s, some i)

theorem slotWord_of_ok (s : State) (k : Nat) {r : Run} {i : Instr}
    (h : decodeSlot (r.words.getD r.slot 0) (r.words.getD (r.slot + 1) 0) = .ok i) : s.slotWord k r = (s, some i) := by
  simp only [State.slotWord, h]

theorem slotWord_of_error (s : State) (k : Nat) {r : Run} {x : Reject}
    (h : decodeSlot (r.words.getD r.slot 0) (r.words.getD (r.slot + 1) 0) = .error x) :
    s.slotWord k r = (s.trapLanes k r.cid r.co r.lanes fun _ => preciseTrap r cIllegalOpcode 0, none) := by
  simp only [State.slotWord, h]

section
variable {s : State} {k : Nat} {r : Run}

/-- The order of what ends or stops a bundle before its slot: the clause's end, a breakpoint, a debug match. -/
theorem nextSlot_of_run (hrun : (s.issue k).run = some r) :
    s.nextSlot k =
      if r.enter.lanes = 0 ∨ hdrCnt r.enter.hdr < r.enter.slot then ((s.entered k r).endClause k, none)
      else if (hdrBpm r.enter.hdr).getLsbD r.enter.slot = true ∧ r.enter.checked ≠ 0 then
        ((s.entered k r).trapLanes k r.enter.cid r.enter.co r.enter.checked fun _ => preciseTrap r.enter cBreakpoint 0, none)
      else if r.enter.checked ≠ 0 ∧ s.debugMatch r.enter = true then ((s.entered k r).debugStop k r.enter, none)
      else (s.entered k r).slotWord k r.enter := by
  rw [← State.entered_debugMatch s k r]
  simp only [State.nextSlot, hrun, Bool.or_eq_true, Bool.and_eq_true, decide_eq_true_eq]
  rfl

theorem not_clause_over (hl : r.enter.lanes ≠ 0) (hs : r.enter.slot ≤ hdrCnt r.enter.hdr) :
    ¬(r.enter.lanes = 0 ∨ hdrCnt r.enter.hdr < r.enter.slot) :=
  not_or.2 ⟨hl, Nat.not_lt.2 hs⟩

theorem nextSlot_of_clause_over (hrun : (s.issue k).run = some r)
    (h : r.enter.lanes = 0 ∨ hdrCnt r.enter.hdr < r.enter.slot) :
    s.nextSlot k = ((s.entered k r).endClause k, none) := by
  rw [nextSlot_of_run hrun, if_pos h]

variable (hrun : (s.issue k).run = some r) (hl : r.enter.lanes ≠ 0) (hs : r.enter.slot ≤ hdrCnt r.enter.hdr)
include hrun hl hs

theorem nextSlot_of_breakpoint (hc : r.enter.checked ≠ 0) (hb : (hdrBpm r.enter.hdr).getLsbD r.enter.slot = true) :
    s.nextSlot k = ((s.entered k r).trapLanes k r.enter.cid r.enter.co r.enter.checked
      fun _ => preciseTrap r.enter cBreakpoint 0, none) := by
  rw [nextSlot_of_run hrun, if_neg (not_clause_over hl hs), if_pos ⟨hb, hc⟩]

theorem nextSlot_of_debugMatch (hc : r.enter.checked ≠ 0) (hb : (hdrBpm r.enter.hdr).getLsbD r.enter.slot = false)
    (hd : s.debugMatch r.enter = true) : s.nextSlot k = ((s.entered k r).debugStop k r.enter, none) := by
  rw [nextSlot_of_run hrun, if_neg (not_clause_over hl hs), if_neg (by simp [hb]), if_pos ⟨hc, hd⟩]

theorem nextSlot_of_unstopped
    (hu : r.enter.checked = 0 ∨ ((hdrBpm r.enter.hdr).getLsbD r.enter.slot = false ∧ s.debugMatch r.enter = false)) :
    s.nextSlot k = (s.entered k r).slotWord k r.enter := by
  rw [nextSlot_of_run hrun, if_neg (not_clause_over hl hs)]
  rcases hu with hc | ⟨hb, hd⟩
  · rw [if_neg fun h => h.2 hc, if_neg fun h => h.1 hc]
  · rw [if_neg (by simp [hb]), if_neg (by simp [hd])]

end

/-! The next mapping record of a partition. -/

theorem nextMapping_of_acqWait {s : State} {part : Nat} (h : ∃ x ∈ s.acqWait, x.1 = part) :
    s.nextMapping part = (s, none) := by
  have hw : (s.acqWait.any fun x => decide (x.1 = part)) = true := by simpa using h
  rw [State.nextMapping, if_pos hw]

theorem migr_head_eq_none {s : State} {part : Nat} (hm : ∀ p, smGet s.parts part = some p → p.migr = []) :
    ((smGet s.parts part).bind fun p => p.migr.head?) = none :=
  Option.bind_eq_none_iff.2 fun p hp => by rw [hm p hp, List.head?_nil]

section
variable {s : State} {part : Nat} (hw : ∀ x ∈ s.acqWait, x.1 ≠ part)
include hw

theorem acqWait_any_eq_false : (s.acqWait.any fun x => decide (x.1 = part)) = false :=
  List.any_eq_false.2 fun x hx => by simpa using hw x hx

theorem nextMapping_of_migr {p : Part} {m : MapCmd} {l : List MapCmd} (hp : smGet s.parts part = some p)
    (hm : p.migr = m :: l) : s.nextMapping part = (s, some (.migrate part m)) := by
  simp only [State.nextMapping, acqWait_any_eq_false hw, hp, hm, Bool.false_eq_true, if_false, Option.bind_some,
    List.head?_cons]

variable (hm : ∀ p, smGet s.parts part = some p → p.migr = [])
include hm
variable {t : State}

theorem nextMapping_of_no_record (hf : s.fetchRecord part 64 mapStamp = (t, none)) : s.nextMapping part = (t, none) := by
  simp only [State.nextMapping, acqWait_any_eq_false hw, migr_head_eq_none hm, hf, Bool.false_eq_true, if_false]

variable {ws : List W64} (hf : s.fetchRecord part 64 mapStamp = (t, some ws))
include hf

theorem nextMapping_of_record {i : Instr} (hd : decodeRecord part ws = .ok i) : s.nextMapping part = (t, some i) := by
  simp only [State.nextMapping, acqWait_any_eq_false hw, migr_head_eq_none hm, hf, hd, Bool.false_eq_true, if_false]

theorem nextMapping_of_malformed {e : Reject} (hd : decodeRecord part ws = .error e) :
    s.nextMapping part =
      (t.postEvent part 2 (fld (ws.headD 0) 55 50) (BitVec.ofNat 32 (mapStamp ws)) (ws.getD 4 0) 2, none) := by
  simp only [State.nextMapping, acqWait_any_eq_false hw, migr_head_eq_none hm, hf, hd, Bool.false_eq_true, if_false]
  cases ws <;> rfl

end

/-! The step of each kind of turn while the rail is up, and what the rail's loss leaves. -/

section
variable {s t : State} {k part : Nat} {i : Instr}

theorem step_of_rail (hr : s.rail = true) : step s = stepTurn s.turn s.advance := by
  simp only [step, hr, Bool.true_or, if_true]

theorem step_of_ev (hr : s.rail = true) (ht : s.turn = .ev i) : step s = exec i s.advance := by
  rw [step_of_rail hr, ht, stepTurn]

theorem step_of_coldStart (ht : s.turn = .ev .coldStart) : step s = exec .coldStart s.advance := by
  simp only [step, ht, decide_true, Bool.or_true, if_true, stepTurn]

theorem step_of_rail_down (hr : s.rail = false) (ht : s.turn ≠ .ev .coldStart) : step s = .fault .railDown := by
  simp only [step, hr, ht, decide_false, Bool.or_false, Bool.false_eq_true, if_false]

theorem step_of_nextSlot_none (hr : s.rail = true) (ht : s.turn = .issue k) (h : s.advance.nextSlot k = (t, none)) :
    step s = .next t := by
  simp only [step_of_rail hr, ht, stepTurn, h]

theorem step_of_nextSlot_some (hr : s.rail = true) (ht : s.turn = .issue k) (h : s.advance.nextSlot k = (t, some i)) :
    step s = exec i { t with cur := some k } := by
  simp only [step_of_rail hr, ht, stepTurn, h]

theorem step_of_nextMapping_none (hr : s.rail = true) (ht : s.turn = .mapRecord part)
    (h : s.advance.nextMapping part = (t, none)) : step s = .next t := by
  simp only [step_of_rail hr, ht, stepTurn, h]

theorem step_of_nextMapping_some (hr : s.rail = true) (ht : s.turn = .mapRecord part)
    (h : s.advance.nextMapping part = (t, some i)) : step s = exec i t := by
  simp only [step_of_rail hr, ht, stepTurn, h]

end

end Sys2Proof.Machine
end

section
/-!
The statements of spec/00_scope.md: what a step runs, and what reset leaves.
-/

open Sys2Proof Sys2Proof.Machine

/-- Settles O57. Each clause names how the turn's slot or record comes out (`nextSlot_of_…`, `nextMapping_of_…`) and the step
that follows from it (`step_of_…`). -/
theorem stepRunsDecoded : Obligations.StepRunsDecoded := by
  refine ⟨?slot, ?clause, fun _ => Run.enter_of_late_nil, ?record, fun _ _ => step_of_ev, ?railDown⟩
  case slot =>
    rintro s _ _ k r _ hr ht hrun rfl rfl rfl hl hs
    have hrun' : (s.advance.issue k).run = some r := hrun
    refine ⟨fun hu => ?_, fun hc hb => ?_, fun hc hb hd => ?_⟩
    · have hslot := nextSlot_of_unstopped hrun' hl hs hu
      exact ⟨fun i hi => step_of_nextSlot_some hr ht (hslot.trans (slotWord_of_ok _ k hi)),
        fun x hx => step_of_nextSlot_none hr ht (hslot.trans (slotWord_of_error _ k hx))⟩
    · exact step_of_nextSlot_none hr ht (nextSlot_of_breakpoint hrun' hl hs hc hb)
    · exact step_of_nextSlot_none hr ht (nextSlot_of_debugMatch hrun' hl hs hc hb hd)
  case clause =>
    intro s _ k hr ht
    refine ⟨fun hn => step_of_nextSlot_none hr ht (nextSlot_of_no_run hn), ?_⟩
    rintro r _ hrun rfl rfl hover
    exact step_of_nextSlot_none hr ht (nextSlot_of_clause_over hrun hover)
  case record =>
    intro s t part hr ht
    refine ⟨fun hw => ?_, fun p m l hw hp hm => ?_, fun hw hm => ⟨fun hf => ?_, fun ws i hf hd => ?_⟩,
      fun ws e hw hm hf hd => ?_⟩
    · exact step_of_nextMapping_none hr ht (nextMapping_of_acqWait (s := s.advance) hw)
    · exact step_of_nextMapping_some hr ht (nextMapping_of_migr (s := s.advance) hw hp hm)
    · exact step_of_nextMapping_none hr ht (nextMapping_of_no_record (s := s.advance) hw hm hf)
    · exact step_of_nextMapping_some hr ht (nextMapping_of_record (s := s.advance) hw hm hf hd)
    · exact step_of_nextMapping_none hr ht (nextMapping_of_malformed (s := s.advance) hw hm hf hd)
  case railDown => exact fun _ hr => ⟨step_of_coldStart, step_of_rail_down hr⟩

/-- Settles O59: the fields are those that `State.reset` names; memory that lists no byte reads zero everywhere
(`memRead_nil`) and is in canonical form (`reset_wf`). -/
theorem resetState : Obligations.ResetState := by
  have hrdy : ∀ r : Res, State.reset.rdy r = [] := fun r => by cases r <;> rfl
  have hmr : ∀ n : Fin 4, State.reset.mr[n] = 0 := fun n => Vector.getElem_replicate n.isLt
  have hmem : ∀ a n : Nat, memRead State.reset.mem a n = List.replicate n 0 := memRead_nil
  exact ⟨rfl, rfl, hrdy, rfl, rfl, rfl, rfl, rfl, rfl, rfl, rfl, rfl, rfl, rfl, rfl, rfl, rfl, rfl, rfl, rfl, hmr,
    rfl, rfl, rfl, rfl, hmem, rfl, reset_wf⟩
end

section
/-!
What the events of resources come to (R11, R13, R14, R16, R53, R63, R402), and the steps of a tag's life: RESET, DESTROY and the
hold of an incarnation (R400, R410, R411).
-/

namespace Sys2Proof.Machine

/-! Self-tests and failures. -/

section
variable {r : Res} {i : Nat} {s : State}

theorem rdy_modRdy (s : State) (r q : Res) (f : List Nat → List Nat) :
    (s.modRdy r f).rdy q = if q = r then f (s.rdy q) else s.rdy q := by
  cases r <;> cases q <;> rfl

theorem rdy_modRdy_self (s : State) (r : Res) (f : List Nat → List Nat) : (s.modRdy r f).rdy r = f (s.rdy r) := by
  rw [rdy_modRdy, if_pos rfl]

theorem rdy_modRdy_of_ne (s : State) (f : List Nat → List Nat) {q : Res} (h : q ≠ r) : (s.modRdy r f).rdy q = s.rdy q := by
  rw [rdy_modRdy, if_neg h]

theorem selfTestPass_of_passed (hi : i < resCount r) (hf : (r, i) ∉ s.failed) (hr : s.requires r i = true) :
    execSelfTestPass r i s = .next (s.modRdy r (nsAdd i)) := by
  have hb : ¬ (decide (resCount r ≤ i) || s.failed.contains (r, i) || !s.requires r i) = true := by simp [hi, hf, hr]
  rw [execSelfTestPass, if_neg hb]

theorem selfTestPass_of_barred (h : resCount r ≤ i ∨ (r, i) ∈ s.failed ∨ s.requires r i = false) :
    execSelfTestPass r i s = .next s := by
  have hb : (decide (resCount r ≤ i) || s.failed.contains (r, i) || !s.requires r i) = true := by
    simpa [or_assoc] using h
  rw [execSelfTestPass, if_pos hb]

theorem resourceFail_of_absent (h : resCount r ≤ i) : execResourceFail r i s = .next s :=
  congrArg _ (if_pos h)

/-- A failing service cluster, port or key share loses its bit and nothing else: the model's choice (R16, log 55). -/
theorem resourceFail_of_no_site (hr : r = .svc ∨ r = .hp ∨ r = .fp ∨ r = .ks) (hi : i < resCount r) :
    execResourceFail r i s = .next (s.markFailed r i) := by
  rcases hr with rfl | rfl | rfl | rfl <;> exact congrArg _ (if_neg hi.not_ge)

theorem resourceFail_slice (hi : i < resCount .sl) : execResourceFail .sl i s = .next (s.fenceSlice i false) :=
  congrArg _ (if_neg hi.not_ge)

/-- A channel takes its slice's site with it: the model's choice (R16, log 40). -/
theorem resourceFail_channel (hi : i < resCount .ch) : execResourceFail .ch i s = .next (s.fenceSlice i false) :=
  congrArg _ (if_neg hi.not_ge)

theorem resourceFail_router (hi : i < resCount .rtr) :
    execResourceFail .rtr i s = .next ((s.markFailed .rtr i).fenceSlice i true) :=
  congrArg _ (if_neg hi.not_ge)

/-- What a failing cluster leaves before its owner is looked at: its bit is gone, and where the free value says so its router is
fenced with it (R16). -/
def State.clusterMarked (s : State) (i : Nat) : State :=
  if Config.routerFailed s.tick then { s.markFailed .cl i with fencedRtr := nsAdd (clusterSite i) (s.markFailed .cl i).fencedRtr }
  else s.markFailed .cl i

theorem resourceFail_of_unowned_cluster (hi : i < resCount .cl) (ho : (s.clusterMarked i).ownerOf i = none) :
    execResourceFail .cl i s = .next ((s.clusterMarked i).fenceCluster i) := by
  have hn : ((s.clusterMarked i).ownerOf i).isNone = true := by rw [ho]; rfl
  rw [execResourceFail, if_neg hi.not_ge]
  exact congrArg _ (if_pos hn)

theorem resourceFail_of_owned_cluster (hi : i < resCount .cl) (ho : (s.clusterMarked i).ownerOf i ≠ none) :
    execResourceFail .cl i s = .next
      ((s.clusterMarked i).modCluster i fun c => { c with silent := max 2 c.silent, silentAt := s.time }) := by
  have hn : ¬ ((s.clusterMarked i).ownerOf i).isNone = true := by rwa [Option.isNone_iff_eq_none]
  have ht : (s.clusterMarked i).time = s.time := by unfold State.clusterMarked; split <;> rfl
  rw [execResourceFail, if_neg hi.not_ge, ← ht]
  exact congrArg _ (if_neg hn)

theorem clusterSite_mem_fenceCluster (s : State) (i : Nat) : clusterSite i ∈ (s.fenceCluster i).fenced :=
  (mem_nsAdd _ _ _).2 (.inl rfl)

end

/-! Zeroing, row clears and the scrub. -/

section
variable {s : State} {p ch frame line n : Nat} {bad : List Nat}

theorem zeroingDone_of_not_zeroing (h : (s.cluster p).zeroing = false) : execZeroingDone p s = .next s := by
  simp only [execZeroingDone, h, Bool.false_eq_true, if_false]

theorem rowClearDone_of_pending (hf : frame < Config.cells) (hc : 2 ≤ (s.cell (cellNo ch frame)).1)
    (hs : s.fenced.contains (sliceSite ch) = false) {t : State}
    (ht : t = forL ((s.slice ch).lines.filterMap fun y =>
        if (y.2.st = 1 || y.2.st = 2) && y.2.frame = frame then some y.1 else none) (s.clearCell (cellNo ch frame))
          (fun k s => s.dropWay ch k)) :
    execRowClearDone ch frame s = .next (((t.dropCell (cellNo ch frame)).setCell (cellNo ch frame) 0 0).retryAcquires) := by
  have hb : ¬ (decide (Config.cells ≤ frame) || decide ((s.cell (cellNo ch frame)).1 < 2) ||
      s.fenced.contains (sliceSite ch)) = true := by
    simp only [hs, Bool.or_false, Bool.or_eq_true, decide_eq_true_eq, not_or]
    exact ⟨hf.not_ge, hc.not_gt⟩
  subst ht
  exact congrArg _ (if_neg hb)

theorem rowClearDone_of_not_pending
    (h : Config.cells ≤ frame ∨ (s.cell (cellNo ch frame)).1 < 2 ∨ s.fenced.contains (sliceSite ch) = true) :
    execRowClearDone ch frame s = .next s := by
  have hb : (decide (Config.cells ≤ frame) || decide ((s.cell (cellNo ch frame)).1 < 2) ||
      s.fenced.contains (sliceSite ch)) = true := by
    simpa only [Bool.or_eq_true, decide_eq_true_eq, or_assoc] using h
  exact congrArg _ (if_pos hb)

theorem patrol_of_closed (h : s.chRdy.contains ch = false ∨ 32 * Config.cells ≤ line) :
    execPatrolScrub ch line bad n s = .next s := by
  have hb : (!s.chRdy.contains ch || decide (32 * Config.cells ≤ line)) = true := by
    simpa only [Bool.or_eq_true, Bool.not_eq_true', decide_eq_true_eq] using h
  exact congrArg _ (if_pos hb)

end

/-! RESET and DESTROY. -/

section
variable {s : State} {part : Nat} {t : Part}

theorem reset_of_no_part (h : smGet s.parts part = none) : execReset part s = .next (s.mgmtDone part (some .busy)) := by
  simp only [execReset, h]

/-- What RESET does to the queues is the model's choice (R410, log 53). -/
theorem reset_of_part (h : smGet s.parts part = some t) :
    execReset part s = .next ((s.beginReset part t).modPart part fun t =>
      { t with holdUntil := (s.incHold part).map (fun u => (u, false)), msixPend := 0,
               queues := smMap (fun i q => if i < 64 then Queue.reset else q) t.queues }) := by
  simp only [execReset, h]

theorem resetMeshDrained_of_no_part (h : smGet s.parts part = none) : execResetMeshDrained part s = .next s := by
  simp only [execResetMeshDrained, h]

/-- The mesh of a tag has not drained, or nothing waits for it. -/
def State.notDrained (s : State) (part : Nat) (t : Part) : Bool :=
  t.qst ≠ 4 || t.holdUntil.isSome || s.liveTags.contains part || s.time < t.resetAt + 759

theorem notDrained_iff : s.notDrained part t = true ↔
    t.qst ≠ 4 ∨ t.holdUntil.isSome = true ∨ s.liveTags.contains part = true ∨ s.time < t.resetAt + 759 := by
  simp only [State.notDrained, Bool.or_eq_true, decide_eq_true_eq, or_assoc]

theorem resetMeshDrained_of_notDrained (h : smGet s.parts part = some t) (hd : s.notDrained part t = true) :
    execResetMeshDrained part s = .next s := by
  simp only [execResetMeshDrained, h]
  exact congrArg _ (if_pos hd)

/-- An abort record under an incarnation: bits 63:52 of its first word (R437). -/
def stampRec (inc : Nat) (ws : List W64) : List W64 := ws.modifyHead fun w => BitVec.ofNat 64 (inc * 2 ^ 52 + fld w 51 0)

theorem resetMeshDrained_of_drained (h : smGet s.parts part = some t) (hd : s.notDrained part t = false) {u v : State}
    (hu : u = ((s.notify part 5 0).zeroPart part t true).goLive part) (hv : v = u.notify part 6 (u.incOf part).1.toNat) :
    execResetMeshDrained part s = .next
      (((forL (t.abortRecs.map (stampRec (v.incOf part).1.toNat)) v fun ws s => s.post part 67 ws).modPart part fun t =>
        { t with abortRecs := [] }).mgmtDone part none) := by
  have hrec : stampRec (v.incOf part).1.toNat = fun ws : List W64 => match ws with
      | [] => []
      | w :: r => BitVec.ofNat 64 ((v.incOf part).1.toNat * 2 ^ 52 + fld w 51 0) :: r := by
    funext ws
    cases ws <;> rfl
  have hn : ¬ s.notDrained part t = true := by rw [hd]; exact Bool.false_ne_true
  subst hv hu
  rw [hrec]
  simp only [execResetMeshDrained, h]
  exact congrArg _ (if_neg hn)

theorem destroy_of_no_part (h : smGet s.parts part = none) : execDestroy part s = .next (s.mgmtDone part (some .busy)) := by
  simp only [execDestroy, h, Option.isNone_none, if_true]

theorem destroy_of_part (h : smGet s.parts part = some t) : execDestroy part s = .next ((s.destroy part).mgmtDone part none) := by
  simp only [execDestroy, h, Option.isNone_some, Bool.false_eq_true, if_false]

theorem State.destroy_eq_raze (h : smGet s.parts part = some t) :
    s.destroy part = (forL (s.crews.filter fun x => x.2.part = part) s fun x s => s.discardSeals x.1 3 0).raze part t := by
  simp only [State.destroy, h]

theorem forL_modCluster_cells (f : Cluster → Cluster) (l : List Nat) (s : State) :
    (forL l s fun p s => s.modCluster p f).own = s.own ∧ (forL l s fun p s => s.modCluster p f).areas = s.areas := by
  obtain ⟨⟨m, hm⟩, -⟩ := forL_each (fun p s => s.modCluster p f) (fun _ _ => True) (fun _ => trivial)
    (fun _ _ _ _ _ => trivial) (fun p s => ⟨(modCluster_each p s f).1, fun _ => trivial⟩) l s
  rw [hm]
  exact ⟨rfl, rfl⟩

theorem raze_leftCells {u : State} (hu : u = (s.beginReset part t).notify part 5 0) :
    smGet (s.raze part t).leftCells part = some ((((u.zeroPart part t false).dropAreas part).own.filter fun x =>
      x.2.1 = 2 && (u.cell x.1).1 ≠ 2).map Prod.fst) := by
  subst hu
  exact smGet_smSet_self ..

theorem raze_cells {u : State} (hu : u = (s.beginReset part t).notify part 5 0) :
    (s.raze part t).own = ((u.zeroPart part t false).dropAreas part).own ∧
      (s.raze part t).areas = ((u.zeroPart part t false).dropAreas part).areas := by
  subst hu
  exact forL_modCluster_cells ..

theorem raze_clRdy {p : Nat} (hp : p ∈ t.res.clusters) : p ∉ (s.raze part t).clRdy := fun h => by
  simpa [hp] using (List.mem_filter.1 h).2

/-! The hold of an incarnation. -/

theorem incarnationHoldExpiry_of_no_hold (h : smGet s.parts part = some t) (hh : t.holdUntil = none) :
    execIncarnationHoldExpiry part s = .next s := by
  simp only [execIncarnationHoldExpiry, h, hh]

section
variable {u : Nat} {new : Bool} (h : smGet s.parts part = some t)
include h

theorem incarnationHoldExpiry_of_early (hh : t.holdUntil = some (u, new)) (hu : s.time < u) :
    execIncarnationHoldExpiry part s = .next s := by
  simp only [execIncarnationHoldExpiry, h, hh, if_pos hu]

theorem incarnationHoldExpiry_of_reset (hh : t.holdUntil = some (u, false)) (hu : u ≤ s.time) :
    execIncarnationHoldExpiry part s = .next (s.modPart part fun t => { t with holdUntil := none }) := by
  simp only [execIncarnationHoldExpiry, h, hh, if_neg hu.not_gt, Bool.false_eq_true, if_false]

theorem incarnationHoldExpiry_of_create (hh : t.holdUntil = some (u, true)) (hu : u ≤ s.time) :
    execIncarnationHoldExpiry part s = .next (s.startHeld part t) := by
  simp only [execIncarnationHoldExpiry, h, hh, if_neg hu.not_gt, if_true]

end

/-- What a held CREATE cannot do without: its channels with their slices and the host port of its virtual function (R17). -/
def State.holdsNeeds (s : State) (t : Part) : Bool :=
  t.res.channels.all (fun q => s.chRdy.contains q && s.slRdy.contains q) && s.hpRdy.contains t.vfPort

theorem holdsNeeds_iff : s.holdsNeeds t = true ↔
    (∀ q ∈ t.res.channels, s.chRdy.contains q = true ∧ s.slRdy.contains q = true) ∧ s.hpRdy.contains t.vfPort = true := by
  simp only [State.holdsNeeds, Bool.and_eq_true, List.all_eq_true]

theorem holdsNeeds_eq_false
    (h : (∃ q ∈ t.res.channels, s.chRdy.contains q = false ∨ s.slRdy.contains q = false) ∨ s.hpRdy.contains t.vfPort = false) :
    s.holdsNeeds t = false := by
  refine Bool.eq_false_iff.2 fun hn => ?_
  obtain ⟨hq, hp⟩ := holdsNeeds_iff.1 hn
  rcases h with ⟨q, hmem, hc | hs⟩ | hv
  · exact absurd (hq q hmem).1 (by rw [hc]; exact Bool.false_ne_true)
  · exact absurd (hq q hmem).2 (by rw [hs]; exact Bool.false_ne_true)
  · exact absurd hp (by rw [hv]; exact Bool.false_ne_true)

theorem startHeld_of_not_ready (h : s.holdsNeeds t = false) :
    s.startHeld part t = (s.destroyQuiet part).mgmtDone part (some .notReady) := by
  have hn : (!s.holdsNeeds t) = true := by rw [h]; rfl
  exact if_pos hn

theorem startHeld_of_ready (h : s.holdsNeeds t = true) {v : State}
    (hv : v = s.modPart part fun t => { t with res := { t.res with
      slices := t.res.slices.filter s.slRdy.contains, hostPorts := t.res.hostPorts.filter s.hpRdy.contains,
      fabricPorts := t.res.fabricPorts.filter s.fpRdy.contains, shares := t.res.shares.filter s.ksRdy.contains } }) :
    s.startHeld part t = ((v.replaceUnready part t.res.clusters).goLive part).mgmtDone part none := by
  have hn : ¬ (!s.holdsNeeds t) = true := by rw [h]; exact Bool.false_ne_true
  subst hv
  exact if_neg hn

end

end Sys2Proof.Machine
end

section
/-!
The statement of spec/01_the_wafer.md: the events of resources and of a tag's life.
-/

open Sys2Proof Sys2Proof.Machine

/-- Settles O46. Each clause is the lemma above (or of Laws/Events) on the branch that its hypotheses choose; what a cold start
keeps is the model's choice (log 54). -/
theorem resourceEvents : Obligations.ResourceEvents := by
  refine ⟨⟨?coldStart, fun _ => rfl, fun _ => step_of_rail_down, ?selfTest, fun _ _ _ => selfTestPass_of_barred,
    fun _ _ _ => resourceFail_of_absent, fun _ _ => resourceFail_of_no_site (by decide),
    fun _ _ => resourceFail_of_no_site (by decide), fun _ _ => resourceFail_of_no_site (by decide),
    fun _ _ => resourceFail_of_no_site (by decide), ?cluster,
    fun _ _ hi => ⟨resourceFail_slice hi, resourceFail_channel hi, resourceFail_router hi⟩,
    fun _ _ => zeroingDone_spec, fun _ _ => zeroingDone_of_not_zeroing,
    fun _ _ _ hf hc hs _ => rowClearDone_of_pending hf hc hs, fun _ _ _ => rowClearDone_of_not_pending,
    fun _ _ _ _ _ h1 h2 => ⟨patrol_none h1 h2, fun _ => patrol_one h1 h2, patrol_free h1 h2⟩,
    fun _ _ _ _ _ => patrol_of_closed, fun _ _ _ => rfl⟩,
    fun _ _ => ⟨reset_of_no_part, fun _ => reset_of_part⟩, ?drained, ?destroy, ?hold⟩
  case coldStart => exact fun _ => ⟨_, rfl, rfl, rfl, rfl, rfl, rfl, rfl, rfl, rfl, rfl, rfl⟩
  case selfTest =>
    intro r i s hi hf hr
    refine ⟨selfTestPass_of_passed hi hf hr, ?_, fun _ => rdy_modRdy_of_ne s (nsAdd i)⟩
    rw [rdy_modRdy_self]
    exact (mem_nsAdd _ _ _).2 (.inl rfl)
  case cluster =>
    rintro s _ i hi rfl
    exact ⟨fun ho => ⟨resourceFail_of_unowned_cluster hi ho, clusterSite_mem_fenceCluster _ i⟩,
      resourceFail_of_owned_cluster hi⟩
  case drained =>
    refine fun part s => ⟨resetMeshDrained_of_no_part, fun t h => ⟨fun hw => ?_, fun hq hh hl ht u v hu hv => ?_⟩⟩
    · exact resetMeshDrained_of_notDrained h (notDrained_iff.2 hw)
    · have hd : s.notDrained part t = false := by
        simp only [State.notDrained, hq, hh, hl, ht.not_gt]
        rfl
      exact resetMeshDrained_of_drained h hd hu hv
  case destroy =>
    refine fun part s => ⟨destroy_of_no_part, fun t h => ⟨destroy_of_part h, ?_, ?_⟩⟩
    · rintro u _ hu rfl
      rw [State.destroy_eq_raze h]
      exact ⟨raze_leftCells hu, raze_cells hu⟩
    · rw [State.destroy_eq_raze h]
      exact fun _ => raze_clRdy
  case hold =>
    refine fun part s t h => ⟨incarnationHoldExpiry_of_no_hold h, fun _ _ => incarnationHoldExpiry_of_early h,
      fun _ => incarnationHoldExpiry_of_reset h, fun u hh hu => ?_⟩
    have hs : exec (.incarnationHoldExpiry part) s = .next (s.startHeld part t) := incarnationHoldExpiry_of_create h hh hu
    refine ⟨fun hn => ?_, fun hc hv v hvv => ?_⟩
    · rw [hs, startHeld_of_not_ready (holdsNeeds_eq_false hn)]
    · rw [hs, startHeld_of_ready (holdsNeeds_iff.2 ⟨hc, hv⟩) hvv]
end

section
/-!
The code words of spec/02_clauses_and_encoding.md: what a mapping record's words are, and a word that no operation has.
-/

namespace Sys2Proof.Machine

theorem encode_of_mapFields {i : Instr} {cmd part : Nat} {m : MapCmd} (h : i.mapFields? = some (cmd, part, m)) :
    encode i = m.words cmd := by
  have hm := mapFields_instr h
  unfold mapInstr at hm
  split at hm
  all_goals cases hm
  all_goals rfl

theorem decodeSlot_of_unlisted {w : W64} (lit : W64) (h : Op.ofCode (w.extractLsb' 54 10).toNat = none) :
    decodeSlot w lit = .error (.unlistedOpcode (w.extractLsb' 54 10).toNat) := by
  rw [decodeSlot, h]

end Sys2Proof.Machine
end

section
/-!
The encoding checks of a slot, one equation for each of their outcomes (R42, R43).
-/

namespace Sys2Proof.Machine

variable {e : Env} {fw : Bool} {o : Op} {f : Fields}

theorem encFault_of_opcode (h : opcodeOk o f = false) : encFault e fw o f = some cIllegalOpcode := by
  rw [encFault, h]
  rfl

section
variable (ho : opcodeOk o f = true)
include ho

theorem encFault_of_privileged (hp : privileged o = true) (hf : fw = false) : encFault e fw o f = some cPriv := by
  rw [encFault, ho, hp, hf]
  rfl

variable (hp : privileged o = false ∨ fw = true)
include hp

/-- Past the word and the mode only the operands are left to judge. -/
theorem encFault_of_mode : encFault e fw o f =
    if !operandOk e o f || (decide (o = .sysrd) && !fw && decide (f.c.sel ≠ .none)) || !namedOk e o f then
      some cIllegalOperand else none := by
  have hm : (privileged o && !fw) = false := by rcases hp with h | h <;> simp [h]
  rw [encFault, ho, hm]
  rfl

theorem encFault_of_operand (h : operandOk e o f = false ∨ namedOk e o f = false) :
    encFault e fw o f = some cIllegalOperand := by
  rw [encFault_of_mode ho hp, if_pos]
  rcases h with h | h <;> simp [h]

theorem encFault_of_holder (hs : o = .sysrd) (hf : fw = false) (hc : f.c.sel ≠ .none) :
    encFault e fw o f = some cIllegalOperand := by
  rw [encFault_of_mode ho hp, if_pos]
  simp [hs, hf, hc]

theorem encFault_eq_none (h : operandOk e o f = true) (hn : namedOk e o f = true)
    (hc : o ≠ .sysrd ∨ fw = true ∨ f.c.sel = .none) : encFault e fw o f = none := by
  rw [encFault_of_mode ho hp, if_neg]
  rcases hc with hc | hc | hc <;> simp [h, hn, hc]

end

end Sys2Proof.Machine
end

section
/-!
The special functions: their results are posted as `sfuSlot` enters them (R201).
-/

namespace Sys2Proof.Machine

/-- Whatever special function runs as `sfuSlot`: the result is posted and awaited. -/
theorem sfu_posts {o : Op} {c : Fields → Instr} (he : ∀ f s, exec (c f) s = sfuSlot o f s) : SfuPosts o c :=
  fun f s _ h => slot_posts h (he f s) rfl (stands_of_cohort h (ready_cohort h))

end Sys2Proof.Machine
end

section
/-!
The statements of spec/02_clauses_and_encoding.md that speak of words, of the checks of a slot, and of the instructions that
compute in their slot.
-/

open Sys2Proof Sys2Proof.Machine

/-- Settles O55: the decoder is a function, and these are its values. -/
theorem decodeSamples : Obligations.DecodeSamples :=
  ⟨rfl, rfl, rfl, rfl, rfl, rfl, rfl, rfl, rfl, rfl, rfl, rfl, rfl, rfl, rfl⟩

/-- Settles O56: slot words both ways (`decode_encode`, `decodeSlot_head`), and the records of the seven commands
(`record_words`). -/
theorem encodeDecodeAgree : Obligations.EncodeDecodeAgree := by
  refine ⟨fun _ _ _ => decode_encode, fun i cmd part m h => ?_, fun _ _ _ => decodeSlot_head, fun _ => decodeSlot_of_unlisted⟩
  rw [encode_of_mapFields h]
  exact ⟨rfl, record_words (mapFields_instr h)⟩

/-- Settles O58: a slot that does not open ends as `openSlot` leaves it (`exec_error`), and the check gives the first rule
broken (`encFault_of_…`). -/
theorem slotFaults : Obligations.SlotFaults := by
  refine ⟨fun i o f s b hi hcur hh hr hc hco => ⟨fun e he => ?word, fun he hp => ?predicate⟩, fun i o f s k hi hcur hh => ?halted,
    fun e fw o f => ⟨encFault_of_opcode, encFault_of_privileged, fun ho hp =>
      ⟨encFault_of_operand ho hp, encFault_of_holder ho hp, encFault_eq_none ho hp⟩⟩⟩
  case word => exact exec_error hi (openSlot_enc hcur hh hr hc hco he)
  case predicate => exact exec_error hi (openSlot_pred hcur hh hr hc hco he hp)
  case halted => exact exec_error hi (openSlot_halted hcur hh)

/-- Settles O1: each form is a slot whose lanes get a value of their operands (`computes`). -/
theorem integerArithmeticResults : Obligations.IntegerArithmeticResults := by
  refine ⟨?add, ?sub, ?mul, ?mad, ?min, ?max, ?abs, ?neg, ?mulh⟩
  all_goals exact computes fun _ _ => rfl

/-- Settles O20. Every special function is `sfuSlot` of its operation. At the inputs of the table no value is free: the model's
functions meet them before they enclose a result, so that each row is a closed computation (R163). -/
theorem specialFunctionResults : Obligations.SpecialFunctionResults := by
  refine ⟨?posts, ?_, ?_, ?_, ?_, ?_, ?_, ?_, ?_, ?_, ?_, ?_, ?_, ?_, ?_, ?_, ?_, ?_, ?_, ?_, ?_, ?_, ?_⟩
  case posts =>
    refine ⟨?_, ?_, ?_, ?_, ?_, ?_, ?_, ?_, ?_, ?_, ?_⟩
    all_goals exact sfu_posts fun _ _ => rfl
  all_goals decide
end

section
/-!
Special registers: what `sysrd` reads, what `syswr` leaves of a register, and `icinv` (R143, R144, R438, R439).
-/

namespace Sys2Proof.Machine

section
variable {s : State} {x : Slot} {i : Fin 32}

theorem sysFault_of_ok {v : W64} (h : s.sysRead x i = .ok v) : s.sysFault x i = none := by
  rw [State.sysFault, h]

theorem forL_sysrdLane {m : BitVec 32} {val : Fin 32 → W64}
    (h : ∀ l : Fin 32, m.getLsbD l = true → s.sysRead x l = .ok (val l)) :
    forL (lanesOf m) [] (sysrdLane s x) = laneResults m fun i => { val := [val i], p := false } :=
  forL_congr fun l hl _ => by rw [sysrdLane, h l ((mem_lanesOf _ _).1 hl)]

section
variable (hp : (x.a[i]).p = false) (hc : x.f.c.sel = .none)
include hp hc

/-- A clean operand and no holder operand pass the check of poison. -/
theorem sysRead_clean : ¬ ((x.a[i]).p || (decide (x.f.c.sel ≠ .none) && (x.c[i]).p)) = true := by
  rw [hp, hc]
  exact Bool.false_ne_true

/-- A tenant's read of a firmware register: the model's choice between R143 and R2 (log 41). -/
theorem sysRead_of_tenant (ht : x.crew.part ≠ Config.svcTag) (hlo : 0x100 ≤ (x.a[i]).lo.toNat)
    (hhi : (x.a[i]).lo.toNat ≤ 0xFFF) : s.sysRead x i = .error cPriv := by
  simp only [State.sysRead, if_neg (sysRead_clean hp hc)]
  exact if_pos ⟨ht, hlo, hhi⟩

theorem sysRead_of_unlisted (hlo : (x.a[i]).lo.toNat < 0x100) (hn : specHeld (x.a[i]).lo.toNat = none) :
    s.sysRead x i = .error cIllegalOperand := by
  simp only [State.sysRead, if_neg (sysRead_clean hp hc)]
  rw [if_neg fun h => absurd h.2.1 hlo.not_ge, hn]

/-- The quick specials held for the wafer or for the thread itself (R143). -/
theorem sysRead_of_quick {n : Nat} {h : Held} (hn : (x.a[i]).lo.toNat = n) (hlo : n < 0x100) (hh : specHeld n = some h)
    (hk : h = .wafer ∨ h = .own) : s.sysRead x i = .ok (s.specReg x i n h 0) := by
  have hpart : h ≠ .part := by rcases hk with rfl | rfl <;> decide
  have hholder : s.holder x (x.hold i) h = some 0 := by rcases hk with rfl | rfl <;> rfl
  simp only [State.sysRead, if_neg (sysRead_clean hp hc), hn]
  rw [if_neg fun h => absurd h.2.1 hlo.not_ge, hh]
  simp only [hpart, false_and, if_false, hholder]

end

theorem sysrd_awaits {f : Fields} {b : At} (h : SlotReady .sysrd f s b) {val : Fin 32 → W64}
    (hv : ∀ l : Fin 32, (b.slot .sysrd f s).ex.getLsbD l = true → s.sysRead (b.slot .sysrd f s) l = .ok (val l)) :
    ∃ u, exec (.sysrd f) s = .next ((u.settlePend s.nextId).slotLanes (b.slot .sysrd f s)
        (laneFilter (b.slot .sysrd f s).ex fun i => decide (((b.slot .sysrd f s).a[i]).lo.toNat = 0x02C))
          fun _ th => { th with latch := BitVec.ofNat 64 s.time }) ∧
      RegFrame (s.addPend ((b.slot .sysrd f s).pend 2 (b.slot .sysrd f s).ex 0
        (laneResults (b.slot .sysrd f s).ex fun i => { val := [val i], p := false }))) u (b.slot .sysrd f s) true ∧
      ∀ l : Fin 32, (b.slot .sysrd f s).ex.getLsbD l = true → Awaited u (b.slot .sysrd f s) l s.nextId := by
  have hfault : (b.slot .sysrd f s).faults (s.sysFault (b.slot .sysrd f s)) = [] :=
    slot_faults_none fun l hl => sysFault_of_ok (hv l hl)
  have hrun : exec (.sysrd f) s = _ := runSlot_ready h _
  simp only [hfault, done_nil, forL_sysrdLane hv] at hrun
  obtain ⟨_, _, hst⟩ := stands_of_cohort (e := s.addPend ((b.slot .sysrd f s).pend 2 (b.slot .sysrd f s).ex 0
    (laneResults (b.slot .sysrd f s).ex fun i => { val := [val i], p := false }))) h (ready_cohort h)
  exact ⟨_, hrun, finishSlot_frame hst (.late s.nextId true), fun l hl => finishSlot_awaited hst s.nextId true l hl⟩

end

/-! Writes. -/

@[simp] theorem live_sysWrite (s : State) (h : Held) (k n : Nat) (v : W64) (i j : Nat) :
    live (s.sysWrite h k n v).crews i j = live s.crews i j := by
  cases h with
  | slice | cluster =>
    simp only [State.sysWrite]
    split <;> rfl
  | wafer | part | zone | service | own => rfl

/-- The whole 64-bit value is compared with a field's range: the model's choice (R438, log 22). -/
theorem inRange_toNat (v old : W64) (lo hi : Nat) :
    inRange v.toNat lo hi old = if lo ≤ v.toNat ∧ v.toNat ≤ hi then v else old := by
  rw [inRange, BitVec.ofNat_toNat, BitVec.setWidth_eq]

theorem icinv_acts {f : Fields} {s : State} {b : At} (h : SlotReady .icinv f s b)
    (hf : ∀ l : Fin 32, (b.slot .icinv f s).ex.getLsbD l = true → (b.slot .icinv f s).icinvFault l = none) :
    ∃ u, exec (.icinv f) s = .next (forL (lanesOf (b.slot .icinv f s).ex) u (icinvLane (b.slot .icinv f s))) ∧
      RegFrame s u (b.slot .icinv f s) false := by
  have hrun : exec (.icinv f) s = _ := runSlot_ready h _
  simp only [slot_faults_none hf, done_nil] at hrun
  exact ⟨_, hrun, finishSlot_frame (slot_stands h) .none⟩

theorem icinvFault_eq_none {x : Slot} {i : Fin 32} (ha : (x.a[i]).p = false) (hb : (x.b[i]).p = false)
    (hr : (x.b[i]).lo.toNat = 0 ∨ addrFault ((x.a[i]).v.toNat : Int) (x.b[i]).lo.toNat 0 = none) : x.icinvFault i = none := by
  rw [Slot.icinvFault, ha, hb, if_neg (by decide)]
  rcases hr with h0 | hr
  · rw [if_pos h0]
  · rw [hr]
    exact ite_self none

end Sys2Proof.Machine
end

section
/-!
The statement of spec/02_clauses_and_encoding.md on `sysrd`, `syswr` and `icinv`.
-/

open Sys2Proof Sys2Proof.Machine

/-- Settles O40: `sysrd` by what a lane reads (`sysRead_of_…`), `syswr` lane by lane (`actsInTurn`), `icinv` by its frame. -/
theorem specialRegisterInstructions : Obligations.SpecialRegisterInstructions := by
  refine ⟨fun f s b h val hv => sysrd_awaits h hv, fun s x i hp hc => ?read, ?write, fun _ _ _ _ => ⟨rfl, rfl, rfl⟩, fun p v => ?reg,
    fun f s b h hf => icinv_acts h fun l hl => ?inv⟩
  case read =>
    have quick {n : Nat} {h : Held} (hh : specHeld n = some h) (hlo : n < 0x100) (hk : h = .wafer ∨ h = .own)
        (hn : (x.a[i]).lo.toNat = n) : s.sysRead x i = .ok (s.specReg x i n h 0) := sysRead_of_quick hp hc hn hlo hh hk
    exact ⟨sysRead_of_tenant hp hc, sysRead_of_unlisted hp hc, quick rfl (by decide) (.inl rfl),
      quick rfl (by decide) (.inr rfl), quick rfl (by decide) (.inr rfl), quick rfl (by decide) (.inr rfl),
      quick rfl (by decide) (.inr rfl)⟩
  case write =>
    refine actsInTurn (ad := fun _ x i => (x.a[i]).lo.setWidth 64) (fun _ _ => rfl) fun _ x i s t a b h => ?_
    split at h
    · cases h
    split at h
    · cases h
    · cases h
    · split at h
      · cases h
      · cases h
        exact live_sysWrite ..
  case reg => simp [Part.setReg, inRange_toNat]
  case inv =>
    obtain ⟨ha, hb, hr⟩ := hf l hl
    exact icinvFault_eq_none ha hb hr
end

section
/-!
The events of clauses: the choice of a clause and the errors of storage on the way (R304, R339, R372), the end of a debug stop
(R386), of a region (R366), of a failing cluster's stay (R13, R373) and of a time slice (R404), one equation per case.
-/

namespace Sys2Proof.Machine

/-! BUNDLE_SELECT. -/

section
variable {s : State} {k : Nat}

theorem storageError_cases (s : State) (k : Nat) :
    s.storageError k = s ∨ ∃ place word, s.storageError k = s.spoil k place word := by
  unfold State.storageError
  split
  · exact .inl rfl
  · exact .inr ⟨_, _, rfl⟩

theorem spoil_of_thread {place word cid co : Nat} {c : Crew} {h : Cohort}
    (hp : ((s.silentError (k / 6) 4).sliceCohorts k)[place]? = some (cid, co, c, h)) :
    s.spoil k place word = (s.silentError (k / 6) 4).modThread cid co (word / 80 % 32) fun th =>
      if word % 80 < 64 then { th with v := th.v.setIfInBounds (word % 80) { (th.v[word % 80]?.getD default) with p := true } }
      else { th with q := th.q.modify (word % 80 - 64) fun e => { e with p := true } } := by
  simp only [State.spoil, hp]

theorem spoil_of_no_cohort {place word : Nat} (hp : ((s.silentError (k / 6) 4).sliceCohorts k)[place]? = none) :
    s.spoil k place word = { s.silentError (k / 6) 4 with
      memPz := nsAdd ((stashAddr (k / 6) 0 + 8 * word % Config.stashBytes) / 8) (s.silentError (k / 6) 4).memPz } := by
  simp only [State.spoil, hp]

theorem bundleSelect_of_run (h : (s.issue k).run.isSome = true) : s.bundleSelect k = s := if_pos h

section
variable (hn : (s.issue k).run = none)
include hn

theorem bundleSelect_of_readyRun {cid co : Nat} {r : Run} (hr : s.readyRun k = some (cid, co, r)) :
    s.bundleSelect k =
      (s.modCohort cid co fun h => { h with parked := none, ready := false }).modIssue k fun i => { i with run := some r } := by
  simp only [State.bundleSelect, hn, Option.isSome_none, Bool.false_eq_true, if_false, hr]

variable (hr : s.readyRun k = none)
include hr

theorem bundleSelect_of_due {t : State} (hd : (s.releaseSlice k).sliceDue k = some t) : s.bundleSelect k = t := by
  simp only [State.bundleSelect, hn, Option.isSome_none, Bool.false_eq_true, if_false, hr, hd]

theorem bundleSelect_of_no_due (hd : (s.releaseSlice k).sliceDue k = none) :
    s.bundleSelect k = (s.releaseSlice k).selectClause k := by
  simp only [State.bundleSelect, hn, Option.isSome_none, Bool.false_eq_true, if_false, hr, hd]

end

section
variable {t : State} {l : List Cand} (hg : s.gather k = (t, l))
include hg

theorem selectClause_of_no_choice (hc : (t.noteCands k l).chosen k l = none) : s.selectClause k = t.noteCands k l := by
  simp only [State.selectClause, hg, hc]

theorem selectClause_of_choice {c : Cand} {h : Cohort} (hc : (t.noteCands k l).chosen k l = some c)
    (hh : (t.noteCands k l).cohort? c.cid c.co = some h) :
    s.selectClause k =
      ((t.noteCands k l).noteAwake c.cid).startClause k c h (bundleLanes (t.noteCands k l).tick h c) := by
  simp only [State.selectClause, hg, hc, hh]

end

end

/-! DEBUG_RESUME. -/

section
variable {s : State} {cid : Nat}

theorem debugResume_of_stopped {c : Crew} (h : smGet s.crews cid = some c) (hst : c.st = .debug) (hl : c.leaving = none) :
    execDebugResume cid s = .next (s.modCrew cid fun c => { c with st := .running }) := by
  simp only [execDebugResume, h, hst, hl, decide_true, Option.isNone_none, Bool.and_true, if_true]

theorem debugResume_of_other (h : ∀ c, smGet s.crews cid = some c → c.st ≠ .debug) : execDebugResume cid s = .next s := by
  cases hc : smGet s.crews cid with
  | none => simp only [execDebugResume, hc]
  | some c => simp only [execDebugResume, hc, h c hc, decide_false, Bool.false_and, Bool.false_eq_true, if_false]

end

/-! REGION_CLOSE. -/

section
variable {s : State} {cid co : Nat} {h : Cohort} (hh : s.cohort? cid co = some h)
include hh

theorem regionClose_of_no_close (hc : h.closing = false) : execRegionClose cid co s = .next s := by
  simp only [execRegionClose, hh, hc, Bool.not_false, if_true]

variable (hc : h.closing = true)
include hc

theorem regionClose_of_wait (hd : s.closeDecision cid co h.closeOwn = .wait) : execRegionClose cid co s = .next s := by
  simp only [execRegionClose, hh, hc, Bool.not_true, Bool.false_eq_true, if_false, hd]

theorem regionClose_of_restart (hd : s.closeDecision cid co h.closeOwn = .restart) :
    execRegionClose cid co s = .next
      ((s.suspectRestart cid co).modCohort cid co fun h => { h with closing := false, closeOwn := none }) := by
  simp only [execRegionClose, hh, hc, Bool.not_true, Bool.false_eq_true, if_false, hd, id]

theorem regionClose_of_parked (hd : s.closeDecision cid co h.closeOwn = .commit) (hp : h.parked.isSome = true) :
    execRegionClose cid co s = .next ((s.commitRegion cid co h.rgn.reopen).modCohort cid co fun h =>
      { h with closing := false, closeOwn := none, ready := true }) := by
  simp only [execRegionClose, hh, hc, Bool.not_true, Bool.false_eq_true, if_false, hd, hp, if_true]

theorem regionClose_of_clause_end (hd : s.closeDecision cid co h.closeOwn = .commit) (hp : h.parked = none) :
    execRegionClose cid co s = .next (((s.commitRegion cid co h.rgn.reopen).modCohort cid co fun h =>
      { h with closing := false, closeOwn := none }).enterTraps cid co) := by
  simp only [execRegionClose, hh, hc, Bool.not_true, Bool.false_eq_true, if_false, hd, hp, Option.isSome_none, id]

end

/-! CLUSTER_FAILING. -/

section
variable {s : State} {p : Nat}

theorem clusterFailing_of_sound (h : (s.cluster p).silent < 2 ∨ Config.clusters ≤ p) : execClusterFailing p s = .next s := by
  have hb : (decide ((s.cluster p).silent < 2) || decide (Config.clusters ≤ p)) = true := by
    simpa only [Bool.or_eq_true, decide_eq_true_eq] using h
  exact congrArg _ (if_pos hb)

section
variable (hs : 2 ≤ (s.cluster p).silent) (hp : p < Config.clusters)
include hs hp

/-- A second silent error of a cluster of the wafer. -/
theorem failing_not_idle : ¬ (decide ((s.cluster p).silent < 2) || decide (Config.clusters ≤ p)) = true := by
  simp only [Bool.or_eq_true, decide_eq_true_eq, not_or]
  exact ⟨hs.not_gt, hp.not_ge⟩

theorem clusterFailing_of_unowned (ho : s.ownerOf p = none) :
    execClusterFailing p s = .next
      (((s.logSvc cClusterFailing p 0 0).fenceCluster p).modCluster p fun c => { c with silent := 0 }) := by
  simp only [execClusterFailing, if_neg (failing_not_idle hs hp), ho]

end

section
variable {tag : Nat} {t : Part} (hp : p < Config.clusters) (ho : s.ownerOf p = some tag) (ht : smGet s.parts tag = some t)
  (hq : t.qst ≠ 1) (hr : t.reshape = none)
include hp ho ht hq hr

/-- The second error: the record is posted and the crews begin to leave. -/
theorem clusterFailing_of_second (h2 : (s.cluster p).silent = 2) :
    execClusterFailing p s = .next
      (forL (s.residents p) ((s.postInfo tag cClusterFailing 0 0).modCluster p fun c => { c with silent := 3 }) fun x s =>
        if x.2.leaving.isNone then s.beginLeave x.1 .save else s) := by
  simp only [execClusterFailing, if_neg (failing_not_idle h2.ge hp), ho, ht, hq, hr, decide_false, Option.isSome_none,
    Bool.or_false, Bool.false_eq_true, if_false]
  exact congrArg _ (if_pos h2)

/-- After it the crews go on leaving, and with the last of them the cluster is replaced. -/
theorem clusterFailing_of_later (h2 : 2 < (s.cluster p).silent) {u : State}
    (hu : u = forL (s.residents p) s fun x s => if x.2.leaving.isNone then s.beginLeave x.1 .save else s.stepLeave x.1) :
    execClusterFailing p s = .next
      (if (u.residents p).all fun x => x.2.leaving = some .save && u.leaveReady x.1 then
        (forL (u.residents p) u fun x s => if (Config.random u.tick).getLsbD 0 = true then s.loseCrew x.1 cClusterFailing
          else s.saveCrew x.1 .saved).replaceCluster tag p
      else u) := by
  subst hu
  simp only [execClusterFailing, if_neg (failing_not_idle h2.le hp), ho, ht, hq, hr, h2.ne', decide_false, Option.isSome_none,
    Bool.or_false, Bool.false_eq_true, if_false]

end

end

/-! SLICE_END. -/

section
variable {s : State} {part : Nat} {t : Part} (h : smGet s.parts part = some t)
include h

theorem sliceEnd_of_unsliced (hn : t.pmode.getLsbD 63 = false ∨ t.qst ≠ 0) : execSliceEnd part s = .next s := by
  have hb : (!t.pmode.getLsbD 63 || decide (t.qst ≠ 0)) = true := by
    simpa only [Bool.or_eq_true, Bool.not_eq_true', decide_eq_true_eq] using hn
  simp only [execSliceEnd, h]
  exact congrArg _ (if_pos hb)

variable (hts : t.pmode.getLsbD 63 = true) (hq : t.qst = 0)
include hts hq

section
variable (hr : t.reshape = some .sliceEnd)
include hr

theorem sliceEnd_of_drained (hd : s.allDrained part = true) : execSliceEnd part s = .next (s.switchCtx part t) := by
  simp [execSliceEnd, h, hts, hq, hr, hd]

theorem sliceEnd_of_draining (hd : s.allDrained part = false) : execSliceEnd part s = .next (s.leaveAll part) := by
  simp [execSliceEnd, h, hts, hq, hr, hd]

end

variable (hr : t.reshape ≠ some .sliceEnd)
include hr

theorem sliceEnd_of_due (hd : t.sliceAt + 1000 * fld t.pmode 49 30 ≤ s.time) :
    execSliceEnd part s = .next ((s.modPart part fun t => { t with reshape := some .sliceEnd }).leaveAll part) := by
  simp [execSliceEnd, h, hts, hq, hr, hd]

theorem sliceEnd_of_no_other (hd : s.time < t.sliceAt + 1000 * fld t.pmode 49 30)
    (ho : ∀ c < t.contexts, c ≠ t.ctxNow → s.ctxWork part c = false) :
    execSliceEnd part s = .next (s.modPart part fun t => { t with idleSince := none }) := by
  have hother : ((List.range t.contexts).any fun c => decide (c ≠ t.ctxNow) && s.ctxWork part c) = false := by
    refine List.any_eq_false.2 fun c hc => ?_
    simp only [Bool.and_eq_true, decide_eq_true_eq, not_and, Bool.not_eq_true]
    exact ho c (List.mem_range.1 hc)
  simp only [execSliceEnd, h, hts, hq, hr, hother, hd.not_ge, ne_eq, not_true_eq_false, decide_false, Bool.not_true,
    Bool.false_and, Bool.or_false, Bool.false_eq_true, if_false]

end

end Sys2Proof.Machine
end

section
/-!
The statement of spec/02_clauses_and_encoding.md on the events of clauses.
-/

open Sys2Proof Sys2Proof.Machine

/-- Settles O44. Each clause is the lemma above on the branch that its hypotheses choose; what a started clause leaves is
`startClause_spec`. -/
theorem clauseEvents : Obligations.ClauseEvents := by
  refine ⟨⟨fun s k => ?select, startClause_spec, fun s cid c => debugResume_of_stopped, fun s cid => debugResume_of_other,
    fun s cid co h hh => ?close, fun s p => ?failing⟩, fun part s t h => ?slice⟩
  case select =>
    refine ⟨rfl, storageError_cases s k, ?spoil, bundleSelect_of_run, fun hn _ _ _ => bundleSelect_of_readyRun hn,
      fun hn hr => ⟨fun _ => bundleSelect_of_due hn hr, ?choice⟩⟩
    case spoil =>
      rintro place word _ rfl
      exact ⟨fun _ _ _ _ => spoil_of_thread, spoil_of_no_cohort⟩
    case choice =>
      rintro hd t _ l hg rfl
      rw [bundleSelect_of_no_due hn hr hd]
      exact ⟨selectClause_of_no_choice hg, fun _ _ => selectClause_of_choice hg⟩
  case close =>
    exact ⟨regionClose_of_no_close hh, fun hc => ⟨regionClose_of_wait hh hc, regionClose_of_restart hh hc,
      fun hd => ⟨regionClose_of_parked hh hc hd, regionClose_of_clause_end hh hc hd⟩⟩⟩
  case failing =>
    refine ⟨clusterFailing_of_sound, clusterFailing_of_unowned, fun tag t hp ho ht hq hr =>
      ⟨clusterFailing_of_second hp ho ht hq hr, fun h2 u hu => ?_⟩⟩
    have he : exec (.clusterFailing p) s = _ := clusterFailing_of_later hp ho ht hq hr h2 hu
    exact ⟨fun hl => by rw [he, if_neg (by rw [hl]; exact Bool.false_ne_true)], fun hl => by rw [he, if_pos hl]⟩
  case slice =>
    exact ⟨sliceEnd_of_unsliced h, fun hts hq => ⟨sliceEnd_of_drained h hts hq, sliceEnd_of_draining h hts hq,
      fun hr => ⟨sliceEnd_of_due h hts hq hr, sliceEnd_of_no_other h hts hq hr⟩⟩⟩
end

section
/-!
RESULT_DELIVERY: a result that is missing, a fence, a special function behind an earlier one, and any other (R23, R202, R243).
-/

namespace Sys2Proof.Machine

variable {s : State} {id : Nat}

theorem resultDelivery_of_no_result (h : smGet s.pends id = none) : execResultDelivery id s = .next s := by
  simp only [execResultDelivery, h]

variable {p : Pend} (h : smGet s.pends id = some p)
include h

theorem resultDelivery_of_fence (hf : p.fence.isSome = true) : execResultDelivery id s = .next (s.advanceFence id) := by
  simp only [execResultDelivery, h, hf, if_true]

variable (hf : p.fence = none)
include hf

theorem resultDelivery_of_behind (hb : s.behindSfu id p = true) : execResultDelivery id s = .next s := by
  simp only [execResultDelivery, h, hf, Option.isSome_none, Bool.false_eq_true, if_false, hb, if_true]

theorem resultDelivery_of_first (hb : s.behindSfu id p = false) : execResultDelivery id s = .next (s.deliver id p) := by
  simp only [execResultDelivery, h, hf, Option.isSome_none, Bool.false_eq_true, if_false, hb]

end Sys2Proof.Machine
end

section
/-!
The statement of spec/02_clauses_and_encoding.md on the delivery of results.
-/

open Sys2Proof Sys2Proof.Machine

/-- Settles O45: what the delivery of a result leaves in the threads is `deliver_spec`. -/
theorem resultDelivery : Obligations.ResultDelivery := by
  refine ⟨fun _ _ => resultDelivery_of_no_result, fun _ _ _ => resultDelivery_of_fence, fun _ _ _ => resultDelivery_of_behind,
    fun s id p h hp hf hu hb hd hbehind hh => ?_⟩
  obtain ⟨h', hcoh, hmem, hknown, hrest, hpc⟩ := deliver_spec (id := id) hu hb hd hh
  exact ⟨_, h', resultDelivery_of_first hp hf hbehind, hcoh, hmem, hknown, hrest, hpc⟩
end

section
/-!
What MAP, UNMAP, PROTECT, MIGRATE and REFUSE come to (R72, R73, R82, R83): a command fails, or has its effect, and posts its record.
-/

namespace Sys2Proof.Machine

section
variable {part : Nat} {m : MapCmd} {s : State}

/-- A command of a tag without a partition changes nothing. -/
theorem mapping_of_no_part (h : smGet s.parts part = none) (r : Option State) : s.mapping part m r = s := by
  simp only [State.mapping, h, Option.isNone_none, if_true]

theorem acquire_of_no_part (h : smGet s.parts part = none) : execAcquire part m s = .next s := by
  simp only [execAcquire, h, Option.isNone_none, if_true]

theorem migrate_of_no_part (h : smGet s.parts part = none) : execMigrate part m s = .next s := by
  simp only [execMigrate, h]

end

section
variable {part : Nat} {m : MapCmd} {s : State} (h : (smGet s.parts part).isSome = true)
include h

/-! MAP. -/

theorem map_of_refused (hr : m.frame.toNat % sizeGranules m.size.toNat ≠ 0 ∨
      s.cellsOwned part m.frame.toNat (sizeGranules m.size.toNat) = false ∨ s.leaves (m.asid part) m.lo m.hi ≠ []) :
    execMap part m s = .next (s.mapDone part m (failCode m.size.toNat)) := by
  have hnone : s.mapPage part m = none := by
    unfold State.mapPage
    rw [if_pos]
    rcases hr with hr | hr | hr <;> simp [hr]
  exact congrArg _ (mapping_none' h hnone)

theorem map_of_path {t u : State} {root cell : Nat} (hf : m.frame.toNat % sizeGranules m.size.toNat = 0)
    (ho : s.cellsOwned part m.frame.toNat (sizeGranules m.size.toNat) = true) (hl : s.leaves (m.asid part) m.lo m.hi = [])
    (hroot : s.makeRoot (m.asid part) = some (t, root))
    (hpath : t.tablePath m.lo (sizeLevel m.size.toNat) 5 root = some (u, cell))
    (hentry : (u.word64 (pteAddr cell (pteIdx (sizeLevel m.size.toNat) m.lo))).getLsbD 0 = false ∨ sizeLevel m.size.toNat = 1) :
    execMap part m s = .next (State.mapDone ((((u.applyBounce (m.asid part) m m.frame.toNat).writeLeaf cell m m.frame.toNat
      (m.fl.getLsbD 3) (m.fl.getLsbD 2) (m.fl.getLsbD 1) (m.fl.getLsbD 0)).dropWalks (m.asid part)).wakePage
        (m.asid part) m.lo m.hi) part m 0) := by
  refine congrArg _ (mapping_some' h ?_)
  unfold State.mapPage
  have hok : ¬ (decide (m.frame.toNat % sizeGranules m.size.toNat ≠ 0) ||
      !s.cellsOwned part m.frame.toNat (sizeGranules m.size.toNat) ||
      !(s.leaves (m.asid part) m.lo m.hi).isEmpty) = true := by simp [hf, ho, hl]
  have hkept : ¬ (decide (sizeLevel m.size.toNat ≠ 1) &&
      (u.word64 (pteAddr cell (pteIdx (sizeLevel m.size.toNat) m.lo))).getLsbD 0 &&
      !(u.word64 (pteAddr cell (pteIdx (sizeLevel m.size.toNat) m.lo))).getLsbD 1) = true := by
    rcases hentry with he | he
    · rw [he]; simp
    · simp [he]
  simp only [if_neg hok, hroot, hpath, if_neg hkept]

/-! UNMAP and PROTECT. -/

theorem unmap_of_no_leaf (hl : s.pageLeaves (m.asid part) m = []) :
    execUnmap part m s = .next (s.mapDone part m (failCode m.size.toNat)) :=
  congrArg _ (mapping_none' h (by simp only [hl]))

theorem protect_of_no_leaf (hl : s.pageLeaves (m.asid part) m = []) :
    execProtect part m s = .next (s.mapDone part m (failCode m.size.toNat)) :=
  congrArg _ (mapping_none' h (by simp only [hl]))

section
variable {y : Leaf} {l : List Leaf} (hl : s.pageLeaves (m.asid part) m = y :: l)
include hl

theorem unmap_of_leaves : execUnmap part m s = .next
    ((((s.clearLeaves (y :: l)).flushPage (m.asid part) m.lo m.hi).orphanPage (m.asid part) m.lo m.hi).mapDone part m 0) :=
  congrArg _ (mapping_some' h (by simp only [hl]))

theorem protect_of_downgrade (hd : isDowngrade (y :: l) (m.fl.getLsbD 3) (m.fl.getLsbD 2) (m.fl.getLsbD 1) = true) :
    execProtect part m s = .next ((forL (y :: l) ((s.clearLeaves (y :: l)).flushPage (m.asid part) m.lo m.hi)
      fun z s => s.setPte z.addr (leafWith z.e (m.fl.getLsbD 3) (m.fl.getLsbD 2) (m.fl.getLsbD 1))).mapDone part m 0) :=
  congrArg _ (mapping_some' h (by simp only [hl, hd, if_true]))

theorem protect_of_upgrade (hd : isDowngrade (y :: l) (m.fl.getLsbD 3) (m.fl.getLsbD 2) (m.fl.getLsbD 1) = false) :
    execProtect part m s = .next (((forL (y :: l) s
      fun z s => s.setPte z.addr (leafWith z.e (m.fl.getLsbD 3) (m.fl.getLsbD 2) (m.fl.getLsbD 1))).dropWalks
        (m.asid part) |>.upgradePage (m.asid part) m.lo m.hi (m.fl.getLsbD 3) (m.fl.getLsbD 2) (m.fl.getLsbD 1)).mapDone part m 0) :=
  congrArg _ (mapping_some' h (by simp only [hl, hd, Bool.false_eq_true, if_false]))

end

/-! REFUSE. -/

theorem refuse_of_nothing (hr : (m.cause ≠ cPageNotPresent ∧ m.cause ≠ cPagePerm) ∨
      s.waitsFor (m.asid part) (vpnOf m.va) (vpnOf m.va + 1) = false) :
    execRefuse part m s = .next (s.mapDone part m (failCode m.size.toNat)) := by
  refine congrArg _ (mapping_none' h (if_pos ?_))
  rcases hr with ⟨hp, hq⟩ | hr
  · simp [hp, hq]
  · simp [hr]

theorem refuse_of_pending (hc : m.cause = cPageNotPresent ∨ m.cause = cPagePerm)
    (hw : s.waitsFor (m.asid part) (vpnOf m.va) (vpnOf m.va + 1) = true) :
    execRefuse part m s = .next ((((((s.refuseFetches (m.asid part) (vpnOf m.va) (vpnOf m.va + 1) m.cause).dropWaits
      (m.asid part) (vpnOf m.va) (vpnOf m.va + 1)).refuseRequests (m.asid part) (vpnOf m.va) (vpnOf m.va + 1) m.cause).refuseInbound
      (m.asid part) (vpnOf m.va) (vpnOf m.va + 1) m.cause).refuseJobs (m.asid part) (vpnOf m.va) (vpnOf m.va + 1) m.cause).mapDone
        part m 0) := by
  refine congrArg _ (mapping_some' h (if_neg ?_))
  rcases hc with hc | hc <;> simp [hc, hw]

end

/-! MIGRATE. -/

section
variable {part : Nat} {m : MapCmd} {s : State} {t : Part} (ht : smGet s.parts part = some t)
include ht

theorem migrate_of_begun (hm : t.migr.contains m = true) :
    execMigrate part m s = .next ((s.endMigrate part m).mapDone part m 0) := by
  simp only [execMigrate, ht, hm, if_true]

variable (hm : t.migr.contains m = false)
include hm

theorem migrate_of_refused (hb : s.beginMigrate part m = none) :
    execMigrate part m s = .next (s.mapDone part m (failCode m.size.toNat)) := by
  have hpart : (smGet s.parts part).isSome = true := Option.isSome_of_eq_some ht
  simp only [execMigrate, ht, hm, hb, Bool.false_eq_true, if_false, Option.getD_none, mapping_none' hpart rfl]

theorem migrate_of_started {u : State} (hb : s.beginMigrate part m = some u) : execMigrate part m s = .next u := by
  simp only [execMigrate, ht, hm, hb, Bool.false_eq_true, if_false, Option.getD_some]

end

section
variable {part : Nat} {m : MapCmd} {s : State}

theorem beginMigrate_of_no_leaf (hl : s.pageLeaves (m.asid part) m = []) : s.beginMigrate part m = none := by
  simp only [State.beginMigrate, hl]

variable {y : Leaf} {l : List Leaf} (hl : s.pageLeaves (m.asid part) m = y :: l)
include hl

theorem beginMigrate_of_unfit (hf : m.frame.toNat % sizeGranules m.size.toNat ≠ 0 ∨
      s.cellsOwned part m.frame.toNat (sizeGranules m.size.toNat) = false) : s.beginMigrate part m = none := by
  simp only [State.beginMigrate, hl]
  exact if_pos (by rcases hf with hf | hf <;> simp [hf])

theorem beginMigrate_of_fit (hf : m.frame.toNat % sizeGranules m.size.toNat = 0)
    (ho : s.cellsOwned part m.frame.toNat (sizeGranules m.size.toNat) = true) : ∃ u, s.beginMigrate part m = some u := by
  simp only [State.beginMigrate, hl]
  exact ⟨_, if_neg (by simp [hf, ho])⟩

end

end Sys2Proof.Machine
end

section
/-!
The statement of spec/03_memory_and_translation.md on the mapping commands.
-/

open Sys2Proof Sys2Proof.Machine

/-- Settles O48. Each clause is the lemma of its command on the branch that its hypotheses choose; the cells that ACQUIRE and RELEASE
change are `acquire_spec` and `release_spec`, the bits that PROTECT writes `leafWith_spec`. -/
theorem mappingCommands : Obligations.MappingCommands := by
  refine ⟨?absent, fun _ _ _ => acquire_spec, fun _ _ _ => release_spec, ?map, ?leaves, ?refuse, leafWith_spec⟩
  case absent =>
    intro part m s h
    have hall : ∀ r, Host.Outcome.next (s.mapping part m r) = (.next s : Host.Outcome State Fault Refusal) :=
      fun r => congrArg _ (mapping_of_no_part h r)
    exact ⟨acquire_of_no_part h, hall _, hall _, hall _, hall _, migrate_of_no_part h, hall _⟩
  case map => exact fun _ _ _ h => ⟨map_of_refused h, fun _ _ _ _ => map_of_path h⟩
  case leaves =>
    intro part m s h
    refine ⟨fun hl => ⟨unmap_of_no_leaf h hl, protect_of_no_leaf h hl,
      fun t ht hm => migrate_of_refused ht hm (beginMigrate_of_no_leaf hl)⟩, fun t ht => migrate_of_begun ht, fun y l hl => ?_⟩
    refine ⟨unmap_of_leaves h hl, protect_of_downgrade h hl, protect_of_upgrade h hl, fun t ht hm => ⟨fun hf => ?_, fun hf ho => ?_⟩⟩
    · exact migrate_of_refused ht hm (beginMigrate_of_unfit hl hf)
    · obtain ⟨u, hu⟩ := beginMigrate_of_fit hl hf ho
      exact ⟨u, hu, migrate_of_started ht hm hu⟩
  case refuse => exact fun _ _ _ h => ⟨refuse_of_nothing h, refuse_of_pending h⟩
end

section
/-!
What the events of the meshes, the home slices and the mapped lines come to on each branch (R71, R87, R92, R97 to R99, R106, R107,
R408).
-/

namespace Sys2Proof.Machine

/-! INJECTION_STARVATION. -/

section
variable {plane site : Nat} {s : State}

theorem injectionStarvation_of_starved (hp : plane < 3) (hs : site < 4096) (hq : (s.router (replyHome plane) site).queue ≠ [])
    (hw : 256 ≤ (s.router plane site).waited) :
    execInjectionStarvation plane site s = .next (s.modRouter plane site fun q => { q with asked := true }) := by
  refine congrArg _ (if_pos ?_)
  simp [hp, hs, hq, hw]

theorem injectionStarvation_of_fed (h : 3 ≤ plane ∨ 4096 ≤ site ∨ (s.router (replyHome plane) site).queue = [] ∨
      (s.router plane site).waited < 256) : execInjectionStarvation plane site s = .next s := by
  refine congrArg _ (if_neg ?_)
  rcases h with h | h | h | h <;> simp [h]

end

/-! SINK_EJECT. -/

section
variable {plane site : Nat} {s : State}

theorem sinkEject_of_empty (h : (smGetD s.routers (4096 * plane + site) Router.reset).ejected = []) :
    execSinkEject plane site s = .next s := by
  simp only [execSinkEject, h]

variable {f : Flit} {l : List Flit} (h : (smGetD s.routers (4096 * plane + site) Router.reset).ejected = f :: l) {u : State}
  (hu : u = s.modRouter plane site fun q => { q with ejected := l })
include h hu

theorem sinkEject_of_foreign (ha : u.sinkAccepts plane site f.tag.toNat = false) :
    execSinkEject plane site s = .next (u.tagDrop site f) := by
  subst hu
  simp only [execSinkEject, h, ha, Bool.not_false, if_true]

variable (ha : u.sinkAccepts plane site f.tag.toNat = true) {q : Req} (hq : smGet s.reqs f.req = some q)
  (ht : q.txn = some f.txn.toNat) (hr : q.reply = decide (plane ≠ 0))
include ha hq ht hr

/-- A flit of its packet counts; what follows depends on whether the packet is whole. -/
theorem sinkEject_of_accepted : execSinkEject plane site s = .next (
    if (nsAdd f.idx.toNat q.got).length ≤ f.nfl.toNat then
      { u with reqs := smSet u.reqs f.req { q with got := nsAdd f.idx.toNat q.got } }
    else if plane = 0 then
      ({ u with reqs := smSet u.reqs f.req { q with got := [], stage := .atSlice } }).modSlice q.home fun x =>
        { x with reqq := x.reqq ++ [f.req] }
    else u.endReq f.req) := by
  subst hu
  have hpacket : ¬ (decide (q.txn ≠ some f.txn.toNat) || q.reply != decide (plane ≠ 0)) = true := by simp [ht, hr]
  have hq' : smGet (s.modRouter plane site fun q => { q with ejected := l }).reqs f.req = some q := hq
  simp only [execSinkEject, h, ha, hq', if_neg hpacket, Bool.not_true, Bool.false_eq_true, if_false]

theorem sinkEject_of_partial (hn : (nsAdd f.idx.toNat q.got).length ≤ f.nfl.toNat) : execSinkEject plane site s = .next
    { u with reqs := smSet u.reqs f.req { q with got := nsAdd f.idx.toNat q.got } } :=
  (sinkEject_of_accepted h hu ha hq ht hr).trans (congrArg _ (if_pos hn))

variable (hn : f.nfl.toNat < (nsAdd f.idx.toNat q.got).length)
include hn

theorem sinkEject_of_request (hp : plane = 0) : execSinkEject plane site s = .next
    (({ u with reqs := smSet u.reqs f.req { q with got := [], stage := .atSlice } }).modSlice q.home fun x =>
      { x with reqq := x.reqq ++ [f.req] }) := by
  rw [sinkEject_of_accepted h hu ha hq ht hr, if_neg (Nat.not_le.mpr hn), if_pos hp]

theorem sinkEject_of_reply (hp : plane ≠ 0) : execSinkEject plane site s = .next (u.endReq f.req) := by
  rw [sinkEject_of_accepted h hu ha hq ht hr, if_neg (Nat.not_le.mpr hn), if_neg hp]

end

/-! HOME_SLICE_REQUEST. -/

theorem homeSliceRequest_of_no_request {sl id : Nat} {s : State} (h : smGet s.reqs id = none) :
    execHomeSliceRequest sl id s = .next s := by
  simp only [execHomeSliceRequest, h]

section
variable {sl id : Nat} {o : State} {r : Req} (h : smGet o.reqs id = some r) {u s : State} (hu : u = o.noteSlice sl)
include h hu

theorem homeSliceRequest_of_not_granted (hg : arbPick u.qpOf (u.slice sl).grants (u.grantable sl) ≠ some (id, asidTag r.asid)) :
    execHomeSliceRequest sl id o = .next u := by
  subst hu
  simp only [execHomeSliceRequest, h, if_pos hg]

variable (hs : s = u.modSlice sl fun x => { x with grants := arbNote x.grants (u.grantable sl) (asidTag r.asid) })
  (hg : arbPick u.qpOf (u.slice sl).grants (u.grantable sl) = some (id, asidTag r.asid))
include hs hg

theorem homeSliceRequest_of_trailed (ht : s.behindTrail id r = true) : execHomeSliceRequest sl id o = .next
    ((s.modSlice sl fun x => { x with reqq := x.reqq.filter (· != id) }).enterTrail id r .replay) := by
  subst hs hu
  simp only [execHomeSliceRequest, h, hg, ht, ne_eq, not_true_eq_false, if_true, if_false]

variable (ht : s.behindTrail id r = false)
include ht

theorem homeSliceRequest_of_present {key : Nat} (hf : (s.slice sl).find r.asid r.va = some key)
    (hst : ((s.slice sl).way key).st ≠ 3) :
    execHomeSliceRequest sl id o = .next ((s.modSlice sl fun x => x.rank key false).performReq sl key id) := by
  subst hs hu
  simp only [execHomeSliceRequest, h, hg, ht, hf, if_neg hst, ne_eq, not_true_eq_false, Bool.false_eq_true, if_false]

theorem homeSliceRequest_of_filling {key : Nat} (hf : (s.slice sl).find r.asid r.va = some key)
    (hst : ((s.slice sl).way key).st = 3) : execHomeSliceRequest sl id o = .next
      (({ s with reqs := smSet s.reqs id { r with stage := .filling } }).modSlice sl fun x =>
        { x.setWay key { (s.slice sl).way key with waiters := ((s.slice sl).way key).waiters ++ [id] } with
          reqq := x.reqq.filter (· != id) }) := by
  subst hs hu
  simp only [execHomeSliceRequest, h, hg, ht, hf, hst, ne_eq, not_true_eq_false, Bool.false_eq_true, if_true, if_false]

variable (hf : (s.slice sl).find r.asid r.va = none)
include hf

theorem homeSliceRequest_of_miss (hop : r.op ≠ .pref 3) : execHomeSliceRequest sl id o = .next (s.miss sl id r) := by
  subst hs hu
  simp only [execHomeSliceRequest, h, hg, ht, hf, ne_eq, not_true_eq_false, Bool.false_eq_true, if_false]

theorem homeSliceRequest_of_unpin (hop : r.op = .pref 3) : execHomeSliceRequest sl id o = .next
    ((s.modSlice sl fun x => { x with reqq := x.reqq.filter (· != id) }).replyReq id r) := by
  subst hs hu
  simp only [execHomeSliceRequest, h, hg, ht, hf, hop, ne_eq, not_true_eq_false, Bool.false_eq_true, if_false]

end

/-! LINE_FILL_DONE. -/

section
variable {sl key : Nat} {s : State}

theorem lineFillDone_of_not_filling (h : ((s.slice sl).way key).st ≠ 3) : execLineFillDone sl key s = .next s := by
  simp only [execLineFillDone, if_pos h]

variable (h : ((s.slice sl).way key).st = 3) {t : Tlb}
  (ht : (s.slice sl).tlbHit ((s.slice sl).way key).asid (vpnVa ((s.slice sl).way key).vpn.toNat) = some t)
include h ht

theorem lineFillDone_of_bad_leaf {c : Cause} (hl : s.leafOk sl ((s.slice sl).way key).vpn.toNat t = .error c) :
    execLineFillDone sl key s = .next (s.failLine sl key c) := by
  simp only [execLineFillDone, h, ht, hl, ne_eq, not_true_eq_false, if_false]

theorem lineFillDone_of_permitted {t' : Tlb} (hl : s.leafOk sl ((s.slice sl).way key).vpn.toNat t = .ok t')
    (hp : permFault t'.w t'.x t'.al (if ((((s.slice sl).way key).waiters.filterMap fun id => smGet s.reqs id).all
      fun r => r.op.writes) then 1 else 0) = none) :
    execLineFillDone sl key s = .next (((s.fillWay sl key t'
      (fillStream (((s.slice sl).way key).waiters.filterMap fun id => smGet s.reqs id))).modSlice sl fun x =>
        x.setWay key { x.way key with waiters := [] }).serveLine sl key ((s.slice sl).way key).waiters) := by
  simp only [execLineFillDone, h, ht, hl, hp, ne_eq, not_true_eq_false, if_false]

end

/-! MAPPED_LINE_FILL and WRITE_BACK_STEP. -/

section
variable {p line : Nat} {s : State}

theorem mappedLineFill_of_unmapped (h : smGet (s.cluster p).mapped line = none) :
    execMappedLineFill p line s = .next (s.serveReplays p line) := by
  simp only [execMappedLineFill, h]

variable {l : MLine} (h : smGet (s.cluster p).mapped line = some l)
include h

theorem mappedLineFill_of_empty (hl : l.st = 0) : execMappedLineFill p line s = .next s := by
  simp only [execMappedLineFill, h, if_pos hl]

theorem mappedLineFill_of_settled (hl : l.st ≠ 0) (hf : l.st ≠ 1) :
    execMappedLineFill p line s = .next (s.serveReplays p line) := by
  simp only [execMappedLineFill, h, if_neg hl, if_pos hf]

/-- What a Filling line's data come to. -/
theorem mappedLineFill_of_filling (hl : l.st = 1) :
    (∀ t, s.fillMline p line l = .done t → execMappedLineFill p line s = .next (t.serveMline p line)) ∧
    (s.fillMline p line l = .wait → execMappedLineFill p line s = .next s) ∧
    (∀ c, s.fillMline p line l = .fault c → execMappedLineFill p line s = .next (s.failMline p line l c)) := by
  have hne : l.st ≠ 0 := by rw [hl]; decide
  have hfill : ¬ l.st ≠ 1 := by rw [hl]; decide
  refine ⟨fun t ht => ?_, fun hw => ?_, fun c hc => ?_⟩
  · simp only [execMappedLineFill, h, if_neg hne, if_neg hfill, ht]
  · simp only [execMappedLineFill, h, if_neg hne, if_neg hfill, hw]
  · simp only [execMappedLineFill, h, if_neg hne, if_neg hfill, hc]

end

section
variable {p line g : Nat} {s : State}

theorem writeBackStep_of_dirty {l : MLine} (h : smGet (s.cluster p).mapped line = some l) (hv : l.st = 2)
    (hg : l.mask.getLsbD g = true) : execWriteBackStep p line g s = .next (s.writeBackGranule p line g l) := by
  have hdirty : (decide (l.st = 2) && l.mask.getLsbD g) = true := by rw [hg, hv]; decide
  simp only [execWriteBackStep, h, if_pos hdirty]

theorem writeBackStep_of_clean (h : ∀ l, smGet (s.cluster p).mapped line = some l → l.st ≠ 2 ∨ l.mask.getLsbD g = false) :
    execWriteBackStep p line g s = .next s := by
  unfold execWriteBackStep
  split
  · next l hl =>
    have hclean : (decide (l.st = 2) && l.mask.getLsbD g) = false := by
      rcases h l hl with h | h
      · simp [h]
      · rw [h, Bool.and_false]
    rw [hclean, if_neg Bool.false_ne_true]
  · rfl

end

end Sys2Proof.Machine
end

section
/-!
The statement of spec/03_memory_and_translation.md on the meshes, the home slices and the mapped lines.
-/

open Sys2Proof Sys2Proof.Machine

/-- Settles O49. Routing, placing, arbitration, the performing of a request and the end of a walk are the lemmas of Laws/Mesh; each
other clause is the lemma of its event on the branch that its hypotheses choose. -/
theorem meshAndSliceEvents : Obligations.MeshAndSliceEvents := by
  refine ⟨fun _ _ _ _ => ⟨route_stays, route_cycle⟩, placeFlit_spec,
    fun _ _ _ => ⟨injectionStarvation_of_starved, injectionStarvation_of_fed⟩, ?sink, fun _ _ _ => homeSliceRequest_of_no_request,
    arbPick_spec, ?home, fun _ _ _ _ _ _ _ h hop hl hp => performReq_read h hop hp hl, fun _ _ _ _ _ _ => performReq_write,
    fun _ _ _ _ _ _ => performReq_fault, pageWalkEnd_spec, ?fill, ?mapped, ?writeBack⟩
  case sink =>
    exact fun _ _ _ => ⟨sinkEject_of_empty, fun _ _ _ h hu => ⟨sinkEject_of_foreign h hu, fun ha _ hq ht hr =>
      ⟨sinkEject_of_partial h hu ha hq ht hr, fun hn =>
        ⟨sinkEject_of_request h hu ha hq ht hr hn, sinkEject_of_reply h hu ha hq ht hr hn⟩⟩⟩⟩
  case home =>
    exact fun _ _ _ _ h _ _ hu hs => ⟨homeSliceRequest_of_not_granted h hu, fun hg =>
      ⟨homeSliceRequest_of_trailed h hu hs hg, fun ht =>
        ⟨fun _ => homeSliceRequest_of_present h hu hs hg ht, fun _ => homeSliceRequest_of_filling h hu hs hg ht,
          fun hf => ⟨homeSliceRequest_of_miss h hu hs hg ht hf, homeSliceRequest_of_unpin h hu hs hg ht hf⟩⟩⟩⟩
  case fill =>
    exact fun _ _ _ => ⟨lineFillDone_of_not_filling, fun h _ ht =>
      ⟨fun _ => lineFillDone_of_bad_leaf h ht, fun _ => lineFillDone_of_permitted h ht⟩⟩
  case mapped =>
    exact fun _ _ _ => ⟨fun _ h => ⟨mappedLineFill_of_empty h, mappedLineFill_of_settled h, mappedLineFill_of_filling h⟩,
      mappedLineFill_of_unmapped⟩
  case writeBack => exact fun _ _ _ _ => ⟨fun _ => writeBackStep_of_dirty, writeBackStep_of_clean⟩
end

section
namespace Sys2Proof.Machine

/-!
Memory stays in its canonical form (O60, R53, R54): `SafeState` is kept by every function of the model that answers a state.
Memory is written by `memWrite` and `memClear` alone (`safe_writeBytes`, `safe_putBytesP`, `safe_clearCell`,
`safe_clearBytes`), whose laws are `memWrite_wf` and `memClear_wf`; every other function leaves it as it is or calls these. So
there is one lemma per function, put together as the function itself is, from the lemmas of the functions that it calls; one for
`exec`, one for `step`.
-/

/-! What an answer carries: the state in it, if there is one, is safe. -/

/-- The state that an option carries, if any, is safe. -/
def OptSafe {α : Type} (st : α → State) : Option α → Prop
  | some x => SafeState (st x)
  | none => True

/-- The state that an access ends in, if it ends, is safe. -/
def AccSafe {α : Type} (st : α → State) : Acc α → Prop
  | .done x => SafeState (st x)
  | _ => True

/-- The state that a computation ends in is safe; `bad` says what an error carries. -/
def ExcSafe {ε α : Type} (bad : ε → Prop) (st : α → State) : Except ε α → Prop
  | .ok x => SafeState (st x)
  | .error e => bad e

/-- The next state, if there is one, is safe. -/
def OutSafe : Host.Outcome State Fault Refusal → Prop
  | .next s => SafeState s
  | _ => True

/-- The state that a peer's request leaves is safe. -/
def ServedSafe : Served → Prop
  | .done s _ => SafeState s
  | .absent s => SafeState s
  | .wait => True

/-! An answer made of a safe state. -/

section
variable {s : State} (h : SafeState s)
include h

/-- A state with the memory of a safe one. -/
theorem safe_mk {rail time tick turns cur nextId svcRdy rtrRdy slRdy chRdy clRdy hpRdy fpRdy ksRdy failed fenced fencedRtr
    zoneBad zonecur pkgpwr overAt memPz marks own areas acqWait slices routers clusters parts incs liveTags leftCells grids
    crews reqs pends toks fab txnHold streamSeq replays linkKey portDrop portTag egress seen windows inbound hostReqs reserves
    checks hostOut hostIn msixOut fabOut doeOut bar0Out svcLog mgmtOut mr lifecycle chal latchV latchW latchM latched colds
    debugPort} :
    SafeState ⟨rail, time, tick, turns, cur, nextId, svcRdy, rtrRdy, slRdy, chRdy, clRdy, hpRdy, fpRdy, ksRdy, failed,
      fenced, fencedRtr, zoneBad, zonecur, pkgpwr, overAt, s.mem, memPz, marks, own, areas, acqWait, slices, routers,
      clusters, parts, incs, liveTags, leftCells, grids, crews, reqs, pends, toks, fab, txnHold, streamSeq, replays, linkKey,
      portDrop, portTag, egress, seen, windows, inbound, hostReqs, reserves, checks, hostOut, hostIn, msixOut, fabOut, doeOut,
      bar0Out, svcLog, mgmtOut, mr, lifecycle, chal, latchV, latchW, latchM, latched, colds, debugPort⟩ := h

theorem safe_pair {α : Type} {x : α} : SafeState (s, x).1 := h

theorem safe_some : OptSafe id (some s) := h

theorem safe_some_pair {α : Type} {x : α} : OptSafe Prod.fst (some (s, x)) := h

theorem safe_some_snd {α : Type} {x : α} : OptSafe Prod.snd (some (x, s)) := h

theorem safe_done : AccSafe id (.done s) := h

theorem safe_done_pair {α : Type} {x : α} : AccSafe Prod.fst (.done (s, x)) := h

theorem safe_ok {ε : Type} {bad : ε → Prop} : ExcSafe bad id (.ok s) := h

theorem safe_ok_pair {ε α : Type} {bad : ε → Prop} {x : α} : ExcSafe bad Prod.fst (.ok (s, x)) := h

theorem safe_error {α : Type} {st : α → State} : ExcSafe SafeState st (.error s) := h

theorem safe_next : OutSafe (.next s) := h

end

theorem safe_ok_fst {ε α : Type} {bad : ε → Prop} {x : State × α} (h : SafeState x.1) : ExcSafe bad Prod.fst (.ok x) := h

/-! The state in a safe answer. -/

section
variable {s : State}

theorem safe_of_pair {α : Type} {r : State × α} {x : α} (e : r = (s, x)) (h : SafeState r.1) : SafeState s := by
  subst e
  exact h

theorem safe_of_some {r : Option State} (e : r = some s) (h : OptSafe id r) : SafeState s := by
  subst e
  exact h

theorem safe_of_some_pair {α : Type} {r : Option (State × α)} {x : α} (e : r = some (s, x)) (h : OptSafe Prod.fst r) :
    SafeState s := by
  subst e
  exact h

theorem safe_of_some_snd {α : Type} {r : Option (α × State)} {x : α} (e : r = some (x, s)) (h : OptSafe Prod.snd r) :
    SafeState s := by
  subst e
  exact h

theorem safe_of_done {r : Acc State} (e : r = .done s) (h : AccSafe id r) : SafeState s := by
  subst e
  exact h

theorem safe_of_done_pair {α : Type} {r : Acc (State × α)} {x : α} (e : r = .done (s, x)) (h : AccSafe Prod.fst r) :
    SafeState s := by
  subst e
  exact h

theorem safe_of_ok {ε : Type} {bad : ε → Prop} {r : Except ε State} (e : r = .ok s) (h : ExcSafe bad id r) :
    SafeState s := by
  subst e
  exact h

theorem safe_of_ok_pair {ε α : Type} {bad : ε → Prop} {r : Except ε (State × α)} {x : α} (e : r = .ok (s, x))
    (h : ExcSafe bad Prod.fst r) : SafeState s := by
  subst e
  exact h

theorem safe_of_error {α : Type} {st : α → State} {r : Except State α} (e : r = .error s) (h : ExcSafe SafeState st r) :
    SafeState s := by
  subst e
  exact h

theorem safe_of_served {r : Served} {a : FabAck} (e : r = .done s a) (h : ServedSafe r) : SafeState s := by
  subst e
  exact h

theorem safe_of_absent {r : Served} (e : r = .absent s) (h : ServedSafe r) : SafeState s := by
  subst e
  exact h

theorem safe_of_next {r : Host.Outcome State Fault Refusal} (e : r = .next s) (h : OutSafe r) : SafeState s := by
  subst e
  exact h

end

theorem safe_of_ok_fst {ε α : Type} {bad : ε → Prop} {r : Except ε (State × α)} {x : State × α} (e : r = .ok x)
    (h : ExcSafe bad Prod.fst r) : SafeState x.1 := by
  subst e
  exact h

theorem optSafe_of {α : Type} {r : Option (State × α)} (h : ∀ {s x}, r = some (s, x) → SafeState s) :
    OptSafe Prod.fst r := by
  cases r with
  | none => trivial
  | some y => exact h rfl

theorem accSafe_of {α : Type} {r : Acc (State × α)} (h : ∀ {s x}, r = .done (s, x) → SafeState s) :
    AccSafe Prod.fst r := by
  cases r with
  | done y => exact h rfl
  | wait => trivial
  | fault c => trivial

/-! Branches, loops, and the library's functions on options and lists. -/

section
variable {c : Prop} [Decidable c]

theorem safe_ite {s t : State} (hs : SafeState s) (ht : SafeState t) : SafeState (if c then s else t) := by
  split <;> assumption

theorem safe_ite_pair {α : Type} {x y : State × α} (hx : SafeState x.1) (hy : SafeState y.1) :
    SafeState (if c then x else y).1 := by
  split <;> assumption

theorem optSafe_ite {α : Type} {st : α → State} {x y : Option α} (hx : OptSafe st x) (hy : OptSafe st y) :
    OptSafe st (if c then x else y) := by
  split <;> assumption

theorem accSafe_ite {α : Type} {st : α → State} {x y : Acc α} (hx : AccSafe st x) (hy : AccSafe st y) :
    AccSafe st (if c then x else y) := by
  split <;> assumption

theorem excSafe_ite {ε α : Type} {bad : ε → Prop} {st : α → State} {x y : Except ε α} (hx : ExcSafe bad st x)
    (hy : ExcSafe bad st y) : ExcSafe bad st (if c then x else y) := by
  split <;> assumption

theorem outSafe_ite {x y : Host.Outcome State Fault Refusal} (hx : OutSafe x) (hy : OutSafe y) :
    OutSafe (if c then x else y) := by
  split <;> assumption

end

theorem forL_induction {α β : Type} {P : α → Prop} {g : β → α → α} (hg : ∀ y x, P x → P (g y x)) {l : List β} {x : α}
    (hx : P x) : P (forL l x g) :=
  List.foldlRecOn l _ hx fun _ h y _ => hg y _ h

theorem forN_induction {α : Type} {P : α → Prop} {g : Nat → α → α} (hg : ∀ i x, P x → P (g i x)) {n : Nat} {x : α}
    (hx : P x) : P (forN n x g) :=
  List.foldlRecOn (List.range n) _ hx fun _ h i _ => hg i _ h

theorem safe_forL {β : Type} {g : β → State → State} (hg : ∀ y s, SafeState s → SafeState (g y s)) {l : List β} {s : State}
    (h : SafeState s) : SafeState (forL l s g) :=
  forL_induction hg h

theorem safe_forL_pair {α β : Type} {g : β → State × α → State × α}
    (hg : ∀ y (x : State × α), SafeState x.1 → SafeState (g y x).1) {l : List β} {x : State × α} (h : SafeState x.1) :
    SafeState (forL l x g).1 :=
  forL_induction (P := fun x : State × α => SafeState x.1) hg h

theorem safe_forN {g : Nat → State → State} (hg : ∀ i s, SafeState s → SafeState (g i s)) {n : Nat} {s : State}
    (h : SafeState s) : SafeState (forN n s g) :=
  forN_induction hg h

theorem accSafe_forN {α : Type} {st : α → State} {g : Nat → Acc α → Acc α}
    (hg : ∀ i x, AccSafe st x → AccSafe st (g i x)) {n : Nat} {x : Acc α} (h : AccSafe st x) : AccSafe st (forN n x g) :=
  forN_induction hg h

theorem optSafe_forL {β : Type} {g : β → Option State → Option State} (hg : ∀ y o, OptSafe id o → OptSafe id (g y o))
    {l : List β} {o : Option State} (h : OptSafe id o) : OptSafe id (forL l o g) :=
  forL_induction hg h

theorem safe_getD {o : Option State} {s : State} (ho : OptSafe id o) (h : SafeState s) : SafeState (o.getD s) := by
  cases o with
  | none => exact h
  | some t => exact ho

theorem optSafe_map {α : Type} {f : α → State} (hf : ∀ x, SafeState (f x)) {o : Option α} : OptSafe id (o.map f) := by
  cases o with
  | none => trivial
  | some x => exact hf x

theorem optSafe_map_pair {α β : Type} {f : α → State × β} (hf : ∀ x, SafeState (f x).1) {o : Option α} :
    OptSafe Prod.fst (o.map f) := by
  cases o with
  | none => trivial
  | some x => exact hf x

theorem optSafe_map_fst {α β : Type} {f : State × α → State × β} (hf : ∀ x, SafeState x.1 → SafeState (f x).1)
    {o : Option (State × α)} (h : OptSafe Prod.fst o) : OptSafe Prod.fst (o.map f) := by
  cases o with
  | none => trivial
  | some x => exact hf x h

theorem excSafe_map_pair {ε α β : Type} {f : α → State × β} (hf : ∀ x, SafeState (f x).1) {r : Except ε α} :
    ExcSafe (fun _ => True) Prod.fst (r.map f) := by
  cases r with
  | error e => trivial
  | ok x => exact hf x

theorem optSafe_bind {f : State → Option State} (hf : ∀ s, SafeState s → OptSafe id (f s)) {o : Option State}
    (h : OptSafe id o) : OptSafe id (o.bind f) := by
  cases o with
  | none => trivial
  | some s => exact hf s h

theorem optSafe_findSome {α : Type} {f : α → Option State} (hf : ∀ x, OptSafe id (f x)) {l : List α} :
    OptSafe id (l.findSome? f) := by
  induction l with
  | nil => trivial
  | cons x l ih =>
    rw [List.findSome?_cons]
    split
    · next e => exact e ▸ hf x
    · exact ih

/-! Functions of `Sys2Proof/Machine/Mem.lean`. -/

section
variable {s : State} (h : SafeState s)
include h

theorem safe_writeBytes {a : Nat} {d : List Byte} {p : Bool} : SafeState (s.writeBytes a d p) := memWrite_wf h

theorem safe_setWord64 {a : Nat} {w : W64} : SafeState (s.setWord64 a w) := safe_writeBytes h

end

/-! Functions of `Sys2Proof/Machine/Tables.lean`. -/

section
variable {s : State} (h : SafeState s)
include h

theorem safe_setCell {c st tag : Nat} : SafeState (s.setCell c st tag) := h

theorem safe_clearCell {c : Nat} : SafeState (s.clearCell c) := memClear_wf h

theorem safe_setPte {a : Nat} {w : W64} : SafeState (s.setPte a w) := safe_mk (safe_setWord64 h)

theorem safe_takeCell : OptSafe Prod.fst s.takeCell := optSafe_map_pair (fun _ => safe_pair (safe_setCell h))

end

/-! Functions of `Sys2Proof/Machine/Home.lean`. -/

section
variable {s : State} (h : SafeState s)
include h

theorem safe_modSlice {q : Nat} {f : SliceSt → SliceSt} : SafeState (s.modSlice q f) := (keeps_modSlice ..).2 h

theorem safe_writeBack {q k : Nat} : SafeState (s.writeBack q k) := (keeps_writeBack ..).2 h

theorem safe_dropWay {q k : Nat} : SafeState (s.dropWay q k) := (keeps_dropWay ..).2 h

theorem safe_evict {q k : Nat} : SafeState (s.evict q k) := (keeps_evict ..).2 h

theorem safe_allocWay {q : Nat} {asid : BitVec 16} {va : W64} : OptSafe Prod.fst (s.allocWay q asid va) :=
  optSafe_of fun e => (keeps_allocWay e).2 h

theorem safe_fillWay {q k : Nat} {t : Tlb} {strm : Bool} : SafeState (s.fillWay q k t strm) := (keeps_fillWay ..).2 h

theorem safe_ensureLine {asid : BitVec 16} {va : W64} {k : Kind} : AccSafe Prod.fst (s.ensureLine asid va k) :=
  accSafe_of fun e => (keeps_ensureLine e).2 h

theorem safe_homeRead {asid : BitVec 16} {va : W64} {n : Nat} {k : Kind} : AccSafe Prod.fst (s.homeRead asid va n k) :=
  accSafe_of fun e => (keeps_homeRead e).2 h

theorem safe_readVa {asid : BitVec 16} {va : W64} {n : Nat} {k : Kind} : AccSafe Prod.fst (s.readVa asid va n k) :=
  accSafe_of fun e => (keeps_readVa e).2 h

end

/-! Functions of `Sys2Proof/Machine/Ops.lean`. -/

section
variable {s : State} (h : SafeState s)
include h

theorem safe_modCluster {p : Nat} {f : Cluster → Cluster} : SafeState (s.modCluster p f) := (stays_modCluster ..).2 h

theorem safe_modIssue {k : Nat} {f : IssueSt → IssueSt} : SafeState (s.modIssue k f) := safe_modCluster h

theorem safe_modRun {k : Nat} {f : Run → Run} : SafeState (s.modRun k f) := safe_modIssue h

theorem safe_modCrew {cid : Nat} {f : Crew → Crew} : SafeState (s.modCrew cid f) := h

theorem safe_modCohort {cid co : Nat} {f : Cohort → Cohort} : SafeState (s.modCohort cid co f) := (stays_modCohort ..).2 h

theorem safe_modLanes {cid co : Nat} {m : BitVec 32} {f : Fin 32 → Thread → Thread} : SafeState (s.modLanes cid co m f) :=
  safe_modCohort h

theorem safe_modThread {cid co lane : Nat} {f : Thread → Thread} : SafeState (s.modThread cid co lane f) :=
  (stays_modThread ..).2 h

theorem safe_modPart {tag : Nat} {f : Part → Part} : SafeState (s.modPart tag f) := (keeps_modPart ..).2 h

theorem safe_modGrid {g : Nat} {f : Grid → Grid} : SafeState (s.modGrid g f) := (stays_modGrid ..).2 h

theorem safe_fresh : SafeState s.fresh := (stays_fresh ..).2 h

theorem safe_post {tag qi : Nat} {words : List W64} : SafeState (s.post tag qi words) := (keeps_post ..).2 h

theorem safe_postEvent {tag kind space : Nat} {stamp : W32} {data : W64} {status : Nat} :
    SafeState (s.postEvent tag kind space stamp data status) :=
  (keeps_postEvent ..).2 h

theorem safe_postFault {tag : Nat} {r : FaultRec} : SafeState (s.postFault tag r) := (keeps_postFault ..).2 h

theorem safe_postInfo {tag : Nat} {cause : Cause} {addr : W64} {info : Nat} : SafeState (s.postInfo tag cause addr info) :=
  safe_postFault h

theorem safe_logSvc {cause : Cause} {a b c : Nat} : SafeState (s.logSvc cause a b c) := h

theorem safe_silentError {p unit : Nat} : SafeState (s.silentError p unit) := by
  unfold State.silentError
  refine safe_modCluster ?_
  split
  · exact safe_postInfo h
  · exact safe_logSvc h

theorem safe_settle {tok : Nat} : SafeState (s.settle tok) := by
  unfold State.settle
  split
  · exact h
  · exact safe_ite h (safe_mk (safe_modCohort (safe_modLanes h)))

theorem safe_settlePend {id : Nat} : SafeState (s.settlePend id) := by
  unfold State.settlePend
  split
  · exact h
  · exact safe_settle (safe_ite (safe_mk h) h)

theorem safe_modPend {id : Nat} {f : Pend → Pend} : SafeState (s.modPend id f) := h

theorem safe_resultLane {id lane : Nat} {val : List W64} {p : Bool} : SafeState (s.resultLane id lane val p) :=
  (stays_resultLane ..).2 h

theorem safe_performLane {id lane : Nat} : SafeState (s.performLane id lane) := safe_settlePend (safe_modPend h)

theorem safe_abortGrid {gid : Nat} {cause : Cause} {own : Bool} : SafeState (s.abortGrid gid cause own) :=
  (stays_abortGrid ..).2 h

theorem safe_fatalWith {cid : Nat} {r : FaultRec} : SafeState (s.fatalWith cid r) := (stays_fatalWith ..).2 h

theorem safe_fatal {cid : Nat} {cause : Cause} {addr : W64} {info : Nat} : SafeState (s.fatal cid cause addr info) :=
  (stays_fatal ..).2 h

theorem safe_takeTrap {cid co lane : Nat} {t : TrapRec} : SafeState (s.takeTrap cid co lane t) := by
  unfold State.takeTrap
  split
  · exact safe_ite (safe_modThread (safe_fatalWith h)) (safe_ite (safe_modThread (safe_fatalWith h)) (safe_modThread h))
  · exact h

theorem safe_noteWindow {point : Nat} {l : List (Nat × Mark)} : SafeState (s.noteWindow point l) := h

end

/-! Functions of `Sys2Proof/Machine/Request.lean`. -/

section
variable {s : State} (h : SafeState s)
include h

theorem safe_modMline {p off : Nat} {f : MLine → MLine} : SafeState (s.modMline p off f) := safe_modCluster h

theorem safe_dueTrap {cid co lane : Nat} {t : TrapRec} : SafeState (s.dueTrap cid co lane t) := safe_modThread h

theorem safe_waitLine {p : Nat} {w : MWait} : SafeState (s.waitLine p w) := safe_modMline (safe_modCluster (safe_fresh h))

theorem safe_modRouter {plane site : Nat} {f : Router → Router} : SafeState (s.modRouter plane site f) := h

theorem safe_enqueue {plane site id : Nat} : SafeState (s.enqueue plane site id) := safe_modRouter h

theorem safe_holdBehind {before id : Nat} {r : Req} : SafeState (s.holdBehind before id r) := h

theorem safe_send {r : Req} : SafeState (s.send r) := by
  unfold State.send
  refine safe_ite (safe_mk (safe_fresh h)) (safe_ite (safe_modThread (safe_mk (safe_fresh h))) ?_)
  split
  · exact safe_holdBehind (safe_fresh h)
  · exact safe_enqueue (safe_mk (safe_fresh h))

theorem safe_passL0 {id : Nat} {r : Req} : SafeState (s.passL0 id r) := by
  unfold State.passL0
  split
  · exact safe_modIssue h
  · exact h

theorem safe_dropStored {id : Nat} {r : Req} : SafeState (s.dropStored id r) := by
  unfold State.dropStored
  split
  · exact safe_modIssue h
  · exact h

theorem safe_dropReqs {gone : Req → Bool} : SafeState (s.dropReqs gone) :=
  safe_forL (fun _ _ h' => safe_dropStored h') (safe_mk h)

theorem safe_sendAgain {id : Nat} {r : Req} : SafeState (s.sendAgain id r) :=
  safe_enqueue (safe_mk (safe_fresh (safe_passL0 h)))

theorem safe_sendHeld {id : Nat} : SafeState (s.sendHeld id) := by
  unfold State.sendHeld
  split
  · exact h
  · exact safe_ite (safe_modThread (safe_mk h)) (safe_sendAgain h)

theorem safe_storeOut {p sl cid co lane : Nat} {pend : Option Nat} {asid : BitVec 16} {va : W64} {d : List Byte}
    {hint : Nat} {trpc : W64} {inRgn : Bool} :
    SafeState (s.storeOut p sl cid co lane pend asid va d hint trpc inRgn) :=
  safe_send (safe_passL0 h)

theorem safe_stashStore {p cid co lane : Nat} {pend : Option Nat} {off : Nat} {d : List Byte} {trpc : W64} {inRgn : Bool} :
    SafeState (s.stashStore p cid co lane pend off d trpc inRgn) := by
  unfold State.stashStore
  dsimp only
  split
  · split
    · exact safe_performLane (safe_writeBytes h)
    · exact safe_writeBytes h
  · refine safe_ite (safe_ite ?_ ?_) (safe_ite ?_ (safe_waitLine h))
    · split
      · exact safe_performLane (safe_writeBytes (safe_modMline h))
      · exact safe_writeBytes (safe_modMline h)
    · split
      · exact safe_performLane (safe_fresh (safe_dueTrap h))
      · exact safe_fresh (safe_dueTrap h)
    · split
      · exact safe_performLane (safe_fresh (safe_dueTrap h))
      · exact safe_fresh (safe_dueTrap h)

end

/-! Functions of `Sys2Proof/Machine/Region.lean`. -/

section
variable {s : State} (h : SafeState s)
include h

theorem safe_openRegion {cid co : Nat} {explicit : Bool} {o : Opening} : SafeState (s.openRegion cid co explicit o) :=
  safe_modCohort h

theorem safe_drainStores {p sl cid co : Nat} {asid : BitVec 16} {l : List RStore} :
    SafeState (s.drainStores p sl cid co asid l) :=
  safe_forL (fun _ _ h' => safe_ite (safe_stashStore h') (safe_storeOut h')) h

theorem safe_commitRegion {cid co : Nat} {implicit : Bool} : SafeState (s.commitRegion cid co implicit) := by
  unfold State.commitRegion
  split
  · exact safe_ite h (safe_modIssue (safe_drainStores (safe_modCohort h)))
  · exact h

theorem safe_dropTrail {cid co first : Nat} : SafeState (s.dropTrail cid co first) := h

theorem safe_restoreToks {cid co : Nat} {starts : List Start} {first : Nat} :
    SafeState (s.restoreToks cid co starts first) := by
  unfold State.restoreToks
  refine safe_forL (fun _ _ h' => ?_) (safe_mk h)
  split
  · exact h'
  · exact safe_mk h'

theorem safe_dropRun {cid co : Nat} : SafeState (s.dropRun cid co) := by
  unfold State.dropRun
  split
  · exact safe_modCohort (safe_modIssue h)
  · exact h

theorem safe_restartRegion {cid co : Nat} {suspect : Bool} : SafeState (s.restartRegion cid co suspect) := by
  unfold State.restartRegion
  split
  · exact safe_ite (safe_dropRun h) (safe_modCohort (safe_modIssue (safe_restoreToks (safe_dropTrail (safe_mk (safe_dropRun
      h))))))
  · exact h

theorem safe_suspectRestart {cid co : Nat} : SafeState (s.suspectRestart cid co) := by
  unfold State.suspectRestart
  split
  · exact safe_ite (safe_fatal (safe_dropRun (safe_ite h (safe_silentError h)))) (safe_restartRegion (safe_ite h
      (safe_silentError h)))
  · exact h

theorem safe_noteSuspect {p cid co : Nat} : SafeState (s.noteSuspect p cid co) := safe_ite (safe_modCohort h) h

end

/-! Functions of `Sys2Proof/Machine/Slot.lean`. -/

section
variable {s : State} (h : SafeState s)
include h

theorem safe_trapLanes {k cid co : Nat} {m : BitVec 32} {t : Fin 32 → TrapRec} : SafeState (s.trapLanes k cid co m t) :=
  safe_ite h (safe_modRun (safe_modLanes h))

theorem safe_park {k cid co : Nat} {r : Run} : SafeState (s.park k cid co r) := safe_modCohort (safe_modIssue h)

theorem safe_openSlot {o : Op} {f : Fields} : ExcSafe SafeState Prod.fst (openSlot o f s) := by
  unfold openSlot
  split
  · exact safe_error h
  · refine excSafe_ite (safe_error h) ?_
    split
    · exact safe_error h
    · split
      · dsimp only
        split
        · exact safe_error (safe_trapLanes h)
        · refine excSafe_ite (safe_error (safe_trapLanes h)) (excSafe_ite ?_ (safe_ok_pair (safe_trapLanes h)))
          split
          · exact safe_error (safe_park (safe_trapLanes h))
          · exact safe_error (safe_suspectRestart (safe_trapLanes h))
          · exact safe_ok_pair (safe_commitRegion (safe_trapLanes h))
      · exact safe_error h

theorem safe_outdate {cid co : Nat} {ex : BitVec 32} {l : List Nat} {own : Option Nat} :
    SafeState (s.outdate cid co ex l own) :=
  h

theorem safe_chanMove {x : Slot} {push : Option (Vector QEnt 32)} : SafeState (s.chanMove x push) := safe_modCrew h

theorem safe_reopenSlot {x : Slot} : SafeState (s.reopenSlot x) := by
  unfold State.reopenSlot
  split
  · exact safe_ite (safe_openRegion h) h
  · exact h

theorem safe_finishGood {x : Slot} {res : Placed} : SafeState (finishGood x res s) := by
  unfold finishGood
  split
  · exact safe_reopenSlot (safe_ite (safe_noteSuspect (safe_modRun (safe_chanMove (safe_modCohort (safe_outdate h)))))
      (safe_modRun (safe_chanMove (safe_modCohort (safe_outdate h)))))

theorem safe_finishSlot {x : Slot} {faults : List (Nat × TrapRec)} {res : Placed} : SafeState (finishSlot x faults res s) :=
  safe_ite (safe_trapLanes h) (safe_finishGood (safe_trapLanes h))

omit h in
theorem safe_runSlot {o : Op} {f : Fields} {s : State} {body : Slot → State → State} (h : SafeState s)
    (hbody : ∀ i t, SafeState t → SafeState (body i t)) :
    OutSafe (runSlot o f s body) := by
  unfold runSlot
  split
  · next hu => exact safe_next (safe_of_error hu (safe_openSlot h))
  · next hu => exact safe_next (hbody _ _ (safe_of_ok_pair hu (safe_openSlot h)))

theorem safe_enterTraps {cid co : Nat} : SafeState (s.enterTraps cid co) := by
  unfold State.enterTraps
  refine safe_forN (fun _ _ h' => ?_) h
  split
  · split
    · exact safe_takeTrap h'
    · exact h'
  · exact h'

theorem safe_closeNow {cid co : Nat} {own : Option Nat} {implicit : Bool} : SafeState (s.closeNow cid co own implicit) := by
  unfold State.closeNow
  split
  · exact safe_modCohort h
  · exact safe_suspectRestart h
  · exact safe_enterTraps (safe_commitRegion h)

theorem safe_endClause {k : Nat} : SafeState (s.endClause k) := by
  unfold State.endClause
  split
  · exact h
  · split
    · exact safe_modIssue h
    · exact safe_ite (safe_closeNow (safe_settle (safe_modLanes (safe_mk (safe_modIssue h))))) (safe_enterTraps (safe_settle
        (safe_modLanes (safe_mk (safe_modIssue h)))))

end

/-! Functions of `Sys2Proof/Machine/Lane.lean`. -/

section
variable {s : State} (h : SafeState s)
include h

theorem safe_laneSlot {o : Op} {f : Fields} {wide : Bool} {g : Slot → Fin 32 → Val} : OutSafe (laneSlot o f wide s g) :=
  safe_runSlot h (fun _ _ h' => safe_finishSlot h')

theorem safe_slotLanes {x : Slot} {m : BitVec 32} {g : Fin 32 → Thread → Thread} : SafeState (s.slotLanes x m g) :=
  safe_modLanes h

end

/-! Functions of `Sys2Proof/Machine/Wcb.lean`. -/

section
variable {s : State} (h : SafeState s)
include h

theorem safe_setPeer {part pid : Nat} {e : W64} : SafeState (s.setPeer part pid e) := safe_modPart h

theorem safe_sendPkt {part p pid : Nat} {use : FabUse} {l : Load} {trpc : W64} {inRgn : Bool} :
    SafeState (s.sendPkt part p pid use l trpc inRgn) :=
  (stays_sendPkt ..).2 h

theorem safe_sendFab {part p pid : Nat} {use : FabUse} {l : Load} {trpc : W64} {inRgn : Bool} :
    SafeState (s.sendFab part p pid use l trpc inRgn) :=
  (stays_sendFab ..).2 h

theorem safe_drainLine {p : Nat} {w : Wcb} : SafeState (s.drainLine p w) := (stays_drainLine ..).2 h

theorem safe_drainWcb {p : Nat} {f : Wcb → Bool} : SafeState (s.drainWcb p f) := (stays_drainWcb ..).2 h

end

/-! Functions of `Sys2Proof/Machine/Visibility.lean`. -/

section
variable {s : State} (h : SafeState s)
include h

theorem safe_drainParts {p : Nat} {sel : RedEnt → Bool} : SafeState (s.drainParts p sel) := by
  unfold State.drainParts
  refine safe_forL (fun _ _ h' => ?_) (safe_modCluster h)
  split
  · exact safe_send h'
  · exact h'

theorem safe_askWriteBack {p cid : Nat} {ranges : Option (List (Nat × Nat))} {who : Nat × Nat} {inv : Bool} :
    SafeState (s.askWriteBack p cid ranges who inv) :=
  safe_modCluster h

theorem safe_startFence {cid co tok : Nat} {lanes : BitVec 32} {trpc : W64} {f : FenceSt} :
    SafeState (s.startFence cid co tok lanes trpc f) :=
  (stays_startFence ..).2 h

theorem safe_fenceStep {id : Nat} {f : FenceSt} {n : Nat} {waits : List Nat} : SafeState (s.fenceStep id f n waits) :=
  safe_modPend h

theorem safe_drainCohort {p cid co : Nat} {ranges : Option (List (Nat × Nat))} : SafeState (s.drainCohort p cid co ranges) :=
  safe_drainParts h

theorem safe_releaseStep {id p cid co : Nat} {w : Cohort} {lanes : BitVec 32} {f : FenceSt} :
    SafeState (s.releaseStep id p cid co w lanes f) := by
  unfold State.releaseStep
  split
  · exact safe_ite h (safe_ite (safe_fenceStep h) (safe_ite h (safe_fenceStep (safe_drainCohort h))))
  · exact safe_ite h (safe_fenceStep (safe_ite (safe_askWriteBack h) h))
  · exact safe_ite h (safe_ite (safe_fenceStep (safe_drainWcb h)) (safe_fenceStep h))
  · exact safe_ite h (safe_fenceStep h)

theorem safe_gbarComplete {gid : Nat} : SafeState (s.gbarComplete gid) := safe_modGrid h

theorem safe_gbarSettle {gid : Nat} : SafeState (s.gbarSettle gid) := by
  unfold State.gbarSettle
  split
  · exact safe_ite (safe_gbarComplete h) h
  · exact h

theorem safe_gbarArrive {gid cid co : Nat} {lanes : BitVec 32} : SafeState (s.gbarArrive gid cid co lanes) :=
  safe_gbarSettle (safe_modGrid h)

theorem safe_dropClauses {asid : BitVec 16} {lo hi : Nat} : SafeState (s.dropClauses asid lo hi) := h

theorem safe_released {c : Crew} {x : Pend} {n : FenceNext} : SafeState (s.released c x n) := by
  unfold State.released
  split
  · exact h
  · exact safe_forL (fun _ _ h' => safe_sendHeld h') h
  · exact safe_gbarArrive h
  · exact safe_dropClauses h

theorem safe_acquireStep {id k : Nat} {c : Crew} {x : Pend} {f : FenceSt} : SafeState (s.acquireStep id k c x f) := by
  unfold State.acquireStep
  split
  · exact safe_ite (safe_ite (safe_modIssue h) h) (safe_fenceStep (safe_ite (safe_modIssue h) h))
  · exact safe_fenceStep (safe_ite (safe_askWriteBack h) h)
  · exact safe_ite h (safe_modPend h)

theorem safe_advanceFence {id : Nat} : SafeState (s.advanceFence id) := by
  unfold State.advanceFence
  split
  · exact h
  · split
    · exact safe_ite (safe_ite (safe_releaseStep h) (safe_ite h (safe_released (safe_modPend h)))) (safe_ite h (safe_ite
        (safe_acquireStep h) (safe_settlePend (safe_modPend h))))
    · exact h

end

/-! Functions of `Sys2Proof/Machine/Control.lean`. -/

section
variable {s : State} (h : SafeState s)
include h

theorem safe_goTo {x : Slot} {m : BitVec 32} {t : Fin 32 → W64} : SafeState (s.goTo x m t) := safe_slotLanes h

theorem safe_transfer {x : Slot} {flt : Fin 32 → Option Cause} {res : Placed} {t : Fin 32 → W64} :
    SafeState (transfer x flt res t s) :=
  safe_goTo (safe_finishSlot h)

theorem safe_execBr {f : Fields} : OutSafe (execBr f s) := safe_runSlot h (fun _ _ h' => safe_transfer h')

theorem safe_execJmp {f : Fields} : OutSafe (execJmp f s) := safe_runSlot h (fun _ _ h' => safe_transfer h')

theorem safe_execCall {f : Fields} : OutSafe (execCall f s) := safe_runSlot h (fun _ _ h' => safe_transfer h')

theorem safe_execCallr {f : Fields} : OutSafe (execCallr f s) := safe_runSlot h (fun _ _ h' => safe_transfer h')

theorem safe_execRet {f : Fields} : OutSafe (execRet f s) := safe_runSlot h (fun _ _ h' => safe_transfer h')

theorem safe_execDbnz {f : Fields} : OutSafe (execDbnz f s) := safe_runSlot h (fun _ _ h' => safe_goTo (safe_finishSlot h'))

theorem safe_setJoin {cid co n : Nat} {arr enr : BitVec 32} : SafeState (s.setJoin cid co n arr enr) := safe_modCohort h

theorem safe_checkJoin {cid co n : Nat} : SafeState (s.checkJoin cid co n) := by
  unfold State.checkJoin
  split
  · exact h
  · exact safe_ite (safe_modLanes (safe_setJoin (safe_fresh h))) h

theorem safe_execRjnEnrol {f : Fields} : OutSafe (execRjnEnrol f s) :=
  safe_runSlot h (fun _ _ h' => safe_setJoin (safe_finishSlot h'))

theorem safe_execRjnWait {f : Fields} : OutSafe (execRjnWait f s) :=
  safe_runSlot h (fun _ _ h' => safe_checkJoin (safe_slotLanes (safe_setJoin (safe_finishSlot h'))))

theorem safe_execRjnLeave {f : Fields} : OutSafe (execRjnLeave f s) :=
  safe_runSlot h (fun _ _ h' => safe_checkJoin (safe_setJoin (safe_finishSlot h')))

theorem safe_leaveJoins {cid co : Nat} {m : BitVec 32} : SafeState (s.leaveJoins cid co m) := by
  unfold State.leaveJoins
  refine safe_forN (fun _ _ h' => ?_) h
  split
  · exact h'
  · exact safe_checkJoin (safe_setJoin h')

theorem safe_execExit {f : Fields} : OutSafe (execExit f s) :=
  safe_runSlot h (fun _ _ h' => safe_gbarSettle (safe_leaveJoins (safe_slotLanes (safe_finishSlot h'))))

theorem safe_execNop {f : Fields} : OutSafe (execNop f s) := safe_runSlot h (fun _ _ h' => safe_finishSlot h')

theorem safe_execYield {f : Fields} : OutSafe (execYield f s) :=
  safe_runSlot h (fun _ _ h' => safe_modRun (safe_finishSlot h'))

theorem safe_execTileSet {f : Fields} : OutSafe (execTileSet f s) :=
  safe_runSlot h (fun _ _ h' => safe_ite (safe_modCohort (safe_finishSlot h')) (safe_finishSlot h'))

theorem safe_execFwait {f : Fields} : OutSafe (execFwait f s) :=
  safe_runSlot h (fun _ _ h' => safe_finishSlot (safe_slotLanes h'))

theorem safe_execRgnOpen {f : Fields} : OutSafe (execRgnOpen f s) := by
  unfold execRgnOpen
  refine safe_runSlot h (fun _ _ h' => ?_)
  split
  · exact safe_park h'
  · exact safe_suspectRestart h'
  · exact safe_openRegion (safe_finishSlot (safe_commitRegion h'))

theorem safe_execRgnClose {f : Fields} : OutSafe (execRgnClose f s) := by
  unfold execRgnClose
  refine safe_runSlot h (fun _ _ h' => ?_)
  split
  · exact safe_park h'
  · exact safe_suspectRestart h'
  · exact safe_ite (safe_modCohort (safe_finishSlot (safe_commitRegion h'))) (safe_openRegion (safe_modCohort (safe_finishSlot
      (safe_commitRegion h'))))

theorem safe_execTrap {f : Fields} : OutSafe (execTrap f s) := safe_runSlot h (fun _ _ h' => safe_finishSlot h')

theorem safe_execBrkpt {f : Fields} : OutSafe (execBrkpt f s) := safe_runSlot h (fun _ _ h' => safe_finishSlot h')

theorem safe_execTrapret {f : Fields} : OutSafe (execTrapret f s) :=
  safe_runSlot h (fun _ _ h' => safe_slotLanes (safe_finishSlot h'))

end

/-! Functions of `Sys2Proof/Machine/Integer.lean`. -/

section
variable {s : State} (h : SafeState s)
include h

theorem safe_aluOne {o : Op} {f : Fields} {g : W64 → W64} : OutSafe (aluOne o f s g) := safe_laneSlot h

theorem safe_aluTwo {o : Op} {f : Fields} {g : W64 → W64 → W64} : OutSafe (aluTwo o f s g) := safe_laneSlot h

theorem safe_aluThree {o : Op} {f : Fields} {g : W64 → W64 → W64 → W64} : OutSafe (aluThree o f s g) := safe_laneSlot h

theorem safe_carrySlot {o : Op} {f : Fields} {sg : Int} : OutSafe (carrySlot o f sg s) :=
  safe_runSlot h (fun _ _ h' => safe_finishSlot (safe_ite h' (safe_slotLanes h')))

theorem safe_countSlot {o : Op} {f : Fields} {g : Nat → Nat} : OutSafe (countSlot o f s g) := safe_laneSlot h

theorem safe_execLea {f : Fields} : OutSafe (execLea f s) := safe_runSlot h (fun _ _ h' => safe_finishSlot h')

end

/-! Functions of `Sys2Proof/Machine/Clause.lean`. -/

section
variable {s : State} (h : SafeState s)
include h

theorem safe_notePage {asid : BitVec 16} {va : W64} {kind : Nat} : SafeState (s.notePage asid va kind) := by
  unfold State.notePage
  dsimp only
  split
  · exact h
  · exact safe_ite h (safe_modPart (safe_postInfo h))

theorem safe_fetchLine {p : Nat} {asid : BitVec 16} {a n : Nat} : AccSafe Prod.fst (s.fetchLine p asid a n) := by
  unfold State.fetchLine
  dsimp only
  split
  · refine accSafe_ite (safe_done_pair h) (accSafe_ite trivial ?_)
    split
    · trivial
    · trivial
    · next hu => exact safe_done_pair (safe_modCluster (safe_of_done_pair hu (safe_homeRead h)))
  · refine accSafe_ite trivial ?_
    split
    · trivial
    · trivial
    · next hu => exact safe_done_pair (safe_modCluster (safe_of_done_pair hu (safe_homeRead h)))

omit h in
theorem safe_fetchParts {p : Nat} {asid : BitVec 16} {l : List (Nat × Nat)} (h : SafeState s) :
    AccSafe Prod.fst (s.fetchParts p asid l) := by
  induction l generalizing s with
  | nil => exact safe_done_pair h
  | cons y l ih =>
    unfold State.fetchParts
    split
    · trivial
    · trivial
    · next hu =>
      split
      · trivial
      · trivial
      · next hv => exact safe_done_pair (safe_of_done_pair hv (ih (safe_of_done_pair hu (safe_fetchLine h))))

theorem safe_fetchClause {p : Nat} {asid : BitVec 16} {pc : W64} : AccSafe Prod.fst (s.fetchClause p asid pc) := by
  unfold State.fetchClause
  refine accSafe_ite trivial (accSafe_ite trivial ?_)
  split
  · trivial
  · trivial
  · next hu =>
      have su := safe_of_done_pair hu (safe_fetchParts h)
      refine accSafe_ite (safe_done_pair su) ?_
      split
      · trivial
      · trivial
      · next hv => exact safe_done_pair (safe_of_done_pair hv (safe_fetchParts su))

theorem safe_candidates {p cid co : Nat} {c : Crew} {w : Cohort} : SafeState (s.candidates p cid co c w).1 := by
  unfold State.candidates
  refine safe_forL_pair (fun _ _ h' => safe_ite_pair (safe_pair h') ?_) (safe_pair h)
  split
  · next hu =>
    have su := safe_of_done_pair hu (safe_fetchClause h')
    dsimp only
    split
    · exact safe_notePage su
    · exact su
  · exact h'
  · exact safe_ite_pair (safe_pair (safe_notePage h')) (safe_pair h')

theorem safe_boundaryTrap {c : Cand} {m : BitVec 32} {cause : Cause} {addr : W64} {slot : Nat} :
    SafeState (s.boundaryTrap c m cause addr slot) := by
  unfold State.boundaryTrap
  dsimp only
  split
  · exact safe_ite (safe_closeNow (safe_modLanes h)) (safe_enterTraps (safe_modLanes h))
  · exact safe_modLanes h

theorem safe_openForClause {c : Cand} {m : BitVec 32} {w : Cohort} {arrives : Bool} :
    ExcSafe SafeState id (s.openForClause c m w arrives) := by
  unfold State.openForClause
  refine excSafe_ite (safe_ok (safe_modCohort h)) (excSafe_ite ?_ (excSafe_ite (safe_ok h) (excSafe_ite (safe_ok
    (safe_openRegion h)) (excSafe_ite (excSafe_ite (safe_ok h) (safe_ok (safe_openRegion h))) (safe_ok (safe_openRegion
    h))))))
  split
  · exact safe_error (safe_suspectRestart h)
  · exact safe_ok (safe_openRegion (safe_commitRegion h))

theorem safe_raiseTok {c : Cand} {a b : Nat} {up : BitVec 32} : SafeState (s.raiseTok c a b up).1 := by
  unfold State.raiseTok
  dsimp only
  split
  · exact safe_mk (safe_fresh h)
  · exact safe_mk h

theorem safe_endToks {c : Cand} {w : Cohort} {m : BitVec 32} : SafeState (s.endToks c w m) :=
  safe_forL (fun _ _ h' => safe_settle (safe_mk h')) h

theorem safe_startClause {k : Nat} {c : Cand} {w : Cohort} {m : BitVec 32} : SafeState (s.startClause k c w m) := by
  unfold State.startClause
  dsimp only
  split
  · exact safe_boundaryTrap h
  · split
    · exact safe_boundaryTrap h
    · split
      · next hu => exact safe_of_error hu (safe_openForClause h)
      · next hu => exact safe_modIssue (safe_modLanes (safe_raiseTok (safe_endToks (safe_of_ok hu (safe_openForClause h)))))

theorem safe_releaseHolds {cid co : Nat} {c : Crew} {w : Cohort} : SafeState (s.releaseHolds cid co c w) := by
  unfold State.releaseHolds
  refine safe_forL (fun _ _ h' => safe_ite h' (safe_forL (fun _ _ h'' => ?_) (safe_modThread h'))) h
  split
  · exact safe_startFence h''
  · exact h''

theorem safe_takeDue {cid co : Nat} {w : Cohort} : OptSafe id (s.takeDue cid co w) :=
  optSafe_ite trivial (safe_some (safe_ite (safe_closeNow (safe_modLanes h)) (safe_enterTraps (safe_modLanes h))))

theorem safe_prepareArrival {p cid co : Nat} {w : Cohort} {m : BitVec 32} {r : List (Nat × Nat)} :
    SafeState (s.prepareArrival p cid co w m r) := by
  unfold State.prepareArrival
  refine safe_ite ?_ (safe_ite (safe_drainCohort h) h)
  split
  · exact h
  · exact safe_suspectRestart h
  · exact safe_commitRegion h

theorem safe_releaseSlice {k : Nat} : SafeState (s.releaseSlice k) := safe_forL (fun _ _ h' => safe_releaseHolds h') h

theorem safe_sliceDue {k : Nat} : OptSafe id (s.sliceDue k) := optSafe_findSome (fun _ => safe_takeDue h)

theorem safe_gather {k : Nat} : SafeState (s.gather k).1 := by
  unfold State.gather
  refine safe_forL_pair (fun _ _ h' => ?_) (safe_pair (safe_modIssue h))
  dsimp only
  exact safe_candidates h'

theorem safe_noteCands {k : Nat} {l : List Cand} : SafeState (s.noteCands k l) := by
  unfold State.noteCands
  refine safe_forL (fun _ _ h' => ?_) h
  dsimp only
  split
  · exact safe_prepareArrival (safe_forL (fun _ _ h'' => safe_modCrew h'') (safe_modLanes h'))
  · exact safe_forL (fun _ _ h'' => safe_modCrew h'') (safe_modLanes h')

theorem safe_noteAwake {cid : Nat} : SafeState (s.noteAwake cid) := by
  unfold State.noteAwake
  split
  · exact safe_modPart (safe_modCrew h)
  · exact h

theorem safe_selectClause {k : Nat} : SafeState (s.selectClause k) := by
  unfold State.selectClause
  split
  · next hu =>
      have su := safe_of_pair hu (safe_gather h)
      dsimp only
      split
      · exact safe_noteCands su
      · split
        · exact safe_startClause (safe_noteAwake (safe_noteCands su))
        · exact safe_noteCands su

theorem safe_spoil {k place word : Nat} : SafeState (s.spoil k place word) := by
  unfold State.spoil
  dsimp only
  split
  · exact safe_modThread (safe_silentError h)
  · exact safe_mk (safe_silentError h)

theorem safe_storageError {k : Nat} : SafeState (s.storageError k) := by
  unfold State.storageError
  split
  · exact h
  · exact safe_spoil h

theorem safe_bundleSelect {k : Nat} : SafeState (s.bundleSelect k) := by
  unfold State.bundleSelect
  refine safe_ite h ?_
  split
  · exact safe_modIssue (safe_modCohort h)
  · dsimp only
    split
    · next hu => exact safe_of_some hu (safe_sliceDue (safe_releaseSlice h))
    · exact safe_selectClause (safe_releaseSlice h)

end

/-! Functions of `Sys2Proof/Machine/Deliver.lean`. -/

section
variable {s : State} (h : SafeState s)
include h

theorem safe_addPend {p : Pend} : SafeState (s.addPend p) := (stays_addPend ..).2 h

theorem safe_finishLate {x : Slot} {l : List (Nat × TrapRec)} {id : Nat} {wide : Bool} :
    SafeState (finishLate x l id wide s) :=
  safe_settlePend (safe_finishSlot h)

theorem safe_deliverLane {id : Nat} {p : Pend} {lane : Nat} {r : LaneRes} : SafeState (s.deliverLane id p lane r) := by
  unfold State.deliverLane
  refine safe_ite h ?_
  dsimp only
  split
  · exact safe_modCrew (safe_modCohort (safe_modThread h))
  · exact safe_modCohort (safe_modThread h)

theorem safe_deliverUni {id : Nat} {p : Pend} : SafeState (s.deliverUni id p) := by
  unfold State.deliverUni
  split
  · exact safe_ite h (safe_modCohort h)
  · exact h

theorem safe_deliver {id : Nat} {p : Pend} : SafeState (s.deliver id p) := by
  unfold State.deliver
  refine safe_settlePend ?_
  split
  · refine safe_ite (safe_noteSuspect (safe_modPend (safe_ite (safe_deliverUni h) (safe_forL (fun _ _ h' => ?_) h))))
      (safe_modPend (safe_ite (safe_deliverUni h) (safe_forL (fun _ _ h' => ?_) h)))
    · split
      · exact safe_deliverLane h'
      · exact h'
    · split
      · exact safe_deliverLane h'
      · exact h'
  · refine safe_modPend (safe_ite (safe_deliverUni h) (safe_forL (fun _ _ h' => ?_) h))
    split
    · exact safe_deliverLane h'
    · exact h'

theorem safe_execResultDelivery {id : Nat} : OutSafe (execResultDelivery id s) := by
  unfold execResultDelivery
  refine safe_next ?_
  split
  · exact h
  · exact safe_ite (safe_advanceFence h) (safe_ite h (safe_deliver h))

theorem safe_sfuSlot {o : Op} {f : Fields} : OutSafe (sfuSlot o f s) :=
  safe_runSlot h (fun _ _ h' => safe_finishLate (safe_addPend h'))

end

/-! Functions of `Sys2Proof/Machine/Memory.lean`. -/

section
variable {s : State} (h : SafeState s)
include h

theorem safe_loadGlobal {x : Slot} {id lane n hint : Nat} {sx : Bool} {va : W64} {kept : List (Option Byte)} :
    SafeState (s.loadGlobal x id lane n hint sx va kept) := by
  unfold State.loadGlobal
  refine safe_ite (safe_resultLane h) (safe_ite ?_ (safe_send h))
  split
  · exact safe_resultLane h
  · exact safe_send h

theorem safe_loadAcquire {x : Slot} {lane hint : Nat} {va : W64} {first : Nat} :
    SafeState (s.loadAcquire x lane hint va first) :=
  safe_ite h (safe_startFence h)

theorem safe_execLd {f : Fields} : OutSafe (execLd f s) :=
  safe_runSlot h (fun _ _ h' => safe_finishLate (safe_forL (fun _ _ h'' => safe_loadAcquire (safe_loadGlobal h''))
    (safe_addPend h')))

theorem safe_execLdu {f : Fields} : OutSafe (execLdu f s) :=
  safe_runSlot h (fun _ _ h' => safe_finishLate (safe_ite (safe_addPend h') (safe_loadAcquire (safe_loadGlobal (safe_addPend
    h')))))

theorem safe_loadStash {x : Slot} {id lane n : Nat} {ty : Ty} {sx : Bool} {phys : Nat} {kept : List (Option Byte)} :
    SafeState (s.loadStash x id lane n ty sx phys kept) := by
  unfold State.loadStash
  dsimp only
  split
  · exact safe_performLane (safe_resultLane h)
  · exact safe_ite (safe_performLane (safe_resultLane h)) (safe_waitLine h)

theorem safe_execLds {f : Fields} : OutSafe (execLds f s) :=
  safe_runSlot h (fun _ _ h' => safe_finishLate (safe_forL (fun _ _ h'' => safe_loadStash h'') (safe_addPend h')))

theorem safe_regionHere {x : Slot} : SafeState (s.regionHere x) := by
  unfold State.regionHere
  split
  · exact safe_ite h (safe_openRegion h)
  · exact h

theorem safe_buffer {x : Slot} {l : List RStore} : ExcSafe SafeState id (s.buffer x l) := by
  unfold State.buffer
  dsimp only
  split
  · exact safe_ok h
  · refine excSafe_ite ?_ (safe_ok (safe_modCohort (safe_regionHere h)))
    split
    · exact safe_error (safe_park h)
    · exact safe_error (safe_suspectRestart h)
    · exact safe_ok (safe_modCohort (safe_regionHere (safe_commitRegion h)))

theorem safe_storeSlot {x : Slot} {l : List (Nat × TrapRec)} {stash : Bool} {addr : Fin 32 → W64} {n : Nat} :
    SafeState (storeSlot x l stash addr n s) := by
  unfold storeSlot
  dsimp only
  split
  · next hu => exact safe_of_error hu (safe_buffer h)
  · next hu => exact safe_finishSlot (safe_of_ok hu (safe_buffer h))

theorem safe_execSt {f : Fields} : OutSafe (execSt f s) := safe_runSlot h (fun _ _ h' => safe_storeSlot h')

theorem safe_execSts {f : Fields} : OutSafe (execSts f s) := safe_runSlot h (fun _ _ h' => safe_storeSlot h')

theorem safe_execPref {f : Fields} : OutSafe (execPref f s) :=
  safe_runSlot h (fun _ _ h' => safe_finishSlot (safe_settlePend (safe_forL (fun _ _ h'' => safe_send h'') (safe_addPend
    h'))))

omit h in
theorem safe_eachLane {x : Slot} {l : List (Nat × TrapRec)} {ok : W64 → Bool} {g : Fin 32 → State → State × W64} {s : State}
    (hg : ∀ i t, SafeState t → SafeState (g i t).1) (h : SafeState s) :
    SafeState (eachLane x l ok g s) := by
  unfold eachLane
  split
  · next hu =>
      exact safe_finishLate (safe_addPend (safe_of_pair hu (safe_forL_pair (fun _ _ h' => safe_pair (hg _ _ h')) (safe_pair
        h))))

theorem safe_execBind {f : Fields} : OutSafe (execBind f s) := by
  unfold execBind
  refine safe_runSlot h (fun _ _ h' => safe_eachLane (fun _ _ h'' => ?_) h')
  split
  · exact h''
  · dsimp only
    split
    · exact safe_modCrew h''
    · exact h''

theorem safe_unbindLane {cid : Nat} {a : Val} : SafeState (s.unbindLane cid a).1 := (stays_unbindLane ..).2 h

theorem safe_execUnbind {f : Fields} : OutSafe (execUnbind f s) := by
  unfold execUnbind
  refine safe_runSlot h (fun _ _ h' => ?_)
  split
  · next hu =>
      exact safe_finishLate (safe_addPend (safe_of_pair hu (safe_forL_pair (fun _ _ h'' => safe_pair (safe_unbindLane h''))
        (safe_pair h'))))

theorem safe_execFence {f : Fields} : OutSafe (execFence f s) :=
  safe_runSlot h (fun _ _ h' => safe_finishSlot (safe_ite h' (safe_startFence h')))

theorem safe_sendAtomic {x : Slot} {lane : Nat} {r : Req} : SafeState (s.sendAtomic x lane r) :=
  safe_ite (safe_send h) (safe_mk (safe_fresh (safe_startFence h)))

theorem safe_atomicSlot {x : Slot} {l : List (Nat × TrapRec)} {va : Fin 32 → W64} {op : Fin 32 → ReqOp} :
    SafeState (atomicSlot x l va op s) :=
  safe_finishLate (safe_forL (fun _ _ h' => safe_sendAtomic h') (safe_addPend h))

theorem safe_execAtom {f : Fields} : OutSafe (execAtom f s) := safe_runSlot h (fun _ _ h' => safe_atomicSlot h')

theorem safe_execCas {f : Fields} : OutSafe (execCas f s) := safe_runSlot h (fun _ _ h' => safe_atomicSlot h')

theorem safe_atomStash {p phys n : Nat} {op : ReqOp} : SafeState (s.atomStash p phys n op).1 := by
  unfold State.atomStash
  refine safe_pair ?_
  split
  · exact safe_modMline (safe_ite (safe_writeBytes h) (safe_mk (safe_writeBytes h)))
  · exact h

theorem safe_bankAtomic {x : Slot} {id lane phys : Nat} {op : ReqOp} : SafeState (bankAtomic x id lane phys op s) := by
  unfold bankAtomic
  refine safe_ite ?_ (safe_waitLine h)
  split
  · next hu => exact safe_resultLane (safe_of_pair hu (safe_atomStash h))

theorem safe_atomicStash {x : Slot} {l : List (Nat × TrapRec)} {off : Fin 32 → Int} {op : Fin 32 → ReqOp} :
    SafeState (atomicStash x l off op s) :=
  safe_finishLate (safe_forL (fun _ _ h' => safe_bankAtomic h') (safe_addPend h))

theorem safe_execAtoms {f : Fields} : OutSafe (execAtoms f s) := safe_runSlot h (fun _ _ h' => safe_atomicStash h')

theorem safe_execCass {f : Fields} : OutSafe (execCass f s) := safe_runSlot h (fun _ _ h' => safe_atomicStash h')

theorem safe_reopenMid {x : Slot} {before : BitVec 32} : SafeState (s.reopenMid x before) :=
  safe_modCohort (safe_regionHere h)

theorem safe_redRoom {x : Slot} {before : BitVec 32} : SafeState (s.redRoom x before).1 :=
  safe_ite_pair (safe_pair (safe_drainParts h)) (safe_pair (safe_drainParts (safe_reopenMid (safe_commitRegion
    (safe_drainParts h)))))

theorem safe_redHere {x : Slot} {key : RedEnt} {lane : Nat} {v : W64} : SafeState (s.redHere x key lane v) :=
  safe_ite (safe_modIssue h) (safe_modIssue h)

theorem safe_redLane {x : Slot} {lane : Nat} {before : BitVec 32} {va v : W64} :
    SafeState (s.redLane x lane before va v).1 := by
  unfold State.redLane
  refine safe_ite_pair (safe_pair (safe_redHere h)) ?_
  split
  · next hu => exact safe_redHere (safe_of_pair hu (safe_redRoom h))

omit h in
theorem safe_redStep {x : Slot} {va : Fin 32 → W64} {i : Fin 32} {y : State × Bool × BitVec 32} (h : SafeState y.1) :
    SafeState (redStep x va i y).1 :=
  safe_pair (safe_redLane h)

theorem safe_execRed {f : Fields} : OutSafe (execRed f s) := by
  unfold execRed
  refine safe_runSlot h (fun _ _ h' => ?_)
  dsimp only
  refine safe_ite ?_ (safe_finishSlot (safe_forL_pair (fun _ _ h'' => safe_redStep h'') (safe_pair (safe_regionHere h'))))
  split
  · exact safe_park (safe_regionHere h')
  · exact safe_suspectRestart (safe_regionHere h')
  · exact safe_finishSlot (safe_forL_pair (fun _ _ h'' => safe_redStep h'') (safe_pair (safe_regionHere h')))

theorem safe_execRedFlush {f : Fields} : OutSafe (execRedFlush f s) :=
  safe_runSlot h (fun _ _ h' => safe_ite (safe_finishSlot h') (safe_finishSlot (safe_startFence (safe_drainParts h'))))

end

/-! Functions of `Sys2Proof/Machine/Mesh.lean`. -/

section
variable {s : State} (h : SafeState s)
include h

theorem safe_replayHead {cid co lane : Nat} : SafeState (s.replayHead cid co lane) := by
  unfold State.replayHead
  split
  · exact h
  · split
    · exact safe_ite h (safe_ite (safe_waitLine (safe_mk h)) (safe_ite (safe_sendAgain h) h))
    · exact h

theorem safe_leaveTrail {r : Req} {id : Nat} : SafeState (s.leaveTrail r id) := by
  unfold State.leaveTrail
  split
  · exact h
  · exact safe_ite (safe_replayHead (safe_modThread h)) h

theorem safe_failReq {r : Req} {cause : Cause} : SafeState (s.failReq r cause) := by
  unfold State.failReq
  split
  · split
    · exact safe_performLane h
    · exact h
  · exact safe_fatal h
  · refine safe_ite ?_ (safe_forL (fun _ _ h' => safe_dueTrap h') ?_)
    · split
      · exact safe_performLane h
      · exact safe_resultLane h
      · exact h
    · split
      · exact safe_performLane h
      · exact safe_resultLane h
      · exact h

theorem safe_endReq {id : Nat} : SafeState (s.endReq id) := by
  unfold State.endReq
  split
  · exact h
  · refine safe_leaveTrail ?_
    split
    · exact safe_failReq (safe_mk h)
    · exact safe_mk h
    · split
      · exact safe_resultLane (safe_mk h)
      · exact safe_resultLane (safe_mk h)
      · exact safe_resultLane (safe_mk h)
      · exact safe_performLane (safe_mk h)

theorem safe_nextFlit {plane home site cyc : Nat} : OptSafe Prod.snd (s.nextFlit plane home site cyc) := by
  unfold State.nextFlit
  dsimp only
  split
  · trivial
  · split
    · trivial
    · split
      · trivial
      · exact safe_some_snd (safe_modRouter (safe_mk h))

theorem safe_dropHeads {home site : Nat} : SafeState (s.dropHeads home site) := safe_modRouter h

theorem safe_resend {id : Nat} {r : Req} : SafeState (s.resend id r) := safe_enqueue (safe_mk (safe_modRouter h))

theorem safe_loseFlit {f : Flit} : SafeState (s.loseFlit f) := by
  unfold State.loseFlit
  split
  · exact h
  · exact safe_ite h (safe_ite (safe_resend (safe_silentError h)) (safe_ite (safe_fatal (safe_leaveTrail (safe_dropStored
      (safe_mk (safe_silentError h))))) (safe_resend (safe_silentError h))))

theorem safe_grantReply {site : Nat} : SafeState (s.grantReply site) := safe_modRouter h

theorem safe_putFlit {plane site cyc : Nat} {y : Nat × Flit} : SafeState (s.putFlit plane site cyc y) :=
  safe_ite (safe_modRouter h) (safe_modRouter (safe_modRouter h))

theorem safe_calmQueue {plane site : Nat} : SafeState (s.calmQueue plane site) :=
  safe_forL (fun _ _ h' => safe_modRouter h') h

theorem safe_injectNow {plane site cyc : Nat} {cl : Bool} {free : List (Nat × Nat)} :
    SafeState (s.injectNow plane site cyc cl free) := by
  unfold State.injectNow
  split
  · exact h
  · next hu =>
      have su := safe_of_some_snd hu (safe_nextFlit (safe_ite (safe_grantReply h) h))
      refine safe_ite (safe_modRouter (safe_ite (safe_modRouter (safe_calmQueue su)) (safe_calmQueue su))) ?_
      split
      · exact safe_putFlit (safe_ite (safe_modRouter (safe_calmQueue su)) (safe_calmQueue su))
      · exact safe_ite (safe_modRouter (safe_calmQueue su)) (safe_calmQueue su)

theorem safe_inject {plane site cyc : Nat} {free : List (Nat × Nat)} : SafeState (s.inject plane site cyc free) := by
  refine safe_ite ?_ (safe_ite (safe_ite ?_ (safe_modRouter ?_)) (safe_injectNow ?_)) <;>
    exact safe_ite (safe_modRouter (safe_dropHeads h)) (safe_dropHeads h)

theorem safe_execRouteFlits {plane site : Nat} {bad : List Nat} : OutSafe (execRouteFlits plane site bad s) :=
  safe_next (safe_ite h (safe_forL (fun _ _ h' => safe_loseFlit h') (safe_inject (safe_forL (fun _ _ h' => safe_putFlit h')
    (safe_modRouter h)))))

theorem safe_execInjectionStarvation {plane site : Nat} : OutSafe (execInjectionStarvation plane site s) :=
  safe_next (safe_ite (safe_modRouter h) h)

theorem safe_tagDrop {site : Nat} {f : Flit} : SafeState (s.tagDrop site f) :=
  safe_logSvc (safe_ite (safe_modSlice h) (safe_modCluster h))

theorem safe_execSinkEject {plane site : Nat} : OutSafe (execSinkEject plane site s) := by
  unfold execSinkEject
  refine safe_next ?_
  dsimp only
  split
  · exact h
  · refine safe_ite (safe_tagDrop (safe_modRouter h)) ?_
    split
    · exact safe_modRouter h
    · exact safe_ite (safe_modRouter h) (safe_ite (safe_mk (safe_modRouter h)) (safe_ite (safe_modSlice (safe_mk
        (safe_modRouter h))) (safe_endReq (safe_modRouter h))))

end

/-! Functions of `Sys2Proof/Machine/Service.lean`. -/

section
variable {s : State} (h : SafeState s)
include h

theorem safe_replyReq {id : Nat} {r : Req} : SafeState (s.replyReq id r) := safe_enqueue (safe_mk h)

theorem safe_fillL0 {r : Req} {l : Line} : SafeState (s.fillL0 r l) := safe_modIssue h

theorem safe_changeLine {q key id : Nat} {r : Req} : SafeState (s.changeLine q key id r).1 := by
  unfold State.changeLine
  dsimp only
  split
  · exact safe_modIssue (safe_modSlice h)
  · refine safe_modCluster ?_
    split
    · exact h
    · exact safe_modSlice h

theorem safe_chargeFar {cid co cls dst n : Nat} : SafeState (s.chargeFar cid co cls dst n) := safe_modCohort h

theorem safe_performReq {q key id : Nat} : SafeState (s.performReq q key id) := by
  unfold State.performReq
  split
  · exact h
  · dsimp only
    split
    · exact safe_replyReq (safe_dropStored (safe_chargeFar (safe_modSlice h)))
    · split
      · exact safe_replyReq (safe_ite (safe_fillL0 (safe_chargeFar (safe_modSlice h))) (safe_chargeFar (safe_modSlice h)))
      · exact safe_replyReq (safe_ite (safe_fillL0 (safe_chargeFar (safe_modSlice h))) (safe_ite (safe_chargeFar
          (safe_modSlice h)) (safe_modSlice (safe_chargeFar (safe_modSlice h)))))
      · exact safe_replyReq (safe_changeLine (safe_chargeFar (safe_modSlice h)))

theorem safe_noteSlice {q : Nat} : SafeState (s.noteSlice q) := safe_noteWindow (safe_noteWindow h)

theorem safe_enterTrail {id : Nat} {r : Req} {st : Stage} : SafeState (s.enterTrail id r st) := safe_modThread (safe_mk h)

theorem safe_failTranslation {id : Nat} {cause : Cause} : SafeState (s.failTranslation id cause) := by
  unfold State.failTranslation
  split
  · exact h
  · dsimp only
    split
    · exact safe_replyReq (safe_modSlice h)
    · refine safe_ite ?_ (safe_replyReq (safe_dropStored (safe_modSlice h)))
      split
      · exact safe_mk (safe_notePage (safe_modSlice h))
      · exact safe_ite (safe_mk (safe_notePage (safe_modSlice h))) (safe_enterTrail (safe_notePage (safe_modSlice h)))

theorem safe_failLine {q key : Nat} {cause : Cause} : SafeState (s.failLine q key cause) :=
  safe_forL (fun _ _ h' => safe_failTranslation h') (safe_dropWay h)

theorem safe_joinWalk {q : Nat} {asid : BitVec 16} {va : W64} {key : Nat} : OptSafe id (s.joinWalk q asid va key) := by
  unfold State.joinWalk
  dsimp only
  split
  · exact safe_some (safe_modSlice h)
  · exact optSafe_ite trivial (safe_some (safe_modSlice (safe_fresh h)))

theorem safe_miss {q id : Nat} {r : Req} : SafeState (s.miss q id r) := by
  unfold State.miss
  refine safe_ite h ?_
  split
  · exact h
  · next hu =>
      have su := safe_of_some_pair hu (safe_allocWay h)
      exact safe_ite (safe_mk (safe_modSlice su)) (safe_getD (safe_joinWalk (safe_mk (safe_modSlice su))) h)

theorem safe_execHomeSliceRequest {sl id : Nat} : OutSafe (execHomeSliceRequest sl id s) := by
  unfold execHomeSliceRequest
  refine safe_next ?_
  split
  · exact h
  · refine safe_ite (safe_noteSlice h) (safe_ite (safe_enterTrail (safe_modSlice (safe_modSlice (safe_noteSlice h)))) ?_)
    split
    · exact safe_ite (safe_modSlice (safe_mk (safe_modSlice (safe_noteSlice h)))) (safe_performReq (safe_modSlice
        (safe_modSlice (safe_noteSlice h))))
    · split
      · exact safe_replyReq (safe_modSlice (safe_modSlice (safe_noteSlice h)))
      · exact safe_miss (safe_modSlice (safe_noteSlice h))

theorem safe_execPageWalkEnd {sl walk : Nat} : OutSafe (execPageWalkEnd sl walk s) := by
  unfold execPageWalkEnd
  refine safe_next ?_
  split
  · exact h
  · refine safe_ite h ?_
    dsimp only
    split
    · exact safe_modSlice (safe_modSlice (safe_noteSlice h))
    · refine safe_forL (fun _ _ h' => ?_) (safe_modSlice (safe_noteSlice h))
      split
      · exact safe_failLine h'
      · exact h'

theorem safe_serveLine {q key : Nat} {ids : List Nat} : SafeState (s.serveLine q key ids) := by
  unfold State.serveLine
  refine safe_forL (fun _ _ h' => ?_) h
  split
  · exact h'
  · exact safe_ite (safe_enterTrail h') (safe_performReq h')

theorem safe_execLineFillDone {sl key : Nat} : OutSafe (execLineFillDone sl key s) := by
  unfold execLineFillDone
  refine safe_next (safe_ite h ?_)
  dsimp only
  split
  · exact safe_ite h (safe_getD (safe_joinWalk h) h)
  · split
    · exact safe_failLine h
    · split
      · exact safe_failLine h
      · exact safe_serveLine (safe_modSlice (safe_fillWay h))

theorem safe_execPatrolScrub {ch line : Nat} {bad : List Nat} {corrected : Nat} :
    OutSafe (execPatrolScrub ch line bad corrected s) :=
  safe_next (safe_ite h (safe_forL (fun _ _ h' => safe_ite h' (safe_ite (safe_postInfo (safe_mk h')) (safe_mk h')))
    (safe_modSlice h)))

end

/-! Functions of `Sys2Proof/Machine/Engine.lean`. -/

section
variable {s : State} (h : SafeState s)
include h

theorem safe_putBytesP {a : Nat} {d : List PByte} : SafeState (s.putBytesP a d) := memWrite_wf h

theorem safe_homeReadP {asid : BitVec 16} {va : W64} {n : Nat} : AccSafe Prod.fst (s.homeReadP asid va n) := by
  unfold State.homeReadP
  split
  · trivial
  · trivial
  · next hu => exact safe_done_pair (safe_of_done_pair hu (safe_ensureLine h))

theorem safe_homeWriteP {asid : BitVec 16} {va : W64} {d : List PByte} : AccSafe id (s.homeWriteP asid va d) := by
  unfold State.homeWriteP
  split
  · trivial
  · trivial
  · next hu => exact safe_done (safe_modSlice (safe_of_done_pair hu (safe_ensureLine h)))

theorem safe_bounceEpisode {tag : Nat} : SafeState (s.bounceEpisode tag) := by
  unfold State.bounceEpisode
  split
  · exact safe_ite h (safe_modPart (safe_postInfo h))
  · exact h

theorem safe_bounceIn {asid : BitVec 16} {va : W64} {d : List PByte} : SafeState (s.bounceIn asid va d).1 := by
  unfold State.bounceIn
  dsimp only
  split
  · exact h
  · exact safe_ite_pair (safe_pair (safe_notePage (safe_modPart h))) (safe_pair (safe_bounceEpisode h))

theorem safe_homeLand {asid : BitVec 16} {va : W64} {d : List PByte} : AccSafe id (s.homeLand asid va d) :=
  accSafe_ite trivial (safe_homeWriteP h)

theorem safe_engineWrite {asid : BitVec 16} {va : W64} {d : List PByte} : AccSafe id (s.engineWrite asid va d) := by
  unfold State.engineWrite
  split
  · next hu => exact safe_done (safe_of_done hu (safe_homeLand h))
  · trivial
  · refine accSafe_ite ?_ trivial
    split
    · next hu => exact safe_done (safe_of_pair hu (safe_bounceIn h))
    · trivial

theorem safe_engineStall {asid : BitVec 16} {va : W64} {d : List PByte} : SafeState (s.engineStall asid va d) := by
  unfold State.engineStall
  split
  · exact safe_ite (safe_bounceIn h) h
  · exact h

theorem safe_dropL0At {p : Nat} {asid : BitVec 16} {va : W64} : SafeState (s.dropL0At p asid va) := safe_modCluster h

theorem safe_fillMline {p line : Nat} {l : MLine} : AccSafe id (s.fillMline p line l) := by
  unfold State.fillMline
  refine accSafe_ite trivial ?_
  split
  · trivial
  · trivial
  · next hu => exact safe_done (safe_modMline (safe_putBytesP (safe_of_done_pair hu (safe_ensureLine h))))

theorem safe_serveWait {p : Nat} {w : MWait} : SafeState (s.serveWait p w) := by
  unfold State.serveWait
  dsimp only
  split
  · split
    · exact safe_performLane (safe_resultLane h)
    · exact safe_ite (safe_performLane (safe_ite (safe_dueTrap h) (safe_modMline (safe_writeBytes h)))) (safe_ite
        (safe_dueTrap h) (safe_modMline (safe_writeBytes h)))
    · exact safe_ite (safe_dueTrap (safe_resultLane h)) (safe_resultLane (safe_atomStash h))
  · split
    · refine safe_leaveTrail (safe_mk ?_)
      split
      · exact safe_performLane (safe_resultLane h)
      · exact safe_ite (safe_performLane (safe_ite (safe_dueTrap h) (safe_modMline (safe_writeBytes h)))) (safe_ite
          (safe_dueTrap h) (safe_modMline (safe_writeBytes h)))
      · exact safe_ite (safe_dueTrap (safe_resultLane h)) (safe_resultLane (safe_atomStash h))
    · split
      · exact safe_performLane (safe_resultLane h)
      · exact safe_ite (safe_performLane (safe_ite (safe_dueTrap h) (safe_modMline (safe_writeBytes h)))) (safe_ite
          (safe_dueTrap h) (safe_modMline (safe_writeBytes h)))
      · exact safe_ite (safe_dueTrap (safe_resultLane h)) (safe_resultLane (safe_atomStash h))

theorem safe_wbLanes {p : Nat} {l : List (Nat × Nat)} : SafeState (s.wbLanes p l) :=
  safe_forL (fun _ _ h' => safe_ite (safe_performLane h') h') h

theorem safe_mlineRest {p line : Nat} : SafeState (s.mlineRest p line) := by
  unfold State.mlineRest
  split
  · exact h
  · exact safe_ite h (safe_wbLanes (safe_modCluster h))

theorem safe_takeWaiters {p line : Nat} {l : MLine} : SafeState (s.takeWaiters p line l).1 :=
  safe_pair (safe_modMline (safe_modCluster h))

theorem safe_trailWait {p : Nat} {l : MLine} {w : MWait} : SafeState (s.trailWait p l w) := by
  unfold State.trailWait
  split
  · split
    · exact safe_mk h
    · exact h
  · exact safe_modThread (safe_mk (safe_fresh h))

theorem safe_failMline {p line : Nat} {l : MLine} {cause : Cause} : SafeState (s.failMline p line l cause) := by
  unfold State.failMline
  split
  · next hu =>
      have su := safe_of_pair hu (safe_takeWaiters h)
      refine safe_mlineRest (safe_ite (safe_forL (fun _ _ h' => safe_trailWait h') (safe_notePage (safe_modMline su)))
        (safe_forL (fun _ _ h' => safe_dueTrap ?_) (safe_modMline su)))
      split
      · refine safe_leaveTrail (safe_mk ?_)
        split
        · exact safe_ite (safe_performLane h') h'
        · exact safe_performLane (safe_resultLane h')
        · exact safe_resultLane h'
      · split
        · exact safe_ite (safe_performLane h') h'
        · exact safe_performLane (safe_resultLane h')
        · exact safe_resultLane h'

theorem safe_serveMline {p line : Nat} : SafeState (s.serveMline p line) := by
  unfold State.serveMline
  split
  · exact h
  · split
    · next hu =>
        refine safe_forL (fun _ _ h' => ?_) (safe_mlineRest (safe_forL (fun _ _ h' => safe_serveWait h') (safe_of_pair hu
          (safe_takeWaiters h))))
        split
        · exact safe_ite (safe_waitLine h') (safe_serveWait h')
        · exact safe_serveWait h'

theorem safe_touchMline {p line : Nat} : AccSafe id (s.touchMline p line) := by
  unfold State.touchMline
  split
  · exact safe_done h
  · refine accSafe_ite trivial (accSafe_ite (safe_done h) ?_)
    split
    · next hu => exact safe_done (safe_serveMline (safe_of_done hu (safe_fillMline h)))
    · trivial
    · trivial

theorem safe_stashReadP {p off n : Nat} : AccSafe Prod.fst (s.stashReadP p off n) := by
  unfold State.stashReadP
  split
  · trivial
  · trivial
  · next hu =>
      have su := safe_of_done hu (safe_touchMline h)
      refine accSafe_ite (safe_done_pair su) ?_
      split
      · trivial
      · trivial
      · next hv => exact safe_done_pair (safe_of_done hv (safe_touchMline su))

theorem safe_stashWriteP {p off : Nat} {d : List PByte} : AccSafe id (s.stashWriteP p off d) := by
  unfold State.stashWriteP
  split
  · trivial
  · trivial
  · next hu =>
      have su := safe_of_done hu (safe_touchMline h)
      split
      · exact accSafe_ite trivial (accSafe_ite (safe_done (safe_modMline (safe_putBytesP su))) trivial)
      · exact safe_done (safe_putBytesP su)

end

/-! Functions of `Sys2Proof/Machine/Barrier.lean`. -/

section
variable {s : State} (h : SafeState s)
include h

theorem safe_setBar {c : Crew} {i : Nat} {b : BarObj} : SafeState (s.setBar c i b) := (stays_setBar ..).2 h

omit h in
theorem safe_seqSlot {x : Slot} {g : Fin 32 → State → Except Cause (State × W64)} {s : State} {ad : Fin 32 → W64}
    (hg : ∀ i t, SafeState t → ExcSafe (fun _ => True) Prod.fst (g i t)) (h : SafeState s) : SafeState (seqSlot x g s ad) := by
  refine safe_finishLate (safe_addPend (safe_forL_pair (fun _ _ h' => ?_) (safe_pair h)))
  split
  · exact safe_pair h'
  · next hu => exact safe_pair (safe_of_ok_fst hu (hg _ _ h'))

end

/-! Functions of `Sys2Proof/Machine/Job.lean`. -/

section
variable {s : State} (h : SafeState s)
include h

omit h in
theorem safe_globalParts {src : Option Nat} {asid : BitVec 16} {l : List (Nat × Nat)} (h : SafeState s) :
    AccSafe Prod.fst (s.globalParts src asid l) := by
  induction l generalizing s with
  | nil => exact safe_done_pair h
  | cons y l ih =>
    unfold State.globalParts
    refine accSafe_ite trivial ?_
    split
    · trivial
    · trivial
    · next hu =>
      split
      · trivial
      · trivial
      · next hv => exact safe_done_pair (safe_of_done_pair hv (ih (safe_of_done_pair hu (safe_homeReadP h))))

theorem safe_engineRead {p : Nat} {asid : BitVec 16} {va n : Nat} : AccSafe Prod.fst (s.engineRead p asid va n) :=
  safe_globalParts h

theorem safe_noteRead {asid : BitVec 16} {va n : Nat} : SafeState (s.noteRead asid va n) := by
  unfold State.noteRead
  refine safe_forL (fun _ _ h' => ?_) h
  split
  · exact safe_ite (safe_notePage h') h'
  · exact h'

theorem safe_noteStash {p off n : Nat} : SafeState (s.noteStash p off n) := by
  unfold State.noteStash
  refine safe_forL (fun _ _ h' => safe_ite ?_ h') h
  split
  · exact safe_ite (safe_notePage h') h'
  · exact h'

theorem safe_engineGlobal {p : Nat} {asid : BitVec 16} {va : W64} {d : List PByte} :
    AccSafe id (s.engineGlobal p asid va d) := by
  unfold State.engineGlobal
  refine accSafe_ite trivial ?_
  split
  · next hu => exact safe_done (safe_dropL0At (safe_of_done hu (safe_engineWrite h)))
  · trivial
  · trivial

theorem safe_finishCancel {l : List (Nat × Nat)} {v : Nat} : SafeState (s.finishCancel l v) := (stays_finishCancel ..).2 h

omit h in
theorem safe_cancelLane {g : Nat × Nat → Fin 32 → State → State × Option Nat} {id : Nat} {i : Fin 32} {s : State}
    (hg : ∀ i j t, SafeState t → SafeState (g i j t).1) (h : SafeState s) :
    SafeState (cancelLane g id i s) := by
  unfold cancelLane
  split
  · next hu => exact safe_finishCancel (safe_of_pair hu (hg _ _ _ h))
  · next hu => exact safe_of_pair hu (hg _ _ _ h)

omit h in
theorem safe_cancelSlot {x : Slot} {g : Nat × Nat → Fin 32 → State → State × Option Nat} {s : State}
    (hg : ∀ i j t, SafeState t → SafeState (g i j t).1) (h : SafeState s) :
    SafeState (cancelSlot x g s) :=
  safe_finishLate (safe_forL (fun _ _ h' => safe_cancelLane (fun _ _ _ h'' => hg _ _ _ h'') h') (safe_addPend h))

end

/-! Functions of `Sys2Proof/Machine/Queue.lean`. -/

section
variable {s : State} (h : SafeState s)
include h

theorem safe_modQueue {tag qi : Nat} {f : Queue → Queue} : SafeState (s.modQueue tag qi f) := safe_modPart h

theorem safe_queueTo {tag qi : Nat} {st : BitVec 2} : SafeState (s.queueTo tag qi st) :=
  safe_ite h (safe_postEvent (safe_modQueue h))

theorem safe_overrun {tag qi : Nat} : SafeState (s.overrun tag qi) :=
  safe_ite (safe_postInfo (safe_queueTo (safe_modQueue h))) h

theorem safe_readRecord {tag : Nat} {va : W64} : AccSafe Prod.fst (s.readRecord tag va) := by
  unfold State.readRecord
  refine accSafe_ite (safe_done_pair h) ?_
  split
  · next hu => exact safe_done_pair (safe_of_done_pair hu (safe_readVa h))
  · trivial
  · trivial

theorem safe_fetchRecord {tag qi : Nat} {stampOf : List W64 → Nat} : SafeState (s.fetchRecord tag qi stampOf).1 := by
  unfold State.fetchRecord
  refine safe_ite_pair (safe_pair h) (safe_ite_pair (safe_pair (safe_overrun h)) ?_)
  split
  · next hu =>
      have su := safe_of_done_pair hu (safe_readRecord (safe_overrun h))
      exact safe_ite_pair (safe_pair (safe_modQueue (safe_queueTo su))) (safe_pair (safe_modQueue su))
  · exact safe_overrun h

theorem safe_nextMapping {tag : Nat} : SafeState (s.nextMapping tag).1 := by
  unfold State.nextMapping
  refine safe_ite_pair (safe_pair h) ?_
  split
  · exact h
  · split
    · next hu => exact safe_of_pair hu (safe_fetchRecord h)
    · next hu =>
        have su := safe_of_pair hu (safe_fetchRecord h)
        split
        · exact su
        · exact safe_postEvent su

end

/-! Functions of `Sys2Proof/Machine/Copy.lean`. -/

section
variable {s : State} (h : SafeState s)
include h

theorem safe_cpOffer {x : Slot} {lane : Nat} {k : CpKind} {peer : Nat} {d : List W64} :
    SafeState (s.cpOffer x lane k peer d).1 :=
  (stays_cpOffer ..).2 h

theorem safe_cpPost {o : Op} {k : CpKind} {f : Fields} : OutSafe (cpPost o k f s) := by
  unfold cpPost
  refine safe_runSlot h (fun _ _ h' => safe_seqSlot (fun _ _ h'' => ?_) h')
  dsimp only
  split
  · trivial
  · exact safe_ok_fst (safe_cpOffer h'')

theorem safe_touchRange {p off n : Nat} : AccSafe id (s.touchRange p off n) := by
  unfold State.touchRange
  refine accSafe_forN (fun _ _ h' => ?_) (safe_done h)
  split
  · exact accSafe_ite (safe_touchMline h') h'
  · exact h'

theorem safe_cpSource {c : Crew} {j : CpJob} {a : Int} {n : Nat} {computed : Bool} :
    AccSafe Prod.fst (s.cpSource c j a n computed) := by
  unfold State.cpSource
  refine accSafe_ite (accSafe_ite trivial (accSafe_ite trivial (safe_stashReadP h))) ?_
  split
  · trivial
  · exact accSafe_ite trivial (accSafe_ite trivial (safe_engineRead h))

theorem safe_spBytes {c : Crew} {j : CpJob} {held : Option (List PByte)} {row off n : Nat} :
    AccSafe Prod.fst (s.spBytes c j held row off n) := by
  induction n with
  | zero => exact safe_done_pair h
  | succ n ih =>
    unfold State.spBytes
    split
    · trivial
    · trivial
    · next hu =>
      have su := safe_of_done_pair hu ih
      split
      · trivial
      · exact safe_done_pair su
      · split
        · exact safe_done_pair su
        · split
          · trivial
          · trivial
          · next hv => exact safe_done_pair (safe_of_done_pair hv (safe_cpSource su))

theorem safe_cpData {c : Crew} {j : CpJob} {g : Nat} {y : Piece} : AccSafe Prod.fst (s.cpData c j g y) := by
  unfold State.cpData
  dsimp only
  split
  · exact safe_spBytes h
  · exact safe_done_pair h
  · split
    · exact safe_done_pair h
    · exact safe_cpSource h

theorem safe_cpPut {p : Nat} {j : CpJob} {y : Piece} {d : List PByte} : AccSafe id (s.cpPut p j y d) := by
  unfold State.cpPut
  refine accSafe_ite ?_ ?_
  · split
    · trivial
    · exact accSafe_ite trivial (accSafe_ite trivial (accSafe_ite (accSafe_ite (safe_done (safe_mk h)) trivial)
        (safe_engineGlobal h)))
  · split
    · trivial
    · trivial
    · refine accSafe_ite trivial (accSafe_ite trivial (accSafe_ite ?_ (safe_stashWriteP h)))
      split
      · next hu => exact safe_stashWriteP (safe_of_done_pair hu (safe_stashReadP h))
      · trivial
      · trivial

theorem safe_cpOver {p slot : Nat} {j : CpJob} {st : JobSt} {cause : Cause} : SafeState (s.cpOver p slot j st cause) :=
  (stays_cpOver ..).2 h

theorem safe_cpEnd {p slot : Nat} {j : CpJob} {st : JobSt} {cause : Cause} : SafeState (s.cpEnd p slot j st cause) :=
  (stays_cpEnd ..).2 h

theorem safe_cpLanded {p slot g recv n : Nat} : SafeState (s.cpLanded p slot g recv n) := safe_modCluster h

theorem safe_noteSource {c : Crew} {j : CpJob} {y : Piece} : SafeState (s.noteSource c j y) :=
  safe_ite (safe_noteStash h) (safe_noteRead h)

theorem safe_noteDest {j : CpJob} {y : Piece} : SafeState (s.noteDest j y) := by
  unfold State.noteDest
  split
  · exact safe_noteStash h
  · exact h

theorem safe_cpLand {p slot g : Nat} {c : Crew} {j : CpJob} {y : Piece} : SafeState (s.cpLand p slot g c j y) := by
  unfold State.cpLand
  split
  · exact h
  · exact safe_ite (safe_noteSource h) (safe_cpEnd h)
  · next hu =>
      have su := safe_of_done_pair hu (safe_cpData h)
      dsimp only
      split
      · exact safe_ite (safe_engineStall (safe_ite (safe_modCluster su) su)) (safe_ite (safe_modCluster su) su)
      · exact safe_ite (safe_noteDest (safe_ite (safe_modCluster su) su)) (safe_cpEnd (safe_ite (safe_modCluster su) su))
      · next hv => exact safe_cpLanded (safe_of_done hv (safe_cpPut (safe_ite (safe_modCluster su) su)))

theorem safe_fcpSend {p slot g part : Nat} {j : CpJob} {l : Load} : SafeState (s.fcpSend p slot g part j l) :=
  safe_modCluster (safe_sendFab h)

theorem safe_fcpLand {p slot g : Nat} {c : Crew} {j : CpJob} {y : Piece} : SafeState (s.fcpLand p slot g c j y) := by
  unfold State.fcpLand
  refine safe_ite h (safe_ite ?_ (safe_ite (safe_cpLand h) (safe_fcpSend h)))
  split
  · exact h
  · exact safe_ite (safe_noteSource h) (safe_cpEnd h)
  · next hu => exact safe_fcpSend (safe_of_done_pair hu (safe_cpData h))

theorem safe_landGranule {p slot g : Nat} : SafeState (s.landGranule p slot g) := by
  unfold State.landGranule
  split
  · exact h
  · split
    · exact h
    · refine safe_ite h ?_
      dsimp only
      split
      · exact h
      · exact safe_ite (safe_noteStash h) (safe_cpEnd h)
      · next hu =>
          have su := safe_of_done hu (accSafe_ite (safe_touchRange h) (safe_done h))
          split
          · exact su
          · exact safe_ite su (safe_ite (safe_ite (safe_cpEnd su) (safe_ite su (safe_mk (safe_fresh su)))) (safe_ite
              (safe_fcpLand su) (safe_cpLand su)))

theorem safe_execCopyGranuleLand {p slot g : Nat} : OutSafe (execCopyGranuleLand p slot g s) := safe_next (safe_landGranule h)

theorem safe_execCopyJobStart {p slot : Nat} : OutSafe (execCopyJobStart p slot s) := by
  unfold execCopyJobStart
  refine safe_next ?_
  dsimp only
  split
  · exact h
  · exact safe_ite (safe_modCluster h) h

theorem safe_execCopyJobEnd {p slot : Nat} : OutSafe (execCopyJobEnd p slot s) := by
  unfold execCopyJobEnd
  refine safe_next ?_
  split
  · exact h
  · split
    · exact h
    · exact safe_ite (safe_cpEnd h) h

theorem safe_execRouteStationForward {p slot station g : Nat} : OutSafe (execRouteStationForward p slot station g s) := by
  unfold execRouteStationForward
  refine safe_next ?_
  split
  · exact h
  · exact safe_ite (safe_modCluster h) h

theorem safe_execCpStat {f : Fields} : OutSafe (execCpStat f s) :=
  safe_runSlot h (fun _ _ h' => safe_seqSlot (fun _ _ h'' => excSafe_ite trivial (safe_ok_pair h'')) h')

theorem safe_cpCancelOne {x : Slot} {w : Nat × Nat} {v : W64} : SafeState (s.cpCancelOne x w v).1 :=
  (stays_cpCancelOne ..).2 h

theorem safe_execCpCancel {f : Fields} : OutSafe (execCpCancel f s) :=
  safe_runSlot h (fun _ _ h' => safe_cancelSlot (fun _ _ _ h'' => safe_cpCancelOne h'') h')

end

/-! Functions of `Sys2Proof/Machine/Peer.lean`. -/

section
variable {s : State} (h : SafeState s)
include h

theorem safe_peerAtomic {asid : BitVec 16} {va : W64} {op : ReqOp} : AccSafe Prod.fst (s.peerAtomic asid va op) := by
  unfold State.peerAtomic
  split
  · trivial
  · trivial
  · next hu =>
      have su := safe_of_done_pair hu (safe_ensureLine h)
      refine safe_done_pair ?_
      split
      · exact su
      · exact safe_modSlice su

theorem safe_noteParts {asid : BitVec 16} {kind : Nat} {l : List (Nat × Nat)} : SafeState (s.noteParts asid kind l) := by
  unfold State.noteParts
  refine safe_forL (fun _ _ h' => ?_) h
  split
  · exact safe_ite (safe_notePage h') h'
  · exact h'

theorem safe_bounceStall {asid : BitVec 16} {va : W64} : SafeState (s.bounceStall asid va) :=
  safe_bounceEpisode (safe_notePage h)

theorem safe_trapWriters {l : List (Nat × Nat)} {t : TrapRec} : SafeState (s.trapWriters l t) := by
  unfold State.trapWriters
  refine safe_forL (fun _ _ h' => ?_) h
  split
  · exact safe_dueTrap h'
  · exact h'

theorem safe_fcpFail {r : FabReq} {p slot serial : Nat} {cause : Cause} : SafeState (s.fcpFail r p slot serial cause) := by
  unfold State.fcpFail
  split
  · exact h
  · split
    · exact h
    · exact safe_ite h (safe_dueTrap (safe_cpOver h))

theorem safe_fcpAck {r : FabReq} {p slot serial g : Nat} {d : List PByte} : SafeState (s.fcpAck r p slot serial g d) := by
  unfold State.fcpAck
  split
  · exact h
  · split
    · exact h
    · refine safe_ite h ?_
      dsimp only
      split
      · exact safe_ite (safe_cpEnd (safe_ite (safe_cpLanded (safe_modCluster h)) (safe_modCluster h))) (safe_ite
          (safe_cpLanded (safe_modCluster h)) (safe_modCluster h))
      · exact safe_ite (safe_cpLanded (safe_modCluster h)) (safe_modCluster h)

theorem safe_fcpDrop {p slot serial g : Nat} : SafeState (s.fcpDrop p slot serial g).1 := by
  unfold State.fcpDrop
  split
  · exact h
  · exact safe_ite_pair (safe_pair h) (safe_pair (safe_ite (safe_cpEnd (safe_modCluster h)) (safe_modCluster h)))

theorem safe_fabPerformed {r : FabReq} {d : List PByte} : SafeState (s.fabPerformed r d) := by
  unfold State.fabPerformed
  split
  · split
    · exact h
    · exact safe_ite (safe_resultLane h) (safe_resultLane h)
  · exact h
  · exact safe_fcpAck h
  · exact h

theorem safe_fabEnded {r : FabReq} {cause : Cause} : SafeState (s.fabEnded r cause) := by
  unfold State.fabEnded
  dsimp only
  split
  · exact safe_dueTrap (safe_resultLane h)
  · exact safe_trapWriters h
  · split
    · next hu => exact safe_of_pair hu (safe_fcpDrop h)
    · exact safe_fcpFail h
  · exact h

theorem safe_dropFab {id : Nat} : SafeState (s.dropFab id) := h

theorem safe_postFab {r : FabReq} {cause : Cause} : SafeState (s.postFab r cause) := safe_ite (safe_postInfo h) h

theorem safe_endFab {id : Nat} {r : FabReq} {cause : Cause} : SafeState (s.endFab id r cause) :=
  safe_fabEnded (safe_mk (safe_dropFab (safe_postFab h)))

theorem safe_doneFab {id : Nat} {r : FabReq} {d : List PByte} : SafeState (s.doneFab id r d) := by
  unfold State.doneFab
  dsimp only
  split
  · split
    · exact safe_ite (safe_fabPerformed (safe_dropFab (safe_dropFab h))) (safe_dropFab h)
    · exact safe_dropFab h
  · refine safe_ite ?_ (safe_ite (safe_mk h) (safe_fabPerformed (safe_dropFab h)))
    split
    · exact safe_sendPkt (safe_mk h)
    · exact safe_fabPerformed (safe_dropFab h)

theorem safe_peerAlive {part mod tag : Nat} : SafeState (s.peerAlive part mod tag) := safe_modPart h

theorem safe_fabAck {id : Nat} {a : FabAck} : SafeState (s.fabAck id a) := by
  unfold State.fabAck
  split
  · exact h
  · refine safe_ite h (safe_ite ?_ (safe_doneFab (safe_peerAlive h)))
    split
    · split
      · exact safe_ite (safe_dropFab (safe_peerAlive h)) (safe_endFab (safe_dropFab (safe_peerAlive h)))
      · exact safe_dropFab (safe_peerAlive h)
    · exact safe_endFab (safe_peerAlive h)

theorem safe_setFailover {part pid : Nat} : SafeState (s.setFailover part pid) := safe_ite h (safe_postInfo (safe_setPeer h))

theorem safe_failover {id : Nat} {r : FabReq} : SafeState (s.failover id r) :=
  safe_ite (safe_endFab (safe_setFailover h)) (safe_mk (safe_fresh (safe_setFailover h)))

theorem safe_fabLost {id : Nat} {r : FabReq} {cause : Cause} : SafeState (s.fabLost id r cause) := by
  unfold State.fabLost
  dsimp only
  split
  · split
    · exact safe_ite (safe_dropFab h) (safe_ite (safe_ite (safe_fabPerformed (safe_dropFab (safe_dropFab h))) (safe_dropFab
        h)) (safe_endFab (safe_dropFab h)))
    · exact safe_dropFab h
  · exact safe_ite h (safe_ite (safe_failover h) (safe_endFab h))

theorem safe_leave {f : Nat} {det : Bool} {k : FabPkt} : SafeState (s.leave f det k) := h

theorem safe_dropPkt {k : FabPkt} : SafeState (s.dropPkt k) := h

theorem safe_emit {k : FabPkt} : SafeState (s.emit k) := by
  unfold State.emit
  split
  · exact safe_mk (safe_fresh h)
  · exact safe_dropPkt h

theorem safe_answer {k : FabPkt} {a : FabAck} : SafeState (s.answer k a) := by
  unfold State.answer
  refine safe_ite ?_ (safe_emit h)
  split
  · exact safe_fabAck h
  · exact h

omit h in
theorem safe_peerWrite {asid : BitVec 16} {va : Nat} {d : List PByte} {l : List (Nat × Nat)} (h : SafeState s) :
    ServedSafe (s.peerWrite asid va d l) := by
  induction l generalizing s with
  | nil => exact h
  | cons y l ih =>
    unfold State.peerWrite
    dsimp only
    split
    · next hu => exact ih (safe_of_done hu (safe_homeLand h))
    · trivial
    · split
      · split
        · next hu => exact ih (safe_of_pair hu (safe_bounceIn (safe_notePage h)))
        · next hu => exact safe_of_pair hu (safe_bounceIn (safe_notePage h))
      · exact h

theorem safe_serve {k : FabPkt} : ServedSafe (s.serve k) := by
  unfold State.serve
  dsimp only
  split
  · exact h
  · split
    · split
      · next hu => exact safe_of_done_pair hu (safe_globalParts h)
      · trivial
      · split
        · exact safe_noteParts h
        · exact h
    · split
      · exact h
      · split
        · next hu => exact hu ▸ safe_peerWrite h
        · exact safe_bounceStall h
        · trivial
    · split
      · next hu => exact safe_of_done_pair hu (safe_peerAtomic h)
      · trivial
      · split
        · exact safe_notePage h
        · exact h

theorem safe_retryInbound : SafeState s.retryInbound := by
  refine safe_forL (fun _ _ h' => ?_) h
  split
  · next hu => exact safe_answer (safe_mk (safe_of_served hu (safe_serve h')))
  · exact h'

theorem safe_accept {k : FabPkt} : OptSafe id (s.accept k) := by
  unfold State.accept
  split
  · next hu => exact safe_some (safe_answer (safe_of_served hu (safe_serve h)))
  · next hu => exact safe_some (safe_mk (safe_fresh (safe_of_absent hu (safe_serve h))))
  · trivial

end

/-! Functions of `Sys2Proof/Machine/Sync.lean`. -/

section
variable {s : State} (h : SafeState s)
include h

theorem safe_execBarInit {f : Fields} : OutSafe (execBarInit f s) := by
  unfold execBarInit
  refine safe_runSlot h (fun _ _ h' => safe_seqSlot (fun _ _ h'' => ?_) h')
  dsimp only
  split
  · trivial
  · split
    · exact safe_ok_pair (safe_setBar h'')
    · exact safe_ok_pair h''

theorem safe_execBarArr {f : Fields} : OutSafe (execBarArr f s) := by
  unfold execBarArr
  refine safe_runSlot h (fun _ _ h' => safe_seqSlot (fun _ _ h'' => ?_) h')
  dsimp only
  split
  · trivial
  · exact excSafe_map_pair (fun _ => safe_pair (safe_setBar h''))

theorem safe_execBarExp {f : Fields} : OutSafe (execBarExp f s) := by
  unfold execBarExp
  refine safe_runSlot h (fun _ _ h' => safe_seqSlot (fun _ _ h'' => ?_) h')
  dsimp only
  split
  · trivial
  · exact excSafe_map_pair (fun _ => safe_pair (safe_setBar h''))

theorem safe_barAcquire {x : Slot} {lane idx : Nat} : SafeState (s.barAcquire x lane idx) := safe_startFence h

theorem safe_execBarWait {f : Fields} : OutSafe (execBarWait f s) :=
  safe_runSlot h (fun _ _ h' => safe_forL (fun _ _ h'' => safe_barAcquire h'') (safe_finishSlot (safe_slotLanes h')))

theorem safe_execBarTest {f : Fields} : OutSafe (execBarTest f s) := by
  unfold execBarTest
  refine safe_runSlot h (fun x _ h' => safe_seqSlot (fun _ t h'' => ?_) h')
  dsimp only
  generalize t.bar x.crew _ = b
  split
  · trivial
  · exact excSafe_ite (safe_ok_pair h'') (safe_ok_pair (safe_barAcquire h''))

theorem safe_execGbar {f : Fields} : OutSafe (execGbar f s) :=
  safe_runSlot h (fun _ _ h' => safe_startFence (safe_finishSlot (safe_slotLanes h')))

theorem safe_execChnBind {f : Fields} : OutSafe (execChnBind f s) :=
  safe_runSlot h (fun _ _ h' => safe_ite (safe_modCohort (safe_finishSlot h')) (safe_finishSlot h'))

theorem safe_chanResult {x : Slot} {w : Option (Vector QEnt 32)} {k : Option Nat} : SafeState (chanResult x w k s) :=
  safe_finishLate (safe_addPend h)

theorem safe_popChan {cid n : Nat} : SafeState (s.popChan cid n) := safe_modCrew h

theorem safe_execChnPop {f : Fields} : OutSafe (execChnPop f s) :=
  safe_runSlot h (fun _ _ h' => safe_ite (safe_finishSlot (safe_ite h' (safe_popChan h'))) (safe_chanResult (safe_ite h'
    (safe_popChan h'))))

theorem safe_execChnTry {f : Fields} : OutSafe (execChnTry f s) :=
  safe_runSlot h (fun _ _ h' => safe_chanResult (safe_ite (safe_popChan h') h'))

theorem safe_bundleResult {x : Slot} {l : List (Nat × TrapRec)} {v : W64} : SafeState (bundleResult x l v s) :=
  safe_finishLate (safe_addPend h)

theorem safe_execChnCnt {f : Fields} : OutSafe (execChnCnt f s) := safe_runSlot h (fun _ _ h' => safe_bundleResult h')

theorem safe_execAlwBind {f : Fields} : OutSafe (execAlwBind f s) :=
  safe_runSlot h (fun _ _ h' => safe_ite (safe_finishSlot h') (safe_modCohort (safe_finishSlot h')))

theorem safe_execAlwTest {f : Fields} : OutSafe (execAlwTest f s) := by
  unfold execAlwTest
  refine safe_runSlot h (fun _ _ h' => ?_)
  dsimp only
  split
  · exact safe_finishSlot h'
  · exact safe_bundleResult h'

theorem safe_execAlwRd {f : Fields} : OutSafe (execAlwRd f s) := by
  unfold execAlwRd
  refine safe_runSlot h (fun _ _ h' => ?_)
  split
  · exact safe_finishSlot h'
  · exact safe_bundleResult h'

end

/-! Functions of `Sys2Proof/Machine/Fabric.lean`. -/

section
variable {s : State} (h : SafeState s)
include h

theorem safe_charge {x : Slot} {n : Nat} : SafeState (s.charge x n) := (stays_charge ..).2 h

theorem safe_ldfLane {x : Slot} {id n : Nat} {sx : Bool} {ea : Fin 32 → W64} {k : Nat × List (Option Byte)} :
    SafeState (ldfLane x id n sx ea k s) :=
  (stays_ldfLane ..).2 h

theorem safe_execLdf {f : Fields} : OutSafe (execLdf f s) :=
  safe_runSlot h (fun _ _ h' => safe_finishLate (safe_forL (fun _ _ h'' => safe_ldfLane h'') (safe_charge (safe_addPend h'))))

theorem safe_wcbPut {p part pid : Nat} {who : Nat × Nat} {va : W64} {d : List Byte} :
    SafeState (s.wcbPut p part pid who va d) :=
  (stays_wcbPut ..).2 h

theorem safe_execStf {f : Fields} : OutSafe (execStf f s) :=
  safe_runSlot h (fun _ _ h' => safe_finishSlot (safe_forL (fun _ _ h'' => safe_wcbPut h'') (safe_charge h')))

theorem safe_fabAtomicLane {x : Slot} {id : Nat} {ea : Fin 32 → W64} {opc : Nat} {operand : Fin 32 → List Byte} {i : Fin 32} :
    SafeState (fabAtomicLane x id ea opc operand i s) :=
  (stays_fabAtomicLane ..).2 h

theorem safe_fabAtomic {x : Slot} {l : List (Nat × TrapRec)} {ea : Fin 32 → W64} {opc : Nat} {operand : Fin 32 → List Byte} :
    SafeState (fabAtomic x l ea opc operand s) :=
  safe_finishLate (safe_forL (fun _ _ h' => safe_fabAtomicLane h') (safe_charge (safe_addPend h)))

theorem safe_execAtomf {f : Fields} : OutSafe (execAtomf f s) := safe_runSlot h (fun _ _ h' => safe_fabAtomic h')

theorem safe_execCasf {f : Fields} : OutSafe (execCasf f s) := safe_runSlot h (fun _ _ h' => safe_fabAtomic h')

theorem safe_execFcp {f : Fields} : OutSafe (execFcp f s) := by
  unfold execFcp
  refine safe_runSlot h (fun _ _ h' => ?_)
  dsimp only
  exact safe_finishLate (safe_addPend (safe_forL_pair (fun _ _ h'' => safe_pair (safe_cpOffer h'')) (safe_pair (safe_charge
    h'))))

theorem safe_execWcbFlush {f : Fields} : OutSafe (execWcbFlush f s) :=
  safe_runSlot h (fun _ _ h' => safe_ite (safe_finishSlot h') (safe_finishSlot (safe_startFence (safe_drainWcb h'))))

theorem safe_execFpeer {f : Fields} : OutSafe (execFpeer f s) :=
  safe_runSlot h (fun _ _ h' => safe_finishLate (safe_addPend h'))

theorem safe_mark {m : Mark} : SafeState (s.mark m) := by
  unfold State.mark
  dsimp only
  split
  · exact safe_modCluster h
  · split
    · exact safe_modPart (safe_modCluster h)
    · exact safe_modCluster h
  · split
    · exact safe_modPart h
    · exact h
  · exact safe_modCluster h
  · split
    · exact safe_emit h
    · exact h

theorem safe_resetPeer {part mod rtag : Nat} : SafeState (s.resetPeer part mod rtag) := by
  unfold State.resetPeer
  dsimp only
  split
  · exact h
  · refine safe_forL (fun _ _ h' => safe_trapWriters h') (safe_mk (safe_forL (fun _ _ h' => ?_) (safe_forL (fun _ _ h' =>
      safe_ite (safe_setFailover h') h') (safe_modPart h))))
    split
    · exact safe_fabLost h'
    · exact h'

theorem safe_resetNotice {mod rtag : Nat} : SafeState (s.resetNotice mod rtag) :=
  safe_forL (fun _ _ h' => safe_resetPeer h') h

theorem safe_execResetNotice {part mod rtag inc : Nat} : OutSafe (execResetNotice part mod rtag inc s) := by
  unfold execResetNotice
  refine safe_next ?_
  split
  · exact h
  · exact safe_ite (safe_resetNotice h) h

theorem safe_peerInc {mod rtag inc : Nat} : SafeState (s.peerInc mod rtag inc) := h

theorem safe_execPeerIncarnation {mod rtag inc : Nat} : OutSafe (execPeerIncarnation mod rtag inc s) :=
  safe_next (safe_peerInc h)

theorem safe_tellPeer {tag : Nat} {e : W64} {cls opc inc : Nat} : SafeState (s.tellPeer tag e cls opc inc) := by
  unfold State.tellPeer
  refine safe_ite (safe_ite (safe_resetNotice h) ?_) (safe_emit h)
  dsimp only
  split
  · exact safe_ite (safe_peerInc (safe_peerInc h)) (safe_peerInc h)
  · exact safe_peerInc h

theorem safe_notify {tag cls inc : Nat} : SafeState (s.notify tag cls inc) := by
  unfold State.notify
  split
  · exact h
  · refine safe_forL (fun _ _ h' => ?_) h
    split
    · exact safe_tellPeer h'
    · exact h'

theorem safe_service {k : FabPkt} : SafeState (s.service k) := by
  unfold State.service
  dsimp only
  split
  · split
    · exact safe_ite (safe_tellPeer (safe_peerInc h)) (safe_peerInc h)
    · exact safe_peerInc h
  · exact safe_peerInc h

theorem safe_joinPeer {part pid : Nat} {entry : W64} : SafeState (s.joinPeer part pid entry) := by
  unfold State.joinPeer
  dsimp only
  split
  · exact safe_ite (safe_tellPeer (safe_setPeer h)) (safe_setPeer h)
  · exact safe_setPeer h

theorem safe_execPeerJoin {part pid : Nat} {entry entry2 : W64} : OutSafe (execPeerJoin part pid entry entry2 s) :=
  safe_next (safe_ite h (safe_ite (safe_joinPeer (safe_joinPeer h)) (safe_joinPeer h)))

theorem safe_execFabricEgressRoute {id port : Nat} : OutSafe (execFabricEgressRoute id port s) := by
  refine safe_next ?_
  dsimp only
  split
  · refine safe_ite (safe_noteWindow h) (safe_ite (safe_leave (safe_mk (safe_noteWindow h))) (safe_emit (safe_mk (safe_noteWindow h))))
  · exact safe_noteWindow h
  · refine safe_ite (safe_noteWindow h) ?_
    split
    · split
      · split
        · split
          · next hu => exact safe_of_some hu (safe_accept (safe_mk (safe_noteWindow h)))
          · exact safe_noteWindow h
        · exact safe_mk (safe_noteWindow h)
      · exact safe_mk (safe_noteWindow h)
    · split
      · exact safe_ite (safe_mk (safe_leave (safe_noteWindow h))) (safe_noteWindow h)
      · exact safe_mk (safe_dropPkt (safe_noteWindow h))

theorem safe_ingressDrop {port : Nat} : SafeState (s.ingressDrop port) := h

theorem safe_tagDropPkt {port : Nat} {k : FabPkt} : SafeState (s.tagDropPkt port k) := safe_logSvc (safe_mk h)

theorem safe_control {k : FabPkt} : SafeState (s.control k) := by
  unfold State.control
  split
  · exact safe_ite (safe_mark h) h
  · exact safe_resetNotice h
  · exact safe_emit h
  · exact safe_peerAlive h
  · exact h

theorem safe_replied {k : FabPkt} : SafeState (s.replied k) := by
  unfold State.replied
  dsimp only
  split
  · exact safe_fabAck (safe_peerAlive h)
  · exact safe_peerAlive h

theorem safe_execFabricIngress {port : Nat} {pkt : FabPkt} : OutSafe (execFabricIngress port pkt s) := by
  have hr := safe_retryInbound h
  exact safe_next (safe_ite hr (safe_ite (safe_ingressDrop hr) (safe_ite (safe_emit hr) (safe_ite (safe_service hr)
    (safe_ite (safe_tagDropPkt hr) (safe_ite (safe_control hr) (safe_ite (safe_replied hr)
      (safe_getD (safe_accept hr) hr))))))))

theorem safe_execFabricAck {id : Nat} {ack : FabAck} : OutSafe (execFabricAck id ack s) := safe_next (safe_fabAck h)

theorem safe_execFabricTimeout {id : Nat} : OutSafe (execFabricTimeout id s) := by
  unfold execFabricTimeout
  refine safe_next ?_
  split
  · exact h
  · split
    · exact safe_ite h (safe_fabLost (safe_mk (safe_ite h (safe_setPeer h))))
    · exact h

theorem safe_execLinkTrain {port : Nat} {ok : Bool} {partner : Nat} : OutSafe (execLinkTrain port ok partner s) :=
  safe_next (safe_ite h (safe_mk (safe_fresh h)))

theorem safe_execLinkFlitRetry {port : Nat} {ok : Bool} : OutSafe (execLinkFlitRetry port ok s) :=
  safe_next (safe_ite h (safe_ite (safe_mk h) (safe_ite (safe_mk h) (safe_mk h))))

theorem safe_execWcbAgeDrain {p key : Nat} : OutSafe (execWcbAgeDrain p key s) := by
  unfold execWcbAgeDrain
  refine safe_next ?_
  split
  · exact h
  · exact safe_ite (safe_drainLine h) h

end

/-! Functions of `Sys2Proof/Machine/Mandrel.lean`. -/

section
variable {s : State} (h : SafeState s)
include h

theorem safe_modMx {p slot : Nat} {f : MxEnt → MxEnt} : SafeState (s.modMx p slot f) := safe_modCluster h

theorem safe_modBank {p b : Nat} {f : Bank → Bank} : SafeState (s.modBank p b f) := (stays_modBank ..).2 h

theorem safe_mxOver {p slot : Nat} {e : MxEnt} {st : JobSt} {cause : Cause} : SafeState (s.mxOver p slot e st cause) :=
  (stays_mxOver ..).2 h

theorem safe_mxTeamOver {e : MxEnt} : SafeState (s.mxTeamOver e) := (stays_mxTeamOver ..).2 h

theorem safe_mxDone {p slot : Nat} {e : MxEnt} : SafeState (s.mxDone p slot e) :=
  safe_ite (safe_mxTeamOver (safe_mxOver h)) (safe_mxOver h)

theorem safe_mxEndAll {p slot : Nat} {e : MxEnt} {st : JobSt} {cause : Cause} : SafeState (s.mxEndAll p slot e st cause) :=
  (stays_mxEndAll ..).2 h

theorem safe_mxOffer {x : Slot} {lane : Nat} {k : MxKind} {d : List W64} : SafeState (s.mxOffer x lane k d).1 :=
  (stays_mxOffer ..).2 h

theorem safe_mxPost {o : Op} {k : MxKind} {f : Fields} : OutSafe (mxPost o k f s) := by
  unfold mxPost
  refine safe_runSlot h (fun _ _ h' => safe_seqSlot (fun _ _ h'' => ?_) h')
  dsimp only
  split
  · trivial
  · exact safe_ok_fst (safe_mxOffer h'')

theorem safe_execMxZero {f : Fields} : OutSafe (execMxZero f s) :=
  safe_runSlot h (fun _ _ h' => safe_seqSlot (fun _ _ h'' => excSafe_ite trivial (excSafe_ite trivial (safe_ok_fst
    (safe_mxOffer h'')))) h')

theorem safe_execMxStat {f : Fields} : OutSafe (execMxStat f s) :=
  safe_runSlot h (fun _ _ h' => safe_seqSlot (fun _ _ h'' => excSafe_ite (safe_ok_pair h'') (excSafe_ite trivial (safe_ok_pair
    h''))) h')

theorem safe_mxCancelOne {x : Slot} {w : W64} : SafeState (s.mxCancelOne x w).1 := (stays_mxCancelOne ..).2 h

theorem safe_execMxCancel {f : Fields} : OutSafe (execMxCancel f s) :=
  safe_runSlot h (fun _ _ h' => safe_cancelSlot (fun _ _ _ h'' => safe_mxCancelOne h'') h')

theorem safe_mxStart {p slot g : Nat} {e : MxEnt} : SafeState (s.mxStart p slot g e) := by
  unfold State.mxStart
  split
  · exact safe_mxEndAll h
  · refine safe_modMx (safe_forL (fun _ _ h' => safe_modBank h') ?_)
    split
    · exact safe_ite h (safe_forL (fun _ _ h' => safe_modBank (safe_modMx h')) h)
    · exact safe_modBank h
    · exact h

theorem safe_mxTry {p slot : Nat} : SafeState (s.mxTry p slot) := by
  unfold State.mxTry
  split
  · exact h
  · refine safe_ite h (safe_ite (safe_mxEndAll h) (safe_ite h (safe_ite h ?_)))
    split
    · exact h
    · exact safe_ite (safe_mxStart h) h

theorem safe_execMandrelCycle {p : Nat} : OutSafe (execMandrelCycle p s) :=
  safe_next (safe_forL (fun _ _ h' => safe_mxTry h') h)

end

/-! Functions of `Sys2Proof/Machine/Matrix.lean`. -/

section
variable {s : State} (h : SafeState s)
include h

omit h in
theorem safe_accList {α : Type} {g : State → Nat → Acc (State × α)} (hg : ∀ s i, SafeState s → AccSafe Prod.fst (g s i))
    {l : List Nat} (h : SafeState s) : AccSafe Prod.fst (accList g s l) := by
  induction l generalizing s with
  | nil => exact safe_done_pair h
  | cons i l ih =>
    unfold accList
    split
    · trivial
    · trivial
    · next hu =>
      split
      · trivial
      · trivial
      · next hv => exact safe_done_pair (safe_of_done_pair hv (ih (safe_of_done_pair hu (hg _ _ h))))

theorem safe_mxRead {e : MxEnt} {c : Crew} {glob : Bool} {a : Int} {n : Nat} : AccSafe Prod.fst (s.mxRead e c glob a n) := by
  unfold State.mxRead
  refine accSafe_ite (accSafe_ite trivial ?_) (accSafe_ite (accSafe_ite (safe_done_pair h) trivial) (accSafe_ite trivial
    (safe_globalParts h)))
  split
  · next hu => exact safe_done_pair (safe_of_done hu (safe_touchRange h))
  · trivial
  · trivial

theorem safe_mxScales {e : MxEnt} {c : Crew} {glob : Bool} {base : Nat} {off a : Int} {m : Nat} :
    AccSafe Prod.fst (s.mxScales e c glob base off a m) := by
  unfold State.mxScales
  split
  · next hu => exact safe_done_pair (safe_of_done_pair hu (safe_accList (fun _ _ h' => safe_mxRead h') h))
  · trivial
  · trivial

theorem safe_mxRowOf {e : MxEnt} {c : Crew} {r : Nat} : AccSafe Prod.fst (s.mxRowOf e c r) := by
  unfold State.mxRowOf
  dsimp only
  split
  · trivial
  · trivial
  · next hu =>
      have su := safe_of_done_pair hu (safe_mxRead h)
      split
      · trivial
      · trivial
      · next hv => exact safe_done_pair (safe_of_done_pair hv (accSafe_ite (safe_mxScales su) (safe_done_pair su)))

theorem safe_mxColOf {e : MxEnt} {c : Crew} {n : Nat} : AccSafe Prod.fst (s.mxColOf e c n) := by
  unfold State.mxColOf
  dsimp only
  split
  · trivial
  · trivial
  · next hu =>
      have su := safe_of_done_pair hu (safe_mxRead h)
      split
      · trivial
      · trivial
      · next hv =>
          have sv := safe_of_done_pair hv (accSafe_ite (safe_mxRead su) (safe_done_pair su))
          refine accSafe_ite trivial ?_
          split
          · trivial
          · trivial
          · next hw => exact safe_done_pair (safe_of_done_pair hw (accSafe_ite (safe_mxScales sv) (safe_done_pair sv)))

omit h in
theorem safe_mxTileOf {s : State} {e : MxEnt} {col : Bool} {read : State → Acc (State × List (List PByte))}
    (h : SafeState s) (hread : ∀ t, SafeState t → AccSafe Prod.fst (read t)) :
    AccSafe Prod.fst (s.mxTileOf e col read) := by
  unfold State.mxTileOf
  refine accSafe_ite (hread _ h) ?_
  dsimp only
  split
  · exact safe_done_pair h
  · split
    · trivial
    · trivial
    · next hu => exact safe_done_pair (safe_forL (fun _ _ h' => safe_modMx h') (safe_of_done_pair hu (hread _ h)))

theorem safe_mxNote {e : MxEnt} {c : Crew} : SafeState (s.mxNote e c) := by
  unfold State.mxNote
  refine safe_ite (safe_forN (fun _ _ h' => safe_forN (fun _ _ h' => safe_ite (safe_noteParts h')
    (safe_ite h' (safe_noteStash h'))) h') ?_) ?_ <;>
  refine safe_ite (safe_forN (fun _ _ h' => safe_forN (fun _ _ h' => safe_ite (safe_noteParts h')
    (safe_ite h' (safe_noteStash h'))) h') ?_) ?_ <;>
  exact safe_forN (fun _ _ h' => safe_ite (safe_noteParts h') (safe_ite h' (safe_noteStash h')))
    (safe_forN (fun _ _ h' => safe_ite h' (safe_ite (safe_noteParts h') (safe_ite h' (safe_noteStash h')))) h)

theorem safe_mxSuspect {p slot : Nat} {e : MxEnt} : SafeState (s.mxSuspect p slot e) :=
  safe_ite (safe_mxEndAll (safe_modMx (safe_ite h (safe_silentError h)))) (safe_modMx (safe_ite h (safe_silentError h)))

theorem safe_mxOperands {e : MxEnt} {c : Crew} : AccSafe Prod.fst (s.mxOperands e c) := by
  unfold State.mxOperands
  dsimp only
  split
  · trivial
  · trivial
  · next hu =>
    have su := safe_of_done_pair hu (by
      refine accSafe_ite ?_ ?_
      · split
        · exact safe_done_pair h
        · trivial
      · split
        · trivial
        · trivial
        · next hv =>
          exact safe_done_pair (safe_of_done_pair hv
            (safe_mxTileOf h fun _ h' => safe_accList (fun _ _ h'' => safe_mxRowOf h'') h')))
    split
    · trivial
    · trivial
    · next hv =>
      exact safe_done_pair (safe_of_done_pair hv
        (safe_mxTileOf su fun _ h' => safe_accList (fun _ _ h'' => safe_mxColOf h'') h'))

theorem safe_mxStep {p slot : Nat} : SafeState (s.mxStep p slot) := by
  unfold State.mxStep
  split
  · exact h
  · split
    · exact h
    · refine safe_ite h ?_
      split
      · exact safe_mxEndAll h
      · split
        · exact h
        · exact safe_ite (safe_mxNote h) (safe_mxEndAll h)
        · next hu =>
            have su := safe_of_done_pair hu (safe_mxOperands h)
            exact safe_ite (safe_mxSuspect su) (safe_modMx (safe_modBank su))

theorem safe_execMxStep {p slot : Nat} : OutSafe (execMxStep p slot s) := safe_next (safe_mxStep h)

theorem safe_mxPut {e : MxEnt} {c : Crew} {recv : Option Nat} {y : Piece} {d : List PByte} :
    AccSafe id (s.mxPut e c recv y d) := by
  unfold State.mxPut
  refine accSafe_ite (accSafe_ite trivial (accSafe_ite (accSafe_ite (safe_done (safe_mk h)) trivial) (safe_engineGlobal h)))
    ?_
  split
  · trivial
  · trivial
  · exact accSafe_ite trivial (safe_stashWriteP h)

omit h in
theorem safe_mxPutAll {e : MxEnt} {c : Crew} {recv : Option Nat} {k : Bank} {l : List Piece} (h : SafeState s) :
    AccSafe id (s.mxPutAll e c recv k l) := by
  induction l generalizing s with
  | nil => exact safe_done h
  | cons y l ih =>
    unfold State.mxPutAll
    split
    · trivial
    · trivial
    · next hu => exact ih (safe_of_done hu (safe_mxPut h))

theorem safe_mxWriteOut {p slot g : Nat} : SafeState (s.mxWriteOut p slot g) := by
  unfold State.mxWriteOut
  split
  · exact h
  · split
    · exact h
    · refine safe_ite h (safe_ite (safe_mxEndAll h) ?_)
      split
      · dsimp only
        split
        · exact safe_ite (safe_forL (fun _ _ h' => safe_engineStall h') h) h
        · refine safe_ite ?_ (safe_mxEndAll h)
          split
          · exact safe_forL (fun _ _ h' => safe_noteStash h') h
          · exact h
        · next hu => exact safe_modMx (safe_of_done hu (safe_mxPutAll h))
      · exact h

theorem safe_execMxWriteOut {p slot g : Nat} : OutSafe (execMxWriteOut p slot g s) := safe_next (safe_mxWriteOut h)

theorem safe_execMxChannelPush {p slot : Nat} : OutSafe (execMxChannelPush p slot s) := by
  unfold execMxChannelPush
  refine safe_next ?_
  split
  · exact h
  · split
    · exact h
    · exact safe_ite h (safe_ite (safe_modCrew h) (safe_modMx (safe_modCrew h)))

theorem safe_mxClear {e : MxEnt} : SafeState (s.mxClear e) := safe_ite (safe_forL (fun _ _ h' => safe_modBank h') h) h

theorem safe_execMxCardEnd {p slot : Nat} : OutSafe (execMxCardEnd p slot s) := by
  unfold execMxCardEnd
  refine safe_next ?_
  split
  · exact h
  · exact safe_ite h (safe_mxDone (safe_mxClear h))

end

/-! Functions of `Sys2Proof/Machine/Seal.lean`. -/

section
variable {s : State} (h : SafeState s)
include h

theorem safe_modSeal {p i : Nat} {f : SealCtx → SealCtx} : SafeState (s.modSeal p i f) := (stays_modSeal ..).2 h

theorem safe_freeSeal {p i : Nat} {x : SealCtx} : SafeState (s.freeSeal p i x) := (stays_freeSeal ..).2 h

theorem safe_abortSeal {p i : Nat} {x : SealCtx} {reason cause : Nat} : SafeState (s.abortSeal p i x reason cause) :=
  (stays_abortSeal ..).2 h

theorem safe_discardSeals {cid reason cause : Nat} : SafeState (s.discardSeals cid reason cause) := by
  unfold State.discardSeals
  split
  · exact h
  · exact safe_forL (fun _ _ h' => safe_ite h' (safe_ite (safe_dueTrap (safe_abortSeal h')) (safe_abortSeal h'))) h

omit h in
theorem safe_lateStep {x : Slot} {g : Nat → Fin 32 → State → Except Cause State} {q : Nat} {i : Fin 32}
    {y : State × List (Nat × TrapRec)} (hg : ∀ i j t, SafeState t → ExcSafe (fun _ => True) id (g i j t))
    (h : SafeState y.1) :
    SafeState (lateStep x g q i y).1 := by
  unfold lateStep
  split
  · exact h
  · next hu => exact safe_of_ok hu (hg _ _ _ h)

omit h in
theorem safe_lateSlot {x : Slot} {g : Nat → Fin 32 → State → Except Cause State} {s : State}
    (hg : ∀ i j t, SafeState t → ExcSafe (fun _ => True) id (g i j t)) (h : SafeState s) :
    SafeState (lateSlot x g s) :=
  safe_finishLate (safe_modPend (safe_forL_pair (fun _ _ h' => safe_lateStep (fun _ _ _ h'' => hg _ _ _ h'') h') (safe_pair
    (safe_addPend h))))

theorem safe_sealOpen {x : Slot} {lane alg : Nat} {label : W64} : SafeState (s.sealOpen x lane alg label).1 :=
  (stays_sealOpen ..).2 h

theorem safe_execSealOpen {f : Fields} : OutSafe (execSealOpen f s) :=
  safe_runSlot h (fun _ _ h' => safe_seqSlot (fun _ _ h'' => excSafe_ite trivial (excSafe_ite trivial (safe_ok_fst
    (safe_sealOpen h'')))) h')

theorem safe_sealAbsorb {x : Slot} {q lane : Nat} {st : Bool} {w : W32} {b : W64} {n : Nat} :
    ExcSafe (fun _ => True) id (s.sealAbsorb x q lane st w b n) := by
  unfold State.sealAbsorb
  dsimp only
  split
  · trivial
  · split
    · trivial
    · exact safe_ok (safe_modSeal (safe_modCluster (safe_fresh h)))

theorem safe_execSealAbs {f : Fields} : OutSafe (execSealAbs f s) :=
  safe_runSlot h (fun _ _ h' => safe_lateSlot (fun _ _ _ h'' => excSafe_ite trivial (safe_sealAbsorb h'')) h')

theorem safe_sealFinish {x : Slot} {q lane : Nat} {st : Bool} {w : W32} {b : W64} :
    ExcSafe (fun _ => True) id (s.sealFinish x q lane st w b) := by
  unfold State.sealFinish
  dsimp only
  split
  · trivial
  · split
    · trivial
    · exact excSafe_ite trivial (safe_ok (safe_modSeal (safe_modCluster (safe_fresh h))))

theorem safe_execSealFin {f : Fields} : OutSafe (execSealFin f s) :=
  safe_runSlot h (fun _ _ h' => safe_lateSlot (fun _ _ _ h'' => excSafe_ite trivial (safe_sealFinish h'')) h')

theorem safe_execSealAbt {f : Fields} : OutSafe (execSealAbt f s) := by
  unfold execSealAbt
  refine safe_runSlot h (fun _ _ h' => safe_seqSlot (fun _ _ h'' => excSafe_ite trivial ?_) h')
  split
  · trivial
  · exact safe_ok_pair (safe_abortSeal h'')

theorem safe_absorbBytes {c : Crew} {x : SealCtx} {a : SealAbs} : AccSafe Prod.fst (s.absorbBytes c x a) := by
  unfold State.absorbBytes
  refine accSafe_ite (safe_done_pair h) (accSafe_ite trivial (accSafe_ite (accSafe_ite trivial ?_) (accSafe_ite ?_
    (accSafe_ite trivial ?_))))
  · split
    · trivial
    · trivial
    · next hu => exact safe_done_pair (safe_of_done hu (safe_touchRange h))
  · split
    · exact safe_done_pair h
    · trivial
  · split
    · trivial
    · trivial
    · next hu => exact safe_done_pair (safe_of_done_pair hu (safe_globalParts h))

theorem safe_noteFirst {asid : BitVec 16} {va n : Nat} : SafeState (s.noteFirst asid va n) := by
  unfold State.noteFirst
  split
  · exact safe_noteRead h
  · exact h

theorem safe_absorbEnd {p ctx : Nat} : SafeState (s.absorbEnd p ctx) := by
  unfold State.absorbEnd
  split
  · exact h
  · split
    · refine safe_ite h (safe_ite (safe_modCluster h) ?_)
      split
      · exact h
      · exact safe_ite (safe_ite (safe_noteStash h) (safe_noteFirst h)) (safe_fatal (safe_modSeal h))
      · next hu => exact safe_resultLane (safe_modSeal (safe_modCluster (safe_of_done_pair hu (safe_absorbBytes h))))
    · exact h

theorem safe_execSealAbsorbEnd {p ctx : Nat} : OutSafe (execSealAbsorbEnd p ctx s) := safe_next (safe_absorbEnd h)

omit h in
theorem safe_globalWrite {p : Nat} {asid : BitVec 16} {d : List Byte} {l : List (Nat × Nat)} (h : SafeState s) :
    AccSafe id (s.globalWrite p asid d l) := by
  induction l generalizing s d with
  | nil => exact safe_done h
  | cons y l ih =>
    unfold State.globalWrite
    split
    · trivial
    · trivial
    · next hu => exact ih (safe_of_done hu (safe_engineGlobal h))

omit h in
theorem safe_stashWrite {p : Nat} {d : List Byte} {l : List (Nat × Nat)} (h : SafeState s) :
    AccSafe id (s.stashWrite p d l) := by
  induction l generalizing s d with
  | nil => exact safe_done h
  | cons y l ih =>
    unfold State.stashWrite
    split
    · trivial
    · trivial
    · next hu => exact ih (safe_of_done hu (safe_stashWriteP h))

theorem safe_putRecord {c : Crew} {x : SealCtx} {a : SealAbs} {d : List Byte} : AccSafe id (s.putRecord c x a d) := by
  unfold State.putRecord
  refine accSafe_ite trivial (accSafe_ite (accSafe_ite trivial (safe_stashWrite h)) (accSafe_ite ?_ (accSafe_ite trivial
    (safe_globalWrite h))))
  split
  · exact accSafe_ite (safe_done (safe_mk h)) trivial
  · trivial

theorem safe_stallRecord {c : Crew} {a : SealAbs} {n : Nat} : SafeState (s.stallRecord c a n) :=
  safe_ite (safe_bounceEpisode h) h

theorem safe_sealDone {p ctx : Nat} {c : Crew} {q : Part} {x : SealCtx} {a : SealAbs} {seq : W64} :
    SafeState (s.sealDone p ctx c q x a seq) :=
  safe_resultLane (safe_post (safe_freeSeal (safe_modPart h)))

theorem safe_execSealSign {p ctx : Nat} : OutSafe (execSealSign p ctx s) := by
  unfold execSealSign
  refine safe_next ?_
  split
  · exact h
  · split
    · refine safe_ite h (safe_ite (safe_modCluster h) ?_)
      split
      · next hu => exact safe_sealDone (safe_of_done hu (safe_putRecord h))
      · exact safe_ite (safe_stallRecord h) h
      · exact safe_ite (safe_noteStash h) (safe_fatal (safe_sealDone h))
    · exact h

end

/-! Functions of `Sys2Proof/Machine/System.lean`. -/

section
variable {s : State} (h : SafeState s)
include h

theorem safe_execSysrd {f : Fields} : OutSafe (execSysrd f s) :=
  safe_runSlot h (fun _ _ h' => safe_slotLanes (safe_finishLate (safe_addPend h')))

theorem safe_sysWrite {w : Held} {k n : Nat} {v : W64} : SafeState (s.sysWrite w k n v) := (stays_sysWrite ..).2 h

omit h in
theorem safe_actSlot {x : Slot} {ad : Fin 32 → W64} {g : Fin 32 → State → Except Cause State} {s : State}
    (hg : ∀ i t, SafeState t → ExcSafe (fun _ => True) id (g i t)) (h : SafeState s) : SafeState (actSlot x ad g s) := by
  refine safe_finishSlot (safe_forL_pair (fun _ _ h' => ?_) (safe_pair h))
  split
  · exact safe_pair h'
  · next hu => exact safe_pair (safe_of_ok hu (hg _ _ h'))

theorem safe_execSyswr {f : Fields} : OutSafe (execSyswr f s) := by
  unfold execSyswr
  refine safe_runSlot h (fun _ _ h' => safe_actSlot (fun _ _ h'' => excSafe_ite trivial ?_) h')
  split
  · trivial
  · trivial
  · split
    · trivial
    · exact safe_ok (safe_sysWrite h'')

theorem safe_icinvLane {x : Slot} {i : Fin 32} : SafeState (icinvLane x i s) := safe_ite h (safe_startFence h)

theorem safe_execIcinv {f : Fields} : OutSafe (execIcinv f s) :=
  safe_runSlot h (fun _ _ h' => safe_forL (fun _ _ h'' => safe_icinvLane h'') (safe_finishSlot h'))

theorem safe_execRtDef {f : Fields} : OutSafe (execRtDef f s) := by
  unfold execRtDef
  refine safe_runSlot h (fun _ _ h' => safe_seqSlot (fun _ _ h'' => ?_) h')
  dsimp only
  split
  · trivial
  · exact safe_ok_pair (safe_modPart h'')

theorem safe_execFuseRd {f : Fields} : OutSafe (execFuseRd f s) :=
  safe_runSlot h (fun _ _ h' => safe_seqSlot (fun _ _ h'' => excSafe_ite trivial (excSafe_ite trivial (safe_ok_pair h''))) h')

theorem safe_clearLatches : SafeState s.clearLatches := h

theorem safe_measExt {b : Nat} {d : List Byte} : SafeState (s.measExt b d) := (stays_measExt ..).2 h

omit h in
theorem safe_stashSlot {o : Op} {f : Fields} {s : State} {rngs : Slot → Fin 32 → List (Nat × Nat)}
    {body : Slot → State → State} (h : SafeState s) (hbody : ∀ i t, SafeState t → SafeState (body i t)) :
    OutSafe (stashSlot o f s rngs body) :=
  safe_runSlot h (fun _ _ h' => safe_ite (hbody _ _ h') (safe_forL (fun _ _ h'' => safe_modCluster h'') h'))

theorem safe_measOne {x : Slot} {i : Fin 32} : ExcSafe (fun _ => True) Prod.fst (s.measOne x i) := by
  unfold State.measOne
  split
  · trivial
  · exact safe_ok_pair (safe_measExt h)

theorem safe_execMeasExt {f : Fields} : OutSafe (execMeasExt f s) :=
  safe_stashSlot h (fun _ _ h' => safe_seqSlot (fun _ _ h'' => safe_measOne h'') h')

theorem safe_putDigest {x : Slot} {a : Nat} {d : List Byte} : AccSafe id (s.putDigest x a d) := safe_stashWrite h

theorem safe_latchVerdict {v : Nat} {d : List Byte} : SafeState (s.latchVerdict v d) :=
  safe_ite (safe_mk h) (safe_clearLatches h)

theorem safe_sigOne {x : Slot} {i : Fin 32} : ExcSafe (fun _ => True) Prod.fst (s.sigOne x i) := by
  unfold State.sigOne
  split
  · trivial
  · dsimp only
    split
    · trivial
    · exact safe_ok_pair h
    · next hu => exact safe_ok_pair (safe_latchVerdict (safe_of_done hu (safe_putDigest h)))

theorem safe_execSigVfy {f : Fields} : OutSafe (execSigVfy f s) :=
  safe_stashSlot h (fun _ _ h' => safe_seqSlot (fun _ _ h'' => safe_sigOne h'') h')

theorem safe_execDbgOpen {f : Fields} : OutSafe (execDbgOpen f s) :=
  safe_runSlot h (fun _ _ h' => safe_seqSlot (fun _ _ h'' => excSafe_ite (safe_ok_pair (safe_mk (safe_clearLatches h'')))
    (safe_ok_pair (safe_clearLatches h''))) h')

theorem safe_execHalt {f : Fields} : OutSafe (execHalt f s) :=
  safe_runSlot h (fun _ _ h' => safe_actSlot (fun _ _ h'' => excSafe_ite trivial (safe_ok (safe_modCluster h''))) h')

end

/-! Functions of `Sys2Proof/Machine/Mapping.lean`. -/

section
variable {s : State} (h : SafeState s)
include h

omit h in
theorem safe_tablePath {vpn target level cell : Nat} (h : SafeState s) : OptSafe Prod.fst (s.tablePath vpn target level cell) := by
  induction level generalizing s cell with
  | zero => trivial
  | succ l ih =>
    unfold State.tablePath
    refine optSafe_ite (safe_some_pair h) (optSafe_ite (ih h) ?_)
    split
    · trivial
    · next hu => exact ih (safe_setPte (safe_of_some_pair hu (safe_takeCell h)))

theorem safe_makeRoot {asid : BitVec 16} : OptSafe Prod.fst (s.makeRoot asid) := by
  unfold State.makeRoot
  split
  · exact safe_some_pair h
  · exact optSafe_map_fst (fun _ h' => safe_pair (safe_modPart h')) (safe_takeCell h)

omit h in
theorem safe_freeTables {level cell : Nat} (h : SafeState s) : SafeState (s.freeTables level cell) := by
  induction level generalizing s cell with
  | zero => exact h
  | succ l ih => exact safe_setCell (safe_forN (fun _ _ h' => safe_ite (ih h') h') h)

theorem safe_writeLeaf {cell : Nat} {m : MapCmd} {frame : Nat} {w x al mi : Bool} :
    SafeState (s.writeLeaf cell m frame w x al mi) :=
  safe_forN (fun _ _ h' => safe_setPte h') h

theorem safe_mapDone {part : Nat} {m : MapCmd} {status : Nat} : SafeState (s.mapDone part m status) := safe_postEvent h

omit h in
theorem safe_mapping {s : State} {part : Nat} {m : MapCmd} {r : Option State} (h : SafeState s) (hr : OptSafe id r) :
    SafeState (s.mapping part m r) := by
  unfold State.mapping
  refine safe_ite h ?_
  split
  · exact safe_mapDone hr
  · exact safe_mapDone h

theorem safe_acquireNow {part : Nat} {m : MapCmd} : SafeState (s.acquireNow part m) :=
  safe_ite (safe_mapping h trivial) (safe_ite (safe_mk h) (safe_mapping h (safe_some (safe_forL (fun _ _ h' => safe_setCell
    h') h))))

theorem safe_execAcquire {part : Nat} {m : MapCmd} : OutSafe (execAcquire part m s) :=
  safe_next (safe_ite h (safe_acquireNow h))

theorem safe_execRelease {part : Nat} {m : MapCmd} : OutSafe (execRelease part m s) :=
  safe_next (safe_mapping h (optSafe_ite trivial (safe_some (safe_forL (fun _ _ h' => safe_ite (safe_setCell h') h') h))))

theorem safe_retryAcquires : SafeState s.retryAcquires := safe_forL (fun _ _ h' => safe_acquireNow h') (safe_mk h)

theorem safe_dropCell {c : Nat} : SafeState (s.dropCell c) := safe_forL (fun _ _ h' => safe_mlineRest h') (safe_mk h)

theorem safe_execRowClearDone {ch frame : Nat} : OutSafe (execRowClearDone ch frame s) :=
  safe_next (safe_ite h (safe_retryAcquires (safe_setCell (safe_dropCell (safe_forL (fun _ _ h' => safe_dropWay h')
    (safe_clearCell h))))))

theorem safe_wakeRequests {asid : BitVec 16} {lo hi : Nat} : SafeState (s.wakeRequests asid lo hi) :=
  safe_forL (fun _ _ h' => safe_ite h' (safe_ite (safe_replayHead (safe_mk h')) (safe_sendAgain h'))) h

theorem safe_dropWaits {asid : BitVec 16} {lo hi : Nat} : SafeState (s.dropWaits asid lo hi) := safe_modPart h

theorem safe_wakePage {asid : BitVec 16} {lo hi : Nat} : SafeState (s.wakePage asid lo hi) :=
  safe_retryInbound (safe_wakeRequests (safe_dropWaits h))

theorem safe_dropWalks {asid : BitVec 16} : SafeState (s.dropWalks asid) := h

theorem safe_dropTlb {asid : BitVec 16} {lo hi : Nat} : SafeState (s.dropTlb asid lo hi) := h

theorem safe_evictPage {asid : BitVec 16} {lo hi : Nat} : SafeState (s.evictPage asid lo hi) :=
  safe_forL (fun _ _ h' => safe_forL (fun _ _ h'' => safe_ite (safe_evict h'') h'') h') h

theorem safe_dropL0Page {asid : BitVec 16} {lo hi : Nat} : SafeState (s.dropL0Page asid lo hi) := h

theorem safe_dropCcPage {asid : BitVec 16} {lo hi : Nat} : SafeState (s.dropCcPage asid lo hi) := h

theorem safe_orphanPage {asid : BitVec 16} {lo hi : Nat} : SafeState (s.orphanPage asid lo hi) :=
  safe_forL (fun _ _ h' => safe_mlineRest (safe_modMline (safe_ite (safe_failMline h') h'))) (safe_mk h)

theorem safe_flushPage {asid : BitVec 16} {lo hi : Nat} : SafeState (s.flushPage asid lo hi) :=
  safe_dropCcPage (safe_dropL0Page (safe_evictPage (safe_dropWalks (safe_dropTlb h))))

theorem safe_applyBounce {asid : BitVec 16} {m : MapCmd} {frame : Nat} : SafeState (s.applyBounce asid m frame) := by
  unfold State.applyBounce
  split
  · exact h
  · refine safe_modPart (safe_forL (fun _ _ h' => ?_) h)
    dsimp only
    split
    · exact h'
    · exact safe_mk (safe_putBytesP h')

theorem safe_mapPage {part : Nat} {m : MapCmd} : OptSafe id (s.mapPage part m) := by
  unfold State.mapPage
  refine optSafe_ite trivial ?_
  split
  · trivial
  · next hu =>
      split
      · trivial
      · next hv =>
          have sv := safe_of_some_pair hv (safe_tablePath (safe_of_some_pair hu (safe_makeRoot h)))
          exact safe_some (safe_wakePage (safe_dropWalks (safe_writeLeaf (safe_applyBounce (safe_ite (safe_freeTables sv) sv)))))

theorem safe_execMap {part : Nat} {m : MapCmd} : OutSafe (execMap part m s) := safe_next (safe_mapping h (safe_mapPage h))

theorem safe_clearLeaves {l : List Leaf} : SafeState (s.clearLeaves l) := safe_forL (fun _ _ h' => safe_setPte h') h

theorem safe_execUnmap {part : Nat} {m : MapCmd} : OutSafe (execUnmap part m s) := by
  unfold execUnmap
  refine safe_next (safe_mapping h ?_)
  dsimp only
  split
  · trivial
  · exact safe_some (safe_orphanPage (safe_flushPage (safe_clearLeaves h)))

theorem safe_upgradePage {asid : BitVec 16} {lo hi : Nat} {w x al : Bool} : SafeState (s.upgradePage asid lo hi w x al) :=
  safe_forL (fun _ _ h' => safe_modMline h') (safe_mk h)

theorem safe_execProtect {part : Nat} {m : MapCmd} : OutSafe (execProtect part m s) := by
  unfold execProtect
  refine safe_next (safe_mapping h ?_)
  dsimp only
  split
  · trivial
  · exact optSafe_ite (safe_some (safe_forL (fun _ _ h' => safe_setPte h') (safe_flushPage (safe_clearLeaves h)))) (safe_some
      (safe_upgradePage (safe_dropWalks (safe_forL (fun _ _ h' => safe_setPte h') h))))

theorem safe_emptyMline {asid : BitVec 16} {fr : List (Nat × Nat)} {p line : Nat} {l : MLine} {w : Bool} :
    SafeState (s.emptyMline asid fr p line l w) := by
  unfold State.emptyMline
  refine safe_ite h (safe_mlineRest (safe_modMline ?_))
  split
  · exact h
  · exact safe_ite h (safe_ite (safe_fatal h) (safe_mk (safe_forN (fun _ _ h' => safe_ite (safe_putBytesP h') h') h)))

omit h in
theorem safe_moveGranule {old s : State} {q f0 f1 : Nat} (hs : SafeState s) : SafeState (old.moveGranule s q f0 f1) :=
  safe_ite hs (safe_mk (safe_putBytesP hs))

theorem safe_beginMigrate {part : Nat} {m : MapCmd} : OptSafe id (s.beginMigrate part m) := by
  unfold State.beginMigrate
  dsimp only
  split
  · trivial
  · exact optSafe_ite trivial (safe_some (safe_dropTlb (safe_dropL0Page (safe_forL (fun _ _ h' => safe_emptyMline h')
      (safe_evictPage (safe_modPart h))))))

theorem safe_endMigrate {part : Nat} {m : MapCmd} : SafeState (s.endMigrate part m) := by
  unfold State.endMigrate
  refine safe_wakePage (safe_dropTlb (safe_forL (fun _ _ h' => safe_setPte h') (safe_applyBounce (safe_forL (fun _ _ h' => ?_)
    (safe_modPart h)))))
  split
  · exact safe_moveGranule h'
  · exact h'

theorem safe_execMigrate {part : Nat} {m : MapCmd} : OutSafe (execMigrate part m s) := by
  unfold execMigrate
  refine safe_next ?_
  split
  · exact h
  · exact safe_ite (safe_mapDone (safe_endMigrate h)) (safe_getD (safe_beginMigrate h) (safe_mapping h trivial))

theorem safe_refuseRequests {asid : BitVec 16} {lo hi : Nat} {cause : Cause} :
    SafeState (s.refuseRequests asid lo hi cause) := by
  unfold State.refuseRequests
  refine safe_forL (fun _ _ h' => safe_ite h' (safe_leaveTrail ?_)) h
  split
  · exact safe_performLane (safe_failReq (safe_dropStored (safe_mk h')))
  · exact safe_failReq (safe_dropStored (safe_mk h'))

theorem safe_refuseFetches {asid : BitVec 16} {lo hi : Nat} {cause : Cause} : SafeState (s.refuseFetches asid lo hi cause) :=
  h

theorem safe_refuseJobs {asid : BitVec 16} {lo hi : Nat} {cause : Cause} : SafeState (s.refuseJobs asid lo hi cause) := by
  unfold State.refuseJobs
  refine safe_forL (fun _ _ h' => safe_forL (fun _ _ h'' => safe_ite (safe_fatal (safe_modSeal h'')) h'') (safe_forL (fun _ _
    h'' => ?_) (safe_forL (fun _ _ h'' => ?_) h'))) h
  · dsimp only
    split
    · exact h''
    · exact safe_ite (safe_mxEndAll h'') h''
  · dsimp only
    split
    · exact h''
    · exact safe_ite (safe_cpEnd h'') h''

theorem safe_refuseInbound {asid : BitVec 16} {lo hi : Nat} {cause : Cause} : SafeState (s.refuseInbound asid lo hi cause) :=
  safe_forL (fun _ _ h' => safe_ite (safe_answer (safe_mk h')) h') h

theorem safe_execRefuse {part : Nat} {m : MapCmd} : OutSafe (execRefuse part m s) :=
  safe_next (safe_mapping h (optSafe_ite trivial (safe_some (safe_refuseJobs (safe_refuseInbound (safe_refuseRequests
    (safe_dropWaits (safe_refuseFetches h))))))))

end

/-! Functions of `Sys2Proof/Machine/Issue.lean`. -/

section
variable {s : State} (h : SafeState s)
include h

theorem safe_advance : SafeState s.advance := h

theorem safe_debugStop {k : Nat} {r : Run} : SafeState (s.debugStop k r) :=
  safe_logSvc (safe_modCrew (safe_modIssue (safe_modLanes h)))

theorem safe_nextSlot {k : Nat} : SafeState (s.nextSlot k).1 := by
  unfold State.nextSlot
  split
  · exact h
  · refine safe_ite_pair (safe_pair (safe_endClause (safe_ite h (safe_modRun h)))) (safe_ite_pair (safe_pair (safe_trapLanes
      (safe_ite h (safe_modRun h)))) (safe_ite_pair (safe_pair (safe_debugStop (safe_ite h (safe_modRun h)))) ?_))
    split
    · exact safe_trapLanes (safe_ite h (safe_modRun h))
    · exact safe_ite h (safe_modRun h)

end

/-! Functions of `Sys2Proof/Machine/Save.lean`. -/

section
variable {s : State} (h : SafeState s)
include h

theorem safe_clearBytes {a n : Nat} : SafeState (s.clearBytes a n) := memClear_wf h

theorem safe_fullRates {p : Nat} : SafeState (s.fullRates p) := by
  unfold State.fullRates
  split
  · exact safe_modPart h
  · exact h

theorem safe_zeroCluster {p : Nat} : SafeState (s.zeroCluster p) := safe_clearBytes (safe_modCluster (safe_fullRates h))

theorem safe_joinCluster {p : Nat} : SafeState (s.joinCluster p) := safe_modCluster (safe_zeroCluster h)

theorem safe_stopRuns {cid : Nat} : SafeState (s.stopRuns cid) := by
  unfold State.stopRuns
  split
  · exact h
  · refine safe_forN (fun _ _ h' => ?_) h
    split
    · exact h'
    · exact safe_restartRegion (safe_ite (safe_endClause h') h')

theorem safe_noteCut {cid co lane : Nat} {t : Cut} {ord : Nat} : SafeState (s.noteCut cid co lane t ord) :=
  safe_modCrew (safe_dueTrap h)

theorem safe_loseBanks {e : MxEnt} : SafeState (s.loseBanks e) := safe_ite h (safe_forL (fun _ _ h' => safe_modBank h') h)

theorem safe_cutCards {cid : Nat} {save : Bool} : SafeState (s.cutCards cid save) :=
  safe_forL (fun _ _ h' => safe_ite (safe_noteCut (safe_forL (fun _ _ h'' => safe_loseBanks h'') (safe_mxEndAll h')))
    (safe_forL (fun _ _ h'' => safe_loseBanks h'') (safe_mxEndAll h'))) h

theorem safe_cutCopy {p slot : Nat} {j : CpJob} {save : Bool} : SafeState (s.cutCopy p slot j save) :=
  safe_ite (safe_noteCut (safe_cpEnd h)) (safe_cpEnd h)

theorem safe_cutCopies {cid : Nat} {save : Bool} : SafeState (s.cutCopies cid save) := by
  unfold State.cutCopies
  split
  · exact h
  · refine safe_forL (fun _ _ h' => ?_) h
    split
    · exact h'
    · exact safe_ite h' (safe_ite (safe_cutCopy h') h')

theorem safe_beginLeave {cid : Nat} {why : Leave} : SafeState (s.beginLeave cid why) := by
  unfold State.beginLeave
  split
  · exact h
  · refine safe_ite (safe_dropReqs (safe_ite (safe_cutCopies (safe_cutCards ?_)) ?_))
      (safe_ite (safe_cutCopies (safe_cutCards ?_)) ?_) <;>
    exact safe_discardSeals (safe_modCrew (safe_stopRuns h))

theorem safe_drainNext {cid : Nat} {c : Crew} : SafeState (s.drainNext cid c) :=
  safe_ite (safe_ite (safe_modCrew (safe_modCluster (safe_drainParts h))) h) (safe_ite (safe_modCrew (safe_ite (safe_drainWcb
    h) h)) h)

theorem safe_stepLeave {cid : Nat} : SafeState (s.stepLeave cid) := by
  unfold State.stepLeave
  split
  · exact h
  · exact safe_drainNext (safe_ite (safe_cutCopies h) h)

theorem safe_saveCrew {cid : Nat} {st : CrewSt} : SafeState (s.saveCrew cid st) := by
  unfold State.saveCrew
  split
  · exact h
  · exact safe_modCluster (safe_modCrew h)

theorem safe_restoreCrew {cid p lcl base : Nat} {places : List (Nat × Nat)} :
    SafeState (s.restoreCrew cid p lcl base places) := by
  unfold State.restoreCrew
  split
  · exact h
  · exact safe_modCrew (safe_mk (safe_modCluster (safe_putBytesP h)))

end

/-! Functions of `Sys2Proof/Machine/Place.lean`. -/

section
variable {s : State} (h : SafeState s)
include h

theorem safe_trimReserves : SafeState s.trimReserves := h

theorem safe_takePlaces {p n : Nat} : SafeState (s.takePlaces p n).1 := safe_pair (safe_modCluster h)

theorem safe_crewAcquire {cid : Nat} : SafeState (s.crewAcquire cid) := by
  unfold State.crewAcquire
  split
  · exact h
  · exact safe_forL (fun _ _ h' => safe_ite h' (safe_startFence h')) h

theorem safe_takeReserve {tag p : Nat} {zp : Bool} : SafeState (s.takeReserve tag p zp) := by
  unfold State.takeReserve
  refine safe_ite ?_ h
  split
  · exact safe_mk h
  · exact h

theorem safe_startCrew {gid : Nat} {g : Grid} {n p lcl base : Nat} : SafeState (s.startCrew gid g n p lcl base) := by
  unfold State.startCrew
  split
  · next hu =>
      exact safe_crewAcquire (safe_modGrid (safe_clearBytes (safe_mk (safe_fresh (safe_takeReserve (safe_of_pair hu
        (safe_takePlaces h)))))))

theorem safe_restartCrew {cid p lcl base : Nat} : SafeState (s.restartCrew cid p lcl base) := by
  unfold State.restartCrew
  split
  · exact h
  · split
    · next hu => exact safe_modGrid (safe_restoreCrew (safe_takeReserve (safe_of_pair hu (safe_takePlaces h))))

theorem safe_placeCrew {gid : Nat} {g : Grid} {t : Part} {l : List (Nat × Nat)} {kept : List Kept} {n : Nat}
    {cid : Option Nat} :
    OptSafe id (s.placeCrew gid g t l kept n cid) := by
  unfold State.placeCrew
  dsimp only
  split
  · split
    · exact safe_some (safe_restartCrew h)
    · exact safe_some (safe_startCrew h)
  · split
    · exact optSafe_ite trivial (safe_some (safe_modCluster h))
    · trivial

theorem safe_startTeam {gid : Nat} {g : Grid} {n : Nat} {l : List (Nat × Nat)} {kept : List Kept} :
    OptSafe id (s.startTeam gid g n l kept) :=
  optSafe_forL (fun _ _ h' => optSafe_bind (fun _ h'' => optSafe_map (fun _ => safe_startCrew h'')) h') (safe_some h)

theorem safe_placeGang {gid : Nat} {g : Grid} {t : Part} {l : List (Nat × Nat)} {kept : List Kept} {n : Nat} :
    OptSafe id (s.placeGang gid g t l kept n) := by
  unfold State.placeGang
  dsimp only
  split
  · next o _ _ =>
    cases e : List.find? (fun r : Nat × State => r.1 = o) _ with
    | none => trivial
    | some y =>
      obtain ⟨r, -, hr⟩ := List.mem_filterMap.1 (List.mem_of_find?_eq_some e)
      obtain ⟨t', ht, rfl⟩ := Option.map_eq_some_iff.1 hr
      exact safe_of_some ht (safe_startTeam h)
  · trivial

theorem safe_placeHead {gid : Nat} {g : Grid} {t : Part} {l : List (Nat × Nat)} {kept : List Kept} :
    OptSafe id (s.placeHead gid g t l kept) := by
  unfold State.placeHead
  split
  · trivial
  · exact safe_placeCrew h
  · exact safe_placeCrew h
  · exact safe_placeGang h

theorem safe_dispatchFirst {t : Part} {l : List (Nat × Grid)} : SafeState (s.dispatchFirst t l) := by
  induction l with
  | nil => exact h
  | cons y l ih =>
    unfold State.dispatchFirst
    dsimp only
    split
    · next hu => exact safe_modPart (safe_modGrid (safe_of_some hu (safe_placeHead h)))
    · exact safe_ite h ih

end

/-! Functions of `Sys2Proof/Machine/Launch.lean`. -/

section
variable {s : State} (h : SafeState s)
include h

theorem safe_judgeLaunch {tag space : Nat} {ws : List W64} {depth : Nat} {parent : Option Nat} {anchor : Nat} :
    SafeState (s.judgeLaunch tag space ws depth parent anchor).1 :=
  (stays_judgeLaunch ..).2 h

theorem safe_queueGrid {g : Grid} : SafeState (s.queueGrid g) := safe_mk (safe_fresh h)

theorem safe_launchOne {x : Slot} {i : Fin 32} : SafeState (s.launchOne x i).1 := (stays_launchOne ..).2 h

omit h in
theorem safe_launchStep {x : Slot} {i : Fin 32} {y : State × List (Nat × TrapRec) × SMap W64} (h : SafeState y.1) :
    SafeState (launchStep x i y).1 := by
  unfold launchStep
  dsimp only
  split
  · exact h
  · split
    · next hu => exact safe_of_pair hu (safe_launchOne h)
    · next hu => exact safe_of_pair hu (safe_launchOne h)

theorem safe_execLaunch {f : Fields} : OutSafe (execLaunch f s) :=
  safe_runSlot h (fun _ _ h' => safe_ite h' (safe_finishSlot (safe_ite (safe_forL_pair (fun _ _ h'' => safe_launchStep h'')
    (safe_pair h')) (safe_modLanes (safe_forL_pair (fun _ _ h'' => safe_launchStep h'') (safe_pair h'))))))

theorem safe_execCwait {f : Fields} : OutSafe (execCwait f s) :=
  safe_runSlot h (fun _ _ h' => safe_finishSlot (safe_modLanes h'))

theorem safe_releaseWaiting {cid : Nat} : SafeState (s.releaseWaiting cid) := safe_crewAcquire (safe_modCrew (safe_fresh h))

theorem safe_noteFreed {c : Crew} : SafeState (s.noteFreed c) := safe_trimReserves (safe_modPart h)

theorem safe_wakeSuspended {cid : Nat} : SafeState (s.wakeSuspended cid) := by
  unfold State.wakeSuspended
  split
  · exact safe_ite (safe_modGrid h) h
  · exact h

theorem safe_execCwaitResume {cid : Nat} : OutSafe (execCwaitResume cid s) := by
  unfold execCwaitResume
  refine safe_next ?_
  split
  · exact h
  · split
    · exact h
    · exact safe_ite h (safe_ite (safe_ite (safe_wakeSuspended (safe_noteFreed (safe_saveCrew h))) (safe_stepLeave h))
        (safe_ite (safe_releaseWaiting h) (safe_beginLeave h)))

theorem safe_execHostLaunchFetch {part space : Nat} : OutSafe (execHostLaunchFetch part space s) := by
  unfold execHostLaunchFetch
  refine safe_next (safe_ite h ?_)
  split
  · next hu => exact safe_of_pair hu (safe_fetchRecord h)
  · next hu =>
      have su := safe_of_pair hu (safe_fetchRecord h)
      split
      · exact h
      · next hv => exact safe_queueGrid (safe_of_pair hv (safe_judgeLaunch su))
      · next hv => exact safe_postInfo (safe_of_pair hv (safe_judgeLaunch su))
      · next hv => exact safe_postInfo (safe_of_pair hv (safe_judgeLaunch su))

theorem safe_execStampTimeout {part queue : Nat} : OutSafe (execStampTimeout part queue s) := by
  unfold execStampTimeout
  refine safe_next ?_
  dsimp only
  split
  · exact safe_ite h (safe_postInfo (safe_queueTo h))
  · exact h

theorem safe_execDispatch {part : Nat} : OutSafe (execDispatch part s) := by
  unfold execDispatch
  refine safe_next ?_
  split
  · exact safe_ite h (safe_dispatchFirst (safe_modPart h))
  · exact h

theorem safe_execReservationTimeout {part : Nat} : OutSafe (execReservationTimeout part s) := by
  unfold execReservationTimeout
  refine safe_next ?_
  split
  · refine safe_ite h ?_
    split
    · exact safe_modPart h
    · exact h
  · exact h

theorem safe_startCcb {b : Ccb} {g : Grid} {p lcl base : Nat} : SafeState (s.startCcb b g p lcl base) := by
  unfold State.startCcb
  split
  · exact safe_restartCrew h
  · exact safe_startCrew h

theorem safe_execCrewQueueStart {p : Nat} : OutSafe (execCrewQueueStart p s) := by
  unfold execCrewQueueStart
  refine safe_next ?_
  split
  · exact h
  · split
    · exact safe_modCluster h
    · split
      · exact h
      · refine safe_ite h ?_
        split
        · exact h
        · exact safe_startCcb (safe_modCluster h)

theorem safe_execStealRequest {p : Nat} : OutSafe (execStealRequest p s) := by
  unfold execStealRequest
  refine safe_next ?_
  split
  · exact h
  · refine safe_ite h ?_
    dsimp only
    split
    · exact h
    · exact safe_modCluster h

theorem safe_execStealVictim {p : Nat} : OutSafe (execStealVictim p s) := by
  unfold execStealVictim
  refine safe_next ?_
  split
  · exact h
  · split
    · exact h
    · exact safe_modCluster (safe_modCluster h)

theorem safe_execStealReply {p : Nat} : OutSafe (execStealReply p s) := by
  unfold execStealReply
  refine safe_next ?_
  split
  · exact h
  · refine safe_ite h (safe_forL (fun _ _ h' => ?_) (safe_modCluster h))
    split
    · exact h'
    · dsimp only
      split
      · exact safe_startCcb h'
      · exact safe_modCluster h'

omit h in
theorem safe_retireGrid {fuel gid : Nat} (h : SafeState s) : SafeState (s.retireGrid fuel gid) := by
  induction fuel generalizing s gid with
  | zero => exact h
  | succ fuel ih =>
    unfold State.retireGrid
    split
    · exact h
    · refine safe_ite h ?_
      dsimp only
      split
      · exact safe_postEvent (safe_mk h)
      · split
        · exact ih (safe_modGrid (safe_wakeSuspended (safe_modCrew (safe_mk h))))
        · exact safe_wakeSuspended (safe_modCrew (safe_mk h))

theorem safe_retireAfter {gid : Nat} : SafeState (s.retireAfter gid) :=
  safe_forL (fun _ _ h' => safe_retireGrid h') (safe_retireGrid h)

theorem safe_removeCrew {cid : Nat} : SafeState (s.removeCrew cid) := by
  unfold State.removeCrew
  split
  · exact h
  · exact safe_retireAfter (safe_gbarSettle (safe_noteFreed (safe_modGrid (safe_mk (safe_modCluster h)))))

theorem safe_execCrewRetire {cid : Nat} : OutSafe (execCrewRetire cid s) := by
  unfold execCrewRetire
  refine safe_next ?_
  split
  · exact h
  · exact safe_ite (safe_ite (safe_removeCrew h) h) (safe_ite (safe_ite (safe_removeCrew h) (safe_stepLeave h)) (safe_ite h
      (safe_ite (safe_beginLeave h) h)))

end

/-! Functions of `Sys2Proof/Machine/Stash.lean`. -/

section
variable {s : State} (h : SafeState s)
include h

theorem safe_maintain {x : Slot} {op : Maint} {id lane line n : Nat} {va : W64} :
    SafeState (s.maintain x op id lane line n va) := by
  unfold State.maintain
  refine safe_forN (fun _ _ h' => ?_) h
  dsimp only
  split
  · exact safe_wbLanes (safe_modCluster h')
  · exact safe_modCluster h'

omit h in
theorem safe_maintStep {x : Slot} {op : Maint} {id : Nat} {i : Fin 32} {y : State × List (Nat × TrapRec) × BitVec 32}
    (h : SafeState y.1) :
    SafeState (maintStep x op id i y).1 := by
  unfold maintStep
  dsimp only
  split
  · exact h
  · exact safe_maintain h

theorem safe_maintSlot {o : Op} {op : Maint} {f : Fields} : OutSafe (maintSlot o op f s) := by
  unfold maintSlot
  refine safe_runSlot h (fun _ _ h' => ?_)
  dsimp only
  exact safe_settlePend (safe_finishSlot (safe_modPend (safe_forL_pair (fun _ _ h'' => safe_maintStep h'') (safe_pair
    (safe_addPend h')))))

theorem safe_serveReplays {p line : Nat} : SafeState (s.serveReplays p line) := by
  unfold State.serveReplays
  refine safe_forL (fun _ _ h' => ?_) h
  dsimp only
  split
  · exact safe_ite (safe_ite (safe_dueTrap (safe_leaveTrail (safe_mk h'))) (safe_serveWait h')) h'
  · exact h'

theorem safe_execMappedLineFill {p line : Nat} : OutSafe (execMappedLineFill p line s) := by
  unfold execMappedLineFill
  refine safe_next ?_
  split
  · refine safe_ite h (safe_ite (safe_serveReplays h) ?_)
    split
    · next hu => exact safe_serveMline (safe_of_done hu (safe_fillMline h))
    · exact h
    · exact safe_failMline h
  · exact safe_serveReplays h

theorem safe_writeBackGranule {p line g : Nat} {l : MLine} : SafeState (s.writeBackGranule p line g l) := by
  unfold State.writeBackGranule
  refine safe_ite h ?_
  split
  · next hu => exact safe_mlineRest (safe_modMline (safe_of_done hu (safe_engineWrite h)))
  · exact safe_engineStall h
  · exact safe_fatal (safe_mlineRest (safe_modMline h))

theorem safe_execWriteBackStep {p line g : Nat} : OutSafe (execWriteBackStep p line g s) := by
  unfold execWriteBackStep
  refine safe_next ?_
  split
  · exact safe_ite (safe_writeBackGranule h) h
  · exact h

end

/-! Functions of `Sys2Proof/Machine/Power.lean`. -/

section
variable {s : State} (h : SafeState s)
include h

theorem safe_execSquallTrip {p : Nat} {hard : Bool} : OutSafe (execSquallTrip p hard s) :=
  safe_next (safe_ite (safe_modCluster h) (safe_forL (fun _ _ h' => safe_ite (safe_noteSuspect h') h') (safe_modCluster h)))

theorem safe_execSquallStretchEnd {p : Nat} : OutSafe (execSquallStretchEnd p s) := safe_next (safe_ite (safe_modCluster h) h)

theorem safe_execSuspectWindowEnd {p : Nat} : OutSafe (execSuspectWindowEnd p s) := safe_next (safe_ite (safe_modCluster h) h)

theorem safe_execZoneOvercurrent {z current : Nat} : OutSafe (execZoneOvercurrent z current s) :=
  safe_next (safe_ite h (safe_ite (safe_mk h) (safe_forL (fun _ _ h' => safe_modCluster h') (safe_mk h))))

theorem safe_execDutyRestore {z : Nat} : OutSafe (execDutyRestore z s) := by
  unfold execDutyRestore
  refine safe_next ?_
  split
  · exact safe_ite h (safe_forL (fun _ _ h' => safe_ite (safe_modCluster h') h') (safe_mk h))
  · exact h

theorem safe_execPackagePowerLimit {watts : Nat} : OutSafe (execPackagePowerLimit watts s) :=
  safe_next (safe_ite (safe_mk h) (safe_forL (fun _ _ h' => safe_modCluster h') (safe_mk h)))

theorem safe_takeCluster {p : Nat} : SafeState (s.takeCluster p) := safe_mk (safe_joinCluster h)

theorem safe_fenceCluster {p : Nat} : SafeState (s.fenceCluster p) := h

theorem safe_requeue {tag p : Nat} {l : List Ccb} : SafeState (s.requeue tag p l) := by
  unfold State.requeue
  refine safe_forL (fun _ _ h' => ?_) h
  split
  · dsimp only
    split
    · exact safe_modCluster h'
    · exact safe_retireAfter (safe_abortGrid h')
  · exact h'

theorem safe_replaceCluster {tag p : Nat} : SafeState (s.replaceCluster tag p) := by
  unfold State.replaceCluster
  dsimp only
  split
  · exact safe_forL (fun _ _ h' => safe_ite (safe_restoreCrew h') (safe_modCrew h')) (safe_modCluster (safe_modPart
      (safe_takeCluster (safe_modCluster (safe_zeroCluster (safe_fenceCluster h))))))
  · exact safe_requeue (safe_forL (fun _ _ h' => safe_modGrid h') (safe_modPart (safe_modCluster (safe_zeroCluster
      (safe_fenceCluster h)))))

theorem safe_loseCrew {cid : Nat} {cause : Cause} : SafeState (s.loseCrew cid cause) := by
  unfold State.loseCrew
  split
  · exact h
  · exact safe_retireAfter (safe_mk (safe_abortGrid (safe_discardSeals h)))

theorem safe_execClusterFailing {p : Nat} : OutSafe (execClusterFailing p s) := by
  unfold execClusterFailing
  refine safe_next (safe_ite h ?_)
  split
  · exact safe_modCluster (safe_fenceCluster (safe_logSvc h))
  · refine safe_ite (safe_ite ?_ (safe_forL (fun _ _ h' => safe_ite (safe_beginLeave h') h') ?_)) (safe_ite h (safe_ite
      (safe_replaceCluster (safe_forL (fun _ _ h' => safe_ite (safe_loseCrew h') (safe_saveCrew h')) ?_)) ?_))
    · exact safe_modCluster (safe_postInfo h)
    · exact safe_modCluster (safe_postInfo h)
    · exact safe_forL (fun _ _ h' => safe_ite (safe_beginLeave h') (safe_stepLeave h')) h
    · exact safe_forL (fun _ _ h' => safe_ite (safe_beginLeave h') (safe_stepLeave h')) h

theorem safe_execZoneCheckpoint {grid : Nat} : OutSafe (execZoneCheckpoint grid s) := by
  unfold execZoneCheckpoint
  refine safe_next ?_
  split
  · exact h
  · refine safe_ite h ?_
    split
    · exact safe_fatal h
    · exact safe_gbarComplete (safe_forL (fun _ _ h' => safe_mk (safe_takeReserve h')) h)

theorem safe_recoverCrew {cid p lcl : Nat} : SafeState (s.recoverCrew cid p lcl) := by
  unfold State.recoverCrew
  split
  · exact h
  · split
    · exact h
    · dsimp only
      split
      · exact safe_crewAcquire (safe_modCluster (safe_putBytesP (safe_mk (safe_takePlaces (safe_takeReserve (safe_modGrid
          h))))))
      · split
        · exact safe_takeReserve (safe_modGrid h)
        · exact safe_startCrew (safe_mk (safe_takeReserve (safe_modGrid h)))

theorem safe_darken {z : Nat} : SafeState (s.darken z) :=
  safe_forL (fun _ _ h' => safe_ite (safe_zeroCluster h') h') (safe_mk h)

theorem safe_execZoneLost {z : Nat} : OutSafe (execZoneLost z s) := by
  unfold execZoneLost
  refine safe_next (safe_ite h (safe_forL (fun _ _ h' => ?_) (safe_forL (fun _ _ h' => safe_requeue h') (safe_darken
    (safe_forL (fun _ _ h' => safe_ite (safe_discardSeals h') (safe_loseCrew h')) (safe_forL (fun _ _ h' => safe_postInfo h')
    h))))))
  split
  · exact h'
  · dsimp only
    split
    · exact safe_loseCrew (safe_mk h')
    · exact safe_recoverCrew (safe_ite (safe_modPart (safe_takeCluster (safe_mk h'))) (safe_mk h'))

end

/-! Functions of `Sys2Proof/Machine/Rates.lean`. -/

section
variable {s : State} (h : SafeState s)
include h

theorem safe_execAllowanceRefill {p : Nat} : OutSafe (execAllowanceRefill p s) := safe_next (safe_mk h)

theorem safe_execCongestionMark {mark : Mark} : OutSafe (execCongestionMark mark s) := safe_next (safe_mark h)

theorem safe_execRateRecovery {p : Nat} : OutSafe (execRateRecovery p s) := by
  unfold execRateRecovery
  refine safe_next ?_
  dsimp only
  split
  · exact safe_modPart (safe_modCluster h)
  · exact safe_modCluster h

theorem safe_notePoint {point : Nat} : SafeState (s.notePoint point) :=
  safe_ite (safe_noteSlice h) (safe_ite (safe_noteWindow h) (safe_noteWindow h))

theorem safe_execCongestionWindow {point : Nat} : OutSafe (execCongestionWindow point s) :=
  safe_next (safe_ite h (safe_ite (safe_forN (fun _ _ h' => safe_modRouter h') (safe_forL (fun _ _ h' => safe_mark h')
    (safe_mk h))) (safe_forL (fun _ _ h' => safe_mark h') (safe_mk (safe_notePoint (safe_mk h))))))

end

/-! Functions of `Sys2Proof/Machine/Partition.lean`. -/

section
variable {s : State} (h : SafeState s)
include h

theorem safe_mgmtDone {tag : Nat} {r : Option MgmtErr} : SafeState (s.mgmtDone tag r) := safe_postEvent (safe_mk h)

theorem safe_setAreas {tag : Nat} : SafeState (s.setAreas tag) := by
  unfold State.setAreas
  split
  · exact h
  · exact safe_ite (safe_mk h) (safe_mk h)

theorem safe_dropAreas {tag : Nat} : SafeState (s.dropAreas tag) := h

theorem safe_nextInc {tag : Nat} : SafeState (s.nextInc tag) := safe_modPart (safe_mk h)

theorem safe_setOcc {tag : Nat} {slices : List Nat} : SafeState (s.setOcc tag slices) :=
  safe_forL (fun _ _ h' => safe_modSlice h') h

theorem safe_goLive {tag : Nat} : SafeState (s.goLive tag) := safe_mk (safe_modPart (safe_nextInc h))

theorem safe_execCreate {c : CreateCmd} : OutSafe (execCreate c s) := by
  unfold execCreate
  refine safe_next (safe_ite h ?_)
  dsimp only
  split
  · exact safe_mgmtDone h
  · split
    · exact safe_modPart (safe_setAreas (safe_setOcc (safe_mk (safe_forL (fun _ _ h' => safe_joinCluster h')
        (safe_clearLatches h)))))
    · exact safe_mgmtDone (safe_goLive (safe_setAreas (safe_setOcc (safe_mk (safe_forL (fun _ _ h' => safe_joinCluster h')
        (safe_clearLatches h))))))

theorem safe_dropTag {tag : Nat} : SafeState (s.dropTag tag) := safe_mk (safe_forL (fun _ _ h' => safe_tagDrop h') h)

theorem safe_dropCrews {tag : Nat} : SafeState (s.dropCrews tag) := safe_mk (safe_forL (fun _ _ h' => safe_discardSeals h') h)

theorem safe_zeroPart {tag : Nat} {t : Part} {keep : Bool} : SafeState (s.zeroPart tag t keep) :=
  safe_modPart (safe_forL (fun _ _ h' => safe_freeTables h') (safe_mk (safe_forL (fun _ _ h' => safe_zeroCluster h') h)))

theorem safe_beginReset {tag : Nat} {t : Part} : SafeState (s.beginReset tag t) :=
  safe_forL (fun _ _ h' => safe_modCluster h') (safe_dropTag (safe_dropCrews (safe_mk (safe_modPart (safe_ite (safe_mgmtDone
    h) h)))))

theorem safe_execReset {part : Nat} : OutSafe (execReset part s) := by
  unfold execReset
  refine safe_next ?_
  split
  · exact safe_mgmtDone h
  · exact safe_modPart (safe_beginReset h)

theorem safe_execResetMeshDrained {part : Nat} : OutSafe (execResetMeshDrained part s) := by
  unfold execResetMeshDrained
  refine safe_next ?_
  split
  · exact h
  · exact safe_ite h (safe_mgmtDone (safe_modPart (safe_forL (fun _ _ h' => safe_post h') (safe_notify (safe_goLive
      (safe_zeroPart (safe_notify h)))))))

theorem safe_raze {tag : Nat} {t : Part} : SafeState (s.raze tag t) :=
  safe_mk (safe_forL (fun _ _ h' => safe_modCluster h') (safe_dropAreas (safe_zeroPart (safe_notify (safe_beginReset h)))))

theorem safe_destroy {tag : Nat} : SafeState (s.destroy tag) := by
  unfold State.destroy
  split
  · exact h
  · exact safe_raze (safe_forL (fun _ _ h' => safe_discardSeals h') h)

theorem safe_destroyQuiet {tag : Nat} : SafeState (s.destroyQuiet tag) := by
  unfold State.destroyQuiet
  split
  · exact h
  · exact safe_raze h

theorem safe_execDestroy {part : Nat} : OutSafe (execDestroy part s) :=
  safe_next (safe_ite (safe_mgmtDone h) (safe_mgmtDone (safe_destroy h)))

theorem safe_execZeroingDone {p : Nat} : OutSafe (execZeroingDone p s) :=
  safe_next (safe_ite (safe_ite (safe_modCluster h) (safe_mk (safe_modCluster h))) h)

theorem safe_execKeyWipe {f : Fields} : OutSafe (execKeyWipe f s) :=
  safe_runSlot h (fun _ _ h' => safe_seqSlot (fun _ _ h'' => excSafe_ite trivial (excSafe_ite (safe_ok_pair (safe_mk
    (safe_forL (fun _ _ h4 => safe_destroy h4) h''))) (excSafe_ite trivial (excSafe_ite (safe_ok_pair (safe_destroy h''))
    (safe_ok_pair h''))))) h')

theorem safe_leaveAll {tag : Nat} : SafeState (s.leaveAll tag) :=
  safe_forL (fun _ _ h' => safe_ite h' (safe_ite (safe_beginLeave h') (safe_stepLeave h'))) h

theorem safe_saveAll {tag : Nat} : SafeState (s.saveAll tag) := safe_forL (fun _ _ h' => safe_saveCrew h') h

theorem safe_beginReshape {tag : Nat} {r : Reshape} {err : Bool} : SafeState (s.beginReshape tag r err) :=
  safe_leaveAll (safe_modPart h)

omit h in
theorem safe_whenRunning {s : State} {tag : Nat} {f : Part → State} (h : SafeState s) (hf : ∀ p, SafeState (f p)) :
    SafeState (s.whenRunning tag f) := by
  unfold State.whenRunning
  split
  · exact safe_mgmtDone h
  · exact safe_ite (safe_mgmtDone h) (safe_ite h (hf _))

theorem safe_acceptReshape {tag : Nat} {r : Reshape} {bad : Bool} : SafeState (s.acceptReshape tag r bad) := by
  unfold State.acceptReshape
  refine safe_whenRunning h (fun _ => safe_ite (safe_mgmtDone h) ?_)
  split
  · exact safe_mgmtDone h
  · exact safe_beginReshape h

theorem safe_execGrow {part : Nat} {c : ShapeCmd} : OutSafe (execGrow part c s) :=
  safe_next (safe_ite h (safe_acceptReshape h))

theorem safe_execShrink {part : Nat} {c : ShapeCmd} : OutSafe (execShrink part c s) := safe_next (safe_acceptReshape h)

theorem safe_execCompact {part : Nat} {moves : List (Nat × Nat)} : OutSafe (execCompact part moves s) :=
  safe_next (safe_acceptReshape h)

theorem safe_execQuiesce {part : Nat} : OutSafe (execQuiesce part s) :=
  safe_next (safe_whenRunning h (fun _ => safe_beginReshape h))

theorem safe_execSetqos {part : Nat} {qp : BitVec 2} {cmthr : W32} : OutSafe (execSetqos part qp cmthr s) :=
  safe_next (safe_whenRunning h (fun _ => safe_mgmtDone (safe_modPart h)))

omit h in
theorem safe_moveCell {old s : State} {c0 c1 : Nat} (hs : SafeState s) : SafeState (old.moveCell s c0 c1) :=
  safe_mk (safe_putBytesP hs)

theorem safe_moveChannels {tag : Nat} {t t' : Part} : SafeState (s.moveChannels tag t t') := by
  refine safe_ite h (safe_mk (safe_forL (fun _ _ _ => safe_moveCell ?_) ?_)) <;>
    exact safe_forL (fun _ _ h' => safe_forL (fun _ _ h' => safe_ite (safe_evict h') h') h')
      (safe_forL (fun _ _ h' => safe_setCell h') h)

theorem safe_followMap {tag : Nat} {t t' : Part} : SafeState (s.followMap tag t t') := by
  unfold State.followMap
  refine safe_forL (fun _ _ h' => ?_) (safe_mk h)
  split
  · exact safe_modCrew h'
  · exact safe_modGrid h'

theorem safe_followQueues {tag : Nat} {t t' : Part} : SafeState (s.followQueues tag t t') := by
  unfold State.followQueues
  refine safe_forL (fun _ _ h' => ?_) (safe_modPart h)
  split
  · exact safe_modCluster h'
  · exact safe_requeue h'

theorem safe_applyShape {tag : Nat} {t t' : Part} : SafeState (s.applyShape tag t t') :=
  safe_setAreas (safe_setOcc (safe_forL (fun _ _ h' => safe_modSlice h') (safe_mk (safe_forL (fun _ _ h' => safe_modCluster
    (safe_zeroCluster h')) (safe_followMap (safe_followQueues (safe_modPart (safe_forL (fun _ _ h' => safe_joinCluster h')
    (safe_moveChannels h)))))))))

theorem safe_replaceFailing {tag : Nat} : SafeState (s.replaceFailing tag) := by
  unfold State.replaceFailing
  split
  · exact h
  · exact safe_forL (fun _ _ h' => safe_replaceCluster h') h

theorem safe_replaceUnready {tag : Nat} {l : List Nat} : SafeState (s.replaceUnready tag l) :=
  safe_forL (fun _ _ h' => safe_replaceCluster h') h

theorem safe_startHeld {tag : Nat} {t : Part} : SafeState (s.startHeld tag t) :=
  safe_ite (safe_mgmtDone (safe_destroyQuiet h)) (safe_mgmtDone (safe_goLive (safe_replaceUnready (safe_modPart h))))

theorem safe_execIncarnationHoldExpiry {part : Nat} : OutSafe (execIncarnationHoldExpiry part s) := by
  unfold execIncarnationHoldExpiry
  refine safe_next ?_
  split
  · exact h
  · split
    · exact safe_ite h (safe_ite (safe_startHeld h) (safe_modPart h))
    · exact h

theorem safe_execQuiesceDone {part : Nat} : OutSafe (execQuiesceDone part s) := by
  unfold execQuiesceDone
  refine safe_next ?_
  split
  · exact h
  · refine safe_ite h (safe_ite (safe_leaveAll h) ?_)
    dsimp only
    split
    · exact safe_modPart (safe_replaceFailing (safe_saveAll h))
    · exact safe_modPart (safe_replaceFailing (safe_saveAll h))
    · exact safe_modPart (safe_replaceFailing (safe_mgmtDone (safe_saveAll h)))
    · split
      · exact h
      · exact safe_modPart (safe_replaceFailing (safe_mgmtDone (safe_saveAll h)))
      · exact h
      · exact safe_modPart (safe_replaceFailing (safe_mgmtDone (safe_replaceUnready (safe_applyShape (safe_saveAll h)))))

theorem safe_execResume {part : Nat} : OutSafe (execResume part s) := by
  unfold execResume
  refine safe_next ?_
  split
  · exact safe_ite (safe_mgmtDone (safe_modPart h)) (safe_mgmtDone h)
  · exact safe_mgmtDone h

theorem safe_restoreAll {tag ctx : Nat} : SafeState (s.restoreAll tag ctx) := safe_forL (fun _ _ h' => safe_restoreCrew h') h

theorem safe_sendPending {tag : Nat} : SafeState (s.sendPending tag) := by
  unfold State.sendPending
  split
  · exact h
  · exact safe_modPart (safe_mk h)

theorem safe_execResumeDone {part : Nat} : OutSafe (execResumeDone part s) := by
  unfold execResumeDone
  refine safe_next ?_
  split
  · exact h
  · exact safe_ite h (safe_ite (safe_mgmtDone (safe_sendPending (safe_modPart (safe_restoreAll h)))) (safe_sendPending
      (safe_modPart (safe_restoreAll h))))

theorem safe_switchCtx {tag : Nat} {t : Part} : SafeState (s.switchCtx tag t) :=
  safe_restoreAll (safe_modPart (safe_forL (fun _ _ h' => safe_modCluster h') (safe_forL (fun _ _ h' => safe_zeroCluster h')
    (safe_saveAll h))))

theorem safe_execSliceEnd {part : Nat} : OutSafe (execSliceEnd part s) := by
  unfold execSliceEnd
  refine safe_next ?_
  split
  · exact h
  · exact safe_ite h (safe_ite (safe_ite (safe_switchCtx h) (safe_leaveAll h)) (safe_ite (safe_leaveAll (safe_modPart h))
      (safe_modPart h)))

end

/-! Functions of `Sys2Proof/Machine/HostLink.lean`. -/

section
variable {s : State} (h : SafeState s)
include h

omit h in
theorem safe_bar0 {s : State} {tag : Nat} {f : Part → State} (h : SafeState s) (hf : ∀ p, SafeState (f p)) :
    SafeState (s.bar0 tag f) := by
  unfold State.bar0
  split
  · exact safe_ite (hf _) h
  · exact h

theorem safe_execQueueEnable {part queue : Nat} {en : Bool} : OutSafe (execQueueEnable part queue en s) :=
  safe_next (safe_bar0 h (fun _ => safe_ite h (safe_ite (safe_queueTo (safe_modQueue h)) (safe_ite (safe_queueTo
    (safe_modQueue (safe_modQueue h))) (safe_modQueue h)))))

theorem safe_execQueueReset {part queue : Nat} : OutSafe (execQueueReset part queue s) :=
  safe_next (safe_bar0 h (fun _ => safe_ite (safe_queueTo (safe_modQueue h)) h))

theorem safe_execQueueWpWrite {part queue : Nat} {wp : W32} : OutSafe (execQueueWpWrite part queue wp s) :=
  safe_next (safe_bar0 h (fun _ => safe_ite h (safe_overrun (safe_modQueue h))))

theorem safe_execQueueRpWrite {part queue : Nat} {rp : W32} : OutSafe (execQueueRpWrite part queue rp s) :=
  safe_next (safe_bar0 h (fun _ => safe_ite (safe_modQueue h) h))

theorem safe_execRegisterWrite {part queue word : Nat} {v : W64} : OutSafe (execRegisterWrite part queue word v s) :=
  safe_next (safe_bar0 h (fun _ => safe_ite (safe_modQueue h) h))

theorem safe_execBar0UnlistedAccess {part off : Nat} {wr : Bool} {_v : W64} :
    OutSafe (execBar0UnlistedAccess part off wr _v s) :=
  safe_next (safe_bar0 h (fun _ => safe_ite h (safe_mk h)))

theorem safe_execMsixUnmask {part vec : Nat} : OutSafe (execMsixUnmask part vec s) := by
  unfold execMsixUnmask
  refine safe_next ?_
  split
  · exact h
  · exact safe_ite h (safe_ite (safe_modPart (safe_mk (safe_modPart h))) (safe_modPart h))

theorem safe_execTdispMessage {part : Nat} {m : Tdisp} : OutSafe (execTdispMessage part m s) := safe_next (safe_modPart h)

theorem safe_execSpdmGetMeasurements {part index : Nat} {nonce : List Byte} :
    OutSafe (execSpdmGetMeasurements part index nonce s) := by
  unfold execSpdmGetMeasurements
  refine safe_next ?_
  split
  · exact h
  · split
    · exact h
    · exact safe_mk h

omit h in
theorem safe_hostPut {asid : BitVec 16} {d : List Byte} {l : List (Nat × Nat)} (h : SafeState s) :
    AccSafe id (s.hostPut asid d l) := by
  induction l generalizing s d with
  | nil => exact safe_done h
  | cons y l ih =>
    unfold State.hostPut
    split
    · trivial
    · trivial
    · next hu => exact ih (safe_modSlice (safe_of_done_pair hu (safe_ensureLine h)))

omit h in
theorem safe_hostDrain {l : List (Nat × Nat × W64 × List Byte)} (h : SafeState s) : SafeState (State.hostDrain l s) := by
  induction l generalizing s with
  | nil => exact safe_mk h
  | cons y l ih =>
    unfold State.hostDrain
    refine safe_ite (ih h) ?_
    split
    · next hu => exact ih (safe_of_done hu (safe_hostPut h))
    · exact ih h
    · exact safe_mk h

theorem safe_execHostWrite {part space : Nat} {va : W64} {data : List Byte} : OutSafe (execHostWrite part space va data s) :=
  safe_next (safe_ite h (safe_hostDrain h))

theorem safe_execHostCompletion {id : Nat} {ok : Bool} {data : List Byte} : OutSafe (execHostCompletion id ok data s) := by
  unfold execHostCompletion
  refine safe_next ?_
  split
  · exact h
  · dsimp only
    split
    · split
      · exact safe_mk (safe_noteWindow h)
      · exact safe_endReq (safe_mk (safe_chargeFar (safe_mk (safe_noteWindow h))))
    · split
      · exact safe_mk (safe_noteWindow h)
      · exact safe_ite (safe_mk (safe_noteWindow h)) (safe_ite (safe_cpEnd (safe_mk (safe_noteWindow h))) (safe_modCluster
          (safe_mk (safe_noteWindow h))))
    · exact safe_mk (safe_noteWindow h)

end

/-! Functions of `Sys2Proof/Machine/Ready.lean`. -/

section
variable {s : State} (h : SafeState s)
include h

theorem safe_modRdy {r : Res} {f : List Nat → List Nat} : SafeState (s.modRdy r f) := by
  unfold State.modRdy
  split <;> exact safe_mk h

omit h in
theorem safe_execColdStart : OutSafe (execColdStart s) := safe_next (safe_mk reset_wf)

theorem safe_execFabricRailDown : OutSafe (execFabricRailDown s) := safe_next (safe_mk h)

theorem safe_execSelfTestPass {r : Res} {i : Nat} : OutSafe (execSelfTestPass r i s) := safe_next (safe_ite h (safe_modRdy h))

theorem safe_markFailed {r : Res} {i : Nat} : SafeState (s.markFailed r i) := safe_mk (safe_modRdy h)

theorem safe_rehomeRequests {tag : Nat} : SafeState (s.rehomeRequests tag) := by
  unfold State.rehomeRequests
  refine safe_forL (fun _ _ h' => safe_ite h' ?_) h
  dsimp only
  split
  · exact safe_resend h'
  · exact safe_resend h'
  · exact safe_resend h'
  · exact safe_resend h'
  · exact safe_resend h'
  · exact safe_mk h'
  · exact safe_mk h'
  · exact safe_mk h'
  · exact safe_mk h'

theorem safe_spread {tag : Nat} {moves : List (Nat × Nat)} : SafeState (s.spread tag moves) :=
  safe_mk (safe_forL (fun _ _ _ => safe_moveCell h) h)

omit h in
theorem safe_channelLost {s0 : State} {q tag : Nat} {t : Part} {s : State} (h : SafeState s) :
    SafeState (s0.channelLost q tag t s) := by
  refine safe_ite (safe_destroyQuiet (safe_postInfo h)) (safe_ite (safe_beginReshape ?_) ?_) <;>
    exact safe_setAreas (safe_rehomeRequests (safe_spread (safe_forL (fun _ _ h' =>
      safe_forL (fun _ _ h' => safe_ite (safe_writeBack h') h') h') h)))

theorem safe_fenceSlice {q : Nat} {router : Bool} : SafeState (s.fenceSlice q router) :=
  safe_ite (safe_ite (safe_mk h) h) (safe_mk (safe_forL (fun _ _ h' => safe_channelLost h') (safe_mk (safe_markFailed
    (safe_markFailed h)))))

theorem safe_clusterFails {p : Nat} : SafeState (s.clusterFails p) :=
  safe_ite (safe_fenceCluster (safe_ite (safe_mk (safe_markFailed h)) (safe_markFailed h))) (safe_modCluster (safe_ite
    (safe_mk (safe_markFailed h)) (safe_markFailed h)))

theorem safe_execResourceFail {r : Res} {i : Nat} : OutSafe (execResourceFail r i s) := by
  unfold execResourceFail
  refine safe_next (safe_ite h ?_)
  split
  · exact safe_fenceSlice (safe_markFailed h)
  · exact safe_fenceSlice h
  · exact safe_fenceSlice h
  · exact safe_clusterFails h
  · exact safe_markFailed h
  · exact safe_markFailed h
  · exact safe_markFailed h
  · exact safe_markFailed h

end

/-! Functions of `Sys2Proof/Machine/Rearrange.lean`. -/

section
variable {s : State} (h : SafeState s)
include h

theorem safe_execXpose {f : Fields} : OutSafe (execXpose f s) := safe_runSlot h (fun _ _ h' => safe_finishSlot h')

end

/-! Functions of `Sys2Proof/Machine/Watch.lean`. -/

section
variable {s : State} (h : SafeState s)
include h

theorem safe_execBundleSelect {k : Nat} : OutSafe (execBundleSelect k s) :=
  safe_next (safe_bundleSelect (safe_storageError h))

theorem safe_execRegionClose {cid co : Nat} : OutSafe (execRegionClose cid co s) := by
  unfold execRegionClose
  refine safe_next ?_
  split
  · exact h
  · refine safe_ite h ?_
    dsimp only
    split
    · exact h
    · exact safe_modCohort (safe_suspectRestart h)
    · exact safe_ite (safe_modCohort (safe_commitRegion h)) (safe_enterTraps (safe_modCohort (safe_commitRegion h)))

theorem safe_execDebugResume {cid : Nat} : OutSafe (execDebugResume cid s) := by
  unfold execDebugResume
  refine safe_next ?_
  split
  · exact safe_ite (safe_modCrew h) h
  · exact h

theorem safe_execDeadline {cid i : Nat} : OutSafe (execDeadline cid i s) := by
  unfold execDeadline
  refine safe_next ?_
  split
  · exact h
  · refine safe_ite h ?_
    dsimp only
    split
    · exact safe_dueTrap (safe_modCrew h)
    · exact safe_modCrew h

theorem safe_releaseGbar {cid gen : Nat} : SafeState (s.releaseGbar cid gen) := by
  unfold State.releaseGbar
  split
  · exact h
  · exact safe_forL (fun _ _ h' => safe_ite h' (safe_startFence (safe_modCohort (safe_modLanes h')))) (safe_fresh h)

theorem safe_execGbarRelease {grid group : Nat} : OutSafe (execGbarRelease grid group s) := by
  unfold execGbarRelease
  refine safe_next ?_
  split
  · exact h
  · split
    · exact safe_ite h (safe_ite (safe_forL (fun _ _ h' => safe_releaseGbar h') h) (safe_modGrid (safe_forL (fun _ _ h' =>
        safe_releaseGbar h') h)))
    · exact h

theorem safe_execGbarStall {grid : Nat} : OutSafe (execGbarStall grid s) := by
  unfold execGbarStall
  refine safe_next ?_
  split
  · exact h
  · refine safe_ite h ?_
    split
    · exact safe_fatal h
    · exact h

theorem safe_execChannelGrow {cid ch : Nat} : OutSafe (execChannelGrow cid ch s) := by
  unfold execChannelGrow
  refine safe_next ?_
  split
  · exact h
  · dsimp only
    split
    · exact safe_ite h (safe_ite (safe_modCrew h) (safe_ite (safe_modCrew h) (safe_fatal h)))
    · exact h

theorem safe_execCyclicWaitDetect {cid : Nat} : OutSafe (execCyclicWaitDetect cid s) := by
  unfold execCyclicWaitDetect
  refine safe_next ?_
  split
  · exact h
  · refine safe_ite (safe_ite (safe_modCrew h) h) ?_
    split
    · exact safe_modCrew h
    · exact safe_ite h (safe_fatal h)

end

/-! Functions of `Sys2Proof/Machine/Dispatch.lean`. -/

section
variable {s : State} (h : SafeState s)
include h

theorem safe_exec {i : Instr} : OutSafe (exec i s) := by
  cases i
  case nop => exact safe_execNop h
  case br => exact safe_execBr h
  case jmp => exact safe_execJmp h
  case call => exact safe_execCall h
  case callr => exact safe_execCallr h
  case ret => exact safe_execRet h
  case rjnEnrol => exact safe_execRjnEnrol h
  case rjnWait => exact safe_execRjnWait h
  case rjnLeave => exact safe_execRjnLeave h
  case exit => exact safe_execExit h
  case yield => exact safe_execYield h
  case tileSet => exact safe_execTileSet h
  case fwait => exact safe_execFwait h
  case rgnOpen => exact safe_execRgnOpen h
  case rgnClose => exact safe_execRgnClose h
  case launch => exact safe_execLaunch h
  case cwait => exact safe_execCwait h
  case dbnz => exact safe_execDbnz h
  case trap => exact safe_execTrap h
  case trapret => exact safe_execTrapret h
  case brkpt => exact safe_execBrkpt h
  case add | sub | mul | min | max | mulh | sar | and | or | xor | andn | orn | shl | shr | rol | ror | movk | fadd | fsub |
      fmul | fmin | fmax | fcsgn | fscale => exact safe_aluTwo h
  case mad | bfx | fsh | bfi | sel | ffma => exact safe_aluThree h
  case addc | subb => exact safe_carrySlot h
  case cmp | fcmp | fclass | fexpo | fdot2 | fdot4 | cvtPk | cvtSr | mxq | mxdq | pack | unpack | shflIdx | shflUp | shflDn |
      shflXor | voteAny | voteAll | voteBal | voteEq | redx | scanx | perm | rdlane | wrlane => exact safe_laneSlot h
  case abs | neg | not | brev | mov | fabs | fneg | frnd | cvt => exact safe_aluOne h
  case popc | clz | ctz => exact safe_countSlot h
  case lea => exact safe_execLea h
  case xpose => exact safe_execXpose h
  case frcp | frsq | fsqrt | fdiv | fex2 | flg2 | fsin | fcos | ftanh | fsig | ferf => exact safe_sfuSlot h
  case ld => exact safe_execLd h
  case st => exact safe_execSt h
  case ldu => exact safe_execLdu h
  case lds => exact safe_execLds h
  case sts => exact safe_execSts h
  case pref => exact safe_execPref h
  case bind => exact safe_execBind h
  case unbind => exact safe_execUnbind h
  case fence => exact safe_execFence h
  case stashMap | stashUnmap | stashWb | stashInv => exact safe_maintSlot h
  case atom => exact safe_execAtom h
  case red => exact safe_execRed h
  case cas => exact safe_execCas h
  case atoms => exact safe_execAtoms h
  case cass => exact safe_execCass h
  case redFlush => exact safe_execRedFlush h
  case cp | cp2d | cpGth | cpSct | cpMc | cpSp | cpRt | cpFill => exact safe_cpPost h
  case cpStat => exact safe_execCpStat h
  case cpCancel => exact safe_execCpCancel h
  case mxPost | mxTeam | mxDrain => exact safe_mxPost h
  case mxZero => exact safe_execMxZero h
  case mxStat => exact safe_execMxStat h
  case mxCancel => exact safe_execMxCancel h
  case barInit => exact safe_execBarInit h
  case barArr => exact safe_execBarArr h
  case barExp => exact safe_execBarExp h
  case barWait => exact safe_execBarWait h
  case barTest => exact safe_execBarTest h
  case gbar => exact safe_execGbar h
  case chnBind => exact safe_execChnBind h
  case chnPop => exact safe_execChnPop h
  case chnTry => exact safe_execChnTry h
  case chnCnt => exact safe_execChnCnt h
  case alwBind => exact safe_execAlwBind h
  case alwTest => exact safe_execAlwTest h
  case alwRd => exact safe_execAlwRd h
  case ldf => exact safe_execLdf h
  case stf => exact safe_execStf h
  case atomf => exact safe_execAtomf h
  case casf => exact safe_execCasf h
  case fcp => exact safe_execFcp h
  case wcbFlush => exact safe_execWcbFlush h
  case fpeer => exact safe_execFpeer h
  case sealOpen => exact safe_execSealOpen h
  case sealAbs => exact safe_execSealAbs h
  case sealFin => exact safe_execSealFin h
  case sealAbt => exact safe_execSealAbt h
  case sysrd => exact safe_execSysrd h
  case syswr => exact safe_execSyswr h
  case icinv => exact safe_execIcinv h
  case rtDef => exact safe_execRtDef h
  case fuseRd => exact safe_execFuseRd h
  case keyWipe => exact safe_execKeyWipe h
  case measExt => exact safe_execMeasExt h
  case sigVfy => exact safe_execSigVfy h
  case dbgOpen => exact safe_execDbgOpen h
  case halt => exact safe_execHalt h
  case bundleSelect => exact safe_execBundleSelect h
  case debugResume => exact safe_execDebugResume h
  case resultDelivery => exact safe_execResultDelivery h
  case clusterFailing => exact safe_execClusterFailing h
  case regionClose => exact safe_execRegionClose h
  case coldStart => exact safe_execColdStart
  case selfTestPass => exact safe_execSelfTestPass h
  case resourceFail => exact safe_execResourceFail h
  case acquire => exact safe_execAcquire h
  case release => exact safe_execRelease h
  case map => exact safe_execMap h
  case unmap => exact safe_execUnmap h
  case protect => exact safe_execProtect h
  case migrate => exact safe_execMigrate h
  case refuse => exact safe_execRefuse h
  case rowClearDone => exact safe_execRowClearDone h
  case pageWalkEnd => exact safe_execPageWalkEnd h
  case homeSliceRequest => exact safe_execHomeSliceRequest h
  case lineFillDone => exact safe_execLineFillDone h
  case patrolScrub => exact safe_execPatrolScrub h
  case dramRefresh => exact safe_next h
  case routeFlits => exact safe_execRouteFlits h
  case injectionStarvation => exact safe_execInjectionStarvation h
  case sinkEject => exact safe_execSinkEject h
  case copyJobStart => exact safe_execCopyJobStart h
  case copyGranuleLand => exact safe_execCopyGranuleLand h
  case copyJobEnd => exact safe_execCopyJobEnd h
  case routeStationForward => exact safe_execRouteStationForward h
  case mappedLineFill => exact safe_execMappedLineFill h
  case writeBackStep => exact safe_execWriteBackStep h
  case deadline => exact safe_execDeadline h
  case mandrelCycle => exact safe_execMandrelCycle h
  case mxStep => exact safe_execMxStep h
  case mxWriteOut => exact safe_execMxWriteOut h
  case mxChannelPush => exact safe_execMxChannelPush h
  case mxCardEnd => exact safe_execMxCardEnd h
  case fabricEgressRoute => exact safe_execFabricEgressRoute h
  case fabricIngress => exact safe_execFabricIngress h
  case fabricAck => exact safe_execFabricAck h
  case linkTrain => exact safe_execLinkTrain h
  case linkFlitRetry => exact safe_execLinkFlitRetry h
  case fabricTimeout => exact safe_execFabricTimeout h
  case resetNotice => exact safe_execResetNotice h
  case peerIncarnation => exact safe_execPeerIncarnation h
  case peerJoin => exact safe_execPeerJoin h
  case wcbAgeDrain => exact safe_execWcbAgeDrain h
  case allowanceRefill => exact safe_execAllowanceRefill h
  case congestionMark => exact safe_execCongestionMark h
  case rateRecovery => exact safe_execRateRecovery h
  case congestionWindow => exact safe_execCongestionWindow h
  case hostLaunchFetch => exact safe_execHostLaunchFetch h
  case stampTimeout => exact safe_execStampTimeout h
  case dispatch => exact safe_execDispatch h
  case reservationTimeout => exact safe_execReservationTimeout h
  case crewQueueStart => exact safe_execCrewQueueStart h
  case stealRequest => exact safe_execStealRequest h
  case stealVictim => exact safe_execStealVictim h
  case stealReply => exact safe_execStealReply h
  case crewRetire => exact safe_execCrewRetire h
  case cwaitResume => exact safe_execCwaitResume h
  case gbarRelease => exact safe_execGbarRelease h
  case zoneCheckpoint => exact safe_execZoneCheckpoint h
  case gbarStall => exact safe_execGbarStall h
  case channelGrow => exact safe_execChannelGrow h
  case cyclicWaitDetect => exact safe_execCyclicWaitDetect h
  case squallTrip => exact safe_execSquallTrip h
  case squallStretchEnd => exact safe_execSquallStretchEnd h
  case suspectWindowEnd => exact safe_execSuspectWindowEnd h
  case zoneOvercurrent => exact safe_execZoneOvercurrent h
  case dutyRestore => exact safe_execDutyRestore h
  case packagePowerLimit => exact safe_execPackagePowerLimit h
  case zoneLost => exact safe_execZoneLost h
  case create => exact safe_execCreate h
  case grow => exact safe_execGrow h
  case shrink => exact safe_execShrink h
  case compact => exact safe_execCompact h
  case quiesce => exact safe_execQuiesce h
  case resume => exact safe_execResume h
  case setqos => exact safe_execSetqos h
  case reset => exact safe_execReset h
  case resetMeshDrained => exact safe_execResetMeshDrained h
  case destroy => exact safe_execDestroy h
  case incarnationHoldExpiry => exact safe_execIncarnationHoldExpiry h
  case quiesceDone => exact safe_execQuiesceDone h
  case resumeDone => exact safe_execResumeDone h
  case sliceEnd => exact safe_execSliceEnd h
  case queueEnable => exact safe_execQueueEnable h
  case queueReset => exact safe_execQueueReset h
  case queueWpWrite => exact safe_execQueueWpWrite h
  case queueRpWrite => exact safe_execQueueRpWrite h
  case registerWrite => exact safe_execRegisterWrite h
  case bar0UnlistedAccess _ _ _ v => exact safe_execBar0UnlistedAccess (_v := v) h
  case msixUnmask => exact safe_execMsixUnmask h
  case tdispMessage => exact safe_execTdispMessage h
  case spdmGetMeasurements => exact safe_execSpdmGetMeasurements h
  case hostWrite => exact safe_execHostWrite h
  case sealAbsorbEnd => exact safe_execSealAbsorbEnd h
  case sealSign => exact safe_execSealSign h
  case fabricRailDown => exact safe_execFabricRailDown h
  case hostCompletion => exact safe_execHostCompletion h
  case zeroingDone => exact safe_execZeroingDone h

end

/-! Functions of `Sys2Proof/Machine/Step.lean`. -/

section
variable {s : State} (h : SafeState s)
include h

theorem safe_stepTurn {t : Turn} : OutSafe (stepTurn t s) := by
  unfold stepTurn
  split
  · split
    · next hu => exact safe_next (safe_of_pair hu (safe_nextSlot h))
    · next hu => exact safe_exec (safe_mk (safe_of_pair hu (safe_nextSlot h)))
  · split
    · next hu => exact safe_next (safe_of_pair hu (safe_nextMapping h))
    · next hu => exact safe_exec (safe_of_pair hu (safe_nextMapping h))
  · exact safe_exec h

theorem safe_step : OutSafe (step s) := outSafe_ite (safe_stepTurn (safe_advance h)) trivial

end

end Sys2Proof.Machine
end

section
open Sys2Proof Sys2Proof.Machine

/-- Settles O60: `safe_step`, that every answer of `step` in a safe state carries a safe state, by the lemmas of the functions
that a step is made of. -/
theorem memoryInvariant : Obligations.MemoryInvariant := by
  unfold Obligations.MemoryInvariant
  exact fun _ _ h e => safe_of_next e (safe_step h)
end

section
/-!
Stash maintenance: the slot of an instruction whose threads fault no check, and what each operation makes of a line (R106, R108,
R109).
-/

namespace Sys2Proof.Machine

/-- Threads that fault no check act on their lines in lane order; the slot ends there, and SETB waits for the write-backs. -/
theorem maintSlot_acts {o : Op} {op : Maint} {c : Fields → Instr} (he : ∀ f s, exec (c f) s = maintSlot o op f s) {f : Fields}
    {s e : State} {b : At} {m : BitVec 32} (h : SlotReady o f s b)
    (hr : forL (lanesOf (b.slot o f s).ex) (s.addPend ((b.slot o f s).pend 0 0 (b.slot o f s).ex []), [], 0)
      (maintStep (b.slot o f s) op s.nextId) = (e, [], m)) :
    ∃ u, exec (c f) s = .next (u.settlePend s.nextId) ∧
      RegFrame (e.modPend s.nextId fun p => { p with waitPerf := m }) u (b.slot o f s) false := by
  obtain ⟨_, _, hst⟩ := stands_live h (maint_live (g := fun p => { p with waitPerf := m }) hr)
  have hrun : exec (c f) s = _ := (he f s).trans (runSlot_ready h _)
  simp only [hr] at hrun
  exact ⟨_, hrun, finishSlot_frame hst .none⟩

section
variable (cid : Nat) (va : W64) (w : Nat × Nat) (l : MLine)

theorem maintLine_map (o : Option MLine) : maintLine .map cid va w o = some (MLine.fresh cid va) := by
  cases o <;> rfl

/-- A line with a fill or a write-back to come leaves the map after it, any other at once. -/
theorem maintLine_unmap : maintLine .unmap cid va w (some l) =
    if l.st = 1 ∨ (l.st = 2 ∧ l.mask ≠ 0) then some { l with un := true, wb := l.wb ++ [w] } else none := by
  simp only [maintLine, Bool.and_eq_true, decide_eq_true_eq, ite_or]

theorem maintLine_wb : maintLine .wb cid va w (some l) =
    if l.st = 2 ∧ l.mask ≠ 0 then some { l with wb := l.wb ++ [w] } else some l := by
  simp only [maintLine, Bool.and_eq_true, decide_eq_true_eq]

theorem maintLine_inv : maintLine .inv cid va w (some l) =
    if l.st = 1 ∨ (l.st = 2 ∧ l.wb ≠ []) then some { l with inv := some l.waiters.length }
    else if l.st = 2 then some { l with st := 0, mask := 0 } else some l := by
  simp only [maintLine, Bool.or_eq_true, Bool.and_eq_true, Bool.not_eq_true', List.isEmpty_eq_false_iff, decide_eq_true_eq]

end

end Sys2Proof.Machine
end

section
/-!
The statement of spec/05_stash_and_copies.md on the stash maintenance instructions.
-/

open Sys2Proof Sys2Proof.Machine

/-- Settles O33: the four instructions are one slot (`maintSlot_acts`), and each operation on a line is an equation of
`maintLine`. -/
theorem stashMaintenance : Obligations.StashMaintenance := by
  refine ⟨?map, ?unmap, ?wb, ?inv, fun cid va w l => ⟨maintLine_map cid va w, rfl, rfl, rfl, maintLine_unmap cid va w l,
    maintLine_wb cid va w l, maintLine_inv cid va w l⟩⟩
  all_goals exact fun _ _ _ h _ _ => maintSlot_acts (fun _ _ => rfl) h
end

section
/-!
Posts of copy jobs: a posting instruction as executing threads that offer their jobs in turn, and the engine's answer to an offer
(R114 to R116).
-/

namespace Sys2Proof.Machine

/-- What an executing thread of a posting instruction does: the checks of its offset and of the descriptor there, then its offer
(R114, R115). -/
def cpPostLane (k : CpKind) (x : Slot) (i : Fin 32) (t : State) : Except Cause (State × W64) :=
  match firstErr
    [failIf (x.a[i]).p cPoisonUse, failIf (decide ((x.a[i]).lo.toNat % 64 ≠ 0)) cMisaligned,
     failIf (decide (x.crew.dOff < (x.a[i]).lo.toNat + 64)) cStashBounds,
     t.cpFault x.crew k (eightWords (memRead t.mem (x.crew.stashAt (x.a[i]).lo.toNat) 64))] with
  | some c => .error c
  | none => .ok (t.cpOffer x i.val k 0 (eightWords (memRead t.mem (x.crew.stashAt (x.a[i]).lo.toNat) 64)))

theorem stays_cpPostLane {k : CpKind} {x : Slot} {i : Fin 32} {s t : State} {v : W64} (h : cpPostLane k x i s = .ok (t, v)) :
    Stays s t := by
  unfold cpPostLane at h
  split at h
  · cases h
  · have hoffer := stays_cpOffer s x i.val k 0 (eightWords (memRead s.mem (x.crew.stashAt (x.a[i]).lo.toNat) 64))
    rwa [Except.ok.inj h] at hoffer

theorem cpPost_inTurn {o : Op} {k : CpKind} {c : Fields → Instr} (he : ∀ f s, exec (c f) s = cpPost o k f s) :
    InTurn o c fun _ => cpPostLane k :=
  inTurn (ad := fun _ x i => (x.a[i]).lo.setWidth 64) he fun _ _ _ _ _ _ i j h => (stays_cpPostLane h).1 i j

/-! The answer to an offer: the refusals in the order in which R115 lists them, the model's choice where several hold (log
19). -/

section
variable {s : State} {x : Slot} {lane q : Nat} {k : CpKind} {d : List W64} {c : Crew} {th : Thread}
  (hc : smGet s.crews x.cid = some c) (ht : s.thread? x.cid x.co lane = some th)
include hc ht

theorem cpOffer_of_no_room
    (hr : (s.cluster x.p).chuckRoom < (cpRanges c k d ((s.cluster x.p).freeSlots.getD
      (Config.slotFor s.tick % (s.cluster x.p).freeSlots.length) 0) s.nextId).length) : s.cpOffer x lane k q d = (s, 2) := by
  simp only [State.cpOffer, hc, ht, if_pos hr]

variable (hr : (cpRanges c k d ((s.cluster x.p).freeSlots.getD
  (Config.slotFor s.tick % (s.cluster x.p).freeSlots.length) 0) s.nextId).length ≤ (s.cluster x.p).chuckRoom)
include hr

theorem cpOffer_of_no_slot (hs : (s.cluster x.p).freeSlots = []) : s.cpOffer x lane k q d = (s, 4) := by
  simp only [State.cpOffer, hc, ht, if_neg hr.not_gt, if_pos hs]

variable (hs : (s.cluster x.p).freeSlots ≠ [])
include hs

theorem cpOffer_of_full_flag (he : dCfe d = true) (hf : flagRoom th (dCfl d) = false) :
    s.cpOffer x lane k q d = (s, 6) := by
  simp only [State.cpOffer, hc, ht, if_neg hr.not_gt, if_neg hs, he, hf, Bool.not_false, Bool.and_self, if_true]

/-- An accepted offer answers a handle, whose lowest bit is ACC. -/
theorem cpOffer_of_accepted (hf : dCfe d = true → flagRoom th (dCfl d) = true) :
    (s.cpOffer x lane k q d).2.getLsbD 0 = true := by
  have hflag : ¬ (dCfe d && !flagRoom th (dCfl d)) = true := by
    intro h
    rw [Bool.and_eq_true, Bool.not_eq_true'] at h
    rw [hf h.1] at h
    exact Bool.noConfusion h.2
  simp only [State.cpOffer, hc, ht, if_neg hr.not_gt, if_neg hs, if_neg hflag, cpHandle_acc]

end

end Sys2Proof.Machine
end

section
/-!
The statement of spec/05_stash_and_copies.md on the posts of copy jobs.
-/

open Sys2Proof Sys2Proof.Machine

/-- Settles O35: the eight instructions post alike (`cpPost_inTurn`), and an offer is refused or accepted on the first condition
that holds (`cpOffer_of_…`). -/
theorem copyPosts : Obligations.CopyPosts := by
  refine ⟨?cp, ?cp2d, ?cpGth, ?cpSct, ?cpMc, ?cpSp, ?cpRt, ?cpFill, fun s x lane k q d c th hc ht =>
    ⟨cpOffer_of_no_room hc ht, fun hr => ⟨cpOffer_of_no_slot hc ht hr, fun hs =>
      ⟨cpOffer_of_full_flag hc ht hr hs, cpOffer_of_accepted hc ht hr hs⟩⟩⟩⟩
  all_goals exact cpPost_inTurn fun _ _ => rfl
end

section
/-!
Status and cancellation of jobs: what the words and the cancels come to for a job that its handle names, for one that a save
ended, and for one that is gone (R124 to R126, R222, R223, R376).
-/

namespace Sys2Proof.Machine

theorem cpStat_inTurn : InTurn .cpStat Instr.cpStat fun f x i t =>
    if (x.a[i]).p then .error cPoisonUse else .ok (t, t.cpStatus x (decide (f.mod ≠ 0)) (x.a[i]).v) := by
  refine inTurn (ad := fun _ x i => (x.a[i]).lo.setWidth 64) (fun _ _ => rfl) fun _ x i s t v a b h => ?_
  split at h
  · cases h
  · cases h
    rfl

theorem mxStat_inTurn : InTurn .mxStat Instr.mxStat fun f x i t =>
    if f.mod = 3 then .ok (t, BitVec.ofNat 64 (bankWord (t.cluster x.p) x.cid))
    else if (x.a[i]).p then .error cPoisonUse
    else .ok (t, t.mxStatus x f.mod.toNat (x.a[i]).v) := by
  refine inTurn (ad := fun _ x i => (x.a[i]).lo.setWidth 64) (fun _ _ => rfl) fun _ x i s t v a b h => ?_
  split at h
  · cases h
    rfl
  split at h
  · cases h
  · cases h
    rfl

theorem cpCancel_cancels : Cancels .cpCancel Instr.cpCancel fun x w i t => t.cpCancelOne x w (x.a[i]).v :=
  cancels (fun _ _ => rfl) fun _ _ _ _ => stays_cpCancelOne ..

theorem mxCancel_cancels : Cancels .mxCancel Instr.mxCancel fun x _ i t => t.mxCancelOne x (x.a[i]).v :=
  cancels (fun _ _ => rfl) fun _ _ _ _ => stays_mxCancelOne ..

/-! Copy jobs. -/

section
variable {s : State} {x : Slot} {h : W64} {w : Nat × Nat}

section
variable (hn : s.cpNamed x h = none)
include hn

theorem cpStatus_of_gone (hc : x.crew.cutOf false h = none) (bytes : Bool) :
    s.cpStatus x bytes h = if bytes then 0xFFFFFFFF else 0 := by
  simp only [State.cpStatus, hn, hc]

theorem cpCancelOne_of_gone (hc : x.crew.cutOf false h = none) : s.cpCancelOne x w h = (s, some 0xFFFFFFFF) := by
  simp only [State.cpCancelOne, hn, hc]

variable {t : Cut} (hc : x.crew.cutOf false h = some t)
include hc

theorem cpStatus_of_saved (bytes : Bool) :
    s.cpStatus x bytes h = if bytes then BitVec.ofNat 64 (t.bytes % 2 ^ 32) else 5 := by
  simp only [State.cpStatus, hn, hc]

theorem cpCancelOne_of_saved : s.cpCancelOne x w h = (s, some t.bytes) := by
  simp only [State.cpCancelOne, hn, hc]

end

variable {n : Nat} {j : CpJob} (hn : s.cpNamed x h = some (n, j))
include hn

theorem cpStatus_of_named (bytes : Bool) :
    s.cpStatus x bytes h = if bytes then BitVec.ofNat 64 (j.bytes % 2 ^ 32)
      else BitVec.ofNat 64 (j.st.code + if j.st = .failed then 16 * j.cause.toNat else 0) := by
  simp only [State.cpStatus, hn, Nat.mul_comm]

theorem cpCancelOne_of_over (ho : j.st.over = true) : s.cpCancelOne x w h = (s, some j.bytes) := by
  simp only [State.cpCancelOne, hn, if_pos ho]

variable (ho : j.st.over = false)
include ho

theorem cpCancelOne_of_idle (hout : j.out = []) :
    s.cpCancelOne x w h = (s.cpEnd x.p n j .cancelled 0, some j.bytes) := by
  simp only [State.cpCancelOne, hn, ho, Bool.false_eq_true, if_false, if_pos hout]

/-- With granules under way the cancel is noted with the job. -/
theorem cpCancelOne_of_under_way (hout : j.out ≠ []) : s.cpCancelOne x w h =
    (s.modCluster x.p fun c => { c with cp := smMod c.cp n fun j => { j with cancelPend := j.cancelPend ++ [w] } }, none) := by
  simp only [State.cpCancelOne, hn, ho, Bool.false_eq_true, if_false, if_neg hout]

end

/-! Cards. -/

section
variable {s : State} {x : Slot} {h : W64}

section
variable (hn : s.mxNamed x h = none)
include hn

theorem mxStatus_of_gone (hc : x.crew.cutOf true h = none) (sel : Nat) :
    s.mxStatus x sel h = if sel = 0 then 0 else 0xFFFFFFFF := by
  simp only [State.mxStatus, hn, hc]

theorem mxCancelOne_of_gone (hc : x.crew.cutOf true h = none) : s.mxCancelOne x h = (s, some 0xFFFFFFFF) := by
  simp only [State.mxCancelOne, hn, hc]

variable {t : Cut} (hc : x.crew.cutOf true h = some t)
include hc

theorem mxStatus_of_saved (sel : Nat) : s.mxStatus x sel h =
    BitVec.ofNat 64 (if sel = 0 then 5 else (if sel = 1 then t.steps else t.bytes) % 2 ^ 32) := by
  simp only [State.mxStatus, hn, hc]

theorem mxCancelOne_of_saved : s.mxCancelOne x h = (s, some t.bytes) := by
  simp only [State.mxCancelOne, hn, hc]

end

variable {n : Nat} {e : MxEnt} (hn : s.mxNamed x h = some (n, e))
include hn

theorem mxStatus_steps_of_named : s.mxStatus x 1 h =
    BitVec.ofNat 64 ((s.mxParts e).foldl (fun n y => min n y.2.2.steps) e.steps % 2 ^ 32) := by
  simp only [State.mxStatus, hn, Nat.one_ne_zero, if_true, if_false]

theorem mxStatus_bytes_of_named : s.mxStatus x 2 h = BitVec.ofNat 64 (s.mxTotal e % 2 ^ 32) := by
  simp only [State.mxStatus, hn, OfNat.ofNat_ne_zero, OfNat.ofNat_ne_one, if_false]

theorem mxCancelOne_of_over (ho : (s.mxWhole e).over = true) : s.mxCancelOne x h = (s, some (s.mxTotal e)) := by
  simp only [State.mxCancelOne, hn, if_pos ho]

theorem mxCancelOne_of_live (ho : (s.mxWhole e).over = false) :
    s.mxCancelOne x h = (s.mxEndAll x.p n e .cancelled 0, some (s.mxTotal e)) := by
  simp only [State.mxCancelOne, hn, ho, Bool.false_eq_true, if_false]

end

end Sys2Proof.Machine
end

section
/-!
The statement of spec/05_stash_and_copies.md on the status and the cancellation of jobs.
-/

open Sys2Proof Sys2Proof.Machine

/-- Settles O37: the four instructions act in turn, and a status word or a cancel is an equation for each way in which a handle
names its job (`cpStatus_of_…`, `cpCancelOne_of_…`, `mxStatus_…`, `mxCancelOne_of_…`). -/
theorem jobStatusInstructions : Obligations.JobStatusInstructions := by
  refine ⟨cpStat_inTurn, mxStat_inTurn, cpCancel_cancels, mxCancel_cancels, ?noJob, ?job, ?noCard, ?card⟩
  case noJob =>
    exact fun s x w h hn => ⟨fun hc => ⟨cpStatus_of_gone hn hc false, cpStatus_of_gone hn hc true, cpCancelOne_of_gone hn hc⟩,
      fun t hc => ⟨cpStatus_of_saved hn hc false, cpStatus_of_saved hn hc true, cpCancelOne_of_saved hn hc⟩⟩
  case job =>
    exact fun s x w h n j hn => ⟨cpStatus_of_named hn false, cpStatus_of_named hn true, cpCancelOne_of_over hn,
      cpCancelOne_of_idle hn, fun ho hout => congrArg Prod.snd (cpCancelOne_of_under_way hn ho hout)⟩
  case noCard =>
    exact fun s x h hn => ⟨fun hc => ⟨mxStatus_of_gone hn hc 0, mxStatus_of_gone hn hc 1, mxStatus_of_gone hn hc 2,
      mxCancelOne_of_gone hn hc⟩, fun t hc => ⟨mxStatus_of_saved hn hc 0, mxCancelOne_of_saved hn hc⟩⟩
  case card =>
    exact fun s x h n e hn => ⟨mxStatus_steps_of_named hn, mxStatus_bytes_of_named hn, mxCancelOne_of_over hn,
      mxCancelOne_of_live hn⟩
end

section
/-!
The firmware instructions and `rt.def`: what a thread's turn leaves of the cohorts, the slot whose mapped lines are Valid, and what
`meas.ext` and `sig.vfy` make of the latches (R127, R129, R430, R440, R441).
-/

namespace Sys2Proof.Machine

/-- A firmware instruction that reads its stash runs its body at once where the lines it reads are Valid. -/
theorem stashSlot_ready {o : Op} {f : Fields} {s : State} {b : At} {rngs : Slot → Fin 32 → List (Nat × Nat)}
    (h : SlotReady o f s b) (body : Slot → State → State)
    (hl : ∀ i : Fin 32, (b.slot o f s).ex.getLsbD i = true → ∀ y ∈ rngs (b.slot o f s) i,
      (s.cluster (b.k / 6)).linesReady (b.c.base + y.1) y.2 = true) :
    stashSlot o f s rngs body = .next (body (b.slot o f s) s) := by
  refine (runSlot_ready h _).trans (congrArg _ (if_pos ?_))
  exact stashLines_ready (p := fun y => (s.cluster (b.k / 6)).linesReady y.1 y.2) hl

/-- A firmware instruction that reads `n` bytes of its stash in each lane that passes its check `chk`: where the lines of the
executing lanes are Valid the threads act in turn and await their results. -/
theorem stashSlot_posts {o : Op} {c : Fields → Instr} {n : Nat} {chk : State → Slot → Fin 32 → Option Cause}
    {g : Slot → Fin 32 → State → Except Cause (State × W64)}
    (he : ∀ f s, exec (c f) s =
      stashSlot o f s (fun x i => if (chk s x i).isNone then [((x.a[i]).lo.toNat, n)] else []) fun x s => seqSlot x (g x) s)
    {f : Fields} {s : State} {b : At} (h : SlotReady o f s b)
    (hl : ∀ i : Fin 32, (b.slot o f s).ex.getLsbD i = true →
      (s.cluster (b.k / 6)).linesReady (b.c.base + ((b.slot o f s).a[i]).lo.toNat) n = true) {e : State} {vals : SMap W64}
    (hr : laneRun (g (b.slot o f s)) (lanesOf (b.slot o f s).ex) (s, []) = some (e, vals))
    (hst : (e.cohort? b.r.cid b.r.co).isSome = true) :
    Posts (c f) s (e.addPend ((b.slot o f s).postPend (b.slot o f s).ex vals fun r => r.getLsbD 0)) (b.slot o f s) false
      e.nextId := by
  have hready := stashSlot_ready h (fun x s => seqSlot x (g x) s)
    (rngs := fun x i => if (chk s x i).isNone then [((x.a[i]).lo.toNat, n)] else []) fun i hi y hy => by
      split at hy
      · rw [List.mem_singleton.1 hy]
        exact hl i hi
      · cases hy
  have hrun : exec (c f) s = runSlot o f s fun x s => seqSlot x (g x) s := by
    rw [he, hready, runSlot_ready h]
  exact slot_posts h hrun (seqSlot_ok hr) (stands_of_cohort h hst)

/-! Measurements. -/

section
variable {s : State} {x : Slot} {i : Fin 32}

theorem measOne_of_ok (ha : (x.a[i]).p = false) (hb : (x.b[i]).p = false) (hn : (x.b[i]).lo.toNat ≤ 3)
    (hf : s.firmFault x (x.a[i]).lo.toNat 48 false = none) :
    s.measOne x i = .ok (s.measExt (x.b[i]).lo.toNat (memRead s.mem (x.crew.stashAt (x.a[i]).lo.toNat) 48), 0) := by
  have hnone : s.measFault x i = none := by
    rw [State.measFault, ha, hb, hf, decide_eq_false hn.not_gt]
    rfl
  rw [State.measOne, hnone]

theorem stays_measOne {t : State} {v : W64} (h : s.measOne x i = .ok (t, v)) : Stays s t := by
  unfold State.measOne at h
  split at h
  · cases h
  · cases h
    exact stays_measExt ..

/-- The latches after a measurement: with V and W set it may make the third, and otherwise none stays. -/
theorem measured_latches (s : State) (mr : Vector (BitVec 384) 4) {ok : Bool} (h : ok = true → s.latchV = true ∧ s.latchW = true) :
    (if ok then { s with mr := mr, latchM := true } else State.clearLatches { s with mr := mr }) =
      { s with mr := mr, latchV := ok, latchW := ok, latchM := ok } := by
  cases ok with
  | false => rfl
  | true =>
    obtain ⟨hv, hw⟩ := h rfl
    cases s
    cases hv
    cases hw
    rfl

/-- A measurement register is extended; the latches hold on only where the bytes are those that were verified (R441). -/
theorem measExt_eq (s : State) (n : Fin 4) (d : List Byte) : s.measExt n.val d = { s with
    mr := s.mr.setIfInBounds n.val (BitVec.ofNat 384 (natOfBytesBE (sha384 (bytesBE 48 (s.mr[n]).toNat ++ d)))),
    latchV := s.latchV && s.latchW && decide (n.val = 0) && decide (natOfBytesBE d = s.latched.toNat),
    latchW := s.latchV && s.latchW && decide (n.val = 0) && decide (natOfBytesBE d = s.latched.toNat),
    latchM := s.latchV && s.latchW && decide (n.val = 0) && decide (natOfBytesBE d = s.latched.toNat) } := by
  have hold : s.mr[n.val]?.getD 0 = s.mr[n] := by
    rw [Vector.getElem?_eq_getElem n.isLt]
    rfl
  unfold State.measExt
  rw [hold]
  refine measured_latches s _ fun hok => ?_
  simp only [Bool.and_eq_true] at hok
  obtain ⟨⟨hlatches, -⟩, -⟩ := hok
  exact hlatches

end

/-! Signatures. -/

section
variable {s u : State} {x : Slot} {i : Fin 32}

theorem sigOne_of_written (hf : s.sigFault x i = none)
    (hp : s.putDigest x (x.a[i]).lo.toNat (sha384 ((s.tokenAt x (x.a[i]).lo.toNat).take 64)) = .done u) :
    s.sigOne x i = .ok (u.latchVerdict (u.tokenVerdict (s.tokenAt x (x.a[i]).lo.toNat))
      (sha384 ((s.tokenAt x (x.a[i]).lo.toNat).take 64)), BitVec.ofNat 64 (u.tokenVerdict (s.tokenAt x (x.a[i]).lo.toNat))) := by
  simp only [State.sigOne, hf, hp]

theorem latchVerdict_of_good (s : State) (d : List Byte) :
    s.latchVerdict 1 d = { s with latchV := true, latched := BitVec.ofNat 384 (natOfBytesBE d) } := if_pos rfl

theorem latchVerdict_of_bad (s : State) (d : List Byte) {v : Nat} (hv : v ≠ 1) :
    s.latchVerdict v d = { s with latchV := false, latchW := false, latchM := false } := if_neg hv

end

end Sys2Proof.Machine
end

section
/-!
The statement of spec/05_stash_and_copies.md on `rt.def` and the firmware instructions.
-/

open Sys2Proof Sys2Proof.Machine

/-- Settles O41: `rt.def`, `fuse.rd`, `key.wipe` and `dbg.open` act thread by thread (`inTurn`), `meas.ext` and `sig.vfy` once
their lines are Valid (`stashSlot_posts`); what these two do is `measExt_eq`, `sigOne_of_written` and `latchVerdict_of_…`. -/
theorem firmwareInstructions : Obligations.FirmwareInstructions := by
  refine ⟨?route, ?fuse, ?wipe, ?measure, ?sign, ?unlock, fun _ _ _ => measOne_of_ok, fun _ _ _ _ => sigOne_of_written, measExt_eq,
    fun s d => ⟨latchVerdict_of_good s d, fun _ => latchVerdict_of_bad s d⟩⟩
  case route =>
    refine inTurn (ad := fun _ x i => (x.b[i]).lo.setWidth 64) (fun _ _ => rfl) fun _ x i s t v a b h => ?_
    split at h
    · cases h
    · cases h
      rfl
  case fuse =>
    refine inTurn (ad := fun _ x i => (x.a[i]).lo.setWidth 64) (fun _ _ => rfl) fun _ x i s t v a b h => ?_
    split at h
    · cases h
    split at h
    · cases h
    · cases h
      rfl
  case wipe => exact inTurnStanding (ad := fun _ x i => (x.a[i]).lo.setWidth 64) fun _ _ => rfl
  case measure =>
    intro f s b h hl e vals hr
    refine stashSlot_posts (chk := State.measFault) (g := fun x i t => t.measOne x i) (fun _ _ => rfl) h hl hr ?_
    rw [cohort_isSome, laneRun_live (fun i u t v hi => (stays_measOne hi).1 _ _) hr]
    exact ready_cohort h
  case sign =>
    exact fun _ _ _ h hl _ _ hr hst =>
      stashSlot_posts (chk := State.sigFault) (g := fun x i t => t.sigOne x i) (fun _ _ => rfl) h hl hr hst
  case unlock =>
    refine inTurn (ad := fun _ x i => (x.a[i]).lo.setWidth 64) (fun _ _ => rfl) fun _ x i s t v a b h => ?_
    split at h
    · cases h
      rfl
    · cases h
      rfl
end

section
/-!
The events of the copy engine on each branch (R117 to R119, R127).
-/

namespace Sys2Proof.Machine

/-! COPY_JOB_START. -/

section
variable {p slot : Nat} {s : State}

theorem copyJobStart_of_ready {j : CpJob} (h : smGet (s.cluster p).cp slot = some j) (hq : j.st = .queued)
    (hn : ((s.cluster p).cp.filter fun x => x.2.st = .running).length < 8) (hm : (s.cluster p).mayStart 0 slot j.ord = true) :
    execCopyJobStart p slot s = .next (s.modCluster p fun c => { c with cp := smMod c.cp slot fun j => { j with st := .running } }) := by
  simp only [execCopyJobStart, h, hq, hn, hm, decide_true, Bool.and_self, if_true]

theorem copyJobStart_of_not_ready (h : ∀ j, smGet (s.cluster p).cp slot = some j → j.st ≠ .queued ∨
      8 ≤ ((s.cluster p).cp.filter fun x => x.2.st = .running).length ∨ (s.cluster p).mayStart 0 slot j.ord = false) :
    execCopyJobStart p slot s = .next s := by
  simp only [execCopyJobStart]
  cases hj : smGet (s.cluster p).cp slot with
  | none => rfl
  | some j =>
    refine congrArg _ (if_neg ?_)
    rcases h j hj with h | h | h
    · simp [h]
    · simp [h.not_gt]
    · simp [h]

end

/-! COPY_GRANULE_LAND. -/

section
variable {p slot g : Nat} {s : State}

theorem landGranule_of_no_job (h : smGet (s.cluster p).cp slot = none) : s.landGranule p slot g = s := by
  simp only [State.landGranule, h]

variable {j : CpJob} {c : Crew}

theorem landGranule_of_landed (h : smGet (s.cluster p).cp slot = some j) (hc : smGet s.crews j.cid = some c)
    (hl : j.st ≠ .running ∨ g ∈ j.landed) : s.landGranule p slot g = s := by
  simp only [State.landGranule, h, hc]
  refine if_pos ?_
  rcases hl with hl | hl
  · simp [hl]
  · simp [hl]

theorem cpLand_of_fault {y : Piece} {e : Cause} (h : s.cpData c j g y = .fault e) (he : e ≠ cPageNotPresent) :
    s.cpLand p slot g c j y = s.cpEnd p slot j .failed e := by
  simp only [State.cpLand, h, if_neg he]

end

/-! COPY_JOB_END. -/

section
variable {p slot : Nat} {s : State}

theorem copyJobEnd_of_no_job (h : smGet (s.cluster p).cp slot = none) : execCopyJobEnd p slot s = .next s := by
  simp only [execCopyJobEnd, h]

variable {j : CpJob} {c : Crew} (h : smGet (s.cluster p).cp slot = some j) (hc : smGet s.crews j.cid = some c)
include h hc

theorem copyJobEnd_of_landed (hr : j.st = .running) (ho : j.out = []) (hn : s.cpCount c j ≤ j.landed.length)
    (hp : s.cpPublished j = true) : execCopyJobEnd p slot s = .next (s.cpEnd p slot j .done 0) := by
  simp only [execCopyJobEnd, h, hc, hr, ho, hn, hp, List.isEmpty_nil, decide_true, Bool.and_self, if_true]

theorem copyJobEnd_of_unfinished
    (hu : j.st ≠ .running ∨ j.out ≠ [] ∨ j.landed.length < s.cpCount c j ∨ s.cpPublished j = false) :
    execCopyJobEnd p slot s = .next s := by
  simp only [execCopyJobEnd, h, hc]
  refine congrArg _ (if_neg ?_)
  rcases hu with hu | hu | hu | hu
  · simp [hu]
  · simp [hu]
  · simp [hu.not_ge]
  · simp [hu]

end

/-! ROUTE_STATION_FORWARD. -/

section
variable {p slot station g : Nat} {s : State}

theorem routeStationForward_of_no_job (h : smGet (s.cluster p).cp slot = none) :
    execRouteStationForward p slot station g s = .next s := by
  simp only [execRouteStationForward, h]

variable {j : CpJob} {e : W32} (h : smGet (s.cluster p).cp slot = some j) (he : j.route[station]? = some e)
include h he

theorem routeStationForward_of_turn (hr : j.st = .running) (hk : j.kind = .rt) (hpass : e.getLsbD 30 = true)
    (ht : smGetD j.hops g 0 = ((j.route.take station).filter fun e => e.getLsbD 30).length) :
    execRouteStationForward p slot station g s = .next (s.modCluster p fun c => { c with cp := smMod c.cp slot fun y =>
      { y with hops := smSet y.hops g (((j.route.take station).filter fun e => e.getLsbD 30).length + 1) } }) := by
  simp only [execRouteStationForward, h, he, hr, hk, hpass, ht, decide_true, Bool.and_self, if_true]

theorem routeStationForward_of_other (ho : j.st ≠ .running ∨ j.kind ≠ .rt ∨ e.getLsbD 30 = false ∨
      smGetD j.hops g 0 ≠ ((j.route.take station).filter fun e => e.getLsbD 30).length) :
    execRouteStationForward p slot station g s = .next s := by
  simp only [execRouteStationForward, h, he]
  refine congrArg _ (if_neg ?_)
  intro hall
  simp only [Bool.and_eq_true, decide_eq_true_eq] at hall
  obtain ⟨⟨⟨hr, hk⟩, hpass⟩, ht⟩ := hall
  rcases ho with ho | ho | ho | ho
  · exact ho hr
  · exact ho hk
  · exact Bool.noConfusion (hpass.symm.trans ho)
  · exact ho ht

end

end Sys2Proof.Machine
end

section
/-!
The events of the matrix engine on each branch: steps of the walk, outputs, pushes and ends (R209, R213, R214, R221, R224).
-/

namespace Sys2Proof.Machine

/-! MX_STEP. -/

/-- An entry with a step to do, and room for its tiles. -/
theorem mxStep_not_idle {s : State} {e : MxEnt} (hr : e.st = .running) (hk : e.kind = .card ∨ e.kind = .team)
    (hw : e.walked = false) (hf : s.mxStageFree e = true) :
    ¬ (decide (e.st ≠ .running) || !(decide (e.kind = .card) || decide (e.kind = .team)) || e.walked ||
      !s.mxStageFree e) = true := by
  rcases hk with hk | hk
  all_goals simp [hr, hk, hw, hf]

section
variable {p slot : Nat} {s : State}

theorem mxStep_of_no_entry (h : smGet (s.cluster p).mx slot = none) : s.mxStep p slot = s := by
  simp only [State.mxStep, h]

variable {e : MxEnt} {c : Crew} (h : smGet (s.cluster p).mx slot = some e) (hc : smGet s.crews e.cid = some c)
include h hc

theorem mxStep_of_idle (hi : e.st ≠ .running ∨ (e.kind ≠ .card ∧ e.kind ≠ .team) ∨ e.walked = true ∨ s.mxStageFree e = false) :
    s.mxStep p slot = s := by
  simp only [State.mxStep, h, hc]
  refine if_pos ?_
  rcases hi with hi | hi | hi | hi
  all_goals simp [hi]

variable (hr : e.st = .running) (hk : e.kind = .card ∨ e.kind = .team) (hw : e.walked = false) (hf : s.mxStageFree e = true)
include hr hk hw hf

theorem mxStep_of_bad_tile (ht : mxTile e.card e.steps = none) :
    s.mxStep p slot = s.mxEndAll p slot e .failed cMxCardInvalid := by
  simp only [State.mxStep, h, hc, if_neg (mxStep_not_idle hr hk hw hf), ht]

variable {row col : Nat} (ht : mxTile e.card e.steps = some (row, col))
include ht

/-- With its operands at hand a step updates the tile, unless the update is suspect (R209, R224). -/
theorem mxStep_of_operands {t : State} {x y : List (List MxEl)} (ho : s.mxOperands e c = .done (t, x, y)) :
    s.mxStep p slot =
      if (t.cluster e.eng).suspect = true ∨ Config.checkFails t.tick = true then t.mxSuspect p slot e
      else (t.modBank e.eng (mBank e.card) fun k =>
        { mxTileUpdate e.card e.touched row col x y k with nw := mN e.card }).modMx p slot fun e =>
        { e with steps := e.steps + 1, touched := mxTouch e.card row col e.touched, replays := 0,
                 staged := smFilter (fun i _ => decide (2 * e.steps + 1 < i)) e.staged } := by
  simp only [State.mxStep, h, hc, if_neg (mxStep_not_idle hr hk hw hf), ht, ho]
  simp only [Bool.or_eq_true]

theorem mxStep_of_fault {x : Cause} (ho : s.mxOperands e c = .fault x) (hx : x ≠ cPageNotPresent) :
    s.mxStep p slot = s.mxEndAll p slot e .failed x := by
  simp only [State.mxStep, h, hc, if_neg (mxStep_not_idle hr hk hw hf), ht, ho, if_neg hx]

end

/-! MX_WRITE_OUT. -/

section
variable {p slot g : Nat} {s : State}

theorem mxWriteOut_of_no_entry (h : smGet (s.cluster p).mx slot = none) : s.mxWriteOut p slot g = s := by
  simp only [State.mxWriteOut, h]

variable {e : MxEnt} {c : Crew} (h : smGet (s.cluster p).mx slot = some e) (hc : smGet s.crews e.cid = some c)
include h hc

theorem mxWriteOut_of_idle
    (hi : e.st ≠ .running ∨ e.writes = false ∨ mCdst e.card = 2 ∨ g ∈ e.out ∨ s.dcServes e = false) :
    s.mxWriteOut p slot g = s := by
  simp only [State.mxWriteOut, h, hc]
  refine if_pos ?_
  rcases hi with hi | hi | hi | hi | hi
  all_goals simp [hi]

theorem mxWriteOut_of_placed (hr : e.st = .running) (hw : e.writes = true) (hd : mCdst e.card ≠ 2) (hg : g ∉ e.out)
    (hs : s.dcServes e = true) (hl : (mRect (decide (e.kind = .drain)) e.card).2.2.2 * fmtBytes (mOfmt e.card) ≤ mCld e.card)
    {ys : List Piece} {recv : Option Nat} {t : State} (hy : (s.mxGranules e)[g % (s.mxGranules e).length]? = some ys)
    (hrecv : (s.mxReceivers e)[g / (s.mxGranules e).length]? = some recv)
    (ht : s.mxPutAll e c recv ((s.cluster e.eng).bank (mBank e.card)) ys = .done t) :
    s.mxWriteOut p slot g = t.modMx p slot fun e => { e with out := nsAdd g e.out } := by
  have hdue : ¬ (decide (e.st ≠ .running) || !e.writes || decide (mCdst e.card = 2) || e.out.contains g || !s.dcServes e) = true := by
    simp [hr, hw, hd, hg, hs]
  simp only [State.mxWriteOut, h, hc, if_neg hdue, if_neg hl.not_gt, hy, hrecv, ht]

end

/-! MX_CHANNEL_PUSH. -/

/-- An entry with a word left to push, which the down-converter serves. -/
theorem mxChannelPush_not_idle {s : State} {e : MxEnt} (hr : e.st = .running) (hw : e.writes = true) (hd : mCdst e.card = 2)
    (hn : e.out.length < s.mxOutCount e) (hs : s.dcServes e = true) :
    ¬ (decide (e.st ≠ .running) || !e.writes || decide (mCdst e.card ≠ 2) || decide (s.mxOutCount e ≤ e.out.length) ||
      !s.dcServes e) = true := by
  simp [hr, hw, hd, hn, hs]

section
variable {p slot : Nat} {s : State}

theorem mxChannelPush_of_no_entry (h : smGet (s.cluster p).mx slot = none) : execMxChannelPush p slot s = .next s := by
  simp only [execMxChannelPush, h]

variable {e : MxEnt} {c : Crew} (h : smGet (s.cluster p).mx slot = some e) (hc : smGet s.crews e.cid = some c)
include h hc

theorem mxChannelPush_of_idle
    (hi : e.st ≠ .running ∨ e.writes = false ∨ mCdst e.card ≠ 2 ∨ s.mxOutCount e ≤ e.out.length ∨ s.dcServes e = false) :
    execMxChannelPush p slot s = .next s := by
  simp only [execMxChannelPush, h, hc]
  refine congrArg _ (if_pos ?_)
  rcases hi with hi | hi | hi | hi | hi
  all_goals simp [hi]

variable (hr : e.st = .running) (hw : e.writes = true) (hd : mCdst e.card = 2) (hn : e.out.length < s.mxOutCount e)
  (hs : s.dcServes e = true) {ch : Chan} (hch : ch = c.chans[mCbase e.card]?.getD default)
include hr hw hd hn hs hch

theorem mxChannelPush_of_full (hf : ch.room ≤ (s.chanHeld c.p e.cid (mCbase e.card)).2) : execMxChannelPush p slot s =
    .next (s.modCrew e.cid fun c => c.chanWaits (mCbase e.card) (s.clock c.p)) := by
  subst hch
  simp only [execMxChannelPush, h, hc, if_neg (mxChannelPush_not_idle hr hw hd hn hs), if_pos hf]

theorem mxChannelPush_of_room (hf : (s.chanHeld c.p e.cid (mCbase e.card)).2 < ch.room) : execMxChannelPush p slot s =
    .next ((s.modCrew e.cid fun c =>
      { c with chans := c.chans.setIfInBounds (mCbase e.card) (ch.push (mxWord e ((s.cluster e.eng).bank (mBank e.card)) e.out.length)),
               wdBlocked := none }).modMx p slot fun x => { x with out := nsAdd x.out.length x.out }) := by
  subst hch
  simp only [execMxChannelPush, h, hc, if_neg (mxChannelPush_not_idle hr hw hd hn hs), if_neg hf.not_ge]

end

/-! MX_CARD_END. -/

section
variable {p slot : Nat} {s : State}

theorem mxCardEnd_of_no_entry (h : smGet (s.cluster p).mx slot = none) : execMxCardEnd p slot s = .next s := by
  simp only [execMxCardEnd, h]

variable {e : MxEnt} (h : smGet (s.cluster p).mx slot = some e)
include h

theorem mxCardEnd_of_published (hr : e.st = .running) (hd : s.mxReady e = true) (hp : s.mxPublished e = true) :
    execMxCardEnd p slot s = .next ((s.mxClear e).mxDone p slot e) := by
  simp only [execMxCardEnd, h]
  exact congrArg _ (if_neg (by simp [hr, hd, hp]))

theorem mxCardEnd_of_unfinished (hu : e.st ≠ .running ∨ s.mxReady e = false ∨ s.mxPublished e = false) :
    execMxCardEnd p slot s = .next s := by
  simp only [execMxCardEnd, h]
  refine congrArg _ (if_pos ?_)
  rcases hu with hu | hu | hu
  all_goals simp [hu]

end

end Sys2Proof.Machine
end

section
/-!
The events of the hash engine on each branch (R120, R434, R435).
-/

namespace Sys2Proof.Machine

/-! SEAL_ABSORB_END. -/

section
variable {p ctx : Nat} {s : State}

theorem absorbEnd_of_no_context (h : smGet (s.cluster p).seals ctx = none) : s.absorbEnd p ctx = s := by
  simp only [State.absorbEnd, h]

variable {x : SealCtx} {c : Crew} {a : SealAbs} {l : List SealAbs} (h : smGet (s.cluster p).seals ctx = some x)
  (hc : smGet s.crews x.cid = some c) (ha : x.absorbs = a :: l)
include h hc ha

theorem absorbEnd_of_failed (hf : x.failed = true) : s.absorbEnd p ctx = s := by
  simp only [State.absorbEnd, h, hc, ha, if_pos hf]

variable (hf : x.failed = false)
include hf

/-- An absorb without its entry asks for one: the model's choice where the chuck was full (log 25). -/
theorem absorbEnd_of_no_entry (hh : (s.cluster p).sealHolds a = false) : s.absorbEnd p ctx =
    s.modCluster p fun cl => cl.sealEnter [sealRng c a.stash a.addr a.n false ctx a.ord] := by
  simp only [State.absorbEnd, h, hc, ha, hf, hh, Bool.not_false, Bool.false_eq_true, if_true, if_false]

variable (hh : (s.cluster p).sealHolds a = true)
include hh

theorem absorbEnd_of_wait (hb : s.absorbBytes c x a = .wait) : s.absorbEnd p ctx = s := by
  simp only [State.absorbEnd, h, hc, ha, hf, hh, hb, Bool.not_true, Bool.false_eq_true, if_false]

theorem absorbEnd_of_fault {e : Cause} (hb : s.absorbBytes c x a = .fault e) (he : e ≠ cPageNotPresent) : s.absorbEnd p ctx =
    (s.modSeal p ctx fun y => { y with failed := true }).fatal x.cid e 0 (sealHandle x.serial ctx).toNat := by
  simp only [State.absorbEnd, h, hc, ha, hf, hh, hb, if_neg he, Bool.not_true, Bool.false_eq_true, if_false]

theorem absorbEnd_of_bytes {t : State} {d : List Byte} (hb : s.absorbBytes c x a = .done (t, d)) : s.absorbEnd p ctx =
    ((t.modCluster p fun c => c.dropSealRng a.ord).modSeal p ctx fun y => { y with data := x.data ++ d, absorbs := l }).resultLane
      a.pend a.lane [BitVec.ofNat 64 ((x.data ++ d).length % 2 ^ 32)] false := by
  simp only [State.absorbEnd, h, hc, ha, hf, hh, hb, Bool.not_true, Bool.false_eq_true, if_false]

end

/-! SEAL_SIGN. -/

section
variable {p ctx : Nat} {s : State}

theorem sealSign_of_no_context (h : smGet (s.cluster p).seals ctx = none) : execSealSign p ctx s = .next s := by
  simp only [execSealSign, h]

variable {x : SealCtx} {c : Crew} {a : SealAbs} {q : Part} (h : smGet (s.cluster p).seals ctx = some x)
  (hc : smGet s.crews x.cid = some c) (ha : x.fin = some a) (hq : smGet s.parts (s.sealPart x) = some q)
include h hc ha hq

theorem sealSign_of_unready (hu : x.absorbs ≠ [] ∨ x.failed = true) : execSealSign p ctx s = .next s := by
  simp only [execSealSign, h, hc, ha, hq]
  refine congrArg _ (if_pos ?_)
  rcases hu with hu | hu
  all_goals simp [hu]

variable (hb : x.absorbs = []) (hf : x.failed = false)
include hb hf

/-- A record without its entry asks for one: the model's choice where the chuck was full (log 25). -/
theorem sealSign_of_no_entry (hh : (s.cluster p).sealHolds a = false) : execSealSign p ctx s =
    .next (s.modCluster p fun cl => cl.sealEnter [sealRng c a.stash a.addr a.n true ctx a.ord]) := by
  simp only [execSealSign, h, hc, ha, hq, hb, hf, hh, List.isEmpty_nil, Bool.not_true, Bool.not_false, Bool.or_self,
    Bool.false_eq_true, if_true, if_false]

variable (hh : (s.cluster p).sealHolds a = true)
include hh

theorem sealSign_of_written {t : State} (hw : s.putRecord c x a (s.sealBytes c q x) = .done t) :
    execSealSign p ctx s = .next (t.sealDone p ctx c q x a (q.seq + 1)) := by
  simp only [execSealSign, h, hc, ha, hq, hb, hf, hh, hw, List.isEmpty_nil, Bool.not_true, Bool.or_self, Bool.false_eq_true,
    if_false]

theorem sealSign_of_wait (hw : s.putRecord c x a (s.sealBytes c q x) = .wait) : execSealSign p ctx s =
    .next (if (s.cluster c.p).sealMayStart a.ord then s.stallRecord c a (recordBytes x.alg) else s) := by
  simp only [execSealSign, h, hc, ha, hq, hb, hf, hh, hw, List.isEmpty_nil, Bool.not_true, Bool.or_self, Bool.false_eq_true,
    if_false]

end

end Sys2Proof.Machine
end

section
/-!
The statement of spec/05_stash_and_copies.md on the events of the engines.
-/

open Sys2Proof Sys2Proof.Machine

/-- Settles O50. Each clause is the lemma of its event on the branch that its hypotheses choose; a plain granule that lands, what
its landing leaves of the job, and the mandrel's look at an entry are the lemmas of Laws/Mesh. -/
theorem jobEvents : Obligations.JobEvents := by
  refine ⟨?start, ?granule, fun _ _ _ _ _ _ _ _ _ _ => cpLand_done, fun _ _ _ _ _ _ _ _ => cpLand_of_fault, ?ended,
    ?forward, fun _ _ => rfl, fun _ _ _ _ => mxTry_spec, ?step, ?write, ?push, ?card, ?absorb, ?sign, ?absent⟩
  case start => exact fun _ _ _ => ⟨fun _ => copyJobStart_of_ready, copyJobStart_of_not_ready⟩
  case granule =>
    exact fun _ _ _ _ => ⟨fun h => congrArg _ (landGranule_of_no_job h), fun _ _ h hc =>
      ⟨fun hl => congrArg _ (landGranule_of_landed h hc hl), fun hr hg hk _ hy hb hh =>
        congrArg _ (landGranule_plain h hc hr hg hk hy hb hh)⟩⟩
  case ended => exact fun _ _ _ _ _ h hc => ⟨copyJobEnd_of_landed h hc, copyJobEnd_of_unfinished h hc⟩
  case forward => exact fun _ _ _ _ _ _ _ h he => ⟨routeStationForward_of_turn h he, routeStationForward_of_other h he⟩
  case step =>
    exact fun _ _ _ _ _ h hc => ⟨fun hi => congrArg _ (mxStep_of_idle h hc hi), fun hr hk hw hf =>
      ⟨fun ht => congrArg _ (mxStep_of_bad_tile h hc hr hk hw hf ht), fun _ _ ht =>
        ⟨fun _ _ _ ho => congrArg _ (mxStep_of_operands h hc hr hk hw hf ht ho),
          fun _ ho hx => congrArg _ (mxStep_of_fault h hc hr hk hw hf ht ho hx)⟩⟩⟩
  case write =>
    exact fun _ _ _ _ _ _ h hc => ⟨fun hi => congrArg _ (mxWriteOut_of_idle h hc hi), fun hr hw hd hg hs hl _ _ _ hy hrecv ht =>
      congrArg _ (mxWriteOut_of_placed h hc hr hw hd hg hs hl hy hrecv ht)⟩
  case push =>
    exact fun _ _ _ _ _ h hc => ⟨mxChannelPush_of_idle h hc, fun hr hw hd hn hs _ hch =>
      ⟨mxChannelPush_of_full h hc hr hw hd hn hs hch, mxChannelPush_of_room h hc hr hw hd hn hs hch⟩⟩
  case card => exact fun _ _ _ _ h => ⟨mxCardEnd_of_published h, mxCardEnd_of_unfinished h⟩
  case absorb =>
    exact fun _ _ _ _ _ _ _ h hc ha => ⟨fun hf => congrArg _ (absorbEnd_of_failed h hc ha hf),
      fun hf hh => congrArg _ (absorbEnd_of_no_entry h hc ha hf hh), fun hf hh =>
        ⟨fun hb => congrArg _ (absorbEnd_of_wait h hc ha hf hh hb), fun _ hb he => congrArg _ (absorbEnd_of_fault h hc ha hf hh hb he),
          fun _ _ hb => congrArg _ (absorbEnd_of_bytes h hc ha hf hh hb)⟩⟩
  case sign =>
    exact fun _ _ _ _ _ _ _ h hc ha hq => ⟨sealSign_of_unready h hc ha hq, sealSign_of_no_entry h hc ha hq, fun hb hf hh =>
      ⟨fun _ => sealSign_of_written h hc ha hq hb hf hh, sealSign_of_wait h hc ha hq hb hf hh⟩⟩
  case absent =>
    exact fun _ _ _ _ => ⟨fun h => ⟨congrArg _ (absorbEnd_of_no_context h), sealSign_of_no_context h⟩,
      fun h => ⟨congrArg _ (mxStep_of_no_entry h), mxCardEnd_of_no_entry h, mxChannelPush_of_no_entry h,
        fun _ => congrArg _ (mxWriteOut_of_no_entry h)⟩,
      fun h => ⟨copyJobEnd_of_no_job h, fun _ _ => routeStationForward_of_no_job h⟩⟩
end

section
/-!
Slots of instructions that act once for their bundle: those whose check passes, and those whose result comes later (R348).
-/

namespace Sys2Proof.Machine

@[simp] theorem bundleFault_none (x : Slot) : x.bundleFault none = [] := rfl

section
variable {i : Instr} {o : Op} {f : Fields} {s e : State} {b : At} {body : Slot → State → State} (h : SlotReady o f s b)
  (he : exec i s = runSlot o f s body)
include h he

/-- A slot that ends with the result of a channel read, in a state that keeps the cohorts, has posted it. -/
theorem chanResult_posts {w : Option (Vector QEnt 32)} {k : Option Nat}
    (hb : body (b.slot o f s) s = chanResult (b.slot o f s) w k e)
    (hl : live e.crews b.r.cid b.r.co = live s.crews b.r.cid b.r.co) :
    Posts i s (e.addPend
      { (b.slot o f s).pend 1 (b.slot o f s).ex 0 (laneResults (b.slot o f s).ex (wordLane w)) with
        kdst := k, kvals := if w.isSome then BitVec.allOnes 32 else 0 }) (b.slot o f s) false e.nextId :=
  slot_posts h he hb (stands_live h hl)

/-- A slot whose bundle passes its check and has one result has posted it for the executing threads. -/
theorem bundleResult_posts {v : W64} (hb : body (b.slot o f s) s = bundleResult (b.slot o f s) [] v s) :
    Posts i s (s.addPend ((b.slot o f s).pend 1 (b.slot o f s).ex 0
      (laneResults (b.slot o f s).ex fun _ => { val := [v], p := false }))) (b.slot o f s) false s.nextId := by
  refine slot_posts h he (hb.trans ?_) (stands_of_cohort h (ready_cohort h))
  rw [bundleResult, done_nil]
  rfl

end

end Sys2Proof.Machine
end

section
/-!
Channels: the four instructions (R355, R357, R358), the growth of a full channel (R356) and the wait detector (R359).
-/

namespace Sys2Proof.Machine

section
variable {f : Fields} {s : State} {b : At}

/-- A clean channel number within the crew's count, or one that unbinds, passes the check of `chn.bind` (R357). -/
theorem chnBind_check {a : Val} {count : Nat} (hp : a.p = false) (hn : a.lo.toNat < 16)
    (hc : a.lo.toNat < 8 → a.lo.toNat < count) :
    (if a.p then some cPoisonUse
     else if 16 ≤ a.lo.toNat || (decide (a.lo.toNat < 8) && decide (count ≤ a.lo.toNat)) then some cSyncInvalid
     else none) = none := by
  rw [hp, if_neg Bool.false_ne_true, if_neg]
  simp only [Bool.or_eq_true, Bool.and_eq_true, decide_eq_true_eq]
  omega

theorem chnBind_binds (h : SlotReady .chnBind f s b) {a : Val}
    (ha : (b.slot .chnBind f s).uni (b.slot .chnBind f s).a = a) (hp : a.p = false) (hn : a.lo.toNat < 16)
    (hc : a.lo.toNat < 8 → a.lo.toNat < b.c.chan) :
    ∃ u, exec (.chnBind f) s = .next (u.modCohort b.r.cid b.r.co fun h =>
        { h with ch := h.ch.setIfInBounds (f.mod.toNat % 8) (if 8 ≤ a.lo.toNat then none else some a.lo.toNat) }) ∧
      RegFrame s u (b.slot .chnBind f s) false := by
  subst ha
  have hrun : exec (.chnBind f) s = _ := runSlot_ready h _
  simp only [chnBind_check (count := (b.slot .chnBind f s).crew.chan) hp hn hc, bundleFault_none] at hrun
  exact ⟨_, hrun, finishSlot_frame (slot_stands h) .none⟩

theorem live_popChan_unless (p : Prop) [Decidable p] (s : State) (cid n i j : Nat) :
    live (if p then s else s.popChan cid n).crews i j = live s.crews i j := by
  split
  · rfl
  · exact live_popChan ..

theorem chnPop_posts (h : SlotReady .chnPop f s b) (hd : f.mod.getLsbD 3 = false) :
    Posts (.chnPop f) s
      ((if (b.slot .chnPop f s).ex = 0 then s else s.popChan b.r.cid (b.slot .chnPop f s).chan).addPend
        { (b.slot .chnPop f s).pend 1 (b.slot .chnPop f s).ex 0 (laneResults (b.slot .chnPop f s).ex
            (wordLane (some ((((b.c.chans[(b.slot .chnPop f s).chan]?).getD default).words.head?).getD
              (Vector.replicate 32 QEnt.poison))))) with
          kdst := none, kvals := BitVec.allOnes 32 }) (b.slot .chnPop f s) false
      (if (b.slot .chnPop f s).ex = 0 then s else s.popChan b.r.cid (b.slot .chnPop f s).chan).nextId :=
  chanResult_posts h (he := rfl) (k := none) (if_neg (by rw [hd]; exact Bool.false_ne_true)) (live_popChan_unless ..)

theorem chnPop_drops (h : SlotReady .chnPop f s b) (hd : f.mod.getLsbD 3 = true) :
    Acts (.chnPop f) s (if (b.slot .chnPop f s).ex = 0 then s else s.popChan b.r.cid (b.slot .chnPop f s).chan)
      (b.slot .chnPop f s) :=
  slot_acts h rfl (if_pos hd) (stands_live h (live_popChan_unless ..))

theorem chnTry_posts (h : SlotReady .chnTry f s b) {t : Bool}
    (ht : t = (decide ((s.chanHeld (b.k / 6) b.r.cid (b.slot .chnTry f s).chan).1 <
        ((b.c.chans[(b.slot .chnTry f s).chan]?).getD default).filled) && decide ((b.slot .chnTry f s).ex ≠ 0)))
    {w : Option (Vector QEnt 32)}
    (hw : w = if t then ((b.c.chans[(b.slot .chnTry f s).chan]?).getD default).words.head? else none) :
    Posts (.chnTry f) s
      ((if t then s.popChan b.r.cid (b.slot .chnTry f s).chan else s).addPend
        { (b.slot .chnTry f s).pend 1 (b.slot .chnTry f s).ex 0 (laneResults (b.slot .chnTry f s).ex (wordLane w)) with
          kdst := if f.mod.toNat / 8 = 0 then none else some (f.mod.toNat / 8),
          kvals := if w.isSome then BitVec.allOnes 32 else 0 }) (b.slot .chnTry f s) false
      (if t then s.popChan b.r.cid (b.slot .chnTry f s).chan else s).nextId := by
  subst ht hw
  refine chanResult_posts h rfl rfl ?_
  split
  · exact live_popChan ..
  · rfl

end

/-! CHANNEL_GROW. -/

section
variable {cid n : Nat} {s : State} {c : Crew} {x : Chan} (hc : smGet s.crews cid = some c) (hx : x = c.chans[n]?.getD default)
include hc hx

theorem channelGrow_of_no_wait (hw : x.wait = none ∨ 8 ≤ n) : execChannelGrow cid n s = .next s := by
  subst hx
  simp only [execChannelGrow, hc]
  rcases hw with hw | hn
  · rw [hw]
  · split
    · rw [decide_eq_true hn, Bool.true_or, if_pos rfl]
    · rfl

variable {t : Nat} (hw : x.wait = some t)
include hw

theorem channelGrow_of_early (he : s.cyclesPast c.p t 4096 = false) : execChannelGrow cid n s = .next s := by
  subst hx
  simp only [execChannelGrow, hc, hw, he, Bool.not_false, Bool.or_true, if_true]

variable (hn : n < 8) (hp : s.cyclesPast c.p t 4096 = true)
include hn hp

/-- A pusher that has waited its time is served by the room, the overflow blocks and the crew, in this order. -/
theorem channelGrow_of_due : execChannelGrow cid n s = .next (
    if x.room ≠ 0 then s.modCrew cid fun c => { c with chans := c.chans.setIfInBounds n { x with wait := none } }
    else if c.blocks < 32 then s.modCrew cid fun c => { c with chans := c.chans.setIfInBounds n x.grow }
    else s.fatal cid cCyclicWait 0 (n * 2 ^ 48 + s.pushers c cid n)) := by
  subst hx
  simp only [execChannelGrow, hc, hw, hp, decide_eq_false hn.not_ge, Bool.not_true, Bool.or_false, Bool.false_eq_true, if_false]

theorem channelGrow_of_room (hr : x.room ≠ 0) : execChannelGrow cid n s = .next (s.modCrew cid fun c =>
    { c with chans := c.chans.setIfInBounds n { x with wait := none } }) := by
  rw [channelGrow_of_due hc hx hw hn hp, if_pos hr]

theorem channelGrow_of_block (hr : x.room = 0) (hb : c.blocks < 32) : execChannelGrow cid n s = .next (s.modCrew cid fun c =>
    { c with chans := c.chans.setIfInBounds n x.grow }) := by
  rw [channelGrow_of_due hc hx hw hn hp, if_neg (not_not.2 hr), if_pos hb]

theorem channelGrow_of_no_block (hr : x.room = 0) (hb : 32 ≤ c.blocks) : execChannelGrow cid n s =
    .next (s.fatal cid cCyclicWait 0 (n * 2 ^ 48 + s.pushers c cid n)) := by
  rw [channelGrow_of_due hc hx hw hn hp, if_neg (not_not.2 hr), if_neg hb.not_gt]

end

/-! CYCLIC_WAIT_DETECT. -/

section
variable {cid : Nat} {s : State} {c : Crew} (hc : smGet s.crews cid = some c)
include hc

section
variable (hd : s.deadlocked cid c = false)
include hd

theorem cyclicWaitDetect_of_unnoted (hw : c.wdBlocked = none) : execCyclicWaitDetect cid s = .next s := by
  simp only [execCyclicWaitDetect, hc, hd, hw, Bool.not_false, if_true, Option.isSome_none, Bool.false_eq_true, if_false]

theorem cyclicWaitDetect_of_over (hw : c.wdBlocked ≠ none) :
    execCyclicWaitDetect cid s = .next (s.modCrew cid fun c => { c with wdBlocked := none }) := by
  simp only [execCyclicWaitDetect, hc, hd, Option.isSome_iff_ne_none.2 hw, Bool.not_false, if_true]

end

variable (hd : s.deadlocked cid c = true)
include hd

theorem cyclicWaitDetect_of_found (hw : c.wdBlocked = none) :
    execCyclicWaitDetect cid s = .next (s.modCrew cid fun c => { c with wdBlocked := some (s.clock c.p) }) := by
  simp only [execCyclicWaitDetect, hc, hd, hw, Bool.not_true, Bool.false_eq_true, if_false]

variable {t : Nat} (hw : c.wdBlocked = some t)
include hw

theorem cyclicWaitDetect_of_early (hp : s.cyclesPast c.p t 65536 = false) : execCyclicWaitDetect cid s = .next s := by
  simp only [execCyclicWaitDetect, hc, hd, hw, hp, Bool.not_true, Bool.not_false, Bool.false_eq_true, if_false, if_true]

theorem cyclicWaitDetect_of_due (hp : s.cyclesPast c.p t 65536 = true) :
    execCyclicWaitDetect cid s = .next (s.fatal cid cCyclicWait 0
      ((c.cohorts.zipIdx).foldl (fun m h => if h.1.live ≠ 0 then m + 2 ^ h.2 else m) 0)) := by
  simp only [execCyclicWaitDetect, hc, hd, hw, hp, Bool.not_true, Bool.false_eq_true, if_false]

end

end Sys2Proof.Machine
end

section
/-!
Allowance handles: a binding, a test and a read of a bound handle, and the trap of an unbound one (R142, R360, R362).
-/

namespace Sys2Proof.Machine

section
variable {f : Fields} {s : State} {b : At}

theorem slot_handle (o : Op) (n : Nat) : (b.slot o f s).handle n = (b.h.w[n]?).getD none := rfl

/-- A clean word whose fields are in range passes the check of `alw.bind` (R360). -/
theorem alwBind_check {a : Val} {owned : Bool} (hp : a.p = false) (hz : bits a.lo.toNat 29 12 = 0)
    (hd : bits a.lo.toNat 31 30 = 1 ∨ bits a.lo.toNat 31 30 = 2 → bits a.lo.toNat 11 0 ≤ 3)
    (ho : bits a.lo.toNat 31 30 = 1 → owned = true) :
    (if a.p then some cPoisonUse
     else if decide (bits a.lo.toNat 29 12 ≠ 0) ||
        ((bits a.lo.toNat 31 30 = 1 || bits a.lo.toNat 31 30 = 2) && decide (3 < bits a.lo.toNat 11 0)) ||
        (bits a.lo.toNat 31 30 = 1 && !owned) then some cSyncInvalid
     else none) = none := by
  rw [hp, if_neg Bool.false_ne_true, if_neg]
  simp only [Bool.or_eq_true, Bool.and_eq_true, decide_eq_true_eq, Bool.not_eq_true']
  rintro ((hz' | ⟨hk, hd'⟩) | ⟨hk, ho'⟩)
  · exact hz' hz
  · exact hd'.not_ge (hd hk)
  · rw [ho hk] at ho'
    exact Bool.noConfusion ho'

theorem alwBind_binds (h : SlotReady .alwBind f s b) {a : Val}
    (ha : (b.slot .alwBind f s).uni (b.slot .alwBind f s).a = a) (hp : a.p = false) (hz : bits a.lo.toNat 29 12 = 0)
    (hd : bits a.lo.toNat 31 30 = 1 ∨ bits a.lo.toNat 31 30 = 2 → bits a.lo.toNat 11 0 ≤ 3)
    (ho : bits a.lo.toNat 31 30 = 1 → s.ownsPort b.c.part (bits a.lo.toNat 11 0) = true) :
    ∃ u, exec (.alwBind f) s = .next (u.modCohort b.r.cid b.r.co fun h =>
        { h with w := h.w.setIfInBounds (f.mod.toNat % 4) (alwBound u.time (bits a.lo.toNat 31 30) (bits a.lo.toNat 11 0)
                        ((h.w[f.mod.toNat % 4]?).getD none)) }) ∧
      RegFrame s u (b.slot .alwBind f s) false := by
  subst ha
  have hrun : exec (.alwBind f) s = _ := runSlot_ready h _
  simp only [alwBind_check (owned := s.ownsPort (b.slot .alwBind f s).crew.part _) hp hz hd ho, bundleFault_none] at hrun
  exact ⟨_, hrun, finishSlot_frame (slot_stands h) .none⟩

/-- The clamp to the signed 32-bit range, bound by bound. -/
theorem clamp32_eq (v : Int) : max (-(2 : Int) ^ 31) (min v (2 ^ 31 - 1)) =
    if v < -(2 : Int) ^ 31 then -(2 : Int) ^ 31 else if (2 : Int) ^ 31 ≤ v then (2 : Int) ^ 31 - 1 else v := by
  split
  · omega
  · split
    · omega
    · omega

section
variable {w : Alw} (hw : (b.h.w[f.mod.toNat % 4]?).getD none = some w)
include hw

theorem alwTest_posts (h : SlotReady .alwTest f s b) {v : Val}
    (hv : (((lanesOf (b.slot .alwTest f s).ex).head?).map fun l => (b.slot .alwTest f s).b[l]).getD (Val.ok 0) = v)
    (hp : v.p = false) :
    Posts (.alwTest f) s (s.addPend ((b.slot .alwTest f s).pend 1 (b.slot .alwTest f s).ex 0
      (laneResults (b.slot .alwTest f s).ex fun _ =>
        { val := [if 0 < w.val ∧ (v.lo.toNat : Int) ≤ w.val then 1 else 0], p := false })))
      (b.slot .alwTest f s) false s.nextId := by
  subst hv
  refine bundleResult_posts h (he := rfl) ?_
  simp only [slot_handle, hw, hp, Bool.false_eq_true, if_false, bundleFault_none, Bool.and_eq_true, decide_eq_true_eq]

theorem alwRd_posts (h : SlotReady .alwRd f s b) :
    Posts (.alwRd f) s (s.addPend ((b.slot .alwRd f s).pend 1 (b.slot .alwRd f s).ex 0
      (laneResults (b.slot .alwRd f s).ex fun _ =>
        { val := [BitVec.ofNat 64 (((if w.val < -(2 : Int) ^ 31 then -(2 : Int) ^ 31
            else if (2 : Int) ^ 31 ≤ w.val then (2 : Int) ^ 31 - 1 else w.val) % 2 ^ 32).toNat)], p := false })))
      (b.slot .alwRd f s) false s.nextId := by
  refine bundleResult_posts h (he := rfl) ?_
  simp only [slot_handle, hw, clamp32_eq]

end

/-! An unbound handle: `alw.test` and `alw.rd` end their slot with the trap of the bundle, if a thread executes. -/

section
variable (hw : (b.h.w[f.mod.toNat % 4]?).getD none = none)
include hw

theorem alwTest_of_unbound (h : SlotReady .alwTest f s b) : exec (.alwTest f) s = .next (finishSlot (b.slot .alwTest f s)
    ((b.slot .alwTest f s).bundleFault (if (b.slot .alwTest f s).ex = 0 then none else some cIllegalOperand)) .none s) := by
  refine (runSlot_ready h _).trans ?_
  simp only [slot_handle, hw]

theorem alwRd_of_unbound (h : SlotReady .alwRd f s b) : exec (.alwRd f) s = .next (finishSlot (b.slot .alwRd f s)
    ((b.slot .alwRd f s).bundleFault (if (b.slot .alwRd f s).ex = 0 then none else some cIllegalOperand)) .none s) := by
  refine (runSlot_ready h _).trans ?_
  simp only [slot_handle, hw]

end

section
variable {i : Instr} {o : Op} {c : Cause} (h : SlotReady o f s b) (he : exec i s = .next (finishSlot (b.slot o f s)
  ((b.slot o f s).bundleFault (if (b.slot o f s).ex = 0 then none else some c)) .none s))
include h he

theorem acts_of_none_executing (hx : (b.slot o f s).ex = 0) : Acts i s s (b.slot o f s) := by
  rw [if_pos hx, bundleFault_none] at he
  exact ⟨_, he, finishSlot_frame (slot_stands h) .none⟩

theorem traps_of_executing (hx : (b.slot o f s).ex ≠ 0) : ∃ t, exec i s = .next t ∧ ∀ l : Fin 32, b.r.lanes.getLsbD l = true →
    HasThread t (b.slot o f s) l fun th => th = { b.h.threads[l] with trap := some (preciseTrap b.r c 0) } := by
  rw [if_neg hx] at he
  exact ⟨_, he, fun l hl => bundle_traps (slot_stands h) c .none l hl⟩

end

end

end Sys2Proof.Machine
end

section
/-!
The statements of spec/06_registers_and_operands.md on channels and on allowance handles.
-/

open Sys2Proof Sys2Proof.Machine

/-- Settles O23: `chn.bind` changes its cohort after the slot, the reads post what the channel gives (`chanResult_posts`,
`bundleResult_posts`), and the two events are an equation for each branch (`channelGrow_of_…`, `cyclicWaitDetect_of_…`). -/
theorem channelInstructions : Obligations.ChannelInstructions := by
  refine ⟨⟨?bind, fun _ _ _ => chnPop_posts, fun _ _ _ => chnPop_drops, ?take, ?count⟩, ?grow, ?detect⟩
  case bind => exact fun _ _ _ h ⟨hp, hn, hc⟩ => chnBind_binds h rfl hp hn hc
  case take => exact fun _ _ _ h _ ht => chnTry_posts h ht rfl
  case count => exact fun _ _ _ h => bundleResult_posts h (he := rfl) rfl
  case grow =>
    exact fun _ _ _ _ _ hc hx => ⟨channelGrow_of_no_wait hc hx, fun _ hw hn => ⟨channelGrow_of_early hc hx hw, fun hp =>
      ⟨channelGrow_of_room hc hx hw hn hp, channelGrow_of_block hc hx hw hn hp, channelGrow_of_no_block hc hx hw hn hp⟩⟩⟩
  case detect =>
    exact fun _ _ _ hc => ⟨cyclicWaitDetect_of_unnoted hc, cyclicWaitDetect_of_over hc, cyclicWaitDetect_of_found hc,
      fun _ hd hw => ⟨cyclicWaitDetect_of_early hc hd hw, cyclicWaitDetect_of_due hc hd hw⟩⟩

/-- Settles O24: `alw.bind` changes its cohort after the slot, and the readers post a result of a bound handle
(`bundleResult_posts`) or trap the bundle (`traps_of_executing`). -/
theorem allowanceInstructions : Obligations.AllowanceInstructions := by
  refine ⟨?bind, fun _ _ _ _ h hw hp => alwTest_posts hw h rfl hp, fun _ _ _ _ h hw => alwRd_posts hw h, fun f s b hw => ?unbound⟩
  case bind => exact fun _ _ _ h ⟨hp, hz, hd, ho⟩ => alwBind_binds h rfl hp hz hd ho
  case unbound =>
    exact ⟨fun h => acts_of_none_executing h (alwTest_of_unbound hw h), fun h => acts_of_none_executing h (alwRd_of_unbound hw h),
      fun h => traps_of_executing h (alwTest_of_unbound hw h), fun h => traps_of_executing h (alwRd_of_unbound hw h)⟩
end

section
/-!
Instructions that end their slot in the state of an effect, with a result known at once (R29, R36): the carry predicate of
`addc` and `subb`, and the checks of `lea` (R171, R177).
-/

namespace Sys2Proof.Machine

variable {i : Instr} {o : Op} {f : Fields} {s e : State} {b : At}

/-- Like `slot_results`, where the slot ends in the state that its effect makes. -/
theorem slot_results_after {wide : Bool} {val : Fin 32 → Val} {body : Slot → State → State} (h : SlotReady o f s b)
    (he : exec i s = runSlot o f s body)
    (hb : body (b.slot o f s) s = finishSlot (b.slot o f s) [] (.now wide (perLane val)) e)
    (hc : (e.cohort? b.r.cid b.r.co).isSome = true) :
    ∃ t, exec i s = .next t ∧ RegFrame e t (b.slot o f s) wide ∧
      ∀ l : Fin 32, (b.slot o f s).ex.getLsbD l = true → Delivered t (b.slot o f s) l wide (val l) := by
  obtain ⟨_, _, hst⟩ := stands_of_cohort h hc
  rw [runSlot_ready h, hb] at he
  exact ⟨_, he, finishSlot_frame hst (.now wide _), fun l hl => finishSlot_delivered hst wide _ l hl⟩

/-- The state in which `addc` and `subb` place their result: predicate CK of the executing threads holds the carry, when CK
is not 0 (R171). -/
def carryState (f : Fields) (sg : Int) (x : Slot) (s : State) : State :=
  if f.mod.toNat % 8 = 0 then s
  else s.modLanes x.cid x.co x.ex fun i th => { th with k := th.k.setIfInBounds (f.mod.toNat % 8) (carryOut f sg x i) }

theorem carryState_cohort_isSome (f : Fields) (sg : Int) (x : Slot) (s : State) (i j : Nat) :
    ((carryState f sg x s).cohort? i j).isSome = (s.cohort? i j).isSome := by
  unfold carryState
  split
  · rfl
  · rw [cohort_isSome, live_modLanes, cohort_isSome]

theorem carrySlot_eq (o : Op) (f : Fields) (sg : Int) (s : State) :
    carrySlot o f sg s = runSlot o f s fun x s =>
      finishSlot x [] (.now (Ty.wide f.ty) (perLane (carryResult f sg x))) (carryState f sg x s) := rfl

theorem carry_results {sg : Int} (h : SlotReady o f s b) (he : exec i s = carrySlot o f sg s) :
    ∃ t, exec i s = .next t ∧ RegFrame (carryState f sg (b.slot o f s) s) t (b.slot o f s) (Ty.wide f.ty) ∧
      ∀ l : Fin 32, (b.slot o f s).ex.getLsbD l = true →
        Delivered t (b.slot o f s) l (Ty.wide f.ty) (carryResult f sg (b.slot o f s) l) := by
  refine slot_results_after h (he.trans (carrySlot_eq o f sg s)) rfl ?_
  rw [carryState_cohort_isSome]
  exact ready_cohort h

/-- What `lea` checks in a lane: nothing without CHK, else poison before the address (R177). -/
def leaCheck (f : Fields) (x : Slot) (i : Fin 32) : Option (Cause × W64) :=
  if !f.mod.getLsbD 4 then none
  else if (x.a[i]).p || (x.b[i]).p || (x.c[i]).p then some (cPoisonUse, 0)
  else leaFault (leaSum f.mod (x.a[i]).v (x.b[i]).v (x.c[i]).v)

theorem execLea_eq (f : Fields) (s : State) :
    exec (.lea f) s = runSlot .lea f s fun x s => finishSlot x (x.faults (leaCheck f x))
      (.now true (perLane fun i => lift3 (fun a b c => toW64 (leaSum f.mod a b c)) x.a[i] x.b[i] x.c[i])) s := rfl

theorem leaCheck_unchecked {x : Slot} (h : f.mod.getLsbD 4 = false) (i : Fin 32) : leaCheck f x i = none := by
  rw [leaCheck, h]
  rfl

theorem leaCheck_clean {x : Slot} {i : Fin 32} (ha : (x.a[i]).p = false) (hb : (x.b[i]).p = false) (hc : (x.c[i]).p = false)
    (hf : leaFault (leaSum f.mod (x.a[i]).v (x.b[i]).v (x.c[i]).v) = none) : leaCheck f x i = none := by
  simp only [leaCheck, ha, hb, hc, hf, Bool.or_self, Bool.false_eq_true, if_false, ite_self]

/-- The faults of an address in the order NONCANON, ADDR_WRAP (R177). -/
theorem leaFault_eq (x : Int) : leaFault x =
    if isCanon (toW64 x) = false then some (cNoncanon, toW64 x)
    else if x < 0 ∨ (2 : Int) ^ 64 ≤ x then some (cAddrWrap, toW64 x) else none := by
  simp only [leaFault, Bool.not_eq_true']

end Sys2Proof.Machine
end

section
/-!
The statements of spec/08_integer_and_float_instructions.md. An instruction that only computes is a slot whose lanes get a
value of their operands (`computes`); its arm of `exec` is that slot with its own value.
-/

open Sys2Proof Sys2Proof.Machine

/-- Settles O2: both are `carrySlot`, with the sign of their second operand. -/
theorem carryArithmeticResults : Obligations.CarryArithmeticResults :=
  ⟨fun _ _ _ h => carry_results h rfl, fun _ _ _ h => carry_results h rfl⟩

/-- Settles O3: each instruction computes in its slot. -/
theorem bitAndCompareResults : Obligations.BitAndCompareResults := by
  refine ⟨?and, ?or, ?xor, ?andn, ?orn, ?not, ?brev, ?popc, ?clz, ?ctz, ?cmp⟩
  all_goals exact computes fun _ _ => rfl

/-- Settles O4: each instruction computes in its slot. -/
theorem shiftFieldMoveResults : Obligations.ShiftFieldMoveResults := by
  refine ⟨?shl, ?shr, ?sar, ?rol, ?ror, ?fsh, ?bfx, ?bfi, ?sel, ?mov, ?movk⟩
  all_goals exact computes fun _ _ => rfl

/-- Settles O5: no lane fails a check, without CHK (`leaCheck_unchecked`) or with clean sources and a good address
(`leaCheck_clean`). -/
theorem leaResults : Obligations.LeaResults := by
  refine ⟨fun f s b h hchk => ?result, leaFault_eq⟩
  have hpass : ∀ l : Fin 32, (b.slot .lea f s).ex.getLsbD l = true → leaCheck f (b.slot .lea f s) l = none := by
    intro l hl
    cases hm : f.mod.getLsbD 4
    case false => exact leaCheck_unchecked hm l
    case true =>
      obtain ⟨ha, hb, hc, hf⟩ := hchk hm l hl
      exact leaCheck_clean ha hb hc hf
  refine slot_results_after h (execLea_eq f s) ?_ (ready_cohort h)
  rw [slot_faults_none hpass]

/-- Settles O6: each instruction computes in its slot. -/
theorem floatArithmeticResults : Obligations.FloatArithmeticResults := by
  refine ⟨?fadd, ?fsub, ?fmul, ?ffma, ?fscale, ?frnd, ?fdot2, ?fdot4⟩
  all_goals exact computes fun _ _ => rfl

/-- Settles O7: each instruction computes in its slot. -/
theorem floatSelectResults : Obligations.FloatSelectResults := by
  refine ⟨?fmin, ?fmax, ?fabs, ?fneg, ?fcsgn, ?fcmp, ?fclass, ?fexpo⟩
  all_goals exact computes fun _ _ => rfl

/-- Settles O8: each instruction computes in its slot. -/
theorem conversionResults : Obligations.ConversionResults := by
  refine ⟨?cvt, ?cvtPk, ?cvtSr, ?mxq, ?mxdq, ?pack, ?unpack⟩
  all_goals exact computes fun _ _ => rfl
end

section
/-!
Lane rearrangement: the slot of `xpose` where no executing lane fails its checks (R198).
-/

namespace Sys2Proof.Machine

theorem execXpose_eq (f : Fields) (s : State) :
    exec (.xpose f) s = runSlot .xpose f s fun x s =>
      finishSlot x (x.faults fun i => atNull (xposeFault x i)) (.now false (perLane (xposeResult x))) s := rfl

/-- `xpose` gives its results where no executing lane fails a check: its slot then ends without a trap. -/
theorem xpose_results {f : Fields} {s : State} {b : At} (h : SlotReady .xpose f s b)
    (hpass : ∀ l : Fin 32, (b.slot .xpose f s).ex.getLsbD l = true → xposeFault (b.slot .xpose f s) l = none) :
    Results (.xpose f) s (b.slot .xpose f s) false (xposeResult (b.slot .xpose f s)) := by
  have hclean : ((b.slot .xpose f s).faults fun i => atNull (xposeFault (b.slot .xpose f s) i)) = [] :=
    slot_faults_none fun l hl => by rw [hpass l hl]; rfl
  refine slot_results_after h (execXpose_eq f s) ?_ (ready_cohort h)
  rw [hclean]

end Sys2Proof.Machine
end

section
/-!
The statements of spec/09_lanes_and_special_functions.md on tile operations and lane rearrangement. That a lane's own poisoned A
counts only where it is the value read is the model's choice between R39 and R194 (log 33).
-/

open Sys2Proof Sys2Proof.Machine

/-- Settles O9: each instruction computes in its slot, from the operands of its lane's tile. -/
theorem tileExchangeResults : Obligations.TileExchangeResults := by
  refine ⟨?shflIdx, ?shflUp, ?shflDn, ?shflXor, ?voteAny, ?voteAll, ?voteBal, ?voteEq, ?redx, ?scanx⟩
  all_goals exact computes fun _ _ => rfl

/-- Settles O10: `perm`, `rdlane` and `wrlane` compute in their slots; `xpose` is `xpose_results`. -/
theorem lanePermuteResults : Obligations.LanePermuteResults := by
  refine ⟨?perm, ?rdlane, ?wrlane, fun _ _ _ => xpose_results⟩
  all_goals exact computes fun _ _ => rfl
end

section
/-!
`red`: a contribution's place in the atomic buffer (R248), and the end of the slot with and without a region close (R249).
-/

namespace Sys2Proof.Machine

/-! A contribution in an entry. -/

section
variable (e : RedEnt) (lane : Nat) (v : W64)

/-- A part of entry `e` after a contribution of `lane` to it. -/
def RedEnt.put (e : RedEnt) (part : SMap W64) (lane : Nat) (v : W64) : SMap W64 :=
  match combine e.opx e.pro e.ty (smGet part lane) (some v) with
  | some y => smSet part lane y
  | none => part

theorem RedEnt.add_in_region : e.add true lane v = { e with pending := e.put e.pending lane v } := rfl

theorem RedEnt.add_outside_region : e.add false lane v = { e with done := e.put e.done lane v } := rfl

theorem RedEnt.smGet_put (part : SMap W64) :
    smGet (e.put part lane v) lane = combine e.opx e.pro e.ty (smGet part lane) (some v) := by
  unfold RedEnt.put
  cases smGet part lane with
  | none => exact smGet_smSet_self ..
  | some y => exact smGet_smSet_self ..

end

/-! A contribution in the buffer. -/

section
variable {s : State} {x : Slot} {va : W64} (lane : Nat) (before : BitVec 32) (v : W64)

theorem redLane_of_entry (hkey : (s.issue x.k).red.any (redKey x va).same = true) :
    s.redLane x lane before va v = (s.modIssue x.k fun i =>
      { i with red := i.red.map fun e => if (redKey x va).same e then e.add (s.inRegion x.cid x.co) lane v else e }, false) := by
  simp only [State.redLane, State.redHere, hkey, Bool.true_or, if_true]

theorem redLane_of_new_entry (hkey : (s.issue x.k).red.any (redKey x va).same = false) (hroom : s.redEntries x < 8) :
    s.redLane x lane before va v =
      (s.modIssue x.k fun i => { i with red := i.red ++ [(redKey x va).add (s.inRegion x.cid x.co) lane v] }, false) := by
  simp only [State.redLane, State.redHere, hkey, hroom, decide_true, Bool.or_true, Bool.false_eq_true, if_true, if_false]

end

/-! The end of the slot. -/

section
variable {f : Fields} {s e : State} {b : At}

/-- What `red` checks in a lane (R234, R248). -/
def redCheck (f : Fields) (x : Slot) (s : State) (i : Fin 32) : Option (Cause × W64) :=
  s.globalCheck x ((x.a[i]).p || (x.b[i]).p) (globalEa x.a[i] x.b[i]) (atomBytes f) true true false (x.c[i]).p

/-- The contributions of the lanes of `m`, in lane order. -/
def redRun (x : Slot) (m : BitVec 32) (s : State) : State × Bool × BitVec 32 :=
  forL (lanesOf m) (s.regionHere x, false, 0) (redStep x fun i => toW64 (globalEa x.a[i] x.b[i]))

theorem execRed_eq (f : Fields) (s : State) : exec (.red f) s = runSlot .red f s fun x s =>
    if (redRun x (x.done (x.faults (redCheck f x s))) s).2.1 then
      match (s.regionHere x).closeDecision x.cid x.co (some x.run.tok) with
      | .wait => (s.regionHere x).park x.k x.cid x.co { x.run with lanes := x.lanes }
      | .restart => (s.regionHere x).suspectRestart x.cid x.co
      | .commit => finishSlot x (x.faults (redCheck f x s)) .none (redRun x (x.done (x.faults (redCheck f x s))) s).1
    else finishSlot x (x.faults (redCheck f x s)) .none (redRun x (x.done (x.faults (redCheck f x s))) s).1 := rfl

variable (h : SlotReady .red f s b)
  (hpass : ∀ l : Fin 32, (b.slot .red f s).ex.getLsbD l = true → redCheck f (b.slot .red f s) s l = none)
  {closed : Bool} {m : BitVec 32} (hr : redRun (b.slot .red f s) (b.slot .red f s).ex s = (e, closed, m))
include h hpass hr

/-- Where no executing thread faults a check, the slot turns on whether the contributions need a close and what it decides. -/
theorem red_ready : exec (.red f) s = .next (
    if closed then
      match (s.regionHere (b.slot .red f s)).closeDecision b.r.cid b.r.co (some b.r.tok) with
      | .wait => (s.regionHere (b.slot .red f s)).park b.k b.r.cid b.r.co b.r
      | .restart => (s.regionHere (b.slot .red f s)).suspectRestart b.r.cid b.r.co
      | .commit => finishSlot (b.slot .red f s) [] .none e
    else finishSlot (b.slot .red f s) [] .none e) := by
  rw [execRed_eq, runSlot_ready h, slot_faults_none hpass, done_nil, hr]
  rfl

theorem red_waits (hc : closed = true)
    (hd : (s.regionHere (b.slot .red f s)).closeDecision b.r.cid b.r.co (some b.r.tok) = .wait) :
    exec (.red f) s = .next ((s.regionHere (b.slot .red f s)).park b.k b.r.cid b.r.co b.r) := by
  rw [red_ready h hpass hr, if_pos hc, hd]

theorem red_restarts (hc : closed = true)
    (hd : (s.regionHere (b.slot .red f s)).closeDecision b.r.cid b.r.co (some b.r.tok) = .restart) :
    exec (.red f) s = .next ((s.regionHere (b.slot .red f s)).suspectRestart b.r.cid b.r.co) := by
  rw [red_ready h hpass hr, if_pos hc, hd]

theorem red_acts (hc : closed = false ∨
      (s.regionHere (b.slot .red f s)).closeDecision b.r.cid b.r.co (some b.r.tok) = .commit) :
    Acts (.red f) s e (b.slot .red f s) := by
  have hrun : exec (.red f) s = .next (finishSlot (b.slot .red f s) [] .none e) := by
    rw [red_ready h hpass hr]
    rcases hc with hc | hd
    · rw [hc, if_neg Bool.false_ne_true]
    · rw [hd]
      exact congrArg _ (ite_self _)
  obtain ⟨_, _, hst⟩ := stands_live h (red_live hr)
  exact ⟨_, hrun, finishSlot_frame hst .none⟩

end

end Sys2Proof.Machine
end

section
/-!
The statement of spec/11_memory_instructions.md on `red`.
-/

open Sys2Proof Sys2Proof.Machine

/-- Settles O34: the slot ends, waits or restarts (`red_acts`, `red_waits`, `red_restarts`); a contribution finds an entry of its
key or takes a new one (`redLane_of_…`), and enters the part that the region chooses (`RedEnt.smGet_put`). -/
theorem reductionInstructions : Obligations.ReductionInstructions := by
  refine ⟨fun f s b h hpass e closed m hr => ⟨red_acts h hpass hr, red_waits h hpass hr, red_restarts h hpass hr⟩,
    fun s x lane m va v => ⟨redLane_of_entry lane m v, redLane_of_new_entry lane m v⟩,
    fun e lane v => ⟨?inRegion, rfl, ?outside, rfl⟩⟩
  case inRegion =>
    rw [RedEnt.add_in_region, RedEnt.smGet_put]
    cases smGet e.pending lane with
    | none => rfl
    | some y => rfl
  case outside =>
    rw [RedEnt.add_outside_region, RedEnt.smGet_put]
    cases smGet e.done lane with
    | none => rfl
    | some y => rfl
end

section
/-!
Posts of cards to the matrix engine: a posting instruction as executing threads that offer their cards in turn, and the mandrel's
refusal of an offer (R215, R216, R218, R220, R221).
-/

namespace Sys2Proof.Machine

/-- What an executing thread of a posting instruction does: the checks of its offset and of the card there, then its offer
(R215). -/
def mxPostLane (k : MxKind) (x : Slot) (i : Fin 32) (t : State) : Except Cause (State × W64) :=
  match firstErr
    [failIf (x.a[i]).p cPoisonUse, failIf (decide ((x.a[i]).lo.toNat % 128 ≠ 0)) cMisaligned,
     failIf (decide (x.crew.dOff < (x.a[i]).lo.toNat + 128)) cStashBounds,
     mxFault k (cardWords (memRead t.mem (x.crew.stashAt (x.a[i]).lo.toNat) 128)) x.crew] with
  | some c => .error c
  | none => .ok (t.mxOffer x i.val k (cardWords (memRead t.mem (x.crew.stashAt (x.a[i]).lo.toNat) 128)))

/-- What an executing thread of `mx.zero` does: its operand names bank 0, bank 1 or both (R221). -/
def mxZeroLane (x : Slot) (i : Fin 32) (t : State) : Except Cause (State × W64) :=
  if (x.a[i]).p then .error cPoisonUse
  else if 8 ≤ (x.a[i]).lo.toNat || (x.a[i]).lo.toNat % 4 = 0 then .error cMxCardInvalid
  else .ok (t.mxOffer x i.val .zero [BitVec.ofNat 64 (x.a[i]).lo.toNat])

theorem stays_of_mxOffer {s t : State} {v : W64} {x : Slot} {lane : Nat} {k : MxKind} {d : List W64}
    (h : s.mxOffer x lane k d = (t, v)) : Stays s t := by
  have hoffer := stays_mxOffer s x lane k d
  rwa [h] at hoffer

theorem stays_mxPostLane {k : MxKind} {x : Slot} {i : Fin 32} {s t : State} {v : W64} (h : mxPostLane k x i s = .ok (t, v)) :
    Stays s t := by
  unfold mxPostLane at h
  split at h
  · cases h
  · exact stays_of_mxOffer (Except.ok.inj h)

theorem stays_mxZeroLane {x : Slot} {i : Fin 32} {s t : State} {v : W64} (h : mxZeroLane x i s = .ok (t, v)) : Stays s t := by
  unfold mxZeroLane at h
  split at h
  · cases h
  split at h
  · cases h
  · exact stays_of_mxOffer (Except.ok.inj h)

theorem mxPost_inTurn {o : Op} {k : MxKind} {c : Fields → Instr} (he : ∀ f s, exec (c f) s = mxPost o k f s) :
    InTurn o c fun _ => mxPostLane k :=
  inTurn (ad := fun _ x i => (x.a[i]).lo.setWidth 64) he fun _ _ _ _ _ _ i j h => (stays_mxPostLane h).1 i j

theorem mxZero_inTurn : InTurn .mxZero Instr.mxZero fun _ => mxZeroLane :=
  inTurn (ad := fun _ x i => (x.a[i]).lo.setWidth 64) (fun _ _ => rfl) fun _ _ _ _ _ _ i j h => (stays_mxZeroLane h).1 i j

/-! The refusals of an offer, in the order in which R215 lists them, the model's choice where several hold (log 19). -/

section
variable {s : State} {x : Slot} {lane : Nat} {k : MxKind} {d : List W64} {c : Crew} {th : Thread}

theorem no_chuck_lacks_room
    (hr : ∀ y ∈ s.mxTargets x.cid c k, (mxRanges k d y.2.2 (uvOf c.tw y.1)).length ≤ (s.cluster y.2.2.p).chuckRoom) :
    ¬ ∃ y ∈ s.mxTargets x.cid c k, (s.cluster y.2.2.p).chuckRoom < (mxRanges k d y.2.2 (uvOf c.tw y.1)).length :=
  fun ⟨y, hy, hlt⟩ => (hr y hy).not_gt hlt

variable (hc : smGet s.crews x.cid = some c) (ht : s.thread? x.cid x.co lane = some th)
include hc ht

theorem mxOffer_of_no_room
    (hr : ∃ y ∈ s.mxTargets x.cid c k, (s.cluster y.2.2.p).chuckRoom < (mxRanges k d y.2.2 (uvOf c.tw y.1)).length) :
    s.mxOffer x lane k d = (s, 2) := by
  simp only [State.mxOffer, hc, ht, List.any_eq_true, decide_eq_true_eq, if_pos hr]

variable (hr : ∀ y ∈ s.mxTargets x.cid c k, (mxRanges k d y.2.2 (uvOf c.tw y.1)).length ≤ (s.cluster y.2.2.p).chuckRoom)
include hr

theorem mxOffer_of_no_slot (hs : ∃ y ∈ s.mxTargets x.cid c k, s.mxRoom (s.mxPreds c k d) y.2.2.p = []) :
    s.mxOffer x lane k d = (s, 4) := by
  simp only [State.mxOffer, hc, ht, List.any_eq_true, decide_eq_true_eq, List.isEmpty_iff, if_neg (no_chuck_lacks_room hr),
    if_pos hs]

theorem mxOffer_of_full_flag (hs : ∀ y ∈ s.mxTargets x.cid c k, s.mxRoom (s.mxPreds c k d) y.2.2.p ≠ []) (hk : k ≠ .zero)
    (he : mCfe d = true) (hf : flagRoom th (mCfl d) = false) : s.mxOffer x lane k d = (s, 6) := by
  have hfree : ¬ ∃ y ∈ s.mxTargets x.cid c k, s.mxRoom (s.mxPreds c k d) y.2.2.p = [] := fun ⟨y, hy, h⟩ => hs y hy h
  have hflag : (decide (k ≠ .zero) && mCfe d && !flagRoom th (mCfl d)) = true := by
    simp only [hk, he, hf, ne_eq, not_false_eq_true, decide_true, Bool.not_false, Bool.and_self]
  simp only [State.mxOffer, hc, ht, List.any_eq_true, decide_eq_true_eq, List.isEmpty_iff, if_neg (no_chuck_lacks_room hr),
    if_neg hfree, if_pos hflag]

end

end Sys2Proof.Machine
end

section
/-!
The statement of spec/10_matrix_engine.md on the posts of cards.
-/

open Sys2Proof Sys2Proof.Machine

/-- Settles O36: `mx.post`, `mx.team` and `mx.drain` post alike (`mxPost_inTurn`), `mx.zero` without a card (`mxZero_inTurn`), and an
offer is refused on the first condition that holds (`mxOffer_of_…`). -/
theorem matrixPosts : Obligations.MatrixPosts := by
  refine ⟨?post, ?team, ?drain, mxZero_inTurn, fun s x lane k d c th hc ht => ⟨mxOffer_of_no_room hc ht, fun hr =>
    ⟨mxOffer_of_no_slot hc ht hr, mxOffer_of_full_flag hc ht hr⟩⟩⟩
  all_goals exact mxPost_inTurn fun _ _ => rfl
end

section
/-!
Loads: a result is entered for the executing threads that pass their check, and each has its bytes or asks for them (R231 to
R233, R238, R260).
-/

namespace Sys2Proof.Machine

/-- A slot that enters a result, lets the lanes that pass their check begin it, and ends with the result to come: where no
executing lane fails its check, the result is posted. -/
theorem entered_posts {i : Instr} {o : Op} {f : Fields} {s : State} {b : At}
    (chk : Slot → State → Fin 32 → Option (Cause × W64)) (wide : Slot → Bool) (eff : Slot → BitVec 32 → State → State)
    (h : SlotReady o f s b)
    (he : exec i s = runSlot o f s fun x s =>
      finishLate x (x.faults (chk x s)) s.nextId (wide x) (eff x (x.done (x.faults (chk x s))) s))
    (hpass : ∀ l : Fin 32, (b.slot o f s).ex.getLsbD l = true → chk (b.slot o f s) s l = none)
    (hl : live (eff (b.slot o f s) (b.slot o f s).ex s).crews b.r.cid b.r.co = live s.crews b.r.cid b.r.co) :
    Posts i s (eff (b.slot o f s) (b.slot o f s).ex s) (b.slot o f s) (wide (b.slot o f s)) s.nextId :=
  slot_posts h he (by rw [slot_faults_none hpass, done_nil]) (stands_live h hl)

/-- The stores that the region store buffer of the slot's cohort holds. -/
def State.heldStores (s : State) (x : Slot) : List RStore :=
  match s.cohort? x.cid x.co with
  | some h => h.rgn.stores
  | none => []

theorem heldStores_slot {o : Op} {f : Fields} {s : State} {b : At} (h : SlotReady o f s b) :
    s.heldStores (b.slot o f s) = b.h.rgn.stores := by
  rw [State.heldStores, (slot_stands h).coh]

/-- The bytes that the region store buffer holds of each lane's access of `n` bytes (R232). -/
def keptLanes (l : List RStore) (stash : Bool) (addr : Fin 32 → Nat) (n : Nat) (m : BitVec 32) :
    List (Nat × List (Option Byte)) :=
  (lanesOf m).map fun i => (i.val, bufferBytes l stash (addr i) n)

/-- The address of a lane's global access. -/
def Slot.globalVa (x : Slot) (i : Fin 32) : W64 := toW64 (globalEa x.a[i] x.b[i])

/-- The offset of a lane's stash access in its crew's window. -/
def Slot.stashOffset (x : Slot) (i : Fin 32) : Int := stashOff x.a[i] x.b[i]

/-- The place of a lane's stash access in its cluster's stash. -/
def Slot.stashPlace (x : Slot) (i : Fin 32) : Nat := x.crew.base + (x.stashOffset i).toNat

section
variable (f : Fields) (x : Slot)

/-- The bytes of a load or a store. -/
def accBytes : Nat := accSize f (f.mod.toNat % 4)

/-- What `ld` checks in a lane. -/
def ldCheck (s : State) (i : Fin 32) : Option (Cause × W64) :=
  s.globalCheck x ((x.a[i]).p || (x.b[i]).p) (globalEa x.a[i] x.b[i]) (accBytes f) false false true false

/-- One thread of a global load with the bytes that the buffer holds for it (R227, R232, R260). -/
def ldLane (id : Nat) (k : Nat × List (Option Byte)) (va : W64) (s : State) : State :=
  (s.loadGlobal x id k.1 (accBytes f) (f.mod.toNat / 8 % 4) (f.mod.getLsbD 2) va k.2).loadAcquire x k.1 (f.mod.toNat / 8 % 4) va
    s.nextId

/-- What `ld` leaves for the lanes `m` of a cohort whose buffer holds the stores `l`. -/
def ldEntered (l : List RStore) (m : BitVec 32) (s : State) : State :=
  forL (keptLanes l false (fun i => (x.globalVa i).toNat) (accBytes f) m)
    (s.addPend { x.pend (loadWidth f (f.mod.toNat % 4)) m m [] with
      joint := true, sx := f.mod.getLsbD 2, kept := keptLanes l false (fun i => (x.globalVa i).toNat) (accBytes f) m })
    fun k => ldLane f x s.nextId k (x.globalVa (Fin.ofNat 32 k.1))

/-- The one address of `ldu` (R233). -/
def Slot.uniVa : W64 := toW64 (globalEa (x.uni x.a) (x.uni x.b))

/-- What `ldu` checks for the bundle. -/
def lduCheck (s : State) : Option (Cause × W64) :=
  s.globalCheck x ((x.uni x.a).p || (x.uni x.b).p) (globalEa (x.uni x.a) (x.uni x.b)) (accBytes f) false false true false

/-- The lane under which the access of `ldu` is made. -/
def Slot.firstLane : Nat := (((lanesOf x.ex).head?).map Fin.val).getD 0

/-- The result that `ldu` enters, for a cohort whose buffer holds the stores `l`. -/
def lduPend (l : List RStore) : Pend :=
  { x.pend (loadWidth f (f.mod.toNat % 4)) x.ex x.ex [] with
    joint := true, sx := f.mod.getLsbD 2, kept := [(x.firstLane, bufferBytes l false x.uniVa.toNat (accBytes f))],
    bundle := true }

/-- What `ldu` leaves. -/
def lduEntered (l : List RStore) (s : State) : State :=
  ldLane f x s.nextId (x.firstLane, bufferBytes l false x.uniVa.toNat (accBytes f)) x.uniVa (s.addPend (lduPend f x l))

/-- What `lds` checks in a lane. -/
def ldsCheck (s : State) (i : Fin 32) : Option (Cause × W64) :=
  s.stashCheck x ((x.a[i]).p || (x.b[i]).p) (x.stashOffset i) (accBytes f) false false false

/-- What `lds` leaves for the lanes `m` of a cohort whose buffer holds the stores `l`. -/
def ldsEntered (l : List RStore) (m : BitVec 32) (s : State) : State :=
  forL (keptLanes l true x.stashPlace (accBytes f) m)
    (s.addPend { x.pend (loadWidth f (f.mod.toNat % 4)) m m [] with
      sx := f.mod.getLsbD 2, kept := keptLanes l true x.stashPlace (accBytes f) m })
    fun k t => t.loadStash x s.nextId k.1 (accBytes f) f.ty (f.mod.getLsbD 2) (x.stashPlace (Fin.ofNat 32 k.1)) k.2

end

section
variable {f : Fields} {s : State} {b : At}

@[simp] theorem live_ldLane (x : Slot) (id : Nat) (k : Nat × List (Option Byte)) (va : W64) (s : State) (i j : Nat) :
    live (ldLane f x id k va s).crews i j = live s.crews i j :=
  (live_loadAcquire ..).trans (live_loadGlobal ..)

theorem ld_posts (h : SlotReady .ld f s b)
    (hpass : ∀ l : Fin 32, (b.slot .ld f s).ex.getLsbD l = true → ldCheck f (b.slot .ld f s) s l = none) :
    Posts (.ld f) s (ldEntered f (b.slot .ld f s) b.h.rgn.stores (b.slot .ld f s).ex s) (b.slot .ld f s) (Ty.wide f.ty)
      s.nextId := by
  rw [← heldStores_slot h]
  exact entered_posts (ldCheck f) (fun _ => Ty.wide f.ty) (fun x m s => ldEntered f x (s.heldStores x) m s) h rfl hpass
    (live_forL _ _ _ _ _ fun _ _ => live_ldLane ..)

theorem ldu_posts (h : SlotReady .ldu f s b) (hx : (b.slot .ldu f s).ex ≠ 0)
    (hpass : lduCheck f (b.slot .ldu f s) s = none) :
    Posts (.ldu f) s (lduEntered f (b.slot .ldu f s) b.h.rgn.stores s) (b.slot .ldu f s) (Ty.wide f.ty) s.nextId := by
  rw [← heldStores_slot h]
  refine slot_posts h rfl ?_ (stands_live h (live_ldLane ..))
  unfold lduCheck accBytes at hpass
  simp only [if_neg hx, hpass, List.isEmpty_nil, if_true]
  rfl

theorem lds_posts (h : SlotReady .lds f s b)
    (hpass : ∀ l : Fin 32, (b.slot .lds f s).ex.getLsbD l = true → ldsCheck f (b.slot .lds f s) s l = none) :
    Posts (.lds f) s (ldsEntered f (b.slot .lds f s) b.h.rgn.stores (b.slot .lds f s).ex s) (b.slot .lds f s) (Ty.wide f.ty)
      s.nextId := by
  rw [← heldStores_slot h]
  exact entered_posts (ldsCheck f) (fun _ => Ty.wide f.ty) (fun x m s => ldsEntered f x (s.heldStores x) m s) h rfl hpass
    (live_forL _ _ _ _ _ fun _ _ => live_loadStash ..)

end

end Sys2Proof.Machine
end

section
/-!
The statement of spec/11_memory_instructions.md on loads.
-/

open Sys2Proof Sys2Proof.Machine

/-- Settles O25: each of the three posts its result (`ld_posts`, `ldu_posts`, `lds_posts`). -/
theorem loadInstructions : Obligations.LoadInstructions := by
  refine ⟨?ld, ?ldu, ?lds⟩
  case ld => rintro f s b h hpass _ rfl; exact ld_posts h hpass
  case ldu => rintro f s b h hx hpass _ _ _ rfl rfl rfl _ rfl; exact ldu_posts h hx hpass
  case lds => rintro f s b h hpass _ rfl; exact lds_posts h hpass
end

section
/-!
Stores: the slot ends, waits or restarts as the region store buffer takes its stores or closes first (R231, R234, R237).
-/

namespace Sys2Proof.Machine

section
variable {i : Instr} {o : Op} {f : Fields} {s e : State} {b : At} {chk : Slot → State → Fin 32 → Option (Cause × W64)}
  {stash : Bool} {addr : Slot → Fin 32 → W64} {n : Nat} (h : SlotReady o f s b)
  (he : exec i s = runSlot o f s fun x s => storeSlot x (x.faults (chk x s)) stash (addr x) n s)
  (hpass : ∀ l : Fin 32, (b.slot o f s).ex.getLsbD l = true → chk (b.slot o f s) s l = none)
include h he hpass

theorem store_ready : exec i s = .next (storeSlot (b.slot o f s) [] stash (addr (b.slot o f s)) n s) := by
  rw [he, runSlot_ready h, slot_faults_none hpass]

theorem store_acts (hb : s.buffer (b.slot o f s) (slotStores f (b.slot o f s) stash (addr (b.slot o f s)) n) = .ok e) :
    Acts i s e (b.slot o f s) := by
  obtain ⟨_, _, hst⟩ := stands_live h (live_buffer hb _ _)
  exact ⟨_, (store_ready h he hpass).trans (congrArg _ (storeSlot_ok hb)), finishSlot_frame hst .none⟩

theorem store_stops (hb : s.buffer (b.slot o f s) (slotStores f (b.slot o f s) stash (addr (b.slot o f s)) n) = .error e) :
    exec i s = .next e :=
  (store_ready h he hpass).trans (congrArg _ (storeSlot_error hb))

end

section
variable (f : Fields) (x : Slot) (s : State) (i : Fin 32)

/-- What `st` checks in a lane. -/
def stCheck : Option (Cause × W64) :=
  s.globalCheck x ((x.a[i]).p || (x.b[i]).p) (globalEa x.a[i] x.b[i]) (accBytes f) false true true
    (storeData x (accBytes f) i).2

/-- What `sts` checks in a lane. -/
def stsCheck : Option (Cause × W64) :=
  s.stashCheck x ((x.a[i]).p || (x.b[i]).p) (x.stashOffset i) (accBytes f) false true
    (storeData x (accBytes f) i).2

/-- A store in the buffer names its place in the cluster's stash as an address. -/
def Slot.stashStoreVa : W64 := BitVec.ofNat 64 (x.stashPlace i)

end

theorem execSt_eq (f : Fields) (s : State) : exec (.st f) s = runSlot .st f s fun x s =>
    storeSlot x (x.faults (stCheck f x s)) false x.globalVa (accBytes f) s := rfl

theorem execSts_eq (f : Fields) (s : State) : exec (.sts f) s = runSlot .sts f s fun x s =>
    storeSlot x (x.faults (stsCheck f x s)) true x.stashStoreVa (accBytes f) s := rfl

section
variable {f : Fields} {s e : State} {b : At}

section
variable (h : SlotReady .st f s b)
  (hpass : ∀ l : Fin 32, (b.slot .st f s).ex.getLsbD l = true → stCheck f (b.slot .st f s) s l = none)
include h hpass

theorem st_acts
    (hb : s.buffer (b.slot .st f s)
      (slotStores f (b.slot .st f s) false (b.slot .st f s).globalVa (accBytes f)) = .ok e) :
    Acts (.st f) s e (b.slot .st f s) :=
  store_acts (addr := Slot.globalVa) h (execSt_eq f s) hpass hb

theorem st_stops
    (hb : s.buffer (b.slot .st f s)
      (slotStores f (b.slot .st f s) false (b.slot .st f s).globalVa (accBytes f)) = .error e) :
    exec (.st f) s = .next e :=
  store_stops (addr := Slot.globalVa) h (execSt_eq f s) hpass hb

end

section
variable (h : SlotReady .sts f s b)
  (hpass : ∀ l : Fin 32, (b.slot .sts f s).ex.getLsbD l = true → stsCheck f (b.slot .sts f s) s l = none)
include h hpass

theorem sts_acts
    (hb : s.buffer (b.slot .sts f s)
      (slotStores f (b.slot .sts f s) true (b.slot .sts f s).stashStoreVa (accBytes f)) = .ok e) :
    Acts (.sts f) s e (b.slot .sts f s) :=
  store_acts (addr := Slot.stashStoreVa) h (execSts_eq f s) hpass hb

theorem sts_stops
    (hb : s.buffer (b.slot .sts f s)
      (slotStores f (b.slot .sts f s) true (b.slot .sts f s).stashStoreVa (accBytes f)) = .error e) :
    exec (.sts f) s = .next e :=
  store_stops (addr := Slot.stashStoreVa) h (execSts_eq f s) hpass hb

end

end

/-! The buffer. -/

section
variable {s : State} {x : Slot} {l : List RStore} {h : Cohort}

/-- The stores `l` placed at the end of the buffer, in the open region or in one opened for them. -/
def State.putStores (s : State) (x : Slot) (l : List RStore) : State :=
  (s.regionHere x).modCohort x.cid x.co fun h => { h with rgn := { h.rgn with stores := h.rgn.stores ++ l } }

variable (hc : s.cohort? x.cid x.co = some h)
include hc

theorem buffer_of_room (hr : h.rgn.opened = false ∨ bufferLines (h.rgn.stores ++ l) ≤ 64) :
    s.buffer x l = .ok (s.putStores x l) := by
  have hfits : ¬ (h.rgn.opened && decide (64 < bufferLines (h.rgn.stores ++ l))) = true := by
    rw [Bool.and_eq_true, decide_eq_true_eq]
    rintro ⟨ho, hl⟩
    rcases hr with hr | hr
    · exact absurd (hr.symm.trans ho) Bool.false_ne_true
    · exact hr.not_gt hl
  simp only [State.buffer, hc, if_neg hfits]
  rfl

theorem buffer_of_full (ho : h.rgn.opened = true) (hl : 64 < bufferLines (h.rgn.stores ++ l)) :
    s.buffer x l = match s.closeDecision x.cid x.co (some x.run.tok) with
      | .wait => .error (s.park x.k x.cid x.co { x.run with lanes := x.lanes })
      | .restart => .error (s.suspectRestart x.cid x.co)
      | .commit => .ok ((s.commitRegion x.cid x.co true).putStores x l) := by
  simp only [State.buffer, hc, ho, hl, decide_true, Bool.and_self, if_true]
  rfl

end

end Sys2Proof.Machine
end

section
/-!
The statements of spec/11_memory_instructions.md on stores and the region store buffer.
-/

open Sys2Proof Sys2Proof.Machine

/-- Settles O27: what the buffer answers decides whether the slot ends (`st_acts`, `sts_acts`) or stops before its end
(`st_stops`, `sts_stops`). -/
theorem storeInstructions : Obligations.StoreInstructions :=
  ⟨fun _ _ _ h hpass => ⟨fun _ => st_acts h hpass, fun _ => st_stops h hpass⟩,
    fun _ _ _ h hpass => ⟨fun _ => sts_acts h hpass, fun _ => sts_stops h hpass⟩⟩

/-- Settles O28: the buffer has room (`buffer_of_room`) or closes first (`buffer_of_full`), and the latest store that covers a
byte gives it (`bufferByte_append`). -/
theorem regionStoreBuffer : Obligations.RegionStoreBuffer := by
  refine ⟨fun s x l h hc => ⟨buffer_of_room hc, buffer_of_full hc⟩, bufferByte_append, fun _ _ => rfl, ?narrow⟩
  case narrow => exact fun _ _ _ hn => if_neg hn
end

section
/-!
`pref`, `bind`, `unbind`, `fence` and `red.flush`: the effect each makes before its slot ends (R239 to R243, R252).
-/

namespace Sys2Proof.Machine

section
variable (f : Fields) (x : Slot)

/-- What `pref` checks in a lane. -/
def prefCheck (i : Fin 32) : Option (Cause × W64) :=
  if (x.a[i]).p || (x.b[i]).p then some (cPoisonUse, 0) else none

/-- The lines that `pref` may fetch: at a good address, outside the host window and in no locked range (R239). -/
def prefMay (s : State) (i : Fin 32) : Bool :=
  (addrFault (globalEa x.a[i] x.b[i]) 1 0).isNone && !inHost (toW64 (globalEa x.a[i] x.b[i])) &&
    !(s.cluster x.p).locked (some x.asid) (lineVa (toW64 (globalEa x.a[i] x.b[i]))).toNat 128 false

/-- The requests of the lanes `m` of a `pref`, under a result that only SETB awaits. -/
def prefSent (m : BitVec 32) (s : State) : State :=
  (forL (lanesOf m) (s.addPend (x.pend 0 0 m [])) fun i t =>
    t.send (mkReq t x.p x.sl x.cid x.co i.val (some s.nextId) x.asid (lineVa (toW64 (globalEa x.a[i] x.b[i])))
      (.pref (f.mod.toNat % 4)) 0 x.trpc (t.inRegion x.cid x.co))).settlePend s.nextId

/-- What `bind` checks in a lane. -/
def bindCheck (i : Fin 32) : Option (Cause × W64) :=
  if (x.a[i]).p || (x.b[i]).p || (x.c[i]).p then some (cPoisonUse, 0)
  else atAddr (x.a[i]).v (addrFault ((x.a[i]).v.toNat : Int) (x.b[i]).lo.toNat 0)

/-- One thread's `bind` in the table of its crew. -/
def bindLane (i : Fin 32) (s : State) : State × W64 :=
  match smGet s.crews x.cid with
  | none => (s, 0)
  | some c =>
    (match (c.bindResult (f.mod.getLsbD 0) (x.a[i]).v (x.b[i]).lo.toNat (x.c[i]).v).2 with
      | some (n, b) => s.modCrew x.cid fun c => { c with bind := c.bind.setIfInBounds n (some b) }
      | none => s, (c.bindResult (f.mod.getLsbD 0) (x.a[i]).v (x.b[i]).lo.toNat (x.c[i]).v).1)

/-- The executing threads' `unbind`, in lane order, with their results. -/
def unbindLanes (s : State) : State × SMap LaneRes :=
  forL (lanesOf x.ex) (s, []) fun i y =>
    ((y.1.unbindLane x.cid x.a[i]).1, smSet y.2 i.val (y.1.unbindLane x.cid x.a[i]).2)

/-- The fence that the executing threads start (R242, R243). -/
def fenceStarted (s : State) : State :=
  if x.ex = 0 then s
  else s.startFence x.cid x.co x.run.tok x.ex x.trpc
    { hold := true, rel := decide (f.mod.toNat % 4 ≠ 0), acq := decide (f.mod.toNat % 4 ≠ 1), scope := f.mod.toNat / 4,
      ranges := none, step := 0, waits := [], next := .done }

/-- Every committed part of the crew sent out. -/
def crewDrained (s : State) : State := s.drainParts x.p fun y => decide (y.cid = x.cid)

/-- The wait of SETB for the drains that made `e` of the state `s`. -/
def drainAwaited (s e : State) : State :=
  e.startFence x.cid x.co x.run.tok x.ex x.trpc
    { hold := false, rel := true, acq := false, scope := 0, ranges := none, step := 1,
      waits := (List.range (e.nextId - s.nextId)).map (· + s.nextId), next := .done }

end

theorem prefCheck_of_clean {x : Slot} {i : Fin 32} (h : ((x.a[i]).p || (x.b[i]).p) = false) : prefCheck x i = none := by
  rw [prefCheck, h, if_neg Bool.false_ne_true]

theorem bindCheck_of_good {x : Slot} {i : Fin 32} (h : (x.a[i]).p = false ∧ (x.b[i]).p = false ∧ (x.c[i]).p = false ∧
    addrFault ((x.a[i]).v.toNat : Int) (x.b[i]).lo.toNat 0 = none) : bindCheck x i = none := by
  obtain ⟨ha, hb, hc, hr⟩ := h
  rw [bindCheck, ha, hb, hc, hr]
  rfl

theorem stays_bindLane (f : Fields) (x : Slot) (i : Fin 32) (s : State) : Stays s (bindLane f x i s).1 := by
  unfold bindLane
  split
  · exact .refl s
  · dsimp only
    split
    · exact stays_modCrew _ _ _ fun _ => rfl
    · exact .refl s

theorem stays_unbindLanes (x : Slot) (s : State) : Stays s (unbindLanes x s).1 :=
  stays_forL_fst _ _ _ fun _ _ => stays_unbindLane ..

theorem live_fenceStarted (f : Fields) (x : Slot) (s : State) (i j : Nat) :
    live (fenceStarted f x s).crews i j = live s.crews i j := by
  unfold fenceStarted
  split
  · rfl
  · exact live_startFence ..

section
variable {f : Fields} {s : State} {b : At}

theorem pref_acts (h : SlotReady .pref f s b)
    (hclean : ∀ l : Fin 32, (b.slot .pref f s).ex.getLsbD l = true →
      (((b.slot .pref f s).a[l]).p || ((b.slot .pref f s).b[l]).p) = false) :
    Acts (.pref f) s (prefSent f (b.slot .pref f s) (laneFilter (b.slot .pref f s).ex (prefMay (b.slot .pref f s) s)) s)
      (b.slot .pref f s) := by
  have hpass : (b.slot .pref f s).faults (prefCheck (b.slot .pref f s)) = [] :=
    slot_faults_none fun l hl => prefCheck_of_clean (hclean l hl)
  have he : exec (.pref f) s = runSlot .pref f s fun x s => finishSlot x (x.faults (prefCheck x)) .none
      (prefSent f x (laneFilter (x.done (x.faults (prefCheck x))) (prefMay x s)) s) := rfl
  refine slot_acts h he (by rw [hpass, done_nil]) (stands_live h ?_)
  exact (live_settlePend ..).trans (live_forL _ _ _ _ _ fun _ _ => live_send ..)

theorem bind_inTurn : EachInTurn .bind Instr.bind
    (fun _ _ x l => (x.a[l]).p = false ∧ (x.b[l]).p = false ∧ (x.c[l]).p = false ∧
      addrFault ((x.a[l]).v.toNat : Int) (x.b[l]).lo.toNat 0 = none)
    (fun r => decide (r.toNat < 64)) bindLane :=
  eachInTurn (flt := fun _ _ => bindCheck) (fun _ _ => rfl) (fun _ _ _ _ => bindCheck_of_good)
    fun f x i s => (stays_bindLane f x i s).1

theorem execUnbind_eq (f : Fields) (s : State) : exec (.unbind f) s = runSlot .unbind f s fun x s =>
    finishLate x [] (unbindLanes x s).1.nextId false ((unbindLanes x s).1.addPend (x.pend 1 x.ex 0 (unbindLanes x s).2)) := rfl

theorem unbind_posts (h : SlotReady .unbind f s b) {e : State} {vals : SMap LaneRes}
    (hr : unbindLanes (b.slot .unbind f s) s = (e, vals)) :
    Posts (.unbind f) s (e.addPend ((b.slot .unbind f s).pend 1 (b.slot .unbind f s).ex 0 vals)) (b.slot .unbind f s) false
      e.nextId := by
  have hlive := (stays_unbindLanes (b.slot .unbind f s) s).1 b.r.cid b.r.co
  rw [hr] at hlive
  exact slot_posts h (execUnbind_eq f s) (by rw [hr]) (stands_live h hlive)

theorem fence_acts (h : SlotReady .fence f s b) :
    Acts (.fence f) s (fenceStarted f (b.slot .fence f s) s) (b.slot .fence f s) :=
  slot_acts h rfl rfl (stands_live h (live_fenceStarted ..))

theorem execRedFlush_eq (f : Fields) (s : State) : exec (.redFlush f) s = runSlot .redFlush f s fun x s =>
    if x.ex = 0 then finishSlot x [] .none s else finishSlot x [] .none (drainAwaited x s (crewDrained x s)) := rfl

theorem redFlush_acts_of_none_executing (h : SlotReady .redFlush f s b) (hx : (b.slot .redFlush f s).ex = 0) :
    Acts (.redFlush f) s s (b.slot .redFlush f s) :=
  slot_acts h (execRedFlush_eq f s) (if_pos hx) (stands_live h rfl)

theorem redFlush_acts_of_executing (h : SlotReady .redFlush f s b) (hx : (b.slot .redFlush f s).ex ≠ 0) :
    Acts (.redFlush f) s (drainAwaited (b.slot .redFlush f s) s (crewDrained (b.slot .redFlush f s) s))
      (b.slot .redFlush f s) :=
  slot_acts h (execRedFlush_eq f s) (if_neg hx) (stands_live h ((live_startFence ..).trans (live_drainParts ..)))

end

/-! Searches in a table of entries. -/

section
variable {α : Type} {n : Nat} {v : Vector α n} {p : α → Bool}

theorem mem_toList_zipIdx {z : α × Nat} : z ∈ v.toList.zipIdx ↔ ∃ i : Fin n, z = (v[i], i.val) := by
  rw [List.mem_zipIdx_iff_getElem?]
  constructor
  · intro h
    obtain ⟨hi, hz⟩ := List.getElem?_eq_some_iff.1 h
    rw [Vector.length_toList] at hi
    exact ⟨⟨z.2, hi⟩, Prod.ext hz.symm rfl⟩
  · rintro ⟨i, rfl⟩
    simp

theorem find_entry_eq_none (h : ∀ i : Fin n, p v[i] = false) : (v.toList.zipIdx.find? fun z => p z.1) = none := by
  rw [List.find?_eq_none]
  intro z hz
  obtain ⟨i, rfl⟩ := mem_toList_zipIdx.1 hz
  exact Bool.eq_false_iff.1 (h i)

theorem find_entry_of_exists (h : ∃ i : Fin n, p v[i] = true) :
    ∃ i : Fin n, p v[i] = true ∧ (v.toList.zipIdx.find? fun z => p z.1) = some (v[i], i.val) := by
  obtain ⟨i, hi⟩ := h
  have hmem : (v[i], i.val) ∈ v.toList.zipIdx := mem_toList_zipIdx.2 ⟨i, rfl⟩
  obtain ⟨z, hz⟩ := Option.isSome_iff_exists.1 (List.find?_isSome (p := fun z => p z.1).2 ⟨_, hmem, hi⟩)
  obtain ⟨j, rfl⟩ := mem_toList_zipIdx.1 (List.mem_of_find?_eq_some hz)
  exact ⟨j, List.find?_some (p := fun z : α × Nat => p z.1) hz, hz⟩

theorem any_entry : (v.toList.zipIdx.any fun z => p z.1) = true ↔ ∃ i : Fin n, p v[i] = true := by
  rw [List.any_eq_true]
  constructor
  · rintro ⟨z, hz, hp⟩
    obtain ⟨i, rfl⟩ := mem_toList_zipIdx.1 hz
    exact ⟨i, hp⟩
  · rintro ⟨i, hp⟩
    exact ⟨_, mem_toList_zipIdx.2 ⟨i, rfl⟩, hp⟩

end

/-! What a `bind` gives, the refusals in the order in which R240 lists them, the model's choice where several hold (log 19). -/

/-- What a `bind` asks for: the range widened to whole lines, for its object. -/
def bindFor (gw : Bool) (a : W64) (len : Nat) (obj : W64) : Bind :=
  { base := a.toNat / 128 * 128, len := ceilDiv (a.toNat + len) 128 * 128 - a.toNat / 128 * 128, w0 := (bindObj gw obj).1,
    w1 := obj }

/-- An entry of an overlapping range with another object. -/
def Bind.clashes (y : Bind) (o : Option Bind) : Bool :=
  match o with
  | some e => overlaps e.base (e.base + e.len) y.base (y.base + y.len) && !(decide (e.w0 = y.w0) && decide (e.w1 = y.w1))
  | none => false

theorem Bind.clashes_some {y e : Bind} : y.clashes (some e) = true ↔
    overlaps e.base (e.base + e.len) y.base (y.base + y.len) = true ∧ (e.w0 ≠ y.w0 ∨ e.w1 ≠ y.w1) := by
  simp only [Bind.clashes, Bool.and_eq_true, Bool.not_eq_true', Bool.and_eq_false_iff, decide_eq_false_iff_not, ne_eq]

/-- An empty entry of the bind table, for `y`. -/
def Crew.emptyEntry (c : Crew) (y : Bind) : W64 × Option (Nat × Bind) :=
  match c.bind.toList.zipIdx.find? fun z => z.1.isNone with
  | some z => (BitVec.ofNat 64 z.2, some (z.2, y))
  | none => (0x80000001, none)

/-- The entry of the bind table for `y`: one that holds it, or an empty one. -/
def Crew.bindEntry (c : Crew) (y : Bind) : W64 × Option (Nat × Bind) :=
  match c.bind.toList.zipIdx.find? fun z => decide (z.1 = some y) with
  | some z => (BitVec.ofNat 64 z.2, none)
  | none =>
    if c.bind.toList.zipIdx.any fun z => y.clashes z.1 then (0x80000002, none) else c.emptyEntry y

section
variable (c : Crew) {gw : Bool} {a obj : W64} {len : Nat}

theorem bindResult_of_empty (hlen : len = 0) : c.bindResult gw a len obj = (0x80000003, none) := if_pos hlen

theorem bindResult_of_invalid (hlen : len ≠ 0)
    (ho : if gw then obj.toNat % 8 ≠ 0 ∨ isCanon obj = false else c.sync ≤ obj.toNat) :
    c.bindResult gw a len obj = (0x80000004, none) := by
  refine (if_neg hlen).trans (if_pos ?_)
  cases gw with
  | false => exact decide_eq_true ho
  | true => simpa using ho

theorem bindResult_of_valid (hlen : len ≠ 0)
    (ho : if gw then obj.toNat % 8 = 0 ∧ isCanon obj = true else obj.toNat < c.sync) :
    c.bindResult gw a len obj = c.bindEntry (bindFor gw a len obj) := by
  refine (if_neg hlen).trans (if_neg ?_)
  cases gw with
  | false => simpa using ho
  | true => simpa using ho

end

section
variable {c : Crew} {y : Bind}

theorem bindEntry_of_held (hy : ∃ n : Fin 64, c.bind[n] = some y) :
    ∃ n : Fin 64, c.bind[n] = some y ∧ c.bindEntry y = (BitVec.ofNat 64 n.val, none) := by
  obtain ⟨n, hn⟩ := hy
  obtain ⟨m, hm, hfind⟩ := find_entry_of_exists (v := c.bind) (p := fun o => decide (o = some y)) ⟨n, decide_eq_true hn⟩
  exact ⟨m, of_decide_eq_true hm, by rw [Crew.bindEntry, hfind]⟩

variable (hnew : ∀ n : Fin 64, c.bind[n] ≠ some y)
include hnew

theorem bindEntry_of_new : c.bindEntry y =
    if c.bind.toList.zipIdx.any fun z => y.clashes z.1 then (0x80000002, none) else c.emptyEntry y := by
  rw [Crew.bindEntry, find_entry_eq_none (p := fun o => decide (o = some y)) fun n => decide_eq_false (hnew n)]

theorem bindEntry_of_clash (hclash : ∃ n : Fin 64, y.clashes c.bind[n] = true) : c.bindEntry y = (0x80000002, none) := by
  rw [bindEntry_of_new hnew, if_pos (any_entry.2 hclash)]

variable (hfit : ¬ ∃ n : Fin 64, y.clashes c.bind[n] = true)
include hfit

theorem bindEntry_of_full (hfull : ∀ n : Fin 64, c.bind[n] ≠ none) : c.bindEntry y = (0x80000001, none) := by
  rw [bindEntry_of_new hnew, if_neg (mt any_entry.1 hfit), Crew.emptyEntry,
    find_entry_eq_none (p := Option.isNone) fun n => Option.isNone_eq_false_iff.2 (Option.isSome_iff_ne_none.2 (hfull n))]

theorem bindEntry_of_room (hroom : ∃ n : Fin 64, c.bind[n] = none) :
    ∃ n : Fin 64, c.bind[n] = none ∧ c.bindEntry y = (BitVec.ofNat 64 n.val, some (n.val, y)) := by
  obtain ⟨n, hn⟩ := hroom
  obtain ⟨m, hm, hfind⟩ := find_entry_of_exists (v := c.bind) (p := Option.isNone) ⟨n, Option.isNone_iff_eq_none.2 hn⟩
  refine ⟨m, Option.isNone_iff_eq_none.1 hm, ?_⟩
  rw [bindEntry_of_new hnew, if_neg (mt any_entry.1 hfit), Crew.emptyEntry, hfind]

end

end Sys2Proof.Machine
end

section
/-!
The statements of spec/11_memory_instructions.md on prefetch, binding and fences.
-/

open Sys2Proof Sys2Proof.Machine

/-- Settles O29: `bind` acts in turn (`bind_inTurn`), `unbind` posts its results (`unbind_posts`), and the others end their
slot in the state of their effect. -/
theorem bindAndFenceInstructions : Obligations.BindAndFenceInstructions := by
  refine ⟨?pref, bind_inTurn, ?unbind, fun _ _ _ => rfl, fun _ _ _ => fence_acts, ?flush⟩
  case pref => rintro f s b h hclean _ rfl; exact pref_acts h hclean
  case unbind => exact fun _ _ _ h _ _ => unbind_posts h
  case flush =>
    refine fun f s b h => ⟨redFlush_acts_of_none_executing h, ?_⟩
    rintro hx _ rfl
    exact redFlush_acts_of_executing h hx

/-- Settles O30: a range or an object that is no good is refused first (`bindResult_of_…`), and the table decides the rest
(`bindEntry_of_…`); the order is the model's choice (log 19). -/
theorem bindResults : Obligations.BindResults := by
  rintro c gw a len obj _ rfl
  refine ⟨bindResult_of_empty c, bindResult_of_invalid c, fun hlen ho => ?valid⟩
  case valid =>
    rw [bindResult_of_valid c hlen ho]
    refine ⟨bindEntry_of_held, fun hnew => ⟨?clash, fun hfit => ?fit⟩⟩
    case clash =>
      rintro ⟨n, e, hn, hov, hobj⟩
      exact bindEntry_of_clash hnew ⟨n, hn ▸ Bind.clashes_some.2 ⟨hov, hobj⟩⟩
    case fit =>
      have hno : ¬ ∃ n : Fin 64, (bindFor gw a len obj).clashes c.bind[n] = true := by
        rintro ⟨n, hn⟩
        cases hc : c.bind[n] with
        | none => exact Bool.noConfusion ((congrArg _ hc).symm.trans hn)
        | some e =>
          obtain ⟨hov, hobj⟩ := Bind.clashes_some.1 ((congrArg _ hc).symm.trans hn)
          obtain ⟨h0, h1⟩ := hfit n e hc hov
          exact hobj.elim (· h0) (· h1)
      exact ⟨bindEntry_of_full hnew hno, bindEntry_of_room hnew hno⟩
end

section
/-!
Atomics: the requests to the home slice and the operations at the stash bank, for the executing threads in lane order (R245 to
R247).
-/

namespace Sys2Proof.Machine

section
variable (x : Slot)

/-- The result that an atomic of the lanes `m` enters (R245). -/
def atomPend (m : BitVec 32) : Pend :=
  { x.pend (if Ty.wide x.f.ty then 2 else 1) m m [] with joint := true }

/-- The requests of an atomic at the home slices. -/
def atomicSent (va : Fin 32 → W64) (op : Fin 32 → ReqOp) (m : BitVec 32) (s : State) : State :=
  forL (lanesOf m) (s.addPend (atomPend x m)) fun i t =>
    t.sendAtomic x i.val (mkReq t x.p x.sl x.cid x.co i.val (some s.nextId) x.asid (va i) (op i) 0 x.trpc false)

/-- An atomic at the stash bank: each lane at once, or when its mapped line is Valid (R247). -/
def atomicBanked (off : Fin 32 → Int) (op : Fin 32 → ReqOp) (m : BitVec 32) (s : State) : State :=
  forL (lanesOf m) (s.addPend (atomPend x m)) fun i => bankAtomic x s.nextId i.val (x.crew.base + (off i).toNat) (op i)

end

section
variable {i : Instr} {o : Op} {f : Fields} {s : State} {b : At} (chk : Slot → State → Fin 32 → Option (Cause × W64))
  (op : Slot → Fin 32 → ReqOp) (h : SlotReady o f s b)
  (hpass : ∀ l : Fin 32, (b.slot o f s).ex.getLsbD l = true → chk (b.slot o f s) s l = none)
include h hpass

theorem atomicSlot_posts (va : Slot → Fin 32 → W64)
    (he : exec i s = runSlot o f s fun x s => atomicSlot x (x.faults (chk x s)) (va x) (op x) s) :
    Posts i s (atomicSent (b.slot o f s) (va (b.slot o f s)) (op (b.slot o f s)) (b.slot o f s).ex s) (b.slot o f s)
      (Ty.wide f.ty) s.nextId :=
  entered_posts chk (fun x => Ty.wide x.f.ty) (fun x m s => atomicSent x (va x) (op x) m s) h he hpass
    (live_forL _ _ _ _ _ fun _ _ => live_sendAtomic ..)

theorem atomicStash_posts (off : Slot → Fin 32 → Int)
    (he : exec i s = runSlot o f s fun x s => atomicStash x (x.faults (chk x s)) (off x) (op x) s) :
    Posts i s (atomicBanked (b.slot o f s) (off (b.slot o f s)) (op (b.slot o f s)) (b.slot o f s).ex s) (b.slot o f s)
      (Ty.wide f.ty) s.nextId :=
  entered_posts chk (fun x => Ty.wide x.f.ty) (fun x m s => atomicBanked x (off x) (op x) m s) h he hpass
    (live_forL _ _ _ _ _ fun _ _ => live_bankAtomic ..)

end

section
variable (f : Fields) (x : Slot) (s : State) (i : Fin 32)

/-- What `cas` checks in a lane. -/
def casCheck : Option (Cause × W64) :=
  s.globalCheck x (x.a[i]).p ((x.a[i]).v.toNat : Int) (atomBytes f) true true false ((x.b[i]).p || (x.c[i]).p)

/-- What `atoms` checks in a lane. -/
def atomsCheck : Option (Cause × W64) :=
  s.stashCheck x ((x.a[i]).p || (x.b[i]).p) (x.stashOffset i) (atomBytes f) true true (x.c[i]).p

/-- What `cass` checks in a lane. -/
def cassCheck : Option (Cause × W64) :=
  s.stashCheck x (x.a[i]).p ((x.a[i]).lo.toNat : Int) (atomBytes f) true true ((x.b[i]).p || (x.c[i]).p)

/-- The address of a swap at the home slice. -/
def Slot.swapVa : W64 := (x.a[i]).v

/-- The offset of a swap at the stash bank. -/
def Slot.swapOff : Int := (x.a[i]).lo.toNat

/-- The operation of `atom` and `atoms` in a lane. -/
def opxOf : ReqOp := .atomic (f.mod.toNat % 8) f.m3 f.ty (x.c[i]).v

/-- The swap of `cas` and `cass` in a lane. -/
def swapOf : ReqOp := .cas (Ty.wide f.ty) (x.b[i]).v (x.c[i]).v

end

section
variable (f : Fields) (s : State)

/-- `atom` checks in a lane what `red` does. -/
theorem execAtom_eq : exec (.atom f) s = runSlot .atom f s fun x s =>
    atomicSlot x (x.faults (redCheck f x s)) x.globalVa (opxOf f x) s := rfl

theorem execCas_eq : exec (.cas f) s = runSlot .cas f s fun x s =>
    atomicSlot x (x.faults (casCheck f x s)) x.swapVa (swapOf f x) s := rfl

theorem execAtoms_eq : exec (.atoms f) s = runSlot .atoms f s fun x s =>
    atomicStash x (x.faults (atomsCheck f x s)) x.stashOffset (opxOf f x) s := rfl

theorem execCass_eq : exec (.cass f) s = runSlot .cass f s fun x s =>
    atomicStash x (x.faults (cassCheck f x s)) x.swapOff (swapOf f x) s := rfl

end

end Sys2Proof.Machine
end

section
/-!
The statement of spec/11_memory_instructions.md on atomics.
-/

open Sys2Proof Sys2Proof.Machine

/-- Settles O31: `atom` and `cas` send requests (`atomicSlot_posts`), `atoms` and `cass` act at the bank (`atomicStash_posts`). -/
theorem atomicInstructions : Obligations.AtomicInstructions := by
  refine ⟨?atom, ?cas, ?atoms, ?cass⟩
  case atom => exact fun f s _ h hpass => atomicSlot_posts (redCheck f) (opxOf f) h hpass Slot.globalVa (execAtom_eq f s)
  case cas => exact fun f s _ h hpass => atomicSlot_posts (casCheck f) (swapOf f) h hpass Slot.swapVa (execCas_eq f s)
  case atoms =>
    exact fun f s _ h hpass => atomicStash_posts (atomsCheck f) (opxOf f) h hpass Slot.stashOffset (execAtoms_eq f s)
  case cass => exact fun f s _ h hpass => atomicStash_posts (cassCheck f) (swapOf f) h hpass Slot.swapOff (execCass_eq f s)
end

section
/-!
The events of the host's side on each branch: BAR0 (R419, R420, R422 to R424), MSI-X (R427), TDISP (R420), measurements (R429),
host writes (R268) and host completions (R361, R421).
-/

namespace Sys2Proof.Machine

/-! Accesses through BAR0. -/

section
variable {s : State} {part : Nat} {f : Part → State}

theorem bar0_of_not_run (h : ∀ t, smGet s.parts part = some t → t.tdisp ≠ .run) : s.bar0 part f = s := by
  simp only [State.bar0]
  cases hp : smGet s.parts part with
  | none => rfl
  | some t => exact if_neg (h t hp)

theorem next_bar0_of_not_run (h : ∀ t, smGet s.parts part = some t → t.tdisp ≠ .run) :
    (.next (s.bar0 part f) : Host.Outcome State Fault Refusal) = .next s := congrArg _ (bar0_of_not_run h)

theorem bar0_of_run {t : Part} (h : smGet s.parts part = some t) (hr : t.tdisp = .run) : s.bar0 part f = f t := by
  simp only [State.bar0, h]
  exact if_pos hr

end

section
variable {s : State} {part n : Nat} {t : Part} (h : smGet s.parts part = some t) (hr : t.tdisp = .run)
include h hr

/-! QUEUE_ENABLE. -/

theorem queueEnable_of_no_queue {en : Bool} (hn : 68 ≤ n) : execQueueEnable part n en s = .next s :=
  congrArg _ ((bar0_of_run h hr).trans (if_pos hn))

section
variable (hn : n < 68)
include hn

theorem queueEnable_off :
    execQueueEnable part n false s = .next ((s.modQueue part n fun q => { q with en := false }).queueTo part n 3) :=
  congrArg _ ((bar0_of_run h hr).trans ((if_neg hn.not_ge).trans (if_pos rfl)))

variable {u : State} (hu : u = s.modQueue part n fun q => { q with en := true })
include hu

theorem queueEnable_of_live (hst : (u.queue part n).st ≠ 3) : execQueueEnable part n true s = .next u := by
  subst hu
  exact congrArg _ ((bar0_of_run h hr).trans ((if_neg hn.not_ge).trans (if_neg hst)))

theorem queueEnable_of_disabled (hst : (u.queue part n).st = 3) : execQueueEnable part n true s =
    .next ((u.modQueue part n fun q => if n ≤ 64 then { q with rp := q.wp } else q).queueTo part n 0) := by
  subst hu
  exact congrArg _ ((bar0_of_run h hr).trans ((if_neg hn.not_ge).trans (if_pos hst)))

/-- A host-produced queue that is enabled starts with no records (R423). -/
theorem queueEnable_of_disabled_produced (hst : (u.queue part n).st = 3) (hp : n ≤ 64) : execQueueEnable part n true s =
    .next ((u.modQueue part n fun q => { q with rp := q.wp }).queueTo part n 0) := by
  rw [queueEnable_of_disabled h hr hn hu hst]
  simp only [if_pos hp]

theorem queueEnable_of_disabled_consumed (hst : (u.queue part n).st = 3) (hp : 64 < n) : execQueueEnable part n true s =
    .next ((u.modQueue part n fun q => q).queueTo part n 0) := by
  rw [queueEnable_of_disabled h hr hn hu hst]
  simp only [if_neg hp.not_ge]

end

/-! QUEUE_RESET. -/

theorem queueReset_of_stopped (hn : n ≤ 64) (hst : (s.queue part n).st = 1 ∨ (s.queue part n).st = 2) :
    execQueueReset part n s = .next ((s.modQueue part n fun q => { q with rp := q.wp }).queueTo part n 0) :=
  congrArg _ ((bar0_of_run h hr).trans (if_pos (by simpa [hn] using hst)))

theorem queueReset_of_other (ho : 64 < n ∨ (s.queue part n).st = 0 ∨ (s.queue part n).st = 3) :
    execQueueReset part n s = .next s := by
  refine congrArg _ ((bar0_of_run h hr).trans (if_neg ?_))
  rcases ho with ho | ho | ho
  · simp [ho.not_ge]
  all_goals simp [ho]

/-! QUEUE_WP_WRITE and QUEUE_RP_WRITE. -/

theorem queueWpWrite_of_consumed {v : W32} (hn : 64 < n) : execQueueWpWrite part n v s = .next s :=
  congrArg _ ((bar0_of_run h hr).trans (if_pos hn))

theorem queueWpWrite_of_produced {v : W32} (hn : n ≤ 64) : execQueueWpWrite part n v s = .next ((s.modQueue part n fun q =>
    { q with wp := v, stampSince := if q.st = 2 then some s.time else q.stampSince }).overrun part n) :=
  congrArg _ ((bar0_of_run h hr).trans (if_neg hn.not_gt))

theorem queueRpWrite_of_consumed {v : W32} (hl : 65 ≤ n) (hn : n < 68) :
    execQueueRpWrite part n v s = .next (s.modQueue part n fun q => { q with rp := v }) :=
  congrArg _ ((bar0_of_run h hr).trans (if_pos (by simp [hl, hn])))

theorem queueRpWrite_of_other {v : W32} (ho : n < 65 ∨ 68 ≤ n) : execQueueRpWrite part n v s = .next s := by
  refine congrArg _ ((bar0_of_run h hr).trans (if_neg ?_))
  rcases ho with ho | ho
  · simp [ho.not_ge]
  · simp [ho.not_gt]

/-! REGISTER_WRITE and accesses to other offsets. -/

theorem registerWrite_of_no_queue {k : Nat} {v : W64} (hn : 68 ≤ n) : execRegisterWrite part n k v s = .next s :=
  congrArg _ ((bar0_of_run h hr).trans (if_neg hn.not_gt))

theorem registerWrite_of_queue {k : Nat} {v : W64} (hn : n < 68) :
    execRegisterWrite part n k v s = .next (s.modQueue part n fun q => q.write k v) :=
  congrArg _ ((bar0_of_run h hr).trans (if_pos hn))

theorem unlistedAccess_of_write (v : W64) : execBar0UnlistedAccess part n true v s = .next s :=
  congrArg _ (bar0_of_run h hr)

theorem unlistedAccess_of_read (v : W64) : execBar0UnlistedAccess part n false v s =
    .next { s with bar0Out := s.bar0Out ++ [(part, n, s.bar0Word part n)] } :=
  congrArg _ (bar0_of_run h hr)

end

theorem bar0Word_of_unlisted {s : State} {part off : Nat} (ho : 0x880 ≤ off) : s.bar0Word part off = 0 := if_pos ho

/-! Words of a queue block; a value outside a field's range leaves the field (log 29). -/

section
variable {q : Queue} {v : W64}

theorem queueWrite_base (he : q.en = false) (hv : v.toNat % 64 = 0) : q.write 0 v = { q with base := v } :=
  if_pos (by simp [he, hv])

theorem queueWrite_base_kept (h : q.en = true ∨ v.toNat % 64 ≠ 0) : q.write 0 v = q := by
  refine if_neg ?_
  rcases h with h | h
  all_goals simp [h]

theorem queueWrite_vec (he : q.en = true) (hv : fld v 27 16 < 8) :
    q.write 2 v = { q with vec := BitVec.ofNat 12 (fld v 27 16) } := by
  simp only [Queue.write, if_pos hv, he, Bool.not_true, Bool.false_and, Bool.false_eq_true, if_false]

theorem queueWrite_vec_size (he : q.en = false) (hv : fld v 27 16 < 8) (hl : 4 ≤ fld v 4 0) (hn : fld v 4 0 ≤ 20) :
    q.write 2 v = { q with vec := BitVec.ofNat 12 (fld v 27 16), log2n := BitVec.ofNat 5 (fld v 4 0) } := by
  simp only [Queue.write, if_pos hv, he, hl, hn, Bool.not_false, decide_true, Bool.and_self, if_true]

theorem queueWrite_of_other_word {k : Nat} (h0 : k ≠ 0) (h2 : k ≠ 2) : q.write k v = q := by
  unfold Queue.write
  split
  · contradiction
  · contradiction
  · rfl

end

/-! MSIX_UNMASK. -/

section
variable {s : State} {part n : Nat}

theorem msixUnmask_of_none (h : smGet s.parts part = none ∨ 8 ≤ n) : execMsixUnmask part n s = .next s := by
  cases hp : smGet s.parts part with
  | none => simp only [execMsixUnmask, hp]
  | some t =>
    have hn : 8 ≤ n := h.resolve_left (by simp [hp])
    simp only [execMsixUnmask, hp, if_pos hn]

variable {t : Part} (h : smGet s.parts part = some t) (hn : n < 8) {u : State}
  (hu : u = s.modPart part fun t => { t with msixMask := t.msixMask &&& ~~~BitVec.ofNat 8 (2 ^ n) })
include h hn hu

theorem msixUnmask_of_unsent (hk : t.msixPend.getLsbD n = false ∨ t.qst ≠ 0) : execMsixUnmask part n s = .next u := by
  subst hu
  simp only [execMsixUnmask, h, if_neg hn.not_ge]
  refine congrArg _ (if_neg ?_)
  rcases hk with hk | hk
  all_goals simp [hk]

theorem msixUnmask_of_sent (hp : t.msixPend.getLsbD n = true) (hq : t.qst = 0) : execMsixUnmask part n s =
    .next ({ u with msixOut := s.msixOut ++ [(part, n)] }.modPart part fun t =>
      { t with msixPend := t.msixPend &&& ~~~BitVec.ofNat 8 (2 ^ n) }) := by
  subst hu
  simp only [execMsixUnmask, h, if_neg hn.not_ge]
  exact congrArg _ (if_pos (by simp [hp, hq]))

end

/-! TDISP messages: a `stop` ends in CONFIG_UNLOCKED, and ERROR and RUN know no other message. -/

section
variable {m : Tdisp} (hm : m ≠ .stop)
include hm

theorem tdispMove_error : TdispSt.error.move m = .error := by
  cases m with
  | stop => exact absurd rfl hm
  | _ => rfl

theorem tdispMove_run : TdispSt.run.move m = .run := by
  cases m with
  | stop => exact absurd rfl hm
  | _ => rfl

end

theorem tdispMove_stop (x : TdispSt) : x.move .stop = .unlocked := by cases x <;> rfl

/-! SPDM_GET_MEASUREMENTS; no response at an index that is not listed (log 8). -/

section
variable {s : State} {part n : Nat} {l : List Byte}

theorem getMeasurements_of_no_part (h : smGet s.parts part = none) : execSpdmGetMeasurements part n l s = .next s := by
  simp only [execSpdmGetMeasurements, h]

variable {t : Part} (h : smGet s.parts part = some t)
include h

theorem getMeasurements_of_unlisted (hm : s.measurement part t n = none) :
    execSpdmGetMeasurements part n l s = .next s := by
  simp only [execSpdmGetMeasurements, h, hm]

theorem getMeasurements_of_listed {d : List Byte} (hm : s.measurement part t n = some d) :
    execSpdmGetMeasurements part n l s =
      .next { s with doeOut := s.doeOut ++ [(part, d ++ Config.identitySign (l ++ d))] } := by
  simp only [execSpdmGetMeasurements, h, hm]

end

section
variable {s : State} {tag : Nat} {t : Part}

/-- Measurement 8 is the digest of the report that index 0x80 gives whole. -/
theorem measurement_shape {d : List Byte} (h : s.measurement tag t 0x80 = some d) :
    s.measurement tag t 8 = some (sha384 d) := by
  cases h
  rfl

theorem measurement_unlisted {n : Nat} (hn : 11 < n) (hs : n ≠ 0x80) : s.measurement tag t n = none := by
  unfold State.measurement
  split
  case h_12 => contradiction
  case h_13 => rfl
  all_goals exact absurd hn (by decide)

end

/-! HOST_WRITE; a host write that waits holds the later ones, and W does not stop it (log 13). -/

section
variable {s : State} {part space : Nat} {a : W64} {l : List Byte}

theorem hostWrite_of_refused
    (h : 64 ≤ space ∨ isCanon a = false ∨ inHost a = true ∨ (smGet s.parts part).isNone = true) :
    execHostWrite part space a l s = .next s := by
  refine congrArg _ (if_pos ?_)
  rcases h with h | h | h | h
  all_goals simp [h]

theorem hostWrite_of_taken (hs : space < 64) (hc : isCanon a = true) (hh : inHost a = false)
    (hp : (smGet s.parts part).isNone = false) :
    execHostWrite part space a l s = .next (State.hostDrain (s.hostIn ++ [(part, space, a, l)]) s) :=
  congrArg _ (if_neg (by simp only [hc, hh, hp, decide_eq_false hs.not_ge]; decide))

variable {r : List (Nat × Nat × W64 × List Byte)}

theorem hostDrain_of_no_part (hp : (smGet s.parts part).isNone = true) :
    State.hostDrain ((part, space, a, l) :: r) s = State.hostDrain r s := by
  rw [State.hostDrain, if_pos hp]

variable (hp : (smGet s.parts part).isNone = false)
include hp

theorem hostDrain_of_done {t : State}
    (h : s.hostPut (asidOf part space) l (lineParts (l.length / 128 + 2) a.toNat l.length) = .done t) :
    State.hostDrain ((part, space, a, l) :: r) s = State.hostDrain r t := by
  simp only [State.hostDrain, hp, h, Bool.false_eq_true, if_false]

theorem hostDrain_of_fault {e : Cause}
    (h : s.hostPut (asidOf part space) l (lineParts (l.length / 128 + 2) a.toNat l.length) = .fault e) :
    State.hostDrain ((part, space, a, l) :: r) s = State.hostDrain r s := by
  simp only [State.hostDrain, hp, h, Bool.false_eq_true, if_false]

theorem hostDrain_of_wait
    (h : s.hostPut (asidOf part space) l (lineParts (l.length / 128 + 2) a.toNat l.length) = .wait) :
    State.hostDrain ((part, space, a, l) :: r) s = { s with hostIn := (part, space, a, l) :: r } := by
  simp only [State.hostDrain, hp, h, Bool.false_eq_true, if_false]

end

/-! HOST_COMPLETION. -/

section
variable {s : State} {id : Nat} {ok : Bool} {l : List Byte}

theorem hostCompletion_of_none (h : smGet s.hostReqs id = none) : execHostCompletion id ok l s = .next s := by
  simp only [execHostCompletion, h]

/-- The state in which a completion is taken: its port has been noted, and its access has left. -/
def State.hostTaken (s : State) (id : Nat) (h : HostReq) : State :=
  let w := s.noteWindow (5120 + h.port) (s.hostItems h.port)
  { w with hostReqs := smDel w.hostReqs id }

variable {h : HostReq} (hh : smGet s.hostReqs id = some h)
include hh

theorem hostCompletion_of_request {n : Nat} {r : Req} (hq : h.req = some n) (hr : smGet s.reqs n = some r) {v : State}
    (hv : v = (s.hostTaken id h).chargeFar r.cid r.co 1 h.port h.n) : execHostCompletion id ok l s =
      .next (State.endReq { v with reqs := smSet v.reqs n { r with data := hostBytes h.n l, pz := !ok } } n) := by
  subst hv
  have hr' : smGet (s.hostTaken id h).reqs n = some r := hr
  unfold State.hostTaken at hr' ⊢
  simp only [execHostCompletion, hh, hq, hr']

section
variable {p slot q : Nat} {j : CpJob} (hq : h.req = none) (hj : h.job = some (p, slot, q))
  (hs : smGet (s.cluster p).cp slot = some j)
include hq hj hs

/-- What a completion does for a copy job. -/
theorem hostCompletion_of_job : execHostCompletion id ok l s = .next (
    if j.st ≠ .running then s.hostTaken id h
    else if !ok then (s.hostTaken id h).cpEnd p slot j .failed cPagePerm
    else (s.hostTaken id h).modCluster p fun c =>
      { c with cp := smMod c.cp slot fun j => { j with read := smSet j.read q ((hostBytes h.n l).map fun x => (x, false)) } }) := by
  have hs' : smGet ((s.hostTaken id h).cluster p).cp slot = some j := hs
  unfold State.hostTaken at hs' ⊢
  simp only [execHostCompletion, hh, hq, hj, hs']

theorem hostCompletion_of_idle_job (hst : j.st ≠ .running) : execHostCompletion id ok l s = .next (s.hostTaken id h) := by
  rw [hostCompletion_of_job hh hq hj hs, if_pos hst]

variable (hst : j.st = .running)
include hst

theorem hostCompletion_of_failed (ho : ok = false) :
    execHostCompletion id ok l s = .next ((s.hostTaken id h).cpEnd p slot j .failed cPagePerm) := by
  subst ho
  rw [hostCompletion_of_job hh hq hj hs, if_neg (not_not_intro hst)]
  rfl

theorem hostCompletion_of_read (ho : ok = true) :
    execHostCompletion id ok l s = .next ((s.hostTaken id h).modCluster p fun c => { c with cp := smMod c.cp slot fun j =>
      { j with read := smSet j.read q ((hostBytes h.n l).map fun x => (x, false)) } }) := by
  subst ho
  rw [hostCompletion_of_job hh hq hj hs, if_neg (not_not_intro hst)]
  rfl

end

end

end Sys2Proof.Machine
end

section
/-!
The statement of spec/12_visibility_and_ordering.md on the host's side.
-/

open Sys2Proof Sys2Proof.Machine

/-- Settles O54. Each clause is the lemma of its event on the branch that its hypotheses choose. Choices of the model in it: no
response at an unlisted index (log 8), host writes that queue without a check of W (log 13), and queue blocks that are written
field by field (log 29). -/
theorem hostLinkEvents : Obligations.HostLinkEvents := by
  refine ⟨?outside, ?enable, ?reset, ?pointers, ?register, ?fields, ?unlisted, ?unmask, fun _ _ _ => rfl, ?moves, ?measure,
    ?indices, ?write, ?drain, ?completion⟩
  case outside =>
    exact fun _ _ _ _ _ _ _ _ h => ⟨next_bar0_of_not_run h, next_bar0_of_not_run h, next_bar0_of_not_run h,
      next_bar0_of_not_run h, next_bar0_of_not_run h, next_bar0_of_not_run h⟩
  case enable =>
    exact fun _ _ _ _ h hr => ⟨fun hn _ => queueEnable_of_no_queue h hr hn, fun hn => ⟨queueEnable_off h hr hn, fun _ hu =>
      ⟨queueEnable_of_live h hr hn hu, queueEnable_of_disabled_produced h hr hn hu,
        queueEnable_of_disabled_consumed h hr hn hu⟩⟩⟩
  case reset => exact fun _ _ _ _ h hr => ⟨queueReset_of_stopped h hr, queueReset_of_other h hr⟩
  case pointers =>
    exact fun _ _ _ _ _ h hr => ⟨queueWpWrite_of_consumed h hr, queueWpWrite_of_produced h hr, queueRpWrite_of_consumed h hr,
      queueRpWrite_of_other h hr⟩
  case register => exact fun _ _ _ _ _ _ h hr => ⟨registerWrite_of_no_queue h hr, registerWrite_of_queue h hr⟩
  case fields =>
    exact fun _ _ => ⟨queueWrite_base, queueWrite_base_kept, queueWrite_vec, queueWrite_vec_size,
      fun _ => queueWrite_of_other_word⟩
  case unlisted =>
    exact fun _ _ v _ _ h hr => ⟨unlistedAccess_of_write h hr v, unlistedAccess_of_read h hr v, bar0Word_of_unlisted⟩
  case unmask =>
    exact fun _ _ _ => ⟨msixUnmask_of_none, fun _ h hn _ hu => ⟨msixUnmask_of_unsent h hn hu, msixUnmask_of_sent h hn hu⟩⟩
  case moves => exact ⟨rfl, rfl, tdispMove_stop, fun _ => tdispMove_error, fun _ => tdispMove_run, rfl, rfl⟩
  case measure =>
    exact fun _ _ _ _ => ⟨getMeasurements_of_no_part, fun _ h =>
      ⟨getMeasurements_of_unlisted h, fun _ => getMeasurements_of_listed h⟩⟩
  case indices =>
    exact fun _ _ _ => ⟨rfl, rfl, rfl, rfl, rfl, fun _ => measurement_shape, rfl, fun _ => measurement_unlisted⟩
  case write => exact fun _ _ _ _ _ => ⟨hostWrite_of_refused, hostWrite_of_taken⟩
  case drain =>
    exact fun _ _ _ _ _ _ => ⟨rfl, hostDrain_of_no_part, fun hp =>
      ⟨fun _ => hostDrain_of_done hp, fun _ => hostDrain_of_fault hp, hostDrain_of_wait hp⟩⟩
  case completion =>
    refine fun id ok l s => ⟨hostCompletion_of_none, ?_⟩
    rintro h _ _ hh rfl rfl
    exact ⟨fun n r hq hr v hv => hostCompletion_of_request hh hq hr hv, fun p slot q j hq hj hs =>
      ⟨hostCompletion_of_idle_job hh hq hj hs, hostCompletion_of_failed hh hq hj hs, hostCompletion_of_read hh hq hj hs⟩⟩
end
section
/-!
Transfers and `dbnz`: the address of an absolute transfer as an exact whole number, and what becomes of the threads of `dbnz`
(R308, R310).
-/

namespace Sys2Proof.Machine

theorem exec_jmp (f : Fields) (s : State) : exec (.jmp f) s = runSlot .jmp f s fun x s =>
    transfer x (fun i => absFault x.a[i]) .none (fun i => toW64 ((x.a[i]).v.toNat : Int)) s := by
  simp only [toW64_toNat]
  rfl

theorem exec_callr (f : Fields) (s : State) : exec (.callr f) s = runSlot .callr f s fun x s =>
    transfer x (fun i => absFault x.a[i]) x.linkVal (fun i => toW64 ((x.a[i]).v.toNat : Int)) s := by
  simp only [toW64_toNat]
  rfl

theorem exec_ret (f : Fields) (s : State) : exec (.ret f) s = runSlot .ret f s fun x s =>
    transfer x (fun i => absFault x.a[i]) .none (fun i => toW64 ((x.a[i]).v.toNat : Int)) s := by
  simp only [toW64_toNat]
  rfl

section
variable {i : Instr} {o : Op} {f : Fields} {s : State} {b : At} {res : Slot → Placed} (h : SlotReady o f s b)
include h

theorem relative_transfer_traps (he : exec i s = runSlot o f s fun x s =>
      transfer x (fun i => relFault x.run.hpc x.a[i]) (res x) (fun i => toW64 (relTarget x.run.hpc x.a[i])) s) :
    ∃ t, exec i s = .next t ∧ ∀ (l : Fin 32) (c : Cause), (b.slot o f s).ex.getLsbD l = true →
      relFault b.r.hpc (b.slot o f s).a[l] = some c →
      HasThread t (b.slot o f s) l fun th => th = { b.h.threads[l] with
        trap := some (preciseTrap b.r c (faultAddr c (toW64 (relTarget b.r.hpc (b.slot o f s).a[l])))) } :=
  transfer_traps (flt := fun x i => relFault x.run.hpc x.a[i]) (t := fun x i => toW64 (relTarget x.run.hpc x.a[i])) h he

theorem absolute_transfer_traps (he : exec i s = runSlot o f s fun x s =>
      transfer x (fun i => absFault x.a[i]) (res x) (fun i => (x.a[i]).v) s) :
    ∃ t, exec i s = .next t ∧ ∀ (l : Fin 32) (c : Cause), (b.slot o f s).ex.getLsbD l = true →
      absFault (b.slot o f s).a[l] = some c →
      HasThread t (b.slot o f s) l fun th => th = { b.h.threads[l] with
        trap := some (preciseTrap b.r c (faultAddr c (((b.slot o f s).a[l]).v))) } :=
  transfer_traps (flt := fun x i => absFault x.a[i]) (t := fun x i => (x.a[i]).v) h he

end

/-- The check of `dbnz` in a lane: the displacement is judged only where the thread branches (R310). -/
def dbnzCheck (x : Slot) (i : Fin 32) : Option (Cause × W64) :=
  if (x.a[i]).p then some (cPoisonUse, 0)
  else if dbnzCount x.a[i] = 0 then none
  else atAddr (toW64 (relTarget x.run.hpc x.b[i])) (relFault x.run.hpc x.b[i])

/-- The counts of `dbnz` as a result. -/
def dbnzResult (x : Slot) : Placed := .now false (perLane fun i => Val.ok ((dbnzCount x.a[i]).setWidth 64))

/-- The lanes of `dbnz` that branch. -/
def dbnzBranches (x : Slot) : BitVec 32 :=
  laneFilter (x.done (x.faults (dbnzCheck x))) fun i => decide (dbnzCount x.a[i] ≠ 0)

theorem exec_dbnz (f : Fields) (s : State) : exec (.dbnz f) s = runSlot .dbnz f s fun x s =>
    (finishSlot x (x.faults (dbnzCheck x)) (dbnzResult x) s).goTo x (dbnzBranches x) fun i =>
      toW64 (relTarget x.run.hpc x.b[i]) := rfl

section
variable {s : State} {x : Slot} {c0 : Crew} {h0 : Cohort} {l : Fin 32}

theorem dbnzCheck_of_poison (hp : (x.a[l]).p = true) : dbnzCheck x l = some (cPoisonUse, 0) := if_pos hp

theorem dbnzCheck_of_clean (hp : (x.a[l]).p = false)
    (hb : dbnzCount x.a[l] ≠ 0 → (x.b[l]).p = false ∧ GoodTarget (relTarget x.run.hpc x.b[l])) : dbnzCheck x l = none := by
  unfold dbnzCheck
  rw [hp, if_neg Bool.false_ne_true]
  split
  · rfl
  · rename_i hn
    obtain ⟨hd, ht⟩ := hb hn
    rw [relFault_good (by rw [hd]; rfl) ht]
    rfl

theorem dbnzBranches_getLsbD : (dbnzBranches x).getLsbD l.val =
    ((x.ex.getLsbD l.val && (dbnzCheck x l).isNone) && decide (dbnzCount x.a[l] ≠ 0)) := by
  unfold dbnzBranches
  rw [laneFilter_getLsbD, faults_done]

/-- A thread that a check traps at the end of its slot. -/
theorem finishSlot_checked (h : Stands s x c0 h0) (g : Fin 32 → Option (Cause × W64)) (res : Placed)
    (hl : x.ex.getLsbD l.val = true) {c : Cause} {a : W64} (hg : g l = some (c, a)) :
    HasThread (finishSlot x (x.faults g) res s) x l fun th =>
      th = { h0.threads[l] with trap := some (preciseTrap x.run c a) } := by
  obtain ⟨hn, hcoh, hth⟩ := finishSlot_threads h (x.faults g) res
  have hb : (x.bad (x.faults g)).getLsbD l.val = true := by rw [faults_bad h.ex, hl, hg]; rfl
  exact ⟨hn, hcoh, by beta_reduce; rw [(hth l).1 hb, faults_trapAt hl hg]⟩

/-- A thread that passes its checks keeps its pc at the end of the slot. -/
theorem finishSlot_pc (h : Stands s x c0 h0) (g : Fin 32 → Option (Cause × W64)) (res : Placed)
    (hl : x.ex.getLsbD l.val = true) (hg : g l = none) :
    HasThread (finishSlot x (x.faults g) res s) x l fun th => th.pc = (h0.threads[l]).pc := by
  obtain ⟨hn, hcoh, hth⟩ := finishSlot_threads h (x.faults g) res
  have hb : (x.bad (x.faults g)).getLsbD l.val = false := by rw [faults_bad h.ex, hg]; simp
  exact ⟨hn, hcoh, by beta_reduce; rw [(hth l).2.1 hb (ex_lane h.ex hl), threadAfter_keeps]⟩

/-- A thread that does not execute keeps its pc, its registers and its predicates at the end of the slot. -/
theorem finishSlot_passive (h : Stands s x c0 h0) (g : Fin 32 → Option (Cause × W64)) (res : Placed)
    (hl : x.ex.getLsbD l.val = false) :
    HasThread (finishSlot x (x.faults g) res s) x l fun th =>
      th.pc = (h0.threads[l]).pc ∧ th.v = (h0.threads[l]).v ∧ th.k = (h0.threads[l]).k := by
  obtain ⟨hn, hcoh, hth⟩ := finishSlot_threads h (x.faults g) res
  have hb : (x.bad (x.faults g)).getLsbD l.val = false := by rw [faults_bad h.ex, hl]; rfl
  refine ⟨hn, hcoh, ?_⟩
  beta_reduce
  by_cases hla : x.lanes.getLsbD l.val = true
  · have hp : (x.without (x.bad (x.faults g))).ex.getLsbD l.val = false := by
      unfold Slot.without
      rw [BitVec.getLsbD_and, hl]
      rfl
    obtain ⟨hv, hk, _⟩ := threadAfter_passive (res := res) (th := h0.threads[l]) hp
    rw [(hth l).2.1 hb hla]
    exact ⟨by rw [threadAfter_keeps], hv, hk⟩
  · rw [(hth l).2.2 (Bool.eq_false_iff.2 hla)]
    exact ⟨rfl, rfl, rfl⟩

end

end Sys2Proof.Machine
end

section
/-!
The statements of spec/14_execution_and_control.md on transfers.
-/

open Sys2Proof Sys2Proof.Machine

/-- Settles O11: a transfer whose threads pass the checks ends its slot and sets their pcs (`transfers_plain`, `transfers_link`). -/
theorem transfersReachTargets : Obligations.TransfersReachTargets :=
  ⟨transfers_plain (fun _ _ => rfl) fun _ _ => relFault_good, transfers_plain exec_jmp fun _ _ => absFault_good,
    transfers_link (fun _ _ => rfl) fun _ _ => relFault_good, transfers_link exec_callr fun _ _ => absFault_good,
    transfers_plain exec_ret fun _ _ => absFault_good⟩

/-- Settles O12: a thread that fails the check takes its trap (`relative_transfer_traps`, `absolute_transfer_traps`), and the check
is read off in its order. The trap waits for the end of the clause (log 16), and `%taddr` is the address for causes found in it
(log 49): the model's choices. -/
theorem transferFaultsTrap : Obligations.TransferFaultsTrap :=
  ⟨fun _ _ _ h => relative_transfer_traps (res := fun _ => .none) h rfl,
    fun _ _ _ h => absolute_transfer_traps (res := fun _ => .none) h rfl,
    fun _ _ _ h => relative_transfer_traps (res := Slot.linkVal) h rfl,
    fun _ _ _ h => absolute_transfer_traps (res := Slot.linkVal) h rfl,
    fun _ _ _ h => absolute_transfer_traps (res := fun _ => .none) h rfl,
    fun h v => ⟨relFault_cases h v, absFault_cases v⟩⟩

/-- Settles O13: the three kinds of threads of `dbnz`, each as its slot's end leaves it (`finishSlot_delivered_rest`,
`finishSlot_checked`, `finishSlot_passive`) and as the branch then moves it. -/
theorem dbnzRule : Obligations.DbnzRule := by
  intro f s b h hg
  obtain ⟨x, hx⟩ : ∃ x, x = b.slot .dbnz f s := ⟨_, rfl⟩
  have hs : Stands s x b.c b.h := hx ▸ slot_stands h
  have hr : x.run = b.r := by rw [hx]; rfl
  have he := exec_dbnz f s
  rw [runSlot_ready h] at he
  rw [← hx, ← hr] at hg ⊢
  rw [← hx] at he
  refine ⟨_, he, fun l => ⟨fun hl hp => ?clean, fun hl hp => ?poisoned, fun hl => ?passive⟩⟩
  case clean =>
    have hc := dbnzCheck_of_clean hp (hg l hl hp)
    have hbad : x.bad (x.faults (dbnzCheck x)) = laneFilter x.ex fun i => (x.a[i]).p := by
      refine bad_of_poison hs.ex fun i hi => ?_
      cases hpi : (x.a[i]).p with
      | true => rw [dbnzCheck_of_poison hpi]; rfl
      | false => rw [dbnzCheck_of_clean hpi (hg i hi hpi)]; rfl
    refine ⟨?_, hasThread_modLanes (finishSlot_pc hs _ _ hl hc) fun th hth => ?_⟩
    · rw [← hbad]
      refine delivered_modLanes rfl rfl (fun _ _ => ⟨rfl, rfl, rfl⟩) (finishSlot_delivered_rest hs _ false
        (fun i => Val.ok ((dbnzCount x.a[i]).setWidth 64)) l hl ?_)
      rw [faults_bad hs.ex, hc]
      simp
    · rw [dbnzBranches_getLsbD, hl, hc]
      by_cases hn : dbnzCount x.a[l] ≠ 0
      · rw [if_pos (by simpa using hn)]
        exact (if_pos hn).symm
      · rw [if_neg (by simpa using hn)]
        exact hth.trans (if_neg hn).symm
  case poisoned =>
    have hc := dbnzCheck_of_poison hp
    refine hasThread_modLanes (finishSlot_checked hs _ _ hl hc) fun th hth => ?_
    rwa [dbnzBranches_getLsbD, hc, if_neg (by simp)]
  case passive =>
    refine hasThread_modLanes (finishSlot_passive hs _ _ hl) fun th hth => ?_
    rwa [dbnzBranches_getLsbD, hl, if_neg (by simp)]

end

section
/-!
Rejoining, exit, holds and regions: instructions whose effect comes after the end of their slot (R311 to R319), the release of a
join, the close of a region, and CWAIT_RESUME (R325).
-/

namespace Sys2Proof.Machine

/-- An instruction whose effect `g` comes after the end of its slot completes with it. -/
theorem effect_after_slot {i : Instr} {o : Op} {f : Fields} {s : State} {b : At} {g : Slot → State → State} (h : SlotReady o f s b)
    (he : exec i s = runSlot o f s fun x s => g x (finishSlot x [] .none s)) :
    ∃ u, exec i s = .next (g (b.slot o f s) u) ∧ RegFrame s u (b.slot o f s) false := by
  rw [runSlot_ready h] at he
  exact ⟨_, he, finishSlot_frame (slot_stands h) .none⟩

theorem checkJoin_of_cohort {s : State} {cid co : Nat} {h : Cohort} (hh : s.cohort? cid co = some h) (n : Nat) :
    s.checkJoin cid co n =
      if joinArr (h.j[n]?.getD 0) ≠ 0 ∧ joinArr (h.j[n]?.getD 0) = joinEnr (h.j[n]?.getD 0) then
        ({ s with nextId := s.nextId + 1 }.setJoin cid co n 0 0).modLanes cid co (joinArr (h.j[n]?.getD 0)) fun _ th =>
          { th with holds := th.holds.filter (· ≠ Hold.join n), grp := s.nextId + 1 }
      else s := by
  simp only [State.checkJoin, hh]
  rfl

theorem tileWidthOk_of_mem {w : Nat} (h : w ∈ [2, 4, 8, 16, 32]) : tileWidthOk w = true := List.contains_iff_mem.2 h

theorem tileSet_sets {f : Fields} {s : State} {b : At} (h : SlotReady .tileSet f s b) {a : Val}
    (ha : (b.slot .tileSet f s).uni (b.slot .tileSet f s).a = a) (hp : a.p = false) (hw : a.lo.toNat ∈ [2, 4, 8, 16, 32]) :
    ∃ u, exec (.tileSet f) s = .next (u.modCohort b.r.cid b.r.co fun h => { h with tile := a.lo.toNat }) ∧
      RegFrame s u (b.slot .tileSet f s) false := by
  subst ha
  have hrun : exec (.tileSet f) s = _ := runSlot_ready h _
  simp only [hp, Bool.false_eq_true, if_false, tileWidthOk_of_mem hw, if_true, bundleFault_none, List.isEmpty_nil] at hrun
  exact ⟨_, hrun, finishSlot_frame (slot_stands h) .none⟩

/-- The hold that `fwait` gives a thread (R318). -/
def flagHold (f : Fields) (x : Slot) (l : Fin 32) (th : Thread) : Thread :=
  if (x.a[l]).v.extractLsb' 0 12 = 0 then th
  else { th with holds := .flags ((x.a[l]).v.extractLsb' 0 12) (f.mod.getLsbD 0) :: th.holds }

theorem fwait_holds {f : Fields} {s : State} {b : At} (h : SlotReady .fwait f s b)
    (hp : ∀ l : Fin 32, (b.slot .fwait f s).ex.getLsbD l = true → ((b.slot .fwait f s).a[l]).p = false) :
    Acts (.fwait f) s (s.modLanes b.r.cid b.r.co (b.slot .fwait f s).ex (flagHold f (b.slot .fwait f s))) (b.slot .fwait f s) := by
  have hf : (b.slot .fwait f s).faults (fun i => if ((b.slot .fwait f s).a[i]).p then some (cPoisonUse, 0) else none) = [] :=
    slot_faults_none fun l hl => by rw [hp l hl]; rfl
  have he : exec (.fwait f) s = runSlot .fwait f s fun x s =>
      finishSlot x (x.faults fun i => if (x.a[i]).p then some (cPoisonUse, 0) else none) .none
        (s.slotLanes x (x.done (x.faults fun i => if (x.a[i]).p then some (cPoisonUse, 0) else none)) (flagHold f x)) := rfl
  exact slot_acts h he (by rw [hf, done_nil]; rfl) (stands_live h (live_modLanes ..))

theorem cwait_holds {f : Fields} {s : State} {b : At} (h : SlotReady .cwait f s b) :
    Acts (.cwait f) s (s.modLanes b.r.cid b.r.co (b.slot .cwait f s).ex fun _ th =>
      { th with holds := .cwait :: th.holds.filter (· ≠ Hold.cwait) }) (b.slot .cwait f s) :=
  slot_acts h rfl rfl (stands_live h (live_modLanes ..))

/-! CWAIT_RESUME. -/

section
variable {cid : Nat} {s : State} {c : Crew} {t : Part} (hc : smGet s.crews cid = some c) (ht : smGet s.parts c.part = some t)
include hc ht

/-- What keeps the crew as it is. -/
theorem cwaitResume_of_not_waiting (hn : c.st ≠ .running ∨ c.stopping.isSome = true ∨ t.qst ≠ 0 ∨ t.reshape.isSome = true ∨
    c.allWaiting = false ∨ s.idleCrew cid c = false) : execCwaitResume cid s = .next s := by
  have hb : (decide (c.st ≠ .running) || c.stopping.isSome || decide (t.qst ≠ 0) || t.reshape.isSome || !c.allWaiting ||
      !s.idleCrew cid c) = true := by
    simpa only [Bool.or_eq_true, decide_eq_true_eq, Bool.not_eq_true', or_assoc] using hn
  simp only [execCwaitResume, hc, ht, if_pos hb]

variable (hr : c.st = .running) (hs : c.stopping = none) (hq : t.qst = 0) (hrs : t.reshape = none) (hw : c.allWaiting = true)
  (hi : s.idleCrew cid c = true)
include hr hs hq hrs hw hi

theorem cwaitResume_of_waiting : execCwaitResume cid s = .next (
    if c.leaving.isSome then
      if s.leaveReady cid then ((s.saveCrew cid .suspended).noteFreed c).wakeSuspended cid else s.stepLeave cid
    else if c.children.isEmpty then s.releaseWaiting cid
    else s.beginLeave cid .save) := by
  simp only [execCwaitResume, hc, ht]
  rw [if_neg (by simp [hr, hs, hq, hrs, hw, hi])]

theorem cwaitResume_of_no_child (hl : c.leaving = none) (hk : c.children = []) :
    execCwaitResume cid s = .next (s.releaseWaiting cid) := by
  rw [cwaitResume_of_waiting hc ht hr hs hq hrs hw hi, hl, hk]
  rfl

theorem cwaitResume_of_child (hl : c.leaving = none) (hk : c.children ≠ []) :
    execCwaitResume cid s = .next (s.beginLeave cid .save) := by
  rw [cwaitResume_of_waiting hc ht hr hs hq hrs hw hi, hl, if_neg (by simp), if_neg (by rwa [List.isEmpty_iff])]

variable (hl : c.leaving ≠ none)
include hl

theorem cwaitResume_of_draining (hy : s.leaveReady cid = false) : execCwaitResume cid s = .next (s.stepLeave cid) := by
  rw [cwaitResume_of_waiting hc ht hr hs hq hrs hw hi, if_pos (Option.isSome_iff_ne_none.2 hl), hy]
  rfl

theorem cwaitResume_of_drained (hy : s.leaveReady cid = true) : execCwaitResume cid s = .next
    (((s.saveCrew cid .suspended).noteFreed c).wakeSuspended cid) := by
  rw [cwaitResume_of_waiting hc ht hr hs hq hrs hw hi, if_pos (Option.isSome_iff_ne_none.2 hl), hy]
  rfl

end

/-! Regions. -/

section
variable {s : State} {cid co : Nat} {own : Option Nat} {c : Crew} {h : Cohort} (hc : smGet s.crews cid = some c)
  (hh : s.cohort? cid co = some h) (ho : h.rgn.opened = true)
include hc hh ho

theorem closeDecision_of_waiting (hw : s.undelivered cid co h.rgn.first own h = true ∨ (s.cluster c.p).suspect = true) :
    s.closeDecision cid co own = .wait := by
  simp only [State.closeDecision, hc, hh, ho, Bool.not_true, Bool.false_eq_true, if_false]
  rw [if_pos (by simpa using hw)]

theorem closeDecision_of_settled (hu : s.undelivered cid co h.rgn.first own h = false) (hs : (s.cluster c.p).suspect = false) :
    s.closeDecision cid co own = if h.rgn.suspect = true ∨ Config.checkFails s.tick = true then .restart else .commit := by
  simp only [State.closeDecision, hc, hh, ho, hu, hs, Bool.not_true, Bool.or_self, Bool.false_eq_true, if_false, Bool.or_eq_true]

end

section
variable {i : Instr} {o : Op} {f : Fields} {s : State} {b : At} {g : Slot → State → State} (h : SlotReady o f s b)
  (he : exec i s = runSlot o f s fun x s =>
    match s.closeDecision x.cid x.co (some x.run.tok) with
    | .wait => s.park x.k x.cid x.co { x.run with lanes := x.lanes }
    | .restart => s.suspectRestart x.cid x.co
    | .commit => g x (finishSlot x [] .none (s.commitRegion x.cid x.co false)))
include h he

/-- `rgn.open` and `rgn.close`: the bundle waits parked, the region restarts, or it commits and `g` follows the slot's end. -/
theorem closes_region :
    (s.closeDecision b.r.cid b.r.co (some b.r.tok) = .wait → exec i s = .next (s.park b.k b.r.cid b.r.co b.r)) ∧
    (s.closeDecision b.r.cid b.r.co (some b.r.tok) = .restart → exec i s = .next (s.suspectRestart b.r.cid b.r.co)) ∧
    (s.closeDecision b.r.cid b.r.co (some b.r.tok) = .commit →
      ∃ u, exec i s = .next (g (b.slot o f s) u) ∧ RegFrame (s.commitRegion b.r.cid b.r.co false) u (b.slot o f s) false) := by
  rw [runSlot_ready h] at he
  simp only [slot_cid, slot_co, slot_run, slot_k, slot_lanes] at he
  refine ⟨fun hd => ?_, fun hd => ?_, fun hd => ?_⟩
  · rw [he, hd]
  · rw [he, hd]
  · rw [hd] at he
    obtain ⟨_, _, hst⟩ := stands_live h (live_commitRegion s b.r.cid b.r.co false b.r.cid b.r.co)
    exact ⟨_, he, finishSlot_frame hst .none⟩

end

end Sys2Proof.Machine
end

section
/-!
Traps: the threads that `trap` and `brkpt` stop, the deadline comparators, the return from a handler, and the entry of a trap (R145,
R320 to R322, R378).
-/

namespace Sys2Proof.Machine

/-- An instruction by which each executing thread takes a trap of its own: the others take none. -/
theorem takes_traps {i : Instr} {o : Op} {f : Fields} {s : State} {b : At} {t : Slot → Fin 32 → TrapRec} (h : SlotReady o f s b)
    (he : exec i s = runSlot o f s fun x s => finishSlot x ((lanesOf x.ex).map fun i => (i.val, t x i)) .none s) :
    ∃ u, exec i s = .next u ∧ ∀ l : Fin 32,
      ((b.slot o f s).ex.getLsbD l = true → HasThread u (b.slot o f s) l fun th =>
        th = { b.h.threads[l] with trap := some (t (b.slot o f s) l) }) ∧
      ((b.slot o f s).ex.getLsbD l = false → HasThread u (b.slot o f s) l fun th => th.trap = (b.h.threads[l]).trap) := by
  rw [runSlot_ready h] at he
  exact ⟨_, he, fun l => ⟨lanes_trap (slot_stands h) _ _ l, lanes_pass (slot_stands h) _ _ l⟩⟩

theorem trap_takes {f : Fields} {s : State} {b : At} (h : SlotReady .trap f s b) :
    ∃ u, exec (.trap f) s = .next u ∧ ∀ l : Fin 32,
      ((b.slot .trap f s).ex.getLsbD l = true → HasThread u (b.slot .trap f s) l fun th =>
        th = { b.h.threads[l] with trap := some (softTrap (b.slot .trap f s) cTrapInstr (b.slot .trap f s).a[l] b.r.next 0) }) ∧
      ((b.slot .trap f s).ex.getLsbD l = false → HasThread u (b.slot .trap f s) l fun th => th.trap = (b.h.threads[l]).trap) :=
  takes_traps (t := fun x l => softTrap x cTrapInstr x.a[l] x.run.next 0) h rfl

/-- Where a thread that `brkpt` stops resumes (R321). -/
def Slot.afterPlace (x : Slot) : W64 × Nat := if x.last then (x.run.next, 0) else (x.run.hpc, x.run.slot + slotLen x.f)

theorem brkpt_takes {f : Fields} {s : State} {b : At} (h : SlotReady .brkpt f s b) :
    ∃ u, exec (.brkpt f) s = .next u ∧ ∀ l : Fin 32,
      ((b.slot .brkpt f s).ex.getLsbD l = true → HasThread u (b.slot .brkpt f s) l fun th =>
        th = { b.h.threads[l] with trap := some (softTrap (b.slot .brkpt f s) cBreakpoint (b.slot .brkpt f s).a[l]
          (b.slot .brkpt f s).afterPlace.1 (b.slot .brkpt f s).afterPlace.2) }) ∧
      ((b.slot .brkpt f s).ex.getLsbD l = false → HasThread u (b.slot .brkpt f s) l fun th =>
        th.trap = (b.h.threads[l]).trap) :=
  takes_traps (t := fun x l => softTrap x cBreakpoint x.a[l] x.afterPlace.1 x.afterPlace.2) h rfl

/-! Deadlines. -/

section
variable {cid i : Nat} {s : State} {c : Crew} (hc : smGet s.crews cid = some c)
include hc

theorem deadline_of_not_due (hn : (c.dline[i]?.getD 0).getLsbD 63 = false ∨ s.time < fld (c.dline[i]?.getD 0) 62 0) :
    execDeadline cid i s = .next s := by
  simp only [execDeadline, hc]
  rw [if_pos (by simpa using hn)]

theorem deadline_of_due {d : Nat} (hd : d = fld (c.dline[i]?.getD 0) 62 0) (ha : (c.dline[i]?.getD 0).getLsbD 63 = true)
    (ht : d ≤ s.time) {u : State} (hu : u = s.modCrew cid fun c => { c with
      dline := c.dline.setIfInBounds i (BitVec.ofNat 64 d), dlstat := c.dlstat ||| BitVec.ofNat 4 (2 ^ i) }) :
    execDeadline cid i s = .next (match c.firstLive with
      | some (co, lane) => u.dueTrap cid co lane (deadlineTrap i d)
      | none => u) := by
  subst hd hu
  have hb : (!(c.dline[i]?.getD 0).getLsbD 63 || decide (s.time < fld (c.dline[i]?.getD 0) 62 0)) = false := by
    rw [ha, decide_eq_false (Nat.not_lt.2 ht)]
    rfl
  simp only [execDeadline, hc]
  exact congrArg _ (if_neg (by rw [hb]; exact Bool.false_ne_true))

end

/-! The return from a trap. -/

/-- The check of `trapret` in a lane (R322). -/
def trapretCheck (f : Fields) (x : Slot) (i : Fin 32) : Option (Cause × W64) :=
  if !(x.coh.threads[i]).inHandler then some (cIllegalOpcode, 0)
  else if decide (f.a.sel ≠ .none) then atAddr (x.a[i]).v (absFault x.a[i])
  else none

/-- What `trapret` makes of a thread (R322). -/
def trapretThread (f : Fields) (x : Slot) (i : Fin 32) (th : Thread) : Thread :=
  leaveHandler (if decide (f.a.sel ≠ .none) then some (x.a[i]).v else none) th

theorem exec_trapret (f : Fields) (s : State) : exec (.trapret f) s = runSlot .trapret f s fun x s =>
    (finishSlot x (x.faults (trapretCheck f x)) .none s).modLanes x.cid x.co (x.done (x.faults (trapretCheck f x)))
      (trapretThread f x) := rfl

theorem trapretCheck_of_good {f : Fields} {x : Slot} {i : Fin 32} (hh : (x.coh.threads[i]).inHandler = true)
    (hg : f.a.sel ≠ .none → (x.a[i]).p = false ∧ GoodTarget ((x.a[i]).v.toNat : Int)) : trapretCheck f x i = none := by
  unfold trapretCheck
  rw [hh, if_neg (by simp)]
  split
  · rename_i hs
    obtain ⟨hp, ht⟩ := hg (of_decide_eq_true hs)
    rw [absFault_good (by rw [hp]; rfl) ht]
    rfl
  · rfl

theorem trapretCheck_of_outside {f : Fields} {x : Slot} {i : Fin 32} (hh : (x.coh.threads[i]).inHandler = false) :
    trapretCheck f x i = some (cIllegalOpcode, 0) := by
  rw [trapretCheck, hh]
  rfl

theorem trapretThread_eq (f : Fields) (x : Slot) : trapretThread f x = fun i th =>
    if f.a.sel = .none then
      { th with q := th.aside, aside := [], inHandler := false, pc := th.rpc, slot := th.rslot,
                resumed := th.rskip || decide (0 < th.rslot), bpSkip := th.rskip }
    else { th with q := th.aside, aside := [], inHandler := false, pc := (x.a[i]).v, slot := 0, resumed := false,
                   bpSkip := false } := by
  funext i th
  unfold trapretThread
  by_cases hs : f.a.sel = .none
  · rw [if_pos hs, if_neg (by simpa using hs)]
    rfl
  · rw [if_neg hs, if_pos (by simpa using hs)]
    rfl

theorem trapret_returns {f : Fields} {s : State} {b : At} (h : SlotReady .trapret f s b)
    (hg : ∀ l : Fin 32, (b.slot .trapret f s).ex.getLsbD l = true → (b.h.threads[l]).inHandler = true ∧
      (f.a.sel ≠ .none → ((b.slot .trapret f s).a[l]).p = false ∧
        GoodTarget (((b.slot .trapret f s).a[l]).v.toNat : Int))) :
    ∃ u, exec (.trapret f) s = .next (u.modLanes b.r.cid b.r.co (b.slot .trapret f s).ex (trapretThread f (b.slot .trapret f s))) ∧
      RegFrame s u (b.slot .trapret f s) false := by
  have hf : (b.slot .trapret f s).faults (trapretCheck f (b.slot .trapret f s)) = [] := slot_faults_none fun l hl => by
    obtain ⟨hh, ht⟩ := hg l hl
    exact trapretCheck_of_good hh ht
  refine ⟨_, ?_, finishSlot_frame (slot_stands h) .none⟩
  rw [exec_trapret, runSlot_ready h, hf, done_nil]
  rfl

/-! The entry of a trap. -/

section
variable {s : State} {cid co : Nat} {l : Fin 32} {c : Crew} {h : Cohort} (hc : smGet s.crews cid = some c)
  (hh : s.cohort? cid co = some h)

theorem thread_of_cohort (hh : s.cohort? cid co = some h) : s.thread? cid co l.val = some h.threads[l] := by
  simp only [State.thread?, hh, Option.bind_some]
  exact Vector.getElem?_eq_getElem l.isLt

include hc hh

theorem takeTrap_of_handler (t : TrapRec) (hn : (h.threads[l]).inHandler = false) (hr : c.trph ≠ 0) :
    s.takeTrap cid co l.val t = s.modThread cid co l.val (enterHandler c.trph t) := by
  simp only [State.takeTrap, hc, thread_of_cohort hh, hn, Bool.false_eq_true, if_false, if_neg hr]

theorem takeTrap_in_handler (t : TrapRec) (hn : (h.threads[l]).inHandler = true) :
    s.takeTrap cid co l.val t = (s.fatalWith cid { trapRecord co l.val t with
      kind := 1, cause := cTrapInHandler, inner := t.cause }).modThread cid co l.val fun th => { th with trap := none } := by
  simp only [State.takeTrap, hc, thread_of_cohort hh, hn, if_true]
  rfl

theorem takeTrap_of_no_handler (t : TrapRec) (hn : (h.threads[l]).inHandler = false) (hr : c.trph = 0) :
    s.takeTrap cid co l.val t = (s.fatalWith cid (trapRecord co l.val t)).modThread cid co l.val fun th =>
      { th with trap := none } := by
  simp only [State.takeTrap, hc, thread_of_cohort hh, hn, Bool.false_eq_true, if_false, if_pos hr]
  rfl

end

/-- A change of one thread: that thread as changed, the others as they were. -/
theorem modThread_threads {s : State} {cid co : Nat} {h : Cohort} (hh : s.cohort? cid co = some h) (l : Fin 32)
    (f : Thread → Thread) : ∃ hn, (s.modThread cid co l.val f).cohort? cid co = some hn ∧ hn.threads[l] = f h.threads[l] ∧
      ∀ j : Fin 32, j ≠ l → hn.threads[j] = h.threads[j] := by
  obtain ⟨hn, hcoh, hth, _⟩ := modLanes_thread hh (laneBit l.val) fun _ => f
  refine ⟨hn, hcoh, ?_, fun j hj => ?_⟩
  · rw [hth, laneBit_getLsbD, if_pos (by simp)]
  · rw [hth, laneBit_getLsbD, if_neg (by simpa using fun e => hj (Fin.ext e.symm))]

end Sys2Proof.Machine
end

section
/-!
The statements of spec/14_execution_and_control.md on joins, holds, regions and traps.
-/

open Sys2Proof Sys2Proof.Machine

/-- Settles O14: each instruction writes its register after the slot (`effect_after_slot`), and a release is an equation
(`checkJoin_of_cohort`). -/
theorem rejoinInstructions : Obligations.RejoinInstructions :=
  ⟨fun f _ _ h => effect_after_slot (g := fun x s => s.setJoin x.cid x.co f.mod.toNat (joinArr (x.coh.j[f.mod.toNat]?.getD 0))
      (joinEnr (x.coh.j[f.mod.toNat]?.getD 0) ||| x.ex)) h rfl,
    fun f _ _ h => effect_after_slot (g := fun x s => ((s.setJoin x.cid x.co f.mod.toNat
      (joinArr (x.coh.j[f.mod.toNat]?.getD 0) ||| (x.ex &&& joinEnr (x.coh.j[f.mod.toNat]?.getD 0)))
      (joinEnr (x.coh.j[f.mod.toNat]?.getD 0))).modLanes x.cid x.co (x.ex &&& joinEnr (x.coh.j[f.mod.toNat]?.getD 0)) fun _ th =>
        { th with holds := .join f.mod.toNat :: th.holds.filter (· ≠ Hold.join f.mod.toNat) }).checkJoin x.cid x.co f.mod.toNat)
      h rfl,
    fun f _ _ h => effect_after_slot (g := fun x s => (s.setJoin x.cid x.co f.mod.toNat
      (joinArr (x.coh.j[f.mod.toNat]?.getD 0)) (joinEnr (x.coh.j[f.mod.toNat]?.getD 0) &&& ~~~x.ex)).checkJoin x.cid x.co
        f.mod.toNat) h rfl,
    fun _ _ _ n _ hh => checkJoin_of_cohort hh n⟩

/-- Settles O15: `exit`, `nop` and `yield` act after the slot (`effect_after_slot`), `fwait` and `cwait` before its end, and
CWAIT_RESUME is an equation for each state of the crew (`cwaitResume_of_…`). -/
theorem controlInstructions : Obligations.ControlInstructions := by
  refine ⟨⟨?exit, ?nop, ?yield, ?tile, fun _ _ _ => fwait_holds, fun _ _ _ => cwait_holds⟩, fun cid s c t hc ht =>
    ⟨cwaitResume_of_not_waiting hc ht, fun hr hs hq hrs hw hi => ⟨cwaitResume_of_no_child hc ht hr hs hq hrs hw hi,
      cwaitResume_of_child hc ht hr hs hq hrs hw hi, cwaitResume_of_draining hc ht hr hs hq hrs hw hi,
      fun hl => cwaitResume_of_drained hc ht hr hs hq hrs hw hi hl⟩⟩⟩
  case exit =>
    exact fun _ _ _ h => effect_after_slot (g := fun x s =>
      ((s.modLanes x.cid x.co x.ex fun _ th => th.end).leaveJoins x.cid x.co x.ex).gbarSettle x.crew.grid) h rfl
  case nop => exact fun _ _ _ h => effect_after_slot (g := fun _ s => s) h rfl
  case yield =>
    exact fun _ _ _ h => effect_after_slot (g := fun x s => s.modRun x.k fun r => { r with yld := r.yld || decide (x.ex ≠ 0) })
      h rfl
  case tile => exact fun f s b h ⟨hp, hw⟩ => tileSet_sets h rfl hp hw

/-- Settles O16: both instructions decide the close alike (`closes_region`); what follows the slot's end is a region of its own
(log 17, the model's choice). -/
theorem regionInstructions : Obligations.RegionInstructions := by
  refine ⟨fun f s b h => ?opens, fun f s b h => ?closes, fun x m => ⟨rfl, rfl⟩, fun s cid co own c h hc hh =>
    ⟨closeDecision_closed hh, closeDecision_of_waiting hc hh, closeDecision_of_settled hc hh⟩⟩
  case opens =>
    exact closes_region (g := fun x s => s.openRegion x.cid x.co true (x.openingAfter (if x.last then 0 else x.lanes))) h rfl
  case closes =>
    exact closes_region (g := fun x s =>
      if x.last then s.modCohort x.cid x.co fun h => { h with rgn := { h.rgn with reopen := false } }
      else (s.modCohort x.cid x.co fun h => { h with rgn := { h.rgn with reopen := false } }).openRegion x.cid x.co false
        (x.openingAfter x.lanes)) h rfl

/-- Settles O17: the trap of each executing thread is a record whose fields are read off (`takes_traps`); it waits for the end of
the clause, the model's choice (log 16). A comparator fires or does not (`deadline_of_…`). -/
theorem softwareTraps : Obligations.SoftwareTraps := by
  refine ⟨⟨fun f s b h => ?trap, fun f s b h => ?brkpt⟩, fun cid i s c hc =>
    ⟨deadline_of_not_due hc, fun d hd ha ht u hu => ?fires⟩⟩
  case trap =>
    obtain ⟨t, he, hl⟩ := trap_takes h
    exact ⟨t, he, fun l => ⟨fun hx => hasThread_mono ((hl l).1 hx) fun th e => ⟨_, e, rfl, rfl, rfl, rfl, rfl, rfl⟩, (hl l).2⟩⟩
  case brkpt =>
    obtain ⟨t, he, hl⟩ := brkpt_takes h
    exact ⟨t, he, fun l => ⟨fun hx => hasThread_mono ((hl l).1 hx) fun th e => ⟨_, e, rfl, rfl, rfl, rfl, rfl⟩, (hl l).2⟩⟩
  case fires =>
    have hf := deadline_of_due hc hd ha ht hu
    exact ⟨fun hn => by rw [hn] at hf; exact hf, fun co lane hn => by rw [hn] at hf; exact hf⟩

/-- Settles O18: a thread in its handler passes the check and is restored (`trapret_returns`), one outside is trapped by it
(`check_traps`). -/
theorem trapReturn : Obligations.TrapReturn := by
  refine ⟨fun f s b h hg => ?returns, fun f s b h => ?outside⟩
  case returns =>
    obtain ⟨u, he, hfr⟩ := trapret_returns h hg
    rw [trapretThread_eq] at he
    exact ⟨u, he, hfr⟩
  case outside =>
    have he := exec_trapret f s
    rw [runSlot_ready h] at he
    exact ⟨_, he, fun l hl hn => check_traps (slot_stands h) _ _ _ l hl (trapretCheck_of_outside hn)⟩

/-- Settles O19: with a handler the thread enters it (`takeTrap_of_handler`), else the fault is fatal (`takeTrap_in_handler`,
`takeTrap_of_no_handler`). -/
theorem trapEntry : Obligations.TrapEntry := by
  refine ⟨fun s cid co l t c h hc hh hn hr => ?enters, fun s cid co l t c h hc hh =>
    ⟨takeTrap_in_handler hc hh t, takeTrap_of_no_handler hc hh t⟩⟩
  obtain ⟨hn', hcoh, hl, hj⟩ := modThread_threads hh l (enterHandler c.trph t)
  rw [← takeTrap_of_handler hc hh t hn hr] at hcoh
  exact ⟨hn', hcoh, hl, hj⟩
end

section
/-!
Barrier objects and grid barriers: the arithmetic of an object, its 16 bytes in memory, the instructions that act on it (R343 to
R351), and the events of a grid barrier (R353, R354, R394).
-/

namespace Sys2Proof.Machine

/-! The arithmetic. -/

theorem BarObj.settle_eq_flipped (b : BarObj) : b.settle = flipped b := by
  simp only [BarObj.settle, flipped, BarObj.flip, Bool.and_eq_true, decide_eq_true_eq]

section
variable (b : BarObj) (n : Nat)

theorem BarObj.init_eq :
    b.init n = if b.pna ≠ b.exa ∨ b.adj ≠ 0 ∨ b.exb ≠ 0 ∨ b.ldb ≠ 0 then none else some { b with exa := n, pna := n } := by
  simp only [BarObj.init, Bool.or_eq_true, decide_eq_true_eq, or_assoc]

theorem BarObj.arrive_plain :
    b.arrive .plain = if b.pna = 0 then .error 0x31#7 else .ok (flipped { b with pna := b.pna - 1 }) := by
  rw [← BarObj.settle_eq_flipped]
  rfl

theorem BarObj.arrive_drop : b.arrive .drop = if b.pna = 0 ∨ (b.exa : Int) + b.adj = 0 then .error 0x31#7
    else if b.adj = -32768 then .error 0x37#7 else .ok (flipped { b with pna := b.pna - 1, adj := b.adj - 1 }) := by
  simp only [BarObj.arrive, Bool.or_eq_true, decide_eq_true_eq, BarObj.settle_eq_flipped]
  rfl

theorem BarObj.arrive_join : b.arrive .join = if b.adj = 32767 ∨ (b.exa : Int) + b.adj = 65535 then .error 0x37#7
    else .ok (flipped { b with adj := b.adj + 1 }) := by
  simp only [BarObj.arrive, Bool.or_eq_true, decide_eq_true_eq, BarObj.settle_eq_flipped]
  rfl

theorem BarObj.expect_without_arrival :
    b.expect n false = if 2 ^ 32 ≤ b.exb + n then .error 0x37#7 else .ok (flipped { b with exb := b.exb + n }) := by
  simp only [BarObj.expect, Bool.false_and, Bool.false_eq_true, if_false, BarObj.settle_eq_flipped]
  rfl

theorem BarObj.expect_with_arrival : b.expect n true = if 2 ^ 32 ≤ b.exb + n then .error 0x37#7
    else if b.pna = 0 then .error 0x31#7 else .ok (flipped { b with exb := b.exb + n, pna := b.pna - 1 }) := by
  simp only [BarObj.expect, Bool.true_and, decide_eq_true_eq, if_true, BarObj.settle_eq_flipped]
  rfl

theorem BarObj.addBytes_eq :
    b.addBytes n = if b.exb < b.ldb + n then none else some (flipped { b with ldb := b.ldb + n }) := by
  rw [← BarObj.settle_eq_flipped]
  rfl

end

/-! The 16 bytes. -/

section
variable {s : State} (c : Crew) (i : Nat) (b : BarObj)

theorem barAt_eq : c.barAt i = c.barAt 0 + 16 * i := by
  unfold Crew.barAt Crew.stashAt stashAddr
  omega

theorem memGet_setBar_out {a : Nat} (h : a < c.barAt i ∨ c.barAt i + 16 ≤ a) :
    memGet (s.setBar c i b).mem a = memGet s.mem a :=
  memGet_memWrite_out _ _ _ _ (by rwa [bytesOfNat_length])

theorem bar_setBar_ne {j : Nat} (h : j ≠ i) : (s.setBar c i b).bar c j = s.bar c j := by
  unfold State.bar
  rw [memRead_congr fun k hk => memGet_setBar_out c i b ?_]
  rw [barAt_eq c i, barAt_eq c j]
  omega

theorem bar_setBar_self (hs : SafeState s) (hb : BarFits b) : (s.setBar c i b).bar c i = b := by
  have hr : memRead (s.setBar c i b).mem (c.barAt i) 16 = bytesOfNat 16 b.toNat := by
    have := memRead_memWrite (a := c.barAt i) (d := bytesOfNat 16 b.toNat) hs
    rwa [bytesOfNat_length] at this
  rw [State.bar, hr, natOfBytes_bytesOfNat, barObj_roundtrip hb]

end

/-! The instructions. -/

theorem barInit_inTurn : InTurn .barInit Instr.barInit fun _ x i s =>
    match barFault x ((x.a[i]).p || (x.b[i]).p) (x.a[i]).lo.toNat (decide (2 ^ 16 ≤ (x.b[i]).lo.toNat)) with
    | some c => .error c
    | none =>
      match (s.bar x.crew (x.a[i]).lo.toNat).init (x.b[i]).lo.toNat with
      | some b => .ok (s.setBar x.crew (x.a[i]).lo.toNat b, 0)
      | none => .ok (s, 1) := by
  refine inTurn (ad := fun _ x i => (x.a[i]).lo.setWidth 64) (fun _ _ => rfl) fun _ x i s t v a b h => ?_
  split at h
  · cases h
  split at h
  · cases h
    exact live_setBar ..
  · cases h
    rfl

theorem barArr_inTurn : InTurn .barArr Instr.barArr fun f x i s =>
    match barFault x (x.a[i]).p (x.a[i]).lo.toNat false with
    | some c => .error c
    | none =>
      ((s.bar x.crew (x.a[i]).lo.toNat).arrive (arriveKind (f.mod.toNat % 4))).map fun b =>
        (s.setBar x.crew (x.a[i]).lo.toNat b, BitVec.ofNat 64 (s.bar x.crew (x.a[i]).lo.toNat).ph) :=
  inTurn (ad := fun _ x i => (x.a[i]).lo.setWidth 64) (fun _ _ => rfl) fun _ _ _ _ _ _ _ _ => barMap_live

theorem barExp_inTurn : InTurn .barExp Instr.barExp fun f x i s =>
    match barFault x ((x.a[i]).p || (x.b[i]).p) (x.a[i]).lo.toNat false with
    | some c => .error c
    | none =>
      ((s.bar x.crew (x.a[i]).lo.toNat).expect (x.b[i]).lo.toNat (f.mod.getLsbD 0)).map fun b =>
        (s.setBar x.crew (x.a[i]).lo.toNat b, BitVec.ofNat 64 (s.bar x.crew (x.a[i]).lo.toNat).ph) :=
  inTurn (ad := fun _ x i => (x.a[i]).lo.setWidth 64) (fun _ _ => rfl) fun _ _ _ _ _ _ _ _ => barMap_live

theorem barTest_inTurn : InTurn .barTest Instr.barTest fun _ x i s =>
    match barFault x ((x.a[i]).p || (x.b[i]).p) (x.a[i]).lo.toNat false with
    | some c => .error c
    | none =>
      if (s.bar x.crew (x.a[i]).lo.toNat).ph = (x.b[i]).lo.toNat % 2 ^ 16 then .ok (s, 0)
      else .ok (s.barAcquire x i.val (x.a[i]).lo.toNat, 1) := by
  refine inTurn (ad := fun _ x i => (x.a[i]).lo.setWidth 64) (fun _ _ => rfl) fun _ x i s t v a b h => ?_
  split at h
  · cases h
  split at h
  · cases h
    rfl
  · cases h
    exact live_startFence ..

section
variable {f : Fields} {s : State} {b : At}

theorem barWait_holds (h : SlotReady .barWait f s b)
    (hg : ∀ l : Fin 32, (b.slot .barWait f s).ex.getLsbD l = true → ((b.slot .barWait f s).a[l]).p = false ∧
      ((b.slot .barWait f s).b[l]).p = false ∧ ((b.slot .barWait f s).a[l]).lo.toNat < b.c.sync) :
    ∃ u, exec (.barWait f) s = .next (forL
        (lanesOf ((b.slot .barWait f s).ex &&& ~~~laneFilter (b.slot .barWait f s).ex ((b.slot .barWait f s).phaseLasts s)))
        u fun i t => t.barAcquire (b.slot .barWait f s) i.val ((b.slot .barWait f s).a[i]).lo.toNat) ∧
      RegFrame (s.modLanes b.r.cid b.r.co (laneFilter (b.slot .barWait f s).ex ((b.slot .barWait f s).phaseLasts s))
        (b.slot .barWait f s).holdPhase) u (b.slot .barWait f s) false := by
  have hpass : (b.slot .barWait f s).faults (fun i => atNull (barFault (b.slot .barWait f s)
      (((b.slot .barWait f s).a[i]).p || ((b.slot .barWait f s).b[i]).p) ((b.slot .barWait f s).a[i]).lo.toNat false)) = [] :=
    slot_faults_none fun l hl => by
      obtain ⟨ha, hb, hi⟩ := hg l hl
      rw [ha, hb, barFault, if_neg (by simp), if_neg (by rw [Bool.or_false, decide_eq_true_eq, Nat.not_le]; exact hi)]
      rfl
  obtain ⟨_, _, hst⟩ := stands_live h (live_modLanes s b.r.cid b.r.co
    (laneFilter (b.slot .barWait f s).ex ((b.slot .barWait f s).phaseLasts s)) (b.slot .barWait f s).holdPhase b.r.cid b.r.co)
  have hrun : exec (.barWait f) s = _ := runSlot_ready h _
  simp only [hpass, done_nil] at hrun
  exact ⟨_, hrun, finishSlot_frame hst .none⟩

theorem gbar_holds (h : SlotReady .gbar f s b) :
    ∃ u, exec (.gbar f) s = .next (u.startFence b.r.cid b.r.co b.r.tok (b.slot .gbar f s).ex (b.slot .gbar f s).trpc
        { hold := true, rel := true, acq := false, scope := 3, ranges := none, step := 0, waits := [], next := .arrive }) ∧
      RegFrame (s.modLanes b.r.cid b.r.co (b.slot .gbar f s).ex fun _ th =>
        { th with holds := .gbar ((smGet s.grids b.c.grid).elim 0 Grid.gbGen) :: th.holds }) u (b.slot .gbar f s) false := by
  obtain ⟨_, _, hst⟩ := stands_live h (live_modLanes s b.r.cid b.r.co (b.slot .gbar f s).ex (fun _ th =>
    { th with holds := .gbar ((smGet s.grids b.c.grid).elim 0 Grid.gbGen) :: th.holds }) b.r.cid b.r.co)
  refine ⟨_, ?_, finishSlot_frame hst .none⟩
  have hrun : exec (.gbar f) s = _ := runSlot_ready h _
  rw [hrun, slot_crew]
  cases smGet s.grids b.c.grid <;> rfl

end

/-! Grid barriers. -/

section
variable {grid : Nat} {s : State} {g : Grid} (hg : smGet s.grids grid = some g)

section
variable {group t : Nat} {q : Part} (ht : g.gbDone = some t) (hq : smGet s.parts g.part = some q)
include hg ht hq

theorem gbarRelease_of_not_due (hn : q.qst = 1 ∨ q.qst = 2 ∨ q.qst = 4 ∨ max 1 (fld q.gbgrp 4 0) ≤ group ∨
    s.time < t + group * q.gbstag.toNat) : execGbarRelease grid group s = .next s := by
  simp only [execGbarRelease, hg, ht, hq]
  rw [if_pos]
  simpa only [Bool.or_eq_true, decide_eq_true_eq, or_assoc] using hn

theorem gbarRelease_of_due (hr : q.qst = 0 ∨ q.qst = 3) (hn : group < max 1 (fld q.gbgrp 4 0))
    (hd : t + group * q.gbstag.toNat ≤ s.time) {u : State}
    (hu : u = forL (s.crews.filter fun x => x.2.grid = grid && x.2.lcl % max 1 (fld q.gbgrp 4 0) = group &&
      (x.2.st = .running || x.2.st = .debug)) s (fun x s => s.releaseGbar x.1 g.gbGen)) :
    execGbarRelease grid group s =
      .next (if u.gbarHeld grid g.gbGen then u else u.modGrid grid fun g => { g with gbDone := none }) := by
  subst hu
  simp only [execGbarRelease, hg, ht, hq]
  rw [if_neg]
  simp only [Bool.or_eq_true, decide_eq_true_eq, not_or, Nat.not_le, Nat.not_lt]
  rcases hr with hr | hr <;> exact ⟨⟨⟨⟨by rw [hr]; decide, by rw [hr]; decide⟩, by rw [hr]; decide⟩, hn⟩, hd⟩

end

include hg

theorem gbarStall_of_moving (hn : g.gbArr = [] ∨ g.aborted ≠ none ∨ s.unstarted grid g = false ∨
    s.time < g.gbSince + 1000000) : execGbarStall grid s = .next s := by
  simp only [execGbarStall, hg]
  rw [if_pos]
  simpa only [Bool.or_eq_true, decide_eq_true_eq, Option.isSome_iff_ne_none, Bool.not_eq_true', or_assoc] using hn

theorem gbarStall_of_stalled (ha : g.gbArr ≠ []) (hb : g.aborted = none) (hu : s.unstarted grid g = true)
    (ht : g.gbSince + 1000000 ≤ s.time) {cid : Nat} {c : Crew} (hc : (s.crews.find? fun x => x.2.grid = grid) = some (cid, c)) :
    execGbarStall grid s = .next (s.fatal cid cCyclicWait 0 0) := by
  simp only [execGbarStall, hg, hc]
  rw [if_neg]
  simp only [ha, hb, hu, Nat.not_lt.2 ht, Option.isSome_none, Bool.not_true, decide_false, Bool.or_self, Bool.false_eq_true,
    not_false_eq_true]

/-- The checkpoints of crews, each in its reserve where it has one (R393, R394). -/
def State.checkpointAll (s : State) (part : Nat) (l : List (Nat × Crew)) : State :=
  forL l s fun x s => { s.takeReserve part x.2.p true with
    checks := smSet (s.takeReserve part x.2.p true).checks x.1 (Check.mk ((s.takeReserve part x.2.p true).checkpoint x.1 x.2)
      (smGet (s.takeReserve part x.2.p true).reserves x.2.p)) }

variable {l : List (Nat × Crew)} (hl : l = s.crews.filter fun x => x.2.grid = grid)
include hl

theorem zoneCheckpoint_of_not_ready (hn : declZp g.decl = false ∨ s.gbarFull grid g = false ∨
    ∃ x ∈ l, x.2.st ≠ .running ∨ s.engineQuiet x.1 x.2 = false) : execZoneCheckpoint grid s = .next s := by
  subst hl
  simp only [execZoneCheckpoint, hg]
  rw [if_pos]
  simpa only [Bool.or_eq_true, Bool.not_eq_true', List.all_eq_false, Bool.and_eq_true, decide_eq_true_eq, not_and_or,
    Bool.not_eq_true, or_assoc] using hn

section
variable (hz : declZp g.decl = true) (hf : s.gbarFull grid g = true)
  (hr : ∀ x ∈ l, x.2.st = .running ∧ s.engineQuiet x.1 x.2 = true)
include hz hf hr

theorem zoneCheckpoint_of_ready : execZoneCheckpoint grid s = .next (
    match l.findSome? fun x => (s.checkFault x.1 x.2).map fun n => (x.1, n) with
    | some (cid, n) => s.fatal cid cCyclicWait 0 (n * 2 ^ 48)
    | none => (s.checkpointAll g.part l).gbarComplete grid) := by
  subst hl
  have hq : ((s.crews.filter fun x => x.2.grid = grid).all fun x => x.2.st = .running && s.engineQuiet x.1 x.2) = true := by
    simpa only [List.all_eq_true, Bool.and_eq_true, decide_eq_true_eq] using hr
  simp only [execZoneCheckpoint, hg]
  rw [if_neg (by rw [hz, hf, hq]; decide)]
  rfl

theorem zoneCheckpoint_of_fault {cid n : Nat}
    (hc : (l.findSome? fun x => (s.checkFault x.1 x.2).map fun n => (x.1, n)) = some (cid, n)) :
    execZoneCheckpoint grid s = .next (s.fatal cid cCyclicWait 0 (n * 2 ^ 48)) := by
  rw [zoneCheckpoint_of_ready hg hl hz hf hr, hc]

theorem zoneCheckpoint_of_sound (hc : ∀ x ∈ l, s.checkFault x.1 x.2 = none) :
    execZoneCheckpoint grid s = .next ((s.checkpointAll g.part l).gbarComplete grid) := by
  have hn : (l.findSome? fun x => (s.checkFault x.1 x.2).map fun n => (x.1, n)) = none :=
    List.findSome?_eq_none_iff.2 fun x hx => by rw [hc x hx]; rfl
  rw [zoneCheckpoint_of_ready hg hl hz hf hr, hn]

end

end

end Sys2Proof.Machine
end

section
/-!
The statements of spec/16_synchronisation.md on barriers.
-/

open Sys2Proof Sys2Proof.Machine

/-- Settles O21: the arithmetic case by case (`BarObj.…`), the 16 bytes (`bar_setBar_…`), and the events on the branch that their
hypotheses choose. -/
theorem barrierObject : Obligations.BarrierObject := by
  refine ⟨fun b n => ⟨b.init_eq n, b.arrive_plain, b.arrive_drop, b.arrive_join, b.expect_without_arrival n,
    b.expect_with_arrival n, b.addBytes_eq n, rfl, rfl, rfl⟩, ⟨?bytes, ?release, ?stall, ?checkpoint⟩⟩
  case bytes =>
    exact fun s c i b hs hb => ⟨bar_setBar_self c i b hs hb, fun j => bar_setBar_ne c i b, fun a => memGet_setBar_out c i b⟩
  case release =>
    refine fun grid group s g t q hg ht hq => ⟨gbarRelease_of_not_due hg ht hq, fun hr hn hd u hu => ?_⟩
    have he := gbarRelease_of_due hg ht hq hr hn hd hu
    exact ⟨fun hh => by rw [hh] at he; exact he, fun hh => by rw [hh] at he; exact he⟩
  case stall =>
    exact fun grid s g hg => ⟨gbarStall_of_moving hg, fun ha hb hu ht cid c hc => gbarStall_of_stalled hg ha hb hu ht hc⟩
  case checkpoint =>
    exact fun grid s g l hg hl => ⟨zoneCheckpoint_of_not_ready hg hl, fun hz hf hr =>
      ⟨fun cid n => zoneCheckpoint_of_fault hg hl hz hf hr, zoneCheckpoint_of_sound hg hl hz hf hr⟩⟩

/-- Settles O22: four instructions act in turn (`barInit_inTurn` and so on); `bar.wait` and `gbar` give holds before the end of
their slot and start fences after it. -/
theorem barrierInstructions : Obligations.BarrierInstructions :=
  ⟨barInit_inTurn, barArr_inTurn, barExp_inTurn, barTest_inTurn, fun _ _ _ => barWait_holds, fun _ _ _ => gbar_holds⟩
end

section
/-!
Sealing contexts and `halt`: the contexts that `seal.open` finds, and the code that the executing threads of `halt` leave (R432 to
R434, R437, R442).
-/

namespace Sys2Proof.Machine

/-! `seal.open`; its checks in the order in which R433 lists them, the model's choice where several hold (log 25). -/

section
variable {s : State} {x : Slot}

/-- The contexts of a cluster that are free (R432). -/
def Cluster.freeSeals (c : Cluster) : List Nat := (List.range 16).filter fun i => (smGet c.seals i).isNone

theorem mem_freeSeals {c : Cluster} {i : Nat} : i ∈ c.freeSeals ↔ i < 16 ∧ smGet c.seals i = none := by
  simp only [Cluster.freeSeals, List.mem_filter, List.mem_range, Option.isNone_iff_eq_none]

theorem freeSeals_eq_nil {c : Cluster} (h : ∀ i < 16, (smGet c.seals i).isSome = true) : c.freeSeals = [] := by
  refine List.eq_nil_iff_forall_not_mem.2 fun i hi => ?_
  obtain ⟨hlt, hn⟩ := mem_freeSeals.1 hi
  have := h i hlt
  rw [hn] at this
  exact Bool.false_ne_true this

theorem freeSeals_ne_nil {c : Cluster} (h : ∃ i < 16, smGet c.seals i = none) : c.freeSeals ≠ [] := by
  obtain ⟨i, hi⟩ := h
  exact List.ne_nil_of_mem (mem_freeSeals.2 hi)

theorem getD_mod_mem {l : List Nat} (h : l ≠ []) (n : Nat) : l.getD (n % l.length) 0 ∈ l := by
  have hlt : n % l.length < l.length := Nat.mod_lt _ (List.length_pos_iff.2 h)
  rw [List.getD_eq_getElem?_getD, List.getElem?_eq_getElem hlt, Option.getD_some]
  exact List.getElem_mem hlt

variable {lane alg : Nat} {label : W64}

theorem sealOpen_of_no_context (h : ∀ i < 16, (smGet (s.cluster x.p).seals i).isSome = true) :
    s.sealOpen x lane alg label = (s, 2) := if_pos (freeSeals_eq_nil h)

variable (hf : ∃ i < 16, smGet (s.cluster x.p).seals i = none)
include hf

theorem sealOpen_of_crew_full (hc : 4 ≤ (s.cluster x.p).sealsOf x.cid) : s.sealOpen x lane alg label = (s, 4) :=
  (if_neg (freeSeals_ne_nil hf)).trans (if_pos hc)

variable (hc : (s.cluster x.p).sealsOf x.cid < 4) {p : Part} (hp : smGet s.parts x.crew.part = some p)
include hc hp

theorem sealOpen_of_no_share (hs : p.res.shares = []) : s.sealOpen x lane alg label = (s, 6) := by
  refine (if_neg (freeSeals_ne_nil hf)).trans ((if_neg (Nat.not_le.2 hc)).trans (if_pos ?_))
  rw [hp]
  exact hs

theorem sealOpen_of_share (hs : p.res.shares ≠ []) : ∃ i < 16, smGet (s.cluster x.p).seals i = none ∧
    (s.sealOpen x lane alg label).2 = sealHandle (s.cluster x.p).sealSerial i := by
  obtain ⟨hlt, hn⟩ := mem_freeSeals.1 (getD_mod_mem (freeSeals_ne_nil hf) (Config.slotFor s.tick))
  refine ⟨_, hlt, hn, congrArg Prod.snd
    ((if_neg (freeSeals_ne_nil hf)).trans ((if_neg (Nat.not_le.2 hc)).trans (if_neg ?_)))⟩
  rw [hp]
  exact hs

end

section
variable {s : State} {x : Slot} {id lane : Nat} {st : Bool} {h : W32} {va : W64} (hn : (s.cluster x.p).sealNamed x.cid h = none)
include hn

theorem sealAbsorb_of_unnamed (n : Nat) : s.sealAbsorb x id lane st h va n = .error cSealInvalid := by
  simp only [State.sealAbsorb, hn]

theorem sealFinish_of_unnamed : s.sealFinish x id lane st h va = .error cSealInvalid := by
  simp only [State.sealFinish, hn]

end

/-! The four instructions. -/

theorem sealOpen_inTurn : InTurn .sealOpen Instr.sealOpen fun _ x i t =>
    if (x.a[i]).p || (x.b[i]).p then .error cPoisonUse
    else if 4 ≤ (x.a[i]).lo.toNat then .error cIllegalOperand
    else .ok (t.sealOpen x i.val (x.a[i]).lo.toNat (x.b[i]).v) := by
  refine inTurn (ad := fun _ x i => (x.a[i]).lo.setWidth 64) (fun _ _ => rfl) fun _ x i s t v a b h => ?_
  split at h
  · cases h
  split at h
  · cases h
  · have hst := stays_sealOpen s x i.val (x.a[i]).lo.toNat (x.b[i]).v
    rw [Except.ok.inj h] at hst
    exact hst.1 a b

theorem sealAbs_lateInTurn : LateInTurn .sealAbs Instr.sealAbs fun f x id i t =>
    if (x.a[i]).p || (x.b[i]).p || (x.c[i]).p then .error cPoisonUse
    else t.sealAbsorb x id i.val (f.mod.getLsbD 0) (x.a[i]).lo (x.b[i]).v (x.c[i]).lo.toNat := by
  refine lateInTurn (fun _ _ => rfl) fun _ _ _ _ _ _ h => ?_
  split at h
  · cases h
  · exact stays_sealAbsorb h

theorem sealFin_lateInTurn : LateInTurn .sealFin Instr.sealFin fun f x id i t =>
    if (x.a[i]).p || (x.b[i]).p then .error cPoisonUse
    else t.sealFinish x id i.val (f.mod.getLsbD 0) (x.a[i]).lo (x.b[i]).v := by
  refine lateInTurn (fun _ _ => rfl) fun _ _ _ _ _ _ h => ?_
  split at h
  · cases h
  · exact stays_sealFinish h

theorem sealAbt_inTurn : InTurn .sealAbt Instr.sealAbt fun _ x i t =>
    if (x.a[i]).p then .error cPoisonUse
    else
      match (t.cluster x.p).sealNamed x.cid (x.a[i]).lo with
      | none => .error cSealInvalid
      | some (j, y) => .ok (t.abortSeal x.p j y 2 0, BitVec.ofNat 64 (y.data.length % 2 ^ 32)) := by
  refine inTurn (ad := fun _ x i => (x.a[i]).lo.setWidth 64) (fun _ _ => rfl) fun _ x i s t v a b h => ?_
  split at h
  · cases h
  split at h
  · cases h
  · cases h
    exact (stays_abortSeal ..).1 a b

/-! `halt`. -/

/-- What an executing thread of `halt` does (R442). -/
def haltLane (x : Slot) (i : Fin 32) (s : State) : Except Cause State :=
  if (x.a[i]).p then .error cPoisonUse
  else .ok (s.modCluster x.p fun c => { c with haltcode := (x.a[i]).lo.setWidth 64, halted := true })

theorem halt_inTurn : ActsInTurn .halt Instr.halt fun _ => haltLane := by
  refine actsInTurn (ad := fun _ x i => (x.a[i]).lo.setWidth 64) (fun _ _ => rfl) fun _ x i s t a b h => ?_
  unfold haltLane at h
  split at h
  · cases h
  · cases h
    rfl

/-- Of several threads the last one's code stands. -/
theorem haltRun_of_clean {x : Slot} {l : List (Fin 32)} {j : Fin 32} (hj : l.getLast? = some j)
    (hc : ∀ i ∈ l, (x.a[i]).p = false) (s : State) : actRun (haltLane x) l s =
      some (s.modCluster x.p fun c => { c with haltcode := (x.a[j]).lo.setWidth 64, halted := true }) := by
  induction l generalizing s with
  | nil => cases hj
  | cons i r ih =>
    have hi : haltLane x i s = .ok (s.modCluster x.p fun c =>
        { c with haltcode := (x.a[i]).lo.setWidth 64, halted := true }) := by
      rw [haltLane, hc i List.mem_cons_self]
      rfl
    rw [actRun, hi]
    cases r with
    | nil =>
      cases hj
      rfl
    | cons k r =>
      rw [List.getLast?_cons_cons] at hj
      exact (ih hj (fun i hi => hc i (List.mem_cons_of_mem _ hi)) _).trans (congrArg some (modCluster_modCluster ..))

end Sys2Proof.Machine
end

section
/-!
The statements of spec/20_host_attestation_sealing.md on sealing contexts, and on `halt`.
-/

open Sys2Proof Sys2Proof.Machine

/-- Settles O39: the four instructions act in turn, and an opening is refused or made on the first condition that holds
(`sealOpen_of_…`). That these are all the refusals, and their order, is the model's choice (log 25). -/
theorem sealInstructions : Obligations.SealInstructions :=
  ⟨sealOpen_inTurn, sealAbs_lateInTurn, sealFin_lateInTurn, sealAbt_inTurn, fun _ _ _ _ _ _ hp =>
    ⟨sealOpen_of_no_context, fun hf => ⟨sealOpen_of_crew_full hf, fun hc =>
      ⟨sealOpen_of_no_share hf hc hp, sealOpen_of_share hf hc hp⟩⟩⟩,
    fun _ _ _ _ _ _ _ n hn => ⟨sealAbsorb_of_unnamed hn n, sealFinish_of_unnamed hn⟩⟩

/-- Settles O42: the threads halt their cluster in turn (`haltRun_of_clean`), a halted cluster opens no slot, and a cold start
begins from the reset state. -/
theorem haltRule : Obligations.HaltRule := by
  refine ⟨fun f s b h l hl hc => ?halts, fun f s b h hx => ?idle, fun i o f s k hi hk hh => exec_error hi (openSlot_halted hk hh),
    fun s => ⟨_, rfl, fun p => rfl⟩⟩
  case halts => exact halt_inTurn f s b h _ (haltRun_of_clean hl (fun i hi => hc i ((mem_lanesOf _ _).1 hi)) s)
  case idle => exact halt_inTurn f s b h s (by rw [hx, lanesOf_zero]; rfl)
end

section
/-!
Power events on the branches that change nothing or one cluster: squalls, their suspect windows, and readings within the limits
(R388 to R391, R375).
-/

namespace Sys2Proof.Machine

section
variable {p : Nat} {s : State}

theorem squallTrip_of_stretched (hard : Bool) (h : (s.cluster p).stretched = true) : execSquallTrip p hard s = .next
    (s.modCluster p fun c => { c with deep := c.deep || hard, clk := s.clock p, clkAt := s.time, clkMark := s.clock p }) := by
  simp only [execSquallTrip, if_pos h]

theorem squallStretchEnd_of_early (h : (s.cluster p).stretched = false ∨ s.cyclesPast p (s.cluster p).clkMark 32 = false) :
    execSquallStretchEnd p s = .next s := by
  have hb : ((s.cluster p).stretched && s.cyclesPast p (s.cluster p).clkMark 32) = false := Bool.and_eq_false_iff.2 h
  simp only [execSquallStretchEnd, hb, Bool.false_eq_true, if_false]

theorem squallStretchEnd_of_due (hs : (s.cluster p).stretched = true) (hc : s.cyclesPast p (s.cluster p).clkMark 32 = true) :
    execSquallStretchEnd p s = .next (s.modCluster p fun c =>
      { c with stretched := false, deep := false, clk := s.clock p, clkAt := s.time, clkMark := s.clock p }) := by
  simp only [execSquallStretchEnd, hs, hc, Bool.and_self, if_true]

theorem suspectWindowEnd_of_early (h : (s.cluster p).suspect = false ∨ (s.cluster p).stretched = true ∨
    s.cyclesPast p (s.cluster p).clkMark 16 = false) : execSuspectWindowEnd p s = .next s := by
  have hb : ((s.cluster p).suspect && !(s.cluster p).stretched && s.cyclesPast p (s.cluster p).clkMark 16) = false := by
    simpa only [Bool.and_eq_false_iff, Bool.not_eq_false', or_assoc] using h
  simp only [execSuspectWindowEnd, hb, Bool.false_eq_true, if_false]

theorem suspectWindowEnd_of_due (hu : (s.cluster p).suspect = true) (hs : (s.cluster p).stretched = false)
    (hc : s.cyclesPast p (s.cluster p).clkMark 16 = true) :
    execSuspectWindowEnd p s = .next (s.modCluster p fun c => { c with suspect := false }) := by
  simp only [execSuspectWindowEnd, hu, hs, hc, Bool.not_false, Bool.and_self, if_true]

end

section
variable {z c : Nat} {s : State}

theorem zoneOvercurrent_of_absent (h : 64 ≤ z) : execZoneOvercurrent z c s = .next s := by
  simp only [execZoneOvercurrent, if_pos h]

theorem zoneOvercurrent_of_quiet (h : z < 64) (hc : c ≤ 1875) :
    execZoneOvercurrent z c s = .next { s with zonecur := smSet s.zonecur z c } := by
  have hm : c % 65536 = c := Nat.mod_eq_of_lt (by omega)
  simp only [execZoneOvercurrent, if_neg (Nat.not_le.2 h), hm, if_pos hc]

theorem dutyRestore_of_no_overcurrent (h : smGet s.overAt z = none) : execDutyRestore z s = .next s := by
  simp only [execDutyRestore, h]

theorem dutyRestore_of_early {u : Nat} (h : smGet s.overAt z = some u) (ht : s.time < u + 10000) :
    execDutyRestore z s = .next s := by
  simp only [execDutyRestore, h, if_pos ht]

theorem packagePower_of_quiet {w : Nat} (h : w ≤ 6000) : execPackagePowerLimit w s = .next { s with pkgpwr := w } := by
  have hm : w % 65536 = w := Nat.mod_eq_of_lt (by omega)
  simp only [execPackagePowerLimit, hm, if_pos h]

theorem zoneLost_of_absent (h : 64 ≤ z ∨ s.zoneBad.contains z = true) : execZoneLost z s = .next s := by
  have hb : (decide (64 ≤ z) || s.zoneBad.contains z) = true := by simpa only [Bool.or_eq_true, decide_eq_true_eq] using h
  simp only [execZoneLost, hb, if_true]

end

end Sys2Proof.Machine
end

section
/-!
The statement of spec/18_power_and_zones.md on the events of power.
-/

open Sys2Proof Sys2Proof.Machine

/-- Settles O47: each event is an equation on the branches that its conditions choose; the branches that change several clusters are
the lemmas of Laws/Events. -/
theorem powerEvents : Obligations.PowerEvents :=
  ⟨fun _ hard _ => ⟨squallTrip_of_stretched hard, squallTrip_spec⟩,
    fun _ _ => ⟨squallStretchEnd_of_early, squallStretchEnd_of_due⟩,
    fun _ _ => ⟨suspectWindowEnd_of_early, suspectWindowEnd_of_due⟩,
    fun _ _ _ => ⟨zoneOvercurrent_of_absent, zoneOvercurrent_of_quiet, overcurrent_spec⟩,
    fun _ _ => ⟨dutyRestore_of_no_overcurrent, fun _ => dutyRestore_of_early, fun _ => dutyRestore_spec⟩,
    fun _ _ => ⟨packagePower_of_quiet, packagePower_spec⟩, fun _ _ => zoneLost_of_absent, fun _ _ => zoneLost_empty⟩
end

section
/-!
The fabric instructions: what each does where no executing thread faults, and that its effects keep the cohorts (R281, R282, R284
to R290, R292, R293).
-/

namespace Sys2Proof.Machine

section
variable {f : Fields} {s : State} {b : At}

/-- A flush of the threads that execute, past its checks (R288, R292). -/
theorem wcbFlush_acts (h : SlotReady .wcbFlush f s b) (hx : (b.slot .wcbFlush f s).ex ≠ 0)
    (hp : f.mod.getLsbD 2 = true → s.peerFault (b.slot .wcbFlush f s) = none) {e : State}
    (he : e = s.drainWcb (b.k / 6) fun w =>
      !f.mod.getLsbD 2 || (decide (w.part = b.c.part) && decide (w.peer = (b.slot .wcbFlush f s).peerOf.getD 0))) :
    Acts (.wcbFlush f) s (e.startFence b.r.cid b.r.co b.r.tok (b.slot .wcbFlush f s).ex (b.slot .wcbFlush f s).trpc
      { hold := false, rel := false, acq := false, scope := 0, ranges := none, step := 0,
        waits := (List.range (e.nextId - s.nextId)).map (· + s.nextId), next := .done }) (b.slot .wcbFlush f s) := by
  have hl : (b.slot .wcbFlush f s).fabFaults s (fun _ => 0)
      (fun _ => if f.mod.getLsbD 2 then s.peerFault (b.slot .wcbFlush f s) else none) = [] :=
    fab_faults_none fun _ _ => ite_eq_right_iff.2 hp
  subst he
  refine slot_acts h rfl ?_ (stands_live h ((live_startFence ..).trans ((stays_drainWcb ..).1 _ _)))
  simp only [hl, done_nil]
  exact if_neg hx

/-- The word of `fpeer` in each executing thread (R293). -/
theorem fpeer_posts (h : SlotReady .fpeer f s b)
    (hp : f.mod.toNat / 4 % 4 = 0 → (b.slot .fpeer f s).peerOf ≠ none) :
    Posts (.fpeer f) s (s.addPend { (b.slot .fpeer f s).pend 1 (b.slot .fpeer f s).ex (b.slot .fpeer f s).ex
        (laneResults (b.slot .fpeer f s).ex fun i => { val := [BitVec.ofNat 64 (fpeerWord s (b.slot .fpeer f s) i)], p := false })
          with joint := true }) (b.slot .fpeer f s) false s.nextId := by
  have hl : (b.slot .fpeer f s).fabFaults s (fun _ => 0)
      (fun _ => if f.mod.toNat / 4 % 4 = 0 && (b.slot .fpeer f s).peerOf.isNone then some cIllegalOperand else none) = [] := by
    refine fab_faults_none fun _ _ => if_neg fun hb => ?_
    rw [Bool.and_eq_true, decide_eq_true_eq, Option.isNone_iff_eq_none] at hb
    exact hp hb.1 hb.2
  refine slot_posts h rfl ?_ (stands_live h rfl)
  simp only [hl, done_nil]
  rfl

end

end Sys2Proof.Machine
end

section
/-!
The statement of spec/13_xandu_fabric.md on the fabric instructions.
-/

open Sys2Proof Sys2Proof.Machine

/-- Settles O38: past checks that give no trap (`fab_faults_none`) each instruction ends its slot in the state of its effect, which
keeps the cohorts (the `stays_…` laws). That an atomic's operand lies in payload bytes 0 to 7, and the new value of a swap or PRO from
byte 8 on, is the model's choice of layout (log 30). -/
theorem fabricInstructions : Obligations.FabricInstructions := by
  refine ⟨fun f s b h hg kept hk => ?ldf, fun f s b h hg => ?stf, fun f s b h hg => ?atomf, fun f s b h hg => ?casf,
    fun f s b h hg e vals hr => ?fcp, fun f s b h hx hp e he => wcbFlush_acts h hx hp he, fun f s b h hp => fpeer_posts h hp⟩
  case ldf =>
    subst hk
    refine slot_posts h rfl ?_ (stands_live h ?_)
    · simp only [fab_faults_none hg, done_nil]
      rfl
    · exact (((stays_addPend ..).trans (stays_charge ..)).trans (stays_forL _ _ _ fun _ _ => stays_ldfLane ..)).1 _ _
  case stf =>
    refine slot_acts h rfl ?_ (stands_live h ?_)
    · simp only [fab_faults_none hg, done_nil]
      rfl
    · exact ((stays_charge ..).trans (stays_forL _ _ _ fun _ _ => stays_wcbPut ..)).1 _ _
  case atomf =>
    refine slot_posts h rfl ?_ (stands_live h ?_)
    · simp only [fab_faults_none hg, fabAtomic, done_nil]
      rfl
    · exact (((stays_addPend ..).trans (stays_charge ..)).trans (stays_forL _ _ _ fun _ _ => stays_fabAtomicLane ..)).1 _ _
  case casf =>
    refine slot_posts h rfl ?_ (stands_live h ?_)
    · simp only [fab_faults_none hg, fabAtomic, done_nil]
      rfl
    · exact (((stays_addPend ..).trans (stays_charge ..)).trans (stays_forL _ _ _ fun _ _ => stays_fabAtomicLane ..)).1 _ _
  case fcp =>
    refine slot_posts h rfl ?_ (stands_live h ?_)
    · simp only [fab_faults_none hg, done_nil]
      rw [laneRun_ok hr]
    · refine (laneRun_live (fun i t u v hu => ?_) hr).trans ((stays_charge ..).1 _ _)
      have hst := stays_cpOffer t (b.slot .fcp f s) i.val .fcp ((b.slot .fcp f s).peerOf.getD 0)
        (eightWords (memRead s.mem ((b.slot .fcp f s).crew.stashAt ((b.slot .fcp f s).a[i]).lo.toNat) 64))
      rw [Except.ok.inj hu] at hst
      exact hst.1 _ _
end

section
/-!
Launches: the faults of `launch` before its record is looked at, its record, a host launch record, and the dispatcher (R323, R324,
R329, R330, R332, R424).
-/

namespace Sys2Proof.Machine

/-! The checks before the record. -/

theorem firstErr_cons_eq_none {ε : Type} {a : Option ε} {l : List (Option ε)} :
    firstErr (a :: l) = none ↔ a = none ∧ firstErr l = none := by
  cases a with
  | none => exact (and_iff_right rfl).symm
  | some e => exact ⟨fun h => (nomatch h), fun h => (nomatch h.1)⟩

theorem failIf_eq_none {ε : Type} {c : Bool} {e : ε} : failIf c e = none ↔ c = false := by
  cases c with
  | false => exact iff_of_true rfl rfl
  | true => exact ⟨fun h => (nomatch h), fun h => (nomatch h)⟩

theorem launchFault_eq_none_iff {x : Slot} {i : Fin 32} : launchFault x i = none ↔
    (x.a[i]).p = false ∧ x.co = 0 ∧ i.val = 0 ∧ x.crew.depth < 9 ∧ (x.a[i]).lo.toNat % 64 = 0 ∧
      (x.a[i]).lo.toNat + 64 ≤ x.crew.dOff := by
  simp only [launchFault, firstErr_cons_eq_none, failIf_eq_none, Bool.or_eq_false_iff, decide_eq_false_iff_not, not_not, Nat.not_le,
    Nat.not_lt, and_assoc, firstErr, and_true]

/-! The leader's launch. -/

/-- The lanes of `g` that do not fault launch, and their result is the status word. -/
def LaunchLane (x : Slot) (g : Fin 32 → State → Except Cause (State × W64)) : Prop :=
  ∀ i s z, g i s = .ok z → launchFault x i = none ∧ s.launchOne x i = (z.1, .ok z.2)

theorem LaunchLane.step {x : Slot} {g : Fin 32 → State → Except Cause (State × W64)} (hg : LaunchLane x g) (i : Fin 32)
    (y : State × List (Nat × TrapRec) × SMap W64) (z : State × W64) (h : g i y.1 = .ok z) :
    launchStep x i y = (z.1, y.2.1, smSet y.2.2 i.val z.2) := by
  obtain ⟨hf, ho⟩ := hg i y.1 z h
  simp only [launchStep, hf, ho]

theorem LaunchLane.stays {x : Slot} {g : Fin 32 → State → Except Cause (State × W64)} (hg : LaunchLane x g) {i : Fin 32}
    {s t : State} {v : W64} (h : g i s = .ok (t, v)) : Stays s t := by
  have hst := stays_launchOne s x i
  rw [(hg i s (t, v) h).2] at hst
  exact hst

theorem launchLane_of_map {r : State × Except Cause W64} {z : State × W64} (h : (r.2.map fun w => (r.1, w)) = .ok z) :
    r = (z.1, .ok z.2) := by
  obtain ⟨s, c | w⟩ := r
  · cases h
  · cases h
    rfl

/-- The state in which a launch that no thread faults places its status words. -/
def launchState (f : Fields) (x : Slot) (e : State) (vals : SMap W64) : State :=
  if f.mod.toNat % 8 = 0 then e else e.modLanes x.cid x.co x.ex (launchPred (f.mod.toNat % 8) vals)

theorem live_launchState (f : Fields) (x : Slot) (e : State) (vals : SMap W64) (i j : Nat) :
    live (launchState f x e vals).crews i j = live e.crews i j := by
  unfold launchState
  split
  · rfl
  · exact live_modLanes ..

section
variable {f : Fields} {s : State} {b : At} (h : SlotReady .launch f s b)
include h

theorem launch_waits (hl : (lanesOf (b.slot .launch f s).ex).any (s.launchLater (b.slot .launch f s)) = true) :
    exec (.launch f) s = .next s := by
  refine (runSlot_ready h _).trans ?_
  rw [if_pos hl]

theorem launch_results {g : Fin 32 → State → Except Cause (State × W64)} (hg : LaunchLane (b.slot .launch f s) g) {e : State}
    {vals : SMap W64} (hr : laneRun g (lanesOf (b.slot .launch f s).ex) (s, []) = some (e, vals))
    (hl : (lanesOf (b.slot .launch f s).ex).any (s.launchLater (b.slot .launch f s)) = false) :
    ∃ u, exec (.launch f) s = .next u ∧ RegFrame (launchState f (b.slot .launch f s) e vals) u (b.slot .launch f s) false ∧
      ∀ l : Fin 32, (b.slot .launch f s).ex.getLsbD l = true →
        Delivered u (b.slot .launch f s) l false { v := smGetD vals l.val 0, p := false } := by
  refine slot_results_after h rfl ?_ ?_
  · rw [if_neg (by rw [hl]; exact Bool.false_ne_true)]
    simp only [laneRun_forL hg.step hr [], done_nil]
    rfl
  · rw [cohort_isSome, live_launchState, laneRun_live (fun _ _ _ _ hu => (hg.stays hu).1 _ _) hr, ← cohort_isSome]
    exact ready_cohort h

end

/-! The record of a launch. -/

section
variable {s t : State} {x : Slot} {i : Fin 32}

theorem launchOne_of_poison (h : (s.getBytesP (x.crew.stashAt (x.a[i]).lo.toNat) 8).any (·.2) = true) :
    s.launchOne x i = (s, .error cLaunchInvalid) := if_pos h

variable (h : (s.getBytesP (x.crew.stashAt (x.a[i]).lo.toNat) 8).any (·.2) = false) {ws : List W64}
  (hw : ws = eightWords (memRead s.mem (x.crew.stashAt (x.a[i]).lo.toNat) 64))
include h hw

theorem launchOne_of_invalid
    (hj : s.judgeLaunch x.crew.part (rw ws 4 27 22) ws (x.crew.depth + 1) (some x.cid) x.crew.lcl = (t, .invalid)) :
    s.launchOne x i = (t, .error cLaunchInvalid) := by
  subst hw
  simp only [State.launchOne, h, hj, Bool.false_eq_true, if_false]

variable {p : Part} (hp : smGet t.parts x.crew.part = some p)
include hp

section
variable {g : Grid}
  (hj : s.judgeLaunch x.crew.part (rw ws 4 27 22) ws (x.crew.depth + 1) (some x.cid) x.crew.lcl = (t, .grid g))
include hj

theorem launchOne_of_quota (hq : fld p.chquota 15 0 ≤ t.launched x.crew.part) : s.launchOne x i = (t, .ok 1) := by
  subst hw
  simp only [State.launchOne, h, hj, hp, Bool.false_eq_true, if_false, if_pos hq]

theorem launchOne_of_grid (hq : t.launched x.crew.part < fld p.chquota 15 0) :
    s.launchOne x i = (t.acceptLaunch x i.val g, .ok (BitVec.ofNat 64 (t.nextId % 2 ^ 24 * 256))) := by
  subst hw
  simp only [State.launchOne, h, hj, hp, Bool.false_eq_true, if_false, if_neg (Nat.not_le.2 hq)]

end

theorem launchOne_of_resource
    (hj : s.judgeLaunch x.crew.part (rw ws 4 27 22) ws (x.crew.depth + 1) (some x.cid) x.crew.lcl = (t, .resource))
    (hq : t.launched x.crew.part < fld p.chquota 15 0) : s.launchOne x i = (t, .ok 2) := by
  subst hw
  simp only [State.launchOne, h, hj, hp, Bool.false_eq_true, if_false, if_neg (Nat.not_le.2 hq)]

end

/-! The host's launch queues. -/

section
variable {part space : Nat} {s u t : State}

theorem hostLaunchFetch_of_no_space (h : 64 ≤ space) : execHostLaunchFetch part space s = .next s := by
  simp only [execHostLaunchFetch, if_pos h]

variable (h : space < 64)
include h

theorem hostLaunchFetch_of_no_record (hf : s.fetchRecord part space launchStamp = (u, none)) :
    execHostLaunchFetch part space s = .next u := by
  simp only [execHostLaunchFetch, if_neg (Nat.not_le.2 h), hf]

variable {ws : List W64} (hf : s.fetchRecord part space launchStamp = (u, some ws))
include hf

theorem hostLaunchFetch_of_grid {g : Grid} (hj : u.judgeLaunch part space ws 0 none 0 = (t, .grid g)) :
    execHostLaunchFetch part space s = .next (t.queueGrid g) := by
  simp only [execHostLaunchFetch, if_neg (Nat.not_le.2 h), hf, hj]

theorem hostLaunchFetch_of_later (hj : u.judgeLaunch part space ws 0 none 0 = (t, .later)) :
    execHostLaunchFetch part space s = .next s := by
  simp only [execHostLaunchFetch, if_neg (Nat.not_le.2 h), hf, hj]

theorem hostLaunchFetch_of_invalid (hj : u.judgeLaunch part space ws 0 none 0 = (t, .invalid)) :
    execHostLaunchFetch part space s = .next (t.postInfo part cLaunchInvalid 0 (launchStamp ws)) := by
  simp only [execHostLaunchFetch, if_neg (Nat.not_le.2 h), hf, hj]

theorem hostLaunchFetch_of_resource (hj : u.judgeLaunch part space ws 0 none 0 = (t, .resource)) :
    execHostLaunchFetch part space s = .next (t.postInfo part cLaunchResource 0 (launchStamp ws)) := by
  simp only [execHostLaunchFetch, if_neg (Nat.not_le.2 h), hf, hj]

end

section
variable {part queue : Nat} {s : State}

theorem stampTimeout_of_idle (h : (s.queue part queue).stampSince = none ∨ 64 < queue ∨ (s.queue part queue).st ≠ 0 ∨
    (s.queue part queue).en = false) : execStampTimeout part queue s = .next s := by
  unfold execStampTimeout
  simp only
  cases ht : (s.queue part queue).stampSince with
  | none => rfl
  | some t =>
    have hb : 64 < queue ∨ (s.queue part queue).st ≠ 0 ∨ (s.queue part queue).en = false :=
      h.resolve_left (by rw [ht]; exact Option.some_ne_none t)
    simp only
    rw [if_pos]
    simp only [Bool.or_eq_true, decide_eq_true_eq, Bool.not_eq_true', or_assoc]
    exact hb.imp_right fun hb => hb.imp_right Or.inl

variable {t : Nat} (ht : (s.queue part queue).stampSince = some t)
include ht

theorem stampTimeout_of_early (h : s.time < t + 2000) : execStampTimeout part queue s = .next s := by
  simp only [execStampTimeout, ht]
  rw [if_pos (by rw [decide_eq_true h, Bool.or_true])]

theorem stampTimeout_of_due (hq : queue ≤ 64) (hs : (s.queue part queue).st = 0) (he : (s.queue part queue).en = true)
    (h : t + 2000 ≤ s.time) : execStampTimeout part queue s = .next
      ((s.queueTo part queue 2).postInfo part cRecordStamp 0 (s.queue part queue).rp.toNat) := by
  have hb : (decide (64 < queue) || decide ((s.queue part queue).st ≠ 0) || !(s.queue part queue).en ||
      decide (s.time < t + 2000)) = false := by
    simp only [Bool.or_eq_false_iff, decide_eq_false_iff_not, Nat.not_lt, not_not, hq, hs, he, h, Bool.not_true, and_self]
  simp only [execStampTimeout, ht, hb, Bool.false_eq_true, if_false]

end

/-! The dispatcher. -/

section
variable {part : Nat} {s : State} {t : Part} (hp : smGet s.parts part = some t)
include hp

theorem dispatch_of_not_running (h : t.qst ≠ 0 ∨ t.reshape.isSome = true) : execDispatch part s = .next s := by
  have hb : (decide (t.qst ≠ 0) || t.reshape.isSome) = true := by simpa only [Bool.or_eq_true, decide_eq_true_eq] using h
  simp only [execDispatch, hp, hb, if_true]

theorem dispatch_of_running (hq : t.qst = 0) (hr : t.reshape = none) {l : List (Nat × Grid)} (hl : l = s.gridOrder part t.ctxNow)
    {r : Option (Nat × List Kept)} (he : r = t.reserve.filter fun x => l.any fun y => y.1 = x.1) :
    execDispatch part s = .next ((s.modPart part fun u => { u with reserve := r }).dispatchFirst { t with reserve := r } l) := by
  subst hl he
  have hb : (decide (t.qst ≠ 0) || t.reshape.isSome) = false := by rw [hq, hr]; rfl
  simp only [execDispatch, hp, hb, Bool.false_eq_true, if_false]

variable {l : List (Nat × Grid)} (hl : l = s.gridOrder part t.ctxNow)
include hl

theorem reservationTimeout_of_no_head (h : t.qst ≠ 0 ∨ (∃ x, t.reserve = some x ∧ ∃ y ∈ l, y.1 = x.1) ∨
    (∀ x ∈ l, s.time < x.2.headSince + 100000)) : execReservationTimeout part s = .next s := by
  subst hl
  simp only [execReservationTimeout, hp]
  obtain h | ⟨x, hx, hy⟩ | h := h
  · rw [if_pos (by rw [decide_eq_true h, Bool.true_or])]
  · rw [if_pos]
    simp only [hx, Bool.or_eq_true, List.any_eq_true, decide_eq_true_eq]
    exact .inr hy
  · have hn : ((s.gridOrder part t.ctxNow).find? fun x => decide (x.2.headSince + 100000 ≤ s.time)) = none :=
      List.find?_eq_none.2 fun x hx => by
        rw [decide_eq_true_eq]
        exact Nat.not_le.2 (h x hx)
    rw [hn]
    exact congrArg _ (ite_self _)

theorem reservationTimeout_of_head (hq : t.qst = 0) (hr : t.reserve = none) {gid : Nat} {g : Grid}
    (h : (l.find? fun x => decide (x.2.headSince + 100000 ≤ s.time)) = some (gid, g)) :
    execReservationTimeout part s = .next (s.modPart part fun t => { t with reserve := some (gid, []) }) := by
  subst hl
  simp only [execReservationTimeout, hp, hq, hr, h, ne_eq, not_true_eq_false, decide_false, Bool.or_self, Bool.false_eq_true,
    if_false]

end

section
variable {s : State} {t : Part} {gid : Nat} {g : Grid} (l : List (Nat × Grid)) (hr : t.reserve = none)
include hr

theorem dispatchFirst_of_placed {u : State} (h : s.placeHead gid g t (s.places t) [] = some u) :
    s.dispatchFirst t ((gid, g) :: l) = (u.modGrid gid fun g => g.popUnit s.time).modPart g.part fun t =>
      { t with reserve := t.reserve.filter fun x => x.1 ≠ gid } := by
  simp only [State.dispatchFirst, hr, h]

theorem dispatchFirst_of_stuck (h : s.placeHead gid g t (s.places t) [] = none) (ht : g.headSince + 100000 ≤ s.time) :
    s.dispatchFirst t ((gid, g) :: l) = s := by
  simp only [State.dispatchFirst, hr, h, if_pos ht]

theorem dispatchFirst_of_passed (h : s.placeHead gid g t (s.places t) [] = none) (ht : s.time < g.headSince + 100000) :
    s.dispatchFirst t ((gid, g) :: l) = s.dispatchFirst t l := by
  simp only [State.dispatchFirst, hr, h, if_neg (Nat.not_le.2 ht)]

end

end Sys2Proof.Machine
end

section
/-!
The statement of spec/14_execution_and_control.md and spec/15_scheduling.md on `launch`, host launch records and the dispatcher.
-/

open Sys2Proof Sys2Proof.Machine

/-- Settles O43: the leader's launch is the one lane that does not fault (`launchFault_eq_none_iff`), and each record, stamp and head
unit goes the way that the first condition that holds gives (`launchOne_of_…`, `hostLaunchFetch_of_…`, `dispatchFirst_of_…`). One unit
per step of the dispatcher is the model's reading (log 27). -/
theorem launchInstruction : Obligations.LaunchInstruction := by
  refine ⟨⟨fun f s b h e vals hr => ?leader, fun s t x i p hp => ?record, fun _ _ => launchFault_eq_none_iff⟩,
    fun part space s => ?fetch, fun part queue s q hq => ?stamp, fun part s t hp => ?dispatch, fun s u t gid g l hr => ?first,
    fun part s t l hp hl => ⟨reservationTimeout_of_no_head hp hl, fun hq hr _ _ => reservationTimeout_of_head hp hl hq hr⟩⟩
  case leader =>
    refine ⟨launch_waits h, launch_results h (fun i t z hz => ?_) hr⟩
    split at hz
    · cases hz
    next hf => exact ⟨hf, launchLane_of_map hz⟩
  case record =>
    exact ⟨launchOne_of_poison, fun h => ⟨launchOne_of_invalid h rfl, fun g hj ht =>
      ⟨launchOne_of_quota h rfl ht hj, launchOne_of_grid h rfl ht hj⟩, fun hj ht => launchOne_of_resource h rfl ht hj⟩⟩
  case fetch =>
    exact ⟨hostLaunchFetch_of_no_space, fun h u => ⟨hostLaunchFetch_of_no_record h, fun ws hf =>
      ⟨fun _ _ => hostLaunchFetch_of_grid h hf, fun _ => hostLaunchFetch_of_later h hf, fun _ => hostLaunchFetch_of_invalid h hf,
        fun _ => hostLaunchFetch_of_resource h hf⟩⟩⟩
  case stamp =>
    subst hq
    exact ⟨stampTimeout_of_idle, fun t ht hq hs he => ⟨stampTimeout_of_early ht, stampTimeout_of_due ht hq hs he⟩⟩
  case dispatch => exact ⟨dispatch_of_not_running hp, fun hq hr r l hl he => dispatch_of_running hp hq hr hl he⟩
  case first => exact ⟨dispatchFirst_of_placed l hr, dispatchFirst_of_stuck l hr, dispatchFirst_of_passed l hr⟩
end

section
/-!
Crew queues, work donation and retirement, a lemma to each branch of the event (R315, R335 to R337).
-/

namespace Sys2Proof.Machine

/-! Crew queues. -/

section
variable {p : Nat} {s : State}

theorem queueHead_nil (s : State) : s.queueHead [] = none :=
  List.findSome?_eq_none_iff.2 fun _ _ => rfl

theorem crewQueueStart_of_empty (h : (s.cluster p).queue = []) : execCrewQueueStart p s = .next s := by
  simp only [execCrewQueueStart, h, queueHead_nil]

variable {b : Ccb} (hb : s.queueHead (s.cluster p).queue = some b)
include hb

theorem crewQueueStart_of_no_grid (hg : smGet s.grids b.grid = none) :
    execCrewQueueStart p s = .next (s.modCluster p fun c => { c with queue := c.queue.erase b }) := by
  simp only [execCrewQueueStart, hb, hg]

variable {g : Grid} {t : Part} (hg : smGet s.grids b.grid = some g) (ht : smGet s.parts g.part = some t)
include hg ht

theorem crewQueueStart_of_stopped (h : t.qst ≠ 0 ∨ t.reshape.isSome = true ∨ s.usable t p = false) :
    execCrewQueueStart p s = .next s := by
  have hn : (decide (t.qst ≠ 0) || t.reshape.isSome || !s.usable t p) = true := by
    simpa only [Bool.or_eq_true, decide_eq_true_eq, Bool.not_eq_true', or_assoc] using h
  simp only [execCrewQueueStart, hb, hg, ht, hn, if_true]

variable (hq : t.qst = 0) (hr : t.reshape = none) (hu : s.usable t p = true)
include hq hr hu

theorem crewQueueStart_of_running : execCrewQueueStart p s = .next (
    (s.fits g.part p (s.ccbNeed b g) ((s.cluster p).queue.erase b) true []).elim s fun base =>
      (s.modCluster p fun c => { c with queue := c.queue.erase b }).startCcb b g p (t.idOf p) base) := by
  have hn : (decide (t.qst ≠ 0) || t.reshape.isSome || !s.usable t p) = false := by rw [hq, hr, hu]; rfl
  simp only [execCrewQueueStart, hb, hg, ht, hn, Bool.false_eq_true, if_false]
  cases s.fits g.part p (s.ccbNeed b g) ((s.cluster p).queue.erase b) true [] <;> rfl

theorem crewQueueStart_of_no_room
    (hf : s.fits g.part p (s.ccbNeed b g) ((s.cluster p).queue.erase b) true [] = none) :
    execCrewQueueStart p s = .next s := by
  rw [crewQueueStart_of_running hb hg ht hq hr hu, hf, Option.elim_none]

theorem crewQueueStart_of_room {base : Nat}
    (hf : s.fits g.part p (s.ccbNeed b g) ((s.cluster p).queue.erase b) true [] = some base) :
    execCrewQueueStart p s = .next
      ((s.modCluster p fun c => { c with queue := c.queue.erase b }).startCcb b g p (t.idOf p) base) := by
  rw [crewQueueStart_of_running hb hg ht hq hr hu, hf, Option.elim_some]

end

/-! Work donation. -/

section
variable {p tag : Nat} {s : State} {t : Part} (ht : (s.parts.find? fun x => x.2.res.clusters.contains p) = some (tag, t))
include ht

theorem stealRequest_of_unfit (h : t.qst ≠ 0 ∨ t.reshape.isSome = true ∨ s.usable t p = false ∨
    (s.cluster p).steal.isSome = true ∨ (s.cluster p).queue ≠ [] ∨ s.time < (s.cluster p).stealAfter ∨
    t.victims s (t.idOf p) p = []) : execStealRequest p s = .next s := by
  simp only [execStealRequest, ht]
  by_cases hv : t.victims s (t.idOf p) p = []
  · rw [hv]
    exact congrArg _ (ite_self _)
  · rw [if_pos]
    have hq : (s.cluster p).queue ≠ [] → (s.cluster p).queue.isEmpty = false := fun hq => List.isEmpty_eq_false_iff.2 hq
    simp only [Bool.or_eq_true, decide_eq_true_eq, Bool.not_eq_true', Bool.and_eq_false_iff, or_assoc]
    obtain h | h | h | h | h | h | h := h
    · exact .inl h
    · exact .inr (.inl h)
    · exact .inr (.inr (.inl h))
    · exact .inr (.inr (.inr (.inl h)))
    · exact .inr (.inr (.inr (.inr (.inl (hq h)))))
    · exact .inr (.inr (.inr (.inr (.inr (.inr h)))))
    · exact absurd h hv

theorem stealRequest_of_idle {v : Nat × Nat} (hv : t.victims s (t.idOf p) p = [v]) (hq : t.qst = 0) (hr : t.reshape = none)
    (hu : s.usable t p = true) (hs : (s.cluster p).steal = none) (he : (s.cluster p).queue = [])
    (ha : (s.cluster p).stealAfter ≤ s.time) (hn : s.residents p = []) :
    execStealRequest p s = .next (s.modCluster p fun c => { c with steal := some {
      victim := v.2, slots := s.freeSlots p false, window := (largestWindow (s.windowsOf p false) (s.windowLimit p)).2,
      wbase := (largestWindow (s.windowsOf p false) (s.windowLimit p)).1, mapped := 1048576 - s.mappedUse p [] false,
      answered := false, shipped := [] } }) := by
  simp only [execStealRequest, ht]
  rw [if_neg]
  · rw [hv]
    rfl
  · rw [hq, hr, hu, hs, he, hn, decide_eq_false (Nat.not_lt.2 ha)]
    decide

end

section
variable {p : Nat} {s : State}

theorem stealVictim_of_unasked (h : ∀ x ∈ s.clusters, ∀ t, x.2.steal = some t → t.victim ≠ p ∨ t.answered = true) :
    execStealVictim p s = .next s := by
  have hn : (s.clusters.find? fun x => x.2.asks p) = none := by
    refine List.find?_eq_none.2 fun x hx ha => ?_
    unfold Cluster.asks at ha
    split at ha
    next t ht =>
      simp only [Bool.and_eq_true, decide_eq_true_eq, Bool.not_eq_true'] at ha
      obtain hv | hv := h x hx t ht
      · exact hv ha.1
      · exact Bool.false_ne_true (ha.2.symm.trans hv)
    · exact Bool.false_ne_true ha
  simp only [execStealVictim, hn]

theorem stealVictim_of_asked {thief : Nat} {c : Cluster} {t : Steal} {l : List Ccb}
    (hc : (s.clusters.find? fun x => x.2.asks p) = some (thief, c)) (ht : c.steal = some t)
    (hl : l = s.shipFrom (s.cluster p).queue.reverse (((s.cluster p).queue.length + 1) / 2) t.slots t.window t.mapped) :
    execStealVictim p s = .next ((s.modCluster p fun c => { c with queue := c.queue.filter fun b => !l.contains b }).modCluster
      thief fun c => { c with steal := some { t with answered := true, shipped := l } }) := by
  subst hl
  simp only [execStealVictim, hc, ht]

theorem stealReply_of_no_request (h : (s.cluster p).steal = none) : execStealReply p s = .next s := by
  simp only [execStealReply, h]

variable {t : Steal} (ht : (s.cluster p).steal = some t)
include ht

theorem stealReply_of_unanswered (h : t.answered = false) : execStealReply p s = .next s := by
  simp only [execStealReply, ht, h, Bool.not_false, if_true]

variable (h : t.answered = true)
include h

theorem stealReply_of_none_shipped (hn : t.shipped = []) : execStealReply p s = .next
    (s.modCluster p fun c => { c with steal := none, stealAfter := s.time + 1000 }) := by
  simp only [execStealReply, ht, h, hn, Bool.not_true, Bool.false_eq_true, if_false, if_true, forL_nil]

theorem stealReply_of_one_shipped {b : Ccb} {g : Grid} {q : Part} {base : Nat} (hb : t.shipped = [b])
    (hg : smGet s.grids b.grid = some g) (hq : smGet s.parts g.part = some q) {u : State}
    (hu : u = s.modCluster p fun c => { c with steal := none, stealAfter := s.time })
    (hf : u.fits g.part p (u.ccbNeed b g) [] false [] = some base) :
    execStealReply p s = .next (u.startCcb b g p (q.idOf p) base) := by
  have hgu : smGet u.grids b.grid = some g := by rw [hu]; exact hg
  have hqu : smGet u.parts g.part = some q := by rw [hu]; exact hq
  simp only [execStealReply, ht, h, hb, List.cons_ne_nil, Bool.not_true, Bool.false_eq_true, if_false, forL_cons, forL_nil, ← hu,
    hgu, hqu, hf]

end

/-! Retirement. -/

section
variable {cid : Nat} {s : State} {c : Crew} (hc : smGet s.crews cid = some c)
include hc

theorem crewRetire_of_saved (hs : c.st = .saved ∨ c.st = .suspended) :
    execCrewRetire cid s = .next (if c.stopping.isSome then s.removeCrew cid else s) := by
  simp only [execCrewRetire, hc]
  rw [if_pos (by simpa only [Bool.or_eq_true, decide_eq_true_eq] using hs)]

variable (hs : c.st = .running ∨ c.st = .debug)
include hs

theorem crewRetire_of_resident : execCrewRetire cid s = .next (
    if c.leaving = some .retire || (c.leaving = some .save && c.stopping.isSome && s.idlePart c.part) then
      (if s.leaveReady cid then s.removeCrew cid else s.stepLeave cid)
    else if c.leaving.isSome || !s.idleCrew cid c then s
    else if (c.cohorts.all (fun h => decide (h.live = 0)) && c.children.isEmpty && s.jobsOver cid c && !s.finPending cid) ||
        c.stopping.isSome then s.beginLeave cid .retire
    else s) := by
  simp only [execCrewRetire, hc]
  rw [if_neg]
  obtain h | h := hs <;> rw [h] <;> decide

theorem crewRetire_of_leaving
    (h : c.leaving = some .retire ∨ (c.leaving = some .save ∧ c.stopping.isSome = true ∧ s.idlePart c.part = true)) :
    execCrewRetire cid s = .next (if s.leaveReady cid then s.removeCrew cid else s.stepLeave cid) := by
  rw [crewRetire_of_resident hc hs, if_pos]
  simpa only [Bool.or_eq_true, Bool.and_eq_true, decide_eq_true_eq, and_assoc] using h

theorem crewRetire_of_held (h : (c.leaving = some .save ∧ (c.stopping = none ∨ s.idlePart c.part = false)) ∨
    (c.leaving = none ∧ s.idleCrew cid c = false)) : execCrewRetire cid s = .next s := by
  rw [crewRetire_of_resident hc hs]
  obtain ⟨hl, hn⟩ | ⟨hl, hi⟩ := h
  · have hb : (c.stopping.isSome && s.idlePart c.part) = false :=
      Bool.and_eq_false_iff.2 (hn.imp_left fun hn => by rw [hn]; rfl)
    rw [hl, Bool.and_assoc, hb]
    rfl
  · rw [hl, hi]
    rfl

section
variable (hl : c.leaving = none) (hi : s.idleCrew cid c = true)
include hl hi

theorem crewRetire_of_idle : execCrewRetire cid s = .next (
    if (c.cohorts.all (fun h => decide (h.live = 0)) && c.children.isEmpty && s.jobsOver cid c && !s.finPending cid) ||
      c.stopping.isSome then s.beginLeave cid .retire else s) := by
  rw [crewRetire_of_resident hc hs, hl, hi]
  rfl

theorem crewRetire_of_stopping (h : c.stopping.isSome = true) :
    execCrewRetire cid s = .next (s.beginLeave cid .retire) := by
  rw [crewRetire_of_idle hc hs hl hi, h, Bool.or_true, if_pos rfl]

theorem crewRetire_of_done (hd : ∀ h ∈ c.cohorts, h.live = 0) (hk : c.children = []) (hj : s.jobsOver cid c = true)
    (hf : s.finPending cid = false) : execCrewRetire cid s = .next (s.beginLeave cid .retire) := by
  have ha : c.cohorts.all (fun h => decide (h.live = 0)) = true := by simpa only [List.all_eq_true, decide_eq_true_eq] using hd
  rw [crewRetire_of_idle hc hs hl hi, ha, hk, hj, hf]
  rfl

theorem crewRetire_of_live (hn : c.stopping = none) (hv : ∃ h ∈ c.cohorts, h.live ≠ 0) : execCrewRetire cid s = .next s := by
  have ha : c.cohorts.all (fun h => decide (h.live = 0)) = false := by
    simpa only [List.all_eq_false, decide_eq_true_eq] using hv
  rw [crewRetire_of_idle hc hs hl hi, ha, hn]
  rfl

end

end

/-! Events of what does not exist. -/

theorem crewEvents_of_no_crew {n : Nat} {s : State} (k : Nat) (h : smGet s.crews n = none) :
    execDeadline n k s = .next s ∧ execChannelGrow n k s = .next s ∧ execCyclicWaitDetect n s = .next s ∧
      execCwaitResume n s = .next s ∧ execCrewRetire n s = .next s := by
  simp only [execDeadline, execChannelGrow, execCyclicWaitDetect, execCwaitResume, execCrewRetire, h, and_self]

theorem gridEvents_of_no_grid {n : Nat} {s : State} (k : Nat) (h : smGet s.grids n = none) :
    execGbarRelease n k s = .next s ∧ execGbarStall n s = .next s ∧ execZoneCheckpoint n s = .next s := by
  simp only [execGbarRelease, execGbarStall, execZoneCheckpoint, h, and_self]

theorem dispatchEvents_of_no_part {n : Nat} {s : State} (h : smGet s.parts n = none) :
    execDispatch n s = .next s ∧ execReservationTimeout n s = .next s := by
  simp only [execDispatch, execReservationTimeout, h, and_self]

end Sys2Proof.Machine
end

section
/-!
The statement of spec/14_execution_and_control.md and spec/15_scheduling.md on crew queues, work donation and the retirement of crews.
-/

open Sys2Proof Sys2Proof.Machine

/-- Settles O52, a lemma to each branch of the events (`crewQueueStart_of_…`, `stealReply_of_…`, `crewRetire_of_…`). -/
theorem gridEvents : Obligations.GridEvents := by
  refine ⟨fun p s => ⟨crewQueueStart_of_empty, fun b hb => ⟨crewQueueStart_of_no_grid hb, fun g t hg ht => ?start⟩⟩,
    fun p tag s t ht => ⟨stealRequest_of_unfit ht, fun v => stealRequest_of_idle ht⟩,
    fun p s => ⟨stealVictim_of_unasked, fun thief c t l => stealVictim_of_asked⟩, fun p s => ?reply, fun cid s c hc => ?retire,
    fun n k s => ⟨crewEvents_of_no_crew k, gridEvents_of_no_grid k, dispatchEvents_of_no_part⟩⟩
  case start =>
    exact ⟨crewQueueStart_of_stopped hb hg ht, fun hq hr hu =>
      ⟨crewQueueStart_of_no_room hb hg ht hq hr hu, fun _ => crewQueueStart_of_room hb hg ht hq hr hu⟩⟩
  case reply =>
    exact ⟨stealReply_of_no_request, fun t ht => ⟨stealReply_of_unanswered ht, stealReply_of_none_shipped ht,
      fun b g q base h hb hg hq u hu hf => stealReply_of_one_shipped ht h hb hg hq hu hf⟩⟩
  case retire =>
    refine ⟨fun hs => ?_, fun hs => ⟨fun h => ?_, crewRetire_of_held hc hs, fun hl hi => crewRetire_of_stopping hc hs hl hi,
      fun hl hi => crewRetire_of_done hc hs hl hi, fun hl hi => crewRetire_of_live hc hs hl hi⟩⟩
    · exact ⟨fun h => (crewRetire_of_saved hc hs).trans (by rw [if_pos h]),
        fun h => (crewRetire_of_saved hc hs).trans (by rw [h]; rfl)⟩
    · exact ⟨fun hr => (crewRetire_of_leaving hc hs h).trans (by rw [if_pos hr]),
        fun hr => (crewRetire_of_leaving hc hs h).trans (by rw [hr]; rfl)⟩
end

section
/-!
Management commands: creation, the commands that need a partition that runs, and the quiesce protocol, a lemma to each branch (R412 to
R414, R416 to R418, R458).
-/

namespace Sys2Proof.Machine

/-! Creation. -/

section
variable {c : CreateCmd} {s : State} {t : Part}

theorem createErr_of_busy (h : s.lifecycle = 4 ∨ c.tag = 0 ∨ Config.maxTag < c.tag ∨ (smGet s.parts c.tag).isSome = true ∨
    (∃ x ∈ smGetD s.leftCells c.tag [], (s.cell x).1 = 2) ∨ (∃ x ∈ s.areas, x.2.2.1 = 2 ∧ x.2.2.2 = c.tag)) :
    s.createErr c t = some .busy := by
  have hb : (decide (s.lifecycle = 4) || decide (c.tag = 0) || decide (Config.maxTag < c.tag) || (smGet s.parts c.tag).isSome ||
      ((smGetD s.leftCells c.tag []).any fun x => decide ((s.cell x).1 = 2)) ||
      s.areas.any fun x => decide (x.2.2.1 = 2) && decide (x.2.2.2 = c.tag)) = true := by
    simpa only [Bool.or_eq_true, Bool.and_eq_true, decide_eq_true_eq, List.any_eq_true, or_assoc] using h
  simp only [State.createErr, hb, failIf, if_true, firstErr]

theorem createErr_eq_none (h : s.createErr c t = none) : s.lifecycle ≠ 4 ∧ c.tag ≠ 0 ∧ c.tag ≤ Config.maxTag ∧
    smGet s.parts c.tag = none ∧ (∀ x ∈ smGetD s.leftCells c.tag [], (s.cell x).1 ≠ 2) ∧
    (∀ x ∈ s.areas, x.2.2.1 = 2 → x.2.2.2 ≠ c.tag) ∧ s.allReady c.res = true ∧ s.ownedElsewhere c.tag c.res = false ∧
    t.legal = true ∧ c.map.length = c.w * c.h ∧
    (c.pmode.getLsbD 63 = true → fld c.pmode 62 59 ≠ 0 ∧ 100 ≤ fld c.pmode 49 30 ∧ fld c.pmode 49 30 ≤ 1000000) ∧
    s.areasFit c.tag t = true := by
  simp only [State.createErr, firstErr_cons_eq_none, failIf_eq_none, Bool.or_eq_false_iff, Bool.and_eq_false_iff,
    decide_eq_false_iff_not, List.any_eq_false, Bool.and_eq_true, decide_eq_true_eq, Bool.not_eq_false', not_and,
    not_not, Nat.not_lt, Option.isSome_eq_false_iff, Option.isNone_iff_eq_none] at h
  obtain ⟨⟨⟨⟨⟨⟨hl, h0⟩, hm⟩, hp⟩, hc⟩, ha⟩, hr, ho, ⟨⟨hg, hn⟩, ht⟩, hf, -⟩ := h
  refine ⟨hl, h0, hm, hp, hc, ha, hr, ho, hg, hn, fun h63 => ?_, hf⟩
  obtain ht | ⟨⟨hw, hlo⟩, hhi⟩ := ht
  · exact absurd (ht.symm.trans h63) Bool.false_ne_true
  · exact ⟨hw, hlo, hhi⟩

theorem create_of_unlocking (h : s.unlocking = true) : execCreate c s = .next s := by
  simp only [execCreate, if_pos h]

variable (h : s.unlocking = false)
include h

theorem create_of_error (ht : t = createPart c s.time) {e : MgmtErr} (he : s.createErr c t = some e) :
    execCreate c s = .next (s.mgmtDone c.tag (some e)) := by
  subst ht
  simp only [execCreate, h, he, Bool.false_eq_true, if_false]

section
variable (ht : t = createPart c s.time) (he : s.createErr c t = none) {u v : State}
  (hu : u = forL c.res.clusters s.clearLatches fun p s => s.joinCluster p)
  (hv : v = ({ u with parts := smSet u.parts c.tag t, leftCells := smDel u.leftCells c.tag }.setOcc c.tag c.res.slices).setAreas c.tag)
include ht he hu hv

theorem create_of_hold {n : Nat} (hn : v.incHold c.tag = some n) : execCreate c s = .next (v.modPart c.tag fun t =>
    { t with qst := 4, holdUntil := some (n, true) }) := by
  subst ht hu hv
  simp only [execCreate, h, he, hn, Bool.false_eq_true, if_false]

theorem create_of_no_hold (hn : v.incHold c.tag = none) : execCreate c s = .next ((v.goLive c.tag).mgmtDone c.tag none) := by
  subst ht hu hv
  simp only [execCreate, h, he, hn, Bool.false_eq_true, if_false]

end

end

/-! Commands that need a partition that runs. -/

section
variable {tag : Nat} {s : State} {f : Part → State}

theorem whenRunning_of_no_part (h : smGet s.parts tag = none) : s.whenRunning tag f = s.mgmtDone tag (some .busy) := by
  simp only [State.whenRunning, h]

variable {t : Part} (hp : smGet s.parts tag = some t)
include hp

theorem whenRunning_of_not_running (hq : t.qst ≠ 0) : s.whenRunning tag f = s.mgmtDone tag (some .busy) := by
  simp only [State.whenRunning, hp, if_pos hq]

theorem whenRunning_of_reshape (hq : t.qst = 0) (hr : t.reshape.isSome = true) : s.whenRunning tag f = s := by
  simp only [State.whenRunning, hp, hq, hr, ne_eq, not_true_eq_false, if_false, if_true]

theorem whenRunning_of_running (hq : t.qst = 0) (hr : t.reshape = none) : s.whenRunning tag f = f t := by
  simp only [State.whenRunning, hp, hq, hr, ne_eq, not_true_eq_false, if_false, Option.isSome_none, Bool.false_eq_true]

end

/-- What becomes of such a command in a state, with outcome `o`; `Q` says what it does in a partition that runs. -/
def RunsOrBusy (tag : Nat) (s : State) (o : Host.Outcome State Fault Refusal) (Q : Part → Prop) : Prop :=
  (smGet s.parts tag = none → o = .next (s.mgmtDone tag (some .busy))) ∧ ∀ t, smGet s.parts tag = some t →
    (t.qst ≠ 0 → o = .next (s.mgmtDone tag (some .busy))) ∧ (t.qst = 0 → t.reshape.isSome = true → o = .next s) ∧
      (t.qst = 0 → t.reshape = none → Q t)

theorem whenRunning_runsOrBusy {tag : Nat} {s : State} {f : Part → State} {Q : Part → Prop}
    (h : ∀ t, smGet s.parts tag = some t → t.qst = 0 → t.reshape = none → Q t) :
    RunsOrBusy tag s (.next (s.whenRunning tag f)) Q :=
  ⟨fun hp => congrArg _ (whenRunning_of_no_part hp), fun t hp => ⟨fun hq => congrArg _ (whenRunning_of_not_running hp hq),
    fun hq hr => congrArg _ (whenRunning_of_reshape hp hq hr), h t hp⟩⟩

section
variable {tag : Nat} {s : State} {t : Part} (hp : smGet s.parts tag = some t) (hq : t.qst = 0) (hr : t.reshape = none)
  {r : Reshape}
include hp hq hr

theorem acceptReshape_of_bad : s.acceptReshape tag r true = s.mgmtDone tag (some .shape) :=
  (whenRunning_of_running hp hq hr).trans (if_pos rfl)

theorem acceptReshape_of_error {e : MgmtErr} (he : s.reshapeErr tag t (t.reshaped r) = some e) :
    s.acceptReshape tag r false = s.mgmtDone tag (some e) := by
  rw [State.acceptReshape, whenRunning_of_running hp hq hr]
  simp only [he, Bool.false_eq_true, if_false]

theorem acceptReshape_of_shape (he : s.reshapeErr tag t (t.reshaped r) = none) : s.acceptReshape tag r false =
    (s.modPart tag fun t => { t with qst := 1, reshape := some r, tdisp := t.tdisp.toError }).leaveAll tag := by
  rw [State.acceptReshape, whenRunning_of_running hp hq hr]
  simp only [he, Bool.false_eq_true, if_false]
  rfl

end

theorem grow_of_unlocking {part : Nat} {c : ShapeCmd} {s : State} (h : s.unlocking = true) : execGrow part c s = .next s := by
  simp only [execGrow, if_pos h]

theorem grow_of_unlocked {part : Nat} {c : ShapeCmd} {s : State} (h : s.unlocking = false) :
    execGrow part c s = .next (s.acceptReshape part (.grow c) false) := by
  simp only [execGrow, h, Bool.false_eq_true, if_false]

section
variable {part : Nat} {l : List (Nat × Nat)} {s : State} {t : Part} (hp : smGet s.parts part = some t)
include hp

/-- The test of the listed positions: COMPACT takes mapped positions to cluster sites. -/
theorem compact_of_part : execCompact part l s = .next (s.acceptReshape part (.compact l)
    (l.any fun m => isSliceSite m.2 || decide (4096 ≤ m.2) || !(t.positions.any fun p => p.1 = m.1))) := by
  simp only [execCompact, hp]

theorem compact_of_sites (h : ∀ m ∈ l, isSliceSite m.2 = false ∧ m.2 < 4096 ∧ ∃ y ∈ t.positions, y.1 = m.1) :
    execCompact part l s = .next (s.acceptReshape part (.compact l) false) := by
  have hb : (l.any fun m => isSliceSite m.2 || decide (4096 ≤ m.2) || !(t.positions.any fun p => p.1 = m.1)) = false := by
    simpa only [List.any_eq_false, Bool.not_eq_true, Bool.or_eq_false_iff, decide_eq_false_iff_not, Nat.not_le, Bool.not_eq_false',
      List.any_eq_true, decide_eq_true_eq, and_assoc] using h
  rw [compact_of_part hp, hb]

theorem compact_of_bad_site (hq : t.qst = 0) (hr : t.reshape = none)
    (h : ∃ m ∈ l, isSliceSite m.2 = true ∨ 4096 ≤ m.2 ∨ ∀ y ∈ t.positions, y.1 ≠ m.1) :
    execCompact part l s = .next (s.mgmtDone part (some .shape)) := by
  have hb : (l.any fun m => isSliceSite m.2 || decide (4096 ≤ m.2) || !(t.positions.any fun p => p.1 = m.1)) = true := by
    simpa only [List.any_eq_true, Bool.or_eq_true, decide_eq_true_eq, Bool.not_eq_true', List.any_eq_false, or_assoc] using h
  rw [compact_of_part hp, hb, acceptReshape_of_bad hp hq hr]

end

/-! The quiesce protocol. -/

section
variable {part : Nat} {s : State} {t : Part} (hp : smGet s.parts part = some t)
include hp

theorem quiesceDone_of_not_quiescing (hq : t.qst ≠ 1) : execQuiesceDone part s = .next s := by
  simp only [execQuiesceDone, hp, if_pos hq]

section
variable (hq : t.qst = 1)
include hq

theorem quiesceDone_of_undrained (hd : s.allDrained part = false) : execQuiesceDone part s = .next (s.leaveAll part) := by
  simp only [execQuiesceDone, hp, hq, hd, ne_eq, not_true_eq_false, if_false, Bool.not_false, if_true]

variable (hd : s.allDrained part = true) {u : State} (hu : u = s.saveAll part)
include hd hu

theorem quiesceDone_of_quiesce (hr : t.reshape = some .quiesce) : execQuiesceDone part s = .next
    ((u.replaceFailing part).modPart part fun t => { t with qst := 2 }) := by
  subst hu
  simp only [execQuiesceDone, hp, hq, hd, hr, ne_eq, not_true_eq_false, Bool.not_true, Bool.false_eq_true, if_false,
    Option.getD_some]

theorem quiesceDone_of_refit (hr : t.reshape = some .refit) : execQuiesceDone part s = .next
    ((u.replaceFailing part).modPart part fun t => { t with qst := 3 }) := by
  subst hu
  simp only [execQuiesceDone, hp, hq, hd, hr, ne_eq, not_true_eq_false, Bool.not_true, Bool.false_eq_true, if_false,
    Option.getD_some]

variable {r : Reshape} (hr : t.reshape = some r) (h1 : r ≠ .quiesce) (h2 : r ≠ .refit)
include hr h1 h2

theorem quiesceDone_of_unready {e : MgmtErr} (he : s.stillReady t (t.reshaped r) = .error e) :
    execQuiesceDone part s = .next (((u.mgmtDone part (some e)).replaceFailing part).modPart part fun t => { t with qst := 3 }) := by
  subst hu
  simp only [execQuiesceDone, hp, hq, hd, hr, he, ne_eq, not_true_eq_false, Bool.not_true, Bool.false_eq_true, if_false,
    Option.getD_some]

variable {t' : Part} (ht : s.stillReady t (t.reshaped r) = .ok t')
include ht

omit hu in
theorem quiesceDone_of_wait (hc : s.channelErr part t t' = .inl .wait) : execQuiesceDone part s = .next s := by
  simp only [execQuiesceDone, hp, hq, hd, hr, ht, hc, ne_eq, not_true_eq_false, Bool.not_true, Bool.false_eq_true, if_false,
    Option.getD_some]

theorem quiesceDone_of_channel_error {e : MgmtErr} (hc : s.channelErr part t t' = .inl (.done e)) : execQuiesceDone part s = .next
    (((u.mgmtDone part (some e)).replaceFailing part).modPart part fun t => { t with qst := 3 }) := by
  subst hu
  simp only [execQuiesceDone, hp, hq, hd, hr, ht, hc, ne_eq, not_true_eq_false, Bool.not_true, Bool.false_eq_true, if_false,
    Option.getD_some]

theorem quiesceDone_of_shape (hc : s.channelErr part t t' = .inr ()) : execQuiesceDone part s = .next
    (((((u.applyShape part t t').replaceUnready part (t.added t').clusters).mgmtDone part none).replaceFailing part).modPart part
      fun t => { t with qst := 3 }) := by
  subst hu
  simp only [execQuiesceDone, hp, hq, hd, hr, ht, hc, ne_eq, not_true_eq_false, Bool.not_true, Bool.false_eq_true, if_false,
    Option.getD_some]

end

theorem resume_of_quiesced (hq : t.qst = 2) (hr : t.reshape = some .quiesce) : execResume part s = .next
    ((s.modPart part fun t => { t with qst := 3 }).mgmtDone part none) := by
  simp only [execResume, hp, hq, hr, decide_true, Bool.and_self, if_true]

theorem resume_of_not_quiesced (h : t.qst ≠ 2 ∨ t.reshape ≠ some .quiesce) :
    execResume part s = .next (s.mgmtDone part (some .busy)) := by
  have hb : (decide (t.qst = 2) && decide (t.reshape = some .quiesce)) = false := by
    simpa only [Bool.and_eq_false_iff, decide_eq_false_iff_not] using h
  simp only [execResume, hp, hb, Bool.false_eq_true, if_false]

theorem resumeDone_of_not_resuming (hq : t.qst ≠ 3) : execResumeDone part s = .next s := by
  simp only [execResumeDone, hp, if_pos hq]

section
variable (hq : t.qst = 3) {u : State}
  (hu : u = ((s.restoreAll part t.ctxNow).modPart part fun t => { t with qst := 0, reshape := none }).sendPending part)
include hq hu

theorem resumeDone_of_quiesce (hr : t.reshape = some .quiesce) : execResumeDone part s = .next (u.mgmtDone part none) := by
  subst hu
  simp only [execResumeDone, hp, hq, hr, ne_eq, not_true_eq_false, if_false, if_true]

theorem resumeDone_of_reshape (hr : t.reshape ≠ some .quiesce) : execResumeDone part s = .next u := by
  subst hu
  simp only [execResumeDone, hp, hq, if_neg hr, ne_eq, not_true_eq_false, if_false]

end

end

section
variable {part : Nat} {s : State} (h : smGet s.parts part = none)
include h

theorem resume_of_no_part : execResume part s = .next (s.mgmtDone part (some .busy)) := by
  simp only [execResume, h]

theorem partitionEvents_of_no_part : execIncarnationHoldExpiry part s = .next s ∧ execQuiesceDone part s = .next s ∧
    execResumeDone part s = .next s ∧ execSliceEnd part s = .next s := by
  simp only [execIncarnationHoldExpiry, execQuiesceDone, execResumeDone, execSliceEnd, h, and_self]

end

end Sys2Proof.Machine
end

section
/-!
The statement of spec/19_partitions.md on the management commands of partitions.
-/

open Sys2Proof Sys2Proof.Machine

/-- Settles O53: a creation has one lemma to each of its branches (`create_of_…`), the commands to a running partition share
`whenRunning_of_…` and `acceptReshape_of_…`, and the quiesce protocol takes the branch of its reshaping (`quiesceDone_of_…`). BUSY for
a live tag, for cells not yet cleared and for the lifecycle is the model's choice (log 15). -/
theorem partitionCommands : Obligations.PartitionCommands := by
  refine ⟨fun c s => ?create, fun c s t => ⟨createErr_of_busy, createErr_eq_none⟩, fun part c s => ?grow, fun part c s => ?shrink,
    fun part l s => ?compact, fun part l s t hp hq hr h => compact_of_bad_site hp hq hr h, fun part s => ?quiesce,
    fun part qp v s => ?setqos, fun part s t hp => ?done, fun part s => ?resume, fun part s t hp => ?resumed,
    fun part s hp => partitionEvents_of_no_part hp⟩
  case create =>
    exact ⟨create_of_unlocking, fun h t ht => ⟨fun e he => create_of_error h ht he, fun he u hu v hv =>
      ⟨fun n hn => create_of_hold h ht he hu hv hn, create_of_no_hold h ht he hu hv⟩⟩⟩
  case grow =>
    refine ⟨grow_of_unlocking, fun h => ?_⟩
    rw [show exec (.grow part c) s = _ from grow_of_unlocked h]
    exact whenRunning_runsOrBusy fun t hp hq hr => ⟨fun e he => congrArg Host.Outcome.next (acceptReshape_of_error hp hq hr he),
      fun he => congrArg Host.Outcome.next (acceptReshape_of_shape hp hq hr he)⟩
  case shrink =>
    exact whenRunning_runsOrBusy fun t hp hq hr => ⟨fun e he => congrArg Host.Outcome.next (acceptReshape_of_error hp hq hr he),
      fun he => congrArg Host.Outcome.next (acceptReshape_of_shape hp hq hr he)⟩
  case compact =>
    exact whenRunning_runsOrBusy fun t hp hq hr hl =>
      ⟨fun e he => (compact_of_sites hp hl).trans (congrArg Host.Outcome.next (acceptReshape_of_error hp hq hr he)),
        fun he => (compact_of_sites hp hl).trans (congrArg Host.Outcome.next (acceptReshape_of_shape hp hq hr he))⟩
  case quiesce =>
    exact whenRunning_runsOrBusy fun t hp hq hr => congrArg Host.Outcome.next (whenRunning_of_running hp hq hr)
  case setqos =>
    exact whenRunning_runsOrBusy fun t hp hq hr => congrArg Host.Outcome.next (whenRunning_of_running hp hq hr)
  case done =>
    exact ⟨quiesceDone_of_not_quiescing hp, quiesceDone_of_undrained hp, fun hq hd u hu =>
      ⟨quiesceDone_of_quiesce hp hq hd hu, quiesceDone_of_refit hp hq hd hu,
        fun r e hr h1 h2 he => quiesceDone_of_unready hp hq hd hu hr h1 h2 he, fun r t' hr h1 h2 ht =>
        ⟨quiesceDone_of_wait hp hq hd hr h1 h2 ht, fun e hc => quiesceDone_of_channel_error hp hq hd hu hr h1 h2 ht hc,
          quiesceDone_of_shape hp hq hd hu hr h1 h2 ht⟩⟩⟩
  case resume => exact ⟨resume_of_no_part, fun t hp => ⟨resume_of_quiesced hp, resume_of_not_quiesced hp⟩⟩
  case resumed =>
    exact ⟨resumeDone_of_not_resuming hp, fun hq u hu => ⟨resumeDone_of_quiesce hp hq hu, resumeDone_of_reshape hp hq hu⟩⟩
end

section
/-!
Fabric events: replies, packets that leave and arrive, time-outs, links, resets and joins, the write buffer, allowances and
congestion, a lemma to each branch (R273, R276 to R279, R283, R286, R288, R294, R296, R406, R407).
-/

namespace Sys2Proof.Machine

/-! Replies. -/

section
variable {id : Nat} {s w : State} {r : FabReq} {c : Cause}

theorem fabAck_of_none (a : FabAck) (h : smGet s.fab id = none) : s.fabAck id a = s := by
  simp only [State.fabAck, h]

theorem endFab_eq (hw : w = { s.postFab r c with
    fab := (smDel (s.postFab r c).fab id).filter fun x => decide (x.2.use ≠ FabUse.mirror id) }) :
    s.endFab id r c = w.fabEnded r c := by
  subst hw
  rfl

/-- A performed request that has no mirror copy and makes none. -/
theorem doneFab_of_alone {d : List PByte} (hm : ∀ o, r.use ≠ .mirror o) (hc : r.pkt.cls ≠ 2) (hn : s.mirrorOf id = none) :
    s.doneFab id r d = (s.dropFab id).fabPerformed r d := by
  have hb : (decide (r.pkt.cls = 2) && !r.fo && s.mirrored r.part r.peer) = false := by rw [decide_eq_false hc]; rfl
  simp only [State.doneFab, hb, hn, Option.isSome_none, Bool.false_eq_true, if_false]

theorem fabPerformed_of_drain {l : List (Nat × Nat)} (h : r.use = .drain l) (d : List PByte) : s.fabPerformed r d = s := by
  simp only [State.fabPerformed, h]

theorem fabPerformed_of_read {cid co lane pid : Nat} {p : Pend} (h : r.use = .thread cid co lane pid) (hc : r.pkt.cls = 0)
    (hp : smGet s.pends pid = some p) (d : List PByte) : s.fabPerformed r d =
      s.resultLane pid lane (ldfValue p lane r.pkt.va.toNat d).val (ldfValue p lane r.pkt.va.toNat d).p := by
  simp only [State.fabPerformed, h, hp, if_pos hc]

theorem fabEnded_of_thread {cid co lane pid : Nat} (h : r.use = .thread cid co lane pid) : s.fabEnded r c =
    (s.resultLane pid lane [] true).dueTrap cid co lane (s.fabTrap r c (canon r.pkt.va.toNat)) := by
  simp only [State.fabEnded, h]

theorem fabEnded_of_drain {l : List (Nat × Nat)} (h : r.use = .drain l) :
    s.fabEnded r c = s.trapWriters l (s.fabTrap r c (canon r.pkt.va.toNat)) := by
  simp only [State.fabEnded, h]

section
variable {a : FabAck} (hr : smGet s.fab id = some r)
include hr

theorem fabAck_of_over (h : r.sent = none ∨ r.primary = true) : s.fabAck id a = s := by
  have hb : (r.sent.isNone || r.primary) = true := by
    simpa only [Bool.or_eq_true, Option.isNone_iff_eq_none] using h
  simp only [State.fabAck, hr, hb, if_true]

variable {t : Nat} (ht : r.sent = some t) (hp : r.primary = false) {u : State}
  (hu : u = s.peerAlive r.part r.pkt.dmod.toNat r.pkt.dtag.toNat)
include ht hp hu

theorem fabAck_of_performed (he : a.ended = false) : s.fabAck id a = u.doneFab id r (a.data.zip a.pz) := by
  subst hu
  simp only [State.fabAck, hr, ht, hp, he, Option.isNone_some, Bool.or_self, Bool.false_eq_true, if_false]

theorem fabAck_of_ended (hm : ∀ o, r.use ≠ .mirror o) (he : a.ended = true) : s.fabAck id a = u.endFab id r a.cause := by
  subst hu
  simp only [State.fabAck, hr, ht, hp, he, Option.isNone_some, Bool.or_self, Bool.false_eq_true, if_false, if_true]

end

/-! Requests lost. -/

section
variable (hm : ∀ o, r.use ≠ .mirror o) (hp : r.primary = false)
include hm hp

theorem fabLost_of_single (h : peerSv (s.peer r.part r.peer) = false ∨ r.fo = true) : s.fabLost id r c = s.endFab id r c := by
  have hb : (peerSv (s.peer r.part r.peer) && !r.fo) = false := by
    simpa only [Bool.and_eq_false_iff, Bool.not_eq_false'] using h
  simp only [State.fabLost, hp, hb, Bool.false_eq_true, if_false]

theorem fabLost_of_mirrored (hv : peerSv (s.peer r.part r.peer) = true) (hf : r.fo = false) :
    s.fabLost id r c = s.failover id r := by
  simp only [State.fabLost, hp, hv, hf, Bool.not_false, Bool.and_self, Bool.false_eq_true, if_false, if_true]

end

theorem postFab_of_fabCause (h : isFabCause c = true) : s.postFab r c = s.postInfo r.part c (canon r.pkt.va.toNat)
    (4096 * peerMod (s.peer r.part (s.fabTarget r)) + s.fabTarget r) := by
  simp only [State.postFab, h, if_true]

theorem postFab_of_other (h : isFabCause c = false) : s.postFab r c = s := by
  simp only [State.postFab, h, Bool.false_eq_true, if_false]

end

/-! Packets that leave. -/

section
variable {id port : Nat} {o s : State} (hs : s = o.noteWindow (5124 + port) (o.portItems port))
include hs

section
variable {f : Nat} {det : Bool} {k : FabPkt} (he : smGet s.egress id = some (f, det, k))
include he

theorem egressRoute_of_other_port (hf : f ≠ port) : execFabricEgressRoute id port o = .next s := by
  subst hs
  simp only [execFabricEgressRoute, he, if_pos hf]

theorem egressRoute_of_up (hf : f = port) (hu : s.portUp f = true) : execFabricEgressRoute id port o = .next { s with
    egress := smDel s.egress id
    fabOut := s.fabOut ++ [(f, { k with det := k.det || det, hops := k.hops + 1 })] } := by
  subst hs hf
  simp only [execFabricEgressRoute, he, hu, ne_eq, not_true_eq_false, if_false, if_true]
  rfl

theorem egressRoute_of_down (hf : f = port) (hu : s.portUp f = false) :
    execFabricEgressRoute id port o = .next ({ s with egress := smDel s.egress id }.emit k) := by
  subst hs hf
  simp only [execFabricEgressRoute, he, hu, ne_eq, not_true_eq_false, Bool.false_eq_true, if_false]

end

variable (he : smGet s.egress id = none)
include he

theorem egressRoute_of_none (hf : smGet s.fab id = none) : execFabricEgressRoute id port o = .next s := by
  subst hs
  simp only [execFabricEgressRoute, he, hf]

variable {r : FabReq} (hf : smGet s.fab id = some r)
include hf

theorem egressRoute_of_held (h : r.sent.isSome = true ∨ r.primary = true ∨ s.streamBusy r = true) :
    execFabricEgressRoute id port o = .next s := by
  subst hs
  simp only [execFabricEgressRoute, he, hf]
  rw [if_pos (by simpa only [Bool.or_eq_true, or_assoc] using h)]

variable (hn : r.sent = none) (hp : r.primary = false) (hb : s.streamBusy r = false)
  {u : State} (hu : u = { s with fab := smSet s.fab id { r with sent := some s.time } })
include hn hp hb

section
variable (hd : r.pkt.dmod ≠ Config.fabmod)
include hd

theorem egressRoute_of_other_way {f : Nat} {det : Bool} (hk : s.routePkt r.pkt = some (f, det)) (hne : f ≠ port) :
    execFabricEgressRoute id port o = .next s := by
  subst hs
  simp only [execFabricEgressRoute, he, hf, hn, hp, hb, hk, if_neg hd, if_neg hne, Option.isSome_none, Bool.or_self,
    Bool.false_eq_true, if_false]

include hu

theorem egressRoute_of_way {det : Bool} (hk : s.routePkt r.pkt = some (port, det)) : execFabricEgressRoute id port o = .next
    { u with fabOut := u.fabOut ++ [(port, { r.pkt with det := r.pkt.det || det, hops := r.pkt.hops + 1 })] } := by
  subst hu hs
  simp only [execFabricEgressRoute, he, hf, hn, hp, hb, hk, if_neg hd, Option.isSome_none, Bool.or_self, Bool.false_eq_true,
    if_false, if_true]
  rfl

theorem egressRoute_of_no_way (hk : s.routePkt r.pkt = none) {f : Nat} (hh : f = (productivePorts r.pkt.dmod.toNat).headD 0) :
    execFabricEgressRoute id port o =
      .next { u with portDrop := smSet s.portDrop f (satCount (smGetD s.portDrop f 0)) } := by
  subst hu hs hh
  simp only [execFabricEgressRoute, he, hf, hn, hp, hb, hk, if_neg hd, Option.isSome_none, Bool.or_self, Bool.false_eq_true,
    if_false]
  rfl

end

include hu

section
variable (hd : r.pkt.dmod = Config.fabmod)
include hd

theorem egressRoute_of_stale (hi : ∀ p, smGet s.parts r.pkt.dtag.toNat = some p → p.inc ≠ r.pkt.dinc) :
    execFabricEgressRoute id port o = .next u := by
  subst hu hs
  simp only [execFabricEgressRoute, he, hf, hn, hp, hb, if_pos hd, Option.isSome_none, Bool.or_self, Bool.false_eq_true, if_false]
  split
  next p hg => rw [if_neg (hi p hg)]
  · rfl

variable {p : Part} (hg : smGet s.parts r.pkt.dtag.toNat = some p) (hi : p.inc = r.pkt.dinc)
include hg hi

theorem egressRoute_of_turn : execFabricEgressRoute id port o = .next ((u.accept r.pkt).getD s) := by
  subst hu hs
  simp only [execFabricEgressRoute, he, hf, hn, hp, hb, hg, if_pos hd, if_pos hi, Option.isSome_none, Bool.or_self,
    Bool.false_eq_true, if_false]
  split
  next t ha => rw [ha, Option.getD_some]
  next ha => rw [ha, Option.getD_none]

theorem egressRoute_of_accepted {t : State} (ha : u.accept r.pkt = some t) : execFabricEgressRoute id port o = .next t := by
  rw [egressRoute_of_turn hs he hf hn hp hb hu hd hg hi, ha, Option.getD_some]

theorem egressRoute_of_wait (ha : u.accept r.pkt = none) : execFabricEgressRoute id port o = .next s := by
  rw [egressRoute_of_turn hs he hf hn hp hb hu hd hg hi, ha, Option.getD_none]

end

end

/-! Packets that arrive. -/

section
variable {port : Nat} {k : FabPkt} {s t : State} (ht : t = s.retryInbound)
include ht

theorem ingress_of_down (h : t.fpRdy.contains port = false) : execFabricIngress port k s = .next t := by
  subst ht
  simp only [execFabricIngress, State.portUp, h, Bool.not_false, if_true]

variable (h : t.fpRdy.contains port = true)
include h

theorem ingress_of_reserved (h7 : k.cls = 7) : execFabricIngress port k s = .next
    { t with portDrop := smSet t.portDrop port (satCount (smGetD t.portDrop port 0)) } := by
  subst ht
  simp only [execFabricIngress, State.portUp, h, Bool.not_true, Bool.false_eq_true, if_false, if_pos h7]
  rfl

theorem ingress_of_transit (h7 : k.cls ≠ 7) (hd : k.dmod ≠ Config.fabmod) : execFabricIngress port k s = .next (t.emit k) := by
  subst ht
  simp only [execFabricIngress, State.portUp, h, Bool.not_true, Bool.false_eq_true, if_false, if_neg h7, if_pos hd]

variable (hd : k.dmod = Config.fabmod)
include hd

theorem ingress_of_service (h6 : k.cls = 6) : execFabricIngress port k s = .next (t.service k) := by
  subst ht
  have h7 : k.cls ≠ 7 := by rw [h6]; decide
  simp only [execFabricIngress, State.portUp, h, hd, ne_eq, not_true_eq_false, Bool.not_true, Bool.false_eq_true, if_false, if_neg h7,
    if_pos h6]

section
variable (h6 : k.cls ≠ 6) (h7 : k.cls ≠ 7)
include h6 h7

theorem ingress_of_not_admitted (ha : t.admits port k = false) : execFabricIngress port k s = .next
    (({ t with portTag := smSet t.portTag port (satCount (smGetD t.portTag port 0)) }).logSvc cTagDrop port k.ssite.toNat
      k.dtag.toNat) := by
  subst ht
  simp only [execFabricIngress, State.portUp, h, hd, ha, ne_eq, not_true_eq_false, Bool.not_true, Bool.not_false,
    Bool.false_eq_true, if_false, if_true, if_neg h7, if_neg h6]
  rfl

theorem ingress_of_admitted (ha : t.admits port k = true) : execFabricIngress port k s = .next (
    if k.cls = 5 then t.control k else if k.cls = 3 || k.cls = 4 then t.replied k else (t.accept k).getD t) := by
  subst ht
  simp only [execFabricIngress, State.portUp, h, hd, ha, ne_eq, not_true_eq_false, Bool.not_true, Bool.false_eq_true, if_false,
    if_neg h7, if_neg h6]

variable (ha : t.admits port k = true)
include ha

theorem ingress_of_control (h5 : k.cls = 5) : execFabricIngress port k s = .next (t.control k) := by
  rw [ingress_of_admitted ht h hd h6 h7 ha, if_pos h5]

theorem ingress_of_reply (hc : k.cls = 3 ∨ k.cls = 4) : execFabricIngress port k s = .next (t.replied k) := by
  have h5 : k.cls ≠ 5 := by obtain hc | hc := hc <;> rw [hc] <;> decide
  rw [ingress_of_admitted ht h hd h6 h7 ha, if_neg h5, if_pos (by simpa only [Bool.or_eq_true, decide_eq_true_eq] using hc)]

theorem ingress_of_request (hc : k.cls = 0 ∨ k.cls = 1 ∨ k.cls = 2) :
    execFabricIngress port k s = .next ((t.accept k).getD t) := by
  rw [ingress_of_admitted ht h hd h6 h7 ha]
  obtain hc | hc | hc := hc <;> rw [hc] <;> rfl

end

end

section
variable {k : FabPkt} {s : State} (hv : inHost (canon k.va.toNat) = false) {asid : BitVec 16} {a : Nat}
  (hs : asid = asidOf k.dtag.toNat k.dspace.toNat) (ha : a = (canon k.va.toNat).toNat / 32 * 32) (hc : k.cls = 0)
include hv hs ha hc

theorem accept_of_read {t : State} {d : List PByte}
    (h : s.globalParts none asid (lineParts 4 a (32 * k.ngr.toNat)) = .done (t, d)) :
    s.accept k = some (t.answer k { ended := false, cause := 0, data := d.map Prod.fst, pz := d.map Prod.snd }) := by
  have h0 : k.cls.toNat = 0 := by rw [hc]; rfl
  subst hs ha
  simp only [State.accept, State.serve, hv, h0, h, Bool.false_eq_true, if_false]
  rfl

theorem accept_of_fault {e : Cause} (h : s.globalParts none asid (lineParts 4 a (32 * k.ngr.toNat)) = .fault e)
    (he : e ≠ cPageNotPresent) : s.accept k = some (s.answer k (ackEnd e)) := by
  have h0 : k.cls.toNat = 0 := by rw [hc]; rfl
  subst hs ha
  simp only [State.accept, State.serve, hv, h0, h, if_neg he, Bool.false_eq_true, if_false]

theorem accept_of_wait (h : s.globalParts none asid (lineParts 4 a (32 * k.ngr.toNat)) = .wait) : s.accept k = none := by
  have h0 : k.cls.toNat = 0 := by rw [hc]; rfl
  subst hs ha
  simp only [State.accept, State.serve, hv, h0, h, Bool.false_eq_true, if_false]

end

/-! Time-outs. -/

section
variable {id : Nat} {s : State}

theorem fabricTimeout_of_none (h : smGet s.fab id = none) : execFabricTimeout id s = .next s := by
  simp only [execFabricTimeout, h]

variable {r : FabReq} (hr : smGet s.fab id = some r)
include hr

theorem fabricTimeout_of_over (h : r.sent = none ∨ r.primary = true) : execFabricTimeout id s = .next s := by
  simp only [execFabricTimeout, hr]
  split
  next t p ht hp =>
    have hb : (r.primary || decide (s.time < t + p.fabtmo.toNat)) = true := by
      rw [h.resolve_left (by rw [ht]; exact Option.some_ne_none t)]
      rfl
    rw [if_pos hb]
  · rfl

variable {t : Nat} {p : Part} (ht : r.sent = some t) (hp : smGet s.parts r.part = some p)
include ht hp

theorem fabricTimeout_of_early (h : s.time < t + p.fabtmo.toNat) : execFabricTimeout id s = .next s := by
  simp only [execFabricTimeout, hr, ht, hp, decide_eq_true h, Bool.or_true, if_true]

theorem fabricTimeout_of_due (hn : r.primary = false) (h : t + p.fabtmo.toNat ≤ s.time) {pid : Nat} {e : W64} {u : State}
    (hd : pid = s.fabTarget r) (he : e = s.peer r.part pid)
    (hu : u = if peerSt e = 1 then s else s.setPeer r.part pid (peerSetSt e 2)) :
    execFabricTimeout id s = .next (({ u with txnHold := u.txnHold ++
      [(4096 * r.p + r.pkt.txn.toNat, u.time + 2 * p.fabtmo.toNat)] }).fabLost id r cFabricTimeout) := by
  subst hu he hd
  simp only [execFabricTimeout, hr, ht, hp, hn, decide_eq_false (Nat.not_lt.2 h), Bool.or_self, Bool.false_eq_true, if_false]

end

/-! Links. -/

section
variable {port m : Nat} {ok : Bool} {s : State}

theorem linkTrain_of_trained (hp : port < Config.fabricPorts) (ho : ok = true) (hm : partner Config.fabmod.toNat port = some m)
    (hf : s.failed.contains (.fp, port) = false) : execLinkTrain port ok m s = .next { s with
      nextId := s.nextId + 1, fpRdy := nsAdd port s.fpRdy, replays := smDel s.replays port,
      linkKey := smSet s.linkKey port s.nextId } := by
  simp only [execLinkTrain, hm, ho, hf, decide_eq_false (Nat.not_le.2 hp), decide_true, Bool.not_true, Bool.or_self,
    Bool.false_eq_true, if_false]
  rfl

theorem linkTrain_of_untrained (h : Config.fabricPorts ≤ port ∨ ok = false ∨ partner Config.fabmod.toNat port ≠ some m ∨
    s.failed.contains (.fp, port) = true) : execLinkTrain port ok m s = .next s := by
  simp only [execLinkTrain]
  rw [if_pos]
  simp only [Bool.or_eq_true, decide_eq_true_eq, Bool.not_eq_true', or_assoc]
  refine h.imp_right fun h => h.imp_right fun h => h.imp_left fun h => ?_
  split
  next n hn =>
    rw [hn] at h
    exact decide_eq_false fun he => h (congrArg some he)
  · rfl

theorem linkFlitRetry_of_down (h : s.fpRdy.contains port = false) : execLinkFlitRetry port ok s = .next s := by
  simp only [execLinkFlitRetry, State.portUp, h, Bool.not_false, if_true]

variable (h : s.fpRdy.contains port = true)
include h

theorem linkFlitRetry_of_ok : execLinkFlitRetry port true s = .next { s with replays := smDel s.replays port } := by
  simp only [execLinkFlitRetry, State.portUp, h, Bool.not_true, Bool.false_eq_true, if_false, if_true]

theorem linkFlitRetry_of_retry (hn : smGetD s.replays port 0 + 1 < 8) : execLinkFlitRetry port false s = .next
    { s with replays := smSet s.replays port (smGetD s.replays port 0 + 1) } := by
  simp only [execLinkFlitRetry, State.portUp, h, Bool.not_true, Bool.false_eq_true, if_false, if_neg (Nat.not_le.2 hn)]

theorem linkFlitRetry_of_eighth (hn : 8 ≤ smGetD s.replays port 0 + 1) : execLinkFlitRetry port false s = .next
    { s with fpRdy := nsDel port s.fpRdy, failed := s.failed ++ [(.fp, port)], replays := smDel s.replays port } := by
  simp only [execLinkFlitRetry, State.portUp, h, Bool.not_true, Bool.false_eq_true, if_false, if_pos hn]

end

/-! Resets and joins. -/

section
variable {part m rtag inc : Nat} {s : State}

theorem resetNotice_of_no_part (h : smGet s.parts part = none) : execResetNotice part m rtag inc s = .next s := by
  simp only [execResetNotice, h]

variable {p : Part} (hp : smGet s.parts part = some p)
include hp

theorem resetNotice_of_refused (h : p.inc.toNat ≠ inc ∨
    (∀ x ∈ p.peers, peerV x.2 = true → peerMod x.2 = m → peerTag x.2 = rtag → peerSt x.2 = 1)) :
    execResetNotice part m rtag inc s = .next s := by
  have hb : (decide (p.inc.toNat = inc) && p.peers.any fun x => peerV x.2 && decide (peerMod x.2 = m) &&
      decide (peerTag x.2 = rtag) && decide (peerSt x.2 ≠ 1)) = false := by
    simpa only [Bool.and_eq_false_iff, decide_eq_false_iff_not, List.any_eq_false, Bool.and_eq_true, decide_eq_true_eq, not_and,
      not_not, and_imp] using h
  simp only [execResetNotice, hp, hb, Bool.false_eq_true, if_false]

theorem resetNotice_of_admitted (hi : p.inc.toNat = inc)
    (h : ∃ x ∈ p.peers, peerV x.2 = true ∧ peerMod x.2 = m ∧ peerTag x.2 = rtag ∧ peerSt x.2 ≠ 1) :
    execResetNotice part m rtag inc s = .next (forL s.parts s fun x s => s.resetPeer x.1 m rtag) := by
  have hb : (decide (p.inc.toNat = inc) && p.peers.any fun x => peerV x.2 && decide (peerMod x.2 = m) &&
      decide (peerTag x.2 = rtag) && decide (peerSt x.2 ≠ 1)) = true := by
    rw [decide_eq_true hi, Bool.true_and]
    simpa only [List.any_eq_true, Bool.and_eq_true, decide_eq_true_eq, and_assoc] using h
  simp only [execResetNotice, hp, hb, if_true]
  rfl

end

section
variable {part pid : Nat} {e e2 : W64} {s : State}

theorem peerJoin_of_refused (h : (smGet s.parts part).isNone = true ∨ 4096 ≤ pid) : execPeerJoin part pid e e2 s = .next s := by
  simp only [execPeerJoin]
  rw [if_pos (by simpa only [Bool.or_eq_true, decide_eq_true_eq] using h)]

section
variable (hp : (smGet s.parts part).isNone = false) (hl : pid < 4096)
include hp hl

theorem peerJoin_of_mirrored (hv : peerV e = true) (hs : peerSv e = true) : execPeerJoin part pid e e2 s = .next
    ((s.joinPeer part pid e).joinPeer part (peerSec e) e2) := by
  simp only [execPeerJoin, hp, hv, hs, decide_eq_false (Nat.not_le.2 hl), Bool.or_self, Bool.and_self, Bool.false_eq_true, if_false,
    if_true]

theorem peerJoin_of_single (h : peerV e = false ∨ peerSv e = false) :
    execPeerJoin part pid e e2 s = .next (s.joinPeer part pid e) := by
  simp only [execPeerJoin, hp, decide_eq_false (Nat.not_le.2 hl), Bool.and_eq_false_iff.2 h, Bool.or_self, Bool.false_eq_true,
    if_false]

end

section
variable {x : W64} {u : State} {p : Part} (hp : smGet s.parts part = some p) (hx : x = peerSetInc e 0)
  (hu : u = s.modPart part fun p => { p with peers := smSet p.peers pid x })
include hp hx hu

theorem joinPeer_of_part : s.joinPeer part pid e = if peerV x then u.tellPeer part x 6 1 p.inc.toNat else u := by
  have hg : smGet (s.setPeer part pid (peerSetInc e 0)).parts part =
      some { p with peers := smSet p.peers pid (peerSetInc e 0) } := by
    rw [State.setPeer, State.modPart, smGet_smMod_self, hp]
    rfl
  subst hx hu
  simp only [State.joinPeer, hg]
  rfl

theorem joinPeer_of_invalid (hv : peerV x = false) : s.joinPeer part pid e = u := by
  rw [joinPeer_of_part hp hx hu, hv]
  rfl

theorem joinPeer_of_away (hv : peerV x = true) (hm : peerMod x ≠ Config.fabmod.toNat) :
    s.joinPeer part pid e = u.emit (noticePkt part x 6 1 p.inc.toNat) := by
  rw [joinPeer_of_part hp hx hu, if_pos hv]
  exact if_neg hm

end

end

/-! The write buffer. -/

section
variable {p n : Nat} {s : State}

theorem wcbAgeDrain_of_none (h : (s.cluster p).wcb[n]? = none) : execWcbAgeDrain p n s = .next s := by
  simp only [execWcbAgeDrain, h]

variable {w : Wcb} {x : Part} (hw : (s.cluster p).wcb[n]? = some w) (hx : smGet s.parts w.part = some x)
include hw hx

theorem wcbAgeDrain_of_early (h : s.time < w.first + 64 * 2 ^ fld x.wcbage 3 0) : execWcbAgeDrain p n s = .next s := by
  simp only [execWcbAgeDrain, hw, hx, if_neg (Nat.not_le.2 h)]

theorem wcbAgeDrain_of_due (h : w.first + 64 * 2 ^ fld x.wcbage 3 0 ≤ s.time) :
    execWcbAgeDrain p n s = .next (s.drainLine p w) := by
  simp only [execWcbAgeDrain, hw, hx, if_pos h]

end

/-! Allowances and congestion. -/

theorem refill_of_same {w : Alw} {cap gain time : Nat} (h : time / 64 ≤ w.since / 64) : w.refill cap gain time = w := by
  simp only [Alw.refill, Nat.sub_eq_zero_of_le h, if_true]

theorem refill_of_later {w : Alw} {cap gain time : Nat} (h : w.since / 64 < time / 64) : w.refill cap gain time =
    { w with since := time, val := min (cap : Int) (w.val + (time / 64 - w.since / 64 : Nat) * (gain : Nat)) } := by
  simp only [Alw.refill, if_neg (Nat.sub_ne_zero_of_lt h)]

/-- A cohort of a crew of cluster `p` and partition `x` with its handles refilled (R283). -/
def State.refillCohort (s : State) (p : Nat) (c : Crew) (x : Part) (h : Cohort) : Cohort :=
  let gain (w : Alw) : Nat := (s.handleRate p c.part w).part (fld x.alwrate 15 0 * 64)
  { h with w := h.w.map fun w => w.map fun w => w.refill (fld x.alwcap 31 0) (gain w) s.time }

/-- What a refill of cluster `p` makes of a crew (R283). -/
def State.refillCrew (s : State) (p : Nat) (c : Crew) : Crew :=
  if c.p ≠ p then c
  else
    match smGet s.parts c.part with
    | none => c
    | some x => { c with cohorts := c.cohorts.map (s.refillCohort p c x) }

theorem execAllowanceRefill_eq (p : Nat) (s : State) :
    execAllowanceRefill p s = .next { s with crews := smMap (fun _ c => s.refillCrew p c) s.crews } := rfl

section
variable {p : Nat} {s : State} {c : Crew}

theorem refillCrew_of_other (h : c.p ≠ p) : s.refillCrew p c = c := if_pos h

theorem refillCrew_cohorts (h : c.p = p) {x : Part} (hx : smGet s.parts c.part = some x) :
    (s.refillCrew p c).cohorts = c.cohorts.map (s.refillCohort p c x) := by
  rw [State.refillCrew, if_neg (not_not.2 h), hx]

end

section
variable {p : Nat} {s : State}

theorem cluster_modPart (s : State) (tag : Nat) (f : Part → Part) (p : Nat) : (s.modPart tag f).cluster p = s.cluster p := rfl

theorem congestionMark_of_slice (k : Nat) : ∃ t, execCongestionMark (.slice p k) s = .next t ∧
    (t.cluster p).g = (s.cluster p).g.mark s.time ∧ t.crews = s.crews := by
  refine ⟨_, rfl, ?_⟩
  simp only [State.mark]
  split
  · exact ⟨congrArg Cluster.g ((cluster_modPart ..).trans (cluster_modCluster_self ..)), rfl⟩
  · exact ⟨congrArg Cluster.g (cluster_modCluster_self ..), rfl⟩

theorem congestionMark_of_host_owner {tag : Nat} (k : Nat) (h : s.ownerOf p = some tag) : execCongestionMark (.host p k) s =
    .next (s.modPart tag fun x => { x with fport := smSet x.fport k ((smGetD x.fport k Rate.full).mark s.time) }) := by
  simp only [execCongestionMark, State.mark, h]
  rfl

theorem congestionMark_of_host_no_owner (k : Nat) (h : s.ownerOf p = none) : execCongestionMark (.host p k) s = .next s := by
  simp only [execCongestionMark, State.mark, h]

theorem rateRecovery_next (p : Nat) (s : State) : ∃ t, execRateRecovery p s = .next t ∧ t.crews = s.crews ∧ t.mem = s.mem ∧
    (t.cluster p) = { s.cluster p with
      g := (s.cluster p).g.recover s.time, fmod := smMap (fun _ r => r.recover s.time) (s.cluster p).fmod } ∧
    (s.ownerOf p = none → t.parts = s.parts) := by
  refine ⟨_, rfl, ?_⟩
  simp only
  split
  next tag ho => exact ⟨rfl, rfl, (cluster_modPart ..).trans (cluster_modCluster_self ..), fun h =>
      absurd (ho.symm.trans h) (Option.some_ne_none tag)⟩
  · exact ⟨rfl, rfl, cluster_modCluster_self .., fun _ => rfl⟩

end

section
variable {r : Rate} {time : Nat}

theorem recover_of_early (h : time < r.since + 1000) : r.recover time = r := if_pos h

section
variable (h : r.since + 1000 ≤ time)
include h

theorem recover_of_part (hn : r.num + 16 * 2 ^ r.exp < 1024 * 2 ^ r.exp) :
    r.recover time = { num := r.num + 16 * 2 ^ r.exp, exp := r.exp, since := r.since + 1000 } := by
  simp only [Rate.recover, if_neg (Nat.not_lt.2 h), if_neg (Nat.not_le.2 hn)]

theorem recover_of_full (hn : 1024 * 2 ^ r.exp ≤ r.num + 16 * 2 ^ r.exp) (hl : r.num < 1024 * 2 ^ r.exp) :
    r.recover time = { num := 1024, exp := 0, since := r.since + 1000 } := by
  simp only [Rate.recover, if_neg (Nat.not_lt.2 h), if_pos hn, if_pos hl]

end

theorem mark_of_halved (h : 2 ^ (r.exp + 1) ≤ r.num) : r.mark time = { num := r.num, exp := r.exp + 1, since := time } :=
  if_neg (Nat.not_lt.2 h)

theorem mark_of_least (h : r.num < 2 ^ (r.exp + 1)) : r.mark time = { num := 1, exp := 0, since := time } := if_pos h

end

section
variable {n : Nat} {s : State}

theorem congestionWindow_of_early (h : s.time < smGetD s.windows n 0 + 1000) : execCongestionWindow n s = .next s := by
  simp only [execCongestionWindow, if_pos h]

variable (h : smGetD s.windows n 0 + 1000 ≤ s.time) {u : State}
  (hu : u = { s with windows := smSet s.windows n (s.time / 1000 * 1000) })
include h hu

theorem congestionWindow_of_router (hn : n < 4096) : execCongestionWindow n s = .next
    (forN 3 (forL (u.routerMarks n) u fun m s => s.mark m) fun plane s =>
      s.modRouter plane n fun r => { r with deflected := [] }) := by
  subst hu
  simp only [execCongestionWindow, if_neg (Nat.not_lt.2 h), if_pos hn]

theorem congestionWindow_of_port (hn : 4096 ≤ n) {v : State} (hv : v = u.notePoint n) : execCongestionWindow n s = .next
    (forL (v.windowMarks n) { v with seen := smDel v.seen n } fun m s => s.mark m) := by
  subst hv hu
  simp only [execCongestionWindow, if_neg (Nat.not_lt.2 h), if_neg (Nat.not_lt.2 hn)]

end

end Sys2Proof.Machine
end

section
/-!
The statement of spec/13_xandu_fabric.md on packets, replies, time-outs, links, resets, the write buffer, allowances and congestion.
-/

open Sys2Proof Sys2Proof.Machine

/-- Settles O51, a lemma to each branch of the events (`fabAck_of_…`, `egressRoute_of_…`, `ingress_of_…`). OPC 1 of a service packet,
which asks for the other incarnation, is the model's choice of place (log 47), and so is that a later request of a stream to one line
stays at the egress until the earlier is over (log 48), and what a marking window counts (log 50). -/
theorem fabricEvents : Obligations.FabricEvents := by
  refine ⟨fun id a s => ?acks, fun id a s u r cid co lane pid t hr ht hp hu hv => ?thread,
    fun id a s u r l t hr ht hp hu hc hv => ?drain, fun id s r c hm hp => ?lost, fun id port o s hs => ?egress,
    fun port k s t ht => ?ingress, fun k s _ hv asid a hs ha hc => ?accept, fun id s => ?timeout, fun port m ok s => ?train,
    fun port s => ?flit, fun part m rtag inc s => ?reset, fun m rtag inc s => rfl, fun part pid e e2 s => ?join,
    fun part pid e x s u p hp hx hu => ⟨joinPeer_of_invalid hp hx hu, joinPeer_of_away hp hx hu⟩, fun p n s => ?age,
    fun p s => ?refill, fun p k s => ?mark, rateRecovery_next, fun r time => ?rate, fun n s u hu => ?window⟩
  case acks =>
    exact ⟨fun h => congrArg Host.Outcome.next (fabAck_of_none a h),
      fun r hr h => congrArg Host.Outcome.next (fabAck_of_over hr h)⟩
  case thread =>
    have hm : ∀ o, r.use ≠ .mirror o := fun o => by rw [hu]; exact FabUse.noConfusion
    refine ⟨fun he w hw => congrArg Host.Outcome.next ?_, fun he hc hn p hpd => congrArg Host.Outcome.next ?_⟩
    · rw [fabAck_of_ended hr ht hp hv hm he, endFab_eq hw, fabEnded_of_thread hu]
    · rw [fabAck_of_performed hr ht hp hv he, doneFab_of_alone hm (by rw [hc]; decide) hn]
      exact fabPerformed_of_read (s := u.dropFab id) hu hc hpd _
  case drain =>
    have hm : ∀ o, r.use ≠ .mirror o := fun o => by rw [hu]; exact FabUse.noConfusion
    refine ⟨fun he hn => congrArg Host.Outcome.next ?_, fun he w hw => congrArg Host.Outcome.next ?_⟩
    · rw [fabAck_of_performed hr ht hp hv he, doneFab_of_alone hm (by rw [hc]; decide) hn]
      exact fabPerformed_of_drain hu _
    · rw [fabAck_of_ended hr ht hp hv hm he, endFab_eq hw, fabEnded_of_drain hu]
  case lost => exact ⟨fabLost_of_single hm hp, fabLost_of_mirrored hm hp, postFab_of_fabCause, postFab_of_other⟩
  case egress =>
    refine ⟨fun f det k he => ⟨egressRoute_of_other_port hs he, egressRoute_of_up hs he, egressRoute_of_down hs he⟩,
      egressRoute_of_none hs, fun r he hf => ⟨egressRoute_of_held hs he hf, fun hn hp hb u hu => ⟨fun hd => ?_, ?_, ?_⟩⟩⟩
    · exact ⟨fun det => egressRoute_of_way hs he hf hn hp hb hu hd, fun f det => egressRoute_of_other_way hs he hf hn hp hb hd,
        fun hk f => egressRoute_of_no_way hs he hf hn hp hb hu hd hk⟩
    · exact egressRoute_of_stale hs he hf hn hp hb hu
    · exact fun p hd hg hi => ⟨fun t => egressRoute_of_accepted hs he hf hn hp hb hu hd hg hi,
        egressRoute_of_wait hs he hf hn hp hb hu hd hg hi⟩
  case ingress =>
    exact ⟨ingress_of_down ht, fun h => ⟨ingress_of_reserved ht h, ingress_of_transit ht h, ingress_of_service ht h,
      fun hd h6 h7 => ⟨ingress_of_not_admitted ht h hd h6 h7, fun ha => ⟨ingress_of_control ht h hd h6 h7 ha,
        ingress_of_reply ht h hd h6 h7 ha, ingress_of_request ht h hd h6 h7 ha⟩⟩⟩⟩
  case accept =>
    exact ⟨fun t d => accept_of_read hv hs ha hc, fun e => accept_of_fault hv hs ha hc, accept_of_wait hv hs ha hc⟩
  case timeout =>
    exact ⟨fabricTimeout_of_none, fun r hr => ⟨fabricTimeout_of_over hr, fun t p ht hp => fabricTimeout_of_early hr ht hp,
      fun t p pid e u ht hp hn h => fabricTimeout_of_due hr ht hp hn h⟩⟩
  case train => exact ⟨linkTrain_of_trained, linkTrain_of_untrained⟩
  case flit =>
    exact ⟨fun h ok => linkFlitRetry_of_down h,
      fun h => ⟨linkFlitRetry_of_ok h, linkFlitRetry_of_retry h, linkFlitRetry_of_eighth h⟩⟩
  case reset => exact ⟨resetNotice_of_no_part, fun p hp => ⟨resetNotice_of_refused hp, resetNotice_of_admitted hp⟩⟩
  case join => exact ⟨peerJoin_of_refused, fun hp hl => ⟨peerJoin_of_mirrored hp hl, peerJoin_of_single hp hl⟩⟩
  case age =>
    exact ⟨wcbAgeDrain_of_none, fun w x hw hx => ⟨wcbAgeDrain_of_early hw hx, wcbAgeDrain_of_due hw hx⟩⟩
  case refill =>
    refine ⟨_, execAllowanceRefill_eq p s, rfl, fun cid c hc => ⟨s.refillCrew p c, ?_, refillCrew_of_other,
      fun hp x hx co h hco => ⟨_, (congrArg (·[co]?) (refillCrew_cohorts hp hx)).trans
        (List.getElem?_map.trans (congrArg (Option.map _) hco)), rfl, fun i w hw => ?_⟩⟩⟩
    · rw [smGet_smMap', hc]
      rfl
    · simp only [State.refillCohort, Fin.getElem_fin, Vector.getElem_map] at hw ⊢
      rw [hw]
      exact ⟨fun hs => congrArg some (refill_of_same hs), fun hl => congrArg some (refill_of_later hl)⟩
  case mark =>
    exact ⟨rfl, rfl, congestionMark_of_host_no_owner k, fun tag => congestionMark_of_host_owner k, congestionMark_of_slice k⟩
  case rate => exact ⟨recover_of_early, recover_of_part, recover_of_full, mark_of_halved, mark_of_least⟩
  case window =>
    exact ⟨congestionWindow_of_early, fun h => ⟨congestionWindow_of_router h hu, fun hn v => congestionWindow_of_port h hu hn⟩⟩
end
